-- ==== Sys2Proof/Word.lean ====
section
/-! DEFINITION. The words of the machine: scalar words, bytes, 1,024-bit vector registers and their lanes (spec/02_encoding.md R47). -/

namespace Sys2Proof

/-- A scalar word of RV64. -/
abbrev Word := BitVec 64

/-- One byte of a memory. -/
abbrev Byte := BitVec 8

/-- One 32-bit lane of a vector register (R47). -/
abbrev Lane := BitVec 32

/-- A vector register of 1,024 bits (R47, R125). It also serves as one 128-byte line. -/
abbrev VReg := BitVec 1024

/-- `Lane(v, i)` of R47: `v[32i+31:32i]`. -/
def lane (v : VReg) (i : Nat) : Lane := v.extractLsb' (32 * i) 32

/-- The first `n` lanes given by `f`, packed from lane 0 up. -/
def packLanes (f : Nat → Lane) : Nat → VReg
  | 0 => 0
  | n + 1 => packLanes f n ||| ((f n).setWidth 1024 <<< (32 * n))

/-- The vector register whose lane `i` is `f i`. -/
def ofLanes (f : Nat → Lane) : VReg := packLanes f 32

/-- `v` with lane `i` replaced by `x`. -/
def setLane (v : VReg) (i : Nat) (x : Lane) : VReg :=
  ofLanes (fun j => if j = i then x else lane v j)

/-- `ZeroExt(v, n)` into a scalar word (R47). -/
def zext64 {n : Nat} (v : BitVec n) : Word := v.setWidth 64

/-- `SignExt(v, n)` into a scalar word (R47). -/
def sext64 {n : Nat} (v : BitVec n) : Word := v.signExtend 64

/-- A Boolean as a scalar word. -/
def boolWord (b : Bool) : Word := if b then 1 else 0

end Sys2Proof
end

