-- ==== Sys2Proof/Config.lean ====
section
/-! DEFINITION. Values that the manual leaves open, as constants with no body (DESIGN CHOICE, assumption log 14, 16, 22, 25). -/

namespace Sys2Proof

/-- A value the manual does not fix. It is applied to the counter `State.fresh`, so each use has its own (DESIGN CHOICE, assumption log 14). -/
opaque Config.freeValue : Nat → Word

/-- The weighted activity, in pJ and before scaling, that the meters add to a firing at one update, by the counter: R378 names neither
the events that are counted nor their weights (DESIGN CHOICE, assumption log 14). -/
opaque Config.meterEnergy : Nat → Nat

/-- The leakage weight of an occupied cell, in pJ per cycle and before scaling (R378 gives no number; DESIGN CHOICE, assumption log 14). -/
opaque Config.leakage : Nat

/-- The energy in pJ that the rail sensors read over a window, by the counter (R378; DESIGN CHOICE, assumption log 14). -/
opaque Config.railEnergy : Nat → Nat

/-- Whether an Ed448 signature verifies, from the key, the message and the signature (R400, RFC 8032; DESIGN CHOICE, assumption log 16). -/
opaque Config.ed448Verify : List Byte → List Byte → List Byte → Bool

/-- The launch note of an object file, whose layout the manual does not give (R50, R400; DESIGN CHOICE, assumption log 16):
image base, drift, entry. -/
opaque Config.launchNote : List Byte → Option (Nat × Nat × Nat)

/-- Whether the value of a number that an INVOKE gives to an image is a size, by the image's graph template: R54 lets it be one, and names
nothing that tells a size from an address (DESIGN CHOICE, assumption log 61). -/
opaque Config.relIsSize : List Byte → Nat → Bool

/-- The payload of an SPDM response (R403 names the responses and gives no bytes; DESIGN CHOICE, assumption log 16). -/
opaque Config.spdmPayload : Nat → List Byte

/-- The secret fused into the chip, the measurement of a firmware image, the first-layer key that the boot ROM derives from the two,
and the certificate chain by which that key certifies the firmware's alias key (R403 names them and gives no bytes; DESIGN CHOICE,
assumption log 16). -/
opaque Config.fusedSecret : List Byte
opaque Config.measurement : List Byte → List Byte
opaque Config.firstLayerKey : List Byte → List Byte → List Byte
opaque Config.certificateChain : List Byte → List Byte → List Byte

/-- Whether a firmware image verifies at boot (R404 names the check and gives no format; DESIGN CHOICE, assumption log 16). -/
opaque Config.firmwareVerifies : List Byte → Bool

/-- A field of the op-specific bytes of an ADMIN packet, by operation and number, from the bytes [16] on of the packet:
R395 gives the places of the fields of operations 7 and 8 only (DESIGN CHOICE, assumption log 25). -/
opaque Config.adminField : Nat → Nat → List Byte → Nat

/-- The context record of operation 0, or the QCB bytes of operation 2, in an ADMIN packet (R395; DESIGN CHOICE, assumption log 25). -/
opaque Config.adminBytes : Nat → List Byte → List Byte

/-- The 4 KiB frames of HBM4E that the firmware keeps for its own tables (R388, R396), by number (DESIGN CHOICE, assumption log 25). -/
opaque Config.firmwareFrame : Nat → Nat

/-- The GiB of stack domain 0 that the firmware reserves at boot for the bootstrap mapping (R396; DESIGN CHOICE, assumption log 25). -/
opaque Config.bootstrapGiB : Nat

/-- The hash of a 4 KiB page number that splits the traffic between opposite dies (R9 names none; DESIGN CHOICE, assumption log 62). -/
opaque Config.routeHash : Nat → Bool

/-- Whether a logical cluster of another chip is live, by network id and cluster (R215; DESIGN CHOICE, assumption log 69). -/
opaque Config.remoteClusterLive : Nat → Nat → Bool

/-- The place of the 4 MiB overflow area of a die's synchronisation engine in its first stack domain, in units of 4 MiB (R262; DESIGN
CHOICE, assumption log 25). -/
opaque Config.overflowFrame : Nat → Nat

/-- The free 2 MiB frames that the firmware gives the tier engine at boot (R234; DESIGN CHOICE, assumption log 25). -/
opaque Config.tierFrames : List (Nat × Bool)

/-- The credits that a receiver grants on a channel of a link when it comes up, in slots (R408; DESIGN CHOICE, assumption log 22). -/
opaque Config.linkCredits : Nat → Nat

end Sys2Proof
end

