-- ==== Sys2Proof/Syntax.lean ====
section
/-! DEFINITION. The instructions and events of the machine: one constructor for each row of spec/opcode_table.json. The operands of an instruction are the fields of its word, named as the table names them (for the RV64 base, as the published specification does); the operands of an event say which agent it happens to, and what arrives from outside. The rows stand in the order: Yalzin words, RV64 base, events. -/

namespace Sys2Proof

/-- An instruction of R37 to R40 or R43, or an event of the device (spec/95_what_each_step_holds.md). -/
inductive Instr where
  /-- Lane-wise 32-bit add, wrapping. (R135) -/
  | vadd (m : BitVec 1) (b a d : BitVec 5) (r : BitVec 3)
  /-- Lane-wise 32-bit subtract. (R135) -/
  | vsub (m : BitVec 1) (b a d : BitVec 5) (r : BitVec 3)
  /-- Lane-wise signed multiply, low 32 bits. (R135) -/
  | vmul (m : BitVec 1) (b a d : BitVec 5) (r : BitVec 3)
  /-- Lane-wise signed multiply, high 32 bits. (R135) -/
  | vmulh (m : BitVec 1) (b a d : BitVec 5) (r : BitVec 3)
  /-- Lane-wise and. (R135) -/
  | vand (m : BitVec 1) (b a d : BitVec 5) (r : BitVec 3)
  /-- Lane-wise or. (R135) -/
  | vor (m : BitVec 1) (b a d : BitVec 5) (r : BitVec 3)
  /-- Lane-wise xor. (R135) -/
  | vxor (m : BitVec 1) (b a d : BitVec 5) (r : BitVec 3)
  /-- Lane-wise shift left logical. (R135) -/
  | vsll (m : BitVec 1) (b a d : BitVec 5) (r : BitVec 3)
  /-- Lane-wise shift right logical. (R135) -/
  | vsrl (m : BitVec 1) (b a d : BitVec 5) (r : BitVec 3)
  /-- Lane-wise shift right arithmetic. (R135) -/
  | vsra (m : BitVec 1) (b a d : BitVec 5) (r : BitVec 3)
  /-- Lane-wise signed minimum. (R135) -/
  | vmin (m : BitVec 1) (b a d : BitVec 5) (r : BitVec 3)
  /-- Lane-wise signed maximum. (R135) -/
  | vmax (m : BitVec 1) (b a d : BitVec 5) (r : BitVec 3)
  /-- Lane-wise unsigned minimum. (R135) -/
  | vminu (m : BitVec 1) (b a d : BitVec 5) (r : BitVec 3)
  /-- Lane-wise unsigned maximum. (R135) -/
  | vmaxu (m : BitVec 1) (b a d : BitVec 5) (r : BitVec 3)
  /-- Adds the low word of a scalar register to every lane. (R135) -/
  | vaddx (m : BitVec 1) (b a d : BitVec 5) (r : BitVec 3)
  /-- Writes X(rs1) + i × imm5 into each lane i. (R135) -/
  | viota (m : BitVec 1) (i a d : BitVec 5) (r : BitVec 3)
  /-- Lane-wise FP32 add, rounded once with RNE. (R136) -/
  | vfadd (m : BitVec 1) (b a d : BitVec 5) (r : BitVec 3)
  /-- Lane-wise FP32 subtract. (R136) -/
  | vfsub (m : BitVec 1) (b a d : BitVec 5) (r : BitVec 3)
  /-- Lane-wise FP32 multiply. (R136) -/
  | vfmul (m : BitVec 1) (b a d : BitVec 5) (r : BitVec 3)
  /-- Lane-wise fused multiply-add into the old vd, one rounding. (R136) -/
  | vfma (m : BitVec 1) (b a d : BitVec 5) (r : BitVec 3)
  /-- Lane-wise FP32 minimum, returning the non-NaN operand. (R136) -/
  | vfmin (m : BitVec 1) (b a d : BitVec 5) (r : BitVec 3)
  /-- Lane-wise FP32 maximum, returning the non-NaN operand. (R136) -/
  | vfmax (m : BitVec 1) (b a d : BitVec 5) (r : BitVec 3)
  /-- Correctly rounded 2^a per lane. (R137) -/
  | vfexp2 (m : BitVec 1) (a d : BitVec 5) (r : BitVec 3)
  /-- Correctly rounded reciprocal per lane. (R137) -/
  | vfrcp (m : BitVec 1) (a d : BitVec 5) (r : BitVec 3)
  /-- Correctly rounded reciprocal square root per lane. (R137) -/
  | vfrsqrt (m : BitVec 1) (a d : BitVec 5) (r : BitVec 3)
  /-- Correctly rounded log2 per lane. (R137) -/
  | vflog2 (m : BitVec 1) (a d : BitVec 5) (r : BitVec 3)
  /-- Multiplies every lane by the FP32 value of a scalar register. (R136) -/
  | vfmulx (m : BitVec 1) (b a d : BitVec 5) (r : BitVec 3)
  /-- Adds the FP32 value of a scalar register to every lane. (R136) -/
  | vfaddx (m : BitVec 1) (b a d : BitVec 5) (r : BitVec 3)
  /-- Sets a mask bit per lane where the 32-bit patterns are equal. (R138) -/
  | vcmpeq (m : BitVec 1) (b a d : BitVec 5) (r : BitVec 3)
  /-- Sets a mask bit per lane where a < b signed. (R138) -/
  | vcmplt (m : BitVec 1) (b a d : BitVec 5) (r : BitVec 3)
  /-- Sets a mask bit per lane where a < b unsigned. (R138) -/
  | vcmpltu (m : BitVec 1) (b a d : BitVec 5) (r : BitVec 3)
  /-- Sets a mask bit per lane where a = b as FP32. (R138) -/
  | vfcmpeq (m : BitVec 1) (b a d : BitVec 5) (r : BitVec 3)
  /-- Sets a mask bit per lane where a < b as FP32. (R138) -/
  | vfcmplt (m : BitVec 1) (b a d : BitVec 5) (r : BitVec 3)
  /-- Mask register and. (R139) -/
  | kopAnd (b : BitVec 3) (a d : BitVec 5) (r : BitVec 3)
  /-- Mask register or. (R139) -/
  | kopOr (b : BitVec 3) (a d : BitVec 5) (r : BitVec 3)
  /-- Mask register xor. (R139) -/
  | kopXor (b : BitVec 3) (a d : BitVec 5) (r : BitVec 3)
  /-- Mask register and-not. (R139) -/
  | kopAndn (b : BitVec 3) (a d : BitVec 5) (r : BitVec 3)
  /-- Writes the population count of a mask register to rd. (R139) -/
  | kpop (a d : BitVec 5) (r : BitVec 3)
  /-- Writes the index of the lowest set mask bit, or 32. (R139) -/
  | kpopFirst (a d : BitVec 5) (r : BitVec 3)
  /-- Selects lanes from vs1 or vs2 under k0. (R140) -/
  | vsel (b a d : BitVec 5) (r : BitVec 3)
  /-- Narrows 32 FP32 lanes to the format of a format register, rounding with vrm. (R93) -/
  | vcvtn (m : BitVec 1) (f a d : BitVec 5) (r : BitVec 3)
  /-- Widens codes of a format register's format to 32 FP32 lanes exactly. (R93) -/
  | vcvtw (m : BitVec 1) (f a d : BitVec 5) (r : BitVec 3)
  /-- Converts fixed-point integers to FP32 with vrm. (R94) -/
  | vcvtif (m : BitVec 1) (i a d : BitVec 5) (r : BitVec 3)
  /-- Converts FP32 to saturated fixed-point integers. (R94) -/
  | vcvtfi (m : BitVec 1) (i a d : BitVec 5) (r : BitVec 3)
  /-- FP32 sum of 32 lanes by the fixed pairwise tree into lane 0. (R141) -/
  | vredsum (m : BitVec 1) (a d : BitVec 5) (r : BitVec 3)
  /-- Int32 wrapping sum of 32 lanes into lane 0. (R141) -/
  | vredsumI32 (m : BitVec 1) (a d : BitVec 5) (r : BitVec 3)
  /-- FP32 maximum of 32 lanes, propagating NaN. (R141) -/
  | vredmax (m : BitVec 1) (a d : BitVec 5) (r : BitVec 3)
  /-- Signed int32 maximum of 32 lanes. (R141) -/
  | vredmaxI32 (m : BitVec 1) (a d : BitVec 5) (r : BitVec 3)
  /-- FP32 minimum of 32 lanes, propagating NaN. (R141) -/
  | vredmin (m : BitVec 1) (a d : BitVec 5) (r : BitVec 3)
  /-- Signed int32 minimum of 32 lanes. (R141) -/
  | vredminI32 (m : BitVec 1) (a d : BitVec 5) (r : BitVec 3)
  /-- Slides lanes by a signed scalar offset, filling with zero. (R143) -/
  | vslide (m : BitVec 1) (b a d : BitVec 5) (r : BitVec 3)
  /-- Permutes lanes by indexes in vs2. (R143) -/
  | vperm (m : BitVec 1) (b a d : BitVec 5) (r : BitVec 3)
  /-- Packs the lanes selected by k0 toward lane 0. (R143) -/
  | vcompress (a d : BitVec 5) (r : BitVec 3)
  /-- Broadcasts the low word of a scalar register into the allowed lanes. (R144) -/
  | vmvxv (m : BitVec 1) (a d : BitVec 5) (r : BitVec 3)
  /-- Moves one lane, sign-extended, into a scalar register. (R144) -/
  | vmvvx (i a d : BitVec 5) (r : BitVec 3)
  /-- Accumulates one block of online softmax, with lazy rescale of the state. (R146) -/
  | vsmaxacc (m : BitVec 1) (b a d : BitVec 5) (r : BitVec 3)
  /-- Divides an output row by the running sum of the softmax state. (R147) -/
  | vsmaxfin (m : BitVec 1) (b a d : BitVec 5) (r : BitVec 3)
  /-- Stable ascending sort of 32 keys carrying 32 values. (R148) -/
  | vsortkv (b a d : BitVec 5) (r : BitVec 3)
  /-- Marks the first lane of each run of equal keys in a mask. (R149) -/
  | vseghead (a d : BitVec 5) (r : BitVec 3)
  /-- Keeps the N largest of 24 lanes and writes their sparse metadata. (R150) -/
  | vsppack (i a d : BitVec 5) (r : BitVec 3)
  /-- Weak strided load of 32 lanes from virtual memory, translating all lanes first. (R239) -/
  | vldm (b a d : BitVec 5) (r : BitVec 3)
  /-- Weak strided store of 32 lanes, all lanes checked before any is stored. (R239) -/
  | vstm (b a d : BitVec 5) (r : BitVec 3)
  /-- Weak indexed load, interruptible at lane boundaries. (R239) -/
  | vldx (b a d : BitVec 5) (r : BitVec 3)
  /-- Weak indexed store, interruptible at lane boundaries. (R239) -/
  | vstx (b a d : BitVec 5) (r : BitVec 3)
  /-- Loads a vector register from scratchpad at a stride, waiting on empty lines. (R160) -/
  | vlds (b a d : BitVec 5) (r : BitVec 3)
  /-- Stores a vector register to scratchpad at a stride. (R160) -/
  | vsts (b a d : BitVec 5) (r : BitVec 3)
  /-- Strong scalar load at a named scope. (R240) -/
  | ldst (z : BitVec 2) (s : BitVec 3) (a d : BitVec 5) (r : BitVec 3)
  /-- Strong scalar store at a named scope. (R240) -/
  | stst (z : BitVec 2) (s : BitVec 3) (a d : BitVec 5) (r : BitVec 3)
  /-- Waits for earlier accesses, releases at a scope, advances the phase count, holds under drift, then acquires. (R311) -/
  | phase (s : BitVec 3) (d : BitVec 5) (r : BitVec 3)
  /-- Releases and acquires at a scope without advancing the phase count. (R312) -/
  | fenceBoth (s r : BitVec 3)
  /-- Releases at a scope. (R312) -/
  | fenceRel (s r : BitVec 3)
  /-- Acquires at a scope. (R312) -/
  | fenceAcq (s r : BitVec 3)
  /-- Sets a run of scratchpad lines empty after conflicting writes finish. (R159) -/
  | spfeEmpty (b a : BitVec 5) (r : BitVec 3)
  /-- Sets a run of scratchpad lines full after conflicting writes finish. (R159) -/
  | spfeFull (b a : BitVec 5) (r : BitVec 3)
  /-- Rotates a tile view round the four partitions of the cluster in lockstep. (R162) -/
  | sprot (a : BitVec 5) (r : BitVec 3)
  /-- Loads a tile register from a scratchpad view. (R161) -/
  | tld (a d : BitVec 5) (r : BitVec 3)
  /-- Stores a tile register to a scratchpad view. (R161) -/
  | tst (a d : BitVec 5) (r : BitVec 3)
  /-- Initialises a barrier object with an arrival count. (R274) -/
  | barinit (b a : BitVec 5) (r : BitVec 3)
  /-- Forces a flip of a valid barrier. (R274) -/
  | barinitForce (a : BitVec 5) (r : BitVec 3)
  /-- Zeroes a valid barrier object. (R274) -/
  | barinitFree (a : BitVec 5) (r : BitVec 3)
  /-- Releases at package scope and arrives at a barrier announcing bytes. (R275) -/
  | bararr (b a d : BitVec 5) (r : BitVec 3)
  /-- Arrives and lowers the expected count from the next phase. (R275) -/
  | bardrop (b a d : BitVec 5) (r : BitVec 3)
  /-- Arrives and raises the expected count from the next phase. (R275) -/
  | barjoin (b a d : BitVec 5) (r : BitVec 3)
  /-- Waits until the barrier parity differs, then acquires the counted payloads. (R276) -/
  | barwait (b a : BitVec 5) (r : BitVec 3)
  /-- Tests for a flip without waiting. (R276) -/
  | bartest (b a d : BitVec 5) (r : BitVec 3)
  /-- Sleeps until an 8-byte word differs from a value, then acquires. (R278) -/
  | waita (b a d : BitVec 5) (r : BitVec 3)
  /-- Binds a ring handle to a ring unit by geometry and key, or unbinds it. (R164) -/
  | ringinit (b a q : BitVec 5) (r : BitVec 3)
  /-- Waits for a free slot and claims it, returning its slot ref. (R166) -/
  | ringclaim (q d : BitVec 5) (r : BitVec 3)
  /-- Releases at cluster scope and makes a claimed slot Filled. (R166) -/
  | ringcommit (b q : BitVec 5) (r : BitVec 3)
  /-- Waits for the slot at index taken to be Filled, takes it and acquires. (R166) -/
  | ringtake (q d : BitVec 5) (r : BitVec 3)
  /-- Releases a taken slot, advancing tail over released runs. (R166) -/
  | ringfree (b q : BitVec 5) (r : BitVec 3)
  /-- Waits until head − taken reaches a count. (R166) -/
  | waitfill (b q d : BitVec 5) (r : BitVec 3)
  /-- Waits until enough slots are free. (R166) -/
  | waitfree (b q d : BitVec 5) (r : BitVec 3)
  /-- Sends a row to be added as FP32 into memory at the stack reduction unit or sync engine. (R282) -/
  | redaF32add (b a : BitVec 5) (r : BitVec 3)
  /-- Sends a row to be added as BF16 into memory. (R282) -/
  | redaBf16add (b a : BitVec 5) (r : BitVec 3)
  /-- Sends a row to be added as int32 into memory. (R282) -/
  | redaI32add (b a : BitVec 5) (r : BitVec 3)
  /-- Sends a row for an FP32 maximum into memory. (R282) -/
  | redaF32max (b a : BitVec 5) (r : BitVec 3)
  /-- Sends a row for an FP32 minimum into memory. (R282) -/
  | redaF32min (b a : BitVec 5) (r : BitVec 3)
  /-- Sends a row for a signed int32 maximum into memory. (R282) -/
  | redaI32max (b a : BitVec 5) (r : BitVec 3)
  /-- Sends a row for a signed int32 minimum into memory. (R282) -/
  | redaI32min (b a : BitVec 5) (r : BitVec 3)
  /-- Waits for the cell's reductions to be applied and returns and clears their flags. (R286) -/
  | redfence (d : BitVec 5) (r : BitVec 3)
  /-- Gives the node its probe region on the cluster, or releases it. (R169) -/
  | prcfg (b a d : BitVec 5) (r : BitVec 3)
  /-- Drops a probe tag, freeing its slot. (R172) -/
  | prinv (a d : BitVec 5) (r : BitVec 3)
  /-- Pins a probe slot against replacement. (R172) -/
  | prpin (a : BitVec 5) (r : BitVec 3)
  /-- Unpins a probe slot. (R172) -/
  | prunpin (a : BitVec 5) (r : BitVec 3)
  /-- Checks a copy schedule, waits for an engine and arms it, returning a copy id. (R256) -/
  | cparm (b a d : BitVec 5) (r : BitVec 3)
  /-- Releases and raises a schedule's stage counter. (R256) -/
  | cpstep (b a d : BitVec 5) (r : BitVec 3)
  /-- Returns the status word of a copy id. (R256) -/
  | cpstat (a d : BitVec 5) (r : BitVec 3)
  /-- Cancels a schedule, waits for beats in flight and frees the engine. (R256) -/
  | cpcancel (a d : BitVec 5) (r : BitVec 3)
  /-- Sets a pseudo-channel's mode and waits for the transition. (R299) -/
  | nbmode (b a d : BitVec 5) (r : BitVec 3)
  /-- Checks and appends one rill command to the target bank queues, returning a status. (R300) -/
  | nbcmd (b a d : BitVec 5) (r : BitVec 3)
  /-- Completes the cell's rill commands, writes back and invalidates its compute-capable lines, returns nbstat. (R301) -/
  | nbfence (d : BitVec 5) (r : BitVec 3)
  /-- Reads result registers of one bank into vector registers in bank order. (R302) -/
  | nbrd (b a d : BitVec 5) (r : BitVec 3)
  /-- Sets the priority and next-use step of a page record. (R241) -/
  | hintLife (b a : BitVec 5) (r : BitVec 3)
  /-- Brings a line into its home slice. (R241) -/
  | hintPref (a : BitVec 5) (r : BitVec 3)
  /-- Asks the tier engine to move a page to HBM4E. (R241) -/
  | hintFetch (a : BitVec 5) (r : BitVec 3)
  /-- Atomically advances the context's step count. (R242) -/
  | stepadv (a d : BitVec 5) (r : BitVec 3)
  /-- Tile product overwriting a ring slot, in the sum order of R90. (R183) -/
  | mma (b a : BitVec 5) (x y : BitVec 1) (o : BitVec 4) (r : BitVec 3)
  /-- Tile product accumulated into a ring slot. (R183) -/
  | mmaAcc (b a : BitVec 5) (x y : BitVec 1) (o : BitVec 4) (r : BitVec 3)
  /-- Negated tile product accumulated into a ring slot. (R183) -/
  | mmaNeg (b a : BitVec 5) (x y : BitVec 1) (o : BitVec 4) (r : BitVec 3)
  /-- Sparse tile product overwriting a ring slot. (R184) -/
  | mmas (b a : BitVec 5) (x y : BitVec 1) (o : BitVec 4) (r : BitVec 3)
  /-- Sparse tile product accumulated into a ring slot. (R184) -/
  | mmasAcc (b a : BitVec 5) (x y : BitVec 1) (o : BitVec 4) (r : BitVec 3)
  /-- Negated sparse tile product accumulated into a ring slot. (R184) -/
  | mmasNeg (b a : BitVec 5) (x y : BitVec 1) (o : BitVec 4) (r : BitVec 3)
  /-- Pushes n zeroed, tagged slots onto the accumulator ring. (R186) -/
  | accz (n : BitVec 4) (r : BitVec 3)
  /-- Scales each slot row by 2^e from vector lanes. (R187) -/
  | accscl (v : BitVec 5) (o : BitVec 4) (r : BitVec 3)
  /-- Scales every slot row by 2^e from a scalar register. (R187) -/
  | accsclX (v : BitVec 5) (o : BitVec 4) (r : BitVec 3)
  /-- Copies slot rows into vector registers. (R188) -/
  | accrd (n : BitVec 2) (t d : BitVec 5) (o : BitVec 4) (r : BitVec 3)
  /-- Copies slot columns into vector registers. (R188) -/
  | accrdCol (n : BitVec 2) (t d : BitVec 5) (o : BitVec 4) (r : BitVec 3)
  /-- Copies vector registers into slot rows. (R188) -/
  | accwr (n : BitVec 2) (t d : BitVec 5) (o : BitVec 4) (r : BitVec 3)
  /-- Copies vector registers into slot columns. (R188) -/
  | accwrCol (n : BitVec 2) (t d : BitVec 5) (o : BitVec 4) (r : BitVec 3)
  /-- Drains slots from the ring tail through scale, bias, activation and narrowing to a view or tile. (R191) -/
  | epi (b a : BitVec 5) (x : BitVec 1) (r : BitVec 3)
  /-- Holds the front end until every earlier matrix-queue command has completed. (R193) -/
  | mqctlWait (r : BitVec 3)
  /-- Sets the epilogue rounding mode in matrix-queue order. (R193) -/
  | mqctlRm (s : BitVec 5) (r : BitVec 3)
  /-- Sets ftbase in matrix-queue order. (R193) -/
  | mqctlFtb (s : BitVec 5) (r : BitVec 3)
  /-- Raw rank-C update of a fast-weight object. (R208) -/
  | opu (h a : BitVec 5) (r : BitVec 3)
  /-- Reads Y = Q·W from a fast-weight object under a shared hold. (R208) -/
  | fwfwd (h a : BitVec 5) (r : BitVec 3)
  /-- Chunk-checked delta-rule update without Y. (R208) -/
  | fwupdD (h a b : BitVec 5) (r : BitVec 3)
  /-- Chunk-checked Hebbian update without Y. (R208) -/
  | fwupdH (h a b : BitVec 5) (r : BitVec 3)
  /-- Chunk-checked external-error update without Y. (R208) -/
  | fwupdE (h a b : BitVec 5) (r : BitVec 3)
  /-- Fused delta-rule update, read-fade-write. (R208) -/
  | fwfuD (h a b : BitVec 5) (r : BitVec 3)
  /-- Fused delta-rule update, fade-write-read. (R208) -/
  | fwfuDl (h a b : BitVec 5) (r : BitVec 3)
  /-- Fused Hebbian update, read-fade-write. (R208) -/
  | fwfuH (h a b : BitVec 5) (r : BitVec 3)
  /-- Fused Hebbian update, fade-write-read. (R208) -/
  | fwfuHl (h a b : BitVec 5) (r : BitVec 3)
  /-- Fused external-error update. (R208) -/
  | fwfuE (h a b : BitVec 5) (r : BitVec 3)
  /-- Makes a read-only snapshot handle sharing every block. (R211) -/
  | fwsnapSnap (h a : BitVec 5) (r : BitVec 3)
  /-- Makes a writable handle sharing every block. (R211) -/
  | fwsnapFork (h a : BitVec 5) (r : BitVec 3)
  /-- Replaces an object's blocks and chunk number with a snapshot's. (R211) -/
  | fwsnapRollback (h a : BitVec 5) (r : BitVec 3)
  /-- Frees a handle, decrementing its block counts. (R211) -/
  | fwsnapFree (h : BitVec 5) (r : BitVec 3)
  /-- Weighted element-wise average of two objects into a destination. (R212) -/
  | fwavg (h a b : BitVec 5) (r : BitVec 3)
  /-- Moves an object whole to a cluster, another chip or LPDDR6, keeping its handle. (R215) -/
  | fwmig (h a : BitVec 5) (r : BitVec 3)
  /-- Pins an object against eviction. (R213) -/
  | fwctlPin (h : BitVec 5) (r : BitVec 3)
  /-- Clears an object's pin. (R213) -/
  | fwctlUnpin (h : BitVec 5) (r : BitVec 3)
  /-- Returns the status word of a handle. (R214) -/
  | fwctlQuery (h a : BitVec 5) (r : BitVec 3)
  /-- Sets an object's priority and next-use step. (R213) -/
  | fwctlHint (h a b : BitVec 5) (r : BitVec 3)
  /-- Waits until an object is resident here, starting a page-in. (R213) -/
  | fwctlWait (h : BitVec 5) (r : BitVec 3)
  /-- Creates a zeroed object in the cell's cluster and returns its handle. (R213) -/
  | fwctlNew (h a b : BitVec 5) (r : BitVec 3)
  /-- Role marker: cells outside the mask jump over the region. (R109) -/
  | role (m : BitVec 7) (s : BitVec 8)
  /-- Sender side claims and arrives, receiver side waits for the commit and acquires. (R112) -/
  | handoff (v : BitVec 3) (q : BitVec 4) (n : BitVec 8) (s : BitVec 3)
  /-- Starts a counted hardware loop on a free counter. (R119) -/
  | loop (c : BitVec 5) (e : BitVec 10) (r : BitVec 3)
  /-- Returns the binding of a role as seen from the cell. (R108) -/
  | roleid (a d : BitVec 5) (r : BitVec 3)
  /-- Sets the member's lead allowance and returns the old one. (R118) -/
  | drift (a d : BitVec 5) (r : BitVec 3)
  /-- Grows the vector allotment, zeroing the new registers. (R129) -/
  | vgrow (a d : BitVec 5) (r : BitVec 3)
  /-- Shrinks the vector allotment, zeroing and releasing registers. (R129) -/
  | vshrink (a d : BitVec 5) (r : BitVec 3)
  /-- Writes a decoded descriptor into a format register. (R91) -/
  | fmset (a d : BitVec 5) (r : BitVec 3)
  /-- Writes one format-table entry in matrix-queue order. (R92) -/
  | ftset (b a : BitVec 5) (r : BitVec 3)
  /-- Draws the next iteration of a range interval, or marks a stage token boundary. (R340) -/
  | rnext (d : BitVec 5) (r : BitVec 3)
  /-- Stages one token on an output port. (R341) -/
  | ntoken (b a : BitVec 5) (r : BitVec 3)
  /-- Reads a peeked token's payload or tag, or the firing's attributes. (R345) -/
  | nctx (a d : BitVec 5) (r : BitVec 3)
  /-- Waits for the member's commands, releases at package scope and ends its part of the firing. (R346) -/
  | ndone (r : BitVec 3)
  /-- Ends the firing as a fault with a cause. (R346) -/
  | nfail (a : BitVec 5) (r : BitVec 3)
  /-- Leaves handler mode, restores loops, re-injects the replay queue and resumes at tepc. (R363) -/
  | trapret (r : BitVec 3)
  /-- Reads a replay-queue dword or a task-bank register in handler mode. (R361) -/
  | rqrd (a d : BitVec 5) (r : BitVec 3)
  /-- Writes a replay-queue dword or a task-bank register in handler mode. (R361) -/
  | rqwr (b a : BitVec 5) (r : BitVec 3)
  /-- Removes one replay entry, releasing its resources. (R362) -/
  | rqdrop (a : BitVec 5) (r : BitVec 3)
  /-- Reads one energy figure chosen by a selector. (R384) -/
  | enread (a d : BitVec 5) (r : BitVec 3)
  /-- Replaces the firing's energy reservation and returns the old one. (R385) -/
  | enest (a d : BitVec 5) (r : BitVec 3)
  /-- Posts a software record of type 7 to the trap ring. (R371) -/
  | trec (b a : BitVec 5) (r : BitVec 3)
  /-- Looks up a block in the probe cache, starting a fill and branching on a miss. (R170) -/
  | probe (o : BitVec 10) (a d : BitVec 5) (r : BitVec 3)
  /-- RV64I load upper immediate with the published encoding and effect. (R43) -/
  | lui (rd : BitVec 5) (imm : BitVec 20)
  /-- RV64I add upper immediate to pc. (R43) -/
  | auipc (rd : BitVec 5) (imm : BitVec 20)
  /-- Jump and link; a target that is not a multiple of 4 traps with cause 0x03 and writes no rd. (R23) -/
  | jal (rd : BitVec 5) (imm : BitVec 20)
  /-- Indirect jump and link; a misaligned target traps with cause 0x03 on the jump. (R23) -/
  | jalr (rd rs1 : BitVec 5) (imm : BitVec 12)
  /-- Branch if equal; a misaligned target traps under R23. (R43) -/
  | beq (rs1 rs2 : BitVec 5) (imm : BitVec 12)
  /-- Branch if not equal. (R43) -/
  | bne (rs1 rs2 : BitVec 5) (imm : BitVec 12)
  /-- Branch if less than, signed. (R43) -/
  | blt (rs1 rs2 : BitVec 5) (imm : BitVec 12)
  /-- Branch if greater or equal, signed. (R43) -/
  | bge (rs1 rs2 : BitVec 5) (imm : BitVec 12)
  /-- Branch if less than, unsigned. (R43) -/
  | bltu (rs1 rs2 : BitVec 5) (imm : BitVec 12)
  /-- Branch if greater or equal, unsigned. (R43) -/
  | bgeu (rs1 rs2 : BitVec 5) (imm : BitVec 12)
  /-- Weak load of a signed byte. (R43) -/
  | lb (rd rs1 : BitVec 5) (imm : BitVec 12)
  /-- Weak load of a signed halfword; misaligned traps with cause 0x03. (R44) -/
  | lh (rd rs1 : BitVec 5) (imm : BitVec 12)
  /-- Weak load of a signed word; misaligned traps with cause 0x03. (R44) -/
  | lw (rd rs1 : BitVec 5) (imm : BitVec 12)
  /-- Weak load of a doubleword; misaligned traps with cause 0x03. (R44) -/
  | ld (rd rs1 : BitVec 5) (imm : BitVec 12)
  /-- Weak load of an unsigned byte. (R43) -/
  | lbu (rd rs1 : BitVec 5) (imm : BitVec 12)
  /-- Weak load of an unsigned halfword. (R44) -/
  | lhu (rd rs1 : BitVec 5) (imm : BitVec 12)
  /-- Weak load of an unsigned word. (R44) -/
  | lwu (rd rs1 : BitVec 5) (imm : BitVec 12)
  /-- Weak store of a byte, performed in the L1 after the home-offline check. (R309) -/
  | sb (rs1 rs2 : BitVec 5) (imm : BitVec 12)
  /-- Weak store of a halfword. (R309) -/
  | sh (rs1 rs2 : BitVec 5) (imm : BitVec 12)
  /-- Weak store of a word. (R309) -/
  | sw (rs1 rs2 : BitVec 5) (imm : BitVec 12)
  /-- Weak store of a doubleword. (R309) -/
  | sd (rs1 rs2 : BitVec 5) (imm : BitVec 12)
  /-- Add immediate. (R43) -/
  | addi (rd rs1 : BitVec 5) (imm : BitVec 12)
  /-- Set if less than immediate, signed. (R43) -/
  | slti (rd rs1 : BitVec 5) (imm : BitVec 12)
  /-- Set if less than immediate, unsigned. (R43) -/
  | sltiu (rd rs1 : BitVec 5) (imm : BitVec 12)
  /-- Exclusive or with immediate. (R43) -/
  | xori (rd rs1 : BitVec 5) (imm : BitVec 12)
  /-- Or with immediate. (R43) -/
  | ori (rd rs1 : BitVec 5) (imm : BitVec 12)
  /-- And with immediate. (R43) -/
  | andi (rd rs1 : BitVec 5) (imm : BitVec 12)
  /-- Shift left logical by immediate. (R43) -/
  | slli (rd rs1 : BitVec 5) (sh : BitVec 6)
  /-- Shift right logical by immediate. (R43) -/
  | srli (rd rs1 : BitVec 5) (sh : BitVec 6)
  /-- Shift right arithmetic by immediate. (R43) -/
  | srai (rd rs1 : BitVec 5) (sh : BitVec 6)
  /-- Add registers. (R43) -/
  | add (rd rs1 rs2 : BitVec 5)
  /-- Subtract registers. (R43) -/
  | sub (rd rs1 rs2 : BitVec 5)
  /-- Shift left logical. (R43) -/
  | sll (rd rs1 rs2 : BitVec 5)
  /-- Set if less than, signed. (R43) -/
  | slt (rd rs1 rs2 : BitVec 5)
  /-- Set if less than, unsigned. (R43) -/
  | sltu (rd rs1 rs2 : BitVec 5)
  /-- Exclusive or. (R43) -/
  | xor (rd rs1 rs2 : BitVec 5)
  /-- Shift right logical. (R43) -/
  | srl (rd rs1 rs2 : BitVec 5)
  /-- Shift right arithmetic. (R43) -/
  | sra (rd rs1 rs2 : BitVec 5)
  /-- Or. (R43) -/
  | or (rd rs1 rs2 : BitVec 5)
  /-- And. (R43) -/
  | and (rd rs1 rs2 : BitVec 5)
  /-- Add immediate, 32-bit result sign-extended. (R43) -/
  | addiw (rd rs1 : BitVec 5) (imm : BitVec 12)
  /-- 32-bit shift left by immediate. (R43) -/
  | slliw (rd rs1 sh : BitVec 5)
  /-- 32-bit shift right logical by immediate. (R43) -/
  | srliw (rd rs1 sh : BitVec 5)
  /-- 32-bit shift right arithmetic by immediate. (R43) -/
  | sraiw (rd rs1 sh : BitVec 5)
  /-- 32-bit add. (R43) -/
  | addw (rd rs1 rs2 : BitVec 5)
  /-- 32-bit subtract. (R43) -/
  | subw (rd rs1 rs2 : BitVec 5)
  /-- 32-bit shift left logical. (R43) -/
  | sllw (rd rs1 rs2 : BitVec 5)
  /-- 32-bit shift right logical. (R43) -/
  | srlw (rd rs1 rs2 : BitVec 5)
  /-- 32-bit shift right arithmetic. (R43) -/
  | sraw (rd rs1 rs2 : BitVec 5)
  /-- RV64 FENCE acts as fence.package: release and acquire at package scope without advancing the phase count. (R44) -/
  | fence (rd rs1 : BitVec 5) (imm : BitVec 12)
  /-- Acts as fence.package whatever its fields. (R44) -/
  | fenceTso (rd rs1 : BitVec 5)
  /-- Later fetches see this cell's earlier stores and stores published at package scope. (R44) -/
  | fenceI (rd rs1 : BitVec 5) (imm : BitVec 12)
  /-- Precise trap with cause 0x10, tval 0, tepc its own address. (R44) -/
  | ecall
  /-- Precise trap with cause 0x11, tval and tepc its own address. (R44) -/
  | ebreak
  /-- Sleeps until a wake event for the context, completing at once if one is pending. (R44) -/
  | wfi
  /-- Multiply, low bits. (R43) -/
  | mul (rd rs1 rs2 : BitVec 5)
  /-- Multiply high, signed by signed. (R43) -/
  | mulh (rd rs1 rs2 : BitVec 5)
  /-- Multiply high, signed by unsigned. (R43) -/
  | mulhsu (rd rs1 rs2 : BitVec 5)
  /-- Multiply high, unsigned. (R43) -/
  | mulhu (rd rs1 rs2 : BitVec 5)
  /-- Divide, signed. (R43) -/
  | div (rd rs1 rs2 : BitVec 5)
  /-- Divide, unsigned. (R43) -/
  | divu (rd rs1 rs2 : BitVec 5)
  /-- Remainder, signed. (R43) -/
  | rem (rd rs1 rs2 : BitVec 5)
  /-- Remainder, unsigned. (R43) -/
  | remu (rd rs1 rs2 : BitVec 5)
  /-- 32-bit multiply. (R43) -/
  | mulw (rd rs1 rs2 : BitVec 5)
  /-- 32-bit signed divide. (R43) -/
  | divw (rd rs1 rs2 : BitVec 5)
  /-- 32-bit unsigned divide. (R43) -/
  | divuw (rd rs1 rs2 : BitVec 5)
  /-- 32-bit signed remainder. (R43) -/
  | remw (rd rs1 rs2 : BitVec 5)
  /-- 32-bit unsigned remainder. (R43) -/
  | remuw (rd rs1 rs2 : BitVec 5)
  /-- Load-reserved word at the home slice or sync engine, placing a reservation. (R280) -/
  | lrW (rd rs1 : BitVec 5) (aq rl : BitVec 1)
  /-- Load-reserved doubleword, placing a reservation. (R280) -/
  | lrD (rd rs1 : BitVec 5) (aq rl : BitVec 1)
  /-- Store-conditional word, succeeding only if the reservation is held. (R280) -/
  | scW (rd rs1 rs2 : BitVec 5) (aq rl : BitVec 1)
  /-- Store-conditional doubleword. (R280) -/
  | scD (rd rs1 rs2 : BitVec 5) (aq rl : BitVec 1)
  /-- Atomic swap of a word at its one place, at package scope. (R279) -/
  | amoswapW (rd rs1 rs2 : BitVec 5) (aq rl : BitVec 1)
  /-- Atomic swap of a doubleword. (R279) -/
  | amoswapD (rd rs1 rs2 : BitVec 5) (aq rl : BitVec 1)
  /-- Atomic add to a word. (R279) -/
  | amoaddW (rd rs1 rs2 : BitVec 5) (aq rl : BitVec 1)
  /-- Atomic add to a doubleword. (R279) -/
  | amoaddD (rd rs1 rs2 : BitVec 5) (aq rl : BitVec 1)
  /-- Atomic xor to a word. (R279) -/
  | amoxorW (rd rs1 rs2 : BitVec 5) (aq rl : BitVec 1)
  /-- Atomic xor to a doubleword. (R279) -/
  | amoxorD (rd rs1 rs2 : BitVec 5) (aq rl : BitVec 1)
  /-- Atomic and to a word. (R279) -/
  | amoandW (rd rs1 rs2 : BitVec 5) (aq rl : BitVec 1)
  /-- Atomic and to a doubleword. (R279) -/
  | amoandD (rd rs1 rs2 : BitVec 5) (aq rl : BitVec 1)
  /-- Atomic or to a word. (R279) -/
  | amoorW (rd rs1 rs2 : BitVec 5) (aq rl : BitVec 1)
  /-- Atomic or to a doubleword. (R279) -/
  | amoorD (rd rs1 rs2 : BitVec 5) (aq rl : BitVec 1)
  /-- Atomic signed minimum of a word. (R279) -/
  | amominW (rd rs1 rs2 : BitVec 5) (aq rl : BitVec 1)
  /-- Atomic signed minimum of a doubleword. (R279) -/
  | amominD (rd rs1 rs2 : BitVec 5) (aq rl : BitVec 1)
  /-- Atomic signed maximum of a word. (R279) -/
  | amomaxW (rd rs1 rs2 : BitVec 5) (aq rl : BitVec 1)
  /-- Atomic signed maximum of a doubleword. (R279) -/
  | amomaxD (rd rs1 rs2 : BitVec 5) (aq rl : BitVec 1)
  /-- Atomic unsigned minimum of a word. (R279) -/
  | amominuW (rd rs1 rs2 : BitVec 5) (aq rl : BitVec 1)
  /-- Atomic unsigned minimum of a doubleword. (R279) -/
  | amominuD (rd rs1 rs2 : BitVec 5) (aq rl : BitVec 1)
  /-- Atomic unsigned maximum of a word. (R279) -/
  | amomaxuW (rd rs1 rs2 : BitVec 5) (aq rl : BitVec 1)
  /-- Atomic unsigned maximum of a doubleword. (R279) -/
  | amomaxuD (rd rs1 rs2 : BitVec 5) (aq rl : BitVec 1)
  /-- Atomic read and write of a listed CSR; a write to an RO CSR is illegal. (R45) -/
  | csrrw (rd rs1 : BitVec 5) (csr : BitVec 12)
  /-- Read and set bits of a CSR, writing only when rs1 is not x0. (R45) -/
  | csrrs (rd rs1 : BitVec 5) (csr : BitVec 12)
  /-- Read and clear bits of a CSR, writing only when rs1 is not x0. (R45) -/
  | csrrc (rd rs1 : BitVec 5) (csr : BitVec 12)
  /-- Read and write a CSR with an immediate. (R45) -/
  | csrrwi (rd uimm : BitVec 5) (csr : BitVec 12)
  /-- Read and set CSR bits with an immediate. (R45) -/
  | csrrsi (rd uimm : BitVec 5) (csr : BitVec 12)
  /-- Read and clear CSR bits with an immediate. (R45) -/
  | csrrci (rd uimm : BitVec 5) (csr : BitVec 12)
  /-- Zba add with the unsigned word of rs1. (R43) -/
  | addUw (rd rs1 rs2 : BitVec 5)
  /-- Zba shift left by 1 and add. (R43) -/
  | sh1add (rd rs1 rs2 : BitVec 5)
  /-- Zba shift left by 2 and add. (R43) -/
  | sh2add (rd rs1 rs2 : BitVec 5)
  /-- Zba shift left by 3 and add. (R43) -/
  | sh3add (rd rs1 rs2 : BitVec 5)
  /-- Zba shift unsigned word left by 1 and add. (R43) -/
  | sh1addUw (rd rs1 rs2 : BitVec 5)
  /-- Zba shift unsigned word left by 2 and add. (R43) -/
  | sh2addUw (rd rs1 rs2 : BitVec 5)
  /-- Zba shift unsigned word left by 3 and add. (R43) -/
  | sh3addUw (rd rs1 rs2 : BitVec 5)
  /-- Zba shift unsigned word left by immediate. (R43) -/
  | slliUw (rd rs1 : BitVec 5) (sh : BitVec 6)
  /-- Write of vslip, discarded if any depth or Zero field is bad. (R101) -/
  | csrWriteVslip (v : Word)
  /-- Write of vrm, discarded for reserved modes or nonzero upper bits. (R82) -/
  | csrWriteVrm (v : Word)
  /-- Write of ftbase in matrix-queue order, discarded with a nonzero Zero field. (R86) -/
  | csrWriteFtbase (v : Word)
  /-- Write of ftsel, discarded with a nonzero Zero field. (R86) -/
  | csrWriteFtsel (v : Word)
  /-- Write of a loop counter, setting the iteration that the next close tests. (R121) -/
  | csrWriteLc (k : BitVec 2) (v : Word)
  /-- In handler mode sets the trapped entry's progress. (R365) -/
  | csrWritePidx (v : Word)
  /-- Write-one-to-clear of nbstat bits, clearing last with rej. (R303) -/
  | csrWriteNbstat (v : Word)
  /-- Write of a CSR with no behaviour of its own, such as thandler, tcause, tval or tepc. (R46) -/
  | csrWrite (csr : BitVec 12) (v : Word)
  /-- Drains engines, captures the replay queue, sets tcause, tval and tepc, and enters the handler or faults the node. (R354) -/
  | preciseTrap (cause : Nat) (tval : Word)
  /-- Stops a whole team, captures replay queues and saves contexts to their save areas. (R366) -/
  | preemption (team : Nat)
  /-- Restores a pre-empted context, re-injects its replay entries and fetches at tepc. (R367) -/
  | preemptionResume (team : Nat)
  /-- Once the last sender has arrived and taken equals h0, commits the slots to the receiver group. (R112) -/
  | handoffCommit (cluster unit : Nat)
  /-- A held member resumes when its lead over its slowest neighbour falls to D. (R116) -/
  | phaseHoldRelease
  /-- Zeroes every line of an ended firing's window and sets it full, taking 1,024 cycles. (R153) -/
  | windowZeroing (cluster base : Nat)
  /-- A read waiting on an empty line is served once the line becomes full. (R156) -/
  | emptyLineReadServe (queue : BitVec 3)
  /-- Fill of a probe slot completes, every line full and the slot Valid. (R170) -/
  | probeFill (cluster firing slot : Nat)
  /-- The state directory grants a waiting hold request in arrival order, rechecking handle, chunk and residency. (R201) -/
  | stateHoldGrant
  /-- The pager writes an eligible object's image to LPDDR6 and frees its blocks. (R217) -/
  | stateEviction (h : Word)
  /-- The pager brings an object into a cluster and rewrites its directory entry. (R218) -/
  | statePageIn (h : Word)
  /-- A walker translates through five levels, setting acc and dirty, or faults. (R228) -/
  | pageWalk (ctx die : Nat) (va : Word) (write : Bool)
  /-- When a stack's free frames fall below the low-water mark, eligible pages move to LPDDR6. (R234) -/
  | tierDemotion (stack : Nat)
  /-- A hinted or hot page moves back to HBM4E when a frame is free. (R234) -/
  | tierPromotion (ctx va : Nat)
  /-- End of a 1 ms access window checked against the promotion threshold. (R234) -/
  | promotionWindowExpiry
  /-- Removes a translation from every TLB of the package. (R236) -/
  | shootdown (ctx va : Nat)
  /-- Acknowledges once old translations, accesses and dirty bytes are drained. (R236) -/
  | shootdownAck (ctx va : Nat)
  /-- A freed engine serves the next waiting cparm in class and request order. (R243) -/
  | copyEngineGrant (die : Nat)
  /-- An engine starts the next entry once its stage, predecessor and wait conditions hold. (R250) -/
  | copyEntryStart (engine : Nat)
  /-- Reads one index-table word through the scratchpad in 24 cycles. (R249) -/
  | copyIndexLookup (engine : Nat)
  /-- An entry completes and performs its full, word and bar actions in order. (R252) -/
  | copyEntryComplete (engine : Nat)
  /-- Stops a schedule, finishes beats in flight and posts a type-3 copy-fault record. (R258) -/
  | copyFault (engine : Nat)
  /-- A Cancelling schedule retires and frees its engine when beats in flight complete. (R253) -/
  | copyCancelDrain (engine : Nat)
  /-- At eight postponed refreshes the controller precharges, refreshes and reopens the row. (R261) -/
  | refreshOwed
  /-- A copy entry's bytes are subtracted from a barrier's pending count and settled. (R270) -/
  | barrierSubtraction
  /-- The engine issues one wake per cycle to a waiting cell, which resumes. (R269) -/
  | waiterWake
  /-- A write performed at package scope wakes a waita to reread its word. (R278) -/
  | waitaWake
  /-- A unit reads, combines and writes a row as one operation and raises flags. (R283) -/
  | reductionApply (i : Nat)
  /-- After ordinary requests drain and slices write back, the channel enters its compute mode. (R292) -/
  | modeEntryComplete (stack chan : Nat)
  /-- After queued commands complete, the channel returns to Ordinary. (R292) -/
  | modeExitComplete (stack chan : Nat)
  /-- An ordinary request waiting 2 µs forces an exit from all-bank mode, discarding queued commands. (R294) -/
  | forcedExit (stack chan : Nat)
  /-- A bank adds sixteen burst-by-operand products into a result register. (R297) -/
  | rillMac (stack chan bank : Nat)
  /-- A bank loads a burst into an operand register. (R297) -/
  | rillLoad (stack chan bank : Nat)
  /-- Each bank latches its beat of 512 scratchpad bytes into an operand register. (R297) -/
  | rillFountain (stack chan bank : Nat)
  /-- A bank zeroes a run of result registers. (R297) -/
  | rillZero (stack chan bank : Nat)
  /-- A bank writes eight result registers to a burst. (R297) -/
  | rillStore (stack chan bank : Nat)
  /-- A bank at eight postponed refreshes gets a refresh slot between commands. (R295) -/
  | rillRefreshSlot (stack chan bank : Nat)
  /-- A node whose firing conditions hold becomes Armed, or Idle when they cease. (R333) -/
  | nodeArm (graph node ctx : Nat)
  /-- Every 16 cycles a die's graph engine fires the Armed node of lowest class, honouring the class-3 floor. (R338) -/
  | firingDecision (die : Nat)
  /-- Splits the largest running interval to start a new team when cells would idle. (R339) -/
  | rangeSplit (firing cluster : Nat)
  /-- A waiting stage team receives the next peeked token set. (R344) -/
  | stageSetReady (firing team : Nat)
  /-- Every 20 µs moves one team from a donor stage to a recipient stage. (R344) -/
  | stageTeamMove (graph donor recipient team : Nat)
  /-- Freezes peeked input edges, posts a node-fault record and applies the node's policy. (R347) -/
  | firingFault
  /-- Cancels every node of the cone in topological order, freezing and draining their output edges. (R349) -/
  | coneWalk (graph node : Nat)
  /-- A Retry-pending node becomes Armed when its delay passes. (R333) -/
  | retryDelayExpiry (firing : Nat)
  /-- Held records are posted in order when ring space returns. (R370) -/
  | trapRingSpaceReturn (ctx : Nat)
  /-- A wake event for the context ends a waiting WFI or becomes pending. (R372) -/
  | wfiWake (cell : Nat)
  /-- Every 1 ms refills the reserve and accounts, rescales meters and charges overruns. (R377) -/
  | energyWindowBoundary
  /-- Every 1 µs the meters update each firing's energy count. (R378) -/
  | meterUpdate
  /-- Writes a send into the next entry of a queue ring and posts a firmware event. (R387) -/
  | commandMessage (pasid queue : Nat) (bytes : (List Byte))
  /-- A remote write lands at system scope in the PASID's context. (R386) -/
  | rdmaWrite (pasid : Nat) (va : Word) (bytes : (List Byte))
  /-- An unreliable, RDMA-read or atomic request is refused without effect. (R386) -/
  | unsupportedOperation (pasid : Nat)
  /-- The firmware brings a non-present table level back and the waiting arrival proceeds. (R388) -/
  | pasidLevelRestore (key : Nat)
  /-- An idle firmware core takes an event and the queue's ordering lock. (R402) -/
  | firmwareEventTake
  /-- Checks the slot and buffers, writes the rel registers and launches the slot's graph template. (R398) -/
  | invoke (pasid queue : Nat)
  /-- Resets a host-prepared graph record's run-time fields and launches it. (R399) -/
  | graph (pasid queue : Nat)
  /-- Executes the packets of a buffer in order at the next depth. (R394) -/
  | ib (pasid queue : Nat)
  /-- Begins waiting for every earlier launch of the queue to end. (R392) -/
  | fencePacket (pasid queue : Nat)
  /-- When the earlier launches have ended, writes the completion. (R392) -/
  | fencePacketDone (pasid queue : Nat)
  /-- Writes a value to a host address once earlier packets are dispatched. (R392) -/
  | signal (pasid queue : Nat)
  /-- Verifies an image, places and pins its sections, making the slot resident. (R399) -/
  | slotLoad (pasid queue : Nat)
  /-- Waits for the slot's launches to end, then frees the slot. (R392) -/
  | slotEvict (pasid queue : Nat)
  /-- ADMIN op 0 creates a context from a context record. (R397) -/
  | adminCreateContext (pasid queue : Nat)
  /-- ADMIN op 1 cancels a context's graphs and frees its handles and rings. (R395) -/
  | adminDestroyContext (pasid queue : Nat)
  /-- ADMIN op 2 enable allots a QCB and makes the queue Ready. (R390) -/
  | adminQueueEnable (pasid queue : Nat)
  /-- ADMIN op 2 resume makes a stopped queue Ready after the offending entry. (R390) -/
  | adminQueueResume (pasid queue : Nat)
  /-- ADMIN op 2 disable disables the queue once running work completes. (R390) -/
  | adminQueueDisable (pasid queue : Nat)
  /-- ADMIN op 3 shoots down a virtual range. (R395) -/
  | adminShootdown (pasid queue : Nat)
  /-- Graph control: a Faulted node becomes Retry-pending. (R333) -/
  | adminGraphRetry (pasid queue : Nat)
  /-- Graph control: a Faulted node consumes its tokens, produces nothing and becomes Idle. (R333) -/
  | adminGraphSkip (pasid queue : Nat)
  /-- Graph control: a Faulted node starts a cone walk. (R333) -/
  | adminGraphCancel (pasid queue : Nat)
  /-- Graph control: a Cancelled node becomes Idle with its tokens unpeeked. (R333) -/
  | adminGraphReset (pasid queue : Nat)
  /-- Graph control: a Frozen edge returns to Open. (R334) -/
  | adminGraphThaw (pasid queue : Nat)
  /-- ADMIN op 5 sets a peer table entry. (R410) -/
  | adminSetPeer (pasid queue : Nat)
  /-- ADMIN op 6 sets a die's class-0 cell reservation. (R395) -/
  | adminSetClass0Cells (pasid queue : Nat)
  /-- ADMIN op 7 sets the class-0 energy reserve size. (R377) -/
  | adminSetEnergyReserve (pasid queue : Nat)
  /-- ADMIN op 8 sets a stack's water marks and promotion threshold. (R234) -/
  | adminSetTierParams (pasid queue : Nat)
  /-- Effecter 0x5701 writes one entry of the privileged PASID list. (R396) -/
  | pldmPrivilegedList (index pasid : Nat) (enable : Bool)
  /-- Effecter 0x5702 creates a context, with a bootstrap mapping if root is 0. (R396) -/
  | pldmCreateContext (record : (List Byte))
  /-- Effecter 0x5703 enables a queue on the controller's behalf. (R396) -/
  | pldmEnableQueue (pasid queue : Nat) (qcb : (List Byte))
  /-- Effecter 0x5705 turns the image-signing policy on or off. (R396) -/
  | pldmSigningPolicy (policy : Bool)
  /-- Effecter 0x5706 sets one image-signing key of a PASID. (R396) -/
  | pldmSigningKey (pasid index : Nat) (key : (List Byte))
  /-- Sets the power limit, taking effect at the next energy window. (R376) -/
  | pldmPowerLimit (watts : Nat)
  /-- Sets the error window and retirement threshold. (R413) -/
  | pldmErrorWindow (minutes threshold : Nat)
  /-- Writes and verifies the inactive firmware slot. (R405) -/
  | pldmFirmwareUpdate (step : Nat) (image : (List Byte))
  /-- SPDM version request. (R403) -/
  | getVersion
  /-- SPDM capabilities request. (R403) -/
  | getCapabilities
  /-- SPDM algorithm negotiation, offering Ed448 only. (R403) -/
  | negotiateAlgorithms
  /-- SPDM certificate digests request. (R403) -/
  | getDigests
  /-- Returns the DICE certificate chain. (R403) -/
  | getCertificate
  /-- SPDM challenge signed with the alias key. (R403) -/
  | challenge
  /-- SPDM measurements request. (R403) -/
  | getMeasurements
  /-- The boot ROM chooses and verifies a firmware slot by the markers, or stays in recovery. (R404) -/
  | boot
  /-- A flit failing CRC is retried from the replay buffer; over 64 retries in 1 ms quiesces the link. (R406) -/
  | flitCrcRetry (link : Nat)
  /-- A quiescing link, once drained, enters Reset. (R409) -/
  | linkQuiesceDrained (link : Nat)
  /-- After 1 ms with the die ready, a link in Reset starts Training. (R409) -/
  | linkResetElapsed (link : Nat)
  /-- A link whose modules train becomes Active with its trained modules. (R409) -/
  | linkTrained (link modules : Nat)
  /-- A link on which no module trains returns to Reset. (R409) -/
  | linkTrainingFailed (link : Nat)
  /-- Every 100 ms a failed link is retried. (R409) -/
  | linkRetryTimer (link : Nat)
  /-- Camyar read request message. (R407) -/
  | camyarRead (link : Nat) (back : Bool) (hdr : BitVec 128)
  /-- Camyar read-for-ownership request message. (R407) -/
  | camyarReadOwn (link : Nat) (back : Bool) (hdr : BitVec 128)
  /-- Camyar write request message, with byte mask for partial lines. (R407) -/
  | camyarWrite (link : Nat) (back : Bool) (hdr : BitVec 128) (data : (List (BitVec 128)))
  /-- Camyar write-back message on channel 2. (R407) -/
  | camyarWriteBack (link : Nat) (back : Bool) (hdr : BitVec 128) (data : (List (BitVec 128)))
  /-- Camyar AMO request message. (R407) -/
  | camyarAmo (link : Nat) (back : Bool) (hdr : BitVec 128) (data : (List (BitVec 128)))
  /-- Camyar reduction request message. (R407) -/
  | camyarReda (link : Nat) (back : Bool) (hdr : BitVec 128) (data : (List (BitVec 128)))
  /-- Camyar rill command message. (R407) -/
  | camyarRillCommand (link : Nat) (back : Bool) (hdr : BitVec 128) (data : (List (BitVec 128)))
  /-- Camyar sync-window operation message. (R407) -/
  | camyarSyncOperation (link : Nat) (back : Bool) (hdr : BitVec 128) (data : (List (BitVec 128)))
  /-- Camyar completion response. (R407) -/
  | camyarCompletion (link : Nat) (back : Bool) (hdr : BitVec 128) (data : (List (BitVec 128)))
  /-- Camyar data return response. (R407) -/
  | camyarDataReturn (link : Nat) (back : Bool) (hdr : BitVec 128) (data : (List (BitVec 128)))
  /-- Camyar error response carrying a cause code. (R407) -/
  | camyarError (link : Nat) (back : Bool) (hdr : BitVec 128) (data : (List (BitVec 128)))
  /-- Camyar shootdown message on channel 3. (R407) -/
  | camyarShootdown (link : Nat) (back : Bool) (hdr : BitVec 128) (data : (List (BitVec 128)))
  /-- Camyar shootdown acknowledgement message. (R407) -/
  | camyarShootdownAck (link : Nat) (back : Bool) (hdr : BitVec 128) (data : (List (BitVec 128)))
  /-- Camyar graph message between graph engines. (R407) -/
  | camyarGraphMessage (link : Nat) (back : Bool) (hdr : BitVec 128) (data : (List (BitVec 128)))
  /-- Die status broadcast, applied before any later message and relayed by the hub. (R408) -/
  | camyarStatusBroadcast (link : Nat) (back : Bool) (hdr : BitVec 128) (data : (List (BitVec 128)))
  /-- Returns channel credits to a sender. (R408) -/
  | camyarCreditReturn (link : Nat) (back : Bool) (hdr : BitVec 128)
  /-- A multicast placement update is applied in sequence, with resend asked on a gap. (R411) -/
  | placementTableUpdate (ctx chip seq block holder : Nat)
  /-- A chip not acknowledging within 2 ms is excluded from appends. (R411) -/
  | placementAckTimeout (ctx chip : Nat)
  /-- A corrected event is counted per unit over the error window. (R413) -/
  | errorCorrected (kind number : Nat)
  /-- An uncorrectable word is marked poisoned. (R412) -/
  | errorUncorrectable (space key : Nat)
  /-- State and sync SRAM are scrubbed in full every 10 s. (R412) -/
  | sramScrub
  /-- Runs the seven-step warm reset of one die, or joins a reset already under way. (R414) -/
  | warmReset (die step : Nat) (failed : (List (Nat × Nat)))
  /-- Loss of main power, which leaves a firmware slot being written in the Writing state with an image that fails to verify. (R405) -/
  | powerLoss (marking : Bool)
  /-- A thermal emergency is declared or cleared, suspending or restoring the class-0 bounds. (R374) -/
  | thermalEmergency (declared : Bool)
  /-- A peer chip's acknowledgement of a placement-table update arrives, and an excluded chip rejoins once it has acknowledged every update. (R411) -/
  | placementUpdateAcknowledgement (ctx chip seq : Nat)
  /-- A fast-weight object moved by fwmig from another chip arrives, and this chip's directory takes its handle value unchanged. (R215) -/
  | migratedObjectArrival (handle : Word) (cluster : Nat) (attr : Word) (next nextUse : BitVec 32) (rows : (List (BitVec 1024)))
  deriving DecidableEq, Repr

end Sys2Proof
end

