-- ==== Sys2Proof/WellFormed.lean ====
section
/-! DEFINITION. When the fields of an instruction are within the limits of R34, R35, R41, R45 and R133; each limit that fails has a name. -/

namespace Sys2Proof

/-- Why a word is illegal (R41). Every one of them raises the trap of R42. -/
inductive Illegal where
  /-- The word is 0x0000_0000 or 0xFFFF_FFFF. -/
  | allZerosOrOnes
  /-- Bits [1:0] are not 0b11 (R24). -/
  | compressed
  /-- A major opcode that R24 does not assign. -/
  | opcode
  /-- A base encoding that R43 does not list, or that R44 makes illegal. -/
  | base
  /-- A reserved funct6, funct7, funct4 or op3 value, or a reserved variant. -/
  | reserved
  /-- The accumulate mode, or n code, 11. -/
  | accumulateMode
  /-- A nonzero unused field (R35). -/
  | unusedField
  /-- A mask register above k7 (R34). -/
  | maskRegister
  /-- A tile register above m7 (R34). -/
  | tileRegister
  /-- A tile register above m7, or an odd pair, in an operand that may be either (R34). -/
  | tileOrPair
  /-- An odd pair (R34). -/
  | pair
  /-- A format register above fm15 (R34). -/
  | formatRegister
  /-- A ring handle above q15 (R34). -/
  | ringHandle
  /-- A vsppack whose imm5 is not 8, 12 or 16 (R133). -/
  | sparseCount
  /-- A scope field of 6 or 7 (R240, R311, R312). -/
  | scope
  /-- A role marker whose skip is 0 or whose role field is not 7. -/
  | roleMarker
  /-- A handoff whose count is 0, or whose roles are 7 or equal. -/
  | handoff
  /-- A loop whose end offset is 0 or whose count register is x0. -/
  | loop
  /-- A CSR number outside R46, or a write to a read-only CSR (R45). -/
  | csrAccess
  deriving DecidableEq, Repr

/-- A register field below a limit (R34). -/
def below {n : Nat} (f : BitVec n) (limit : Nat) : Bool := f.toNat < limit

/-- An even register number (R34). -/
def even (f : BitVec 5) : Bool := f.toNat % 2 == 0

/-- A tile register when the scratchpad bit is clear, an even pair when it is set (R29, R34). -/
def tileOrPair (sp : BitVec 1) (f : BitVec 5) : Bool := if sp = 1 then even f else below f 8

/-- CSR numbers of R46 that can be written. -/
def csrWritable (c : BitVec 12) : Bool :=
  let n := c.toNat
  (0x800 ≤ n && n ≤ 0x804) || (0x808 ≤ n && n ≤ 0x80B) || (0x810 ≤ n && n ≤ 0x813) || n == 0x820

/-- CSR numbers of R46 of access RO. -/
def csrReadOnly (c : BitVec 12) : Bool :=
  let n := c.toNat
  n == 0x814 || (0xC10 ≤ n && n ≤ 0xC15) || (0xC20 ≤ n && n ≤ 0xC31)

/-- R45: the number is in the map, and a write goes to a writable CSR. -/
def csrLegal (c : BitVec 12) (writes : Bool) : Bool := csrWritable c || (csrReadOnly c && !writes)

/-- `none` when the condition holds, the named reason when it does not. -/
def need (c : Bool) (why : Illegal) : Option Illegal := if c then none else some why

/-- The first limit that the fields of an instruction break. Events have no word and no limit here. -/
def Instr.check : Instr → Option Illegal
  | .vcmpeq _ _ _ d _ => need (below d 8) .maskRegister
  | .vcmplt _ _ _ d _ => need (below d 8) .maskRegister
  | .vcmpltu _ _ _ d _ => need (below d 8) .maskRegister
  | .vfcmpeq _ _ _ d _ => need (below d 8) .maskRegister
  | .vfcmplt _ _ _ d _ => need (below d 8) .maskRegister
  | .vseghead _ d _ => need (below d 8) .maskRegister
  | .kopAnd _ a d _ => need (below d 8) .maskRegister <|> need (below a 8) .maskRegister
  | .kopOr _ a d _ => need (below d 8) .maskRegister <|> need (below a 8) .maskRegister
  | .kopXor _ a d _ => need (below d 8) .maskRegister <|> need (below a 8) .maskRegister
  | .kopAndn _ a d _ => need (below d 8) .maskRegister <|> need (below a 8) .maskRegister
  | .kpop a _ _ => need (below a 8) .maskRegister
  | .kpopFirst a _ _ => need (below a 8) .maskRegister
  | .vcvtn _ f _ _ _ => need (below f 16) .formatRegister
  | .vcvtw _ f _ _ _ => need (below f 16) .formatRegister
  | .fence _ _ imm => need (imm ≠ 0x833) .base
  | .fmset _ d _ => need (below d 16) .formatRegister
  | .vsppack i _ _ _ => need (i = 8 ∨ i = 12 ∨ i = 16) .sparseCount
  | .ldst _ s _ _ _ => need (below s 6) .scope
  | .stst _ s _ _ _ => need (below s 6) .scope
  | .phase s _ _ => need (below s 6) .scope
  | .fenceBoth s _ => need (below s 6) .scope
  | .fenceRel s _ => need (below s 6) .scope
  | .fenceAcq s _ => need (below s 6) .scope
  | .tld a d _ => need (below d 8) .tileRegister <|> need (even a) .pair
  | .tst a d _ => need (below d 8) .tileRegister <|> need (even a) .pair
  | .sprot a _ => need (even a) .pair
  | .fwavg _ a _ _ => need (even a) .pair
  | .ringinit _ _ q _ => need (below q 16) .ringHandle
  | .ringclaim q _ _ => need (below q 16) .ringHandle
  | .ringcommit _ q _ => need (below q 16) .ringHandle
  | .ringtake q _ _ => need (below q 16) .ringHandle
  | .ringfree _ q _ => need (below q 16) .ringHandle
  | .waitfill _ q _ _ => need (below q 16) .ringHandle
  | .waitfree _ q _ _ => need (below q 16) .ringHandle
  | .mma b a x y _ _ => need (tileOrPair x a) .tileOrPair <|> need (tileOrPair y b) .tileOrPair
  | .mmaAcc b a x y _ _ => need (tileOrPair x a) .tileOrPair <|> need (tileOrPair y b) .tileOrPair
  | .mmaNeg b a x y _ _ => need (tileOrPair x a) .tileOrPair <|> need (tileOrPair y b) .tileOrPair
  | .mmas b a x y _ _ => need (tileOrPair x a) .tileOrPair <|> need (tileOrPair y b) .tileOrPair
  | .mmasAcc b a x y _ _ => need (tileOrPair x a) .tileOrPair <|> need (tileOrPair y b) .tileOrPair
  | .mmasNeg b a x y _ _ => need (tileOrPair x a) .tileOrPair <|> need (tileOrPair y b) .tileOrPair
  | .epi _ a x _ => need (tileOrPair x a) .tileOrPair
  | .accrd n _ _ _ _ => need (n ≠ 3) .accumulateMode
  | .accrdCol n _ _ _ _ => need (n ≠ 3) .accumulateMode
  | .accwr n _ _ _ _ => need (n ≠ 3) .accumulateMode
  | .accwrCol n _ _ _ _ => need (n ≠ 3) .accumulateMode
  | .role _ s => need (s ≠ 0) .roleMarker
  | .handoff v _ n s => need (n ≠ 0 ∧ v ≠ 7 ∧ s ≠ 7 ∧ v ≠ s) .handoff
  | .loop c e _ => need (e ≠ 0 ∧ c ≠ 0) .loop
  | .csrrw _ _ csr => need (csrLegal csr true) .csrAccess
  | .csrrwi _ _ csr => need (csrLegal csr true) .csrAccess
  | .csrrs _ rs1 csr => need (csrLegal csr (rs1 ≠ 0)) .csrAccess
  | .csrrc _ rs1 csr => need (csrLegal csr (rs1 ≠ 0)) .csrAccess
  | .csrrsi _ uimm csr => need (csrLegal csr (uimm ≠ 0)) .csrAccess
  | .csrrci _ uimm csr => need (csrLegal csr (uimm ≠ 0)) .csrAccess
  | .lui .. | .auipc .. | .jal .. | .jalr .. | .beq .. | .bne ..
  | .blt .. | .bge .. | .bltu .. | .bgeu .. | .lb .. | .lh ..
  | .lw .. | .ld .. | .lbu .. | .lhu .. | .lwu .. | .sb ..
  | .sh .. | .sw .. | .sd .. | .addi .. | .slti .. | .sltiu ..
  | .xori .. | .ori .. | .andi .. | .slli .. | .srli .. | .srai ..
  | .add .. | .sub .. | .sll .. | .slt .. | .sltu .. | .xor ..
  | .srl .. | .sra .. | .or .. | .and .. | .addiw .. | .slliw ..
  | .srliw .. | .sraiw .. | .addw .. | .subw .. | .sllw .. | .srlw ..
  | .sraw .. | .fenceTso .. | .fenceI .. | .ecall | .ebreak | .wfi
  | .mul .. | .mulh .. | .mulhsu .. | .mulhu .. | .div .. | .divu ..
  | .rem .. | .remu .. | .mulw .. | .divw .. | .divuw .. | .remw ..
  | .remuw .. | .lrW .. | .lrD .. | .scW .. | .scD .. | .amoswapW ..
  | .amoswapD .. | .amoaddW .. | .amoaddD .. | .amoxorW .. | .amoxorD .. | .amoandW ..
  | .amoandD .. | .amoorW .. | .amoorD .. | .amominW .. | .amominD .. | .amomaxW ..
  | .amomaxD .. | .amominuW .. | .amominuD .. | .amomaxuW .. | .amomaxuD .. | .addUw ..
  | .sh1add .. | .sh2add .. | .sh3add .. | .sh1addUw .. | .sh2addUw .. | .sh3addUw ..
  | .slliUw .. | .vadd .. | .vsub .. | .vmul .. | .vmulh .. | .vand ..
  | .vor .. | .vxor .. | .vsll .. | .vsrl .. | .vsra .. | .vmin ..
  | .vmax .. | .vminu .. | .vmaxu .. | .vaddx .. | .viota .. | .vfadd ..
  | .vfsub .. | .vfmul .. | .vfma .. | .vfmin .. | .vfmax .. | .vfexp2 ..
  | .vfrcp .. | .vfrsqrt .. | .vflog2 .. | .vfmulx .. | .vfaddx .. | .vsel ..
  | .vcvtif .. | .vcvtfi .. | .vredsum .. | .vredsumI32 .. | .vredmax .. | .vredmaxI32 ..
  | .vredmin .. | .vredminI32 .. | .vslide .. | .vperm .. | .vcompress .. | .vmvxv ..
  | .vmvvx .. | .vsmaxacc .. | .vsmaxfin .. | .vsortkv .. | .vldm .. | .vstm ..
  | .vldx .. | .vstx .. | .vlds .. | .vsts .. | .spfeEmpty .. | .spfeFull ..
  | .barinit .. | .barinitForce .. | .barinitFree .. | .bararr .. | .bardrop .. | .barjoin ..
  | .barwait .. | .bartest .. | .waita .. | .redaF32add .. | .redaBf16add .. | .redaI32add ..
  | .redaF32max .. | .redaF32min .. | .redaI32max .. | .redaI32min .. | .redfence .. | .prcfg ..
  | .prinv .. | .prpin .. | .prunpin .. | .cparm .. | .cpstep .. | .cpstat ..
  | .cpcancel .. | .nbmode .. | .nbcmd .. | .nbfence .. | .nbrd .. | .hintLife ..
  | .hintPref .. | .hintFetch .. | .stepadv .. | .accz .. | .accscl .. | .accsclX ..
  | .mqctlWait .. | .mqctlRm .. | .mqctlFtb .. | .opu .. | .fwfwd .. | .fwupdD ..
  | .fwupdH .. | .fwupdE .. | .fwfuD .. | .fwfuDl .. | .fwfuH .. | .fwfuHl ..
  | .fwfuE .. | .fwsnapSnap .. | .fwsnapFork .. | .fwsnapRollback .. | .fwsnapFree .. | .fwmig ..
  | .fwctlPin .. | .fwctlUnpin .. | .fwctlQuery .. | .fwctlHint .. | .fwctlWait .. | .fwctlNew ..
  | .roleid .. | .drift .. | .vgrow .. | .vshrink .. | .ftset .. | .rnext ..
  | .ntoken .. | .nctx .. | .ndone .. | .nfail .. | .trapret .. | .rqrd ..
  | .rqwr .. | .rqdrop .. | .enread .. | .enest .. | .trec .. | .probe ..
  | .csrWriteVslip .. | .csrWriteVrm .. | .csrWriteFtbase .. | .csrWriteFtsel .. | .csrWriteLc .. | .csrWritePidx ..
  | .csrWriteNbstat .. | .csrWrite .. | .preciseTrap .. | .preemption .. | .preemptionResume .. | .handoffCommit ..
  | .phaseHoldRelease | .windowZeroing .. | .emptyLineReadServe .. | .probeFill .. | .stateHoldGrant | .stateEviction ..
  | .statePageIn .. | .pageWalk .. | .tierDemotion .. | .tierPromotion .. | .promotionWindowExpiry | .shootdown ..
  | .shootdownAck .. | .copyEngineGrant .. | .copyEntryStart .. | .copyIndexLookup .. | .copyEntryComplete .. | .copyFault ..
  | .copyCancelDrain .. | .refreshOwed | .barrierSubtraction | .waiterWake | .waitaWake | .reductionApply ..
  | .modeEntryComplete .. | .modeExitComplete .. | .forcedExit .. | .rillMac .. | .rillLoad .. | .rillFountain ..
  | .rillZero .. | .rillStore .. | .rillRefreshSlot .. | .nodeArm .. | .firingDecision .. | .rangeSplit ..
  | .stageSetReady .. | .stageTeamMove .. | .firingFault | .coneWalk .. | .retryDelayExpiry .. | .trapRingSpaceReturn ..
  | .wfiWake .. | .energyWindowBoundary | .meterUpdate | .commandMessage .. | .rdmaWrite .. | .unsupportedOperation ..
  | .pasidLevelRestore .. | .firmwareEventTake | .invoke .. | .graph .. | .ib .. | .fencePacket ..
  | .fencePacketDone .. | .signal .. | .slotLoad .. | .slotEvict .. | .adminCreateContext .. | .adminDestroyContext ..
  | .adminQueueEnable .. | .adminQueueResume .. | .adminQueueDisable .. | .adminShootdown .. | .adminGraphRetry .. | .adminGraphSkip ..
  | .adminGraphCancel .. | .adminGraphReset .. | .adminGraphThaw .. | .adminSetPeer .. | .adminSetClass0Cells .. | .adminSetEnergyReserve ..
  | .adminSetTierParams .. | .pldmPrivilegedList .. | .pldmCreateContext .. | .pldmEnableQueue .. | .pldmSigningPolicy .. | .pldmSigningKey ..
  | .pldmPowerLimit .. | .pldmErrorWindow .. | .pldmFirmwareUpdate .. | .getVersion | .getCapabilities | .negotiateAlgorithms
  | .getDigests | .getCertificate | .challenge | .getMeasurements | .boot | .flitCrcRetry ..
  | .linkQuiesceDrained .. | .linkResetElapsed .. | .linkTrained .. | .linkTrainingFailed .. | .linkRetryTimer .. | .camyarRead ..
  | .camyarReadOwn .. | .camyarWrite .. | .camyarWriteBack .. | .camyarAmo .. | .camyarReda .. | .camyarRillCommand ..
  | .camyarSyncOperation .. | .camyarCompletion .. | .camyarDataReturn .. | .camyarError .. | .camyarShootdown .. | .camyarShootdownAck ..
  | .camyarGraphMessage .. | .camyarStatusBroadcast .. | .camyarCreditReturn .. | .placementTableUpdate .. | .placementAckTimeout .. | .errorCorrected ..
  | .errorUncorrectable .. | .sramScrub | .warmReset .. | .powerLoss .. | .thermalEmergency .. | .placementUpdateAcknowledgement ..
  | .migratedObjectArrival .. => none

/-- The fields of `i` are within their limits. -/
def WellFormed (i : Instr) : Prop := i.check = none

end Sys2Proof
end

