-- ==== Sys2Proof/Decode.lean ====
section
/-! DEFINITION. The decoder of R23 to R46, total on every word and on every byte sequence, and the encoder, both written from the format tables. A word is decoded by its opcode and function fields, its fixed bits are then compared (R35), and the limits of WellFormed come last; a word that fails is rejected by name. -/

namespace Sys2Proof

/-- The instruction of a row of the opcode table, when every fixed bit of the row stands in the word (R35). -/
def row (w mask mtch : BitVec 32) (i : Instr) : Except Illegal Instr :=
  if w &&& mask = mtch then .ok i else .error .unusedField

/-- Format V, by funct6 (R28, R37). -/
def decodeV (w : BitVec 32) : Except Illegal Instr :=
  match (w.extractLsb' 26 6).toNat with
  | 0 => row w 0xFC00007F#32 0x0000000B#32 (.vadd (w.extractLsb' 25 1) (w.extractLsb' 20 5) (w.extractLsb' 15 5) (w.extractLsb' 10 5) (w.extractLsb' 7 3))
  | 1 => row w 0xFC00007F#32 0x0400000B#32 (.vsub (w.extractLsb' 25 1) (w.extractLsb' 20 5) (w.extractLsb' 15 5) (w.extractLsb' 10 5) (w.extractLsb' 7 3))
  | 2 => row w 0xFC00007F#32 0x0800000B#32 (.vmul (w.extractLsb' 25 1) (w.extractLsb' 20 5) (w.extractLsb' 15 5) (w.extractLsb' 10 5) (w.extractLsb' 7 3))
  | 3 => row w 0xFC00007F#32 0x0C00000B#32 (.vmulh (w.extractLsb' 25 1) (w.extractLsb' 20 5) (w.extractLsb' 15 5) (w.extractLsb' 10 5) (w.extractLsb' 7 3))
  | 4 => row w 0xFC00007F#32 0x1000000B#32 (.vand (w.extractLsb' 25 1) (w.extractLsb' 20 5) (w.extractLsb' 15 5) (w.extractLsb' 10 5) (w.extractLsb' 7 3))
  | 5 => row w 0xFC00007F#32 0x1400000B#32 (.vor (w.extractLsb' 25 1) (w.extractLsb' 20 5) (w.extractLsb' 15 5) (w.extractLsb' 10 5) (w.extractLsb' 7 3))
  | 6 => row w 0xFC00007F#32 0x1800000B#32 (.vxor (w.extractLsb' 25 1) (w.extractLsb' 20 5) (w.extractLsb' 15 5) (w.extractLsb' 10 5) (w.extractLsb' 7 3))
  | 7 => row w 0xFC00007F#32 0x1C00000B#32 (.vsll (w.extractLsb' 25 1) (w.extractLsb' 20 5) (w.extractLsb' 15 5) (w.extractLsb' 10 5) (w.extractLsb' 7 3))
  | 8 => row w 0xFC00007F#32 0x2000000B#32 (.vsrl (w.extractLsb' 25 1) (w.extractLsb' 20 5) (w.extractLsb' 15 5) (w.extractLsb' 10 5) (w.extractLsb' 7 3))
  | 9 => row w 0xFC00007F#32 0x2400000B#32 (.vsra (w.extractLsb' 25 1) (w.extractLsb' 20 5) (w.extractLsb' 15 5) (w.extractLsb' 10 5) (w.extractLsb' 7 3))
  | 10 => row w 0xFC00007F#32 0x2800000B#32 (.vmin (w.extractLsb' 25 1) (w.extractLsb' 20 5) (w.extractLsb' 15 5) (w.extractLsb' 10 5) (w.extractLsb' 7 3))
  | 11 => row w 0xFC00007F#32 0x2C00000B#32 (.vmax (w.extractLsb' 25 1) (w.extractLsb' 20 5) (w.extractLsb' 15 5) (w.extractLsb' 10 5) (w.extractLsb' 7 3))
  | 12 => row w 0xFC00007F#32 0x3000000B#32 (.vminu (w.extractLsb' 25 1) (w.extractLsb' 20 5) (w.extractLsb' 15 5) (w.extractLsb' 10 5) (w.extractLsb' 7 3))
  | 13 => row w 0xFC00007F#32 0x3400000B#32 (.vmaxu (w.extractLsb' 25 1) (w.extractLsb' 20 5) (w.extractLsb' 15 5) (w.extractLsb' 10 5) (w.extractLsb' 7 3))
  | 14 => row w 0xFC00007F#32 0x3800000B#32 (.vaddx (w.extractLsb' 25 1) (w.extractLsb' 20 5) (w.extractLsb' 15 5) (w.extractLsb' 10 5) (w.extractLsb' 7 3))
  | 15 => row w 0xFC00007F#32 0x3C00000B#32 (.viota (w.extractLsb' 25 1) (w.extractLsb' 20 5) (w.extractLsb' 15 5) (w.extractLsb' 10 5) (w.extractLsb' 7 3))
  | 16 => row w 0xFC00007F#32 0x4000000B#32 (.vfadd (w.extractLsb' 25 1) (w.extractLsb' 20 5) (w.extractLsb' 15 5) (w.extractLsb' 10 5) (w.extractLsb' 7 3))
  | 17 => row w 0xFC00007F#32 0x4400000B#32 (.vfsub (w.extractLsb' 25 1) (w.extractLsb' 20 5) (w.extractLsb' 15 5) (w.extractLsb' 10 5) (w.extractLsb' 7 3))
  | 18 => row w 0xFC00007F#32 0x4800000B#32 (.vfmul (w.extractLsb' 25 1) (w.extractLsb' 20 5) (w.extractLsb' 15 5) (w.extractLsb' 10 5) (w.extractLsb' 7 3))
  | 19 => row w 0xFC00007F#32 0x4C00000B#32 (.vfma (w.extractLsb' 25 1) (w.extractLsb' 20 5) (w.extractLsb' 15 5) (w.extractLsb' 10 5) (w.extractLsb' 7 3))
  | 20 => row w 0xFC00007F#32 0x5000000B#32 (.vfmin (w.extractLsb' 25 1) (w.extractLsb' 20 5) (w.extractLsb' 15 5) (w.extractLsb' 10 5) (w.extractLsb' 7 3))
  | 21 => row w 0xFC00007F#32 0x5400000B#32 (.vfmax (w.extractLsb' 25 1) (w.extractLsb' 20 5) (w.extractLsb' 15 5) (w.extractLsb' 10 5) (w.extractLsb' 7 3))
  | 22 => row w 0xFDF0007F#32 0x5800000B#32 (.vfexp2 (w.extractLsb' 25 1) (w.extractLsb' 15 5) (w.extractLsb' 10 5) (w.extractLsb' 7 3))
  | 23 => row w 0xFDF0007F#32 0x5C00000B#32 (.vfrcp (w.extractLsb' 25 1) (w.extractLsb' 15 5) (w.extractLsb' 10 5) (w.extractLsb' 7 3))
  | 24 => row w 0xFDF0007F#32 0x6000000B#32 (.vfrsqrt (w.extractLsb' 25 1) (w.extractLsb' 15 5) (w.extractLsb' 10 5) (w.extractLsb' 7 3))
  | 25 => row w 0xFDF0007F#32 0x6400000B#32 (.vflog2 (w.extractLsb' 25 1) (w.extractLsb' 15 5) (w.extractLsb' 10 5) (w.extractLsb' 7 3))
  | 26 => row w 0xFC00007F#32 0x6800000B#32 (.vfmulx (w.extractLsb' 25 1) (w.extractLsb' 20 5) (w.extractLsb' 15 5) (w.extractLsb' 10 5) (w.extractLsb' 7 3))
  | 27 => row w 0xFC00007F#32 0x6C00000B#32 (.vfaddx (w.extractLsb' 25 1) (w.extractLsb' 20 5) (w.extractLsb' 15 5) (w.extractLsb' 10 5) (w.extractLsb' 7 3))
  | 32 => row w 0xFC00007F#32 0x8000000B#32 (.vcmpeq (w.extractLsb' 25 1) (w.extractLsb' 20 5) (w.extractLsb' 15 5) (w.extractLsb' 10 5) (w.extractLsb' 7 3))
  | 33 => row w 0xFC00007F#32 0x8400000B#32 (.vcmplt (w.extractLsb' 25 1) (w.extractLsb' 20 5) (w.extractLsb' 15 5) (w.extractLsb' 10 5) (w.extractLsb' 7 3))
  | 34 => row w 0xFC00007F#32 0x8800000B#32 (.vcmpltu (w.extractLsb' 25 1) (w.extractLsb' 20 5) (w.extractLsb' 15 5) (w.extractLsb' 10 5) (w.extractLsb' 7 3))
  | 35 => row w 0xFC00007F#32 0x8C00000B#32 (.vfcmpeq (w.extractLsb' 25 1) (w.extractLsb' 20 5) (w.extractLsb' 15 5) (w.extractLsb' 10 5) (w.extractLsb' 7 3))
  | 36 => row w 0xFC00007F#32 0x9000000B#32 (.vfcmplt (w.extractLsb' 25 1) (w.extractLsb' 20 5) (w.extractLsb' 15 5) (w.extractLsb' 10 5) (w.extractLsb' 7 3))
  | 37 => 
    match (w.extractLsb' 23 2).toNat with
    | 0 => row w 0xFF80007F#32 0x9400000B#32 (.kopAnd (w.extractLsb' 20 3) (w.extractLsb' 15 5) (w.extractLsb' 10 5) (w.extractLsb' 7 3))
    | 1 => row w 0xFF80007F#32 0x9480000B#32 (.kopOr (w.extractLsb' 20 3) (w.extractLsb' 15 5) (w.extractLsb' 10 5) (w.extractLsb' 7 3))
    | 2 => row w 0xFF80007F#32 0x9500000B#32 (.kopXor (w.extractLsb' 20 3) (w.extractLsb' 15 5) (w.extractLsb' 10 5) (w.extractLsb' 7 3))
    | _ => row w 0xFF80007F#32 0x9580000B#32 (.kopAndn (w.extractLsb' 20 3) (w.extractLsb' 15 5) (w.extractLsb' 10 5) (w.extractLsb' 7 3))
  | 38 => 
    match (w.extractLsb' 20 5).toNat with
    | 0 => row w 0xFFF0007F#32 0x9800000B#32 (.kpop (w.extractLsb' 15 5) (w.extractLsb' 10 5) (w.extractLsb' 7 3))
    | 1 => row w 0xFFF0007F#32 0x9810000B#32 (.kpopFirst (w.extractLsb' 15 5) (w.extractLsb' 10 5) (w.extractLsb' 7 3))
    | _ => .error .reserved
  | 39 => row w 0xFE00007F#32 0x9C00000B#32 (.vsel (w.extractLsb' 20 5) (w.extractLsb' 15 5) (w.extractLsb' 10 5) (w.extractLsb' 7 3))
  | 40 => row w 0xFC00007F#32 0xA000000B#32 (.vcvtn (w.extractLsb' 25 1) (w.extractLsb' 20 5) (w.extractLsb' 15 5) (w.extractLsb' 10 5) (w.extractLsb' 7 3))
  | 41 => row w 0xFC00007F#32 0xA400000B#32 (.vcvtw (w.extractLsb' 25 1) (w.extractLsb' 20 5) (w.extractLsb' 15 5) (w.extractLsb' 10 5) (w.extractLsb' 7 3))
  | 42 => row w 0xFC00007F#32 0xA800000B#32 (.vcvtif (w.extractLsb' 25 1) (w.extractLsb' 20 5) (w.extractLsb' 15 5) (w.extractLsb' 10 5) (w.extractLsb' 7 3))
  | 43 => row w 0xFC00007F#32 0xAC00000B#32 (.vcvtfi (w.extractLsb' 25 1) (w.extractLsb' 20 5) (w.extractLsb' 15 5) (w.extractLsb' 10 5) (w.extractLsb' 7 3))
  | 48 => 
    match (w.extractLsb' 20 5).toNat with
    | 0 => row w 0xFDF0007F#32 0xC000000B#32 (.vredsum (w.extractLsb' 25 1) (w.extractLsb' 15 5) (w.extractLsb' 10 5) (w.extractLsb' 7 3))
    | 1 => row w 0xFDF0007F#32 0xC010000B#32 (.vredsumI32 (w.extractLsb' 25 1) (w.extractLsb' 15 5) (w.extractLsb' 10 5) (w.extractLsb' 7 3))
    | _ => .error .reserved
  | 49 => 
    match (w.extractLsb' 20 5).toNat with
    | 0 => row w 0xFDF0007F#32 0xC400000B#32 (.vredmax (w.extractLsb' 25 1) (w.extractLsb' 15 5) (w.extractLsb' 10 5) (w.extractLsb' 7 3))
    | 1 => row w 0xFDF0007F#32 0xC410000B#32 (.vredmaxI32 (w.extractLsb' 25 1) (w.extractLsb' 15 5) (w.extractLsb' 10 5) (w.extractLsb' 7 3))
    | _ => .error .reserved
  | 50 => 
    match (w.extractLsb' 20 5).toNat with
    | 0 => row w 0xFDF0007F#32 0xC800000B#32 (.vredmin (w.extractLsb' 25 1) (w.extractLsb' 15 5) (w.extractLsb' 10 5) (w.extractLsb' 7 3))
    | 1 => row w 0xFDF0007F#32 0xC810000B#32 (.vredminI32 (w.extractLsb' 25 1) (w.extractLsb' 15 5) (w.extractLsb' 10 5) (w.extractLsb' 7 3))
    | _ => .error .reserved
  | 51 => row w 0xFC00007F#32 0xCC00000B#32 (.vslide (w.extractLsb' 25 1) (w.extractLsb' 20 5) (w.extractLsb' 15 5) (w.extractLsb' 10 5) (w.extractLsb' 7 3))
  | 52 => row w 0xFC00007F#32 0xD000000B#32 (.vperm (w.extractLsb' 25 1) (w.extractLsb' 20 5) (w.extractLsb' 15 5) (w.extractLsb' 10 5) (w.extractLsb' 7 3))
  | 53 => row w 0xFFF0007F#32 0xD400000B#32 (.vcompress (w.extractLsb' 15 5) (w.extractLsb' 10 5) (w.extractLsb' 7 3))
  | 54 => row w 0xFDF0007F#32 0xD800000B#32 (.vmvxv (w.extractLsb' 25 1) (w.extractLsb' 15 5) (w.extractLsb' 10 5) (w.extractLsb' 7 3))
  | 55 => row w 0xFE00007F#32 0xDC00000B#32 (.vmvvx (w.extractLsb' 20 5) (w.extractLsb' 15 5) (w.extractLsb' 10 5) (w.extractLsb' 7 3))
  | 56 => row w 0xFC00007F#32 0xE000000B#32 (.vsmaxacc (w.extractLsb' 25 1) (w.extractLsb' 20 5) (w.extractLsb' 15 5) (w.extractLsb' 10 5) (w.extractLsb' 7 3))
  | 57 => row w 0xFC00007F#32 0xE400000B#32 (.vsmaxfin (w.extractLsb' 25 1) (w.extractLsb' 20 5) (w.extractLsb' 15 5) (w.extractLsb' 10 5) (w.extractLsb' 7 3))
  | 58 => row w 0xFE00007F#32 0xE800000B#32 (.vsortkv (w.extractLsb' 20 5) (w.extractLsb' 15 5) (w.extractLsb' 10 5) (w.extractLsb' 7 3))
  | 59 => row w 0xFFF0007F#32 0xEC00000B#32 (.vseghead (w.extractLsb' 15 5) (w.extractLsb' 10 5) (w.extractLsb' 7 3))
  | 60 => row w 0xFE00007F#32 0xF000000B#32 (.vsppack (w.extractLsb' 20 5) (w.extractLsb' 15 5) (w.extractLsb' 10 5) (w.extractLsb' 7 3))
  | _ => .error .reserved

/-- Format S, by funct7 (R31, R38). -/
def decodeS (w : BitVec 32) : Except Illegal Instr :=
  match (w.extractLsb' 25 7).toNat with
  | 0 => row w 0xFE00007F#32 0x0000005B#32 (.vldm (w.extractLsb' 20 5) (w.extractLsb' 15 5) (w.extractLsb' 10 5) (w.extractLsb' 7 3))
  | 1 => row w 0xFE00007F#32 0x0200005B#32 (.vstm (w.extractLsb' 20 5) (w.extractLsb' 15 5) (w.extractLsb' 10 5) (w.extractLsb' 7 3))
  | 2 => row w 0xFE00007F#32 0x0400005B#32 (.vldx (w.extractLsb' 20 5) (w.extractLsb' 15 5) (w.extractLsb' 10 5) (w.extractLsb' 7 3))
  | 3 => row w 0xFE00007F#32 0x0600005B#32 (.vstx (w.extractLsb' 20 5) (w.extractLsb' 15 5) (w.extractLsb' 10 5) (w.extractLsb' 7 3))
  | 4 => row w 0xFE00007F#32 0x0800005B#32 (.vlds (w.extractLsb' 20 5) (w.extractLsb' 15 5) (w.extractLsb' 10 5) (w.extractLsb' 7 3))
  | 5 => row w 0xFE00007F#32 0x0A00005B#32 (.vsts (w.extractLsb' 20 5) (w.extractLsb' 15 5) (w.extractLsb' 10 5) (w.extractLsb' 7 3))
  | 6 => row w 0xFE00007F#32 0x0C00005B#32 (.ldst (w.extractLsb' 23 2) (w.extractLsb' 20 3) (w.extractLsb' 15 5) (w.extractLsb' 10 5) (w.extractLsb' 7 3))
  | 7 => row w 0xFE00007F#32 0x0E00005B#32 (.stst (w.extractLsb' 23 2) (w.extractLsb' 20 3) (w.extractLsb' 15 5) (w.extractLsb' 10 5) (w.extractLsb' 7 3))
  | 8 => row w 0xFF8F807F#32 0x1000005B#32 (.phase (w.extractLsb' 20 3) (w.extractLsb' 10 5) (w.extractLsb' 7 3))
  | 9 => 
    match (w.extractLsb' 10 5).toNat with
    | 0 => row w 0xFF8FFC7F#32 0x1200005B#32 (.fenceBoth (w.extractLsb' 20 3) (w.extractLsb' 7 3))
    | 1 => row w 0xFF8FFC7F#32 0x1200045B#32 (.fenceRel (w.extractLsb' 20 3) (w.extractLsb' 7 3))
    | 2 => row w 0xFF8FFC7F#32 0x1200085B#32 (.fenceAcq (w.extractLsb' 20 3) (w.extractLsb' 7 3))
    | _ => .error .reserved
  | 10 => 
    match (w.extractLsb' 10 5).toNat with
    | 0 => row w 0xFE007C7F#32 0x1400005B#32 (.spfeEmpty (w.extractLsb' 20 5) (w.extractLsb' 15 5) (w.extractLsb' 7 3))
    | 1 => row w 0xFE007C7F#32 0x1400045B#32 (.spfeFull (w.extractLsb' 20 5) (w.extractLsb' 15 5) (w.extractLsb' 7 3))
    | _ => .error .reserved
  | 11 => row w 0xFFF07C7F#32 0x1600005B#32 (.sprot (w.extractLsb' 15 5) (w.extractLsb' 7 3))
  | 12 => row w 0xFFF0007F#32 0x1800005B#32 (.tld (w.extractLsb' 15 5) (w.extractLsb' 10 5) (w.extractLsb' 7 3))
  | 13 => row w 0xFFF0007F#32 0x1A00005B#32 (.tst (w.extractLsb' 15 5) (w.extractLsb' 10 5) (w.extractLsb' 7 3))
  | 16 => 
    match (w.extractLsb' 10 5).toNat with
    | 0 => row w 0xFE007C7F#32 0x2000005B#32 (.barinit (w.extractLsb' 20 5) (w.extractLsb' 15 5) (w.extractLsb' 7 3))
    | 1 => row w 0xFFF07C7F#32 0x2000045B#32 (.barinitForce (w.extractLsb' 15 5) (w.extractLsb' 7 3))
    | 2 => row w 0xFFF07C7F#32 0x2000085B#32 (.barinitFree (w.extractLsb' 15 5) (w.extractLsb' 7 3))
    | _ => .error .reserved
  | 17 => row w 0xFE00007F#32 0x2200005B#32 (.bararr (w.extractLsb' 20 5) (w.extractLsb' 15 5) (w.extractLsb' 10 5) (w.extractLsb' 7 3))
  | 18 => row w 0xFE00007F#32 0x2400005B#32 (.bardrop (w.extractLsb' 20 5) (w.extractLsb' 15 5) (w.extractLsb' 10 5) (w.extractLsb' 7 3))
  | 19 => row w 0xFE00007F#32 0x2600005B#32 (.barjoin (w.extractLsb' 20 5) (w.extractLsb' 15 5) (w.extractLsb' 10 5) (w.extractLsb' 7 3))
  | 20 => row w 0xFE007C7F#32 0x2800005B#32 (.barwait (w.extractLsb' 20 5) (w.extractLsb' 15 5) (w.extractLsb' 7 3))
  | 21 => row w 0xFE00007F#32 0x2A00005B#32 (.bartest (w.extractLsb' 20 5) (w.extractLsb' 15 5) (w.extractLsb' 10 5) (w.extractLsb' 7 3))
  | 22 => row w 0xFE00007F#32 0x2C00005B#32 (.waita (w.extractLsb' 20 5) (w.extractLsb' 15 5) (w.extractLsb' 10 5) (w.extractLsb' 7 3))
  | 23 => row w 0xFE00007F#32 0x2E00005B#32 (.ringinit (w.extractLsb' 20 5) (w.extractLsb' 15 5) (w.extractLsb' 10 5) (w.extractLsb' 7 3))
  | 24 => row w 0xFFF0007F#32 0x3000005B#32 (.ringclaim (w.extractLsb' 15 5) (w.extractLsb' 10 5) (w.extractLsb' 7 3))
  | 25 => row w 0xFE007C7F#32 0x3200005B#32 (.ringcommit (w.extractLsb' 20 5) (w.extractLsb' 15 5) (w.extractLsb' 7 3))
  | 26 => row w 0xFFF0007F#32 0x3400005B#32 (.ringtake (w.extractLsb' 15 5) (w.extractLsb' 10 5) (w.extractLsb' 7 3))
  | 27 => row w 0xFE007C7F#32 0x3600005B#32 (.ringfree (w.extractLsb' 20 5) (w.extractLsb' 15 5) (w.extractLsb' 7 3))
  | 28 => row w 0xFE00007F#32 0x3800005B#32 (.waitfill (w.extractLsb' 20 5) (w.extractLsb' 15 5) (w.extractLsb' 10 5) (w.extractLsb' 7 3))
  | 29 => row w 0xFE00007F#32 0x3A00005B#32 (.waitfree (w.extractLsb' 20 5) (w.extractLsb' 15 5) (w.extractLsb' 10 5) (w.extractLsb' 7 3))
  | 32 => 
    match (w.extractLsb' 10 5).toNat with
    | 0 => row w 0xFE007C7F#32 0x4000005B#32 (.redaF32add (w.extractLsb' 20 5) (w.extractLsb' 15 5) (w.extractLsb' 7 3))
    | 1 => row w 0xFE007C7F#32 0x4000045B#32 (.redaBf16add (w.extractLsb' 20 5) (w.extractLsb' 15 5) (w.extractLsb' 7 3))
    | 2 => row w 0xFE007C7F#32 0x4000085B#32 (.redaI32add (w.extractLsb' 20 5) (w.extractLsb' 15 5) (w.extractLsb' 7 3))
    | 3 => row w 0xFE007C7F#32 0x40000C5B#32 (.redaF32max (w.extractLsb' 20 5) (w.extractLsb' 15 5) (w.extractLsb' 7 3))
    | 4 => row w 0xFE007C7F#32 0x4000105B#32 (.redaF32min (w.extractLsb' 20 5) (w.extractLsb' 15 5) (w.extractLsb' 7 3))
    | 5 => row w 0xFE007C7F#32 0x4000145B#32 (.redaI32max (w.extractLsb' 20 5) (w.extractLsb' 15 5) (w.extractLsb' 7 3))
    | 6 => row w 0xFE007C7F#32 0x4000185B#32 (.redaI32min (w.extractLsb' 20 5) (w.extractLsb' 15 5) (w.extractLsb' 7 3))
    | _ => .error .reserved
  | 33 => row w 0xFFFF807F#32 0x4200005B#32 (.redfence (w.extractLsb' 10 5) (w.extractLsb' 7 3))
  | 40 => row w 0xFE00007F#32 0x5000005B#32 (.prcfg (w.extractLsb' 20 5) (w.extractLsb' 15 5) (w.extractLsb' 10 5) (w.extractLsb' 7 3))
  | 41 => row w 0xFFF0007F#32 0x5200005B#32 (.prinv (w.extractLsb' 15 5) (w.extractLsb' 10 5) (w.extractLsb' 7 3))
  | 42 => row w 0xFFF07C7F#32 0x5400005B#32 (.prpin (w.extractLsb' 15 5) (w.extractLsb' 7 3))
  | 43 => row w 0xFFF07C7F#32 0x5600005B#32 (.prunpin (w.extractLsb' 15 5) (w.extractLsb' 7 3))
  | 48 => row w 0xFE00007F#32 0x6000005B#32 (.cparm (w.extractLsb' 20 5) (w.extractLsb' 15 5) (w.extractLsb' 10 5) (w.extractLsb' 7 3))
  | 49 => row w 0xFE00007F#32 0x6200005B#32 (.cpstep (w.extractLsb' 20 5) (w.extractLsb' 15 5) (w.extractLsb' 10 5) (w.extractLsb' 7 3))
  | 50 => row w 0xFFF0007F#32 0x6400005B#32 (.cpstat (w.extractLsb' 15 5) (w.extractLsb' 10 5) (w.extractLsb' 7 3))
  | 51 => row w 0xFFF0007F#32 0x6600005B#32 (.cpcancel (w.extractLsb' 15 5) (w.extractLsb' 10 5) (w.extractLsb' 7 3))
  | 56 => row w 0xFE00007F#32 0x7000005B#32 (.nbmode (w.extractLsb' 20 5) (w.extractLsb' 15 5) (w.extractLsb' 10 5) (w.extractLsb' 7 3))
  | 57 => row w 0xFE00007F#32 0x7200005B#32 (.nbcmd (w.extractLsb' 20 5) (w.extractLsb' 15 5) (w.extractLsb' 10 5) (w.extractLsb' 7 3))
  | 58 => row w 0xFFFF807F#32 0x7400005B#32 (.nbfence (w.extractLsb' 10 5) (w.extractLsb' 7 3))
  | 59 => row w 0xFE00007F#32 0x7600005B#32 (.nbrd (w.extractLsb' 20 5) (w.extractLsb' 15 5) (w.extractLsb' 10 5) (w.extractLsb' 7 3))
  | 64 => 
    match (w.extractLsb' 10 5).toNat with
    | 0 => row w 0xFE007C7F#32 0x8000005B#32 (.hintLife (w.extractLsb' 20 5) (w.extractLsb' 15 5) (w.extractLsb' 7 3))
    | 1 => row w 0xFFF07C7F#32 0x8000045B#32 (.hintPref (w.extractLsb' 15 5) (w.extractLsb' 7 3))
    | 2 => row w 0xFFF07C7F#32 0x8000085B#32 (.hintFetch (w.extractLsb' 15 5) (w.extractLsb' 7 3))
    | _ => .error .reserved
  | 65 => row w 0xFFF0007F#32 0x8200005B#32 (.stepadv (w.extractLsb' 15 5) (w.extractLsb' 10 5) (w.extractLsb' 7 3))
  | _ => .error .reserved

/-- Formats M and F, by funct4 (R29, R30, R39). -/
def decodeMF (w : BitVec 32) : Except Illegal Instr :=
  match (w.extractLsb' 28 4).toNat with
  | 0 => 
    match (w.extractLsb' 26 2).toNat with
    | 0 => row w 0xFC00007F#32 0x0000002B#32 (.mma (w.extractLsb' 21 5) (w.extractLsb' 16 5) (w.extractLsb' 15 1) (w.extractLsb' 14 1) (w.extractLsb' 10 4) (w.extractLsb' 7 3))
    | 1 => row w 0xFC00007F#32 0x0400002B#32 (.mmaAcc (w.extractLsb' 21 5) (w.extractLsb' 16 5) (w.extractLsb' 15 1) (w.extractLsb' 14 1) (w.extractLsb' 10 4) (w.extractLsb' 7 3))
    | 2 => row w 0xFC00007F#32 0x0800002B#32 (.mmaNeg (w.extractLsb' 21 5) (w.extractLsb' 16 5) (w.extractLsb' 15 1) (w.extractLsb' 14 1) (w.extractLsb' 10 4) (w.extractLsb' 7 3))
    | _ => .error .accumulateMode
  | 1 => 
    match (w.extractLsb' 26 2).toNat with
    | 0 => row w 0xFC00007F#32 0x1000002B#32 (.mmas (w.extractLsb' 21 5) (w.extractLsb' 16 5) (w.extractLsb' 15 1) (w.extractLsb' 14 1) (w.extractLsb' 10 4) (w.extractLsb' 7 3))
    | 1 => row w 0xFC00007F#32 0x1400002B#32 (.mmasAcc (w.extractLsb' 21 5) (w.extractLsb' 16 5) (w.extractLsb' 15 1) (w.extractLsb' 14 1) (w.extractLsb' 10 4) (w.extractLsb' 7 3))
    | 2 => row w 0xFC00007F#32 0x1800002B#32 (.mmasNeg (w.extractLsb' 21 5) (w.extractLsb' 16 5) (w.extractLsb' 15 1) (w.extractLsb' 14 1) (w.extractLsb' 10 4) (w.extractLsb' 7 3))
    | _ => .error .accumulateMode
  | 2 => row w 0xFFFFC07F#32 0x2000002B#32 (.accz (w.extractLsb' 10 4) (w.extractLsb' 7 3))
  | 3 => 
    match (w.extractLsb' 15 1).toNat with
    | 0 => row w 0xFFE0C07F#32 0x3000002B#32 (.accscl (w.extractLsb' 16 5) (w.extractLsb' 10 4) (w.extractLsb' 7 3))
    | _ => row w 0xFFE0C07F#32 0x3000802B#32 (.accsclX (w.extractLsb' 16 5) (w.extractLsb' 10 4) (w.extractLsb' 7 3))
  | 4 => 
    match (w.extractLsb' 15 1).toNat with
    | 0 => row w 0xF000C07F#32 0x4000002B#32 (.accrd (w.extractLsb' 26 2) (w.extractLsb' 21 5) (w.extractLsb' 16 5) (w.extractLsb' 10 4) (w.extractLsb' 7 3))
    | _ => row w 0xF000C07F#32 0x4000802B#32 (.accrdCol (w.extractLsb' 26 2) (w.extractLsb' 21 5) (w.extractLsb' 16 5) (w.extractLsb' 10 4) (w.extractLsb' 7 3))
  | 5 => 
    match (w.extractLsb' 15 1).toNat with
    | 0 => row w 0xF000C07F#32 0x5000002B#32 (.accwr (w.extractLsb' 26 2) (w.extractLsb' 21 5) (w.extractLsb' 16 5) (w.extractLsb' 10 4) (w.extractLsb' 7 3))
    | _ => row w 0xF000C07F#32 0x5000802B#32 (.accwrCol (w.extractLsb' 26 2) (w.extractLsb' 21 5) (w.extractLsb' 16 5) (w.extractLsb' 10 4) (w.extractLsb' 7 3))
  | 6 => row w 0xFC007C7F#32 0x6000002B#32 (.epi (w.extractLsb' 21 5) (w.extractLsb' 16 5) (w.extractLsb' 15 1) (w.extractLsb' 7 3))
  | 7 => 
    match (w.extractLsb' 26 2).toNat with
    | 0 => row w 0xFFFFFC7F#32 0x7000002B#32 (.mqctlWait (w.extractLsb' 7 3))
    | 1 => row w 0xFFE0FC7F#32 0x7400002B#32 (.mqctlRm (w.extractLsb' 16 5) (w.extractLsb' 7 3))
    | 2 => row w 0xFFE0FC7F#32 0x7800002B#32 (.mqctlFtb (w.extractLsb' 16 5) (w.extractLsb' 7 3))
    | _ => .error .accumulateMode
  | 8 => row w 0xF003FC7F#32 0x8000002B#32 (.opu (w.extractLsb' 23 5) (w.extractLsb' 18 5) (w.extractLsb' 7 3))
  | 9 => row w 0xF003FC7F#32 0x9000002B#32 (.fwfwd (w.extractLsb' 23 5) (w.extractLsb' 18 5) (w.extractLsb' 7 3))
  | 10 => 
    match (w.extractLsb' 10 3).toNat with
    | 0 => row w 0xF0001C7F#32 0xA000002B#32 (.fwupdD (w.extractLsb' 23 5) (w.extractLsb' 18 5) (w.extractLsb' 13 5) (w.extractLsb' 7 3))
    | 2 => row w 0xF0001C7F#32 0xA000082B#32 (.fwupdH (w.extractLsb' 23 5) (w.extractLsb' 18 5) (w.extractLsb' 13 5) (w.extractLsb' 7 3))
    | 4 => row w 0xF0001C7F#32 0xA000102B#32 (.fwupdE (w.extractLsb' 23 5) (w.extractLsb' 18 5) (w.extractLsb' 13 5) (w.extractLsb' 7 3))
    | _ => .error .reserved
  | 11 => 
    match (w.extractLsb' 10 3).toNat with
    | 0 => row w 0xF0001C7F#32 0xB000002B#32 (.fwfuD (w.extractLsb' 23 5) (w.extractLsb' 18 5) (w.extractLsb' 13 5) (w.extractLsb' 7 3))
    | 1 => row w 0xF0001C7F#32 0xB000042B#32 (.fwfuDl (w.extractLsb' 23 5) (w.extractLsb' 18 5) (w.extractLsb' 13 5) (w.extractLsb' 7 3))
    | 2 => row w 0xF0001C7F#32 0xB000082B#32 (.fwfuH (w.extractLsb' 23 5) (w.extractLsb' 18 5) (w.extractLsb' 13 5) (w.extractLsb' 7 3))
    | 3 => row w 0xF0001C7F#32 0xB0000C2B#32 (.fwfuHl (w.extractLsb' 23 5) (w.extractLsb' 18 5) (w.extractLsb' 13 5) (w.extractLsb' 7 3))
    | 4 => row w 0xF0001C7F#32 0xB000102B#32 (.fwfuE (w.extractLsb' 23 5) (w.extractLsb' 18 5) (w.extractLsb' 13 5) (w.extractLsb' 7 3))
    | _ => .error .reserved
  | 12 => 
    match (w.extractLsb' 10 3).toNat with
    | 0 => row w 0xF003FC7F#32 0xC000002B#32 (.fwsnapSnap (w.extractLsb' 23 5) (w.extractLsb' 18 5) (w.extractLsb' 7 3))
    | 1 => row w 0xF003FC7F#32 0xC000042B#32 (.fwsnapFork (w.extractLsb' 23 5) (w.extractLsb' 18 5) (w.extractLsb' 7 3))
    | 2 => row w 0xF003FC7F#32 0xC000082B#32 (.fwsnapRollback (w.extractLsb' 23 5) (w.extractLsb' 18 5) (w.extractLsb' 7 3))
    | 3 => row w 0xF07FFC7F#32 0xC0000C2B#32 (.fwsnapFree (w.extractLsb' 23 5) (w.extractLsb' 7 3))
    | _ => .error .reserved
  | 13 => row w 0xF0001C7F#32 0xD000002B#32 (.fwavg (w.extractLsb' 23 5) (w.extractLsb' 18 5) (w.extractLsb' 13 5) (w.extractLsb' 7 3))
  | 14 => row w 0xF003FC7F#32 0xE000002B#32 (.fwmig (w.extractLsb' 23 5) (w.extractLsb' 18 5) (w.extractLsb' 7 3))
  | _ => 
    match (w.extractLsb' 10 3).toNat with
    | 0 => row w 0xF07FFC7F#32 0xF000002B#32 (.fwctlPin (w.extractLsb' 23 5) (w.extractLsb' 7 3))
    | 1 => row w 0xF07FFC7F#32 0xF000042B#32 (.fwctlUnpin (w.extractLsb' 23 5) (w.extractLsb' 7 3))
    | 2 => row w 0xF003FC7F#32 0xF000082B#32 (.fwctlQuery (w.extractLsb' 23 5) (w.extractLsb' 18 5) (w.extractLsb' 7 3))
    | 3 => row w 0xF0001C7F#32 0xF0000C2B#32 (.fwctlHint (w.extractLsb' 23 5) (w.extractLsb' 18 5) (w.extractLsb' 13 5) (w.extractLsb' 7 3))
    | 4 => row w 0xF07FFC7F#32 0xF000102B#32 (.fwctlWait (w.extractLsb' 23 5) (w.extractLsb' 7 3))
    | 5 => row w 0xF0001C7F#32 0xF000142B#32 (.fwctlNew (w.extractLsb' 23 5) (w.extractLsb' 18 5) (w.extractLsb' 13 5) (w.extractLsb' 7 3))
    | _ => .error .reserved

/-- Format C, by funct7 (R31, R33, R40). A role marker whose role field is not 7 has its own name (R41). -/
def decodeC (w : BitVec 32) : Except Illegal Instr :=
  match (w.extractLsb' 25 7).toNat with
  | 0 => if w.extractLsb' 7 3 = 7 then row w 0xFE0003FF#32 0x000003FB#32 (.role (w.extractLsb' 18 7) (w.extractLsb' 10 8)) else .error .roleMarker
  | 1 => row w 0xFE00007F#32 0x0200007B#32 (.handoff (w.extractLsb' 22 3) (w.extractLsb' 18 4) (w.extractLsb' 10 8) (w.extractLsb' 7 3))
  | 2 => row w 0xFE00007F#32 0x0400007B#32 (.loop (w.extractLsb' 20 5) (w.extractLsb' 10 10) (w.extractLsb' 7 3))
  | 3 => row w 0xFFF0007F#32 0x0600007B#32 (.roleid (w.extractLsb' 15 5) (w.extractLsb' 10 5) (w.extractLsb' 7 3))
  | 4 => row w 0xFFF0007F#32 0x0800007B#32 (.drift (w.extractLsb' 15 5) (w.extractLsb' 10 5) (w.extractLsb' 7 3))
  | 5 => row w 0xFFF0007F#32 0x0A00007B#32 (.vgrow (w.extractLsb' 15 5) (w.extractLsb' 10 5) (w.extractLsb' 7 3))
  | 6 => row w 0xFFF0007F#32 0x0C00007B#32 (.vshrink (w.extractLsb' 15 5) (w.extractLsb' 10 5) (w.extractLsb' 7 3))
  | 7 => row w 0xFFF0007F#32 0x0E00007B#32 (.fmset (w.extractLsb' 15 5) (w.extractLsb' 10 5) (w.extractLsb' 7 3))
  | 8 => row w 0xFE007C7F#32 0x1000007B#32 (.ftset (w.extractLsb' 20 5) (w.extractLsb' 15 5) (w.extractLsb' 7 3))
  | 9 => row w 0xFFFF807F#32 0x1200007B#32 (.rnext (w.extractLsb' 10 5) (w.extractLsb' 7 3))
  | 10 => row w 0xFE007C7F#32 0x1400007B#32 (.ntoken (w.extractLsb' 20 5) (w.extractLsb' 15 5) (w.extractLsb' 7 3))
  | 11 => row w 0xFFF0007F#32 0x1600007B#32 (.nctx (w.extractLsb' 15 5) (w.extractLsb' 10 5) (w.extractLsb' 7 3))
  | 12 => row w 0xFFFFFC7F#32 0x1800007B#32 (.ndone (w.extractLsb' 7 3))
  | 13 => row w 0xFFF07C7F#32 0x1A00007B#32 (.nfail (w.extractLsb' 15 5) (w.extractLsb' 7 3))
  | 14 => row w 0xFFFFFC7F#32 0x1C00007B#32 (.trapret (w.extractLsb' 7 3))
  | 15 => row w 0xFFF0007F#32 0x1E00007B#32 (.rqrd (w.extractLsb' 15 5) (w.extractLsb' 10 5) (w.extractLsb' 7 3))
  | 16 => row w 0xFE007C7F#32 0x2000007B#32 (.rqwr (w.extractLsb' 20 5) (w.extractLsb' 15 5) (w.extractLsb' 7 3))
  | 17 => row w 0xFFF07C7F#32 0x2200007B#32 (.rqdrop (w.extractLsb' 15 5) (w.extractLsb' 7 3))
  | 18 => row w 0xFFF0007F#32 0x2400007B#32 (.enread (w.extractLsb' 15 5) (w.extractLsb' 10 5) (w.extractLsb' 7 3))
  | 19 => row w 0xFFF0007F#32 0x2600007B#32 (.enest (w.extractLsb' 15 5) (w.extractLsb' 10 5) (w.extractLsb' 7 3))
  | 20 => row w 0xFE007C7F#32 0x2800007B#32 (.trec (w.extractLsb' 20 5) (w.extractLsb' 15 5) (w.extractLsb' 7 3))
  | _ => .error .reserved

/-- Formats P and C share custom-3; P has bits [31:30] = 11 (R24, R32). -/
def decodeCP (w : BitVec 32) : Except Illegal Instr :=
  if w.extractLsb' 30 2 = 3 then row w 0xC000007F#32 0xC000007B#32 (.probe (w.extractLsb' 20 10) (w.extractLsb' 15 5) (w.extractLsb' 10 5) (w.extractLsb' 7 3)) else decodeC w

/-! ### The RV64 base, with the published encodings (R43) -/

/-- The fields of the published formats. -/
def rdOf (w : BitVec 32) : BitVec 5 := w.extractLsb' 7 5
def rs1Of (w : BitVec 32) : BitVec 5 := w.extractLsb' 15 5
def rs2Of (w : BitVec 32) : BitVec 5 := w.extractLsb' 20 5
def immI (w : BitVec 32) : BitVec 12 := w.extractLsb' 20 12
def immS (w : BitVec 32) : BitVec 12 := w.extractLsb' 25 7 ++ w.extractLsb' 7 5
/-- Bits [12:1] of a branch offset. -/
def immB (w : BitVec 32) : BitVec 12 :=
  w.extractLsb' 31 1 ++ w.extractLsb' 7 1 ++ w.extractLsb' 25 6 ++ w.extractLsb' 8 4
/-- Bits [20:1] of a JAL offset. -/
def immJ (w : BitVec 32) : BitVec 20 :=
  w.extractLsb' 31 1 ++ w.extractLsb' 12 8 ++ w.extractLsb' 20 1 ++ w.extractLsb' 21 10

noncomputable def decodeLoad (w : BitVec 32) : Except Illegal Instr :=
  match (w.extractLsb' 12 3).toNat with
  | 0 => .ok (.lb (rdOf w) (rs1Of w) (immI w))
  | 1 => .ok (.lh (rdOf w) (rs1Of w) (immI w))
  | 2 => .ok (.lw (rdOf w) (rs1Of w) (immI w))
  | 3 => .ok (.ld (rdOf w) (rs1Of w) (immI w))
  | 4 => .ok (.lbu (rdOf w) (rs1Of w) (immI w))
  | 5 => .ok (.lhu (rdOf w) (rs1Of w) (immI w))
  | 6 => .ok (.lwu (rdOf w) (rs1Of w) (immI w))
  | _ => .error .base

noncomputable def decodeStore (w : BitVec 32) : Except Illegal Instr :=
  match (w.extractLsb' 12 3).toNat with
  | 0 => .ok (.sb (rs1Of w) (rs2Of w) (immS w))
  | 1 => .ok (.sh (rs1Of w) (rs2Of w) (immS w))
  | 2 => .ok (.sw (rs1Of w) (rs2Of w) (immS w))
  | 3 => .ok (.sd (rs1Of w) (rs2Of w) (immS w))
  | _ => .error .base

noncomputable def decodeBranch (w : BitVec 32) : Except Illegal Instr :=
  match (w.extractLsb' 12 3).toNat with
  | 0 => .ok (.beq (rs1Of w) (rs2Of w) (immB w))
  | 1 => .ok (.bne (rs1Of w) (rs2Of w) (immB w))
  | 4 => .ok (.blt (rs1Of w) (rs2Of w) (immB w))
  | 5 => .ok (.bge (rs1Of w) (rs2Of w) (immB w))
  | 6 => .ok (.bltu (rs1Of w) (rs2Of w) (immB w))
  | 7 => .ok (.bgeu (rs1Of w) (rs2Of w) (immB w))
  | _ => .error .base

noncomputable def decodeMiscMem (w : BitVec 32) : Except Illegal Instr :=
  match (w.extractLsb' 12 3).toNat with
  | 0 => if immI w = 0x833#12 then .ok (.fenceTso (rdOf w) (rs1Of w)) else .ok (.fence (rdOf w) (rs1Of w) (immI w))
  | 1 => .ok (.fenceI (rdOf w) (rs1Of w) (immI w))
  | _ => .error .base

noncomputable def decodeOpImm (w : BitVec 32) : Except Illegal Instr :=
  let sh := w.extractLsb' 20 6
  match (w.extractLsb' 12 3).toNat with
  | 0 => .ok (.addi (rdOf w) (rs1Of w) (immI w))
  | 1 => if w.extractLsb' 26 6 = 0 then .ok (.slli (rdOf w) (rs1Of w) sh) else .error .base
  | 2 => .ok (.slti (rdOf w) (rs1Of w) (immI w))
  | 3 => .ok (.sltiu (rdOf w) (rs1Of w) (immI w))
  | 4 => .ok (.xori (rdOf w) (rs1Of w) (immI w))
  | 5 =>
    if w.extractLsb' 26 6 = 0 then .ok (.srli (rdOf w) (rs1Of w) sh)
    else if w.extractLsb' 26 6 = 0x10 then .ok (.srai (rdOf w) (rs1Of w) sh) else .error .base
  | 6 => .ok (.ori (rdOf w) (rs1Of w) (immI w))
  | _ => .ok (.andi (rdOf w) (rs1Of w) (immI w))

noncomputable def decodeOpImm32 (w : BitVec 32) : Except Illegal Instr :=
  let sh := w.extractLsb' 20 5
  match (w.extractLsb' 12 3).toNat with
  | 0 => .ok (.addiw (rdOf w) (rs1Of w) (immI w))
  | 1 =>
    if w.extractLsb' 25 7 = 0 then .ok (.slliw (rdOf w) (rs1Of w) sh)
    else if w.extractLsb' 26 6 = 2 then .ok (.slliUw (rdOf w) (rs1Of w) (w.extractLsb' 20 6)) else .error .base
  | 5 =>
    if w.extractLsb' 25 7 = 0 then .ok (.srliw (rdOf w) (rs1Of w) sh)
    else if w.extractLsb' 25 7 = 0x20 then .ok (.sraiw (rdOf w) (rs1Of w) sh) else .error .base
  | _ => .error .base

/-- The register-register operations, by funct7 and funct3. -/
noncomputable def decodeOp (w : BitVec 32) : Except Illegal Instr :=
  match (w.extractLsb' 25 7).toNat, (w.extractLsb' 12 3).toNat with
  | 0, 0 => .ok (.add (rdOf w) (rs1Of w) (rs2Of w))
  | 0, 1 => .ok (.sll (rdOf w) (rs1Of w) (rs2Of w))
  | 0, 2 => .ok (.slt (rdOf w) (rs1Of w) (rs2Of w))
  | 0, 3 => .ok (.sltu (rdOf w) (rs1Of w) (rs2Of w))
  | 0, 4 => .ok (.xor (rdOf w) (rs1Of w) (rs2Of w))
  | 0, 5 => .ok (.srl (rdOf w) (rs1Of w) (rs2Of w))
  | 0, 6 => .ok (.or (rdOf w) (rs1Of w) (rs2Of w))
  | 0, 7 => .ok (.and (rdOf w) (rs1Of w) (rs2Of w))
  | 1, 0 => .ok (.mul (rdOf w) (rs1Of w) (rs2Of w))
  | 1, 1 => .ok (.mulh (rdOf w) (rs1Of w) (rs2Of w))
  | 1, 2 => .ok (.mulhsu (rdOf w) (rs1Of w) (rs2Of w))
  | 1, 3 => .ok (.mulhu (rdOf w) (rs1Of w) (rs2Of w))
  | 1, 4 => .ok (.div (rdOf w) (rs1Of w) (rs2Of w))
  | 1, 5 => .ok (.divu (rdOf w) (rs1Of w) (rs2Of w))
  | 1, 6 => .ok (.rem (rdOf w) (rs1Of w) (rs2Of w))
  | 1, 7 => .ok (.remu (rdOf w) (rs1Of w) (rs2Of w))
  | 16, 2 => .ok (.sh1add (rdOf w) (rs1Of w) (rs2Of w))
  | 16, 4 => .ok (.sh2add (rdOf w) (rs1Of w) (rs2Of w))
  | 16, 6 => .ok (.sh3add (rdOf w) (rs1Of w) (rs2Of w))
  | 32, 0 => .ok (.sub (rdOf w) (rs1Of w) (rs2Of w))
  | 32, 5 => .ok (.sra (rdOf w) (rs1Of w) (rs2Of w))
  | _, _ => .error .base

noncomputable def decodeOp32 (w : BitVec 32) : Except Illegal Instr :=
  match (w.extractLsb' 25 7).toNat, (w.extractLsb' 12 3).toNat with
  | 0, 0 => .ok (.addw (rdOf w) (rs1Of w) (rs2Of w))
  | 0, 1 => .ok (.sllw (rdOf w) (rs1Of w) (rs2Of w))
  | 0, 5 => .ok (.srlw (rdOf w) (rs1Of w) (rs2Of w))
  | 1, 0 => .ok (.mulw (rdOf w) (rs1Of w) (rs2Of w))
  | 1, 4 => .ok (.divw (rdOf w) (rs1Of w) (rs2Of w))
  | 1, 5 => .ok (.divuw (rdOf w) (rs1Of w) (rs2Of w))
  | 1, 6 => .ok (.remw (rdOf w) (rs1Of w) (rs2Of w))
  | 1, 7 => .ok (.remuw (rdOf w) (rs1Of w) (rs2Of w))
  | 4, 0 => .ok (.addUw (rdOf w) (rs1Of w) (rs2Of w))
  | 16, 2 => .ok (.sh1addUw (rdOf w) (rs1Of w) (rs2Of w))
  | 16, 4 => .ok (.sh2addUw (rdOf w) (rs1Of w) (rs2Of w))
  | 16, 6 => .ok (.sh3addUw (rdOf w) (rs1Of w) (rs2Of w))
  | 32, 0 => .ok (.subw (rdOf w) (rs1Of w) (rs2Of w))
  | 32, 5 => .ok (.sraw (rdOf w) (rs1Of w) (rs2Of w))
  | _, _ => .error .base

/-- RV64A, by funct5 and width, with aq in bit 26 and rl in bit 25. -/
noncomputable def decodeAmo (w : BitVec 32) : Except Illegal Instr :=
  let aq := w.extractLsb' 26 1
  let rl := w.extractLsb' 25 1
  match (w.extractLsb' 27 5).toNat, (w.extractLsb' 12 3).toNat with
  | 0, 2 => .ok (.amoaddW (rdOf w) (rs1Of w) (rs2Of w) aq rl)
  | 0, 3 => .ok (.amoaddD (rdOf w) (rs1Of w) (rs2Of w) aq rl)
  | 1, 2 => .ok (.amoswapW (rdOf w) (rs1Of w) (rs2Of w) aq rl)
  | 1, 3 => .ok (.amoswapD (rdOf w) (rs1Of w) (rs2Of w) aq rl)
  | 2, 2 => if rs2Of w = 0 then .ok (.lrW (rdOf w) (rs1Of w) aq rl) else .error .base
  | 2, 3 => if rs2Of w = 0 then .ok (.lrD (rdOf w) (rs1Of w) aq rl) else .error .base
  | 3, 2 => .ok (.scW (rdOf w) (rs1Of w) (rs2Of w) aq rl)
  | 3, 3 => .ok (.scD (rdOf w) (rs1Of w) (rs2Of w) aq rl)
  | 4, 2 => .ok (.amoxorW (rdOf w) (rs1Of w) (rs2Of w) aq rl)
  | 4, 3 => .ok (.amoxorD (rdOf w) (rs1Of w) (rs2Of w) aq rl)
  | 8, 2 => .ok (.amoorW (rdOf w) (rs1Of w) (rs2Of w) aq rl)
  | 8, 3 => .ok (.amoorD (rdOf w) (rs1Of w) (rs2Of w) aq rl)
  | 12, 2 => .ok (.amoandW (rdOf w) (rs1Of w) (rs2Of w) aq rl)
  | 12, 3 => .ok (.amoandD (rdOf w) (rs1Of w) (rs2Of w) aq rl)
  | 16, 2 => .ok (.amominW (rdOf w) (rs1Of w) (rs2Of w) aq rl)
  | 16, 3 => .ok (.amominD (rdOf w) (rs1Of w) (rs2Of w) aq rl)
  | 20, 2 => .ok (.amomaxW (rdOf w) (rs1Of w) (rs2Of w) aq rl)
  | 20, 3 => .ok (.amomaxD (rdOf w) (rs1Of w) (rs2Of w) aq rl)
  | 24, 2 => .ok (.amominuW (rdOf w) (rs1Of w) (rs2Of w) aq rl)
  | 24, 3 => .ok (.amominuD (rdOf w) (rs1Of w) (rs2Of w) aq rl)
  | 28, 2 => .ok (.amomaxuW (rdOf w) (rs1Of w) (rs2Of w) aq rl)
  | 28, 3 => .ok (.amomaxuD (rdOf w) (rs1Of w) (rs2Of w) aq rl)
  | _, _ => .error .base

/-- SYSTEM: ECALL, EBREAK, WFI and Zicsr; every other encoding is illegal (R44). -/
noncomputable def decodeSystem (w : BitVec 32) : Except Illegal Instr :=
  match (w.extractLsb' 12 3).toNat with
  | 0 =>
    if w = 0x00000073#32 then .ok .ecall
    else if w = 0x00100073#32 then .ok .ebreak
    else if w = 0x10500073#32 then .ok .wfi
    else .error .base
  | 1 => .ok (.csrrw (rdOf w) (rs1Of w) (immI w))
  | 2 => .ok (.csrrs (rdOf w) (rs1Of w) (immI w))
  | 3 => .ok (.csrrc (rdOf w) (rs1Of w) (immI w))
  | 5 => .ok (.csrrwi (rdOf w) (rs1Of w) (immI w))
  | 6 => .ok (.csrrsi (rdOf w) (rs1Of w) (immI w))
  | 7 => .ok (.csrrci (rdOf w) (rs1Of w) (immI w))
  | _ => .error .base

/-- The instruction that the opcode and function fields of a word select, before its limits (R24). -/
noncomputable def decodeFields (w : BitVec 32) : Except Illegal Instr :=
  if w = 0 ∨ w = 0xFFFFFFFF#32 then .error .allZerosOrOnes
  else
    match (w.extractLsb' 0 7).toNat with
    | 0x03 => decodeLoad w
    | 0x0B => decodeV w
    | 0x0F => decodeMiscMem w
    | 0x13 => decodeOpImm w
    | 0x17 => .ok (.auipc (rdOf w) (w.extractLsb' 12 20))
    | 0x1B => decodeOpImm32 w
    | 0x23 => decodeStore w
    | 0x2B => decodeMF w
    | 0x2F => decodeAmo w
    | 0x33 => decodeOp w
    | 0x37 => .ok (.lui (rdOf w) (w.extractLsb' 12 20))
    | 0x3B => decodeOp32 w
    | 0x5B => decodeS w
    | 0x63 => decodeBranch w
    | 0x67 => if w.extractLsb' 12 3 = 0 then .ok (.jalr (rdOf w) (rs1Of w) (immI w)) else .error .base
    | 0x6F => .ok (.jal (rdOf w) (immJ w))
    | 0x73 => decodeSystem w
    | 0x7B => decodeCP w
    | _ => if w.extractLsb' 0 2 = 3 then .error .opcode else .error .compressed

/-- The words of formats V, M, F and S, where every forwarded word stands (R95). -/
def decodeEngine (w : BitVec 32) : Except Illegal Instr :=
  let r := match (w.extractLsb' 0 7).toNat with
    | 0x0B => decodeV w
    | 0x2B => decodeMF w
    | 0x5B => decodeS w
    | _ => .error .opcode
  match r with
  | .error e => .error e
  | .ok i =>
    match i.check with
    | none => .ok i
    | some e => .error e

/-- The instruction of a word, or the name of the reason why the word is illegal (R41). (DESIGN CHOICE, assumption log 21) -/
noncomputable def decode (w : BitVec 32) : Except Illegal Instr :=
  match decodeFields w with
  | .error e => .error e
  | .ok i =>
    match i.check with
    | none => .ok i
    | some e => .error e

/-- A word from its bytes, the first at the lowest address (R23: little-endian). -/
def wordOfBytes (b0 b1 b2 b3 : Byte) : BitVec 32 := b3 ++ b2 ++ b1 ++ b0

/-- Why bytes hold no instruction. -/
inductive DecodeError where
  /-- Fewer than the 4 bytes of a word are left. -/
  | truncated
  /-- The word is illegal. -/
  | illegal (why : Illegal)
  deriving DecidableEq, Repr

/-- The instruction at the head of a byte sequence, and the bytes after it. -/
noncomputable def decodeBytes : List Byte → Except DecodeError (Instr × List Byte)
  | b0 :: b1 :: b2 :: b3 :: rest =>
    match decode (wordOfBytes b0 b1 b2 b3) with
    | .ok i => .ok (i, rest)
    | .error e => .error (.illegal e)
  | _ => .error .truncated

/-- The instruction whose bits, numbered as the opcode table numbers them, are `w`; bits from `nbits` on are 0. -/
noncomputable def decodeTableWord (nbits w : Nat) : Option Instr :=
  let v := BitVec.ofNat 32 (w % 2 ^ min nbits 32)
  match decodeBytes [v.extractLsb' 0 8, v.extractLsb' 8 8, v.extractLsb' 16 8, v.extractLsb' 24 8] with
  | .ok (i, _) => some i
  | .error _ => none

/-! ### The encoder -/

/-- The fields of a branch offset around the register fields. -/
def encodeB (f3 : BitVec 3) (rs1 rs2 : BitVec 5) (imm : BitVec 12) : BitVec 32 :=
  imm.extractLsb' 11 1 ++ imm.extractLsb' 4 6 ++ rs2 ++ rs1 ++ f3 ++ imm.extractLsb' 0 4 ++ imm.extractLsb' 10 1 ++ 0x63#7

def encodeI (op : BitVec 7) (f3 : BitVec 3) (rd rs1 : BitVec 5) (imm : BitVec 12) : BitVec 32 :=
  imm ++ rs1 ++ f3 ++ rd ++ op

/-- A shift by a 6-bit amount. -/
def encodeSh (op : BitVec 7) (f3 : BitVec 3) (f6 : BitVec 6) (rd rs1 : BitVec 5) (sh : BitVec 6) : BitVec 32 :=
  f6 ++ sh ++ rs1 ++ f3 ++ rd ++ op

def encodeSt (f3 : BitVec 3) (rs1 rs2 : BitVec 5) (imm : BitVec 12) : BitVec 32 :=
  imm.extractLsb' 5 7 ++ rs2 ++ rs1 ++ f3 ++ imm.extractLsb' 0 5 ++ 0x23#7

def encodeR (op : BitVec 7) (f7 : BitVec 7) (f3 : BitVec 3) (rd rs1 rs2 : BitVec 5) : BitVec 32 :=
  f7 ++ rs2 ++ rs1 ++ f3 ++ rd ++ op

def encodeA (f5 : BitVec 5) (f3 : BitVec 3) (rd rs1 rs2 : BitVec 5) (aq rl : BitVec 1) : BitVec 32 :=
  f5 ++ aq ++ rl ++ rs2 ++ rs1 ++ f3 ++ rd ++ 0x2F#7

def encodeU (op : BitVec 7) (rd : BitVec 5) (imm : BitVec 20) : BitVec 32 := imm ++ rd ++ op

def encodeJ (rd : BitVec 5) (imm : BitVec 20) : BitVec 32 :=
  imm.extractLsb' 19 1 ++ imm.extractLsb' 0 10 ++ imm.extractLsb' 10 1 ++ imm.extractLsb' 11 8 ++ rd ++ 0x6F#7

/-- The formats of R28 to R33. -/
def encodeV (f6 : BitVec 6) (m : BitVec 1) (b a d : BitVec 5) (r : BitVec 3) : BitVec 32 := f6 ++ m ++ b ++ a ++ d ++ r ++ 0x0B#7

def encodeM (f4 : BitVec 4) (n : BitVec 2) (b a : BitVec 5) (x y : BitVec 1) (o : BitVec 4) (r : BitVec 3) : BitVec 32 :=
  f4 ++ n ++ b ++ a ++ x ++ y ++ o ++ r ++ 0x2B#7

def encodeF (f4 : BitVec 4) (c b a : BitVec 5) (o : BitVec 3) (r : BitVec 3) : BitVec 32 := f4 ++ c ++ b ++ a ++ o ++ r ++ 0x2B#7

def encodeS (f7 : BitVec 7) (b a d : BitVec 5) (r : BitVec 3) : BitVec 32 := f7 ++ b ++ a ++ d ++ r ++ 0x5B#7

def encodeC (f7 : BitVec 7) (b a d : BitVec 5) (r : BitVec 3) : BitVec 32 := f7 ++ b ++ a ++ d ++ r ++ 0x7B#7

def encodeP (i : BitVec 10) (a d : BitVec 5) (r : BitVec 3) : BitVec 32 := 3#2 ++ i ++ a ++ d ++ r ++ 0x7B#7

/-- The words of format C with other fields (R33, R40, R41): a role marker, a handoff and a loop. -/
def encodeRole (x : BitVec 7) (s : BitVec 8) : BitVec 32 := 0#7 ++ x ++ s ++ 7#3 ++ 0x7B#7

def encodeHandoff (v : BitVec 3) (m : BitVec 4) (n : BitVec 8) (r : BitVec 3) : BitVec 32 := 1#7 ++ v ++ m ++ n ++ r ++ 0x7B#7

def encodeLoop (c : BitVec 5) (e : BitVec 10) (r : BitVec 3) : BitVec 32 := 2#7 ++ c ++ e ++ r ++ 0x7B#7

/-- The word of an instruction, from the format tables; an event has no word. -/
def encode : Instr → Option (BitVec 32)
  | .lui rd imm => some (encodeU 0x37 rd imm)
  | .auipc rd imm => some (encodeU 0x17 rd imm)
  | .jal rd imm => some (encodeJ rd imm)
  | .jalr rd rs1 imm => some (encodeI 0x67 0 rd rs1 imm)
  | .beq rs1 rs2 imm => some (encodeB 0 rs1 rs2 imm)
  | .bne rs1 rs2 imm => some (encodeB 1 rs1 rs2 imm)
  | .blt rs1 rs2 imm => some (encodeB 4 rs1 rs2 imm)
  | .bge rs1 rs2 imm => some (encodeB 5 rs1 rs2 imm)
  | .bltu rs1 rs2 imm => some (encodeB 6 rs1 rs2 imm)
  | .bgeu rs1 rs2 imm => some (encodeB 7 rs1 rs2 imm)
  | .lb rd rs1 imm => some (encodeI 0x03 0 rd rs1 imm)
  | .lh rd rs1 imm => some (encodeI 0x03 1 rd rs1 imm)
  | .lw rd rs1 imm => some (encodeI 0x03 2 rd rs1 imm)
  | .ld rd rs1 imm => some (encodeI 0x03 3 rd rs1 imm)
  | .lbu rd rs1 imm => some (encodeI 0x03 4 rd rs1 imm)
  | .lhu rd rs1 imm => some (encodeI 0x03 5 rd rs1 imm)
  | .lwu rd rs1 imm => some (encodeI 0x03 6 rd rs1 imm)
  | .sb rs1 rs2 imm => some (encodeSt 0 rs1 rs2 imm)
  | .sh rs1 rs2 imm => some (encodeSt 1 rs1 rs2 imm)
  | .sw rs1 rs2 imm => some (encodeSt 2 rs1 rs2 imm)
  | .sd rs1 rs2 imm => some (encodeSt 3 rs1 rs2 imm)
  | .addi rd rs1 imm => some (encodeI 0x13 0 rd rs1 imm)
  | .slti rd rs1 imm => some (encodeI 0x13 2 rd rs1 imm)
  | .sltiu rd rs1 imm => some (encodeI 0x13 3 rd rs1 imm)
  | .xori rd rs1 imm => some (encodeI 0x13 4 rd rs1 imm)
  | .ori rd rs1 imm => some (encodeI 0x13 6 rd rs1 imm)
  | .andi rd rs1 imm => some (encodeI 0x13 7 rd rs1 imm)
  | .slli rd rs1 sh => some (encodeSh 0x13 1 0 rd rs1 sh)
  | .srli rd rs1 sh => some (encodeSh 0x13 5 0 rd rs1 sh)
  | .srai rd rs1 sh => some (encodeSh 0x13 5 0x10 rd rs1 sh)
  | .add rd rs1 rs2 => some (encodeR 0x33 0x0 0 rd rs1 rs2)
  | .sub rd rs1 rs2 => some (encodeR 0x33 0x20 0 rd rs1 rs2)
  | .sll rd rs1 rs2 => some (encodeR 0x33 0x0 1 rd rs1 rs2)
  | .slt rd rs1 rs2 => some (encodeR 0x33 0x0 2 rd rs1 rs2)
  | .sltu rd rs1 rs2 => some (encodeR 0x33 0x0 3 rd rs1 rs2)
  | .xor rd rs1 rs2 => some (encodeR 0x33 0x0 4 rd rs1 rs2)
  | .srl rd rs1 rs2 => some (encodeR 0x33 0x0 5 rd rs1 rs2)
  | .sra rd rs1 rs2 => some (encodeR 0x33 0x20 5 rd rs1 rs2)
  | .or rd rs1 rs2 => some (encodeR 0x33 0x0 6 rd rs1 rs2)
  | .and rd rs1 rs2 => some (encodeR 0x33 0x0 7 rd rs1 rs2)
  | .addiw rd rs1 imm => some (encodeI 0x1B 0 rd rs1 imm)
  | .slliw rd rs1 sh => some (encodeR 0x1B 0 1 rd rs1 sh)
  | .srliw rd rs1 sh => some (encodeR 0x1B 0 5 rd rs1 sh)
  | .sraiw rd rs1 sh => some (encodeR 0x1B 0x20 5 rd rs1 sh)
  | .addw rd rs1 rs2 => some (encodeR 0x3b 0x0 0 rd rs1 rs2)
  | .subw rd rs1 rs2 => some (encodeR 0x3b 0x20 0 rd rs1 rs2)
  | .sllw rd rs1 rs2 => some (encodeR 0x3b 0x0 1 rd rs1 rs2)
  | .srlw rd rs1 rs2 => some (encodeR 0x3b 0x0 5 rd rs1 rs2)
  | .sraw rd rs1 rs2 => some (encodeR 0x3b 0x20 5 rd rs1 rs2)
  | .fence rd rs1 imm => some (encodeI 0x0F 0 rd rs1 imm)
  | .fenceTso rd rs1 => some (encodeI 0x0F 0 rd rs1 0x833)
  | .fenceI rd rs1 imm => some (encodeI 0x0F 1 rd rs1 imm)
  | .ecall => some (0x00000073#32)
  | .ebreak => some (0x00100073#32)
  | .wfi => some (0x10500073#32)
  | .mul rd rs1 rs2 => some (encodeR 0x33 0x1 0 rd rs1 rs2)
  | .mulh rd rs1 rs2 => some (encodeR 0x33 0x1 1 rd rs1 rs2)
  | .mulhsu rd rs1 rs2 => some (encodeR 0x33 0x1 2 rd rs1 rs2)
  | .mulhu rd rs1 rs2 => some (encodeR 0x33 0x1 3 rd rs1 rs2)
  | .div rd rs1 rs2 => some (encodeR 0x33 0x1 4 rd rs1 rs2)
  | .divu rd rs1 rs2 => some (encodeR 0x33 0x1 5 rd rs1 rs2)
  | .rem rd rs1 rs2 => some (encodeR 0x33 0x1 6 rd rs1 rs2)
  | .remu rd rs1 rs2 => some (encodeR 0x33 0x1 7 rd rs1 rs2)
  | .mulw rd rs1 rs2 => some (encodeR 0x3b 0x1 0 rd rs1 rs2)
  | .divw rd rs1 rs2 => some (encodeR 0x3b 0x1 4 rd rs1 rs2)
  | .divuw rd rs1 rs2 => some (encodeR 0x3b 0x1 5 rd rs1 rs2)
  | .remw rd rs1 rs2 => some (encodeR 0x3b 0x1 6 rd rs1 rs2)
  | .remuw rd rs1 rs2 => some (encodeR 0x3b 0x1 7 rd rs1 rs2)
  | .lrW rd rs1 aq rl => some (encodeA 0x2 2 rd rs1 0 aq rl)
  | .lrD rd rs1 aq rl => some (encodeA 0x2 3 rd rs1 0 aq rl)
  | .scW rd rs1 rs2 aq rl => some (encodeA 0x3 2 rd rs1 rs2 aq rl)
  | .scD rd rs1 rs2 aq rl => some (encodeA 0x3 3 rd rs1 rs2 aq rl)
  | .amoswapW rd rs1 rs2 aq rl => some (encodeA 0x1 2 rd rs1 rs2 aq rl)
  | .amoswapD rd rs1 rs2 aq rl => some (encodeA 0x1 3 rd rs1 rs2 aq rl)
  | .amoaddW rd rs1 rs2 aq rl => some (encodeA 0x0 2 rd rs1 rs2 aq rl)
  | .amoaddD rd rs1 rs2 aq rl => some (encodeA 0x0 3 rd rs1 rs2 aq rl)
  | .amoxorW rd rs1 rs2 aq rl => some (encodeA 0x4 2 rd rs1 rs2 aq rl)
  | .amoxorD rd rs1 rs2 aq rl => some (encodeA 0x4 3 rd rs1 rs2 aq rl)
  | .amoandW rd rs1 rs2 aq rl => some (encodeA 0xc 2 rd rs1 rs2 aq rl)
  | .amoandD rd rs1 rs2 aq rl => some (encodeA 0xc 3 rd rs1 rs2 aq rl)
  | .amoorW rd rs1 rs2 aq rl => some (encodeA 0x8 2 rd rs1 rs2 aq rl)
  | .amoorD rd rs1 rs2 aq rl => some (encodeA 0x8 3 rd rs1 rs2 aq rl)
  | .amominW rd rs1 rs2 aq rl => some (encodeA 0x10 2 rd rs1 rs2 aq rl)
  | .amominD rd rs1 rs2 aq rl => some (encodeA 0x10 3 rd rs1 rs2 aq rl)
  | .amomaxW rd rs1 rs2 aq rl => some (encodeA 0x14 2 rd rs1 rs2 aq rl)
  | .amomaxD rd rs1 rs2 aq rl => some (encodeA 0x14 3 rd rs1 rs2 aq rl)
  | .amominuW rd rs1 rs2 aq rl => some (encodeA 0x18 2 rd rs1 rs2 aq rl)
  | .amominuD rd rs1 rs2 aq rl => some (encodeA 0x18 3 rd rs1 rs2 aq rl)
  | .amomaxuW rd rs1 rs2 aq rl => some (encodeA 0x1c 2 rd rs1 rs2 aq rl)
  | .amomaxuD rd rs1 rs2 aq rl => some (encodeA 0x1c 3 rd rs1 rs2 aq rl)
  | .csrrw rd rs1 csr => some (encodeI 0x73 1 rd rs1 csr)
  | .csrrs rd rs1 csr => some (encodeI 0x73 2 rd rs1 csr)
  | .csrrc rd rs1 csr => some (encodeI 0x73 3 rd rs1 csr)
  | .csrrwi rd uimm csr => some (encodeI 0x73 5 rd uimm csr)
  | .csrrsi rd uimm csr => some (encodeI 0x73 6 rd uimm csr)
  | .csrrci rd uimm csr => some (encodeI 0x73 7 rd uimm csr)
  | .addUw rd rs1 rs2 => some (encodeR 0x3b 0x4 0 rd rs1 rs2)
  | .sh1add rd rs1 rs2 => some (encodeR 0x33 0x10 2 rd rs1 rs2)
  | .sh2add rd rs1 rs2 => some (encodeR 0x33 0x10 4 rd rs1 rs2)
  | .sh3add rd rs1 rs2 => some (encodeR 0x33 0x10 6 rd rs1 rs2)
  | .sh1addUw rd rs1 rs2 => some (encodeR 0x3b 0x10 2 rd rs1 rs2)
  | .sh2addUw rd rs1 rs2 => some (encodeR 0x3b 0x10 4 rd rs1 rs2)
  | .sh3addUw rd rs1 rs2 => some (encodeR 0x3b 0x10 6 rd rs1 rs2)
  | .slliUw rd rs1 sh => some (encodeSh 0x1B 1 2 rd rs1 sh)
  | .vadd m b a d r => some (encodeV 0 m b a d r)
  | .vsub m b a d r => some (encodeV 1 m b a d r)
  | .vmul m b a d r => some (encodeV 2 m b a d r)
  | .vmulh m b a d r => some (encodeV 3 m b a d r)
  | .vand m b a d r => some (encodeV 4 m b a d r)
  | .vor m b a d r => some (encodeV 5 m b a d r)
  | .vxor m b a d r => some (encodeV 6 m b a d r)
  | .vsll m b a d r => some (encodeV 7 m b a d r)
  | .vsrl m b a d r => some (encodeV 8 m b a d r)
  | .vsra m b a d r => some (encodeV 9 m b a d r)
  | .vmin m b a d r => some (encodeV 0xa m b a d r)
  | .vmax m b a d r => some (encodeV 0xb m b a d r)
  | .vminu m b a d r => some (encodeV 0xc m b a d r)
  | .vmaxu m b a d r => some (encodeV 0xd m b a d r)
  | .vaddx m b a d r => some (encodeV 0xe m b a d r)
  | .viota m i a d r => some (encodeV 0xf m i a d r)
  | .vfadd m b a d r => some (encodeV 0x10 m b a d r)
  | .vfsub m b a d r => some (encodeV 0x11 m b a d r)
  | .vfmul m b a d r => some (encodeV 0x12 m b a d r)
  | .vfma m b a d r => some (encodeV 0x13 m b a d r)
  | .vfmin m b a d r => some (encodeV 0x14 m b a d r)
  | .vfmax m b a d r => some (encodeV 0x15 m b a d r)
  | .vfexp2 m a d r => some (encodeV 0x16 m 0 a d r)
  | .vfrcp m a d r => some (encodeV 0x17 m 0 a d r)
  | .vfrsqrt m a d r => some (encodeV 0x18 m 0 a d r)
  | .vflog2 m a d r => some (encodeV 0x19 m 0 a d r)
  | .vfmulx m b a d r => some (encodeV 0x1a m b a d r)
  | .vfaddx m b a d r => some (encodeV 0x1b m b a d r)
  | .vcmpeq m b a d r => some (encodeV 0x20 m b a d r)
  | .vcmplt m b a d r => some (encodeV 0x21 m b a d r)
  | .vcmpltu m b a d r => some (encodeV 0x22 m b a d r)
  | .vfcmpeq m b a d r => some (encodeV 0x23 m b a d r)
  | .vfcmplt m b a d r => some (encodeV 0x24 m b a d r)
  | .kopAnd b a d r => some (encodeV 0x25 0 (0x0#2 ++ b) a d r)
  | .kopOr b a d r => some (encodeV 0x25 0 (0x1#2 ++ b) a d r)
  | .kopXor b a d r => some (encodeV 0x25 0 (0x2#2 ++ b) a d r)
  | .kopAndn b a d r => some (encodeV 0x25 0 (0x3#2 ++ b) a d r)
  | .kpop a d r => some (encodeV 0x26 0 0 a d r)
  | .kpopFirst a d r => some (encodeV 0x26 0 1 a d r)
  | .vsel b a d r => some (encodeV 0x27 0 b a d r)
  | .vcvtn m f a d r => some (encodeV 0x28 m f a d r)
  | .vcvtw m f a d r => some (encodeV 0x29 m f a d r)
  | .vcvtif m i a d r => some (encodeV 0x2a m i a d r)
  | .vcvtfi m i a d r => some (encodeV 0x2b m i a d r)
  | .vredsum m a d r => some (encodeV 0x30 m 0 a d r)
  | .vredsumI32 m a d r => some (encodeV 0x30 m 1 a d r)
  | .vredmax m a d r => some (encodeV 0x31 m 0 a d r)
  | .vredmaxI32 m a d r => some (encodeV 0x31 m 1 a d r)
  | .vredmin m a d r => some (encodeV 0x32 m 0 a d r)
  | .vredminI32 m a d r => some (encodeV 0x32 m 1 a d r)
  | .vslide m b a d r => some (encodeV 0x33 m b a d r)
  | .vperm m b a d r => some (encodeV 0x34 m b a d r)
  | .vcompress a d r => some (encodeV 0x35 0 0 a d r)
  | .vmvxv m a d r => some (encodeV 0x36 m 0 a d r)
  | .vmvvx i a d r => some (encodeV 0x37 0 i a d r)
  | .vsmaxacc m b a d r => some (encodeV 0x38 m b a d r)
  | .vsmaxfin m b a d r => some (encodeV 0x39 m b a d r)
  | .vsortkv b a d r => some (encodeV 0x3a 0 b a d r)
  | .vseghead a d r => some (encodeV 0x3b 0 0 a d r)
  | .vsppack i a d r => some (encodeV 0x3c 0 i a d r)
  | .vldm b a d r => some (encodeS 0 b a d r)
  | .vstm b a d r => some (encodeS 1 b a d r)
  | .vldx b a d r => some (encodeS 2 b a d r)
  | .vstx b a d r => some (encodeS 3 b a d r)
  | .vlds b a d r => some (encodeS 4 b a d r)
  | .vsts b a d r => some (encodeS 5 b a d r)
  | .ldst z s a d r => some (encodeS 6 (z ++ s) a d r)
  | .stst z s a d r => some (encodeS 7 (z ++ s) a d r)
  | .phase s d r => some (encodeS 8 (0x0#2 ++ s) 0 d r)
  | .fenceBoth s r => some (encodeS 9 (0x0#2 ++ s) 0 0 r)
  | .fenceRel s r => some (encodeS 9 (0x0#2 ++ s) 0 1 r)
  | .fenceAcq s r => some (encodeS 9 (0x0#2 ++ s) 0 2 r)
  | .spfeEmpty b a r => some (encodeS 0xa b a 0 r)
  | .spfeFull b a r => some (encodeS 0xa b a 1 r)
  | .sprot a r => some (encodeS 0xb 0 a 0 r)
  | .tld a d r => some (encodeS 0xc 0 a d r)
  | .tst a d r => some (encodeS 0xd 0 a d r)
  | .barinit b a r => some (encodeS 0x10 b a 0 r)
  | .barinitForce a r => some (encodeS 0x10 0 a 1 r)
  | .barinitFree a r => some (encodeS 0x10 0 a 2 r)
  | .bararr b a d r => some (encodeS 0x11 b a d r)
  | .bardrop b a d r => some (encodeS 0x12 b a d r)
  | .barjoin b a d r => some (encodeS 0x13 b a d r)
  | .barwait b a r => some (encodeS 0x14 b a 0 r)
  | .bartest b a d r => some (encodeS 0x15 b a d r)
  | .waita b a d r => some (encodeS 0x16 b a d r)
  | .ringinit b a q r => some (encodeS 0x17 b a q r)
  | .ringclaim q d r => some (encodeS 0x18 0 q d r)
  | .ringcommit b q r => some (encodeS 0x19 b q 0 r)
  | .ringtake q d r => some (encodeS 0x1a 0 q d r)
  | .ringfree b q r => some (encodeS 0x1b b q 0 r)
  | .waitfill b q d r => some (encodeS 0x1c b q d r)
  | .waitfree b q d r => some (encodeS 0x1d b q d r)
  | .redaF32add b a r => some (encodeS 0x20 b a 0 r)
  | .redaBf16add b a r => some (encodeS 0x20 b a 1 r)
  | .redaI32add b a r => some (encodeS 0x20 b a 2 r)
  | .redaF32max b a r => some (encodeS 0x20 b a 3 r)
  | .redaF32min b a r => some (encodeS 0x20 b a 4 r)
  | .redaI32max b a r => some (encodeS 0x20 b a 5 r)
  | .redaI32min b a r => some (encodeS 0x20 b a 6 r)
  | .redfence d r => some (encodeS 0x21 0 0 d r)
  | .prcfg b a d r => some (encodeS 0x28 b a d r)
  | .prinv a d r => some (encodeS 0x29 0 a d r)
  | .prpin a r => some (encodeS 0x2a 0 a 0 r)
  | .prunpin a r => some (encodeS 0x2b 0 a 0 r)
  | .cparm b a d r => some (encodeS 0x30 b a d r)
  | .cpstep b a d r => some (encodeS 0x31 b a d r)
  | .cpstat a d r => some (encodeS 0x32 0 a d r)
  | .cpcancel a d r => some (encodeS 0x33 0 a d r)
  | .nbmode b a d r => some (encodeS 0x38 b a d r)
  | .nbcmd b a d r => some (encodeS 0x39 b a d r)
  | .nbfence d r => some (encodeS 0x3a 0 0 d r)
  | .nbrd b a d r => some (encodeS 0x3b b a d r)
  | .hintLife b a r => some (encodeS 0x40 b a 0 r)
  | .hintPref a r => some (encodeS 0x40 0 a 1 r)
  | .hintFetch a r => some (encodeS 0x40 0 a 2 r)
  | .stepadv a d r => some (encodeS 0x41 0 a d r)
  | .mma b a x y o r => some (encodeM 0 0 b a x y o r)
  | .mmaAcc b a x y o r => some (encodeM 0 1 b a x y o r)
  | .mmaNeg b a x y o r => some (encodeM 0 2 b a x y o r)
  | .mmas b a x y o r => some (encodeM 1 0 b a x y o r)
  | .mmasAcc b a x y o r => some (encodeM 1 1 b a x y o r)
  | .mmasNeg b a x y o r => some (encodeM 1 2 b a x y o r)
  | .accz n r => some (encodeM 2 0 0 0 0 0 n r)
  | .accscl v o r => some (encodeM 3 0 0 v 0 0 o r)
  | .accsclX v o r => some (encodeM 3 0 0 v 1 0 o r)
  | .accrd n t d o r => some (encodeM 4 n t d 0 0 o r)
  | .accrdCol n t d o r => some (encodeM 4 n t d 1 0 o r)
  | .accwr n t d o r => some (encodeM 5 n t d 0 0 o r)
  | .accwrCol n t d o r => some (encodeM 5 n t d 1 0 o r)
  | .epi b a x r => some (encodeM 6 0 b a x 0 0 r)
  | .mqctlWait r => some (encodeM 7 0 0 0 0 0 0 r)
  | .mqctlRm s r => some (encodeM 7 1 0 s 0 0 0 r)
  | .mqctlFtb s r => some (encodeM 7 2 0 s 0 0 0 r)
  | .opu h a r => some (encodeF 8 h a 0 0 r)
  | .fwfwd h a r => some (encodeF 9 h a 0 0 r)
  | .fwupdD h a b r => some (encodeF 0xa h a b 0 r)
  | .fwupdH h a b r => some (encodeF 0xa h a b 2 r)
  | .fwupdE h a b r => some (encodeF 0xa h a b 4 r)
  | .fwfuD h a b r => some (encodeF 0xb h a b 0 r)
  | .fwfuDl h a b r => some (encodeF 0xb h a b 1 r)
  | .fwfuH h a b r => some (encodeF 0xb h a b 2 r)
  | .fwfuHl h a b r => some (encodeF 0xb h a b 3 r)
  | .fwfuE h a b r => some (encodeF 0xb h a b 4 r)
  | .fwsnapSnap h a r => some (encodeF 0xc h a 0 0 r)
  | .fwsnapFork h a r => some (encodeF 0xc h a 0 1 r)
  | .fwsnapRollback h a r => some (encodeF 0xc h a 0 2 r)
  | .fwsnapFree h r => some (encodeF 0xc h 0 0 3 r)
  | .fwavg h a b r => some (encodeF 0xd h a b 0 r)
  | .fwmig h a r => some (encodeF 0xe h a 0 0 r)
  | .fwctlPin h r => some (encodeF 0xf h 0 0 0 r)
  | .fwctlUnpin h r => some (encodeF 0xf h 0 0 1 r)
  | .fwctlQuery h a r => some (encodeF 0xf h a 0 2 r)
  | .fwctlHint h a b r => some (encodeF 0xf h a b 3 r)
  | .fwctlWait h r => some (encodeF 0xf h 0 0 4 r)
  | .fwctlNew h a b r => some (encodeF 0xf h a b 5 r)
  | .role m s => some (encodeRole m s)
  | .handoff v q n s => some (encodeHandoff v q n s)
  | .loop c e r => some (encodeLoop c e r)
  | .roleid a d r => some (encodeC 3 0 a d r)
  | .drift a d r => some (encodeC 4 0 a d r)
  | .vgrow a d r => some (encodeC 5 0 a d r)
  | .vshrink a d r => some (encodeC 6 0 a d r)
  | .fmset a d r => some (encodeC 7 0 a d r)
  | .ftset b a r => some (encodeC 8 b a 0 r)
  | .rnext d r => some (encodeC 9 0 0 d r)
  | .ntoken b a r => some (encodeC 0xa b a 0 r)
  | .nctx a d r => some (encodeC 0xb 0 a d r)
  | .ndone r => some (encodeC 0xc 0 0 0 r)
  | .nfail a r => some (encodeC 0xd 0 a 0 r)
  | .trapret r => some (encodeC 0xe 0 0 0 r)
  | .rqrd a d r => some (encodeC 0xf 0 a d r)
  | .rqwr b a r => some (encodeC 0x10 b a 0 r)
  | .rqdrop a r => some (encodeC 0x11 0 a 0 r)
  | .enread a d r => some (encodeC 0x12 0 a d r)
  | .enest a d r => some (encodeC 0x13 0 a d r)
  | .trec b a r => some (encodeC 0x14 b a 0 r)
  | .probe o a d r => some (encodeP o a d r)
  | .csrWriteVslip .. | .csrWriteVrm .. | .csrWriteFtbase .. | .csrWriteFtsel .. | .csrWriteLc .. | .csrWritePidx ..
  | .csrWriteNbstat .. | .csrWrite .. | .preciseTrap .. | .preemption .. | .preemptionResume .. | .handoffCommit ..
  | .phaseHoldRelease | .windowZeroing .. | .emptyLineReadServe .. | .probeFill .. | .stateHoldGrant | .stateEviction ..
  | .statePageIn .. | .pageWalk .. | .tierDemotion .. | .tierPromotion .. | .promotionWindowExpiry | .shootdown ..
  | .shootdownAck .. | .copyEngineGrant .. | .copyEntryStart .. | .copyIndexLookup .. | .copyEntryComplete .. | .copyFault ..
  | .copyCancelDrain .. | .refreshOwed | .barrierSubtraction | .waiterWake | .waitaWake | .reductionApply ..
  | .modeEntryComplete .. | .modeExitComplete .. | .forcedExit .. | .rillMac .. | .rillLoad .. | .rillFountain ..
  | .rillZero .. | .rillStore .. | .rillRefreshSlot .. | .nodeArm .. | .firingDecision .. | .rangeSplit ..
  | .stageSetReady .. | .stageTeamMove .. | .firingFault | .coneWalk .. | .retryDelayExpiry .. | .trapRingSpaceReturn ..
  | .wfiWake .. | .energyWindowBoundary | .meterUpdate | .commandMessage .. | .rdmaWrite .. | .unsupportedOperation ..
  | .pasidLevelRestore .. | .firmwareEventTake | .invoke .. | .graph .. | .ib .. | .fencePacket ..
  | .fencePacketDone .. | .signal .. | .slotLoad .. | .slotEvict .. | .adminCreateContext .. | .adminDestroyContext ..
  | .adminQueueEnable .. | .adminQueueResume .. | .adminQueueDisable .. | .adminShootdown .. | .adminGraphRetry .. | .adminGraphSkip ..
  | .adminGraphCancel .. | .adminGraphReset .. | .adminGraphThaw .. | .adminSetPeer .. | .adminSetClass0Cells .. | .adminSetEnergyReserve ..
  | .adminSetTierParams .. | .pldmPrivilegedList .. | .pldmCreateContext .. | .pldmEnableQueue .. | .pldmSigningPolicy .. | .pldmSigningKey ..
  | .pldmPowerLimit .. | .pldmErrorWindow .. | .pldmFirmwareUpdate .. | .getVersion | .getCapabilities | .negotiateAlgorithms
  | .getDigests | .getCertificate | .challenge | .getMeasurements | .boot | .flitCrcRetry ..
  | .linkQuiesceDrained .. | .linkResetElapsed .. | .linkTrained .. | .linkTrainingFailed .. | .linkRetryTimer .. | .camyarRead ..
  | .camyarReadOwn .. | .camyarWrite .. | .camyarWriteBack .. | .camyarAmo .. | .camyarReda .. | .camyarRillCommand ..
  | .camyarSyncOperation .. | .camyarCompletion .. | .camyarDataReturn .. | .camyarError .. | .camyarShootdown .. | .camyarShootdownAck ..
  | .camyarGraphMessage .. | .camyarStatusBroadcast .. | .camyarCreditReturn .. | .placementTableUpdate .. | .placementAckTimeout .. | .errorCorrected ..
  | .errorUncorrectable .. | .sramScrub | .warmReset .. | .powerLoss .. | .thermalEmergency .. | .placementUpdateAcknowledgement ..
  | .migratedObjectArrival .. => none

end Sys2Proof
end

