-- ==== Sys2Proof/Machine/Numbers.lean ====
section
/-! DEFINITION. Number formats, rounding and conversion (spec/04_numbers.md R73 to R83, R90, R93, R94), and the correctly rounded functions of R137 and R190. All arithmetic is exact on integers; rounding happens only in `roundTo`. -/

namespace Sys2Proof.Machine

/-- A number format: sign, exponent and mantissa widths, effective bias, special-value mode, −0-is-NaN and
saturation (R74 to R76); `fixed` marks FP32, FP16 and BF16, whose NaN conversions differ (R80). -/
structure Fmt where
  s : Bool
  e : Nat
  m : Nat
  bias : Int
  special : Nat
  nzero : Bool
  sat : Bool
  fixed : Bool
  packed : Bool
  deriving DecidableEq, Repr

/-- The fixed formats of R73. -/
def fp32 : Fmt := ⟨true, 8, 23, 127, 0, false, false, true, false⟩
def fp16 : Fmt := ⟨true, 5, 10, 15, 0, false, false, true, false⟩
def bf16 : Fmt := ⟨true, 8, 7, 127, 0, false, false, true, false⟩

/-- The canonical NaN of FP32 (R73). -/
def canonNaN : Lane := 0x7FC00000#32

/-- A rounding mode: mode code 0 to 4 and the saturation bit (R78). -/
structure RMode where
  code : Nat
  sat : Bool
  deriving DecidableEq, Repr

/-- RNE without saturation. -/
def rne : RMode := ⟨0, false⟩

/-- The rounding mode of a vrm-layout value (R82). -/
def RMode.ofBits (v : BitVec 4) : RMode := ⟨(v.extractLsb' 0 3).toNat, v.getLsbD 3⟩

/-- Decoding a 32-bit descriptor (R76, R77). -/
def decodeDesc (d : BitVec 32) : Option Fmt :=
  if d = 0xFFF00001#32 then some fp32
  else if d = 0xFFF00002#32 then some fp16
  else if d = 0xFFF00003#32 then some bf16
  else
    let s := d.getLsbD 0
    let e := (d.extractLsb' 1 3).toNat
    let m := (d.extractLsb' 4 3).toNat
    let total := (if s then 1 else 0) + e + m
    let packed := d.getLsbD 7
    let bias : Int := (d.extractLsb' 8 8).toInt
    let special := (d.extractLsb' 16 2).toNat
    if d.extractLsb' 20 12 ≠ 0 || special = 3 || e = 0 || total < 2 || 8 < total || (packed && 4 < total) then none
    else some ⟨s, e, m, max bias (2 ^ e - 128), special, s && d.getLsbD 18, d.getLsbD 19, false, packed⟩

/-- A 20-bit compact descriptor (R85): 0x3_0001, 0x3_0002 and 0x3_0003 stand for the built-in formats. -/
def decodeCompact (c : BitVec 20) : Option Fmt :=
  if c = 0x30001#20 then some fp32
  else if c = 0x30002#20 then some fp16
  else if c = 0x30003#20 then some bf16
  else if c.extractLsb' 16 2 = 3 then none
  else decodeDesc (c.setWidth 32)

/-- `Width(d)` of R77: the bits a code occupies in a vector register. -/
def Fmt.width (d : Fmt) : Nat :=
  if d.fixed then (if d.e = 8 && d.m = 23 then 32 else 16)
  else if d.packed then 4 else 8

/-- The largest finite code without its sign (R75). -/
def Fmt.maxCode (d : Fmt) : Nat :=
  match d.special with
  | 0 => (2 ^ d.e - 1) * 2 ^ d.m - 1
  | 1 => 2 ^ (d.e + d.m) - 2
  | _ => 2 ^ (d.e + d.m) - 1

/-- An exact value: a NaN, a signed infinity, or `±mant × 2^exp` with its sign kept for zero. -/
inductive FpVal where
  | nan
  | inf (neg : Bool)
  | fin (neg : Bool) (mant : Nat) (exp : Int)
  deriving DecidableEq, Repr

/-- The value of code `c` of format `d` (R73 to R75). -/
def decodeCode (d : Fmt) (c : Nat) : FpVal :=
  let neg := d.s && c.testBit (d.e + d.m)
  let mag := c % 2 ^ (d.e + d.m)
  let ef := mag / 2 ^ d.m
  let mf := mag % 2 ^ d.m
  if d.nzero && neg && mag = 0 then .nan
  else if d.special = 0 && ef = 2 ^ d.e - 1 then (if mf = 0 then .inf neg else .nan)
  else if d.special = 1 && mag = 2 ^ (d.e + d.m) - 1 then .nan
  else if ef = 0 then .fin neg mf (1 - d.bias - d.m)
  else .fin neg (2 ^ d.m + mf) ((ef : Int) - d.bias - d.m)

/-- The value of an FP32 code. -/
def val32 (c : Lane) : FpVal := decodeCode fp32 c.toNat

def isNaN32 (c : Lane) : Bool := val32 c == .nan

def FpVal.isNaN : FpVal → Bool
  | .nan => true
  | _ => false

def FpVal.neg : FpVal → FpVal
  | .nan => .nan
  | .inf n => .inf (!n)
  | .fin n m e => .fin (!n) m e

/-- Exact product; ∞ × 0 is invalid and gives NaN (R134). -/
def FpVal.mul : FpVal → FpVal → FpVal
  | .nan, _ => .nan
  | _, .nan => .nan
  | .inf a, .inf b => .inf (a != b)
  | .inf a, .fin b m _ => if m = 0 then .nan else .inf (a != b)
  | .fin a m _, .inf b => if m = 0 then .nan else .inf (a != b)
  | .fin a m e, .fin b n f => .fin (a != b) (m * n) (e + f)

/-- The signed mantissa of a finite value scaled to exponent `lo ≤ exp`. -/
def scaled (neg : Bool) (m : Nat) (e lo : Int) : Int :=
  let v : Int := m * 2 ^ (e - lo).toNat
  if neg then -v else v

/-- Exact sum of two values; opposite infinities give NaN; an exact zero sum is −0 only when both are −0 (R90, R134). -/
def FpVal.add : FpVal → FpVal → FpVal
  | .nan, _ => .nan
  | _, .nan => .nan
  | .inf a, .inf b => if a = b then .inf a else .nan
  | .inf a, .fin _ _ _ => .inf a
  | .fin _ _ _, .inf b => .inf b
  | .fin a m e, .fin b n f =>
    let lo := min e f
    let v := scaled a m e lo + scaled b n f lo
    if v = 0 then .fin (a && b) 0 lo else .fin (v < 0) v.natAbs lo

/-- The exact sum of a list of addends (R90): +0 for no addend. -/
def sumVals : List FpVal → FpVal
  | [] => .fin false 0 0
  | x :: xs => xs.foldl FpVal.add x

/-- Whether `n / d < 2 ^ t`. -/
def ratLtPow (n d : Nat) (t : Int) : Bool :=
  if 0 ≤ t then n < d * 2 ^ t.toNat else n * 2 ^ (-t).toNat < d

/-- `⌊log2 (n / d)⌋` for positive `n` and `d`. -/
def floorLog2 (n d : Nat) : Int :=
  let t : Int := (n.log2 : Int) - d.log2
  if ratLtPow n d t then t - 1 else t

/-- Whether the quotient `k` with remainder `r` of `den` is rounded up in magnitude; `odd` says that the
code below is odd (R78). -/
def roundsUp (mode : RMode) (neg odd : Bool) (r den : Nat) : Bool :=
  match mode.code with
  | 0 => den < 2 * r || (2 * r == den && odd)
  | 1 => false
  | 2 => neg && r != 0
  | 3 => !neg && r != 0
  | _ => den ≤ 2 * r

/-- The magnitude code, with the exponent unbounded above, of `n / d × 2 ^ e > 0` (step 5 of R79). -/
def magCode (f : Fmt) (mode : RMode) (neg : Bool) (n d : Nat) (e : Int) : Nat :=
  let emin : Int := 1 - f.bias
  let ebar := max (floorLog2 n d + e) emin
  let q := ebar - f.m
  let num := n * 2 ^ (e - q).toNat
  let den := d * 2 ^ (q - e).toNat
  let code := num / den + (ebar - emin).toNat * 2 ^ f.m
  if roundsUp mode neg (code % 2 == 1) (num % den) den then code + 1 else code

/-- The code of a sign and a magnitude; a −0 that bit 18 takes away gives +0 (R79 step 3). -/
def signCode (f : Fmt) (neg : Bool) (mag : Nat) : Nat :=
  if neg && f.s && !(f.nzero && mag == 0) then 2 ^ (f.e + f.m) + mag else mag

/-- The code that stands for ∞ of a sign in the overflow table of R79. -/
def infCode (f : Fmt) (neg : Bool) : Nat :=
  match f.special with
  | 0 => signCode f neg ((2 ^ f.e - 1) * 2 ^ f.m)
  | 1 => signCode f neg (2 ^ (f.e + f.m) - 1)
  | _ => if neg && f.nzero then 2 ^ (f.e + f.m) else signCode f neg f.maxCode

/-- The result of an overflow (the table of R79). -/
def overflowCode (f : Fmt) (mode : RMode) (neg : Bool) : Nat :=
  let big := signCode f neg f.maxCode
  if mode.sat || f.sat then big
  else
    match mode.code with
    | 1 => big
    | 2 => if neg then infCode f neg else big
    | 3 => if neg then big else infCode f neg
    | _ => infCode f neg

/-- `RoundTo` of R79 on a finite value `± n / d × 2 ^ e`. -/
def roundRat (f : Fmt) (mode : RMode) (neg : Bool) (n d : Nat) (e : Int) : Nat :=
  if neg && !f.s then 0
  else if n = 0 then signCode f neg 0
  else
    let c := magCode f mode neg n d e
    if f.maxCode < c then overflowCode f mode neg else signCode f neg c

/-- `RoundTo` of R79 on an infinity: step 2, then the infinity of the format or an overflow under RNE. -/
def roundInf (f : Fmt) (mode : RMode) (neg : Bool) : Nat :=
  if neg && !f.s then 0
  else if f.special = 0 then infCode f neg
  else overflowCode f ⟨0, mode.sat⟩ neg

/-- The conversion of an FP32 NaN code to format `f` (R80). -/
def nanCode (f : Fmt) (c : Lane) : Nat :=
  let neg := c.getLsbD 31
  if f.fixed then
    let m := (c.toNat % 2 ^ 23) / 2 ^ (23 - f.m)
    let m := if m = 0 then 2 ^ (f.m - 1) else m
    signCode f neg ((2 ^ f.e - 1) * 2 ^ f.m + m)
  else
    let neg := neg && f.s
    if f.nzero && c.getLsbD 31 && c.getLsbD 0 then 2 ^ (f.e + f.m)
    else if f.special = 0 && 1 ≤ f.m then
      let m := (c.toNat % 2 ^ 22) / 2 ^ (22 - f.m)
      let m := if m = 0 then 2 ^ f.m - 1 else m
      signCode f neg ((2 ^ f.e - 1) * 2 ^ f.m + m)
    else if f.special = 1 then signCode f neg (2 ^ (f.e + f.m) - 1)
    else if f.nzero then 2 ^ (f.e + f.m) else 0

/-- `RoundTo(x, f, mode)` for the result of an arithmetic operation, whose NaN is the canonical one. -/
def roundVal (f : Fmt) (mode : RMode) : FpVal → Nat
  | .nan => nanCode f canonNaN
  | .inf n => roundInf f mode n
  | .fin n m e => roundRat f mode n m 1 e

/-- `RoundTo(x, f, mode)` for an FP32 code `x`, NaN codes converted under R80 (R93). -/
def roundCode (f : Fmt) (mode : RMode) (c : Lane) : Nat :=
  if isNaN32 c then nanCode f c else roundVal f mode (val32 c)

/-- `RN` of R136: RoundTo(·, FP32, RNE without saturation). -/
def rn32 (v : FpVal) : Lane := BitVec.ofNat 32 (roundVal fp32 rne v)

/-- The NaN conversions of R80 to FP32. -/
def widenNaN (f : Fmt) (c : Nat) : Lane :=
  let neg := f.s && c.testBit (f.e + f.m)
  let mf := c % 2 ^ f.m
  let sgn : Nat := if neg then 2 ^ 31 else 0
  if f.fixed then BitVec.ofNat 32 (sgn + 0x7F800000 + mf * 2 ^ (23 - f.m))
  else if f.nzero && neg && c % 2 ^ (f.e + f.m) = 0 then 0xFFC00001#32
  else if f.special = 0 then BitVec.ofNat 32 (sgn + 0x7FC00000 + mf * 2 ^ (22 - f.m))
  else BitVec.ofNat 32 (sgn + 0x7FC00000)

/-- `Widen(c, f)` of R80: the FP32 code of the value of code `c`. -/
def widen (f : Fmt) (c : Nat) : Lane :=
  match decodeCode f c with
  | .nan => widenNaN f c
  | v => rn32 v

/-- `RoundInt` of R94: an exact `± n / d × 2 ^ e` to an integer by a mode code. -/
def roundInt (mode : RMode) (neg : Bool) (n : Nat) (e : Int) : Int :=
  let num := n * 2 ^ e.toNat
  let den := 2 ^ (-e).toNat
  let k := num / den
  let k := if roundsUp mode neg (k % 2 == 1) (num % den) den then k + 1 else k
  if neg then -(k : Int) else k

/-- `Clamp` of R94. -/
def clampInt (x lo hi : Int) : Int := if x < lo then lo else if hi < x then hi else x

/-- FP32 operations of R136, on codes. -/
def fadd (a b : Lane) : Lane := rn32 (.add (val32 a) (val32 b))
def fsub (a b : Lane) : Lane := rn32 (.add (val32 a) (.neg (val32 b)))
def fmul (a b : Lane) : Lane := rn32 (.mul (val32 a) (val32 b))
def ffma (a b c : Lane) : Lane := rn32 (.add (.mul (val32 a) (val32 b)) (val32 c))

/-- A key that orders the non-NaN FP32 codes, with −0 below +0. -/
def fkey (a : Lane) : Int :=
  let mag : Int := (a.toNat % 2 ^ 31 : Nat)
  if a.getLsbD 31 then -mag - 1 else mag

/-- `a < b` for non-NaN codes as real values, where −0 is not less than +0 (R138). -/
def fltVal (a b : Lane) : Bool :=
  if a.toNat % 2 ^ 31 = 0 && b.toNat % 2 ^ 31 = 0 then false else fkey a < fkey b

/-- vfmin and vfmax of R136: one NaN operand gives the other operand. -/
def fminOne (a b : Lane) : Lane :=
  if isNaN32 a then (if isNaN32 b then canonNaN else b)
  else if isNaN32 b then a else if fkey b < fkey a then b else a
def fmaxOne (a b : Lane) : Lane :=
  if isNaN32 a then (if isNaN32 b then canonNaN else b)
  else if isNaN32 b then a else if fkey a < fkey b then b else a

/-- The NaN-propagating minimum and maximum of R141 and R287. -/
def fminNaN (a b : Lane) : Lane := if isNaN32 a || isNaN32 b then canonNaN else if fkey b < fkey a then b else a
def fmaxNaN (a b : Lane) : Lane := if isNaN32 a || isNaN32 b then canonNaN else if fkey a < fkey b then b else a

/-- IEEE 754-2019 division with the rules of R147. -/
def fdiv (a b : Lane) : Lane :=
  match val32 a, val32 b with
  | .nan, _ => canonNaN
  | _, .nan => canonNaN
  | .inf _, .inf _ => canonNaN
  | .inf s, .fin t _ _ => rn32 (.inf (s != t))
  | .fin s _ _, .inf t => rn32 (.fin (s != t) 0 0)
  | .fin s m e, .fin t n f =>
    if n = 0 then (if m = 0 then canonNaN else rn32 (.inf (s != t)))
    else BitVec.ofNat 32 (roundRat fp32 rne (s != t) m n (e - f))

/-! ### Correctly rounded functions (R137, R190)

`isqrt` is exact. `exp2`, `log2`, the logistic function and its product with x are enclosed in an interval of
integers at a binary scale; the result is taken at the first scale at which both ends of the interval round to
one code (DEDUCED, assumption log 15). -/

/-- The integer square root by fixing its bits from the highest down. -/
def isqrtBits (n : Nat) : Nat → Nat → Nat
  | 0, r => r
  | k + 1, r =>
    let c := r + 2 ^ k
    isqrtBits n k (if c * c ≤ n then c else r)

def isqrt (n : Nat) : Nat := isqrtBits n (n.log2 / 2 + 1) 0

/-- 1/√(m × 2^e) for m > 0: an exact square root where there is one, else a value strictly inside the interval of
width 2^−p that holds it, which rounds as the root does. -/
def rsqrtCode (m : Nat) (e : Int) : Lane :=
  -- make the exponent even, then y = 2^(−e/2) × √(1/m), scaled by 2^p with p = 160
  let m' := if e % 2 = 0 then m else 2 * m
  let e' := if e % 2 = 0 then e else e - 1
  let num := 2 ^ 320 / m'
  let r := isqrt num
  if r * r * m' = 2 ^ 320 then BitVec.ofNat 32 (roundRat fp32 rne false r 1 (-160 - e' / 2))
  else BitVec.ofNat 32 (roundRat fp32 rne false (2 * r + 1) 1 (-161 - e' / 2))

/-- `Σ_{k<n} y^k/k!` at scale `2^p` with every term rounded down: `(term, k, sum)` after `n` terms. -/
def expTerms (p y : Nat) : Nat → Nat × Nat × Nat
  | 0 => (2 ^ p, 0, 0)
  | n + 1 =>
    let (t, k, s) := expTerms p y n
    (t * y / ((k + 1) * 2 ^ p), k + 1, s + t)

/-- A lower bound of `2^p × e^(y/2^p)` for `0 ≤ y ≤ 2^p`. -/
def expLo (p y : Nat) : Nat := (expTerms p y (p / 2 + 8)).2.2

/-- An upper bound of `2^p × e^(y/2^p)` for `0 ≤ y ≤ 2^p`: each rounded term errs by less than 2, and the rest of the
series is below 1 at this scale. -/
def expHi (p y : Nat) : Nat := expLo p y + 2 * (p / 2 + 8) + 2

/-- `Σ_{1≤k≤n} 2^p/(k 2^k)`, rounded down termwise: ln 2 at scale `2^p`. -/
def ln2Sum (p : Nat) : Nat → Nat
  | 0 => 0
  | n + 1 => ln2Sum p n + 2 ^ p / ((n + 1) * 2 ^ (n + 1))

def ln2Lo (p : Nat) : Nat := ln2Sum p p
def ln2Hi (p : Nat) : Nat := ln2Sum p p + p + 1

/-- Bounds of `2^p × 2^(f/2^p)` for `0 ≤ f < 2^p`. -/
def pow2Lo (p f : Nat) : Nat := expLo p (f * ln2Lo p / 2 ^ p)
def pow2Hi (p f : Nat) : Nat := expHi p ((f * ln2Hi p + 2 ^ p - 1) / 2 ^ p)

/-- The first code on which both ends of an enclosure agree, over a list of scales; the lower end of the last
scale if none does. (DEDUCED, assumption log 15) -/
def firstAgreed (bounds : Nat → Nat × Nat) : List Nat → Nat
  | [] => 0
  | [p] => (bounds p).1
  | p :: q :: rest =>
    let (a, b) := bounds p
    if a = b then a else firstAgreed bounds (q :: rest)

/-- The scales tried. -/
def scales : List Nat := [96, 224, 512, 1024]

/-- RoundTo(2^x, FP32, RNE) for the exact `x = ± m × 2^e`. -/
def exp2Val (neg : Bool) (m : Nat) (e : Int) : Lane :=
  if m = 0 then 0x3F800000#32
  else if 0 ≤ e && 2 ^ 12 ≤ m * 2 ^ (min e 12).toNat then (if neg then 0 else 0x7F800000#32)
  else if e < 0 && 2 ^ 12 ≤ m / 2 ^ (-e).toNat then (if neg then 0 else 0x7F800000#32)
  else
    -- floor part i and fraction r / 2^w
    let w := (-e).toNat
    let x : Int := if neg then -((m * 2 ^ e.toNat : Nat) : Int) else ((m * 2 ^ e.toNat : Nat) : Int)
    let i := x / 2 ^ w
    let r := (x % 2 ^ w).toNat
    if r = 0 then BitVec.ofNat 32 (roundRat fp32 rne false 1 1 i)
    else
      BitVec.ofNat 32 (firstAgreed (fun p =>
        let fl := r * 2 ^ p / 2 ^ w
        let fh := fl + 1
        (roundRat fp32 rne false (pow2Lo p fl) 1 (i - p), roundRat fp32 rne false (pow2Hi p fh) 1 (i - p))) scales)

/-- `Σ_{j<n} z^(2j+1)/(2j+1)` at scale `2^p`, rounded down termwise: `(power, j, sum)`. -/
def atanhTerms (p z : Nat) : Nat → Nat × Nat × Nat
  | 0 => (z, 0, 0)
  | n + 1 =>
    let (t, j, s) := atanhTerms p z n
    (t * z / 2 ^ p * z / 2 ^ p, j + 1, s + t / (2 * j + 1))

/-- Bounds at scale `2^p` of `ln(a/b)` for `1 ≤ a/b < 2`, through `2 atanh((a − b)/(a + b))`. -/
def lnLo (p a b : Nat) : Nat := 2 * (atanhTerms p ((a - b) * 2 ^ p / (a + b)) (p / 3 + 4)).2.2
def lnHi (p a b : Nat) : Nat :=
  2 * ((atanhTerms p ((a - b) * 2 ^ p / (a + b) + 1) (p / 3 + 4)).2.2 + 4 * (p / 3 + 4) + 2)

/-- RoundTo(log2(m × 2^e), FP32, RNE) for m > 0. -/
def log2Val (m : Nat) (e : Int) : Lane :=
  let k := m.log2
  let i : Int := k + e
  if m = 2 ^ k then
    (if i = 0 then 0 else BitVec.ofNat 32 (roundRat fp32 rne (i < 0) i.natAbs 1 0))
  else
    let rnd (v : Int) (p : Nat) : Nat := roundRat fp32 rne (v < 0) v.natAbs 1 (-(p : Int))
    BitVec.ofNat 32 (firstAgreed (fun p =>
      let lo : Int := i * 2 ^ p + (lnLo p m (2 ^ k) * 2 ^ p / ln2Hi p : Nat)
      let hi : Int := i * 2 ^ p + (lnHi p m (2 ^ k) * 2 ^ p / ln2Lo p + 1 : Nat)
      (rnd lo p, rnd hi p)) scales)

/-- Bounds `(lo, hi)` of `e^x` as rationals `·/2^p × 2^i` for `x = m × 2^e` with `0 < x < 512`. -/
def expBounds (p m : Nat) (e : Int) : (Nat × Nat) × Int :=
  -- x at scale 2^q, then i = ⌊x / ln 2⌋ and the rest enclosed
  let xl := if 0 ≤ e then m * 2 ^ (e.toNat + p) else m * 2 ^ p / 2 ^ (-e).toNat
  let xh := if 0 ≤ e then xl else xl + 1
  let i := xl / ln2Hi p
  ((expLo p (xl - i * ln2Hi p), expHi p (xh - i * ln2Lo p)), i)

/-- The logistic function of R190, correctly rounded, for a finite nonzero `x = ± m × 2^e`; with `silu` set the
product with x. -/
def logisticVal (silu neg : Bool) (m : Nat) (e : Int) : Lane :=
  -- x ≥ 256: 1 − 2^−200 < σ(x) < 1; x ≤ −256: 0 < σ(x) < 2^−200 (R190)
  let big := (if 0 ≤ e then 256 ≤ m * 2 ^ (min e 12).toNat else 256 ≤ m / 2 ^ (-e).toNat)
  let out (n d : Nat) (x : Int) : Nat :=
    if silu then roundRat fp32 rne neg (n * m) d (x + e) else roundRat fp32 rne false n d x
  if big then
    (if neg then BitVec.ofNat 32 (if silu then roundRat fp32 rne true 0 1 0 else 0)
     else BitVec.ofNat 32 (out 1 1 0))
  else
    BitVec.ofNat 32 (firstAgreed (fun p =>
      let ((lo, hi), i) := expBounds p m e
      let one := 2 ^ p
      let lo' := lo * 2 ^ i.toNat
      let hi' := hi * 2 ^ i.toNat
      -- σ(x) = E/(1 + E) for x > 0 and 1/(1 + E) for x < 0, with E = e^|x|
      if neg then (out one (one + hi') 0, out one (one + lo') 0)
      else (out lo' (one + lo') 0, out hi' (one + hi') 0)) scales)

/-- vfexp2, vfrcp, vfrsqrt and vflog2 of R137. -/
def fexp2 (a : Lane) : Lane :=
  match val32 a with
  | .nan => canonNaN
  | .inf n => if n then 0 else 0x7F800000#32
  | .fin n m e => exp2Val n m e

def frcp (a : Lane) : Lane :=
  match val32 a with
  | .nan => canonNaN
  | .inf n => rn32 (.fin n 0 0)
  | .fin n m e => if m = 0 then rn32 (.inf n) else BitVec.ofNat 32 (roundRat fp32 rne n 1 m (-e))

def frsqrt (a : Lane) : Lane :=
  match val32 a with
  | .nan => canonNaN
  | .inf n => if n then canonNaN else 0
  | .fin n m e => if m = 0 then rn32 (.inf n) else if n then canonNaN else rsqrtCode m e

def flog2 (a : Lane) : Lane :=
  match val32 a with
  | .nan => canonNaN
  | .inf n => if n then canonNaN else 0x7F800000#32
  | .fin n m e => if m = 0 then rn32 (.inf true) else if n then canonNaN else log2Val m e

/-- The activations of R190. -/
def activate (act : Nat) (x : Lane) : Lane :=
  if isNaN32 x then canonNaN
  else
    match act, val32 x with
    | 0, _ => x
    | 1, _ => if fkey x ≤ 0 then 0 else x
    | 2, .fin true m e => if m = 0 then x else BitVec.ofNat 32 (roundRat fp32 rne true m 1 (e - 6))
    | 2, _ => x
    | 3, .inf n => if n then 0 else 0x3F800000#32
    | 3, .fin n m e => if m = 0 then 0x3F000000#32 else logisticVal false n m e
    | _, .inf n => if n then 0x80000000#32 else x
    | _, .fin n m e => if m = 0 then x else logisticVal true n m e
    | _, .nan => canonNaN

end Sys2Proof.Machine
end

