-- ==== Sys2Proof/Machine/State.lean ====
section
/-! DEFINITION. The state of the whole package as plain data: the cell that acts now (`cpu`), the other cells, memories, and every unit of the device; the reasons to stop; the state right after reset. -/

namespace Sys2Proof.Machine

/-! ### Cells -/

/-- The five engine queues (R95), coded in a replay entry as 1 to 5 (R358). -/
inductive Queue where
  | load | arith | store | matrix | state
  deriving DecidableEq, Repr

/-- 32 rows of 128 bytes: a tile register (R125) or an accumulator slot of 32 by 32 FP32 values (R174). -/
abbrev Tile := Vector VReg 32

/-- A run of scratchpad lines that a command may read or write (R102). -/
structure Range where
  line : Nat
  count : Nat
  write : Bool
  deriving DecidableEq, Repr

/-- What the scoreboard tracks by number (R97); of `x`, 0 to 31 name the task bank and 32 to 63 the handler bank where the bank counts. -/
inductive Res where
  | x (n : Nat)
  | v (n : Nat)
  | k (n : Nat)
  | m (n : Nat)
  | fm (n : Nat)
  | acc (n : Nat)
  deriving DecidableEq, Repr

/-- A forwarded command (R95, R358): its word and captured operands, its progress, and what program order fixed when it
was forwarded: the format-table entry, format register or rounding mode (`aux`), the ring counts H (`idx`) and T (`tix`),
the loop value (`lv`), its place in the vector sequence and the depth in force (R100, R101), the ranges still held (R103), its
request for holds (R201), the update descriptor that it captured (R205), and what its first unit read once for the later ones (R103,
R208). -/
structure Cmd where
  instr : Instr
  word : BitVec 32
  pc : Word
  queue : Queue
  op0 : Word
  op1 : Word
  op2 : Word
  aux : Word
  idx : Nat
  tix : Nat
  lv : Nat
  progress : Nat
  started : Bool
  trapped : Bool
  vseq : Nat
  depth : Nat
  ranges : List Range
  hold : Option Nat
  desc : BitVec 256
  kept : List VReg
  deriving DecidableEq, Repr

/-- An active hardware loop (R119): its counter, first word, end word and count. -/
structure Loop where
  ctr : Nat
  start : Word
  stop : Word
  n : Nat
  deriving DecidableEq, Repr

/-- The tag of an accumulator slot: output format and rounding mode (R84). -/
structure AccTag where
  ofmt : BitVec 20
  mode : BitVec 4
  deriving DecidableEq, Repr

/-- A line of a cell's L1, by physical line number: its bytes, which of them are present and which are dirty (R308, R309), and
the place in program order of its youngest write: no write is published before the reads that precede it have returned (R319). -/
structure L1Line where
  no : Nat
  data : VReg
  present : BitVec 128
  dirty : BitVec 128
  seq : Nat
  deriving DecidableEq, Repr

/-- A translation held by a TLB: context, first byte, page size as a power of two, and the leaf (R230). -/
structure TlbEntry where
  ctx : Nat
  base : Nat
  bits : Nat
  leaf : Word
  deriving DecidableEq, Repr

/-- A handler's saved commands and resume address after a pre-emption in handler mode (R366). -/
structure HandlerCapture where
  cmds : List Cmd
  resume : Word
  deriving DecidableEq, Repr

/-- A cell with the registers of the context it runs. -/
structure Cell where
  /-- Logical numbers and the physical cell position (R12, R14, R16). -/
  id : Nat
  cluster : Nat
  sector : Nat
  stack : Nat
  die : Nat
  pos : Nat
  /-- Whether a context runs on the cell, and which: context id, firing, team, node id, class, binding (R106, R107). -/
  running : Bool
  ctx : Nat
  firing : Nat
  team : Nat
  node : Nat
  cls : Nat
  role : Nat
  tindex : Nat
  tsize : Nat
  roleCounts : List Nat
  /-- The scratchpad window of the node: base and size (R153). -/
  winBase : Nat
  winSize : Nat
  pc : Word
  /-- The word at the front end (R48). -/
  word : BitVec 32
  /-- The task bank and the handler bank (R353). -/
  x : Vector Word 32
  hx : Vector Word 32
  handler : Bool
  v : Vector VReg 32
  k : Vector (BitVec 32) 8
  m : Vector Tile 8
  fm : Vector (BitVec 32) 16
  /-- Registers that hold a poisoned word (R412; DESIGN CHOICE, assumption log 45). -/
  poison : List Res
  /-- The format table (R85). -/
  ft : Vector Word 64
  /-- Ring handles: the ring unit that each binds (R164). -/
  q : Vector (Option Nat) 16
  /-- The accumulator ring: slots, tags, size S and counts H and T (R174, R175), and the output formats in program order
  (R191). -/
  acc : Vector Tile 24
  accTag : Vector AccTag 24
  accFmt : Vector (BitVec 20) 24
  accS : Nat
  accH : BitVec 32
  accT : BitVec 32
  epiMode : BitVec 4
  vslip : Word
  vrm : Word
  ftbase : Word
  ftsel : Word
  thandler : Word
  lc : Vector Word 4
  pidx : Word
  tcause : Word
  tval : Word
  tepc : Word
  nbstat : Word
  rel : Vector Word 16
  valloc : Nat
  /-- Active loops, innermost first, and those saved by a trap with the loop counters (R119, R122). -/
  loops : List Loop
  savedLoops : List Loop
  savedLc : Vector Word 4
  /-- Commands forwarded and not completed, oldest first, and the next vector sequence number (R95, R100). -/
  pending : List Cmd
  vseq : Nat
  /-- The replay queue (R358) and a handler's capture area (R366). -/
  replay : List Cmd
  capture : Option HandlerCapture
  /-- Phase count, lead allowance (R116, R118), and the scope of a phase that holds (R311). -/
  phaseCount : BitVec 32
  lead : Nat
  hold : Option Nat
  savedHold : Option (Word × Nat)
  /-- Reduction flags by context: invalid, overflow (R286). -/
  redFlags : List (Nat × BitVec 2)
  /-- The die whose being offline raised the last trap (R346). -/
  hwLost : Option Nat
  /-- Hand-overs executed as sender by ring handle, and as receiver by sender and ring handle (R112). -/
  sent : List (Nat × Nat)
  received : List ((Nat × Nat) × Nat)
  /-- An nbmode that has begun its entry or exit (R299). -/
  nbBegun : Bool
  /-- The 8 bytes reserved by LR (R280). -/
  reservation : Option Nat
  l1 : List L1Line
  /-- Instruction lines fetched and not yet discarded by FENCE.I (R44). -/
  icache : List (Nat × VReg)
  tlb : List TlbEntry
  /-- A wake event that no WFI has consumed (R372). -/
  wake : Bool
  /-- Asleep in a WFI (R372), until a wake. -/
  asleep : Bool
  /-- Executed ndone (R346). -/
  done : Bool
  /-- Pre-empted contexts whose vector registers, or whose accumulator ring, still stand in the cell, most recently run
  first: firing, class-0 half, size (R127, R176). -/
  vRes : List (Nat × Bool × Nat)
  aRes : List (Nat × Bool × Nat)
  /-- Ready to be resumed: pre-empted and saved (R366). -/
  preempted : Bool
  /-- The model's own choice: engines take commands as soon as they may (DESIGN CHOICE, assumption log 4). -/
  eager : Bool
  /-- The model's own: the lanes of the next vector load that meet a busy L1 bank (R309; DESIGN CHOICE, assumption log 8). -/
  busyLanes : BitVec 32
  deriving DecidableEq, Repr

/-! ### Clusters -/

/-- The states of a ring slot (R165). -/
inductive SlotState where
  | free | claimed | filled | taken | released
  deriving DecidableEq, Repr

/-- A hand-over (R112): team, sender role, ring handle, its number among the sender's on that handle, receiver, count, first index, the member
that fixed them and claims the slots, whether they are claimed, the sender members that have arrived, and whether it is
committed. -/
structure Handover where
  team : Nat
  sender : Nat
  handle : Nat
  num : Nat
  receiver : Nat
  count : Nat
  h0 : BitVec 32
  claimer : Nat
  claimed : Bool
  arrived : List Nat
  committed : Bool
  deriving DecidableEq, Repr

/-- The kinds of wait on a ring unit, each served in its own order (R168). -/
inductive RingWait where
  | claim | take | fill | free
  deriving DecidableEq, Repr

/-- A ring unit in use (R164, R165): cluster, number, firing and key, geometry, the four counts with their positions,
the slots, the hand-overs, and the cells that wait, in order of arrival (R168). -/
structure Ring where
  cluster : Nat
  unit : Nat
  firing : Nat
  key : Nat
  geom : Word
  claimed : BitVec 32
  head : BitVec 32
  taken : BitVec 32
  tail : BitVec 32
  pClaimed : Nat
  pHead : Nat
  pTaken : Nat
  pTail : Nat
  slots : List SlotState
  handovers : List Handover
  waiters : List (RingWait × Nat)
  deriving DecidableEq, Repr

/-- A probe slot (R170, R173). A Filling slot whose tag was dropped has no tag. -/
structure ProbeSlot where
  tag : Option Word
  filling : Bool
  valid : Bool
  pinned : Bool
  /-- Stamp of the last probe: larger is more recent. -/
  stamp : Nat
  /-- The virtual address of its fill. -/
  fillFrom : Word
  /-- The lines of its fill that have been written and set full. -/
  filled : Nat
  deriving DecidableEq, Repr

/-- The probe region of a firing on a cluster (R169), with the number of the next probe. -/
structure ProbeRegion where
  cluster : Nat
  firing : Nat
  ctx : Nat
  node : Nat
  base : Nat
  code : Nat
  slots : List ProbeSlot
  clock : Nat
  deriving DecidableEq, Repr

/-- A window that a cluster is zeroing (R153). -/
structure Zeroing where
  cluster : Nat
  base : Nat
  size : Nat
  deriving DecidableEq, Repr

/-! ### Synchronisation -/

/-- A wait record (R262, R264, R276, R278): a cell asleep in a barwait on the object at a physical key (32 bytes) or in a
waita on the word there (8 bytes), the value it waits to differ from, the destination of a waita, whether it has been woken, the
virtual address, and the flip number of the phase that a barwait waits out, or, once woken, of the phase that woke it (R277). -/
structure WaitRecord where
  cell : Nat
  key : Nat
  bytes : Nat
  want : Word
  rd : BitVec 5
  woken : Bool
  va : Word
  flip : Nat
  deriving DecidableEq, Repr

/-- A subtraction of a copy entry's bytes under way to a barrier (R270): its key, the bytes, the copying context, the
runs of memory that the entry has written, and whether it travels in a priority lane (R373). -/
structure Subtraction where
  key : Nat
  bytes : Nat
  ctx : Nat
  runs : List (Nat × Nat)
  urgent : Bool
  deriving DecidableEq, Repr

/-- Bytes that the copy entries counted by a phase of a barrier have written (R277): barrier key, flip number of the
phase, first byte and length. -/
structure Payload where
  barrier : Nat
  flip : Nat
  key : Nat
  bytes : Nat
  deriving DecidableEq, Repr

/-- A reduction sent and not yet applied (R283); `urgent`: in a priority lane, for class-0 work (R373). -/
structure Reduction where
  cell : Nat
  ctx : Nat
  firing : Nat
  node : Nat
  va : Word
  key : Nat
  op : Nat
  data : VReg
  urgent : Bool
  deriving DecidableEq, Repr

/-- The lines and wait records that a synchronisation engine holds in its SRAM, most recently used first (R262). -/
structure SyncSram where
  die : Nat
  lines : List Nat
  records : List Nat
  deriving DecidableEq, Repr

/-! ### Memory tiers, units and links -/

/-- What the tier engine keeps of a migratable 2 MiB page (R233, R234): context, first address, priority, next-use step,
time of the last access (a count), accesses in the current window. -/
structure PageRecord where
  ctx : Nat
  va : Nat
  prio : Nat
  nextUse : BitVec 32
  last : Nat
  accesses : Nat
  deriving DecidableEq, Repr

/-- A page in migration (R235): the leaf's key, its old value, the new frame, and whether its shootdown is acknowledged. -/
structure Migration where
  ctx : Nat
  va : Nat
  key : Nat
  leaf : Word
  frame : Nat
  acked : Bool
  deriving DecidableEq, Repr

/-- A link (R18, R406, R409): its ends, fitted and trained modules, state (0 Active, 1 Quiesce, 2 Reset, 3 Training), the times
of the retries of the last millisecond, and whether its last training failed. -/
structure Link where
  a : Nat
  b : Nat
  fitted : Nat
  trained : Nat
  state : Nat
  retries : List Nat
  failed : Bool
  deriving DecidableEq, Repr

/-! ### State SRAM (R194 to R220) -/

/-- A state block in use (R194, R210, R221): number, cluster, reference count, contents, poison. -/
structure StateBlock where
  id : Nat
  cluster : Nat
  refs : Nat
  data : Tile
  poison : Bool
  deriving DecidableEq, Repr

/-- Where an object lies: a cluster, its LPDDR6 image, or a cluster of another chip (R200, R215). -/
inductive ObjPlace where
  | cluster (c : Nat)
  | image
  | chip (id cluster : Nat)
  deriving DecidableEq, Repr

/-- Whether a move of an object is under way (R219). -/
inductive ObjMove where
  | none | evicting | moving
  deriving DecidableEq, Repr

/-- A fast-weight object: the directory entry of a handle (R197, R200), its blocks or its LPDDR6 image with the poison of
each block, the clusters asked for (R218), whether another chip has been asked to send it, the blocks at its destination that a
migration has filled (R215), the holds by request and whether exclusive (R201), and when it was last held. -/
structure FwObject where
  handle : Word
  ctx : Nat
  rows : Nat
  cols : Nat
  next : BitVec 32
  prio : Nat
  nextUse : BitVec 32
  pinned : Bool
  snap : Bool
  place : ObjPlace
  move : ObjMove
  blocks : List Nat
  image : List (Tile × Bool)
  want : List Nat
  asked : Bool
  copy : List Nat
  holds : List (Nat × Bool)
  lastHeld : Nat
  deriving DecidableEq, Repr

/-- A request for holds that waits (R201): its number, the handles asked for shared and exclusive. -/
structure HoldReq where
  id : Nat
  shared : List Word
  exclusive : List Word
  deriving DecidableEq, Repr

/-! ### Copy engines (R243 to R260) -/

/-- The states of a schedule (R253, R255); a free engine's schedule is Retired. -/
inductive CopyState where
  | retired | waiting | running | faulted | cancelling
  deriving DecidableEq, Repr

/-- An entry whose last beat has been issued and whose completion actions are still to be performed, while the engine has started a
later one (R250): its 64-byte index, bytes, where it met poison, the memory and the lines that it wrote, and whether its full and
word actions are done. -/
structure Closing where
  pos : Nat
  done : Nat
  poison : Option Nat
  runs : List (Nat × Nat)
  lines : List Nat
  acted : Bool
  deriving DecidableEq, Repr

/-- A copy engine (R243, R244, R254): number, serial; the context, firing, node, cell and cluster that armed it (a copy
node has no cell), the schedule, its state, the 64-byte index of the next or current entry, the stage counter and base,
the bytes of the entry moved, the index words looked up for it, the cause of a fault, a fault met and not yet taken (cause
and address), where the entry met poison, its runs written to memory, the scratchpad lines that it has written and not yet set full,
whether its full and word actions are done, the entries before it that have still to complete, oldest first, and the engine's own
TLB. -/
structure Copier where
  engine : Nat
  serial : Nat
  ctx : Nat
  firing : Nat
  node : Nat
  cell : Option Nat
  cluster : Nat
  entries : List (BitVec 512)
  state : CopyState
  pos : Nat
  counter : Nat
  base : Word
  done : Nat
  tbl : List Nat
  cause : Nat
  fault : Option (Nat × Nat)
  poison : Option Nat
  runs : List (Nat × Nat)
  lines : List Nat
  acted : Bool
  closing : List Closing
  tlb : List TlbEntry
  deriving DecidableEq, Repr

/-- A cparm, or a copy node's firing, that waits for an engine of a die (R243): the cell or none, the firing, whether it is
of class 0, and the engine granted. -/
structure CopyWait where
  cell : Option Nat
  firing : Nat
  die : Nat
  urgent : Bool
  granted : Option Nat
  deriving DecidableEq, Repr

/-! ### Rill units (R289 to R306) -/

/-- A command in a bank's queue (R296, R300): the cell and firing that issued it, its word and address, row and burst, and the beat that
the bank latches. One that came over a link has no address of a context. The row is the key of its first byte in bank 0. `read` marks the place that an nbrd takes in the bank's order
(R302), which is no command. -/
structure RillCmd where
  cell : Nat
  firing : Nat
  word : Word
  va : Option Nat
  row : Nat
  burst : Nat
  beat : BitVec 256
  read : Bool
  deriving DecidableEq, Repr

/-- The rill unit of a bank (R289) with its queue and the refreshes postponed (R295). -/
structure Bank where
  opr : Vector (BitVec 256) 8
  res : Vector (BitVec 32) 64
  queue : List RillCmd
  postponed : Nat
  deriving DecidableEq, Repr

/-- The modes of R292; a compute mode is all-bank or single-bank. -/
inductive ChanMode where
  | ordinary | allBank | singleBank
  deriving DecidableEq, Repr

/-- A move of the machine: which agent acts next (DESIGN CHOICE, assumption log 1). -/
inductive Turn where
  /-- A cell issues its next word. -/
  | cell (c : Nat)
  /-- An engine of a cell takes up a command of its queue, or goes on with it by one unit of progress. -/
  | engine (c : Nat) (q : Queue)
  /-- The epilogue unit of a cell writes the next row of the epi handed over to it (R178, R192). -/
  | epilogue (c : Nat)
  /-- Time passes. -/
  | tick (cycles : Nat)
  /-- The L1 of a cell replaces a line (R309). -/
  | l1Replace (c : Nat) (line : Nat)
  /-- Lanes of the next vector load of a cell meet a busy L1 bank (R309). -/
  | busyBanks (c : Nat) (lanes : BitVec 32)
  /-- A cell forgets a fetched instruction line. -/
  | icacheReplace (c : Nat) (line : Nat)
  /-- A copy engine moves its next beat (R248, R250). -/
  | beat (engine : Nat)
  /-- The next flit of a link in one direction reaches its receiver, filled up with idle slots (R407). -/
  | flit (link : Nat) (back : Bool)
  /-- A link is asked to quiesce (R409). -/
  | quiesce (link : Nat)
  /-- Another chip asks for a placement update again (R411). -/
  | resendAsked (ctx chip seq : Nat)
  /-- A die takes the oldest message of a channel of a link (R408). -/
  | deliver (link : Nat) (back : Bool) (chan : Nat)
  /-- The firmware dispatches the next packet of a queue that a core has locked (R390, R402). -/
  | dispatch (pasid queue : Nat)
  /-- The network engine takes up the sends and the remote writes that wait (R386 to R388). -/
  | arrival
  /-- The host has read further entries of a completion ring (R401), by the QCB of its queue. -/
  | hostRead (qcb entries : Nat)
  /-- The management port is asked for the enumeration table (R15), or for a sensor (R403). -/
  | readTable
  | readSensor (kind number : Nat)
  /-- An event of the opcode table, at a cell where it acts on one. -/
  | event (c : Nat) (i : Instr)
  deriving DecidableEq, Repr

/-- An agent whose ordinary request waits at a channel (R293, R294): its move, the firing that the agent then ran for, and whether the
request is that of class-0 work (R373). -/
structure Owed where
  turn : Turn
  firing : Nat
  urgent : Bool
  deriving DecidableEq, Repr

/-- A pseudo-channel in use (R291, R292): stack and number, the mode, the mode it is passing to, its owner (the requester
while Entering) and previous owner, the firing that entered the mode, whether its end has released ownership, its 16 banks,
since when an ordinary request has waited (R294), whether the move under way has left a request waiting there, the agents whose
requests wait, in order of arrival (R373, R374), and whether the move under way must let one of them go first. -/
structure Channel where
  stack : Nat
  number : Nat
  mode : ChanMode
  next : Option ChanMode
  owner : Option Nat
  prev : Option Nat
  firing : Nat
  released : Bool
  banks : Vector Bank 16
  waitSince : Option Nat
  noted : Bool
  owed : List Owed
  barred : Bool
  deriving DecidableEq, Repr

/-! ### Graphs (R320 to R352, R427) -/

/-- A peeked token (R328): input port, identity on its edge, payload and tag. -/
structure Peeked where
  port : Nat
  id : Nat
  payload : Word
  tag : Word
  deriving DecidableEq, Repr

/-- A staged token (R341). -/
structure Staged where
  port : Nat
  payload : Word
  tag : Word
  deriving DecidableEq, Repr

/-- One team of a firing (R339, R343): its number, cluster, cells, the next iteration and end of its interval, the members
that have executed ndone or wait at a token boundary, and the answer of that boundary. -/
structure TeamRun where
  id : Nat
  cluster : Nat
  cells : List Nat
  cur : Nat
  hi : Nat
  done : List Nat
  waiting : List Nat
  answer : Option Bool
  leaving : Option Nat
  deriving DecidableEq, Repr

/-- Tokens being worked on, with the energy they are charged to (R328, R341, R343, R379): the team for a stage node, else 0; the
reservation in µJ and the meters' count in pJ (R378). -/
structure Work where
  team : Nat
  peeked : List Peeked
  staged : List Staged
  reservation : Int
  count : Nat
  deriving DecidableEq, Repr

/-- What has become of a firing (R330, R333): it runs; after a fault it is Faulted, Retry-pending, or to be fired again, with
its tokens peeked; or it was cancelled and its tokens wait for a reset. -/
inductive FiringState where
  | running | faulted | pending | rearmed | cancelled
  deriving DecidableEq, Repr

/-- A firing (R328 to R332): its graph, node and firing context, class, whether it is of class 0 in its energy, its window, its
teams and work, the clusters whose window it holds, whether it is to be retried and when, the die whose loss faulted it
(R346), and whether it stands for a token out of order, which never runs (R342). -/
structure Firing where
  id : Nat
  graph : Nat
  node : Nat
  ctx : Nat
  cls : Nat
  winBase : Nat
  winSize : Nat
  teams : List TeamRun
  works : List Work
  clusters : List Nat
  state : FiringState
  retryAt : Option Nat
  lost : Option Nat
  froze : List Nat
  holdsSlots : Bool
  stale : Bool
  deriving DecidableEq, Repr

/-- A node that is Armed (R333), with the chain context, in the order of arming. -/
structure ArmedNode where
  node : Nat
  ctx : Nat
  stamp : Nat
  deriving DecidableEq, Repr

/-- A chain node's record of a context (R342): the next sequence number, and a stamp of the last firing. -/
structure ChainNote where
  node : Nat
  ctx : Nat
  next : Nat
  stamp : Nat
  deriving DecidableEq, Repr

/-- A launched graph (R320, R399): its number, the address of its record, its owner, the slot that holds it, the queue that
launched it, its rel values and lead allowance, the .sp image, the .state section with the end of .data until its objects
are created (R220), and what the graph engine keeps for itself: the nodes
Armed, those fired in this launch, the chain notes, the nodes whose lost placement was reported, the identities of the
tokens of each edge, the cone walks under way, and the time of the last team move. -/
structure Graph where
  id : Nat
  va : Word
  ctx : Nat
  slot : Option Nat
  queue : Option (Nat × Nat)
  rel : Vector Word 16
  lead : Nat
  sp : List Byte
  states : List Byte
  dataEnd : Word
  armed : List ArmedNode
  fired : List Nat
  chains : List ChainNote
  reported : List Nat
  edgeIds : List (List Nat)
  walks : List Nat
  lastMove : Nat
  cancelling : Bool
  deriving DecidableEq, Repr

/-! ### Host, firmware, links (R386 to R414) -/

/-- The algorithms of the device's SPDM (R403). -/
inductive SpdmAlgorithm where
  | ed448 | shake256
  deriving DecidableEq, Repr

/-- What the device has sent out, in order (R386, R393, R401, R403, R411). -/
inductive Message where
  /-- A write to host memory: PASID, address, key, bytes. -/
  | hostWrite (pasid : Nat) (addr : Word) (key : Nat) (bytes : List Byte)
  /-- A write to a peer chip: context, peer index, address, bytes, and which of them are poisoned (R246, R251, R259). -/
  | peerWrite (ctx peer : Nat) (addr : Word) (bytes : List Byte) (bad : List Bool)
  /-- A fast-weight object moved to a cluster of another chip: the shape, priority and pin as an attribute word, the chunk number, the
  next-use step and the blocks (R215); and a request that a chip send one to a cluster of this chip (R215, R218). -/
  | object (chip : Nat) (handle : Word) (cluster : Nat) (attr : Word) (next nextUse : BitVec 32) (blocks : List Tile)
  | fetch (chip : Nat) (handle : Word) (cluster : Nat)
  /-- The transport's unsupported-operation response (R386), and its error (R388). -/
  | unsupported (pasid : Nat)
  | refused (pasid queue : Nat)
  /-- An SPDM response (R403): what the manual does not give of it as bytes; the algorithms offered, asymmetric and hash; whether
  secured sessions are supported. -/
  | spdm (request : Nat) (bytes : List Byte)
  | algorithms (asym hash : List SpdmAlgorithm) (rest : List Byte)
  | capabilities (sessions : Bool) (rest : List Byte)
  /-- A PLDM completion: effecter and value (R396). -/
  | pldm (effecter value : Nat)
  /-- The enumeration table over the management port (R15), and the reading of a rail (0), temperature (1) or power (2) sensor
  (R403). -/
  | table (bytes : List Byte)
  | sensor (kind number : Nat) (value : Word)
  /-- A placement update of this chip, to all chips of the context or to the one that asks for it again (R411). -/
  | update (ctx : Nat) (chip : Option Nat) (seq block holder : Nat)
  /-- A request to resend a placement update (R411), and the acknowledgement of one. -/
  | resend (ctx chip seq : Nat)
  | ack (ctx chip seq : Nat)
  deriving DecidableEq, Repr

/-- A send that has arrived and has no ring entry yet (R387, R388). -/
structure Arrival where
  pasid : Nat
  queue : Nat
  bytes : List Byte
  deriving DecidableEq, Repr

/-- A remote write that has arrived and has not landed: a walk or its channel waits (R235, R293, R386). -/
structure RemoteWrite where
  pasid : Nat
  va : Word
  bytes : List Byte
  deriving DecidableEq, Repr

/-- A completion that the network engine has still to write (R401): the queue, its QCB if it is known, the entry, and the firing of a
host node that completes with it (R352). -/
structure Posting where
  pasid : Nat
  queue : Nat
  qcb : Option Nat
  entry : List Byte
  firing : Option Nat
  deriving DecidableEq, Repr

/-- A packet under way in a queue's buffers (R394): where the next packet lies, the bytes left, the depth,
its sequence number, and the tag of its completion, if it asks for one. -/
structure PacketSource where
  addr : Word
  left : Nat
  depth : Nat
  seq : Nat
  notice : Option Nat
  deriving DecidableEq, Repr

/-- What the firmware keeps of a queue (R390, R402): PASID, number, the physical address of its QCB, whether a core holds
its lock, the buffers open in it, innermost first, the launches of its earlier packets, the FENCE that waits, a disable that
waits, and whether the effect of its head packet has begun. -/
structure QueueRun where
  pasid : Nat
  queue : Nat
  qcb : Nat
  locked : Bool
  sources : List PacketSource
  launches : List Nat
  fencing : Bool
  disabling : Bool
  started : Bool
  deriving DecidableEq, Repr

/-- A resident slot (R398, R399): owner PASID and context, image base, graph record, lead allowance, the .sp and .state
sections, the bytes of its template, the entries of the pages pinned for it, its launch, and whether a SLOT_EVICT waits. -/
structure Slot where
  number : Nat
  pasid : Nat
  ctx : Nat
  base : Word
  graph : Word
  lead : Nat
  sp : List Byte
  states : List Byte
  dataEnd : Word
  template : List Byte
  pages : List Nat
  launch : Option Nat
  leaving : Bool
  deriving DecidableEq, Repr

/-- A peer table entry (R410). -/
structure Peer where
  ctx : Nat
  index : Nat
  netid : Nat
  addr : Word
  key : Nat
  deriving DecidableEq, Repr

/-- The placement table of a context (R411): the chip that holds each block, the sequence number of the last update
applied, per chip the last update acknowledged and whether it is excluded from appends, and the updates of this chip: when each was
multicast, and its block and holder. -/
structure Placement where
  ctx : Nat
  seq : Nat
  blocks : List (Nat × Nat)
  acks : List (Nat × Nat × Bool)
  sentAt : List (Nat × Nat)
  sent : List (Nat × Nat × Nat)
  deriving DecidableEq, Repr

/-- The parameters of the tier engine for a stack (R234): low and high water marks in thousandths, promotion threshold. -/
structure TierParams where
  stack : Nat
  low : Nat
  high : Nat
  threshold : Nat
  deriving DecidableEq, Repr

/-- A shootdown not yet acknowledged (R236): context, first address and bytes, whether it has been issued, and whether it is a
move's. -/
structure Shootdown where
  ctx : Nat
  va : Nat
  bytes : Nat
  issued : Bool
  move : Bool
  deriving DecidableEq, Repr

/-- The states of a firmware slot (R405). -/
inductive FwSlotState where
  | active | standby | empty | writing | staged
  deriving DecidableEq, Repr

/-- A firmware slot (R404, R405): its state and image. -/
structure FwSlot where
  state : FwSlotState
  image : List Byte
  deriving DecidableEq, Repr

/-- A copy of the active-slot marker (R404): slot, sequence number, and whether its signature verifies. -/
structure Marker where
  slot : Nat
  seq : Nat
  sound : Bool
  deriving DecidableEq, Repr

/-- A slot of a flit (R407), with the poison of its two 8-byte words (R412; DESIGN CHOICE, assumption log 22). -/
structure CamyarSlot where
  bits : BitVec 128
  bad : BitVec 2
  deriving DecidableEq, Repr

/-- The flits of a link in one direction (R407): the slots of the flit that is being filled, fewer than 15, the flits in flight, oldest
first, 15 slots each, and, at the receiver, the slots of a message that runs on into the next flit. -/
structure Stream where
  link : Nat
  back : Bool
  filling : List CamyarSlot
  flits : List (List CamyarSlot)
  rest : List CamyarSlot
  deriving DecidableEq, Repr

/-- A Camyar message that has arrived (R407): its place in the order of arrival, header, data slots, and the poison of their words. -/
structure CamyarMsg where
  stamp : Nat
  hdr : BitVec 128
  data : List (BitVec 128)
  bad : List (BitVec 2)
  deriving DecidableEq, Repr

/-- A Camyar request that a die has sent (R407): the die, its tag and kind, and, once answered, the kind, op and data of the
response, with the poison of the data (R412). -/
structure Txn where
  die : Nat
  tag : Nat
  kind : Nat
  answer : Option (Nat × Nat × List (BitVec 128) × List (BitVec 2))
  deriving DecidableEq, Repr

/-- A channel of a link in one direction (R408): link, whether it runs from end b to end a, channel, credits that the sender
holds, messages that have arrived and have not been taken, oldest first. -/
structure Wire where
  link : Nat
  back : Bool
  chan : Nat
  credits : Nat
  queue : List CamyarMsg
  deriving DecidableEq, Repr

/-- A warm reset under way (R414): the die and the last step completed. -/
structure DieReset where
  die : Nat
  step : Nat
  deriving DecidableEq, Repr

/-! ### Contexts, firings and the package -/

/-- A context (R397): what the firmware set at its creation, its step count (R242), the serial of its last handle (R198),
its backing area in MiB (R217), its energy account with refill and cap (R375, R377), and whether it holds the bootstrap
mapping (R396). -/
structure Context where
  id : Nat
  pasid : Nat
  root : Nat
  ringBase : Nat
  ringSize : Nat
  step : BitVec 32
  serial : Nat
  backing : Nat
  account : Int
  refill : Nat
  cap : Nat
  bootstrap : Bool
  deriving DecidableEq, Repr

/-- A record that waits for space in a trap ring, with the unit that waits (R370): 0 cell, 1 copy engine, 2 graph engine,
3 firmware, 4 synchronisation engine, 5 probe fill, 6 a unit that cannot stall. -/
structure HeldRecord where
  ctx : Nat
  producer : Nat
  unit : Nat
  bytes : List Byte
  deriving DecidableEq, Repr

/-- A fault that a cell has raised on its firing (R346): cause, tval, and the die lost. -/
structure FaultNote where
  firing : Nat
  cell : Nat
  cause : Nat
  tval : Word
  hwLost : Option Nat
  deriving DecidableEq, Repr

/-- Fuses (R1, R11, R17): grade 1 to 3, physical positions 0 to 511 of the disabled cells, compute-capable reserve in GiB.
(DESIGN CHOICE, assumption log 10) -/
structure Fuses where
  grade : Nat
  disabled : List Nat
  ccReserve : Nat
  deriving DecidableEq, Repr

/-- The whole package: the cell that acts now and every other agent, memory and register, as plain data. -/
structure State where
  /-- The cell that acts now. -/
  cpu : Cell
  /-- Every other cell that is not at its power-on contents, by number. -/
  cells : List Cell
  /-- The save areas of pre-empted contexts (R367): what a cell held. -/
  saved : List Cell
  /-- Main memory, sync windows and device memory, by key (R222 to R225; DESIGN CHOICE, assumption logs 5 and 6). -/
  mem : List Host.Cell
  /-- Poisoned 8-byte words of memory, as key / 8 (R412). -/
  memPoison : List Nat
  /-- Poisoned words of the firmware memories (R412). -/
  fwPoison : List Nat
  /-- Scratchpad bytes, by cluster and offset (R151). -/
  sp : List Host.Cell
  /-- Scratchpad lines whose full/empty bit is empty (R156), and the poisoned words (R412). -/
  spEmpty : List Nat
  spPoison : List Nat
  /-- Ring units in use (R164), probe regions (R169), windows being zeroed (R153). -/
  rings : List Ring
  probes : List ProbeRegion
  zeroing : List Zeroing
  /-- Wait records of synchronisation engines, in order (R262). -/
  waits : List WaitRecord
  /-- Bytes on their way to barriers (R270), and the payload of their phases (R277). -/
  subtractions : List Subtraction
  payloads : List Payload
  /-- Reductions sent and not yet applied, oldest first (R283). -/
  reductions : List Reduction
  /-- What each synchronisation engine holds in its SRAM (R262). -/
  syncSram : List SyncSram
  /-- The last-level TLB of each die, most recently used first, and the walks that wait, by die, context and first address of the page
  (R230, R232, R235). -/
  llTlb : List (Nat × TlbEntry)
  walks : List (Nat × Nat × Nat)
  /-- Clean lines that a hint has brought into a home slice, by slice and line (R225, R241). -/
  slices : List (Nat × Nat)
  /-- State blocks in use, with the next number (R194). -/
  blocks : List StateBlock
  blockClock : Nat
  /-- The state directory (R200), the requests for holds in order of arrival, and the next request number (R201). -/
  objects : List FwObject
  holdReqs : List HoldReq
  holdClock : Nat
  /-- The network id of this chip (R410, R411). -/
  chipId : Nat
  /-- Copy engines that have been armed (R243), and the requests for one, in order. -/
  copiers : List Copier
  copyWaits : List CopyWait
  /-- Pseudo-channels that are not at their reset contents (R289, R292). -/
  channels : List Channel
  /-- Launched graphs (R320) and firings (R326). -/
  graphs : List Graph
  firings : List Firing
  /-- The number of the next firing, team or graph. -/
  runClock : Nat
  /-- By die: decisions in a row that left a class-3 node Armed (R338). -/
  floors : List (Nat × Nat)
  /-- Contexts (R397). -/
  contexts : List Context
  /-- Records that wait for ring space, and the records dropped since the last type-8 record, by context (R370). -/
  held : List HeldRecord
  dropped : List (Nat × Nat)
  /-- Faults of firings that the graph engine has still to carry through (R346, R347). -/
  faults : List FaultNote
  /-- Page records of the tier engine (R233), with the count of accesses that dates them. -/
  pageRecords : List PageRecord
  accessClock : Nat
  /-- Pages that hint.fetch or the promotion threshold asks for (R234, R241). -/
  fetchHints : List (Nat × Nat)
  /-- Pages in migration (R235), shootdowns not acknowledged (R236), and the parameters of each stack (R234). -/
  migrations : List Migration
  shootdowns : List Shootdown
  tierParams : List TierParams
  /-- Free 2 MiB frames of both nodes, by physical address and view, that the tier engine may fill (R234). -/
  freeFrames : List (Nat × Bool)
  /-- Start of the promotion window (R234). -/
  tierWindow : Nat
  /-- Stacks whose pages are being demoted until the high-water mark (R234). -/
  demoting : List Nat
  /-- Energy (R375 to R382): the power limit as a budget per window in force and the one set, the window number and its start,
  the class-0 reserve and its size in thousandths, the energy metered in this window in pJ, the time of the last meter update,
  the ratio by which the weights of the meters are scaled (R378), and the amount by which the next refills are lowered. -/
  budget : Nat
  budgetNext : Nat
  windowNo : Nat
  windowStart : Nat
  reserve : Int
  reservePermille : Nat
  metered : Nat
  meterTime : Nat
  /-- Cycles for which cells have been occupied since the last meter update, by firing and team (R378). -/
  leaks : List (Nat × Nat × Nat)
  meterScale : Nat × Nat
  refillCut : Nat
  /-- The network engine and the firmware (R386 to R402). -/
  pasidBase : Nat
  queues : List QueueRun
  fwEvents : List (Nat × Nat)
  arrivals : List Arrival
  /-- The overflow areas that the firmware reserves at boot: die and first address (R262). -/
  overflow : List (Nat × Nat)
  /-- Remote writes that have not landed, oldest first (R386). -/
  remoteWrites : List RemoteWrite
  /-- Completions to be written, in order, and, by QCB, the entries of the completion ring that the host has read (R401). -/
  postings : List Posting
  hostReads : List (Nat × Nat)
  slots : List Slot
  peers : List Peer
  /-- The privileged list, the signing policy and the signing keys (R396). -/
  privileged : List (Nat × Nat)
  signing : Bool
  keys : List ((Nat × Nat) × List Byte)
  /-- Class-0 cell reservations by die (R374), and placement tables (R411). -/
  class0Cells : List (Nat × Nat)
  placements : List Placement
  /-- What has left the device, in order. -/
  outbox : List Message
  /-- The management controller (R376, R403 to R405, R413): error window in minutes, threshold, corrected events. -/
  errWindow : Nat
  errThreshold : Nat
  errors : List (Nat × Nat × Nat)
  /-- The cycles before the last power-on: with `now`, the time of the management controller, which the standby rail keeps (R403,
  R413). -/
  standbyTime : Nat
  /-- A thermal emergency is declared (R374). -/
  thermal : Bool
  /-- The firmware slot that booted, or recovery (R404); the two slots, the marker copies, and whether only the standby rail is up. -/
  booted : Option Nat
  recovery : Bool
  fwSlots : Vector FwSlot 2
  markers : Vector Marker 2
  standbyOnly : Bool
  /-- Warm resets under way (R414). -/
  resets : List DieReset
  /-- Links (R18, R409), the time of each one's last change, and the channels of Camyar (R408). -/
  links : List Link
  linkTimes : List (Nat × Nat)
  wires : List Wire
  /-- The flits of each link (R407). -/
  streams : List Stream
  /-- Camyar requests sent, with their responses (R407). -/
  txns : List Txn
  /-- Retired units by kind and number (R413), the generation of the enumeration table (R20), the fuses, and the dies offline (R16). -/
  retired : List (Nat × Nat)
  enumGen : Nat
  fuses : Fuses
  offline : List Nat
  /-- Package timestamp in cycles of the arithmetic clock (R368; DESIGN CHOICE, assumption log 13). -/
  now : Nat
  /-- The model's own: the counter of free values (DESIGN CHOICE, assumption log 14). -/
  fresh : Nat
  /-- The model's own: the moves to come (DESIGN CHOICE, assumption log 1). -/
  agenda : List Turn
  deriving DecidableEq, Repr

/-- The machine stops with a fault: nothing does. Every stop that the manual describes is a trap, a fault of a node or a wait,
which are next states. -/
inductive Fault where
  deriving DecidableEq, Repr

/-- No meaning. -/
inductive Refusal where
  /-- The arm of the instruction has no meaning yet. Safe. -/
  | notModelled (mnemonic : String)
  deriving DecidableEq, Repr

/-- The outcome of a step or of a meaning. -/
abbrev Out := Host.Outcome State Fault Refusal

/-- A cell at power-on: every register at its launch or reset value, nothing running (R126, R46; DESIGN CHOICE, assumption log 11). -/
def Cell.idle (id cluster sector stack die pos : Nat) : Cell where
  id := id
  cluster := cluster
  sector := sector
  stack := stack
  die := die
  pos := pos
  running := false
  ctx := 0
  firing := 0
  team := 0
  node := 0
  cls := 2
  role := 0
  tindex := 0
  tsize := 1
  roleCounts := [1, 0, 0, 0, 0, 0, 0]
  winBase := 0
  winSize := 0
  pc := 0
  word := 0
  x := Vector.replicate 32 0
  hx := Vector.replicate 32 0
  handler := false
  v := Vector.replicate 32 0
  k := Vector.replicate 8 0
  m := Vector.replicate 8 (Vector.replicate 32 0)
  fm := Vector.replicate 16 0xFFF00001
  poison := []
  ft := Vector.replicate 64 0x0300013000330003
  q := Vector.replicate 16 none
  acc := Vector.replicate 24 (Vector.replicate 32 0)
  accTag := Vector.replicate 24 ⟨0x30001, 0⟩
  accFmt := Vector.replicate 24 0x30001
  accS := 8
  accH := 0
  accT := 0
  epiMode := 0
  vslip := 0x00202020
  vrm := 0
  ftbase := 0
  ftsel := 0
  thandler := 0
  lc := Vector.replicate 4 0
  pidx := 0
  tcause := 0
  tval := 0
  tepc := 0
  nbstat := 0
  rel := Vector.replicate 16 0
  valloc := 8
  loops := []
  savedLoops := []
  savedLc := Vector.replicate 4 0
  pending := []
  vseq := 0
  replay := []
  capture := none
  phaseCount := 0
  lead := 4
  hold := none
  savedHold := none
  redFlags := []
  hwLost := none
  sent := []
  received := []
  nbBegun := false
  reservation := none
  l1 := []
  icache := []
  tlb := []
  wake := false
  asleep := false
  done := false
  vRes := []
  aRes := []
  preempted := false
  eager := true
  busyLanes := 0

/-- The machine right after reset: memories with nothing listed, nothing running, links in Training, firmware not booted; the
values that the manual gives (R16, R18, R46, R126, R234, R376, R377, R404, R413), and, where it gives none, those of assumption
logs 10 and 11 (DESIGN CHOICE). -/
def State.reset : State where
  cpu := Cell.idle 0 0 0 0 0 0
  cells := []
  saved := []
  mem := []
  memPoison := []
  fwPoison := []
  sp := []
  spEmpty := []
  spPoison := []
  rings := []
  probes := []
  zeroing := []
  waits := []
  subtractions := []
  payloads := []
  reductions := []
  syncSram := []
  llTlb := []
  walks := []
  slices := []
  blocks := []
  blockClock := 0
  objects := []
  holdReqs := []
  holdClock := 0
  chipId := 0
  copiers := []
  copyWaits := []
  channels := []
  graphs := []
  firings := []
  runClock := 1
  floors := []
  contexts := []
  held := []
  dropped := []
  faults := []
  pageRecords := []
  accessClock := 0
  fetchHints := []
  migrations := []
  shootdowns := []
  tierParams := []
  freeFrames := []
  tierWindow := 0
  demoting := []
  budget := 3000000
  budgetNext := 3000000
  windowNo := 0
  windowStart := 0
  reserve := 0
  reservePermille := 50
  metered := 0
  meterTime := 0
  leaks := []
  meterScale := (1, 1)
  refillCut := 0
  pasidBase := 0
  queues := []
  fwEvents := []
  arrivals := []
  overflow := []
  remoteWrites := []
  postings := []
  hostReads := []
  slots := []
  peers := []
  privileged := []
  signing := false
  keys := []
  class0Cells := []
  placements := []
  outbox := []
  errWindow := 1440
  errThreshold := 16
  errors := []
  standbyTime := 0
  thermal := false
  booted := none
  recovery := false
  fwSlots := ⟨#[⟨.active, []⟩, ⟨.empty, []⟩], rfl⟩
  markers := ⟨#[⟨0, 1, true⟩, ⟨0, 0, true⟩], rfl⟩
  standbyOnly := false
  resets := []
  links := [⟨0, 1, 4, 0, 3, [], false⟩, ⟨0, 2, 4, 0, 3, [], false⟩, ⟨1, 3, 4, 0, 3, [], false⟩, ⟨2, 3, 4, 0, 3, [], false⟩,
    ⟨0, 4, 2, 0, 3, [], false⟩, ⟨1, 4, 2, 0, 3, [], false⟩, ⟨2, 4, 2, 0, 3, [], false⟩, ⟨3, 4, 2, 0, 3, [], false⟩]
  linkTimes := []
  wires := []
  streams := []
  txns := []
  retired := []
  enumGen := 0
  fuses := ⟨1, (List.range 32).map (fun i => 4 * i + 3), 4⟩
  offline := []
  now := 0
  fresh := 0
  agenda := []

end Sys2Proof.Machine
end

