-- ==== Sys2Proof/Machine/Ops.lean ====
section
/-! DEFINITION. The named operations over cells, registers, control flow, memories, translation, the L1, the trap ring and traps (spec chapters 01, 02, 05, 10, 14, 16). -/

namespace Sys2Proof.Machine

/-! ### Topology (R10 to R14) -/

/-- Whether a physical cell position holds a live cell (R11). -/
def liveCell (f : Fuses) (p : Nat) : Bool :=
  if f.grade = 3 then p / 64 ≠ 3 && p / 64 ≠ 7 else !f.disabled.contains p

/-- The physical positions of the logical cells, in order (R12). -/
def liveCells (f : Fuses) : List Nat := (List.range 512).filter (liveCell f)

/-- The logical number of a physical stack domain, 0 to 7 (R12, R14). -/
def logicalStack (f : Fuses) (pd : Nat) : Nat := if f.grade = 3 && 3 ≤ pd then pd - 1 else pd

/-- The number of live stack domains (R1). -/
def liveStacks (f : Fuses) : Nat := if f.grade = 3 then 6 else 8

/-- The physical stack domain of a logical one, and its die. -/
def physStack (f : Fuses) (n : Nat) : Nat := if f.grade = 3 && 3 ≤ n then n + 1 else n
def stackDie (f : Fuses) (n : Nat) : Nat := physStack f n / 2

/-- The capacity of a stack in bytes (R1). -/
def stackBytes (f : Fuses) : Nat := if f.grade = 2 then 48 * 2 ^ 30 else 64 * 2 ^ 30

/-- Where the compute-capable region of each stack begins (R223). -/
def reserveStart (f : Fuses) : Nat := stackBytes f - f.ccReserve * 2 ^ 30

/-- A cell at power-on, with its place from the fuses. -/
def idleCell (f : Fuses) (id : Nat) : Cell :=
  let p := (liveCells f).getD id 0
  let stack := logicalStack f (p / 64)
  let sector := stack * 4 + p / 16 % 4
  Cell.idle id (sector * 4 + p / 4 % 4) sector stack (p / 128) (p % 4)

/-! ### Cells -/

/-- Puts a cell into the list, which is sorted by number. -/
def insertCell (c : Cell) : List Cell → List Cell
  | [] => [c]
  | d :: rest => if c.id < d.id then c :: d :: rest else if c.id = d.id then c :: rest else d :: insertCell c rest

def State.cell (s : State) (id : Nat) : Cell :=
  if s.cpu.id = id then s.cpu
  else
    match s.cells.find? (fun c => c.id == id) with
    | some c => c
    | none => idleCell s.fuses id

def State.setCell (s : State) (c : Cell) : State :=
  if s.cpu.id = c.id then { s with cpu := c } else { s with cells := insertCell c s.cells }

def State.updCell (s : State) (id : Nat) (f : Cell → Cell) : State := s.setCell (f (s.cell id))

/-- Makes a cell the one that acts. -/
def State.focus (s : State) (id : Nat) : State :=
  if s.cpu.id = id then s
  else
    let c := s.cell id
    { s with cpu := c, cells := insertCell s.cpu (s.cells.filter (fun d => d.id != id)) }

/-- A change to the cell that acts. -/
def State.upd (s : State) (f : Cell → Cell) : State := { s with cpu := f s.cpu }

/-- Every cell that is not at its power-on contents. -/
def State.allCells (s : State) : List Cell := s.cpu :: s.cells

def State.context (s : State) (id : Nat) : Option Context := s.contexts.find? (fun c => c.id == id)

def State.updContext (s : State) (id : Nat) (f : Context → Context) : State :=
  { s with contexts := s.contexts.map (fun c => if c.id = id then f c else c) }

/-- A value the manual leaves open, and the state that has used it up (DESIGN CHOICE, assumption log 14). -/
def State.free (s : State) : Word × State := (Config.freeValue s.fresh, { s with fresh := s.fresh + 1 })

/-! ### Registers (R47, R353) -/

def Cell.bank (c : Cell) : Vector Word 32 := if c.handler then c.hx else c.x

/-- `X(n)` of R47 in the bank of the mode. -/
def Cell.rx (c : Cell) (n : BitVec 5) : Word := if n = 0 then 0 else c.bank[n.toNat]'(n.isLt)

/-- A scalar register of the bank of the mode, among all (R353). -/
def Cell.xRes (c : Cell) (n : Nat) : Res := .x (if c.handler then n + 32 else n)

/-- A register written whole is no longer poisoned (R412; DEDUCED, assumption log 45). -/
def Cell.heal (c : Cell) (r : Res) : List Res := c.poison.filter (fun q => q != r)

/-- `SetX(n, v)` of R47; writes to x0 are discarded. -/
def Cell.wx (c : Cell) (n : BitVec 5) (v : Word) : Cell :=
  if n = 0 then c
  else if c.handler then { c with hx := c.hx.set n.toNat v n.isLt, poison := c.heal (c.xRes n.toNat) }
  else { c with x := c.x.set n.toNat v n.isLt, poison := c.heal (c.xRes n.toNat) }

def State.x (s : State) (n : BitVec 5) : Word := s.cpu.rx n
def State.setX (s : State) (n : BitVec 5) (v : Word) : State := { s with cpu := s.cpu.wx n v }

/-- `V(n)` and its write. -/
def Cell.rv (c : Cell) (n : BitVec 5) : VReg := c.v[n.toNat]'(n.isLt)
def Cell.wv (c : Cell) (n : BitVec 5) (v : VReg) : Cell := { c with v := c.v.set n.toNat v n.isLt }
def State.setV (s : State) (n : BitVec 5) (v : VReg) : State := { s with cpu := s.cpu.wv n v }

/-- The register number `n mod 8` as an index. -/
def mod8 (n : Nat) : Fin 8 := ⟨n % 8, Nat.mod_lt _ (by decide)⟩
def mod16 (n : Nat) : Fin 16 := ⟨n % 16, Nat.mod_lt _ (by decide)⟩

/-- `K(n)` and its write. -/
def Cell.rk (c : Cell) (n : Nat) : BitVec 32 := c.k[mod8 n]
def Cell.wk (c : Cell) (n : Nat) (v : BitVec 32) : Cell := { c with k := c.k.set (mod8 n) v }

/-- Tile registers. -/
def Cell.rm (c : Cell) (n : Nat) : Tile := c.m[mod8 n]
def Cell.wm (c : Cell) (n : Nat) (t : Tile) : Cell := { c with m := c.m.set (mod8 n) t }

/-- Row `i` of a tile, and its write. -/
def tileRow (t : Tile) (i : Nat) : VReg := t[i % 32]'(Nat.mod_lt _ (by decide))
def setTileRow (t : Tile) (i : Nat) (r : VReg) : Tile := t.set (i % 32) r (Nat.mod_lt _ (by decide))

/-- An index of a 24-slot accumulator ring. -/
def mod24 (n : Nat) : Fin 24 := ⟨n % 24, Nat.mod_lt _ (by decide)⟩

/-! ### Control flow (R23, R119 to R122) -/

/-- A loop's body holds an address. -/
def Loop.holds (l : Loop) (a : Word) : Bool := l.start ≤ a && a ≤ l.stop

def Cell.rlc (c : Cell) (k : Nat) : Word := c.lc[k % 4]'(Nat.mod_lt _ (by decide))
def Cell.wlc (c : Cell) (k : Nat) (v : Word) : Cell := { c with lc := c.lc.set (k % 4) v (Nat.mod_lt _ (by decide)) }

/-- The sequential flow, a marker's jump or an empty loop reaches `t` (R120): loops that end just before `t` close an
iteration, innermost first; loops that `t` leaves behind end. -/
def reach (t : Word) : List Loop → Cell → Cell
  | [], c => { c with pc := t, loops := [] }
  | l :: rest, c =>
    if t = l.stop + 4 then
      if (c.rlc l.ctr).toNat + 1 < l.n then
        { c.wlc l.ctr (c.rlc l.ctr + 1) with pc := l.start, loops := l :: rest }
      else reach t rest c
    else if l.holds t then { c with pc := t, loops := l :: rest }
    else reach t rest c

/-- A taken branch or jump to `t` (R120): loops whose body does not hold `t` end. -/
def leave (t : Word) : List Loop → Cell → Cell
  | [], c => { c with pc := t, loops := [] }
  | l :: rest, c => if l.holds t then { c with pc := t, loops := l :: rest } else leave t rest c

def Cell.flowTo (c : Cell) (t : Word) : Cell := reach t c.loops c
def Cell.jumpTo (c : Cell) (t : Word) : Cell := leave t c.loops c

/-- The word is done: on to the next one. -/
def State.advance (s : State) : State := { s with cpu := s.cpu.flowTo (s.cpu.pc + 4) }

/-! ### Bytes of the memories -/

/-- The byte at a key; an unlisted key reads as 0 (DESIGN CHOICE, assumption log 5). -/
def readByte : List Host.Cell → Nat → Byte
  | [], _ => 0
  | (a, b) :: rest, k => if a = k then b else if k < a then 0 else readByte rest k

/-- The canonical form: keys strictly rising from `lo` on, no zero byte listed. -/
def sortedFrom : Nat → List Host.Cell → Bool
  | _, [] => true
  | lo, (a, b) :: rest => lo ≤ a && b ≠ 0 && sortedFrom (a + 1) rest

/-- The canonical form of a memory. -/
def Memory.wf (m : List Host.Cell) : Bool := sortedFrom 0 m

/-- Writes a byte, keeping the form. -/
def writeByte : List Host.Cell → Nat → Byte → List Host.Cell
  | [], k, b => if b = 0 then [] else [(k, b)]
  | (a, v) :: rest, k, b =>
    if k < a then (if b = 0 then (a, v) :: rest else (k, b) :: (a, v) :: rest)
    else if k = a then (if b = 0 then rest else (a, b) :: rest)
    else (a, v) :: writeByte rest k b

/-- `n` bytes from `k` up, little-endian, as a number. -/
def readLE (m : List Host.Cell) (k : Nat) : Nat → Nat
  | 0 => 0
  | n + 1 => (readByte m k).toNat + 256 * readLE m (k + 1) n

/-- Writes the low `n` bytes of a number. -/
def writeLE (m : List Host.Cell) (k : Nat) : Nat → Nat → List Host.Cell
  | 0, _ => m
  | n + 1, v => writeLE (writeByte m k (BitVec.ofNat 8 v)) (k + 1) n (v / 256)

/-- A set of numbers as a strictly rising list. -/
def insertNat (k : Nat) : List Nat → List Nat
  | [] => [k]
  | a :: rest => if k < a then k :: a :: rest else if k = a then a :: rest else a :: insertNat k rest
def eraseNat (k : Nat) (l : List Nat) : List Nat := l.filter (fun a => a != k)

/-- The low `n` bytes of a number, least significant first. -/
def leBytes : Nat → Nat → List Byte
  | 0, _ => []
  | n + 1, v => BitVec.ofNat 8 v :: leBytes n (v / 256)

def readBytes (m : List Host.Cell) (k : Nat) : Nat → List Byte
  | 0 => []
  | n + 1 => readByte m k :: readBytes m (k + 1) n

def writeBytes (m : List Host.Cell) (k : Nat) : List Byte → List Host.Cell
  | [] => m
  | b :: rest => writeBytes (writeByte m k b) (k + 1) rest

/-- A number from bytes, least significant first. -/
def ofLE : List Byte → Nat
  | [] => 0
  | b :: rest => b.toNat + 256 * ofLE rest

/-! ### The physical map (R222 to R225) -/

/-- A physical address with the interleave view of the leaf that maps it. -/
structure Place where
  pa : Nat
  il : Bool
  pol : Nat
  deriving DecidableEq, Repr

def isHbm (pa : Nat) : Bool := pa < 2 ^ 39
def isLpddr (pa : Nat) : Bool := 2 ^ 40 ≤ pa && pa < 2 ^ 41
def isSync (pa : Nat) : Bool := 2 ^ 43 ≤ pa && pa < 2 ^ 43 + 4 * 2 ^ 21
def isDevice (pa : Nat) : Bool := 0xF0000000000 ≤ pa && pa < 0xF0000000000 + 2 ^ 24

/-- The DRAM location of an HBM4E byte: its stack domain and offset within the stack (R223). -/
def hbmPlace (f : Fuses) (pa : Nat) (il : Bool) : Nat × Nat :=
  if il then
    let u := pa / 4096
    (u % liveStacks f, u / liveStacks f * 4096 + pa % 4096)
  else (pa / 2 ^ 36 % 8, pa % 2 ^ 36)

/-- The key of a byte in `State.mem`: the domain-view address in HBM4E, the physical address elsewhere (DESIGN CHOICE, assumption log 6). -/
def memKey (f : Fuses) (pa : Nat) (il : Bool) : Nat :=
  if isHbm pa && il then
    let (st, off) := hbmPlace f pa il
    st * 2 ^ 36 + off
  else pa

def State.key (s : State) (p : Place) : Nat := memKey s.fuses p.pa p.il

/-- The die that homes the line of a place: the die of the stack, of the LPDDR6 controller or of the window (R224, R225,
R262). Device registers lie on the hub die. -/
def homeDie (f : Fuses) (p : Place) : Nat :=
  if isHbm p.pa then stackDie f (hbmPlace f p.pa p.il).1
  else if isLpddr p.pa then p.pa / 2 ^ 14 % 4
  else if isSync p.pa then (p.pa - 2 ^ 43) / 2 ^ 21
  else 4

/-- The live sectors of a die, in increasing logical number, of four for each of its live stack domains (R12, R14). -/
def dieSectors (f : Fuses) (die : Nat) : List Nat :=
  ((List.range (liveStacks f)).filter (fun n => stackDie f n == die)).flatMap (fun n => (List.range 4).map (fun i => 4 * n + i))

/-- The home slice of a cacheable line, by the logical number of its sector (R225). -/
def homeSlice (f : Fuses) (p : Place) : Nat :=
  if isHbm p.pa then
    let (st, off) := hbmPlace f p.pa p.il
    let u := off / 4096
    4 * st + (u % 4 ^^^ u / 4 % 4 ^^^ u / 16 % 4)
  else
    let l := dieSectors f (homeDie f p)
    l.getD (p.pa / 2 ^ 16 % 8 % l.length) 0

def State.isOffline (s : State) (die : Nat) : Bool := s.offline.contains die

/-- A byte of HBM4E in the compute-capable region, by key (R223). -/
def inReserve (f : Fuses) (key : Nat) : Bool := isHbm key && reserveStart f ≤ key % 2 ^ 36

/-- Whether the frame of a leaf of size `2 ^ bits` lies in a populated range that its view can reach (R222). -/
def frameOk (f : Fuses) (pa bits : Nat) (il : Bool) (pol : Nat) : Bool :=
  let last := pa + 2 ^ bits - 1
  if isHbm pa then
    isHbm last &&
    (if il then last / 4096 / liveStacks f < reserveStart f / 4096
     else pa / 2 ^ 36 < liveStacks f && pa / 2 ^ 36 = last / 2 ^ 36 && last % 2 ^ 36 < stackBytes f)
  else if isLpddr pa then isLpddr last
  else if isSync pa then isSync last && pol = 2
  else if isDevice pa then isDevice last && pol = 2
  else false

/-! ### Home slices and poison (R225, R308, R412) -/

/-- Two runs of bytes share one. -/
def overlap (a n b m : Nat) : Bool := a < b + m && b < a + n

/-- The 8-byte words that a run of bytes touches. -/
def wordsOf (k n : Nat) : List Nat := (List.range ((k % 8 + n + 7) / 8)).map (fun i => k / 8 + i)

/-- Some byte of the run lies in a poisoned word (R412; DEDUCED, assumption log 17). -/
def poisonedIn (l : List Nat) (k n : Nat) : Bool := (wordsOf k n).any l.contains

/-- A write heals the words that it covers whole. -/
def healed (l : List Nat) (k n : Nat) : List Nat := l.filter (fun w => !(k ≤ 8 * w && 8 * w + 8 ≤ k + n))

/-- Marks the words of a run as poisoned. -/
def poisoned (l : List Nat) (k n : Nat) : List Nat := (wordsOf k n).foldl (fun l w => insertNat w l) l

/-- Other cells lose a reservation on bytes that an agent writes (R280). -/
def dropReservation (k n : Nat) (c : Cell) : Cell :=
  match c.reservation with
  | some r => if overlap r 8 k n then { c with reservation := none } else c
  | none => c

/-- The stack and pseudo-channel of an HBM4E byte, by key: in the compute-capable region by the page's index, below it by the
4 KiB unit (R223, R291). (DEDUCED, assumption log 28) -/
def chanOf (f : Fuses) (key : Nat) : Nat × Nat :=
  let off := key % 2 ^ 36
  (key / 2 ^ 36, (if reserveStart f ≤ off then (off - reserveStart f) / 2 ^ 21 else off / 4096) % 64)

def State.channel (s : State) (p : Nat × Nat) : Option Channel :=
  s.channels.find? (fun c => c.stack == p.1 && c.number == p.2)

/-- A channel written back. -/
def State.setChannel (s : State) (c : Channel) : State :=
  { s with channels := c :: s.channels.filter (fun d => !(d.stack == c.stack && d.number == c.number)) }

/-- An ordinary request for bytes at a key waits: their channel is in all-bank mode (R293), or another agent's request goes first
there (R373). -/
def State.homeWaits (s : State) (key : Nat) : Bool :=
  isHbm key && ((s.channel (chanOf s.fuses key)).any (fun c => c.mode = .allBank || c.barred))

/-- The channel notes that a request of the move under way waits, and since when one waits in all-bank mode (R294). -/
def State.stall (s : State) (key : Nat) : State :=
  match s.channel (chanOf s.fuses key) with
  | some c => s.setChannel { c with
      waitSince := if c.mode = .allBank then some (c.waitSince.getD s.now) else c.waitSince
      noted := true }
  | none => s

/-- A valid barrier object shares bytes with the run (R266, R267): bit 1 of its word 0 tells it by the bytes alone, whichever agent wrote
them. (DESIGN CHOICE, assumption log 76) -/
def State.barrierIn (s : State) (key n : Nat) : Bool :=
  isSync key &&
  (List.range ((key % 32 + n + 31) / 32)).any (fun i => (readByte s.mem ((key / 32 + i) * 32)).getLsbD 1)

/-- A synchronisation engine brings a line into its SRAM, the least recently used one going to the overflow area (R262). -/
def State.syncTouch (s : State) (key : Nat) : State :=
  if !isSync key then s
  else
    let die := (key - 2 ^ 43) / 2 ^ 21
    let r := (s.syncSram.find? (fun x => x.die == die)).getD ⟨die, [], []⟩
    let r := { r with lines := ((key / 128) :: r.lines.filter (fun l => l != key / 128)).take 15360 }
    { s with syncSram := r :: s.syncSram.filter (fun x => x.die != die) }

/-- A write performed at home by cell `who`, or by another agent (R225, R278, R280): the bytes change, reservations of
others are lost, and the waits on these bytes end. -/
def State.homeWrite (s : State) (k : Nat) (bs : List Byte) (who : Option Nat) : State :=
  let n := bs.length
  let drop (c : Cell) : Cell := if who = some c.id then c else dropReservation k n c
  { s with
    mem := writeBytes s.mem k bs
    memPoison := healed s.memPoison k n
    cpu := drop s.cpu
    cells := s.cells.map drop
    waits := s.waits.map (fun w => if w.bytes = 8 && overlap w.key 8 k n then { w with woken := true } else w) }

/-! ### Translation (R226 to R236) -/

/-- What an access needs of a leaf (R227). -/
inductive Access where
  | read | write | amo
  deriving DecidableEq, Repr

def Access.allowed (a : Access) (leaf : Word) : Bool :=
  match a with
  | .read => leaf.getLsbD 1
  | .write => leaf.getLsbD 2
  | .amo => leaf.getLsbD 1 && leaf.getLsbD 2

def Access.writes : Access → Bool
  | .read => false
  | _ => true

/-- The result of a walk: a leaf at a level with the keys of the entries passed, or why there is none: an entry in migration
(R235), or an entry in a channel that serves no ordinary request (R293). -/
inductive Walk where
  | leaf (level : Nat) (key : Nat) (leaf : Word) (path : List Nat)
  | invalid
  | wait
  | stalled (key : Nat)
  | offline (die : Nat)
  deriving DecidableEq, Repr

def leafPol (e : Word) : Nat := (e.extractLsb' 8 2).toNat
def leafFrame (e : Word) : Nat := (e.extractLsb' 12 40).toNat * 4096
def leafIl (e : Word) : Bool := e.getLsbD 11

/-- The cases of R228 on a leaf, and the compute-capable ones. -/
def leafOk (f : Fuses) (level : Nat) (e : Word) : Bool :=
  let bits := 12 + 9 * level
  let pa := leafFrame e
  e.extractLsb' 52 12 = 0 && leafPol e ≠ 3 && level ≤ 2 && pa % 2 ^ bits = 0 &&
  frameOk f pa bits (leafIl e) (leafPol e) &&
  (!e.getLsbD 6 ||
    (!leafIl e && e.getLsbD 5 && e.getLsbD 2 && level = 1 && isHbm pa && reserveStart f ≤ pa % 2 ^ 36))

/-- A page-table walk from the table at physical address `table` (R226, R228, R235, R293). An entry is invalid, too, where it
points to a table outside DRAM, where a pointer carries a bit that R227 says must be zero, and where it would point below level 0
(DESIGN CHOICE, assumption log 51). -/
def walk (s : State) (va : Nat) : Nat → Nat → List Nat → Walk
  | level, table, path =>
    if !(isHbm table || isLpddr table) || !frameOk s.fuses table 12 false 0 then .invalid
    else if s.isOffline (homeDie s.fuses ⟨table, false, 0⟩) then
      .offline (homeDie s.fuses ⟨table, false, 0⟩)
    else
      let key := table + 8 * (va / 2 ^ (12 + 9 * level) % 512)
      let e : Word := BitVec.ofNat 64 (readLE s.mem key 8)
      if s.homeWaits key then .stalled key
      else if !e.getLsbD 0 then (if e.getLsbD 7 && level = 1 then .wait else .invalid)
      else if e.getLsbD 1 || e.getLsbD 2 then
        (if leafOk s.fuses level e then .leaf level key e path else .invalid)
      else
        match level with
        | 0 => .invalid
        | l + 1 => if e &&& 0xFFF0000000000FF6#64 = 0 then walk s va l (leafFrame e) (key :: path) else .invalid

/-- The result of a translation. -/
inductive Xlat where
  | ok (p : Place) (leaf : Word) (s : State)
  | trap (cause : Nat) (lost : Option Nat) (s : State)
  | wait (s : State)
  deriving DecidableEq, Repr

def TlbEntry.covers (e : TlbEntry) (ctx va : Nat) : Bool := e.ctx = ctx && e.base ≤ va && va < e.base + 2 ^ e.bits

/-- The place of an address within a leaf. -/
def placeOf (leaf : Word) (bits va : Nat) : Place := ⟨leafFrame leaf + va % 2 ^ bits, leafIl leaf, leafPol leaf⟩

/-- Two entries translate one page: a TLB holds a page once (R232). -/
def TlbEntry.samePage (a b : TlbEntry) : Bool := a.ctx = b.ctx && a.base = b.base && a.bits = b.bits

/-- The last-level TLB of a die with an entry used or added: at most 16,384 entries, at most 1,536 of 1 GiB, the least recently
used going first (R230, R232). -/
def addLlTlb (l : List (Nat × TlbEntry)) (die : Nat) (e : TlbEntry) : List (Nat × TlbEntry) :=
  let mine := e :: (l.filterMap (fun p => if p.1 = die then some p.2 else none)).filter (fun t => !t.samePage e)
  let big := (mine.filter (fun t => t.bits = 30)).take 1536
  let kept := (mine.filter (fun t => t.bits ≠ 30 || big.contains t)).take 16384
  kept.map (fun t => (die, t)) ++ l.filter (fun p => p.1 != die)

def addTlb (l : List TlbEntry) (e : TlbEntry) : List TlbEntry := (e :: l.filter (fun t => !t.samePage e)).take 64

/-- The entry of a 64 KiB group that the hardware uses for a 4 KiB leaf with c16 set: the leaf itself when the group is
consecutive with equal attributes, else one of the group's entries, by a free value (R229, R7; DESIGN CHOICE, assumption log 14);
of a chosen entry that is no valid leaf, the leaf itself (DESIGN CHOICE, assumption log 68). -/
def groupLeaf (s : State) (key : Nat) (e : Word) : Word × State :=
  let base := key - key % 128
  let entry (i : Nat) : Word := BitVec.ofNat 64 (readLE s.mem (base + 8 * i) 8)
  let attrs (w : Word) : Word := w &&& 0xFFF0000000000FE7#64
  let ok := (List.range 16).all (fun i =>
    attrs (entry i) = attrs e && leafFrame (entry i) = leafFrame (entry 0) + 4096 * i)
  if ok then (e, s)
  else
    let (v, s) := s.free
    let i := v.toNat % 16
    let w := entry i
    -- the access goes to its offset within the 4 KiB frame of the chosen entry
    if w.getLsbD 0 && leafOk s.fuses 0 w then (w, s) else (e, s)

/-- Sets acc on the entries of a walk, and dirty on the leaf of a write, by AMOs at package scope (R228). -/
def markUsed (s : State) (key : Nat) (leaf : Word) (path : List Nat) (w : Bool) : State :=
  let mark (s : State) (k : Nat) (bits : Byte) : State := s.homeWrite k [readByte s.mem k ||| bits] none
  mark (path.foldl (fun s k => mark s k 0x8#8) s) key (leaf.extractLsb' 0 8 ||| if w then 0x18#8 else 0x8#8)

/-- The size of the page of an address, as a power of two: that of the leaf or of the invalid entry that a walk comes to. -/
def pageBits (s : State) (va : Nat) : Nat → Nat → Nat
  | 0, _ => 12
  | l + 1, table =>
    let e : Word := BitVec.ofNat 64 (readLE s.mem (table + 8 * (va / 2 ^ (12 + 9 * (l + 1)) % 512)) 8)
    if e.getLsbD 0 && !e.getLsbD 1 && !e.getLsbD 2 then pageBits s va l (leafFrame e) else 12 + 9 * (l + 1)

/-- The walk of a die for the page of an address, which the misses on that page share (R230): die, context, first address. -/
def State.walkOf (s : State) (ctx die va : Nat) : Nat × Nat × Nat :=
  (die, ctx, va - va % 2 ^ ((s.context ctx).map (fun c => pageBits s va 4 c.root)).getD 12)

/-- A walk that has been taken up on a die and has not found its entry valid yet (R230, R235). -/
def State.stillWalks (s : State) (w : Nat × Nat × Nat) : Bool :=
  match s.context w.2.1 with
  | none => false
  | some c =>
    match walk s w.2.2 4 c.root [] with
    | .wait => true
    | .stalled _ => true
    | _ => false

/-- The walks that hold a walker (R232). -/
def State.walking (s : State) : List (Nat × Nat × Nat) := s.walks.filter s.stillWalks

/-- Each of the 64 walkers of a die is held by another page's walk: the miss waits (R230, R232). -/
def State.walkersBusy (s : State) (w : Nat × Nat × Nat) : Bool :=
  64 ≤ (s.walking.filter (fun x => x.1 == w.1 && x != w)).length

/-- A walk that waits keeps its walker, shared by the misses on its page (R230). -/
def State.keepWalker (s : State) (w : Nat × Nat × Nat) : State :=
  { s with walks := w :: s.walking.filter (fun x => x != w) }

/-- A walk for a cell of die `die`, filling its last-level TLB (R228, R230). In a broken group of 64 KiB (R229) an access whose own entry
is invalid or has no c16 goes through its own entry, and acc and dirty are set on the access's own entry (DESIGN CHOICE, assumption log
68). -/
def walkFor (s : State) (ctx die : Nat) (va : Nat) (a : Access) : Xlat × Option TlbEntry :=
  match s.context ctx with
  | none => (.trap 4 none s, none)
  | some c =>
    let w := s.walkOf ctx die va
    if s.walkersBusy w then (.wait s, none)
    else
    match walk s va 4 c.root [] with
    | .invalid => (.trap 4 none s, none)
    | .wait => (.wait (s.keepWalker w), none)
    | .stalled k => (.wait ((s.keepWalker w).stall k), none)
    | .offline d => (.trap 6 (some d) s, none)
    | .leaf level key e path =>
      let bits := 12 + 9 * level
      let (e', s) := if level = 0 && e.getLsbD 10 then groupLeaf s key e else (e, s)
      if !a.allowed e' then (.trap 5 none s, none)
      else
        let s := markUsed s key e path a.writes
        let e' := e' ||| (if a.writes then 0x18#64 else 0x8#64)
        let t : TlbEntry := ⟨ctx, va - va % 2 ^ bits, bits, e'⟩
        (.ok (placeOf e' bits va) e' { s with llTlb := addLlTlb s.llTlb die t }, some t)

/-- A TLB entry serves an access: it covers the address and, for a write, its dirty bit is set. -/
def TlbEntry.serves (e : TlbEntry) (ctx va : Nat) (a : Access) : Bool :=
  e.covers ctx va && (!a.writes || !a.allowed e.leaf || e.leaf.getLsbD 4)

/-- An access through a migratable, unpinned 2 MiB leaf counts in its page record (R233, R234). -/
def touchPage (s : State) (ctx va : Nat) (leaf : Word) (bits : Nat) : State :=
  if bits = 21 && leaf.getLsbD 7 && !leaf.getLsbD 5 then
    let base := va - va % 2 ^ 21
    let r := (s.pageRecords.find? (fun r => r.ctx == ctx && r.va == base)).getD ⟨ctx, base, 4, 0xFFFFFFFF, 0, 0⟩
    { s with
      pageRecords := { r with last := s.accessClock + 1, accesses := r.accesses + 1 } ::
        s.pageRecords.filter (fun r => !(r.ctx == ctx && r.va == base))
      accessClock := s.accessClock + 1 }
  else s

/-- A hit in the last-level TLB of a die makes the entry its most recently used one (R232). -/
def State.usedLl (s : State) (die : Nat) (e : TlbEntry) : State := { s with llTlb := addLlTlb s.llTlb die e }

/-- Translation for the acting cell (R226, R230): its TLB, the last-level TLB of its die, a walk. (DESIGN CHOICE, assumption log 9) -/
def translate (s : State) (va : Word) (a : Access) : Xlat :=
  let c := s.cpu
  let n := va.toNat
  if va.extractLsb' 54 10 ≠ 0 then .trap 4 none s
  else
    let use (e : TlbEntry) (s : State) : Xlat :=
      let s := s.upd (fun c => { c with tlb := addTlb c.tlb e })
      if a.allowed e.leaf then .ok (placeOf e.leaf e.bits n) e.leaf (touchPage s c.ctx n e.leaf e.bits)
      else .trap 5 none s
    match c.tlb.find? (fun e => e.serves c.ctx n a) with
    | some e => use e s
    | none =>
      match s.llTlb.find? (fun p => p.1 = c.die && p.2.serves c.ctx n a) with
      | some p => use p.2 (s.usedLl c.die p.2)
      | none =>
        match walkFor s c.ctx c.die n a with
        | (.ok p leaf s, some t) =>
          .ok p leaf ((touchPage s c.ctx n leaf t.bits).upd (fun c => { c with tlb := addTlb c.tlb t }))
        | (r, _) => r

/-- Translation with the home check of R225. -/
def translateHome (s : State) (va : Word) (a : Access) : Xlat :=
  match translate s va a with
  | .ok p leaf s =>
    if s.isOffline (homeDie s.fuses p) then .trap 6 (some (homeDie s.fuses p)) s else .ok p leaf s
  | r => r

/-- Translation for a unit of a die that acts for a context, by the last-level TLB and a walk, with the home check (R225,
R230). -/
def translateFor (s : State) (ctx die : Nat) (va : Word) (a : Access) : Xlat :=
  let n := va.toNat
  let home (r : Xlat) : Xlat :=
    match r with
    | .ok p leaf s =>
      if s.isOffline (homeDie s.fuses p) then .trap 6 (some (homeDie s.fuses p)) s else .ok p leaf s
    | r => r
  if va.extractLsb' 54 10 ≠ 0 then .trap 4 none s
  else
    match s.llTlb.find? (fun p => p.1 = die && p.2.serves ctx n a) with
    | some p =>
      let s := s.usedLl die p.2
      if a.allowed p.2.leaf then home (.ok (placeOf p.2.leaf p.2.bits n) p.2.leaf (touchPage s ctx n p.2.leaf p.2.bits))
      else .trap 5 none s
    | none =>
      match walkFor s ctx die n a with
      | (.ok p leaf s, some t) => home (.ok p leaf (touchPage s ctx n leaf t.bits))
      | (r, _) => r

/-! ### Memory of a context, and the records of running graphs (R4, R320) -/

/-- The place of a byte of a context's address space and the leaf that maps it, by a walk without effect. (DESIGN CHOICE, assumption log
23) -/
def State.ctxLeaf (s : State) (ctx : Nat) (va : Word) : Option (Place × Word) :=
  if va.extractLsb' 54 10 ≠ 0 then none
  else
    match s.context ctx with
    | none => none
    | some x =>
      match walk s va.toNat 4 x.root [] with
      | .leaf level _ e _ => some (placeOf e (12 + 9 * level) va.toNat, e)
      | _ => none

/-- The place, and the key. -/
def State.ctxPlace (s : State) (ctx : Nat) (va : Word) : Option Place := (s.ctxLeaf ctx va).map (fun p => p.1)
def State.ctxKey (s : State) (ctx : Nat) (va : Word) : Option Nat := (s.ctxLeaf ctx va).map (fun p => s.key p.1)

/-- The key of a byte that the context may write: wr is set in its leaf (R227). A page that a context shares read-only is no place of its
own for tokens, records or rings (R7). -/
def State.ctxOwnKey (s : State) (ctx : Nat) (va : Word) : Option Nat :=
  (s.ctxLeaf ctx va).bind (fun p => if Access.write.allowed p.2 then some (s.key p.1) else none)

/-- `n` bytes within one page of a context's memory; an address without a translation reads as 0 (DESIGN CHOICE, assumption log 23). -/
def State.ctxRead (s : State) (ctx : Nat) (va : Word) (n : Nat) : Nat :=
  match s.ctxKey ctx va with
  | some k => readLE s.mem k n
  | none => 0

/-- Why an access at an address of a context waits: its page is in migration (R235), or the channel of a byte serves no ordinary
request (R293). -/
inductive Held where
  | no
  | moving
  | channel (key : Nat)
  deriving DecidableEq, Repr

/-- Whether a walk at an address of a context waits, or the channel of its byte. -/
def State.ctxHeld (s : State) (ctx : Nat) (va : Word) : Held :=
  if va.extractLsb' 54 10 ≠ 0 then .no
  else
    match s.context ctx with
    | none => .no
    | some x =>
      match walk s va.toNat 4 x.root [] with
      | .leaf level _ e _ =>
        let k := s.key (placeOf e (12 + 9 * level) va.toNat)
        if s.homeWaits k then .channel k else .no
      | .wait => .moving
      | .stalled k => .channel k
      | _ => .no

/-- A walk at an address of a context waits, or its byte lies in a channel that serves no ordinary request (R235, R293). -/
def State.ctxWaitsAt (s : State) (ctx : Nat) (va : Word) : Bool := s.ctxHeld ctx va ≠ .no

/-- The pages that `n` bytes at an address touch. -/
def pagesFrom (va : Word) (n : Nat) : List Word :=
  (List.range ((va.toNat % 4096 + n + 4095) / 4096)).map (fun i => BitVec.ofNat 64 (va.toNat - va.toNat % 4096 + 4096 * i))

/-- An access of the graph engine or the firmware to `n` bytes of a context's memory waits (R235, R293). -/
def State.ctxWaits (s : State) (ctx : Nat) (va : Word) (n : Nat) : Bool := (pagesFrom va n).any (s.ctxWaitsAt ctx)

/-- It notes at their channels the requests that wait there (R294). -/
def State.ctxStall (s : State) (ctx : Nat) (va : Word) (n : Nat) : State :=
  (pagesFrom va n).foldl (fun s a =>
    match s.ctxHeld ctx a with
    | .channel k => s.stall k
    | _ => s) s

/-- The extent of a graph record: its header, arrays and cone bitmap (R320). -/
def State.recordBytes (s : State) (g : Graph) : Nat :=
  let f (o n : Nat) : Nat := s.ctxRead g.ctx (g.va + BitVec.ofNat 64 o) n
  max (max 64 (f 16 4 + 128 * f 6 2)) (max (f 20 4 + 64 * f 8 2) (f 24 4 + (f 6 2 + 7) / 8))

/-- A key lies in the record of a graph that runs, all of whose fields are read-only meanwhile: a write is ignored (R4, R320). -/
def State.recordHolds (s : State) (k : Nat) : Bool :=
  s.graphs.any (fun g =>
    let st := s.ctxRead g.ctx (g.va + 12) 1
    (st = 1 || st = 4) &&
    (List.range (((g.va.toNat % 4096) + s.recordBytes g + 4095) / 4096)).any (fun i =>
      let page := g.va.toNat - g.va.toNat % 4096 + 4096 * i
      match s.ctxKey g.ctx (BitVec.ofNat 64 page) with
      | none => false
      | some b => b ≤ k && k < b + 4096 && g.va.toNat ≤ page + (k - b) && page + (k - b) < g.va.toNat + s.recordBytes g))

/-- The bytes of a write by software, a copy engine, a rill unit, a reduction, a host or a peer, as they land: those in the record of a
running graph stay (R4, R320). -/
def State.landing (s : State) (k : Nat) (bs : List Byte) : List Byte :=
  if s.graphs.isEmpty then bs else bs.mapIdx (fun i b => if s.recordHolds (k + i) then readByte s.mem (k + i) else b)

/-- `n` bits from `o` up. -/
def byteMask (o n : Nat) : BitVec 128 := BitVec.ofNat 128 ((2 ^ n - 1) * 2 ^ o)

/-- Bytes of a 128-byte line, those of a mask, land at home: a poisoned 8-byte word that they cover whole is healed (R304, R412). -/
def State.landLine (s : State) (k : Nat) (mask : BitVec 128) (data : VReg) (who : Option Nat) : State :=
  let put (s : State) (i n : Nat) : State :=
    s.homeWrite (k + i) (s.landing (k + i) (leBytes n (data.extractLsb' (8 * i) 64).toNat)) who
  (List.range 16).foldl (fun s w =>
    if mask &&& byteMask (8 * w) 8 = byteMask (8 * w) 8 then put s (8 * w) 8
    else (List.range 8).foldl (fun s j => if mask.getLsbD (8 * w + j) then put s (8 * w + j) 1 else s) s) s

/-! ### The L1 (R308, R309; DESIGN CHOICE, assumption log 8) -/

/-- The tag of a place's line: the L1 is physically tagged (R237), and the two views have different addresses. -/
def Place.line (p : Place) : Nat := p.pa / 128 + (if p.il && isHbm p.pa then 2 ^ 60 else 0)

/-- The key of the first byte of a tagged line. -/
def lineKey (f : Fuses) (no : Nat) : Nat := memKey f (no % 2 ^ 60 * 128) (2 ^ 60 ≤ no)

/-- Every bit of a byte mask widened to a byte, for the lowest `n` bytes. -/
def spreadTo (m : BitVec 128) : Nat → VReg
  | 0 => 0
  | n + 1 => spreadTo m n ||| (if m.getLsbD n then (0xFF#1024 <<< (8 * n)) else 0)

def spread (m : BitVec 128) : VReg := spreadTo m 128

def findLine (l : List L1Line) (no : Nat) : Option L1Line := l.find? (fun x => x.no == no)

/-- A line moved or added to the front. -/
def putLine (l : List L1Line) (x : L1Line) : List L1Line := x :: l.filter (fun y => y.no != x.no)

/-- The bytes of a line that are not poisoned at home. -/
def cleanBytes (poison : List Nat) (k : Nat) : BitVec 128 :=
  (List.range 16).foldl (fun m i => if poison.contains (k / 8 + i) then m else m ||| byteMask (8 * i) 8) 0

/-- The bytes of the 32-byte sectors that a set of bytes covers whole. -/
def wholeSectors (m : BitVec 128) : BitVec 128 :=
  (List.range 4).foldl (fun a i => if m &&& byteMask (32 * i) 32 = byteMask (32 * i) 32 then a ||| byteMask (32 * i) 32 else a) 0

/-- The bytes that a line serves: its whole sectors and its dirty bytes. What else is left of a sector is fetched again with it, so that
no read is a mix of two fetches of one sector (R238). -/
def L1Line.serves (x : L1Line) : BitVec 128 := wholeSectors x.present ||| x.dirty

/-- A line with every sector that misses a byte fetched from home, under the cell's own dirty bytes: a sector is never a mix
of two fetches (R238). -/
def fillLine (s : State) (x : L1Line) : L1Line :=
  let k := lineKey s.fuses x.no
  let home : VReg := BitVec.ofNat 1024 (readLE s.mem k 128)
  let kept := x.serves
  let keep := spread kept
  { x with data := (x.data &&& keep) ||| (home &&& ~~~keep), present := kept ||| cleanBytes s.memPoison k }

/-- `n` bytes of a line from offset `o`. -/
def lineBytes (d : VReg) (o n : Nat) : Nat := d.toNat / 2 ^ (8 * o) % 2 ^ (8 * n)

/-- The bytes of a write of `n` bytes, within its line, that are not in the record of a running graph (R4, R320). -/
def State.storeMask (s : State) (p : Place) (n : Nat) : BitVec 128 :=
  let o := p.pa % 128
  if s.graphs.isEmpty then byteMask o n
  else (List.range n).foldl (fun m i => if s.recordHolds (s.key p + i) then m else m ||| byteMask (o + i) 1) 0

/-- A weak write performed in the L1 of the acting cell (R309), at place `seq` of program order. (DESIGN CHOICE, assumption log 8) -/
def State.l1Store (s : State) (p : Place) (n v seq : Nat) : State :=
  let o := p.pa % 128
  let x := (findLine s.cpu.l1 p.line).getD ⟨p.line, 0, 0, 0, 0⟩
  let m := s.storeMask p n
  let d : VReg := BitVec.ofNat 1024 (v % 2 ^ (8 * n) * 2 ^ (8 * o))
  let x := { x with
    data := (x.data &&& ~~~(spread m)) ||| (d &&& spread m)
    present := x.present ||| m
    dirty := x.dirty ||| m
    seq := if x.dirty = 0 then seq else max x.seq seq }
  s.upd (fun c => { c with l1 := putLine c.l1 x })

/-- Writes the dirty bytes of one line of the acting cell home; the line stays, clean. -/
def State.writeBack (s : State) (no : Nat) : State :=
  match findLine s.cpu.l1 no with
  | none => s
  | some x =>
    let s := s.landLine (lineKey s.fuses x.no) x.dirty x.data (some s.cpu.id)
    s.upd (fun c => { c with l1 := c.l1.map (fun y => if y.no = no then { y with dirty := 0 } else y) })

/-- Drops the bytes of a run from the acting cell's L1 after writing its dirty bytes home: a strong access or an AMO
takes effect at home in program order with the cell's own weak accesses (R98, R310). -/
def State.selfFlush (s : State) (p : Place) (n : Nat) : State :=
  if p.pol ≠ 0 then s
  else
    let s := s.writeBack p.line
    let m := ~~~(byteMask (p.pa % 128) n)
    s.upd (fun c => { c with l1 := c.l1.map (fun y => if y.no = p.line then { y with present := y.present &&& m } else y) })

/-- `Release` of R308 at codes 1 to 5: every dirty byte of the cell's L1 goes home. -/
def State.release (s : State) (scope : Nat) : State :=
  if scope = 0 then s else (s.cpu.l1.map (fun x => x.no)).foldl State.writeBack s

/-- Some dirty byte of the cell cannot be written home yet (R293). -/
def State.releaseWaits (s : State) (scope : Nat) : Bool :=
  scope ≠ 0 && s.cpu.l1.any (fun x => x.dirty != 0 && s.homeWaits (lineKey s.fuses x.no))

/-- The write-backs that wait are noted at their channels (R294). -/
def State.stallRelease (s : State) : State :=
  (s.cpu.l1.filter (fun x => x.dirty != 0 && s.homeWaits (lineKey s.fuses x.no))).foldl
    (fun s x => s.stall (lineKey s.fuses x.no)) s

/-- Every line of a cell's L1 is invalidated; bytes not yet published are kept (R308). -/
def Cell.acquired (c : Cell) : Cell :=
  { c with l1 := (c.l1.filter (fun x => x.dirty != 0)).map (fun x => { x with present := x.dirty }) }

/-- `Acquire` of R308 at codes 1 to 5. -/
def State.acquire (s : State) (scope : Nat) : State := if scope = 0 then s else s.upd Cell.acquired

/-- Drops from the acting cell's L1 its clean copies of `n` bytes at key `k` (R277). -/
def State.acquireBytes (s : State) (k n : Nat) : State :=
  s.upd (fun c => { c with l1 := c.l1.map (fun x =>
    let b := lineKey s.fuses x.no
    let m := (List.range 128).foldl (fun m i => if k ≤ b + i && b + i < k + n then m else m ||| byteMask i 1) (0 : BitVec 128)
    { x with present := x.present &&& (m ||| x.dirty) }) })

/-! ### Records of the trap ring (R368 to R370) -/

/-- The 64 bytes of a record: type, cause, source, timestamp, pc or node, tval or address, then the rest, zero-filled. -/
def record (typ cause src time pc tval : Nat) (tail : List Byte) : List Byte :=
  (leBytes 2 typ ++ leBytes 2 cause ++ leBytes 4 src ++ leBytes 8 time ++ leBytes 8 pc ++ leBytes 8 tval ++ tail ++
    List.replicate 32 0).take 64

/-- Fields of the ring header at `base` (R369). -/
def ringProd (s : State) (base : Nat) : Nat := readLE s.mem base 4
def ringCons (s : State) (base : Nat) : Nat := readLE s.mem (base + 4) 4
def ringLost (s : State) (base : Nat) : Nat := readLE s.mem (base + 8) 4

/-- The size of the ring at `base`, as the firmware set it: a program that forges the header's size reaches no byte outside its
own ring (R7, R369). -/
def ringN (s : State) (base : Nat) : Nat := ((s.contexts.find? (fun c => c.ringBase == base)).map (fun c => c.ringSize)).getD 6
def ringFlags (s : State) (base : Nat) : Byte := readByte s.mem (base + 13)

/-- The ring is full (R369). A consumer count beyond prod leaves the contents unspecified under R7; the ring then counts
as full. -/
def ringFull (s : State) (base : Nat) : Bool :=
  2 ^ ringN s base ≤ (ringProd s base + 2 ^ 32 - ringCons s base) % 2 ^ 32

/-- A channel that the next records of the ring at `base` would access serves no ordinary request (R293): that of the header, of the next
record, or of the one after it. -/
def ringHeldAt (s : State) (base : Nat) : Option Nat :=
  let place (k : Nat) : Nat := base + 64 + 64 * (k % 2 ^ ringN s base)
  if s.homeWaits base then some base
  else [place (ringProd s base), place (ringProd s base + 1)].find? s.homeWaits

/-- A wake event for the cells, running or pre-empted, of which `p` holds: it ends a waiting WFI or is pending (R372). -/
def State.wakeWhere (s : State) (p : Cell → Bool) : State :=
  let wake (c : Cell) : Cell := if (c.running || c.preempted) && p c then { c with wake := true } else c
  { s with cpu := wake s.cpu, cells := s.cells.map wake, saved := s.saved.map wake }

/-- Wakes the cells of a context (R372). -/
def State.wakeCtx (s : State) (ctx : Nat) : State := s.wakeWhere (fun c => c.ctx = ctx)

/-- Writes a record into a ring that has room, then advances prod (R369). -/
def writeRecord (s : State) (ctx base : Nat) (bs : List Byte) : State :=
  let k := ringProd s base
  let s := s.homeWrite (base + 64 + 64 * (k % 2 ^ ringN s base)) bs none
  (s.homeWrite base (leBytes 4 ((k + 1) % 2 ^ 32)) none).wakeCtx ctx

/-- The type-8 record of R370: the records dropped since the last one. -/
def lostRecord (s : State) (n : Nat) : List Byte := record 8 0 0 s.now 0 0 (leBytes 4 n)

/-- Records dropped in a context's ring since its last type-8 record. -/
def droppedOf (s : State) (ctx : Nat) : Nat := ((s.dropped.find? (fun p => p.1 == ctx)).getD (0, 0)).2

def setDropped (s : State) (ctx n : Nat) : State :=
  { s with dropped := (if n = 0 then [] else [(ctx, n)]) ++ s.dropped.filter (fun p => p.1 != ctx) }

/-- After a drop, a type-8 record goes before any other, once there is room (R370). -/
def flushLost (s : State) (ctx base : Nat) : State :=
  if droppedOf s ctx = 0 || ringFull s base then s
  else setDropped (writeRecord s ctx base (lostRecord s (droppedOf s ctx))) ctx 0

/-- Holds a record. -/
def State.hold (s : State) (ctx producer unit : Nat) (bs : List Byte) : State :=
  { s with held := s.held ++ [⟨ctx, producer, unit, bs⟩] }

/-- Posts a record, or holds it until space returns (R370) or the ring's channel serves it (R293). -/
def State.post (s : State) (ctx producer unit : Nat) (bs : List Byte) : State :=
  match s.context ctx with
  | none => s
  | some c =>
    match ringHeldAt s c.ringBase with
    | some k => (s.stall k).hold ctx producer unit bs
    | none =>
      let s := flushLost s ctx c.ringBase
      if ringFull s c.ringBase || s.held.any (fun h => h.ctx == ctx) then s.hold ctx producer unit bs
      else writeRecord s ctx c.ringBase bs

/-- A record is dropped and counted (R370). -/
def dropRecord (s : State) (ctx base : Nat) : State :=
  let lost := min (2 ^ 32 - 1) (ringLost s base + 1)
  setDropped (s.homeWrite (base + 8) (leBytes 4 lost) none) ctx (droppedOf s ctx + 1)

/-- Posts a record of a unit that cannot stall: with the ring full it is dropped and counted (R370); while the ring's channel serves no
ordinary request the record waits there as one, and the unit goes on (R293). -/
def State.postOrDrop (s : State) (ctx : Nat) (bs : List Byte) : State :=
  match s.context ctx with
  | none => s
  | some c =>
    match ringHeldAt s c.ringBase with
    | some k => (s.stall k).hold ctx 6 0 bs
    | none =>
      let s := flushLost s ctx c.ringBase
      if ringFull s c.ringBase then dropRecord s ctx c.ringBase else writeRecord s ctx c.ringBase bs

/-- The unit waits for space in a ring (R370). -/
def State.stalled (s : State) (producer unit : Nat) : Bool :=
  s.held.any (fun h => h.producer == producer && h.unit == unit)

/-! ### Traps (R353 to R365) -/

/-- Every member of the acting cell's team stops and the firing faults (R346). The graph engine then acts on the note
(R347, FIRING_FAULT). -/
def State.faultNode (s : State) (cause : Nat) (tval : Word) (lost : Option Nat) : State :=
  let c := s.cpu
  let stop (d : Cell) : Cell := if d.firing = c.firing && d.running then { d with running := false } else d
  { s with
    faults := s.faults ++ [⟨c.firing, c.id, cause, tval, lost⟩]
    cpu := stop s.cpu
    cells := s.cells.map stop }

/-- The wait records of a cell are reclaimed (R264). -/
def State.dropWaits (s : State) (cell : Nat) : State :=
  { s with
    waits := s.waits.filter (fun w => w.cell != cell)
    syncSram := s.syncSram.map (fun r => { r with records := r.records.filter (fun c => c != cell) }) }

/-- The cell leaves every wait, the order of a bank, and a hand-over whose slots it has not yet claimed: the waiting word then has
had no effect (R114, R168, R276, R278, R302). -/
def State.leaveWaits (s : State) (cell : Nat) : State :=
  let s := (s.updCell cell (fun c => { c with nbBegun := false })).dropWaits cell
  { s with
    copyWaits := s.copyWaits.filter (fun w => w.cell != some cell)
    channels := s.channels.map (fun h => { h with
      banks := h.banks.map (fun k => { k with queue := k.queue.filter (fun x => !(x.read && x.cell == cell)) }) })
    rings := s.rings.map (fun u => { u with
      waiters := u.waiters.filter (fun w => w.2 != cell)
      handovers := u.handovers.filter (fun h => h.claimed || h.claimer != cell) }) }

/-- The common end of a trap (R354): the saved registers, the loops with their counters (R122), then the handler or the fault.
`addr` and `word` are those of the trapping word. -/
def State.enterTrap (s : State) (cause : Nat) (tval epc addr : Word) (word : BitVec 32) (lost : Option Nat) : State :=
  let wasHandler := s.cpu.handler
  let s := (s.leaveWaits s.cpu.id).upd (fun c => { c with
    tcause := BitVec.ofNat 64 cause
    tval := tval
    tepc := epc
    hwLost := lost
    reservation := none
    savedHold := if c.handler then c.savedHold else c.hold.map (fun h => (c.pc, h))
    hold := none
    savedLoops := if c.handler then c.savedLoops else c.loops
    savedLc := if c.handler then c.savedLc else c.lc
    loops := []
    asleep := false })
  if wasHandler || s.cpu.thandler = 0 then
    let r := record 1 cause s.cpu.id s.now addr.toNat tval.toNat (leBytes 4 word.toNat ++ leBytes 4 epc.toNat)
    (s.post s.cpu.ctx 0 s.cpu.id r).faultNode cause tval lost
  else s.upd (fun c => { c with handler := true, pc := c.thandler })

/-- The commands not completed go to the replay queue, that at place `i` marked trapped (R354). They keep granted holds;
their requests that still wait are withdrawn (R360). -/
def State.capturePending (s : State) (i : Option Nat) : State :=
  let waits (d : Cmd) : Bool := d.hold.any (fun id => s.holdReqs.any (fun q => q.id == id))
  let gone := (s.cpu.pending.filter waits).filterMap (fun d => d.hold)
  let s := { s with holdReqs := s.holdReqs.filter (fun q => !gone.contains q.id) }
  s.upd (fun c => { c with
    replay := c.pending.mapIdx (fun j d => { d with
      trapped := i == some j, started := false, ranges := [], kept := [], hold := if waits d then none else d.hold })
    pending := [] })

/-- Taking a precise trap on the word at the front end (R354): older commands go to the replay queue, none marked, and
tepc is the word's own address. -/
def State.trap (s : State) (cause : Nat) (tval : Word) (lost : Option Nat := none) : State :=
  let s := if s.cpu.handler then s else s.capturePending none
  s.enterTrap cause tval s.cpu.pc s.cpu.pc s.cpu.word lost

/-- Taking a precise trap on a forwarded command (R354), the `i`-th of those not completed: its entry is marked, and tepc
is the resume address, the oldest word not done at the front end. -/
def State.trapCmd (s : State) (i : Nat) (cause : Nat) (tval : Word) (lost : Option Nat := none) : State :=
  match s.cpu.pending[i]? with
  | none => s
  | some w =>
    let s := if s.cpu.handler then s else s.capturePending (some i)
    s.enterTrap cause tval s.cpu.pc w.pc w.word lost

/-- A control transfer of the front end to `t` (R23): a misaligned target traps on the word and writes nothing. -/
def State.transfer (s : State) (t : Word) (s' : State) : State :=
  if t.extractLsb' 0 2 ≠ 0 then s.trap 3 t else s'.upd (fun c => c.jumpTo t)

end Sys2Proof.Machine
end

