-- ==== Sys2Proof/Machine/Enumeration.lean ====
section
/-! DEFINITION. The bytes of the enumeration table in the device-register range (R15 to R20). -/

namespace Sys2Proof.Machine

/-- Kinds of unit in `State.retired` (R426): 0 cell, 1 L2 slice, 2 stack, 3 copy engine, 4 LPDDR6 package. -/
def State.isRetired (s : State) (kind number : Nat) : Bool := s.retired.contains (kind, number)

/-- The status of a unit: retirement is permanent and goes first; then offline by its die (R16). -/
def unitStatus (s : State) (kind number die : Nat) : Nat :=
  if s.isRetired kind number then 1 else if s.isOffline die then 2 else 0

/-- The 64 bits of the entry of logical cell `i` (R16). -/
def cellEntry (s : State) (i : Nat) : Nat :=
  let c := idleCell s.fuses i
  let p := (liveCells s.fuses).getD i 0
  i + c.cluster * 2 ^ 16 + c.sector * 2 ^ 23 + c.stack * 2 ^ 28 + c.die * 2 ^ 32 + p / 64 % 2 * 2 ^ 34 +
    p / 16 % 4 * 2 ^ 35 + p / 4 % 4 * 2 ^ 37 + p % 4 * 2 ^ 39 + unitStatus s 0 i c.die * 2 ^ 62

/-- The shared form of R17. -/
def unitEntry (s : State) (kind number die position size extra : Nat) : Nat :=
  number + die * 2 ^ 16 + position * 2 ^ 19 + size * 2 ^ 24 + extra * 2 ^ 32 + unitStatus s kind number die * 2 ^ 62

def sliceEntry (s : State) (i : Nat) : Nat :=
  let pd := physStack s.fuses (i / 4)
  unitEntry s 1 i (pd / 2) (pd % 2 * 4 + i % 4) 16 (i / 4)
def stackEntry (s : State) (i : Nat) : Nat :=
  let pd := physStack s.fuses i
  unitEntry s 2 i (pd / 2) (pd % 2) (stackBytes s.fuses / 2 ^ 30) s.fuses.ccReserve
def copyEntry (s : State) (i : Nat) : Nat := unitEntry s 3 i (i / 16) (i % 16) 0 0
/-- Each of the four packages of a die has a controller of its own, at its channel 0: the manual gives no map (DESIGN CHOICE,
assumption log 53). -/
def lpddrEntry (s : State) (i : Nat) : Nat := unitEntry s 4 i (i / 4) (4 * (i % 4)) 64 0

/-- The 64 bits of a link entry (R18). -/
def linkEntry (s : State) (i : Nat) : Nat :=
  match s.links[i]? with
  | none => 0
  | some l => l.a + l.b * 8 + l.fitted * 64 + l.trained * 512 + l.state * 4096

/-- The link between two dies is Active. -/
def linkActive (s : State) (i j : Nat) : Bool :=
  s.links.any (fun l => l.a == min i j && l.b == max i j && l.state == 0)

/-- The latency class from die `i` to die `j` (R19, R21, R22). -/
def latencyClass (s : State) (i j : Nat) : Nat :=
  if i = j then 0
  else if i = 4 || j = 4 then 3
  else if i + j = 3 then 2
  else if linkActive s i j then 1 else 2

/-- Counts of entries. -/
def sectorCount (f : Fuses) : Nat := liveStacks f * 4
def clusterCount (f : Fuses) : Nat := liveStacks f * 16

/-- Offsets of the arrays (R15): cells, slices, stacks, copy engines, LPDDR6 packages, links, latency matrix, end. -/
def tableOffsets (f : Fuses) : List Nat :=
  let cells := (liveCells f).length
  let o1 := 64 + 8 * cells
  let o2 := o1 + 8 * sectorCount f
  let o3 := o2 + 8 * liveStacks f
  let o4 := o3 + 8 * 64
  let o5 := o4 + 8 * 16
  let o6 := o5 + 8 * 8
  [64, o1, o2, o3, o4, o5, o6, o6 + 25]

/-- The header (R15). -/
def tableHeader (s : State) : List Byte :=
  let f := s.fuses
  let o := tableOffsets f
  leBytes 4 0x34534E45 ++ leBytes 2 1 ++ leBytes 2 64 ++ leBytes 8 s.enumGen ++ leBytes 4 (o.getD 7 0) ++
  leBytes 1 f.grade ++ leBytes 1 (liveStacks f) ++ leBytes 2 0 ++ leBytes 2 (liveCells f).length ++
  leBytes 2 (clusterCount f) ++ leBytes 2 (sectorCount f) ++ leBytes 2 (liveStacks f) ++ leBytes 2 64 ++ leBytes 2 16 ++
  leBytes 4 8 ++ leBytes 4 (o.getD 0 0) ++ leBytes 4 (o.getD 1 0) ++ leBytes 4 (o.getD 2 0) ++ leBytes 4 (o.getD 3 0) ++
  leBytes 4 (o.getD 4 0) ++ leBytes 4 (o.getD 5 0)

/-- Byte `o` of the table, if it lies in the bytes in use. -/
def tableByte (s : State) (o : Nat) : Option Byte :=
  let t := tableOffsets s.fuses
  let pick (base : Nat) (entry : Nat → Nat) : Option Byte :=
    some (BitVec.ofNat 8 (entry ((o - base) / 8) / 2 ^ (8 * ((o - base) % 8))))
  if o < 64 then (tableHeader s)[o]?
  else if o < t.getD 1 0 then pick 64 (cellEntry s)
  else if o < t.getD 2 0 then pick (t.getD 1 0) (sliceEntry s)
  else if o < t.getD 3 0 then pick (t.getD 2 0) (stackEntry s)
  else if o < t.getD 4 0 then pick (t.getD 3 0) (copyEntry s)
  else if o < t.getD 5 0 then pick (t.getD 4 0) (lpddrEntry s)
  else if o < t.getD 6 0 then pick (t.getD 5 0) (linkEntry s)
  else if o < t.getD 7 0 then
    let i := o - t.getD 6 0
    some (BitVec.ofNat 8 (latencyClass s (i / 5) (i % 5)))
  else none

/-- The physical address of the table (R15). -/
def tableBase : Nat := 0xF0000400000

/-- `n` bytes of the device-register range. Outside the table the manual gives no contents: a free value (DESIGN CHOICE, assumption log 14). -/
def deviceRead (s : State) (pa : Nat) : Nat → Nat × State
  | 0 => (0, s)
  | n + 1 =>
    let (b, s) := match (if tableBase ≤ pa then tableByte s (pa - tableBase) else none) with
      | some b => (b.toNat, s)
      | none =>
        let (w, s) := s.free
        (w.toNat % 256, s)
    let (rest, s) := deviceRead s (pa + 1) n
    (b + 256 * rest, s)

end Sys2Proof.Machine
end

