-- ==== Sys2Proof/Machine/Operands.lean ====
section
/-! DEFINITION. Operand forms: scratchpad pairs and views (R47, R155), the window check (R153), the registers, ranges and bytes that a command touches (R97, R98, R102), and how a word is issued: role filter, allotment, busy registers, queues (R48, R95 to R104). -/

namespace Sys2Proof.Machine

/-! ### Scratchpad bytes (R151, R156) -/

/-- The key of a scratchpad offset of a cluster; offsets wrap modulo 4 MiB. -/
def spKey (cluster off : Nat) : Nat := cluster * 2 ^ 22 + off % 2 ^ 22

/-- `n` bytes at an offset of the acting cell's cluster, little-endian. -/
def State.spRead (s : State) (off n : Nat) : Nat := readLE s.sp (spKey s.cpu.cluster off) n
def State.spWrite (s : State) (off n v : Nat) : State :=
  { s with
    sp := writeLE s.sp (spKey s.cpu.cluster off) n v
    spPoison := healed s.spPoison (spKey s.cpu.cluster off) n }

/-- A line of 128 bytes. -/
def State.spLine (s : State) (off : Nat) : VReg := BitVec.ofNat 1024 (s.spRead off 128)
def State.setSpLine (s : State) (off : Nat) (r : VReg) : State := s.spWrite off 128 r.toNat

/-- The number of the line of an offset, over all clusters. -/
def spLineNo (cluster off : Nat) : Nat := spKey cluster off / 128

/-- A read of the line waits (R156). -/
def State.spWaits (s : State) (off : Nat) : Bool := s.spEmpty.contains (spLineNo s.cpu.cluster off)

def State.spBad (s : State) (off n : Nat) : Bool := poisonedIn s.spPoison (spKey s.cpu.cluster off) n

/-- The first offset of `n` bytes from `off` that lies outside the node's window (R153). -/
def Cell.outside (c : Cell) (off n : Nat) : Option Nat :=
  let bad (o : Nat) : Bool := !(c.winBase ≤ o && o < c.winBase + c.winSize)
  if n = 0 then none
  else if bad (off % 2 ^ 22) then some (off % 2 ^ 22)
  else
    let last := (off + n - 1) % 2 ^ 22
    if off % 2 ^ 22 ≤ last && !bad last then none
    else if off % 2 ^ 22 ≤ last then some (c.winBase + c.winSize)
    else if c.winBase = 0 && c.winSize = 2 ^ 22 then none
    else if c.winBase + c.winSize < 2 ^ 22 then some (c.winBase + c.winSize) else some 0

/-- The first offending offset of a list of runs, in order. -/
def Cell.outsideAny (c : Cell) : List (Nat × Nat) → Option Nat
  | [] => none
  | (o, n) :: rest =>
    match c.outside o n with
    | some b => some b
    | none => c.outsideAny rest

/-! ### Pairs and views (R47, R155, R359) -/

/-- A scratchpad pair (R47). -/
structure Pair where
  base : Nat
  row : Nat
  tile : Nat
  rot : Nat
  deriving DecidableEq, Repr

/-- `SpPair(n)`: none when a reserved bit is set. -/
def Cell.spPair (c : Cell) (n : BitVec 5) : Option Pair :=
  let a := c.rx n
  let b := c.rx (n + 1)
  if a.extractLsb' 38 26 ≠ 0 ∨ b.extractLsb' 26 38 ≠ 0 then none
  else some ⟨(a.extractLsb' 0 22).toNat, (a.extractLsb' 22 16).toNat, (b.extractLsb' 0 22).toNat, (b.extractLsb' 22 4).toNat⟩

/-- The compact pair of R359. -/
def Pair.compact (p : Pair) : Word :=
  BitVec.ofNat 64 (p.base + p.row * 2 ^ 22 + p.tile * 2 ^ 38 + p.rot * 2 ^ 60)
def Pair.ofCompact (w : Word) : Pair :=
  ⟨(w.extractLsb' 0 22).toNat, (w.extractLsb' 22 16).toNat, (w.extractLsb' 38 22).toNat, (w.extractLsb' 60 4).toNat⟩

/-- `SpRow(i)` of R155 for loop value `l`, before it wraps and as it is. -/
def Pair.rawRow (p : Pair) (l i : Nat) : Nat := p.base + p.tile * l + p.row * i + 128 * (p.rot * i % 32)
def Pair.spRow (p : Pair) (l i : Nat) : Nat := p.rawRow l i % 2 ^ 22

/-- The alignment rule of R155. -/
def Pair.aligned (p : Pair) : Bool := p.base % 128 = 0 && p.row % 128 = 0 && p.tile % 128 = 0

/-- The rows of a view as runs of 128 bytes, from row 0; offsets have not wrapped yet, for the ranges of R102. -/
def Pair.rows (p : Pair) (l : Nat) : List (Nat × Nat) := (List.range 32).map (fun i => (p.rawRow l i, 128))

/-- The loop value L of R86: the counter that ftsel selects while its loop is active, else 0. -/
def Cell.loopValue (c : Cell) : Nat :=
  let k := (c.ftsel.extractLsb' 0 2).toNat
  if c.loops.any (fun l => l.ctr == k) then (c.rlc k).toNat else 0

/-- ftbase as program order leaves it: an `mqctl.ftb` still in the queue counts, unless a later write of the CSR has
superseded it (R87, R193). -/
def Cell.ftbaseNow (c : Cell) : Word :=
  c.pending.foldl (fun v d => match d.instr with
    | .mqctlFtb .. => if d.aux = 0 then d.op0 else v
    | _ => v) c.ftbase

/-- A write of ftbase by the front end, which every command already queued precedes (R87). -/
def Cell.setFtbase (c : Cell) (v : Word) : Cell :=
  { c with
    ftbase := v
    pending := c.pending.map (fun d => match d.instr with
      | .mqctlFtb .. => { d with aux := 1 }
      | _ => d) }

/-- The format-table entry that a matrix instruction uses (R86). -/
def Cell.ftEntry (c : Cell) : Word :=
  c.ft[(c.ftbaseNow.toNat + c.loopValue) % 64]'(Nat.mod_lt _ (by decide))

/-! ### Ranges (R102 to R104) -/

/-- The smallest run of lines that covers some runs of bytes, whose offsets have not wrapped yet; one that would pass the end is
the whole scratchpad (R102). -/
def rangeOf (write : Bool) (runs : List (Nat × Nat)) : Range :=
  match runs with
  | [] => ⟨32768, 0, write⟩
  | r :: _ =>
    let lo := runs.foldl (fun a r => min a (r.1 / 128)) (r.1 / 128)
    let hi := runs.foldl (fun a r => max a ((r.1 + r.2 - 1) / 128)) 0
    if lo / 32768 = hi / 32768 then ⟨lo % 32768, hi + 1 - lo, write⟩ else ⟨0, 32768, write⟩

/-- Two ranges order their commands (R103): they overlap and one of them is a write. -/
def Range.conflicts (a b : Range) : Bool :=
  (a.write || b.write) && overlap a.line a.count b.line b.count

def rangesConflict (a b : List Range) : Bool := a.any (fun x => b.any x.conflicts)

/-- A front-end word with these ranges waits for the commands of its cell (R104). -/
def Cell.rangesBusy (c : Cell) (rs : List Range) : Bool := c.pending.any (fun d => rangesConflict d.ranges rs)

/-! ### Registers that a command reads and writes (R97) -/

/-- Rows of an accumulate code: 1, 4 or 8 (R179). -/
def nCode (n : BitVec 2) : Nat := if n = 0 then 1 else if n = 1 then 4 else 8

/-- A mask of the masked bit: k0, and the old lanes of the destination. -/
def maskRead (m : BitVec 1) (d : Res) : List Res := if m = 1 then [.k 0, d] else []

/-- A tile operand with its companion (R181). -/
def tileRead (sp : BitVec 1) (a : BitVec 5) : List Res := if sp = 1 then [] else [.m (a.toNat % 8), .m ((a.toNat + 1) % 8)]

def vregRun (d : BitVec 5) (n : Nat) : List Res := (List.range n).map (fun i => .v (d.toNat + i))

/-- The slots of ring indexes `i` to `i + n − 1` of a ring of size `S`. -/
def slotRun (size i n : Nat) : List Res := (List.range n).map (fun j => .acc ((i + j) % 2 ^ 32 % size))

/-- The ring index that a slot offset names: H − 1 − o, with H at issue (R175). -/
def Cmd.slotAt (d : Cmd) (o : BitVec 4) : Nat := (d.idx + 2 ^ 32 - 1 - o.toNat) % 2 ^ 32

/-- What a command reads and what it writes. -/
def Cmd.uses (size : Nat) (d : Cmd) : List Res × List Res :=
  match d.instr with
  | .vadd m b a t _ | .vsub m b a t _ | .vmul m b a t _ | .vmulh m b a t _ | .vand m b a t _ | .vor m b a t _
  | .vxor m b a t _ | .vsll m b a t _ | .vsrl m b a t _ | .vsra m b a t _ | .vmin m b a t _ | .vmax m b a t _
  | .vminu m b a t _ | .vmaxu m b a t _ | .vfadd m b a t _ | .vfsub m b a t _ | .vfmul m b a t _ | .vfmin m b a t _
  | .vfmax m b a t _ | .vperm m b a t _ | .vsmaxfin m b a t _ =>
    ([.v a.toNat, .v b.toNat] ++ maskRead m (.v t.toNat), [.v t.toNat])
  | .vfma m b a t _ => ([.v a.toNat, .v b.toNat, .v t.toNat] ++ maskRead m (.v t.toNat), [.v t.toNat])
  | .vaddx m _ a t _ | .vfmulx m _ a t _ | .vfaddx m _ a t _ | .vslide m _ a t _ | .vcvtif m _ a t _ | .vcvtfi m _ a t _
  | .vfexp2 m a t _ | .vfrcp m a t _ | .vfrsqrt m a t _ | .vflog2 m a t _ | .vredsum m a t _ | .vredsumI32 m a t _
  | .vredmax m a t _ | .vredmaxI32 m a t _ | .vredmin m a t _ | .vredminI32 m a t _ =>
    ([.v a.toNat] ++ maskRead m (.v t.toNat), [.v t.toNat])
  | .viota m _ _ t _ | .vmvxv m _ t _ => (maskRead m (.v t.toNat), [.v t.toNat])
  | .vcmpeq m b a t _ | .vcmplt m b a t _ | .vcmpltu m b a t _ | .vfcmpeq m b a t _ | .vfcmplt m b a t _ =>
    ([.v a.toNat, .v b.toNat] ++ maskRead m (.k t.toNat), [.k t.toNat])
  | .kopAnd b a t _ | .kopOr b a t _ | .kopXor b a t _ | .kopAndn b a t _ => ([.k a.toNat, .k b.toNat], [.k t.toNat])
  | .kpop a t _ | .kpopFirst a t _ => ([.k a.toNat], [.x t.toNat])
  | .vsel b a t _ => ([.v a.toNat, .v b.toNat, .k 0], [.v t.toNat])
  | .vcvtn m f a t _ | .vcvtw m f a t _ => ([.v a.toNat, .fm f.toNat] ++ maskRead m (.v t.toNat), [.v t.toNat])
  | .vcompress a t _ => ([.v a.toNat, .k 0], [.v t.toNat])
  | .vmvvx _ a t _ => ([.v a.toNat], [.x t.toNat])
  | .vsmaxacc m b a t _ => ([.v a.toNat, .v b.toNat] ++ maskRead m (.v t.toNat), [.v t.toNat, .v a.toNat])
  | .vsortkv b a t _ => ([.v a.toNat, .v b.toNat], [.v t.toNat, .v b.toNat])
  | .vseghead a t _ => ([.v a.toNat], [.k t.toNat])
  | .vsppack _ a t _ => ([.v a.toNat], [.v t.toNat])
  | .vldm _ _ t _ | .vlds _ _ t _ => ([], [.v t.toNat])
  | .vstm _ _ t _ | .vsts _ _ t _ => ([.v t.toNat], [])
  | .vldx b _ t _ => ([.v b.toNat, .v t.toNat], [.v t.toNat])
  | .vstx b _ t _ => ([.v b.toNat, .v t.toNat], [])
  | .nbrd _ _ t _ => ([], vregRun t ((d.op1.extractLsb' 6 1).toNat + 1))
  | .tld _ t _ => ([], [.m t.toNat])
  | .tst _ t _ => ([.m t.toNat], [])
  | .redaF32add b _ _ | .redaBf16add b _ _ | .redaI32add b _ _ | .redaF32max b _ _ | .redaF32min b _ _
  | .redaI32max b _ _ | .redaI32min b _ _ => ([.v b.toNat], [])
  | .mma b a x y o _ | .mmaAcc b a x y o _ | .mmaNeg b a x y o _ | .mmas b a x y o _ | .mmasAcc b a x y o _
  | .mmasNeg b a x y o _ => (tileRead x a ++ tileRead y b, slotRun size (d.slotAt o) 1)
  | .accz n _ => ([], slotRun size d.idx (n.toNat + 1))
  | .accscl v o _ => ([.v v.toNat], slotRun size (d.slotAt o) 1)
  | .accsclX _ o _ => ([], slotRun size (d.slotAt o) 1)
  | .accrd n _ t o _ | .accrdCol n _ t o _ => (slotRun size (d.slotAt o) 1, vregRun t (nCode n))
  | .accwr n _ t o _ | .accwrCol n _ t o _ => (vregRun t (nCode n), slotRun size (d.slotAt o) 1)
  | .epi _ a x _ =>
    let n := (d.op1.extractLsb' 49 5).toNat + 1
    (slotRun size d.tix n, if x = 1 then [] else (List.range n).map (fun j => .m ((a.toNat + j) % 8)))
  | .fwctlQuery h _ _ => ([], [.x h.toNat])
  | .fwctlNew h _ _ _ => ([], [.x h.toNat])
  | .fwsnapSnap h _ _ | .fwsnapFork h _ _ => ([], [.x h.toNat])
  | _ => ([], [])

def Cmd.reads (size : Nat) (d : Cmd) : List Res := (d.uses size).1
def Cmd.writes (size : Nat) (d : Cmd) : List Res := (d.uses size).2

def meets (a b : List Res) : Bool := a.any b.contains

/-- A later command depends on an earlier one through a register or slot (R97, R178). -/
def Cmd.blocks (size : Nat) (old d : Cmd) : Bool :=
  meets (old.writes size) (d.reads size ++ d.writes size) || meets (old.reads size) (d.writes size)

/-- Some command not completed writes one of these registers, which is therefore busy (R97). -/
def Cell.busy (c : Cell) (rs : List Res) : Bool := c.pending.any (fun d => meets (d.writes c.accS) rs)

/-- Some command not completed reads or writes one of these registers. -/
def Cell.inUse (c : Cell) (rs : List Res) : Bool :=
  c.pending.any (fun d => meets (d.writes c.accS ++ d.reads c.accS) rs)

/-- The scalar registers of the bank are free for a front-end word that reads or writes them. -/
def Cell.ready (c : Cell) (regs : List (BitVec 5)) : Bool := !c.busy (regs.map (fun r => .x r.toNat))

/-! ### Main memory that a command touches (R98) -/

/-- The key that an address translates to now, without any effect. -/
def State.peek (s : State) (va : Word) : Option Nat :=
  let c := s.cpu
  let n := va.toNat
  if va.extractLsb' 54 10 ≠ 0 then none
  else
    match c.tlb.find? (fun e => e.covers c.ctx n) with
    | some e => some (s.key (placeOf e.leaf e.bits n))
    | none =>
      match s.llTlb.find? (fun p => p.1 = c.die && p.2.covers c.ctx n) with
      | some p => some (s.key (placeOf p.2.leaf p.2.bits n))
      | none =>
        match s.context c.ctx with
        | none => none
        | some x =>
          match walk s n 4 x.root [] with
          | .leaf level _ e _ => some (s.key (placeOf e (12 + 9 * level) n))
          | _ => none

/-- The address of lane `i` of vldm and vstm, and the stride (R239). -/
def strideOf (b : BitVec 5) (op1 : Word) : Word := if b = 0 then 4 else op1
def laneAddr (base stride : Word) (i : Nat) : Word := base + BitVec.ofNat 64 i * stride

/-- The address of lane `i` of vldx and vstx; an offset of 0x8000_0000 makes the lane inactive (R239). -/
def indexedAddr (base : Word) (offs : VReg) (i : Nat) : Option Word :=
  let o := lane offs i
  if o = 0x80000000#32 then none else some (base + sext64 o)

/-- The addresses of main memory that a command has still to touch, and the bytes at each. -/
def Cmd.addrs (c : Cell) (d : Cmd) : List Word × Nat :=
  match d.instr with
  | .vldm b _ _ _ | .vstm b _ _ _ => ((List.range 32).map (laneAddr d.op0 (strideOf b d.op1)), 4)
  | .vldx b _ _ _ | .vstx b _ _ _ => (((List.range 32).drop d.progress).filterMap (indexedAddr d.op0 (c.rv b)), 4)
  | .redaF32add _ _ _ | .redaBf16add _ _ _ | .redaI32add _ _ _ | .redaF32max _ _ _ | .redaF32min _ _ _
  | .redaI32max _ _ _ | .redaI32min _ _ _ => ([d.op0], 128)
  | _ => ([], 0)

/-- The three queues of R95 that share the vector sequence (R100). -/
def Queue.isVector : Queue → Bool
  | .load | .arith | .store => true
  | _ => false

/-- A command that is older than place `seq` of the vector sequence. -/
def Cmd.before (seq : Nat) (d : Cmd) : Bool := if d.queue.isVector then d.vseq < seq else d.vseq ≤ seq

/-- The offsets of an indexed access are still to be written by an older command, so that its bytes are not known yet. -/
def Cmd.unplaced (c : Cell) (d : Cmd) : Bool :=
  match d.instr with
  | .vldx b _ _ _ | .vstx b _ _ _ => c.pending.any (fun o => o.before d.vseq && (o.writes c.accS).contains (.v b.toNat))
  | _ => false

/-- An earlier command of the cell touches some of `n` bytes at `key` (R98): two reads take effect in program order too. A command whose
bytes are not known yet may touch any. -/
def Cmd.overlaps (s : State) (d : Cmd) (key n : Nat) : Bool :=
  let (as, m) := d.addrs s.cpu
  d.unplaced s.cpu || as.any (fun a => match s.peek a with
    | some k => overlap k m key n
    | none => s.ctxWaitsAt s.cpu.ctx a)

/-- A front-end access waits for the earlier commands on the same bytes. -/
def State.bytesBusy (s : State) (key n : Nat) : Bool := s.cpu.pending.any (fun d => d.overlaps s key n)

/-- An access of one command overlaps one of an earlier command (R98). -/
def Cmd.memBlocks (s : State) (old d : Cmd) : Bool :=
  let (as, m) := d.addrs s.cpu
  as.any (fun a => match s.peek a with
    | some k => old.overlaps s k m
    | none => s.ctxWaitsAt s.cpu.ctx a && !(old.addrs s.cpu).1.isEmpty)

/-- The command reads main memory or scratchpad. -/
def Cmd.readsMemory (d : Cmd) : Bool :=
  match d.instr with
  | .vldm .. | .vldx .. => true
  | _ => d.ranges.any (fun r => !r.write)

/-- What the command writes is visible to other agents at once: scratchpad bytes, or a row that a reduction changes. -/
def Cmd.publishes (d : Cmd) : Bool :=
  match d.instr with
  | .redaF32add .. | .redaBf16add .. | .redaI32add .. | .redaF32max .. | .redaF32min .. | .redaI32max .. | .redaI32min .. => true
  | _ => d.ranges.any (fun r => r.write)

/-- A read of the cell has not returned: a write that the front end publishes waits (R319, No early writes). -/
def Cell.readsPending (c : Cell) : Bool := c.pending.any Cmd.readsMemory

/-- A read older than a place of the vector sequence has not returned (R319). -/
def Cell.readsBefore (c : Cell) (seq : Nat) : Bool := c.pending.any (fun d => d.readsMemory && d.before seq)

/-- The same, where a captured command counts too: replacement may not publish a write ahead of it (DEDUCED, assumption log 54). -/
def Cell.readsOpen (c : Cell) (seq : Nat) : Bool := c.readsBefore seq || c.replay.any (fun d => d.readsMemory && d.before seq)

/-- The command reads or writes main memory or scratchpad, for the wait of phase and fence (R311): reductions and rill
commands are not covered. -/
def Cmd.touchesMemory (d : Cmd) : Bool :=
  match d.instr with
  | .vldm .. | .vstm .. | .vldx .. | .vstx .. => true
  | .redaF32add .. | .redaBf16add .. | .redaI32add .. | .redaF32max .. | .redaF32min .. | .redaI32max ..
  | .redaI32min .. => false
  | .sprot .. => true
  | _ => !d.ranges.isEmpty

/-- Every earlier command that reads or writes main memory or scratchpad has done so (R99, R311). -/
def Cell.memoryQuiet (c : Cell) : Bool := !c.pending.any Cmd.touchesMemory

/-! ### Issue (R48, R95, R96, R101, R104, R356) -/

/-- The role filter of R25. -/
def Cell.executes (c : Cell) (r : BitVec 3) : Bool := r = 7 || r.toNat = c.role

/-- The lowest register of the list that is not allotted (R130). -/
def Cell.notAllotted (c : Cell) (vs : List Nat) : Option Nat :=
  vs.foldl (fun a n => if n < c.valloc then a else match a with
    | none => some n
    | some m => some (min m n)) none

/-- A front-end word of role `r`: a cell of another role passes over it; a busy register holds it (R97). (DESIGN CHOICE, assumption log 3) -/
def frontWord (r : BitVec 3) (regs : List (BitVec 5)) (s : State) (body : State → Out) : Out :=
  if !s.cpu.executes r then .next s.advance
  else if !s.cpu.ready regs then .next s
  else body s

/-- A front-end word of the RV64 base. -/
def baseWord (regs : List (BitVec 5)) (s : State) (body : State → Out) : Out :=
  if !s.cpu.ready regs then .next s else body s

/-- The word stops with a trap; the outcome is a next state (R354). -/
def trapOut (s : State) (cause : Nat) (tval : Word) : Out := .next (s.trap cause tval)

def Queue.depth : Queue → Nat
  | .load | .arith | .store => 32
  | .matrix => 16
  | .state => 8

/-- The slip depth of a vector queue in vslip (R101). -/
def Cell.slipDepth (c : Cell) : Queue → Nat
  | .load => (c.vslip.extractLsb' 0 6).toNat
  | .arith => (c.vslip.extractLsb' 8 6).toNat
  | .store => (c.vslip.extractLsb' 16 6).toNat
  | _ => 0

/-- What an engine does with a command in one unit of its progress. -/
inductive EngOut where
  /-- The command is complete. -/
  | done (s : State)
  /-- One unit is done, more follow. -/
  | more (d : Cmd) (s : State)
  /-- The command waits. -/
  | blocked (s : State)
  /-- The command traps. -/
  | trap (d : Cmd) (cause : Nat) (tval : Word) (lost : Option Nat) (s : State)

/-- The captured form of a word to forward. -/
structure Issue where
  instr : Instr
  queue : Queue
  op0 : Word := 0
  op1 : Word := 0
  op2 : Word := 0
  aux : Word := 0
  lv : Nat := 0
  ranges : List Range := []
  desc : BitVec 256 := 0
  /-- What the front end changes as it forwards the word (R175). -/
  also : Cell → Cell := id

/-- The queue is full, or 32 commands are not completed (R96, R356). -/
def Cell.queueFull (c : Cell) (q : Queue) : Bool :=
  q.depth ≤ (c.pending.filter (fun d => d.queue = q)).length || 32 ≤ c.pending.length

/-- Range entries in use (R104). -/
def Cell.rangesUsed (c : Cell) : Nat := c.pending.foldl (fun a d => a + d.ranges.length) 0

/-- The command is an epi. -/
def Cmd.isEpi (d : Cmd) : Bool :=
  match d.instr with
  | .epi .. => true
  | _ => false

/-- An epi that has been handed over to the epilogue (R178). -/
def Cmd.inEpilogue (d : Cmd) : Bool := d.isEpi && d.started

/-- The command needs the epilogue too: an epi, or the wait of mqctl for all that is earlier (R193). -/
def Cmd.needsEpilogue (d : Cmd) : Bool :=
  match d.instr with
  | .epi .. | .mqctlWait .. => true
  | _ => false

/-- In its own queue a command waits for the earlier ones; the matrix engine goes on once it has handed an epi over (R178). -/
def Cmd.queuesBehind (old d : Cmd) : Bool := old.queue = d.queue && !(old.inEpilogue && !d.needsEpilogue)

/-- The command at place `i` of the list may start: it heads its queue, slip lets it, no earlier command that is not complete
holds a register, slot, range or byte that it needs (R97, R98, R100, R103, R178), and what it publishes follows the earlier reads
(R319). -/
def State.mayStart (s : State) (i : Nat) : Bool :=
  match s.cpu.pending[i]? with
  | none => false
  | some d =>
    d.started ||
    (s.cpu.pending.take i).all (fun old =>
      !old.queuesBehind d && !old.blocks s.cpu.accS d && !rangesConflict old.ranges d.ranges && !old.memBlocks s d &&
      !(d.publishes && old.readsMemory) &&
      (!(d.queue.isVector && old.queue.isVector) || old.started || d.vseq < old.vseq + d.depth))

/-- The registers that a command reads hold a poisoned word: it traps as it starts (R412). -/
def Cell.readsBad (c : Cell) (d : Cmd) : Bool := meets (d.reads c.accS) c.poison

/-- The poisoned registers after a unit of a command that has written its destinations. -/
def Cell.healed (c : Cell) (d : Cmd) : List Res :=
  c.poison.filter (fun r => !((d.writes c.accS).map (fun q => match q with
    | .x n => c.xRes n
    | q => q)).contains r)

/-- Replaces the command at place `i`. -/
def State.setCmd (s : State) (i : Nat) (d : Cmd) : State :=
  s.upd (fun c => { c with pending := c.pending.set i d })

/-- One unit of the command at place `i`; a command that has not begun and reads a poisoned register traps with 0x12, of which the
manual gives no tval (R412; DESIGN CHOICE, assumption logs 14 and 45). A command counts as started, for slip, from the end of its first
unit: one that its engine has taken up and that waits has not started (R100; DESIGN CHOICE, assumption log 64). -/
def State.runUnit (unit : Cmd → State → EngOut) (i : Nat) (s : State) : State × Bool :=
  match s.cpu.pending[i]? with
  | none => (s, false)
  | some d =>
    if !d.started && s.cpu.readsBad d then
      let (v, s) := s.free
      (s.trapCmd i 0x12 v, false)
    else
      match unit d s with
      | .done s => (s.upd (fun c => { c with pending := c.pending.eraseIdx i, poison := c.healed d }), false)
      | .more d' s => ((s.setCmd i { d' with started := true }).upd (fun c => { c with poison := c.healed d }), true)
      | .blocked s => (s, false)
      | .trap d cause tval lost s => ((s.setCmd i d).trapCmd i cause tval lost, false)

/-- Units until the command completes, waits or traps. -/
def State.drive (unit : Cmd → State → EngOut) (i : Nat) : Nat → State → State
  | 0, s => s
  | fuel + 1, s =>
    match s.runUnit unit i with
    | (s, true) => State.drive unit i fuel s
    | (s, false) => s

/-- More units than any command has. -/
def unitFuel : Nat := 1100

/-- Forwards a command to its queue, past which the front end moves on (R95), unless it needs more range entries than are free
(R104); with `eager` set, an engine takes it up at once when it may (DESIGN CHOICE, assumption log 4). -/
def enqueue (w : Issue) (unit : Cmd → State → EngOut) (s : State) : Out :=
  let c := s.cpu
  if 64 < c.rangesUsed + w.ranges.length then .next s
  else
    let d : Cmd := ⟨w.instr, c.word, c.pc, w.queue, w.op0, w.op1, w.op2, w.aux, c.accH.toNat, c.accT.toNat, w.lv, 0, false, false, c.vseq,
      c.slipDepth w.queue, w.ranges, none, w.desc, []⟩
    let i := c.pending.length
    let s := (s.upd (fun c => { w.also c with
      pending := c.pending ++ [d]
      vseq := if w.queue.isVector then c.vseq + 1 else c.vseq })).advance
    if c.eager && s.mayStart i then .next (s.drive unit i unitFuel) else .next s

/-- A word bound for an engine: role filter, allotment of the vector registers it names, busy scalar registers, room in
its queue (R48, R96, R97, R130). -/
def forwardWord (r : BitVec 3) (vs : List Nat) (regs : List (BitVec 5)) (q : Queue) (s : State)
    (body : State → Out) : Out :=
  if !s.cpu.executes r then .next s.advance
  else
    match s.cpu.notAllotted vs with
    | some n => trapOut s 2 (BitVec.ofNat 64 n)
    | none =>
      if !s.cpu.ready regs then .next s
      else if s.cpu.queueFull q then .next s
      else body s

/-- A format-V word: no checks of its own. -/
def vectorWord (i : Instr) (r : BitVec 3) (vs : List (BitVec 5)) (regs : List (BitVec 5)) (op0 op1 aux : Word)
    (unit : Cmd → State → EngOut) (s : State) : Out :=
  forwardWord r (vs.map BitVec.toNat) regs .arith s
    (enqueue { instr := i, queue := .arith, op0 := op0, op1 := op1, aux := aux } unit)

end Sys2Proof.Machine
end

