-- ==== Sys2Proof/Machine/Team.lean ====
section
/-! DEFINITION. The front end's own words on cell state: CSR instructions (R45, R46), team words (R106 to R122), vgrow and vshrink (R129), fmset and ftset (R91, R92), phase and fence (R311 to R313), the RV64 fences (R44), and the CSR-write events. -/

namespace Sys2Proof.Machine

/-! ### CSRs (R45, R46, R82, R86, R101, R121, R365) -/

/-- Cells bound to a role, and the team index of its first cell (R106). -/
def Cell.roleCount (c : Cell) (q : Nat) : Nat := c.roleCounts.getD q 0
def Cell.roleFirst (c : Cell) (q : Nat) : Nat := (c.roleCounts.take q).foldl (fun a n => a + n) 0

/-- The layout of R107 for a role. -/
def Cell.roleLayout (c : Cell) (q : Nat) : Word :=
  let mine := q == c.role
  let index := if mine then c.tindex - c.roleFirst q else 0
  BitVec.ofNat 64 (q + index * 2 ^ 4 + c.roleCount q * 2 ^ 8 + (if mine then 2 ^ 11 else 0) + c.tindex * 2 ^ 12 +
    c.tsize * 2 ^ 16)

/-- pidx in handler mode is the progress of the trapped entry (R365). -/
def Cell.readPidx (c : Cell) : Word :=
  if c.handler then
    match c.replay.find? (fun d => d.trapped) with
    | some d => BitVec.ofNat 64 d.progress
    | none => 0
  else c.pidx

/-- The step count of a context (R242). -/
def State.stepOf (s : State) (ctx : Nat) : BitVec 32 :=
  match s.context ctx with
  | some c => c.step
  | none => 0

/-- The value of a CSR (R46). -/
def State.csr (s : State) (n : BitVec 12) : Word :=
  let c := s.cpu
  match n.toNat with
  | 0x800 => c.vslip
  | 0x801 => c.vrm
  | 0x802 => c.ftbaseNow
  | 0x803 => c.ftsel
  | 0x804 => c.thandler
  | 0x808 => c.rlc 0
  | 0x809 => c.rlc 1
  | 0x80A => c.rlc 2
  | 0x80B => c.rlc 3
  | 0x810 => c.readPidx
  | 0x811 => c.tcause
  | 0x812 => c.tval
  | 0x813 => c.tepc
  | 0x814 => BitVec.ofNat 64 c.replay.length
  | 0x820 => c.nbstat
  | 0xC10 => BitVec.ofNat 64 c.id
  | 0xC11 => BitVec.ofNat 64 c.cluster
  | 0xC12 => BitVec.ofNat 64 c.sector
  | 0xC13 => BitVec.ofNat 64 c.stack
  | 0xC14 => BitVec.ofNat 64 c.ctx
  | 0xC15 => c.roleLayout c.role
  | 0xC30 => BitVec.ofNat 64 c.valloc
  | 0xC31 => zext64 (s.stepOf c.ctx)
  | k => if 0xC20 ≤ k && k ≤ 0xC2F then c.rel[mod16 k] else 0

/-- A depth of vslip is 1 to 32 (R101). -/
def depthOk (d : BitVec 6) : Bool := 1 ≤ d.toNat && d.toNat ≤ 32

/-- A value that vslip takes (R101). -/
def vslipOk (v : Word) : Bool :=
  depthOk (v.extractLsb' 0 6) && depthOk (v.extractLsb' 8 6) && depthOk (v.extractLsb' 16 6) &&
  v.extractLsb' 6 2 = 0 && v.extractLsb' 14 2 = 0 && v.extractLsb' 22 42 = 0

/-- A value that vrm takes (R82). -/
def vrmOk (v : Word) : Bool := v.extractLsb' 4 60 = 0 && (v.extractLsb' 0 3).toNat ≤ 4

/-- Sets the progress of the trapped entry (R365). -/
def Cell.writePidx (c : Cell) (v : Word) : Cell :=
  if c.handler then
    { c with replay := c.replay.map (fun d => if d.trapped then { d with progress := v.toNat % 2 ^ 16 } else d) }
  else { c with pidx := v }

/-- nbstat after a write of 1s: the W1C bits among them are clear, and last with rej; the other fields are RO (R303, R45). -/
def nbstatCleared (old v : Word) : Word :=
  let w := old &&& ~~~(v &&& 0x3F)
  if v.getLsbD 0 then w &&& ~~~0xFF00#64 else w

/-- A CSR write of a loop counter (R121). In handler mode it also sets the value that trapret gives the task, unless a loop of the
handler owns the counter (R122; DEDUCED, assumption log 55). -/
def Cell.setLc (c : Cell) (k : Nat) (v : Word) : Cell :=
  let c := if c.handler && !c.loops.any (fun l => l.ctr == k) then
      { c with savedLc := c.savedLc.set (k % 4) v (Nat.mod_lt _ (by decide)) } else c
  c.wlc k v

/-- A CSR write (R46); a value that breaks a field rule is discarded as the CSR's chapter states. -/
def Cell.csrWrite (c : Cell) (n : BitVec 12) (v : Word) : Cell :=
  match n.toNat with
  | 0x800 => if vslipOk v then { c with vslip := v } else c
  | 0x801 => if vrmOk v then { c with vrm := v } else c
  | 0x802 => if v.extractLsb' 6 58 = 0 then c.setFtbase v else c
  | 0x803 => if v.extractLsb' 2 62 = 0 then { c with ftsel := v } else c
  | 0x804 => { c with thandler := v }
  | 0x808 => if v.extractLsb' 32 32 = 0 then c.setLc 0 v else c
  | 0x809 => if v.extractLsb' 32 32 = 0 then c.setLc 1 v else c
  | 0x80A => if v.extractLsb' 32 32 = 0 then c.setLc 2 v else c
  | 0x80B => if v.extractLsb' 32 32 = 0 then c.setLc 3 v else c
  | 0x810 => c.writePidx v
  | 0x811 => { c with tcause := v }
  | 0x812 => { c with tval := v }
  | 0x813 => { c with tepc := v }
  | 0x820 => { c with nbstat := nbstatCleared c.nbstat v }
  | _ => c

/-- The three kinds of CSR instruction (R45). -/
inductive CsrOp where
  | write | set | clear
  deriving DecidableEq, Repr

/-- What the instruction writes: nbstat is W1C, whose write clears the 1s of the operand for each kind (R45). -/
def csrNew (op : CsrOp) (n : BitVec 12) (old operand : Word) : Word :=
  if n = 0x820#12 then operand
  else
    match op with
    | .write => operand
    | .set => old ||| operand
    | .clear => old &&& ~~~operand

/-- A CSR instruction: the old value in rd, and the new one written when the instruction writes (R45). -/
def csrInstr (op : CsrOp) (rd : BitVec 5) (n : BitVec 12) (operand : Word) (writes : Bool) (s : State) : Out :=
  let old := s.csr n
  let s := if writes then s.upd (fun c => c.csrWrite n (csrNew op n old operand)) else s
  .next (s.setX rd old).advance

/-- Atomic read and write of a listed CSR; a write to an RO CSR is illegal. (R45) -/
def execCsrrw (rd : BitVec 5) (rs1 : BitVec 5) (csr : BitVec 12) (s : State) : Out :=
  baseWord [rd, rs1] s (fun s => csrInstr .write rd csr (s.x rs1) true s)

/-- Read and set bits of a CSR, writing only when rs1 is not x0. (R45) -/
def execCsrrs (rd : BitVec 5) (rs1 : BitVec 5) (csr : BitVec 12) (s : State) : Out :=
  baseWord [rd, rs1] s (fun s => csrInstr .set rd csr (s.x rs1) (rs1 ≠ 0) s)

/-- Read and clear bits of a CSR, writing only when rs1 is not x0. (R45) -/
def execCsrrc (rd : BitVec 5) (rs1 : BitVec 5) (csr : BitVec 12) (s : State) : Out :=
  baseWord [rd, rs1] s (fun s => csrInstr .clear rd csr (s.x rs1) (rs1 ≠ 0) s)

/-- Read and write a CSR with an immediate. (R45) -/
def execCsrrwi (rd : BitVec 5) (uimm : BitVec 5) (csr : BitVec 12) (s : State) : Out :=
  baseWord [rd] s (csrInstr .write rd csr (zext64 uimm) true)

/-- Read and set CSR bits with an immediate. (R45) -/
def execCsrrsi (rd : BitVec 5) (uimm : BitVec 5) (csr : BitVec 12) (s : State) : Out :=
  baseWord [rd] s (csrInstr .set rd csr (zext64 uimm) (uimm ≠ 0))

/-- Read and clear CSR bits with an immediate. (R45) -/
def execCsrrci (rd : BitVec 5) (uimm : BitVec 5) (csr : BitVec 12) (s : State) : Out :=
  baseWord [rd] s (csrInstr .clear rd csr (zext64 uimm) (uimm ≠ 0))

/-- Write of vslip, discarded if any depth or Zero field is bad. (R101) -/
def execCsrWriteVslip (v : Word) (s : State) : Out :=
  .next (s.upd (fun c => c.csrWrite 0x800 v))

/-- Write of vrm, discarded for reserved modes or nonzero upper bits. (R82) -/
def execCsrWriteVrm (v : Word) (s : State) : Out :=
  .next (s.upd (fun c => c.csrWrite 0x801 v))

/-- Write of ftbase in matrix-queue order, discarded with a nonzero Zero field. (R86) -/
def execCsrWriteFtbase (v : Word) (s : State) : Out :=
  .next (s.upd (fun c => c.csrWrite 0x802 v))

/-- Write of ftsel, discarded with a nonzero Zero field. (R86) -/
def execCsrWriteFtsel (v : Word) (s : State) : Out :=
  .next (s.upd (fun c => c.csrWrite 0x803 v))

/-- In handler mode sets the trapped entry's progress. (R365) -/
def execCsrWritePidx (v : Word) (s : State) : Out :=
  .next (s.upd (fun c => c.csrWrite 0x810 v))

/-- Write-one-to-clear of nbstat bits, clearing last with rej. (R303) -/
def execCsrWriteNbstat (v : Word) (s : State) : Out :=
  .next (s.upd (fun c => c.csrWrite 0x820 v))

/-- Write of a loop counter, setting the iteration that the next close tests. (R121) -/
def execCsrWriteLc (k : BitVec 2) (v : Word) (s : State) : Out :=
  .next (s.upd (fun c => c.csrWrite (0x808#12 + k.setWidth 12) v))

/-- Write of a CSR with no behaviour of its own, such as thandler, tcause, tval or tepc. (R46) -/
def execCsrWrite (csr : BitVec 12) (v : Word) (s : State) : Out :=
  .next (s.upd (fun c => c.csrWrite csr v))

/-! ### Teams, loops, drift -/

/-- Role marker: cells outside the mask jump over the region. (R109) -/
def execRole (m : BitVec 7) (sk : BitVec 8) (s : State) : Out :=
  if m.getLsbD s.cpu.role then .next s.advance
  else .next (s.upd (fun c => c.flowTo (c.pc + 4 + 4 * zext64 sk)))

/-- Returns the binding of a role as seen from the cell. (R108) -/
def execRoleid (a : BitVec 5) (d : BitVec 5) (r : BitVec 3) (s : State) : Out :=
  frontWord r [d, a] s (fun s =>
    if a = 0 then .next (s.setX d (s.cpu.roleLayout s.cpu.role)).advance
    else
      let q := s.x a
      if 6 < q.toNat then trapOut s 1 q
      else .next (s.setX d (s.cpu.roleLayout q.toNat)).advance)

/-- The lowest counter that no active loop owns (R119). -/
def freeCounter (ls : List Loop) : Nat := ((List.range 4).find? (fun k => !ls.any (fun l => l.ctr == k))).getD 0

/-- Starts a counted hardware loop on a free counter. (R119) -/
def execLoop (c : BitVec 5) (e : BitVec 10) (r : BitVec 3) (s : State) : Out :=
  frontWord r [c] s (fun s =>
    let n := s.x c
    let stop := s.cpu.pc + 4 * zext64 e
    if n.extractLsb' 32 32 ≠ 0 then trapOut s 1 n
    else if n = 0 then .next (s.upd (fun c => c.flowTo (stop + 4)))
    else if 4 ≤ s.cpu.loops.length then trapOut s 1 s.cpu.pc
    else if s.cpu.loops.any (fun l => l.stop.toNat < stop.toNat) then trapOut s 1 s.cpu.pc
    else
      let k := freeCounter s.cpu.loops
      .next (s.upd (fun c => { c.wlc k 0 with
        loops := ⟨k, c.pc + 4, stop, n.toNat⟩ :: c.loops
        pc := c.pc + 4 })))

/-- Sets the member's lead allowance and returns the old one. (R118) -/
def execDrift (a : BitVec 5) (d : BitVec 5) (r : BitVec 3) (s : State) : Out :=
  frontWord r [a, d] s (fun s =>
    let v := s.x a
    if 255 < v.toNat then trapOut s 1 v
    else .next ((s.setX d (BitVec.ofNat 64 s.cpu.lead)).upd (fun c => { c with lead := v.toNat })).advance)

/-- The sizes of the residents of one half or pool (R127, R176). -/
def resSum (half : Bool) (l : List (Nat × Bool × Nat)) : Nat :=
  (l.filter (fun e => e.2.1 == half)).foldl (fun a e => a + e.2.2) 0

/-- Residents given up from the least recently run on, until `need` fits within `limit` (R127, R176). -/
def makeRoom (half : Bool) (need limit : Nat) : Nat → List (Nat × Bool × Nat) → List (Nat × Bool × Nat)
  | 0, l => l
  | fuel + 1, l =>
    if resSum half l + need ≤ limit then l
    else
      match ((l.reverse).find? (fun e => e.2.1 == half)) with
      | none => l
      | some e => makeRoom half need limit fuel (l.erase e)

/-- Whether a command names a vector register (R129). -/
def Res.isV : Res → Bool
  | .v _ => true
  | _ => false

def Cmd.namesVector (size : Nat) (d : Cmd) : Bool := (d.reads size ++ d.writes size).any Res.isV

/-- Vector registers `lo` up to `lo + n − 1` set to 0. -/
def zeroRegs (v : Vector VReg 32) (lo n : Nat) : Vector VReg 32 :=
  Vector.ofFn (fun i => if lo ≤ i.val && i.val < lo + n then 0 else v[i.val])

/-- Vector registers that are cleared are no longer poisoned (R412). -/
def Cell.healV (c : Cell) (lo n : Nat) : List Res := c.poison.filter (fun q => !((List.range n).map (fun i => Res.v (lo + i))).contains q)

/-- vgrow and vshrink (R129). -/
def resize (grow : Bool) (a d : BitVec 5) (s : State) : Out :=
  let v := s.x a
  let n := v.toNat
  let old := s.cpu.valloc
  if !(n = 8 || n = 16 || n = 24 || n = 32) then trapOut s 1 v
  else if (grow && n < old) || (!grow && old < n) then trapOut s 1 v
  else if s.cpu.pending.any (Cmd.namesVector s.cpu.accS) then .next s
  else
    let half := s.cpu.cls = 0
    let s := s.upd (fun c =>
      if grow then { c with
        vRes := makeRoom half n 32 33 c.vRes, v := zeroRegs c.v old (n - old), poison := c.healV old (n - old), valloc := n }
      else { c with v := zeroRegs c.v n (old - n), poison := c.healV n (old - n), valloc := n })
    .next (s.setX d (BitVec.ofNat 64 old)).advance

/-- Grows the vector allotment, zeroing the new registers. (R129) -/
def execVgrow (a : BitVec 5) (d : BitVec 5) (r : BitVec 3) (s : State) : Out :=
  frontWord r [a, d] s (resize true a d)

/-- Shrinks the vector allotment, zeroing and releasing registers. (R129) -/
def execVshrink (a : BitVec 5) (d : BitVec 5) (r : BitVec 3) (s : State) : Out :=
  frontWord r [a, d] s (resize false a d)

/-- Writes a decoded descriptor into a format register, once no conversion in the queues names it: R91 and R97 leave open whether the
write waits for them or they keep the old value; either way they use the old one (DESIGN CHOICE, assumption log 59). (R91) -/
def execFmset (a : BitVec 5) (d : BitVec 5) (r : BitVec 3) (s : State) : Out :=
  frontWord r [a] s (fun s =>
    let v := s.x a
    if v.extractLsb' 32 32 ≠ 0 ∨ (decodeDesc (v.extractLsb' 0 32)).isNone then trapOut s 1 v
    else if s.cpu.inUse [.fm (d.toNat % 16)] then .next s
    else .next (s.upd (fun c => { c with
        fm := c.fm.set (mod16 d.toNat) (v.extractLsb' 0 32), poison := c.heal (.fm (d.toNat % 16)) })).advance)

/-- `EntryDecodes` (R85). -/
def entryDecodes (e : Word) : Bool :=
  e.extractLsb' 62 2 = 0 && (decodeCompact (e.extractLsb' 0 20)).isSome && (decodeCompact (e.extractLsb' 20 20)).isSome &&
  (decodeCompact (e.extractLsb' 40 20)).isSome && !(e.extractLsb' 60 2 ≠ 0 && e.extractLsb' 0 20 = 0x30001#20)

/-- Writes one format-table entry in matrix-queue order. (R92) -/
def execFtset (b : BitVec 5) (a : BitVec 5) (r : BitVec 3) (s : State) : Out :=
  frontWord r [a, b] s (fun s =>
    let n := s.x a
    let e := s.x b
    if n.extractLsb' 6 58 ≠ 0 then trapOut s 1 n
    else if !entryDecodes e then trapOut s 1 e
    else .next (s.upd (fun c => { c with ft := c.ft.set (n.toNat % 64) e (Nat.mod_lt _ (by decide)) })).advance)

/-! ### phase and fence (R311 to R313, R116, R44) -/

/-- The nearest roles below and above a role that have bound cells (R116). -/
def roleBelow (c : Cell) : Option Nat := ((List.range c.role).reverse).find? (fun q => c.roleCount q ≠ 0)
def roleAbove (c : Cell) : Option Nat := ((List.range 7).filter (fun q => c.role < q)).find? (fun q => c.roleCount q ≠ 0)

/-- A cell is a neighbour of the acting cell with a count that bounds it: a member of a nearest role whose part of the
node has not completed (R116). -/
def isNeighbour (c d : Cell) : Bool :=
  d.team = c.team && d.firing = c.firing && d.id ≠ c.id && (d.running || d.preempted) && !d.done &&
  (some d.role = roleBelow c || some d.role = roleAbove c)

/-- The member leads some neighbour by more than its allowance (R116). -/
def phaseHeld (s : State) (c : Cell) : Bool :=
  s.allCells.any (fun d => isNeighbour c d && (c.lead : Int) < (c.phaseCount - d.phaseCount).toInt)

/-- The second part of phase: hold, then acquire and go on (R311). -/
def phaseEnd (scope : Nat) (s : State) : Out :=
  if phaseHeld s s.cpu then .next s
  else .next ((s.acquire scope).upd (fun c => { c with hold := none })).advance

/-- Waits for earlier accesses, releases at a scope, advances the phase count, holds under drift, then acquires. (R311) -/
def execPhase (sc : BitVec 3) (d : BitVec 5) (r : BitVec 3) (s : State) : Out :=
  frontWord r [d] s (fun s =>
    match s.cpu.hold with
    | some scope => phaseEnd scope (s.setX d (zext64 s.cpu.phaseCount))
    | none =>
      if !s.cpu.memoryQuiet then .next s
      else if s.releaseWaits sc.toNat then .next s.stallRelease
      else
        let s := (s.release sc.toNat).upd (fun c => { c with phaseCount := c.phaseCount + 1, hold := some sc.toNat })
        phaseEnd sc.toNat (s.setX d (zext64 s.cpu.phaseCount)))

/-- fence of kind 0 (both), 1 (release) or 2 (acquire) at a scope (R312). -/
def fenceAt (scope : Nat) (rel acq : Bool) (s : State) : Out :=
  if !s.cpu.memoryQuiet then .next s
  else if rel && s.releaseWaits scope then .next s.stallRelease
  else
    let s := if rel then s.release scope else s
    let s := if acq then s.acquire scope else s
    .next s.advance

/-- Releases and acquires at a scope without advancing the phase count. (R312) -/
def execFenceBoth (sc : BitVec 3) (r : BitVec 3) (s : State) : Out :=
  frontWord r [] s (fenceAt sc.toNat true true)

/-- Releases at a scope. (R312) -/
def execFenceRel (sc : BitVec 3) (r : BitVec 3) (s : State) : Out :=
  frontWord r [] s (fenceAt sc.toNat true false)

/-- Acquires at a scope. (R312) -/
def execFenceAcq (sc : BitVec 3) (r : BitVec 3) (s : State) : Out :=
  frontWord r [] s (fenceAt sc.toNat false true)

/-- RV64 FENCE acts as fence.package: release and acquire at package scope without advancing the phase count. (R44) -/
def execFence (_rd : BitVec 5) (_rs1 : BitVec 5) (_imm : BitVec 12) (s : State) : Out :=
  fenceAt 4 true true s

/-- Acts as fence.package whatever its fields. (R44) -/
def execFenceTso (_rd : BitVec 5) (_rs1 : BitVec 5) (s : State) : Out :=
  fenceAt 4 true true s

/-- Later fetches see this cell's earlier stores and stores published at package scope. (R44) -/
def execFenceI (_rd : BitVec 5) (_rs1 : BitVec 5) (_imm : BitVec 12) (s : State) : Out :=
  if !s.cpu.memoryQuiet then .next s
  else .next (s.upd (fun c => { c with icache := [] })).advance

/-- A held member resumes when its lead over its slowest neighbour falls to D. (R116) -/
def execPhaseHoldRelease (s : State) : Out :=
  match s.cpu.hold with
  | some scope => phaseEnd scope s
  | none => .next s

end Sys2Proof.Machine
end

