-- ==== Sys2Proof/Machine/Memory.lean ====
section
/-! DEFINITION. Main-memory accesses: RV64 loads and stores, vldm, vstm, vldx, vstx (R239), ldst, stst (R240), hint (R241), stepadv (R242), and the atomics (R279, R280). -/

namespace Sys2Proof.Machine

/-! ### Accesses at a place -/

/-- What an access answers. -/
inductive Got where
  | ok (v : Nat) (s : State)
  | trap (cause : Nat) (lost : Option Nat) (s : State)
  | wait (s : State)
  deriving DecidableEq, Repr

/-- `n` bytes read at home: at the home slice, in memory, in a sync window or among the device registers. -/
def homeRead (s : State) (p : Place) (n : Nat) : Got :=
  let k := s.key p
  if isDevice p.pa then
    let (v, s) := deviceRead s p.pa n
    .ok v s
  else if s.homeWaits k then .wait (s.stall k)
  else if poisonedIn s.memPoison k n then .trap 0x12 none s
  else .ok (readLE s.mem k n) (s.syncTouch k)

/-- A weak read (R309): through the L1 for cached lines, at home for the other policies. -/
def weakRead (s : State) (p : Place) (n : Nat) : Got :=
  if p.pol ≠ 0 || isDevice p.pa then homeRead s p n
  else
    let o := p.pa % 128
    let want := byteMask o n
    let x := (findLine s.cpu.l1 p.line).getD ⟨p.line, 0, 0, 0, 0⟩
    if x.serves &&& want = want then .ok (lineBytes x.data o n) (s.upd (fun c => { c with l1 := putLine c.l1 x }))
    else if s.homeWaits (s.key p) then .wait (s.stall (s.key p))
    else
      let x := fillLine s x
      let s := s.upd (fun c => { c with l1 := putLine c.l1 x })
      if x.present &&& want = want then .ok (lineBytes x.data o n) s else .trap 0x12 none s

/-- A weak read of a cached line served at the home slice without allocating it, under the cell's own dirty bytes (R98, R309). -/
def passRead (s : State) (p : Place) (n : Nat) : Got :=
  let o := p.pa % 128
  let want := byteMask o n
  let x := (findLine s.cpu.l1 p.line).getD ⟨p.line, 0, 0, 0, 0⟩
  if s.homeWaits (s.key p) then .wait (s.stall (s.key p))
  else
    let x := fillLine s { x with present := x.dirty }
    if x.present &&& want = want then .ok (lineBytes x.data o n) s else .trap 0x12 none s

/-- The places a cell may not store to: device registers (R222) and valid barriers (R267). -/
def storeBarred (s : State) (p : Place) (n : Nat) : Bool := isDevice p.pa || s.barrierIn (s.key p) n

/-- A write at home by the acting cell; it does nothing to the record of a running graph (R4, R320). -/
def homePut (s : State) (p : Place) (n v : Nat) : State :=
  (s.homeWrite (s.key p) (s.landing (s.key p) (leBytes n v)) (some s.cpu.id)).syncTouch (s.key p)

/-- The same, where the channel serves it (R293). -/
def homeStore (s : State) (p : Place) (n v : Nat) : Got :=
  if s.homeWaits (s.key p) then .wait (s.stall (s.key p)) else .ok 0 (homePut s p n v)

/-- A weak write (R309) at place `seq` of program order: in the L1 for cached lines, at home for the other policies, after the
older reads (R319). -/
def weakWrite (s : State) (p : Place) (n v seq : Nat) : Got :=
  if p.pol = 0 then .ok 0 (s.l1Store p n v seq)
  else if s.cpu.readsBefore seq then .wait s
  else homeStore s p n v

/-- Dirty bytes of the line of a place, which an access at home would publish, follow a read that has not returned (R319). -/
def Cell.flushesEarly (c : Cell) (p : Place) : Bool :=
  p.pol = 0 && (findLine c.l1 p.line).any (fun x => x.dirty != 0 && c.readsBefore x.seq)

/-- An access performed at home in program order: it waits for older reads where it publishes a write (R319) and for the channel
(R293), before the cell's own bytes go home. -/
def atHome (s : State) (p : Place) (writes : Bool) (go : State → Got) : Got :=
  if (writes && s.cpu.readsPending) || s.cpu.flushesEarly p then .wait s
  else if s.homeWaits (s.key p) then .wait (s.stall (s.key p))
  else go s

/-- A strong read at a scope (R240, R310): at cell scope in the L1, else at home after the cell's own bytes. -/
def strongRead (s : State) (p : Place) (n scope : Nat) : Got :=
  if scope = 0 then weakRead s p n else atHome s p false (fun s => homeRead (s.selfFlush p n) p n)

def strongWrite (s : State) (p : Place) (n v scope : Nat) : Got :=
  if scope = 0 then weakWrite s p n v s.cpu.vseq else atHome s p true (fun s => homeStore (s.selfFlush p n) p n v)

/-- A scalar access of the front end: translate, then wait for earlier commands of the cell on the same bytes (R98), then
act; a trap carries the address. -/
def accessAt (s : State) (va : Word) (n : Nat) (a : Access) (act : State → Place → Got) (k : Nat → State → Out) : Out :=
  if va.toNat % n ≠ 0 then trapOut s 3 va
  else
    match translateHome s va a with
    | .trap c l s => .next (s.trap c va l)
    | .wait s => .next s
    | .ok p _ s =>
      if a.writes && storeBarred s p n then trapOut s 5 va
      else if s.bytesBusy (s.key p) n then .next s
      else
        match act s p with
        | .ok v s => k v s
        | .trap c l s => .next (s.trap c va l)
        | .wait s => .next s

/-- A value of `n` bytes, sign-extended or zero-extended into a word. -/
def extend (signed : Bool) (n v : Nat) : Word :=
  if signed then (BitVec.ofNat (8 * n) v).signExtend 64 else BitVec.ofNat 64 v

/-- A scalar load (R43, R309). -/
def loadWord (rd rs1 : BitVec 5) (imm : BitVec 12) (n : Nat) (signed : Bool) (s : State) : Out :=
  baseWord [rd, rs1] s (fun s =>
    accessAt s (s.x rs1 + sext64 imm) n .read (fun s p => weakRead s p n)
      (fun v s => .next (s.setX rd (extend signed n v)).advance))

/-- A scalar store (R43, R309). -/
def storeWord (rs1 rs2 : BitVec 5) (imm : BitVec 12) (n : Nat) (s : State) : Out :=
  baseWord [rs1, rs2] s (fun s =>
    accessAt s (s.x rs1 + sext64 imm) n .write (fun s p => weakWrite s p n (s.x rs2).toNat s.cpu.vseq) (fun _ s => .next s.advance))

/-- Weak load of a signed byte. (R43) -/
def execLb (rd : BitVec 5) (rs1 : BitVec 5) (imm : BitVec 12) (s : State) : Out :=
  loadWord rd rs1 imm 1 true s

/-- Weak load of a signed halfword; misaligned traps with cause 0x03. (R44) -/
def execLh (rd : BitVec 5) (rs1 : BitVec 5) (imm : BitVec 12) (s : State) : Out :=
  loadWord rd rs1 imm 2 true s

/-- Weak load of a signed word; misaligned traps with cause 0x03. (R44) -/
def execLw (rd : BitVec 5) (rs1 : BitVec 5) (imm : BitVec 12) (s : State) : Out :=
  loadWord rd rs1 imm 4 true s

/-- Weak load of a doubleword; misaligned traps with cause 0x03. (R44) -/
def execLd (rd : BitVec 5) (rs1 : BitVec 5) (imm : BitVec 12) (s : State) : Out :=
  loadWord rd rs1 imm 8 true s

/-- Weak load of an unsigned byte. (R43) -/
def execLbu (rd : BitVec 5) (rs1 : BitVec 5) (imm : BitVec 12) (s : State) : Out :=
  loadWord rd rs1 imm 1 false s

/-- Weak load of an unsigned halfword. (R44) -/
def execLhu (rd : BitVec 5) (rs1 : BitVec 5) (imm : BitVec 12) (s : State) : Out :=
  loadWord rd rs1 imm 2 false s

/-- Weak load of an unsigned word. (R44) -/
def execLwu (rd : BitVec 5) (rs1 : BitVec 5) (imm : BitVec 12) (s : State) : Out :=
  loadWord rd rs1 imm 4 false s

/-- Weak store of a byte, performed in the L1 after the home-offline check. (R309) -/
def execSb (rs1 : BitVec 5) (rs2 : BitVec 5) (imm : BitVec 12) (s : State) : Out :=
  storeWord rs1 rs2 imm 1 s

/-- Weak store of a halfword. (R309) -/
def execSh (rs1 : BitVec 5) (rs2 : BitVec 5) (imm : BitVec 12) (s : State) : Out :=
  storeWord rs1 rs2 imm 2 s

/-- Weak store of a word. (R309) -/
def execSw (rs1 : BitVec 5) (rs2 : BitVec 5) (imm : BitVec 12) (s : State) : Out :=
  storeWord rs1 rs2 imm 4 s

/-- Weak store of a doubleword. (R309) -/
def execSd (rs1 : BitVec 5) (rs2 : BitVec 5) (imm : BitVec 12) (s : State) : Out :=
  storeWord rs1 rs2 imm 8 s

/-- Strong scalar load at a named scope. (R240) -/
def execLdst (z : BitVec 2) (sc : BitVec 3) (a : BitVec 5) (d : BitVec 5) (r : BitVec 3) (s : State) : Out :=
  frontWord r [d, a] s (fun s =>
    let n := 2 ^ z.toNat
    accessAt s (s.x a) n .read (fun s p => strongRead s p n sc.toNat)
      (fun v s => .next (s.setX d (extend true n v)).advance))

/-- Strong scalar store at a named scope. (R240) -/
def execStst (z : BitVec 2) (sc : BitVec 3) (a : BitVec 5) (d : BitVec 5) (r : BitVec 3) (s : State) : Out :=
  frontWord r [d, a] s (fun s =>
    let n := 2 ^ z.toNat
    accessAt s (s.x a) n .write (fun s p => strongWrite s p n (s.x d).toNat sc.toNat) (fun _ s => .next s.advance))

/-! ### Vector memory (R239) -/

/-- Every lane translated, through the coalescer: one lookup per 4 KiB page, by its lowest lane; the first lane that fails traps
(R230, R239). `pages` are the pages looked up so far. -/
def lanePlaces (a : Access) : List Word → List (Nat × Place) → List Place → State →
    Except (Nat × Word × Option Nat × State) (Option (List Place) × State)
  | [], _, acc, s => .ok (some acc.reverse, s)
  | va :: rest, pages, acc, s =>
    match pages.find? (fun q => q.1 == va.toNat / 4096) with
    | some q => lanePlaces a rest pages ({ q.2 with pa := q.2.pa - q.2.pa % 4096 + va.toNat % 4096 } :: acc) s
    | none =>
      match translateHome s va a with
      | .ok p _ s => lanePlaces a rest ((va.toNat / 4096, p) :: pages) (p :: acc) s
      | .trap c l s => .error (c, va, l, s)
      | .wait s => .ok (none, s)

/-- The sector of 32 bytes in which a lane lies. -/
def Place.sector (p : Place) : Nat × Nat := (p.line, p.pa % 128 / 32)

/-- Lane `i` is served at the home slice: the lowest lane of its sector meets a busy bank, so that no sector is a mix (R238, R309).
(DESIGN CHOICE, assumption log 8) -/
def passes (c : Cell) (ps : List Place) (i : Nat) : Bool :=
  match ps[i]? with
  | none => false
  | some p =>
    p.pol = 0 && !isDevice p.pa &&
    c.busyLanes.getLsbD ((ps.findIdx? (fun q => q.sector == p.sector)).getD i)

/-- The lanes read in order; a poisoned lane traps with its address. -/
def readLanes : List (Word × Place × Bool) → List Lane → State → Except (Nat × Word × Option Nat × State) (Option (List Lane) × State)
  | [], acc, s => .ok (some acc.reverse, s)
  | (va, p, pass) :: rest, acc, s =>
    match if pass then passRead s p 4 else weakRead s p 4 with
    | .ok v s => readLanes rest (BitVec.ofNat 32 v :: acc) s
    | .trap c l s => .error (c, va, l, s)
    | .wait s => .ok (none, s)

/-- The next vector load meets its own banks. -/
def State.banksServed (s : State) : State := s.upd (fun c => { c with busyLanes := 0 })

/-- The lanes stored in increasing order, at place `seq` of program order. -/
def writeLanesAt (seq : Nat) : List (Place × Lane) → State → State
  | [], s => s
  | (p, v) :: rest, s => writeLanesAt seq rest (if p.pol = 0 then s.l1Store p 4 v.toNat seq else homePut s p 4 v.toNat)

/-- The stores of a vstm wait, all of them: for an older read (R319), or at a channel, which notes it (R293, R294). -/
def lanesWait (seq : Nat) (ps : List Place) (s : State) : Option State :=
  let out := ps.filter (fun p => p.pol ≠ 0)
  if !out.isEmpty && s.cpu.readsBefore seq then some s
  else (out.find? (fun p => s.homeWaits (s.key p))).map (fun p => s.stall (s.key p))

/-- The alignment checks of vldm and vstm. -/
def strideTrap (base stride : Word) : Option Word :=
  if base.extractLsb' 0 2 ≠ 0 then some base else if stride.extractLsb' 0 2 ≠ 0 then some stride else none

/-- Weak strided load of 32 lanes from virtual memory, translating all lanes first. (R239) -/
def unitVldm (b : BitVec 5) (d : BitVec 5) (w : Cmd) (s : State) : EngOut :=
  let st := strideOf b w.op1
  match strideTrap w.op0 st with
  | some v => .trap w 3 v none s
  | none =>
    let vas := (List.range 32).map (laneAddr w.op0 st)
    match lanePlaces .read vas [] [] s with
    | .error (c, va, l, s) => .trap w c va l s
    | .ok (none, s) => .blocked s
    | .ok (some ps, s) =>
      match readLanes (vas.zip (ps.mapIdx (fun i p => (p, passes s.cpu ps i)))) [] s with
      | .error (c, va, l, s) => .trap w c va l s
      | .ok (none, s) => .blocked s
      | .ok (some vs, s) => .done (s.banksServed.setV d (ofLanes (fun i => vs.getD i 0)))

/-- vldm is forwarded to its queue (R95). -/
def execVldm (b : BitVec 5) (a : BitVec 5) (d : BitVec 5) (r : BitVec 3) (s : State) : Out :=
  forwardWord r [d.toNat] [a, b] .load s
    (enqueue { instr := .vldm b a d r, queue := .load, op0 := s.x a, op1 := s.x b } (unitVldm b d))

/-- Weak strided store of 32 lanes, all lanes checked before any is stored. (R239) -/
def unitVstm (b : BitVec 5) (d : BitVec 5) (w : Cmd) (s : State) : EngOut :=
  let st := strideOf b w.op1
  match strideTrap w.op0 st with
  | some v => .trap w 3 v none s
  | none =>
    let vas := (List.range 32).map (laneAddr w.op0 st)
    match lanePlaces .write vas [] [] s with
    | .error (c, va, l, s) => .trap w c va l s
    | .ok (none, s) => .blocked s
    | .ok (some ps, s) =>
      match (vas.zip ps).find? (fun q => storeBarred s q.2 4) with
      | some q => .trap w 5 q.1 none s
      | none =>
        match lanesWait w.vseq ps s with
        | some s => .blocked s
        | none => .done (writeLanesAt w.vseq (ps.zip ((List.range 32).map (lane (s.cpu.rv d)))) s)

/-- vstm is forwarded to its queue (R95). -/
def execVstm (b : BitVec 5) (a : BitVec 5) (d : BitVec 5) (r : BitVec 3) (s : State) : Out :=
  forwardWord r [d.toNat] [a, b] .store s
    (enqueue { instr := .vstm b a d r, queue := .store, op0 := s.x a, op1 := s.x b } (unitVstm b d))

/-- The number of a 4 KiB page, as a command keeps it. -/
def pageNo (va : Word) : VReg := BitVec.ofNat 1024 (va.toNat / 4096)

/-- A lane on a page that the coalescer has looked up for the command goes by the entry found then, with no further lookup (R230). -/
def foundPlace (s : State) (va : Word) (a : Access) : Option Xlat :=
  (s.cpu.tlb.find? (fun e => e.serves s.cpu.ctx va.toNat a)).map (fun e =>
    let p := placeOf e.leaf e.bits va.toNat
    if !a.allowed e.leaf then .trap 5 none s
    else if s.isOffline (homeDie s.fuses p) then .trap 6 (some (homeDie s.fuses p)) s
    else .ok p e.leaf s)

/-- The lookup of a lane of an indexed access, through the coalescer: one for each 4 KiB page, by its lowest lane (R230, R239). The pages
looked up are kept with the command. -/
def lanePlace (w : Cmd) (va : Word) (a : Access) (s : State) : Xlat :=
  if w.kept.contains (pageNo va) then (foundPlace s va a).getD (translateHome s va a) else translateHome s va a

/-- One lane of an indexed access: its address, checked and translated; `none` for an inactive lane (R239). -/
def indexedLane (w : Cmd) (offs : VReg) (a : Access) (s : State) (act : Cmd → Word → Place → State → EngOut) (skip : EngOut) :
    EngOut :=
  match indexedAddr w.op0 offs w.progress with
  | none => skip
  | some va =>
    if va.extractLsb' 0 2 ≠ 0 then .trap w 3 va none s
    else
      match lanePlace w va a s with
      | .trap c l s => .trap w c va l s
      | .wait s => .blocked s
      | .ok p _ s => act (if w.kept.contains (pageNo va) then w else { w with kept := pageNo va :: w.kept }) va p s

/-- The next lane, or the end after lane 31 (R239: pidx counts the lanes completed). -/
def nextLane (w : Cmd) (s : State) : EngOut :=
  if w.progress + 1 < 32 then .more { w with progress := w.progress + 1 } s else .done s

/-- Weak indexed load, interruptible at lane boundaries. (R239) -/
def unitVldx (b : BitVec 5) (d : BitVec 5) (w : Cmd) (s : State) : EngOut :=
  if 32 ≤ w.progress then .done s
  else
    let served (s : State) : State := if w.progress = 31 then s.banksServed else s
    indexedLane w (s.cpu.rv b) .read s
      (fun w va p s =>
        match if p.pol = 0 && !isDevice p.pa && s.cpu.busyLanes.getLsbD w.progress then passRead s p 4 else weakRead s p 4 with
        | .ok v s => nextLane w ((served s).setV d (setLane (s.cpu.rv d) w.progress (BitVec.ofNat 32 v)))
        | .trap c l s => .trap w c va l s
        | .wait s => .blocked s)
      (nextLane w (served s))

/-- vldx is forwarded to its queue (R95). -/
def execVldx (b : BitVec 5) (a : BitVec 5) (d : BitVec 5) (r : BitVec 3) (s : State) : Out :=
  forwardWord r [d.toNat, b.toNat] [a] .load s
    (enqueue { instr := .vldx b a d r, queue := .load, op0 := s.x a, op1 := 0 } (unitVldx b d))

/-- Weak indexed store, interruptible at lane boundaries. (R239) -/
def unitVstx (b : BitVec 5) (d : BitVec 5) (w : Cmd) (s : State) : EngOut :=
  if 32 ≤ w.progress then .done s
  else
    indexedLane w (s.cpu.rv b) .write s
      (fun w va p s =>
        if storeBarred s p 4 then .trap w 5 va none s
        else
          match weakWrite s p 4 (lane (s.cpu.rv d) w.progress).toNat w.vseq with
          | .ok _ s => nextLane w s
          | .trap c l s => .trap w c va l s
          | .wait s => .blocked s)
      (nextLane w s)

/-- vstx is forwarded to its queue (R95). -/
def execVstx (b : BitVec 5) (a : BitVec 5) (d : BitVec 5) (r : BitVec 3) (s : State) : Out :=
  forwardWord r [d.toNat, b.toNat] [a] .store s
    (enqueue { instr := .vstx b a d r, queue := .store, op0 := s.x a, op1 := 0 } (unitVstx b d))

/-! ### hint and stepadv -/

/-- The migratable, unpinned 2 MiB leaf that maps an address, if there is one (R233, R241). -/
def migratableLeaf (s : State) (ctx : Nat) (va : Word) : Option (Nat × Word) :=
  if va.extractLsb' 54 10 ≠ 0 then none
  else
    match s.context ctx with
    | none => none
    | some c =>
      match walk s va.toNat 4 c.root [] with
      | .leaf 1 key e _ => if e.getLsbD 7 && !e.getLsbD 5 then some (key, e) else none
      | _ => none

/-- The record of a page, created with priority 4 and next-use step 0xFFFF_FFFF (R233). -/
def pageRecord (s : State) (ctx base : Nat) : PageRecord :=
  (s.pageRecords.find? (fun r => r.ctx == ctx && r.va == base)).getD ⟨ctx, base, 4, 0xFFFFFFFF, 0, 0⟩

def setPageRecord (s : State) (r : PageRecord) : State :=
  { s with pageRecords := r :: s.pageRecords.filter (fun q => !(q.ctx == r.ctx && q.va == r.va)) }

/-- Sets the priority and next-use step of a page record. (R241) -/
def execHintLife (b : BitVec 5) (a : BitVec 5) (r : BitVec 3) (s : State) : Out :=
  frontWord r [a, b] s (fun s =>
    let va := s.x a
    let base := va.toNat - va.toNat % 2 ^ 21
    let s := match migratableLeaf s s.cpu.ctx va with
      | none => s
      | some _ => setPageRecord s { pageRecord s s.cpu.ctx base with
          prio := ((s.x b).extractLsb' 0 3).toNat, nextUse := (s.x b).extractLsb' 32 32 }
    .next s.advance)

/-- Brings the line of a place into its home slice, unless the slice stores no data (R413), or holds no copy of the line in a
compute mode of its channel (R293). -/
def State.prefetch (s : State) (p : Place) : State :=
  let k := s.key p
  let slice := homeSlice s.fuses p
  let computes := inReserve s.fuses k && (s.channel (chanOf s.fuses k)).any (fun c => c.mode != .ordinary)
  if !(isHbm p.pa || isLpddr p.pa) || s.retired.contains (1, slice) || computes || s.slices.contains (slice, k / 128) then s
  else { s with slices := (slice, k / 128) :: s.slices }

/-- Brings a line into its home slice; an address with no valid translation does nothing. (R241) -/
def execHintPref (a : BitVec 5) (r : BitVec 3) (s : State) : Out :=
  frontWord r [a] s (fun s =>
    .next (match s.ctxPlace s.cpu.ctx (s.x a) with
      | some p => s.prefetch p
      | none => s).advance)

/-- Asks the tier engine to move a page to HBM4E. (R241) -/
def execHintFetch (a : BitVec 5) (r : BitVec 3) (s : State) : Out :=
  frontWord r [a] s (fun s =>
    let va := s.x a
    let base := va.toNat - va.toNat % 2 ^ 21
    let s := match migratableLeaf s s.cpu.ctx va with
      | none => s
      | some (_, e) =>
        if isLpddr (leafFrame e) && !s.fetchHints.contains (s.cpu.ctx, base) then
          { s with fetchHints := s.fetchHints ++ [(s.cpu.ctx, base)] }
        else s
    .next s.advance)

/-- Atomically advances the context's step count. (R242) -/
def execStepadv (a : BitVec 5) (d : BitVec 5) (r : BitVec 3) (s : State) : Out :=
  frontWord r [a, d] s (fun s =>
    let n := s.x a
    if n.extractLsb' 32 32 ≠ 0 then trapOut s 1 n
    else
      let s := s.updContext s.cpu.ctx (fun c => { c with step := c.step + n.extractLsb' 0 32 })
      .next (s.setX d (zext64 (s.stepOf s.cpu.ctx))).advance)

/-! ### Atomics (R279, R280, R310) -/

/-- The release of rl and the acquire of aq, at package scope (R310). -/
def withRl (rl : BitVec 1) (s : State) : State := if rl = 1 then s.release 4 else s
def withAq (aq : BitVec 1) (s : State) : State := if aq = 1 then s.acquire 4 else s

/-- The release that aq and rl bits ask for waits, like phase, for the cell's earlier accesses (R99). -/
def rlWaits (rl : BitVec 1) (s : State) : Bool := rl = 1 && (!s.cpu.memoryQuiet || s.releaseWaits 4)

/-- A release that waits at a channel is noted there (R294). -/
def rlStall (s : State) : State := if s.cpu.memoryQuiet then s.stallRelease else s

/-- An AMO of `n` bytes: read, modify and write at home as one operation. -/
def amo (rd rs1 rs2 : BitVec 5) (aq rl : BitVec 1) (n : Nat) (f : Nat → Nat → Nat) (s : State) : Out :=
  baseWord [rd, rs1, rs2] s (fun s =>
    if rlWaits rl s then .next (rlStall s)
    else
      accessAt s (s.x rs1) n .amo
        (fun s p => atHome s p true (fun s =>
          let s := withRl rl s
          match homeRead (s.selfFlush p n) p n with
          | .ok old s => .ok old (homePut s p n (f old ((s.x rs2).toNat % 2 ^ (8 * n))))
          | r => r))
        (fun v s => .next ((withAq aq s).setX rd (extend true n v)).advance))

/-- A number of `n` bytes as signed. -/
def signed (n v : Nat) : Int := (BitVec.ofNat (8 * n) v).toInt

/-- Load-reserved word at the home slice or sync engine, placing a reservation. (R280) -/
def execLrW (rd : BitVec 5) (rs1 : BitVec 5) (aq : BitVec 1) (rl : BitVec 1) (s : State) : Out :=
  baseWord [rd, rs1] s (fun s =>
    if rlWaits rl s then .next (rlStall s)
    else
      accessAt s (s.x rs1) 4 .read
        (fun s p => atHome s p false (fun s =>
          match homeRead ((withRl rl s).selfFlush p 4) p 4 with
          | .ok v s => .ok v (s.upd (fun c => { c with reservation := some (s.key p - s.key p % 8) }))
          | r => r))
        (fun v s => .next ((withAq aq s).setX rd (extend true 4 v)).advance))

/-- Store-conditional word, succeeding only if the reservation is held. (R280) (DEDUCED, assumption log 35) -/
def execScW (rd : BitVec 5) (rs1 : BitVec 5) (rs2 : BitVec 5) (aq : BitVec 1) (rl : BitVec 1) (s : State) : Out :=
  baseWord [rd, rs1, rs2] s (fun s =>
    if rlWaits rl s then .next (rlStall s)
    else
      accessAt s (s.x rs1) 4 .write
        (fun s p =>
          let held := s.cpu.reservation = some (s.key p - s.key p % 8)
          let clear (s : State) : State := s.upd (fun c => { c with reservation := none })
          if held then
            atHome s p true (fun s => .ok 0 (clear (homePut ((withRl rl s).selfFlush p 4) p 4 (s.x rs2).toNat)))
          else .ok 1 (clear s))
        (fun v s => .next ((withAq aq s).setX rd (BitVec.ofNat 64 v)).advance))

/-- Load-reserved doubleword, placing a reservation. (R280) -/
def execLrD (rd : BitVec 5) (rs1 : BitVec 5) (aq : BitVec 1) (rl : BitVec 1) (s : State) : Out :=
  baseWord [rd, rs1] s (fun s =>
    if rlWaits rl s then .next (rlStall s)
    else
      accessAt s (s.x rs1) 8 .read
        (fun s p => atHome s p false (fun s =>
          match homeRead ((withRl rl s).selfFlush p 8) p 8 with
          | .ok v s => .ok v (s.upd (fun c => { c with reservation := some (s.key p - s.key p % 8) }))
          | r => r))
        (fun v s => .next ((withAq aq s).setX rd (extend true 8 v)).advance))

/-- Store-conditional doubleword. (R280) (DEDUCED, assumption log 35) -/
def execScD (rd : BitVec 5) (rs1 : BitVec 5) (rs2 : BitVec 5) (aq : BitVec 1) (rl : BitVec 1) (s : State) : Out :=
  baseWord [rd, rs1, rs2] s (fun s =>
    if rlWaits rl s then .next (rlStall s)
    else
      accessAt s (s.x rs1) 8 .write
        (fun s p =>
          let held := s.cpu.reservation = some (s.key p - s.key p % 8)
          let clear (s : State) : State := s.upd (fun c => { c with reservation := none })
          if held then
            atHome s p true (fun s => .ok 0 (clear (homePut ((withRl rl s).selfFlush p 8) p 8 (s.x rs2).toNat)))
          else .ok 1 (clear s))
        (fun v s => .next ((withAq aq s).setX rd (BitVec.ofNat 64 v)).advance))

/-- Atomic swap of a word at its one place, at package scope. (R279) -/
def execAmoswapW (rd : BitVec 5) (rs1 : BitVec 5) (rs2 : BitVec 5) (aq : BitVec 1) (rl : BitVec 1) (s : State) : Out :=
  amo rd rs1 rs2 aq rl 4 (fun _ b => b) s

/-- Atomic swap of a doubleword. (R279) -/
def execAmoswapD (rd : BitVec 5) (rs1 : BitVec 5) (rs2 : BitVec 5) (aq : BitVec 1) (rl : BitVec 1) (s : State) : Out :=
  amo rd rs1 rs2 aq rl 8 (fun _ b => b) s

/-- Atomic add to a word. (R279) -/
def execAmoaddW (rd : BitVec 5) (rs1 : BitVec 5) (rs2 : BitVec 5) (aq : BitVec 1) (rl : BitVec 1) (s : State) : Out :=
  amo rd rs1 rs2 aq rl 4 (fun a b => a + b) s

/-- Atomic add to a doubleword. (R279) -/
def execAmoaddD (rd : BitVec 5) (rs1 : BitVec 5) (rs2 : BitVec 5) (aq : BitVec 1) (rl : BitVec 1) (s : State) : Out :=
  amo rd rs1 rs2 aq rl 8 (fun a b => a + b) s

/-- Atomic xor to a word. (R279) -/
def execAmoxorW (rd : BitVec 5) (rs1 : BitVec 5) (rs2 : BitVec 5) (aq : BitVec 1) (rl : BitVec 1) (s : State) : Out :=
  amo rd rs1 rs2 aq rl 4 (fun a b => a ^^^ b) s

/-- Atomic xor to a doubleword. (R279) -/
def execAmoxorD (rd : BitVec 5) (rs1 : BitVec 5) (rs2 : BitVec 5) (aq : BitVec 1) (rl : BitVec 1) (s : State) : Out :=
  amo rd rs1 rs2 aq rl 8 (fun a b => a ^^^ b) s

/-- Atomic and to a word. (R279) -/
def execAmoandW (rd : BitVec 5) (rs1 : BitVec 5) (rs2 : BitVec 5) (aq : BitVec 1) (rl : BitVec 1) (s : State) : Out :=
  amo rd rs1 rs2 aq rl 4 (fun a b => a &&& b) s

/-- Atomic and to a doubleword. (R279) -/
def execAmoandD (rd : BitVec 5) (rs1 : BitVec 5) (rs2 : BitVec 5) (aq : BitVec 1) (rl : BitVec 1) (s : State) : Out :=
  amo rd rs1 rs2 aq rl 8 (fun a b => a &&& b) s

/-- Atomic or to a word. (R279) -/
def execAmoorW (rd : BitVec 5) (rs1 : BitVec 5) (rs2 : BitVec 5) (aq : BitVec 1) (rl : BitVec 1) (s : State) : Out :=
  amo rd rs1 rs2 aq rl 4 (fun a b => a ||| b) s

/-- Atomic or to a doubleword. (R279) -/
def execAmoorD (rd : BitVec 5) (rs1 : BitVec 5) (rs2 : BitVec 5) (aq : BitVec 1) (rl : BitVec 1) (s : State) : Out :=
  amo rd rs1 rs2 aq rl 8 (fun a b => a ||| b) s

/-- Atomic signed minimum of a word. (R279) -/
def execAmominW (rd : BitVec 5) (rs1 : BitVec 5) (rs2 : BitVec 5) (aq : BitVec 1) (rl : BitVec 1) (s : State) : Out :=
  amo rd rs1 rs2 aq rl 4 (fun a b => if signed 4 a < signed 4 b then a else b) s

/-- Atomic signed minimum of a doubleword. (R279) -/
def execAmominD (rd : BitVec 5) (rs1 : BitVec 5) (rs2 : BitVec 5) (aq : BitVec 1) (rl : BitVec 1) (s : State) : Out :=
  amo rd rs1 rs2 aq rl 8 (fun a b => if signed 8 a < signed 8 b then a else b) s

/-- Atomic signed maximum of a word. (R279) -/
def execAmomaxW (rd : BitVec 5) (rs1 : BitVec 5) (rs2 : BitVec 5) (aq : BitVec 1) (rl : BitVec 1) (s : State) : Out :=
  amo rd rs1 rs2 aq rl 4 (fun a b => if signed 4 a < signed 4 b then b else a) s

/-- Atomic signed maximum of a doubleword. (R279) -/
def execAmomaxD (rd : BitVec 5) (rs1 : BitVec 5) (rs2 : BitVec 5) (aq : BitVec 1) (rl : BitVec 1) (s : State) : Out :=
  amo rd rs1 rs2 aq rl 8 (fun a b => if signed 8 a < signed 8 b then b else a) s

/-- Atomic unsigned minimum of a word. (R279) -/
def execAmominuW (rd : BitVec 5) (rs1 : BitVec 5) (rs2 : BitVec 5) (aq : BitVec 1) (rl : BitVec 1) (s : State) : Out :=
  amo rd rs1 rs2 aq rl 4 (fun a b => min a b) s

/-- Atomic unsigned minimum of a doubleword. (R279) -/
def execAmominuD (rd : BitVec 5) (rs1 : BitVec 5) (rs2 : BitVec 5) (aq : BitVec 1) (rl : BitVec 1) (s : State) : Out :=
  amo rd rs1 rs2 aq rl 8 (fun a b => min a b) s

/-- Atomic unsigned maximum of a word. (R279) -/
def execAmomaxuW (rd : BitVec 5) (rs1 : BitVec 5) (rs2 : BitVec 5) (aq : BitVec 1) (rl : BitVec 1) (s : State) : Out :=
  amo rd rs1 rs2 aq rl 4 (fun a b => max a b) s

/-- Atomic unsigned maximum of a doubleword. (R279) -/
def execAmomaxuD (rd : BitVec 5) (rs1 : BitVec 5) (rs2 : BitVec 5) (aq : BitVec 1) (rl : BitVec 1) (s : State) : Out :=
  amo rd rs1 rs2 aq rl 8 (fun a b => max a b) s

end Sys2Proof.Machine
end

