-- ==== Sys2Proof/Machine/Record.lean ====
section
/-! DEFINITION. The fields of a graph record in memory (R320, R322, R325) and the context memory that the graph engine and the firmware read and write. -/

namespace Sys2Proof.Machine

/-! ### Memory of a context -/

/-- The bytes of a write at a key, but for those of a valid barrier, which the barrier instructions alone change (R267). -/
def State.sparingBarriers (s : State) (k : Nat) (bs : List Byte) : List Byte :=
  if s.barrierIn k bs.length then bs.mapIdx (fun i b => if s.barrierIn (k + i) 1 then readByte s.mem (k + i) else b) else bs

/-- Writes bytes within one page of a context's memory at home, where the context may write (R7, R227). -/
def State.ctxWrite (s : State) (ctx : Nat) (va : Word) (bs : List Byte) : State :=
  match s.ctxOwnKey ctx va with
  | some k => (s.homeWrite k (s.sparingBarriers k bs) none).syncTouch k
  | none => s

/-- Bytes of a context's memory, one by one. -/
def State.ctxBytes (s : State) (ctx : Nat) (va : Word) : Nat → List Byte
  | 0 => []
  | n + 1 => BitVec.ofNat 8 (s.ctxRead ctx va 1) :: State.ctxBytes s ctx (va + 1) n

/-- Writes bytes of a context's memory, page by page. -/
def State.ctxStore (s : State) (ctx : Nat) (va : Word) (bs : List Byte) : State :=
  let o := va.toNat % 4096
  (List.range ((o + bs.length + 4095) / 4096)).foldl (fun s i =>
    s.ctxWrite ctx (va + BitVec.ofNat 64 (4096 * i - o)) ((bs.take (4096 * (i + 1) - o)).drop (4096 * i - o))) s

/-- The bytes of a write to a context's memory as they land: those in the record of a running graph stay (R4, R320). -/
def State.ctxLanding (s : State) (ctx : Nat) (va : Word) (bs : List Byte) : List Byte :=
  if s.graphs.isEmpty then bs
  else bs.mapIdx (fun i b =>
    match s.ctxKey ctx (va + BitVec.ofNat 64 i) with
    | some k => if s.recordHolds k then readByte s.mem k else b
    | none => b)

/-- A write of the network engine or the firmware for a host: it does nothing to the record of a running graph (R4, R320). -/
def State.ctxLand (s : State) (ctx : Nat) (va : Word) (bs : List Byte) : State := s.ctxStore ctx va (s.ctxLanding ctx va bs)

/-! ### The header (R320) -/

def off (n : Nat) : Word := BitVec.ofNat 64 n

/-- `n` bytes of a record at byte `o`. -/
def State.recRead (s : State) (g : Graph) (o n : Nat) : Nat := s.ctxRead g.ctx (g.va + off o) n
def State.recWrite (s : State) (g : Graph) (o n v : Nat) : State := s.ctxWrite g.ctx (g.va + off o) (leBytes n v)

def State.nodeCount (s : State) (g : Graph) : Nat := s.recRead g 6 2
def State.edgeCount (s : State) (g : Graph) : Nat := s.recRead g 8 2
def State.graphState (s : State) (g : Graph) : Nat := s.recRead g 12 1
def State.setGraphState (s : State) (g : Graph) (v : Nat) : State := s.recWrite g 12 1 v

/-! ### Node records (R322, R323) -/

def State.nodeOff (s : State) (g : Graph) (i : Nat) : Nat := s.recRead g 16 4 + 128 * i
def State.nodeVa (s : State) (g : Graph) (i : Nat) : Word := g.va + off (s.nodeOff g i)

/-- `n` bytes at byte `o` of node `i`. -/
def State.node (s : State) (g : Graph) (i o n : Nat) : Nat := s.recRead g (s.nodeOff g i + o) n
def State.setNode (s : State) (g : Graph) (i o n v : Nat) : State := s.recWrite g (s.nodeOff g i + o) n v

def State.nodeKind (s : State) (g : Graph) (i : Nat) : Nat := s.node g i 2 1
def State.nodeClass (s : State) (g : Graph) (i : Nat) : Nat := s.node g i 3 1 % 4
def State.nodePolicy (s : State) (g : Graph) (i : Nat) : Nat := s.node g i 3 1 / 4 % 4
def State.nodeState (s : State) (g : Graph) (i : Nat) : Nat := s.node g i 4 1
def State.setNodeState (s : State) (g : Graph) (i v : Nat) : State := s.setNode g i 4 1 v

/-- The edge of an input or output port, if it is used. -/
def portEdge (v : Nat) : Option Nat := if v = 0xFFFF then none else some v
def State.inEdge (s : State) (g : Graph) (i p : Nat) : Option Nat := portEdge (s.node g i (12 + 2 * p) 2)
def State.outEdge (s : State) (g : Graph) (i p : Nat) : Option Nat := portEdge (s.node g i (20 + 2 * p) 2)
def State.needIn (s : State) (g : Graph) (i p : Nat) : Nat := s.node g i (28 + 2 * p) 2
def State.needOut (s : State) (g : Graph) (i p : Nat) : Nat := s.node g i (36 + 2 * p) 2

/-- The used input ports of a node with their edges, and the used output ports. -/
def State.inPorts (s : State) (g : Graph) (i : Nat) : List (Nat × Nat) :=
  (List.range 4).filterMap (fun p => (s.inEdge g i p).map (fun e => (p, e)))
def State.outPorts (s : State) (g : Graph) (i : Nat) : List (Nat × Nat) :=
  (List.range 4).filterMap (fun p => (s.outEdge g i p).map (fun e => (p, e)))

/-- Cells of role `r` in the team field, and all of them. -/
def teamRole (t r : Nat) : Nat := t / 2 ^ (3 * r) % 8
def teamSize (t : Nat) : Nat := (List.range 7).foldl (fun a r => a + teamRole t r) 0

def State.nodeEnergy (s : State) (g : Graph) (i : Nat) : Nat := s.node g i 56 4
def State.nodeWindow (s : State) (g : Graph) (i : Nat) : Nat × Nat :=
  let w := s.node g i 50 2
  (w % 64 * 65536, w / 64 % 128 * 65536)

/-- The lowest node id bits that nctx returns: id, kind, retried, fires (R345). -/
def State.nodeSummary (s : State) (g : Graph) (i : Nat) : Word :=
  BitVec.ofNat 64 (i + s.nodeKind g i * 2 ^ 16 + s.node g i 6 1 * 2 ^ 24 + s.node g i 96 4 * 2 ^ 32)

/-! ### Edges and tokens (R325, R326) -/

def State.edgeOff (s : State) (g : Graph) (e : Nat) : Nat := s.recRead g 20 4 + 64 * e
def State.edge (s : State) (g : Graph) (e o n : Nat) : Nat := s.recRead g (s.edgeOff g e + o) n
def State.setEdge (s : State) (g : Graph) (e o n v : Nat) : State := s.recWrite g (s.edgeOff g e + o) n v

def State.edgeFrozen (s : State) (g : Graph) (e : Nat) : Bool := s.edge g e 15 1 % 2 = 1
def State.freezeEdge (s : State) (g : Graph) (e : Nat) (f : Bool) : State := s.setEdge g e 15 1 f.toNat
def State.edgeCap (s : State) (g : Graph) (e : Nat) : Nat := s.edge g e 8 2
def State.edgeFree (s : State) (g : Graph) (e : Nat) : Nat := s.edge g e 16 2
def State.edgeHeld (s : State) (g : Graph) (e : Nat) : Nat := s.edge g e 18 2
def State.edgeHead (s : State) (g : Graph) (e : Nat) : Nat := s.edge g e 20 2
def State.edgeResv (s : State) (g : Graph) (e : Nat) : Nat := s.edge g e 26 2

/-- Adds to a field of an edge, in `n` bytes. -/
def State.bumpEdge (s : State) (g : Graph) (e o n : Nat) (by' : Int) : State :=
  s.setEdge g e o n (((s.edge g e o n : Int) + by') % 2 ^ (8 * n)).toNat

/-- The address of the token at place `i` from the head. -/
def State.tokenVa (s : State) (g : Graph) (e i : Nat) : Word :=
  off (s.edge g e 0 8) + off (16 * ((s.edgeHead g e + i) % s.edgeCap g e))

/-- An access of the graph engine to the record of a graph, or to the token queue of one of its edges, waits (R235, R293). -/
def State.graphWaits (s : State) (g : Graph) : Bool :=
  s.ctxWaits g.ctx g.va (s.recordBytes g) ||
  (List.range (s.edgeCount g)).any (fun e => s.ctxWaits g.ctx (off (s.edge g e 0 8)) (16 * s.edgeCap g e))

/-- It notes at their channels the requests that wait there (R294). -/
def State.graphStall (s : State) (g : Graph) : State :=
  (List.range (s.edgeCount g)).foldl (fun t e => t.ctxStall g.ctx (off (s.edge g e 0 8)) (16 * s.edgeCap g e))
    (s.ctxStall g.ctx g.va (s.recordBytes g))

/-- The token at place `i`: payload and tag. -/
def State.token (s : State) (g : Graph) (e i : Nat) : Word × Word :=
  let a := s.tokenVa g e i
  (off (s.ctxRead g.ctx a 8), off (s.ctxRead g.ctx (a + 8) 8))

def State.putToken (s : State) (g : Graph) (e i : Nat) (t : Word × Word) : State :=
  s.ctxWrite g.ctx (s.tokenVa g e i) (leBytes 8 t.1.toNat ++ leBytes 8 t.2.toNat)

def tagCtx (t : Word) : Nat := (t.extractLsb' 0 16).toNat
def tagSeq (t : Word) : Nat := (t.extractLsb' 16 32).toNat
def tagEnd (t : Word) : Bool := t.getLsbD 48
def mkTag (ctx seq : Nat) (fin : Bool) : Word := off (ctx % 2 ^ 16 + seq % 2 ^ 32 * 2 ^ 16 + fin.toNat * 2 ^ 48)

/-! ### Graphs and firings of the state -/

def State.graph (s : State) (id : Nat) : Option Graph := s.graphs.find? (fun g => g.id == id)
def State.setGraph (s : State) (g : Graph) : State :=
  { s with graphs := s.graphs.map (fun h => if h.id = g.id then g else h) }
def State.firing (s : State) (id : Nat) : Option Firing := s.firings.find? (fun f => f.id == id)
def State.setFiring (s : State) (f : Firing) : State :=
  { s with firings := s.firings.map (fun h => if h.id = f.id then f else h) }

/-- The firing of the acting cell with its graph. -/
def State.here (s : State) : Option (Firing × Graph) :=
  match s.firing s.cpu.firing with
  | none => none
  | some f => (s.graph f.graph).map (fun g => (f, g))

/-- The graph engine cannot act on the graph of a firing now (R235, R293). -/
def State.firingWaits (s : State) (firing : Nat) : Bool :=
  (s.firing firing).any (fun f => (s.graph f.graph).any s.graphWaits)

/-- The same requests noted (R294). -/
def State.firingStall (s : State) (firing : Nat) : State :=
  ((s.firing firing).bind (fun f => s.graph f.graph)).elim s s.graphStall

/-- The copy area of the graph record under which a firing runs: copybase and copysize (R320). -/
def State.copyArea (s : State) (firing : Nat) : Word × Nat :=
  match s.firing firing with
  | none => (0, 0)
  | some f =>
    match s.graph f.graph with
    | none => (0, 0)
    | some g => (off (s.recRead g 32 8), s.recRead g 40 4)

end Sys2Proof.Machine
end

