-- ==== Sys2Proof/Machine/Flags.lean ====
section
/-! DEFINITION. The flags that the reduction units compute (R282, R286, R287): bit 0 invalid, bit 1 overflow. -/

namespace Sys2Proof.Machine

/-- A NaN whose top mantissa bit is 0 (R287). -/
def signalling (f : Fmt) (c : Nat) : Bool := (decodeCode f c).isNaN && !c.testBit (f.m - 1)

/-- The canonical NaN of FP32 or BF16. -/
def canonOf (f : Fmt) : Nat := if f.m = 23 then 0x7FC00000 else 0x7FC0

/-- One of the two operands is infinite. -/
def FpVal.isInf : FpVal → Bool
  | .inf _ => true
  | _ => false

/-- Floating-point addition of R287: the result and its flags. -/
def unitAdd (f : Fmt) (m d : Nat) : Nat × BitVec 2 :=
  let a := decodeCode f m
  let b := decodeCode f d
  if a.isNaN || b.isNaN then (canonOf f, if signalling f m || signalling f d then 1#2 else 0#2)
  else if (a.add b).isNaN then (canonOf f, 1#2)
  else
    let r := roundVal f rne (a.add b)
    (r, if !a.isInf && !b.isInf && (decodeCode f r).isInf then 2#2 else 0#2)

/-- FP32 maximum or minimum of R287. -/
def unitPick (larger : Bool) (m d : Nat) : Nat × BitVec 2 :=
  let x : Lane := BitVec.ofNat 32 m
  let y : Lane := BitVec.ofNat 32 d
  ((if larger then fmaxNaN x y else fminNaN x y).toNat,
    if signalling fp32 m || signalling fp32 d then 1#2 else 0#2)

/-- Signed 32-bit addition with its overflow flag. -/
def unitAddInt (m d : Nat) : Nat × BitVec 2 :=
  let x : Lane := BitVec.ofNat 32 m
  let y : Lane := BitVec.ofNat 32 d
  ((x + y).toNat, if x.toInt + y.toInt = (x + y).toInt then 0#2 else 2#2)

/-- Signed 32-bit maximum or minimum. -/
def unitPickInt (larger : Bool) (m d : Nat) : Nat × BitVec 2 :=
  let x : Lane := BitVec.ofNat 32 m
  let y : Lane := BitVec.ofNat 32 d
  ((if (x.slt y) = larger then y else x).toNat, 0#2)

/-- One element of operation `op` (R282): memory `m` and data `d`. -/
def unitOp (op m d : Nat) : Nat × BitVec 2 :=
  match op with
  | 0 => unitAdd fp32 m d
  | 1 => unitAdd bf16 m d
  | 2 => unitAddInt m d
  | 3 => unitPick true m d
  | 4 => unitPick false m d
  | 5 => unitPickInt true m d
  | _ => unitPickInt false m d

/-- A row combined element by element: the new row, the flags raised, and the mask of the elements that raised one, of
which the low 32 count (R288). -/
def combineRow (op : Nat) (m d : VReg) : VReg × BitVec 2 × Nat :=
  let w := if op = 1 then 16 else 32
  (List.range (1024 / w)).foldl (fun (acc : VReg × BitVec 2 × Nat) i =>
    let (r, f) := unitOp op (m.toNat / 2 ^ (w * i) % 2 ^ w) (d.toNat / 2 ^ (w * i) % 2 ^ w)
    (acc.1 ||| BitVec.ofNat 1024 (r * 2 ^ (w * i)), acc.2.1 ||| f,
      if f ≠ 0 && i < 32 then acc.2.2 + 2 ^ i else acc.2.2)) (0, 0, 0)

end Sys2Proof.Machine
end

