-- ==== Sys2Proof/Machine/Sync.lean ====
section
/-! DEFINITION. Barriers (R266 to R277), waita (R278), reductions at memory (R282 to R288) and redfence (R286). -/

namespace Sys2Proof.Machine

/-! ### Barrier objects (R266) -/

structure Barrier where
  parity : Bool
  valid : Bool
  overrun : Bool
  remaining : Nat
  expected : Nat
  owner : Nat
  pending : Int
  drop : Nat
  join : Nat
  flips : BitVec 32
  deriving DecidableEq, Repr

/-- The fields of the object at a key. -/
def State.barrier (s : State) (key : Nat) : Barrier :=
  let w (k : Nat) : Word := BitVec.ofNat 64 (readLE s.mem (key + 8 * k) 8)
  ⟨(w 0).getLsbD 0, (w 0).getLsbD 1, (w 0).getLsbD 2, ((w 0).extractLsb' 16 16).toNat, ((w 0).extractLsb' 32 16).toNat,
    ((w 0).extractLsb' 48 16).toNat, ((w 1).extractLsb' 0 48).toInt, ((w 2).extractLsb' 0 16).toNat,
    ((w 2).extractLsb' 16 16).toNat, (w 3).extractLsb' 0 32⟩

/-- The 32 bytes of an object. -/
def Barrier.bytes (b : Barrier) : List Byte :=
  leBytes 8 (b.parity.toNat + 2 * b.valid.toNat + 4 * b.overrun.toNat + b.remaining * 2 ^ 16 + b.expected * 2 ^ 32 +
    b.owner * 2 ^ 48) ++
  leBytes 8 (BitVec.ofInt 48 b.pending).toNat ++ leBytes 8 (b.drop + b.join * 2 ^ 16) ++ leBytes 8 b.flips.toNat

/-- The engine writes the object. -/
def State.setBarrier (s : State) (key : Nat) (b : Barrier) : State := (s.homeWrite key b.bytes none).syncTouch key

/-- What `Settle` and a flip do to an object. -/
inductive Settled where
  | open (b : Barrier)
  | flip (b : Barrier)
  | overrun (b : Barrier)
  deriving DecidableEq, Repr

/-- The flip of R269. -/
def Barrier.flip (b : Barrier) : Barrier :=
  let e := b.expected + b.join - b.drop
  { b with
    parity := !b.parity, flips := b.flips + 1, expected := e, remaining := e, pending := 0, drop := 0, join := 0
    overrun := false }

/-- `Settle` of R270. -/
def Barrier.settle (b : Barrier) : Settled :=
  if b.pending < -2 ^ 47 then .overrun { b with pending := -2 ^ 47, overrun := true }
  else if 2 ^ 47 ≤ b.pending then .overrun { b with pending := 2 ^ 47 - 1, overrun := true }
  else if b.remaining = 0 && b.pending < 0 then .overrun { b with overrun := true }
  else if b.remaining = 0 && b.pending = 0 then .flip b.flip
  else .open b

/-- Waiters on the object whose parity no longer stands are woken, in order, by the end of a phase (R269, R276, R277). -/
def State.wakeBarrier (s : State) (key : Nat) (parity : Bool) (phase : Nat) : State :=
  { s with waits := s.waits.map (fun w =>
      if w.bytes = 32 && w.key = key && w.want != BitVec.ofNat 64 parity.toNat && !w.woken then { w with woken := true, flip := phase }
      else w) }

/-- A flip is a wake event for the cells with a team mate that waits on the object (R372). -/
def State.wakeMates (s : State) (key : Nat) : State :=
  let waiting := s.waits.filter (fun w => w.bytes = 32 && w.key = key)
  s.wakeWhere (fun c => waiting.any (fun w =>
    w.cell ≠ c.id && (s.cell w.cell).team = c.team && (s.cell w.cell).firing = c.firing))

/-- The record of R271. -/
def overrunRecord (s : State) (key : Nat) (b : Barrier) : List Byte :=
  record 3 9 ((key - 2 ^ 43) / 2 ^ 21) s.now 0 key
    (leBytes 8 (BitVec.ofInt 64 b.pending).toNat ++ leBytes 2 b.remaining ++ leBytes 2 b.expected)

/-- Posts it, or updates the one that still waits for ring space (R271). -/
def State.postOverrun (s : State) (ctx key : Nat) (b : Barrier) : State :=
  let r := overrunRecord s key b
  let die := (key - 2 ^ 43) / 2 ^ 21
  let same (h : HeldRecord) : Bool := h.ctx = ctx && h.producer = 4 && h.unit = die && (h.bytes.drop 24).take 8 = leBytes 8 key
  if s.held.any same then { s with held := s.held.map (fun h => if same h then { h with bytes := r } else h) }
  else s.post ctx 4 die r

/-- The object after `Settle`, with the flip's wakes or the overrun's record. -/
def State.settled (s : State) (key : Nat) : Settled → State
  | .open b => s.setBarrier key b
  | .flip b => ((s.setBarrier key b).wakeMates key).wakeBarrier key b.parity (b.flips - 1).toNat
  | .overrun b => (s.setBarrier key b).postOverrun b.owner key b

/-- A subtraction reaches the engine (R270); its bytes count among the payload of the phase (R277). -/
def State.subtract (s : State) (x : Subtraction) : State :=
  let b := s.barrier x.key
  if !b.valid then s.postOverrun x.ctx x.key { b with pending := 0 }
  else if b.overrun then s
  else
    let s := { s with payloads := x.runs.map (fun (r : Nat × Nat) => Payload.mk x.key b.flips.toNat r.1 r.2) ++ s.payloads }
    s.settled x.key ({ b with pending := b.pending - x.bytes }.settle)

/-- The unit of a row or an object: the stack domain, or 0x100 + die (R288). -/
def unitNo (key : Nat) : Nat := if isSync key then 0x100 + (key - 2 ^ 43) / 2 ^ 21 else key / 2 ^ 36

/-- Places up to `i` hold no reduction of the same cell to the same line (R284). -/
def inOrder (l : List Reduction) (i : Nat) (x : Reduction) : Bool :=
  !(l.take i).any (fun y => y.cell = x.cell && y.key = x.key)

/-- The subtraction at place `i` goes ahead of what its engine holds: it is of class-0 work and the first of these, or nothing of class-0
work waits there (R373). -/
def State.maySubtract (s : State) (i : Nat) (x : Subtraction) : Bool :=
  let unit := unitNo x.key
  if x.urgent then !(s.subtractions.take i).any (fun y => y.urgent && unitNo y.key = unit)
  else
    !s.subtractions.any (fun y => y.urgent && unitNo y.key = unit) && !(s.subtractions.take i).any (fun y => unitNo y.key = unit) &&
    !s.reductions.zipIdx.any (fun y => y.1.urgent && unitNo y.1.key = unit && inOrder s.reductions y.2 y.1)

/-- A copy entry's bytes are subtracted from a barrier's pending count and settled; those of class-0 work go first (R373). (R270) -/
def execBarrierSubtraction (s : State) : Out :=
  let i := ((List.range s.subtractions.length).find? (fun i => (s.subtractions[i]?).any (s.maySubtract i))).getD s.subtractions.length
  match s.subtractions[i]? with
  | none => .next s
  | some x => .next ({ s with subtractions := s.subtractions.eraseIdx i }.subtract x)

/-! ### Barrier instructions (R273 to R277) -/

/-- The address of a barrier instruction resolved to its key; it waits for earlier commands of the cell on the same bytes (R98), and,
where it writes, for older reads (R319). -/
def withBarrier (va : Word) (acc : Access) (s : State) (body : Nat → State → Out) : Out :=
  if va.extractLsb' 0 5 ≠ 0 then trapOut s 3 va
  else
    match translate s va acc with
    | .trap c l s => .next (s.trap c va l)
    | .wait s => .next s
    | .ok p _ s =>
      if !isSync p.pa then trapOut s 5 va
      else if s.isOffline (homeDie s.fuses p) then .next (s.trap 6 va (some (homeDie s.fuses p)))
      else if s.bytesBusy (s.key p) 32 || (acc.writes && s.cpu.readsPending) then .next s
      else body (s.key p) (s.syncTouch (s.key p))

/-- Initialises a barrier object with an arrival count. (R274) -/
def execBarinit (b : BitVec 5) (a : BitVec 5) (r : BitVec 3) (s : State) : Out :=
  frontWord r [a, b] s (fun s => withBarrier (s.x a) .write s (fun key s =>
    let n := s.x b
    if n = 0 ∨ n.extractLsb' 16 48 ≠ 0 then trapOut s 1 n
    else .next (s.setBarrier key ⟨false, true, false, n.toNat, n.toNat, s.cpu.ctx, 0, 0, 0, 0⟩).advance))

/-- Forces a flip of a valid barrier. (R274) -/
def execBarinitForce (a : BitVec 5) (r : BitVec 3) (s : State) : Out :=
  frontWord r [a] s (fun s => withBarrier (s.x a) .write s (fun key s =>
    let o := s.barrier key
    if !o.valid then trapOut s 9 (s.x a) else .next (s.settled key (.flip o.flip)).advance))

/-- Zeroes a valid barrier object. (R274) -/
def execBarinitFree (a : BitVec 5) (r : BitVec 3) (s : State) : Out :=
  frontWord r [a] s (fun s => withBarrier (s.x a) .write s (fun key s =>
    if !(s.barrier key).valid then trapOut s 9 (s.x a)
    else .next ((s.homeWrite key (List.replicate 32 0) none).syncTouch key).advance))

/-- An arrival: −1, 0 or 1 more expected from the next phase on (R275). -/
def arrive (delta : Int) (a b d : BitVec 5) (s : State) : Out :=
  let va := s.x a
  withBarrier va .write s (fun key s =>
    let n := s.x b
    if n.extractLsb' 47 17 ≠ 0 then trapOut s 1 n
    else if !s.cpu.memoryQuiet then .next s
    else if s.releaseWaits 4 then .next s.stallRelease
    else
      let s := s.release 4
      let o := s.barrier key
      if !o.valid || o.overrun || o.remaining = 0 then trapOut s 9 va
      else if delta = -1 && o.expected + o.join < o.drop + 1 then trapOut s 9 va
      else if delta = 1 && 65535 + o.drop < o.expected + o.join + 1 then trapOut s 9 va
      else
        let o' := { o with
          drop := if delta = -1 then o.drop + 1 else o.drop
          join := if delta = 1 then o.join + 1 else o.join
          remaining := o.remaining - 1
          pending := o.pending + n.toNat }
        .next ((s.settled key o'.settle).setX d (BitVec.ofNat 64 o.parity.toNat)).advance)

/-- Releases at package scope and arrives at a barrier announcing bytes. (R275) -/
def execBararr (b : BitVec 5) (a : BitVec 5) (d : BitVec 5) (r : BitVec 3) (s : State) : Out :=
  frontWord r [d, a, b] s (arrive 0 a b d)

/-- Arrival that lowers the expected count from the next phase. (R275) -/
def execBardrop (b : BitVec 5) (a : BitVec 5) (d : BitVec 5) (r : BitVec 3) (s : State) : Out :=
  frontWord r [d, a, b] s (arrive (-1) a b d)

/-- Arrival that raises the expected count from the next phase. (R275) -/
def execBarjoin (b : BitVec 5) (a : BitVec 5) (d : BitVec 5) (r : BitVec 3) (s : State) : Out :=
  frontWord r [d, a, b] s (arrive 1 a b d)

/-- The acquire of an observed flip: the payloads that ended phases of the object counted, and those of the phase that ended a wait,
whatever has become of the object since (R277). -/
def State.observe (s : State) (key : Nat) (phase : Option Nat) : State :=
  let now := (s.barrier key).flips.toNat
  (s.payloads.filter (fun p => p.barrier = key && (p.flip ≠ now || phase = some p.flip))).foldl
    (fun s p => s.acquireBytes p.key p.bytes) s

/-- The cell's record of a wait on `n` bytes. -/
def State.waitOf (s : State) (n : Nat) : Option WaitRecord := s.waits.find? (fun w => w.cell == s.cpu.id && w.bytes == n)

def State.endWait (s : State) : State := s.dropWaits s.cpu.id

/-- A barwait whose wait has ended. -/
def barwaitEnd (key : Nat) (phase : Option Nat) (s : State) : Out := .next ((s.endWait).observe key phase).advance

/-- A new wait record; the engine's SRAM holds the most recent of its die (R262). -/
def State.sleepOn (s : State) (va : Word) (key n : Nat) (want : Word) (rd : BitVec 5) : State :=
  let flip := if n = 32 then (s.barrier key).flips.toNat else 0
  let s := { s with waits := s.waits ++ [⟨s.cpu.id, key, n, want, rd, false, va, flip⟩] }
  if !isSync key then s
  else
    let die := (key - 2 ^ 43) / 2 ^ 21
    let r := (s.syncSram.find? (fun x => x.die == die)).getD ⟨die, [], []⟩
    let r := { r with records := (s.cpu.id :: r.records.filter (fun c => c != s.cpu.id)).take 4096 }
    { s with syncSram := r :: s.syncSram.filter (fun x => x.die != die) }

/-- Waits until the barrier parity differs, then acquires the counted payloads. A recorded wait goes on whatever becomes of
the window's die (R265). (R276) -/
def execBarwait (b : BitVec 5) (a : BitVec 5) (r : BitVec 3) (s : State) : Out :=
  frontWord r [a, b] s (fun s =>
    match s.waitOf 32 with
    | some w => if w.woken then barwaitEnd w.key (some w.flip) s else .next s
    | none => withBarrier (s.x a) .read s (fun key s =>
        let v := s.x b
        if v.extractLsb' 1 63 ≠ 0 then trapOut s 1 v
        else
          let o := s.barrier key
          if !o.valid then trapOut s 9 (s.x a)
          else if o.parity ≠ v.getLsbD 0 then barwaitEnd key none s
          else .next (s.sleepOn (s.x a) key 32 v 0)))

/-- Tests for a flip, acquiring when the parity differs. (R276) -/
def execBartest (b : BitVec 5) (a : BitVec 5) (d : BitVec 5) (r : BitVec 3) (s : State) : Out :=
  frontWord r [d, a, b] s (fun s => withBarrier (s.x a) .read s (fun key s =>
    let v := s.x b
    let o := s.barrier key
    if v.extractLsb' 1 63 ≠ 0 then trapOut s 1 v
    else if !o.valid then trapOut s 9 (s.x a)
    else if o.parity ≠ v.getLsbD 0 then .next ((s.observe key none).setX d 1).advance
    else .next (s.setX d 0).advance))

/-- The engine issues one wake per cycle to a waiting cell, which resumes. (R269) -/
def execWaiterWake (s : State) : Out :=
  match s.waitOf 32 with
  | some w => if w.woken then barwaitEnd w.key (some w.flip) s else .next s
  | none => .next s

/-! ### waita (R278) -/

/-- One round of waita: the word is read; the word returns, or the cell sleeps on. -/
def waitaRound (va : Word) (key : Nat) (v : Word) (rd : BitVec 5) (s : State) : Out :=
  let w : Word := BitVec.ofNat 64 (readLE s.mem key 8)
  let s := s.endWait
  if w ≠ v then .next ((s.acquire 4).setX rd w).advance else .next (s.sleepOn va key 8 v rd)

/-- The reading of a recorded wait: it goes on whatever becomes of the word's die (R265). -/
def waitaReread (va : Word) (w : WaitRecord) (s : State) : Out :=
  if s.homeWaits w.key then .next (s.stall w.key)
  else if poisonedIn s.memPoison w.key 8 then trapOut s.endWait 0x12 va
  else waitaRound va w.key w.want w.rd (s.syncTouch w.key)

/-- Sleeps until an 8-byte word differs from a value, then acquires and returns it. (R278) -/
def execWaita (b : BitVec 5) (a : BitVec 5) (d : BitVec 5) (r : BitVec 3) (s : State) : Out :=
  frontWord r [d, a, b] s (fun s =>
    let va := s.x a
    match s.waitOf 8 with
    | some w => if w.woken then waitaReread va w s else .next s
    | none =>
      if va.extractLsb' 0 3 ≠ 0 then trapOut s 3 va
      else
        match translate s va .read with
        | .trap c l s => .next (s.trap c va l)
        | .wait s => .next s
        | .ok p _ s =>
          if !(isHbm p.pa || isLpddr p.pa || isSync p.pa) then trapOut s 5 va
          else if s.isOffline (homeDie s.fuses p) then .next (s.trap 6 va (some (homeDie s.fuses p)))
          else if s.bytesBusy (s.key p) 8 then .next s
          else
            match strongRead s p 8 4 with
            | .trap c l s => .next (s.trap c va l)
            | .wait s => .next s
            | .ok _ s => waitaRound va (s.key p) (s.x b) d s)

/-- A write performed at package scope wakes a waita to reread its word. (R278) -/
def execWaitaWake (s : State) : Out :=
  match s.waitOf 8 with
  | some w =>
    if !w.woken then .next s
    else if s.homeWaits w.key then .next (s.stall w.key)
    else if poisonedIn s.memPoison w.key 8 then .next s
    else waitaRound w.va w.key w.want w.rd s
  | none => .next s

/-! ### Reductions (R282 to R285, R288) -/

/-- Reductions of the acting cell sent and not yet applied. -/
def State.inFlight (s : State) : Nat := (s.reductions.filter (fun x => x.cell == s.cpu.id)).length

/-- The record of R288, dropped when the ring is full. -/
def redRecord (s : State) (x : Reduction) (cause flags mask : Nat) : List Byte :=
  record 4 cause (unitNo x.key) s.now x.node x.va.toNat (leBytes 1 flags ++ leBytes 1 x.op ++ leBytes 4 mask)

/-- Whether a context's ring enables the records of R288. -/
def State.redRecords (s : State) (ctx : Nat) : Bool :=
  match s.context ctx with
  | some c => (ringFlags s c.ringBase).getLsbD 0
  | none => false

/-- The flags of a context on a cell (R286). -/
def Cell.flagsOf (c : Cell) (ctx : Nat) : BitVec 2 := ((c.redFlags.find? (fun p => p.1 == ctx)).map (fun p => p.2)).getD 0

/-- Replaces them; a context without flags has no entry. -/
def Cell.setFlags (c : Cell) (ctx : Nat) (f : BitVec 2) : Cell :=
  { c with redFlags := (if f = 0 then [] else [(ctx, f)]) ++ c.redFlags.filter (fun p => p.1 != ctx) }

/-- The flags go to the context on the cell that sent the reduction, whatever the cell runs meanwhile (R286). -/
def State.raise (s : State) (x : Reduction) (f : BitVec 2) : State :=
  if f = 0 then s else s.updCell x.cell (fun c => c.setFlags x.ctx (c.flagsOf x.ctx ||| f))

/-- Why a unit discards a reduction to a row: a valid barrier in it (R267), or poison (R285). -/
def State.discards (s : State) (key : Nat) : Option Nat :=
  if s.barrierIn key 128 then some 5 else if poisonedIn s.memPoison key 128 then some 0x12 else none

/-- Before a row of HBM4E is combined its home slice drops its copy of the line (R283). -/
def State.dropSliceLine (s : State) (key : Nat) : State :=
  if isHbm key then { s with slices := s.slices.filter (fun l => l.2 != key / 128) } else s

/-- A unit applies a reduction to its row, or discards it with a record, whether or not the ring enables those of R288 (R267, R283,
R285). -/
def State.applyReduction (s : State) (x : Reduction) : State :=
  match s.discards x.key with
  | some cause => s.postOrDrop x.ctx (redRecord s x cause 0 0)
  | none =>
    let s := s.dropSliceLine x.key
    let (row, flags, mask) := combineRow x.op (BitVec.ofNat 1024 (readLE s.mem x.key 128)) x.data
    let s := ((s.homeWrite x.key (s.landing x.key (leBytes 128 row.toNat)) none).syncTouch x.key).raise x flags
    if flags ≠ 0 && s.redRecords x.ctx then s.postOrDrop x.ctx (redRecord s x 0x15 flags.toNat mask) else s

/-- A unit may apply the reduction at place `i`: it is in order, and no class-0 reduction that the unit could apply stands ahead of it
in the lanes (R373). -/
def mayApply (l : List Reduction) (i : Nat) (x : Reduction) : Bool :=
  inOrder l i x &&
  !(l.zipIdx.any (fun y => y.1.urgent && unitNo y.1.key = unitNo x.key && inOrder l y.2 y.1 && (!x.urgent || y.2 < i)))

/-- The same, at an engine whose other requests of class-0 work go first too. -/
def State.mayApply (s : State) (i : Nat) (x : Reduction) : Bool :=
  Machine.mayApply s.reductions i x && (x.urgent || !s.subtractions.any (fun y => y.urgent && unitNo y.key = unitNo x.key))

/-- A unit reads, combines and writes a row as one operation and raises flags. (R283) -/
def execReductionApply (i : Nat) (s : State) : Out :=
  match s.reductions[i]? with
  | none => .next s
  | some x =>
    if !s.mayApply i x then .next s
    else if s.homeWaits x.key then .next (s.stall x.key)
    else .next ({ s with reductions := s.reductions.eraseIdx i }.applyReduction x)

/-- reda in the vector store queue (R283): the cell's own earlier bytes of the row go home first (R98), and its L1 keeps its copy. -/
def sendReduction (op : Nat) (b : BitVec 5) (w : Cmd) (s : State) : EngOut :=
  let va := w.op0
  if va.extractLsb' 0 7 ≠ 0 then .trap w 3 va none s
  else
    match translate s va .write with
    | .trap c l s => .trap w c va l s
    | .wait s => .blocked s
    | .ok p _ s =>
      if !(isHbm p.pa || isSync p.pa) then .trap w 5 va none s
      else if s.isOffline (homeDie s.fuses p) then .trap w 6 va (some (homeDie s.fuses p)) s
      else if 64 ≤ s.inFlight then .blocked s
      else if p.pol = 0 && (findLine s.cpu.l1 p.line).any (fun x => x.dirty != 0) && s.homeWaits (s.key p) then
        .blocked (s.stall (s.key p))
      else
        let s := if p.pol = 0 then s.writeBack p.line else s
        let x : Reduction := ⟨s.cpu.id, s.cpu.ctx, s.cpu.firing, s.cpu.node, va, s.key p, op, s.cpu.rv b, s.cpu.cls = 0⟩
        let s := { s with reductions := s.reductions ++ [x] }
        let i := s.reductions.length - 1
        if s.cpu.eager && s.mayApply i x && !s.homeWaits x.key then
          .done ({ s with reductions := s.reductions.eraseIdx i }.applyReduction x)
        else .done s

/-- reda is forwarded to the vector store queue (R95). -/
def redaWord (i : Instr) (op : Nat) (b a : BitVec 5) (r : BitVec 3) (s : State) : Out :=
  forwardWord r [b.toNat] [a] .store s
    (enqueue { instr := i, queue := .store, op0 := s.x a } (sendReduction op b))

/-- The command is a reduction. -/
def Cmd.isReda (d : Cmd) : Bool :=
  match d.instr with
  | .redaF32add .. | .redaBf16add .. | .redaI32add .. | .redaF32max .. | .redaF32min .. | .redaI32max .. | .redaI32min .. => true
  | _ => false

/-- Sends a row to be added as FP32 into memory at the stack reduction unit or sync engine. (R282) -/
def unitRedaF32add (b : BitVec 5) (w : Cmd) (s : State) : EngOut := sendReduction 0 b w s
def execRedaF32add (b : BitVec 5) (a : BitVec 5) (r : BitVec 3) (s : State) : Out := redaWord (.redaF32add b a r) 0 b a r s

/-- Sends a row to be added as BF16 into memory. (R282) -/
def unitRedaBf16add (b : BitVec 5) (w : Cmd) (s : State) : EngOut := sendReduction 1 b w s
def execRedaBf16add (b : BitVec 5) (a : BitVec 5) (r : BitVec 3) (s : State) : Out := redaWord (.redaBf16add b a r) 1 b a r s

/-- Sends a row to be added as int32 into memory. (R282) -/
def unitRedaI32add (b : BitVec 5) (w : Cmd) (s : State) : EngOut := sendReduction 2 b w s
def execRedaI32add (b : BitVec 5) (a : BitVec 5) (r : BitVec 3) (s : State) : Out := redaWord (.redaI32add b a r) 2 b a r s

/-- Sends a row for an FP32 maximum into memory. (R282) -/
def unitRedaF32max (b : BitVec 5) (w : Cmd) (s : State) : EngOut := sendReduction 3 b w s
def execRedaF32max (b : BitVec 5) (a : BitVec 5) (r : BitVec 3) (s : State) : Out := redaWord (.redaF32max b a r) 3 b a r s

/-- Sends a row for an FP32 minimum into memory. (R282) -/
def unitRedaF32min (b : BitVec 5) (w : Cmd) (s : State) : EngOut := sendReduction 4 b w s
def execRedaF32min (b : BitVec 5) (a : BitVec 5) (r : BitVec 3) (s : State) : Out := redaWord (.redaF32min b a r) 4 b a r s

/-- Sends a row for a signed int32 maximum into memory. (R282) -/
def unitRedaI32max (b : BitVec 5) (w : Cmd) (s : State) : EngOut := sendReduction 5 b w s
def execRedaI32max (b : BitVec 5) (a : BitVec 5) (r : BitVec 3) (s : State) : Out := redaWord (.redaI32max b a r) 5 b a r s

/-- Sends a row for a signed int32 minimum into memory. (R282) -/
def unitRedaI32min (b : BitVec 5) (w : Cmd) (s : State) : EngOut := sendReduction 6 b w s
def execRedaI32min (b : BitVec 5) (a : BitVec 5) (r : BitVec 3) (s : State) : Out := redaWord (.redaI32min b a r) 6 b a r s

/-- Waits for the cell's reductions, returns their flags and clears them. (R286) -/
def execRedfence (d : BitVec 5) (r : BitVec 3) (s : State) : Out :=
  frontWord r [d] s (fun s =>
    if s.cpu.pending.any Cmd.isReda || s.inFlight ≠ 0 then .next s
    else .next ((s.setX d (zext64 (s.cpu.flagsOf s.cpu.ctx))).upd (fun c => c.setFlags c.ctx 0)).advance)

end Sys2Proof.Machine
end

