-- ==== Sys2Proof/Machine/Copy.lean ====
section
/-! DEFINITION. Copy engines: schedules and their entries (R245 to R252), the pool (R243), the four copy instructions (R256), the beats, lookups, completions and faults (R248 to R259). -/

namespace Sys2Proof.Machine

/-! ### Schedule entries (R245 to R248) -/

abbrev Entry := BitVec 512

/-- Bytes `b` to `b + n − 1` of an entry, as a number. -/
def Entry.at (e : Entry) (b n : Nat) : Nat := (e.extractLsb' (8 * b) (8 * n)).toNat

def Entry.cnt (e : Entry) (d : Nat) : Nat := e.at (16 + 2 * d) 2
def Entry.stride (e : Entry) (dst : Bool) (d : Nat) : Nat := e.at ((if dst then 42 else 26) + 4 * (d - 1)) 4
def Entry.stage (e : Entry) : Nat := e.at 58 1
def Entry.srck (e : Entry) : Nat := e.at 59 1 % 4
def Entry.srel (e : Entry) : Bool := (e.at 59 1).testBit 2
def Entry.dstk (e : Entry) : Nat := e.at 59 1 / 8 % 4
def Entry.drel (e : Entry) : Bool := (e.at 59 1).testBit 5
def Entry.dim (e : Entry) : Nat := e.at 60 1 % 8
def Entry.side (e : Entry) : Bool := (e.at 60 1).testBit 3
def Entry.shift (e : Entry) : Nat := e.at 61 1 % 32
def Entry.ahead (e : Entry) : Nat := e.at 62 1
def Entry.bar (e : Entry) : Bool := (e.at 63 1).testBit 0
def Entry.full (e : Entry) : Bool := (e.at 63 1).testBit 1
def Entry.word (e : Entry) : Bool := (e.at 63 1).testBit 2
def Entry.waits (e : Entry) : Bool := (e.at 63 1).testBit 3
def Entry.last (e : Entry) : Bool := (e.at 63 1).testBit 4

/-- An extension follows the entry (R247). -/
def Entry.extended (e : Entry) : Bool := e.bar || e.word

/-- T of R248, and the number of runs. -/
def Entry.runsOf (e : Entry) : Nat := e.cnt 1 * e.cnt 2 * e.cnt 3 * e.cnt 4
def Entry.total (e : Entry) : Nat := e.cnt 0 * e.runsOf

/-- The entry keeps R245, R246, R248 and R252. -/
def Entry.sound (e : Entry) : Bool :=
  4 ≤ e.cnt 0 && e.cnt 0 ≤ 65532 && e.cnt 0 % 4 = 0 && [1, 2, 3, 4].all (fun d => e.cnt d ≠ 0) && e.stage ≤ 254 &&
  e.at 59 1 / 64 = 0 && e.at 60 1 / 16 = 0 && e.dim ≤ 4 && e.at 61 1 / 32 = 0 && e.at 63 1 / 32 = 0 &&
  e.srck ≤ 1 && (!e.srel || e.srck = 0) && (!e.drel || e.dstk = 0 || e.dstk = 3) &&
  (e.srck ≠ 1 || e.at 0 8 < 2 ^ 22) && (e.dstk ≠ 1 || e.at 8 8 < 2 ^ 22) &&
  (e.dstk ≠ 2 || (e.at 8 8 % 2 ^ 32 < 2 ^ 22 && e.at 8 8 < 2 ^ 39)) &&
  [1, 2, 3, 4].all (fun d => e.stride false d % 4 = 0 && e.stride true d % 4 = 0) &&
  (e.dim = 0 || e.stride e.side e.dim < 2 ^ 22) && (!e.full || e.dstk = 1 || e.dstk = 2)

/-- The extension of an entry keeps R247. -/
def Entry.soundExt (e x : Entry) : Bool :=
  x.at 24 40 = 0 && (if e.bar then x.at 0 8 % 32 = 0 else x.at 0 8 = 0) &&
  (if e.word then
    x.at 8 8 % 8 = 0 && x.at 8 8 % 2 ^ 32 < 2 ^ 22 && x.at 8 8 / 2 ^ 39 % 2 = 0 && x.at 8 8 < 2 ^ 41
  else x.at 8 8 = 0 && x.at 16 8 = 0)

/-- The indexes j1 to j4 of run `r`. -/
def Entry.index (e : Entry) (r d : Nat) : Nat :=
  match d with
  | 1 => r % e.cnt 1
  | 2 => r / e.cnt 1 % e.cnt 2
  | 3 => r / (e.cnt 1 * e.cnt 2) % e.cnt 3
  | _ => r / (e.cnt 1 * e.cnt 2 * e.cnt 3) % e.cnt 4

/-- The lookup that run `r` uses, and how many there are (R249): one each time the indirect dimension takes a new value. -/
def Entry.inner (e : Entry) : Nat := (List.range e.dim).foldl (fun a d => if d = 0 then a else a * e.cnt d) 1
def Entry.lookup (e : Entry) (r : Nat) : Nat := if e.cnt e.dim = 1 then 0 else r / e.inner
def Entry.lookups (e : Entry) : Nat := if e.dim = 0 then 0 else if e.cnt e.dim = 1 then 1 else e.runsOf / e.inner

/-- The offset that run `r` adds on a side (R248), with the words looked up. -/
def Entry.offsetOf (e : Entry) (tbl : List Nat) (dst : Bool) (r : Nat) : Int :=
  [1, 2, 3, 4].foldl (fun a d =>
    a + (if e.dim = d && e.side = dst then (((tbl.getD (e.lookup r) 0) * 2 ^ e.shift : Nat) : Int)
      else ((e.index r d : Nat) : Int) * (BitVec.ofNat 32 (e.stride dst d)).toInt)) (0 : Int)

/-- The address of run `r` on a side: a virtual sum modulo 2^64, a scratchpad sum modulo 4 MiB (R248). -/
def Entry.virt (e : Entry) (tbl : List Nat) (dst : Bool) (base : Word) (r : Nat) : Word :=
  BitVec.ofNat 64 (e.at (if dst then 8 else 0) 8) + (if (if dst then e.drel else e.srel) then base else 0) +
    BitVec.ofInt 64 (e.offsetOf tbl dst r)
def Entry.spad (e : Entry) (tbl : List Nat) (dst : Bool) (r : Nat) : Nat :=
  ((((e.at (if dst then 8 else 0) 8 % 2 ^ 22 : Nat) : Int) + e.offsetOf tbl dst r) % 2 ^ 22).toNat

/-! ### Engines (R243, R254, R255) -/

def State.copier (s : State) (n : Nat) : Option Copier := s.copiers.find? (fun c => c.engine == n)
def State.setCopier (s : State) (c : Copier) : State :=
  { s with copiers := c :: s.copiers.filter (fun d => d.engine != c.engine) }

def Copier.id (c : Copier) : Word := BitVec.ofNat 64 (c.engine + c.serial * 2 ^ 8)
def Copier.entry (c : Copier) : Entry := c.entries.getD c.pos 0
def Copier.ext (c : Copier) : Entry := c.entries.getD (c.pos + 1) 0
def Copier.die (c : Copier) : Nat := c.engine / 16
def Copier.active (c : Copier) : Bool := c.state != .retired

/-- A free engine: its schedule retired (R253). (DESIGN CHOICE, assumption log 11) -/
def Copier.free (c : Copier) : Copier :=
  { c with
    state := .retired, cell := none, entries := [], pos := 0, counter := 0, base := 0, done := 0, tbl := [], cause := 0
    fault := none, poison := none, runs := [], lines := [], acted := false, closing := [] }

/-- What a copy id names for the acting context (R254). -/
inductive CopyRef where
  | current (c : Copier)
  | foreign
  | old
  deriving DecidableEq, Repr

def State.copyRef (s : State) (id : Word) : CopyRef :=
  if id.extractLsb' 32 32 ≠ 0 ∨ id.extractLsb' 6 2 ≠ 0 then .foreign
  else
    match s.copier (id.extractLsb' 0 6).toNat with
    | some c =>
      if c.active && c.serial = (id.extractLsb' 8 24).toNat then (if c.ctx = s.cpu.ctx then .current c else .foreign) else .old
    | none => .old

def CopyState.code : CopyState → Nat
  | .retired => 0
  | .waiting => 1
  | .running => 2
  | .faulted => 3
  | .cancelling => 4

/-- The index of the first entry not completed with its actions (R256). -/
def Copier.firstOpen (c : Copier) : Nat := (c.closing.head?.map (fun x => x.pos)).getD c.pos

/-- The status word of R255. -/
def Copier.status (c : Copier) : Word :=
  BitVec.ofNat 64 (c.state.code + c.pos * 2 ^ 8 + c.counter * 2 ^ 16 + c.cause % 256 * 2 ^ 24 + min c.done (2 ^ 32 - 1) * 2 ^ 32)

/-- The engines of a die that a request may take, in the order of R243: for class 0 the reserve engines first. -/
def State.freeEngines (s : State) (die : Nat) (urgent : Bool) : List Nat :=
  let ok (n : Nat) : Bool :=
    !((s.copier n).any Copier.active) && !s.copyWaits.any (fun w => w.granted = some n) && !s.isRetired 3 n && !s.isOffline die
  let res := ([14, 15].map (fun i => 16 * die + i)).filter ok
  let gen := ((List.range 14).map (fun i => 16 * die + i)).filter ok
  if urgent && !res.isEmpty then res else gen

/-- The request served next on a die: class 0 first, each in order of request (R243). -/
def State.nextCopyWait (s : State) (die : Nat) : Option CopyWait :=
  let ws := s.copyWaits.filter (fun w => w.die = die && w.granted.isNone)
  match ws.find? (fun w => w.urgent) with
  | some w => some w
  | none => ws.head?

/-- Grants an engine, one of those free by a free value, to the request served next. -/
def State.grantCopy (s : State) (die : Nat) : State :=
  match s.nextCopyWait die with
  | none => s
  | some w =>
    match s.freeEngines die w.urgent with
    | [] => s
    | n :: ns =>
      let (v, s) := s.free
      let e := (n :: ns).getD (v.toNat % (ns.length + 1)) n
      { s with copyWaits := s.copyWaits.map (fun x =>
          if x.cell = w.cell && x.firing = w.firing then { x with granted := some e } else x) }

/-- An engine is armed (R256): the serial advances, the schedule waits. -/
def State.armEngine (s : State) (n ctx firing node : Nat) (cell : Option Nat) (cluster : Nat) (es : List Entry) (counter : Nat)
    (base : Word) : State :=
  let serial := (((s.copier n).map (fun c => c.serial)).getD 0 + 1) % 2 ^ 24
  let tlb := ((s.copier n).map (fun c => c.tlb)).getD []
  s.setCopier ⟨n, serial, ctx, firing, node, cell, cluster, es, .waiting, 0, counter, base, 0, [], 0, none, none, [], [], false, [], tlb⟩

/-! ### Reading a schedule (R245, R256) -/

/-- What reading a schedule answers. -/
inductive Sched where
  | ok (es : List Entry) (s : State)
  | bad (offset : Nat) (s : State)
  | trap (cause : Nat) (tval : Word) (lost : Option Nat) (s : State)
  | wait (s : State)

/-- One entry of the copy area, read at home. (DEDUCED, assumption log 27) -/
def readEntry (base : Word) (o : Nat) (s : State) (k : Entry → State → Sched) : Sched :=
  let va := base + BitVec.ofNat 64 o
  match translate s va .read with
  | .trap c l s => .trap c va l s
  | .wait s => .wait s
  | .ok p _ s =>
    if s.isOffline (homeDie s.fuses p) then .trap 6 va (some (homeDie s.fuses p)) s
    else
      match homeRead s p 64 with
      | .trap c l s => .trap c va l s
      | .wait s => .wait s
      | .ok v s => k (BitVec.ofNat 512 v) s

/-- The schedule at offset `o` of a copy area of `size` bytes, read with at most `fuel` positions more; `pre` is the transfer
entry whose extension comes next. One that passes 256 entries or the end of the area is bad at the position past the last one read, or at
the entry whose extension is cut off (DESIGN CHOICE, assumption log 70). -/
def readSched (base : Word) (size : Nat) : Nat → Nat → Option Entry → List Entry → State → Sched
  | 0, o, pre, _, s => .bad (if pre.isSome then o - 64 else o) s
  | fuel + 1, o, pre, acc, s =>
    if size < o + 64 then .bad (if pre.isSome then o - 64 else o) s
    else
      readEntry base o s (fun e s =>
        match pre with
        | some d =>
          if !d.soundExt e then .bad (o - 64) s
          else if d.last then .ok (acc ++ [e]) s
          else readSched base size fuel (o + 64) none (acc ++ [e]) s
        | none =>
          if !e.sound then .bad o s
          else if e.extended then readSched base size fuel (o + 64) (some e) (acc ++ [e]) s
          else if e.last then .ok (acc ++ [e]) s
          else readSched base size fuel (o + 64) none (acc ++ [e]) s)

/-- The transfer entries of a schedule, extensions left out. -/
def transfers : List Entry → List Entry
  | [] => []
  | e :: rest =>
    if e.extended then
      match rest with
      | [] => [e]
      | _ :: more => e :: transfers more
    else e :: transfers rest

/-- T summed over a schedule. -/
def schedTotal (es : List Entry) : Nat := (transfers es).foldl (fun a e => a + e.total) 0

/-! ### cparm, cpstep, cpstat, cpcancel (R256) -/

/-- The cell's request for an engine. -/
def State.copyWaitOf (s : State) : Option CopyWait := s.copyWaits.find? (fun w => w.cell == some s.cpu.id)

/-- Waits for an engine, then arms it. -/
def armWait (es : List Entry) (counter : Nat) (base : Word) (d : BitVec 5) (s : State) : Out :=
  let s :=
    if (s.copyWaitOf).isSome then s
    else { s with copyWaits := s.copyWaits ++ [⟨some s.cpu.id, s.cpu.firing, s.cpu.die, s.cpu.cls = 0, none⟩] }
  let s := if s.cpu.eager && (s.copyWaitOf).any (fun w => w.granted.isNone) then s.grantCopy s.cpu.die else s
  match (s.copyWaitOf).bind (fun w => w.granted) with
  | none => .next s
  | some n =>
    let s := { s with copyWaits := s.copyWaits.filter (fun w => w.cell != some s.cpu.id) }
    let s := s.armEngine n s.cpu.ctx s.cpu.firing s.cpu.node (some s.cpu.id) s.cpu.cluster es counter base
    .next (s.setX d (((s.copier n).map Copier.id).getD 0)).advance

/-- Arms a checked copy schedule on an engine of the die and returns a copy id. (R256) -/
def execCparm (b : BitVec 5) (a : BitVec 5) (d : BitVec 5) (r : BitVec 3) (s : State) : Out :=
  frontWord r [d, a, b] s (fun s =>
    let c := s.x a
    if c.extractLsb' 40 24 ≠ 0 ∨ c.extractLsb' 24 8 ≠ 0 ∨ c.extractLsb' 0 6 ≠ 0 then trapOut s 1 c
    else
      let o := (c.extractLsb' 0 24).toNat
      if s.firingWaits s.cpu.firing then .next (s.firingStall s.cpu.firing)
      else
      let (base, size) := s.copyArea s.cpu.firing
      match readSched base size 256 o none [] s with
      | .trap cause tval lost s => .next (s.trap cause tval lost)
      | .wait s => .next s
      | .bad o s => trapOut s 0x0E (BitVec.ofNat 64 o)
      | .ok es s =>
        if 2 ^ 47 ≤ schedTotal es then trapOut s 0x0E (BitVec.ofNat 64 o)
        else armWait es (c.extractLsb' 32 8).toNat (s.x b) d s)

/-- Raises the stage counter of a copy schedule after a package release. (R256) -/
def execCpstep (b : BitVec 5) (a : BitVec 5) (d : BitVec 5) (r : BitVec 3) (s : State) : Out :=
  frontWord r [d, a, b] s (fun s =>
    let id := s.x a
    let n := s.x b
    if 255 < n.toNat then trapOut s 1 n
    else
      match s.copyRef id with
      | .foreign => trapOut s 5 id
      | q =>
        if !s.cpu.memoryQuiet then .next s
        else if s.releaseWaits 4 then .next s.stallRelease
        else
          let s := s.release 4
          match q with
          | .current c =>
            let k := min (c.counter + n.toNat) 255
            .next ((s.setCopier { c with counter := k }).setX d (BitVec.ofNat 64 k)).advance
          | _ => .next (s.setX d 255).advance)

/-- Reads the status word of a copy schedule. (R256) -/
def execCpstat (a : BitVec 5) (d : BitVec 5) (r : BitVec 3) (s : State) : Out :=
  frontWord r [d, a] s (fun s =>
    match s.copyRef (s.x a) with
    | .foreign => trapOut s 5 (s.x a)
    | .current c => .next (s.setX d c.status).advance
    | .old => .next (s.setX d 0).advance)

/-- Stops a copy schedule and returns the first entry not completed; it retires, which wakes its context (R372). (R256) -/
def execCpcancel (a : BitVec 5) (d : BitVec 5) (r : BitVec 3) (s : State) : Out :=
  frontWord r [d, a] s (fun s =>
    match s.copyRef (s.x a) with
    | .foreign => trapOut s 5 (s.x a)
    | .current c => .next (((s.setCopier c.free).wakeCtx c.ctx).setX d (BitVec.ofNat 64 c.firstOpen)).advance
    | .old => .next (s.setX d 0).advance)

/-! ### Entries at work (R248 to R252) -/

/-- A byte of a cluster's scratchpad lies in a window that a firing holds there (R153). -/
def State.holdsWindow (s : State) (firing cluster o : Nat) : Bool :=
  (s.allCells ++ s.saved).any (fun c => c.firing = firing && (c.running || c.preempted) && c.cluster = cluster &&
    c.winBase ≤ o && o < c.winBase + c.winSize) ||
  s.firings.any (fun f => f.id = firing && f.clusters.contains cluster && f.winBase ≤ o && o < f.winBase + f.winSize)

/-- The position after that of the current entry and its extension. -/
def Copier.after (c : Copier) : Nat := c.pos + (if c.entry.extended then 2 else 1)

/-- The next entry may start (R250): its stage is below the counter, the entry before it has issued its last beat, and, if its wait
bit is set, every earlier one has completed. -/
def Copier.mayStart (c : Copier) : Bool :=
  c.state = .waiting && c.pos < c.entries.length && c.entry.stage < c.counter && c.fault.isNone && c.closing.isEmpty

/-- The same while the entry before it has still to complete. -/
def Copier.mayOvertake (c : Copier) : Bool :=
  let e : Entry := c.entries.getD c.after 0
  c.state = .running && c.entry.total ≤ c.done && !c.entry.last && c.after < c.entries.length && e.stage < c.counter &&
  c.fault.isNone && !e.waits

def Copier.start (c : Copier) : Copier :=
  { c with state := .running, done := 0, tbl := [], poison := none, runs := [], lines := [], acted := false }

/-- The current entry joins those that have still to complete, and the next one starts. -/
def Copier.overtake (c : Copier) : Copier :=
  ({ c with closing := c.closing ++ [⟨c.pos, c.done, c.poison, c.runs, c.lines, c.acted⟩], pos := c.after } : Copier).start

/-- An engine starts the next entry once its stage, predecessor and wait conditions hold. (R250) -/
def execCopyEntryStart (engine : Nat) (s : State) : Out :=
  match s.copier engine with
  | none => .next s
  | some c =>
    if s.stalled 1 engine then .next s
    else if c.mayStart then .next (s.setCopier c.start)
    else if c.mayOvertake then .next (s.setCopier c.overtake)
    else .next s

/-- The engine meets a fault (R258) and issues nothing more. -/
def State.meetFault (s : State) (engine cause addr : Nat) : State :=
  match s.copier engine with
  | none => s
  | some c => s.setCopier { c with fault := some (cause, addr) }

/-- Whether the engine is at work on an entry and may issue. -/
def State.copying (s : State) (engine : Nat) : Option Copier :=
  match s.copier engine with
  | some c => if c.state = .running && c.fault.isNone && !s.stalled 1 engine then some c else none
  | none => none

/-- Reads one index-table word through the scratchpad in 24 cycles. (R249) -/
def execCopyIndexLookup (engine : Nat) (s : State) : Out :=
  match s.copying engine with
  | none => .next s
  | some c =>
    let e := c.entry
    let k := c.tbl.length
    if e.lookups ≤ k || e.lookup (c.done / e.cnt 0) + e.ahead < k then .next s
    else
      let o := (e.stride e.side e.dim + 4 * (k % e.cnt e.dim)) % 2 ^ 22
      if !s.holdsWindow c.firing c.cluster o || !s.holdsWindow c.firing c.cluster ((o + 3) % 2 ^ 22) then
        .next (s.meetFault engine 5 o)
      else if s.spEmpty.contains (spLineNo c.cluster o) then .next s
      else if poisonedIn s.spPoison (spKey c.cluster o) 4 then
        let (v, s) := s.free
        .next (s.setCopier { c with tbl := c.tbl ++ [v.toNat % 2 ^ 32], poison := some (c.poison.getD o) })
      else .next (s.setCopier { c with tbl := c.tbl ++ [readLE s.sp (spKey c.cluster o) 4] })

/-! ### Translation by an engine (R244) -/

/-- A change to an engine. -/
def State.updCopier (s : State) (engine : Nat) (f : Copier → Copier) : State :=
  match s.copier engine with
  | none => s
  | some c => s.setCopier (f c)

/-- Translation for an engine: its own 16-entry TLB, then the last-level TLB and the walkers of its die (R244, R230). -/
def engineXlat (c : Copier) (va : Word) (a : Access) (s : State) : Xlat :=
  let n := va.toNat
  let keep (t : TlbEntry) (s : State) : State :=
    s.updCopier c.engine (fun c => { c with tlb := (t :: c.tlb.filter (fun u => !u.samePage t)).take 16 })
  let own := ((s.copier c.engine).map (fun c => c.tlb)).getD []
  match if va.extractLsb' 54 10 ≠ 0 then none else own.find? (fun t => t.serves c.ctx n a) with
  | some t =>
    if !a.allowed t.leaf then .trap 5 none s
    else
      let p := placeOf t.leaf t.bits n
      let s := touchPage (keep t s) c.ctx n t.leaf t.bits
      if s.isOffline (homeDie s.fuses p) then .trap 6 (some (homeDie s.fuses p)) s else .ok p t.leaf s
  | none =>
    match translateFor s c.ctx c.die va a with
    | .ok p leaf s =>
      match s.llTlb.find? (fun q => q.1 = c.die && q.2.covers c.ctx n) with
      | some q => .ok p leaf (keep q.2 s)
      | none => .ok p leaf s
    | r => r

/-! ### Beats -/

/-- What one side of a beat answers: the bytes, and which of them are poisoned. -/
inductive BeatEnd where
  | ok (bytes : List Byte) (bad : List Bool) (s : State)
  | fault (cause addr : Nat) (s : State)
  | wait (s : State)

/-- Which of `n` bytes at a key lie in poisoned words (R412). -/
def badBytes (poison : List Nat) (k n : Nat) : List Bool := (List.range n).map (fun i => poison.contains ((k + i) / 8))

/-- The words in which bytes arrive poisoned. -/
def spoil (poison : List Nat) (k : Nat) (bad : List Bool) : List Nat :=
  bad.zipIdx.foldl (fun l b => if b.1 then insertNat ((k + b.2) / 8) l else l) poison

/-- Reads `n` bytes of the source of run `r` from byte `o` of the run. -/
def beatRead (c : Copier) (r o n : Nat) (s : State) : BeatEnd :=
  let e := c.entry
  if e.srck = 1 then
    let a := (e.spad c.tbl false r + o) % 2 ^ 22
    if (List.range n).any (fun i => !s.holdsWindow c.firing c.cluster ((a + i) % 2 ^ 22)) then .fault 5 a s
    else if s.spEmpty.contains (spLineNo c.cluster a) then .wait s
    else .ok (readBytes s.sp (spKey c.cluster a) n) (badBytes s.spPoison (spKey c.cluster a) n) s
  else
    let va := e.virt c.tbl false c.base r + BitVec.ofNat 64 o
    match engineXlat c va .read s with
    | .trap cause _ s => .fault cause va.toNat s
    | .wait s => .wait s
    | .ok p _ s =>
      if isDevice p.pa then
        let (v, s) := deviceRead s p.pa n
        .ok (leBytes n v) (List.replicate n false) s
      else if s.homeWaits (s.key p) then .wait (s.stall (s.key p))
      else .ok (readBytes s.mem (s.key p) n) (badBytes s.memPoison (s.key p) n) (s.syncTouch (s.key p))

/-- The cluster of a scratchpad destination. -/
def Copier.destCluster (c : Copier) : Nat := if c.entry.dstk = 2 then c.entry.at 12 1 % 128 else c.cluster

/-- Writes the bytes of a beat to the destination of run `r` from byte `o` of the run; poisoned source bytes arrive
poisoned (R259). (DEDUCED, assumption log 27) -/
def beatWrite (c : Copier) (r o : Nat) (bs : List Byte) (bad : List Bool) (s : State) : BeatEnd :=
  let e := c.entry
  let n := bs.length
  let va := e.virt c.tbl true c.base r + BitVec.ofNat 64 o
  match e.dstk with
  | 0 =>
    match engineXlat c va .write s with
    | .trap cause _ s => .fault cause va.toNat s
    | .wait s => .wait s
    | .ok p _ s =>
      let k := s.key p
      if isDevice p.pa || s.barrierIn k n then .fault 5 va.toNat s
      else if s.homeWaits k then .wait (s.stall k)
      else
        let s := (s.homeWrite k (s.landing k bs) none).syncTouch k
        let s := { s with memPoison := spoil s.memPoison k bad }
        .ok [] bad (s.updCopier c.engine (fun c => { c with runs := (k, n) :: c.runs }))
  | 3 =>
    match s.peers.find? (fun p => p.ctx == c.ctx && p.index == (va.extractLsb' 54 10).toNat) with
    | none => .fault 4 va.toNat s
    | some p => .ok [] bad { s with
        outbox := s.outbox ++ [Message.peerWrite c.ctx p.index (va &&& 0x3FFFFFFFFFFFFF#64) bs bad] }
  | _ =>
    let a := (e.spad c.tbl true r + o) % 2 ^ 22
    let cl := c.destCluster
    let k := spKey cl a
    if (List.range n).any (fun i => !s.holdsWindow c.firing cl ((a + i) % 2 ^ 22)) then .fault 5 a s
    else
      let s := { s with
        sp := writeBytes s.sp k bs
        spPoison := spoil (healed s.spPoison k n) k bad }
      .ok [] bad (s.updCopier c.engine (fun c => { c with lines := insertNat (k / 128) c.lines }))

/-- A later beat of the entry, from byte `done` on, may still write a scratchpad line. Runs whose index has not been looked up may
write any. -/
def Copier.comesBack (c : Copier) (line : Nat) : Bool :=
  let e := c.entry
  (List.range (e.runsOf - c.done / e.cnt 0)).any (fun i =>
    let r := c.done / e.cnt 0 + i
    let o := if i = 0 then c.done % e.cnt 0 else 0
    (e.dim ≠ 0 && e.side && c.tbl.length ≤ e.lookup r) ||
    (List.range ((e.cnt 0 - o + 127) / 128 + 1)).any (fun j =>
      spKey c.destCluster (e.spad c.tbl true r + min (o + 128 * j) (e.cnt 0 - 1)) / 128 = line))

/-- The full action, line by line: a written line becomes full as soon as the entry is done with it (R157, R252). -/
def fillDone (c : Copier) (s : State) : State :=
  if !c.entry.full then s
  else
    let ready := c.lines.filter (fun l => !c.comesBack l)
    { s with spEmpty := s.spEmpty.filter (fun l => !ready.contains l) }.setCopier
      { c with lines := c.lines.filter (fun l => !ready.contains l) }

/-- The engine moves its next beat of at most 64 bytes, within one aligned block of 64 on both sides (R243, R248).
(DEDUCED, assumption log 27) -/
def State.beat (s : State) (engine : Nat) : State :=
  match s.copying engine with
  | none => s
  | some c =>
    let e := c.entry
    if e.total ≤ c.done then s
    else
      let r := c.done / e.cnt 0
      let o := c.done % e.cnt 0
      if e.dim ≠ 0 && c.tbl.length ≤ e.lookup r then s
      else
        let sa := if e.srck = 1 then (e.spad c.tbl false r + o) % 2 ^ 22 else (e.virt c.tbl false c.base r).toNat + o
        let da := if e.dstk = 1 || e.dstk = 2 then e.spad c.tbl true r + o else (e.virt c.tbl true c.base r).toNat + o
        let n := min (e.cnt 0 - o) (min (64 - sa % 64) (64 - da % 64))
        match beatRead c r o n s with
        | .fault cause addr s => s.meetFault engine cause addr
        | .wait s => s
        | .ok bs bad s =>
          match beatWrite c r o bs bad s with
          | .fault cause addr s => s.meetFault engine cause addr
          | .wait s => s
          | .ok _ _ s =>
            match s.copier engine with
            | none => s
            | some c => fillDone
                { c with done := c.done + n, poison := if bad.contains true then some (c.poison.getD sa) else c.poison }
                (s.setCopier
                { c with done := c.done + n, poison := if bad.contains true then some (c.poison.getD sa) else c.poison })

/-! ### Completion, faults and cancellation (R252, R253, R257 to R259) -/

/-- The record of R258 and R259. -/
def copyRecord (s : State) (c : Copier) (cause addr : Nat) : List Byte :=
  record 3 0x0E c.engine s.now c.node addr (leBytes 1 cause ++ leBytes 2 c.pos ++ leBytes 5 0 ++ leBytes 8 c.id.toNat ++
    leBytes 8 c.done)

/-- The rest of the full action at completion: the lines still left become full (R157, R252). -/
def fullAction (c : Copier) (s : State) : State :=
  if c.entry.full then { s with spEmpty := s.spEmpty.filter (fun l => !c.lines.contains l) } else s

/-- Beats of an engine that serves class-0 work travel in the priority lanes (R243, R373). -/
def State.copyUrgent (s : State) (c : Copier) : Bool := (s.firing c.firing).any (fun f => f.cls = 0)

/-- What a completion answers: the state, or the action that failed. -/
inductive Actions where
  | ok (s : State)
  | fail (cause addr : Nat) (s : State)
  | wait (s : State)

/-- The word action. -/
def wordAction (c : Copier) (s : State) : Actions :=
  if !c.entry.word then .ok s
  else
    let w := c.ext.at 8 8
    let cl := if w.testBit 40 then c.cluster else w / 2 ^ 32 % 128
    let o := w % 2 ^ 22
    if !s.holdsWindow c.firing cl o then .fail 5 o s
    else .ok { s with
      sp := writeLE s.sp (spKey cl o) 8 (c.ext.at 16 8)
      spPoison := healed s.spPoison (spKey cl o) 8 }

/-- The bar action: T bytes are on their way to the barrier (R252, R270). -/
def barAction (c : Copier) (s : State) : Actions :=
  if !c.entry.bar then .ok s
  else
    let va : Word := BitVec.ofNat 64 (c.ext.at 0 8)
    match engineXlat c va .write s with
    | .trap cause _ s => .fail cause va.toNat s
    | .wait s => .wait s
    | .ok p _ s =>
      if !isSync p.pa then .fail 5 va.toNat s
      else .ok { s with subtractions := s.subtractions ++ [⟨s.key p, c.entry.total, c.ctx, c.runs, s.copyUrgent c⟩] }

/-- The engine goes past a completed entry: to the next, or to Retired. -/
def Copier.next (c : Copier) : Copier :=
  if c.entry.last then c.free
  else
    let c := { c with
      state := .waiting, pos := c.after, done := 0, tbl := [], poison := none, runs := [], lines := [], acted := false }
    if c.mayStart then c.start else c

/-- The engine as it stands at the oldest entry that has still to complete: that entry, or the current one. -/
def Copier.oldest (c : Copier) : Copier :=
  match c.closing with
  | [] => c
  | x :: _ => { c with pos := x.pos, done := x.done, poison := x.poison, runs := x.runs, lines := x.lines, acted := x.acted, closing := [] }

/-- The engine as it stands at each entry that has still to complete, oldest first. -/
def Copier.views (c : Copier) : List Copier :=
  c.closing.map (fun x => { c with pos := x.pos, done := x.done, poison := x.poison, runs := x.runs, lines := x.lines, acted := x.acted, closing := [] }) ++
  [{ c with closing := [] }]

/-- The engine may complete its oldest entry: one whose bytes have all been written completes also when a later entry has met a fault
(R250, R252). -/
def State.completing (s : State) (engine : Nat) : Option Copier :=
  match s.copier engine with
  | some c => if c.state = .running && (c.fault.isNone || !c.closing.isEmpty) && !s.stalled 1 engine then some c else none
  | none => none

/-- The bytes of the oldest entry have all been written. -/
def Copier.written (c : Copier) : Bool := !c.closing.isEmpty || c.entry.total ≤ c.done

/-- What the engine keeps while an action of the oldest entry waits: its full and word actions, and its record, are not repeated. -/
def Copier.actedOnce (c : Copier) : Copier :=
  match c.closing with
  | [] => { c with acted := true, poison := none }
  | x :: rest => { c with closing := { x with acted := true, poison := none } :: rest }

/-- The record of an entry that met uncorrectable data (R259). -/
def State.postPoison (s : State) (c : Copier) : State :=
  match c.poison with
  | some a => s.post c.ctx 1 c.engine (copyRecord s c 0x12 a)
  | none => s

/-- An entry whose bytes have all been written completes with its actions; the answer says whether the schedule retired. A failing
action stops the schedule at that entry (R252). -/
def State.completeEntry (s : State) (c : Copier) : State × Bool :=
  let x := c.oldest
  let s := s.postPoison x
  let stop (cause addr : Nat) (s : State) : State :=
    s.updCopier c.engine (fun d => { x with poison := none, tlb := d.tlb, fault := some (cause, addr) })
  let acts := if x.acted then .ok s else wordAction x (fullAction x s)
  match acts with
  | .fail cause addr s => (stop cause addr s, false)
  | .wait s => (s, false)
  | .ok s =>
    match barAction x s with
    | .fail cause addr s => (stop cause addr s, false)
    | .wait s => (s.updCopier c.engine Copier.actedOnce, false)
    | .ok s =>
      match c.closing with
      | _ :: rest => (s.updCopier c.engine (fun d => { d with closing := rest }), false)
      | [] =>
        let s := s.updCopier c.engine Copier.next
        if c.entry.last then (s.wakeCtx c.ctx, true) else (s, false)

/-- Sets a schedule Faulted and posts its record (R258), after that of poison which the entry has met (R259). -/
def State.faultCopy (s : State) (c : Copier) (cause addr : Nat) : State :=
  let s := (s.postPoison c).setCopier { c with state := .faulted, cause := cause, fault := none, poison := none }
  (s.post c.ctx 1 c.engine (copyRecord s c cause addr)).wakeCtx c.ctx

/-- The graph engine cancels the schedules of a firing, without a record (R257). -/
def State.cancelCopies (s : State) (firing : Nat) : State :=
  { s with
    copyWaits := s.copyWaits.filter (fun w => !(w.cell = none && w.firing = firing))
    copiers := s.copiers.map (fun c =>
      if c.active && c.firing = firing then { c with state := .cancelling, fault := none } else c) }

/-- A Cancelling schedule retires and frees its engine when beats in flight complete. (R253) -/
def execCopyCancelDrain (engine : Nat) (s : State) : Out :=
  match s.copier engine with
  | none => .next s
  | some c => if c.state = .cancelling then .next ((s.setCopier c.free).wakeCtx c.ctx) else .next s

/-- At eight postponed refreshes the controller precharges, refreshes and reopens the row: no value changes. (R261) -/
def execRefreshOwed (s : State) : Out := .next s

end Sys2Proof.Machine
end

