-- ==== Sys2Proof/Machine/Energy.lean ====
section
/-! DEFINITION. Energy accounts (R375 to R385): accounts and their records, the meters, the window boundary, enread and enest. -/

namespace Sys2Proof.Machine

/-- Limits of a signed 48-bit account (R375, R377). -/
def sat48 (x : Int) : Int := clampInt x (-2 ^ 47) (2 ^ 47 - 1)

/-- Node id of a record that a refill causes (R382). -/
def noNode : Nat := 0xFFFFFFFFFFFFFFFF

/-- The record of R382. -/
def energyRecord (s : State) (node event : Nat) (balance : Int) : List Byte :=
  record 5 0 0x400 s.now node 0 (leBytes 2 event ++ leBytes 6 0 ++ leBytes 8 (BitVec.ofInt 64 balance).toNat ++
    leBytes 8 s.windowNo)

/-- Sets a context's account, with the record of a change of sign (R382). -/
def State.setAccount (s : State) (ctx : Nat) (v : Int) (node : Nat) : State :=
  match s.context ctx with
  | none => s
  | some c =>
    let v := sat48 v
    let s := s.updContext ctx (fun c => { c with account := v })
    if 0 ≤ c.account && v < 0 then s.post ctx 3 0 (energyRecord s node 1 v)
    else if c.account < 0 && 0 ≤ v then s.post ctx 3 0 (energyRecord s node 2 v)
    else s

/-- The reserve is below 5 % of the budget (R374, R382). -/
def State.reserveLow (s : State) (v : Int) : Bool := v * 20 < (s.budget : Int)

/-- The graph has a class-0 node. -/
def State.hasClass0 (s : State) (g : Graph) : Bool := (List.range (s.nodeCount g)).any (fun i => s.nodeClass g i = 0)

/-- Owners of class-0 nodes of running graphs (R374, R426). -/
def State.class0Owners (s : State) : List Nat :=
  ((s.graphs.filter (fun g => (s.graphState g = 1 || s.graphState g = 4) && s.hasClass0 g)).map (fun g => g.ctx)).eraseDups

/-- Sets the class-0 reserve, with its records; `was` tells whether it was low. -/
def State.setReserveFrom (s : State) (was : Bool) (v : Int) (node : Nat) : State :=
  let v := sat48 v
  let s := { s with reserve := v }
  let event := if !was && s.reserveLow v then 3 else if was && !s.reserveLow v then 4 else 0
  if event = 0 then s
  else s.class0Owners.foldl (fun s ctx => s.post ctx 3 0 (energyRecord s node event v)) s

def State.setReserve (s : State) (v : Int) (node : Nat) : State := s.setReserveFrom (s.reserveLow s.reserve) v node

/-- Adds to the account that a firing draws from: the reserve for class 0 (R379). -/
def State.credit (s : State) (f : Firing) (v : Int) : State :=
  if f.cls = 0 then s.setReserve (s.reserve + v) f.node
  else
    match s.context f.ctx with
    | some c => s.setAccount f.ctx (c.account + v) f.node
    | none => s

/-- The account, or the reserve, covers an estimate; while the account is negative, no node of the context fires (R380). -/
def State.covers (s : State) (cls ctx e : Nat) : Bool :=
  match s.context ctx with
  | some c => 0 ≤ c.account && (if cls = 0 then (e : Int) ≤ s.reserve else (e : Int) ≤ c.account)
  | none => false

/-- M of a piece of work: the meters' count in µJ, rounded toward −∞ (R378). -/
def Work.metered (w : Work) : Nat := w.count / 1000000

/-- The firing's energy of one set of tokens is trued up (R379, R380). -/
def State.trueUp (s : State) (f : Firing) (w : Work) : State := s.credit f (w.reservation - (w.metered : Int))

/-! ### Work of a cell -/

/-- The work that a team of a firing does: its own for a stage node, else the firing's. -/
def Firing.work (f : Firing) (team : Nat) : Option Work :=
  match f.works.find? (fun w => w.team == team) with
  | some w => some w
  | none => f.works.find? (fun w => w.team == 0)

def Firing.setWork (f : Firing) (w : Work) : Firing :=
  { f with works := f.works.map (fun x => if x.team = w.team then w else x) }

/-- The work of the acting cell. -/
def State.workHere (s : State) : Option (Firing × Work) :=
  match s.firing s.cpu.firing with
  | none => none
  | some f => (f.work s.cpu.team).map (fun w => (f, w))

/-! ### Instructions (R384, R385) -/

/-- The figure that enread returns. -/
def energyFigure (s : State) (sel : Nat) : Word :=
  let ctx := s.context s.cpu.ctx
  let w := s.workHere
  let signed (v : Int) : Word := (BitVec.ofInt 48 v).signExtend 64
  match sel with
  | 0 => signed ((ctx.map (fun c => c.account)).getD 0)
  | 1 => signed ((w.map (fun p => p.2.reservation - (p.2.metered : Int))).getD 0)
  | 2 => BitVec.ofNat 64 ((w.map (fun p => p.2.metered)).getD 0)
  | 3 => BitVec.ofNat 64 ((ctx.map (fun c => c.refill)).getD 0)
  | 4 => BitVec.ofNat 64 s.windowNo
  | _ => signed s.reserve

/-- Reads one energy figure. (R384) -/
def execEnread (a : BitVec 5) (d : BitVec 5) (r : BitVec 3) (s : State) : Out :=
  frontWord r [d, a] s (fun s =>
    let n := s.x a
    if 5 < n.toNat then trapOut s 1 n else .next (s.setX d (energyFigure s n.toNat)).advance)

/-- Replaces the firing's energy reservation and returns the old one. (R385) -/
def execEnest (a : BitVec 5) (d : BitVec 5) (r : BitVec 3) (s : State) : Out :=
  frontWord r [d, a] s (fun s =>
    let e := s.x a
    if e.extractLsb' 47 17 ≠ 0 then trapOut s 1 e
    else
      match s.workHere with
      | none => .next (s.setX d 0).advance
      | some (f, w) =>
        let s := (s.credit f (w.reservation - (e.toNat : Int))).setFiring (f.setWork { w with reservation := e.toNat })
        .next (s.setX d (BitVec.ofInt 64 w.reservation)).advance)

/-! ### Meters and windows (R376 to R378) -/

/-- Adds cycles of an occupied cell to the entry of its firing and team. -/
def addLeak (n : Nat) (leaks : List (Nat × Nat × Nat)) (c : Cell) : List (Nat × Nat × Nat) :=
  let here (e : Nat × Nat × Nat) : Bool := e.1 == c.firing && e.2.1 == c.team
  if leaks.any here then leaks.map (fun e => if here e then (e.1, e.2.1, e.2.2 + n) else e)
  else leaks ++ [(c.firing, c.team, n)]

/-- The cycles for which cells have been occupied after `n` more (R378). -/
def State.leaksAfter (s : State) (n : Nat) : List (Nat × Nat × Nat) :=
  ((s.cpu :: s.cells).filter (fun c => c.running)).foldl (addLeak n) s.leaks

/-- The meters add `raw` of energy to the package and, where there is one, to a piece of work of a firing, with the weights of this
window (R378). -/
def State.meter (s : State) (firing team raw : Nat) : State :=
  let e := raw * s.meterScale.1 / s.meterScale.2
  let s := { s with metered := s.metered + e }
  match s.firing firing with
  | none => s
  | some f =>
    match f.work team with
    | none => s
    | some w => s.setFiring (f.setWork { w with count := w.count + e })

/-- The meters add to the works of one firing its weighted activity, of which the manual gives no weights (R378; DESIGN CHOICE,
assumption log 2). -/
def meterFiring (f : Firing) (s : State) : State :=
  if f.state ≠ .running then s
  else f.works.foldl (fun s w => { s.meter f.id w.team (Config.meterEnergy s.fresh) with fresh := s.fresh + 1 }) s

/-- The meters charge the leakage of the cells that a team has occupied, to its work, or, before and between the sets of a stage, to
the package alone (R378). -/
def meterLeak (s : State) (e : Nat × Nat × Nat) : State := s.meter e.1 e.2.1 (Config.leakage * e.2.2)

/-- Every 1 µs the meters update each firing's energy count. (R378) (DESIGN CHOICE, assumption log 2) -/
def execMeterUpdate (s : State) : Out :=
  if s.now < s.meterTime + 1500 then .next s
  else .next (s.firings.foldl (fun s f => meterFiring f s) (s.leaks.foldl meterLeak { s with meterTime := s.now, leaks := [] }))

/-- Every weight is scaled for the next window by the ratio of the rails' energy to the weighted sum of this one (R378); a window
without a weighted sum leaves the weights. -/
def State.rescale (s : State) : State :=
  if s.metered = 0 then s
  else { s with
    meterScale := (s.meterScale.1 * Config.railEnergy s.fresh, s.meterScale.2 * s.metered)
    fresh := s.fresh + 1 }

/-- The refill of a context in this window: lowered by its share of an excess, and held within the budget less the
reserve (R377). (DEDUCED, assumption log 30) -/
def State.refillOf (s : State) (c : Context) : Nat :=
  let sum := s.contexts.foldl (fun a c => a + c.refill) 0
  let lowered (r : Nat) : Nat := if sum = 0 then r else r - min r (r * s.refillCut / sum)
  let total := s.contexts.foldl (fun a c => a + lowered c.refill) 0
  let room := s.budget - s.budget * s.reservePermille / 1000
  if total ≤ room then lowered c.refill else lowered c.refill * room / total

/-- Running firings that have used more than their reservation are charged the excess (R379). (DEDUCED, assumption log 30) -/
def chargeFiring (f : Firing) (s : State) : State :=
  if f.state ≠ .running then s
  else
    f.works.foldl (fun s w =>
      if w.reservation < w.metered then
        let s := s.credit f (w.reservation - (w.metered : Int))
        match s.firing f.id with
        | none => s
        | some f => s.setFiring (f.setWork { w with reservation := w.metered })
      else s) s

/-- Every 1 ms refills the reserve and accounts, rescales meters and charges overruns. (R377) -/
def execEnergyWindowBoundary (s : State) : Out :=
  if s.now < s.windowStart + 1500000 then .next s
  else
    let excess := s.metered / 1000000 - s.budget
    let was := s.reserveLow s.reserve
    let s := { s.rescale with budget := s.budgetNext, windowNo := s.windowNo + 1, windowStart := s.windowStart + 1500000 }
    let s := s.setReserveFrom was (s.budget * s.reservePermille / 1000) noNode
    let s := s.contexts.foldl (fun t c => t.setAccount c.id (min (c.cap : Int) (c.account + s.refillOf c)) noNode) s
    let s := { s with refillCut := excess, metered := 0 }
    .next (s.firings.foldl (fun s f => chargeFiring f s) s)

end Sys2Proof.Machine
end

