-- ==== Sys2Proof/Machine/Scratch.lean ====
section
/-! DEFINITION. Scratchpad words: spfe (R159), vlds and vsts (R160), tld and tst (R161), sprot (R162, R163), and the zeroing of an ended window (R153). -/

namespace Sys2Proof.Machine

/-! ### Lines (R156, R412) -/

/-- Some line of a list of runs is empty, so that a read of them waits (R156). -/
def State.spBlocked (s : State) (runs : List (Nat × Nat)) : Bool :=
  !s.spEmpty.isEmpty && runs.any (fun r => (List.range ((r.1 % 128 + r.2 + 127) / 128)).any (fun i => s.spWaits (r.1 + 128 * i)))

/-- The first run that holds a poisoned word (R412). -/
def State.spPoisoned (s : State) (runs : List (Nat × Nat)) : Option Nat :=
  (runs.find? (fun r => s.spBad r.1 r.2)).map (fun r => r.1)

/-- What an engine does when it reads runs of scratchpad: wait on empty lines, trap on poison, or go on. The trap of R183 and R191
gives no value: the first offset of the run is the model's (DESIGN CHOICE, assumption log 52). -/
def spReading (s : State) (w : Cmd) (runs : List (Nat × Nat)) (go : EngOut) : EngOut :=
  if s.spBlocked runs then .blocked s
  else
    match s.spPoisoned runs with
    | some o => .trap w 0x12 (BitVec.ofNat 64 (o % 2 ^ 22)) none s
    | none => go

/-- Sets the lines `line` to `line + n − 1` of a cluster full or empty. -/
def State.setFull (s : State) (cluster line n : Nat) (full : Bool) : State :=
  let nos := (List.range n).map (fun i => spLineNo cluster (128 * (line + i)))
  { s with spEmpty := if full then s.spEmpty.filter (fun l => !nos.contains l) else nos.foldl (fun e l => insertNat l e) s.spEmpty }

/-! ### spfe (R159) -/

/-- spfe.empty and spfe.full. -/
def spfe (full : Bool) (a b : BitVec 5) (s : State) : Out :=
  let o := s.x a
  let n := min (s.x b).toNat 32768
  if o.extractLsb' 22 42 ≠ 0 ∨ o.extractLsb' 0 7 ≠ 0 then trapOut s 3 o
  else if n = 0 then .next s.advance
  else
    match s.cpu.outside o.toNat (128 * n) with
    | some bad => trapOut s 5 (BitVec.ofNat 64 bad)
    | none =>
      if s.cpu.rangesBusy [rangeOf true [(o.toNat, 128 * n)]] then .next s
      else .next (s.setFull s.cpu.cluster (o.toNat / 128) n full).advance

/-- Sets a run of lines empty. (R159) -/
def execSpfeEmpty (b : BitVec 5) (a : BitVec 5) (r : BitVec 3) (s : State) : Out :=
  frontWord r [a, b] s (spfe false a b)

/-- Sets a run of lines full. (R159) -/
def execSpfeFull (b : BitVec 5) (a : BitVec 5) (r : BitVec 3) (s : State) : Out :=
  frontWord r [a, b] s (spfe true a b)

/-! ### vlds and vsts (R160) -/

/-- The lanes' runs of 4 bytes; offsets have not wrapped yet, for the ranges of R102. -/
def laneRuns (o st : Word) : List (Nat × Nat) := (List.range 32).map (fun i => (o.toNat + i * st.toNat, 4))

/-- The range that the command records. -/
def laneRanges (write : Bool) (b : BitVec 5) (op0 op1 : Word) : List Range := [rangeOf write (laneRuns op0 (strideOf b op1))]

/-- The checks of vlds and vsts. (DEDUCED, assumption log 19) -/
def laneCheck (c : Cell) (o st : Word) : Option (Nat × Word) :=
  if o.extractLsb' 22 42 ≠ 0 ∨ o.extractLsb' 0 2 ≠ 0 then some (3, o)
  else if st.extractLsb' 22 42 ≠ 0 ∨ st.extractLsb' 0 2 ≠ 0 then some (3, st)
  else (c.outsideAny (laneRuns o st)).map (fun bad => (5, BitVec.ofNat 64 bad))

/-- Strided load of 32 lanes from scratchpad, waiting on empty lines. (R160) -/
def unitVlds (b : BitVec 5) (d : BitVec 5) (w : Cmd) (s : State) : EngOut :=
  let st := strideOf b w.op1
  match laneCheck s.cpu w.op0 st with
  | some (c, v) => .trap w c v none s
  | none =>
    let runs := laneRuns w.op0 st
    spReading s w runs (.done (s.setV d (ofLanes (fun i => BitVec.ofNat 32 (s.spRead (runs.getD i (0, 0)).1 4)))))

/-- vlds is forwarded to its queue (R95). -/
def execVlds (b : BitVec 5) (a : BitVec 5) (d : BitVec 5) (r : BitVec 3) (s : State) : Out :=
  forwardWord r [d.toNat] [a, b] .load s (enqueue {
      instr := .vlds b a d r, queue := .load, op0 := s.x a, op1 := s.x b
      ranges := laneRanges false b (s.x a) (s.x b) } (unitVlds b d))

/-- Strided store of 32 lanes to scratchpad. (R160) -/
def unitVsts (b : BitVec 5) (d : BitVec 5) (w : Cmd) (s : State) : EngOut :=
  let st := strideOf b w.op1
  match laneCheck s.cpu w.op0 st with
  | some (c, v) => .trap w c v none s
  | none =>
    .done ((List.range 32).foldl (fun t i => t.spWrite (w.op0.toNat + i * st.toNat) 4 (lane (s.cpu.rv d) i).toNat) s)

/-- vsts is forwarded to its queue (R95). -/
def execVsts (b : BitVec 5) (a : BitVec 5) (d : BitVec 5) (r : BitVec 3) (s : State) : Out :=
  forwardWord r [d.toNat] [a, b] .store s (enqueue {
      instr := .vsts b a d r, queue := .store, op0 := s.x a, op1 := s.x b
      ranges := laneRanges true b (s.x a) (s.x b) } (unitVsts b d))

/-! ### tld and tst (R161) -/

/-- The checks of a view of loop value `l`: alignment (R155) with trap value `v`, then some runs of bytes against the window (R153). -/
def viewCheck (c : Cell) (p : Pair) (v : Word) (runs : List (Nat × Nat)) : Except (Nat × Word) Pair :=
  if !p.aligned then .error (3, v)
  else
    match c.outsideAny runs with
    | some bad => .error (5, BitVec.ofNat 64 bad)
    | none => .ok p

/-- The pair of a view with its checks: decoding (R47), alignment, the window (R155). (DEDUCED, assumption log 19) -/
def viewOf (c : Cell) (n : BitVec 5) : Except (Nat × Word) Pair :=
  match c.spPair n with
  | none => .error (3, c.rx n)
  | some p => viewCheck c p (c.rx n) (p.rows c.loopValue)

/-- The runs of a captured view. -/
def viewRuns (compact : Word) (lv : Nat) : List (Nat × Nat) := (Pair.ofCompact compact).rows lv

/-- Loads a tile from a scratchpad view. (R161) -/
def unitTld (d : BitVec 5) (w : Cmd) (s : State) : EngOut :=
  let runs := viewRuns w.op0 w.lv
  spReading s w runs (.done (s.upd (fun c => c.wm d.toNat (Vector.ofFn (fun i => s.spLine (runs.getD i.val (0, 0)).1)))))

/-- tld is forwarded to the matrix queue (R95). -/
def execTld (a : BitVec 5) (d : BitVec 5) (r : BitVec 3) (s : State) : Out :=
  forwardWord r [] [a, a + 1] .matrix s (fun s =>
    match viewOf s.cpu a with
    | .error (c, v) => trapOut s c v
    | .ok p => enqueue {
      instr := .tld a d r, queue := .matrix, op0 := p.compact, lv := s.cpu.loopValue
      ranges := [rangeOf false (p.rows s.cpu.loopValue)] } (unitTld d) s)

/-- Stores a tile to a scratchpad view, row 0 first. (R161) -/
def unitTst (d : BitVec 5) (w : Cmd) (s : State) : EngOut :=
  let p := Pair.ofCompact w.op0
  .done ((List.range 32).foldl (fun t i => t.setSpLine (p.spRow w.lv i) (tileRow (s.cpu.rm d.toNat) i)) s)

/-- tst is forwarded to the matrix queue (R95). -/
def execTst (a : BitVec 5) (d : BitVec 5) (r : BitVec 3) (s : State) : Out :=
  forwardWord r [] [a, a + 1] .matrix s (fun s =>
    match viewOf s.cpu a with
    | .error (c, v) => trapOut s c v
    | .ok p => enqueue {
      instr := .tst a d r, queue := .matrix, op0 := p.compact, lv := s.cpu.loopValue
      ranges := [rangeOf true (p.rows s.cpu.loopValue)] } (unitTst d) s)

/-! ### sprot (R162, R163, R117) -/

/-- `S_p(i)` and `D_p(i)`. -/
def rotSource (p : Pair) (l pos i : Nat) : Nat := pos * 2 ^ 20 + p.spRow l i % 2 ^ 20
def rotDest (p : Pair) (l pos i : Nat) : Nat := (pos + 1) % 4 * 2 ^ 20 + p.spRow l i % 2 ^ 20

def rotSources (p : Pair) (l pos : Nat) : List (Nat × Nat) := (List.range 32).map (fun i => (rotSource p l pos i, 128))
def rotDests (p : Pair) (l pos : Nat) : List (Nat × Nat) := (List.range 32).map (fun i => (rotDest p l pos i, 128))

/-- The ranges of a sprot: its source view and its destination view. -/
def rotRanges (p : Pair) (l pos : Nat) : List Range := [rangeOf false (rotSources p l pos), rangeOf true (rotDests p l pos)]

/-- The bytes that a sprot moves, row by row: the source, then the destination. -/
def rotRows (p : Pair) (l pos : Nat) : List (Nat × Nat) :=
  (List.range 32).flatMap (fun i => [(rotSource p l pos i, 128), (rotDest p l pos i, 128)])

/-- The checks of R162 on a pair, with trap value `v`. -/
def rotPair (c : Cell) (p : Pair) (v : Word) (l : Nat) : Except (Nat × Word) Pair :=
  if p.base / 2 ^ 20 ≠ 0 then .error (3, v) else viewCheck c p v (rotRows p l c.pos)

/-- The checks of R162. (DEDUCED, assumption log 19) -/
def rotCheck (c : Cell) (a : BitVec 5) : Except (Nat × Word) Pair :=
  if c.tsize ≠ 4 then .error (1, BitVec.ofNat 64 c.tsize)
  else
    match c.spPair a with
    | none => .error (3, c.rx a)
    | some p => rotPair c p (c.rx a) c.loopValue

/-- The place of the first sprot among a cell's commands, which has advanced the phase count. -/
def Cell.rotAt (c : Cell) : Option (Nat × Cmd) :=
  match c.pending.findIdx? (fun d => match d.instr with
    | .sprot .. => true
    | _ => false) with
  | none => none
  | some i =>
    match c.pending[i]? with
    | some d => if d.aux = 1 then some (i, d) else none
    | none => none

/-- The other members of the team on the acting cell's cluster. -/
def rotTeam (s : State) : List Cell :=
  s.allCells.filter (fun d => d.cluster = s.cpu.cluster && d.firing = s.cpu.firing && d.team = s.cpu.team && d.running)

/-- Every earlier command of a cell has finished with the ranges that overlap some lines, and every earlier read has returned before
other cells see the rotated rows (R319). -/
def rotFree (c : Cell) (i : Nat) (lines : List Range) : Bool :=
  (c.pending.take i).all (fun d =>
    !d.readsMemory && !d.ranges.any (fun r => lines.any (fun l => overlap r.line r.count l.line l.count)))

/-- All four cells have reached the same count and may move the row (R163): the cells with their commands, by position.
(DEDUCED, assumption log 20) -/
def rotReady (s : State) : Option (List (Cell × Nat × Cmd)) :=
  let team := rotTeam s
  if team.length ≠ 4 || team.any (fun d => d.phaseCount != s.cpu.phaseCount) then none
  else
    let cmds := team.filterMap (fun c => (c.rotAt).map (fun p => (c, p.1, p.2)))
    if cmds.length ≠ 4 then none
    else
      let pairOf (d : Cmd) : Pair := Pair.ofCompact d.op0
      let free := cmds.all (fun (c, i, d) =>
        let prev := (cmds.find? (fun q => (q.1.pos + 1) % 4 == c.pos)).map (fun q => rotDests (pairOf q.2.2) q.2.2.lv q.1.pos)
        rotFree c i (rotRanges (pairOf d) d.lv c.pos ++ (match prev with
          | some runs => [rangeOf true runs]
          | none => [])))
      if free then some cmds else none

/-- Advances the phase count once, then, with all four cells there, moves one row of each (R163). -/
def unitSprot (w : Cmd) (s : State) : EngOut :=
  if 32 ≤ w.progress then .done s
  else if w.aux ≠ 1 then
    .more { w with aux := 1 } (s.upd (fun c => { c with phaseCount := c.phaseCount + 1 }))
  else
    match rotReady s with
    | none => .blocked s
    | some cmds =>
      let i := w.progress
      let src (q : Cell × Nat × Cmd) : Nat := rotSource (Pair.ofCompact q.2.2.op0) q.2.2.lv q.1.pos i
      let dst (q : Cell × Nat × Cmd) : Nat := rotDest (Pair.ofCompact q.2.2.op0) q.2.2.lv q.1.pos i
      if cmds.any (fun q => q.2.2.progress != i) || s.spBlocked (cmds.map (fun q => (src q, 128))) then .blocked s
      else
        match s.spPoisoned (cmds.map (fun q => (src q, 128))) with
        | some o => .trap w 0x12 (BitVec.ofNat 64 o) none s
        | none =>
          let moved := cmds.foldl (fun t q => t.setSpLine (dst q) (s.spLine (src q))) s
          let moved := cmds.foldl (fun t q =>
            t.updCell q.1.id (fun c => { c with
              pending := c.pending.set q.2.1 { q.2.2 with progress := i + 1, started := true } })) moved
          if i + 1 < 32 then .more { w with progress := i + 1 } moved else .done moved

/-- sprot is forwarded to the vector store queue (R95). -/
def execSprot (a : BitVec 5) (r : BitVec 3) (s : State) : Out :=
  forwardWord r [] [a, a + 1] .store s (fun s =>
    match rotCheck s.cpu a with
    | .error (c, v) => trapOut s c v
    | .ok p => enqueue {
      instr := .sprot a r, queue := .store, op0 := p.compact, lv := s.cpu.loopValue
      ranges := rotRanges p s.cpu.loopValue s.cpu.pos } unitSprot s)

/-! ### The end of a window (R153) -/

/-- Whether a scratchpad key lies in a window of a cluster. -/
def inWindow (z : Zeroing) (k : Nat) : Bool := k / 2 ^ 22 = z.cluster && z.base ≤ k % 2 ^ 22 && k % 2 ^ 22 < z.base + z.size

/-- Every line of the window zero and full. -/
def State.zeroWindow (s : State) (z : Zeroing) : State :=
  { s with
    sp := s.sp.filter (fun e => !inWindow z e.1)
    spEmpty := s.spEmpty.filter (fun l => !inWindow z (128 * l))
    spPoison := s.spPoison.filter (fun w => !inWindow z (8 * w))
    zeroing := s.zeroing.erase z }

/-- Zeroes every line of an ended firing's window and sets it full, taking 1,024 cycles. (R153) -/
def execWindowZeroing (cluster : Nat) (base : Nat) (s : State) : Out :=
  match s.zeroing.find? (fun z => z.cluster == cluster && z.base == base) with
  | some z => .next (s.zeroWindow z)
  | none => .next s

end Sys2Proof.Machine
end

