-- ==== Sys2Proof/Machine/Matrix.lean ====
section
/-! DEFINITION. The matrix engine, the accumulator ring and the epilogue (R86 to R90, R174 to R193). -/

namespace Sys2Proof.Machine

/-! ### Formats of an entry (R85, R88) -/

def compactFmt (c : BitVec 20) : Fmt := (decodeCompact c).getD fp32
def entryA (e : Word) : Fmt := compactFmt (e.extractLsb' 0 20)
def entryB (e : Word) : Fmt := compactFmt (e.extractLsb' 20 20)

/-- N of the sparse field: kept elements of a group (R85). -/
def entryN (e : Word) : Nat :=
  match (e.extractLsb' 60 2).toNat with
  | 0 => 0
  | 1 => 8
  | 2 => 12
  | _ => 16

/-- K and the sum group G (R88). -/
def kClass (a b : Fmt) : Nat × Nat :=
  if a.width = 16 || b.width = 16 then (64, 4) else if a.width = 8 || b.width = 8 then (128, 8) else (256, 16)

def isFp32 (f : Fmt) : Bool := f.width = 32

/-! ### Operand rows (R181, R182) -/

/-- Code `k` of a row. -/
def rowCode (f : Fmt) (row k : Nat) : FpVal := decodeCode f (row / 2 ^ (f.width * k) % 2 ^ f.width)

/-- The runs of a view's rows, and of their companions when they are read. -/
def operandRuns (compact : Word) (lv : Nat) (companion : Bool) : List (Nat × Nat) :=
  let runs := viewRuns compact lv
  if companion then runs ++ runs.map (fun r => (r.1 + 128, 128)) else runs

/-- Bytes of a row of A that a product needs, and of its companion (R181, R184): its codes, and the metadata. -/
def needA (sparse : Bool) (e : Word) : Nat × Nat :=
  let w := (entryA e).width
  if sparse then (4 * entryN e * w / 8, 20 * entryN e / 8) else ((kClass (entryA e) (entryB e)).1 * w / 8, 0)

/-- The same for a row of B, whose codes may reach into the companion. -/
def needB (sparse : Bool) (e : Word) : Nat × Nat :=
  let w := (entryB e).width
  if sparse then (min 128 (96 * w / 8), 96 * w / 8 - 128) else ((kClass (entryA e) (entryB e)).1 * w / 8, 0)

/-- The runs that a product reads of a view: bytes a row does not need are not read (R181). -/
def neededRuns (compact : Word) (lv : Nat) (need : Nat × Nat) : List (Nat × Nat) :=
  let rows := viewRuns compact lv
  rows.map (fun r => (r.1, need.1)) ++ if need.2 = 0 then [] else rows.map (fun r => (r.1 + 128, need.2))

/-- Row `i` of an operand with its companion from byte 128 on. -/
def operandRow (s : State) (view : BitVec 1) (n : BitVec 5) (compact : Word) (lv i : Nat) : Nat :=
  if view = 1 then
    let o := (Pair.ofCompact compact).spRow lv i
    s.spRead o 128 + s.spRead (o + 128) 128 * 2 ^ 1024
  else (tileRow (s.cpu.rm n.toNat) i).toNat + (tileRow (s.cpu.rm (n.toNat + 1)) i).toNat * 2 ^ 1024

/-! ### Sums (R90) -/

/-- One sum group: the accumulator, the kept pairs, and the sign. -/
def sumGroup (neg : Bool) (acc : Option Lane) (ps : List (FpVal × FpVal)) : Lane :=
  if (acc.map isNaN32).getD false || ps.any (fun p => p.1.isNaN || p.2.isNaN) then canonNaN
  else
    let terms := ps.map (fun p => if neg then (p.1.mul p.2).neg else p.1.mul p.2)
    rn32 (sumVals (acc.toList.map val32 ++ terms))

/-- The sum groups in order. -/
def sumGroups (neg : Bool) : Option Lane → List (List (FpVal × FpVal)) → Lane
  | acc, [] => acc.getD 0
  | acc, g :: rest => sumGroups neg (some (sumGroup neg acc g)) rest

/-- The pairs of a dense element by sum group. -/
def denseGroups (e : Word) (a b : Nat) : List (List (FpVal × FpVal)) :=
  let fa := entryA e
  let fb := entryB e
  let (k, g) := kClass fa fb
  (List.range (k / g)).map (fun q => (List.range g).map (fun j => (rowCode fa a (q * g + j), rowCode fb b (q * g + j))))

/-- The kept pairs of group `g` of 24 positions (R89): the metadata stands in A's companion. -/
def sparsePairs (e : Word) (a b g : Nat) : List (FpVal × FpVal) :=
  (List.range (entryN e)).filterMap (fun j =>
    let q := g * entryN e + j
    let p := a / 2 ^ (1024 + 5 * q) % 32
    if 24 ≤ p then none else some (rowCode (entryA e) a q, rowCode (entryB e) b (24 * g + p)))

/-- The NaNs of B among the 24 positions of group `g`, each as a pair: one makes the group's sum NaN whether a kept element selects
it or not (R90). -/
def sparseNans (e : Word) (b g : Nat) : List (FpVal × FpVal) :=
  (((List.range 24).map (fun p => rowCode (entryB e) b (24 * g + p))).filter FpVal.isNaN).map (fun v => (v, v))

/-- The pairs of a sparse element by group. -/
def sparseGroups (e : Word) (a b : Nat) : List (List (FpVal × FpVal)) :=
  (List.range 4).map (fun g => sparsePairs e a b g ++ sparseNans e b g)

/-- The tile of results. -/
def product (sparse neg keep : Bool) (e : Word) (old : Tile) (a b : Nat → Nat) : Tile :=
  Vector.ofFn (fun i => ofLanes (fun j =>
    sumGroups neg (if keep then some (lane (tileRow old i) j) else none)
      (if sparse then sparseGroups e (a i) (b j) else denseGroups e (a i) (b j))))

/-! ### Slots (R174, R175, R84) -/

def Cell.slotIx (c : Cell) (k : Nat) : Fin 24 := mod24 (k % 2 ^ 32 % c.accS)
def Cell.slot (c : Cell) (k : Nat) : Tile := c.acc[c.slotIx k]

/-- Writes the slot of a ring index and tags it with the epilogue mode; `ofmt` none leaves its output format. -/
def Cell.setSlot (c : Cell) (k : Nat) (t : Tile) (ofmt : Option (BitVec 20)) : Cell :=
  let i := c.slotIx k
  { c with
    acc := c.acc.set i t
    accTag := c.accTag.set i ⟨ofmt.getD c.accTag[i].ofmt, c.epiMode⟩ }

/-- Program order sets a slot's output format. (DEDUCED, assumption log 20) -/
def Cell.noteFmt (c : Cell) (k : Nat) (ofmt : BitVec 20) : Cell := { c with accFmt := c.accFmt.set (c.slotIx k) ofmt }

/-- Live slots: H − T. -/
def Cell.live (c : Cell) : Nat := (c.accH - c.accT).toNat

/-- The slots that an epi in the replay queue still holds (R192). -/
def Cmd.epiSlots (size : Nat) (d : Cmd) : List Res :=
  match d.instr with
  | .epi .. => d.reads size
  | _ => []

/-- A command that writes these slots waits for an epi that stands in the replay queue (R192). -/
def Cell.slotsHeld (c : Cell) (rs : List Res) : Bool := c.replay.any (fun d => meets (d.epiSlots c.accS) rs)

/-- Trap value of an offset beyond the live slots (R175). -/
def slotTrap (o : BitVec 4) : Word := BitVec.ofNat 64 (0x100 + o.toNat)

/-! ### mma and mmas (R183, R184) -/

/-- The checks on one operand at issue: its compact pair. -/
def operandCheck (c : Cell) (view : BitVec 1) (n : BitVec 5) (companion : Bool) : Except (Nat × Word) Word :=
  if view ≠ 1 then .ok 0
  else
    match c.spPair n with
    | none => .error (3, c.rx n)
    | some p => (viewCheck c p (c.rx n) (operandRuns p.compact c.loopValue companion)).map Pair.compact

/-- The checks on the table entry of a product (R88, R183). -/
def entryCheck (sparse : Bool) (e : Word) : Option (Nat × Word) :=
  if isFp32 (entryA e) || isFp32 (entryB e) || (sparse && entryN e = 0) then some (1, e) else none

/-- Whether an operand's rows reach into their companions. -/
def companionA (sparse : Bool) : Bool := sparse
def companionB (sparse : Bool) (e : Word) : Bool := sparse && (entryB e).width = 16

/-- The ranges that a product records. -/
def productRanges (sparse : Bool) (x y : BitVec 1) (e op0 op1 : Word) (lv : Nat) : List Range :=
  (if x = 1 then [rangeOf false (operandRuns op0 lv (companionA sparse))] else []) ++
  (if y = 1 then [rangeOf false (operandRuns op1 lv (companionB sparse e))] else [])

/-- The registers that an operand reads at the front end. -/
def pairRegs (view : BitVec 1) (n : BitVec 5) : List (BitVec 5) := if view = 1 then [n, n + 1] else []

/-- A product in the matrix engine. -/
def unitProduct (sparse neg keep : Bool) (b a : BitVec 5) (x y : BitVec 1) (o : BitVec 4) (w : Cmd) (s : State) : EngOut :=
  let e := w.aux
  let k := w.slotAt o
  let runs := (if x = 1 then neededRuns w.op0 w.lv (needA sparse e) else []) ++
    (if y = 1 then neededRuns w.op1 w.lv (needB sparse e) else [])
  if s.cpu.slotsHeld (slotRun s.cpu.accS k 1) then .blocked s
  else
    spReading s w runs
      (let t := product sparse neg keep e (s.cpu.slot k) (operandRow s x a w.op0 w.lv) (operandRow s y b w.op1 w.lv)
       .done (s.upd (fun c => c.setSlot k t (some (e.extractLsb' 40 20)))))

/-- A product at issue. -/
def issueProduct (i : Instr) (sparse neg keep : Bool) (b a : BitVec 5) (x y : BitVec 1) (o : BitVec 4) (r : BitVec 3)
    (s : State) : Out :=
  forwardWord r [] (pairRegs x a ++ pairRegs y b) .matrix s (fun s =>
    let c := s.cpu
    let e := c.ftEntry
    if isFp32 (entryA e) || isFp32 (entryB e) || (sparse && entryN e = 0) then trapOut s 1 e
    else if c.live ≤ o.toNat then trapOut s 2 (slotTrap o)
    else
      match operandCheck c x a (companionA sparse) with
      | .error (q, v) => trapOut s q v
      | .ok op0 =>
        match operandCheck c y b (companionB sparse e) with
        | .error (q, v) => trapOut s q v
        | .ok op1 =>
          let k := (c.accH - 1).toNat + 2 ^ 32 - o.toNat
          enqueue {
            instr := i
            queue := .matrix
            op0 := op0
            op1 := op1
            aux := e
            lv := c.loopValue
            ranges := productRanges sparse x y e op0 op1 c.loopValue
            also := fun c => c.noteFmt (k % 2 ^ 32) (e.extractLsb' 40 20) }
            (unitProduct sparse neg keep b a x y o) s)

/-- Tile product overwriting a ring slot, in the sum order of R90. (R183) -/
def unitMma (b a : BitVec 5) (x y : BitVec 1) (o : BitVec 4) (w : Cmd) (s : State) : EngOut :=
  unitProduct false false false b a x y o w s
def execMma (b : BitVec 5) (a : BitVec 5) (x : BitVec 1) (y : BitVec 1) (o : BitVec 4) (r : BitVec 3) (s : State) : Out :=
  issueProduct (.mma b a x y o r) false false false b a x y o r s

/-- Tile product accumulated into a ring slot. (R183) -/
def unitMmaAcc (b a : BitVec 5) (x y : BitVec 1) (o : BitVec 4) (w : Cmd) (s : State) : EngOut :=
  unitProduct false false true b a x y o w s
def execMmaAcc (b : BitVec 5) (a : BitVec 5) (x : BitVec 1) (y : BitVec 1) (o : BitVec 4) (r : BitVec 3) (s : State) : Out :=
  issueProduct (.mmaAcc b a x y o r) false false true b a x y o r s

/-- Negated tile product accumulated into a ring slot. (R183) -/
def unitMmaNeg (b a : BitVec 5) (x y : BitVec 1) (o : BitVec 4) (w : Cmd) (s : State) : EngOut :=
  unitProduct false true true b a x y o w s
def execMmaNeg (b : BitVec 5) (a : BitVec 5) (x : BitVec 1) (y : BitVec 1) (o : BitVec 4) (r : BitVec 3) (s : State) : Out :=
  issueProduct (.mmaNeg b a x y o r) false true true b a x y o r s

/-- Sparse tile product overwriting a ring slot. (R184) -/
def unitMmas (b a : BitVec 5) (x y : BitVec 1) (o : BitVec 4) (w : Cmd) (s : State) : EngOut :=
  unitProduct true false false b a x y o w s
def execMmas (b : BitVec 5) (a : BitVec 5) (x : BitVec 1) (y : BitVec 1) (o : BitVec 4) (r : BitVec 3) (s : State) : Out :=
  issueProduct (.mmas b a x y o r) true false false b a x y o r s

/-- Sparse tile product accumulated into a ring slot. (R184) -/
def unitMmasAcc (b a : BitVec 5) (x y : BitVec 1) (o : BitVec 4) (w : Cmd) (s : State) : EngOut :=
  unitProduct true false true b a x y o w s
def execMmasAcc (b : BitVec 5) (a : BitVec 5) (x : BitVec 1) (y : BitVec 1) (o : BitVec 4) (r : BitVec 3) (s : State) : Out :=
  issueProduct (.mmasAcc b a x y o r) true false true b a x y o r s

/-- Negated sparse tile product accumulated into a ring slot. (R184) -/
def unitMmasNeg (b a : BitVec 5) (x y : BitVec 1) (o : BitVec 4) (w : Cmd) (s : State) : EngOut :=
  unitProduct true true true b a x y o w s
def execMmasNeg (b : BitVec 5) (a : BitVec 5) (x : BitVec 1) (y : BitVec 1) (o : BitVec 4) (r : BitVec 3) (s : State) : Out :=
  issueProduct (.mmasNeg b a x y o r) true true true b a x y o r s

/-! ### accz (R186) -/

/-- Zeroes and tags `n` slots from ring index `k` on. -/
def zeroSlots (ofmt : BitVec 20) (k : Nat) : Nat → Cell → Cell
  | 0, c => c
  | n + 1, c => (zeroSlots ofmt k n c).setSlot (k + n) (Vector.replicate 32 0) (some ofmt)

def noteFmts (ofmt : BitVec 20) (k : Nat) : Nat → Cell → Cell
  | 0, c => c
  | n + 1, c => (noteFmts ofmt k n c).noteFmt (k + n) ofmt

/-- Pushes n zeroed, tagged slots onto the accumulator ring. (R186) -/
def unitAccz (n : BitVec 4) (w : Cmd) (s : State) : EngOut :=
  if s.cpu.slotsHeld (slotRun s.cpu.accS w.idx (n.toNat + 1)) then .blocked s
  else .done (s.upd (zeroSlots (w.aux.extractLsb' 40 20) w.idx (n.toNat + 1)))
def execAccz (n : BitVec 4) (r : BitVec 3) (s : State) : Out :=
  forwardWord r [] [] .matrix s (fun s =>
    let c := s.cpu
    let e := c.ftEntry
    if c.accS < c.live + n.toNat + 1 then trapOut s 2 (BitVec.ofNat 64 (0x200 + n.toNat + 1))
    else
      enqueue {
        instr := .accz n r
        queue := .matrix
        aux := e
        lv := c.loopValue
        also := fun c => { noteFmts (e.extractLsb' 40 20) c.accH.toNat (n.toNat + 1) c with
          accH := c.accH + BitVec.ofNat 32 (n.toNat + 1) } }
        (unitAccz n) s)

/-! ### accscl (R187) -/

/-- A slot with each row scaled by a power of two. -/
def scaleTile (t : Tile) (e : Nat → Int) : Tile :=
  Vector.ofFn (fun i => ofLanes (fun j =>
    match val32 (lane (tileRow t i) j) with
    | .fin n m x => rn32 (.fin n m (x + clampInt (e i) (-1024) 1024))
    | v => rn32 v))

def unitScale (o : BitVec 4) (e : Nat → Int) (w : Cmd) (s : State) : EngOut :=
  let k := w.slotAt o
  if s.cpu.slotsHeld (slotRun s.cpu.accS k 1) then .blocked s
  else .done (s.upd (fun c => c.setSlot k (scaleTile (c.slot k) e) none))

/-- A command on the slot at an offset, checked at issue (R175). -/
def issueSlot (i : Instr) (vs : List Nat) (regs : List (BitVec 5)) (op0 : Word) (o : BitVec 4) (r : BitVec 3)
    (unit : Cmd → State → EngOut) (s : State) : Out :=
  forwardWord r vs regs .matrix s (fun s =>
    if s.cpu.live ≤ o.toNat then trapOut s 2 (slotTrap o)
    else enqueue { instr := i, queue := .matrix, op0 := op0 } unit s)

/-- Scales slot rows by powers of two from a vector register. (R187) -/
def unitAccscl (v : BitVec 5) (o : BitVec 4) (w : Cmd) (s : State) : EngOut :=
  unitScale o (fun i => (lane (s.cpu.rv v) i).toInt) w s
def execAccscl (v : BitVec 5) (o : BitVec 4) (r : BitVec 3) (s : State) : Out :=
  issueSlot (.accscl v o r) [v.toNat] [] 0 o r (unitAccscl v o) s

/-- Scales every slot row by one power of two. (R187) -/
def unitAccsclX (o : BitVec 4) (w : Cmd) (s : State) : EngOut := unitScale o (fun _ => w.op0.toInt) w s
def execAccsclX (v : BitVec 5) (o : BitVec 4) (r : BitVec 3) (s : State) : Out :=
  issueSlot (.accsclX v o r) [] [v] (s.x v) o r (unitAccsclX o) s

/-! ### accrd and accwr (R188) -/

/-- Column `t` of a tile as a register. -/
def tileCol (x : Tile) (t : Nat) : VReg := ofLanes (fun c => lane (tileRow x c) t)
def setTileCol (x : Tile) (t : Nat) (v : VReg) : Tile := Vector.ofFn (fun c => setLane (tileRow x c) t (lane v c))

def regAt (d : BitVec 5) (q : Nat) : BitVec 5 := d + BitVec.ofNat 5 q

/-- Row or column `r + q` of a slot (R188). -/
def slotLine (col : Bool) (x : Tile) (t : BitVec 5) (q : Nat) : VReg :=
  let p := (t.toNat + q) % 32
  if col then tileCol x p else tileRow x p

/-- A slot with row or column `r + q` replaced. -/
def setSlotLine (col : Bool) (x : Tile) (t : BitVec 5) (q : Nat) (v : VReg) : Tile :=
  let p := (t.toNat + q) % 32
  if col then setTileCol x p v else setTileRow x p v

/-- The next row or column, or the end after the last one. -/
def nextRow (n : Nat) (w : Cmd) (s : State) : EngOut :=
  if w.progress + 1 < n then .more { w with progress := w.progress + 1 } s else .done s

/-- accrd by rows or columns, one a unit; pidx counts them (R188). -/
def unitRead (col : Bool) (n : BitVec 2) (t d : BitVec 5) (o : BitVec 4) (w : Cmd) (s : State) : EngOut :=
  if nCode n ≤ w.progress then .done s
  else nextRow (nCode n) w (s.setV (regAt d w.progress) (slotLine col (s.cpu.slot (w.slotAt o)) t w.progress))

/-- Writes the slot of a ring index and leaves its tag. -/
def Cell.fillSlot (c : Cell) (k : Nat) (t : Tile) : Cell := { c with acc := c.acc.set (c.slotIx k) t }

/-- accwr by rows or columns, one a unit; the last one tags the slot (R188). -/
def unitWrite (col : Bool) (n : BitVec 2) (t d : BitVec 5) (o : BitVec 4) (w : Cmd) (s : State) : EngOut :=
  let k := w.slotAt o
  if nCode n ≤ w.progress then .done s
  else if s.cpu.slotsHeld (slotRun s.cpu.accS k 1) then .blocked s
  else
    let x := setSlotLine col (s.cpu.slot k) t w.progress (s.cpu.rv (regAt d w.progress))
    nextRow (nCode n) w (s.upd (fun c => if w.progress + 1 < nCode n then c.fillSlot k x else c.setSlot k x none))

/-- The registers `d` to `d + n − 1` (R188). -/
def regRun (n : BitVec 2) (d : BitVec 5) : List Nat := (List.range (nCode n)).map (fun q => d.toNat + q)

/-- Copies slot rows into vector registers. (R188) -/
def unitAccrd (n : BitVec 2) (t d : BitVec 5) (o : BitVec 4) (w : Cmd) (s : State) : EngOut := unitRead false n t d o w s
def execAccrd (n : BitVec 2) (t : BitVec 5) (d : BitVec 5) (o : BitVec 4) (r : BitVec 3) (s : State) : Out :=
  issueSlot (.accrd n t d o r) (regRun n d) [] 0 o r (unitAccrd n t d o) s

/-- Copies slot columns into vector registers. (R188) -/
def unitAccrdCol (n : BitVec 2) (t d : BitVec 5) (o : BitVec 4) (w : Cmd) (s : State) : EngOut := unitRead true n t d o w s
def execAccrdCol (n : BitVec 2) (t : BitVec 5) (d : BitVec 5) (o : BitVec 4) (r : BitVec 3) (s : State) : Out :=
  issueSlot (.accrdCol n t d o r) (regRun n d) [] 0 o r (unitAccrdCol n t d o) s

/-- Copies vector registers into slot rows. (R188) -/
def unitAccwr (n : BitVec 2) (t d : BitVec 5) (o : BitVec 4) (w : Cmd) (s : State) : EngOut := unitWrite false n t d o w s
def execAccwr (n : BitVec 2) (t : BitVec 5) (d : BitVec 5) (o : BitVec 4) (r : BitVec 3) (s : State) : Out :=
  issueSlot (.accwr n t d o r) (regRun n d) [] 0 o r (unitAccwr n t d o) s

/-- Copies vector registers into slot columns. (R188) -/
def unitAccwrCol (n : BitVec 2) (t d : BitVec 5) (o : BitVec 4) (w : Cmd) (s : State) : EngOut := unitWrite true n t d o w s
def execAccwrCol (n : BitVec 2) (t : BitVec 5) (d : BitVec 5) (o : BitVec 4) (r : BitVec 3) (s : State) : Out :=
  issueSlot (.accwrCol n t d o r) (regRun n d) [] 0 o r (unitAccwrCol n t d o) s

/-! ### epi (R189 to R192) -/

/-- Fields of the control word. -/
def epiScale (w : Word) : Nat := (w.extractLsb' 0 22).toNat
def epiBias (w : Word) : Nat := (w.extractLsb' 22 22).toNat
def epiCount (w : Word) : Nat := (w.extractLsb' 49 5).toNat + 1
def epiPart (w : Word) : Nat := (w.extractLsb' 54 3).toNat

/-- The scale and bias lines that are enabled. -/
def epiLines (w : Word) : List (Nat × Nat) :=
  (if w.getLsbD 44 then [(epiScale w, 128)] else []) ++ (if w.getLsbD 45 then [(epiBias w, 128)] else [])

/-- The destination rows of a view, slot by slot. -/
def epiRows (p : Pair) (lv n : Nat) : List (Nat × Nat) := (List.range n).flatMap (fun j => p.rows (lv + j))

/-- The ranges that an epi records. -/
def epiRanges (x : BitVec 1) (op0 w : Word) (lv : Nat) : List Range :=
  (if x = 1 then [rangeOf true (epiRows (Pair.ofCompact op0) lv (epiCount w))] else []) ++
  (epiLines w).map (fun r => rangeOf false [r])

/-- One row of output: the codes of the row's 32 values, packed. -/
def epiRow (w : Word) (tag : AccTag) (row scale bias : VReg) (i : Nat) : Nat :=
  let f := compactFmt tag.ofmt
  (List.range 32).foldl (fun a k =>
    let x := lane row k
    let x := if w.getLsbD 44 then fmul x (lane scale i) else x
    let x := if w.getLsbD 45 then fadd x (lane bias k) else x
    a + roundCode f (.ofBits tag.mode) (activate (w.extractLsb' 46 3).toNat x) * 2 ^ (f.width * k)) 0

/-- Row `q` of the command written to its destination. -/
def epiStep (a : BitVec 5) (x : BitVec 1) (w : Cmd) (scale bias : VReg) (s : State) (q : Nat) : State :=
  let c := s.cpu
  let j := q / 32
  let i := q % 32
  let k := w.tix + j
  let tag := c.accTag[c.slotIx k]
  let n := 4 * (compactFmt tag.ofmt).width
  let v := epiRow w.op1 tag (tileRow (c.slot k) i) scale bias i
  let o := epiPart w.op1 * n
  if x = 1 then s.spWrite ((Pair.ofCompact w.op0).spRow (w.lv + j) i + o) n v
  else
    let m := a.toNat + j
    let old := tileRow (c.rm m) i
    let mask : VReg := BitVec.ofNat 1024 ((2 ^ (8 * n) - 1) * 2 ^ (8 * o))
    let new := (old &&& ~~~mask) ||| (BitVec.ofNat 1024 (v * 2 ^ (8 * o)) &&& mask)
    s.upd (fun c => c.wm m (setTileRow (c.rm m) i new))

/-- Some row of the command would not fit beside its part (R191). -/
def epiWide (w : Word) (fmts : List (BitVec 20)) : Bool :=
  fmts.any (fun f => 128 < (epiPart w + 1) * (4 * (compactFmt f).width))

/-- The output formats in the tags of the slots that the command drains. -/
def epiTags (c : Cell) (w : Cmd) : List (BitVec 20) :=
  (List.range (epiCount w.op1)).map (fun j => c.accTag[c.slotIx (w.tix + j)].ofmt)

/-- Drains slots from the ring tail through scale, bias, activation and narrowing to a view or tile. Its units: the hand-over to the
epilogue (R178), the scale and bias lines read once, whose ranges then go (R103), and each row in turn (R192). (R191) -/
def unitEpi (a : BitVec 5) (x : BitVec 1) (w : Cmd) (s : State) : EngOut :=
  if 32 * epiCount w.op1 ≤ w.progress then .done s
  else if !w.started then .more w s
  else
    match w.kept with
    | [scale, bias] => nextRow (32 * epiCount w.op1) w (epiStep a x w scale bias s w.progress)
    | _ =>
      if epiWide w.op1 (epiTags s.cpu w) then .trap w 3 w.op1 none s
      else
        spReading s w (epiLines w.op1) (.more { w with
          kept := [s.spLine (epiScale w.op1), s.spLine (epiBias w.op1)]
          ranges := w.ranges.filter (fun r => r.write) } s)

/-- The checks of the control word alone (R191). -/
def epiWord (w : Word) : Option (Nat × Word) :=
  if w.extractLsb' 57 7 ≠ 0 ∨ w.extractLsb' 0 7 ≠ 0 ∨ w.extractLsb' 22 7 ≠ 0 then some (3, w)
  else if 4 < (w.extractLsb' 46 3).toNat then some (1, w)
  else none

/-- The window check of the scale and bias lines. -/
def epiLinesCheck (c : Cell) (w : Word) : Except (Nat × Word) Unit :=
  match c.outsideAny (epiLines w) with
  | some bad => .error (5, BitVec.ofNat 64 bad)
  | none => .ok ()

/-- The checks of a view destination and of the lines, with trap value `v` for the alignment. -/
def epiPlaces (c : Cell) (w : Word) (p : Pair) (v : Word) (lv : Nat) : Except (Nat × Word) Word :=
  match viewCheck c p v (epiRows p lv (epiCount w)) with
  | .error t => .error t
  | .ok p => (epiLinesCheck c w).map (fun _ => p.compact)

/-- The checks of epi at issue, in order. -/
def epiCheck (c : Cell) (w : Word) (a : BitVec 5) (x : BitVec 1) : Except (Nat × Word) Word :=
  match epiWord w with
  | some t => .error t
  | none =>
    let n := epiCount w
    if c.live < n then .error (2, BitVec.ofNat 64 (0x300 + n))
    else if epiWide w ((List.range n).map (fun j => c.accFmt[c.slotIx (c.accT.toNat + j)])) then .error (3, w)
    else if x ≠ 1 then (epiLinesCheck c w).map (fun _ => 0)
    else
      match c.spPair a with
      | none => .error (3, c.rx a)
      | some p => epiPlaces c w p (c.rx a) c.loopValue

/-- epi at issue: T moves, then the command goes to the matrix queue. -/
def execEpi (b : BitVec 5) (a : BitVec 5) (x : BitVec 1) (r : BitVec 3) (s : State) : Out :=
  forwardWord r [] (b :: pairRegs x a) .matrix s (fun s =>
    let c := s.cpu
    let w := s.x b
    match epiCheck c w a x with
    | .error (q, v) => trapOut s q v
    | .ok op0 =>
      enqueue {
        instr := .epi b a x r
        queue := .matrix
        op0 := op0
        op1 := w
        lv := c.loopValue
        ranges := epiRanges x op0 w c.loopValue
        also := fun c => { c with accT := c.accT + BitVec.ofNat 32 (epiCount w) } }
        (unitEpi a x) s)

/-! ### mqctl (R193) -/

/-- Holds the front end until every earlier matrix-queue command has completed: the control entry reaches the head of the matrix
queue only then, and the front end issues no word while it is pending. (R193) -/
def unitMqctlWait (s : State) : EngOut := .done s
def execMqctlWait (r : BitVec 3) (s : State) : Out :=
  forwardWord r [] [] .matrix s (enqueue { instr := .mqctlWait r, queue := .matrix } (fun _ s => unitMqctlWait s))

/-- A control entry that holds the front end is pending (R193). -/
def Cell.mqctlWaits (c : Cell) : Bool :=
  c.pending.any (fun d => match d.instr with
    | .mqctlWait .. => true
    | _ => false)

/-- The checks on the operands of mqctl.rm and mqctl.ftb. -/
def mqctlRmOk (v : Word) : Bool := v.extractLsb' 4 60 = 0 && (v.extractLsb' 0 3).toNat ≤ 4
def mqctlFtbOk (v : Word) : Bool := v.extractLsb' 6 58 = 0

/-- Sets the epilogue rounding mode in matrix-queue order. (R193) -/
def unitMqctlRm (w : Cmd) (s : State) : EngOut := .done (s.upd (fun c => { c with epiMode := w.op0.extractLsb' 0 4 }))
def execMqctlRm (sc : BitVec 5) (r : BitVec 3) (s : State) : Out :=
  forwardWord r [] [sc] .matrix s (fun s =>
    let v := s.x sc
    if !mqctlRmOk v then trapOut s 1 v
    else enqueue { instr := .mqctlRm sc r, queue := .matrix, op0 := v } unitMqctlRm s)

/-- Sets ftbase in matrix-queue order. (R193) -/
def unitMqctlFtb (w : Cmd) (s : State) : EngOut :=
  .done (s.upd (fun c => if w.aux = 0 then { c with ftbase := zext64 (w.op0.extractLsb' 0 6) } else c))
def execMqctlFtb (sc : BitVec 5) (r : BitVec 3) (s : State) : Out :=
  forwardWord r [] [sc] .matrix s (fun s =>
    let v := s.x sc
    if !mqctlFtbOk v then trapOut s 1 v
    else enqueue { instr := .mqctlFtb sc r, queue := .matrix, op0 := v } unitMqctlFtb s)

end Sys2Proof.Machine
end

