-- ==== Sys2Proof/Machine/FastWeights.lean ====
section
/-! DEFINITION. State SRAM and fast weights (R194 to R221): the directory, blocks, the pager, holds, update descriptors, and the format-F commands. -/

namespace Sys2Proof.Machine

/-! ### The directory (R197 to R200) -/

def State.object (s : State) (h : Word) : Option FwObject := s.objects.find? (fun o => o.handle == h)

def State.updObject (s : State) (h : Word) (f : FwObject → FwObject) : State :=
  { s with objects := s.objects.map (fun o => if o.handle = h then f o else o) }

/-- The object of a handle that is valid for the acting cell (R199). -/
def State.validObject (s : State) (h : Word) : Option FwObject :=
  match s.object h with
  | some o => if o.ctx = s.cpu.ctx then some o else none
  | none => none

/-- Block rows, block columns and blocks (R197). -/
def FwObject.nbr (o : FwObject) : Nat := (o.rows + 31) / 32
def FwObject.nbc (o : FwObject) : Nat := (o.cols + 31) / 32
def FwObject.nb (o : FwObject) : Nat := o.nbr * o.nbc

/-- Resident in a cluster with no move under way (R200). -/
def FwObject.isHere (o : FwObject) (cl : Nat) : Bool := o.place = .cluster cl && o.move = .none

/-- A new handle value of a context (R198), and the serial used up. -/
def handleOf (ctx serial chip : Nat) (snap : Bool) : Word :=
  BitVec.ofNat 64 (ctx % 2 ^ 16 + serial % 2 ^ 24 * 2 ^ 16 + snap.toNat * 2 ^ 40 + chip % 2 ^ 16 * 2 ^ 48)

def State.newHandle (s : State) (ctx : Nat) (snap : Bool) : Word × State :=
  let n := ((s.context ctx).map (fun c => c.serial)).getD 0 + 1
  (handleOf ctx n s.chipId snap, s.updContext ctx (fun c => { c with serial := n }))

/-- `n` more handles of a context cannot be made: no directory entry is free (R195), or the serial numbers of its life are used up,
none of which may come twice (R198; DESIGN CHOICE, assumption log 56). -/
def State.directoryFull (s : State) (ctx n : Nat) : Bool :=
  1048576 < s.objects.length + n || 2 ^ 24 ≤ ((s.context ctx).map (fun c => c.serial)).getD 0 + n

/-! ### Blocks (R194, R210) -/

def State.block (s : State) (id : Nat) : StateBlock :=
  (s.blocks.find? (fun b => b.id == id)).getD ⟨id, 0, 0, Vector.replicate 32 0, false⟩

def State.freeBlocks (s : State) (cl : Nat) : Nat := 1024 - (s.blocks.filter (fun b => b.cluster == cl)).length

/-- One reference less; a block whose count reaches 0 returns to the pool. -/
def State.unref (s : State) (id : Nat) : State :=
  { s with blocks := (s.blocks.map (fun b => if b.id = id then { b with refs := b.refs - 1 } else b)).filter (fun b => b.refs ≠ 0) }

/-- One reference more. -/
def State.addRef (s : State) (id : Nat) : State :=
  { s with blocks := s.blocks.map (fun b => if b.id = id then { b with refs := b.refs + 1 } else b) }

/-- Blocks allotted in a cluster with given contents; their numbers in order. -/
def State.newBlocks (cl : Nat) : List (Tile × Bool) → State → List Nat × State
  | [], s => ([], s)
  | d :: rest, s =>
    let id := s.blockClock
    let (ids, s) := State.newBlocks cl rest { s with blockClock := id + 1, blocks := s.blocks ++ [⟨id, cl, 1, d.1, d.2⟩] }
    (id :: ids, s)

def zeroTile : Tile := Vector.replicate 32 0

/-- The contents of an object's blocks or image. -/
def State.contents (s : State) (o : FwObject) : List (Tile × Bool) :=
  match o.place with
  | .cluster _ => o.blocks.map (fun id => ((s.block id).data, (s.block id).poison))
  | _ => o.image

/-! ### The pager (R216 to R218) -/

/-- Distance of R216; a next-use step of 0xFFFF_FFFF gives the largest of all. -/
def State.distance (s : State) (o : FwObject) : Nat :=
  if o.nextUse = 0xFFFFFFFF#32 then 2 ^ 32
  else (o.nextUse - ((s.context o.ctx).map (fun c => c.step)).getD 0).toNat

/-- Bytes of a context's backing area in use. -/
def State.backingUsed (s : State) (ctx : Nat) : Nat :=
  (s.objects.filter (fun o => o.ctx == ctx && (o.place == .image || o.move == .evicting))).foldl (fun a o => a + 4096 * o.nb) 0

/-- The image of an object fits (R217). -/
def State.imageFits (s : State) (o : FwObject) : Bool :=
  s.backingUsed o.ctx + 4096 * o.nb ≤ ((s.context o.ctx).map (fun c => c.backing)).getD 0 * 2 ^ 20

def State.evictable (s : State) (cl : Nat) (o : FwObject) : Bool :=
  o.isHere cl && !o.pinned && o.holds.isEmpty && s.imageFits o

/-- Whether the pager takes `a` before `b` (R217). -/
def State.evictsFirst (s : State) (a b : FwObject) : Bool :=
  a.prio < b.prio || (a.prio = b.prio &&
    (s.distance b < s.distance a || (s.distance a = s.distance b &&
      (a.lastHeld < b.lastHeld || (a.lastHeld = b.lastHeld && a.handle.toNat < b.handle.toNat)))))

def State.nextVictim (s : State) (cl : Nat) : Option FwObject :=
  (s.objects.filter (s.evictable cl)).foldl (fun best o =>
    match best with
    | none => some o
    | some b => if s.evictsFirst o b then some o else some b) none

/-- Blocks that the evictions under way in a cluster will free. -/
def State.incoming (s : State) (cl : Nat) : Nat :=
  let going := s.objects.filter (fun o => o.place == .cluster cl && o.move == .evicting)
  (s.blocks.filter (fun b => b.cluster = cl && b.refs ≤ (going.filter (fun o => o.blocks.contains b.id)).length)).length

/-- Starts evictions until `n` blocks are free or on their way. -/
def State.startEvictions (cl n : Nat) : Nat → State → State
  | 0, s => s
  | fuel + 1, s =>
    if n ≤ s.freeBlocks cl + s.incoming cl then s
    else
      match s.nextVictim cl with
      | none => s
      | some o => State.startEvictions cl n fuel (s.updObject o.handle (fun o => { o with move := .evicting }))

/-- The image is written, the counts of the blocks go down (R217). -/
def State.finishEviction (s : State) (o : FwObject) : State :=
  let image := s.contents o
  (o.blocks.foldl State.unref s).updObject o.handle (fun o =>
    { o with place := .image, move := .none, blocks := [], image := image })

def State.finishEvictions (cl : Nat) (s : State) : State :=
  (s.objects.filter (fun o => o.place == .cluster cl && o.move == .evicting)).foldl State.finishEviction s

/-- A cluster needs `n` blocks (R217): whether they are free, after what the pager does for them. -/
def State.ensureBlocks (s : State) (cl n : Nat) : State × Bool :=
  if n ≤ s.freeBlocks cl then (s, true)
  else
    let s := State.startEvictions cl n s.objects.length s
    let s := if s.cpu.eager then s.finishEvictions cl else s
    (s, n ≤ s.freeBlocks cl)

/-- The pager writes an eligible object's image to LPDDR6 and frees its blocks. (R217) -/
def execStateEviction (h : Word) (s : State) : Out :=
  match s.object h with
  | some o => if o.move = .evicting then .next (s.finishEviction o) else .next s
  | none => .next s

/-- A chip is asked, once, to send an object to a cluster of this chip; meanwhile the object is Moving (R215, R218, R219). -/
def State.fetchObject (s : State) (o : FwObject) (chip cl : Nat) : State :=
  if o.asked then s
  else
    { s.updObject o.handle (fun o => { o with asked := true, move := .moving }) with
      outbox := s.outbox ++ [.fetch chip o.handle cl] }

/-- One page-in: the object goes to the first cluster asked for (R218). -/
def State.pageIn (s : State) (h : Word) : State :=
  match s.object h with
  | none => s
  | some o =>
    match o.want with
    | [] => s
    | cl :: rest =>
      let state : ObjMove := if rest.isEmpty then .none else .moving
      if o.move = .evicting || !o.holds.isEmpty then s
      else if o.place = .cluster cl then s.updObject h (fun o => { o with want := rest, move := state })
      else
        match o.place with
        | .chip c _ => s.fetchObject o c cl
        | place =>
          let (s, ok) := s.ensureBlocks cl o.nb
          if !ok then s
          else
            let (ids, s) := State.newBlocks cl (s.contents o) s
            let s := if place = .image then s else o.blocks.foldl State.unref s
            s.updObject h (fun o => { o with place := .cluster cl, move := state, blocks := ids, image := [], want := rest })

/-- The pager brings an object into a cluster and rewrites its directory entry; another chip is asked to send it. (R218) -/
def execStatePageIn (h : Word) (s : State) : Out := .next (s.pageIn h)

/-- The same at once for every request, when units act as soon as they may (DESIGN CHOICE, assumption log 4). -/
def State.pageAll (s : State) : State :=
  if s.cpu.eager then
    s.objects.foldl (fun s o => (List.range o.want.length).foldl (fun s _ => s.pageIn o.handle) s) s
  else s

/-- A request for an object in a cluster; a second one for the same cluster joins the first (R218). -/
def State.askPage (s : State) (h : Word) (cl : Nat) : State :=
  (s.updObject h (fun o =>
    if o.want.contains cl then o
    else
      { o with want := o.want ++ [cl], move := if o.move = .none && o.holds.isEmpty && !o.isHere cl then .moving else o.move })).pageAll

/-! ### Holds (R201) -/

/-- A hold of request `id` would conflict with one granted. -/
def FwObject.conflicts (o : FwObject) (id : Nat) (exclusive : Bool) : Bool :=
  o.holds.any (fun p => p.1 ≠ id && (p.2 || exclusive))

/-- A request names an object. -/
def HoldReq.asks (q : HoldReq) (h : Word) : Bool := q.shared.contains h || q.exclusive.contains h

/-- A waiting request may be granted: its holds are compatible, no eviction or move of its objects is under way (R211, R219), and no
earlier one names one of its objects. -/
def State.grantable (s : State) (q : HoldReq) : Bool :=
  let ok (exclusive : Bool) (h : Word) : Bool :=
    match s.object h with
    | some o => !o.conflicts q.id exclusive && o.move = .none
    | none => true
  q.shared.all (ok false) && q.exclusive.all (ok true) &&
  (s.holdReqs.takeWhile (fun r => r.id != q.id)).all (fun r => !(q.shared ++ q.exclusive).any r.asks)

/-- Grants a request. -/
def State.grant (s : State) (q : HoldReq) : State :=
  { s with
    holdReqs := s.holdReqs.filter (fun r => r.id != q.id)
    holdClock := s.holdClock + 1
    objects := s.objects.map (fun o =>
      if q.exclusive.contains o.handle then { o with holds := o.holds ++ [(q.id, true)], lastHeld := s.holdClock }
      else if q.shared.contains o.handle then { o with holds := o.holds ++ [(q.id, false)], lastHeld := s.holdClock }
      else o) }

/-- A migration that is given up leaves no copy behind, and the object where it lies (R215); one that another chip has been asked for is
on its way all the same. -/
def State.abandonCopy (s : State) (o : FwObject) : State :=
  if o.copy.isEmpty && o.move = .none then s
  else (o.copy.foldl State.unref s).updObject o.handle (fun o =>
    { o with copy := [], move := if o.want.isEmpty && !o.asked then .none else .moving })

/-- A request and its holds go. -/
def State.dropHold (s : State) (id : Option Nat) : State :=
  match id with
  | none => s
  | some id =>
    let s := (s.objects.filter (fun o => o.holds.any (fun p => p.1 == id))).foldl State.abandonCopy s
    ({ s with
      holdReqs := s.holdReqs.filter (fun r => r.id != id)
      holdClock := s.holdClock + 1
      objects := s.objects.map (fun (o : FwObject) =>
        if o.holds.any (fun p => p.1 == id) then { o with holds := o.holds.filter (fun p => p.1 != id), lastHeld := s.holdClock }
        else o) }).pageAll

/-- A command has the holds that it needs. -/
def State.hasHolds (s : State) (w : Cmd) (sh ex : List Word) : Bool :=
  match w.hold with
  | none => false
  | some id =>
    let has (exclusive : Bool) (h : Word) : Bool :=
      match s.object h with
      | some o => o.holds.contains (id, exclusive)
      | none => false
    sh.all (has false) && ex.all (has true)

/-- What a check at the state port finds: nothing, or a trap, with the state after it. -/
abbrev Check := State → Option (Nat × Word × State)

/-- The checks of R203 fail: whatever the command asked for or held goes, and it traps. -/
def refuse (w : Cmd) (t : Nat × Word × State) : EngOut := .trap { w with hold := none } t.1 t.2.1 none (t.2.2.dropHold w.hold)

/-- The order of R203 at the state port: the checks when the command reaches it, the request, and the checks again as one step with
the grant; then the work, which a resumed command goes on with (R209). -/
def withHolds (w : Cmd) (sh ex : List Word) (check : Check) (s : State) (go : Cmd → State → EngOut) : EngOut :=
  if (w.started || w.progress ≠ 0) && s.hasHolds w sh ex then go w s
  else
    match if w.started then w.hold.bind (fun id => s.holdReqs.find? (fun q => q.id == id)) else none with
    | some q =>
      if !s.grantable q then .blocked s
      else
        match check s with
        | some t => refuse w t
        | none => .more w (s.grant q)
    | none =>
      match check s with
      | some t => refuse w t
      | none =>
        if s.hasHolds w sh ex then go w s
        else
          let s := s.dropHold w.hold
          let q : HoldReq := ⟨s.holdClock, sh, ex⟩
          .more { w with hold := some q.id } { s with holdReqs := s.holdReqs ++ [q], holdClock := s.holdClock + 1 }

/-- The command ends and its holds with it. -/
def endHolds (w : Cmd) (s : State) : EngOut := .done (s.dropHold w.hold)

/-- Handles that must be resident here, in order; the first that is not raises 0x07 and is asked for (R204). -/
def checkHere (hs : List Word) : Check := fun s =>
  match hs.find? (fun h => !((s.object h).map (fun o => o.isHere s.cpu.cluster)).getD false) with
  | none => none
  | some h => some (7, h, s.askPage h s.cpu.cluster)

/-- A handle check (R199): valid, and writable where the command writes. -/
def handleTrap (s : State) (h : Word) (write : Bool) : Option (Nat × Word) :=
  match s.validObject h with
  | none => some (5, h)
  | some o => if write && o.snap then some (5, h) else none

/-- Checks in order. -/
def Check.andThen (a b : Check) : Check := fun s =>
  match a s with
  | some r => some r
  | none => b s

def checkHandle (h : Word) (write : Bool) : Check := fun s => (handleTrap s h write).map (fun p => (p.1, p.2, s))

/-- A condition that must hold. -/
def checkThat (ok : State → Bool) (cause : Nat) (v : Word) : Check := fun s => if ok s then none else some (cause, v, s)

/-! ### Update descriptors (R205, R206) -/

/-- What an update instruction does (R208): which arrays it uses, whether D is the delta, and whether Y comes from the new
W. An instruction that uses V writes W; one that uses β checks the chunk. -/
structure Upd where
  q : Bool
  k : Bool
  v : Bool
  y : Bool
  beta : Bool
  delta : Bool
  newY : Bool
  deriving DecidableEq, Repr

def updFwfwd : Upd := ⟨true, false, false, true, false, false, false⟩
def updOpu : Upd := ⟨false, true, true, false, false, false, false⟩
def updUpdD : Upd := ⟨false, true, true, false, true, true, false⟩
def updUpdH : Upd := ⟨false, true, true, false, true, false, false⟩
def updFuD : Upd := ⟨true, true, true, true, true, true, false⟩
def updFuDl : Upd := ⟨true, true, true, true, true, true, true⟩
def updFuH : Upd := ⟨true, true, true, true, true, false, false⟩
def updFuHl : Upd := ⟨true, true, true, true, true, false, true⟩

/-- Fields of a descriptor. -/
def descWord (d : BitVec 256) (byte : Nat) : Nat := (d.extractLsb' (8 * byte) 32).toNat
def descPitch (d : BitVec 256) : Nat := (d.extractLsb' 192 16).toNat
def descYPitch (d : BitVec 256) : Nat := (d.extractLsb' 208 16).toNat
def descLen (d : BitVec 256) : Nat := (d.extractLsb' 224 8).toNat
def descFlags (d : BitVec 256) : BitVec 8 := d.extractLsb' 232 8
def descFmt (d : BitVec 256) : Nat := (d.extractLsb' 240 8).toNat
def descYFmt (d : BitVec 256) : Nat := (d.extractLsb' 248 8).toNat

def fmtOfCode (n : Nat) : Fmt := if n = 1 then fp32 else if n = 2 then fp16 else bf16
def sizeOfCode (n : Nat) : Nat := if n = 1 then 4 else 2

/-- An array of rows in scratchpad. -/
structure Rows where
  off : Nat
  pitch : Nat
  rows : Nat
  n : Nat
  size : Nat
  deriving DecidableEq, Repr

/-- The rows as runs of bytes; offsets have not wrapped yet, for the ranges of R102. -/
def Rows.runs (a : Rows) : List (Nat × Nat) := (List.range a.rows).map (fun t => (a.off + t * a.pitch, a.n * a.size))

def qRows (d : BitVec 256) (o : FwObject) : Rows := ⟨descWord d 0, descPitch d, descLen d, o.rows, sizeOfCode (descFmt d)⟩
def kRows (d : BitVec 256) (o : FwObject) : Rows := ⟨descWord d 4, descPitch d, descLen d, o.rows, sizeOfCode (descFmt d)⟩
def vRows (d : BitVec 256) (o : FwObject) : Rows := ⟨descWord d 8, descPitch d, descLen d, o.cols, sizeOfCode (descFmt d)⟩
def yRows (d : BitVec 256) (o : FwObject) : Rows := ⟨descWord d 12, descYPitch d, descLen d, o.cols, sizeOfCode (descYFmt d)⟩
def betaRow (d : BitVec 256) : Rows := ⟨descWord d 16, 0, 1, descLen d, 4⟩
def lamRow (d : BitVec 256) (o : FwObject) : Rows := ⟨descWord d 20, 0, 1, o.rows, 4⟩

/-- Whether λ is a vector. -/
def lvec (d : BitVec 256) : Bool := (descFlags d).getLsbD 0

/-- The arrays that an instruction reads, in the order of the descriptor's fields, and the one it writes. -/
def readRows (k : Upd) (d : BitVec 256) (o : FwObject) : List Rows :=
  (if k.q then [qRows d o] else []) ++ (if k.k then [kRows d o] else []) ++ (if k.v then [vRows d o] else []) ++
  (if k.beta then [betaRow d] else []) ++ (if k.beta && lvec d then [lamRow d o] else [])
def writeRows (k : Upd) (d : BitVec 256) (o : FwObject) : List Rows := if k.y then [yRows d o] else []

/-- The ranges that the command records (R206). -/
def updRanges (k : Upd) (d : BitVec 256) (o : FwObject) : List Range :=
  (readRows k d o).map (fun a => rangeOf false a.runs) ++ (writeRows k d o).map (fun a => rangeOf true a.runs)

/-- The offset fields used, in the order of the layout. -/
def usedOffsets (k : Upd) (d : BitVec 256) : List Nat :=
  (if k.q then [descWord d 0] else []) ++ (if k.k then [descWord d 4] else []) ++ (if k.v then [descWord d 8] else []) ++
  (if k.y then [descWord d 12] else []) ++ (if k.beta then [descWord d 16] else []) ++
  (if k.beta && lvec d then [descWord d 20] else [])

/-- The pitches used. -/
def usedPitches (k : Upd) (d : BitVec 256) : List Nat :=
  (if k.q || k.k || k.v then [descPitch d] else []) ++ (if k.y then [descYPitch d] else [])

/-- The checks of R206 on the 64 bytes read at `a`. Of several arrays outside the window the first is reported: those read, in the order
Q, K, V or E, β, λ, then Y (DESIGN CHOICE, assumption log 66). -/
def descTrap (c : Cell) (k : Upd) (o : FwObject) (a : Word) (raw : Nat) : Option (Nat × Word) :=
  let d : BitVec 256 := BitVec.ofNat 256 raw
  if !(1 ≤ descLen d && descLen d ≤ 32) || !(1 ≤ descFmt d && descFmt d ≤ 3) || (descFlags d).extractLsb' 1 7 ≠ 0 ||
      raw / 2 ^ 256 ≠ 0 then some (1, a)
  else if k.y && !(1 ≤ descYFmt d && descYFmt d ≤ 3) then some (1, a)
  else
    match (usedOffsets k d).find? (fun v => 2 ^ 22 ≤ v || v % 4 ≠ 0) with
    | some v => some (3, BitVec.ofNat 64 v)
    | none =>
      match (usedPitches k d).find? (fun p => p % 4 ≠ 0) with
      | some p => some (3, BitVec.ofNat 64 p)
      | none =>
        (c.outsideAny ((readRows k d o ++ writeRows k d o).flatMap Rows.runs)).map (fun b => (5, BitVec.ofNat 64 b))

/-- The reading of a descriptor. -/
inductive DescRead where
  | ok (d : BitVec 256)
  | trap (cause : Nat) (v : Word)
  | wait
  deriving DecidableEq, Repr

/-- Reads and checks the descriptor at X(xa) (R205, R206); `busy`: an earlier command still writes its bytes (R104). -/
def descAt (s : State) (k : Upd) (o : FwObject) (a : Word) (busy : Bool) : DescRead :=
  if a.extractLsb' 22 42 ≠ 0 ∨ a.extractLsb' 0 6 ≠ 0 then .trap 3 a
  else
    match s.cpu.outside a.toNat 64 with
    | some b => .trap 5 (BitVec.ofNat 64 b)
    | none =>
      if busy || s.spBlocked [(a.toNat, 64)] then .wait
      else if s.spBad a.toNat 64 then .trap 0x12 a
      else
        match descTrap s.cpu k o a (s.spRead a.toNat 64) with
        | some (c, v) => .trap c v
        | none => .ok (BitVec.ofNat 256 (s.spRead a.toNat 64))

/-- The reading by the front end, at issue and at re-injection. -/
def readDesc (s : State) (k : Upd) (o : FwObject) (a : Word) : DescRead :=
  descAt s k o a (s.cpu.rangesBusy [rangeOf false [(a.toNat, 64)]])

/-! ### The arithmetic (R207, R208) -/

/-- An array's values. -/
def arrayVals (s : State) (a : Rows) (f : Fmt) : List (List FpVal) :=
  (List.range a.rows).map (fun t => (List.range a.n).map (fun k =>
    decodeCode f (s.spRead (a.off + t * a.pitch + k * a.size) a.size)))

def valAt (l : List (List FpVal)) (t k : Nat) : FpVal := (l.getD t []).getD k (.fin false 0 0)

/-- Element `(i, c)` of a block column, column `c` of its blocks. -/
def colElem (col : List Tile) (i c : Nat) : Lane := lane (tileRow (col.getD (i / 32) zeroTile) (i % 32)) c

/-- OPDot of R207 on column `c` of a block column. -/
def opDot (dk : Nat) (col : List Tile) (x : Nat → FpVal) (c : Nat) : Lane :=
  sumGroups false none ((List.range ((dk + 31) / 32)).map (fun p =>
    ((List.range 32).filter (fun r => 32 * p + r < dk)).map (fun r => (x (32 * p + r), val32 (colElem col (32 * p + r) c)))))

/-- FMA of R207. -/
def fmaVal (u d : FpVal) (w : Lane) : Lane := rn32 (.add (u.mul d) (val32 w))

/-- What an update forms once, before its first block column: u, t by t, then λ, each as registers of 32 FP32 values (R208). -/
def packVals (n : Nat) (f : Nat → Lane) : List VReg :=
  (List.range ((n + 31) / 32)).map (fun p => ofLanes (fun j => if 32 * p + j < n then f (32 * p + j) else 0))

/-- Value `i` of the `r`-th packed row of `n`. -/
def packedAt (kept : List VReg) (n r i : Nat) : Lane := lane (kept.getD (r * ((n + 31) / 32) + i / 32) 0) (i % 32)

/-- An FP32 value, which is exact. -/
def asLane (v : FpVal) : Lane := rn32 v

/-- u and λ, read from K, β and λ. -/
def updForms (s : State) (k : Upd) (d : BitVec 256) (o : FwObject) : List VReg :=
  let kv := arrayVals s (kRows d o) (fmtOfCode (descFmt d))
  let b := if k.beta then (arrayVals s (betaRow d) fp32).getD 0 [] else []
  let l := if k.beta && lvec d then (arrayVals s (lamRow d o) fp32).getD 0 [] else []
  (List.range (descLen d)).flatMap (fun t => packVals o.rows (fun i =>
    if k.beta then rn32 ((b.getD t (.fin false 0 0)).mul (valAt kv t i)) else asLane (valAt kv t i))) ++
  packVals o.rows (fun i => asLane (if lvec d then l.getD i (.fin false 0 0) else decodeCode fp32 (descWord d 20)))

/-- The arrays read once, and those that every block column reads (R103). -/
def onceRows (k : Upd) (d : BitVec 256) (o : FwObject) : List Rows :=
  [kRows d o] ++ (if k.beta then [betaRow d] else []) ++ (if k.beta && lvec d then [lamRow d o] else [])
def Upd.columns (k : Upd) : Upd := { k with k := k.delta, beta := false }

/-- The inputs of a block column. -/
structure UpdIn where
  len : Nat
  q : List (List FpVal)
  k : List (List FpVal)
  v : List (List FpVal)
  u : Nat → Nat → FpVal
  lam : Nat → FpVal

def updInputs (s : State) (k : Upd) (d : BitVec 256) (o : FwObject) (kept : List VReg) : UpdIn :=
  let f := fmtOfCode (descFmt d)
  ⟨descLen d, if k.q then arrayVals s (qRows d o) f else [], if k.delta then arrayVals s (kRows d o) f else [],
    if k.v then arrayVals s (vRows d o) f else [], fun t i => val32 (packedAt kept o.rows t i),
    fun i => val32 (packedAt kept o.rows (descLen d) i)⟩

/-- The new blocks of column `q`, and Y's rows for its columns (R208). -/
def updColumn (k : Upd) (x : UpdIn) (o : FwObject) (q : Nat) (old : List Tile) : List Tile × List (List Lane) :=
  let cols := min 32 (o.cols - 32 * q)
  let table (f : Nat → Nat → FpVal) (n : Nat) : List (List FpVal) := (List.range x.len).map (fun t => (List.range n).map (f t))
  let dots (a : List (List FpVal)) (blocks : List Tile) : List (List Lane) :=
    (List.range x.len).map (fun t => (List.range cols).map (fun c => opDot o.rows blocks (valAt a t) c))
  let p := if k.delta then dots x.k old else []
  let oldY := if k.y && !k.newY then dots x.q old else []
  let dv := table (fun t c =>
    let v := valAt x.v t (32 * q + c)
    if k.delta then val32 (rn32 (v.add (val32 ((p.getD t []).getD c 0)).neg)) else v) cols
  let elem (i c : Nat) : Lane :=
    let w := colElem old i c
    let w := if k.beta then rn32 ((x.lam i).mul (val32 w)) else w
    (List.range x.len).foldl (fun w t => fmaVal (x.u t i) (valAt dv t c) w) w
  let new := if !k.v then old else
    (List.range o.nbr).map (fun b => Vector.ofFn (fun r => ofLanes (fun c =>
      if 32 * b + r.val < o.rows && c < cols then elem (32 * b + r) c else colElem old (32 * b + r) c)))
  (new, if !k.y then [] else if k.newY then dots x.q new else oldY)

/-- Writes Y's elements of a block column as RoundTo(Y, yfmt, RNE). -/
def writeY (d : BitVec 256) (o : FwObject) (q : Nat) (y : List (List Lane)) (s : State) : State :=
  let a := yRows d o
  let f := fmtOfCode (descYFmt d)
  (List.range a.rows).foldl (fun s t =>
    (List.range (min 32 (o.cols - 32 * q))).foldl (fun s c =>
      s.spWrite (a.off + t * a.pitch + (32 * q + c) * a.size) a.size (roundCode f rne ((y.getD t []).getD c 0))) s) s

/-! ### Private blocks (R210) -/

/-- Gives block `k` of an object to it alone, with new contents. -/
def State.writeBlock (s : State) (h : Word) (k : Nat) (t : Tile) : State :=
  match s.object h with
  | none => s
  | some o =>
    let id := o.blocks.getD k 0
    let b := s.block id
    if b.refs ≤ 1 then { s with blocks := s.blocks.map (fun c => if c.id = id then { c with data := t } else c) }
    else
      let (ids, s) := State.newBlocks b.cluster [(t, b.poison)] (s.unref id)
      s.updObject h (fun o => { o with blocks := o.blocks.set k (ids.getD 0 0) })

/-- Blocks among `ks` of an object that it shares. -/
def State.sharedAmong (s : State) (o : FwObject) (ks : List Nat) : Nat :=
  (ks.filter (fun k => 1 < (s.block (o.blocks.getD k 0)).refs)).length

/-! ### opu, fwfwd, fwupd, fwfu (R208, R209) -/

/-- The checks of an update at the state port. -/
def updCheck (k : Upd) (h chunk : Word) : Check :=
  ((checkHandle h k.v).andThen
    (checkThat (fun s => !k.beta || ((s.object h).map (fun o => zext64 o.next)).getD 0 = chunk) 8 chunk)).andThen (checkHere [h])

/-- One block column of an update. -/
def updColumnStep (k : Upd) (w : Cmd) (o : FwObject) (s : State) : EngOut :=
  let h := w.op0
  let d := w.desc
  let q := w.progress / o.nbr
  let ks := (List.range o.nbr).map (fun p => p * o.nbc + q)
  if ks.any (fun b => (s.block (o.blocks.getD b 0)).poison) then .trap w 0x12 h none s
  else
    spReading s w ((readRows k.columns d o).flatMap Rows.runs)
      (let (s, ok) := if k.v then s.ensureBlocks s.cpu.cluster (s.sharedAmong o ks) else (s, true)
       if !ok then .blocked s
       else
         let old := ks.map (fun b => (s.block (o.blocks.getD b 0)).data)
         let (new, y) := updColumn k (updInputs s k d o w.kept) o q old
         let s := if k.v then (ks.zip new).foldl (fun s p => s.writeBlock h p.1 p.2) s else s
         let s := if k.y then writeY d o q y s else s
         let w := { w with progress := w.progress + o.nbr }
         if w.progress < o.nb then .more w s
         else endHolds w (if k.beta then s.updObject h (fun o => { o with next := o.next + 1 }) else s))

/-- A unit of an update: u and λ formed once, whose ranges then go (R103), then one block column after the other. -/
def updStep (k : Upd) (w : Cmd) (s : State) : EngOut :=
  match s.object w.op0 with
  | none => endHolds w s
  | some o =>
    if k.v && w.kept.isEmpty then
      spReading s w ((onceRows k w.desc o).flatMap Rows.runs)
        (.more { w with kept := updForms s k w.desc o, ranges := updRanges k.columns w.desc o } s)
    else updColumnStep k w o s

/-- A progress at or above the count of blocks completes the command with no further effect (R361). -/
def overdone (s : State) (h : Word) (progress : Nat) : Bool :=
  progress ≠ 0 && (s.object h).any (fun o => o.nb ≤ progress)

/-- A re-injected update reads its descriptor again, once the commands before it have finished with those bytes (R359). -/
def updAgain (k : Upd) (w : Cmd) (s : State) : EngOut :=
  match handleTrap s w.op0 k.v, s.validObject w.op0 with
  | some (c, v), _ => .trap w c v none s
  | none, none => .trap w 5 w.op0 none s
  | none, some o =>
    match descAt s k o w.op1 false with
    | .wait => .blocked s
    | .trap c v => .trap w c v none s
    | .ok d => .more { w with aux := 0, desc := d, ranges := updRanges k d o } s

/-- The descriptor of a re-injected update is still to be read. -/
def Cmd.unread (d : Cmd) : Bool := d.queue = .state && d.aux = 2

/-- An update at the state port. -/
def unitUpdate (k : Upd) (w : Cmd) (s : State) : EngOut :=
  if overdone s w.op0 w.progress then endHolds w s
  else if w.unread then updAgain k w s
  else withHolds w (if k.v then [] else [w.op0]) (if k.v then [w.op0] else []) (updCheck k w.op0 w.op2) s (updStep k)

/-- An update at issue (R203). -/
def issueUpdate (i : Instr) (k : Upd) (h a b : BitVec 5) (r : BitVec 3) (s : State) : Out :=
  forwardWord r [] [h, a, b] .state s (fun s =>
    let hv := s.x h
    match handleTrap s hv k.v, s.validObject hv with
    | some (c, v), _ => trapOut s c v
    | none, none => trapOut s 5 hv
    | none, some o =>
      match readDesc s k o (s.x a) with
      | .wait => .next s
      | .trap c v => trapOut s c v
      | .ok d =>
        enqueue {
          instr := i
          queue := .state
          op0 := hv
          op1 := s.x a
          op2 := s.x b
          ranges := updRanges k d o
          desc := d } (unitUpdate k) s)

/-- Raw rank-C update of a fast-weight object. (R208) -/
def unitOpu (w : Cmd) (s : State) : EngOut := unitUpdate updOpu w s
def execOpu (h : BitVec 5) (a : BitVec 5) (r : BitVec 3) (s : State) : Out :=
  issueUpdate (.opu h a r) updOpu h a 0 r s

/-- Reads Y = Q·W from a fast-weight object under a shared hold. (R208) -/
def unitFwfwd (w : Cmd) (s : State) : EngOut := unitUpdate updFwfwd w s
def execFwfwd (h : BitVec 5) (a : BitVec 5) (r : BitVec 3) (s : State) : Out :=
  issueUpdate (.fwfwd h a r) updFwfwd h a 0 r s

/-- Chunk-checked delta-rule update without Y. (R208) -/
def unitFwupdD (w : Cmd) (s : State) : EngOut := unitUpdate updUpdD w s
def execFwupdD (h : BitVec 5) (a : BitVec 5) (b : BitVec 5) (r : BitVec 3) (s : State) : Out :=
  issueUpdate (.fwupdD h a b r) updUpdD h a b r s

/-- Chunk-checked Hebbian update without Y. (R208) -/
def unitFwupdH (w : Cmd) (s : State) : EngOut := unitUpdate updUpdH w s
def execFwupdH (h : BitVec 5) (a : BitVec 5) (b : BitVec 5) (r : BitVec 3) (s : State) : Out :=
  issueUpdate (.fwupdH h a b r) updUpdH h a b r s

/-- Chunk-checked external-error update without Y. (R208) -/
def unitFwupdE (w : Cmd) (s : State) : EngOut := unitUpdate updUpdH w s
def execFwupdE (h : BitVec 5) (a : BitVec 5) (b : BitVec 5) (r : BitVec 3) (s : State) : Out :=
  issueUpdate (.fwupdE h a b r) updUpdH h a b r s

/-- Fused delta-rule update, read-fade-write. (R208) -/
def unitFwfuD (w : Cmd) (s : State) : EngOut := unitUpdate updFuD w s
def execFwfuD (h : BitVec 5) (a : BitVec 5) (b : BitVec 5) (r : BitVec 3) (s : State) : Out :=
  issueUpdate (.fwfuD h a b r) updFuD h a b r s

/-- Fused delta-rule update, fade-write-read. (R208) -/
def unitFwfuDl (w : Cmd) (s : State) : EngOut := unitUpdate updFuDl w s
def execFwfuDl (h : BitVec 5) (a : BitVec 5) (b : BitVec 5) (r : BitVec 3) (s : State) : Out :=
  issueUpdate (.fwfuDl h a b r) updFuDl h a b r s

/-- Fused Hebbian update, read-fade-write. (R208) -/
def unitFwfuH (w : Cmd) (s : State) : EngOut := unitUpdate updFuH w s
def execFwfuH (h : BitVec 5) (a : BitVec 5) (b : BitVec 5) (r : BitVec 3) (s : State) : Out :=
  issueUpdate (.fwfuH h a b r) updFuH h a b r s

/-- Fused Hebbian update, fade-write-read. (R208) -/
def unitFwfuHl (w : Cmd) (s : State) : EngOut := unitUpdate updFuHl w s
def execFwfuHl (h : BitVec 5) (a : BitVec 5) (b : BitVec 5) (r : BitVec 3) (s : State) : Out :=
  issueUpdate (.fwfuHl h a b r) updFuHl h a b r s

/-- Fused external-error update. (R208) -/
def unitFwfuE (w : Cmd) (s : State) : EngOut := unitUpdate updFuH w s
def execFwfuE (h : BitVec 5) (a : BitVec 5) (b : BitVec 5) (r : BitVec 3) (s : State) : Out :=
  issueUpdate (.fwfuE h a b r) updFuH h a b r s

/-! ### fwavg (R212, R359) -/

/-- The 41-bit key of a handle, and the handle of a key for the executing context. -/
def handleKey (h : Word) : Nat := (h.extractLsb' 16 25).toNat + (h.extractLsb' 48 16).toNat * 2 ^ 25
def keyHandle (ctx key : Nat) : Word :=
  BitVec.ofNat 64 (ctx % 2 ^ 16 + key % 2 ^ 25 * 2 ^ 16 + key / 2 ^ 25 % 2 ^ 16 * 2 ^ 48)

/-- op1 and op2 of fwavg. -/
def avgOps (h a b : Word) : Word × Word :=
  (BitVec.ofNat 64 (handleKey h + handleKey a % 2 ^ 23 * 2 ^ 41), BitVec.ofNat 64 (handleKey a / 2 ^ 23 + handleKey b * 2 ^ 18))

/-- The three handles of a captured fwavg. -/
def avgHandles (s : State) (w : Cmd) : Word × Word × Word :=
  let x := w.op1.toNat
  let y := w.op2.toNat
  (keyHandle s.cpu.ctx (x % 2 ^ 41), keyHandle s.cpu.ctx (x / 2 ^ 41 + y % 2 ^ 18 * 2 ^ 23), keyHandle s.cpu.ctx (y / 2 ^ 18 % 2 ^ 41))

def sameShape (s : State) (h a : Word) : Bool :=
  match s.object h, s.object a with
  | some o, some p => o.rows = p.rows && o.cols = p.cols
  | _, _ => false

/-- The checks of fwavg at the state port. R212 gives the shape check no place in the order of R203: it stands after the handles and
before residency (DESIGN CHOICE, assumption log 57). -/
def avgCheck (h a b : Word) : Check :=
  (((checkHandle h true).andThen (checkHandle a false)).andThen (checkHandle b false)).andThen
    ((checkThat (fun s => sameShape s h a && sameShape s h b) 1 h).andThen (checkHere [h, a, b]))

/-- Block `k` of the average. -/
def avgTile (o : FwObject) (k : Nat) (wa wb : FpVal) (a b old : Tile) : Tile :=
  Vector.ofFn (fun r => ofLanes (fun c =>
    if 32 * (k / o.nbc) + r.val < o.rows && 32 * (k % o.nbc) + c < o.cols then
      fmaVal wa (val32 (lane (tileRow a r) c)) (rn32 (wb.mul (val32 (lane (tileRow b r) c))))
    else lane (tileRow old r) c))

/-- One block of fwavg. The destination's own block is read only where it is copied to become private (R210, R221). -/
def avgStep (h a b : Word) (w : Cmd) (s : State) : EngOut :=
  match s.object h, s.object a, s.object b with
  | some o, some oa, some ob =>
    let k := w.progress
    let ba := s.block (oa.blocks.getD k 0)
    let bb := s.block (ob.blocks.getD k 0)
    let bh := s.block (o.blocks.getD k 0)
    if ba.poison then .trap w 0x12 a none s
    else if bb.poison then .trap w 0x12 b none s
    else if 1 < bh.refs && bh.poison then .trap w 0x12 h none s
    else
      let (s, ok) := s.ensureBlocks s.cpu.cluster (s.sharedAmong o [k])
      if !ok then .blocked s
      else
        let wa := val32 (w.op0.extractLsb' 0 32)
        let wb := val32 (w.op0.extractLsb' 32 32)
        let s := s.writeBlock h k (avgTile o k wa wb ba.data bb.data bh.data)
        if k + 1 < o.nb then .more { w with progress := k + 1 } s else endHolds w s
  | _, _, _ => endHolds w s

/-- Element-wise weighted average of two objects, block by block. (R212) -/
def unitFwavg (w : Cmd) (s : State) : EngOut :=
  let (h, a, b) := avgHandles s w
  if overdone s h w.progress then endHolds w s
  else withHolds w ([a, b].eraseDups.filter (fun x => x != h)) [h] (avgCheck h a b) s (avgStep h a b)
def execFwavg (h : BitVec 5) (a : BitVec 5) (b : BitVec 5) (r : BitVec 3) (s : State) : Out :=
  forwardWord r [] [h, a, a + 1, b] .state s (fun s =>
    let hv := s.x h
    let av := s.x a
    let bv := s.x (a + 1)
    match ((checkHandle hv true).andThen (checkHandle av false)).andThen (checkHandle bv false) s with
    | some (c, v, _) => trapOut s c v
    | none =>
      let (op1, op2) := avgOps hv av bv
      enqueue { instr := .fwavg h a b r, queue := .state, op0 := s.x b, op1 := op1, op2 := op2 } unitFwavg s)

/-! ### fwsnap (R211) -/

/-- A new handle that shares every block of an object. -/
def State.share (s : State) (o : FwObject) (snap : Bool) : Word × State :=
  let (h, s) := s.newHandle o.ctx snap
  let s := o.blocks.foldl State.addRef s
  (h, { s with
    holdClock := s.holdClock + 1
    objects := s.objects ++ [{ o with handle := h, snap := snap, pinned := false, want := [], asked := false, copy := [], holds := [], lastHeld := s.holdClock }] })

/-- snap and fork at the state port. -/
def unitShare (snap : Bool) (h : BitVec 5) (w : Cmd) (s : State) : EngOut :=
  let a := w.op1
  if w.progress ≠ 0 then endHolds w s else
  withHolds w [a] [] ((checkHandle a false).andThen (checkHere [a])) s (fun w s =>
    match s.object a with
    | none => endHolds w s
    | some o =>
      if s.directoryFull o.ctx 1 then .blocked s
      else
        let (n, s) := s.share o snap
        endHolds w (s.setX h n))

/-- A format-F word that names handles, with the checks of R199 at issue. -/
def issueState (i : Instr) (r : BitVec 3) (h a b : BitVec 5) (check : State → Word → Word → Option (Nat × Word))
    (unit : Cmd → State → EngOut) (s : State) : Out :=
  forwardWord r [] [h, a, b] .state s (fun s =>
    match check s (s.x h) (s.x a) with
    | some (c, v) => trapOut s c v
    | none => enqueue { instr := i, queue := .state, op0 := s.x h, op1 := s.x a, op2 := s.x b } unit s)

/-- Makes a read-only snapshot handle sharing every block. (R211) -/
def unitFwsnapSnap (h : BitVec 5) (w : Cmd) (s : State) : EngOut := unitShare true h w s
def execFwsnapSnap (h : BitVec 5) (a : BitVec 5) (r : BitVec 3) (s : State) : Out :=
  issueState (.fwsnapSnap h a r) r h a 0 (fun s _ a => handleTrap s a false) (unitFwsnapSnap h) s

/-- Makes a writable handle sharing every block. (R211) -/
def unitFwsnapFork (h : BitVec 5) (w : Cmd) (s : State) : EngOut := unitShare false h w s
def execFwsnapFork (h : BitVec 5) (a : BitVec 5) (r : BitVec 3) (s : State) : Out :=
  issueState (.fwsnapFork h a r) r h a 0 (fun s _ a => handleTrap s a false) (unitFwsnapFork h) s

/-- The handle checks of rollback. -/
def rollbackTrap (s : State) (h a : Word) : Option (Nat × Word) :=
  match handleTrap s h true with
  | some t => some t
  | none => handleTrap s a false

def checkRollback (h a : Word) : Check := fun s => (rollbackTrap s h a).map (fun p => (p.1, p.2, s))

/-- Replaces an object's blocks by a snapshot's. The shape check stands where avgCheck has its own (DESIGN CHOICE, assumption log 57).
(R211) -/
def unitFwsnapRollback (w : Cmd) (s : State) : EngOut :=
  let h := w.op0
  let a := w.op1
  if w.progress ≠ 0 then endHolds w s else
  withHolds w [a] [h]
    (((checkRollback h a).andThen
      (checkThat (fun s => sameShape s h a && ((s.object a).map (fun o => o.snap)).getD false) 1 a)).andThen (checkHere [h, a])) s
    (fun w s =>
      match s.object h, s.object a with
      | some o, some p =>
        let s := p.blocks.foldl State.addRef s
        let s := o.blocks.foldl State.unref s
        endHolds w (s.updObject h (fun o => { o with blocks := p.blocks, next := p.next }))
      | _, _ => endHolds w s)
def execFwsnapRollback (h : BitVec 5) (a : BitVec 5) (r : BitVec 3) (s : State) : Out :=
  issueState (.fwsnapRollback h a r) r h a 0 rollbackTrap unitFwsnapRollback s

/-- Decrements block counts and invalidates the handle. (R211) -/
def unitFwsnapFree (w : Cmd) (s : State) : EngOut :=
  let h := w.op0
  if w.progress ≠ 0 then endHolds w s else
  withHolds w [] [h] (checkHandle h false) s (fun w s =>
    match s.object h with
    | none => endHolds w s
    | some o =>
      let s := o.blocks.foldl State.unref s
      endHolds w { s with objects := s.objects.filter (fun p => p.handle != h) })
def execFwsnapFree (h : BitVec 5) (r : BitVec 3) (s : State) : Out :=
  issueState (.fwsnapFree h r) r h 0 0 (fun s h _ => handleTrap s h false) unitFwsnapFree s

/-! ### fwctl (R213, R214) -/

/-- The status word. -/
def statusWord (s : State) (h : Word) : Word :=
  match s.validObject h with
  | none => 0x7000000000#64
  | some o =>
    let place :=
      if o.move ≠ .none then 4
      else
        match o.place with
        | .cluster c => if c = s.cpu.cluster then 0 else 1
        | .image => 2
        | .chip _ _ => 3
    BitVec.ofNat 64 (o.next.toNat + o.prio * 2 ^ 32 + o.pinned.toNat * 2 ^ 35 + place * 2 ^ 36 + o.snap.toNat * 2 ^ 39 +
      (o.nb - 1) * 2 ^ 40)

/-- An attribute word that keeps its layout. -/
def attrOk (v : Word) : Bool := v.extractLsb' 22 42 = 0
def attrRows (v : Word) : Nat := (v.extractLsb' 0 9).toNat + 1
def attrCols (v : Word) : Nat := (v.extractLsb' 9 9).toNat + 1
def attrPrio (v : Word) : Nat := (v.extractLsb' 18 3).toNat

/-- Block `k` of an object of a shape, with every element outside the shape +0 (R197). Blocks are numbered along the rows: block (p, q)
is number p × nbc + q (DESIGN CHOICE, assumption log 65). -/
def trimTile (rows cols k : Nat) (t : Tile) : Tile :=
  let nbc := (cols + 31) / 32
  Vector.ofFn (fun r => ofLanes (fun c =>
    if 32 * (k / nbc) + r.val < rows && 32 * (k % nbc) + c < cols then lane (tileRow t r) c else 0))

/-- Blocks of a shape, from contents given for some of them; every block not given is +0. -/
def shapedBlocks (rows cols : Nat) (given : List (Tile × Bool)) : List (Tile × Bool) :=
  (List.range (((rows + 31) / 32) * ((cols + 31) / 32))).map (fun k =>
    match given[k]? with
    | some b => (trimTile rows cols k b.1, b.2)
    | none => (zeroTile, false))

/-- A new object in a cluster with given block contents. -/
def State.create (s : State) (ctx cl : Nat) (attr : Word) (nextUse next : BitVec 32) (given : List (Tile × Bool)) : Word × State :=
  let (h, s) := s.newHandle ctx false
  let (ids, s) := State.newBlocks cl (shapedBlocks (attrRows attr) (attrCols attr) given) s
  (h, { s with
    holdClock := s.holdClock + 1
    objects := s.objects ++ [⟨h, ctx, attrRows attr, attrCols attr, next, attrPrio attr, nextUse, attr.getLsbD 21, false,
      .cluster cl, .none, ids, [], [], false, [], [], s.holdClock⟩] })

/-- Creates a zeroed object and returns its handle. (R213) -/
def unitFwctlNew (h : BitVec 5) (w : Cmd) (s : State) : EngOut :=
  let attr := w.op1
  if w.progress ≠ 0 then .done s
  else if !attrOk attr then .trap w 1 attr none s
  else if w.op2.extractLsb' 32 32 ≠ 0 then .trap w 1 w.op2 none s
  else if s.directoryFull s.cpu.ctx 1 then .blocked s
  else
    let (s, ok) := s.ensureBlocks s.cpu.cluster (((attrRows attr + 31) / 32) * ((attrCols attr + 31) / 32))
    if !ok then .blocked s
    else
      let (n, s) := s.create s.cpu.ctx s.cpu.cluster attr (w.op2.extractLsb' 0 32) 0 []
      .done (s.setX h n)
def execFwctlNew (h : BitVec 5) (a : BitVec 5) (b : BitVec 5) (r : BitVec 3) (s : State) : Out :=
  issueState (.fwctlNew h a b r) r h a b (fun _ _ _ => none) (unitFwctlNew h) s

/-- A command on one handle that takes no hold: R201 speaks of commands that read or write an object, and R213 names no hold for pin,
unpin and hint (DESIGN CHOICE, assumption log 57). -/
def onHandle (check : Check) (f : FwObject → FwObject) (w : Cmd) (s : State) : EngOut :=
  if w.progress ≠ 0 then .done s
  else
    match ((checkHandle w.op0 false).andThen check) s with
    | some (c, v, s) => .trap w c v none s
    | none => .done (s.updObject w.op0 f)

/-- Pins an object. (R213) -/
def unitFwctlPin (w : Cmd) (s : State) : EngOut := onHandle (checkHere [w.op0]) (fun o => { o with pinned := true }) w s
def execFwctlPin (h : BitVec 5) (r : BitVec 3) (s : State) : Out :=
  issueState (.fwctlPin h r) r h 0 0 (fun s h _ => handleTrap s h false) unitFwctlPin s

/-- Unpins an object. (R213) -/
def unitFwctlUnpin (w : Cmd) (s : State) : EngOut := onHandle (fun _ => none) (fun o => { o with pinned := false }) w s
def execFwctlUnpin (h : BitVec 5) (r : BitVec 3) (s : State) : Out :=
  issueState (.fwctlUnpin h r) r h 0 0 (fun s h _ => handleTrap s h false) unitFwctlUnpin s

/-- Returns the status word of a handle. (R214) -/
def unitFwctlQuery (h : BitVec 5) (w : Cmd) (s : State) : EngOut :=
  if w.progress ≠ 0 then .done s else .done (s.setX h (statusWord s w.op1))
def execFwctlQuery (h : BitVec 5) (a : BitVec 5) (r : BitVec 3) (s : State) : Out :=
  issueState (.fwctlQuery h a r) r h a 0 (fun _ _ _ => none) (unitFwctlQuery h) s

/-- Sets an object's priority and next-use step. (R213) -/
def unitFwctlHint (w : Cmd) (s : State) : EngOut :=
  onHandle
    ((checkThat (fun _ => w.op1.extractLsb' 3 61 = 0) 1 w.op1).andThen (checkThat (fun _ => w.op2.extractLsb' 32 32 = 0) 1 w.op2))
    (fun o => { o with prio := (w.op1.extractLsb' 0 3).toNat, nextUse := w.op2.extractLsb' 0 32 }) w s
def execFwctlHint (h : BitVec 5) (a : BitVec 5) (b : BitVec 5) (r : BitVec 3) (s : State) : Out :=
  issueState (.fwctlHint h a b r) r h a b (fun s h _ => handleTrap s h false) unitFwctlHint s

/-- Waits until an object is resident here, starting a page-in. (R213) -/
def unitFwctlWait (w : Cmd) (s : State) : EngOut :=
  if w.progress ≠ 0 then .done s
  else
    match handleTrap s w.op0 false with
    | some (c, v) => .trap w c v none s
    | none =>
      let s := if ((s.object w.op0).map (fun o => o.isHere s.cpu.cluster)).getD false then s else s.askPage w.op0 s.cpu.cluster
      if ((s.object w.op0).map (fun o => o.isHere s.cpu.cluster)).getD false then .done s else .blocked s
def execFwctlWait (h : BitVec 5) (r : BitVec 3) (s : State) : Out :=
  issueState (.fwctlWait h r) r h 0 0 (fun s h _ => handleTrap s h false) unitFwctlWait s

/-! ### fwmig (R215) -/

def migKind (v : Word) : Nat := (v.extractLsb' 0 2).toNat
def migCluster (v : Word) : Nat := (v.extractLsb' 2 7).toNat
def migChip (v : Word) : Nat := (v.extractLsb' 16 16).toNat

/-- A logical cluster is live: its die is not offline (R12, R16). -/
def State.clusterLive (s : State) (cl : Nat) : Bool := cl < clusterCount s.fuses && !s.isOffline (stackDie s.fuses (cl / 16))

/-- A logical cluster of a chip is live; which clusters of another chip are, its fuses and its resets decide (DESIGN CHOICE, assumption log
69). -/
def State.remoteLive (s : State) (chip cl : Nat) : Bool :=
  if chip = s.chipId then s.clusterLive cl else Config.remoteClusterLive chip cl

/-- A destination word that names a place. -/
def migOk (s : State) (v : Word) : Bool :=
  migKind v ≠ 3 && v.extractLsb' 9 7 = 0 && v.extractLsb' 32 32 = 0 && (migKind v ≠ 0 || s.clusterLive (migCluster v)) &&
  (migKind v ≠ 1 || s.remoteLive (migChip v) (migCluster v))

/-- The attribute word of an object (R213). -/
def FwObject.attr (o : FwObject) : Word :=
  BitVec.ofNat 64 (o.rows - 1 + (o.cols - 1) * 2 ^ 9 + o.prio * 2 ^ 18 + o.pinned.toNat * 2 ^ 21)

/-- The object is at its destination: the entry is rewritten in one step (R215). -/
def FwObject.moved (o : FwObject) (place : ObjPlace) (blocks : List Nat) (image : List (Tile × Bool)) : FwObject :=
  { o with place := place, move := .none, blocks := blocks, image := image, copy := [] }

/-- The final step of a migration. -/
def State.finishMigration (s : State) (o : FwObject) (v : Word) : State :=
  let image := s.contents o
  let s := o.blocks.foldl State.unref s
  match migKind v with
  | 0 => s.updObject o.handle (fun o => o.moved (.cluster (migCluster v)) o.copy [])
  | 1 =>
    let s := s.updObject o.handle (fun o => o.moved (.chip (migChip v) (migCluster v)) [] [])
    { s with outbox := s.outbox ++
        [.object (migChip v) o.handle (migCluster v) o.attr o.next o.nextUse (image.map (fun b => b.1))] }
  | _ => s.updObject o.handle (fun o => o.moved .image [] image)

/-- The next block of a migration is copied: at a cluster, into a block of its own. `k` blocks are done. -/
def State.copyBlock (s : State) (o : FwObject) (v : Word) (k : Nat) : State × Bool :=
  let s := s.updObject o.handle (fun o => { o with move := .moving })
  if migKind v ≠ 0 then (s, true)
  else
    let (s, ok) := s.ensureBlocks (migCluster v) 1
    if !ok then (s, false)
    else
      let (ids, s) := State.newBlocks (migCluster v) [(s.contents o).getD k (zeroTile, false)] s
      (s.updObject o.handle (fun o => { o with copy := o.copy ++ ids }), true)

/-- Blocks that a migration has copied to its destination; those in another cluster, after a rewritten operand, do not count. -/
def State.copied (s : State) (o : FwObject) (w : Cmd) : Nat :=
  if migKind w.op1 ≠ 0 then w.progress
  else if o.copy.all (fun id => (s.block id).cluster = migCluster w.op1) then o.copy.length else 0

/-- The object is where it is to go. -/
def FwObject.isAt (o : FwObject) (v : Word) : Bool :=
  match migKind v with
  | 0 => o.place = .cluster (migCluster v)
  | 1 => o.place = .chip (migChip v) (migCluster v)
  | _ => o.place = .image

/-- A unit of a migration: one block is copied, and the last one moves the object (R215). An object on another chip is brought here
first; an image that does not fit waits for space (R217). -/
def migrate (w : Cmd) (s : State) : EngOut :=
  match s.object w.op0 with
  | none => endHolds w s
  | some o =>
    if o.isAt w.op1 then endHolds w s
    else
      match o.place with
      | .chip c _ => .blocked (s.fetchObject o c (if migKind w.op1 = 0 then migCluster w.op1 else s.cpu.cluster))
      | _ =>
        let k := s.copied o w
        if k = 0 && !o.copy.isEmpty then .more { w with progress := 0 } (s.abandonCopy o)
        else if ((s.contents o).getD k (zeroTile, false)).2 then .trap w 0x12 w.op0 none s
        else if migKind w.op1 = 2 && !s.imageFits o then .blocked s
        else
          let (s, ok) := s.copyBlock o w.op1 k
          if !ok then .blocked s
          else if k + 1 < o.nb then .more { w with progress := k + 1 } s
          else
            match s.object w.op0 with
            | none => endHolds w s
            | some o => endHolds w (s.finishMigration o w.op1)

/-- Moves an object whole to a cluster, another chip or LPDDR6, keeping its handle. (R215) -/
def unitFwmig (w : Cmd) (s : State) : EngOut :=
  if overdone s w.op0 w.progress then endHolds w s
  else
    withHolds w [] [w.op0] ((checkHandle w.op0 false).andThen (checkThat (fun s => migOk s w.op1) 1 w.op1)) s migrate
def execFwmig (h : BitVec 5) (a : BitVec 5) (r : BitVec 3) (s : State) : Out :=
  issueState (.fwmig h a r) r h a 0 (fun s h _ => handleTrap s h false) unitFwmig s

/-- Rows of blocks, 32 to a block, as tiles. -/
def tilesOf (rows : List (BitVec 1024)) (n : Nat) : List (Tile × Bool) :=
  (List.range n).map (fun k => (Vector.ofFn (fun r => rows.getD (32 * k + r) 0), false))

/-- A fast-weight object moved by fwmig from another chip arrives, and this chip's directory takes its handle value
unchanged. (R215) -/
def execMigratedObjectArrival (handle : Word) (cluster : Nat) (attr : Word) (next : BitVec 32) (nextUse : BitVec 32)
    (rows : List (BitVec 1024)) (s : State) : Out :=
  let n := ((attrRows attr + 31) / 32) * ((attrCols attr + 31) / 32)
  let ctx := (handle.extractLsb' 0 16).toNat
  let known := match s.object handle with
    | some o => match o.place with
      | .chip _ _ => false
      | _ => true
    | none => false
  if known || (s.context ctx).isNone then .next s
  else
    let (s, ok) := s.ensureBlocks cluster n
    if !ok then .next s
    else
      let (ids, s) := State.newBlocks cluster (shapedBlocks (attrRows attr) (attrCols attr) (tilesOf rows n)) s
      let holds := ((s.object handle).map (fun o => o.holds)).getD []
      let want := ((s.object handle).map (fun o => o.want)).getD []
      let o : FwObject := ⟨handle, ctx, attrRows attr, attrCols attr, next, attrPrio attr, nextUse, attr.getLsbD 21,
        handle.getLsbD 40, .cluster cluster, if want.isEmpty then .none else .moving, ids, [], want, false, [], holds, s.holdClock⟩
      .next { s with objects := s.objects.filter (fun p => p.handle != handle) ++ [o], holdClock := s.holdClock + 1 }

end Sys2Proof.Machine
end

