-- ==== Sys2Proof/Machine/Queues.lean ====
section
/-! DEFINITION. Queue tables, QCBs and completions in device memory (R388, R389, R393, R401). -/

namespace Sys2Proof.Machine

/-! ### The two-level table (R388) -/

/-- The walk to a QCB: found, refused with a transport error, a level is not present (at its entry's key), or a channel that it needs
serves no ordinary request (R293). -/
inductive QcbWalk where
  | ok (qcb : Nat) (s : State)
  | refused
  | absent (key : Nat)
  | held (key : Nat)
  deriving DecidableEq, Repr

/-- A table entry at a physical address. -/
def State.tableEntry (s : State) (k : Nat) : Word := BitVec.ofNat 64 (readLE s.mem k 8)

/-- The walk sets acc in an entry that it passes. -/
def State.setAcc (s : State) (k : Nat) : State := s.homeWrite k (leBytes 8 (s.tableEntry k ||| 4).toNat) none

/-- Bits [51:7] of an entry as an address. -/
def entryNext (e : Word) : Nat := (e.extractLsb' 7 45).toNat * 128

/-- One level of the table. -/
def State.qcbLevel (s : State) (k : Nat) (go : Nat → State → QcbWalk) : QcbWalk :=
  let e := s.tableEntry k
  if s.homeWaits k then .held k
  else if !e.getLsbD 0 then .refused else if !e.getLsbD 1 then .absent k else go (entryNext e) (s.setAcc k)

def State.qcbWalk (s : State) (pasid queue : Nat) : QcbWalk :=
  if 64 ≤ queue || 2 ^ 20 ≤ pasid then .refused
  else s.qcbLevel (s.pasidBase + 8 * pasid) (fun t s => s.qcbLevel (t + 8 * queue) (fun q s =>
    if s.homeWaits q then .held q else .ok q s))

/-! ### QCB fields (R389) -/

def State.qcb (s : State) (q o n : Nat) : Nat := readLE s.mem (q + o) n
def State.setQcb (s : State) (q o n v : Nat) : State := s.homeWrite (q + o) (leBytes n v) none

def State.qcbRing (s : State) (q : Nat) : Word := BitVec.ofNat 64 (s.qcb q 0 8)
def State.qcbSlots (s : State) (q : Nat) : Nat := s.qcb q 8 2
def State.qcbCtx (s : State) (q : Nat) : Nat := s.qcb q 10 2
def State.qcbState (s : State) (q : Nat) : Nat := s.qcb q 12 1
def State.qcbTail (s : State) (q : Nat) : Nat := s.qcb q 16 4
def State.qcbHead (s : State) (q : Nat) : Nat := s.qcb q 20 4

/-- The ring has no entry (R387, R389). -/
def State.qcbFull (s : State) (q : Nat) : Bool := s.qcbSlots q ≤ (s.qcbTail q + 2 ^ 32 - s.qcbHead q) % 2 ^ 32
def State.qcbEmpty (s : State) (q : Nat) : Bool := s.qcbTail q = s.qcbHead q

/-- The address of ring entry `k`. -/
def State.ringEntry (s : State) (q k : Nat) : Word := s.qcbRing q + BitVec.ofNat 64 (256 * (k % s.qcbSlots q))

/-! ### Completions (R401) -/

/-- The host's completion ring of a queue has no free entry (R401): as many entries as it has were written since those that the host
has read. (DESIGN CHOICE, assumption log 31) -/
def State.cqFull (s : State) (q : Nat) : Bool :=
  s.qcb q 36 2 ≤ (s.qcb q 40 4 + 2 ^ 32 - ((s.hostReads.find? (fun p => p.1 == q)).map (fun p => p.2)).getD 0 % 2 ^ 32) % 2 ^ 32

/-- Writes a completion entry to the host, in cqidx order. -/
def State.putEntry (s : State) (pasid q : Nat) (entry : List Byte) : State :=
  let idx := s.qcb q 40 4
  let addr := BitVec.ofNat 64 (s.qcb q 24 8 + 64 * (idx % s.qcb q 36 2))
  ({ s with outbox := s.outbox ++ [Message.hostWrite pasid addr (s.qcb q 32 4) entry] }).setQcb q 40 4 (idx + 1)

/-- A completion of the queue waits to be written. -/
def State.posting (s : State) (pasid queue : Nat) : Bool := s.postings.any (fun p => p.pasid == pasid && p.queue == queue)

/-- The completion of a packet: written, or, with the host ring full or the QCB out of reach, behind those that wait (R401, R293). -/
def State.complete (s : State) (pasid queue q : Nat) (entry : List Byte) : State :=
  if s.homeWaits q || s.cqFull q || s.posting pasid queue then { s with postings := s.postings ++ [⟨pasid, queue, some q, entry, none⟩] }
  else s.putEntry pasid q entry

/-- The QCB of a completion that waits (R388). -/
def State.postingQcb (s : State) (p : Posting) : QcbWalk :=
  match p.qcb with
  | some q => if s.homeWaits q then .held q else .ok q s
  | none => s.qcbWalk p.pasid p.queue

/-- A completion that waits is written, if its queue is there and its ring has room; the answer says whether it is (R388, R401). -/
def State.putPosting (s : State) (p : Posting) : State × Bool :=
  match s.postingQcb p with
  | .ok q t => if t.cqFull q then (s, false) else (t.putEntry p.pasid q p.entry, true)
  | .held k => (s.stall k, false)
  | _ => (s, false)

/-- The entry of a packet: tag, seq and status. -/
def packetEntry (tag seq status : Nat) : List Byte :=
  (leBytes 8 tag ++ leBytes 4 seq ++ leBytes 1 status ++ List.replicate 51 0).take 64

/-- The entry of a host node. -/
def hostEntry (node : Nat) (payloads : List Nat) : List Byte :=
  (leBytes 8 0 ++ leBytes 4 0 ++ leBytes 1 0 ++ leBytes 1 1 ++ leBytes 2 node ++ payloads.flatMap (leBytes 8) ++
    List.replicate 64 0).take 64

end Sys2Proof.Machine
end

