-- ==== Sys2Proof/Machine/Rill.lean ====
section
/-! DEFINITION. Rill units: channel modes (R292 to R294), bank commands (R296, R297), nbmode, nbcmd, nbfence and nbrd (R298 to R304). -/

namespace Sys2Proof.Machine

/-! ### Channels (R289 to R293) -/

def Bank.zero : Bank := ⟨Vector.replicate 8 0, Vector.replicate 64 0, [], 0⟩

def Channel.fresh (p : Nat × Nat) : Channel :=
  ⟨p.1, p.2, .ordinary, none, none, none, 0, false, Vector.replicate 16 Bank.zero, none, false, [], false⟩

/-- The channel of a key, as it stands. -/
def State.chanAt (s : State) (key : Nat) : Channel := (s.channel (chanOf s.fuses key)).getD (Channel.fresh (chanOf s.fuses key))

def Channel.bank (c : Channel) (b : Nat) : Bank := c.banks[mod16 b]
def Channel.setBank (c : Channel) (b : Nat) (k : Bank) : Channel := { c with banks := c.banks.set (mod16 b) k }

/-- Registers to zero, queues kept. -/
def Bank.cleared (k : Bank) : Bank := { k with opr := Vector.replicate 8 0, res := Vector.replicate 64 0 }
def Channel.cleared (c : Channel) : Channel := { c with banks := c.banks.map Bank.cleared }

/-- Every queued command is complete. -/
def Channel.drained (c : Channel) : Bool := c.banks.toList.all (fun k => k.queue.all (fun x => x.read))

/-- An agent whose request waits still runs for the firing that made it: a cell, or a copy engine. -/
def State.owedLive (s : State) (o : Owed) : Bool :=
  match o.turn with
  | .cell c | .engine c _ | .epilogue c => (s.cell c).running && (s.cell c).firing = o.firing
  | .beat e => s.copiers.any (fun c => c.engine = e && c.firing = o.firing && c.state = .running)
  | _ => false

/-- Ordinary requests are in flight to the channel: reductions on their way, and requests that an all-bank mode has kept waiting and that
have not been served since; no request waits for it twice (R292, R374; DEDUCED, assumption log 71). -/
def State.inFlightTo (s : State) (c : Channel) : Bool :=
  s.reductions.any (fun x => isHbm x.key && chanOf s.fuses x.key = (c.stack, c.number)) || c.owed.any s.owedLive

/-- The ordinary mode with the owner kept as previous owner, or released (R292). -/
def Channel.toOrdinary (c : Channel) : Channel :=
  let c := { c with mode := .ordinary, next := none, waitSince := none, prev := c.owner, owner := none }
  if c.released then { c.cleared with prev := none, released := false } else c

/-- The entry or the passage to a compute mode `m` is over (R292). (DEDUCED, assumption log 28) -/
def Channel.toCompute (c : Channel) (m : ChanMode) : Channel :=
  let c := if c.mode = .ordinary && c.prev ≠ c.owner then c.cleared else c
  { c with mode := m, next := none, prev := none, waitSince := none }

/-- A channel enters a compute mode; the home slices drop its compute-capable lines (R293). -/
def State.enterCompute (s : State) (c : Channel) (m : ChanMode) : State :=
  { s.setChannel (c.toCompute m) with
    slices := s.slices.filter (fun l =>
      !(inReserve s.fuses (128 * l.2) && chanOf s.fuses (128 * l.2) = (c.stack, c.number))) }

/-- The transition of a channel that is under way ends when it may. -/
def State.settleChannel (s : State) (c : Channel) : State :=
  match c.next with
  | none => s
  | some .ordinary => if c.drained then s.setChannel c.toOrdinary else s
  | some m =>
    if c.mode = .ordinary then (if s.inFlightTo c then s else s.enterCompute c m)
    else if c.drained && !(m = .allBank && c.owed.any s.owedLive) then s.enterCompute c m else s

/-- After ordinary requests drain and slices write back, the channel enters its compute mode. (R292) -/
def execModeEntryComplete (stack : Nat) (chan : Nat) (s : State) : Out :=
  match s.channel (stack, chan) with
  | some c => if c.next = some .ordinary then .next s else .next (s.settleChannel c)
  | none => .next s

/-- After queued commands complete, the channel returns to Ordinary. (R292) -/
def execModeExitComplete (stack : Nat) (chan : Nat) (s : State) : Out :=
  match s.channel (stack, chan) with
  | some c => if c.next = some .ordinary then .next (s.settleChannel c) else .next s
  | none => .next s

/-- Sets bits of the nbstat of the context that issued a command, on its cell or in its save area. -/
def State.nbFlag (s : State) (x : RillCmd) (bits : Word) : State :=
  let here (c : Cell) : Cell := if c.id = x.cell && c.firing = x.firing then { c with nbstat := c.nbstat ||| bits } else c
  { s with cpu := here s.cpu, cells := s.cells.map here, saved := s.saved.map here }

/-- Every command of the queues of a channel. -/
def Channel.commands (c : Channel) : List RillCmd := c.banks.toList.flatMap (fun k => k.queue.filter (fun x => !x.read))

/-- Flags on every cell with a command in the queues of a channel. -/
def State.flagCommands (s : State) (c : Channel) (bits : Word) : State := c.commands.foldl (fun s x => s.nbFlag x bits) s

/-- Queued commands are discarded (R294). -/
def State.discardQueue (s : State) (c : Channel) : State :=
  (s.flagCommands c 4).setChannel { c with banks := c.banks.map (fun k => { k with queue := k.queue.filter (fun x => x.read) }) }

/-- The node of the cell that entered the mode ends: ownership is released (R292). -/
def State.releaseChannels (s : State) (firing : Nat) : State :=
  { s with channels := s.channels.map (fun c =>
      if c.firing ≠ firing then c
      else if c.mode = .ordinary && (c.next.isNone || c.next = some .ordinary) then
        { c.cleared with next := none, owner := none, prev := none, released := false }
      else if c.drained then ({ c with released := true }).toOrdinary
      else { c with next := some .ordinary, released := true }) }

/-- The channels of a die that goes offline (R292). -/
def State.dropChannels (s : State) (die : Nat) : State :=
  s.channels.foldl (fun s c =>
    if stackDie s.fuses c.stack = die then (s.flagCommands c 6).setChannel { Channel.fresh (c.stack, c.number) with owed := c.owed, barred := c.barred } else s) s

/-! ### Commands at a bank (R297, R304) -/

def rillOp (w : Word) : Nat := (w.extractLsb' 0 4).toNat
def rillOpr (w : Word) : Fin 8 := mod8 (w.extractLsb' 4 3).toNat
def rillRes (w : Word) : Nat := (w.extractLsb' 7 6).toNat
def rillCnt (w : Word) : Nat := (w.extractLsb' 13 6).toNat
def rillFmt (w : Word) : Fmt := if w.getLsbD 19 then bf16 else fp16
def rillSpoff (w : Word) : Nat := (w.extractLsb' 22 22).toNat

def mod64 (n : Nat) : Fin 64 := ⟨n % 64, Nat.mod_lt _ (by decide)⟩

/-- The key of a command's burst in a bank (R291). -/
def RillCmd.burstKey (x : RillCmd) (b : Nat) : Nat := x.row + b * 1024 + x.burst * 32

/-- MacSum of R297 with its flags: bit 0 invalid, bit 1 overflow. Each of the three sources of invalid counts on its own,
also beside a quiet NaN (DEDUCED, assumption log 49). -/
def macSum (f : Fmt) (acc : BitVec 32) (burst opr : BitVec 256) : BitVec 32 × BitVec 2 :=
  let code (v : BitVec 256) (k : Nat) : Nat := (v.extractLsb' (16 * k) 16).toNat
  let ks := List.range 16
  let terms := ks.map (fun k => (decodeCode f (code burst k)).mul (decodeCode f (code opr k)))
  let nanIn := isNaN32 acc || ks.any (fun k => (decodeCode f (code burst k)).isNaN || (decodeCode f (code opr k)).isNaN)
  let sum := sumVals (terms ++ [val32 acc])
  let signals := signalling fp32 acc.toNat || ks.any (fun k => signalling f (code burst k) || signalling f (code opr k))
  let infTimesZero := ks.any (fun k =>
    let a := decodeCode f (code burst k)
    let b := decodeCode f (code opr k)
    !a.isNaN && !b.isNaN && (a.mul b).isNaN)
  let all := terms ++ [val32 acc]
  let opposite := all.contains (.inf false) && all.contains (.inf true)
  if nanIn then (canonNaN, if signals || infTimesZero || opposite then 1 else 0)
  else if sum.isNaN then (canonNaN, 1)
  else
    let r := rn32 sum
    (r, if (val32 r).isInf && !all.any FpVal.isInf then 2 else 0)

/-- The 32 bytes of a burst. -/
def State.burst (s : State) (k : Nat) : BitVec 256 := BitVec.ofNat 256 (readLE s.mem k 32)

/-- A bank executes command `x`: its new registers, and the state. -/
def runRill (x : RillCmd) (b : Nat) (k : Bank) (s : State) : Bank × State :=
  let w := x.word
  let key := x.burstKey b
  match rillOp w with
  | 0 =>
    if poisonedIn s.memPoison key 32 then (k, s.nbFlag x 0x20)
    else
      let (r, f) := macSum (rillFmt w) k.res[mod64 (rillRes w)] (s.burst key) k.opr[rillOpr w]
      ({ k with res := k.res.set (mod64 (rillRes w)) r }, s.nbFlag x (zext64 f <<< 3))
  | 1 =>
    if poisonedIn s.memPoison key 32 then (k, s.nbFlag x 0x20)
    else ({ k with opr := k.opr.set (rillOpr w) (s.burst key) }, s)
  | 2 => ({ k with opr := k.opr.set (rillOpr w) x.beat }, s)
  | 3 => ({ k with res := (List.range (rillCnt w + 1)).foldl (fun v i => v.set (mod64 (rillRes w + i)) 0) k.res }, s)
  | _ =>
    let bytes := (List.range 8).flatMap (fun i => leBytes 4 (k.res[mod64 (rillRes w + i)]).toNat)
    (k, s.homeWrite key (s.landing key bytes) none)

/-- A bank of a channel executes its oldest command; an nbrd at the head is served to its cell. -/
def State.runBank (s : State) (p : Nat × Nat) (b : Nat) : State :=
  match s.channel p with
  | none => s
  | some c =>
    match (c.bank b).queue with
    | [] => s
    | x :: rest =>
      if x.read then s
      else
        let (k, s) := runRill x b (c.bank b) s
        match s.channel p with
        | none => s
        | some c => s.setChannel (c.setBank b { k with queue := rest })

/-- The bank executes its oldest command if it is of kind `op`. -/
def rillTurn (op stack chan bank : Nat) (s : State) : Out :=
  match s.channel (stack, chan) with
  | none => .next s
  | some c =>
    match (c.bank bank).queue with
    | [] => .next s
    | x :: _ => if rillOp x.word = op then .next (s.runBank (stack, chan) bank) else .next s

/-- A bank adds sixteen burst-by-operand products into a result register. (R297) -/
def execRillMac (stack : Nat) (chan : Nat) (bank : Nat) (s : State) : Out := rillTurn 0 stack chan bank s
/-- A bank loads a burst into an operand register. (R297) -/
def execRillLoad (stack : Nat) (chan : Nat) (bank : Nat) (s : State) : Out := rillTurn 1 stack chan bank s
/-- Each bank latches its beat of 512 scratchpad bytes into an operand register. (R297) -/
def execRillFountain (stack : Nat) (chan : Nat) (bank : Nat) (s : State) : Out := rillTurn 2 stack chan bank s
/-- A bank zeroes a run of result registers. (R297) -/
def execRillZero (stack : Nat) (chan : Nat) (bank : Nat) (s : State) : Out := rillTurn 3 stack chan bank s
/-- A bank writes eight result registers to a burst. (R297) -/
def execRillStore (stack : Nat) (chan : Nat) (bank : Nat) (s : State) : Out := rillTurn 4 stack chan bank s

/-- Each bank finishes the command that it is executing; whether it has begun its oldest one is a free value (R294).
(DESIGN CHOICE, assumption log 14) -/
def State.finishBegun (s : State) (p : Nat × Nat) : State :=
  let (v, s) := s.free
  (List.range 16).foldl (fun s b => if v.getLsbD b then s.runBank p b else s) s

/-- An ordinary request waiting 2 µs forces an exit from all-bank mode, discarding queued commands. A channel that is leaving all-bank mode
still counts as in it, until the passage ends (DESIGN CHOICE, assumption log 72). (R294) -/
def execForcedExit (stack : Nat) (chan : Nat) (s : State) : Out :=
  match s.channel (stack, chan) with
  | none => .next s
  | some c =>
    match c.waitSince with
    | none => .next s
    | some t =>
      if c.mode = .allBank && t + 3000 ≤ s.now then
        let s := (s.flagCommands c 2).finishBegun (stack, chan)
        let s := s.discardQueue (s.channel (stack, chan) |>.getD c)
        .next (s.setChannel ((s.channel (stack, chan)).getD c).toOrdinary)
      else .next s

/-- A refresh falls due at a bank: it is postponed, until eight are; then the bank gets a refresh slot between commands, in all-bank
mode with all 16 banks. No register or DRAM value changes. (R295; DESIGN CHOICE, assumption log 28) -/
def execRillRefreshSlot (stack : Nat) (chan : Nat) (bank : Nat) (s : State) : Out :=
  match s.channel (stack, chan) with
  | none => .next s
  | some c =>
    let k := c.bank bank
    .next (s.setChannel
      (if k.postponed < 8 then c.setBank bank { k with postponed := k.postponed + 1 }
       else if c.mode = .allBank then { c with banks := c.banks.map (fun k => { k with postponed := 0 }) }
       else c.setBank bank { k with postponed := 0 }))

/-! ### The instructions (R298 to R303) -/

/-- The channel that an address names: translated, its die not offline. -/
def withChannel (va : Word) (acc : Access) (s : State) (body : Word → Nat → State → Out) : Out :=
  match translateHome s va acc with
  | .trap c l s => .next (s.trap c va l)
  | .wait s => .next s
  | .ok p leaf s => body leaf (s.key p) s

def modeOf (m : Nat) : ChanMode := if m = 0 then .ordinary else if m = 1 then .allBank else .singleBank

/-- The end of nbmode. -/
def nbmodeEnd (d : BitVec 5) (status : Nat) (s : State) : Out :=
  .next ((s.setX d (BitVec.ofNat 64 status)).upd (fun c => { c with nbBegun := false })).advance

/-- nbmode on a compute-capable page; the end of the transition that it has begun ends it, whatever other contexts have done to the channel
since (R299). -/
def nbmodeAt (m : ChanMode) (d : BitVec 5) (key : Nat) (s : State) : Out :=
  let ch := s.chanAt key
  if s.cpu.nbBegun && (ch.next.isNone || ch.owner ≠ some s.cpu.ctx) then nbmodeEnd d 0 s
  else if (ch.mode ≠ .ordinary || ch.next.isSome) && ch.owner ≠ some s.cpu.ctx then nbmodeEnd d 4 s
  else if ch.next.isSome then .next s
  else if ch.mode = m then nbmodeEnd d 0 s
  else
    let ch := { ch with
      next := some m
      owner := some s.cpu.ctx
      firing := if ch.mode = .ordinary then s.cpu.firing else ch.firing }
    let s := (s.setChannel ch).upd (fun c => { c with nbBegun := true })
    let s := if s.cpu.eager then s.settleChannel ch else s
    if (s.chanAt key).next.isNone then nbmodeEnd d 0 s else .next s

/-- Sets the mode of a pseudo-channel and waits for the transition. (R299) -/
def execNbmode (b : BitVec 5) (a : BitVec 5) (d : BitVec 5) (r : BitVec 3) (s : State) : Out :=
  frontWord r [d, a, b] s (fun s =>
    let m := s.x b
    if 2 < m.toNat then trapOut s 1 m
    else
      withChannel (s.x a) .read s (fun leaf key s =>
        if !leaf.getLsbD 6 then nbmodeEnd d 1 s else nbmodeAt (modeOf m.toNat) d key s))

/-- The command word keeps R296. -/
def rillSound (w : Word) : Bool :=
  let op := rillOp w
  op ≤ 4 && w.extractLsb' 20 2 = 0 && w.extractLsb' 44 20 = 0 &&
  (op ≤ 2 || w.extractLsb' 4 3 = 0) && (op = 0 || op = 3 || op = 4 || rillRes w = 0) && (op = 3 || rillCnt w = 0) &&
  (op = 0 || !w.getLsbD 19) && (if op = 2 then rillSpoff w % 128 = 0 else rillSpoff w = 0)

/-- The bytes of the range of R297. -/
def rillLength (op : Nat) : Nat := if op = 2 then 512 else if op = 3 then 0 else 32

/-- The end of nbcmd with a status (R300, R303). -/
def nbcmdEnd (d : BitVec 5) (st : Nat) (s : State) : Out :=
  let s := if st = 0 then s else s.upd (fun c => { c with
    nbstat := (c.nbstat &&& ~~~0xFF00#64) ||| 1 ||| BitVec.ofNat 64 (st * 256) })
  .next (s.setX d (BitVec.ofNat 64 st)).advance

/-- Appends a command to the queues of its target banks; with `eager` set they execute it at once. -/
def nbcmdIssue (w : Word) (va : Word) (key : Nat) (beats : Nat → BitVec 256) (d : BitVec 5) (s : State) : Out :=
  let ch := s.chanAt key
  let off := (va.extractLsb' 0 21).toNat
  let targets := if ch.mode = .allBank then List.range 16 else [off / 1024 % 16]
  if targets.any (fun b => 32 ≤ (ch.bank b).queue.length) then nbcmdEnd d 5 s
  else
    let row := key - off + off / 2 ^ 14 * 2 ^ 14
    let cmd (b : Nat) : RillCmd := ⟨s.cpu.id, s.cpu.firing, w, some va.toNat, row, off / 32 % 32, beats b, false⟩
    let ch := targets.foldl (fun c b => c.setBank b { c.bank b with queue := (c.bank b).queue ++ [cmd b] }) ch
    let s := s.setChannel ch
    let drain (s : State) (b : Nat) : State := (List.range 33).foldl (fun s _ => s.runBank (ch.stack, ch.number) b) s
    nbcmdEnd d 0 (if s.cpu.eager then targets.foldl drain s else s)

/-- nbcmd on a translated address. A STORE follows the cell's earlier reads (R319, No early writes). -/
def nbcmdAt (w va : Word) (d : BitVec 5) (leaf : Word) (key : Nat) (s : State) : Out :=
  let ch := s.chanAt key
  let op := rillOp w
  if !leaf.getLsbD 6 then nbcmdEnd d 1 s
  else if 2 ^ 21 < (va.extractLsb' 0 21).toNat + rillLength op then nbcmdEnd d 2 s
  else if ch.mode = .ordinary || ch.next.isSome || (ch.mode = .singleBank && op = 2) then nbcmdEnd d 3 s
  else if ch.owner ≠ some s.cpu.ctx then nbcmdEnd d 4 s
  else if op = 4 && s.cpu.readsPending then .next s
  else if op ≠ 2 then nbcmdIssue w va key (fun _ => 0) d s
  else
    let o := rillSpoff w
    match s.cpu.outside o 512 with
    | some bad => trapOut s 5 (BitVec.ofNat 64 bad)
    | none =>
      if s.cpu.rangesBusy [rangeOf false [(o, 512)]] || s.spBlocked [(o, 512)] then .next s
      else
        match s.spPoisoned [(o, 512)] with
        | some bad => trapOut s 0x12 (BitVec.ofNat 64 bad)
        | none => nbcmdIssue w va key (fun b => BitVec.ofNat 256 (s.spRead (o + 32 * b) 32)) d s

/-- Issues one rill command to bank queues and returns a status. (R300) -/
def execNbcmd (b : BitVec 5) (a : BitVec 5) (d : BitVec 5) (r : BitVec 3) (s : State) : Out :=
  frontWord r [d, a, b] s (fun s =>
    let w := s.x a
    let va := s.x b
    if !rillSound w then trapOut s 1 w
    else if va.extractLsb' 0 5 ≠ 0 then trapOut s 3 va
    else withChannel va (if rillOp w = 4 then .write else .read) s (nbcmdAt w va d))

/-- Some rill command of the acting context waits in a queue. -/
def State.rillPending (s : State) : Bool :=
  s.channels.any (fun c => c.commands.any (fun x => x.cell = s.cpu.id && x.firing = s.cpu.firing))

/-- The cell's L1 lines of compute-capable pages. -/
def State.ccLines (s : State) : List L1Line := s.cpu.l1.filter (fun x => inReserve s.fuses (lineKey s.fuses x.no))

/-- Waits for this cell's rill commands, and, with bytes to publish, for its earlier reads (R319), publishes and drops its lines, and
returns nbstat. (R301) -/
def execNbfence (d : BitVec 5) (r : BitVec 3) (s : State) : Out :=
  frontWord r [d] s (fun s =>
    if s.rillPending || (s.cpu.readsPending && s.ccLines.any (fun x => x.dirty != 0)) then .next s
    else
      let lines := s.ccLines.map (fun x => x.no)
      match s.ccLines.find? (fun x => x.dirty != 0 && s.homeWaits (lineKey s.fuses x.no)) with
      | some x => .next (s.stall (lineKey s.fuses x.no))
      | none =>
        let s := lines.foldl State.writeBack s
        let s := s.upd (fun c => { c with l1 := c.l1.filter (fun x => !lines.contains x.no) })
        .next (s.setX d (s.cpu.nbstat &&& 0x3F)).advance)

/-- Lanes of a result run from register `b0` on. -/
def resLanes (k : Bank) (b0 : Nat) : VReg := ofLanes (fun i => k.res[mod64 (b0 + i)])

/-- The place in a bank's order that an nbrd of a cell has taken. -/
def readOf (c : Cell) (x : RillCmd) : Bool := x.read && x.cell = c.id && x.firing = c.firing

/-- An nbrd of the acting cell takes its place in the order of a bank, once, if the queue has room (R302); with `eager` set the bank
executes what stands before it. -/
def State.joinBank (s : State) (ch : Channel) (b : Nat) : State :=
  let k := ch.bank b
  if k.queue.any (readOf s.cpu) || 32 ≤ k.queue.length then s
  else
    let s := s.setChannel (ch.setBank b { k with queue := k.queue ++ [⟨s.cpu.id, s.cpu.firing, 0, none, 0, 0, 0, true⟩] })
    if s.cpu.eager then (List.range 33).foldl (fun s _ => s.runBank (ch.stack, ch.number) b) s else s

/-- nbrd in the vector load queue (R302). (DEDUCED, assumption log 19) -/
def unitNbrd (d : BitVec 5) (w : Cmd) (s : State) : EngOut :=
  let va := w.op0
  let c := w.op1
  let n := (c.extractLsb' 6 1).toNat + 1
  if c.extractLsb' 7 57 ≠ 0 then .trap w 1 c none s
  else if n = 2 && s.cpu.valloc ≤ d.toNat + 1 then .trap w 2 (BitVec.ofNat 64 (d.toNat + 1)) none s
  else if n ≤ w.progress then .done s
  else
    match translateHome s va .read with
    | .trap cause l s => .trap w cause va l s
    | .wait s => .blocked s
    | .ok p leaf s =>
      let ch := s.chanAt (s.key p)
      let mine := ch.prev = some s.cpu.ctx || (ch.owner = some s.cpu.ctx && ch.mode ≠ .ordinary)
      let b := (va.extractLsb' 10 4).toNat
      if !leaf.getLsbD 6 || !mine then .trap w 5 va none s
      else
        let s := s.joinBank ch b
        let k := (s.chanAt (s.key p)).bank b
        if !(k.queue.head?).any (readOf s.cpu) then .blocked s
        else
          let q := w.progress
          let s := s.setV (d + BitVec.ofNat 5 q) (resLanes k ((c.extractLsb' 0 6).toNat + 32 * q))
          if q + 1 < n then .more { w with progress := q + 1 } s
          else .done (s.setChannel ((s.chanAt (s.key p)).setBank b { k with queue := k.queue.drop 1 }))

/-- Reads 32 or 64 result registers of a bank into vector registers. (R302) -/
def execNbrd (b : BitVec 5) (a : BitVec 5) (d : BitVec 5) (r : BitVec 3) (s : State) : Out :=
  forwardWord r [d.toNat] [a, b] .load s
    (enqueue { instr := .nbrd b a d r, queue := .load, op0 := s.x a, op1 := s.x b } (unitNbrd d))

end Sys2Proof.Machine
end

