-- ==== Sys2Proof/Machine/Firing.lean ====
section
/-! DEFINITION. Firings: tokens (R325 to R328), placement (R335, R336), the start of a team (R324, R153), completion (R329), the end of a firing, node and header states (R333, R427). -/

namespace Sys2Proof.Machine

/-! ### Tokens -/

def State.updGraph (s : State) (id : Nat) (f : Graph → Graph) : State :=
  { s with graphs := s.graphs.map (fun g => if g.id = id then f g else g) }

/-- The graph as it stands now. -/
def State.gnow (s : State) (g : Graph) : Graph := (s.graph g.id).getD g

def State.firingsOf (s : State) (g : Graph) (i : Nat) : List Firing :=
  s.firings.filter (fun f => f.graph = g.id && f.node = i)

/-- The identities of the tokens of an edge that firings have peeked. -/
def State.peekedOn (s : State) (g : Graph) (e : Nat) : List Nat :=
  (s.firings.filter (fun f => f.graph = g.id)).flatMap (fun f => f.works.flatMap (fun w =>
    (w.peeked.filter (fun p => s.inEdge g f.node p.port = some e)).map (fun p => p.id)))

def State.tokenIds (s : State) (g : Graph) (e : Nat) : List Nat := (s.gnow g).edgeIds.getD e []

/-- The unpeeked tokens of an edge, oldest first: place and identity (R328). -/
def State.freeTokens (s : State) (g : Graph) (e : Nat) : List (Nat × Nat) :=
  let gone := s.peekedOn g e
  ((s.tokenIds g e).zipIdx.filter (fun p => !gone.contains p.1)).map (fun p => (p.2, p.1))

def State.peekAs (s : State) (g : Graph) (p e : Nat) (t : Nat × Nat) : Peeked :=
  let v := s.token g e t.1
  ⟨p, t.2, v.1, v.2⟩

/-- What a chain node knows of a context (R342). -/
def Graph.chain (g : Graph) (i ctx : Nat) : ChainNote :=
  (g.chains.find? (fun n => n.node == i && n.ctx == ctx)).getD ⟨i, ctx, 0, 0⟩

def Graph.setChain (g : Graph) (n : ChainNote) : Graph :=
  { g with chains := n :: g.chains.filter (fun m => !(m.node == n.node && m.ctx == n.ctx)) }

/-- The tokens that a firing would take from one port, in edge order (R345), if they are there. -/
def State.takePort (s : State) (g : Graph) (i ctx p e : Nat) : Option (List Peeked) :=
  let need := s.needIn g i p
  let ts := (s.freeTokens g e).map (s.peekAs g p e)
  if s.edgeFrozen g e then none
  else if s.nodeKind g i = 1 then
    let next := ((s.gnow g).chain i ctx).next
    ((List.range need).mapM (fun j => ts.find? (fun t => tagCtx t.tag = ctx && tagSeq t.tag = (next + j) % 2 ^ 32))).map
      (fun got => ts.filter (fun t => got.any (fun u => u.id == t.id)))
  else if ts.length < need then none else some (ts.take need)

/-- The tokens that a firing would take (R327, R328). -/
def State.takeTokens (s : State) (g : Graph) (i ctx : Nat) : Option (List Peeked) :=
  ((s.inPorts g i).mapM (fun q => s.takePort g i ctx q.1 q.2)).map List.flatten

/-- Every used output edge has the free slots that a firing reserves. -/
def State.outputsFree (s : State) (g : Graph) (i : Nat) : Bool :=
  (s.outPorts g i).all (fun q => s.needOut g i q.1 ≤ s.edgeFree g q.2)

def State.reserveSlots (s : State) (g : Graph) (i : Nat) (back : Bool) : State :=
  (s.outPorts g i).foldl (fun s q =>
    let n : Int := s.needOut g i q.1
    let n := if back then -n else n
    (s.bumpEdge g q.2 16 2 (-n)).bumpEdge g q.2 26 2 n) s

/-- Removes tokens of an edge by identity: held falls, free and popped rise, the others keep their order (R329). -/
def State.removeTokens (s : State) (g : Graph) (e : Nat) (ids : List Nat) : State :=
  let keep := (s.tokenIds g e).zipIdx.filter (fun p => !ids.contains p.1)
  let vals := keep.map (fun p => s.token g e p.2)
  let n := (s.tokenIds g e).length - keep.length
  let s := ((s.bumpEdge g e 18 2 (-(n : Int))).bumpEdge g e 16 2 n).bumpEdge g e 40 8 n
  let s := s.setEdge g e 20 2 ((s.edgeHead g e + n) % s.edgeCap g e)
  let s := vals.zipIdx.foldl (fun s v => s.putToken g e v.2 v.1) s
  s.updGraph g.id (fun h => { h with edgeIds := h.edgeIds.set e (keep.map (fun p => p.1)) })

/-- Enqueues a token whose slot was reserved. -/
def State.enqueue (s : State) (g : Graph) (e : Nat) (t : Word × Word) : State :=
  let id := s.edge g e 32 8
  let held := s.edgeHeld g e
  let s := s.putToken g e held t
  let s := ((s.bumpEdge g e 18 2 1).bumpEdge g e 26 2 (-1)).bumpEdge g e 32 8 1
  let s := s.setEdge g e 52 2 (max (s.edge g e 52 2) (held + 1))
  s.updGraph g.id (fun h => { h with edgeIds := h.edgeIds.set e (h.edgeIds.getD e [] ++ [id]) })

/-- Discards every token of an edge (R349). -/
def State.drainEdge (s : State) (g : Graph) (e : Nat) : State :=
  let n := s.edgeHeld g e
  let s := ((s.bumpEdge g e 48 4 n).bumpEdge g e 16 2 n).setEdge g e 20 2 ((s.edgeHead g e + n) % s.edgeCap g e)
  (s.setEdge g e 18 2 0).updGraph g.id (fun h => { h with edgeIds := h.edgeIds.set e [] })

/-- Steps 2 and 3 of R329 for one set of tokens of node `i`. -/
def State.passTokens (s : State) (g : Graph) (i : Nat) (w : Work) : State :=
  let s := (s.inPorts g i).foldl (fun s q =>
    s.removeTokens g q.2 ((w.peeked.filter (fun p => p.port = q.1)).map (fun p => p.id))) s
  (s.outPorts g i).foldl (fun s q =>
    let out := w.staged.filter (fun t => t.port = q.1)
    let unused : Int := (s.needOut g i q.1 : Int) - out.length
    let s := out.foldl (fun s t => s.enqueue g q.2 (t.payload, t.tag)) s
    (s.bumpEdge g q.2 26 2 (-unused)).bumpEdge g q.2 16 2 unused) s

/-! ### Node states and the header's state (R333, R427) -/

def State.producer (s : State) (g : Graph) (e : Nat) : Nat := s.edge g e 10 2
def State.consumer (s : State) (g : Graph) (e : Nat) : Nat := s.edge g e 12 2

/-- Every producer is Done and every used input edge holds no token and no reserved slot. -/
def State.inputsOver (s : State) (g : Graph) (i : Nat) : Bool :=
  (s.inPorts g i).all (fun q => s.nodeState g (s.producer g q.2) = 3 && s.edgeHeld g q.2 = 0 && s.edgeResv g q.2 = 0)

/-- The state byte of a node, where a fault of one of its firings holds it, else `base` (R333). -/
def State.stateWith (s : State) (g : Graph) (i base : Nat) : Nat :=
  let fs := s.firingsOf g i
  if fs.any (fun f => f.state = .faulted) then 4 else if fs.any (fun f => f.state = .pending) then 7 else base

/-- The same written to the node, unless a cone walk has reached it. -/
def State.holdState (s : State) (g : Graph) (i base : Nat) : State :=
  if s.nodeState g i = 5 || s.nodeState g i = 6 then s else s.setNodeState g i (s.stateWith g i base)

/-- Idle nodes whose inputs are over are Done. -/
def State.settleDone (g : Graph) : Nat → State → State
  | 0, s => s
  | n + 1, s =>
    match (List.range (s.nodeCount g)).find? (fun i => s.nodeState g i = 0 && (s.firingsOf g i).isEmpty &&
        (!(s.inPorts g i).isEmpty || (s.gnow g).fired.contains i) && s.inputsOver g i) with
    | none => s
    | some i => State.settleDone g n (s.setNodeState g i 3)

/-- A node is pending (R427). -/
def State.pendingNode (s : State) (g : Graph) (i : Nat) : Bool :=
  let st := s.nodeState g i
  if st = 1 || st = 2 || st = 5 || st = 7 then true
  else if st ≠ 0 then false
  else if (s.inPorts g i).isEmpty then !(s.gnow g).fired.contains i
  else (s.inPorts g i).all (fun q => !s.edgeFrozen g q.2 && s.needIn g i q.1 ≤ (s.freeTokens g q.2).length)

/-- The header's state from the states of the nodes. -/
def State.settleGraph (s : State) (g : Graph) : State :=
  let s := State.settleDone g (s.nodeCount g) s
  let nodes := List.range (s.nodeCount g)
  let h := s.gnow g
  s.setGraphState g (
    if !h.walks.isEmpty || h.cancelling then 4
    else if nodes.any (s.pendingNode g) then 1
    else if nodes.all (fun i => s.nodeState g i = 3) then 2 else 3)

/-- The launch of a graph has ended (R427). -/
def State.ended (s : State) (g : Graph) : Bool := s.graphState g = 2 || s.graphState g = 3

/-! ### Placement (R335, R336) -/

/-- The logical cells of a cluster, in increasing number. -/
def clusterCells (f : Fuses) (cl : Nat) : List Nat :=
  ((liveCells f).zipIdx.filter (fun p => (logicalStack f (p.1 / 64) * 4 + p.1 / 16 % 4) * 4 + p.1 / 4 % 4 = cl)).map (fun p => p.2)

/-- A live sector whose slice serves (R13, R335). -/
def State.sectorLive (s : State) (sec : Nat) : Bool :=
  sec < sectorCount s.fuses && !s.isOffline (stackDie s.fuses (sec / 4)) && !s.isRetired 1 sec

def placeKey (c0 c1 c2 : Nat) : Nat := (c0 * 0x0F1D + c1 * 0x2B3F + c2 * 0x4A95) % 0x10000
def placeWeight (key sec : Nat) : Nat := key ^^^ (sec * 0x3C6F % 0x10000)

/-- The sector of highest weight of a placement set; a tie goes to the lower. -/
def State.winner (s : State) (set key : Nat) : Option Nat :=
  ((List.range 32).filter (fun i => set.testBit i && s.sectorLive i)).foldl (fun a i =>
    match a with
    | none => some i
    | some j => if placeWeight key j < placeWeight key i then some i else some j) none

def State.nodeKey (s : State) (g : Graph) (i ctx : Nat) : Nat :=
  placeKey (if s.nodeKind g i = 1 then ctx else s.node g i 44 2) (s.node g i 46 2) (s.node g i 48 2)

/-- A cell that a team may take: idle, not retired, and, but for class 0, not owed to a pre-empted context (R367). -/
def State.cellIdle (s : State) (urgent : Bool) (id : Nat) : Bool :=
  let c := s.cell id
  !c.running && c.firing = 0 && !s.isRetired 0 id && (urgent || !s.saved.any (fun d => d.id == id))

/-- No other firing holds a window of the cluster that overlaps, and none there is being zeroed (R153). -/
def State.windowFree (s : State) (firing cl base size : Nat) : Bool :=
  !s.firings.any (fun f => f.id ≠ firing && f.clusters.contains cl && overlap f.winBase f.winSize base size) &&
  !s.zeroing.any (fun z => z.cluster = cl && overlap z.base z.size base size)

/-- The cells that a team of a node would take in a cluster. -/
def State.cellsIn (s : State) (g : Graph) (i firing cl : Nat) : Option (List Nat) :=
  let n := teamSize (s.node g i 8 4)
  let w := s.nodeWindow g i
  let idle := (clusterCells s.fuses cl).filter (s.cellIdle (s.nodeClass g i = 0))
  if n ≤ idle.length && s.windowFree firing cl w.1 w.2 then some (idle.take n) else none

/-- The eligible clusters of a sector, in order (R336). -/
def eligible (kind key sec : Nat) : List Nat :=
  if kind = 1 then [sec * 4 + key % 4] else (List.range 4).map (fun j => sec * 4 + (key + j) % 4)

/-- The cluster and cells of a new team of a node (R335, R336). -/
def State.place (s : State) (g : Graph) (i ctx firing : Nat) : Option (Nat × List Nat) :=
  let key := s.nodeKey g i ctx
  match s.winner (s.node g i 52 4) key with
  | none => none
  | some sec => (eligible (s.nodeKind g i) key sec).findSome? (fun cl => (s.cellsIn g i firing cl).map (fun cs => (cl, cs)))

/-! ### Starting a team (R324, R339) -/

/-- What stays with a physical cell when contexts change; the reduction flags are kept by context (R286). -/
def Cell.vacant (c : Cell) : Cell :=
  { Cell.idle c.id c.cluster c.sector c.stack c.die c.pos with
    l1 := c.l1, icache := c.icache, tlb := c.tlb, vRes := c.vRes, aRes := c.aRes, redFlags := c.redFlags, eager := c.eager }

/-- The role of the cell with team index `k` (R106). -/
def roleAt (t k : Nat) : Nat :=
  ((List.range 7).find? (fun r => k < (List.range (r + 1)).foldl (fun a q => a + teamRole t q) 0)).getD 0

/-- A cell as a member of a team at node start, which is an acquire: it keeps no instruction line of what ran there before (R317, R308,
R324, R126, R174, R118). -/
def startedCell (s : State) (g : Graph) (f : Firing) (team k x11 : Nat) (c : Cell) : Cell :=
  let ctl := s.node g f.node 3 1
  let tw := s.node g f.node 8 4
  let va := 8 * (ctl / 16 % 4 + 1)
  let ring := 8 * (ctl / 64 % 4 + 1)
  let half := f.cls = 0
  let c := c.vacant.acquired
  { c with
    icache := [], running := true, ctx := f.ctx, firing := f.id, team := team, node := f.node, cls := f.cls, role := roleAt tw k
    tindex := k, tsize := teamSize tw, roleCounts := (List.range 7).map (teamRole tw)
    winBase := f.winBase, winSize := f.winSize, pc := off (s.node g f.node 64 8)
    x := ((c.x.set 10 (s.nodeVa g f.node)).set 11 (off x11)).set 12 (off (s.node g f.node 72 8))
    valloc := va, accS := ring, lead := g.lead, rel := g.rel
    vRes := makeRoom half va 32 33 c.vRes
    aRes := makeRoom half ring (if half then 8 else 24) 33 c.aRes }

/-- The .sp image is placed into a window at its own offsets; bytes whose offsets lie outside it, for which R153 states no outcome, are
dropped (R61, R153; DESIGN CHOICE, assumption log 60). -/
def loadSp (cl base size : Nat) (img : List Byte) (s : State) : State :=
  img.zipIdx.foldl (fun s b =>
    if base ≤ b.2 && b.2 < base + size then { s with sp := writeByte s.sp (spKey cl b.2) b.1 } else s) s

/-- The first token of port 0 that a firing has peeked. -/
def Firing.firstPayload (f : Firing) : Nat :=
  ((f.works.flatMap (fun w => w.peeked)).find? (fun p => p.port = 0)).map (fun p => p.payload.toNat) |>.getD 0

/-- Starts a team of firing `f` on cells of a cluster with an interval. -/
def State.startTeam (s : State) (g : Graph) (fid cl : Nat) (cells : List Nat) (cur hi : Nat) : State :=
  match s.firing fid with
  | none => s
  | some f =>
    let team := s.runClock
    let s := { s with runClock := s.runClock + 1 }
    let s := if f.clusters.contains cl then s else loadSp cl f.winBase f.winSize g.sp s
    let s := cells.zipIdx.foldl (fun s p => s.setCell (startedCell s g f team p.2 f.firstPayload (s.cell p.1))) s
    s.setFiring { f with
      teams := f.teams ++ [⟨team, cl, cells, cur, hi, [], [], none, none⟩]
      clusters := if f.clusters.contains cl then f.clusters else f.clusters ++ [cl] }

/-! ### The end of a firing (R153, R257, R292, R329 step 6) -/

/-- A context of the firing leaves its cell: its holds go. -/
def State.dropContext (s : State) (c : Cell) : State :=
  (c.pending ++ c.replay ++ (c.capture.map (fun h => h.cmds)).getD []).foldl (fun s d => s.dropHold d.hold) s

/-- The vector registers and the accumulator ring of a pre-empted context of a firing that still stand in a cell are reclaimed
(R125, R177). -/
def Cell.purge (fid : Nat) (c : Cell) : Cell :=
  { c with vRes := c.vRes.filter (fun e => e.1 != fid), aRes := c.aRes.filter (fun e => e.1 != fid) }

/-- The cells of a firing become idle. -/
def State.freeCells (s : State) (fid : Nat) (cells : List Nat) : State :=
  let gone := (s.allCells ++ s.saved).filter (fun c => c.firing = fid && cells.contains c.id)
  let s := gone.foldl (fun s c => s.dropContext c) s
  let s := { s with saved := s.saved.filter (fun c => !(c.firing = fid && cells.contains c.id)) }
  cells.foldl (fun s id =>
    let c := s.cell id
    let s := if c.firing = fid then (s.leaveWaits id).setCell ((s.leaveWaits id).cell id).vacant else s
    if gone.any (fun c => c.id = id) then s.updCell id (Cell.purge fid) else s) s

/-- Everything that a firing holds is released, and its windows are to be zeroed; its tokens stay as they are. -/
def State.endFiring (s : State) (fid : Nat) : State :=
  match s.firing fid with
  | none => s
  | some f =>
    let s := s.freeCells fid (f.teams.flatMap (fun t => t.cells))
    let s := (s.cancelCopies fid).releaseChannels fid
    let s := { s with
      rings := s.rings.filter (fun u => u.firing ≠ fid)
      probes := s.probes.filter (fun p => p.firing ≠ fid)
      postings := s.postings.filter (fun p => p.firing ≠ some fid)
      zeroing := s.zeroing ++ f.clusters.map (fun c => Zeroing.mk c f.winBase f.winSize) }
    s.setFiring { f with teams := [], clusters := [] }

/-! ### Completion (R329) -/

/-- Running, Armed or Idle, by the other firings of a node. -/
def State.restState (s : State) (g : Graph) (i : Nat) : Nat :=
  if (s.firingsOf g i).any (fun f => f.state = .running) then 2
  else if (s.gnow g).armed.any (fun a => a.node = i) then 1
  else 0

/-- The state of a node after a completion (R333). -/
def State.afterCompletion (s : State) (g : Graph) (i : Nat) : Nat :=
  if s.restState g i ≠ 0 then s.restState g i
  else if (s.inPorts g i).all (fun q => s.nodeState g (s.producer g q.2) = 3 && s.edgeHeld g q.2 = 0) then 3 else 0

/-- A firing completes: steps 2 to 6 of R329, the thaw of R334, and the chain's next sequence number (R342). -/
def State.completeFiring (s : State) (fid : Nat) : State :=
  match s.firing fid with
  | none => s
  | some f =>
    match s.graph f.graph with
    | none => s
    | some g =>
      let i := f.node
      let s := f.works.foldl (fun s w => s.passTokens g i w) s
      let s := f.froze.foldl (fun s e => s.freezeEdge g e false) s
      let s := f.works.foldl (fun s w => s.trueUp f w) s
      let s := s.setNode g i 96 4 (s.node g i 96 4 + 1)
      let s := if s.node g i 7 1 % 2 = 1 then
          (s.recWrite g 28 4 (s.recRead g 28 4 + 1)).updContext f.ctx (fun c => { c with step := c.step + 1 })
        else s
      let s := if (s.firingsOf g i).any (fun h => h.id ≠ fid && h.state ≠ .running) then s else s.setNode g i 6 1 0
      let s := if s.nodeKind g i = 1 then
          let last := f.works.any (fun w => w.peeked.any (fun p => tagEnd p.tag))
          let need := s.needIn g i 0
          s.updGraph g.id (fun h =>
            let n := h.chain i f.ctx
            h.setChain { n with next := if last then 0 else (n.next + need) % 2 ^ 32 })
        else s
      let s := s.endFiring fid
      let s := { s with firings := s.firings.filter (fun h => h.id != fid) }
      (s.holdState g i (s.afterCompletion g i)).settleGraph g

/-! ### Firing (R328, R351, R352) -/

/-- Takes a node off the Armed list. -/
def State.disarm (s : State) (g : Graph) (i ctx : Nat) : State :=
  s.updGraph g.id (fun h => { h with armed := h.armed.filter (fun a => !(a.node == i && a.ctx == ctx)) })

/-- The new firing, or the one that fires again on its tokens (R328, R330, R333). -/
def State.openFiring (s : State) (g : Graph) (i ctx : Nat) (toks : List Peeked) : State × Nat :=
  let stage := s.nodeKind g i = 2
  let e := s.nodeEnergy g i
  match (s.firingsOf g i).find? (fun f => f.ctx == ctx && f.state == .rearmed) with
  | some f =>
    let s := s.setFiring { f with
      state := .running
      works := f.works.map (fun w => { w with staged := [], reservation := if stage then 0 else (e : Int), count := 0 }) }
    ((if stage then s else s.credit f (-(e : Int))), f.id)
  | none =>
    let id := s.runClock
    let w := s.nodeWindow g i
    let f : Firing := ⟨id, g.id, i, ctx, s.nodeClass g i, w.1, w.2, [],
      if stage then [] else [⟨0, toks, [], (e : Int), 0⟩], [], .running, none, none, [], !stage, false⟩
    let s := { s with runClock := s.runClock + 1, firings := s.firings ++ [f] }
    ((if stage then s else (s.reserveSlots g i false).credit f (-(e : Int))), id)

/-- The base that a copy node gives its schedule (R351). -/
def State.copyNodeBase (s : State) (g : Graph) (f : Firing) : Word :=
  if (s.inPorts g f.node).isEmpty then off (s.node g f.node 72 8)
  else ((f.works.flatMap (fun w => w.peeked)).head?).map (fun p => p.payload) |>.getD 0

/-- A host node hands its completion to the network engine (R352, R401). -/
def State.postHost (s : State) (g : Graph) (f : Firing) : State :=
  let toks := f.works.flatMap (fun w => w.peeked)
  let pay (p : Nat) : Nat := ((toks.find? (fun t => t.port = p)).map (fun t => t.payload.toNat)).getD 0
  { s with postings := s.postings ++ [⟨s.node g f.node 80 4, s.node g f.node 84 2, none,
      hostEntry f.node ((List.range 4).map pay), some f.id⟩] }

/-- The network engine writes the completions that wait, those of one queue in order; a host node's firing completes when its own is
written, and the graph engine can act on its graph (R352, R401). -/
def State.writePostings : List Posting → State → State
  | [], s => s
  | p :: rest, s =>
    let waits := p.firing.elim s s.firingStall
    let keep (s : State) : State := { s with postings := s.postings ++ [p] }
    if s.posting p.pasid p.queue || p.firing.any s.firingWaits then State.writePostings rest (keep waits)
    else
      match s.putPosting p with
      | (s, false) => State.writePostings rest (keep s)
      | (s, true) =>
        State.writePostings rest (match p.firing with
          | some fid => s.completeFiring fid
          | none => s)

def State.writeCompletions (s : State) : State :=
  if s.postings.isEmpty then s else State.writePostings s.postings { s with postings := [] }

/-- The objects of a .state section that still wait to be created (R220). -/
def stateObjects : Nat → List Byte → List (Word × BitVec 32 × BitVec 32 × List (Tile × Bool))
  | 0, _ => []
  | fuel + 1, bs =>
    if bs.length < 32 then []
    else
      let given := ofLE ((bs.drop 16).take 2)
      let row (b r : Nat) : VReg := BitVec.ofNat 1024 (ofLE ((bs.drop (32 + 4096 * b + 128 * r)).take 128))
      let tile (b : Nat) : Tile := Vector.ofFn (fun r => row b r.val)
      (BitVec.ofNat 64 (ofLE (bs.take 8)), BitVec.ofNat 32 (ofLE ((bs.drop 8).take 4)),
        BitVec.ofNat 32 (ofLE ((bs.drop 12).take 4)), (List.range given).map (fun b => (tile b, false))) ::
        stateObjects fuel (bs.drop (32 + 4096 * given))

/-- Creates the objects of a launch in a cluster, for the launching context, one after the other, before its first entry runs; the answer
says whether all are there, or a handle, blocks or the word for a handle must be waited for (R195, R217, R220, R235).
(DEDUCED, assumption log 29) Every object has its word at the end of .data, with a label or without one (DESIGN CHOICE, assumption log
73). -/
def State.createStates (g : Graph) (cl : Nat) : Nat → State → State × Bool
  | 0, s => (s, true)
  | fuel + 1, s =>
    let h := s.gnow g
    match stateObjects h.states.length h.states with
    | [] => (s, true)
    | (attr, nextUse, next, given) :: rest =>
      let va := h.dataEnd - off (8 * (rest.length + 1))
      if s.directoryFull g.ctx 1 || s.ctxWaits g.ctx va 8 then (s.ctxStall g.ctx va 8, false)
      else
        match s.ensureBlocks cl (((attrRows attr + 31) / 32) * ((attrCols attr + 31) / 32)) with
        | (s, false) => (s, false)
        | (s, true) =>
          let (w, s) := State.create s g.ctx cl attr nextUse next given
          State.createStates g cl fuel ((s.ctxWrite g.ctx va (leBytes 8 w.toNat)).updGraph g.id (fun h =>
            { h with states := h.states.drop (32 + 4096 * given.length) }))

/-- Fires a node of a graph for a context, placed as given (R328). -/
def State.fire (s : State) (g : Graph) (i ctx : Nat) (toks : List Peeked) (at' : Nat × List Nat) (die : Nat) : State :=
  let kind := s.nodeKind g i
  let stamp := s.runClock
  let (s, fid) := s.openFiring g i ctx toks
  let s := (s.setNodeState g i 2).disarm g i ctx
  let s := s.updGraph g.id (fun h => { h with
    fired := if h.fired.contains i then h.fired else i :: h.fired
    chains := if kind = 1 then (h.setChain { h.chain i ctx with stamp := stamp }).chains else h.chains })
  match s.firing fid with
  | none => s
  | some f =>
    if kind = 3 then { s with copyWaits := s.copyWaits ++ [⟨none, fid, die, f.cls = 0, none⟩] }
    else if kind = 4 then (s.postHost g f).writeCompletions
    else s.startTeam g fid at'.1 at'.2 (s.node g i 80 4) (s.node g i 84 4)

end Sys2Proof.Machine
end

