-- ==== Sys2Proof/Machine/Nodes.lean ====
section
/-! DEFINITION. The graph engine: arming and firing decisions (R327, R333, R338), the node instructions (R339 to R346), range splits, stage sets and moves (R339, R343, R344), faults, cones and owner requests (R347 to R349, R333), copy nodes (R351). -/

namespace Sys2Proof.Machine

/-- The main side runs: a firmware slot has booted (R403, R404). -/
def State.up (s : State) : Bool := s.booted.isSome

/-! ### Arming (R327, R333, R342) -/

/-- The firing of a node that waits to be fired again on its tokens. -/
def State.rearmedOf (s : State) (g : Graph) (i ctx : Nat) : Option Firing :=
  (s.firingsOf g i).find? (fun f => f.ctx == ctx && f.state == .rearmed)

/-- The tokens of a firing that R327 allows but for placement: none when it does not. A node that a fault or a walk holds does not
fire (R333). -/
def State.canFire (s : State) (g : Graph) (i ctx : Nat) : Option (List Peeked) :=
  let kind := s.nodeKind g i
  let covered := s.covers (s.nodeClass g i) ctx (s.nodeEnergy g i)
  if 2 < s.nodeState g i then none
  else if (s.rearmedOf g i ctx).isSome then (if covered then some [] else none)
  else if (s.context ctx).isNone then none
  else if (s.firingsOf g i).any (fun f => kind ≠ 1 || f.ctx = ctx) then none
  else if ((s.inPorts g i).isEmpty || kind = 2) && (s.gnow g).fired.contains i then none
  else if kind = 2 then (if covered then some [] else none)
  else if !covered || !s.outputsFree g i then none
  else s.takeTokens g i ctx

/-- A token below the expected sequence number of its context: context, port, edge, token (R342). -/
def State.staleToken (s : State) (g : Graph) (i : Nat) : Option (Nat × Nat × Peeked) :=
  if s.nodeKind g i ≠ 1 then none
  else
    (s.inPorts g i).findSome? (fun q => ((s.freeTokens g q.2).map (s.peekAs g q.1 q.2)).findSome? (fun t =>
      if tagSeq t.tag < ((s.gnow g).chain i (tagCtx t.tag)).next then some (q.1, q.2, t) else none))

/-! ### Faults (R346 to R348) -/

/-- The node-fault record of R348. -/
def nodeRecord (s : State) (g : Graph) (f : Firing) (source cause tval outcome : Nat) : List Byte :=
  let toks := f.works.flatMap (fun w => w.peeked)
  let first := (List.range 4).findSome? (fun p => toks.find? (fun t => t.port = p))
  let edge := (first.bind (fun t => s.inEdge g f.node t.port)).getD 0xFFFF
  let tok := match first with
    | some t => leBytes 8 t.payload.toNat ++ leBytes 8 t.tag.toNat
    | none => leBytes 16 0
  record 2 cause source s.now f.node tval (tok ++ leBytes 2 edge ++ leBytes 1 outcome ++ leBytes 1 (s.node g f.node 6 1) ++
    leBytes 8 g.va.toNat)

/-- The die of the graph engine that runs a graph (R320). -/
def State.graphDie (s : State) (g : Graph) : Nat :=
  match s.ctxKey g.ctx g.va with
  | some k => stackDie s.fuses (k / 2 ^ 36)
  | none => 0

/-- The outcome of a fault under the node's policy (R333): 0 freeze, 1 retry, 2 cancel the cone. -/
def State.outcome (s : State) (g : Graph) (i : Nat) (mayRetry : Bool) : Nat :=
  let p := s.nodePolicy g i
  if p = 2 then 2 else if p = 1 && mayRetry && s.node g i 6 1 < s.node g i 5 1 then 1 else 0

/-- Applies the policy to a faulted firing whose record is posted. -/
def State.applyPolicy (s : State) (g : Graph) (f : Firing) (outcome : Nat) (lost : Option Nat) : State :=
  let i := f.node
  let delay := s.node g i 60 4
  match outcome with
  | 1 => (s.setFiring { f with state := .pending, retryAt := some (s.now + delay * 1500), lost := lost }).holdState g i 7
  | 2 =>
    let s := (s.setFiring { f with state := .faulted }).setNodeState g i 5
    s.updGraph g.id (fun h => { h with walks := h.walks ++ [i] })
  | _ => (s.setFiring { f with state := .faulted, lost := lost }).holdState g i 4

/-- Counts a fault of a node, saturating (R322). -/
def State.countFault (s : State) (g : Graph) (i : Nat) : State := s.setNode g i 100 2 (min 65535 (s.node g i 100 2 + 1))

/-- The ring of a context takes a record now (R347, R370, R293): a type-8 record that is due takes a place of its own. -/
def State.ringTakes (s : State) (ctx : Nat) : Bool :=
  match s.context ctx with
  | none => true
  | some c =>
    (ringHeldAt s c.ringBase).isNone &&
    (ringProd s c.ringBase + 2 ^ 32 - ringCons s c.ringBase) % 2 ^ 32 + (if droppedOf s ctx = 0 then 0 else 1) <
      2 ^ ringN s c.ringBase && !s.held.any (fun h => h.ctx == ctx)

/-- Step 1 of R347: the input edges from which a firing peeked tokens freeze, noted with the firing. -/
def State.freezePeeked (s : State) (g : Graph) (f : Firing) : State :=
  let edges := (s.inPorts g f.node).filter (fun q => f.works.any (fun w => w.peeked.any (fun p => p.port = q.1)))
  let froze := (edges.filter (fun q => !s.edgeFrozen g q.2)).map (fun q => q.2)
  (edges.foldl (fun s q => s.freezeEdge g q.2 true) s).setFiring { f with froze := f.froze ++ froze }

/-- Every cell of a firing stops. -/
def State.stopFiring (s : State) (fid : Nat) : State :=
  let stop (c : Cell) : Cell := if c.running && c.firing = fid then { c with running := false } else c
  { s with cpu := stop s.cpu, cells := s.cells.map stop }

/-- A firing faults (R347): its peeked input edges freeze, its record is posted, its resources go, its policy is applied.
While the ring takes no record the fault waits after the first of these steps; while the graph engine cannot reach the graph, before it
(R235). (DEDUCED, assumption log 29) -/
def State.faultFiring (s : State) (fid source cause tval : Nat) (lost : Option Nat) : State :=
  match s.firing fid with
  | none => s
  | some f =>
    match s.graph f.graph with
    | none => s
    | some g =>
      if f.state ≠ .running then s
      else
        let waits := s.graphWaits g
        let room := s.ringTakes f.ctx
        let s := if waits then s.graphStall g else s.freezePeeked g f
        if waits || !room then
          if s.faults.any (fun n => n.firing == fid) then s
          else State.stopFiring { s with faults := s.faults ++ [FaultNote.mk fid source cause (BitVec.ofNat 64 tval) lost] } fid
        else
          let i := f.node
          let s := f.works.foldl (fun s w => s.trueUp f w) (s.countFault g i)
          let out := s.outcome g i true
          let s := if out = 1 then s.setNode g i 6 1 (s.node g i 6 1 + 1) else s
          let s := s.post f.ctx 2 (s.graphDie g) (nodeRecord s g f source cause tval out)
          let s := s.endFiring fid
          match s.firing fid with
          | none => s
          | some f =>
            let f := { f with works := f.works.map (fun w => { w with team := 0, staged := [], reservation := 0, count := 0 }) }
            (s.applyPolicy g f out lost).settleGraph g

/-- The fault can be carried through now: its context's ring takes a record, and the graph can be reached. -/
def State.faultReady (s : State) (n : FaultNote) : Bool :=
  match s.firing n.firing with
  | none => true
  | some f => s.ringTakes f.ctx && !s.firingWaits f.id

/-- Freezes peeked input edges, posts a node-fault record and applies the node's policy. (R347) -/
def execFiringFault (s : State) : Out :=
  match s.faults.find? s.faultReady with
  | some n => .next ({ s with faults := s.faults.erase n }.faultFiring n.firing n.cell n.cause n.tval.toNat n.hwLost)
  | none => .next (s.faults.foldl (fun s n => s.faultFiring n.firing n.cell n.cause n.tval.toNat n.hwLost) s)

/-- The fault of a firing that stands for a token out of order, each time it is met: the edge that holds the token freezes, the fault is
counted, its record is posted, and the policy acts, retry as freeze (R342). -/
def State.reportStale (s : State) (g : Graph) (f : Firing) : State :=
  let edges := (f.works.flatMap (fun w => w.peeked)).filterMap (fun p => s.inEdge g f.node p.port)
  let s := (edges.foldl (fun s e => s.freezeEdge g e true) s).countFault g f.node
  let out := s.outcome g f.node false
  let s := s.post f.ctx 2 (s.graphDie g) (nodeRecord s g f 0 8 0 out)
  (s.applyPolicy g f out none).settleGraph g

/-- A chunk out of order (R342): the fault of a firing that had peeked the token, with retry acting as freeze.
(DEDUCED, assumption log 29) -/
def State.staleFault (s : State) (g : Graph) (i : Nat) (t : Peeked) : State :=
  let w := s.nodeWindow g i
  let f : Firing := ⟨s.runClock, g.id, i, tagCtx t.tag, s.nodeClass g i, w.1, w.2, [], [⟨0, [t], [], 0, 0⟩], [], .faulted, none, none, [],
    false, true⟩
  { s with runClock := s.runClock + 1, firings := s.firings ++ [f] }.reportStale g f

/-- A node whose firing conditions hold becomes Armed, or Idle when they cease. (R333) -/
def execNodeArm (graph : Nat) (node : Nat) (ctx : Nat) (s : State) : Out :=
  match s.graph graph with
  | none => .next s
  | some g =>
    let c := if s.nodeKind g node = 1 then ctx else g.ctx
    let st := s.nodeState g node
    if s.graphWaits g || s.nodeCount g ≤ node || !(st = 0 || st = 1 || (st = 2 && s.nodeKind g node = 1)) then
      .next (s.graphStall g)
    else
      match s.staleToken g node with
      | some (_, e, t) => .next (if s.ringTakes (tagCtx t.tag) then s.staleFault g node t else s.freezeEdge g e true)
      | none =>
        let is := g.armed.any (fun a => a.node = node && a.ctx = c)
        match s.canFire g node c with
        | some _ =>
          if is then .next s
          else
            let s := { s with runClock := s.runClock + 1 }.updGraph g.id (fun h => { h with
              armed := h.armed ++ [ArmedNode.mk node c s.runClock] })
            .next ((if st = 0 then s.setNodeState g node 1 else s).settleGraph g)
        | none =>
          let s := s.disarm g node c
          let rest := (s.gnow g).armed.any (fun a => a.node = node)
          .next ((if st = 1 && !rest then s.setNodeState g node 0 else s).settleGraph g)

/-! ### Copy nodes (R351) -/

/-- The schedule at offset `o` of a copy area, read for a copy node; none when it breaks the checks of R256. -/
def nodeSched (s : State) (ctx : Nat) (base : Word) (size : Nat) : Nat → Nat → Option Entry → List Entry → Option (List Entry)
  | 0, _, _, _ => none
  | fuel + 1, o, pre, acc =>
    if size < o + 64 then none
    else
      let e : Entry := BitVec.ofNat 512 (s.ctxRead ctx (base + off o) 64)
      match pre with
      | some d =>
        if !d.soundExt e then none
        else if d.last then some (acc ++ [e]) else nodeSched s ctx base size fuel (o + 64) none (acc ++ [e])
      | none =>
        if !e.sound then none
        else if e.extended then nodeSched s ctx base size fuel (o + 64) (some e) (acc ++ [e])
        else if e.last then some (acc ++ [e]) else nodeSched s ctx base size fuel (o + 64) none (acc ++ [e])

/-- A copy node whose request has an engine arms its schedule on it, or faults. No cell arms it: the arming cell's cluster of R246 is
cluster 0 (DESIGN CHOICE, assumption log 67). -/
def State.armCopyNode (s : State) (w : CopyWait) : State :=
  match w.granted, s.firing w.firing with
  | some n, some f =>
    let s0 := s
    let s := { s with copyWaits := s.copyWaits.filter (fun x => !(x.cell = none && x.firing = w.firing)) }
    match s.graph f.graph with
    | none => s
    | some g =>
      let (base, size) := s.copyArea f.id
      if s.graphWaits g || s.ctxWaits g.ctx base size then (s0.graphStall g).ctxStall g.ctx base size
      else
      match nodeSched s g.ctx base size 256 (s.node g f.node 80 4) none [] with
      | none => s.faultFiring f.id n 0x0E 0 none
      | some es =>
        if 2 ^ 47 ≤ schedTotal es then s.faultFiring f.id n 0x0E 0 none
        else s.armEngine n f.ctx f.id f.node none 0 es (s.node g f.node 84 1) (s.copyNodeBase g f)
  | _, _ => s

def State.armCopyNodes (s : State) : State :=
  (s.copyWaits.filter (fun w => w.cell.isNone && w.granted.isSome)).foldl State.armCopyNode s

/-- A freed engine serves the next waiting cparm in class and request order. (R243) -/
def execCopyEngineGrant (die : Nat) (s : State) : Out := .next (s.grantCopy die).armCopyNodes

/-- An entry completes and performs its full, word and bar actions in order. (R252) -/
def execCopyEntryComplete (engine : Nat) (s : State) : Out :=
  match s.completing engine with
  | none => .next s
  | some c =>
    if !c.written then .next s
    else if c.cell.isNone && s.firingWaits c.firing then .next (s.firingStall c.firing)
    else
      match s.completeEntry c with
      | (s, true) => .next (if c.cell.isNone then s.completeFiring c.firing else s)
      | (s, false) => .next s

/-- Stops a schedule, finishes beats in flight and posts a type-3 copy-fault record, once the entries before the one that met the fault
have completed. (R258) -/
def execCopyFault (engine : Nat) (s : State) : Out :=
  match s.copier engine with
  | none => .next s
  | some c =>
    match c.fault with
    | none => .next s
    | some (cause, addr) =>
      if (c.state ≠ .running && c.state ≠ .waiting) || !c.closing.isEmpty then .next s
      else
      let s := s.faultCopy c cause addr
      .next (if c.cell.isNone then
        s.faultFiring c.firing engine 0x0E 0 none
      else s)

/-! ### Firing decisions (R338) -/

/-- The die whose graph engine decides on a node: that of its winning sector; for a host node, and for a set without a live
sector, the die that runs the graph. -/
def State.decider (s : State) (g : Graph) (i ctx : Nat) : Nat :=
  match (if s.nodeKind g i = 4 then none else s.winner (s.node g i 52 4) (s.nodeKey g i ctx)) with
  | some sec => stackDie s.fuses (sec / 4)
  | none => s.graphDie g

/-- A candidate with its place in the order: class, time of arming, time of the context's last firing. -/
structure Candidate where
  g : Graph
  node : Nat
  ctx : Nat
  cls : Nat
  stamp : Nat
  last : Nat
  deriving DecidableEq, Repr

def Candidate.before (a b : Candidate) : Bool :=
  a.cls < b.cls || (a.cls = b.cls && (a.stamp < b.stamp || (a.stamp = b.stamp && a.last < b.last)))

def insertCandidate (c : Candidate) : List Candidate → List Candidate
  | [] => [c]
  | d :: rest => if c.before d then c :: d :: rest else d :: insertCandidate c rest

/-- The graph engine delays a context's decisions while it holds a record of that context (R370). (DEDUCED, assumption log 29) -/
def State.delays (s : State) (ctx : Nat) : Bool :=
  s.held.any (fun h => h.ctx = ctx && h.producer = 2) ||
  (!s.ringTakes ctx && s.faults.any (fun n => (s.firing n.firing).any (fun f => f.ctx == ctx)))

/-- The Armed nodes that a die decides on, in order: those of a context whose record is held, and of a graph that cannot be reached, are
delayed (R370, R235). -/
def State.candidates (s : State) (die : Nat) : List Candidate :=
  let all := s.graphs.flatMap (fun g =>
    if s.graphWaits g then []
    else (g.armed.filter (fun a => !s.delays a.ctx && s.decider g a.node a.ctx = die)).map (fun a =>
      let first := (g.armed.filter (fun b => b.node = a.node)).foldl (fun m b => min m b.stamp) a.stamp
      Candidate.mk g a.node a.ctx (s.nodeClass g a.node) first (g.chain a.node a.ctx).stamp))
  all.foldl (fun l c => insertCandidate c l) []

/-- The record of R335 and R426 for a placement set without a live sector, once for a node. -/
def State.reportLost (s : State) (g : Graph) (i : Nat) : State :=
  if (s.gnow g).reported.contains i then s
  else
    let s := s.updGraph g.id (fun h => { h with reported := i :: h.reported })
    s.post g.ctx 2 (s.graphDie g) (record 6 0 0x400 s.now i 0 (leBytes 1 5 ++ leBytes 1 0xFF))

/-- Fires a candidate if it can be placed; the answer says whether it has fired. A retry of a token out of order faults again (R342). -/
def State.tryFire (s : State) (c : Candidate) (die : Nat) : State × Bool :=
  match s.canFire c.g c.node c.ctx with
  | none => (s, false)
  | some toks =>
    let kind := s.nodeKind c.g c.node
    let again := s.rearmedOf c.g c.node c.ctx
    let fid := (again.map (fun f => f.id)).getD 0
    match again.filter (fun f => f.stale) with
    | some f => if s.ringTakes f.ctx then ((s.disarm c.g c.node c.ctx).reportStale c.g f, true) else (s, false)
    | none =>
    if kind = 4 then (s.fire c.g c.node c.ctx toks (0, []) die, true)
    else if (s.winner (s.node c.g c.node 52 4) (s.nodeKey c.g c.node c.ctx)).isNone then (s.reportLost c.g c.node, false)
    else if kind = 3 then ((s.fire c.g c.node c.ctx toks (0, []) die).grantCopy die |>.armCopyNodes, true)
    else
      match s.place c.g c.node c.ctx fid with
      | none => (s, false)
      | some at' =>
        match State.createStates (s.gnow c.g) at'.1 ((s.gnow c.g).states.length / 32 + 1) s with
        | (s, true) => (s.fire (s.gnow c.g) c.node c.ctx toks at' die, true)
        | (s, false) => (s, false)

/-- The first candidate of a list that can be placed fires; its class. -/
def State.fireFirst (die : Nat) : List Candidate → State → State × Option Nat
  | [], s => (s, none)
  | c :: rest, s =>
    match s.tryFire c die with
    | (s, true) => ((match s.graph c.g.id with
        | some g => s.settleGraph g
        | none => s), some c.cls)
    | (s, false) => State.fireFirst die rest s

/-- The class-3 floor's count of a die. -/
def State.floorOf (s : State) (die : Nat) : Nat := ((s.floors.find? (fun p => p.1 == die)).map (fun p => p.2)).getD 0
def State.setFloor (s : State) (die n : Nat) : State := { s with floors := (die, n) :: s.floors.filter (fun p => p.1 != die) }

/-- Every 16 cycles a die's graph engine fires the Armed node of lowest class, honouring the class-3 floor. (R338) -/
def execFiringDecision (die : Nat) (s : State) : Out :=
  let s := s.writeCompletions
  let s := (s.graphs.filter (fun g => !g.armed.isEmpty)).foldl (fun s g => s.graphStall g) s
  let cs := s.candidates die
  let low := cs.filter (fun c => c.cls = 3)
  let n := s.floorOf die
  let order := if 63 ≤ n then low ++ cs.filter (fun c => c.cls ≠ 3) else cs
  let (s, fired) := State.fireFirst die order s
  .next (s.setFloor die (if fired = some 3 || low.isEmpty then 0 else n + 1))

/-! ### rnext, ntoken, nctx, ndone, nfail (R340 to R346) -/

def Firing.team (f : Firing) (id : Nat) : Option TeamRun := f.teams.find? (fun t => t.id == id)
def Firing.setTeam (f : Firing) (t : TeamRun) : Firing := { f with teams := f.teams.map (fun u => if u.id = t.id then t else u) }

/-- A team's members have all executed ndone, or all wait at the boundary. -/
def TeamRun.over (t : TeamRun) : Bool := t.cells.all t.done.contains
def TeamRun.waits (t : TeamRun) : Bool := t.cells.all t.waiting.contains

/-- At the boundary the previous set completes: steps 1 to 4 of R329 (R344). -/
def State.completeSet (s : State) (f : Firing) (g : Graph) (t : TeamRun) : State :=
  match f.works.find? (fun w => w.team == t.id) with
  | none => s
  | some w =>
    let s := (s.passTokens g f.node w).trueUp f w
    match s.firing f.id with
    | none => s
    | some f => (s.setFiring { f with works := f.works.filter (fun x => x.team != t.id) }).settleGraph g

/-- Whether a stage team that waits gets a set (its tokens), an end, or nothing yet (R344). -/
def State.nextSet (s : State) (f : Firing) (g : Graph) (t : TeamRun) : Option (Option (List Peeked)) :=
  let i := f.node
  if t.leaving.isSome then some none
  else if f.works.any (fun w => w.team = 0) then
    (if s.covers f.cls f.ctx (s.nodeEnergy g i) then
      (f.works.find? (fun w => w.team == 0)).map (fun w => some w.peeked)
    else none)
  else if (s.inPorts g i).isEmpty then some none
  else
    match s.takeTokens g i f.ctx with
    | some toks => if s.outputsFree g i && s.covers f.cls f.ctx (s.nodeEnergy g i) then some (some toks) else none
    | none =>
      let remains := (s.inPorts g i).all (fun q => s.needIn g i q.1 ≤ (s.freeTokens g q.2).length)
      if !remains && (s.inPorts g i).all (fun q => s.nodeState g (s.producer g q.2) = 3) then some none else none

/-- The answer of a boundary at which every member waits, once there is one. -/
def State.setReady (s : State) (firing team : Nat) : State :=
  match s.firing firing with
  | none => s
  | some f =>
    match s.graph f.graph, f.team team with
    | some g, some t =>
      if s.graphWaits g || f.state ≠ .running || !t.waits || t.answer.isSome || t.cells.isEmpty then s.graphStall g
      else
        match s.nextSet f g t with
        | none => s
        | some none => s.setFiring (f.setTeam { t with answer := some false })
        | some (some toks) =>
          let e : Int := s.nodeEnergy g f.node
          let held := f.works.find? (fun w => w.team == 0)
          let s := (if held.isSome then s else s.reserveSlots g f.node false).credit f (-e)
          let w : Work := ⟨t.id, toks, [], e, 0⟩
          let others := match held with
            | some x => f.works.erase x
            | none => f.works
          s.setFiring ({ f with works := others ++ [w] }.setTeam { t with answer := some true })
    | _, _ => s

/-- A waiting stage team receives the next peeked token set. (R344) -/
def execStageSetReady (firing : Nat) (team : Nat) (s : State) : Out := .next (s.setReady firing team)

/-- rnext of a stage member (R344): it receives the boundary's answer, or waits there. Coming to the boundary is a release at package
scope, and a new set an acquire (R316, R329). -/
def stageNext (d : BitVec 5) (f : Firing) (g : Graph) (t : TeamRun) (s : State) : Out :=
  let me := s.cpu.id
  let receive (ok : Bool) (t : TeamRun) (f : Firing) (s : State) : Out :=
    let w := t.waiting.filter (fun c => c != me)
    let s := if ok then s.acquire 4 else s
    let s := s.setFiring (f.setTeam { t with waiting := w, answer := if w.isEmpty then none else some ok })
    .next (s.setX d (if ok then 0 else -1)).advance
  match t.answer, t.waiting.contains me with
  | some ok, true => receive ok t f s
  | some _, false => .next s
  | none, true => .next s
  | none, false =>
    let t := { t with waiting := t.waiting ++ [me] }
    if !s.cpu.memoryQuiet then .next s
    else if s.releaseWaits 4 then .next s.stallRelease
    else
    let s := (s.release 4).setFiring (f.setTeam t)
    if !t.waits then .next s
    else
      let s := s.completeSet (f.setTeam t) g t
      let s := if s.cpu.eager then s.setReady f.id t.id else s
      match s.here with
      | some (f, _) =>
        match f.team t.id with
        | some t => if t.answer.isSome then receive (t.answer = some true) t f s else .next s
        | none => .next s
      | none => .next s

/-- Draws the next iteration of the team's interval, or the next set. (R340) -/
def execRnext (d : BitVec 5) (r : BitVec 3) (s : State) : Out :=
  frontWord r [d] s (fun s =>
    if s.firingWaits s.cpu.firing then .next (s.firingStall s.cpu.firing)
    else
    match s.here with
    | none => .next (s.setX d (-1)).advance
    | some (f, g) =>
      match f.team s.cpu.team with
      | none => .next (s.setX d (-1)).advance
      | some t =>
        match s.nodeKind g f.node with
        | 0 =>
          if t.cur < t.hi then
            .next ((s.setFiring (f.setTeam { t with cur := t.cur + 1 })).setX d (off t.cur)).advance
          else .next (s.setX d (-1)).advance
        | 2 => stageNext d f g t s
        | _ => .next (s.setX d (-1)).advance)

/-- Stages one token on an output port. (R341) -/
def execNtoken (b : BitVec 5) (a : BitVec 5) (r : BitVec 3) (s : State) : Out :=
  frontWord r [a, b] s (fun s =>
    let v := s.x b
    let p := (v.extractLsb' 0 2).toNat
    if v.extractLsb' 2 14 ≠ 0 ∨ v.extractLsb' 17 15 ≠ 0 then trapOut s 1 v
    else if s.firingWaits s.cpu.firing then .next (s.firingStall s.cpu.firing)
    else
      match s.here, s.workHere with
      | some (f, g), some (_, w) =>
        if (s.outEdge g f.node p).isNone || s.needOut g f.node p ≤ (w.staged.filter (fun t => t.port = p)).length then
          trapOut s 0x0A (off p)
        else
          let t : Staged := ⟨p, s.x a, mkTag s.cpu.ctx (v.extractLsb' 32 32).toNat (v.getLsbD 16)⟩
          .next (s.setFiring (f.setWork { w with staged := w.staged ++ [t] })).advance
      | _, _ => trapOut s 0x0A (off p))

/-- Reads a peeked token or node attributes. (R345) -/
def execNctx (a : BitVec 5) (d : BitVec 5) (r : BitVec 3) (s : State) : Out :=
  frontWord r [d, a] s (fun s =>
    let v := s.x a
    let p := (v.extractLsb' 0 2).toNat
    let i := (v.extractLsb' 2 12).toNat
    let w := (v.extractLsb' 14 2).toNat
    if v.extractLsb' 16 48 ≠ 0 ∨ w = 3 then trapOut s 1 v
    else if s.firingWaits s.cpu.firing then .next (s.firingStall s.cpu.firing)
    else
      match s.here with
      | none => if w = 2 then .next (s.setX d (off s.cpu.node)).advance else trapOut s 0x0A v
      | some (f, g) =>
        if w = 2 then .next (s.setX d (s.nodeSummary g f.node)).advance
        else
          let toks := (s.workHere.map (fun q => q.2.peeked.filter (fun t => t.port = p))).getD []
          match toks[i]? with
          | none => trapOut s 0x0A v
          | some t =>
            if (s.inEdge g f.node p).isNone then trapOut s 0x0A v
            else .next (s.setX d (if w = 0 then t.payload else t.tag)).advance)

/-- The clusters whose window a firing holds once a team has left it. -/
def Firing.without (f : Firing) (t : TeamRun) : Firing :=
  let stays := f.teams.any (fun u => u.id ≠ t.id && u.cluster = t.cluster)
  { f with
    teams := f.teams.filter (fun u => u.id != t.id)
    clusters := if stays then f.clusters else f.clusters.filter (fun c => c != t.cluster) }

/-- The cells of a team that leaves may start for another firing: it runs, they are not retired, their sector is live, and its window is
free there (R13, R153, R344). -/
def State.mayJoin (s : State) (h : Firing) (t : TeamRun) : Bool :=
  h.state = .running && s.sectorLive (t.cluster / 4) && !t.cells.any (s.isRetired 0) && s.windowFree h.id t.cluster h.winBase h.winSize

/-- A firing gives up its window on a cluster before its end: what it placed there, its ring units and its probe region, goes, and the
window is zeroed (R153). -/
def State.leaveWindow (s : State) (f : Firing) (cl : Nat) : State :=
  { s with
    rings := s.rings.filter (fun u => !(u.firing = f.id && u.cluster = cl))
    probes := s.probes.filter (fun p => !(p.firing = f.id && p.cluster = cl)) }.zeroWindow ⟨cl, f.winBase, f.winSize⟩

/-- A stage team that was told to leave starts at its recipient's entry on the same cells (R344), if it still may. A window that no team
of the donor needs any more is zeroed with the move. (DEDUCED, assumption log 29) -/
def State.joinStage (s : State) (f : Firing) (t : TeamRun) (dest : Nat) : State :=
  let s := (s.freeCells f.id t.cells).setFiring (f.without t)
  let s := if (f.without t).clusters.contains t.cluster then s else s.leaveWindow f t.cluster
  match s.firing dest with
  | none => s
  | some h =>
    match s.graph h.graph with
    | some g => if s.mayJoin h t then s.startTeam g dest t.cluster t.cells 0 0 else s
    | none => s

/-- The acting cell's part of the firing is over (R346). -/
def State.memberDone (s : State) : State :=
  let s := s.upd (fun c => { c with done := true })
  match s.here with
  | none => s
  | some (f, _) =>
    match f.team s.cpu.team with
    | none => s
    | some t =>
      if f.state ≠ .running then s
      else
        let t := { t with done := t.done ++ [s.cpu.id] }
        let t := if t.over then { t with cur := t.hi } else t
        let f := f.setTeam t
        let s := s.setFiring f
        match t.over, t.leaving with
        | true, some dest =>
          if (f.without t).teams.all TeamRun.over then (s.joinStage f t dest).completeFiring f.id else s.joinStage f t dest
        | _, _ => if f.teams.all TeamRun.over then s.completeFiring f.id else s

/-- Ends this member's part after all its commands complete and a package release. (R346) -/
def execNdone (r : BitVec 3) (s : State) : Out :=
  frontWord r [] s (fun s =>
    if !s.cpu.pending.isEmpty || s.firingWaits s.cpu.firing then .next (s.firingStall s.cpu.firing)
    else if s.releaseWaits 4 then .next s.stallRelease
    else .next (s.release 4).memberDone)

/-- Ends the firing as a fault. (R346) -/
def execNfail (a : BitVec 5) (r : BitVec 3) (s : State) : Out :=
  frontWord r [a] s (fun s =>
    let c := s.x a
    if c.extractLsb' 8 56 ≠ 0 then trapOut s 1 c
    else if c = 0 then .next (s.faultNode s.cpu.tcause.toNat s.cpu.tval s.cpu.hwLost)
    else .next (s.faultNode c.toNat 0 none))

/-! ### Splits and moves (R339, R344) -/

/-- The running team with the most iterations left; of equal ones that with the lower next one. -/
def Firing.largest (f : Firing) : Option TeamRun :=
  (f.teams.filter (fun t => !t.over)).foldl (fun a t =>
    match a with
    | none => some t
    | some u => if u.hi - u.cur < t.hi - t.cur || (u.hi - u.cur = t.hi - t.cur && t.cur < u.cur) then some t else some u) none

/-- Splits the largest running interval to start a new team when cells would idle. (R339) (DEDUCED, assumption log 29) -/
def execRangeSplit (firing : Nat) (cluster : Nat) (s : State) : Out :=
  match s.firing firing with
  | none => .next s
  | some f =>
    match s.graph f.graph, f.largest with
    | some g, some t =>
      let mid := t.cur + (t.hi - t.cur + 1) / 2
      let sec := cluster / 4
      if s.graphWaits g || f.state ≠ .running || s.nodeKind g f.node ≠ 0 || t.hi < mid + s.node g f.node 88 2 ||
          !(s.node g f.node 52 4).testBit sec || !s.sectorLive sec then .next (s.graphStall g)
      else
        match s.cellsIn g f.node f.id cluster with
        | none => .next s
        | some cells => .next ((s.setFiring (f.setTeam { t with hi := mid })).startTeam g f.id cluster cells mid t.hi)
    | _, _ => .next s

/-- Tokens held on the input edges of a node. -/
def State.heldBefore (s : State) (g : Graph) (i : Nat) : Nat := (s.inPorts g i).foldl (fun a q => a + s.edgeHeld g q.2) 0

/-- The running firing of a stage node. -/
def State.stageFiring (s : State) (g : Graph) (i : Nat) : Option Firing :=
  if s.nodeKind g i = 2 then (s.firingsOf g i).find? (fun f => f.state == .running) else none

def State.isDonor (s : State) (g : Graph) (i : Nat) : Bool :=
  ((s.stageFiring g i).any (fun f => 2 ≤ (f.teams.filter (fun t => !t.over && t.leaving.isNone)).length)) &&
  (s.inPorts g i).all (fun q => s.edgeHeld g q.2 < s.edge g q.2 22 2)
def State.isRecipient (s : State) (g : Graph) (i : Nat) : Bool :=
  (s.stageFiring g i).isSome && (s.inPorts g i).any (fun q => s.edge g q.2 24 2 < s.edgeHeld g q.2)

/-- Every 20 µs moves one team from a donor stage to a recipient stage. (R344) -/
def execStageTeamMove (graph : Nat) (donor : Nat) (recipient : Nat) (team : Nat) (s : State) : Out :=
  match s.graph graph with
  | none => .next s
  | some g =>
    let nodes := List.range (s.nodeCount g)
    let least := (nodes.filter (s.isDonor g)).all (fun i => s.heldBefore g donor ≤ s.heldBefore g i)
    let most := (nodes.filter (s.isRecipient g)).all (fun i => s.heldBefore g i ≤ s.heldBefore g recipient)
    match s.stageFiring g donor, s.stageFiring g recipient with
    | some f, some h =>
      match f.team team with
      | none => .next s
      | some t =>
        if s.graphWaits g || s.now < g.lastMove + 30000 || !s.isDonor g donor || !s.isRecipient g recipient || !least || !most || donor = recipient ||
            t.over || t.leaving.isSome || !(s.node g recipient 52 4).testBit (t.cluster / 4) ||
            !(s.setFiring (f.without t)).mayJoin h t then .next (s.graphStall g)
        else .next ((s.setFiring (f.setTeam { t with leaving := some h.id })).updGraph graph (fun k => { k with lastMove := s.now }))
    | _, _ => .next s

/-! ### Cone walks (R349, R330) -/

/-- Consumers of the output edges of a node. -/
def State.after (s : State) (g : Graph) (i : Nat) : List Nat := (s.outPorts g i).map (fun q => s.consumer g q.2)

/-- Nodes reachable from a set, in at most `fuel` rounds. -/
def State.reachable (s : State) (g : Graph) : Nat → List Nat → List Nat
  | 0, l => l
  | fuel + 1, l =>
    let more := (l.flatMap (s.after g)).filter (fun i => !l.contains i)
    if more.isEmpty then l else State.reachable s g fuel (l ++ more.eraseDups)

/-- The nodes of a cone in topological order. -/
def State.coneOrder (s : State) (g : Graph) : Nat → List Nat → List Nat → List Nat
  | 0, _, acc => acc
  | fuel + 1, left, acc =>
    match left.find? (fun i => (s.inPorts g i).all (fun q => !left.contains (s.producer g q.2))) with
    | none => acc ++ left
    | some i => State.coneOrder s g fuel (left.filter (fun j => j != i)) (acc ++ [i])

/-- The output slots that a firing has reserved return to free: for a stage node, those of each set (R330). -/
def State.returnSlots (s : State) (g : Graph) (f : Firing) : State :=
  if s.nodeKind g f.node = 2 then f.works.foldl (fun s _ => s.reserveSlots g f.node true) s
  else if f.holdsSlots then s.reserveSlots g f.node true else s

/-- What a record of a firing names as its source without a fault of a cell: its copy engine, for a copy node, else its first cell
(R348). -/
def State.sourceOf (s : State) (g : Graph) (f : Firing) : Nat :=
  if s.nodeKind g f.node = 3 then
    ((s.copiers.find? (fun c => c.firing == f.id)).map (fun c => c.engine)).getD
      (((s.copyWaits.find? (fun w => w.firing == f.id)).bind (fun w => w.granted)).getD 0)
  else ((f.teams.flatMap (fun t => t.cells)).head?).getD 0

/-- A firing that a walk reaches gives up its reserved slots, its cells and its work. -/
def State.cancelFiring (s : State) (g : Graph) (f : Firing) : State :=
  if f.state = .cancelled then s
  else
  let s := s.returnSlots g f
  let s := if f.state = .running then
      let src := s.sourceOf g f
      let s := f.works.foldl (fun s w => s.trueUp f w) s
      (s.post f.ctx 2 (s.graphDie g) (nodeRecord s g f src 0x14 0 2)).endFiring f.id
    else s
  match s.firing f.id with
  | none => s
  | some f => s.setFiring { f with state := .cancelled, holdsSlots := false, retryAt := none, works := f.works.map (fun w =>
      { w with staged := [], reservation := 0, count := 0 }) }

/-- Tokens that were drained with an edge are peeked no more, and the freeze of the walk stands (R334). -/
def State.forgetEdge (s : State) (g : Graph) (e : Nat) : State :=
  { s with firings := s.firings.map (fun f =>
      if f.graph ≠ g.id then f
      else { f with
        froze := f.froze.filter (fun x => x != e)
        works := f.works.map (fun w => { w with peeked := w.peeked.filter (fun p => s.inEdge g f.node p.port ≠ some e) }) }) }

/-- A walk reaches one node. -/
def State.cancelNode (s : State) (g : Graph) (i : Nat) : State :=
  let o := s.recRead g 24 4 + i / 8
  let s := s.recWrite g o 1 (s.recRead g o 1 ||| 2 ^ (i % 8))
  let s := (s.firingsOf g i).foldl (fun s f => s.cancelFiring g f) s
  let s := s.updGraph g.id (fun h => { h with armed := h.armed.filter (fun a => a.node != i) })
  let s := if s.nodeState g i = 3 then s else s.setNodeState g i 6
  (s.outPorts g i).foldl (fun s q => ((s.freezeEdge g q.2 true).drainEdge g q.2).forgetEdge g q.2) s

/-- Cancels every node of the cone in topological order, freezing and draining their output edges. (R349) -/
def execConeWalk (graph : Nat) (node : Nat) (s : State) : Out :=
  match s.graph graph with
  | none => .next s
  | some g =>
    if s.graphWaits g || !g.walks.contains node then .next (s.graphStall g)
    else
      let s := s.setGraphState g 4
      let cone := s.reachable g (s.nodeCount g) [node]
      let s := (s.coneOrder g cone.length cone []).foldl (fun s i => s.cancelNode g i) s
      let s := s.updGraph graph (fun h =>
        let left := h.walks.filter (fun i => i != node)
        { h with walks := left, cancelling := h.cancelling && !left.isEmpty })
      .next (s.settleGraph g)

/-- A Retry-pending firing is Armed with the same peeked tokens. -/
def State.rearm (s : State) (f : Firing) : State :=
  match s.graph f.graph with
  | none => s
  | some g =>
    let s := (s.setFiring { f with state := .rearmed, retryAt := none, lost := none }).holdState g f.node 1
    let s := { s with runClock := s.runClock + 1 }.updGraph g.id (fun h => { h with
      armed := h.armed ++ [ArmedNode.mk f.node f.ctx s.runClock] })
    s.settleGraph g

/-- A Retry-pending node becomes Armed when its delay passes, or the die whose loss it waits out is live again. (R333) -/
def execRetryDelayExpiry (firing : Nat) (s : State) : Out :=
  match s.firing firing with
  | none => .next s
  | some f =>
    if f.state ≠ .pending || s.firingWaits firing then .next (s.firingStall firing)
    else
      match f.lost with
      | some die => .next (if s.isOffline die then s else s.rearm f)
      | none => .next (if f.retryAt.any (fun t => t ≤ s.now) then s.rearm f else s)

/-! ### Owner requests (R333, R334, R395) -/

/-- The faulted firing of a Faulted node. -/
def State.faultedOf (s : State) (g : Graph) (i : Nat) : Option Firing :=
  if s.nodeState g i = 4 then (s.firingsOf g i).find? (fun f => f.state == .faulted) else none

def State.ownerRetry (s : State) (g : Graph) (i : Nat) : State :=
  match s.faultedOf g i with
  | none => s
  | some f =>
    let s := s.setFiring { f with state := .pending, retryAt := some (s.now + s.node g i 60 4 * 1500) }
    (s.holdState g i 7).settleGraph g

def State.ownerSkip (s : State) (g : Graph) (i : Nat) : State :=
  match s.faultedOf g i with
  | none => s
  | some f =>
    let s := (s.inPorts g i).foldl (fun s q =>
      s.removeTokens g q.2 ((f.works.flatMap (fun w => w.peeked.filter (fun p => p.port = q.1))).map (fun p => p.id))) s
    let s := s.returnSlots g f
    let s := { s with firings := s.firings.filter (fun h => h.id != f.id) }
    (s.holdState g i (s.restState g i)).settleGraph g

def State.ownerCancel (s : State) (g : Graph) (i : Nat) : State :=
  if s.nodeState g i ≠ 4 then s
  else
    let s := (s.setNodeState g i 5).updGraph g.id (fun h => { h with walks := h.walks ++ [i] })
    s.settleGraph g

def State.ownerReset (s : State) (g : Graph) (i : Nat) : State :=
  if s.nodeState g i ≠ 6 then s
  else
    let s := { s with firings := s.firings.filter (fun f => !(f.graph = g.id && f.node = i)) }
    let s := (s.setNode g i 6 1 0).updGraph g.id (fun h => { h with fired := h.fired.filter (fun j => j != i) })
    (s.setNodeState g i 0).settleGraph g

def State.ownerThaw (s : State) (g : Graph) (e : Nat) : State := (s.freezeEdge g e false).settleGraph g

end Sys2Proof.Machine
end

