-- ==== Sys2Proof/Machine/Tier.lean ====
section
/-! DEFINITION. The walkers, the tier engine and shootdowns (R226 to R236). -/

namespace Sys2Proof.Machine

/-- A walker translates through five levels, setting acc and dirty, or faults. (R226, R228) -/
def execPageWalk (ctx : Nat) (die : Nat) (va : Word) (write : Bool) (s : State) : Out :=
  if va.extractLsb' 54 10 ≠ 0 then .next s
  else
    match walkFor s ctx die va.toNat (if write then .write else .read) with
    | (.ok _ _ s, _) => .next s
    | (.trap _ _ s, _) => .next s
    | (.wait s, _) => .next s

/-! ### Shootdowns (R236) -/

def Shootdown.drops (d : Shootdown) (e : TlbEntry) : Bool := e.ctx = d.ctx && overlap e.base (2 ^ e.bits) d.va d.bytes

/-- Every TLB of the package, those of the cells, dies and copy engines, drops the translations of a range. -/
def State.dropTlbs (s : State) (d : Shootdown) : State :=
  let clean (c : Cell) : Cell := { c with tlb := c.tlb.filter (fun e => !d.drops e) }
  { s with
    cpu := clean s.cpu
    cells := s.cells.map clean
    copiers := s.copiers.map (fun c => { c with tlb := c.tlb.filter (fun e => !d.drops e) })
    llTlb := s.llTlb.filter (fun p => !d.drops p.2) }

/-- A page record has a valid migratable 2 MiB leaf, mig being honoured on an unpinned one only, or one in migration (R227, R233, R235). -/
def State.keepsRecord (s : State) (r : PageRecord) : Bool :=
  match s.context r.ctx with
  | none => false
  | some c =>
    match walk s r.va 4 c.root [] with
    | .leaf 1 _ e _ => e.getLsbD 7 && !e.getLsbD 5
    | .wait | .stalled _ => true
    | _ => false

/-- The records of pages that are gone go too (R233). -/
def State.prunePages (s : State) : State := { s with pageRecords := s.pageRecords.filter s.keepsRecord }

/-- A sleeping waita on a range holds an old translation: it issues anew (R236, R278). -/
def State.wakeRange (s : State) (d : Shootdown) : State :=
  (s.waits.filter (fun w => w.bytes = 8 && (s.cell w.cell).ctx = d.ctx && overlap w.va.toNat 8 d.va d.bytes)).foldl
    (fun s w => s.dropWaits w.cell) s

/-- Removes a translation from every TLB of the package. (R236) -/
def execShootdown (ctx : Nat) (va : Nat) (s : State) : Out :=
  match s.shootdowns.find? (fun d => d.ctx == ctx && d.va == va && !d.issued) with
  | none => .next s
  | some d =>
    let s := ((s.dropTlbs d).wakeRange d).prunePages
    .next { s with shootdowns := s.shootdowns.map (fun e => if e = d then { d with issued := true } else e) }

/-- The keys of the 4 KiB units of a 2 MiB frame. -/
def frameUnits (f : Fuses) (pa : Nat) (il : Bool) : List Nat := (List.range 512).map (fun i => memKey f (pa + 4096 * i) il)

/-- A cell writes home and drops its lines of some 4 KiB units. -/
def State.flushUnits (s : State) (units : List Nat) (id : Nat) : State :=
  let s := s.focus id
  let lines := (s.cpu.l1.filter (fun x => units.contains (lineKey s.fuses x.no / 4096 * 4096))).map (fun x => x.no)
  let s := lines.foldl State.writeBack s
  s.upd (fun c => { c with l1 := c.l1.filter (fun x => !lines.contains x.no) })

/-- Every cell does so, and the home slices drop their copies; the acting cell stays the acting cell. -/
def State.flushAll (s : State) (units : List Nat) : State :=
  let me := s.cpu.id
  let s := ((s.allCells.map (fun c => c.id)).foldl (fun s id => s.flushUnits units id) s).focus me
  { s with slices := s.slices.filter (fun p => !units.contains (p.2 * 128 / 4096 * 4096)) }

/-- An older vector load of the cell that can go on has not returned: the bytes written after it stay where they are (R319). One that
itself waits for a page in migration holds nothing up. (DEDUCED, assumption log 54) -/
def State.loadsOpen (s : State) (c : Cell) (seq : Nat) : Bool :=
  c.pending.any (fun d => d.readsMemory && d.before seq && !(d.addrs c).1.isEmpty &&
    (d.addrs c).1.all (fun a => !s.ctxWaitsAt c.ctx a))

/-- Dirty bytes of some units that no cell may publish yet. -/
def State.unitsHeld (s : State) (units : List Nat) : Bool :=
  s.allCells.any (fun c => c.l1.any (fun x =>
    x.dirty != 0 && units.contains (lineKey s.fuses x.no / 4096 * 4096) && s.loadsOpen c x.seq))

/-- The units that a migration leaves. -/
def Migration.units (f : Fuses) (m : Migration) : List Nat := frameUnits f (leafFrame m.leaf) (leafIl m.leaf)

/-- A rill command translated in a range waits in a bank (R307, R236): one that came over a link, which has no address of its context here,
is taken for one of the range. -/
def State.rillWaits (s : State) (d : Shootdown) : Bool :=
  s.channels.any (fun c => c.owner == some d.ctx && c.banks.toList.any (fun b => b.queue.any (fun r =>
    !r.read && r.va.all (fun a => overlap a 128 d.va d.bytes))))

/-- Something translated under the old entry has still to complete: a rill command in a bank, a reduction on its way, or dirty bytes that
may not go home yet (R236). -/
def State.ackWaits (s : State) (d : Shootdown) (moves : List Migration) : Bool :=
  s.rillWaits d ||
  s.reductions.any (fun x => x.ctx = d.ctx && overlap x.va.toNat 128 d.va d.bytes) ||
  moves.any (fun m => s.unitsHeld (m.units s.fuses) || (m.units s.fuses).any s.homeWaits)

/-- Acknowledges once old translations, accesses and dirty bytes are drained. (R236) -/
def execShootdownAck (ctx : Nat) (va : Nat) (s : State) : Out :=
  match s.shootdowns.find? (fun d => d.ctx == ctx && d.va == va && d.issued) with
  | none => .next s
  | some d =>
    let moves := s.migrations.filter (fun m => d.move && m.ctx = ctx && m.va = va)
    if s.ackWaits d moves then .next s else
    let s := moves.foldl (fun s m => s.flushAll (m.units s.fuses)) s
    .next { s.dropTlbs d with
      shootdowns := s.shootdowns.erase d
      migrations := s.migrations.map (fun m => if moves.contains m then { m with acked := true } else m) }

/-! ### Pages (R233, R234) -/

/-- A migratable 2 MiB leaf of a context: its first address, the key of its entry, the entry. -/
structure PageLeaf where
  ctx : Nat
  va : Nat
  key : Nat
  leaf : Word
  deriving DecidableEq, Repr

/-- An entry that the tier engine may act on: valid, migratable, unpinned, not compute-capable. -/
def movable (e : Word) : Bool := e.getLsbD 0 && (e.getLsbD 1 || e.getLsbD 2) && e.getLsbD 7 && !e.getLsbD 5 && !e.getLsbD 6

/-- The entries of a table that addresses of 54 bits reach: the root has 64 (R226). -/
def tableWidth (level : Nat) : Nat := if level = 4 then 64 else 512

/-- The migratable pages below a table. -/
def pagesBelow (s : State) (ctx : Nat) : Nat → Nat → Nat → List PageLeaf
  | 0, _, _ => []
  | level + 1, table, va =>
    (List.range (tableWidth (level + 1))).flatMap (fun i =>
      let key := table + 8 * i
      let e : Word := BitVec.ofNat 64 (readLE s.mem key 8)
      let here := va + i * 2 ^ (12 + 9 * (level + 1))
      if !e.getLsbD 0 then []
      else if e.getLsbD 1 || e.getLsbD 2 then
        (if level = 0 && movable e && leafOk s.fuses 1 e then [PageLeaf.mk ctx here key e] else [])
      else pagesBelow s ctx level (leafFrame e) here)

def State.pagesOf (s : State) (c : Context) : List PageLeaf := pagesBelow s c.id 4 c.root 0

def PageLeaf.record (s : State) (p : PageLeaf) : PageRecord :=
  (s.pageRecords.find? (fun r => r.ctx == p.ctx && r.va == p.va)).getD ⟨p.ctx, p.va, 4, 0xFFFFFFFF, 0, 0⟩

/-- The distance of a page against its context's step (R233, R216). -/
def PageLeaf.distance (s : State) (p : PageLeaf) : Nat :=
  ((p.record s).nextUse - ((s.context p.ctx).map (fun c => c.step)).getD 0).toNat

/-- The order of demotion: lowest priority, greatest distance, least recently accessed (R234). -/
def PageLeaf.before (s : State) (p q : PageLeaf) : Bool :=
  let a := p.record s
  let b := q.record s
  a.prio < b.prio || (a.prio = b.prio && (q.distance s < p.distance s ||
    (p.distance s = q.distance s && a.last < b.last)))

/-- A page lies in a stack: its domain, or any stack for the package view. (DEDUCED, assumption log 33) -/
def PageLeaf.inStack (p : PageLeaf) (stack : Nat) : Bool :=
  isHbm (leafFrame p.leaf) && (leafIl p.leaf || leafFrame p.leaf / 2 ^ 36 = stack)

/-- The page that goes first from a stack. -/
def State.victimPage (s : State) (stack : Nat) : Option PageLeaf :=
  ((s.contexts.flatMap s.pagesOf).filter (fun p => p.inStack stack)).foldl (fun a p =>
    match a with
    | none => some p
    | some q => if p.before s q then some p else some q) none

/-- Marks of a stack: low and high water in thousandths (R234). -/
def State.marks (s : State) (stack : Nat) : Nat × Nat :=
  match s.tierParams.find? (fun t => t.stack == stack) with
  | some t => (t.low, t.high)
  | none => (20, 40)

/-- The promotion threshold, as last set (R234). (DEDUCED, assumption log 33) -/
def State.promotionThreshold (s : State) : Nat := ((s.tierParams.head?).map (fun t => t.threshold)).getD 64

/-- Free 4 KiB frames of a stack that the engine knows: a frame of the package view has its share of units in each stack (R223). -/
def State.freeIn (s : State) (stack : Nat) : Nat :=
  ((s.freeFrames.filter (fun p => isHbm p.1)).map (fun p =>
    ((frameUnits s.fuses p.1 p.2).filter (fun k => k / 2 ^ 36 = stack)).length)).foldl (· + ·) 0

/-! ### Moves (R235) -/

/-- Step 1: the entry is in migration, and its shootdown is asked for; in all-bank mode of the entry's channel the write waits
(R293). -/
def State.startMove (s : State) (p : PageLeaf) (frame : Nat × Bool) : State :=
  if s.homeWaits p.key then s.stall p.key else
  let s := s.homeWrite p.key (leBytes 8 (p.leaf &&& ~~~1#64).toNat) none
  { s with
    freeFrames := s.freeFrames.erase frame
    migrations := s.migrations ++ [⟨p.ctx, p.va, p.key, p.leaf, frame.1, false⟩]
    shootdowns := s.shootdowns ++ [⟨p.ctx, p.va, 2 ^ 21, false, true⟩] }

/-- Copies one 4 KiB unit with its poison; a reservation of a cell there is lost (R412, R280). -/
def copyUnit (s : State) (src dst : Nat) : State :=
  let bad := (s.memPoison.filter (fun w => src / 8 ≤ w && w < src / 8 + 512)).map (fun w => w - src / 8 + dst / 8)
  { s with
    cpu := dropReservation dst 4096 s.cpu
    cells := s.cells.map (dropReservation dst 4096)
    mem := writeBytes s.mem dst (readBytes s.mem src 4096)
    memPoison := bad.foldl (fun l w => insertNat w l) (healed s.memPoison dst 4096) }

/-- Steps 3 and 4: the copy, and the entry valid with the new frame. While a channel that it needs is in all-bank mode the move waits
(R293). -/
def State.finishMove (s : State) (m : Migration) : State :=
  let il := leafIl m.leaf
  let olds := m.units s.fuses
  let news := frameUnits s.fuses m.frame il
  match (m.key :: olds ++ news).find? s.homeWaits with
  | some k => s.stall k
  | none =>
  let s := (olds.zip news).foldl (fun s p => copyUnit s p.1 p.2) s
  let leaf := (m.leaf &&& ~~~0x000FFFFFFFFFF000#64) ||| BitVec.ofNat 64 m.frame
  let s := s.homeWrite m.key (leBytes 8 leaf.toNat) none
  { s with
    migrations := s.migrations.erase m
    freeFrames := s.freeFrames ++ [(leafFrame m.leaf, il)]
    fetchHints := s.fetchHints.filter (fun h => h != (m.ctx, m.va)) }

/-- When a stack's free frames fall below the low-water mark, eligible pages move to LPDDR6. (R234, R235) -/
def execTierDemotion (stack : Nat) (s : State) : Out :=
  match s.migrations.find? (fun m => m.acked && isLpddr m.frame && (leafIl m.leaf || leafFrame m.leaf / 2 ^ 36 = stack)) with
  | some m => .next (s.finishMove m)
  | none =>
    let (low, high) := s.marks stack
    let free := s.freeIn stack * 1000
    let frames := stackBytes s.fuses / 4096
    let on := free < low * frames || (s.demoting.contains stack && free < high * frames)
    let s := { s with demoting := if on then insertNat stack s.demoting else eraseNat stack s.demoting }
    if !on then .next s
    else
      match s.victimPage stack, s.freeFrames.find? (fun p => isLpddr p.1) with
      | some p, some f => .next (s.startMove p f)
      | _, _ => .next s

/-- A hinted or hot page moves back to HBM4E when a frame is free. (R234, R235) -/
def execTierPromotion (ctx : Nat) (va : Nat) (s : State) : Out :=
  match s.migrations.find? (fun m => m.acked && isHbm m.frame && m.ctx = ctx && m.va = va) with
  | some m => .next (s.finishMove m)
  | none =>
    if !s.fetchHints.contains (ctx, va) then .next s
    else
      match (s.contexts.flatMap s.pagesOf).find? (fun p => p.ctx == ctx && p.va == va) with
      | none => .next s
      | some p =>
        if !isLpddr (leafFrame p.leaf) then .next s
        else
          match s.freeFrames.find? (fun f => isHbm f.1 && f.2 = leafIl p.leaf) with
          | some f => .next (s.startMove p f)
          | none => .next s

/-- End of a 1 ms access window checked against the promotion threshold. (R234) -/
def execPromotionWindowExpiry (s : State) : Out :=
  if s.now < s.tierWindow + 1500000 then .next s
  else
    let hot := ((s.contexts.flatMap s.pagesOf).filter (fun p =>
      isLpddr (leafFrame p.leaf) && s.promotionThreshold < (p.record s).accesses)).map (fun p => (p.ctx, p.va))
    .next { s.prunePages with
      tierWindow := s.now
      fetchHints := s.fetchHints ++ hot.filter (fun h => !s.fetchHints.contains h)
      pageRecords := s.prunePages.pageRecords.map (fun r => { r with accesses := 0 }) }

end Sys2Proof.Machine
end

