-- ==== Sys2Proof/Machine/Host.lean ====
section
/-! DEFINITION. The network engine, the firmware's queues, packets and resident slots (R386 to R394, R397 to R402), and the launch check (R321). -/

namespace Sys2Proof.Machine

/-! ### Queues (R390, R402) -/

def QueueRun.is (r : QueueRun) (pasid queue : Nat) : Bool := r.pasid == pasid && r.queue == queue
def State.queueRun (s : State) (pasid queue : Nat) : Option QueueRun := s.queues.find? (fun r => r.is pasid queue)
def State.updQueue (s : State) (r : QueueRun) (f : QueueRun → QueueRun) : State :=
  { s with queues := s.queues.map (fun x => if x.is r.pasid r.queue then f x else x) }

/-- The number of firmware cores (R402). -/
def firmwareCores : Nat := 12

/-- The event queue holds at most this many events (R391). -/
def eventLimit : Nat := 4096

def State.postEvent (s : State) (pasid queue : Nat) : State := { s with fwEvents := s.fwEvents ++ [(pasid, queue)] }

/-! ### The network engine (R386 to R388) -/

/-- A send takes the next entry of its ring, or waits; a refused one leaves a transport error. The answer says whether it is
over. -/
def State.arrive (s : State) (a : Arrival) : State × Bool :=
  match s.qcbWalk a.pasid a.queue with
  | .refused => ({ s with outbox := s.outbox ++ [.refused a.pasid a.queue] }, true)
  | .absent _ => (s, false)
  | .held k => (s.stall k, false)
  | .ok q t =>
    let va := t.ringEntry q (t.qcbTail q)
    if t.qcbFull q || eventLimit ≤ t.fwEvents.length then (s, false)
    else if t.ctxWaits (t.qcbCtx q) va 256 then (s.ctxStall (t.qcbCtx q) va 256, false)
    else
      let t := t.ctxLand (t.qcbCtx q) va ((a.bytes ++ List.replicate 256 0).take 256)
      ((t.setQcb q 16 4 (t.qcbTail q + 1)).postEvent a.pasid a.queue, true)

/-- The sends that wait, in order: those of one queue keep their order. -/
def State.arriveAll : List Arrival → State → State
  | [], s => s
  | a :: rest, s =>
    if s.arrivals.any (fun b => b.pasid = a.pasid && b.queue = a.queue) then
      State.arriveAll rest { s with arrivals := s.arrivals ++ [a] }
    else
      match s.arrive a with
      | (s, true) => State.arriveAll rest s
      | (s, false) => State.arriveAll rest { s with arrivals := s.arrivals ++ [a] }

/-- The context bound to a PASID (R386). -/
def State.pasidContext (s : State) (pasid : Nat) : Option Context := s.contexts.find? (fun c => c.pasid == pasid)

/-- A byte of a context that an agent outside may write: mapped for writing, its home live, no barrier there. -/
def State.writableByte (s : State) (ctx : Nat) (va : Word) : Bool :=
  va.extractLsb' 54 10 = 0 &&
  match s.context ctx with
  | none => false
  | some x =>
    match walk s va.toNat 4 x.root [] with
    | .leaf level _ e _ =>
      let p := placeOf e (12 + 9 * level) va.toNat
      e.getLsbD 2 && !s.isOffline (homeDie s.fuses p) && !isDevice p.pa && !s.barrierIn (s.key p) 1
    | _ => false

/-- A remote write lands whole, or not at all where one of its bytes may not be written (DEDUCED, assumption log 39), but for the bytes of
the record of a running graph, which stay (R4, R320); while a walk or a channel that it needs waits, so does it. The answer says whether it
is over. -/
def State.landWrite (s : State) (w : RemoteWrite) : State × Bool :=
  match s.pasidContext w.pasid with
  | none => (s, true)
  | some c =>
    if s.ctxWaits c.id w.va w.bytes.length then (s.ctxStall c.id w.va w.bytes.length, false)
    else if !w.bytes.zipIdx.all (fun b => s.writableByte c.id (w.va + off b.2)) then (s, true)
    else (s.ctxLand c.id w.va w.bytes, true)

/-- The remote writes that wait, in order: those of one PASID keep theirs. -/
def State.landAll : List RemoteWrite → State → State
  | [], s => s
  | w :: rest, s =>
    if s.remoteWrites.any (fun v => v.pasid = w.pasid) then State.landAll rest { s with remoteWrites := s.remoteWrites ++ [w] }
    else
      match s.landWrite w with
      | (s, true) => State.landAll rest s
      | (s, false) => State.landAll rest { s with remoteWrites := s.remoteWrites ++ [w] }

/-- The network engine takes up the sends and the remote writes that wait. -/
def State.takeArrivals (s : State) : State :=
  if !s.up then s
  else
    let s := State.landAll s.remoteWrites { s with remoteWrites := [] }
    State.arriveAll s.arrivals { s with arrivals := [] }

/-- Writes a send into the next entry of a queue ring and posts a firmware event. (R387) -/
def execCommandMessage (pasid : Nat) (queue : Nat) (bytes : List Byte) (s : State) : Out :=
  if !s.up then .next s
  else if 256 < bytes.length then .next { s with outbox := s.outbox ++ [.refused pasid queue] }
  else .next { s with arrivals := s.arrivals ++ [Arrival.mk pasid queue bytes] }.takeArrivals

/-- A remote write lands at system scope in the PASID's context. (R386) -/
def execRdmaWrite (pasid : Nat) (va : Word) (bytes : List Byte) (s : State) : Out :=
  if !s.up then .next s else .next { s with remoteWrites := s.remoteWrites ++ [RemoteWrite.mk pasid va bytes] }.takeArrivals

/-- An unreliable, RDMA-read or atomic request is refused without effect. (R386) -/
def execUnsupportedOperation (pasid : Nat) (s : State) : Out :=
  if !s.up then .next s else .next { s with outbox := s.outbox ++ [.unsupported pasid] }

/-- The firmware brings a non-present table level back and the waiting arrival proceeds. (R388) -/
def execPasidLevelRestore (key : Nat) (s : State) : Out :=
  let e := s.tableEntry key
  if !s.up || !e.getLsbD 0 || e.getLsbD 1 then .next s
  else if s.homeWaits key then .next (s.stall key)
  else .next (s.homeWrite key (leBytes 8 (e ||| 2).toNat) none).takeArrivals.writeCompletions

/-- An idle firmware core takes an event and the queue's ordering lock. (R390, R402) (DEDUCED, assumption log 37) -/
def execFirmwareEventTake (s : State) : Out :=
  if !s.up || firmwareCores ≤ (s.queues.filter (fun r => r.locked)).length then .next s
  else
    match s.fwEvents.find? (fun e => !((s.queueRun e.1 e.2).any (fun r => r.locked))) with
    | none => .next s
    | some e =>
      let t := s
      let s := { s with fwEvents := s.fwEvents.erase e }
      match s.queueRun e.1 e.2 with
      | none => .next s
      | some r =>
        let st := s.qcbState r.qcb
        if s.homeWaits r.qcb then .next (t.stall r.qcb)
        else if r.disabling || !(st = 1 || st = 2) || (r.sources.isEmpty && s.qcbEmpty r.qcb) then .next s
        else .next ((s.setQcb r.qcb 12 1 2).updQueue r (fun x => { x with locked := true }))

/-! ### Packets (R392, R393) -/

/-- A packet: header fields, the whole of its bytes, and the depth at which it runs (R394). -/
structure Packet where
  typ : Nat
  flags : Nat
  units : Nat
  seq : Nat
  tag : Nat
  bytes : List Byte
  avail : Nat
  depth : Nat
  deriving DecidableEq, Repr

/-- `n` bytes of a packet at byte `o`, as a number. -/
def Packet.at (p : Packet) (o n : Nat) : Nat := ofLE ((p.bytes.drop o).take n)

/-- The packet at an address of a context. -/
def State.readPacket (s : State) (ctx : Nat) (va : Word) (avail depth : Nat) : Packet :=
  let head := s.ctxBytes ctx va 16
  let at' (o n : Nat) : Nat := ofLE ((head.drop o).take n)
  let units := at' 2 2
  ⟨at' 0 1, at' 1 1, units, at' 4 4, at' 8 8, s.ctxBytes ctx va (min (16 * units) (min avail 256)), avail, depth⟩

/-- The packet at an address, when a read of it does not wait (R235, R293). -/
def State.takePacket (s : State) (ctx : Nat) (va : Word) (avail depth : Nat) : Option Packet :=
  if s.ctxWaits ctx va (min avail 256) then none else some (s.readPacket ctx va avail depth)

/-- The packet at the head of a queue: in its innermost buffer, else in its ring. -/
def State.headPacket (s : State) (r : QueueRun) : Option Packet :=
  let ctx := s.qcbCtx r.qcb
  match r.sources with
  | x :: _ => s.takePacket ctx x.addr x.left x.depth
  | [] => if s.qcbEmpty r.qcb then none else s.takePacket ctx (s.ringEntry r.qcb (s.qcbHead r.qcb)) 256 0

/-- The request of the firmware that waits, noted at its channel (R294). -/
def State.headStall (s : State) (r : QueueRun) : State :=
  match r.sources with
  | x :: _ => s.ctxStall (s.qcbCtx r.qcb) x.addr (min x.left 256)
  | [] => if s.qcbEmpty r.qcb then s else s.ctxStall (s.qcbCtx r.qcb) (s.ringEntry r.qcb (s.qcbHead r.qcb)) 256

/-- Whether `len` of an ADMIN packet agrees with its body (R395): operations 7 and 8, whose bytes the manual places, take two units; the
context record of operation 0 and the QCB bytes of an enable must fit; the rest has one byte at least. (DEDUCED, assumption log 38) -/
def adminLengthOk (op form units : Nat) : Bool :=
  match op with
  | 0 => 6 ≤ units
  | 2 => (if form = 0 then 5 else 2) ≤ units
  | 7 | 8 => units = 2
  | _ => 2 ≤ units

/-- The operation of an ADMIN packet, its op-specific bytes and the fields in them (DESIGN CHOICE, assumption log 25). -/
def Packet.admin (p : Packet) : List Byte := p.bytes.drop 16
def Packet.op (p : Packet) : Nat := p.at 16 1
def Packet.field (p : Packet) (k : Nat) : Nat := Config.adminField p.op k p.admin

/-- The form of operations 2 and 4: enable, resume, disable; retry, skip, cancel, reset, thaw. -/
def Packet.form (p : Packet) : Nat := if p.op = 2 || p.op = 4 then p.field 0 else 0

/-- Whether `len` agrees with the body (R392). (DEDUCED, assumption log 38) -/
def Packet.lengthOk (p : Packet) : Bool :=
  1 ≤ p.units && p.units ≤ 16 && 16 * p.units ≤ p.avail &&
  match p.typ with
  | 1 => p.at 18 1 ≤ 16 && p.units = (24 + 8 * p.at 18 1 + 15) / 16
  | 2 => p.units = 2
  | 3 => p.units = 2 && p.at 24 4 % 16 = 0
  | 4 => p.units = 1
  | 5 => p.units = 3
  | 6 => p.units = 3
  | 7 => p.units = 2
  | _ => adminLengthOk p.op p.form p.units

/-- The zero fields of a body. -/
def Packet.zerosOk (p : Packet) : Bool :=
  match p.typ with
  | 1 => p.at 19 5 = 0
  | 5 => p.at 28 4 = 0
  | 6 => p.at 18 6 = 0
  | _ => true

/-- The error that the bytes of a packet show by themselves: BAD_TYPE or BAD_LENGTH. (DEDUCED, assumption log 38) -/
def Packet.error (p : Packet) : Option Nat :=
  if p.typ = 0 || 8 < p.typ || 2 ≤ p.flags then some 1
  else if !p.lengthOk then some 2
  else if !p.zerosOk then some 1
  else none

/-- Codes of R393. -/
def ibDepth : Nat := 3
def slotAbsent : Nat := 4
def notOwner : Nat := 5
def bufUnmapped : Nat := 6
def graphInvalid : Nat := 7
def imageInvalid : Nat := 8
def adminDenied : Nat := 9
def slotBusy : Nat := 10

/-! ### The course of a queue (R390, R394) -/

/-- The ring's head packet is over: the next entry, or the queue is Ready. -/
def State.ringNext (s : State) (r : QueueRun) : State :=
  let s := s.setQcb r.qcb 20 4 (s.qcbHead r.qcb + 1)
  if s.qcbEmpty r.qcb || r.disabling then
    (s.setQcb r.qcb 12 1 1).updQueue r (fun x => { x with sources := [], locked := false })
  else s.updQueue r (fun x => { x with sources := [] })

/-- Buffers that are at their end are left: their IB packets are dispatched then (R394, R402), with their completions. -/
def State.leaveBuffers (r : QueueRun) : List PacketSource → State → State
  | [], s => s.ringNext r
  | x :: rest, s =>
    if 16 ≤ x.left then s.updQueue r (fun q => { q with sources := x :: rest })
    else
      let s := s.setQcb r.qcb 44 4 x.seq
      let s := match x.notice with
        | some tag => s.complete r.pasid r.queue r.qcb (packetEntry tag x.seq 0)
        | none => s
      State.leaveBuffers r rest s

/-- The sources after the packet at the head. -/
def pastHead (p : Packet) : List PacketSource → List PacketSource
  | [] => []
  | x :: rest => { x with addr := x.addr + off (16 * p.units), left := x.left - 16 * p.units } :: rest

/-- A packet is dispatched: its completion, if asked for, and the next packet. -/
def State.packetDone (s : State) (r : QueueRun) (p : Packet) (notify : Bool) : State :=
  let s := s.setQcb r.qcb 44 4 p.seq
  let s := if notify then s.complete r.pasid r.queue r.qcb (packetEntry p.tag p.seq 0) else s
  let s := s.updQueue r (fun x => { x with started := false })
  State.leaveBuffers r (pastHead p r.sources) s

/-- A packet error stops the queue (R393). -/
def State.packetError (s : State) (r : QueueRun) (p : Packet) (code : Nat) : State :=
  let s := s.complete r.pasid r.queue r.qcb (packetEntry p.tag p.seq code)
  let s := (s.setQcb r.qcb 12 1 4).setQcb r.qcb 13 1 code
  s.updQueue r (fun x => { x with sources := [], locked := false, started := false })

/-- What a packet comes to: done, an error code, or not over yet. -/
inductive Did where
  | ok (s : State)
  | err (code : Nat)
  | more (s : State)
  deriving DecidableEq, Repr

/-- Dispatches the packet at the head of a locked queue if it is of a type. -/
def State.dispatchType (s : State) (pasid queue typ : Nat) (act : QueueRun → Packet → Did) : State :=
  match s.queueRun pasid queue with
  | none => s
  | some r =>
    if !s.up || !r.locked then s
    else if s.homeWaits r.qcb then s.stall r.qcb
    else
      match s.headPacket r with
      | none => s.headStall r
      | some p =>
        if p.typ ≠ typ || p.error.isSome then s
        else
          match act r p with
          | .ok s => s.packetDone ((s.queueRun pasid queue).getD r) p (p.flags = 1)
          | .err code => s.packetError r p code
          | .more s => s

/-- A packet that shows its error by itself. -/
def State.rejectPacket (s : State) (pasid queue : Nat) : State :=
  match s.queueRun pasid queue with
  | none => s
  | some r =>
    if !s.up || !r.locked then s
    else if s.homeWaits r.qcb then s.stall r.qcb
    else
      match s.headPacket r with
      | none => s.headStall r
      | some p =>
        match p.error with
        | some code => s.packetError r p code
        | none => s

/-! ### The launch check (R320 to R325, R321) -/

/-- A reader of record bytes: offset and count. -/
abbrev Rec := Nat → Nat → Nat

/-- Removes, again and again, the nodes none of whose producers is left. -/
def peel (producers : Nat → List Nat) : Nat → List Nat → List Nat
  | 0, l => l
  | fuel + 1, l => peel producers fuel (l.filter (fun i => (producers i).any l.contains))

/-- The header decodes. The fields that the machine itself writes while the graph runs, state and iter, are not looked at (DESIGN CHOICE,
assumption log 74). -/
def headerOk (rd : Rec) : Bool :=
  rd 0 4 = 0x47525A59 && rd 4 2 = 1 && 1 ≤ rd 6 2 && rd 6 2 ≤ 4096 && rd 8 2 ≤ 16384 && rd 13 3 = 0 &&
  rd 16 4 % 128 = 0 && rd 20 4 % 64 = 0 && rd 24 4 % 8 = 0 && rd 32 8 % 64 = 0 && rd 40 4 % 64 = 0 && rd 40 4 ≤ 2 ^ 24 &&
  rd 44 20 = 0

/-- The kind-specific bytes decode (R323). -/
def kindOk (n : Rec) : Bool :=
  match n 2 1 with
  | 0 => n 80 4 ≤ n 84 4 && 1 ≤ n 88 2 && n 90 6 = 0
  | 3 => n 85 11 = 0
  | 4 => n 80 4 < 2 ^ 20 && n 84 2 < 64 && n 86 10 = 0
  | _ => n 80 16 = 0

/-- The team field decodes (R322). -/
def teamOk (kind t : Nat) : Bool :=
  if 3 ≤ kind then t = 0
  else t < 2 ^ 21 && (List.range 7).all (fun r => teamRole t r ≤ 4) && 1 ≤ teamSize t && teamSize t ≤ 4

/-- A port of a node: unused with no need, or its edge names it back and the need is within capacity. -/
def portOk (rd : Rec) (edgeOff edges node port edge need : Nat) (input : Bool) : Bool :=
  if edge = 0xFFFF then need = 0
  else
    let e (o k : Nat) : Nat := rd (edgeOff + 64 * edge + o) k
    edge < edges && 1 ≤ need && need ≤ e 8 2 &&
    (if input then e 12 2 = node && e 14 1 / 4 % 4 = port else e 10 2 = node && e 14 1 % 4 = port)

/-- A node record decodes (R322); a host node needs one token on each used port (R401). The run-time fields, state, retried, fires and
faults, are not looked at (DESIGN CHOICE, assumption log 74). -/
def nodeOk (rd : Rec) (nodeOff edgeOff edges i : Nat) : Bool :=
  let n (o k : Nat) : Nat := rd (nodeOff + 128 * i + o) k
  let kind := n 2 1
  let ctl := n 3 1
  let w := n 50 2
  n 0 2 = i && kind ≤ 4 && ctl / 4 % 4 ≠ 3 && ctl / 64 ≠ 3 && (ctl % 4 ≠ 0 || ctl / 64 = 0) && n 7 1 ≤ 1 && teamOk kind (n 8 4) &&
  (List.range 4).all (fun p => portOk rd edgeOff edges i p (n (12 + 2 * p) 2) (n (28 + 2 * p) 2) true &&
    portOk rd edgeOff edges i p (n (20 + 2 * p) 2) (n (36 + 2 * p) 2) false &&
    (kind ≠ 4 || n (28 + 2 * p) 2 ≤ 1)) &&
  w < 2 ^ 13 && 1 ≤ w / 64 && w / 64 ≤ 64 && w % 64 + w / 64 ≤ 64 && kindOk n && n 102 26 = 0

/-- An edge record decodes (R325), and its ports name it back. -/
def edgeOk (rd : Rec) (nodeOff edgeOff nodes j : Nat) : Bool :=
  let e (o k : Nat) : Nat := rd (edgeOff + 64 * j + o) k
  let src := e 10 2
  let dst := e 12 2
  e 0 8 % 16 = 0 && 1 ≤ e 8 2 && e 8 2 ≤ 4096 && src < nodes && dst < nodes && e 14 1 < 16 && e 15 1 ≤ 1 && e 28 4 = 0 &&
  e 54 10 = 0 && rd (nodeOff + 128 * src + 20 + 2 * (e 14 1 % 4)) 2 = j && rd (nodeOff + 128 * dst + 12 + 2 * (e 14 1 / 4)) 2 = j

/-- The launch check of R321. -/
def recordOk (rd : Rec) : Bool :=
  let nodes := rd 6 2
  let edges := rd 8 2
  let no := rd 16 4
  let eo := rd 20 4
  let producers (i : Nat) : List Nat := (List.range 4).filterMap (fun p =>
    let e := rd (no + 128 * i + 12 + 2 * p) 2
    if e = 0xFFFF then none else some (rd (eo + 64 * e + 10) 2))
  headerOk rd && (List.range nodes).all (nodeOk rd no eo edges) && (List.range edges).all (edgeOk rd no eo nodes) &&
  (peel producers nodes (List.range nodes)).isEmpty

/-! ### Launches (R399) -/

/-- A record in a context's memory. -/
def State.recordAt (s : State) (ctx : Nat) (va : Word) : Rec := fun o n => s.ctxRead ctx (va + off o) n

/-- The run-time fields of a record, as offset and length (R399). -/
def runFields (rd : Rec) : List (Nat × Nat) :=
  let no := rd 16 4
  let eo := rd 20 4
  [(12, 1), (28, 4)] ++
  (List.range (rd 6 2)).flatMap (fun i => [(4, 1), (6, 1), (96, 4), (100, 2)].map (fun f => (no + 128 * i + f.1, f.2))) ++
  (List.range (rd 8 2)).flatMap (fun j =>
    [(15, 1), (16, 2), (18, 2), (20, 2), (26, 2), (32, 8), (40, 8), (48, 4), (52, 2)].map (fun f => (eo + 64 * j + f.1, f.2))) ++
  (List.range ((rd 6 2 + 7) / 8)).map (fun k => (rd 24 4 + k, 1))

/-- Gives the run-time fields the values of a template. -/
def State.restoreRecord (s : State) (ctx : Nat) (va : Word) (template : Rec) : State :=
  (runFields template).foldl (fun s f => s.ctxWrite ctx (va + off f.1) (leBytes f.2 (template f.1 f.2))) s

/-- Gives the run-time fields the values of the Reset columns: 0, and free the capacity. -/
def State.resetRecord (s : State) (ctx : Nat) (va : Word) : State :=
  let rd := s.recordAt ctx va
  let eo := rd 20 4
  let s := (runFields rd).foldl (fun s f => s.ctxWrite ctx (va + off f.1) (leBytes f.2 0)) s
  (List.range (rd 8 2)).foldl (fun s j => s.ctxWrite ctx (va + off (eo + 64 * j + 16)) (leBytes 2 (rd (eo + 64 * j + 8) 2))) s

/-- A graph of an earlier launch of the record at an address is forgotten, with the firings that it left. (DEDUCED, assumption log 29) -/
def State.forgetGraph (s : State) (ctx : Nat) (va : Word) : State :=
  let old := (s.graphs.filter (fun g => g.ctx = ctx && g.va = va)).map (fun g => g.id)
  { s with
    graphs := s.graphs.filter (fun g => !old.contains g.id)
    firings := s.firings.filter (fun f => !old.contains f.graph) }

/-- A graph is launched (R399): its owner is written, and its state is settled. -/
def State.launch (s : State) (g : Graph) : State :=
  let s := s.forgetGraph g.ctx g.va
  let s := { s with runClock := s.runClock + 1, graphs := s.graphs ++ [g] }
  let s := s.recWrite g 10 2 g.ctx
  let ids := (List.range (s.edgeCount g)).map (fun e => (List.range (s.edgeHeld g e)).map (fun k => 2 ^ 64 + k))
  (s.updGraph g.id (fun h => { h with edgeIds := ids })).settleGraph g

/-- A launched graph with nothing under way. -/
def newGraph (id : Nat) (va : Word) (ctx : Nat) (slot : Option Nat) (r : QueueRun) (rel : Vector Word 16) (lead : Nat)
    (sp states : List Byte) (dataEnd : Word) : Graph :=
  ⟨id, va, ctx, slot, some (r.pasid, r.queue), rel, lead, sp, states, dataEnd, [], [], [], [], [], [], 0, false⟩

/-- The launch of a number has ended, or is forgotten (R427). -/
def State.launchEnded (s : State) (id : Nat) : Bool :=
  match s.graph id with
  | some g => s.ended g
  | none => true

def State.addLaunch (s : State) (r : QueueRun) (id : Nat) : State :=
  s.updQueue r (fun x => { x with launches := x.launches ++ [id] })

/-! ### INVOKE, GRAPH, IB, FENCE, SIGNAL -/

def State.slot (s : State) (n : Nat) : Option Slot := s.slots.find? (fun x => x.number == n)
def State.setSlot (s : State) (x : Slot) : State := { s with slots := s.slots.map (fun y => if y.number = x.number then x else y) }

/-- The addresses of an INVOKE. -/
def Packet.buffers (p : Packet) : List Word := (List.range (p.at 18 1)).map (fun i => off (p.at (24 + 8 * i) 8))

/-- The rel values of a launch (R398). -/
def relOf (bufs : List Word) : Vector Word 16 := Vector.ofFn (fun i => bufs.getD i.val 0)

/-- A template as a record. -/
def bytesRec (bs : List Byte) : Rec := fun o n => ofLE ((bs.drop o).take n)

/-- The values of an INVOKE that are given as addresses: R54 lets a value be a size, and which values of an image are sizes is a free value
(DESIGN CHOICE, assumption log 61). -/
def addressesOf (template : List Byte) (bufs : List Word) : List Word :=
  (bufs.zipIdx.filter (fun b => !Config.relIsSize template b.2)).map (fun b => b.1)

/-- INVOKE (R398): every given address translates; a value that is a size need not (R54). A page in migration is waited for (R235). -/
def State.doInvoke (s : State) (r : QueueRun) (p : Packet) : Did :=
  let ctx := s.qcbCtx r.qcb
  match s.slot (p.at 16 2) with
  | none => .err slotAbsent
  | some x =>
    if x.leaving then .err slotAbsent
    else if x.pasid ≠ r.pasid then .err notOwner
    else if (addressesOf x.template p.buffers).any (s.ctxWaitsAt ctx) then
      .more ((addressesOf x.template p.buffers).foldl (fun s a => s.ctxStall ctx a 1) s)
    else if !((addressesOf x.template p.buffers).all (fun a => (s.ctxKey ctx a).isSome)) then .err bufUnmapped
    else if s.ctxWaits ctx x.graph x.template.length then .more (s.ctxStall ctx x.graph x.template.length)
    else if x.launch.any (fun id => !s.launchEnded id) then .more s
    else
      let s := s.restoreRecord ctx x.graph (bytesRec x.template)
      if !recordOk (s.recordAt ctx x.graph) then .err graphInvalid
      else
        let id := s.runClock
        let g := newGraph id x.graph ctx (some x.number) r (relOf p.buffers) x.lead x.sp x.states x.dataEnd
        .ok (((s.launch g).setSlot { x with launch := some id }).addLaunch r id)

/-- Checks the slot and buffers, writes the rel registers and launches the slot's graph template. (R398, R399) -/
def execInvoke (pasid : Nat) (queue : Nat) (s : State) : Out := .next (s.dispatchType pasid queue 1 s.doInvoke)

/-- The bytes of the record of a GRAPH packet. -/
def recordLast (rd : Rec) : Nat := max (max (rd 16 4 + 128 * rd 6 2) (rd 20 4 + 64 * rd 8 2)) (rd 24 4 + (rd 6 2 + 7) / 8)

/-- An access to the record of a GRAPH packet waits (R235, R293). -/
def State.recordWaits (s : State) (ctx : Nat) (va : Word) : Bool :=
  s.ctxWaits ctx va 64 || s.ctxWaits ctx va (recordLast (s.recordAt ctx va))

/-- The requests for it noted at their channels (R294). -/
def State.recordStall (s : State) (ctx : Nat) (va : Word) : State :=
  (s.ctxStall ctx va 64).ctxStall ctx va (recordLast (s.recordAt ctx va))

/-- The record of a GRAPH packet is mapped from end to end, and writable: the graph engine writes it (R7, R227). -/
def State.recordMapped (s : State) (ctx : Nat) (va : Word) : Bool :=
  (List.range (recordLast (s.recordAt ctx va) / 64 + 1)).all (fun k => (s.ctxOwnKey ctx (va + off (64 * k))).any isHbm)

def State.doGraph (s : State) (r : QueueRun) (p : Packet) : Did :=
  let ctx := s.qcbCtx r.qcb
  let va := off (p.at 16 8)
  let rd := s.recordAt ctx va
  if (s.context ctx).isNone || va.extractLsb' 0 7 ≠ 0 then .err graphInvalid
  else if s.recordWaits ctx va then .more (s.recordStall ctx va)
  else if !s.recordMapped ctx va || !recordOk rd || rd 12 1 = 1 || rd 12 1 = 4 then
    .err graphInvalid
  else
    let id := s.runClock
    let g := newGraph id va ctx none r (relOf []) 4 [] [] 0
    .ok (((s.resetRecord ctx va).launch g).addLaunch r id)

/-- Resets a host-prepared graph record's run-time fields and launches it. (R399) -/
def execGraph (pasid : Nat) (queue : Nat) (s : State) : Out := .next (s.dispatchType pasid queue 2 s.doGraph)

def State.doIb (s : State) (r : QueueRun) (p : Packet) : Did :=
  if 4 ≤ p.depth then .err ibDepth
  else
    let x : PacketSource := ⟨off (p.at 16 8), p.at 24 4, p.depth + 1, p.seq, if p.flags = 1 then some p.tag else none⟩
    .more (State.leaveBuffers r (x :: pastHead p r.sources) s)

/-- Executes the packets of a buffer in order at the next depth. (R394) -/
def execIb (pasid : Nat) (queue : Nat) (s : State) : Out := .next (s.dispatchType pasid queue 3 s.doIb)

def State.doFence (s : State) (r : QueueRun) (p : Packet) : Did :=
  if r.launches.all s.launchEnded then .more (s.packetDone r p true)
  else
    .more ((s.setQcb r.qcb 12 1 3 |>.setQcb r.qcb 44 4 p.seq).updQueue r (fun x => { x with locked := false, fencing := true }))

/-- Begins waiting for every earlier launch of the queue to end. (R390, R392) -/
def execFencePacket (pasid : Nat) (queue : Nat) (s : State) : Out := .next (s.dispatchType pasid queue 4 s.doFence)

/-- When the earlier launches have ended, writes the completion. (R392) (DEDUCED, assumption log 37) -/
def execFencePacketDone (pasid : Nat) (queue : Nat) (s : State) : Out :=
  match s.queueRun pasid queue with
  | none => .next s
  | some r =>
    if s.homeWaits r.qcb then .next (s.stall r.qcb) else
    match s.headPacket r with
    | none => .next (s.headStall r)
    | some p =>
      if !s.up || !r.fencing || !r.launches.all s.launchEnded then .next s
      else
        let s := (s.setQcb r.qcb 12 1 2).updQueue r (fun x => { x with fencing := false, launches := [] })
        .next ((s.packetDone ((s.queueRun pasid queue).getD r) p true).postEvent pasid queue)

def State.doSignal (s : State) (r : QueueRun) (p : Packet) : Did :=
  .ok { s with outbox := s.outbox ++ [.hostWrite r.pasid (off (p.at 16 8)) (p.at 24 4) (leBytes 8 (p.at 32 8))] }

/-- Writes a value to a host address once earlier packets are dispatched. (R392) -/
def execSignal (pasid : Nat) (queue : Nat) (s : State) : Out := .next (s.dispatchType pasid queue 5 s.doSignal)

/-! ### Images (R61, R62, R399, R400) -/

/-- A section of an object file. -/
structure Section where
  name : List Byte
  kind : Nat
  offset : Nat
  size : Nat
  deriving DecidableEq, Repr

/-- The bytes of an ASCII name. -/
def ascii (t : String) : List Byte := t.toList.map (fun c => BitVec.ofNat 8 c.toNat)

/-- The sections of an ELF64 little-endian file with e_machine 0xA55A; none if the file breaks step 1 of R400. -/
def elfSections (f : List Byte) : Option (List Section) :=
  let rd := bytesRec f
  let table := rd 40 8
  let n := rd 60 2
  let head (i o k : Nat) : Nat := rd (table + 64 * i + o) k
  let names := head (rd 62 2) 24 8
  let sec (i : Nat) : Section :=
    ⟨(f.drop (names + head i 0 4)).takeWhile (fun b => b != 0), head i 4 4, head i 24 8, head i 32 8⟩
  let all := (List.range n).map sec
  let real := all.filter (fun x => x.kind ≠ 0 && x.kind ≠ 8 && x.size ≠ 0)
  let apart := (List.range real.length).all (fun i => (List.range i).all (fun j =>
    match real[i]?, real[j]? with
    | some a, some b => !overlap a.offset a.size b.offset b.size
    | _, _ => true))
  if f.length ≤ 2 ^ 32 && 64 ≤ f.length && rd 0 4 = 0x464C457F && rd 4 1 = 2 && rd 5 1 = 1 && rd 18 2 = 0xA55A && rd 58 2 = 64 &&
      table + 64 * n ≤ f.length && rd 62 2 < n && real.all (fun x => x.offset + x.size ≤ f.length) && apart
  then some all else none

/-- The bytes of a section; none has no bytes. -/
def sectionBytes (f : List Byte) (l : List Section) (name : String) : List Byte :=
  match l.find? (fun x => x.name == ascii name) with
  | some x => (f.drop x.offset).take x.size
  | none => []

/-- The next 4 KiB boundary. -/
def pageUp (a : Nat) : Nat := (a + 4095) / 4096 * 4096

/-- The places of .text, .rodata, .data, .graph and .copy of an image at a base (R61, R62). -/
def imageLayout (base : Nat) (parts : List (List Byte)) : List (Nat × List Byte) :=
  (parts.foldl (fun (acc : Nat × List (Nat × List Byte)) b => (pageUp (acc.1 + b.length), acc.2 ++ [(acc.1, b)])) (base, [])).2

/-- The signature of step 4 of R400: whether it is there, and whether it verifies. -/
def signatureOk (s : State) (pasid : Nat) (f : List Byte) (l : List Section) : Bool × Bool :=
  match l.find? (fun x => x.name == ascii ".yzsig") with
  | none => (false, false)
  | some x =>
    let sig := (f.drop x.offset).take x.size
    let k := ofLE (sig.take 8)
    let msg := f.take x.offset ++ List.replicate x.size 0 ++ f.drop (x.offset + x.size)
    let good := match s.keys.find? (fun e => e.1 == (pasid, k)) with
      | some e => x.size = 122 && k ≤ 3 && Config.ed448Verify e.2 msg (sig.drop 8)
      | none => false
    (true, good)

/-- An image that verifies: base, lead allowance, and its sections in place. -/
structure Image where
  lead : Nat
  parts : List (Nat × List Byte)
  graph : Nat
  template : List Byte
  sp : List Byte
  states : List Byte
  dataEnd : Nat
  deriving DecidableEq, Repr

/-- Verifies an image (R400). -/
def State.verifyImage (s : State) (pasid : Nat) (f : List Byte) : Option Image :=
  match elfSections f, Config.launchNote f with
  | some l, some (base, drift, _) =>
    let get (n : String) : List Byte := sectionBytes f l n
    let text := get ".text"
    let parts := imageLayout base [text, get ".rodata", get ".data", get ".graph", get ".copy"]
    let last := parts.foldl (fun m p => max m (p.1 + p.2.length)) base
    let graph := get ".graph"
    let rd := bytesRec graph
    let entries := (List.range (rd 6 2)).all (fun i =>
      let e := rd (rd 16 4 + 128 * i + 64) 8
      base ≤ e && e < base + text.length)
    let sig := signatureOk s pasid f l
    let data := parts.getD 2 (0, [])
    if base % 2 ^ 21 = 0 && base < 2 ^ 54 && last ≤ 2 ^ 54 && drift ≤ 255 && (get ".sp").length ≤ 2 ^ 22 && recordOk rd && entries &&
        (if s.signing then sig.2 else !sig.1 || sig.2)
    then some ⟨drift, parts, (parts.getD 3 (0, [])).1, graph, get ".sp", get ".state", data.1 + data.2.length⟩
    else none
  | _, _ => none

/-- The key and the leaf of the page that maps an address of a context. -/
def State.leafOf (s : State) (ctx : Nat) (va : Word) : Option (Nat × Word) :=
  match s.context ctx with
  | none => none
  | some x =>
    match walk s va.toNat 4 x.root [] with
    | .leaf _ key e _ => some (key, e)
    | _ => none

/-- The first addresses of the 4 KiB pages of the parts of an image. -/
def Image.pages (m : Image) : List Word :=
  m.parts.flatMap (fun p => (List.range ((p.1 % 4096 + p.2.length + 4095) / 4096)).map (fun k => off (p.1 / 4096 * 4096 + 4096 * k)))

/-- Entries that are not pinned yet. -/
def State.unpinned (s : State) (ctx : Nat) (pages : List Word) : List Nat :=
  (pages.filterMap (fun a => (s.leafOf ctx a).bind (fun l => if l.2.getLsbD 5 then none else some l.1))).eraseDups

/-- Sets or clears the pin bit of entries (R227, R399); a pinned page keeps no page record (R233). -/
def State.pinAll (s : State) (keys : List Nat) (on : Bool) : State :=
  (keys.foldl (fun s k => s.homeWrite k [if on then readByte s.mem k ||| 0x20 else readByte s.mem k &&& 0xDF] none) s).prunePages

def State.doSlotLoad (s : State) (r : QueueRun) (p : Packet) : Did :=
  let ctx := s.qcbCtx r.qcb
  let n := p.at 16 2
  let addr := off (p.at 24 8)
  let len := p.at 32 4
  if 256 ≤ n || (s.slot n).isSome then .err slotBusy
  else if s.ctxWaits ctx addr len then .more (s.ctxStall ctx addr len)
  else if !((List.range len).all (fun k => (s.ctxKey ctx (addr + off k)).isSome)) then .err imageInvalid
  else
    match s.verifyImage r.pasid (s.ctxBytes ctx addr len) with
    | none => .err imageInvalid
    | some m =>
      if m.pages.any (s.ctxWaitsAt ctx) then .more (m.pages.foldl (fun s a => s.ctxStall ctx a 1) s)
      else if !(m.pages.all (fun a => (s.leafOf ctx a).any (fun l => l.2.getLsbD 2))) then .err imageInvalid
      else
        let keys := s.unpinned ctx m.pages
        match keys.find? s.homeWaits with
        | some k => .more (s.stall k)
        | none =>
        let s := s.pinAll keys true
        let s := m.parts.foldl (fun s p => s.ctxLand ctx (off p.1) p.2) s
        .ok { s with slots := s.slots ++
          [⟨n, r.pasid, ctx, off ((m.parts.getD 0 (0, [])).1), off m.graph, m.lead, m.sp, m.states, off m.dataEnd, m.template, keys,
            none, false⟩] }

/-- Verifies an image, places and pins its sections, making the slot resident. (R399, R400) -/
def execSlotLoad (pasid : Nat) (queue : Nat) (s : State) : Out := .next (s.dispatchType pasid queue 6 s.doSlotLoad)

def State.doSlotEvict (s : State) (r : QueueRun) (p : Packet) : Did :=
  match s.slot (p.at 16 2) with
  | none => .err slotAbsent
  | some x =>
    if x.leaving && !r.started then .err slotAbsent
    else if x.pasid ≠ r.pasid then .err notOwner
    else if x.launch.any (fun id => !s.launchEnded id) then
      .more ((s.setSlot { x with leaving := true }).updQueue r (fun q => { q with started := true }))
    else
      match x.pages.find? s.homeWaits with
      | some k => .more (s.stall k)
      | none =>
      let s := s.pinAll x.pages false
      .ok { s with slots := s.slots.filter (fun y => y.number != x.number) }

/-- Waits for the slot's launches to end, then frees the slot. (R392) -/
def execSlotEvict (pasid : Nat) (queue : Nat) (s : State) : Out := .next (s.dispatchType pasid queue 7 s.doSlotEvict)

end Sys2Proof.Machine
end

