-- ==== Sys2Proof/Machine/Admin.lean ====
section
/-! DEFINITION. The ADMIN operations (R395, R397) and the dispatch of whichever packet stands at the head of a queue (R390, R402). -/

namespace Sys2Proof.Machine

/-! ### Contexts (R397) -/

/-- The fields of a context record lie within their limits. -/
def contextOk (rd : Rec) : Bool :=
  1 ≤ rd 0 2 && rd 2 3 < 2 ^ 20 && rd 5 1 < 4 && rd 6 2 = 0 && 6 ≤ rd 24 1 && rd 24 1 ≤ 16 && rd 25 7 = 0 && rd 44 4 ≤ 65536 &&
  rd 48 16 = 0

/-- A context from its record, with a root and a ring base (DEDUCED, assumption logs 7 and 30). -/
def contextOf (rd : Rec) (root ring : Nat) (boot : Bool) : Context where
  id := rd 0 2
  pasid := rd 2 3
  root := root
  ringBase := ring
  ringSize := rd 24 1
  step := 0
  serial := 0
  backing := if rd 44 4 = 0 then 256 else rd 44 4
  account := 0
  refill := rd 32 6
  cap := if rd 38 6 = 0 then 2 * rd 32 6 else rd 38 6
  bootstrap := boot

/-- A context is created: its trap ring's header is written (R369). -/
def State.addContext (s : State) (c : Context) (flags : Nat) : State :=
  let s := { s with contexts := s.contexts ++ [c] }
  s.homeWrite c.ringBase ((leBytes 12 0 ++ leBytes 1 c.ringSize ++ leBytes 1 flags ++ List.replicate 50 0).take 64) none

/-- A page-table root of a populated range (R226). -/
def State.rootOk (s : State) (root : Nat) : Bool := isHbm root && root % 4096 = 0 && frameOk s.fuses root 12 false 0

/-- Creates a context from a record, if the record may be taken. (DEDUCED, assumption log 40) -/
def State.createContext (s : State) (record : List Byte) : Option State :=
  let rd := bytesRec record
  if record.length = 64 && contextOk rd && (s.context (rd 0 2)).isNone && s.rootOk (rd 8 8) && isHbm (rd 16 8) then
    some (s.addContext (contextOf rd (rd 8 8) (rd 16 8) false) (rd 5 1))
  else none

/-! ### Queues (R389, R390) -/

/-- The bytes [47:0] of a QCB that an enable may carry. -/
def qcbOk (rd : Rec) : Bool :=
  rd 0 8 % 256 = 0 && 2 ≤ rd 8 2 && rd 8 2 ≤ 4096 && rd 14 2 = 0 && 2 ≤ rd 36 2 && rd 38 2 = 0

/-- The queue table and the QCBs that the firmware allots: a frame for each PASID's table, and one for its QCBs (DESIGN CHOICE,
assumption log 25). -/
def frameAt (n : Nat) : Nat := Config.firmwareFrame n % 2 ^ 22 * 4096
def queueTableOf (pasid : Nat) : Nat := frameAt (3 + 3 * pasid)
def qcbOf (pasid queue : Nat) : Nat := frameAt (4 + 3 * pasid + queue / 32) + 128 * (queue % 32)

/-- The keys that an enable or a disable of a queue writes. -/
def State.queueKeys (s : State) (pasid queue : Nat) : List Nat :=
  let e := s.tableEntry (s.pasidBase + 8 * pasid)
  [s.pasidBase + 8 * pasid, (if e.getLsbD 0 then entryNext e else queueTableOf pasid) + 8 * queue, qcbOf pasid queue]

/-- A table entry that points to an address (R388). -/
def tableWord (next : Nat) : Nat := 3 + next / 128 * 128

/-- Enables a queue: the firmware allots its QCB, writes the tables, and the queue is Ready; its completion ring is empty. -/
def State.enableQueue (s : State) (pasid queue : Nat) (qcb : List Byte) : Option State :=
  let rd := bytesRec qcb
  if 64 ≤ queue || 2 ^ 20 ≤ pasid || qcb.length ≠ 48 || !qcbOk rd || (s.context (rd 10 2)).isNone || (s.queueRun pasid queue).isSome then
    none
  else
    let q := qcbOf pasid queue
    let body := leBytes 12 (rd 0 12) ++ leBytes 12 1 ++ leBytes 14 (rd 24 14) ++ leBytes 90 0
    let s := s.homeWrite q body none
    let table := s.tableEntry (s.pasidBase + 8 * pasid)
    let s := if table.getLsbD 0 then s else s.homeWrite (s.pasidBase + 8 * pasid) (leBytes 8 (tableWord (queueTableOf pasid))) none
    let t := entryNext (s.tableEntry (s.pasidBase + 8 * pasid))
    let s := s.homeWrite (t + 8 * queue) (leBytes 8 (tableWord q)) none
    some { s with
      hostReads := s.hostReads.filter (fun p => p.1 != q)
      postings := s.postings.filter (fun p => !(p.pasid == pasid && p.queue == queue && p.qcb.isSome))
      queues := s.queues ++ [⟨pasid, queue, q, false, [], [], false, false, false⟩] }

/-- A queue is Disabled: its table entry is no longer valid. -/
def State.disableQueue (s : State) (r : QueueRun) : State :=
  let s := s.setQcb r.qcb 12 1 0
  let t := entryNext (s.tableEntry (s.pasidBase + 8 * r.pasid))
  let s := s.homeWrite (t + 8 * r.queue) (leBytes 8 0) none
  { s with
    queues := s.queues.filter (fun x => !x.is r.pasid r.queue)
    fwEvents := s.fwEvents.filter (fun e => e != (r.pasid, r.queue)) }

/-! ### The dispatch of an ADMIN packet -/

/-- The PASID is on the privileged list (R396). -/
def State.isPrivileged (s : State) (pasid : Nat) : Bool := s.privileged.any (fun e => e.2 == pasid)

/-- Dispatches an ADMIN packet of an operation and form. -/
def State.dispatchAdmin (s : State) (pasid queue op form : Nat) (act : QueueRun → Packet → Did) : State :=
  s.dispatchType pasid queue 8 (fun r p =>
    if p.op ≠ op || p.form ≠ form then .more s
    else if !s.isPrivileged r.pasid then .err adminDenied
    else act r p)

/-- A state if there is one, else ADMIN_DENIED. (DEDUCED, assumption log 40) -/
def didOr (o : Option State) : Did :=
  match o with
  | some s => .ok s
  | none => .err adminDenied

/-- The packet's effect has begun; it is over when `over` holds of a later state. -/
def State.begun (s : State) (r : QueueRun) : State := s.updQueue r (fun x => { x with started := true })

/-- An operation that writes at some keys waits while a channel of one serves no ordinary request (R293, R294). -/
def State.withKeys (s : State) (keys : List Nat) (act : Did) : Did :=
  match keys.find? s.homeWaits with
  | some k => .more (s.stall k)
  | none => act

def State.doCreateContext (s : State) (_ : QueueRun) (p : Packet) : Did :=
  let rd := Config.adminBytes 0 p.admin
  s.withKeys [bytesRec rd 16 8] (didOr (s.createContext rd))

/-- ADMIN op 0 creates a context from a context record. (R395, R397) -/
def execAdminCreateContext (pasid : Nat) (queue : Nat) (s : State) : Out :=
  .next (s.dispatchAdmin pasid queue 0 0 s.doCreateContext)

/-- The nodes of a graph without a producer: their cones are the whole graph. -/
def State.roots (s : State) (g : Graph) : List Nat := (List.range (s.nodeCount g)).filter (fun i => (s.inPorts g i).isEmpty)

/-- The cancellation of a graph begins (R427). -/
def State.cancelGraph (s : State) (g : Graph) : State :=
  (s.updGraph g.id (fun h => { h with cancelling := true, walks := h.walks ++ s.roots g })).setGraphState g 4

/-- Everything of a context is freed (R395). -/
def State.removeContext (s : State) (ctx : Nat) : State :=
  let graphs := (s.graphs.filter (fun g => g.ctx = ctx)).map (fun g => g.id)
  let objs := s.objects.filter (fun o => o.ctx = ctx)
  let s := (objs.flatMap (fun o => o.blocks)).foldl State.unref s
  { s with
    objects := s.objects.filter (fun o => o.ctx ≠ ctx)
    graphs := s.graphs.filter (fun g => !graphs.contains g.id)
    firings := s.firings.filter (fun f => !graphs.contains f.graph && f.ctx ≠ ctx)
    rings := s.rings.filter (fun u => !(s.firings.any (fun f => f.id = u.firing && f.ctx = ctx)))
    probes := s.probes.filter (fun p => p.ctx ≠ ctx)
    contexts := s.contexts.filter (fun c => c.id ≠ ctx)
    held := s.held.filter (fun h => h.ctx ≠ ctx)
    dropped := s.dropped.filter (fun d => d.1 ≠ ctx)
    pageRecords := s.pageRecords.filter (fun r => r.ctx ≠ ctx)
    peers := s.peers.filter (fun e => e.ctx ≠ ctx)
    placements := s.placements.filter (fun e => e.ctx ≠ ctx)
    slots := s.slots.filter (fun x => x.ctx ≠ ctx) }

def State.doDestroyContext (s : State) (r : QueueRun) (p : Packet) : Did :=
  let ctx := p.field 0
  let mine := s.graphs.filter (fun g => g.ctx = ctx)
  if (s.context ctx).isNone then .err adminDenied
  else if mine.any s.graphWaits then .more (mine.foldl (fun s g => s.graphStall g) s)
  else if !r.started then .more ((mine.foldl (fun s g => if s.ended g then s else s.cancelGraph g) s).begun r)
  else if mine.any (fun g => g.cancelling) then .more s
  else .ok (s.removeContext ctx)

/-- ADMIN op 1 cancels a context's graphs and frees its handles and rings. (R395) -/
def execAdminDestroyContext (pasid : Nat) (queue : Nat) (s : State) : Out :=
  .next (s.dispatchAdmin pasid queue 1 0 s.doDestroyContext)

def State.doQueueEnable (s : State) (_ : QueueRun) (p : Packet) : Did :=
  s.withKeys (s.queueKeys (p.field 1) (p.field 2)) (didOr (s.enableQueue (p.field 1) (p.field 2) (Config.adminBytes 2 p.admin)))

/-- ADMIN op 2 enable allots a QCB and makes the queue Ready. (R390, R395) -/
def execAdminQueueEnable (pasid : Nat) (queue : Nat) (s : State) : Out :=
  .next (s.dispatchAdmin pasid queue 2 0 s.doQueueEnable).writeCompletions

def State.doQueueResume (s : State) (_ : QueueRun) (p : Packet) : Did :=
  match s.queueRun (p.field 1) (p.field 2) with
  | none => .err adminDenied
  | some t =>
    if s.homeWaits t.qcb then .more (s.stall t.qcb)
    else if s.qcbState t.qcb ≠ 4 then .err adminDenied
    else
      let s := (s.setQcb t.qcb 12 1 1).setQcb t.qcb 20 4 (s.qcbHead t.qcb + 1)
      .ok (if s.qcbEmpty t.qcb then s else s.postEvent t.pasid t.queue)

/-- ADMIN op 2 resume makes a stopped queue Ready after the offending entry. (R390, R395) -/
def execAdminQueueResume (pasid : Nat) (queue : Nat) (s : State) : Out :=
  .next (s.dispatchAdmin pasid queue 2 1 s.doQueueResume)

/-- A disable waits until the work of the queue is over; of the queue that issues it, the launches. -/
def State.doQueueDisable (s : State) (r : QueueRun) (p : Packet) : Did :=
  match s.queueRun (p.field 1) (p.field 2) with
  | none => .err adminDenied
  | some t =>
    let own := t.is r.pasid r.queue
    s.withKeys (s.queueKeys t.pasid t.queue) <|
    if (own || !t.locked) && t.launches.all s.launchEnded then
      (if own then .more ((s.packetDone r p (p.flags = 1)).disableQueue r) else .ok (s.disableQueue t))
    else .more ((s.updQueue t (fun x => { x with disabling := true })).begun r)

/-- ADMIN op 2 disable disables the queue once running work completes. (R390, R395) -/
def execAdminQueueDisable (pasid : Nat) (queue : Nat) (s : State) : Out :=
  .next (s.dispatchAdmin pasid queue 2 2 s.doQueueDisable)

/-- The shootdown is asked for, and over when it is acknowledged. -/
def State.doShootdown (s : State) (r : QueueRun) (p : Packet) : Did :=
  let d : Shootdown := ⟨p.field 0, p.field 1, p.field 2, false, false⟩
  if !r.started then .more ({ s with shootdowns := s.shootdowns ++ [d] }.begun r)
  else if s.shootdowns.any (fun e => e.ctx = d.ctx && e.va = d.va && !e.move) then .more s
  else .ok s

/-- ADMIN op 3 shoots down a virtual range. (R236, R395) -/
def execAdminShootdown (pasid : Nat) (queue : Nat) (s : State) : Out :=
  .next (s.dispatchAdmin pasid queue 3 0 s.doShootdown)

/-- A graph control request: the graph by context and record, then the node or edge; the record may have to be waited for (R235).
(DEDUCED, assumption log 40) -/
def State.onGraph (s : State) (p : Packet) (limit : Graph → Nat) (act : Graph → Nat → State) : Did :=
  match s.graphs.find? (fun g => g.ctx == p.field 1 && g.va == off (p.field 2)) with
  | none => .err adminDenied
  | some g =>
    if s.graphWaits g then .more (s.graphStall g)
    else if p.field 3 < limit g then .ok (act g (p.field 3))
    else .err adminDenied

/-- Graph control: a Faulted node becomes Retry-pending. (R333, R395) -/
def execAdminGraphRetry (pasid : Nat) (queue : Nat) (s : State) : Out :=
  .next (s.dispatchAdmin pasid queue 4 0 (fun _ p => s.onGraph p s.nodeCount s.ownerRetry))

/-- Graph control: a Faulted node consumes its tokens, produces nothing and becomes Idle. (R333, R395) -/
def execAdminGraphSkip (pasid : Nat) (queue : Nat) (s : State) : Out :=
  .next (s.dispatchAdmin pasid queue 4 1 (fun _ p => s.onGraph p s.nodeCount s.ownerSkip))

/-- Graph control: a Faulted node starts a cone walk. (R333, R395) -/
def execAdminGraphCancel (pasid : Nat) (queue : Nat) (s : State) : Out :=
  .next (s.dispatchAdmin pasid queue 4 2 (fun _ p => s.onGraph p s.nodeCount s.ownerCancel))

/-- Graph control: a Cancelled node becomes Idle with its tokens unpeeked. (R333, R395) -/
def execAdminGraphReset (pasid : Nat) (queue : Nat) (s : State) : Out :=
  .next (s.dispatchAdmin pasid queue 4 3 (fun _ p => s.onGraph p s.nodeCount s.ownerReset))

/-- Graph control: a Frozen edge returns to Open. (R334, R395) -/
def execAdminGraphThaw (pasid : Nat) (queue : Nat) (s : State) : Out :=
  .next (s.dispatchAdmin pasid queue 4 4 (fun _ p => s.onGraph p s.edgeCount s.ownerThaw))

def State.doSetPeer (s : State) (_ : QueueRun) (p : Packet) : Did :=
  let ctx := p.field 0
  let i := p.field 1
  if 1024 ≤ i || (s.context ctx).isNone || 2 ^ 16 ≤ p.field 2 || 2 ^ 32 ≤ p.field 4 then .err adminDenied
  else
    let e : Peer := ⟨ctx, i, p.field 2, off (p.field 3), p.field 4⟩
    .ok { s with peers := e :: s.peers.filter (fun x => !(x.ctx = ctx && x.index = i)) }

/-- ADMIN op 5 sets a peer table entry. (R395, R410) -/
def execAdminSetPeer (pasid : Nat) (queue : Nat) (s : State) : Out := .next (s.dispatchAdmin pasid queue 5 0 s.doSetPeer)

def State.doSetClass0Cells (s : State) (_ : QueueRun) (p : Packet) : Did :=
  if 4 ≤ p.field 0 || 32 < p.field 1 then .err adminDenied
  else .ok { s with class0Cells := (p.field 0, p.field 1) :: s.class0Cells.filter (fun e => e.1 ≠ p.field 0) }

/-- ADMIN op 6 sets a die's class-0 cell reservation. (R374, R395) -/
def execAdminSetClass0Cells (pasid : Nat) (queue : Nat) (s : State) : Out :=
  .next (s.dispatchAdmin pasid queue 6 0 s.doSetClass0Cells)

def State.doSetEnergyReserve (s : State) (_ : QueueRun) (p : Packet) : Did :=
  if 250 < p.at 18 2 then .err adminDenied else .ok { s with reservePermille := p.at 18 2 }

/-- ADMIN op 7 sets the class-0 energy reserve size. (R377, R395) -/
def execAdminSetEnergyReserve (pasid : Nat) (queue : Nat) (s : State) : Out :=
  .next (s.dispatchAdmin pasid queue 7 0 s.doSetEnergyReserve)

def State.doSetTierParams (s : State) (_ : QueueRun) (p : Packet) : Did :=
  let st := p.at 17 1
  let low := p.at 18 2
  let high := p.at 20 2
  let th := p.at 22 4
  if liveStacks s.fuses ≤ st || high ≤ low || 500 < high || th = 0 then .err adminDenied
  else .ok { s with tierParams := TierParams.mk st low high th :: s.tierParams.filter (fun t => t.stack ≠ st) }

/-- ADMIN op 8 sets a stack's water marks and promotion threshold. (R234, R395) -/
def execAdminSetTierParams (pasid : Nat) (queue : Nat) (s : State) : Out :=
  .next (s.dispatchAdmin pasid queue 8 0 s.doSetTierParams)

/-- An ADMIN packet of an operation or form that is none of these. -/
def State.rejectAdmin (s : State) (pasid queue : Nat) : State :=
  s.dispatchType pasid queue 8 (fun _ p =>
    if p.op ≤ 8 && (p.op ≠ 2 || p.form ≤ 2) && (p.op ≠ 4 || p.form ≤ 4) then .more s else .err adminDenied)

/-! ### Whichever packet stands at the head (R402) -/

/-- The meanings of the packets, one of which applies. -/
def packetMeanings (pasid queue : Nat) : List (State → Out) :=
  [execInvoke pasid queue, execGraph pasid queue, execIb pasid queue, execFencePacket pasid queue, execSignal pasid queue,
    execSlotLoad pasid queue, execSlotEvict pasid queue, execAdminCreateContext pasid queue, execAdminDestroyContext pasid queue,
    execAdminQueueEnable pasid queue, execAdminQueueResume pasid queue, execAdminQueueDisable pasid queue,
    execAdminShootdown pasid queue, execAdminGraphRetry pasid queue, execAdminGraphSkip pasid queue,
    execAdminGraphCancel pasid queue, execAdminGraphReset pasid queue, execAdminGraphThaw pasid queue,
    execAdminSetPeer pasid queue, execAdminSetClass0Cells pasid queue, execAdminSetEnergyReserve pasid queue,
    execAdminSetTierParams pasid queue]

/-- The number of the meaning that the head packet has. -/
def State.headMeaning (s : State) (r : QueueRun) : Option Nat :=
  match s.headPacket r with
  | none => none
  | some p =>
    if p.error.isSome then none
    else if p.typ ≠ 8 then some (p.typ - 1)
    else
      match p.op with
      | 0 => some 7
      | 1 => some 8
      | 2 => if p.form ≤ 2 then some (9 + p.form) else none
      | 3 => some 12
      | 4 => if p.form ≤ 4 then some (13 + p.form) else none
      | n + 5 => if n ≤ 3 then some (18 + n) else none

/-- The firmware dispatches the packet at the head of a locked queue, or rejects it. -/
def State.dispatch (s : State) (pasid queue : Nat) : Out :=
  match s.queueRun pasid queue with
  | none => .next s
  | some r =>
    match (s.headMeaning r).bind (fun i => (packetMeanings pasid queue)[i]?) with
    | some f => f s
    | none => .next ((s.rejectPacket pasid queue).rejectAdmin pasid queue)

end Sys2Proof.Machine
end

