-- ==== Sys2Proof/Machine/Vector.lean ====
section
/-! DEFINITION. Format V: the vector instructions (R132 to R150) and the vector conversions (R93, R94). Each has a unit, which is what the vector arithmetic engine does with the command, and a meaning, which forwards it. -/

namespace Sys2Proof.Machine

/-- Lane `i` is computed: the word is not masked, or bit `i` of k0 is set (R134). -/
def laneOn (m : BitVec 1) (c : Cell) (i : Nat) : Bool := m = 0 || (c.rk 0).getLsbD i

/-- A destination whose active lanes are `f i` and whose other lanes keep their contents (R134). -/
def writeLanes (m : BitVec 1) (t : BitVec 5) (f : Nat → Lane) (s : State) : EngOut :=
  let c := s.cpu
  let old := c.rv t
  .done (s.setV t (ofLanes (fun i => if laneOn m c i then f i else lane old i)))

/-- Lane by lane from two vector registers. -/
def lanes2 (m : BitVec 1) (b a t : BitVec 5) (f : Lane → Lane → Lane) (s : State) : EngOut :=
  let x := s.cpu.rv a
  let y := s.cpu.rv b
  writeLanes m t (fun i => f (lane x i) (lane y i)) s

/-- Lane by lane from one vector register. -/
def lanes1 (m : BitVec 1) (a t : BitVec 5) (f : Lane → Lane) (s : State) : EngOut :=
  let x := s.cpu.rv a
  writeLanes m t (fun i => f (lane x i)) s

/-- The bits of `f i` for the lowest `n` lanes. -/
def packBits (f : Nat → Bool) : Nat → BitVec 32
  | 0 => 0
  | n + 1 => packBits f n ||| (if f n then 1#32 <<< n else 0)

/-- A mask destination: active lanes get the relation, the others keep their bit (R134, R138). -/
def compare2 (m : BitVec 1) (b a t : BitVec 5) (f : Lane → Lane → Bool) (s : State) : EngOut :=
  let c := s.cpu
  let x := c.rv a
  let y := c.rv b
  let old := c.rk t.toNat
  .done (s.upd (fun c => c.wk t.toNat
    (packBits (fun i => if laneOn m c i then f (lane x i) (lane y i) else old.getLsbD i) 32)))

/-- The upper half of the signed product (R135). -/
def mulHigh (a b : Lane) : Lane := BitVec.ofInt 32 (a.toInt * b.toInt / 2 ^ 32)

/-- FP32 equality and order (R138). -/
def feq (a b : Lane) : Bool :=
  !isNaN32 a && !isNaN32 b && (a == b || (a.toNat % 2 ^ 31 == 0 && b.toNat % 2 ^ 31 == 0))
def flt (a b : Lane) : Bool := !isNaN32 a && !isNaN32 b && fltVal a b

/-- A mask operation (R139). -/
def maskOp (b : BitVec 3) (a t : BitVec 5) (f : BitVec 32 → BitVec 32 → BitVec 32) (s : State) : EngOut :=
  .done (s.upd (fun c => c.wk t.toNat (f (c.rk a.toNat) (c.rk b.toNat))))

/-- The number of 1 bits among the lowest `n`, and the lowest 1 bit of the 32 (R139). -/
def popCount (k : BitVec 32) : Nat → Nat
  | 0 => 0
  | n + 1 => popCount k n + (if k.getLsbD n then 1 else 0)
def firstSet (k : BitVec 32) : Nat := ((List.range 32).find? (fun i => k.getLsbD i)).getD 32

/-- One level of the pairwise tree of R142. -/
def pairUp (f : Lane → Lane → Lane) : List Lane → List Lane
  | a :: b :: rest => f a b :: pairUp f rest
  | l => l

/-- The fixed tree, five levels deep (R142). -/
def reduceTree (f : Lane → Lane → Lane) (l : List Lane) : Lane :=
  ((pairUp f (pairUp f (pairUp f (pairUp f (pairUp f l))))).head?).getD 0

/-- A reduction into lane 0, the other lanes zero (R141). -/
def reduceLanes (m : BitVec 1) (a t : BitVec 5) (unit : Lane) (f : Lane → Lane → Lane) (s : State) : EngOut :=
  let c := s.cpu
  let x := c.rv a
  let r := reduceTree f ((List.range 32).map (fun i => if laneOn m c i then lane x i else unit))
  .done (s.setV t (ofLanes (fun i => if i = 0 then r else 0)))

/-- `⌈v⌉` of a finite value. -/
def ceilVal (neg : Bool) (m : Nat) (e : Int) : Int :=
  let n := m * 2 ^ e.toNat
  let d := 2 ^ (-e).toNat
  if neg then -((n / d : Nat) : Int) else ((n + d - 1) / d : Nat)

/-- A finite value exceeds an integer. -/
def exceeds (neg : Bool) (m : Nat) (e : Int) (k : Int) : Bool :=
  let n : Int := (m * 2 ^ e.toNat : Nat)
  k * 2 ^ (-e).toNat < (if neg then -n else n)

def intVal (k : Int) : FpVal := .fin (k < 0) k.natAbs 0

/-- An FP32 value times a power of two, rounded once (R187). -/
def scaleVal (x : Lane) (e : Int) : Lane :=
  match val32 x with
  | .fin n m f => BitVec.ofNat 32 (roundRat fp32 rne n m 1 (f + clampInt e (-1024) 1024))
  | .nan => canonNaN
  | .inf _ => x

/-- The probability of a live score against the reference exponent (R146). -/
def softProb (x : Lane) (r : Int) : Lane :=
  match (val32 x).add (intVal (-r)) with
  | .nan => canonNaN
  | .inf n => if n then 0 else 0x7F800000#32
  | .fin n m e => exp2Val n m e

/-- The largest finite score of a list, as an FP32 code. -/
def maxFinite : List Lane → Option Lane
  | [] => none
  | x :: rest =>
    match val32 x, maxFinite rest with
    | .fin _ _ _, none => some x
    | .fin _ _ _, some y => if fltVal x y then some y else some x
    | _, r => r

/-- The new reference, sum and rescale exponent of R146 before the probabilities are added. -/
def softRescale (r : Int) (l : Lane) (best : Option Lane) : Int × Lane × Int :=
  match best with
  | none => (r, l, 0)
  | some x =>
    match val32 x with
    | .fin n m e =>
      let c := clampInt (ceilVal n m e) (-(2 ^ 30)) (2 ^ 30)
      if r = -(2 ^ 31) then (c, l, 0)
      else if exceeds n m e (r + 8) then (c, scaleVal l (r - c), r - c)
      else (r, l, 0)
    | _ => (r, l, 0)

/-- `vsmaxacc` (R145, R146). The writes happen in the order of R146's text (DEDUCED, assumption log 18). -/
def softmaxStep (m : BitVec 1) (b a t : BitVec 5) (s : State) : EngOut :=
  let c := s.cpu
  let st := c.rv t
  let sc := c.rv a
  let off := c.rv b
  let lo := (lane st 2).toInt
  let hi := (lane st 3).toInt
  let base := (lane st 4).toInt
  let live (i : Nat) : Bool :=
    let pos := base + (lane off i).toInt
    lo ≤ pos && pos < hi && laneOn m c i
  let scores := ((List.range 32).filter live).map (lane sc)
  let (r, l, e) := softRescale (lane st 0).toInt (lane st 1) (maxFinite scores)
  let p := ofLanes (fun i => if live i then softProb (lane sc i) r else 0)
  let sum := rn32 (sumVals (val32 l :: (List.range 32).map (fun i => val32 (lane p i))))
  let s := s.setV a p
  let s := s.setV t (ofLanes (fun i =>
    if i = 0 then BitVec.ofInt 32 r else if i = 1 then sum else if i = 5 then BitVec.ofInt 32 e
    else lane (s.cpu.rv t) i))
  .done s

/-- Stable insertion of lane number `i` by its key. -/
def insertByKey (key : Nat → Int) (i : Nat) : List Nat → List Nat
  | [] => [i]
  | j :: rest => if key i < key j then i :: j :: rest else j :: insertByKey key i rest

/-- The stable ascending order of the first `n` lanes (R148). -/
def sortOrder (key : Nat → Int) : Nat → List Nat
  | 0 => []
  | n + 1 => insertByKey key n (sortOrder key n)

/-- `vsortkv` (R148). -/
def sortLanes (b a t : BitVec 5) (s : State) : EngOut :=
  let keys := s.cpu.rv a
  let vals := s.cpu.rv b
  let order := sortOrder (fun i => (lane keys i).toInt) 32
  let s := s.setV b (ofLanes (fun j => lane vals (order.getD j 0)))
  .done (s.setV t (ofLanes (fun j => lane keys (order.getD j 0))))

/-- The magnitude that orders the lanes of vsppack: a NaN counts as largest (R150). -/
def packRank (x : Lane) : Nat := if isNaN32 x then 0xFFFFFFFF else x.toNat % 2 ^ 31

/-- The lane is among the `n` kept of the 24: fewer than `n` lanes rank above it, ties going to the lower lane. -/
def keptLane (v : VReg) (n i : Nat) : Bool :=
  let r := packRank (lane v i)
  ((List.range 24).filter (fun j => r < packRank (lane v j) || (packRank (lane v j) = r && j < i))).length < n

/-- The metadata string of the kept lanes, 5 bits each, from the first up. -/
def packPositions : List Nat → Nat
  | [] => 0
  | p :: rest => p + 32 * packPositions rest

/-- `vsppack` (R150). -/
def sparsePack (n : Nat) (a t : BitVec 5) (s : State) : EngOut :=
  let v := s.cpu.rv a
  let kept := (List.range 24).filter (keptLane v n)
  let bits := packPositions kept
  .done (s.setV t (ofLanes (fun j =>
    if j < n then lane v (kept.getD j 0)
    else if 24 ≤ j && j < 27 then BitVec.ofNat 32 (bits / 2 ^ (32 * (j - 24)))
    else 0)))

/-- Code `i` of a register that holds codes of `w` bits (R93). -/
def codeAt (v : VReg) (w i : Nat) : Nat := v.toNat / 2 ^ (w * i) % 2 ^ w

/-- The register with the first `n` codes replaced where `on` holds. -/
def putCodes (w : Nat) (old : VReg) (on : Nat → Bool) (f : Nat → Nat) : Nat → Nat
  | 0 => 0
  | n + 1 => putCodes w old on f n + (if on n then f n % 2 ^ w else codeAt old w n) * 2 ^ (w * n)

/-- `vcvtn` (R93): `aux` holds the descriptor in [31:0] and vrm in [35:32], as program order fixed them (R83). -/
def narrowLanes (m : BitVec 1) (a t : BitVec 5) (aux : Word) (s : State) : EngOut :=
  let c := s.cpu
  match decodeDesc (aux.extractLsb' 0 32) with
  | none => .done s
  | some f =>
    let w := f.width
    let mode := RMode.ofBits (aux.extractLsb' 32 4)
    let src := c.rv a
    let old := c.rv t
    let low := putCodes w old (laneOn m c) (fun i => roundCode f mode (lane src i)) 32
    let high := if m = 0 then 0 else old.toNat / 2 ^ (32 * w) * 2 ^ (32 * w)
    .done (s.setV t (BitVec.ofNat 1024 (low + high)))

/-- `vcvtw` (R93). -/
def widenLanes (m : BitVec 1) (a t : BitVec 5) (aux : Word) (s : State) : EngOut :=
  match decodeDesc (aux.extractLsb' 0 32) with
  | none => .done s
  | some f =>
    let src := s.cpu.rv a
    writeLanes m t (fun i => widen f (codeAt src f.width i)) s

/-- One lane of `vcvtif` (R94). -/
def fixedToFloat (imm : BitVec 5) (mode : RMode) (x : Lane) : Lane :=
  let n : Int := if imm.getLsbD 4 then (x.extractLsb' 0 8).toInt else x.toInt
  let f : Int := (imm.extractLsb' 0 4).toNat
  BitVec.ofNat 32 (roundRat fp32 mode (n < 0) n.natAbs 1 (-f))

/-- One lane of `vcvtfi` (R94). -/
def floatToFixed (imm : BitVec 5) (mode : RMode) (x : Lane) : Lane :=
  let f : Int := (imm.extractLsb' 0 4).toNat
  let lo : Int := if imm.getLsbD 4 then -128 else -(2 ^ 31)
  let hi : Int := if imm.getLsbD 4 then 127 else 2 ^ 31 - 1
  match val32 x with
  | .nan => 0
  | .inf n => BitVec.ofInt 32 (if n then lo else hi)
  | .fin n m e => BitVec.ofInt 32 (clampInt (roundInt mode n m (e + f)) lo hi)

/-- The descriptor and vrm that a conversion captures (R83). -/
def Cell.convAux (c : Cell) (f : BitVec 5) : Word :=
  (0#28 ++ c.vrm.extractLsb' 0 4 ++ c.fm[mod16 f.toNat])

/-- Lane-wise 32-bit add, wrapping. (R135) -/
def unitVadd (m : BitVec 1) (b : BitVec 5) (a : BitVec 5) (d : BitVec 5) (_ : Cmd) (s : State) : EngOut :=
  lanes2 m b a d (fun x y => x + y) s

/-- vadd is forwarded to the vector arithmetic queue (R95, R132). -/
def execVadd (m : BitVec 1) (b : BitVec 5) (a : BitVec 5) (d : BitVec 5) (r : BitVec 3) (s : State) : Out :=
  vectorWord (.vadd m b a d r) r [a, b, d] [] 0 0 0
    (unitVadd m b a d) s

/-- Lane-wise 32-bit subtract. (R135) -/
def unitVsub (m : BitVec 1) (b : BitVec 5) (a : BitVec 5) (d : BitVec 5) (_ : Cmd) (s : State) : EngOut :=
  lanes2 m b a d (fun x y => x - y) s

/-- vsub is forwarded to the vector arithmetic queue (R95, R132). -/
def execVsub (m : BitVec 1) (b : BitVec 5) (a : BitVec 5) (d : BitVec 5) (r : BitVec 3) (s : State) : Out :=
  vectorWord (.vsub m b a d r) r [a, b, d] [] 0 0 0
    (unitVsub m b a d) s

/-- Lane-wise signed multiply, low 32 bits. (R135) -/
def unitVmul (m : BitVec 1) (b : BitVec 5) (a : BitVec 5) (d : BitVec 5) (_ : Cmd) (s : State) : EngOut :=
  lanes2 m b a d (fun x y => x * y) s

/-- vmul is forwarded to the vector arithmetic queue (R95, R132). -/
def execVmul (m : BitVec 1) (b : BitVec 5) (a : BitVec 5) (d : BitVec 5) (r : BitVec 3) (s : State) : Out :=
  vectorWord (.vmul m b a d r) r [a, b, d] [] 0 0 0
    (unitVmul m b a d) s

/-- Lane-wise signed multiply, high 32 bits. (R135) -/
def unitVmulh (m : BitVec 1) (b : BitVec 5) (a : BitVec 5) (d : BitVec 5) (_ : Cmd) (s : State) : EngOut :=
  lanes2 m b a d mulHigh s

/-- vmulh is forwarded to the vector arithmetic queue (R95, R132). -/
def execVmulh (m : BitVec 1) (b : BitVec 5) (a : BitVec 5) (d : BitVec 5) (r : BitVec 3) (s : State) : Out :=
  vectorWord (.vmulh m b a d r) r [a, b, d] [] 0 0 0
    (unitVmulh m b a d) s

/-- Lane-wise and. (R135) -/
def unitVand (m : BitVec 1) (b : BitVec 5) (a : BitVec 5) (d : BitVec 5) (_ : Cmd) (s : State) : EngOut :=
  lanes2 m b a d (fun x y => x &&& y) s

/-- vand is forwarded to the vector arithmetic queue (R95, R132). -/
def execVand (m : BitVec 1) (b : BitVec 5) (a : BitVec 5) (d : BitVec 5) (r : BitVec 3) (s : State) : Out :=
  vectorWord (.vand m b a d r) r [a, b, d] [] 0 0 0
    (unitVand m b a d) s

/-- Lane-wise or. (R135) -/
def unitVor (m : BitVec 1) (b : BitVec 5) (a : BitVec 5) (d : BitVec 5) (_ : Cmd) (s : State) : EngOut :=
  lanes2 m b a d (fun x y => x ||| y) s

/-- vor is forwarded to the vector arithmetic queue (R95, R132). -/
def execVor (m : BitVec 1) (b : BitVec 5) (a : BitVec 5) (d : BitVec 5) (r : BitVec 3) (s : State) : Out :=
  vectorWord (.vor m b a d r) r [a, b, d] [] 0 0 0
    (unitVor m b a d) s

/-- Lane-wise xor. (R135) -/
def unitVxor (m : BitVec 1) (b : BitVec 5) (a : BitVec 5) (d : BitVec 5) (_ : Cmd) (s : State) : EngOut :=
  lanes2 m b a d (fun x y => x ^^^ y) s

/-- vxor is forwarded to the vector arithmetic queue (R95, R132). -/
def execVxor (m : BitVec 1) (b : BitVec 5) (a : BitVec 5) (d : BitVec 5) (r : BitVec 3) (s : State) : Out :=
  vectorWord (.vxor m b a d r) r [a, b, d] [] 0 0 0
    (unitVxor m b a d) s

/-- Lane-wise shift left logical. (R135) -/
def unitVsll (m : BitVec 1) (b : BitVec 5) (a : BitVec 5) (d : BitVec 5) (_ : Cmd) (s : State) : EngOut :=
  lanes2 m b a d (fun x y => x <<< (y.toNat % 32)) s

/-- vsll is forwarded to the vector arithmetic queue (R95, R132). -/
def execVsll (m : BitVec 1) (b : BitVec 5) (a : BitVec 5) (d : BitVec 5) (r : BitVec 3) (s : State) : Out :=
  vectorWord (.vsll m b a d r) r [a, b, d] [] 0 0 0
    (unitVsll m b a d) s

/-- Lane-wise shift right logical. (R135) -/
def unitVsrl (m : BitVec 1) (b : BitVec 5) (a : BitVec 5) (d : BitVec 5) (_ : Cmd) (s : State) : EngOut :=
  lanes2 m b a d (fun x y => x >>> (y.toNat % 32)) s

/-- vsrl is forwarded to the vector arithmetic queue (R95, R132). -/
def execVsrl (m : BitVec 1) (b : BitVec 5) (a : BitVec 5) (d : BitVec 5) (r : BitVec 3) (s : State) : Out :=
  vectorWord (.vsrl m b a d r) r [a, b, d] [] 0 0 0
    (unitVsrl m b a d) s

/-- Lane-wise shift right arithmetic. (R135) -/
def unitVsra (m : BitVec 1) (b : BitVec 5) (a : BitVec 5) (d : BitVec 5) (_ : Cmd) (s : State) : EngOut :=
  lanes2 m b a d (fun x y => x.sshiftRight (y.toNat % 32)) s

/-- vsra is forwarded to the vector arithmetic queue (R95, R132). -/
def execVsra (m : BitVec 1) (b : BitVec 5) (a : BitVec 5) (d : BitVec 5) (r : BitVec 3) (s : State) : Out :=
  vectorWord (.vsra m b a d r) r [a, b, d] [] 0 0 0
    (unitVsra m b a d) s

/-- Lane-wise signed minimum. (R135) -/
def unitVmin (m : BitVec 1) (b : BitVec 5) (a : BitVec 5) (d : BitVec 5) (_ : Cmd) (s : State) : EngOut :=
  lanes2 m b a d (fun x y => if x.toInt < y.toInt then x else y) s

/-- vmin is forwarded to the vector arithmetic queue (R95, R132). -/
def execVmin (m : BitVec 1) (b : BitVec 5) (a : BitVec 5) (d : BitVec 5) (r : BitVec 3) (s : State) : Out :=
  vectorWord (.vmin m b a d r) r [a, b, d] [] 0 0 0
    (unitVmin m b a d) s

/-- Lane-wise signed maximum. (R135) -/
def unitVmax (m : BitVec 1) (b : BitVec 5) (a : BitVec 5) (d : BitVec 5) (_ : Cmd) (s : State) : EngOut :=
  lanes2 m b a d (fun x y => if x.toInt < y.toInt then y else x) s

/-- vmax is forwarded to the vector arithmetic queue (R95, R132). -/
def execVmax (m : BitVec 1) (b : BitVec 5) (a : BitVec 5) (d : BitVec 5) (r : BitVec 3) (s : State) : Out :=
  vectorWord (.vmax m b a d r) r [a, b, d] [] 0 0 0
    (unitVmax m b a d) s

/-- Lane-wise unsigned minimum. (R135) -/
def unitVminu (m : BitVec 1) (b : BitVec 5) (a : BitVec 5) (d : BitVec 5) (_ : Cmd) (s : State) : EngOut :=
  lanes2 m b a d (fun x y => if x.toNat < y.toNat then x else y) s

/-- vminu is forwarded to the vector arithmetic queue (R95, R132). -/
def execVminu (m : BitVec 1) (b : BitVec 5) (a : BitVec 5) (d : BitVec 5) (r : BitVec 3) (s : State) : Out :=
  vectorWord (.vminu m b a d r) r [a, b, d] [] 0 0 0
    (unitVminu m b a d) s

/-- Lane-wise unsigned maximum. (R135) -/
def unitVmaxu (m : BitVec 1) (b : BitVec 5) (a : BitVec 5) (d : BitVec 5) (_ : Cmd) (s : State) : EngOut :=
  lanes2 m b a d (fun x y => if x.toNat < y.toNat then y else x) s

/-- vmaxu is forwarded to the vector arithmetic queue (R95, R132). -/
def execVmaxu (m : BitVec 1) (b : BitVec 5) (a : BitVec 5) (d : BitVec 5) (r : BitVec 3) (s : State) : Out :=
  vectorWord (.vmaxu m b a d r) r [a, b, d] [] 0 0 0
    (unitVmaxu m b a d) s

/-- Adds the low word of a scalar register to every lane. (R135) -/
def unitVaddx (m : BitVec 1) (a : BitVec 5) (d : BitVec 5) (w : Cmd) (s : State) : EngOut :=
  lanes1 m a d (fun x => x + w.op1.extractLsb' 0 32) s

/-- vaddx is forwarded to the vector arithmetic queue (R95, R132). -/
def execVaddx (m : BitVec 1) (b : BitVec 5) (a : BitVec 5) (d : BitVec 5) (r : BitVec 3) (s : State) : Out :=
  vectorWord (.vaddx m b a d r) r [a, d] [b] 0 (s.x b) 0
    (unitVaddx m a d) s

/-- Writes X(rs1) + i × imm5 into each lane i. (R135) -/
def unitViota (m : BitVec 1) (i : BitVec 5) (d : BitVec 5) (w : Cmd) (s : State) : EngOut :=
  writeLanes m d (fun n => (w.op0 + BitVec.ofNat 64 (n * i.toNat)).extractLsb' 0 32) s

/-- viota is forwarded to the vector arithmetic queue (R95, R132). -/
def execViota (m : BitVec 1) (i : BitVec 5) (a : BitVec 5) (d : BitVec 5) (r : BitVec 3) (s : State) : Out :=
  vectorWord (.viota m i a d r) r [d] [a] (s.x a) 0 0
    (unitViota m i d) s

/-- Lane-wise FP32 add, rounded once with RNE. (R136) -/
def unitVfadd (m : BitVec 1) (b : BitVec 5) (a : BitVec 5) (d : BitVec 5) (_ : Cmd) (s : State) : EngOut :=
  lanes2 m b a d fadd s

/-- vfadd is forwarded to the vector arithmetic queue (R95, R132). -/
def execVfadd (m : BitVec 1) (b : BitVec 5) (a : BitVec 5) (d : BitVec 5) (r : BitVec 3) (s : State) : Out :=
  vectorWord (.vfadd m b a d r) r [a, b, d] [] 0 0 0
    (unitVfadd m b a d) s

/-- Lane-wise FP32 subtract. (R136) -/
def unitVfsub (m : BitVec 1) (b : BitVec 5) (a : BitVec 5) (d : BitVec 5) (_ : Cmd) (s : State) : EngOut :=
  lanes2 m b a d fsub s

/-- vfsub is forwarded to the vector arithmetic queue (R95, R132). -/
def execVfsub (m : BitVec 1) (b : BitVec 5) (a : BitVec 5) (d : BitVec 5) (r : BitVec 3) (s : State) : Out :=
  vectorWord (.vfsub m b a d r) r [a, b, d] [] 0 0 0
    (unitVfsub m b a d) s

/-- Lane-wise FP32 multiply. (R136) -/
def unitVfmul (m : BitVec 1) (b : BitVec 5) (a : BitVec 5) (d : BitVec 5) (_ : Cmd) (s : State) : EngOut :=
  lanes2 m b a d fmul s

/-- vfmul is forwarded to the vector arithmetic queue (R95, R132). -/
def execVfmul (m : BitVec 1) (b : BitVec 5) (a : BitVec 5) (d : BitVec 5) (r : BitVec 3) (s : State) : Out :=
  vectorWord (.vfmul m b a d r) r [a, b, d] [] 0 0 0
    (unitVfmul m b a d) s

/-- Lane-wise fused multiply-add into the old vd, one rounding. (R136) -/
def unitVfma (m : BitVec 1) (b : BitVec 5) (a : BitVec 5) (d : BitVec 5) (_ : Cmd) (s : State) : EngOut :=
  let z := s.cpu.rv d
  let x := s.cpu.rv a
  let y := s.cpu.rv b
  writeLanes m d (fun i => ffma (lane x i) (lane y i) (lane z i)) s

/-- vfma is forwarded to the vector arithmetic queue (R95, R132). -/
def execVfma (m : BitVec 1) (b : BitVec 5) (a : BitVec 5) (d : BitVec 5) (r : BitVec 3) (s : State) : Out :=
  vectorWord (.vfma m b a d r) r [a, b, d] [] 0 0 0
    (unitVfma m b a d) s

/-- Lane-wise FP32 minimum, returning the non-NaN operand. (R136) -/
def unitVfmin (m : BitVec 1) (b : BitVec 5) (a : BitVec 5) (d : BitVec 5) (_ : Cmd) (s : State) : EngOut :=
  lanes2 m b a d fminOne s

/-- vfmin is forwarded to the vector arithmetic queue (R95, R132). -/
def execVfmin (m : BitVec 1) (b : BitVec 5) (a : BitVec 5) (d : BitVec 5) (r : BitVec 3) (s : State) : Out :=
  vectorWord (.vfmin m b a d r) r [a, b, d] [] 0 0 0
    (unitVfmin m b a d) s

/-- Lane-wise FP32 maximum, returning the non-NaN operand. (R136) -/
def unitVfmax (m : BitVec 1) (b : BitVec 5) (a : BitVec 5) (d : BitVec 5) (_ : Cmd) (s : State) : EngOut :=
  lanes2 m b a d fmaxOne s

/-- vfmax is forwarded to the vector arithmetic queue (R95, R132). -/
def execVfmax (m : BitVec 1) (b : BitVec 5) (a : BitVec 5) (d : BitVec 5) (r : BitVec 3) (s : State) : Out :=
  vectorWord (.vfmax m b a d r) r [a, b, d] [] 0 0 0
    (unitVfmax m b a d) s

/-- Correctly rounded 2^a per lane. (R137) -/
def unitVfexp2 (m : BitVec 1) (a : BitVec 5) (d : BitVec 5) (_ : Cmd) (s : State) : EngOut :=
  lanes1 m a d fexp2 s

/-- vfexp2 is forwarded to the vector arithmetic queue (R95, R132). -/
def execVfexp2 (m : BitVec 1) (a : BitVec 5) (d : BitVec 5) (r : BitVec 3) (s : State) : Out :=
  vectorWord (.vfexp2 m a d r) r [a, d] [] 0 0 0
    (unitVfexp2 m a d) s

/-- Correctly rounded reciprocal per lane. (R137) -/
def unitVfrcp (m : BitVec 1) (a : BitVec 5) (d : BitVec 5) (_ : Cmd) (s : State) : EngOut :=
  lanes1 m a d frcp s

/-- vfrcp is forwarded to the vector arithmetic queue (R95, R132). -/
def execVfrcp (m : BitVec 1) (a : BitVec 5) (d : BitVec 5) (r : BitVec 3) (s : State) : Out :=
  vectorWord (.vfrcp m a d r) r [a, d] [] 0 0 0
    (unitVfrcp m a d) s

/-- Correctly rounded reciprocal square root per lane. (R137) -/
def unitVfrsqrt (m : BitVec 1) (a : BitVec 5) (d : BitVec 5) (_ : Cmd) (s : State) : EngOut :=
  lanes1 m a d frsqrt s

/-- vfrsqrt is forwarded to the vector arithmetic queue (R95, R132). -/
def execVfrsqrt (m : BitVec 1) (a : BitVec 5) (d : BitVec 5) (r : BitVec 3) (s : State) : Out :=
  vectorWord (.vfrsqrt m a d r) r [a, d] [] 0 0 0
    (unitVfrsqrt m a d) s

/-- Correctly rounded log2 per lane. (R137) -/
def unitVflog2 (m : BitVec 1) (a : BitVec 5) (d : BitVec 5) (_ : Cmd) (s : State) : EngOut :=
  lanes1 m a d flog2 s

/-- vflog2 is forwarded to the vector arithmetic queue (R95, R132). -/
def execVflog2 (m : BitVec 1) (a : BitVec 5) (d : BitVec 5) (r : BitVec 3) (s : State) : Out :=
  vectorWord (.vflog2 m a d r) r [a, d] [] 0 0 0
    (unitVflog2 m a d) s

/-- Multiplies every lane by the FP32 value of a scalar register. (R136) -/
def unitVfmulx (m : BitVec 1) (a : BitVec 5) (d : BitVec 5) (w : Cmd) (s : State) : EngOut :=
  lanes1 m a d (fun x => fmul x (w.op1.extractLsb' 0 32)) s

/-- vfmulx is forwarded to the vector arithmetic queue (R95, R132). -/
def execVfmulx (m : BitVec 1) (b : BitVec 5) (a : BitVec 5) (d : BitVec 5) (r : BitVec 3) (s : State) : Out :=
  vectorWord (.vfmulx m b a d r) r [a, d] [b] 0 (s.x b) 0
    (unitVfmulx m a d) s

/-- Adds the FP32 value of a scalar register to every lane. (R136) -/
def unitVfaddx (m : BitVec 1) (a : BitVec 5) (d : BitVec 5) (w : Cmd) (s : State) : EngOut :=
  lanes1 m a d (fun x => fadd x (w.op1.extractLsb' 0 32)) s

/-- vfaddx is forwarded to the vector arithmetic queue (R95, R132). -/
def execVfaddx (m : BitVec 1) (b : BitVec 5) (a : BitVec 5) (d : BitVec 5) (r : BitVec 3) (s : State) : Out :=
  vectorWord (.vfaddx m b a d r) r [a, d] [b] 0 (s.x b) 0
    (unitVfaddx m a d) s

/-- Sets a mask bit per lane where the 32-bit patterns are equal. (R138) -/
def unitVcmpeq (m : BitVec 1) (b : BitVec 5) (a : BitVec 5) (d : BitVec 5) (_ : Cmd) (s : State) : EngOut :=
  compare2 m b a d (fun x y => x == y) s

/-- vcmpeq is forwarded to the vector arithmetic queue (R95, R132). -/
def execVcmpeq (m : BitVec 1) (b : BitVec 5) (a : BitVec 5) (d : BitVec 5) (r : BitVec 3) (s : State) : Out :=
  vectorWord (.vcmpeq m b a d r) r [a, b] [] 0 0 0
    (unitVcmpeq m b a d) s

/-- Sets a mask bit per lane where a < b signed. (R138) -/
def unitVcmplt (m : BitVec 1) (b : BitVec 5) (a : BitVec 5) (d : BitVec 5) (_ : Cmd) (s : State) : EngOut :=
  compare2 m b a d (fun x y => x.toInt < y.toInt) s

/-- vcmplt is forwarded to the vector arithmetic queue (R95, R132). -/
def execVcmplt (m : BitVec 1) (b : BitVec 5) (a : BitVec 5) (d : BitVec 5) (r : BitVec 3) (s : State) : Out :=
  vectorWord (.vcmplt m b a d r) r [a, b] [] 0 0 0
    (unitVcmplt m b a d) s

/-- Sets a mask bit per lane where a < b unsigned. (R138) -/
def unitVcmpltu (m : BitVec 1) (b : BitVec 5) (a : BitVec 5) (d : BitVec 5) (_ : Cmd) (s : State) : EngOut :=
  compare2 m b a d (fun x y => x.toNat < y.toNat) s

/-- vcmpltu is forwarded to the vector arithmetic queue (R95, R132). -/
def execVcmpltu (m : BitVec 1) (b : BitVec 5) (a : BitVec 5) (d : BitVec 5) (r : BitVec 3) (s : State) : Out :=
  vectorWord (.vcmpltu m b a d r) r [a, b] [] 0 0 0
    (unitVcmpltu m b a d) s

/-- Sets a mask bit per lane where a = b as FP32. (R138) -/
def unitVfcmpeq (m : BitVec 1) (b : BitVec 5) (a : BitVec 5) (d : BitVec 5) (_ : Cmd) (s : State) : EngOut :=
  compare2 m b a d (feq) s

/-- vfcmpeq is forwarded to the vector arithmetic queue (R95, R132). -/
def execVfcmpeq (m : BitVec 1) (b : BitVec 5) (a : BitVec 5) (d : BitVec 5) (r : BitVec 3) (s : State) : Out :=
  vectorWord (.vfcmpeq m b a d r) r [a, b] [] 0 0 0
    (unitVfcmpeq m b a d) s

/-- Sets a mask bit per lane where a < b as FP32. (R138) -/
def unitVfcmplt (m : BitVec 1) (b : BitVec 5) (a : BitVec 5) (d : BitVec 5) (_ : Cmd) (s : State) : EngOut :=
  compare2 m b a d (flt) s

/-- vfcmplt is forwarded to the vector arithmetic queue (R95, R132). -/
def execVfcmplt (m : BitVec 1) (b : BitVec 5) (a : BitVec 5) (d : BitVec 5) (r : BitVec 3) (s : State) : Out :=
  vectorWord (.vfcmplt m b a d r) r [a, b] [] 0 0 0
    (unitVfcmplt m b a d) s

/-- Mask register and. (R139) -/
def unitKopAnd (b : BitVec 3) (a : BitVec 5) (d : BitVec 5) (_ : Cmd) (s : State) : EngOut :=
  maskOp b a d (fun x y => x &&& y) s

/-- kop.and is forwarded to the vector arithmetic queue (R95, R132). -/
def execKopAnd (b : BitVec 3) (a : BitVec 5) (d : BitVec 5) (r : BitVec 3) (s : State) : Out :=
  vectorWord (.kopAnd b a d r) r [] [] 0 0 0
    (unitKopAnd b a d) s

/-- Mask register or. (R139) -/
def unitKopOr (b : BitVec 3) (a : BitVec 5) (d : BitVec 5) (_ : Cmd) (s : State) : EngOut :=
  maskOp b a d (fun x y => x ||| y) s

/-- kop.or is forwarded to the vector arithmetic queue (R95, R132). -/
def execKopOr (b : BitVec 3) (a : BitVec 5) (d : BitVec 5) (r : BitVec 3) (s : State) : Out :=
  vectorWord (.kopOr b a d r) r [] [] 0 0 0
    (unitKopOr b a d) s

/-- Mask register xor. (R139) -/
def unitKopXor (b : BitVec 3) (a : BitVec 5) (d : BitVec 5) (_ : Cmd) (s : State) : EngOut :=
  maskOp b a d (fun x y => x ^^^ y) s

/-- kop.xor is forwarded to the vector arithmetic queue (R95, R132). -/
def execKopXor (b : BitVec 3) (a : BitVec 5) (d : BitVec 5) (r : BitVec 3) (s : State) : Out :=
  vectorWord (.kopXor b a d r) r [] [] 0 0 0
    (unitKopXor b a d) s

/-- Mask register and-not. (R139) -/
def unitKopAndn (b : BitVec 3) (a : BitVec 5) (d : BitVec 5) (_ : Cmd) (s : State) : EngOut :=
  maskOp b a d (fun x y => x &&& ~~~y) s

/-- kop.andn is forwarded to the vector arithmetic queue (R95, R132). -/
def execKopAndn (b : BitVec 3) (a : BitVec 5) (d : BitVec 5) (r : BitVec 3) (s : State) : Out :=
  vectorWord (.kopAndn b a d r) r [] [] 0 0 0
    (unitKopAndn b a d) s

/-- Writes the population count of a mask register to rd. (R139) -/
def unitKpop (a : BitVec 5) (d : BitVec 5) (_ : Cmd) (s : State) : EngOut :=
  .done (s.setX d (BitVec.ofNat 64 (popCount (s.cpu.rk a.toNat) 32)))

/-- kpop is forwarded to the vector arithmetic queue (R95, R132). -/
def execKpop (a : BitVec 5) (d : BitVec 5) (r : BitVec 3) (s : State) : Out :=
  vectorWord (.kpop a d r) r [] [d] 0 0 0
    (unitKpop a d) s

/-- Writes the index of the lowest set mask bit, or 32. (R139) -/
def unitKpopFirst (a : BitVec 5) (d : BitVec 5) (_ : Cmd) (s : State) : EngOut :=
  .done (s.setX d (BitVec.ofNat 64 (firstSet (s.cpu.rk a.toNat))))

/-- kpop.first is forwarded to the vector arithmetic queue (R95, R132). -/
def execKpopFirst (a : BitVec 5) (d : BitVec 5) (r : BitVec 3) (s : State) : Out :=
  vectorWord (.kpopFirst a d r) r [] [d] 0 0 0
    (unitKpopFirst a d) s

/-- Selects lanes from vs1 or vs2 under k0. (R140) -/
def unitVsel (b : BitVec 5) (a : BitVec 5) (d : BitVec 5) (_ : Cmd) (s : State) : EngOut :=
  let c := s.cpu
  .done (s.setV d (ofLanes (fun i => if (c.rk 0).getLsbD i then lane (c.rv a) i else lane (c.rv b) i)))

/-- vsel is forwarded to the vector arithmetic queue (R95, R132). -/
def execVsel (b : BitVec 5) (a : BitVec 5) (d : BitVec 5) (r : BitVec 3) (s : State) : Out :=
  vectorWord (.vsel b a d r) r [a, b, d] [] 0 0 0
    (unitVsel b a d) s

/-- Narrows 32 FP32 lanes to the format of a format register, rounding with vrm. (R93) -/
def unitVcvtn (m : BitVec 1) (a : BitVec 5) (d : BitVec 5) (w : Cmd) (s : State) : EngOut :=
  narrowLanes m a d w.aux s

/-- vcvtn is forwarded to the vector arithmetic queue (R95, R132). -/
def execVcvtn (m : BitVec 1) (f : BitVec 5) (a : BitVec 5) (d : BitVec 5) (r : BitVec 3) (s : State) : Out :=
  vectorWord (.vcvtn m f a d r) r [a, d] [] 0 0 (s.cpu.convAux f)
    (unitVcvtn m a d) s

/-- Widens codes of a format register's format to 32 FP32 lanes exactly. (R93) -/
def unitVcvtw (m : BitVec 1) (a : BitVec 5) (d : BitVec 5) (w : Cmd) (s : State) : EngOut :=
  widenLanes m a d w.aux s

/-- vcvtw is forwarded to the vector arithmetic queue (R95, R132). -/
def execVcvtw (m : BitVec 1) (f : BitVec 5) (a : BitVec 5) (d : BitVec 5) (r : BitVec 3) (s : State) : Out :=
  vectorWord (.vcvtw m f a d r) r [a, d] [] 0 0 (s.cpu.convAux f)
    (unitVcvtw m a d) s

/-- Converts fixed-point integers to FP32 with vrm. (R94) -/
def unitVcvtif (m : BitVec 1) (i : BitVec 5) (a : BitVec 5) (d : BitVec 5) (w : Cmd) (s : State) : EngOut :=
  lanes1 m a d (fixedToFloat i (RMode.ofBits (w.aux.extractLsb' 0 4))) s

/-- vcvtif is forwarded to the vector arithmetic queue (R95, R132). -/
def execVcvtif (m : BitVec 1) (i : BitVec 5) (a : BitVec 5) (d : BitVec 5) (r : BitVec 3) (s : State) : Out :=
  vectorWord (.vcvtif m i a d r) r [a, d] [] 0 0 s.cpu.vrm
    (unitVcvtif m i a d) s

/-- Converts FP32 to saturated fixed-point integers. (R94) -/
def unitVcvtfi (m : BitVec 1) (i : BitVec 5) (a : BitVec 5) (d : BitVec 5) (w : Cmd) (s : State) : EngOut :=
  lanes1 m a d (floatToFixed i (RMode.ofBits (w.aux.extractLsb' 0 4))) s

/-- vcvtfi is forwarded to the vector arithmetic queue (R95, R132). -/
def execVcvtfi (m : BitVec 1) (i : BitVec 5) (a : BitVec 5) (d : BitVec 5) (r : BitVec 3) (s : State) : Out :=
  vectorWord (.vcvtfi m i a d r) r [a, d] [] 0 0 s.cpu.vrm
    (unitVcvtfi m i a d) s

/-- FP32 sum of 32 lanes by the fixed pairwise tree into lane 0. (R141) -/
def unitVredsum (m : BitVec 1) (a : BitVec 5) (d : BitVec 5) (_ : Cmd) (s : State) : EngOut :=
  reduceLanes m a d 0x80000000#32 (fadd) s

/-- vredsum is forwarded to the vector arithmetic queue (R95, R132). -/
def execVredsum (m : BitVec 1) (a : BitVec 5) (d : BitVec 5) (r : BitVec 3) (s : State) : Out :=
  vectorWord (.vredsum m a d r) r [a, d] [] 0 0 0
    (unitVredsum m a d) s

/-- Int32 wrapping sum of 32 lanes into lane 0. (R141) -/
def unitVredsumI32 (m : BitVec 1) (a : BitVec 5) (d : BitVec 5) (_ : Cmd) (s : State) : EngOut :=
  reduceLanes m a d 0 (fun x y => x + y) s

/-- vredsum.i32 is forwarded to the vector arithmetic queue (R95, R132). -/
def execVredsumI32 (m : BitVec 1) (a : BitVec 5) (d : BitVec 5) (r : BitVec 3) (s : State) : Out :=
  vectorWord (.vredsumI32 m a d r) r [a, d] [] 0 0 0
    (unitVredsumI32 m a d) s

/-- FP32 maximum of 32 lanes, propagating NaN. (R141) -/
def unitVredmax (m : BitVec 1) (a : BitVec 5) (d : BitVec 5) (_ : Cmd) (s : State) : EngOut :=
  reduceLanes m a d 0xFF800000#32 (fmaxNaN) s

/-- vredmax is forwarded to the vector arithmetic queue (R95, R132). -/
def execVredmax (m : BitVec 1) (a : BitVec 5) (d : BitVec 5) (r : BitVec 3) (s : State) : Out :=
  vectorWord (.vredmax m a d r) r [a, d] [] 0 0 0
    (unitVredmax m a d) s

/-- Signed int32 maximum of 32 lanes. (R141) -/
def unitVredmaxI32 (m : BitVec 1) (a : BitVec 5) (d : BitVec 5) (_ : Cmd) (s : State) : EngOut :=
  reduceLanes m a d 0x80000000#32 (fun x y => if x.toInt < y.toInt then y else x) s

/-- vredmax.i32 is forwarded to the vector arithmetic queue (R95, R132). -/
def execVredmaxI32 (m : BitVec 1) (a : BitVec 5) (d : BitVec 5) (r : BitVec 3) (s : State) : Out :=
  vectorWord (.vredmaxI32 m a d r) r [a, d] [] 0 0 0
    (unitVredmaxI32 m a d) s

/-- FP32 minimum of 32 lanes, propagating NaN. (R141) -/
def unitVredmin (m : BitVec 1) (a : BitVec 5) (d : BitVec 5) (_ : Cmd) (s : State) : EngOut :=
  reduceLanes m a d 0x7F800000#32 (fminNaN) s

/-- vredmin is forwarded to the vector arithmetic queue (R95, R132). -/
def execVredmin (m : BitVec 1) (a : BitVec 5) (d : BitVec 5) (r : BitVec 3) (s : State) : Out :=
  vectorWord (.vredmin m a d r) r [a, d] [] 0 0 0
    (unitVredmin m a d) s

/-- Signed int32 minimum of 32 lanes. (R141) -/
def unitVredminI32 (m : BitVec 1) (a : BitVec 5) (d : BitVec 5) (_ : Cmd) (s : State) : EngOut :=
  reduceLanes m a d 0x7FFFFFFF#32 (fun x y => if y.toInt < x.toInt then y else x) s

/-- vredmin.i32 is forwarded to the vector arithmetic queue (R95, R132). -/
def execVredminI32 (m : BitVec 1) (a : BitVec 5) (d : BitVec 5) (r : BitVec 3) (s : State) : Out :=
  vectorWord (.vredminI32 m a d r) r [a, d] [] 0 0 0
    (unitVredminI32 m a d) s

/-- Slides lanes by a signed scalar offset, filling with zero. (R143) -/
def unitVslide (m : BitVec 1) (a : BitVec 5) (d : BitVec 5) (w : Cmd) (s : State) : EngOut :=
  let x := s.cpu.rv a
  let o := w.op1.toInt
  writeLanes m d (fun i => if 0 ≤ (i : Int) + o && (i : Int) + o ≤ 31 then lane x ((i : Int) + o).toNat else 0) s

/-- vslide is forwarded to the vector arithmetic queue (R95, R132). -/
def execVslide (m : BitVec 1) (b : BitVec 5) (a : BitVec 5) (d : BitVec 5) (r : BitVec 3) (s : State) : Out :=
  vectorWord (.vslide m b a d r) r [a, d] [b] 0 (s.x b) 0
    (unitVslide m a d) s

/-- Permutes lanes by indexes in vs2. (R143) -/
def unitVperm (m : BitVec 1) (b : BitVec 5) (a : BitVec 5) (d : BitVec 5) (_ : Cmd) (s : State) : EngOut :=
  let x := s.cpu.rv a
  let y := s.cpu.rv b
  writeLanes m d (fun i => if (lane y i).toNat < 32 then lane x (lane y i).toNat else 0) s

/-- vperm is forwarded to the vector arithmetic queue (R95, R132). -/
def execVperm (m : BitVec 1) (b : BitVec 5) (a : BitVec 5) (d : BitVec 5) (r : BitVec 3) (s : State) : Out :=
  vectorWord (.vperm m b a d r) r [a, b, d] [] 0 0 0
    (unitVperm m b a d) s

/-- Packs the lanes selected by k0 toward lane 0. (R143) -/
def unitVcompress (a : BitVec 5) (d : BitVec 5) (_ : Cmd) (s : State) : EngOut :=
  let x := s.cpu.rv a
  let kept := (List.range 32).filter (fun i => (s.cpu.rk 0).getLsbD i)
  .done (s.setV d (ofLanes (fun j => if j < kept.length then lane x (kept.getD j 0) else 0)))

/-- vcompress is forwarded to the vector arithmetic queue (R95, R132). -/
def execVcompress (a : BitVec 5) (d : BitVec 5) (r : BitVec 3) (s : State) : Out :=
  vectorWord (.vcompress a d r) r [a, d] [] 0 0 0
    (unitVcompress a d) s

/-- Broadcasts the low word of a scalar register into the allowed lanes. (R144) -/
def unitVmvxv (m : BitVec 1) (d : BitVec 5) (w : Cmd) (s : State) : EngOut :=
  writeLanes m d (fun _ => w.op0.extractLsb' 0 32) s

/-- vmvxv is forwarded to the vector arithmetic queue (R95, R132). -/
def execVmvxv (m : BitVec 1) (a : BitVec 5) (d : BitVec 5) (r : BitVec 3) (s : State) : Out :=
  vectorWord (.vmvxv m a d r) r [d] [a] (s.x a) 0 0
    (unitVmvxv m d) s

/-- Moves one lane, sign-extended, into a scalar register. (R144) -/
def unitVmvvx (i : BitVec 5) (a : BitVec 5) (d : BitVec 5) (_ : Cmd) (s : State) : EngOut :=
  .done (s.setX d (sext64 (lane (s.cpu.rv a) i.toNat)))

/-- vmvvx is forwarded to the vector arithmetic queue (R95, R132). -/
def execVmvvx (i : BitVec 5) (a : BitVec 5) (d : BitVec 5) (r : BitVec 3) (s : State) : Out :=
  vectorWord (.vmvvx i a d r) r [a] [d] 0 0 0
    (unitVmvvx i a d) s

/-- Accumulates one block of online softmax, with lazy rescale of the state. (R146) -/
def unitVsmaxacc (m : BitVec 1) (b : BitVec 5) (a : BitVec 5) (d : BitVec 5) (_ : Cmd) (s : State) : EngOut :=
  softmaxStep m b a d s

/-- vsmaxacc is forwarded to the vector arithmetic queue (R95, R132). -/
def execVsmaxacc (m : BitVec 1) (b : BitVec 5) (a : BitVec 5) (d : BitVec 5) (r : BitVec 3) (s : State) : Out :=
  vectorWord (.vsmaxacc m b a d r) r [a, b, d] [] 0 0 0
    (unitVsmaxacc m b a d) s

/-- Divides an output row by the running sum of the softmax state. (R147) -/
def unitVsmaxfin (m : BitVec 1) (b : BitVec 5) (a : BitVec 5) (d : BitVec 5) (_ : Cmd) (s : State) : EngOut :=
  let x := s.cpu.rv a
  let l := lane (s.cpu.rv b) 1
  writeLanes m d (fun i => fdiv (lane x i) l) s

/-- vsmaxfin is forwarded to the vector arithmetic queue (R95, R132). -/
def execVsmaxfin (m : BitVec 1) (b : BitVec 5) (a : BitVec 5) (d : BitVec 5) (r : BitVec 3) (s : State) : Out :=
  vectorWord (.vsmaxfin m b a d r) r [a, b, d] [] 0 0 0
    (unitVsmaxfin m b a d) s

/-- Stable ascending sort of 32 keys carrying 32 values. (R148) -/
def unitVsortkv (b : BitVec 5) (a : BitVec 5) (d : BitVec 5) (_ : Cmd) (s : State) : EngOut :=
  sortLanes b a d s

/-- vsortkv is forwarded to the vector arithmetic queue (R95, R132). -/
def execVsortkv (b : BitVec 5) (a : BitVec 5) (d : BitVec 5) (r : BitVec 3) (s : State) : Out :=
  vectorWord (.vsortkv b a d r) r [a, b, d] [] 0 0 0
    (unitVsortkv b a d) s

/-- Marks the first lane of each run of equal keys in a mask. (R149) -/
def unitVseghead (a : BitVec 5) (d : BitVec 5) (_ : Cmd) (s : State) : EngOut :=
  let x := s.cpu.rv a
  .done (s.upd (fun c => c.wk d.toNat (packBits (fun i => i == 0 || lane x i != lane x (i - 1)) 32)))

/-- vseghead is forwarded to the vector arithmetic queue (R95, R132). -/
def execVseghead (a : BitVec 5) (d : BitVec 5) (r : BitVec 3) (s : State) : Out :=
  vectorWord (.vseghead a d r) r [a] [] 0 0 0
    (unitVseghead a d) s

/-- Keeps the N largest of 24 lanes and writes their sparse metadata. (R150) -/
def unitVsppack (i : BitVec 5) (a : BitVec 5) (d : BitVec 5) (_ : Cmd) (s : State) : EngOut :=
  sparsePack i.toNat a d s

/-- vsppack is forwarded to the vector arithmetic queue (R95, R132). -/
def execVsppack (i : BitVec 5) (a : BitVec 5) (d : BitVec 5) (r : BitVec 3) (s : State) : Out :=
  vectorWord (.vsppack i a d r) r [a, d] [] 0 0 0
    (unitVsppack i a d) s

end Sys2Proof.Machine
end

