-- ==== Sys2Proof/Machine/Engines.lean ====
section
/-! DEFINITION. The engines of a cell: what one unit of each command does, the turn of an engine (R95, R100, R355), and the ranges that a command holds when it is placed again (R360). -/

namespace Sys2Proof.Machine

/-- One unit of a command. -/
def engEffect (w : Cmd) (s : State) : EngOut :=
  match w.instr with
  | .vadd m b a d _ => unitVadd m b a d w s
  | .vsub m b a d _ => unitVsub m b a d w s
  | .vmul m b a d _ => unitVmul m b a d w s
  | .vmulh m b a d _ => unitVmulh m b a d w s
  | .vand m b a d _ => unitVand m b a d w s
  | .vor m b a d _ => unitVor m b a d w s
  | .vxor m b a d _ => unitVxor m b a d w s
  | .vsll m b a d _ => unitVsll m b a d w s
  | .vsrl m b a d _ => unitVsrl m b a d w s
  | .vsra m b a d _ => unitVsra m b a d w s
  | .vmin m b a d _ => unitVmin m b a d w s
  | .vmax m b a d _ => unitVmax m b a d w s
  | .vminu m b a d _ => unitVminu m b a d w s
  | .vmaxu m b a d _ => unitVmaxu m b a d w s
  | .vaddx m _ a d _ => unitVaddx m a d w s
  | .viota m i _ d _ => unitViota m i d w s
  | .vfadd m b a d _ => unitVfadd m b a d w s
  | .vfsub m b a d _ => unitVfsub m b a d w s
  | .vfmul m b a d _ => unitVfmul m b a d w s
  | .vfma m b a d _ => unitVfma m b a d w s
  | .vfmin m b a d _ => unitVfmin m b a d w s
  | .vfmax m b a d _ => unitVfmax m b a d w s
  | .vfexp2 m a d _ => unitVfexp2 m a d w s
  | .vfrcp m a d _ => unitVfrcp m a d w s
  | .vfrsqrt m a d _ => unitVfrsqrt m a d w s
  | .vflog2 m a d _ => unitVflog2 m a d w s
  | .vfmulx m _ a d _ => unitVfmulx m a d w s
  | .vfaddx m _ a d _ => unitVfaddx m a d w s
  | .vcmpeq m b a d _ => unitVcmpeq m b a d w s
  | .vcmplt m b a d _ => unitVcmplt m b a d w s
  | .vcmpltu m b a d _ => unitVcmpltu m b a d w s
  | .vfcmpeq m b a d _ => unitVfcmpeq m b a d w s
  | .vfcmplt m b a d _ => unitVfcmplt m b a d w s
  | .kopAnd b a d _ => unitKopAnd b a d w s
  | .kopOr b a d _ => unitKopOr b a d w s
  | .kopXor b a d _ => unitKopXor b a d w s
  | .kopAndn b a d _ => unitKopAndn b a d w s
  | .kpop a d _ => unitKpop a d w s
  | .kpopFirst a d _ => unitKpopFirst a d w s
  | .vsel b a d _ => unitVsel b a d w s
  | .vcvtn m _ a d _ => unitVcvtn m a d w s
  | .vcvtw m _ a d _ => unitVcvtw m a d w s
  | .vcvtif m i a d _ => unitVcvtif m i a d w s
  | .vcvtfi m i a d _ => unitVcvtfi m i a d w s
  | .vredsum m a d _ => unitVredsum m a d w s
  | .vredsumI32 m a d _ => unitVredsumI32 m a d w s
  | .vredmax m a d _ => unitVredmax m a d w s
  | .vredmaxI32 m a d _ => unitVredmaxI32 m a d w s
  | .vredmin m a d _ => unitVredmin m a d w s
  | .vredminI32 m a d _ => unitVredminI32 m a d w s
  | .vslide m _ a d _ => unitVslide m a d w s
  | .vperm m b a d _ => unitVperm m b a d w s
  | .vcompress a d _ => unitVcompress a d w s
  | .vmvxv m _ d _ => unitVmvxv m d w s
  | .vmvvx i a d _ => unitVmvvx i a d w s
  | .vsmaxacc m b a d _ => unitVsmaxacc m b a d w s
  | .vsmaxfin m b a d _ => unitVsmaxfin m b a d w s
  | .vsortkv b a d _ => unitVsortkv b a d w s
  | .vseghead a d _ => unitVseghead a d w s
  | .vsppack i a d _ => unitVsppack i a d w s
  | .vldm b _ d _ => unitVldm b d w s
  | .vstm b _ d _ => unitVstm b d w s
  | .vldx b _ d _ => unitVldx b d w s
  | .vstx b _ d _ => unitVstx b d w s
  | .vlds b _ d _ => unitVlds b d w s
  | .vsts b _ d _ => unitVsts b d w s
  | .sprot _ _ => unitSprot w s
  | .tld _ d _ => unitTld d w s
  | .tst _ d _ => unitTst d w s
  | .redaF32add b _ _ => unitRedaF32add b w s
  | .redaBf16add b _ _ => unitRedaBf16add b w s
  | .redaI32add b _ _ => unitRedaI32add b w s
  | .redaF32max b _ _ => unitRedaF32max b w s
  | .redaF32min b _ _ => unitRedaF32min b w s
  | .redaI32max b _ _ => unitRedaI32max b w s
  | .redaI32min b _ _ => unitRedaI32min b w s
  | .nbrd _ _ d _ => unitNbrd d w s
  | .mma b a x y o _ => unitMma b a x y o w s
  | .mmaAcc b a x y o _ => unitMmaAcc b a x y o w s
  | .mmaNeg b a x y o _ => unitMmaNeg b a x y o w s
  | .mmas b a x y o _ => unitMmas b a x y o w s
  | .mmasAcc b a x y o _ => unitMmasAcc b a x y o w s
  | .mmasNeg b a x y o _ => unitMmasNeg b a x y o w s
  | .accz n _ => unitAccz n w s
  | .accscl v o _ => unitAccscl v o w s
  | .accsclX _ o _ => unitAccsclX o w s
  | .accrd n t d o _ => unitAccrd n t d o w s
  | .accrdCol n t d o _ => unitAccrdCol n t d o w s
  | .accwr n t d o _ => unitAccwr n t d o w s
  | .accwrCol n t d o _ => unitAccwrCol n t d o w s
  | .epi _ a x _ => unitEpi a x w s
  | .mqctlWait _ => unitMqctlWait s
  | .mqctlRm _ _ => unitMqctlRm w s
  | .mqctlFtb _ _ => unitMqctlFtb w s
  | .opu _ _ _ => unitOpu w s
  | .fwfwd _ _ _ => unitFwfwd w s
  | .fwupdD _ _ _ _ => unitFwupdD w s
  | .fwupdH _ _ _ _ => unitFwupdH w s
  | .fwupdE _ _ _ _ => unitFwupdE w s
  | .fwfuD _ _ _ _ => unitFwfuD w s
  | .fwfuDl _ _ _ _ => unitFwfuDl w s
  | .fwfuH _ _ _ _ => unitFwfuH w s
  | .fwfuHl _ _ _ _ => unitFwfuHl w s
  | .fwfuE _ _ _ _ => unitFwfuE w s
  | .fwsnapSnap h _ _ => unitFwsnapSnap h w s
  | .fwsnapFork h _ _ => unitFwsnapFork h w s
  | .fwsnapRollback _ _ _ => unitFwsnapRollback w s
  | .fwsnapFree _ _ => unitFwsnapFree w s
  | .fwavg _ _ _ _ => unitFwavg w s
  | .fwmig _ _ _ => unitFwmig w s
  | .fwctlPin _ _ => unitFwctlPin w s
  | .fwctlUnpin _ _ => unitFwctlUnpin w s
  | .fwctlQuery h _ _ => unitFwctlQuery h w s
  | .fwctlHint _ _ _ _ => unitFwctlHint w s
  | .fwctlWait _ _ => unitFwctlWait w s
  | .fwctlNew h _ _ _ => unitFwctlNew h w s
  | _ => .done s

/-! ### A progress at its count (R361) -/

/-- The units that pidx counts for the command; the updates, fwavg and fwmig count blocks of their object and see to it themselves. -/
def Cmd.count (d : Cmd) : Option Nat :=
  match d.instr with
  | .vldx .. | .vstx .. | .sprot .. => some 32
  | .nbrd .. => some ((d.op1.extractLsb' 6 1).toNat + 1)
  | .accrd n _ _ _ _ | .accrdCol n _ _ _ _ | .accwr n _ _ _ _ | .accwrCol n _ _ _ _ => some (nCode n)
  | .epi .. => some (32 * epiCount d.op1)
  | .opu .. | .fwfwd .. | .fwupdD .. | .fwupdH .. | .fwupdE .. | .fwfuD .. | .fwfuDl .. | .fwfuH .. | .fwfuHl .. | .fwfuE ..
  | .fwavg .. | .fwmig .. => none
  | _ => some 1

/-- A progress at or above the count completes the command with no further effect (R361). -/
def Cmd.spent (d : Cmd) : Bool :=
  match d.count with
  | some n => n ≤ d.progress
  | none => false

/-- The same for a command placed again, with the blocks of its object as the count of an update, a fwavg or a fwmig. -/
def State.spent (s : State) (d : Cmd) : Bool :=
  match d.instr with
  | .opu .. | .fwfwd .. | .fwupdD .. | .fwupdH .. | .fwupdE .. | .fwfuD .. | .fwfuDl .. | .fwfuH .. | .fwfuHl .. | .fwfuE ..
  | .fwmig .. => overdone s d.op0 d.progress
  | .fwavg .. => overdone s (avgHandles s d).1 d.progress
  | _ => d.spent

/-- One unit of a command, unless its progress says that it is complete. -/
def engUnit (w : Cmd) (s : State) : EngOut := if w.spent then endHolds w s else engEffect w s

/-! ### Turns -/

/-- Places of the commands of a queue, oldest first. -/
def Cell.placesOf (c : Cell) (q : Queue) : List Nat :=
  (c.pending.zipIdx.filter (fun p => p.1.queue = q)).map (fun p => p.2)

/-- Places of the commands handed over to the epilogue (R178). -/
def Cell.epilogued (c : Cell) : List Nat := (c.pending.zipIdx.filter (fun p => p.1.inEpilogue)).map (fun p => p.2)

/-- The head of a queue: its oldest command that has not gone over to the epilogue. -/
def Cell.headOf (c : Cell) (q : Queue) : Option Nat := (c.placesOf q).find? (fun i => !c.epilogued.contains i)

/-- One unit of the command at a place, when it may start. -/
def State.unitAt (s : State) (i : Nat) : State := if s.mayStart i then (s.runUnit engUnit i).1 else s

/-- An engine of the acting cell takes up the head of its queue, or goes on with it, by one unit. -/
def State.engineTurn (s : State) (q : Queue) : State :=
  match s.cpu.headOf q with
  | none => s
  | some i => s.unitAt i

/-- The epilogue goes on with its oldest command by one unit. -/
def State.epilogueTurn (s : State) : State :=
  match s.cpu.epilogued.head? with
  | none => s
  | some i => s.unitAt i

/-- The engines of an eager cell take up what they may, oldest first, each command to its end or its wait (DESIGN CHOICE, assumption log 4). -/
def State.settleFrom : Nat → Nat → State → State
  | 0, _, s => s
  | fuel + 1, i, s =>
    if s.cpu.pending.length ≤ i then s
    else if !s.mayStart i then State.settleFrom fuel (i + 1) s
    else
      let n := s.cpu.pending.length
      let t := s.drive engUnit i unitFuel
      if t.cpu.pending.length < n then State.settleFrom fuel 0 t else State.settleFrom fuel (i + 1) t

/-- At most 32 commands are pending, so this many rounds see every one. -/
def State.settle (s : State) : State := if s.cpu.eager then State.settleFrom 1100 0 s else s

/-- The queue of a code (R358). -/
def queueOf (n : Nat) : Option Queue :=
  match n with
  | 1 => some .load
  | 2 => some .arith
  | 3 => some .store
  | 4 => some .matrix
  | 5 => some .state
  | _ => none

def Queue.code : Queue → Nat
  | .load => 1
  | .arith => 2
  | .store => 3
  | .matrix => 4
  | .state => 5

/-- A read waiting on an empty line is served once the line becomes full: the engine of the queue goes on, and for the matrix queue
the epilogue too. (R156) -/
def execEmptyLineReadServe (queue : BitVec 3) (s : State) : Out :=
  match queueOf queue.toNat with
  | some .matrix => .next (s.engineTurn .matrix).epilogueTurn
  | some q => .next (s.engineTurn q)
  | none => .next s

/-- The state directory grants a waiting hold request in arrival order, rechecking handle, chunk and residency. (R201) -/
def execStateHoldGrant (s : State) : Out := .next (s.engineTurn .state)

/-! ### Operands and ranges at re-injection (R359, R360) -/

/-- What re-injection captures anew beside the operands: ranges, descriptor, and whether the descriptor is still to be read. -/
structure Placing where
  ranges : List Range
  desc : BitVec 256
  aux : Word

/-- A re-injected update reads its descriptor anew with the checks of R206; while a line of it is empty the read waits (R156), and
until then the command may touch any line. -/
def updatePlacing (k : Upd) (d : Cmd) (s : State) : Except (Nat × Word) Placing :=
  match handleTrap s d.op0 k.v, s.validObject d.op0 with
  | some t, _ => .error t
  | none, none => .error (5, d.op0)
  | none, some o =>
    match readDesc s k o d.op1 with
    | .ok v => .ok ⟨updRanges k v o, v, 0⟩
    | .trap c v => .error (c, v)
    | .wait => .ok ⟨[⟨0, 32768, true⟩], d.desc, 2⟩

/-- A slot offset of a command whose moves of H and T were made at issue (R175, R360). -/
def Cmd.slotCheck (d : Cmd) (o : BitVec 4) : Except (Nat × Word) Unit :=
  if (d.idx + 2 ^ 32 - d.tix) % 2 ^ 32 ≤ o.toNat then .error (2, slotTrap o) else .ok ()

/-- A view operand as it now stands. -/
def againView (c : Cell) (view : BitVec 1) (op : Word) (lv : Nat) (companion : Bool) : Except (Nat × Word) Unit :=
  if view ≠ 1 then .ok ()
  else (viewCheck c (Pair.ofCompact op) op (operandRuns op lv companion)).map (fun _ => ())

/-- The issue checks on a product's operands as they now stand. -/
def againProduct (c : Cell) (sparse : Bool) (x y : BitVec 1) (o : BitVec 4) (d : Cmd) : Except (Nat × Word) (List Range) :=
  match entryCheck sparse d.aux with
  | some t => .error t
  | none =>
    match d.slotCheck o with
    | .error t => .error t
    | .ok _ =>
      match againView c x d.op0 d.lv (companionA sparse) with
      | .error t => .error t
      | .ok _ =>
        (againView c y d.op1 d.lv (companionB sparse d.aux)).map (fun _ => productRanges sparse x y d.aux d.op0 d.op1 d.lv)

/-- The issue checks on an epi's operands as they now stand. -/
def againEpi (c : Cell) (x : BitVec 1) (d : Cmd) : Except (Nat × Word) (List Range) :=
  let n := epiCount d.op1
  match epiWord d.op1 with
  | some t => .error t
  | none =>
    if (d.idx + 2 ^ 32 - d.tix) % 2 ^ 32 < n then .error (2, BitVec.ofNat 64 (0x300 + n))
    else if x = 1 then
      (epiPlaces c d.op1 (Pair.ofCompact d.op0) d.op0 d.lv).map (fun _ => epiRanges x d.op0 d.op1 d.lv)
    else (epiLinesCheck c d.op1).map (fun _ => epiRanges x d.op0 d.op1 d.lv)

/-- The issue checks on a command's captured operands, and its ranges; a rewritten operand brings its own (R360), and no byte outside
the window is reached through one (R153). (DEDUCED, assumption log 63) -/
def againRanges (c : Cell) (d : Cmd) : Except (Nat × Word) (List Range) :=
  match d.instr with
  | .vlds b _ _ _ => .ok (laneRanges false b d.op0 d.op1)
  | .vsts b _ _ _ => .ok (laneRanges true b d.op0 d.op1)
  | .tld .. => (againView c 1 d.op0 d.lv false).map (fun _ => [rangeOf false (viewRuns d.op0 d.lv)])
  | .tst .. => (againView c 1 d.op0 d.lv false).map (fun _ => [rangeOf true (viewRuns d.op0 d.lv)])
  | .sprot .. =>
    if c.tsize ≠ 4 then .error (1, BitVec.ofNat 64 c.tsize)
    else (rotPair c (Pair.ofCompact d.op0) d.op0 d.lv).map (fun p => rotRanges p d.lv c.pos)
  | .mma _ _ x y o _ | .mmaAcc _ _ x y o _ | .mmaNeg _ _ x y o _ => againProduct c false x y o d
  | .mmas _ _ x y o _ | .mmasAcc _ _ x y o _ | .mmasNeg _ _ x y o _ => againProduct c true x y o d
  | .accscl _ o _ | .accsclX _ o _ | .accrd _ _ _ o _ | .accrdCol _ _ _ o _ | .accwr _ _ _ o _ | .accwrCol _ _ _ o _ =>
    (d.slotCheck o).map (fun _ => [])
  | .epi _ _ x _ => againEpi c x d
  | .mqctlRm .. => if mqctlRmOk d.op0 then .ok [] else .error (1, d.op0)
  | .mqctlFtb .. => if mqctlFtbOk d.op0 then .ok [] else .error (1, d.op0)
  | _ => .ok []

/-- What re-injection captures anew. -/
def Cmd.placing (d : Cmd) (s : State) : Except (Nat × Word) Placing :=
  match d.instr with
  | .opu .. => updatePlacing updOpu d s
  | .fwfwd .. => updatePlacing updFwfwd d s
  | .fwupdD .. => updatePlacing updUpdD d s
  | .fwupdH .. | .fwupdE .. => updatePlacing updUpdH d s
  | .fwfuD .. => updatePlacing updFuD d s
  | .fwfuDl .. => updatePlacing updFuDl d s
  | .fwfuH .. | .fwfuE .. => updatePlacing updFuH d s
  | .fwfuHl .. => updatePlacing updFuHl d s
  | _ => (againRanges s.cpu d).map (fun rs => ⟨rs, d.desc, d.aux⟩)

/-- The vector registers that a command names. -/
def Cmd.vectorRegs (size : Nat) (d : Cmd) : List Nat :=
  (d.reads size ++ d.writes size).filterMap (fun r => match r with
    | .v n => some n
    | _ => none)

/-- A captured entry as it stands in a queue again: it begins anew from its word, operands and progress (R358, R359). -/
def Cmd.placed (d : Cmd) (c : Cell) (p : Placing) : Cmd :=
  { d with
    trapped := false
    started := false
    kept := []
    ranges := p.ranges
    desc := p.desc
    aux := p.aux
    vseq := c.vseq
    depth := c.slipDepth d.queue }

/-- Places replay entries at the tails of their queues, oldest first (R363); the first whose allotment or operands
fail raises its trap: it and every later one stay, and the cause and value are answered. A command that its progress completes is
not checked (R361). -/
def reinject : List Cmd → State → State × Option (List Cmd × Cmd × Nat × Word)
  | [], s => (s, none)
  | d :: rest, s =>
    match s.cpu.notAllotted (d.vectorRegs s.cpu.accS) with
    | some n => (s, some (d :: rest, d, 2, BitVec.ofNat 64 n))
    | none =>
      match if s.spent d then .ok ⟨[], d.desc, d.aux⟩ else d.placing s with
      | .error (c, v) => (s, some (d :: rest, d, c, v))
      | .ok p =>
        reinject rest (s.upd (fun c => { c with
          pending := c.pending ++ [d.placed c p]
          vseq := if d.queue.isVector then c.vseq + 1 else c.vseq }))

end Sys2Proof.Machine
end

