-- ==== Sys2Proof/Machine/Links.lean ====
section
/-! DEFINITION. Changes of the enumeration table and their records (R20, R426), the die links (R9, R406, R409), Camyar (R407, R408), and the warm reset of a die (R414). -/

namespace Sys2Proof.Machine

/-! ### Changes of the table (R20, R426) and the class-0 bounds (R374) -/

/-- A type-6 record (R426). -/
def changeRecord (s : State) (event unit status extra number gen : Nat) : List Byte :=
  record 6 (if event = 1 then 0x16 else 0) 0x400 s.now noNode 0
    (leBytes 1 event ++ leBytes 1 unit ++ leBytes 1 status ++ leBytes 1 extra ++ leBytes 2 number ++ leBytes 2 0 ++ leBytes 8 gen)

/-- The contexts that subscribe to records of type 6 (R369). -/
def State.subscribers (s : State) : List Nat :=
  (s.contexts.filter (fun c => (ringFlags s c.ringBase).getLsbD 1)).map (fun c => c.id)

/-- The firmware has rewritten the table: the next even generation, and a record to each subscriber. A link monitor drops its
record when the ring is full, the firmware holds its own (R370). (DEDUCED, assumption log 33) -/
def State.tableChange (s : State) (event unit status extra number : Nat) (monitor : Bool := false) : State :=
  let s := { s with enumGen := (s.enumGen + 2) % 2 ^ 64 }
  let r := changeRecord s event unit status extra number s.enumGen
  s.subscribers.foldl (fun s ctx => if monitor then s.postOrDrop ctx r else s.post ctx 3 0 r) s

/-- The link and thermal conditions of the class-0 bounds (R374). -/
def State.boundsHold (s : State) : Bool := s.resets.isEmpty && s.links.all (fun l => l.state != 3) && !s.thermal

/-- The records of events 6 and 7 after a change, with the die that caused it. (DEDUCED, assumption log 44) -/
def State.noteBounds (s : State) (was : Bool) (die : Nat) : State :=
  if was = s.boundsHold then s
  else
    let r := changeRecord s (if was then 6 else 7) die 0 0 0 0
    s.class0Owners.foldl (fun s ctx => s.post ctx 3 0 r) s

/-! ### Dies (R9, R292, R258, R346, R414) -/

/-- The copy schedules of a die fault with 0x16, at the oldest entry that has still to complete, after the records of the poison that
its entries have met (R258, R259). No address has faulted: the record's is 0 (DESIGN CHOICE, assumption log 75). -/
def State.faultDieCopies (s : State) (die : Nat) : State :=
  (s.copiers.filter (fun c => c.die = die && (c.state = .running || c.state = .waiting))).foldl (fun s c =>
    let s := c.views.foldl State.postPoison s
    let s := s.faultCopy { c.oldest with poison := none } 0x16 0
    if c.cell.isNone then s.faultFiring c.firing c.engine 0x0E 0 none else s) s

/-- The running firings with cells on a die fault with 0x16, marked hardware-lost (R346). -/
def State.faultDieFirings (s : State) (die : Nat) : State :=
  s.firings.foldl (fun s f =>
    match (f.teams.flatMap (fun t => t.cells)).find? (fun c => (s.cell c).die = die) with
    | some c => if f.state = .running then s.faultFiring f.id c 0x16 0 (some die) else s
    | none => s) s

/-- A die goes offline. -/
def State.takeOffline (s : State) (die : Nat) : State :=
  let s := { s with offline := insertNat die s.offline }.tableChange 1 die 2 0 0
  ((s.faultDieFirings die).faultDieCopies die).dropChannels die

/-- A die is live again: the hardware-lost firings that wait for it are armed; one whose graph record must be waited for follows with
the expiry of its delay (R235, R346). -/
def State.bringLive (s : State) (die : Nat) : State :=
  let s := { s with offline := eraseNat die s.offline }.tableChange 2 die 0 0 0
  (s.firings.filter (fun f => f.state = .pending && f.lost = some die && !s.firingWaits f.id)).foldl State.rearm s

def State.inReset (s : State) (die : Nat) : Bool := s.resets.any (fun r => r.die == die)

/-- A compute die without an Active ring link (R9). (DEDUCED, assumption log 43) -/
def State.isCut (s : State) (die : Nat) : Bool :=
  die < 4 && !s.links.any (fun l => l.b < 4 && (l.a = die || l.b = die) && l.state = 0)

/-! ### Link states (R409) -/

/-- In Reset and Training no module of a link carries traffic (R18). -/
def Link.settled (l : Link) : Link := if 2 ≤ l.state then { l with trained := 0 } else l

/-- A link changes, with what follows for its dies: a change of a ring link that leaves a compute die without an Active one takes it
offline, one that gives it one brings it back (R9). The change is the link monitor's, or the firmware's in a warm reset (R426). (DEDUCED,
assumption log 43) -/
def State.changeLink (s : State) (i : Nat) (f : Link → Link) (monitor : Bool := true) : State :=
  match s.links[i]? with
  | none => s
  | some l =>
    let was := s.boundsHold
    let m := (f l).settled
    let s := { s with links := s.links.set i m, linkTimes := (i, s.now) :: s.linkTimes.filter (fun t => t.1 ≠ i) }
    let s := s.tableChange 3 i m.state m.trained 0 monitor
    let ends := [l.a, l.b].filter (fun d => !s.inReset d)
    let s :=
      if l.b = 4 then s
      else if m.state = 0 then (ends.filter (fun d => s.isOffline d && !s.isCut d)).foldl State.bringLive s
      else (ends.filter (fun d => s.isCut d && !s.isOffline d)).foldl State.takeOffline s
    s.noteBounds was 0xFF

/-- The time since a link's last change. (DESIGN CHOICE, assumption log 13) -/
def State.linkAge (s : State) (i : Nat) : Nat :=
  match s.linkTimes.find? (fun t => t.1 == i) with
  | some t => s.now - t.2
  | none => s.now

/-- Acts on a link in a state; in recovery only the management port runs (R404). -/
def onLink (i state : Nat) (s : State) (act : Link → State) : Out :=
  match s.links[i]? with
  | some l => if l.state = state && !s.recovery then .next (act l) else .next s
  | none => .next s

/-- A flit failing CRC is retried from the replay buffer; over 64 retries in any 1 ms quiesce the link. (R406) -/
def execFlitCrcRetry (link : Nat) (s : State) : Out :=
  onLink link 0 s (fun l =>
    let kept := s.now :: l.retries.filter (fun t => s.now < t + 1500000)
    if 64 < kept.length then s.changeLink link (fun l => { l with state := 1, retries := [] })
    else { s with links := s.links.set link { l with retries := kept } })

/-- A link is asked to quiesce: new flits are held (R409). -/
def State.quiesceLink (link : Nat) (s : State) : Out := onLink link 0 s (fun _ => s.changeLink link (fun l => { l with state := 1 }))

/-- No flit and no message is in flight on a link. -/
def State.linkDrained (s : State) (i : Nat) : Bool :=
  s.wires.all (fun w => w.link ≠ i || w.queue.isEmpty) &&
  s.streams.all (fun x => x.link ≠ i || (x.filling.isEmpty && x.flits.isEmpty && x.rest.isEmpty))

/-- A quiescing link, once drained, enters Reset. (R409) -/
def execLinkQuiesceDrained (link : Nat) (s : State) : Out :=
  onLink link 1 s (fun _ => if s.linkDrained link then s.changeLink link (fun l => { l with state := 2 }) else s)

/-- Both ends of a link are ready: neither is between steps 3 and 4 of a warm reset. -/
def State.endsReady (s : State) (l : Link) : Bool := !s.resets.any (fun r => (r.die = l.a || r.die = l.b) && r.step = 3)

/-- After 1 ms with the die ready, a link in Reset starts Training. (R409) -/
def execLinkResetElapsed (link : Nat) (s : State) : Out :=
  onLink link 2 s (fun l =>
    if l.failed || s.linkAge link < 1500000 || !s.endsReady l then s else s.changeLink link (fun l => { l with state := 3 }))

/-- The channels of a link in both directions, with the credits that their receivers grant. -/
def freshWires (link : Nat) : List Wire :=
  [false, true].flatMap (fun back => (List.range 8).map (fun c => Wire.mk link back c (Config.linkCredits (8 * link + c)) []))

/-- A link whose modules train becomes Active with its trained modules. (R409) -/
def execLinkTrained (link : Nat) (modules : Nat) (s : State) : Out :=
  onLink link 3 s (fun l =>
    if modules = 0 || l.fitted < modules then s
    else
      let others := s.wires.filter (fun (w : Wire) => w.link ≠ link)
      let s := { s with wires := others ++ freshWires link, streams := s.streams.filter (fun x => x.link ≠ link) }
      s.changeLink link (fun l => { l with state := 0, trained := modules, retries := [], failed := false }))

/-- A link on which no module trains returns to Reset. (R409) -/
def execLinkTrainingFailed (link : Nat) (s : State) : Out :=
  onLink link 3 s (fun _ => s.changeLink link (fun l => { l with state := 2, failed := true }))

/-- Every 100 ms a failed link is retried. (R409) -/
def execLinkRetryTimer (link : Nat) (s : State) : Out :=
  onLink link 2 s (fun l =>
    if !l.failed || s.linkAge link < 150000000 || !s.endsReady l then s else s.changeLink link (fun l => { l with state := 3 }))

/-! ### Camyar (R407, R408; DESIGN CHOICE, assumption log 22) -/

/-- Fields of a header. -/
def hdrKind (h : BitVec 128) : Nat := (h.extractLsb' 0 5).toNat
def hdrChan (h : BitVec 128) : Nat := (h.extractLsb' 5 3).toNat
def hdrPrio (h : BitVec 128) : Bool := h.getLsbD 8
def hdrData (h : BitVec 128) : Nat := (h.extractLsb' 9 4).toNat
def hdrSrc (h : BitVec 128) : Nat := (h.extractLsb' 13 3).toNat
def hdrDst (h : BitVec 128) : Nat := (h.extractLsb' 16 3).toNat
def hdrTag (h : BitVec 128) : Nat := (h.extractLsb' 19 12).toNat
def hdrPa (h : BitVec 128) : Nat := (h.extractLsb' 32 52).toNat
def hdrCtx (h : BitVec 128) : Nat := (h.extractLsb' 84 16).toNat
def hdrOp (h : BitVec 128) : Nat := (h.extractLsb' 100 28).toNat

/-- A header from its fields. -/
def mkHdr (kind chan : Nat) (prio : Bool) (ndata src dst tag pa ctx op : Nat) : BitVec 128 :=
  BitVec.ofNat 128 (kind % 2 ^ 5 + chan % 2 ^ 3 * 2 ^ 5 + prio.toNat * 2 ^ 8 + ndata % 2 ^ 4 * 2 ^ 9 + src % 2 ^ 3 * 2 ^ 13 +
    dst % 2 ^ 3 * 2 ^ 16 + tag % 2 ^ 12 * 2 ^ 19 + pa % 2 ^ 52 * 2 ^ 32 + ctx % 2 ^ 16 * 2 ^ 84 + op % 2 ^ 28 * 2 ^ 100)

/-- The channel that carries a kind (R408). -/
def kindChan (kind : Nat) (prio : Bool) : Nat :=
  if kind = 4 then 2
  else if kind ≤ 8 then (if prio then 4 else 0)
  else if kind ≤ 11 then (if prio then 5 else 1)
  else 3

/-- Credit returns need no credit. -/
def hdrCost (h : BitVec 128) : Nat := if hdrKind h = 16 then 0 else 1 + hdrData h

def State.wire (s : State) (link : Nat) (back : Bool) (chan : Nat) : Option Wire :=
  s.wires.find? (fun w => w.link == link && w.back == back && w.chan == chan)
def State.setWire (s : State) (w : Wire) : State :=
  { s with wires := s.wires.map (fun v => if v.link = w.link && v.back = w.back && v.chan = w.chan then w else v) }

/-- The flits of a link in a direction. -/
def State.stream (s : State) (link : Nat) (back : Bool) : Stream :=
  (s.streams.find? (fun x => x.link == link && x.back == back)).getD ⟨link, back, [], [], []⟩
def State.setStream (s : State) (x : Stream) : State :=
  { s with streams := x :: s.streams.filter (fun y => !(y.link == x.link && y.back == x.back)) }

/-- Slots in full flits of 15, from slot 0, and those of the flit that is not full (R407). -/
def flitsOf : Nat → List CamyarSlot → List (List CamyarSlot) × List CamyarSlot
  | 0, l => ([], l)
  | n + 1, l =>
    if l.length < 15 then ([], l)
    else
      let r := flitsOf n (l.drop 15)
      (l.take 15 :: r.1, r.2)

/-- The slots of a message: its header, then its data without gap, with their poison (R407, R412). -/
def messageSlots (hdr : BitVec 128) (data : List (BitVec 128)) (bad : List (BitVec 2)) : List CamyarSlot :=
  ⟨hdr, 0⟩ :: data.zipIdx.map (fun d => ⟨d.1, bad.getD d.2 0⟩)

/-- More slots of a stream: the flit that is being filled goes on into the next one (R407). -/
def Stream.put (x : Stream) (slots : List CamyarSlot) : Stream :=
  let r := flitsOf (x.filling.length + slots.length) (x.filling ++ slots)
  { x with flits := x.flits ++ r.1, filling := r.2 }

/-- Puts a message on a link, if the link is Active and the sender holds the credits. -/
def State.putMessage (s : State) (link : Nat) (back : Bool) (hdr : BitVec 128) (data : List (BitVec 128)) (bad : List (BitVec 2)) :
    Option State :=
  match s.links[link]?, s.wire link back (hdrChan hdr) with
  | some l, some w =>
    if l.state ≠ 0 || w.credits < hdrCost hdr then none
    else
      some ((s.setWire { w with credits := w.credits - hdrCost hdr }).setStream
        ((s.stream link back).put (messageSlots hdr data bad)))
  | _, _ => none

/-- The messages of a row of slots, idle and reserved ones left out, and the slots of one that is not whole yet (R407). -/
def messagesOf : Nat → List CamyarSlot → List (BitVec 128 × List CamyarSlot) × List CamyarSlot
  | 0, l => ([], l)
  | _, [] => ([], [])
  | n + 1, x :: rest =>
    if hdrKind x.bits = 0 || 17 ≤ hdrKind x.bits then messagesOf n rest
    else if rest.length < hdrData x.bits then ([], x :: rest)
    else
      let r := messagesOf n (rest.drop (hdrData x.bits))
      ((x.bits, rest.take (hdrData x.bits)) :: r.1, r.2)

/-- A message arrives on its channel. -/
def State.received (s : State) (link : Nat) (back : Bool) (m : BitVec 128 × List CamyarSlot) : State :=
  match s.wire link back (hdrChan m.1) with
  | none => s
  | some w =>
    let msg : CamyarMsg := ⟨s.fresh, m.1, m.2.map (fun d => d.bits), m.2.map (fun d => d.bad)⟩
    { s with fresh := s.fresh + 1 }.setWire { w with queue := w.queue ++ [msg] }

/-- The oldest flit of a stream, or the one that is being filled, with idle slots after its last. -/
def Stream.head (x : Stream) : Option (List CamyarSlot × Stream) :=
  match x.flits with
  | f :: rest => some (f, { x with flits := rest })
  | [] => if x.filling.isEmpty then none else some ((x.filling ++ List.replicate 15 (CamyarSlot.mk 0 0)).take 15, { x with filling := [] })

/-- A flit reaches its receiver, while the link is Active or completes its flits in flight (R407, R409). -/
def State.takeFlit (s : State) (link : Nat) (back : Bool) : State :=
  match s.links[link]?, (s.stream link back).head with
  | some l, some (flit, x) =>
    if s.recovery || 2 ≤ l.state then s
    else
      let r := messagesOf (x.rest.length + 15) (x.rest ++ flit)
      r.1.foldl (fun s m => s.received link back m) (s.setStream { x with rest := r.2 })
  | _, _ => s

/-- The ends of a link in a direction: sender, receiver. -/
def Link.sender (l : Link) (back : Bool) : Nat := if back then l.b else l.a
def Link.receiver (l : Link) (back : Bool) : Nat := if back then l.a else l.b

/-- A message that a die may send on a link: the header decodes for its kind, it comes from the sender, and a hub link carries
only messages to or from die 4. -/
def mayCarry (l : Link) (back : Bool) (kind : Nat) (hdr : BitVec 128) (data : List (BitVec 128)) : Bool :=
  hdrKind hdr = kind && hdrChan hdr = kindChan kind (hdrPrio hdr) && hdrData hdr = data.length && data.length ≤ 8 &&
  !hdr.getLsbD 31 && hdrSrc hdr = l.sender back && hdrDst hdr ≤ 4 && hdrDst hdr ≠ hdrSrc hdr &&
  (l.b < 4 || hdrDst hdr = l.receiver back) && (l.b = 4 || hdrDst hdr < 4)

/-- The paths between two dies, first choice first: over a ring link or round the other three; between opposite dies the two ways
round, in the order that a hash of the 4 KiB page gives (R9; DESIGN CHOICE, assumption log 62); to and from the hub its own link. -/
def paths (src dst pa : Nat) : List (List Nat) :=
  let via (n : Nat) : Nat := src ^^^ n
  if src = 4 || dst = 4 then [[src, dst]]
  else if src ^^^ dst = 3 then
    (if Config.routeHash (pa / 4096) then [[src, via 1, dst], [src, via 2, dst]] else [[src, via 2, dst], [src, via 1, dst]])
  else [[src, dst], [src, via (3 - (src ^^^ dst)), via 3, dst]]

/-- Every link of a path is Active. -/
def pathActive (s : State) (p : List Nat) : Bool := (p.zip p.tail).all (fun h => linkActive s h.1 h.2)

/-- The link and direction on which a die sends to another: the first hop of the first path whose links are all Active (R9). -/
def State.route (s : State) (src dst pa : Nat) : Option (Nat × Bool) :=
  match (paths src dst pa).find? (pathActive s) with
  | some (_ :: n :: _) =>
    (s.links.findIdx? (fun l => l.a == min src n && l.b == max src n)).map (fun i => (i, decide (n < src)))
  | _ => none

/-- Sends a message from a die on its route. -/
def State.sendFrom (s : State) (src : Nat) (hdr : BitVec 128) (data : List (BitVec 128)) (bad : List (BitVec 2) := []) : Option State :=
  (s.route src (hdrDst hdr) (hdrPa hdr)).bind (fun r => s.putMessage r.1 r.2 hdr data bad)

/-- A request that waits for an answer, by kind: all requests and the shootdown. -/
def isRequest (kind : Nat) : Bool := (kind ≤ 3 && 1 ≤ kind) || (5 ≤ kind && kind ≤ 8) || kind = 12

/-- The source die notes a request under its tag (R407). -/
def State.noteTxn (s : State) (h : BitVec 128) : State :=
  if isRequest (hdrKind h) then
    { s with txns := ⟨hdrSrc h, hdrTag h, hdrKind h, none⟩ :: s.txns.filter (fun t => !(t.die == hdrSrc h && t.tag == hdrTag h)) }
  else s

/-- A response answers the request of its tag at the die that it reaches (R407), poison with it (R412). -/
def State.answerTxn (s : State) (h : BitVec 128) (data : List (BitVec 128)) (bad : List (BitVec 2)) : State :=
  { s with txns := s.txns.map (fun t =>
      if t.die = hdrDst h && t.tag = hdrTag h && t.answer.isNone then { t with answer := some (hdrKind h, hdrOp h, data, bad) } else t) }

/-- The tag is that of a request of the die that has no answer yet. -/
def State.tagBusy (s : State) (h : BitVec 128) : Bool :=
  isRequest (hdrKind h) && s.txns.any (fun t => t.die == hdrSrc h && t.tag == hdrTag h && t.answer.isNone)

/-- From step 1 of a warm reset until step 3 the links of the die carry only responses, write-backs and control: the completions of
accepted requests and the traffic of step 2 (R414). -/
def State.linkServes (s : State) (l : Link) (kind : Nat) : Bool :=
  s.resets.all (fun r => 2 < r.step || (r.die ≠ l.a && r.die ≠ l.b)) ||
  kind = 4 || (9 ≤ kind && kind ≤ 11) || kind = 13 || 15 ≤ kind

/-- A die sends a message of a kind, on its route; in recovery only the management port runs (R404). -/
def sendKind (kind link : Nat) (back : Bool) (hdr : BitVec 128) (data : List (BitVec 128)) (s : State) : Out :=
  match s.links[link]? with
  | none => .next s
  | some l =>
    if !s.recovery && mayCarry l back kind hdr data && s.route (hdrSrc hdr) (hdrDst hdr) (hdrPa hdr) = some (link, back) &&
        !s.tagBusy hdr && s.linkServes l kind then
      .next (match s.putMessage link back hdr data [] with
        | some s => s.noteTxn hdr
        | none => s)
    else .next s

/-- Camyar read request message. (R407) -/
def execCamyarRead (link : Nat) (back : Bool) (hdr : BitVec 128) (s : State) : Out := sendKind 1 link back hdr [] s
/-- Camyar read-for-ownership request message. (R407) -/
def execCamyarReadOwn (link : Nat) (back : Bool) (hdr : BitVec 128) (s : State) : Out := sendKind 2 link back hdr [] s
/-- Camyar write request message, with byte mask for partial lines. (R407) -/
def execCamyarWrite (link : Nat) (back : Bool) (hdr : BitVec 128) (data : List (BitVec 128)) (s : State) : Out :=
  sendKind 3 link back hdr data s
/-- Camyar write-back message on channel 2. (R407) -/
def execCamyarWriteBack (link : Nat) (back : Bool) (hdr : BitVec 128) (data : List (BitVec 128)) (s : State) : Out :=
  sendKind 4 link back hdr data s
/-- Camyar AMO request message. (R407) -/
def execCamyarAmo (link : Nat) (back : Bool) (hdr : BitVec 128) (data : List (BitVec 128)) (s : State) : Out :=
  sendKind 5 link back hdr data s
/-- Camyar reduction request message. (R407) -/
def execCamyarReda (link : Nat) (back : Bool) (hdr : BitVec 128) (data : List (BitVec 128)) (s : State) : Out :=
  sendKind 6 link back hdr data s
/-- Camyar rill command message. (R407) -/
def execCamyarRillCommand (link : Nat) (back : Bool) (hdr : BitVec 128) (data : List (BitVec 128)) (s : State) : Out :=
  sendKind 7 link back hdr data s
/-- Camyar sync-window operation message. (R407) -/
def execCamyarSyncOperation (link : Nat) (back : Bool) (hdr : BitVec 128) (data : List (BitVec 128)) (s : State) : Out :=
  sendKind 8 link back hdr data s
/-- Camyar completion response. (R407) -/
def execCamyarCompletion (link : Nat) (back : Bool) (hdr : BitVec 128) (data : List (BitVec 128)) (s : State) : Out :=
  sendKind 9 link back hdr data s
/-- Camyar data return response. (R407) -/
def execCamyarDataReturn (link : Nat) (back : Bool) (hdr : BitVec 128) (data : List (BitVec 128)) (s : State) : Out :=
  sendKind 10 link back hdr data s
/-- Camyar error response carrying a cause code. (R407) -/
def execCamyarError (link : Nat) (back : Bool) (hdr : BitVec 128) (data : List (BitVec 128)) (s : State) : Out :=
  sendKind 11 link back hdr data s
/-- Camyar shootdown message on channel 3. (R407) -/
def execCamyarShootdown (link : Nat) (back : Bool) (hdr : BitVec 128) (data : List (BitVec 128)) (s : State) : Out :=
  sendKind 12 link back hdr data s
/-- Camyar shootdown acknowledgement message. (R407) -/
def execCamyarShootdownAck (link : Nat) (back : Bool) (hdr : BitVec 128) (data : List (BitVec 128)) (s : State) : Out :=
  sendKind 13 link back hdr data s
/-- Camyar graph message between graph engines. (R407) -/
def execCamyarGraphMessage (link : Nat) (back : Bool) (hdr : BitVec 128) (data : List (BitVec 128)) (s : State) : Out :=
  sendKind 14 link back hdr data s
/-- Die status broadcast, applied before any later message and relayed by the hub. (R408) -/
def execCamyarStatusBroadcast (link : Nat) (back : Bool) (hdr : BitVec 128) (data : List (BitVec 128)) (s : State) : Out :=
  sendKind 15 link back hdr data s
/-- Returns channel credits to a sender. (R408) -/
def execCamyarCreditReturn (link : Nat) (back : Bool) (hdr : BitVec 128) (s : State) : Out := sendKind 16 link back hdr [] s

/-- A response to a request. -/
def State.respond (s : State) (h : BitVec 128) (kind op : Nat) (data : List (BitVec 128)) (bad : List (BitVec 2) := []) :
    Option State :=
  s.sendFrom (hdrDst h)
    (mkHdr kind (kindChan kind (hdrPrio h)) (hdrPrio h) data.length (hdrDst h) (hdrSrc h) (hdrTag h) (hdrPa h) (hdrCtx h) op) data bad

/-- The line of a request. -/
def hdrLine (h : BitVec 128) : Nat := hdrPa h / 128 * 128

/-- The 16-byte parts of a line in data slots. -/
def slotsOf (v : VReg) : List (BitVec 128) := (List.range 8).map (fun i => v.extractLsb' (128 * i) 128)

/-- The bytes that a write carries, as a mask of its line with the slots of its 16-byte parts: the whole line in eight slots; else a
mask, then the parts that it touches, six at most (DESIGN CHOICE, assumption log 22). -/
def writtenParts (data : List (BitVec 128)) : BitVec 128 × List (Nat × Nat) :=
  if data.length = 8 then (BitVec.allOnes 128, (List.range 8).map (fun k => (k, k)))
  else
    match data with
    | [] => (0, [])
    | mask :: rest =>
      let parts := ((List.range 8).filter (fun k => mask.extractLsb' (16 * k) 16 ≠ 0)).zip ((List.range rest.length).map (fun i => i + 1))
      (parts.foldl (fun m p => m ||| (mask &&& byteMask (16 * p.1) 16)) 0, parts)

/-- A line with the parts of a write at their places. -/
def writtenLine (data : List (BitVec 128)) : VReg :=
  (writtenParts data).2.foldl (fun v p => v ||| ((data.getD p.2 0).setWidth 1024 <<< (128 * p.1))) 0

/-- The 8-byte words of a line that a write brings poisoned (R412). -/
def writtenBad (data : List (BitVec 128)) (bad : List (BitVec 2)) : List Nat :=
  (writtenParts data).2.flatMap (fun p => (List.range 2).filterMap (fun j =>
    if (bad.getD p.2 0).getLsbD j && (writtenParts data).1 &&& byteMask (16 * p.1 + 8 * j) 8 ≠ 0 then some (2 * p.1 + j) else none))

/-- Free values for `n` bytes at a key; the record of a running graph stays as it is (R320). -/
def State.freeBytes (s : State) (key : Nat) : Nat → State
  | 0 => s
  | n + 1 =>
    let (v, s) := s.free
    State.freeBytes (s.homeWrite key (s.landing key [v.extractLsb' 0 8]) none) (key + 1) n

/-- The bytes of a write land at home, poison with them (R412). -/
def State.landBytes (s : State) (line : Nat) (data : List (BitVec 128)) (bad : List (BitVec 2)) : State :=
  let t := (s.landLine line (writtenParts data).1 (writtenLine data) none).syncTouch line
  let words := (writtenBad data bad).filter (fun w => !s.recordHolds (line + 8 * w))
  { t with memPoison := words.foldl (fun l w => insertNat (line / 8 + w) l) t.memPoison }

/-- Some byte of a write belongs to a valid barrier or to the device registers: it may not be written (R222, R267). -/
def State.writeBarred (s : State) (line : Nat) (data : List (BitVec 128)) : Bool :=
  isDevice line || (List.range 128).any (fun i => (writtenParts data).1.getLsbD i && s.barrierIn (line + i) 1)

/-- The poison of a line's words, by the slots of 16 bytes that carry it (R412). -/
def State.lineBad (s : State) (line : Nat) : List (BitVec 2) :=
  (List.range 8).map (fun i => BitVec.ofNat 2 ((if s.memPoison.contains (line / 8 + 2 * i) then 1 else 0) +
    (if s.memPoison.contains (line / 8 + 2 * i + 1) then 2 else 0)))

/-- A reduction from another die meets its row: it is discarded with a record (R267, R285), of which the message leaves open the node, the
address and the operation; else the row takes free values. (DESIGN CHOICE, assumption log 22) -/
def State.reduceRow (s : State) (h : BitVec 128) : State :=
  let line := hdrLine h
  match s.discards line with
  | some cause =>
    let (node, s) := s.free
    let (va, s) := s.free
    let (op, s) := s.free
    s.postOrDrop (hdrCtx h) (redRecord s ⟨0, hdrCtx h, 0, node.toNat, va, line, op.toNat % 256, 0, hdrPrio h⟩ cause 0 0)
  | none => ((s.dropSliceLine line).freeBytes line 128).syncTouch line

/-- A rill command at the banks that its channel's mode selects; none while one of them holds 32 (R290). -/
def State.queueRill (s : State) (h : BitVec 128) (data : List (BitVec 128)) : Option State :=
  let key := hdrPa h
  let ch := s.chanAt key
  let word : Word := (data.getD 0 0).setWidth 64
  let off := (key - reserveStart s.fuses) % 2 ^ 21
  let beat : BitVec 256 := ((data.getD 2 0).setWidth 256 <<< 128) ||| (data.getD 1 0).setWidth 256
  let cmd : RillCmd := ⟨liveStacks s.fuses * 64, 0, word, none, key - off + off / 2 ^ 14 * 2 ^ 14, off / 32 % 32, beat, false⟩
  if ch.mode = .ordinary || ch.next.isSome || ch.owner ≠ some (hdrCtx h) || !rillSound word then some s
  else
    let targets := if ch.mode = .allBank then List.range 16 else [off / 1024 % 16]
    if targets.any (fun b => 32 ≤ (ch.bank b).queue.length) then none
    else some (s.setChannel (targets.foldl (fun c b => c.setBank b { c.bank b with queue := (c.bank b).queue ++ [cmd] }) ch))

/-- A die drops the translations of a context from its TLBs, those of its cells and copy engines (R232, R260). -/
def State.dropDieTlbs (s : State) (die ctx : Nat) : State :=
  let clean (c : Cell) : Cell := if c.die = die then { c with tlb := c.tlb.filter (fun e => e.ctx ≠ ctx) } else c
  { s with
    cpu := clean s.cpu
    cells := s.cells.map clean
    copiers := s.copiers.map (fun c => if c.die = die then { c with tlb := c.tlb.filter (fun e => e.ctx ≠ ctx) } else c)
    llTlb := s.llTlb.filter (fun p => !(p.1 = die && p.2.ctx = ctx)) }

/-- A die status as a broadcast carries it: the die in bits [2:0] of op, the status of R16 in [4:3]. One that is new goes into the
table with what follows for the die (R20); a reset of the die under way decides its status itself, and a die without an Active ring link
stays offline (R9). -/
def State.applyStatus (s : State) (op : Nat) : State :=
  let die := op % 8
  if 4 ≤ die || s.inReset die then s
  else if op / 8 % 4 = 2 && !s.isOffline die then s.takeOffline die
  else if op / 8 % 4 = 0 && s.isOffline die && !s.isCut die then s.bringLive die
  else s

/-- The hub relays a broadcast to the compute dies. -/
def State.relay (s : State) (src : Nat) (m : CamyarMsg) : Option State :=
  ((List.range 4).filter (fun d => d ≠ src)).foldl (fun (o : Option State) d =>
    o.bind (fun s => s.sendFrom 4 (mkHdr 15 3 false m.data.length 4 d (hdrTag m.hdr) 0 0 (hdrOp m.hdr)) m.data m.bad)) (some s)

/-- A request meets its line at home: none while the channel serves no ordinary request (R293), or a response cannot be sent yet. -/
def State.performRequest (s : State) (m : CamyarMsg) : Option State :=
  let h := m.hdr
  let line := hdrLine h
  let dev := isDevice line
  let read : Nat × State := if dev then deviceRead s line 128 else (readLE s.mem line 128, s)
  if hdrKind h ≠ 7 && s.homeWaits line then none
  else
    match hdrKind h with
    | 1 | 2 => read.2.respond h 10 0 (slotsOf (BitVec.ofNat 1024 read.1)) (s.lineBad line)
    | 3 => if s.writeBarred line m.data then s.respond h 11 5 [] else (s.landBytes line m.data m.bad).respond h 9 0 []
    | 5 =>
      let a := hdrPa h / 8 * 8
      if dev || s.barrierIn a 8 then s.respond h 11 5 []
      else if poisonedIn s.memPoison a 8 then s.respond h 11 0x12 []
      else (s.freeBytes a 8).respond h 10 0 [BitVec.ofNat 128 (readLE s.mem a 8)]
    | 6 => if dev then s.respond h 9 0 [] else (s.reduceRow h).respond h 9 0 []
    | 7 => (s.queueRill h m.data).bind (fun s => s.respond h 9 0 [])
    | _ =>
      let a := hdrPa h / 32 * 32
      if poisonedIn s.memPoison a 32 then s.respond h 11 0x12 []
      else ((s.freeBytes a 32).syncTouch a).respond h 9 0 []

/-- A message does its work at its destination; none when it cannot yet. -/
def State.perform (s : State) (link : Nat) (back : Bool) (m : CamyarMsg) : Option State :=
  let h := m.hdr
  let die := hdrDst h
  let line := hdrLine h
  match hdrKind h with
  | 4 =>
    if s.homeWaits line then none
    else some (if s.writeBarred line m.data then s else s.landBytes line m.data m.bad)
  | 9 | 10 | 11 => some (s.answerTxn h m.data m.bad)
  | 12 => (s.dropDieTlbs die (hdrCtx h)).sendFrom die (mkHdr 13 3 false 0 die (hdrSrc h) (hdrTag h) (hdrPa h) (hdrCtx h) 0) []
  | 13 => some (s.answerTxn h [] [])
  | 15 =>
    let s := s.applyStatus (hdrOp h)
    if die = 4 then s.relay (hdrSrc h) m else some s
  | 16 =>
    match s.wire link (!back) (hdrOp h % 8) with
    | some w => some (s.setWire { w with credits := w.credits + hdrOp h / 8 })
    | none => some s
  | kind =>
    if !isRequest kind then some s
    else if s.isOffline (homeDie s.fuses ⟨line, false, 0⟩) then s.respond h 11 6 []
    else s.performRequest m

/-- A status broadcast waits for every message sent before it on the link (R408). -/
def State.mayDeliver (s : State) (link : Nat) (back : Bool) (m : CamyarMsg) : Bool :=
  hdrKind m.hdr ≠ 15 ||
  s.wires.all (fun w => w.link ≠ link || w.back ≠ back || w.queue.all (fun o => m.stamp ≤ o.stamp))

/-- The oldest message of a channel of a link taken by the die at its end, which performs it, or forwards it on the same channel; none
when there is none, or it waits. -/
def State.taken (s : State) (link : Nat) (back : Bool) (chan : Nat) : Option State :=
  match s.links[link]?, s.wire link back chan with
  | some l, some w =>
    match w.queue with
    | [] => none
    | m :: rest =>
      let here := l.receiver back
      if !s.mayDeliver link back m then none
      else
        let t := s.setWire { w with queue := rest }
        if hdrDst m.hdr = here then t.perform link back m
        else
          let t := if hdrKind m.hdr = 15 then t.applyStatus (hdrOp m.hdr) else t
          t.sendFrom here m.hdr m.data m.bad
  | _, _ => none

/-- The oldest message of a channel of a link, if it is a request or a write-back whose line's channel serves no ordinary request: that
request waits there (R293, R294). -/
def State.stallMessage (s : State) (link : Nat) (back : Bool) (chan : Nat) : State :=
  match s.links[link]?, (s.wire link back chan).bind (fun w => w.queue.head?) with
  | some l, some m =>
    if hdrDst m.hdr = l.receiver back && (isRequest (hdrKind m.hdr) || hdrKind m.hdr = 4) && hdrKind m.hdr ≠ 7 && hdrKind m.hdr ≠ 12 &&
        s.homeWaits (hdrLine m.hdr) then s.stall (hdrLine m.hdr)
    else s
  | _, _ => s

/-- A die takes the oldest message of a channel of a link; channels 0 to 2 are served after 4 and 5 (R373, R408). In recovery nothing
moves (R404). -/
def State.deliver (s : State) (link : Nat) (back : Bool) (chan : Nat) : State :=
  if s.recovery || (chan ≤ 2 && [4, 5].any (fun c => (s.taken link back c).isSome)) then s
  else (s.taken link back chan).getD (s.stallMessage link back chan)

/-! ### Units that are retired (R413) -/

/-- The die of a unit of a kind (R17, R426). -/
def State.unitDie (s : State) (kind number : Nat) : Nat :=
  match kind with
  | 0 => (idleCell s.fuses number).die
  | 1 => stackDie s.fuses (number / 4)
  | 2 => stackDie s.fuses number
  | 3 => number / 16
  | _ => number / 4

/-- The controller retires a unit, once. -/
def State.retire (s : State) (kind number : Nat) : State :=
  if s.isRetired kind number then s
  else
    let s := { s with retired := (kind, number) :: s.retired }
    s.tableChange 4 (s.unitDie kind number) 1 kind number

/-! ### The warm reset of a die (R414) -/

/-- The cells of a die. -/
def State.dieCells (s : State) (die : Nat) : List Nat :=
  (List.range (liveCells s.fuses).length).filter (fun i => (idleCell s.fuses i).die = die)

/-- The lines of an L1 that are homed on a die. -/
def linesOn (f : Fuses) (die : Nat) (c : Cell) : List Nat :=
  (c.l1.map (fun x => x.no)).filter (fun n => homeDie f ⟨n % 2 ^ 60 * 128, decide (2 ^ 60 ≤ n), 0⟩ = die)

/-- Step 2 for one cell: its lines homed on the die are written home and dropped, fetched ones too. -/
def State.writeBackDie (s : State) (die id : Nat) : State :=
  let s := s.focus id
  let lines := linesOn s.fuses die s.cpu
  let s := lines.foldl State.writeBack s
  s.upd (fun c => { c with
    l1 := c.l1.filter (fun x => !lines.contains x.no)
    icache := c.icache.filter (fun e => homeDie s.fuses ⟨e.1 % 2 ^ 60 * 128, decide (2 ^ 60 ≤ e.1), 0⟩ ≠ die) })

/-- Links of a die. -/
def State.dieLinks (s : State) (die : Nat) : List Nat :=
  (s.links.zipIdx.filter (fun p => p.1.a = die || p.1.b = die)).map (fun p => p.2)

/-- The contents of a state block whose SRAM has been reset: 32 free rows (DESIGN CHOICE, assumption log 26). -/
def State.freeTile (s : State) : Tile × State :=
  let row (k : Nat) : VReg := ofLanes (fun i => (Config.freeValue (s.fresh + 32 * k + i)).setWidth 32)
  (Vector.ofFn (fun i => row i.val), { s with fresh := s.fresh + 1024 })

/-- Step 4: the logic of the die is reset. (DESIGN CHOICE, assumption log 26) -/
def State.resetLogic (s : State) (die : Nat) : State :=
  let cells := s.dieCells die
  let clear (c : Cell) : Cell := if c.die = die then { idleCell s.fuses c.id with eager := c.eager } else c
  let s : State := { s with
    cpu := clear s.cpu
    cells := s.cells.map clear
    saved := s.saved.filter (fun c => !cells.contains c.id)
    llTlb := s.llTlb.filter (fun p => p.1 ≠ die)
    walks := s.walks.filter (fun w => w.1 ≠ die)
    copiers := s.copiers.map (fun (c : Copier) => if c.die = die then c.free else c)
    waits := s.waits.filter (fun w => !cells.contains w.cell)
    syncSram := s.syncSram.map (fun r => { r with records := r.records.filter (fun c => !cells.contains c) })
    floors := s.floors.filter (fun f => f.1 ≠ die) }
  let here (b : StateBlock) : Bool := decide (stackDie s.fuses (b.cluster / 16) = die)
  (s.blocks.filter here).foldl (fun s b =>
    let (t, s) := s.freeTile
    { s with blocks := s.blocks.map (fun x => if x.id = b.id then { x with data := t } else x) }) s

def State.setReset (s : State) (die step : Nat) : State :=
  { s with resets := s.resets.map (fun r => if r.die = die then { r with step := step } else r) }

/-- The links of a die in a state go on to the next (R409). -/
def State.passLinks (s : State) (die : Nat) (ready : Nat → Link → Bool) (next : Nat) : State :=
  (s.dieLinks die).foldl (fun s i =>
    if (s.links[i]?).any (ready i) then s.changeLink i (fun l => { l with state := next }) false else s) s

/-- Every link of a die is as `p` says. -/
def State.linksAre (s : State) (die : Nat) (p : Link → Bool) : Bool := (s.dieLinks die).all (fun i => (s.links[i]?).any p)

/-- Step 3: the Active links of the die quiesce, and those that have drained pass to Reset; the step is over when all are there, and a
failure of theirs before it counts no more. -/
def State.quiesceDie (s : State) (die : Nat) : State :=
  let s := s.passLinks die (fun _ l => l.state = 0) 1
  let s := s.passLinks die (fun i l => l.state = 1 && s.linkDrained i) 2
  if s.linksAre die (fun l => l.state = 2) then
    let fresh (l : Link) : Link := if l.a = die || l.b = die then { l with failed := false } else l
    { s with links := s.links.map fresh }.setReset die 3
  else s

/-- Step 5: the links of the die in Reset, after 1 ms and with the other end ready, start Training; the step is over when each has, or has
failed to come up. -/
def State.retrainDie (s : State) (die : Nat) : State :=
  let s := s.passLinks die (fun i l => l.state = 2 && !l.failed && 1500000 ≤ s.linkAge i && s.endsReady l) 3
  if s.linksAre die (fun l => l.state = 3 || l.state = 0 || (l.state = 2 && l.failed)) then s.setReset die 5 else s

/-- Runs the seven-step warm reset of one die, or joins a reset already under way: step 1 is a request, the others follow it in
order, steps 3 and 5 until every link of the die has done its part. A die whose links have not come up stays offline after step 7 (R9).
The firmware runs them (R404). (R414) (DEDUCED, assumption log 43) -/
def execWarmReset (die : Nat) (step : Nat) (failed : List (Nat × Nat)) (s : State) : Out :=
  if !s.up then .next s else
  match s.resets.find? (fun r => r.die == die) with
  | none =>
    if step ≠ 1 || 4 ≤ die then .next s
    else
      let was := s.boundsHold
      .next (({ s with resets := s.resets ++ [DieReset.mk die 1] }.takeOffline die).noteBounds was die)
  | some r =>
    if step ≠ r.step + 1 then .next s
    else
      match step with
      | 2 =>
        let me := s.cpu.id
        let t := (s.allCells.map (fun c => c.id)).foldl (fun s id => s.writeBackDie die id) s
        let t := { t with slices := t.slices.filter (fun x => stackDie s.fuses (x.1 / 4) ≠ die) }
        .next ((t.focus me).setReset die 2)
      | 3 => .next (s.quiesceDie die)
      | 4 => .next ((s.resetLogic die).setReset die 4)
      | 5 => .next (s.retrainDie die)
      | 6 =>
        if (s.dieLinks die).any (fun i => (s.links[i]?).any (fun l => l.state = 3)) then .next s
        else
          let mine := failed.filter (fun u => u.1 ≤ 4 && s.unitDie u.1 u.2 = die)
          .next ((mine.foldl (fun s u => s.retire u.1 u.2) s).setReset die 6)
      | 7 =>
        let was := s.boundsHold
        let s := { s with resets := s.resets.filter (fun x => x.die ≠ die) }
        .next ((if s.isCut die then s else s.bringLive die).noteBounds was die)
      | _ => .next s

end Sys2Proof.Machine
end

