-- ==== Sys2Proof/Machine/Management.lean ====
section
/-! DEFINITION. The management controller (R396, R403), boot slots (R404, R405), remote chips (R411), reliability (R412, R413), power and heat. -/

namespace Sys2Proof.Machine

/-! ### PLDM effecters (R396) -/

/-- Effecter 0x5701 writes one entry of the privileged PASID list. (R396) -/
def execPldmPrivilegedList (index : Nat) (pasid : Nat) (enable : Bool) (s : State) : Out :=
  if 16 ≤ index || 2 ^ 20 ≤ pasid then .next s
  else
    let others := s.privileged.filter (fun e => e.1 ≠ index)
    .next { s with
      privileged := if enable then (index, pasid) :: others else others
      outbox := s.outbox ++ [.pldm 0x5701 0] }

/-- The overflow area of a die's synchronisation engine: 4 MiB of its first stack domain, below the compute-capable region (R262). -/
def overflowBase (f : Fuses) (die : Nat) : Nat :=
  let stack := ((List.range (liveStacks f)).find? (fun i => stackDie f i == die)).getD 0
  stack * 2 ^ 36 + Config.overflowFrame die % (reserveStart f / 2 ^ 22) * 2 ^ 22

/-- The GiB that the firmware reserves for the bootstrap mapping: in stack domain 0, below the compute-capable region, and apart from the
overflow area of die 0, which no context maps (R262). -/
def bootstrapBase (f : Fuses) : Nat :=
  let n := reserveStart f / 2 ^ 30
  let g := Config.bootstrapGiB % n
  (if overlap (g * 2 ^ 30) (2 ^ 30) (overflowBase f 0) (2 ^ 22) then (g + 1) % n else g) * 2 ^ 30

/-- The three tables of the bootstrap mapping, and its one leaf: valid, readable, writable, cached. -/
def State.buildBootstrap (s : State) : State :=
  let s := s.homeWrite (frameAt 0) (leBytes 4096 (1 + frameAt 1)) none
  let s := s.homeWrite (frameAt 1) (leBytes 4096 (1 + frameAt 2)) none
  s.homeWrite (frameAt 2) (leBytes 4096 (7 + bootstrapBase s.fuses)) none

/-- Effecter 0x5702 creates a context, with a bootstrap mapping if root is 0. (R396, R397) -/
def execPldmCreateContext (record : List Byte) (s : State) : Out :=
  if !s.up then .next s
  else
    let rd := bytesRec record
    if rd 8 8 ≠ 0 && s.homeWaits (rd 16 8) then .next (s.stall (rd 16 8))
    else if rd 8 8 ≠ 0 then
      .next (match s.createContext record with
        | some s => { s with outbox := s.outbox ++ [.pldm 0x5702 0] }
        | none => s)
    else if record.length ≠ 64 || !contextOk rd || (s.context (rd 0 2)).isSome || 2 ^ 30 ≤ rd 16 8 + 64 + 64 * 2 ^ rd 24 1 ||
        s.contexts.any (fun c => c.bootstrap) then .next s
    else
      match [frameAt 0, frameAt 1, frameAt 2, bootstrapBase s.fuses + rd 16 8].find? s.homeWaits with
      | some k => .next (s.stall k)
      | none =>
      let s := s.buildBootstrap
      let s := s.addContext (contextOf rd (frameAt 0) (bootstrapBase s.fuses + rd 16 8) true) (rd 5 1)
      .next { s with outbox := s.outbox ++ [.pldm 0x5702 (bootstrapBase s.fuses)] }

/-- Effecter 0x5703 enables a queue on the controller's behalf. (R396) -/
def execPldmEnableQueue (pasid : Nat) (queue : Nat) (qcb : List Byte) (s : State) : Out :=
  if !s.up then .next s
  else
    match (s.queueKeys pasid queue).find? s.homeWaits, s.enableQueue pasid queue qcb with
    | some k, _ => .next (s.stall k)
    | none, some s => .next { s with outbox := s.outbox ++ [Message.pldm 0x5703 0] }.writeCompletions
    | none, none => .next s

/-- Effecter 0x5705 turns the image-signing policy on or off. (R396) -/
def execPldmSigningPolicy (policy : Bool) (s : State) : Out :=
  .next { s with signing := policy, outbox := s.outbox ++ [.pldm 0x5705 0] }

/-- Effecter 0x5706 sets one image-signing key of a PASID. (R396) -/
def execPldmSigningKey (pasid : Nat) (index : Nat) (key : List Byte) (s : State) : Out :=
  if 4 ≤ index || 2 ^ 20 ≤ pasid || key.length ≠ 57 then .next s
  else .next { s with
    keys := ((pasid, index), key) :: s.keys.filter (fun e => e.1 ≠ (pasid, index))
    outbox := s.outbox ++ [.pldm 0x5706 0] }

/-- The power limit of the grade in µJ per window (R1, R376). (DEDUCED, assumption log 30) -/
def gradeBudget (f : Fuses) : Nat := if f.grade = 3 then 2400000 else if f.grade = 2 then 2700000 else 3000000

/-- Sets the power limit, taking effect at the next energy window. (R376) -/
def execPldmPowerLimit (watts : Nat) (s : State) : Out :=
  .next { s with budgetNext := min (watts * 1000) (gradeBudget s.fuses) }

/-- The time of the management controller, which the standby rail keeps (R403). -/
def State.standbyNow (s : State) : Nat := s.standbyTime + s.now

/-- The events that lie in the error window. -/
def State.recentErrors (s : State) : List (Nat × Nat × Nat) :=
  s.errors.filter (fun e => s.standbyNow < e.2.2 + s.errWindow * 60 * 1500000000)

/-- The controller retires the units that have reached the threshold within the window (R413). -/
def State.retireLasting (s : State) : State :=
  let kept := s.recentErrors
  let units := (kept.map (fun e => (e.1, e.2.1))).eraseDups
  (units.filter (fun u => u.1 ≤ 4 && s.errThreshold ≤ (kept.filter (fun e => (e.1, e.2.1) == u)).length)).foldl
    (fun s u => s.retire u.1 u.2) { s with errors := kept }

/-- Sets the error window and retirement threshold; a unit that is at the new threshold within the new window is lasting. (R413) -/
def execPldmErrorWindow (minutes : Nat) (threshold : Nat) (s : State) : Out :=
  if minutes = 0 || 43200 < minutes || threshold = 0 || 65535 < threshold then .next s
  else .next { s with errWindow := minutes, errThreshold := threshold }.retireLasting

/-! ### Firmware slots (R404, R405) -/

def slotIx (n : Nat) : Fin 2 := ⟨n % 2, Nat.mod_lt _ (by decide)⟩
def State.fwSlot (s : State) (n : Nat) : FwSlot := s.fwSlots[slotIx n]
def State.setFwSlot (s : State) (n : Nat) (x : FwSlot) : State := { s with fwSlots := s.fwSlots.set (slotIx n) x }

/-- The slot that did not boot. -/
def State.inactive (s : State) : Nat := if s.booted = some 1 then 0 else 1

/-- A slot's image verifies: one that is being written does not. -/
def FwSlot.verifies (x : FwSlot) : Bool := x.state != .writing && x.state != .empty && Config.firmwareVerifies x.image

/-- The marker copy with the lower sequence number. -/
def State.lowMarker (s : State) : Nat := if s.markers[slotIx 0].seq ≤ s.markers[slotIx 1].seq then 0 else 1
def State.highSeq (s : State) : Nat := max s.markers[slotIx 0].seq s.markers[slotIx 1].seq

/-- Writes and verifies the inactive firmware slot: step 0 begins the write, step 1 ends and verifies it, step 2 writes the
marker copy. (R405) (DEDUCED, assumption log 41) -/
def execPldmFirmwareUpdate (step : Nat) (image : List Byte) (s : State) : Out :=
  let n := s.inactive
  let x := s.fwSlot n
  match step with
  | 0 =>
    if x.state = .standby ∨ x.state = .empty then .next (s.setFwSlot n ⟨.writing, []⟩) else .next s
  | 1 =>
    if x.state ≠ .writing then .next s
    else if Config.firmwareVerifies image then .next (s.setFwSlot n ⟨.staged, image⟩)
    else .next (s.setFwSlot n ⟨.writing, image⟩)
  | 2 =>
    if x.state ≠ .staged then .next s
    else .next { s with markers := s.markers.set (slotIx s.lowMarker) ⟨n, (s.highSeq + 1) % 2 ^ 32, true⟩ }
  | _ => .next s

/-- The marker copies that verify, in decreasing order of sequence. -/
def State.soundMarkers (s : State) : List Marker :=
  let a := s.markers[slotIx 0]
  let b := s.markers[slotIx 1]
  ((if b.seq ≤ a.seq then [a, b] else [b, a])).filter (fun m => m.sound)

/-- The slot that a boot takes (R404). (DEDUCED, assumption log 41) -/
def State.bootChoice (s : State) : Option Nat :=
  let named := s.soundMarkers.map (fun m => m.slot % 2)
  (named ++ [0, 1]).find? (fun n => (s.fwSlot n).verifies)

/-- The states of the slots after a boot (R405). -/
def State.afterBoot (s : State) (n : Nat) : State :=
  let other := s.fwSlot (n + 1)
  let s := s.setFwSlot n { s.fwSlot n with state := .active }
  if other.state = .active then s.setFwSlot (n + 1) { other with state := .standby } else s

/-- The areas that the firmware reserves at boot. -/
def overflowAreas (f : Fuses) : List (Nat × Nat) :=
  ((List.range 4).filter (fun d => (List.range (liveStacks f)).any (fun i => stackDie f i == d))).map (fun d => (d, overflowBase f d))

/-- A free 2 MiB frame lies outside the reserved areas. -/
def frameFree (f : Fuses) (areas : List (Nat × Nat)) (p : Nat × Bool) : Bool :=
  (frameUnits f p.1 p.2).all (fun k =>
    areas.all (fun a => !overlap k 4096 a.2 (2 ^ 22)) && !overlap k 4096 (bootstrapBase f) (2 ^ 30))

/-- The boot ROM chooses and verifies a firmware slot by the markers, or stays in recovery. (R404) -/
def execBoot (s : State) : Out :=
  if s.booted.isSome then .next s
  else
    match s.bootChoice with
    | none => .next { s with recovery := true, standbyOnly := true }
    | some n => .next { s.afterBoot n with
        booted := some n
        recovery := false
        standbyOnly := false
        pasidBase := Config.firmwareFrame (2 ^ 30) % 2 ^ 16 * 2 ^ 23
        overflow := overflowAreas s.fuses
        freeFrames := Config.tierFrames.filter (frameFree s.fuses (overflowAreas s.fuses)) }

/-- Loss of main power: everything volatile is lost; a slot being written stays Writing, and a marker copy being written does
not verify. What the standby rail holds stays. (R404, R405) (DEDUCED, assumption log 42) -/
def execPowerLoss (marking : Bool) (s : State) : Out :=
  let torn := marking && (s.fwSlot s.inactive).state = .staged
  let bad : Marker := { s.markers[slotIx s.lowMarker] with sound := false }
  let marks := if torn then s.markers.set (slotIx s.lowMarker) bad else s.markers
  .next { State.reset with
    cpu := idleCell s.fuses 0
    budget := gradeBudget s.fuses
    budgetNext := gradeBudget s.fuses
    fuses := s.fuses
    retired := s.retired
    chipId := s.chipId
    fwSlots := s.fwSlots
    markers := marks
    errWindow := s.errWindow
    errThreshold := s.errThreshold
    errors := s.errors
    standbyTime := s.standbyNow
    outbox := s.outbox
    standbyOnly := true
    fresh := s.fresh
    agenda := s.agenda }

/-! ### SPDM (R403; DESIGN CHOICE, assumption log 16) -/

/-- An SPDM response. -/
def State.spdm (s : State) (request : Nat) : State :=
  { s with
    outbox := s.outbox ++ [.spdm request (Config.spdmPayload (8 * s.fresh + request))]
    fresh := s.fresh + 1 }

/-- SPDM version request. (R403) -/
def execGetVersion (s : State) : Out := .next (s.spdm 0)
/-- SPDM capabilities request: secured sessions are not supported. (R403) -/
def execGetCapabilities (s : State) : Out :=
  .next { s with
    outbox := s.outbox ++ [.capabilities false (Config.spdmPayload (8 * s.fresh + 1))]
    fresh := s.fresh + 1 }
/-- SPDM algorithm negotiation: Ed448 is the only asymmetric algorithm, and SHAKE256 hashes. (R403) -/
def execNegotiateAlgorithms (s : State) : Out :=
  .next { s with
    outbox := s.outbox ++ [.algorithms [.ed448] [.shake256] (Config.spdmPayload (8 * s.fresh + 2))]
    fresh := s.fresh + 1 }
/-- SPDM certificate digests request. (R403) -/
def execGetDigests (s : State) : Out := .next (s.spdm 3)
/-- The DICE certificate chain of the image that runs: from the first-layer key, which comes of the fused secret and the image's
measurement (R403). -/
def State.certificates (s : State) : List Byte :=
  let m := Config.measurement ((s.booted.map (fun n => (s.fwSlot n).image)).getD [])
  Config.certificateChain (Config.firstLayerKey Config.fusedSecret m) m

/-- Returns the DICE certificate chain. (R403) -/
def execGetCertificate (s : State) : Out := .next { s with outbox := s.outbox ++ [.spdm 4 s.certificates] }
/-- SPDM challenge signed with the alias key. (R403) -/
def execChallenge (s : State) : Out := .next (s.spdm 5)
/-- SPDM measurements request. (R403) -/
def execGetMeasurements (s : State) : Out := .next (s.spdm 6)

/-! ### Remote chips (R411) -/

def State.placement (s : State) (ctx : Nat) : Placement :=
  (s.placements.find? (fun p => p.ctx == ctx)).getD ⟨ctx, 0, [], [], [], []⟩
def State.setPlacement (s : State) (p : Placement) : State :=
  { s with placements := p :: s.placements.filter (fun q => q.ctx ≠ p.ctx) }

/-- The chips of a context: this one and its peers. -/
def State.chips (s : State) (ctx : Nat) : List Nat :=
  (s.chipId :: (s.peers.filter (fun e => e.ctx = ctx)).map (fun e => e.netid)).eraseDups

def Placement.excluded (p : Placement) (chip : Nat) : Bool := p.acks.any (fun a => a.1 = chip && a.2.2)
def Placement.acked (p : Placement) (chip : Nat) : Nat := ((p.acks.find? (fun a => a.1 == chip)).map (fun a => a.2.1)).getD 0
def Placement.setAck (p : Placement) (chip seq : Nat) (out : Bool) : Placement :=
  { p with acks := (chip, seq, out) :: p.acks.filter (fun a => a.1 ≠ chip) }
def Placement.count (p : Placement) (chip : Nat) : Nat := (p.blocks.filter (fun b => b.2 = chip)).length

/-- The chip that takes a decode append: the fewest blocks, then the lower network id, among those not excluded.
(DEDUCED, assumption log 46) -/
def State.appendChip (s : State) (ctx : Nat) : Nat :=
  let p := s.placement ctx
  (((s.chips ctx).filter (fun c => !p.excluded c)).foldl (fun (a : Option Nat) c =>
    match a with
    | none => some c
    | some b => if p.count c < p.count b || (p.count c = p.count b && c < b) then some c else some b) none).getD s.chipId

/-- An update in sequence. -/
def Placement.apply (p : Placement) (block holder : Nat) : Placement :=
  { p with seq := (p.seq + 1) % 2 ^ 32, blocks := (block, holder) :: p.blocks.filter (fun b => b.1 ≠ block) }

/-- Sequence number `a` comes after `b`, modulo 2^32 (R411). -/
def seqAfter (a b : Nat) : Bool := 0 < (a + 2 ^ 32 - b) % 2 ^ 32 && (a + 2 ^ 32 - b) % 2 ^ 32 < 2 ^ 31

/-- A multicast placement update is applied in sequence, with resend asked on a gap. An update of this chip itself is the next of
the sequence, and goes out to all chips of the context; for a block not placed yet it is an append. The firmware does this (R404). (R411)
(DEDUCED, assumption log 46) -/
def execPlacementTableUpdate (ctx : Nat) (chip : Nat) (seq : Nat) (block : Nat) (holder : Nat) (s : State) : Out :=
  let p := s.placement ctx
  if !s.up then .next s
  else if chip = s.chipId then
    let to' := if p.blocks.any (fun b => b.1 = block) then holder else s.appendChip ctx
    let q := p.apply block to'
    .next { s.setPlacement { q with
        sentAt := (q.seq, s.now) :: q.sentAt.filter (fun t => t.1 ≠ q.seq)
        sent := (q.seq, block, to') :: q.sent.filter (fun t => t.1 ≠ q.seq) } with
      outbox := s.outbox ++ [.update ctx none q.seq block to'] }
  else if seq = (p.seq + 1) % 2 ^ 32 then
    .next { s.setPlacement (p.apply block holder) with outbox := s.outbox ++ [.ack ctx chip seq] }
  else if seqAfter seq (p.seq + 1) then .next { s with outbox := s.outbox ++ [.resend ctx chip ((p.seq + 1) % 2 ^ 32)] }
  else .next s

/-- A chip that has seen a gap asks for an update of this chip again, and gets it (R411). -/
def State.sendAgain (s : State) (ctx chip seq : Nat) : State :=
  match (s.placement ctx).sent.find? (fun t => t.1 == seq) with
  | some t => if s.up then { s with outbox := s.outbox ++ [.update ctx (some chip) seq t.2.1 t.2.2] } else s
  | none => s

/-- A chip not acknowledging within 2 ms is excluded from appends. (R411) -/
def execPlacementAckTimeout (ctx : Nat) (chip : Nat) (s : State) : Out :=
  let p := s.placement ctx
  if s.up && chip ≠ s.chipId && p.sentAt.any (fun t => seqAfter t.1 (p.acked chip) && t.2 + 3000000 ≤ s.now) then
    .next (s.setPlacement (p.setAck chip (p.acked chip) true))
  else .next s

/-- A peer chip's acknowledgement of a placement-table update arrives, and an excluded chip rejoins once it has acknowledged every
update. (R411) -/
def execPlacementUpdateAcknowledgement (ctx : Nat) (chip : Nat) (seq : Nat) (s : State) : Out :=
  let p := s.placement ctx
  let n := if seqAfter seq (p.acked chip) then seq else p.acked chip
  let all := !p.sentAt.any (fun t => seqAfter t.1 n)
  .next (if s.up then s.setPlacement (p.setAck chip n (p.excluded chip && !all)) else s)

/-! ### Reliability (R412, R413) -/

/-- A corrected event is counted per unit over the error window. (R413) -/
def execErrorCorrected (kind : Nat) (number : Nat) (s : State) : Out :=
  .next { s with errors := s.errors ++ [(kind, number, s.standbyNow)] }.retireLasting

/-- The registers of a cell's files in one row: both banks of x, v, k, m, fm, and the accumulator slots (DESIGN CHOICE, assumption log
45); x0 is hard-wired. -/
def regOf (n : Nat) : Option Res :=
  if n < 64 then (if n % 32 = 0 then none else some (.x n))
  else if n < 96 then some (.v (n - 64))
  else if n < 104 then some (.k (n - 96))
  else if n < 112 then some (.m (n - 104))
  else if n < 128 then some (.fm (n - 112))
  else if n < 152 then some (.acc (n - 128))
  else none

/-- An uncorrectable word is marked poisoned: of memory (0) by key, of a scratchpad (1) by key, of a state block (2) by number, of
the acting cell's L1 (3) by key, of a register of the acting cell (4), or of the firmware memories (5). (R412) (DESIGN CHOICE, assumption
log 45) -/
def execErrorUncorrectable (space : Nat) (key : Nat) (s : State) : Out :=
  match space with
  | 0 => .next { s with memPoison := insertNat (key / 8) s.memPoison }
  | 1 => .next { s with spPoison := insertNat (key / 8) s.spPoison }
  | 2 => .next { s with blocks := s.blocks.map (fun b => if b.id = key then { b with poison := true } else b) }
  | 3 =>
    match s.cpu.l1.find? (fun x => lineKey s.fuses x.no == key / 128 * 128) with
    | none => .next s
    | some x =>
      let m := ~~~(byteMask (key % 128 / 8 * 8) 8)
      .next { s.upd (fun c => { c with l1 := c.l1.map (fun y =>
          if y.no = x.no then { y with present := y.present &&& m, dirty := y.dirty &&& m } else y) }) with
        memPoison := insertNat (key / 8) s.memPoison }
  | 4 =>
    match regOf key with
    | none => .next s
    | some r => .next (s.upd (fun c => { c with poison := if c.poison.contains r then c.poison else r :: c.poison }))
  | 5 => .next { s with fwPoison := insertNat (key / 8) s.fwPoison }
  | _ => .next s

/-- State and sync SRAM are scrubbed in full every 10 s: no value changes. (R412) -/
def execSramScrub (s : State) : Out := .next s

/-- A thermal emergency is declared or cleared, suspending or restoring the class-0 bounds. (R374) -/
def execThermalEmergency (declared : Bool) (s : State) : Out :=
  .next ({ s with thermal := declared }.noteBounds s.boundsHold 0xFF)

end Sys2Proof.Machine
end

