-- ==== Sys2Proof/Machine/Probe.lean ====
section
/-! DEFINITION. The probe cache (R169 to R173): prcfg, probe, prinv, prpin, prunpin and the fill. -/

namespace Sys2Proof.Machine

/-! ### Regions -/

/-- The block size of a code (R169). -/
def blockBytes (code : Nat) : Nat := 2048 * 2 ^ code

def ProbeRegion.mine (c : Cell) (p : ProbeRegion) : Bool := p.cluster = c.cluster && p.firing = c.firing

/-- The region of the acting cell's node on its cluster. -/
def State.probeRegion (s : State) : Option ProbeRegion := s.probes.find? (fun p => p.mine s.cpu)

def State.setRegion (s : State) (p : ProbeRegion) : State :=
  { s with probes := s.probes.map (fun q => if q.cluster = p.cluster && q.firing = p.firing then p else q) }

/-- Free tags of a cluster's table (R154). -/
def State.freeTags (s : State) (cluster : Nat) : Nat :=
  1024 - (s.probes.filter (fun p => p.cluster == cluster)).foldl (fun a p => a + p.slots.length) 0

/-- A slot in the state Free (R173). -/
def ProbeSlot.free : ProbeSlot := ⟨none, false, false, false, 0, 0, 0⟩
def ProbeSlot.isFree (x : ProbeSlot) : Bool := !x.filling && !x.valid

/-- Drops the tag of a slot: Free at once if Valid, at the end of its fill if Filling (R172). -/
def ProbeSlot.drop (x : ProbeSlot) : ProbeSlot := if x.filling then { x with tag := none } else .free

/-- Gives the node its probe region on the cluster, or releases it. Where the table has too few free tags, the node is left without
a region: the tags of the previous one were dropped before the check, and it is released with them. (R169; DESIGN CHOICE, assumption
log 58) -/
def execPrcfg (b : BitVec 5) (a : BitVec 5) (d : BitVec 5) (r : BitVec 3) (s : State) : Out :=
  frontWord r [d, a, b] s (fun s =>
    let c := s.x a
    let n := (s.x b).toNat
    let code := (c.extractLsb' 22 3).toNat
    let base := (c.extractLsb' 0 22).toNat
    if c.extractLsb' 25 39 ≠ 0 || 4 < code || base % blockBytes code ≠ 0 || 1024 < n ||
        2 ^ 22 < base + n * blockBytes code then trapOut s 0x0C c
    else
      match s.cpu.outside base (n * blockBytes code) with
      | some bad => trapOut s 5 (BitVec.ofNat 64 bad)
      | none =>
        let dropped := (s.probeRegion).map (fun p => { p with slots := p.slots.map ProbeSlot.drop })
        if (dropped.map (fun p => p.slots.any (fun x => x.filling))).getD false then
          .next (match dropped with
            | some p => s.setRegion p
            | none => s)
        else
          let s := { s with probes := s.probes.filter (fun p => !p.mine s.cpu) }
          if s.freeTags s.cpu.cluster < n then trapOut s 0x0C (BitVec.ofNat 64 n)
          else
            let region : ProbeRegion :=
              ⟨s.cpu.cluster, s.cpu.firing, s.cpu.ctx, s.cpu.node, base, code, List.replicate n .free, 0⟩
            let s := if n = 0 then s else { s with probes := s.probes ++ [region] }
            .next (s.setX d (BitVec.ofNat 64 (s.freeTags s.cpu.cluster))).advance)

/-! ### probe (R170) -/

/-- The least recently probed Valid unpinned slot. -/
def leastRecent (l : List ProbeSlot) : Option Nat :=
  let stamp (i : Nat) : Nat := (l.getD i .free).stamp
  (List.range l.length).foldl (fun best i =>
    let x := l.getD i .free
    if !x.valid || x.pinned then best
    else
      match best with
      | none => some i
      | some j => if stamp i < stamp j then some i else some j) none

/-- The slot that a miss allots. -/
def victim (l : List ProbeSlot) : Option Nat :=
  match l.findIdx? ProbeSlot.isFree with
  | some i => some i
  | none => leastRecent l

/-- First line of a slot and its lines. -/
def ProbeRegion.line (p : ProbeRegion) (i : Nat) : Nat := (p.base + i * blockBytes p.code) / 128
def ProbeRegion.lines (p : ProbeRegion) : Nat := blockBytes p.code / 128

/-- A word of the probe cache; a node with no region on this cluster traps. -/
def withRegion (s : State) (body : ProbeRegion → Out) : Out :=
  match s.probeRegion with
  | none => trapOut s 0x0C 0
  | some p => body p

/-- The front end branches to a word of the probe's own offset. -/
def probeTo (o : BitVec 10) (s : State) : State := s.upd (fun c => c.jumpTo (c.pc + 4 * o.signExtend 64))

/-- Looks up a block in the probe cache, starting a fill and branching on a miss. (R170) -/
def execProbe (o : BitVec 10) (a : BitVec 5) (d : BitVec 5) (r : BitVec 3) (s : State) : Out :=
  frontWord r [d, a] s (fun s => withRegion s (fun p =>
    let t := s.x a
    if t.toNat % blockBytes p.code ≠ 0 then trapOut s 3 t
    else
      match p.slots.findIdx? (fun x => !x.isFree && x.tag == some t) with
      | some i =>
        let p := { p with slots := p.slots.set i { p.slots.getD i .free with stamp := p.clock + 1 }, clock := p.clock + 1 }
        .next ((s.setRegion p).setX d (BitVec.ofNat 64 i)).advance
      | none =>
        match victim p.slots with
        | none => .next (probeTo o (s.setX d (-1)))
        | some i =>
          if s.cpu.rangesBusy [⟨p.line i, p.lines, true⟩] then .next s
          else
            let p := { p with slots := p.slots.set i ⟨some t, true, false, false, p.clock + 1, t, 0⟩, clock := p.clock + 1 }
            let s := (s.setRegion p).setFull p.cluster (p.line i) p.lines false
            .next (probeTo o (s.setX d (BitVec.ofNat 64 i)))))

/-! ### prinv, prpin, prunpin (R172) -/

/-- Drops a probe tag, freeing its slot. (R172) -/
def execPrinv (a : BitVec 5) (d : BitVec 5) (r : BitVec 3) (s : State) : Out :=
  frontWord r [d, a] s (fun s => withRegion s (fun p =>
    let t := s.x a
    match p.slots.findIdx? (fun x => !x.isFree && x.tag == some t) with
    | none => .next (s.setX d (-1)).advance
    | some i =>
      let x := p.slots.getD i .free
      if x.pinned then trapOut s 0x0C t
      else .next ((s.setRegion { p with slots := p.slots.set i x.drop }).setX d (BitVec.ofNat 64 i)).advance))

/-- Pins a probe slot against replacement. (R172) -/
def execPrpin (a : BitVec 5) (r : BitVec 3) (s : State) : Out :=
  frontWord r [a] s (fun s => withRegion s (fun p =>
    let i := s.x a
    let x := p.slots.getD i.toNat .free
    if p.slots.length ≤ i.toNat || x.isFree then trapOut s 0x0C i
    else .next (s.setRegion { p with slots := p.slots.set i.toNat { x with pinned := true } }).advance))

/-- Unpins a probe slot. (R172) -/
def execPrunpin (a : BitVec 5) (r : BitVec 3) (s : State) : Out :=
  frontWord r [a] s (fun s => withRegion s (fun p =>
    let i := s.x a
    if p.slots.length ≤ i.toNat then trapOut s 0x0C i
    else .next (s.setRegion { p with
      slots := p.slots.set i.toNat { p.slots.getD i.toNat .free with pinned := false } }).advance))

/-! ### The fill (R170, R171) -/

/-- How a fill ended, or that it waits (R235, R293). -/
inductive FillEnd where
  | full
  | fault (cause : Nat)
  | wait
  deriving DecidableEq, Repr

/-- Fills line after line from virtual address `va`, setting each full once it is written; the lines still to be filled. -/
def fillLines (ctx die cluster : Nat) : Nat → Word → Nat → State → State × Nat × FillEnd
  | 0, _, _, s => (s, 0, .full)
  | n + 1, va, line, s =>
    match translateFor s ctx die va .read with
    | .trap c _ s => (s, n + 1, .fault c)
    | .wait s => (s, n + 1, .wait)
    | .ok p _ s =>
      let k := s.key p
      if isDevice p.pa then
        let (v, s) := deviceRead s p.pa 128
        fillLines ctx die cluster n (va + 128) (line + 1)
          ({ s with sp := writeLE s.sp (spKey cluster (128 * line)) 128 v }.setFull cluster line 1 true)
      else if s.homeWaits k then (s.stall k, n + 1, .wait)
      else if poisonedIn s.memPoison k 128 then (s, n + 1, .fault 0x12)
      else
        let s := { s with
          sp := writeLE s.sp (spKey cluster (128 * line)) 128 (readLE s.mem k 128)
          spPoison := healed s.spPoison (spKey cluster (128 * line)) 128 }
        fillLines ctx die cluster n (va + 128) (line + 1) ((s.syncTouch k).setFull cluster line 1 true)

/-- The record of R171. -/
def fillRecord (s : State) (p : ProbeRegion) (t : Word) (cause : Nat) : List Byte :=
  record 3 0x0E p.cluster s.now p.node t.toNat [BitVec.ofNat 8 cause]

/-- Fill of a probe slot completes, every line full and the slot Valid; a fill that waits goes on from the line where it waits.
(R170) -/
def execProbeFill (cluster : Nat) (firing : Nat) (slot : Nat) (s : State) : Out :=
  match s.probes.find? (fun p => p.cluster == cluster && p.firing == firing) with
  | none => .next s
  | some p =>
    let x := p.slots.getD slot .free
    if !x.filling then .next s
    else
      let t := x.fillFrom
      match fillLines p.ctx (stackDie s.fuses (cluster / 16)) cluster (p.lines - x.filled) (t + BitVec.ofNat 64 (128 * x.filled))
          (p.line slot + x.filled) s with
      | (s, left, .wait) => .next (s.setRegion { p with slots := p.slots.set slot { x with filled := p.lines - left } })
      | (s, _, .full) =>
        let x := if x.tag.isNone then .free else { x with filling := false, valid := true }
        .next (s.setRegion { p with slots := p.slots.set slot x })
      | (s, _, .fault c) =>
        .next ((s.setRegion { p with slots := p.slots.set slot .free }).post p.ctx 5 cluster (fillRecord s p t c))

end Sys2Proof.Machine
end

