-- ==== Sys2Proof/Machine/Rings.lean ====
section
/-! DEFINITION. Ring units (R164 to R168) and hand-overs (R111 to R115). -/

namespace Sys2Proof.Machine

/-! ### Geometry and counts (R164, R165) -/

def geomBase (g : Word) : Nat := (g.extractLsb' 0 22).toNat
def geomSize (g : Word) : Nat := (g.extractLsb' 22 14).toNat
def geomSlots (g : Word) : Nat := (g.extractLsb' 36 13).toNat

def Ring.nslots (u : Ring) : Nat := geomSlots u.geom

/-- The ring unit of a handle of the acting cell. -/
def State.ringOf (s : State) (h : Nat) : Option Ring :=
  match s.cpu.q[mod16 h] with
  | none => none
  | some n => s.rings.find? (fun u => u.cluster == s.cpu.cluster && u.unit == n)

/-- Replaces a ring unit. -/
def State.setRing (s : State) (u : Ring) : State :=
  { s with rings := s.rings.map (fun v => if v.cluster = u.cluster && v.unit = u.unit then u else v) }

def Ring.slot (u : Ring) (p : Nat) : SlotState := u.slots.getD p .free
def Ring.setSlot (u : Ring) (p : Nat) (x : SlotState) : Ring := { u with slots := u.slots.set p x }

/-- A slot ref (R166). -/
def Ring.ref (u : Ring) (p : Nat) : Word := BitVec.ofNat 64 (geomBase u.geom + 128 * geomSize u.geom * p + p * 2 ^ 32)

/-- Slots filled and not taken, and slots free. -/
def Ring.filled (u : Ring) : Nat := (u.head - u.taken).toNat
def Ring.room (u : Ring) : Nat := (u.tail + BitVec.ofNat 32 u.nslots - u.claimed).toNat

/-- Claims the next slot. -/
def Ring.claim (u : Ring) : Ring :=
  { u.setSlot u.pClaimed .claimed with claimed := u.claimed + 1, pClaimed := (u.pClaimed + 1) % u.nslots }

def Ring.claimMany : Nat → Ring → Ring
  | 0, u => u
  | n + 1, u => Ring.claimMany n u.claim

/-- The head passes every consecutive filled slot. -/
def Ring.passHead : Nat → Ring → Ring
  | 0, u => u
  | n + 1, u =>
    if u.head ≠ u.claimed && u.slot u.pHead = .filled then
      Ring.passHead n { u with head := u.head + 1, pHead := (u.pHead + 1) % u.nslots }
    else u

/-- The tail passes every consecutive released slot, which becomes free. -/
def Ring.passTail : Nat → Ring → Ring
  | 0, u => u
  | n + 1, u =>
    if u.tail ≠ u.taken && u.slot u.pTail = .released then
      Ring.passTail n { u.setSlot u.pTail .free with tail := u.tail + 1, pTail := (u.pTail + 1) % u.nslots }
    else u

/-- Takes the slot at index taken. -/
def Ring.take (u : Ring) : Ring :=
  { u.setSlot u.pTaken .taken with taken := u.taken + 1, pTaken := (u.pTaken + 1) % u.nslots }

/-- The commit of a hand-over takes one slot, which head may not have passed. -/
def Ring.commitOne (u : Ring) : Ring :=
  (if u.head = u.taken then { u with head := u.head + 1, pHead := (u.pHead + 1) % u.nslots } else u).take

def Ring.commitMany : Nat → Ring → Ring
  | 0, u => u
  | n + 1, u => Ring.commitMany n u.commitOne

/-! ### Waiting (R168, R372) -/

/-- Wake events of a commit, take or free: the cells with a handle that binds the unit (R372). -/
def State.wakeRing (s : State) (u : Ring) : State :=
  s.wakeWhere (fun c => c.cluster = u.cluster && c.firing = u.firing && c.q.toList.contains (some u.unit))

/-- A word waits on a ring unit in the order of arrival for its kind (R168): it goes on when it is first and `ok` holds. -/
def ringWait (s : State) (u : Ring) (kind : RingWait) (ok : Bool) (go : State → Ring → Out) : Out :=
  let me := (kind, s.cpu.id)
  let mine := u.waiters.filter (fun w => w.1 == kind)
  let first := match mine.head? with
    | none => true
    | some w => w == me
  if first && ok then
    let u := { u with waiters := u.waiters.filter (fun w => w != me) }
    go (s.setRing u) u
  else if u.waiters.contains me then .next s
  else .next (s.setRing { u with waiters := u.waiters ++ [me] })

/-! ### Hand-over commits (R112, R165) -/

/-- Hand-over `num` of the sender group of a team on a ring handle (R112). -/
def Handover.is (h : Handover) (team sender handle num : Nat) : Bool :=
  h.team == team && h.sender == sender && h.handle == handle && h.num == num

/-- Two entries are one hand-over. -/
def Handover.same (h k : Handover) : Bool := k.is h.team h.sender h.handle h.num

/-- Every sender member of a hand-over has arrived. -/
def Handover.complete (h : Handover) (senders : Nat) : Bool := h.claimed && senders ≤ h.arrived.length

/-- The number of members of a role in a team, pre-empted ones too (R107). -/
def State.roleSize (s : State) (team role : Nat) : Nat :=
  match (s.allCells ++ s.saved).find? (fun c => c.team == team && (c.running || c.preempted)) with
  | some c => c.roleCount role
  | none => 0

/-- A hand-over of the unit that may commit: all senders there, taken at its first index (R165). -/
def readyHandover (s : State) (u : Ring) : Option Handover :=
  u.handovers.find? (fun h => !h.committed && h.complete (s.roleSize h.team h.sender) && h.h0 = u.taken)

/-- Commits a hand-over. -/
def Ring.commit (u : Ring) (h : Handover) : Ring :=
  let u := { Ring.commitMany h.count u with
    handovers := u.handovers.map (fun k => if h.same k then { k with committed := true } else k) }
  Ring.passHead u.nslots u

/-- Commits the hand-overs of a unit that may. -/
def State.commitRing (cluster unit : Nat) : Nat → State → State
  | 0, s => s
  | n + 1, s =>
    match s.rings.find? (fun u => u.cluster == cluster && u.unit == unit) with
    | none => s
    | some u =>
      match readyHandover s u with
      | none => s
      | some h => State.commitRing cluster unit n ((s.setRing (u.commit h)).wakeRing u)

/-- The same at once after a ring word, when the model's units act as soon as they may (DESIGN CHOICE, assumption log 4). -/
def State.settleRing (s : State) (u : Ring) : State :=
  if s.cpu.eager then s.commitRing u.cluster u.unit u.handovers.length else s

/-- Once the last sender has arrived and taken equals h0, commits the slots to the receiver group. (R112) -/
def execHandoffCommit (cluster : Nat) (unit : Nat) (s : State) : Out := .next (s.commitRing cluster unit 1)

/-! ### Ring words (R164, R166, R167) -/

/-- The lowest unit of a cluster that is not in use. -/
def State.freeUnit (s : State) (cluster : Nat) : Option Nat :=
  (List.range 64).find? (fun n => !s.rings.any (fun u => u.cluster == cluster && u.unit == n))

def bindHandle (q : BitVec 5) (n : Option Nat) (s : State) : Out :=
  .next (s.upd (fun c => { c with q := c.q.set (mod16 q.toNat) n })).advance

/-- The geometry rule of R164. -/
def geomOk (g : Word) : Bool :=
  g.extractLsb' 49 15 = 0 && geomBase g % 128 = 0 && 1 ≤ geomSize g && geomSize g ≤ 8192 && 1 ≤ geomSlots g &&
  geomSlots g ≤ 4096 && geomBase g + 128 * geomSize g * geomSlots g ≤ (geomBase g / 2 ^ 20 + 1) * 2 ^ 20

/-- A new ring unit: all counts zero, all slots free. -/
def Ring.fresh (cluster unit firing key : Nat) (g : Word) : Ring :=
  ⟨cluster, unit, firing, key, g, 0, 0, 0, 0, 0, 0, 0, 0, List.replicate (geomSlots g) .free, [], []⟩

/-- Binds a ring handle to a ring unit by geometry and key, or unbinds it. (R164) -/
def execRinginit (b : BitVec 5) (a : BitVec 5) (q : BitVec 5) (r : BitVec 3) (s : State) : Out :=
  frontWord r [a, b] s (fun s =>
    let g := s.x a
    let key := s.x b
    if g = 0 then bindHandle q none s
    else if key.extractLsb' 16 48 ≠ 0 || !geomOk g then trapOut s 0x0A g
    else
      match s.cpu.outside (geomBase g) (128 * geomSize g * geomSlots g) with
      | some bad => trapOut s 5 (BitVec.ofNat 64 bad)
      | none =>
        match s.rings.find? (fun u => u.cluster == s.cpu.cluster && u.firing == s.cpu.firing && u.key == key.toNat) with
        | some u => if u.geom ≠ g then trapOut s 0x0A g else bindHandle q (some u.unit) s
        | none =>
          match s.freeUnit s.cpu.cluster with
          | none => trapOut s 0x0A key
          | some n =>
            bindHandle q (some n) { s with rings := s.rings ++ [Ring.fresh s.cpu.cluster n s.cpu.firing key.toNat g] })

/-- The word of a bound handle; an unbound one traps (R167). -/
def withRing (q : Nat) (s : State) (body : Ring → Out) : Out :=
  match s.ringOf q with
  | none => trapOut s 0x0A (BitVec.ofNat 64 q)
  | some u => body u

/-- Waits for a free slot and claims the slot at index claimed. (R166) -/
def execRingclaim (q : BitVec 5) (d : BitVec 5) (r : BitVec 3) (s : State) : Out :=
  frontWord r [d] s (fun s => withRing q.toNat s (fun u =>
    ringWait s u .claim (u.room ≠ 0) (fun s u => .next ((s.setRing u.claim).setX d (u.ref u.pClaimed)).advance)))

/-- Fills a claimed slot after a release at cluster scope. (R166) -/
def execRingcommit (b : BitVec 5) (q : BitVec 5) (r : BitVec 3) (s : State) : Out :=
  frontWord r [b] s (fun s => withRing q.toNat s (fun u =>
    let i := ((s.x b).extractLsb' 0 12).toNat
    if u.nslots ≤ i || u.slot i ≠ .claimed then trapOut s 0x0A (BitVec.ofNat 64 i)
    else if !s.cpu.memoryQuiet then .next s
    else if s.releaseWaits 1 then .next s.stallRelease
    else
      let u := Ring.passHead u.nslots (u.setSlot i .filled)
      .next ((((s.release 1).setRing u).settleRing u).wakeRing u).advance))

/-- Waits for the next filled slot and takes it, then an acquire at cluster scope. (R166) -/
def execRingtake (q : BitVec 5) (d : BitVec 5) (r : BitVec 3) (s : State) : Out :=
  frontWord r [d] s (fun s => withRing q.toNat s (fun u =>
    ringWait s u .take (u.filled ≠ 0 && u.slot u.pTaken = .filled) (fun s u =>
      let s := ((s.setRing u.take).settleRing u).wakeRing u
      .next ((s.acquire 1).setX d (u.ref u.pTaken)).advance)))

/-- Releases a taken slot; the tail passes every consecutive released slot. (R166) -/
def execRingfree (b : BitVec 5) (q : BitVec 5) (r : BitVec 3) (s : State) : Out :=
  frontWord r [b] s (fun s => withRing q.toNat s (fun u =>
    let i := ((s.x b).extractLsb' 0 12).toNat
    if u.nslots ≤ i || u.slot i ≠ .taken then trapOut s 0x0A (BitVec.ofNat 64 i)
    else .next ((s.setRing (Ring.passTail u.nslots (u.setSlot i .released))).wakeRing u).advance))

/-- waitfill and waitfree: a count of 0 completes at once (R167). -/
def waitCount (kind : RingWait) (count : Ring → Nat) (b q d : BitVec 5) (s : State) : Out :=
  withRing q.toNat s (fun u =>
    let n := s.x b
    if u.nslots < n.toNat then trapOut s 0x0A n
    else if n = 0 then .next (s.setX d (BitVec.ofNat 64 (count u))).advance
    else ringWait s u kind (n.toNat ≤ count u) (fun s u => .next (s.setX d (BitVec.ofNat 64 (count u))).advance))

/-- Waits until at least X(rs2) slots are filled and not taken. (R166) -/
def execWaitfill (b : BitVec 5) (q : BitVec 5) (d : BitVec 5) (r : BitVec 3) (s : State) : Out :=
  frontWord r [d, b] s (waitCount .fill Ring.filled b q d)

/-- Waits until at least X(rs2) slots are free. (R166) -/
def execWaitfree (b : BitVec 5) (q : BitVec 5) (d : BitVec 5) (r : BitVec 3) (s : State) : Out :=
  frontWord r [d, b] s (waitCount .free Ring.room b q d)

/-! ### handoff (R111 to R114) -/

/-- Hand-overs that a cell has executed on a ring handle as a sender, and as a receiver from a sender group. -/
def sentOf (c : Cell) (handle : Nat) : Nat := ((c.sent.find? (fun e => e.1 == handle)).getD (0, 0)).2
def receivedOf (c : Cell) (sender handle : Nat) : Nat :=
  ((c.received.find? (fun e => e.1 == (sender, handle))).getD ((0, 0), 0)).2

/-- A hand-over of the unit, by team, sender, handle and number. -/
def Ring.handover (u : Ring) (team sender handle num : Nat) : Option Handover :=
  u.handovers.find? (fun h => h.is team sender handle num)

def Ring.setHandover (u : Ring) (h : Handover) : Ring :=
  { u with handovers := u.handovers.map (fun k => if h.same k then h else k) }

/-- The first index of a group's next hand-over on a handle (R112). -/
def firstIndex (u : Ring) (team sender handle num : Nat) : BitVec 32 :=
  match u.handover team sender handle (num - 1) with
  | none => u.head
  | some p =>
    let e := p.h0 + BitVec.ofNat 32 p.count
    if (e - u.head).toInt < 0 then u.head else e

/-- Step 2 of R112: release, arrival, and the member completes. -/
def arriveHandoff (s : State) (u : Ring) (h : Handover) (num : Nat) : Out :=
  if !s.cpu.memoryQuiet then .next s
  else if s.releaseWaits 1 then .next s.stallRelease
  else
    let s := s.release 1
    let u := u.setHandover { h with arrived := h.arrived ++ [s.cpu.id] }
    let s := s.upd (fun c => { c with sent := (h.handle, num) :: c.sent.filter (fun e => e.1 != h.handle) })
    .next ((s.setRing u).settleRing u).advance

/-- Slots that a hand-over must still claim. -/
def missing (u : Ring) (h : Handover) : Nat :=
  let m := h.h0 + BitVec.ofNat 32 h.count - u.claimed
  if m.toInt ≤ 0 then 0 else m.toNat

/-- The sending side (R112); the slots that it names are checked against ranges as a write (R104). -/
def sendHandoff (s : State) (u : Ring) (q snd rcv n : Nat) : Out :=
  let num := sentOf s.cpu q + 1
  let (u, h) := match u.handover s.cpu.team snd q num with
    | some h => (u, h)
    | none =>
      let h : Handover := ⟨s.cpu.team, snd, q, num, rcv, n, firstIndex u s.cpu.team snd q num, s.cpu.id, false, [], false⟩
      ({ u with handovers := u.handovers ++ [h] }, h)
  if h.receiver ≠ rcv || h.count ≠ n then trapOut s 0x0B (BitVec.ofNat 64 (snd + 8 * rcv))
  else if s.cpu.rangesBusy [⟨geomBase u.geom / 128, geomSize u.geom * u.nslots, true⟩] then .next s
  else if h.claimed then arriveHandoff (s.setRing u) u h num
  else if h.claimer ≠ s.cpu.id then .next s
  else
    let m := missing u h
    if m = 0 then
      let h := { h with claimed := true }
      arriveHandoff (s.setRing (u.setHandover h)) (u.setHandover h) h num
    else
      ringWait (s.setRing u) u .claim (m ≤ u.room) (fun s u =>
        let h := { h with claimed := true }
        let u := (Ring.claimMany m u).setHandover h
        arriveHandoff (s.setRing u) u h num)

/-- The receiving side (R113). -/
def receiveHandoff (s : State) (u : Ring) (q snd : Nat) : Out :=
  let j := receivedOf s.cpu snd q
  match (u.handovers.filter (fun h => h.team == s.cpu.team && h.sender == snd && h.handle == q && h.receiver == s.cpu.role))[j]? with
  | none => .next s
  | some h =>
    if !h.committed then .next s
    else
      .next ((s.acquire 1).upd (fun c => { c with
        received := ((snd, q), j + 1) :: c.received.filter (fun e => e.1 != (snd, q)) })).advance

/-- Claims and commits slots from a sender group to a receiver group, both roles executing the word. (R111) -/
def execHandoff (v : BitVec 3) (q : BitVec 4) (n : BitVec 8) (sc : BitVec 3) (s : State) : Out :=
  let snd := sc.toNat
  let rcv := v.toNat
  if s.cpu.role ≠ snd && s.cpu.role ≠ rcv then .next s.advance
  else if s.cpu.roleCount snd = 0 || s.cpu.roleCount rcv = 0 then trapOut s 0x0B (BitVec.ofNat 64 (snd + 8 * rcv))
  else
    withRing q.toNat s (fun u =>
      if u.nslots < n.toNat then trapOut s 0x0A (BitVec.ofNat 64 n.toNat)
      else if s.cpu.role = snd then sendHandoff s u q.toNat snd rcv n.toNat
      else receiveHandoff s u q.toNat snd)

end Sys2Proof.Machine
end

