-- ==== Sys2Proof/Machine/Scalar.lean ====
section
/-! DEFINITION. The RV64 base without memory and CSR accesses (R43, R44): arithmetic, branches and jumps, ECALL, EBREAK, WFI. -/

namespace Sys2Proof.Machine

/-- The low 32 bits of a word, and a 32-bit result sign-extended. -/
def low32 (a : Word) : BitVec 32 := a.extractLsb' 0 32
def wide (a : BitVec 32) : Word := sext64 a

/-- A result in rd, then on to the next word. -/
def setAdvance (rd : BitVec 5) (v : Word) (s : State) : Out := .next (s.setX rd v).advance

/-- A register-immediate or register-register operation waits for its busy registers (R97). -/
def aluImm (rd rs1 : BitVec 5) (f : Word → Word) (s : State) : Out :=
  baseWord [rd, rs1] s (fun s => setAdvance rd (f (s.x rs1)) s)
def aluReg (rd rs1 rs2 : BitVec 5) (f : Word → Word → Word) (s : State) : Out :=
  baseWord [rd, rs1, rs2] s (fun s => setAdvance rd (f (s.x rs1) (s.x rs2)) s)

/-- Division and remainder of the M extension: a zero divisor gives all ones and the dividend; the overflow gives the
dividend and 0. -/
def divS {n : Nat} (a b : BitVec n) : BitVec n := if b = 0 then BitVec.allOnes n else a.sdiv b
def divU {n : Nat} (a b : BitVec n) : BitVec n := if b = 0 then BitVec.allOnes n else a.udiv b
def remS {n : Nat} (a b : BitVec n) : BitVec n := if b = 0 then a else a.srem b
def remU {n : Nat} (a b : BitVec n) : BitVec n := if b = 0 then a else a.umod b

/-- The upper 64 bits of a product of integers. -/
def mulHi (a b : Int) : Word := BitVec.ofInt 64 (a * b / 2 ^ 64)

/-- The offset of a branch (bits [12:1]) and of a JAL (bits [20:1]). -/
def branchOffset (imm : BitVec 12) : Word := sext64 (imm ++ 0#1)
def jalOffset (imm : BitVec 20) : Word := sext64 (imm ++ 0#1)

/-- A conditional branch (R23, R43). -/
def branchIf (rs1 rs2 : BitVec 5) (imm : BitVec 12) (c : Word → Word → Bool) (s : State) : Out :=
  baseWord [rs1, rs2] s (fun s =>
    if c (s.x rs1) (s.x rs2) then .next (s.transfer (s.cpu.pc + branchOffset imm) s) else .next s.advance)

/-- RV64I load upper immediate with the published encoding and effect. (R43) -/
def execLui (rd : BitVec 5) (imm : BitVec 20) (s : State) : Out :=
  baseWord [rd] s (setAdvance rd (sext64 (imm ++ 0#12)))

/-- RV64I add upper immediate to pc. (R43) -/
def execAuipc (rd : BitVec 5) (imm : BitVec 20) (s : State) : Out :=
  baseWord [rd] s (setAdvance rd (s.cpu.pc + sext64 (imm ++ 0#12)))

/-- Jump and link; a target that is not a multiple of 4 traps with cause 0x03 and writes no rd. (R23) -/
def execJal (rd : BitVec 5) (imm : BitVec 20) (s : State) : Out :=
  baseWord [rd] s (fun s => .next (s.transfer (s.cpu.pc + jalOffset imm) (s.setX rd (s.cpu.pc + 4))))

/-- Indirect jump and link; a misaligned target traps with cause 0x03 on the jump. (R23) -/
def execJalr (rd : BitVec 5) (rs1 : BitVec 5) (imm : BitVec 12) (s : State) : Out :=
  baseWord [rd, rs1] s (fun s =>
    .next (s.transfer ((s.x rs1 + sext64 imm) &&& ~~~1#64) (s.setX rd (s.cpu.pc + 4))))

/-- Branch if equal; a misaligned target traps under R23. (R43) -/
def execBeq (rs1 : BitVec 5) (rs2 : BitVec 5) (imm : BitVec 12) (s : State) : Out :=
  branchIf rs1 rs2 imm (fun a b => a == b) s

/-- Branch if not equal. (R43) -/
def execBne (rs1 : BitVec 5) (rs2 : BitVec 5) (imm : BitVec 12) (s : State) : Out :=
  branchIf rs1 rs2 imm (fun a b => a != b) s

/-- Branch if less than, signed. (R43) -/
def execBlt (rs1 : BitVec 5) (rs2 : BitVec 5) (imm : BitVec 12) (s : State) : Out :=
  branchIf rs1 rs2 imm (fun a b => a.toInt < b.toInt) s

/-- Branch if greater or equal, signed. (R43) -/
def execBge (rs1 : BitVec 5) (rs2 : BitVec 5) (imm : BitVec 12) (s : State) : Out :=
  branchIf rs1 rs2 imm (fun a b => b.toInt ≤ a.toInt) s

/-- Branch if less than, unsigned. (R43) -/
def execBltu (rs1 : BitVec 5) (rs2 : BitVec 5) (imm : BitVec 12) (s : State) : Out :=
  branchIf rs1 rs2 imm (fun a b => a.toNat < b.toNat) s

/-- Branch if greater or equal, unsigned. (R43) -/
def execBgeu (rs1 : BitVec 5) (rs2 : BitVec 5) (imm : BitVec 12) (s : State) : Out :=
  branchIf rs1 rs2 imm (fun a b => b.toNat ≤ a.toNat) s

/-- Add immediate. (R43) -/
def execAddi (rd : BitVec 5) (rs1 : BitVec 5) (imm : BitVec 12) (s : State) : Out :=
  aluImm rd rs1 (fun a => a + sext64 imm) s

/-- Set if less than immediate, signed. (R43) -/
def execSlti (rd : BitVec 5) (rs1 : BitVec 5) (imm : BitVec 12) (s : State) : Out :=
  aluImm rd rs1 (fun a => boolWord (a.toInt < imm.toInt)) s

/-- Set if less than immediate, unsigned. (R43) -/
def execSltiu (rd : BitVec 5) (rs1 : BitVec 5) (imm : BitVec 12) (s : State) : Out :=
  aluImm rd rs1 (fun a => boolWord (a.toNat < (sext64 imm).toNat)) s

/-- Exclusive or with immediate. (R43) -/
def execXori (rd : BitVec 5) (rs1 : BitVec 5) (imm : BitVec 12) (s : State) : Out :=
  aluImm rd rs1 (fun a => a ^^^ sext64 imm) s

/-- Or with immediate. (R43) -/
def execOri (rd : BitVec 5) (rs1 : BitVec 5) (imm : BitVec 12) (s : State) : Out :=
  aluImm rd rs1 (fun a => a ||| sext64 imm) s

/-- And with immediate. (R43) -/
def execAndi (rd : BitVec 5) (rs1 : BitVec 5) (imm : BitVec 12) (s : State) : Out :=
  aluImm rd rs1 (fun a => a &&& sext64 imm) s

/-- Shift left logical by immediate. (R43) -/
def execSlli (rd : BitVec 5) (rs1 : BitVec 5) (sh : BitVec 6) (s : State) : Out :=
  aluImm rd rs1 (fun a => a <<< sh.toNat) s

/-- Shift right logical by immediate. (R43) -/
def execSrli (rd : BitVec 5) (rs1 : BitVec 5) (sh : BitVec 6) (s : State) : Out :=
  aluImm rd rs1 (fun a => a >>> sh.toNat) s

/-- Shift right arithmetic by immediate. (R43) -/
def execSrai (rd : BitVec 5) (rs1 : BitVec 5) (sh : BitVec 6) (s : State) : Out :=
  aluImm rd rs1 (fun a => a.sshiftRight sh.toNat) s

/-- Add immediate, 32-bit result sign-extended. (R43) -/
def execAddiw (rd : BitVec 5) (rs1 : BitVec 5) (imm : BitVec 12) (s : State) : Out :=
  aluImm rd rs1 (fun a => wide (low32 (a + sext64 imm))) s

/-- 32-bit shift left by immediate. (R43) -/
def execSlliw (rd : BitVec 5) (rs1 : BitVec 5) (sh : BitVec 5) (s : State) : Out :=
  aluImm rd rs1 (fun a => wide (low32 a <<< sh.toNat)) s

/-- 32-bit shift right logical by immediate. (R43) -/
def execSrliw (rd : BitVec 5) (rs1 : BitVec 5) (sh : BitVec 5) (s : State) : Out :=
  aluImm rd rs1 (fun a => wide (low32 a >>> sh.toNat)) s

/-- 32-bit shift right arithmetic by immediate. (R43) -/
def execSraiw (rd : BitVec 5) (rs1 : BitVec 5) (sh : BitVec 5) (s : State) : Out :=
  aluImm rd rs1 (fun a => wide ((low32 a).sshiftRight sh.toNat)) s

/-- Zba shift unsigned word left by immediate. (R43) -/
def execSlliUw (rd : BitVec 5) (rs1 : BitVec 5) (sh : BitVec 6) (s : State) : Out :=
  aluImm rd rs1 (fun a => zext64 (low32 a) <<< sh.toNat) s

/-- Add registers. (R43) -/
def execAdd (rd : BitVec 5) (rs1 : BitVec 5) (rs2 : BitVec 5) (s : State) : Out :=
  aluReg rd rs1 rs2 (fun a b => a + b) s

/-- Subtract registers. (R43) -/
def execSub (rd : BitVec 5) (rs1 : BitVec 5) (rs2 : BitVec 5) (s : State) : Out :=
  aluReg rd rs1 rs2 (fun a b => a - b) s

/-- Shift left logical. (R43) -/
def execSll (rd : BitVec 5) (rs1 : BitVec 5) (rs2 : BitVec 5) (s : State) : Out :=
  aluReg rd rs1 rs2 (fun a b => a <<< (b.toNat % 64)) s

/-- Set if less than, signed. (R43) -/
def execSlt (rd : BitVec 5) (rs1 : BitVec 5) (rs2 : BitVec 5) (s : State) : Out :=
  aluReg rd rs1 rs2 (fun a b => boolWord (a.toInt < b.toInt)) s

/-- Set if less than, unsigned. (R43) -/
def execSltu (rd : BitVec 5) (rs1 : BitVec 5) (rs2 : BitVec 5) (s : State) : Out :=
  aluReg rd rs1 rs2 (fun a b => boolWord (a.toNat < b.toNat)) s

/-- Exclusive or. (R43) -/
def execXor (rd : BitVec 5) (rs1 : BitVec 5) (rs2 : BitVec 5) (s : State) : Out :=
  aluReg rd rs1 rs2 (fun a b => a ^^^ b) s

/-- Shift right logical. (R43) -/
def execSrl (rd : BitVec 5) (rs1 : BitVec 5) (rs2 : BitVec 5) (s : State) : Out :=
  aluReg rd rs1 rs2 (fun a b => a >>> (b.toNat % 64)) s

/-- Shift right arithmetic. (R43) -/
def execSra (rd : BitVec 5) (rs1 : BitVec 5) (rs2 : BitVec 5) (s : State) : Out :=
  aluReg rd rs1 rs2 (fun a b => a.sshiftRight (b.toNat % 64)) s

/-- Or. (R43) -/
def execOr (rd : BitVec 5) (rs1 : BitVec 5) (rs2 : BitVec 5) (s : State) : Out :=
  aluReg rd rs1 rs2 (fun a b => a ||| b) s

/-- And. (R43) -/
def execAnd (rd : BitVec 5) (rs1 : BitVec 5) (rs2 : BitVec 5) (s : State) : Out :=
  aluReg rd rs1 rs2 (fun a b => a &&& b) s

/-- 32-bit add. (R43) -/
def execAddw (rd : BitVec 5) (rs1 : BitVec 5) (rs2 : BitVec 5) (s : State) : Out :=
  aluReg rd rs1 rs2 (fun a b => wide (low32 (a + b))) s

/-- 32-bit subtract. (R43) -/
def execSubw (rd : BitVec 5) (rs1 : BitVec 5) (rs2 : BitVec 5) (s : State) : Out :=
  aluReg rd rs1 rs2 (fun a b => wide (low32 (a - b))) s

/-- 32-bit shift left logical. (R43) -/
def execSllw (rd : BitVec 5) (rs1 : BitVec 5) (rs2 : BitVec 5) (s : State) : Out :=
  aluReg rd rs1 rs2 (fun a b => wide (low32 a <<< (b.toNat % 32))) s

/-- 32-bit shift right logical. (R43) -/
def execSrlw (rd : BitVec 5) (rs1 : BitVec 5) (rs2 : BitVec 5) (s : State) : Out :=
  aluReg rd rs1 rs2 (fun a b => wide (low32 a >>> (b.toNat % 32))) s

/-- 32-bit shift right arithmetic. (R43) -/
def execSraw (rd : BitVec 5) (rs1 : BitVec 5) (rs2 : BitVec 5) (s : State) : Out :=
  aluReg rd rs1 rs2 (fun a b => wide ((low32 a).sshiftRight (b.toNat % 32))) s

/-- Multiply, low bits. (R43) -/
def execMul (rd : BitVec 5) (rs1 : BitVec 5) (rs2 : BitVec 5) (s : State) : Out :=
  aluReg rd rs1 rs2 (fun a b => a * b) s

/-- Multiply high, signed by signed. (R43) -/
def execMulh (rd : BitVec 5) (rs1 : BitVec 5) (rs2 : BitVec 5) (s : State) : Out :=
  aluReg rd rs1 rs2 (fun a b => mulHi a.toInt b.toInt) s

/-- Multiply high, signed by unsigned. (R43) -/
def execMulhsu (rd : BitVec 5) (rs1 : BitVec 5) (rs2 : BitVec 5) (s : State) : Out :=
  aluReg rd rs1 rs2 (fun a b => mulHi a.toInt b.toNat) s

/-- Multiply high, unsigned. (R43) -/
def execMulhu (rd : BitVec 5) (rs1 : BitVec 5) (rs2 : BitVec 5) (s : State) : Out :=
  aluReg rd rs1 rs2 (fun a b => mulHi a.toNat b.toNat) s

/-- Divide, signed. (R43) -/
def execDiv (rd : BitVec 5) (rs1 : BitVec 5) (rs2 : BitVec 5) (s : State) : Out :=
  aluReg rd rs1 rs2 (fun a b => divS a b) s

/-- Divide, unsigned. (R43) -/
def execDivu (rd : BitVec 5) (rs1 : BitVec 5) (rs2 : BitVec 5) (s : State) : Out :=
  aluReg rd rs1 rs2 (fun a b => divU a b) s

/-- Remainder, signed. (R43) -/
def execRem (rd : BitVec 5) (rs1 : BitVec 5) (rs2 : BitVec 5) (s : State) : Out :=
  aluReg rd rs1 rs2 (fun a b => remS a b) s

/-- Remainder, unsigned. (R43) -/
def execRemu (rd : BitVec 5) (rs1 : BitVec 5) (rs2 : BitVec 5) (s : State) : Out :=
  aluReg rd rs1 rs2 (fun a b => remU a b) s

/-- 32-bit multiply. (R43) -/
def execMulw (rd : BitVec 5) (rs1 : BitVec 5) (rs2 : BitVec 5) (s : State) : Out :=
  aluReg rd rs1 rs2 (fun a b => wide (low32 (a * b))) s

/-- 32-bit signed divide. (R43) -/
def execDivw (rd : BitVec 5) (rs1 : BitVec 5) (rs2 : BitVec 5) (s : State) : Out :=
  aluReg rd rs1 rs2 (fun a b => wide (divS (low32 a) (low32 b))) s

/-- 32-bit unsigned divide. (R43) -/
def execDivuw (rd : BitVec 5) (rs1 : BitVec 5) (rs2 : BitVec 5) (s : State) : Out :=
  aluReg rd rs1 rs2 (fun a b => wide (divU (low32 a) (low32 b))) s

/-- 32-bit signed remainder. (R43) -/
def execRemw (rd : BitVec 5) (rs1 : BitVec 5) (rs2 : BitVec 5) (s : State) : Out :=
  aluReg rd rs1 rs2 (fun a b => wide (remS (low32 a) (low32 b))) s

/-- 32-bit unsigned remainder. (R43) -/
def execRemuw (rd : BitVec 5) (rs1 : BitVec 5) (rs2 : BitVec 5) (s : State) : Out :=
  aluReg rd rs1 rs2 (fun a b => wide (remU (low32 a) (low32 b))) s

/-- Zba add with the unsigned word of rs1. (R43) -/
def execAddUw (rd : BitVec 5) (rs1 : BitVec 5) (rs2 : BitVec 5) (s : State) : Out :=
  aluReg rd rs1 rs2 (fun a b => zext64 (low32 a) + b) s

/-- Zba shift left by 1 and add. (R43) -/
def execSh1add (rd : BitVec 5) (rs1 : BitVec 5) (rs2 : BitVec 5) (s : State) : Out :=
  aluReg rd rs1 rs2 (fun a b => (a <<< 1) + b) s

/-- Zba shift left by 2 and add. (R43) -/
def execSh2add (rd : BitVec 5) (rs1 : BitVec 5) (rs2 : BitVec 5) (s : State) : Out :=
  aluReg rd rs1 rs2 (fun a b => (a <<< 2) + b) s

/-- Zba shift left by 3 and add. (R43) -/
def execSh3add (rd : BitVec 5) (rs1 : BitVec 5) (rs2 : BitVec 5) (s : State) : Out :=
  aluReg rd rs1 rs2 (fun a b => (a <<< 3) + b) s

/-- Zba shift unsigned word left by 1 and add. (R43) -/
def execSh1addUw (rd : BitVec 5) (rs1 : BitVec 5) (rs2 : BitVec 5) (s : State) : Out :=
  aluReg rd rs1 rs2 (fun a b => (zext64 (low32 a) <<< 1) + b) s

/-- Zba shift unsigned word left by 2 and add. (R43) -/
def execSh2addUw (rd : BitVec 5) (rs1 : BitVec 5) (rs2 : BitVec 5) (s : State) : Out :=
  aluReg rd rs1 rs2 (fun a b => (zext64 (low32 a) <<< 2) + b) s

/-- Zba shift unsigned word left by 3 and add. (R43) -/
def execSh3addUw (rd : BitVec 5) (rs1 : BitVec 5) (rs2 : BitVec 5) (s : State) : Out :=
  aluReg rd rs1 rs2 (fun a b => (zext64 (low32 a) <<< 3) + b) s

/-- Precise trap with cause 0x10, tval 0, tepc its own address. (R44) -/
def execEcall (s : State) : Out :=
  trapOut s 0x10 0

/-- Precise trap with cause 0x11, tval and tepc its own address. (R44) -/
def execEbreak (s : State) : Out :=
  trapOut s 0x11 s.cpu.pc

/-- Sleeps until a wake event for the context, completing at once if one is pending. (R44) -/
def execWfi (s : State) : Out :=
  if s.cpu.wake then .next (s.upd (fun c => { c with wake := false, asleep := false })).advance
  else .next (s.upd (fun c => { c with asleep := true }))

end Sys2Proof.Machine
end

