-- ==== Sys2Proof/Machine/Traps.lean ====
section
/-! DEFINITION. Handler instructions (R361 to R363, R371), pre-emption and resumption (R366, R367), trap-ring space (R370), wake events (R372), and the event of a precise trap (R354). -/

namespace Sys2Proof.Machine

/-! ### Replay entries (R358, R361) -/

/-- The queue to which an instruction is forwarded (R95). -/
def instrQueue (i : Instr) : Option Queue :=
  match i with
  | .vadd .. => some .arith
  | .vsub .. => some .arith
  | .vmul .. => some .arith
  | .vmulh .. => some .arith
  | .vand .. => some .arith
  | .vor .. => some .arith
  | .vxor .. => some .arith
  | .vsll .. => some .arith
  | .vsrl .. => some .arith
  | .vsra .. => some .arith
  | .vmin .. => some .arith
  | .vmax .. => some .arith
  | .vminu .. => some .arith
  | .vmaxu .. => some .arith
  | .vaddx .. => some .arith
  | .viota .. => some .arith
  | .vfadd .. => some .arith
  | .vfsub .. => some .arith
  | .vfmul .. => some .arith
  | .vfma .. => some .arith
  | .vfmin .. => some .arith
  | .vfmax .. => some .arith
  | .vfexp2 .. => some .arith
  | .vfrcp .. => some .arith
  | .vfrsqrt .. => some .arith
  | .vflog2 .. => some .arith
  | .vfmulx .. => some .arith
  | .vfaddx .. => some .arith
  | .vcmpeq .. => some .arith
  | .vcmplt .. => some .arith
  | .vcmpltu .. => some .arith
  | .vfcmpeq .. => some .arith
  | .vfcmplt .. => some .arith
  | .kopAnd .. => some .arith
  | .kopOr .. => some .arith
  | .kopXor .. => some .arith
  | .kopAndn .. => some .arith
  | .kpop .. => some .arith
  | .kpopFirst .. => some .arith
  | .vsel .. => some .arith
  | .vcvtn .. => some .arith
  | .vcvtw .. => some .arith
  | .vcvtif .. => some .arith
  | .vcvtfi .. => some .arith
  | .vredsum .. => some .arith
  | .vredsumI32 .. => some .arith
  | .vredmax .. => some .arith
  | .vredmaxI32 .. => some .arith
  | .vredmin .. => some .arith
  | .vredminI32 .. => some .arith
  | .vslide .. => some .arith
  | .vperm .. => some .arith
  | .vcompress .. => some .arith
  | .vmvxv .. => some .arith
  | .vmvvx .. => some .arith
  | .vsmaxacc .. => some .arith
  | .vsmaxfin .. => some .arith
  | .vsortkv .. => some .arith
  | .vseghead .. => some .arith
  | .vsppack .. => some .arith
  | .vldm .. => some .load
  | .vstm .. => some .store
  | .vldx .. => some .load
  | .vstx .. => some .store
  | .vlds .. => some .load
  | .vsts .. => some .store
  | .sprot .. => some .store
  | .tld .. => some .matrix
  | .tst .. => some .matrix
  | .mma .. => some .matrix
  | .mmaAcc .. => some .matrix
  | .mmaNeg .. => some .matrix
  | .mmas .. => some .matrix
  | .mmasAcc .. => some .matrix
  | .mmasNeg .. => some .matrix
  | .accz .. => some .matrix
  | .accscl .. => some .matrix
  | .accsclX .. => some .matrix
  | .accrd .. => some .matrix
  | .accrdCol .. => some .matrix
  | .accwr .. => some .matrix
  | .accwrCol .. => some .matrix
  | .epi .. => some .matrix
  | .mqctlWait .. => some .matrix
  | .mqctlRm .. => some .matrix
  | .mqctlFtb .. => some .matrix
  | .redaF32add .. => some .store
  | .redaBf16add .. => some .store
  | .redaI32add .. => some .store
  | .redaF32max .. => some .store
  | .redaF32min .. => some .store
  | .redaI32max .. => some .store
  | .redaI32min .. => some .store
  | .opu .. => some .state
  | .fwfwd .. => some .state
  | .fwupdD .. => some .state
  | .fwupdH .. => some .state
  | .fwupdE .. => some .state
  | .fwfuD .. => some .state
  | .fwfuDl .. => some .state
  | .fwfuH .. => some .state
  | .fwfuHl .. => some .state
  | .fwfuE .. => some .state
  | .fwsnapSnap .. => some .state
  | .fwsnapFork .. => some .state
  | .fwsnapRollback .. => some .state
  | .fwsnapFree .. => some .state
  | .fwavg .. => some .state
  | .fwmig .. => some .state
  | .fwctlPin .. => some .state
  | .fwctlUnpin .. => some .state
  | .fwctlQuery .. => some .state
  | .fwctlHint .. => some .state
  | .fwctlWait .. => some .state
  | .fwctlNew .. => some .state
  | .nbrd .. => some .load
  | _ => none

/-- The meta word of an entry. -/
def Cmd.metaWord (d : Cmd) : Nat := d.queue.code + d.trapped.toNat * 8 + d.progress % 2 ^ 16 * 2 ^ 16

/-- Dword `k` of an entry. -/
def Cmd.dword (d : Cmd) (k : Nat) : Word :=
  match k with
  | 0 => BitVec.ofNat 64 (d.word.toNat + d.metaWord * 2 ^ 32)
  | 1 => d.op0
  | 2 => d.op1
  | _ => d.op2

/-- A selector of R361 is sound. -/
def selectorOk (s : State) (v : Word) : Bool :=
  v.extractLsb' 8 56 = 0 &&
  (if v.getLsbD 7 then v.extractLsb' 5 2 = 0 else (v.extractLsb' 0 5).toNat < s.cpu.replay.length)

def selIndex (v : Word) : Nat := (v.extractLsb' 0 5).toNat
def selDword (v : Word) : Nat := (v.extractLsb' 5 2).toNat

/-- A task-bank register, and its write (R353). -/
def Cell.task (c : Cell) (n : BitVec 5) : Word := if n = 0 then 0 else c.x[n.toNat]'(n.isLt)
def Cell.setTask (c : Cell) (n : BitVec 5) (v : Word) : Cell :=
  if n = 0 then c else { c with x := c.x.set n.toNat v n.isLt, poison := c.heal (.x n.toNat) }

/-- A handler instruction: in task mode it traps. -/
def handlerWord (r : BitVec 3) (regs : List (BitVec 5)) (s : State) (body : State → Out) : Out :=
  frontWord r regs s (fun s => if !s.cpu.handler then trapOut s 1 0 else body s)

/-- Reads a replay-entry dword or a task-bank register; a poisoned one traps (R412; DESIGN CHOICE, assumption log 45). (R361) -/
def execRqrd (a : BitVec 5) (d : BitVec 5) (r : BitVec 3) (s : State) : Out :=
  handlerWord r [d, a] s (fun s =>
    let v := s.x a
    if !selectorOk s v then trapOut s 1 v
    else if v.getLsbD 7 then
      if s.cpu.poison.contains (.x (selIndex v)) then
        let (t, s) := s.free
        trapOut s 0x12 t
      else .next (s.setX d (s.cpu.task (v.extractLsb' 0 5))).advance
    else
      match s.cpu.replay[selIndex v]? with
      | some e => .next (s.setX d (e.dword (selDword v))).advance
      | none => .next s)

/-- What program order would capture beside the operands for a rewritten word, as the registers stand now (DEDUCED, assumption log 24). -/
def auxFor (c : Cell) (i : Instr) : Word :=
  match i with
  | .vcvtn _ f _ _ _ | .vcvtw _ f _ _ _ => c.convAux f
  | .vcvtif .. | .vcvtfi .. => c.vrm
  | .mma .. | .mmaAcc .. | .mmaNeg .. | .mmas .. | .mmasAcc .. | .mmasNeg .. | .accz .. => c.ftEntry
  | _ => 0

/-- An entry with its first dword rewritten, when R361 lets it be. -/
def Cmd.rewrite (c : Cell) (d : Cmd) (v : Word) : Option Cmd :=
  match decodeEngine (v.extractLsb' 0 32) with
  | .error _ => none
  | .ok i =>
    if instrQueue i ≠ some d.queue ∨ v.extractLsb' 36 12 ≠ 0 ∨ v.extractLsb' 32 4 ≠ BitVec.ofNat 4 (d.metaWord % 16) then none
    else some { d with
      instr := i
      word := v.extractLsb' 0 32
      aux := if d.word = v.extractLsb' 0 32 then d.aux else auxFor c i
      progress := (v.extractLsb' 48 16).toNat }

/-- Writes dword `k` of entry `i`. -/
def writeEntry (i k : Nat) (v : Word) (s : State) : Out :=
  match s.cpu.replay[i]? with
  | none => .next s
  | some d =>
    let put (d : Cmd) : Out := .next (s.upd (fun c => { c with replay := c.replay.set i d })).advance
    match k with
    | 0 =>
      match d.rewrite s.cpu v with
      | none => trapOut s 1 v
      | some d => put d
    | 1 => put { d with op0 := v }
    | 2 => put { d with op1 := v }
    | _ => put { d with op2 := v }

/-- Writes a replay-entry dword or a task-bank register. (R361) -/
def execRqwr (b : BitVec 5) (a : BitVec 5) (r : BitVec 3) (s : State) : Out :=
  handlerWord r [a, b] s (fun s =>
    let sel := s.x a
    let v := s.x b
    if !selectorOk s sel then trapOut s 1 sel
    else if sel.getLsbD 7 then .next (s.upd (fun c => c.setTask (sel.extractLsb' 0 5) v)).advance
    else writeEntry (selIndex sel) (selDword sel) v s)

/-- Removes one replay entry and its resources. (R362) -/
def execRqdrop (a : BitVec 5) (r : BitVec 3) (s : State) : Out :=
  handlerWord r [a] s (fun s =>
    let v := s.x a
    match s.cpu.replay[v.toNat]? with
    | none => trapOut s 1 v
    | some d => .next ((s.dropHold d.hold).upd (fun c => { c with replay := c.replay.eraseIdx v.toNat })).advance)

/-- The bytes that a cell has not published follow every read that it has placed (R319). -/
def Cell.restamp (c : Cell) : Cell := { c with l1 := c.l1.map (fun l => { l with seq := c.vseq }) }

/-- Re-injection into task mode, and the trap of an entry that fails (R363): the entries placed before it are captured
again, in order. (DEDUCED, assumption log 32) -/
def reenter (entries : List Cmd) (s : State) : State :=
  match reinject entries s with
  | (s, none) => (s.upd Cell.restamp).settle
  | (s, some (left, d, cause, v)) =>
    let marked := match left with
      | [] => []
      | e :: rest => { e with trapped := true } :: rest
    let s := s.upd (fun c => { c with
      replay := c.pending.map (fun e => { e with ranges := [] }) ++ marked
      pending := [] })
    s.enterTrap cause v s.cpu.pc d.pc d.word none

/-- Leaves handler mode, re-injecting the replay queue and resuming at tepc. (R363) -/
def execTrapret (r : BitVec 3) (s : State) : Out :=
  handlerWord r [] s (fun s =>
    if !s.cpu.pending.isEmpty then .next s
    else
      let entries := s.cpu.replay
      let s := s.upd (fun c => { c with
        handler := false
        pc := c.tepc
        loops := c.savedLoops
        lc := c.savedLc
        savedLoops := []
        hold := match c.savedHold with
          | some (pc, h) => if pc = c.tepc then some h else none
          | none => none
        savedHold := none
        replay := [] })
      .next (reenter entries s))

/-- Posts a software record to the trap ring. (R371) -/
def execTrec (b : BitVec 5) (a : BitVec 5) (r : BitVec 3) (s : State) : Out :=
  frontWord r [a, b] s (fun s =>
    let c := s.x a
    if c.extractLsb' 16 48 ≠ 0 then trapOut s 1 c
    else
      match s.context s.cpu.ctx with
      | none => .next s.advance
      | some x =>
        match ringHeldAt s x.ringBase with
        | some k => .next (s.stall k)
        | none =>
          let s := flushLost s x.id x.ringBase
          if ringFull s x.ringBase || s.held.any (fun h => h.ctx = x.id) then .next s
          else
            let bs := record 7 c.toNat s.cpu.id s.now s.cpu.pc.toNat (s.x b).toNat []
            .next (writeRecord s x.id x.ringBase bs).advance)

/-! ### Trap rings and wakes (R370, R372) -/

/-- Posts the held records of a context while there is room and the ring's channel serves them (R293), oldest first; a type-8 record that
is due goes first, and also with no record held. That of a unit which cannot stall is dropped when it finds the ring full. -/
def State.postHeld (ctx : Nat) : Nat → State → State
  | 0, s =>
    match s.context ctx with
    | some c =>
      match ringHeldAt s c.ringBase with
      | some k => s.stall k
      | none => flushLost s ctx c.ringBase
    | none => s
  | n + 1, s =>
    match s.context ctx, s.held.find? (fun h => h.ctx == ctx) with
    | some c, some h =>
      match ringHeldAt s c.ringBase with
      | some k => s.stall k
      | none =>
        let s := flushLost s ctx c.ringBase
        if !ringFull s c.ringBase then
          State.postHeld ctx n (writeRecord { s with held := s.held.erase h } ctx c.ringBase h.bytes)
        else if h.producer = 6 then
          State.postHeld ctx n (dropRecord { s with held := s.held.erase h } ctx c.ringBase)
        else s
    | _, _ => s

/-- Held records are posted in order when ring space returns. (R370) -/
def execTrapRingSpaceReturn (ctx : Nat) (s : State) : Out := .next (State.postHeld ctx s.held.length s)

/-- A wake event for the context ends a waiting WFI; with none waiting it stays pending. The events of R372 themselves set `wake`, so
without one nothing happens. (R372) -/
def execWfiWake (cell : Nat) (s : State) : Out :=
  let s := s.focus cell
  if s.cpu.asleep && s.cpu.wake then .next (s.upd (fun c => { c with asleep := false, wake := false })).advance
  else .next s

/-! ### A precise trap as an event (R354) -/

/-- The causes that the device raises (R357). -/
def raised (cause : Nat) : Bool := 1 ≤ cause && cause ≤ 0x16 && cause ≠ 0x0D && cause ≠ 0x0F && cause ≠ 0x13

/-- The die that a trap of the acting cell has lost (R346): the home of the address for cause 0x06, and for cause 0x16 the offline die,
the cell's own. -/
def State.lostDie (s : State) (cause : Nat) (tval : Word) : Option Nat :=
  if cause = 6 then (s.ctxPlace s.cpu.ctx tval).map (homeDie s.fuses) else if cause = 0x16 then some s.cpu.die else none

/-- Drains engines, captures the replay queue, sets tcause, tval and tepc, and enters the handler or faults the node: the
cell's word at the front end traps with this cause and value. (R354) (DESIGN CHOICE, assumption log 34) -/
def execPreciseTrap (cause : Nat) (tval : Word) (s : State) : Out :=
  if raised cause then .next (s.trap cause tval (s.lostDie cause tval)) else .next s

/-! ### Pre-emption (R366, R367) -/

/-- The commands of a cell as they are captured: granted holds stay, requests that wait go (R360). -/
def capturedCmds (s : State) (l : List Cmd) : List Cmd :=
  l.map (fun d => { d with
    trapped := false
    started := false
    ranges := []
    kept := []
    hold := d.hold.bind (fun id => if s.holdReqs.any (fun q => q.id == id) then none else some id) })

/-- The context of a cell as it goes to its save area. The request itself is a wake event: a waiting WFI completes before the state is
saved, and else the event stays pending (R372). A waiting nbmode has had no effect and issues again (R299). -/
def savedContext (s : State) (c : Cell) : Cell :=
  let cmds := capturedCmds s c.pending
  let c := if c.asleep then { c.flowTo (c.pc + 4) with asleep := false, wake := false } else { c with wake := true }
  let c := { c with running := false, preempted := true, nbBegun := false, reservation := none, pending := [], l1 := [], icache := [], tlb := [] }
  if c.handler then { c with capture := some ⟨cmds, c.pc⟩ } else { c with replay := cmds, tepc := c.pc }

/-- One cell is pre-empted: its context is saved, its registers and ring stay resident while there is room. -/
def State.preemptCell (s : State) (id : Nat) : State :=
  let c := s.cell id
  let kept := savedContext s c
  let gone := c.pending.filterMap (fun d => d.hold)
  let s := { s with holdReqs := s.holdReqs.filter (fun q => !gone.contains q.id) }
  let s := (s.leaveWaits id).updCell id (fun c =>
    let half := c.cls = 0
    { c.vacant with
      vRes := (c.firing, decide half, c.valloc) :: c.vRes
      aRes := (c.firing, decide half, c.accS) :: c.aRes })
  { s with saved := s.saved ++ [kept] }

/-- An Armed class-0 node wants the cells of a team: the team's cluster is eligible for it, no placement is free, and the
windows do not overlap (R338, R366, R367). -/
def State.wantedBy0 (s : State) (f : Firing) (t : TeamRun) : Bool :=
  s.graphs.any (fun g => g.armed.any (fun a =>
    let key := s.nodeKey g a.node a.ctx
    let w := s.nodeWindow g a.node
    s.nodeClass g a.node = 0 && s.nodeKind g a.node ≤ 2 && (s.place g a.node a.ctx 0).isNone &&
    (match s.winner (s.node g a.node 52 4) key with
      | some sec => (eligible (s.nodeKind g a.node) key sec).contains t.cluster
      | none => false) &&
    !overlap f.winBase f.winSize w.1 w.2))

/-- The team of the running firings with a number. -/
def State.teamOf (s : State) (team : Nat) : Option (Firing × TeamRun) :=
  s.firings.findSome? (fun f => (f.team team).map (fun t => (f, t)))

/-- Stops a whole team, captures replay queues and saves contexts to their save areas. (R366) -/
def execPreemption (team : Nat) (s : State) : Out :=
  match s.teamOf team with
  | none => .next s
  | some (f, t) =>
    if f.state ≠ .running || f.cls = 0 || !t.cells.all (fun id => (s.cell id).running && (s.cell id).team = team) ||
        !s.wantedBy0 f t then .next s
    else .next (t.cells.foldl (fun s id => s.preemptCell id) s)

/-- A saved context returns to its cell; its commands are placed again. -/
def State.resumeCell (s : State) (kept : Cell) : State :=
  let here := s.focus kept.id
  let p := here.cpu
  let half := kept.cls = 0
  let cmds := if kept.handler then (kept.capture.map (fun h => h.cmds)).getD [] else kept.replay
  let c := { kept with
    running := true
    preempted := false
    l1 := p.l1
    icache := p.icache
    tlb := p.tlb
    eager := p.eager
    redFlags := p.redFlags
    pc := if kept.handler then (kept.capture.map (fun h => h.resume)).getD kept.pc else kept.tepc
    capture := none
    replay := if kept.handler then kept.replay else []
    vRes := makeRoom half kept.valloc 32 33 (p.vRes.filter (fun e => e.1 != kept.firing))
    aRes := makeRoom half kept.accS (if half then 8 else 24) 33 (p.aRes.filter (fun e => e.1 != kept.firing)) }
  let s := { here with cpu := c, saved := here.saved.filter (fun d => !(d.id == kept.id && d.team == kept.team)) }
  reenter cmds s

/-- Restores a pre-empted context, re-injects its replay entries and fetches at tepc. (R367) -/
def execPreemptionResume (team : Nat) (s : State) : Out :=
  let kept := s.saved.filter (fun c => c.team = team)
  if kept.isEmpty || !kept.all (fun c => !(s.cell c.id).running && (s.cell c.id).firing = 0) then .next s
  else
    let me := s.cpu.id
    .next ((kept.foldl (fun s c => s.resumeCell c) s).focus me)

end Sys2Proof.Machine
end

