-- ==== Sys2Proof/Machine/Dispatch.lean ====
section
/-! DEFINITION. The meaning of every instruction and event: one arm per constructor of `Instr`. -/

namespace Sys2Proof.Machine

/-- Executes one instruction or event. -/
def exec (i : Instr) (s : State) : Host.Outcome State Fault Refusal :=
  match i with
  | .vadd m b a d r => Sys2Proof.Machine.execVadd m b a d r s
  | .vsub m b a d r => Sys2Proof.Machine.execVsub m b a d r s
  | .vmul m b a d r => Sys2Proof.Machine.execVmul m b a d r s
  | .vmulh m b a d r => Sys2Proof.Machine.execVmulh m b a d r s
  | .vand m b a d r => Sys2Proof.Machine.execVand m b a d r s
  | .vor m b a d r => Sys2Proof.Machine.execVor m b a d r s
  | .vxor m b a d r => Sys2Proof.Machine.execVxor m b a d r s
  | .vsll m b a d r => Sys2Proof.Machine.execVsll m b a d r s
  | .vsrl m b a d r => Sys2Proof.Machine.execVsrl m b a d r s
  | .vsra m b a d r => Sys2Proof.Machine.execVsra m b a d r s
  | .vmin m b a d r => Sys2Proof.Machine.execVmin m b a d r s
  | .vmax m b a d r => Sys2Proof.Machine.execVmax m b a d r s
  | .vminu m b a d r => Sys2Proof.Machine.execVminu m b a d r s
  | .vmaxu m b a d r => Sys2Proof.Machine.execVmaxu m b a d r s
  | .vaddx m b a d r => Sys2Proof.Machine.execVaddx m b a d r s
  | .viota m ix a d r => Sys2Proof.Machine.execViota m ix a d r s
  | .vfadd m b a d r => Sys2Proof.Machine.execVfadd m b a d r s
  | .vfsub m b a d r => Sys2Proof.Machine.execVfsub m b a d r s
  | .vfmul m b a d r => Sys2Proof.Machine.execVfmul m b a d r s
  | .vfma m b a d r => Sys2Proof.Machine.execVfma m b a d r s
  | .vfmin m b a d r => Sys2Proof.Machine.execVfmin m b a d r s
  | .vfmax m b a d r => Sys2Proof.Machine.execVfmax m b a d r s
  | .vfexp2 m a d r => Sys2Proof.Machine.execVfexp2 m a d r s
  | .vfrcp m a d r => Sys2Proof.Machine.execVfrcp m a d r s
  | .vfrsqrt m a d r => Sys2Proof.Machine.execVfrsqrt m a d r s
  | .vflog2 m a d r => Sys2Proof.Machine.execVflog2 m a d r s
  | .vfmulx m b a d r => Sys2Proof.Machine.execVfmulx m b a d r s
  | .vfaddx m b a d r => Sys2Proof.Machine.execVfaddx m b a d r s
  | .vcmpeq m b a d r => Sys2Proof.Machine.execVcmpeq m b a d r s
  | .vcmplt m b a d r => Sys2Proof.Machine.execVcmplt m b a d r s
  | .vcmpltu m b a d r => Sys2Proof.Machine.execVcmpltu m b a d r s
  | .vfcmpeq m b a d r => Sys2Proof.Machine.execVfcmpeq m b a d r s
  | .vfcmplt m b a d r => Sys2Proof.Machine.execVfcmplt m b a d r s
  | .kopAnd b a d r => Sys2Proof.Machine.execKopAnd b a d r s
  | .kopOr b a d r => Sys2Proof.Machine.execKopOr b a d r s
  | .kopXor b a d r => Sys2Proof.Machine.execKopXor b a d r s
  | .kopAndn b a d r => Sys2Proof.Machine.execKopAndn b a d r s
  | .kpop a d r => Sys2Proof.Machine.execKpop a d r s
  | .kpopFirst a d r => Sys2Proof.Machine.execKpopFirst a d r s
  | .vsel b a d r => Sys2Proof.Machine.execVsel b a d r s
  | .vcvtn m f a d r => Sys2Proof.Machine.execVcvtn m f a d r s
  | .vcvtw m f a d r => Sys2Proof.Machine.execVcvtw m f a d r s
  | .vcvtif m ix a d r => Sys2Proof.Machine.execVcvtif m ix a d r s
  | .vcvtfi m ix a d r => Sys2Proof.Machine.execVcvtfi m ix a d r s
  | .vredsum m a d r => Sys2Proof.Machine.execVredsum m a d r s
  | .vredsumI32 m a d r => Sys2Proof.Machine.execVredsumI32 m a d r s
  | .vredmax m a d r => Sys2Proof.Machine.execVredmax m a d r s
  | .vredmaxI32 m a d r => Sys2Proof.Machine.execVredmaxI32 m a d r s
  | .vredmin m a d r => Sys2Proof.Machine.execVredmin m a d r s
  | .vredminI32 m a d r => Sys2Proof.Machine.execVredminI32 m a d r s
  | .vslide m b a d r => Sys2Proof.Machine.execVslide m b a d r s
  | .vperm m b a d r => Sys2Proof.Machine.execVperm m b a d r s
  | .vcompress a d r => Sys2Proof.Machine.execVcompress a d r s
  | .vmvxv m a d r => Sys2Proof.Machine.execVmvxv m a d r s
  | .vmvvx ix a d r => Sys2Proof.Machine.execVmvvx ix a d r s
  | .vsmaxacc m b a d r => Sys2Proof.Machine.execVsmaxacc m b a d r s
  | .vsmaxfin m b a d r => Sys2Proof.Machine.execVsmaxfin m b a d r s
  | .vsortkv b a d r => Sys2Proof.Machine.execVsortkv b a d r s
  | .vseghead a d r => Sys2Proof.Machine.execVseghead a d r s
  | .vsppack ix a d r => Sys2Proof.Machine.execVsppack ix a d r s
  | .vldm b a d r => Sys2Proof.Machine.execVldm b a d r s
  | .vstm b a d r => Sys2Proof.Machine.execVstm b a d r s
  | .vldx b a d r => Sys2Proof.Machine.execVldx b a d r s
  | .vstx b a d r => Sys2Proof.Machine.execVstx b a d r s
  | .vlds b a d r => Sys2Proof.Machine.execVlds b a d r s
  | .vsts b a d r => Sys2Proof.Machine.execVsts b a d r s
  | .ldst z sc a d r => Sys2Proof.Machine.execLdst z sc a d r s
  | .stst z sc a d r => Sys2Proof.Machine.execStst z sc a d r s
  | .phase sc d r => Sys2Proof.Machine.execPhase sc d r s
  | .fenceBoth sc r => Sys2Proof.Machine.execFenceBoth sc r s
  | .fenceRel sc r => Sys2Proof.Machine.execFenceRel sc r s
  | .fenceAcq sc r => Sys2Proof.Machine.execFenceAcq sc r s
  | .spfeEmpty b a r => Sys2Proof.Machine.execSpfeEmpty b a r s
  | .spfeFull b a r => Sys2Proof.Machine.execSpfeFull b a r s
  | .sprot a r => Sys2Proof.Machine.execSprot a r s
  | .tld a d r => Sys2Proof.Machine.execTld a d r s
  | .tst a d r => Sys2Proof.Machine.execTst a d r s
  | .barinit b a r => Sys2Proof.Machine.execBarinit b a r s
  | .barinitForce a r => Sys2Proof.Machine.execBarinitForce a r s
  | .barinitFree a r => Sys2Proof.Machine.execBarinitFree a r s
  | .bararr b a d r => Sys2Proof.Machine.execBararr b a d r s
  | .bardrop b a d r => Sys2Proof.Machine.execBardrop b a d r s
  | .barjoin b a d r => Sys2Proof.Machine.execBarjoin b a d r s
  | .barwait b a r => Sys2Proof.Machine.execBarwait b a r s
  | .bartest b a d r => Sys2Proof.Machine.execBartest b a d r s
  | .waita b a d r => Sys2Proof.Machine.execWaita b a d r s
  | .ringinit b a q r => Sys2Proof.Machine.execRinginit b a q r s
  | .ringclaim q d r => Sys2Proof.Machine.execRingclaim q d r s
  | .ringcommit b q r => Sys2Proof.Machine.execRingcommit b q r s
  | .ringtake q d r => Sys2Proof.Machine.execRingtake q d r s
  | .ringfree b q r => Sys2Proof.Machine.execRingfree b q r s
  | .waitfill b q d r => Sys2Proof.Machine.execWaitfill b q d r s
  | .waitfree b q d r => Sys2Proof.Machine.execWaitfree b q d r s
  | .redaF32add b a r => Sys2Proof.Machine.execRedaF32add b a r s
  | .redaBf16add b a r => Sys2Proof.Machine.execRedaBf16add b a r s
  | .redaI32add b a r => Sys2Proof.Machine.execRedaI32add b a r s
  | .redaF32max b a r => Sys2Proof.Machine.execRedaF32max b a r s
  | .redaF32min b a r => Sys2Proof.Machine.execRedaF32min b a r s
  | .redaI32max b a r => Sys2Proof.Machine.execRedaI32max b a r s
  | .redaI32min b a r => Sys2Proof.Machine.execRedaI32min b a r s
  | .redfence d r => Sys2Proof.Machine.execRedfence d r s
  | .prcfg b a d r => Sys2Proof.Machine.execPrcfg b a d r s
  | .prinv a d r => Sys2Proof.Machine.execPrinv a d r s
  | .prpin a r => Sys2Proof.Machine.execPrpin a r s
  | .prunpin a r => Sys2Proof.Machine.execPrunpin a r s
  | .cparm b a d r => Sys2Proof.Machine.execCparm b a d r s
  | .cpstep b a d r => Sys2Proof.Machine.execCpstep b a d r s
  | .cpstat a d r => Sys2Proof.Machine.execCpstat a d r s
  | .cpcancel a d r => Sys2Proof.Machine.execCpcancel a d r s
  | .nbmode b a d r => Sys2Proof.Machine.execNbmode b a d r s
  | .nbcmd b a d r => Sys2Proof.Machine.execNbcmd b a d r s
  | .nbfence d r => Sys2Proof.Machine.execNbfence d r s
  | .nbrd b a d r => Sys2Proof.Machine.execNbrd b a d r s
  | .hintLife b a r => Sys2Proof.Machine.execHintLife b a r s
  | .hintPref a r => Sys2Proof.Machine.execHintPref a r s
  | .hintFetch a r => Sys2Proof.Machine.execHintFetch a r s
  | .stepadv a d r => Sys2Proof.Machine.execStepadv a d r s
  | .mma b a x y o r => Sys2Proof.Machine.execMma b a x y o r s
  | .mmaAcc b a x y o r => Sys2Proof.Machine.execMmaAcc b a x y o r s
  | .mmaNeg b a x y o r => Sys2Proof.Machine.execMmaNeg b a x y o r s
  | .mmas b a x y o r => Sys2Proof.Machine.execMmas b a x y o r s
  | .mmasAcc b a x y o r => Sys2Proof.Machine.execMmasAcc b a x y o r s
  | .mmasNeg b a x y o r => Sys2Proof.Machine.execMmasNeg b a x y o r s
  | .accz n r => Sys2Proof.Machine.execAccz n r s
  | .accscl v o r => Sys2Proof.Machine.execAccscl v o r s
  | .accsclX v o r => Sys2Proof.Machine.execAccsclX v o r s
  | .accrd n t d o r => Sys2Proof.Machine.execAccrd n t d o r s
  | .accrdCol n t d o r => Sys2Proof.Machine.execAccrdCol n t d o r s
  | .accwr n t d o r => Sys2Proof.Machine.execAccwr n t d o r s
  | .accwrCol n t d o r => Sys2Proof.Machine.execAccwrCol n t d o r s
  | .epi b a x r => Sys2Proof.Machine.execEpi b a x r s
  | .mqctlWait r => Sys2Proof.Machine.execMqctlWait r s
  | .mqctlRm sc r => Sys2Proof.Machine.execMqctlRm sc r s
  | .mqctlFtb sc r => Sys2Proof.Machine.execMqctlFtb sc r s
  | .opu h a r => Sys2Proof.Machine.execOpu h a r s
  | .fwfwd h a r => Sys2Proof.Machine.execFwfwd h a r s
  | .fwupdD h a b r => Sys2Proof.Machine.execFwupdD h a b r s
  | .fwupdH h a b r => Sys2Proof.Machine.execFwupdH h a b r s
  | .fwupdE h a b r => Sys2Proof.Machine.execFwupdE h a b r s
  | .fwfuD h a b r => Sys2Proof.Machine.execFwfuD h a b r s
  | .fwfuDl h a b r => Sys2Proof.Machine.execFwfuDl h a b r s
  | .fwfuH h a b r => Sys2Proof.Machine.execFwfuH h a b r s
  | .fwfuHl h a b r => Sys2Proof.Machine.execFwfuHl h a b r s
  | .fwfuE h a b r => Sys2Proof.Machine.execFwfuE h a b r s
  | .fwsnapSnap h a r => Sys2Proof.Machine.execFwsnapSnap h a r s
  | .fwsnapFork h a r => Sys2Proof.Machine.execFwsnapFork h a r s
  | .fwsnapRollback h a r => Sys2Proof.Machine.execFwsnapRollback h a r s
  | .fwsnapFree h r => Sys2Proof.Machine.execFwsnapFree h r s
  | .fwavg h a b r => Sys2Proof.Machine.execFwavg h a b r s
  | .fwmig h a r => Sys2Proof.Machine.execFwmig h a r s
  | .fwctlPin h r => Sys2Proof.Machine.execFwctlPin h r s
  | .fwctlUnpin h r => Sys2Proof.Machine.execFwctlUnpin h r s
  | .fwctlQuery h a r => Sys2Proof.Machine.execFwctlQuery h a r s
  | .fwctlHint h a b r => Sys2Proof.Machine.execFwctlHint h a b r s
  | .fwctlWait h r => Sys2Proof.Machine.execFwctlWait h r s
  | .fwctlNew h a b r => Sys2Proof.Machine.execFwctlNew h a b r s
  | .role m sc => Sys2Proof.Machine.execRole m sc s
  | .handoff v q n sc => Sys2Proof.Machine.execHandoff v q n sc s
  | .loop c e r => Sys2Proof.Machine.execLoop c e r s
  | .roleid a d r => Sys2Proof.Machine.execRoleid a d r s
  | .drift a d r => Sys2Proof.Machine.execDrift a d r s
  | .vgrow a d r => Sys2Proof.Machine.execVgrow a d r s
  | .vshrink a d r => Sys2Proof.Machine.execVshrink a d r s
  | .fmset a d r => Sys2Proof.Machine.execFmset a d r s
  | .ftset b a r => Sys2Proof.Machine.execFtset b a r s
  | .rnext d r => Sys2Proof.Machine.execRnext d r s
  | .ntoken b a r => Sys2Proof.Machine.execNtoken b a r s
  | .nctx a d r => Sys2Proof.Machine.execNctx a d r s
  | .ndone r => Sys2Proof.Machine.execNdone r s
  | .nfail a r => Sys2Proof.Machine.execNfail a r s
  | .trapret r => Sys2Proof.Machine.execTrapret r s
  | .rqrd a d r => Sys2Proof.Machine.execRqrd a d r s
  | .rqwr b a r => Sys2Proof.Machine.execRqwr b a r s
  | .rqdrop a r => Sys2Proof.Machine.execRqdrop a r s
  | .enread a d r => Sys2Proof.Machine.execEnread a d r s
  | .enest a d r => Sys2Proof.Machine.execEnest a d r s
  | .trec b a r => Sys2Proof.Machine.execTrec b a r s
  | .probe o a d r => Sys2Proof.Machine.execProbe o a d r s
  | .lui rd imm => Sys2Proof.Machine.execLui rd imm s
  | .auipc rd imm => Sys2Proof.Machine.execAuipc rd imm s
  | .jal rd imm => Sys2Proof.Machine.execJal rd imm s
  | .jalr rd rs1 imm => Sys2Proof.Machine.execJalr rd rs1 imm s
  | .beq rs1 rs2 imm => Sys2Proof.Machine.execBeq rs1 rs2 imm s
  | .bne rs1 rs2 imm => Sys2Proof.Machine.execBne rs1 rs2 imm s
  | .blt rs1 rs2 imm => Sys2Proof.Machine.execBlt rs1 rs2 imm s
  | .bge rs1 rs2 imm => Sys2Proof.Machine.execBge rs1 rs2 imm s
  | .bltu rs1 rs2 imm => Sys2Proof.Machine.execBltu rs1 rs2 imm s
  | .bgeu rs1 rs2 imm => Sys2Proof.Machine.execBgeu rs1 rs2 imm s
  | .lb rd rs1 imm => Sys2Proof.Machine.execLb rd rs1 imm s
  | .lh rd rs1 imm => Sys2Proof.Machine.execLh rd rs1 imm s
  | .lw rd rs1 imm => Sys2Proof.Machine.execLw rd rs1 imm s
  | .ld rd rs1 imm => Sys2Proof.Machine.execLd rd rs1 imm s
  | .lbu rd rs1 imm => Sys2Proof.Machine.execLbu rd rs1 imm s
  | .lhu rd rs1 imm => Sys2Proof.Machine.execLhu rd rs1 imm s
  | .lwu rd rs1 imm => Sys2Proof.Machine.execLwu rd rs1 imm s
  | .sb rs1 rs2 imm => Sys2Proof.Machine.execSb rs1 rs2 imm s
  | .sh rs1 rs2 imm => Sys2Proof.Machine.execSh rs1 rs2 imm s
  | .sw rs1 rs2 imm => Sys2Proof.Machine.execSw rs1 rs2 imm s
  | .sd rs1 rs2 imm => Sys2Proof.Machine.execSd rs1 rs2 imm s
  | .addi rd rs1 imm => Sys2Proof.Machine.execAddi rd rs1 imm s
  | .slti rd rs1 imm => Sys2Proof.Machine.execSlti rd rs1 imm s
  | .sltiu rd rs1 imm => Sys2Proof.Machine.execSltiu rd rs1 imm s
  | .xori rd rs1 imm => Sys2Proof.Machine.execXori rd rs1 imm s
  | .ori rd rs1 imm => Sys2Proof.Machine.execOri rd rs1 imm s
  | .andi rd rs1 imm => Sys2Proof.Machine.execAndi rd rs1 imm s
  | .slli rd rs1 sh => Sys2Proof.Machine.execSlli rd rs1 sh s
  | .srli rd rs1 sh => Sys2Proof.Machine.execSrli rd rs1 sh s
  | .srai rd rs1 sh => Sys2Proof.Machine.execSrai rd rs1 sh s
  | .add rd rs1 rs2 => Sys2Proof.Machine.execAdd rd rs1 rs2 s
  | .sub rd rs1 rs2 => Sys2Proof.Machine.execSub rd rs1 rs2 s
  | .sll rd rs1 rs2 => Sys2Proof.Machine.execSll rd rs1 rs2 s
  | .slt rd rs1 rs2 => Sys2Proof.Machine.execSlt rd rs1 rs2 s
  | .sltu rd rs1 rs2 => Sys2Proof.Machine.execSltu rd rs1 rs2 s
  | .xor rd rs1 rs2 => Sys2Proof.Machine.execXor rd rs1 rs2 s
  | .srl rd rs1 rs2 => Sys2Proof.Machine.execSrl rd rs1 rs2 s
  | .sra rd rs1 rs2 => Sys2Proof.Machine.execSra rd rs1 rs2 s
  | .or rd rs1 rs2 => Sys2Proof.Machine.execOr rd rs1 rs2 s
  | .and rd rs1 rs2 => Sys2Proof.Machine.execAnd rd rs1 rs2 s
  | .addiw rd rs1 imm => Sys2Proof.Machine.execAddiw rd rs1 imm s
  | .slliw rd rs1 sh => Sys2Proof.Machine.execSlliw rd rs1 sh s
  | .srliw rd rs1 sh => Sys2Proof.Machine.execSrliw rd rs1 sh s
  | .sraiw rd rs1 sh => Sys2Proof.Machine.execSraiw rd rs1 sh s
  | .addw rd rs1 rs2 => Sys2Proof.Machine.execAddw rd rs1 rs2 s
  | .subw rd rs1 rs2 => Sys2Proof.Machine.execSubw rd rs1 rs2 s
  | .sllw rd rs1 rs2 => Sys2Proof.Machine.execSllw rd rs1 rs2 s
  | .srlw rd rs1 rs2 => Sys2Proof.Machine.execSrlw rd rs1 rs2 s
  | .sraw rd rs1 rs2 => Sys2Proof.Machine.execSraw rd rs1 rs2 s
  | .fence rd rs1 imm => Sys2Proof.Machine.execFence rd rs1 imm s
  | .fenceTso rd rs1 => Sys2Proof.Machine.execFenceTso rd rs1 s
  | .fenceI rd rs1 imm => Sys2Proof.Machine.execFenceI rd rs1 imm s
  | .ecall => Sys2Proof.Machine.execEcall s
  | .ebreak => Sys2Proof.Machine.execEbreak s
  | .wfi => Sys2Proof.Machine.execWfi s
  | .mul rd rs1 rs2 => Sys2Proof.Machine.execMul rd rs1 rs2 s
  | .mulh rd rs1 rs2 => Sys2Proof.Machine.execMulh rd rs1 rs2 s
  | .mulhsu rd rs1 rs2 => Sys2Proof.Machine.execMulhsu rd rs1 rs2 s
  | .mulhu rd rs1 rs2 => Sys2Proof.Machine.execMulhu rd rs1 rs2 s
  | .div rd rs1 rs2 => Sys2Proof.Machine.execDiv rd rs1 rs2 s
  | .divu rd rs1 rs2 => Sys2Proof.Machine.execDivu rd rs1 rs2 s
  | .rem rd rs1 rs2 => Sys2Proof.Machine.execRem rd rs1 rs2 s
  | .remu rd rs1 rs2 => Sys2Proof.Machine.execRemu rd rs1 rs2 s
  | .mulw rd rs1 rs2 => Sys2Proof.Machine.execMulw rd rs1 rs2 s
  | .divw rd rs1 rs2 => Sys2Proof.Machine.execDivw rd rs1 rs2 s
  | .divuw rd rs1 rs2 => Sys2Proof.Machine.execDivuw rd rs1 rs2 s
  | .remw rd rs1 rs2 => Sys2Proof.Machine.execRemw rd rs1 rs2 s
  | .remuw rd rs1 rs2 => Sys2Proof.Machine.execRemuw rd rs1 rs2 s
  | .lrW rd rs1 aq rl => Sys2Proof.Machine.execLrW rd rs1 aq rl s
  | .lrD rd rs1 aq rl => Sys2Proof.Machine.execLrD rd rs1 aq rl s
  | .scW rd rs1 rs2 aq rl => Sys2Proof.Machine.execScW rd rs1 rs2 aq rl s
  | .scD rd rs1 rs2 aq rl => Sys2Proof.Machine.execScD rd rs1 rs2 aq rl s
  | .amoswapW rd rs1 rs2 aq rl => Sys2Proof.Machine.execAmoswapW rd rs1 rs2 aq rl s
  | .amoswapD rd rs1 rs2 aq rl => Sys2Proof.Machine.execAmoswapD rd rs1 rs2 aq rl s
  | .amoaddW rd rs1 rs2 aq rl => Sys2Proof.Machine.execAmoaddW rd rs1 rs2 aq rl s
  | .amoaddD rd rs1 rs2 aq rl => Sys2Proof.Machine.execAmoaddD rd rs1 rs2 aq rl s
  | .amoxorW rd rs1 rs2 aq rl => Sys2Proof.Machine.execAmoxorW rd rs1 rs2 aq rl s
  | .amoxorD rd rs1 rs2 aq rl => Sys2Proof.Machine.execAmoxorD rd rs1 rs2 aq rl s
  | .amoandW rd rs1 rs2 aq rl => Sys2Proof.Machine.execAmoandW rd rs1 rs2 aq rl s
  | .amoandD rd rs1 rs2 aq rl => Sys2Proof.Machine.execAmoandD rd rs1 rs2 aq rl s
  | .amoorW rd rs1 rs2 aq rl => Sys2Proof.Machine.execAmoorW rd rs1 rs2 aq rl s
  | .amoorD rd rs1 rs2 aq rl => Sys2Proof.Machine.execAmoorD rd rs1 rs2 aq rl s
  | .amominW rd rs1 rs2 aq rl => Sys2Proof.Machine.execAmominW rd rs1 rs2 aq rl s
  | .amominD rd rs1 rs2 aq rl => Sys2Proof.Machine.execAmominD rd rs1 rs2 aq rl s
  | .amomaxW rd rs1 rs2 aq rl => Sys2Proof.Machine.execAmomaxW rd rs1 rs2 aq rl s
  | .amomaxD rd rs1 rs2 aq rl => Sys2Proof.Machine.execAmomaxD rd rs1 rs2 aq rl s
  | .amominuW rd rs1 rs2 aq rl => Sys2Proof.Machine.execAmominuW rd rs1 rs2 aq rl s
  | .amominuD rd rs1 rs2 aq rl => Sys2Proof.Machine.execAmominuD rd rs1 rs2 aq rl s
  | .amomaxuW rd rs1 rs2 aq rl => Sys2Proof.Machine.execAmomaxuW rd rs1 rs2 aq rl s
  | .amomaxuD rd rs1 rs2 aq rl => Sys2Proof.Machine.execAmomaxuD rd rs1 rs2 aq rl s
  | .csrrw rd rs1 csr => Sys2Proof.Machine.execCsrrw rd rs1 csr s
  | .csrrs rd rs1 csr => Sys2Proof.Machine.execCsrrs rd rs1 csr s
  | .csrrc rd rs1 csr => Sys2Proof.Machine.execCsrrc rd rs1 csr s
  | .csrrwi rd uimm csr => Sys2Proof.Machine.execCsrrwi rd uimm csr s
  | .csrrsi rd uimm csr => Sys2Proof.Machine.execCsrrsi rd uimm csr s
  | .csrrci rd uimm csr => Sys2Proof.Machine.execCsrrci rd uimm csr s
  | .addUw rd rs1 rs2 => Sys2Proof.Machine.execAddUw rd rs1 rs2 s
  | .sh1add rd rs1 rs2 => Sys2Proof.Machine.execSh1add rd rs1 rs2 s
  | .sh2add rd rs1 rs2 => Sys2Proof.Machine.execSh2add rd rs1 rs2 s
  | .sh3add rd rs1 rs2 => Sys2Proof.Machine.execSh3add rd rs1 rs2 s
  | .sh1addUw rd rs1 rs2 => Sys2Proof.Machine.execSh1addUw rd rs1 rs2 s
  | .sh2addUw rd rs1 rs2 => Sys2Proof.Machine.execSh2addUw rd rs1 rs2 s
  | .sh3addUw rd rs1 rs2 => Sys2Proof.Machine.execSh3addUw rd rs1 rs2 s
  | .slliUw rd rs1 sh => Sys2Proof.Machine.execSlliUw rd rs1 sh s
  | .csrWriteVslip v => Sys2Proof.Machine.execCsrWriteVslip v s
  | .csrWriteVrm v => Sys2Proof.Machine.execCsrWriteVrm v s
  | .csrWriteFtbase v => Sys2Proof.Machine.execCsrWriteFtbase v s
  | .csrWriteFtsel v => Sys2Proof.Machine.execCsrWriteFtsel v s
  | .csrWriteLc k v => Sys2Proof.Machine.execCsrWriteLc k v s
  | .csrWritePidx v => Sys2Proof.Machine.execCsrWritePidx v s
  | .csrWriteNbstat v => Sys2Proof.Machine.execCsrWriteNbstat v s
  | .csrWrite csr v => Sys2Proof.Machine.execCsrWrite csr v s
  | .preciseTrap cause tval => Sys2Proof.Machine.execPreciseTrap cause tval s
  | .preemption team => Sys2Proof.Machine.execPreemption team s
  | .preemptionResume team => Sys2Proof.Machine.execPreemptionResume team s
  | .handoffCommit cluster unit => Sys2Proof.Machine.execHandoffCommit cluster unit s
  | .phaseHoldRelease => Sys2Proof.Machine.execPhaseHoldRelease s
  | .windowZeroing cluster base => Sys2Proof.Machine.execWindowZeroing cluster base s
  | .emptyLineReadServe queue => Sys2Proof.Machine.execEmptyLineReadServe queue s
  | .probeFill cluster firing slot => Sys2Proof.Machine.execProbeFill cluster firing slot s
  | .stateHoldGrant => Sys2Proof.Machine.execStateHoldGrant s
  | .stateEviction h => Sys2Proof.Machine.execStateEviction h s
  | .statePageIn h => Sys2Proof.Machine.execStatePageIn h s
  | .pageWalk ctx die va write => Sys2Proof.Machine.execPageWalk ctx die va write s
  | .tierDemotion stack => Sys2Proof.Machine.execTierDemotion stack s
  | .tierPromotion ctx va => Sys2Proof.Machine.execTierPromotion ctx va s
  | .promotionWindowExpiry => Sys2Proof.Machine.execPromotionWindowExpiry s
  | .shootdown ctx va => Sys2Proof.Machine.execShootdown ctx va s
  | .shootdownAck ctx va => Sys2Proof.Machine.execShootdownAck ctx va s
  | .copyEngineGrant die => Sys2Proof.Machine.execCopyEngineGrant die s
  | .copyEntryStart engine => Sys2Proof.Machine.execCopyEntryStart engine s
  | .copyIndexLookup engine => Sys2Proof.Machine.execCopyIndexLookup engine s
  | .copyEntryComplete engine => Sys2Proof.Machine.execCopyEntryComplete engine s
  | .copyFault engine => Sys2Proof.Machine.execCopyFault engine s
  | .copyCancelDrain engine => Sys2Proof.Machine.execCopyCancelDrain engine s
  | .refreshOwed => Sys2Proof.Machine.execRefreshOwed s
  | .barrierSubtraction => Sys2Proof.Machine.execBarrierSubtraction s
  | .waiterWake => Sys2Proof.Machine.execWaiterWake s
  | .waitaWake => Sys2Proof.Machine.execWaitaWake s
  | .reductionApply ix => Sys2Proof.Machine.execReductionApply ix s
  | .modeEntryComplete stack chan => Sys2Proof.Machine.execModeEntryComplete stack chan s
  | .modeExitComplete stack chan => Sys2Proof.Machine.execModeExitComplete stack chan s
  | .forcedExit stack chan => Sys2Proof.Machine.execForcedExit stack chan s
  | .rillMac stack chan bank => Sys2Proof.Machine.execRillMac stack chan bank s
  | .rillLoad stack chan bank => Sys2Proof.Machine.execRillLoad stack chan bank s
  | .rillFountain stack chan bank => Sys2Proof.Machine.execRillFountain stack chan bank s
  | .rillZero stack chan bank => Sys2Proof.Machine.execRillZero stack chan bank s
  | .rillStore stack chan bank => Sys2Proof.Machine.execRillStore stack chan bank s
  | .rillRefreshSlot stack chan bank => Sys2Proof.Machine.execRillRefreshSlot stack chan bank s
  | .nodeArm graph node ctx => Sys2Proof.Machine.execNodeArm graph node ctx s
  | .firingDecision die => Sys2Proof.Machine.execFiringDecision die s
  | .rangeSplit firing cluster => Sys2Proof.Machine.execRangeSplit firing cluster s
  | .stageSetReady firing team => Sys2Proof.Machine.execStageSetReady firing team s
  | .stageTeamMove graph donor recipient team => Sys2Proof.Machine.execStageTeamMove graph donor recipient team s
  | .firingFault => Sys2Proof.Machine.execFiringFault s
  | .coneWalk graph node => Sys2Proof.Machine.execConeWalk graph node s
  | .retryDelayExpiry firing => Sys2Proof.Machine.execRetryDelayExpiry firing s
  | .trapRingSpaceReturn ctx => Sys2Proof.Machine.execTrapRingSpaceReturn ctx s
  | .wfiWake cell => Sys2Proof.Machine.execWfiWake cell s
  | .energyWindowBoundary => Sys2Proof.Machine.execEnergyWindowBoundary s
  | .meterUpdate => Sys2Proof.Machine.execMeterUpdate s
  | .commandMessage pasid queue bytes => Sys2Proof.Machine.execCommandMessage pasid queue bytes s
  | .rdmaWrite pasid va bytes => Sys2Proof.Machine.execRdmaWrite pasid va bytes s
  | .unsupportedOperation pasid => Sys2Proof.Machine.execUnsupportedOperation pasid s
  | .pasidLevelRestore key => Sys2Proof.Machine.execPasidLevelRestore key s
  | .firmwareEventTake => Sys2Proof.Machine.execFirmwareEventTake s
  | .invoke pasid queue => Sys2Proof.Machine.execInvoke pasid queue s
  | .graph pasid queue => Sys2Proof.Machine.execGraph pasid queue s
  | .ib pasid queue => Sys2Proof.Machine.execIb pasid queue s
  | .fencePacket pasid queue => Sys2Proof.Machine.execFencePacket pasid queue s
  | .fencePacketDone pasid queue => Sys2Proof.Machine.execFencePacketDone pasid queue s
  | .signal pasid queue => Sys2Proof.Machine.execSignal pasid queue s
  | .slotLoad pasid queue => Sys2Proof.Machine.execSlotLoad pasid queue s
  | .slotEvict pasid queue => Sys2Proof.Machine.execSlotEvict pasid queue s
  | .adminCreateContext pasid queue => Sys2Proof.Machine.execAdminCreateContext pasid queue s
  | .adminDestroyContext pasid queue => Sys2Proof.Machine.execAdminDestroyContext pasid queue s
  | .adminQueueEnable pasid queue => Sys2Proof.Machine.execAdminQueueEnable pasid queue s
  | .adminQueueResume pasid queue => Sys2Proof.Machine.execAdminQueueResume pasid queue s
  | .adminQueueDisable pasid queue => Sys2Proof.Machine.execAdminQueueDisable pasid queue s
  | .adminShootdown pasid queue => Sys2Proof.Machine.execAdminShootdown pasid queue s
  | .adminGraphRetry pasid queue => Sys2Proof.Machine.execAdminGraphRetry pasid queue s
  | .adminGraphSkip pasid queue => Sys2Proof.Machine.execAdminGraphSkip pasid queue s
  | .adminGraphCancel pasid queue => Sys2Proof.Machine.execAdminGraphCancel pasid queue s
  | .adminGraphReset pasid queue => Sys2Proof.Machine.execAdminGraphReset pasid queue s
  | .adminGraphThaw pasid queue => Sys2Proof.Machine.execAdminGraphThaw pasid queue s
  | .adminSetPeer pasid queue => Sys2Proof.Machine.execAdminSetPeer pasid queue s
  | .adminSetClass0Cells pasid queue => Sys2Proof.Machine.execAdminSetClass0Cells pasid queue s
  | .adminSetEnergyReserve pasid queue => Sys2Proof.Machine.execAdminSetEnergyReserve pasid queue s
  | .adminSetTierParams pasid queue => Sys2Proof.Machine.execAdminSetTierParams pasid queue s
  | .pldmPrivilegedList index pasid enable => Sys2Proof.Machine.execPldmPrivilegedList index pasid enable s
  | .pldmCreateContext record => Sys2Proof.Machine.execPldmCreateContext record s
  | .pldmEnableQueue pasid queue qcb => Sys2Proof.Machine.execPldmEnableQueue pasid queue qcb s
  | .pldmSigningPolicy policy => Sys2Proof.Machine.execPldmSigningPolicy policy s
  | .pldmSigningKey pasid index key => Sys2Proof.Machine.execPldmSigningKey pasid index key s
  | .pldmPowerLimit watts => Sys2Proof.Machine.execPldmPowerLimit watts s
  | .pldmErrorWindow minutes threshold => Sys2Proof.Machine.execPldmErrorWindow minutes threshold s
  | .pldmFirmwareUpdate step image => Sys2Proof.Machine.execPldmFirmwareUpdate step image s
  | .getVersion => Sys2Proof.Machine.execGetVersion s
  | .getCapabilities => Sys2Proof.Machine.execGetCapabilities s
  | .negotiateAlgorithms => Sys2Proof.Machine.execNegotiateAlgorithms s
  | .getDigests => Sys2Proof.Machine.execGetDigests s
  | .getCertificate => Sys2Proof.Machine.execGetCertificate s
  | .challenge => Sys2Proof.Machine.execChallenge s
  | .getMeasurements => Sys2Proof.Machine.execGetMeasurements s
  | .boot => Sys2Proof.Machine.execBoot s
  | .flitCrcRetry link => Sys2Proof.Machine.execFlitCrcRetry link s
  | .linkQuiesceDrained link => Sys2Proof.Machine.execLinkQuiesceDrained link s
  | .linkResetElapsed link => Sys2Proof.Machine.execLinkResetElapsed link s
  | .linkTrained link modules => Sys2Proof.Machine.execLinkTrained link modules s
  | .linkTrainingFailed link => Sys2Proof.Machine.execLinkTrainingFailed link s
  | .linkRetryTimer link => Sys2Proof.Machine.execLinkRetryTimer link s
  | .camyarRead link back hdr => Sys2Proof.Machine.execCamyarRead link back hdr s
  | .camyarReadOwn link back hdr => Sys2Proof.Machine.execCamyarReadOwn link back hdr s
  | .camyarWrite link back hdr data => Sys2Proof.Machine.execCamyarWrite link back hdr data s
  | .camyarWriteBack link back hdr data => Sys2Proof.Machine.execCamyarWriteBack link back hdr data s
  | .camyarAmo link back hdr data => Sys2Proof.Machine.execCamyarAmo link back hdr data s
  | .camyarReda link back hdr data => Sys2Proof.Machine.execCamyarReda link back hdr data s
  | .camyarRillCommand link back hdr data => Sys2Proof.Machine.execCamyarRillCommand link back hdr data s
  | .camyarSyncOperation link back hdr data => Sys2Proof.Machine.execCamyarSyncOperation link back hdr data s
  | .camyarCompletion link back hdr data => Sys2Proof.Machine.execCamyarCompletion link back hdr data s
  | .camyarDataReturn link back hdr data => Sys2Proof.Machine.execCamyarDataReturn link back hdr data s
  | .camyarError link back hdr data => Sys2Proof.Machine.execCamyarError link back hdr data s
  | .camyarShootdown link back hdr data => Sys2Proof.Machine.execCamyarShootdown link back hdr data s
  | .camyarShootdownAck link back hdr data => Sys2Proof.Machine.execCamyarShootdownAck link back hdr data s
  | .camyarGraphMessage link back hdr data => Sys2Proof.Machine.execCamyarGraphMessage link back hdr data s
  | .camyarStatusBroadcast link back hdr data => Sys2Proof.Machine.execCamyarStatusBroadcast link back hdr data s
  | .camyarCreditReturn link back hdr => Sys2Proof.Machine.execCamyarCreditReturn link back hdr s
  | .placementTableUpdate ctx chip seq block holder => Sys2Proof.Machine.execPlacementTableUpdate ctx chip seq block holder s
  | .placementAckTimeout ctx chip => Sys2Proof.Machine.execPlacementAckTimeout ctx chip s
  | .errorCorrected kind number => Sys2Proof.Machine.execErrorCorrected kind number s
  | .errorUncorrectable space key => Sys2Proof.Machine.execErrorUncorrectable space key s
  | .sramScrub => Sys2Proof.Machine.execSramScrub s
  | .warmReset die step failed => Sys2Proof.Machine.execWarmReset die step failed s
  | .powerLoss marking => Sys2Proof.Machine.execPowerLoss marking s
  | .thermalEmergency declared => Sys2Proof.Machine.execThermalEmergency declared s
  | .placementUpdateAcknowledgement ctx chip seq => Sys2Proof.Machine.execPlacementUpdateAcknowledgement ctx chip seq s
  | .migratedObjectArrival handle cluster attr next nextUse rows => Sys2Proof.Machine.execMigratedObjectArrival handle cluster attr next nextUse rows s

end Sys2Proof.Machine
end

