-- ==== Sys2Proof/Machine/Turns.lean ====
section
/-! DEFINITION. Fetching a word (R48, R44), the turn of a cell, the moves of the other agents, and the placing of a word where the next step fetches. -/

namespace Sys2Proof.Machine

/-! ### Fetching (R48) -/

/-- The result of a fetch. -/
inductive Fetched where
  | ok (w : BitVec 32) (s : State)
  | trap (cause : Nat) (lost : Option Nat) (s : State)
  | wait (s : State)
  deriving DecidableEq, Repr

/-- A line as the acting cell fetches it: the bytes at home under its own dirty bytes (R44). (DEDUCED, assumption log 36) -/
def State.fetchLine (s : State) (p : Place) : VReg :=
  let home : VReg := BitVec.ofNat 1024 (readLE s.mem (lineKey s.fuses p.line) 128)
  match findLine s.cpu.l1 p.line with
  | some x => (x.data &&& spread x.dirty) ||| (home &&& ~~~(spread x.dirty))
  | none => home

/-- The word of a line at an offset. -/
def wordAt (v : VReg) (o : Nat) : BitVec 32 := v.extractLsb' (8 * o) 32

/-- A fetched line is kept until FENCE.I or its replacement. -/
def State.keepLine (s : State) (no : Nat) (v : VReg) : State :=
  s.upd (fun c => { c with icache := (no, v) :: c.icache.filter (fun e => e.1 ≠ no) })

/-- The word at a place. (DEDUCED, assumption log 36) -/
def State.fetchAt (s : State) (p : Place) : Fetched :=
  if isDevice p.pa then
    let (v, s) := deviceRead s p.pa 4
    .ok (BitVec.ofNat 32 v) s
  else
    match s.cpu.icache.find? (fun e => e.1 == p.line) with
    | some e => .ok (wordAt e.2 (p.pa % 128)) s
    | none =>
      if s.homeWaits (s.key p) then .wait (s.stall (s.key p))
      else if poisonedIn s.memPoison (s.key p) 4 then .trap 0x12 none s
      else
        let v := s.fetchLine p
        .ok (wordAt v (p.pa % 128)) (s.keepLine p.line v)

/-- The word at the pc of the acting cell, or the trap of its fetch. -/
def State.fetch (s : State) : Fetched :=
  if s.cpu.pc.extractLsb' 0 2 ≠ 0 then .trap 3 none s
  else
    match translateHome s s.cpu.pc .read with
    | .ok p _ s => s.fetchAt p
    | .trap cause lost s => .trap cause lost s
    | .wait s => .wait s

/-! ### The turn of a cell -/

/-- The acting cell issues no word: no context runs on it, it sleeps in a WFI (R372), it waits for a trap ring (R370), a control entry
holds it (R193), a re-injected update has its descriptor still to read, as at issue (R203, R359), or only the management port runs
(R404). -/
def State.cellWaits (s : State) : Bool :=
  s.recovery || !s.cpu.running || s.cpu.done || s.cpu.asleep || s.stalled 0 s.cpu.id || s.cpu.mqctlWaits || s.cpu.pending.any Cmd.unread

/-- The word at the front end. -/
def State.withWord (s : State) (w : BitVec 32) : State := s.upd (fun c => { c with word := w })

/-- After a word, the engines of an eager cell take up what they may. -/
def afterIssue (o : Out) : Out :=
  match o with
  | .next s => .next s.settle
  | o => o

/-- The role field of a word and the scalar registers that it reads as it issues; a word of the RV64 base is one for every role. -/
def sourcesOf (i : Instr) : BitVec 3 × List (BitVec 5) :=
  match i with
  | .vaddx _ b _ _ r | .vfmulx _ b _ _ r | .vfaddx _ b _ _ r | .vslide _ b _ _ r | .ringcommit b _ r | .ringfree b _ r
  | .waitfill b _ _ r | .waitfree b _ _ r => (r, [b])
  | .viota _ _ a _ r | .vmvxv _ a _ r | .vldx _ a _ r | .vstx _ a _ r | .ldst _ _ a _ r | .barinitForce a r | .barinitFree a r
  | .redaF32add _ a r | .redaBf16add _ a r | .redaI32add _ a r | .redaF32max _ a r | .redaF32min _ a r | .redaI32max _ a r
  | .redaI32min _ a r | .prinv a _ r | .prpin a r | .prunpin a r | .cpstat a _ r | .cpcancel a _ r | .hintPref a r | .hintFetch a r
  | .stepadv a _ r | .accsclX a _ r | .mqctlRm a r | .mqctlFtb a r | .fwsnapSnap _ a r | .fwsnapFork _ a r | .fwsnapFree a r
  | .fwctlPin a r | .fwctlUnpin a r | .fwctlQuery _ a r | .fwctlWait a r | .loop a _ r | .roleid a _ r | .drift a _ r | .vgrow a _ r
  | .vshrink a _ r | .fmset a _ r | .nctx a _ r | .nfail a r | .rqrd a _ r | .rqdrop a r | .enread a _ r | .enest a _ r
  | .probe _ a _ r => (r, [a])
  | .vldm b a _ r | .vstm b a _ r | .vlds b a _ r | .vsts b a _ r | .spfeEmpty b a r | .spfeFull b a r | .barinit b a r
  | .bararr b a _ r | .bardrop b a _ r | .barjoin b a _ r | .barwait b a r | .bartest b a _ r | .waita b a _ r | .ringinit b a _ r
  | .prcfg b a _ r | .cparm b a _ r | .cpstep b a _ r | .nbmode b a _ r | .nbcmd b a _ r | .nbrd b a _ r | .hintLife b a r
  | .opu b a r | .fwfwd b a r | .fwsnapRollback b a r | .fwmig b a r | .fwctlNew _ a b r | .ftset b a r | .ntoken b a r | .rqwr b a r
  | .trec b a r | .stst _ _ a b r => (r, [a, b])
  | .fwupdD h a b r | .fwupdH h a b r | .fwupdE h a b r | .fwfuD h a b r | .fwfuDl h a b r | .fwfuH h a b r | .fwfuHl h a b r
  | .fwfuE h a b r | .fwctlHint h a b r => (r, [h, a, b])
  | .fwavg h a b r => (r, [h, a, a + 1, b])
  | .sprot a r | .tld a _ r | .tst a _ r => (r, [a, a + 1])
  | .mma b a x y _ r | .mmaAcc b a x y _ r | .mmaNeg b a x y _ r | .mmas b a x y _ r | .mmasAcc b a x y _ r | .mmasNeg b a x y _ r =>
    (r, pairRegs x a ++ pairRegs y b)
  | .epi b a x r => (r, b :: pairRegs x a)
  | .jalr _ a _ | .lb _ a _ | .lh _ a _ | .lw _ a _ | .ld _ a _ | .lbu _ a _ | .lhu _ a _ | .lwu _ a _ | .addi _ a _ | .slti _ a _
  | .sltiu _ a _ | .xori _ a _ | .ori _ a _ | .andi _ a _ | .slli _ a _ | .srli _ a _ | .srai _ a _ | .addiw _ a _ | .slliw _ a _
  | .srliw _ a _ | .sraiw _ a _ | .lrW _ a _ _ | .lrD _ a _ _ | .csrrw _ a _ | .csrrs _ a _ | .csrrc _ a _ | .slliUw _ a _ => (7, [a])
  | .beq a b _ | .bne a b _ | .blt a b _ | .bge a b _ | .bltu a b _ | .bgeu a b _ | .sb a b _ | .sh a b _ | .sw a b _ | .sd a b _
  | .add _ a b | .sub _ a b | .sll _ a b | .slt _ a b | .sltu _ a b | .xor _ a b | .srl _ a b | .sra _ a b | .or _ a b | .and _ a b
  | .addw _ a b | .subw _ a b | .sllw _ a b | .srlw _ a b | .sraw _ a b | .mul _ a b | .mulh _ a b | .mulhsu _ a b | .mulhu _ a b
  | .div _ a b | .divu _ a b | .rem _ a b | .remu _ a b | .mulw _ a b | .divw _ a b | .divuw _ a b | .remw _ a b | .remuw _ a b
  | .addUw _ a b | .sh1add _ a b | .sh2add _ a b | .sh3add _ a b | .sh1addUw _ a b | .sh2addUw _ a b | .sh3addUw _ a b
  | .scW _ a b _ _ | .scD _ a b _ _ | .amoswapW _ a b _ _ | .amoswapD _ a b _ _ | .amoaddW _ a b _ _ | .amoaddD _ a b _ _
  | .amoxorW _ a b _ _ | .amoxorD _ a b _ _ | .amoandW _ a b _ _ | .amoandD _ a b _ _ | .amoorW _ a b _ _ | .amoorD _ a b _ _
  | .amominW _ a b _ _ | .amominD _ a b _ _ | .amomaxW _ a b _ _ | .amomaxD _ a b _ _ | .amominuW _ a b _ _ | .amominuD _ a b _ _
  | .amomaxuW _ a b _ _ | .amomaxuD _ a b _ _ => (7, [a, b])
  | _ => (7, [])

/-- The word consumes a poisoned scalar register: one that it reads, which no command has still to write (R412). -/
def Cell.consumesBad (c : Cell) (i : Instr) : Bool :=
  !c.poison.isEmpty && c.executes (sourcesOf i).1 &&
  (sourcesOf i).2.any (fun n => c.poison.contains (c.xRes n.toNat) && c.ready [n])

/-- The meaning of a word (R42, R48). (DESIGN CHOICE, assumption log 21) A poisoned register traps, and R412 gives no trap value: it is a
free value (DESIGN CHOICE, assumption log 45). -/
noncomputable def State.issue (s : State) (w : BitVec 32) : Out :=
  match decode w with
  | .error _ => trapOut (s.withWord w) 1 (zext64 w)
  | .ok i =>
    if s.cpu.consumesBad i then trapOut (s.withWord w).free.2 0x12 (s.withWord w).free.1
    else exec i (s.withWord w)

/-- The acting cell fetches and issues its next word. -/
noncomputable def State.cellTurn (s : State) : Out :=
  if s.cellWaits then .next s
  else
    match s.fetch with
    | .ok w s => afterIssue (s.issue w)
    | .trap cause lost s => afterIssue (.next ((s.withWord 0).trap cause s.cpu.pc lost))
    | .wait s => .next s

/-! ### The moves of the other agents -/

/-- A live cell becomes the acting one. -/
def State.focusLive (s : State) (c : Nat) : State := if c < (liveCells s.fuses).length then s.focus c else s

/-- The line may be replaced: no dirty byte of it was written after a read of the cell that has not returned (R319). -/
def Cell.mayReplace (c : Cell) (no : Nat) : Bool := c.l1.all (fun x => x.no ≠ no || x.dirty = 0 || !c.readsOpen x.seq)

/-- A context that was pre-empted on the acting cell has reads that have not returned: its bytes may lie in the L1 (R319, R367). -/
def State.savedReads (s : State) : Bool :=
  s.saved.any (fun c => c.id == s.cpu.id && (c.replay ++ (c.capture.map (fun h => h.cmds)).getD []).any Cmd.readsMemory)

/-- The L1 of the acting cell replaces a line: its dirty bytes go home (R309). -/
def State.replaceLine (s : State) (no : Nat) : State :=
  if s.homeWaits (lineKey s.fuses no) then s.stall (lineKey s.fuses no)
  else if !s.cpu.mayReplace no || ((findLine s.cpu.l1 no).any (fun x => x.dirty != 0) && s.savedReads) then s
  else (s.writeBack no).upd (fun c => { c with l1 := c.l1.filter (fun x => x.no ≠ no) })

/-- The host has read `n` further entries of the completion ring of a QCB; completions that waited follow (R401). -/
def State.hostReading (s : State) (q n : Nat) : State :=
  let seen := ((s.hostReads.find? (fun p => p.1 == q)).map (fun p => p.2)).getD 0
  { s with hostReads := (q, (seen + n) % 2 ^ 32) :: s.hostReads.filter (fun p => p.1 != q) }.writeCompletions

/-- The management controller returns the bytes of the enumeration table (R15). -/
def State.sendTable (s : State) : State :=
  { s with outbox := s.outbox ++ [.table ((List.range ((tableOffsets s.fuses).getD 7 0)).filterMap (tableByte s))] }

/-- The reading of a rail, temperature or power sensor over the management port; the manual gives no value (R403; DESIGN CHOICE,
assumption log 14). -/
def State.sendSensor (s : State) (kind number : Nat) : State :=
  let (v, s) := s.free
  { s with outbox := s.outbox ++ [.sensor kind number v] }

/-! ### Priority at a channel (R373, R374) -/

/-- The firing that the agent of a move runs for. -/
def State.firingOfTurn (s : State) (t : Turn) : Nat :=
  match t with
  | .cell c | .engine c _ | .epilogue c | .l1Replace c _ => (s.cell c).firing
  | .beat e => ((s.copier e).map (fun c => c.firing)).getD 0
  | _ => 0

/-- A move for class-0 work: that of its cells and copy engines, a priority message, or a reduction or subtraction of it (R373). -/
def State.urgentTurn (s : State) (t : Turn) : Bool :=
  match t with
  | .cell c | .engine c _ | .epilogue c | .l1Replace c _ => (s.cell c).running && (s.cell c).cls = 0
  | .beat e => (s.copier e).any (fun c => (s.firing c.firing).any (fun f => f.cls = 0))
  | .deliver _ _ chan => chan = 4 || chan = 5
  | .event _ (.reductionApply i) => (s.reductions[i]?).any (fun x => x.urgent)
  | .event _ .barrierSubtraction => s.subtractions.any (fun x => x.urgent)
  | _ => false

/-- A move may not go ahead at a channel: the request of another agent's class-0 work waits there, which came first if the move is for
class-0 work too. -/
def State.barredAt (s : State) (t : Turn) (c : Channel) : Bool :=
  let first := if s.urgentTurn t then c.owed.takeWhile (fun o => o.turn != t) else c.owed
  first.any (fun o => o.urgent && o.turn != t && s.owedLive o)

/-- The channels before a move. -/
def State.barFor (s : State) (t : Turn) : State :=
  { s with channels := s.channels.map (fun c => { c with barred := s.barredAt t c, noted := false }) }

/-- The agents whose requests wait at a channel after a move: the one that moved stays, comes to, or leaves the row. -/
def Channel.after (c : Channel) (o : Owed) : Channel :=
  { c with
    barred := false
    noted := false
    owed :=
      if !c.noted then c.owed.filter (fun p => p.turn != o.turn)
      else if c.owed.any (fun p => p.turn == o.turn && p.firing == o.firing) then c.owed
      else c.owed.filter (fun p => p.turn != o.turn) ++ [o] }

/-- A move of the machine, with the requests that it leaves waiting noted at their channels (R294, R373). -/
def State.noting (s : State) (t : Turn) (act : State → Out) : Out :=
  match act (s.barFor t) with
  | .next u => .next { u with channels := u.channels.map (fun c => c.after ⟨t, s.firingOfTurn t, s.urgentTurn t⟩) }
  | o => o

/-! ### Moves -/

/-- The events of the management port and of what stands behind it, which alone go on in recovery (R403, R404). -/
def onStandby (i : Instr) : Bool :=
  match i with
  | .boot | .powerLoss .. | .pldmPrivilegedList .. | .pldmCreateContext .. | .pldmEnableQueue .. | .pldmSigningPolicy .. | .pldmSigningKey ..
  | .pldmPowerLimit .. | .pldmErrorWindow .. | .pldmFirmwareUpdate .. | .getVersion | .getCapabilities | .negotiateAlgorithms | .getDigests
  | .getCertificate | .challenge | .getMeasurements | .errorCorrected .. | .errorUncorrectable .. => true
  | _ => false

/-- A move that goes on in recovery. -/
def Turn.onStandby (t : Turn) : Bool :=
  match t with
  | .tick _ | .readTable | .readSensor .. => true
  | .event _ i => Machine.onStandby i
  | _ => false

/-- What an agent does in its move. -/
noncomputable def State.act (t : Turn) (s : State) : Out :=
  match t with
  | .cell c => (s.focusLive c).cellTurn
  | .engine c q => .next ((s.focusLive c).engineTurn q)
  | .epilogue c => .next (s.focusLive c).epilogueTurn
  | .tick n => .next { s with now := s.now + n, leaks := s.leaksAfter n }
  | .l1Replace c line => .next ((s.focusLive c).replaceLine line)
  | .busyBanks c lanes => .next ((s.focusLive c).upd (fun c => { c with busyLanes := lanes }))
  | .icacheReplace c line => .next ((s.focusLive c).upd (fun c => { c with icache := c.icache.filter (fun e => e.1 ≠ line) }))
  | .beat e => .next (s.beat e)
  | .flit l back => .next (s.takeFlit l back)
  | .quiesce l => s.quiesceLink l
  | .resendAsked ctx chip seq => .next (s.sendAgain ctx chip seq)
  | .deliver l back chan => .next (s.deliver l back chan)
  | .dispatch p q => s.dispatch p q
  | .arrival => .next s.takeArrivals
  | .hostRead q n => .next (s.hostReading q n)
  | .readTable => .next s.sendTable
  | .readSensor kind number => .next (s.sendSensor kind number)
  | .event c i => if (encode i).isSome then .next s else exec i (s.focusLive c)

/-- A move of the machine; in recovery only the management port runs (R404). -/
noncomputable def State.move (s : State) (t : Turn) : Out :=
  if s.recovery && !t.onStandby then .next s else s.noting t (State.act t)

/-! ### Placing a word for the next fetch -/

/-- Where the placed word lies, and the tables that map it (DESIGN CHOICE, assumption log 12). -/
def placedAt : Nat := 0x200000
def placedRoot : Nat := 0x300000
def placedRing : Nat := 0x400000

/-- The context that runs a placed word. -/
def placedContext : Context where
  id := 1
  pasid := 1
  root := placedRoot
  ringBase := placedRing
  ringSize := 6
  step := 0
  serial := 0
  backing := 256
  account := 0
  refill := 0
  cap := 0
  bootstrap := false

/-- Memory with tables that map the first GiB of HBM4E to itself, an empty trap ring, and a word at the place of the fetch. -/
def placedMem (m : List Host.Cell) (w : BitVec 32) : List Host.Cell :=
  let m := writeLE m placedRoot 8 (1 + (placedRoot + 4096))
  let m := writeLE m (placedRoot + 4096) 8 (1 + (placedRoot + 8192))
  let m := writeLE m (placedRoot + 8192) 8 7
  let m := writeLE m placedRing 8 0
  let m := writeLE m (placedRing + 8) 8 (6 * 2 ^ 32)
  writeLE m placedAt 4 w.toNat

/-- The acting cell runs the placed context from the placed word on. -/
def placedCell (c : Cell) : Cell :=
  { c with
    running := true
    ctx := 1
    pc := BitVec.ofNat 64 placedAt
    handler := false
    done := false
    asleep := false
    poison := []
    l1 := []
    icache := []
    tlb := [] }

end Sys2Proof.Machine
end

