-- ==== Sys2Proof/Machine/Step.lean ====
section
/-! DEFINITION. One step of the machine, and the placing of an instruction where the next step fetches it. -/

namespace Sys2Proof.Machine

/-- One step: the next move of the agenda, or, with none left, the turn of the acting cell (DESIGN CHOICE, assumption log 1). -/
noncomputable def step (s : State) : Host.Outcome State Fault Refusal :=
  match s.agenda with
  | [] => s.noting (.cell s.cpu.id) State.cellTurn
  | t :: rest => { s with agenda := rest }.move t

/-- `s` with an instruction of the opcode table at the place of the next fetch (DESIGN CHOICE, assumption log 12). -/
def State.withFetchWord (s : State) (nbits w : Nat) : State :=
  { s with
    cpu := placedCell s.cpu
    contexts := placedContext :: s.contexts.filter (fun c => c.id ≠ 1)
    mem := placedMem s.mem (BitVec.ofNat 32 (w % 2 ^ min nbits 32))
    memPoison := []
    llTlb := s.llTlb.filter (fun p => p.2.ctx ≠ 1)
    channels := []
    held := []
    offline := []
    recovery := false
    agenda := [] }

end Sys2Proof.Machine
end

