-- ==== Sys2Proof/Safety.lean ====
section
/-! DEFINITION. The terms of the statements: the canonical form of the memories, what it means that a word completes, and the frames of the words that write one register. -/

namespace Sys2Proof.Machine

/-- Package memory and the scratchpads are in their canonical form. -/
def State.MemOk (s : State) : Prop := Memory.wf s.mem = true ∧ Memory.wf s.sp = true

/-- The instruction answers a next state, of which `post` holds. -/
def Completes (i : Instr) (s : State) (post : State → Prop) : Prop := ∃ t, exec i s = .next t ∧ post t

/-- No byte of package memory or of a scratchpad differs. -/
def SameMemory (s t : State) : Prop :=
  (∀ k, readByte t.mem k = readByte s.mem k) ∧ (∀ k, readByte t.sp k = readByte s.sp k)

/-- The poisoned registers once scalar register `rd` is written: a register written whole is no longer poisoned (R412); x0 is not written. -/
def Cell.poisonAfter (c : Cell) (rd : BitVec 5) : List Res := if rd = 0 then c.poison else c.heal (c.xRes rd.toNat)

/-- The only change from `s` to `t` is `v` in the scalar register `rd` of the bank of the mode, discarded for x0 (R47, R353), which it
heals of poison (R412), and the step to the next word (R120). -/
structure WroteX (s : State) (rd : BitVec 5) (v : Word) (t : State) : Prop where
  result : t.x rd = if rd = 0 then 0 else v
  others : ∀ r, r ≠ rd → t.x r = s.x r
  taskBank : s.cpu.handler = true → t.cpu.x = s.cpu.x
  handlerBank : s.cpu.handler = false → t.cpu.hx = s.cpu.hx
  memory : SameMemory s t
  rest : t = { s with cpu := { s.cpu.flowTo (s.cpu.pc + 4) with
    x := t.cpu.x
    hx := t.cpu.hx
    poison := s.cpu.poisonAfter rd } }

/-- The only change from `s` to `t` is the step to the next word (R120). -/
def Stepped (s t : State) : Prop := t = { s with cpu := s.cpu.flowTo (s.cpu.pc + 4) } ∧ SameMemory s t

/-- A format-V word acts at once: the cell takes its role (R25), its registers are allotted (R130), no register is poisoned (R412), no
earlier command is under way, and engines take commands as soon as they may (DESIGN CHOICE, assumption log 4). -/
structure VectorReady (r : BitVec 3) (vs : List (BitVec 5)) (s : State) : Prop where
  role : s.cpu.executes r = true
  allotted : s.cpu.notAllotted (vs.map BitVec.toNat) = none
  sound : s.cpu.poison = []
  idle : s.cpu.pending = []
  eager : s.cpu.eager = true

/-- The only change from `s` to `t` is the vector register `vd`, whose lanes become `f`, the count of vector commands, and
the step to the next word. -/
structure WroteV (s : State) (vd : BitVec 5) (f : Nat → Lane) (t : State) : Prop where
  lanes : ∀ i, i < 32 → lane (t.cpu.rv vd) i = f i
  others : ∀ r, r ≠ vd → t.cpu.rv r = s.cpu.rv r
  memory : SameMemory s t
  rest : t = { s with cpu := { s.cpu.flowTo (s.cpu.pc + 4) with v := t.cpu.v, vseq := s.cpu.vseq + 1 } }

/-- The only change from `s` to `t` is the mask register `kd`, whose bits become `f`, and the same. -/
structure WroteK (s : State) (kd : BitVec 5) (f : Nat → Bool) (t : State) : Prop where
  bits : ∀ i, i < 32 → (t.cpu.rk kd.toNat).getLsbD i = f i
  others : ∀ n, n < 8 → n ≠ kd.toNat % 8 → t.cpu.rk n = s.cpu.rk n
  memory : SameMemory s t
  rest : t = { s with cpu := { s.cpu.flowTo (s.cpu.pc + 4) with k := t.cpu.k, vseq := s.cpu.vseq + 1 } }

/-- The only change from `s` to `t` is `v` in the scalar register `rd`, written by the vector engine, and the same. -/
structure VectorWroteX (s : State) (rd : BitVec 5) (v : Word) (t : State) : Prop where
  result : t.x rd = if rd = 0 then 0 else v
  others : ∀ r, r ≠ rd → t.x r = s.x r
  memory : SameMemory s t
  rest : t = { s with cpu := { s.cpu.flowTo (s.cpu.pc + 4) with
    x := t.cpu.x
    hx := t.cpu.hx
    vseq := s.cpu.vseq + 1 } }

/-- Lane `i` of a word under the mask: `new` where the word is not masked or bit `i` of k0 is set, else the old lane (R134). -/
def Cell.masked (c : Cell) (m : BitVec 1) (vd : BitVec 5) (new : Nat → Lane) (i : Nat) : Lane :=
  if m = 0 ∨ (c.rk 0).getLsbD i = true then new i else lane (c.rv vd) i

/-! ### Accesses of main memory -/

/-- The front end reaches `n` bytes at `va` (R98, R225 to R230, R239): the address is a multiple of `n`, it translates to the
place `p` and leaves the state `s1`, no earlier command of the cell stands in the way, and a store is not barred (R222, R267). -/
structure Reaches (s : State) (va : Word) (n : Nat) (a : Access) (p : Place) (s1 : State) : Prop where
  aligned : va.toNat % n = 0
  maps : ∃ leaf, translateHome s va a = .ok p leaf s1
  unbarred : a.writes = true → storeBarred s1 p n = false
  free : s1.bytesBusy (s1.key p) n = false

/-- The bytes at home are there to be read: they are memory, of a channel that serves ordinary requests (R293), and not
poisoned (R412). -/
structure AtHome (s : State) (p : Place) (n : Nat) : Prop where
  memory : isDevice p.pa = false
  serves : s.homeWaits (s.key p) = false
  sound : poisonedIn s.memPoison (s.key p) n = false

/-- No earlier read of the cell stands in the way of an access at home (R319): none is under way where the access publishes a
write, and the dirty bytes of the line that would go home first follow every one. -/
structure InTurn (s : State) (p : Place) (writes : Bool) : Prop where
  reads : writes = true → s.cpu.readsPending = false
  dirty : s.cpu.flushesEarly p = false

/-- A line of the acting cell's L1 serves the `n` bytes of a cached place: it holds them, and those of a sector that is there only in part
are dirty ones (R238, R309; assumption log 8). -/
structure InL1 (s : State) (p : Place) (n : Nat) (x : L1Line) : Prop where
  cached : p.pol = 0
  memory : isDevice p.pa = false
  line : findLine s.cpu.l1 p.line = some x
  present : x.serves &&& byteMask (p.pa % 128) n = byteMask (p.pa % 128) n

/-- The bytes of package memory from `k` up, `n` of them, become those of `v`, but for bytes in the record of a running graph,
which stay (R4, R320); every other byte of memory stays. -/
structure Stored (s : State) (k n : Nat) (v : Nat) (t : State) : Prop where
  there : ∀ i, i < n → readByte t.mem (k + i) = if s.recordHolds (k + i) then readByte s.mem (k + i) else BitVec.ofNat 8 (v / 256 ^ i)
  elsewhere : ∀ a, a < k ∨ k + n ≤ a → readByte t.mem a = readByte s.mem a
  scratch : ∀ a, readByte t.sp a = readByte s.sp a

/-- What a write at home may change besides the acting cell: the bytes and their poison, reservations of other cells, waits
on the bytes, and what the synchronisation engines keep at hand (R225, R262, R278, R280, R412). -/
def HomeFrame (s t : State) : Prop :=
  t = { s with
    cpu := t.cpu
    mem := t.mem
    memPoison := t.memPoison
    cells := t.cells
    waits := t.waits
    syncSram := t.syncSram }

/-- An atomic operation of the cell in state `s`: `new` at `n` bytes from `k`, `old` in `rd`, the L1 as the acquire leaves it,
and the step to the next word. -/
structure Exchanged (s : State) (aq : BitVec 1) (rd : BitVec 5) (old : Word) (k n new : Nat) (t : State) : Prop where
  result : t.x rd = if rd = 0 then 0 else old
  others : ∀ r, r ≠ rd → t.x r = s.x r
  bytes : Stored s k n new t
  cell : t.cpu = { s.cpu.flowTo (s.cpu.pc + 4) with
    x := t.cpu.x
    hx := t.cpu.hx
    poison := s.cpu.poisonAfter rd
    l1 := (withAq aq s).cpu.l1 }
  frame : HomeFrame s t

/-! ### Synchronisation objects -/

/-- A barrier instruction reaches the object at `key` (R98, R266, R273, R319): the address is a multiple of 32, it translates to a live
sync window, and leaves the state `s1`; no earlier command of the cell on the bytes stands in the way, and no read of one that
writes. -/
structure ReachesBarrier (s : State) (va : Word) (a : Access) (key : Nat) (s1 : State) : Prop where
  aligned : va.toNat % 32 = 0
  maps : ∃ p leaf, translate s va a = .ok p leaf s1 ∧ isSync p.pa = true ∧ s1.isOffline (homeDie s1.fuses p) = false ∧
    key = s1.key p
  free : s1.bytesBusy key 32 = false
  turn : a.writes = true → s1.cpu.readsPending = false

/-- The object at `key` becomes `b`; no other byte of memory, no scalar register but `rd`, and nothing of other units changes but
what a write at home may change, and the wake events of a flip (R372). -/
structure BarrierSet (s : State) (key : Nat) (b : Barrier) (rd : BitVec 5) (t : State) : Prop where
  object : t.barrier key = b
  elsewhere : ∀ a, a < key ∨ key + 32 ≤ a → readByte t.mem a = readByte s.mem a
  scratch : ∀ a, readByte t.sp a = readByte s.sp a
  others : ∀ r, r ≠ rd → t.x r = s.x r
  vectors : t.cpu.v = s.cpu.v
  next : t.cpu.pc = (s.cpu.flowTo (s.cpu.pc + 4)).pc
  frame : HomeFrame s { t with saved := s.saved }
  saved : t.saved.map (fun c => { c with wake := false }) = s.saved.map (fun c => { c with wake := false })

/-- A row of memory for the reduction units (R282): a multiple of 128 in HBM4E or a sync window whose home is not offline. -/
structure ReachesRow (s : State) (va : Word) (p : Place) (s1 : State) : Prop where
  aligned : va.toNat % 128 = 0
  maps : ∃ leaf, translate s va .write = .ok p leaf s1
  kind : isHbm p.pa = true ∨ isSync p.pa = true
  live : s1.isOffline (homeDie s1.fuses p) = false

/-! ### Fast-weight objects -/

/-- The directory of fast-weight objects is in order: the blocks in use have numbers of their own, older than the next number, with a
count of at least 1 that covers the objects which hold them; every object has the blocks or the image of its shape; the numbers of
the holds are older than the next one, and no object is asked into a cluster. -/
structure State.InOrder (s : State) : Prop where
  distinct : (s.blocks.map (fun b => b.id)).Nodup
  counted : ∀ b ∈ s.blocks, 0 < b.refs ∧ b.id < s.blockClock ∧ (s.objects.flatMap (fun o => o.blocks)).count b.id ≤ b.refs
  inUse : ∀ o ∈ s.objects, ∀ id ∈ o.blocks, ∃ b ∈ s.blocks, b.id = id
  shaped : ∀ o ∈ s.objects, 0 < o.rows ∧ 0 < o.cols ∧ ((∃ c, o.place = .cluster c) → o.blocks.length = o.nb) ∧
    (o.place = .image → o.image.length = o.nb ∧ o.blocks = [])
  known : (s.objects.map (fun o => o.handle)).Nodup
  unasked : ∀ o ∈ s.objects, o.want = []
  holdsOld : ∀ o ∈ s.objects, ∀ p ∈ o.holds, p.1 < s.holdClock
  requestsOld : ∀ q ∈ s.holdReqs, q.id < s.holdClock

/-- A hold on the object of a handle is granted at once: no move of the object is under way, no hold on it is incompatible and no
request that waits names it (R201). -/
def State.Grants (s : State) (exclusive : Bool) (h : Word) : Prop :=
  (∀ o ∈ s.objects, o.handle = h → o.move = .none ∧ o.copy = [] ∧ ∀ p ∈ o.holds, p.2 = false ∧ exclusive = false) ∧
  ∀ q ∈ s.holdReqs, q.asks h = false

/-- No object but that of a handle changes its contents. -/
def OthersKept (s t : State) (h : Word) : Prop :=
  ∀ p ∈ s.objects, p.handle ≠ h → ∃ q ∈ t.objects, q.handle = p.handle ∧ t.contents q = s.contents p ∧ q.next = p.next ∧
    q.holds = p.holds

/-! ### Completions -/

/-- The host write of a completion entry: to entry `idx` of the queue's completion ring, by the address and the key in its QCB (R389,
R401). -/
def completionWrite (u : State) (r : QueueRun) (idx : Nat) (entry : List Byte) : Message :=
  .hostWrite r.pasid (BitVec.ofNat 64 (u.qcb r.qcb 24 8 + 64 * (idx % u.qcb r.qcb 36 2))) (u.qcb r.qcb 32 4) entry

/-- The index of the entry that was written last. -/
def completionIndex (u : State) (r : QueueRun) : Nat := (u.qcb r.qcb 40 4 + (2 ^ 32 - 1)) % 2 ^ 32

end Sys2Proof.Machine
end

