-- ==== Sys2Proof/Certificates/Slice0/Obligations.lean ====
section
/-! DEFINITION. The statements for the provers. -/

open Sys2Proof Sys2Proof.Machine

/-- With no move on the agenda, a step is the turn of the acting cell: it does nothing while the cell waits, and else fetches
the word at the pc and is the meaning of the instruction that the word decodes to, or the trap of R42 for an illegal word, or
the trap of the fetch, or, where the instruction reads a poisoned scalar register, trap 0x12 with a free value; after that the
engines of an eager cell go on, which changes nothing when no command is under way. A move on the agenda is taken first. Around
the turn the channels in all-bank mode note the request that it leaves waiting (R41, R42, R48, R294, R373, R412; the agenda is
the model's own, assumption log 1, and so are eager engines, log 4, the waiting requests, log 71, and the value of the poison
trap, log 45). -/
def Obligations.StepRunsTheDecodedInstruction : Prop :=
  ∀ s : State,
    let turn := Turn.cell s.cpu.id
    let u := s.barFor turn
    let noted (v : State) : State :=
      { v with channels := v.channels.map (fun c => c.after ⟨turn, s.firingOfTurn turn, s.urgentTurn turn⟩) }
    let comes (o : Host.Outcome State Fault Refusal) : Prop :=
      (∀ v, o = .next v → step s = .next (noted v)) ∧ ((∀ v, o ≠ .next v) → step s = o)
    (s.channels = [] → u = s ∧ noted s = s) ∧
    (s.agenda = [] → s.cellWaits = true → comes (.next u)) ∧
    (s.agenda = [] → s.cellWaits = false → ∀ w t, u.fetch = .ok w t →
      (∀ i, decode w = .ok i → t.cpu.consumesBad i = false → comes (afterIssue (exec i (t.withWord w)))) ∧
      (∀ i, decode w = .ok i → t.cpu.consumesBad i = true → ∃ v, comes (afterIssue (.next ((t.withWord w).free.2.trap 0x12 v)))) ∧
      ∀ e, decode w = .error e → comes (afterIssue (.next ((t.withWord w).trap 1 (w.setWidth 64))))) ∧
    (s.cpu.poison = [] → ∀ i, s.cpu.consumesBad i = false) ∧
    (s.agenda = [] → s.cellWaits = false → ∀ cause lost t, u.fetch = .trap cause lost t →
      comes (afterIssue (.next ((t.withWord 0).trap cause t.cpu.pc lost)))) ∧
    (s.agenda = [] → s.cellWaits = false → ∀ t, u.fetch = .wait t → comes (.next t)) ∧
    (∀ turn rest, s.agenda = turn :: rest → step s = ({ s with agenda := rest }).move turn) ∧
    (s.cpu.pending = [] → afterIssue (.next s) = .next s) ∧ (s.cpu.eager = false → afterIssue (.next s) = .next s)

/-- A fetch reads the four bytes at the pc, the first lowest, from memory, or from the line that the cell has kept since it
fetched it; a pc that is not a multiple of 4 traps with cause 3, a word with a poisoned byte with 0x12, and a pc that does not
translate with the cause of the translation; besides the kept lines nothing changes (R23, R44, R48, R228). Between the lines of
these rules the model's own reading or choice stands (assumption logs 8 and 36). -/
def Obligations.AFetchReadsTheWordAtThePc : Prop :=
  ∀ s : State,
    (s.cpu.pc.extractLsb' 0 2 ≠ 0 → s.fetch = .trap 3 none s) ∧
    (s.cpu.pc.extractLsb' 0 2 = 0 → ∀ cause lost t, translateHome s s.cpu.pc .read = .trap cause lost t →
      s.fetch = .trap cause lost t) ∧
    ∀ p leaf s1, s.cpu.pc.extractLsb' 0 2 = 0 → translateHome s s.cpu.pc .read = .ok p leaf s1 → isDevice p.pa = false →
      (∀ n v, s1.cpu.icache.find? (fun e => e.1 == p.line) = some (n, v) →
        s.fetch = .ok (v.extractLsb' (8 * (p.pa % 128)) 32) s1) ∧
      (s1.cpu.icache.find? (fun e => e.1 == p.line) = none → s1.homeWaits (s1.key p) = false →
        (poisonedIn s1.memPoison (s1.key p) 4 = true → s.fetch = .trap 0x12 none s1) ∧
        (poisonedIn s1.memPoison (s1.key p) 4 = false → p.pa % 4 = 0 → findLine s1.cpu.l1 p.line = none → ∃ w t,
          s.fetch = .ok w t ∧ t = { s1 with cpu := { s1.cpu with icache := t.cpu.icache } } ∧
          ∀ i, i < 4 → w.extractLsb' (8 * i) 8 = readByte s1.mem (lineKey s1.fuses p.line + p.pa % 128 + i)))

/-- Words that the specification writes out decode to the instructions they stand for: format V, M, F, S, P, C, the RV64 base,
and words that are illegal (R24, R37 to R43). -/
def Obligations.DecodeOfSpecWords : Prop :=
  decode 0xE024910B#32 = .ok (.vsmaxacc 0 2 9 4 2) ∧
  decode 0x200003AB#32 = .ok (.accz 0 7) ∧
  decode 0xD32123AB#32 = .ok (.fwavg 6 8 9 7) ∧
  decode 0xB2A963AB#32 = .ok (.fwfuD 5 10 11 7) ∧
  decode 0x00B513DB#32 = .ok (.vldm 11 10 4 7) ∧
  decode 0x043623DB#32 = .ok (.vldx 3 12 8 7) ∧
  decode 0x0DC317DB#32 = .ok (.ldst 3 4 6 5 7) ∧
  decode 0x10102BDB#32 = .ok (.phase 1 10 7) ∧
  decode 0x22B517DB#32 = .ok (.bararr 11 10 5 7) ∧
  decode 0x2EB507DB#32 = .ok (.ringinit 11 10 1 7) ∧
  decode 0x60B517DB#32 = .ok (.cparm 11 10 5 7) ∧
  decode 0x72D61BDB#32 = .ok (.nbcmd 13 12 6 7) ∧
  decode 0x820317DB#32 = .ok (.stepadv 6 5 7) ∧
  decode 0xC08317FB#32 = .ok (.probe 8 6 5 7) ∧
  decode 0x001033FB#32 = .ok (.role 4 12) ∧
  decode 0x0244047B#32 = .ok (.handoff 1 1 1 0) ∧
  decode 0x047017FB#32 = .ok (.loop 7 5 7) ∧
  decode 0x0A032BFB#32 = .ok (.vgrow 6 10 7) ∧
  decode 0x14D603FB#32 = .ok (.ntoken 13 12 7) ∧
  decode 0x24032BFB#32 = .ok (.enread 6 10 7) ∧
  decode 0x1C0003FB#32 = .ok (.trapret 7) ∧
  decode 0x207303FB#32 = .ok (.rqwr 7 6 7) ∧
  decode 0x00000073#32 = .ok .ecall ∧
  decode 0x10500073#32 = .ok .wfi ∧
  decode 0x024407FB#32 = .error .handoff ∧ decode 0x00000000#32 = .error .allZerosOrOnes ∧
  decode 0xFFFFFFFF#32 = .error .allZerosOrOnes

/-- Decoding the word of a well-formed instruction gives it back, with every operand, from the word, from its four bytes with
the lowest first whatever follows them, and from its number in the opcode table's numbering; and a word decodes only to
well-formed instructions (R23 to R45). -/
def Obligations.DecodeEncodeRoundTrip : Prop :=
  (∀ i w, WellFormed i → encode i = some w → decode w = .ok i ∧ decodeTableWord 32 w.toNat = some i ∧
    ∀ rest, decodeBytes (w.extractLsb' 0 8 :: w.extractLsb' 8 8 :: w.extractLsb' 16 8 :: w.extractLsb' 24 8 :: rest) =
      .ok (i, rest)) ∧
  ∀ i w, decode w = .ok i → WellFormed i

/-- Every step keeps the memories in their canonical form: addresses strictly rising, and no entry that reads as an unlisted
address does (the form is the model's own, assumption logs 5 and 6). -/
def Obligations.StepKeepsMemOk : Prop := ∀ s t : State, s.MemOk → step s = .next t → t.MemOk

/-- At reset the memories list nothing and are canonical, no context, queue or graph exists and no PASID is privileged, the
class-0 reserve is 50 thousandths, the error window 24 hours with a threshold of 16, and every CSR of the acting cell, the
first, holds its launch value, with an allotment of 8 vector registers, with format registers of FP32, no ring handle bound and
zeros in the other registers (R46, R76, R126, R377, R396, R413; the values that the specification does not give are the model's,
assumption log 11). -/
def Obligations.ResetState : Prop :=
  State.reset.MemOk ∧ State.reset.mem = [] ∧ State.reset.sp = [] ∧ State.reset.contexts = [] ∧ State.reset.queues = [] ∧
  State.reset.graphs = [] ∧ State.reset.privileged = [] ∧ State.reset.reservePermille = 50 ∧ State.reset.errWindow = 24 * 60 ∧
  State.reset.errThreshold = 16 ∧ State.reset.csr 0x800 = 0x202020 ∧
  (∀ n ∈ ([0x801, 0x802, 0x803, 0x804, 0x808, 0x809, 0x80A, 0x80B, 0x810, 0x811, 0x812, 0x813, 0x814, 0x820] : List (BitVec 12)),
    State.reset.csr n = 0) ∧
  (∀ n ∈ ([0xC10, 0xC11, 0xC12, 0xC13, 0xC14, 0xC31] : List (BitVec 12)), State.reset.csr n = 0) ∧ State.reset.csr 0xC15 = 0x10900 ∧
  (∀ n : Fin 16, State.reset.csr (BitVec.ofNat 12 (0xC20 + n)) = 0) ∧ State.reset.csr 0xC30 = 8 ∧
  (∀ n : Fin 16, State.reset.cpu.fm[n] = 0xFFF00001 ∧ State.reset.cpu.q[n] = none) ∧
  (∀ r, State.reset.x r = 0 ∧ State.reset.cpu.rv r = 0) ∧ ∀ n : Fin 8, State.reset.cpu.k[n] = 0 ∧ State.reset.cpu.m[n] = Vector.replicate 32 0

/-- Every integer operation of RV64I and Zba completes when its registers are free, with the result the published specification
gives it in rd (nothing written for x0), and changes nothing else but the place of the next word (R43, R47, R97). Every
multiplication and division of the M extension completes when its registers are free, a division by zero and the signed overflow
included, with the published result in rd, and changes nothing else but the place of the next word (R43). -/
def Obligations.IntegerWordsWriteRd : Prop :=
  (∀ (rd rs1 rs2 : BitVec 5) (up : BitVec 20) (imm : BitVec 12) (sh : BitVec 6) (sw : BitVec 5) (s : State),
     s.cpu.ready [rd, rs1, rs2] = true →
     let a := s.x rs1
     let b := s.x rs2
     let k : Word := imm.signExtend 64
     let word (v : BitVec 32) : Word := v.signExtend 64
     let low (v : Word) : BitVec 32 := v.setWidth 32
     let uw : Word := (low a).setWidth 64
     let gives (i : Instr) (v : Word) : Prop := Completes i s (WroteX s rd v)
     gives (.lui rd up) (word (up.setWidth 32 <<< 12)) ∧ gives (.auipc rd up) (s.cpu.pc + word (up.setWidth 32 <<< 12)) ∧
     gives (.addi rd rs1 imm) (a + k) ∧ gives (.slti rd rs1 imm) (if a.slt k then 1 else 0) ∧
     gives (.sltiu rd rs1 imm) (if a.ult k then 1 else 0) ∧ gives (.xori rd rs1 imm) (a ^^^ k) ∧
     gives (.ori rd rs1 imm) (a ||| k) ∧ gives (.andi rd rs1 imm) (a &&& k) ∧
     gives (.slli rd rs1 sh) (a <<< sh) ∧ gives (.srli rd rs1 sh) (a >>> sh) ∧
     gives (.srai rd rs1 sh) (a.sshiftRight' sh) ∧
     gives (.addiw rd rs1 imm) (word (low a + imm.signExtend 32)) ∧ gives (.slliw rd rs1 sw) (word (low a <<< sw)) ∧
     gives (.srliw rd rs1 sw) (word (low a >>> sw)) ∧ gives (.sraiw rd rs1 sw) (word ((low a).sshiftRight' sw)) ∧
     gives (.add rd rs1 rs2) (a + b) ∧ gives (.sub rd rs1 rs2) (a - b) ∧
     gives (.sll rd rs1 rs2) (a <<< b.setWidth 6) ∧ gives (.slt rd rs1 rs2) (if a.slt b then 1 else 0) ∧
     gives (.sltu rd rs1 rs2) (if a.ult b then 1 else 0) ∧ gives (.xor rd rs1 rs2) (a ^^^ b) ∧
     gives (.srl rd rs1 rs2) (a >>> b.setWidth 6) ∧ gives (.sra rd rs1 rs2) (a.sshiftRight' (b.setWidth 6)) ∧
     gives (.or rd rs1 rs2) (a ||| b) ∧ gives (.and rd rs1 rs2) (a &&& b) ∧
     gives (.addw rd rs1 rs2) (word (low a + low b)) ∧ gives (.subw rd rs1 rs2) (word (low a - low b)) ∧
     gives (.sllw rd rs1 rs2) (word (low a <<< b.setWidth 5)) ∧ gives (.srlw rd rs1 rs2) (word (low a >>> b.setWidth 5)) ∧
     gives (.sraw rd rs1 rs2) (word ((low a).sshiftRight' (b.setWidth 5))) ∧
     gives (.addUw rd rs1 rs2) (uw + b) ∧ gives (.sh1add rd rs1 rs2) (2 * a + b) ∧ gives (.sh2add rd rs1 rs2) (4 * a + b) ∧
     gives (.sh3add rd rs1 rs2) (8 * a + b) ∧ gives (.sh1addUw rd rs1 rs2) (2 * uw + b) ∧
     gives (.sh2addUw rd rs1 rs2) (4 * uw + b) ∧ gives (.sh3addUw rd rs1 rs2) (8 * uw + b) ∧
     gives (.slliUw rd rs1 sh) (uw <<< sh)) ∧
  (∀ (rd rs1 rs2 : BitVec 5) (s : State), s.cpu.ready [rd, rs1, rs2] = true →
     let a := s.x rs1
     let b := s.x rs2
     let word (v : BitVec 32) : Word := v.signExtend 64
     let al : BitVec 32 := a.setWidth 32
     let bl : BitVec 32 := b.setWidth 32
     let high (x y : BitVec 128) : Word := (x * y).extractLsb' 64 64
     let gives (i : Instr) (v : Word) : Prop := Completes i s (WroteX s rd v)
     gives (.mul rd rs1 rs2) (a * b) ∧
     gives (.mulh rd rs1 rs2) (high (a.signExtend 128) (b.signExtend 128)) ∧
     gives (.mulhsu rd rs1 rs2) (high (a.signExtend 128) (b.setWidth 128)) ∧
     gives (.mulhu rd rs1 rs2) (high (a.setWidth 128) (b.setWidth 128)) ∧
     gives (.mulw rd rs1 rs2) (word (al * bl)) ∧
     gives (.div rd rs1 rs2) (if b = 0 then -1 else a.sdiv b) ∧ gives (.divu rd rs1 rs2) (if b = 0 then -1 else a / b) ∧
     gives (.rem rd rs1 rs2) (if b = 0 then a else a.srem b) ∧ gives (.remu rd rs1 rs2) (if b = 0 then a else a % b) ∧
     gives (.divw rd rs1 rs2) (word (if bl = 0 then -1 else al.sdiv bl)) ∧
     gives (.divuw rd rs1 rs2) (word (if bl = 0 then -1 else al / bl)) ∧
     gives (.remw rd rs1 rs2) (word (if bl = 0 then al else al.srem bl)) ∧
     gives (.remuw rd rs1 rs2) (word (if bl = 0 then al else al % bl)))

/-- Jumps and branches: with its registers free and its target a multiple of 4, the word goes to its target and the jumps write
the address of the next word in rd; a branch not taken goes to the next word; outside every loop nothing else changes (R23, R43,
R120). -/
def Obligations.JumpsAndBranchesTransfer : Prop :=
  ∀ (rd rs1 rs2 : BitVec 5) (off : BitVec 20) (imm : BitVec 12) (s : State),
    s.cpu.ready [rd, rs1, rs2] = true →
    let a := s.x rs1
    let b := s.x rs2
    let pc := s.cpu.pc
    let goes (t : Word) (u : State) : Prop := u = { s with cpu := s.cpu.jumpTo t }
    let links (t : Word) (u : State) : Prop := u = { s with cpu := (s.cpu.wx rd (pc + 4)).jumpTo t }
    let far : Word := pc + 2 * off.signExtend 64
    let near : Word := pc + 2 * imm.signExtend 64
    let reg : Word := (a + imm.signExtend 64) &&& (-2)
    let branch (i : Instr) (c : Bool) : Prop :=
      (c = true → near.setWidth 2 = 0#2 → Completes i s (goes near)) ∧ (c = false → Completes i s (Stepped s))
    (far.setWidth 2 = 0#2 → Completes (.jal rd off) s (links far)) ∧
    (reg.setWidth 2 = 0#2 → Completes (.jalr rd rs1 imm) s (links reg)) ∧
    branch (.beq rs1 rs2 imm) (a == b) ∧ branch (.bne rs1 rs2 imm) (a != b) ∧
    branch (.blt rs1 rs2 imm) (a.slt b) ∧ branch (.bge rs1 rs2 imm) (!a.slt b) ∧
    branch (.bltu rs1 rs2 imm) (a.ult b) ∧ branch (.bgeu rs1 rs2 imm) (!a.ult b)

/-- A jump or a taken branch whose target is not a multiple of 4 takes a precise trap on itself with cause 3 and tval the
target; no rd is written (R23). An access of two, four or eight bytes whose address is not a multiple of its size takes a
precise trap with cause 3 and tval the address, and has no other effect (R44, R240). -/
def Obligations.MisalignmentTraps : Prop :=
  (∀ (rd rs1 rs2 : BitVec 5) (off : BitVec 20) (imm : BitVec 12) (s : State),
     s.cpu.ready [rd, rs1, rs2] = true →
     let a := s.x rs1
     let b := s.x rs2
     let far : Word := s.cpu.pc + 2 * off.signExtend 64
     let near : Word := s.cpu.pc + 2 * imm.signExtend 64
     let reg : Word := (a + imm.signExtend 64) &&& (-2)
     let traps (i : Instr) (t : Word) : Prop := exec i s = .next (s.trap 3 t)
     (far.setWidth 2 ≠ 0#2 → traps (.jal rd off) far) ∧
     (reg.setWidth 2 ≠ 0#2 → traps (.jalr rd rs1 imm) reg) ∧
     (near.setWidth 2 ≠ 0#2 →
       (a = b → traps (.beq rs1 rs2 imm) near) ∧ (a ≠ b → traps (.bne rs1 rs2 imm) near) ∧
       (a.slt b = true → traps (.blt rs1 rs2 imm) near) ∧ (a.slt b = false → traps (.bge rs1 rs2 imm) near) ∧
       (a.ult b = true → traps (.bltu rs1 rs2 imm) near) ∧ (a.ult b = false → traps (.bgeu rs1 rs2 imm) near))) ∧
  (∀ (rd rs1 rs2 : BitVec 5) (imm : BitVec 12) (aq rl : BitVec 1) (sc : BitVec 3) (r : BitVec 3) (s : State),
     s.cpu.ready [rd, rs1, rs2] = true →
     let va := s.x rs1 + imm.signExtend 64
     let a := s.x rs1
     let traps (i : Instr) (va : Word) (n : Nat) : Prop := va.toNat % n ≠ 0 → exec i s = .next (s.trap 3 va)
     traps (.lh rd rs1 imm) va 2 ∧ traps (.lhu rd rs1 imm) va 2 ∧ traps (.lw rd rs1 imm) va 4 ∧
     traps (.lwu rd rs1 imm) va 4 ∧ traps (.ld rd rs1 imm) va 8 ∧ traps (.sh rs1 rs2 imm) va 2 ∧
     traps (.sw rs1 rs2 imm) va 4 ∧ traps (.sd rs1 rs2 imm) va 8 ∧
     (rlWaits rl s = false →
       (∀ i ∈ [.lrW rd rs1 aq rl, .scW rd rs1 rs2 aq rl, .amoswapW rd rs1 rs2 aq rl, .amoaddW rd rs1 rs2 aq rl,
         .amoxorW rd rs1 rs2 aq rl, .amoandW rd rs1 rs2 aq rl, .amoorW rd rs1 rs2 aq rl, .amominW rd rs1 rs2 aq rl,
         .amomaxW rd rs1 rs2 aq rl, .amominuW rd rs1 rs2 aq rl, .amomaxuW rd rs1 rs2 aq rl], traps i a 4) ∧
       (∀ i ∈ [.lrD rd rs1 aq rl, .scD rd rs1 rs2 aq rl, .amoswapD rd rs1 rs2 aq rl, .amoaddD rd rs1 rs2 aq rl,
         .amoxorD rd rs1 rs2 aq rl, .amoandD rd rs1 rs2 aq rl, .amoorD rd rs1 rs2 aq rl, .amominD rd rs1 rs2 aq rl,
         .amomaxD rd rs1 rs2 aq rl, .amominuD rd rs1 rs2 aq rl, .amomaxuD rd rs1 rs2 aq rl], traps i a 8)) ∧
     (s.cpu.executes r = true →
       traps (.ldst 1 sc rs1 rd r) a 2 ∧ traps (.ldst 2 sc rs1 rd r) a 4 ∧ traps (.ldst 3 sc rs1 rd r) a 8 ∧
       traps (.stst 1 sc rs1 rd r) a 2 ∧ traps (.stst 2 sc rs1 rd r) a 4 ∧ traps (.stst 3 sc rs1 rd r) a 8))

/-- A scalar load completes once it reaches its bytes, in the cell's L1 or at home, with those bytes, sign-extended or
zero-extended, in rd; it changes nothing else but what the translation and the lookup keep at hand (R43, R309). Between the
lines of these rules the model's own reading or choice stands (assumption log 8). -/
def Obligations.LoadsReadTheirBytes : Prop :=
  ∀ (rd rs1 : BitVec 5) (imm : BitVec 12) (p : Place) (s s1 : State), s.cpu.ready [rd, rs1] = true →
    let loads (i : Instr) (n : Nat) (value : Nat → Word) : Prop :=
      Reaches s (s.x rs1 + imm.signExtend 64) n .read p s1 →
      (∀ x, InL1 s1 p n x →
        Completes i s (WroteX (s1.upd (fun c => { c with l1 := putLine c.l1 x })) rd (value (lineBytes x.data (p.pa % 128) n)))) ∧
      (p.pol ≠ 0 → AtHome s1 p n →
        Completes i s (WroteX (s1.syncTouch (s1.key p)) rd (value (readLE s1.mem (s1.key p) n))))
    loads (.lb rd rs1 imm) 1 (fun v => (BitVec.ofNat 8 v).signExtend 64) ∧
    loads (.lh rd rs1 imm) 2 (fun v => (BitVec.ofNat 16 v).signExtend 64) ∧
    loads (.lw rd rs1 imm) 4 (fun v => (BitVec.ofNat 32 v).signExtend 64) ∧
    loads (.ld rd rs1 imm) 8 (fun v => BitVec.ofNat 64 v) ∧ loads (.lbu rd rs1 imm) 1 (fun v => BitVec.ofNat 64 v) ∧
    loads (.lhu rd rs1 imm) 2 (fun v => BitVec.ofNat 64 v) ∧ loads (.lwu rd rs1 imm) 4 (fun v => BitVec.ofNat 64 v)

/-- A scalar store completes once it reaches its bytes. To a cached place it changes the cell's L1 alone; to another place it
writes the low bytes of rs2 at home, once the cell's earlier reads have returned, and every byte of memory outside them stays.
No register changes (R43, R225, R309, R319). Between the lines of these rules the model's own reading or choice stands
(assumption log 8). -/
def Obligations.StoresWriteTheirBytes : Prop :=
  ∀ (rs1 rs2 : BitVec 5) (imm : BitVec 12) (p : Place) (s s1 : State), s.cpu.ready [rs1, rs2] = true → s.MemOk →
    let stores (i : Instr) (n : Nat) : Prop :=
      Reaches s (s.x rs1 + imm.signExtend 64) n .write p s1 →
      (p.pol = 0 →
        Completes i s (fun t => SameMemory s1 t ∧
          t = { s1 with cpu := { s1.cpu.flowTo (s1.cpu.pc + 4) with l1 := (s1.l1Store p n (s.x rs2).toNat s1.cpu.vseq).cpu.l1 } })) ∧
      (p.pol ≠ 0 → s1.homeWaits (s1.key p) = false → s1.cpu.readsBefore s1.cpu.vseq = false →
        Completes i s (fun t => Stored s1 (s1.key p) n (s.x rs2).toNat t ∧ HomeFrame s1 t ∧
          t.cpu = s1.cpu.flowTo (s1.cpu.pc + 4)))
    stores (.sb rs1 rs2 imm) 1 ∧ stores (.sh rs1 rs2 imm) 2 ∧ stores (.sw rs1 rs2 imm) 4 ∧ stores (.sd rs1 rs2 imm) 8

/-- Every AMO completes once it reaches its bytes and the cell's earlier reads have returned, with the old value sign-extended
in rd and the new value at home, after the release that rl asks for and before the acquire that aq asks for; no other byte and
no other register changes (R279, R310, R319). LR reads its bytes at home into rd and reserves their 8-byte word; SC to the
reserved word stores rs2, writes 0 to rd and ends the reservation, and without one it stores nothing, writes 1 and ends the
reservation too (R280). Between the lines of these rules the model's own reading or choice stands (assumption log 35). -/
def Obligations.AtomicsAndReservations : Prop :=
  (∀ (rd rs1 rs2 : BitVec 5) (aq rl : BitVec 1) (p : Place) (s s1 : State),
     s.cpu.ready [rd, rs1, rs2] = true → rlWaits rl s = false → s.MemOk →
     let home (n : Nat) : State := (withRl rl s1).selfFlush p n
     let word (i : Instr) (f : BitVec 32 → BitVec 32 → BitVec 32) : Prop :=
       Reaches s (s.x rs1) 4 .amo p s1 → InTurn s1 p true → AtHome (home 4) p 4 →
       let old := BitVec.ofNat 32 (readLE (home 4).mem (s1.key p) 4)
       Completes i s (Exchanged (home 4) aq rd (old.signExtend 64) (s1.key p) 4 (f old ((s.x rs2).setWidth 32)).toNat)
     let double (i : Instr) (f : BitVec 64 → BitVec 64 → BitVec 64) : Prop :=
       Reaches s (s.x rs1) 8 .amo p s1 → InTurn s1 p true → AtHome (home 8) p 8 →
       let old := BitVec.ofNat 64 (readLE (home 8).mem (s1.key p) 8)
       Completes i s (Exchanged (home 8) aq rd old (s1.key p) 8 (f old (s.x rs2)).toNat)
     word (.amoswapW rd rs1 rs2 aq rl) (fun _ b => b) ∧ double (.amoswapD rd rs1 rs2 aq rl) (fun _ b => b) ∧
     word (.amoaddW rd rs1 rs2 aq rl) (fun a b => a + b) ∧ double (.amoaddD rd rs1 rs2 aq rl) (fun a b => a + b) ∧
     word (.amoxorW rd rs1 rs2 aq rl) (fun a b => a ^^^ b) ∧ double (.amoxorD rd rs1 rs2 aq rl) (fun a b => a ^^^ b) ∧
     word (.amoandW rd rs1 rs2 aq rl) (fun a b => a &&& b) ∧ double (.amoandD rd rs1 rs2 aq rl) (fun a b => a &&& b) ∧
     word (.amoorW rd rs1 rs2 aq rl) (fun a b => a ||| b) ∧ double (.amoorD rd rs1 rs2 aq rl) (fun a b => a ||| b) ∧
     word (.amominW rd rs1 rs2 aq rl) (fun a b => if a.slt b then a else b) ∧
     double (.amominD rd rs1 rs2 aq rl) (fun a b => if a.slt b then a else b) ∧
     word (.amomaxW rd rs1 rs2 aq rl) (fun a b => if a.slt b then b else a) ∧
     double (.amomaxD rd rs1 rs2 aq rl) (fun a b => if a.slt b then b else a) ∧
     word (.amominuW rd rs1 rs2 aq rl) (fun a b => if a.ult b then a else b) ∧
     double (.amominuD rd rs1 rs2 aq rl) (fun a b => if a.ult b then a else b) ∧
     word (.amomaxuW rd rs1 rs2 aq rl) (fun a b => if a.ult b then b else a) ∧
     double (.amomaxuD rd rs1 rs2 aq rl) (fun a b => if a.ult b then b else a)) ∧
  (∀ (rd rs1 rs2 : BitVec 5) (aq rl : BitVec 1) (p : Place) (s s1 : State),
     s.cpu.ready [rd, rs1, rs2] = true → rlWaits rl s = false → s.MemOk →
     let k := s1.key p
     let reserve (o : Option Nat) (s : State) : State := s.upd (fun c => { c with reservation := o })
     let pair (lr sc : Instr) (n : Nat) (ext : Nat → Word) : Prop :=
       let home := (withRl rl s1).selfFlush p n
       (Reaches s (s.x rs1) n .read p s1 → InTurn s1 p false → AtHome home p n →
         Completes lr s (WroteX (withAq aq (reserve (some (k - k % 8)) (home.syncTouch k))) rd (ext (readLE home.mem k n)))) ∧
       (Reaches s (s.x rs1) n .write p s1 → s1.cpu.reservation = some (k - k % 8) → InTurn s1 p true → home.homeWaits k = false →
         Completes sc s (Exchanged (reserve none home) aq rd 0 k n (s.x rs2).toNat)) ∧
       (Reaches s (s.x rs1) n .write p s1 → s1.cpu.reservation ≠ some (k - k % 8) →
         Completes sc s (WroteX (withAq aq (reserve none s1)) rd 1))
     pair (.lrW rd rs1 aq rl) (.scW rd rs1 rs2 aq rl) 4 (fun v => (BitVec.ofNat 32 v).signExtend 64) ∧
     pair (.lrD rd rs1 aq rl) (.scD rd rs1 rs2 aq rl) 8 (fun v => BitVec.ofNat 64 v))

/-- ldst and stst of each size give the bytes sign-extended in rd and write the low bytes of their register, and nothing else.
At a scope wider than the cell they act at home, after the cell's own bytes of the run and its earlier reads; at cell scope they
act like weak accesses: in the cell's L1 for a cached place, and else at home (R240, R309, R310, R319). Between the lines of
these rules the model's own reading or choice stands (assumption log 8). -/
def Obligations.StrongAccessesActAtHome : Prop :=
  ∀ (z : BitVec 2) (sc : BitVec 3) (a d : BitVec 5) (r : BitVec 3) (p : Place) (s s1 : State),
    s.cpu.executes r = true → s.cpu.ready [d, a] = true → s.MemOk →
    let n := 2 ^ z.toNat
    let value (v : Nat) : Word := (BitVec.ofNat (8 * n) v).signExtend 64
    let wrote (home t : State) : Prop := Stored home (s1.key p) n (s.x d).toNat t ∧ HomeFrame home t ∧
      t.cpu = home.cpu.flowTo (home.cpu.pc + 4)
    (Reaches s (s.x a) n .read p s1 →
      (sc ≠ 0 → let home := s1.selfFlush p n
        InTurn s1 p false → AtHome home p n →
        Completes (.ldst z sc a d r) s (WroteX (home.syncTouch (s1.key p)) d (value (readLE home.mem (s1.key p) n)))) ∧
      (sc = 0 →
        (∀ x, InL1 s1 p n x → Completes (.ldst z sc a d r) s
          (WroteX (s1.upd (fun c => { c with l1 := putLine c.l1 x })) d (value (lineBytes x.data (p.pa % 128) n)))) ∧
        (p.pol ≠ 0 → AtHome s1 p n →
          Completes (.ldst z sc a d r) s (WroteX (s1.syncTouch (s1.key p)) d (value (readLE s1.mem (s1.key p) n)))))) ∧
    (Reaches s (s.x a) n .write p s1 →
      (sc ≠ 0 → let home := s1.selfFlush p n
        InTurn s1 p true → home.homeWaits (s1.key p) = false → Completes (.stst z sc a d r) s (wrote home)) ∧
      (sc = 0 → p.pol = 0 → Completes (.stst z sc a d r) s (fun t => SameMemory s1 t ∧
        t = { s1 with cpu := { s1.cpu.flowTo (s1.cpu.pc + 4) with
          l1 := (s1.l1Store p n (s.x d).toNat s1.cpu.vseq).cpu.l1 } })) ∧
      (sc = 0 → p.pol ≠ 0 → s1.homeWaits (s1.key p) = false → s1.cpu.readsBefore s1.cpu.vseq = false →
        Completes (.stst z sc a d r) s (wrote s1)))

/-- Each CSR instruction completes when its registers are free: rd gets the old value, and the CSR the operand, the old value
with the operand's bits set, or with them cleared; the set and clear forms with x0 or 0 write nothing; nbstat takes the operand
itself for each kind, since its write clears the bits that are 1 in it (R45). -/
def Obligations.CsrInstructionsExchange : Prop :=
  ∀ (rd rs1 uimm : BitVec 5) (csr : BitVec 12) (s : State), s.cpu.ready [rd, rs1] = true →
    let old := s.csr csr
    let wrote (v : Word) : State := s.upd (fun c => c.csrWrite csr v)
    let set (v : Word) : State := wrote (if csr = 0x820 then v else old ||| v)
    let clear (v : Word) : State := wrote (if csr = 0x820 then v else old &&& ~~~v)
    Completes (.csrrw rd rs1 csr) s (WroteX (wrote (s.x rs1)) rd old) ∧
    Completes (.csrrs rd rs1 csr) s (WroteX (if rs1 = 0 then s else set (s.x rs1)) rd old) ∧
    Completes (.csrrc rd rs1 csr) s (WroteX (if rs1 = 0 then s else clear (s.x rs1)) rd old) ∧
    Completes (.csrrwi rd uimm csr) s (WroteX (wrote (uimm.setWidth 64)) rd old) ∧
    Completes (.csrrsi rd uimm csr) s (WroteX (if uimm = 0 then s else set (uimm.setWidth 64)) rd old) ∧
    Completes (.csrrci rd uimm csr) s (WroteX (if uimm = 0 then s else clear (uimm.setWidth 64)) rd old)

/-- A write of a CSR: vslip takes three depths of 1 to 32, vrm a mode of 0 to 4 and a saturation bit, ftbase 0 to 63, ftsel 0 to
3, a loop counter 32 bits (in handler mode it is the task's counter too, assumption log 55); a value with a bad field is
discarded; of nbstat the flags that are 1 in the value clear, and with rej the status last, while its other fields stay;
thandler, tcause, tval and tepc take every value. Each event completes, and no other CSR of these changes (R82, R86, R101, R121,
R303). -/
def Obligations.CsrWritesFollowFieldRules : Prop :=
  ∀ (v : Word) (s : State),
    let depth (lo : Nat) : Prop := 1 ≤ (v.extractLsb' lo 6).toNat ∧ (v.extractLsb' lo 6).toNat ≤ 32
    let slip : Prop := depth 0 ∧ depth 8 ∧ depth 16 ∧ v.extractLsb' 6 2 = 0 ∧ v.extractLsb' 14 2 = 0 ∧ v.toNat < 2 ^ 22
    let mode : Prop := v.toNat < 16 ∧ (v.extractLsb' 0 3).toNat ≤ 4
    let kept : Word := s.cpu.nbstat &&& ~~~(v &&& 0x3F)
    (slip → Completes (.csrWriteVslip v) s (fun t => t = { s with cpu := { s.cpu with vslip := v } })) ∧
    (¬ slip → Completes (.csrWriteVslip v) s (fun t => t = s)) ∧
    (mode → Completes (.csrWriteVrm v) s (fun t => t = { s with cpu := { s.cpu with vrm := v } })) ∧
    (¬ mode → Completes (.csrWriteVrm v) s (fun t => t = s)) ∧
    (v.toNat < 64 → Completes (.csrWriteFtbase v) s (fun t =>
      t.csr 0x802 = v ∧ t = { s with cpu := { s.cpu with ftbase := v, pending := t.cpu.pending } })) ∧
    (64 ≤ v.toNat → Completes (.csrWriteFtbase v) s (fun t => t = s)) ∧
    (v.toNat < 4 → Completes (.csrWriteFtsel v) s (fun t => t = { s with cpu := { s.cpu with ftsel := v } })) ∧
    (4 ≤ v.toNat → Completes (.csrWriteFtsel v) s (fun t => t = s)) ∧
    (∀ k : BitVec 2, v.toNat < 2 ^ 32 → Completes (.csrWriteLc k v) s (fun t =>
      t.csr (0x808 + k.setWidth 12) = v ∧ t = { s with cpu := { s.cpu with lc := t.cpu.lc, savedLc := t.cpu.savedLc } } ∧
      (s.cpu.handler = false → t.cpu.savedLc = s.cpu.savedLc) ∧ ∀ j : BitVec 2, j ≠ k →
        t.csr (0x808 + j.setWidth 12) = s.csr (0x808 + j.setWidth 12))) ∧
    (∀ k : BitVec 2, 2 ^ 32 ≤ v.toNat → Completes (.csrWriteLc k v) s (fun t => t = s)) ∧
    Completes (.csrWriteNbstat v) s (fun t => t = { s with cpu := { s.cpu with
      nbstat := if v.getLsbD 0 then kept &&& ~~~0xFF00#64 else kept } }) ∧
    (s.cpu.handler = false → Completes (.csrWritePidx v) s (fun t => t = { s with cpu := { s.cpu with pidx := v } })) ∧
    Completes (.csrWrite 0x804 v) s (fun t => t = { s with cpu := { s.cpu with thandler := v } }) ∧
    Completes (.csrWrite 0x811 v) s (fun t => t = { s with cpu := { s.cpu with tcause := v } }) ∧
    Completes (.csrWrite 0x812 v) s (fun t => t = { s with cpu := { s.cpu with tval := v } }) ∧
    Completes (.csrWrite 0x813 v) s (fun t => t = { s with cpu := { s.cpu with tepc := v } })

/-- pidx: in handler mode it reads the progress of the trapped entry, or 0 if no entry is trapped, and a write sets that
progress, modulo 65,536, and nothing else; in task mode it reads the last value written, and the progress of the commands under
way stays (R365). -/
def Obligations.PidxIsTheTrappedProgress : Prop :=
  ∀ (d : BitVec 5) (v : Word) (s : State), s.cpu.ready [d] = true →
    let reads (u : State) (x : Word) : Prop := u.csr 0x810 = x ∧ Completes (.csrrs d 0 0x810) u (WroteX u d x)
    let wrote (post : State → Prop) : Prop := Completes (.csrWritePidx v) s post
    (s.cpu.handler = true → ∀ i e, s.cpu.replay[i]? = some e → e.trapped = true →
      (∀ j f, s.cpu.replay[j]? = some f → f.trapped = true → j = i) →
      reads s (BitVec.ofNat 64 e.progress) ∧
      wrote (fun t => t = { s with cpu := { s.cpu with replay := s.cpu.replay.set i { e with progress := v.toNat % 2 ^ 16 } } } ∧
        reads t (BitVec.ofNat 64 (v.toNat % 2 ^ 16)))) ∧
    (s.cpu.handler = true → (∀ e ∈ s.cpu.replay, e.trapped = false) → reads s 0 ∧ wrote (fun t => t = s)) ∧
    (s.cpu.handler = false → wrote (fun t => t = { s with cpu := { s.cpu with pidx := v } } ∧ reads t v))

/-- The fences complete once the cell's earlier commands have made their accesses and no channel holds its dirty lines back:
each releases, acquires or does both at its scope, the RV64 fences at package scope whatever their fields, and FENCE.I drops the
fetched lines; no register changes (R44, R312, R313). -/
def Obligations.FencesReleaseAndAcquire : Prop :=
  ∀ (sc : BitVec 3) (r : BitVec 3) (rd rs1 : BitVec 5) (imm : BitVec 12) (s : State), s.cpu.memoryQuiet = true →
    (s.cpu.executes r = true →
      Completes (.fenceAcq sc r) s (Stepped (s.acquire sc.toNat)) ∧
      (s.releaseWaits sc.toNat = false →
        Completes (.fenceBoth sc r) s (Stepped ((s.release sc.toNat).acquire sc.toNat)) ∧
        Completes (.fenceRel sc r) s (Stepped (s.release sc.toNat)))) ∧
    (s.releaseWaits 4 = false →
      Completes (.fence rd rs1 imm) s (Stepped ((s.release 4).acquire 4)) ∧
      Completes (.fenceTso rd rs1) s (Stepped ((s.release 4).acquire 4))) ∧
    Completes (.fenceI rd rs1 imm) s (Stepped (s.upd (fun c => { c with icache := [] })))

/-- phase releases, adds 1 to the member's count, which rd gets, and acquires; a member that then leads a neighbour by more than
its allowance holds with its count already advanced, its pc and its allowance unchanged (R116, R311). A held phase ends when the
member no longer leads by more than its allowance: it acquires at its scope and the cell goes on (R116, R311). -/
def Obligations.PhaseCountsAndHolds : Prop :=
  (∀ (sc : BitVec 3) (d : BitVec 5) (r : BitVec 3) (s : State),
     s.cpu.executes r = true → s.cpu.ready [d] = true → s.cpu.hold = none → s.cpu.memoryQuiet = true →
     s.releaseWaits sc.toNat = false →
     let count := s.cpu.phaseCount + 1
     let counted := (s.release sc.toNat).upd (fun c => { c with phaseCount := count })
     (phaseHeld counted counted.cpu = false →
       Completes (.phase sc d r) s (WroteX (counted.acquire sc.toNat) d (count.setWidth 64))) ∧
     (phaseHeld counted counted.cpu = true →
       Completes (.phase sc d r) s (fun t =>
         t.cpu.phaseCount = count ∧ t.cpu.hold = some sc.toNat ∧ t.cpu.pc = s.cpu.pc ∧ t.cpu.lead = s.cpu.lead ∧
         t.x d = if d = 0 then 0 else count.setWidth 64))) ∧
  (∀ (scope : Nat) (s : State), s.cpu.hold = some scope →
     (phaseHeld s s.cpu = false →
       Completes .phaseHoldRelease s (Stepped ((s.acquire scope).upd (fun c => { c with hold := none })))) ∧
     (phaseHeld s s.cpu = true → exec .phaseHoldRelease s = .next s))

/-- roleid gives the layout of the cell's own role, or of the role that its operand names, and traps on a role above 6 with that
value; a role with no bound cell gives count 0, member 0 and index 0 (R107, R108). drift sets the lead allowance to an operand
of 0 to 255 and gives the old one; a greater operand traps with it (R118). stepadv adds its operand to the context's 32-bit step
count, which rd gets; an operand of 2 ^ 32 or more traps with it; the step counts of other contexts stay (R242). vgrow and
vshrink change the allotment to 8, 16, 24 or 32 registers, which they clear on both sides, and rd gets the old one; every other
size, a vgrow to fewer and a vshrink to more trap with the operand (R129). fmset puts a descriptor that decodes into its format
register and ftset an entry that decodes into its place of the format table; nothing else changes, and what does not decode
traps with its value (R85, R91, R92). Between the lines of these rules the model's own reading or choice stands (assumption logs
48 and 59). -/
def Obligations.TeamWordsReadAndSet : Prop :=
  (∀ (a d : BitVec 5) (r : BitVec 3) (s : State), s.cpu.executes r = true → s.cpu.ready [d, a] = true →
     (a = 0 → Completes (.roleid a d r) s (WroteX s d (s.cpu.roleLayout s.cpu.role))) ∧
     (a ≠ 0 → (s.x a).toNat ≤ 6 → Completes (.roleid a d r) s (WroteX s d (s.cpu.roleLayout (s.x a).toNat))) ∧
     (a ≠ 0 → 6 < (s.x a).toNat → exec (.roleid a d r) s = .next (s.trap 1 (s.x a))) ∧
     (∀ q, q ≤ 6 → q ≠ s.cpu.role → s.cpu.roleCount q = 0 →
       (s.cpu.roleLayout q).extractLsb' 4 2 = 0 ∧ (s.cpu.roleLayout q).extractLsb' 8 4 = 0)) ∧
  (∀ (a d : BitVec 5) (r : BitVec 3) (s : State), s.cpu.executes r = true → s.cpu.ready [a, d] = true →
     ((s.x a).toNat ≤ 255 →
       Completes (.drift a d r) s
         (WroteX (s.upd (fun c => { c with lead := (s.x a).toNat })) d (BitVec.ofNat 64 s.cpu.lead))) ∧
     (255 < (s.x a).toNat → exec (.drift a d r) s = .next (s.trap 1 (s.x a)))) ∧
  (∀ (a d : BitVec 5) (r : BitVec 3) (x : Context) (s : State),
     s.cpu.executes r = true → s.cpu.ready [a, d] = true → s.context s.cpu.ctx = some x →
     ((s.x a).toNat < 2 ^ 32 →
       let step := x.step + (s.x a).setWidth 32
       Completes (.stepadv a d r) s (fun t =>
         WroteX (s.updContext s.cpu.ctx (fun c => { c with step := c.step + (s.x a).setWidth 32 })) d (step.setWidth 64) t ∧
         t.stepOf s.cpu.ctx = step ∧ ∀ i, i ≠ s.cpu.ctx → t.stepOf i = s.stepOf i)) ∧
     (2 ^ 32 ≤ (s.x a).toNat → exec (.stepadv a d r) s = .next (s.trap 1 (s.x a)))) ∧
  (∀ (a d : BitVec 5) (r : BitVec 3) (s : State), s.cpu.executes r = true → s.cpu.ready [a, d] = true →
     let n := (s.x a).toNat
     let old := s.cpu.valloc
     let resized (lo hi : Nat) (t : State) : Prop :=
       (t.x d = if d = 0 then 0 else BitVec.ofNat 64 old) ∧ (∀ q, q ≠ d → t.x q = s.x q) ∧
       (∀ j : Fin 32, t.cpu.v[j] = if lo ≤ j.val ∧ j.val < hi then 0 else s.cpu.v[j]) ∧
       (∀ q, q ∈ t.cpu.poison ↔ q ∈ s.cpu.poison ∧ (∀ j, lo ≤ j → j < hi → q ≠ .v j) ∧ (d ≠ 0 → q ≠ s.cpu.xRes d.toNat)) ∧
       t = { s with cpu := { s.cpu.flowTo (s.cpu.pc + 4) with
         x := t.cpu.x
         hx := t.cpu.hx
         v := t.cpu.v
         poison := t.cpu.poison
         vRes := t.cpu.vRes
         valloc := n } }
     (n ∈ [8, 16, 24, 32] → s.cpu.pending = [] →
       (old ≤ n → Completes (.vgrow a d r) s (resized old n)) ∧ (n ≤ old → Completes (.vshrink a d r) s (resized n old))) ∧
     (n ∉ [8, 16, 24, 32] ∨ n < old → exec (.vgrow a d r) s = .next (s.trap 1 (s.x a))) ∧
     (n ∉ [8, 16, 24, 32] ∨ old < n → exec (.vshrink a d r) s = .next (s.trap 1 (s.x a)))) ∧
  (∀ (a b d : BitVec 5) (r : BitVec 3) (s : State), s.cpu.executes r = true → s.cpu.ready [a, b] = true →
     let v := s.x a
     (v.toNat < 2 ^ 32 → (decodeDesc (v.setWidth 32)).isSome = true → s.cpu.pending = [] →
       Completes (.fmset a d r) s (fun t =>
         t = { s with cpu := { s.cpu.flowTo (s.cpu.pc + 4) with
           fm := s.cpu.fm.set (mod16 d.toNat) (v.setWidth 32)
           poison := s.cpu.heal (.fm (d.toNat % 16)) } })) ∧
     (2 ^ 32 ≤ v.toNat ∨ decodeDesc (v.setWidth 32) = none → exec (.fmset a d r) s = .next (s.trap 1 v)) ∧
     (∀ h : v.toNat < 64, entryDecodes (s.x b) = true →
       Completes (.ftset b a r) s (fun t =>
         t = { s with cpu := { s.cpu.flowTo (s.cpu.pc + 4) with ft := s.cpu.ft.set v.toNat (s.x b) h } })) ∧
     (64 ≤ v.toNat → exec (.ftset b a r) s = .next (s.trap 1 v)) ∧
     (v.toNat < 64 → entryDecodes (s.x b) = false → exec (.ftset b a r) s = .next (s.trap 1 (s.x b))))

/-- loop starts a loop of n iterations on the lowest free counter, which it sets to 0, or passes over the body when n is 0; it
traps on a count of 2 ^ 32 or more, on a fifth loop, and inside a loop that ends earlier (R119). Where the cell's sequential
flow reaches the word after the end of the innermost loop, the loop closes an iteration: it goes back to its first word with its
counter one higher while iterations are left, and else ends, the next outer loop being tested; a word elsewhere in the body is
just the next one. A role marker's word goes on for the roles of its mask and reaches the end of its region for the others
(R109, R120). A word whose role field names another role than the cell's is passed over: its one effect is the step to the next
word (R25). Role markers, hand-overs and the base instructions carry no such field. -/
def Obligations.LoopsAndFlow : Prop :=
  (∀ (c : BitVec 5) (e : BitVec 10) (r : BitVec 3) (s : State), s.cpu.executes r = true → s.cpu.ready [c] = true →
     let n := (s.x c).toNat
     let last := s.cpu.pc + 4 * e.setWidth 64
     let nests : Prop := s.cpu.loops.length < 4 ∧ ∀ l ∈ s.cpu.loops, last.toNat ≤ l.stop.toNat
     (0 < n → n < 2 ^ 32 → nests →
       Completes (.loop c e r) s (fun t =>
         ∃ k, k < 4 ∧ (∀ l ∈ s.cpu.loops, l.ctr ≠ k) ∧ (∀ j, j < k → ∃ l ∈ s.cpu.loops, l.ctr = j) ∧
           t = { s with cpu := { s.cpu.wlc k 0 with
             loops := ⟨k, s.cpu.pc + 4, last, n⟩ :: s.cpu.loops
             pc := s.cpu.pc + 4 } })) ∧
     (n = 0 → Completes (.loop c e r) s (fun t => t = { s with cpu := s.cpu.flowTo (last + 4) })) ∧
     (2 ^ 32 ≤ n → exec (.loop c e r) s = .next (s.trap 1 (s.x c))) ∧
     (0 < n → n < 2 ^ 32 → ¬ nests → exec (.loop c e r) s = .next (s.trap 1 s.cpu.pc))) ∧
  (∀ (c : Cell) (l : Loop) (rest : List Loop), c.loops = l :: rest →
     (((c.rlc l.ctr).toNat + 1 < l.n → c.flowTo (l.stop + 4) = { c.wlc l.ctr (c.rlc l.ctr + 1) with pc := l.start }) ∧
     (l.n ≤ (c.rlc l.ctr).toNat + 1 →
       c.flowTo (l.stop + 4) = ({ c with loops := rest } : Cell).flowTo (l.stop + 4)) ∧
     ∀ t, l.holds t = true → t ≠ l.stop + 4 → c.flowTo t = { c with pc := t }) ∧
     ∀ (m : BitVec 7) (skip : BitVec 8) (s : State), s.cpu = c →
       (m.getLsbD c.role = true → Completes (.role m skip) s (Stepped s)) ∧
       (m.getLsbD c.role = false →
         Completes (.role m skip) s (fun t => t = { s with cpu := c.flowTo (c.pc + 4 + 4 * skip.setWidth 64) }))) ∧
  (∀ (i : Instr) (w : BitVec 32) (s : State), encode i = some w →
     w.extractLsb' 0 7 ∈ [0x0B#7, 0x2B#7, 0x5B#7, 0x7B#7] →
     (∀ m k, i ≠ .role m k) → (∀ a b c d, i ≠ .handoff a b c d) →
     s.cpu.executes (w.extractLsb' 7 3) = false → exec i s = .next { s with cpu := s.cpu.flowTo (s.cpu.pc + 4) })

/-- A precise trap on the word at the front end, in task mode with a handler: cause, value and the word's own address are saved,
the loops with their counters and the older commands are set aside, in order and none of them marked, the reservation is lost,
and the cell enters handler mode at thandler; no register of either bank, no vector, mask, tile or accumulator register, no
other cell and no memory changes (R122, R353, R354). A precise trap on a forwarded command marks its replay entry, and no other,
and saves the resume address (R354). A trap with no handler, or in handler mode, ends the firing: the cause and value are noted
for the graph engine, and every running cell of the firing stops (R346, R354, R364). -/
def Obligations.TrapsEnterTheHandler : Prop :=
  (∀ (cause : Nat) (tval : Word) (s : State), s.cpu.handler = false → s.cpu.thandler ≠ 0 →
     let t := s.trap cause tval
     t.cpu.tcause = BitVec.ofNat 64 cause ∧ t.cpu.tval = tval ∧ t.cpu.tepc = s.cpu.pc ∧
     t.cpu.handler = true ∧ t.cpu.pc = s.cpu.thandler ∧ t.cpu.loops = [] ∧ t.cpu.savedLoops = s.cpu.loops ∧
     t.cpu.savedLc = s.cpu.lc ∧ t.cpu.lc = s.cpu.lc ∧ t.cpu.asleep = false ∧ t.cpu.reservation = none ∧ t.cpu.pending = [] ∧
     t.cpu.replay.map Cmd.word = s.cpu.pending.map Cmd.word ∧ t.cpu.replay.map Cmd.op0 = s.cpu.pending.map Cmd.op0 ∧
     t.cpu.replay.map Cmd.progress = s.cpu.pending.map Cmd.progress ∧ (∀ d ∈ t.cpu.replay, d.trapped = false) ∧
     t.cpu.x = s.cpu.x ∧ t.cpu.hx = s.cpu.hx ∧ t.cpu.v = s.cpu.v ∧ t.cpu.k = s.cpu.k ∧ t.cpu.m = s.cpu.m ∧
     t.cpu.acc = s.cpu.acc ∧ t.cpu.thandler = s.cpu.thandler ∧ t.cells = s.cells ∧ t.now = s.now ∧ SameMemory s t) ∧
  (∀ (i cause : Nat) (tval : Word) (s : State), s.cpu.handler = false → s.cpu.thandler ≠ 0 → i < s.cpu.pending.length →
     let t := s.trapCmd i cause tval
     t.cpu.handler = true ∧ t.cpu.pc = s.cpu.thandler ∧ t.cpu.tepc = s.cpu.pc ∧ t.cpu.tcause = BitVec.ofNat 64 cause ∧
     t.cpu.tval = tval ∧ t.cpu.pending = [] ∧ t.cpu.replay.length = s.cpu.pending.length ∧
     ∀ j d, t.cpu.replay[j]? = some d → (d.trapped = true ↔ j = i)) ∧
  (∀ (cause : Nat) (tval : Word) (s : State), s.cpu.handler = true ∨ s.cpu.thandler = 0 →
     let t := s.trap cause tval
     t.cpu.running = false ∧ (∀ c ∈ t.cells, c.firing = s.cpu.firing → c.running = false) ∧
     t.cpu.tcause = BitVec.ofNat 64 cause ∧ t.cpu.tval = tval ∧ t.cpu.handler = s.cpu.handler ∧
     ∃ n, t.faults = s.faults ++ [n] ∧ n.firing = s.cpu.firing ∧ n.cell = s.cpu.id ∧ n.cause = cause ∧ n.tval = tval)

/-- ECALL and EBREAK take their trap: causes 0x10 and 0x11, with tval 0 and the word's own address; tepc is the address of the
word; the event of a precise trap takes every cause that the device raises, with the die that it has lost, and no other (R44,
R346, R354, R357). WFI completes at once, and takes the wake, when one is pending, and else sleeps; a wake event ends the sleep
of a cell, which goes on after its WFI, and stays pending for a cell that does not sleep; a cell that sleeps goes on sleeping
without one (R44, R372). Between the lines of these rules the model's own reading or choice stands (assumption log 3). -/
def Obligations.EnvironmentCallsAndWaits : Prop :=
  (∀ s : State, s.cpu.handler = false → s.cpu.thandler ≠ 0 →
     Completes .ecall s (fun t => t = s.trap 0x10 0 ∧ t.cpu.tcause = 0x10 ∧ t.cpu.tval = 0 ∧ t.cpu.tepc = s.cpu.pc ∧
       t.cpu.pc = s.cpu.thandler) ∧
     Completes .ebreak s (fun t => t = s.trap 0x11 s.cpu.pc ∧ t.cpu.tcause = 0x11 ∧ t.cpu.tval = s.cpu.pc ∧
       t.cpu.tepc = s.cpu.pc ∧ t.cpu.pc = s.cpu.thandler) ∧
     ∀ (cause : Nat) (v : Word),
       let raised : Prop := 1 ≤ cause ∧ cause ≤ 0x16 ∧ cause ≠ 0x0D ∧ cause ≠ 0x0F ∧ cause ≠ 0x13
       (raised → Completes (.preciseTrap cause v) s (fun t =>
         t = s.trap cause v (s.lostDie cause v) ∧ t.cpu.tcause = BitVec.ofNat 64 cause ∧
         t.cpu.tval = v ∧ t.cpu.tepc = s.cpu.pc ∧ t.cpu.pc = s.cpu.thandler ∧ t.cpu.handler = true)) ∧
       (¬ raised → exec (.preciseTrap cause v) s = .next s)) ∧
  (∀ s : State,
     (s.cpu.wake = true →
       Completes .wfi s (Stepped (s.upd (fun c => { c with wake := false, asleep := false })))) ∧
     (s.cpu.wake = false → Completes .wfi s (fun t => t = { s with cpu := { s.cpu with asleep := true } })) ∧
     (s.cpu.asleep = true → s.cpu.wake = true →
       Completes (.wfiWake s.cpu.id) s (Stepped (s.upd (fun c => { c with asleep := false, wake := false })))) ∧
     (s.cpu.asleep = false ∨ s.cpu.wake = false → Completes (.wfiWake s.cpu.id) s (fun t => t = s)) ∧
     (s.cpu.running = true → (s.wakeCtx s.cpu.ctx).cpu = { s.cpu with wake := true }))

/-- trapret in handler mode with no command left: the cell goes back to task mode at tepc with the loops and loop counters that
the trap set aside, and no register changes; in task mode it traps with cause 1 and value 0 (R122, R363). A trap taken with no
command under way and then a return from it at once: the task goes on at the trapping word with every register of both banks,
its vector and mask registers and its loops and loop counters as they were (R122, R353, R354, R363). In handler mode rqrd reads
and rqwr writes a task-bank register or an operand of a replay entry; each traps with its operand on a selector that names
nothing, and both trap with cause 1 and value 0 in task mode (R361). A poisoned task-bank register traps with 0x12 when it is
read and is sound again when it is written (R412; the trap value is free, assumption log 45). Between the lines of these rules
the model's own reading or choice stands (assumption logs 24 and 55). -/
def Obligations.HandlersReadAndReturn : Prop :=
  (∀ (r : BitVec 3) (s : State), s.cpu.executes r = true →
     (s.cpu.handler = true → s.cpu.pending = [] → s.cpu.replay = [] →
       Completes (.trapret r) s (fun t =>
         t.cpu.handler = false ∧ t.cpu.pc = s.cpu.tepc ∧ t.cpu.loops = s.cpu.savedLoops ∧ t.cpu.lc = s.cpu.savedLc ∧
         t = { s with cpu := { s.cpu with
           handler := false
           pc := s.cpu.tepc
           loops := s.cpu.savedLoops
           lc := s.cpu.savedLc
           l1 := t.cpu.l1
           savedLoops := []
           hold := t.cpu.hold
           savedHold := none } } ∧
         t.cpu.l1.map (fun x => (x.no, x.data, x.present, x.dirty)) = s.cpu.l1.map (fun x => (x.no, x.data, x.present, x.dirty)))) ∧
     (s.cpu.handler = false → exec (.trapret r) s = .next (s.trap 1 0))) ∧
  (∀ (cause : Nat) (v : Word) (s : State), s.cpu.handler = false → s.cpu.thandler ≠ 0 → s.cpu.pending = [] →
     Completes (.trapret 7) (s.trap cause v) (fun t =>
       t.cpu.handler = false ∧ t.cpu.pc = s.cpu.pc ∧ t.cpu.loops = s.cpu.loops ∧ t.cpu.lc = s.cpu.lc ∧ t.cpu.x = s.cpu.x ∧ t.cpu.hx = s.cpu.hx ∧
       t.cpu.v = s.cpu.v ∧ t.cpu.k = s.cpu.k ∧ t.cpu.hold = s.cpu.hold ∧ SameMemory s t)) ∧
  (∀ (a b d : BitVec 5) (r : BitVec 3) (s : State), s.cpu.executes r = true → s.cpu.ready [d, a, b] = true →
     let sel := s.x a
     let ix := (sel.extractLsb' 0 5).toNat
     let dword := (sel.extractLsb' 5 2).toNat
     (s.cpu.handler = false →
       exec (.rqrd a d r) s = .next (s.trap 1 0) ∧ exec (.rqwr b a r) s = .next (s.trap 1 0)) ∧
     (s.cpu.handler = true →
       (sel.toNat < 256 → sel.getLsbD 7 = true → dword = 0 →
         (s.cpu.poison.contains (.x ix) = false → Completes (.rqrd a d r) s (WroteX s d (s.cpu.task (sel.extractLsb' 0 5)))) ∧
         (s.cpu.poison.contains (.x ix) = true → exec (.rqrd a d r) s = .next (s.free.2.trap 0x12 s.free.1)) ∧
         Completes (.rqwr b a r) s (fun t =>
           (∀ q, t.cpu.task q = if q ≠ 0 ∧ q = sel.extractLsb' 0 5 then s.x b else s.cpu.task q) ∧
           t = { s with cpu := { s.cpu.flowTo (s.cpu.pc + 4) with
             x := t.cpu.x
             poison := if ix = 0 then s.cpu.poison else s.cpu.heal (.x ix) } })) ∧
       (∀ e, sel.toNat < 128 → s.cpu.replay[ix]? = some e →
         Completes (.rqrd a d r) s (WroteX s d (e.dword dword)) ∧
         (dword = 1 → Completes (.rqwr b a r) s (fun t =>
           t = { s with cpu := { s.cpu.flowTo (s.cpu.pc + 4) with replay := s.cpu.replay.set ix { e with op0 := s.x b } } })) ∧
         (dword = 2 → Completes (.rqwr b a r) s (fun t =>
           t = { s with cpu := { s.cpu.flowTo (s.cpu.pc + 4) with replay := s.cpu.replay.set ix { e with op1 := s.x b } } })) ∧
         (dword = 3 → Completes (.rqwr b a r) s (fun t =>
           t = { s with cpu := { s.cpu.flowTo (s.cpu.pc + 4) with replay := s.cpu.replay.set ix { e with op2 := s.x b } } }))) ∧
       (256 ≤ sel.toNat ∨ (sel.getLsbD 7 = false ∧ s.cpu.replay.length ≤ ix) →
         exec (.rqrd a d r) s = .next (s.trap 1 sel) ∧ exec (.rqwr b a r) s = .next (s.trap 1 sel))))

/-- rqdrop removes one entry of the replay queue: the later entries move down by one, the holds of its command are released, and
no register, no other cell and no byte changes; in task mode it traps with cause 1 and value 0, and on an index with no entry
with cause 1 and the index (R362). -/
def Obligations.RqdropRemovesOneEntry : Prop :=
  ∀ (a : BitVec 5) (r : BitVec 3) (s : State), s.cpu.executes r = true → s.cpu.ready [a] = true →
    let i := (s.x a).toNat
    (s.cpu.handler = false → exec (.rqdrop a r) s = .next (s.trap 1 0)) ∧
    (s.cpu.handler = true →
      (s.cpu.replay.length ≤ i → exec (.rqdrop a r) s = .next (s.trap 1 (s.x a))) ∧
      ∀ e, s.cpu.replay[i]? = some e → Completes (.rqdrop a r) s (fun t =>
        t.cpu = { s.cpu.flowTo (s.cpu.pc + 4) with replay := s.cpu.replay.eraseIdx i } ∧ t.cells = s.cells ∧ SameMemory s t ∧
        (e.hold = none → t = { s with cpu := t.cpu }) ∧
        ∀ h, e.hold = some h → (∀ o ∈ t.objects, ∀ p ∈ o.holds, p.1 ≠ h) ∧ ∀ q ∈ t.holdReqs, q.id ≠ h))

/-- Every lane-wise operation of two or three vector registers completes at once on an idle eager cell: each lane that the mask
lets through gets the result of its own lanes, the others keep theirs, and nothing else changes (R134 to R137, R143, R147).
Between the lines of these rules the model's own reading or choice stands (assumption log 4). -/
def Obligations.LaneOperationsWriteTheirLanes : Prop :=
  ∀ (m : BitVec 1) (b a d : BitVec 5) (r : BitVec 3) (s : State), VectorReady r [a, b, d] s →
    let x (i : Nat) := lane (s.cpu.rv a) i
    let y (i : Nat) := lane (s.cpu.rv b) i
    let z (i : Nat) := lane (s.cpu.rv d) i
    let gives (i : Instr) (f : Nat → Lane) : Prop := Completes i s (WroteV s d (s.cpu.masked m d f))
    gives (.vadd m b a d r) (fun i => x i + y i) ∧ gives (.vsub m b a d r) (fun i => x i - y i) ∧
    gives (.vmul m b a d r) (fun i => x i * y i) ∧
    gives (.vmulh m b a d r) (fun i => ((x i).signExtend 64 * (y i).signExtend 64).extractLsb' 32 32) ∧
    gives (.vand m b a d r) (fun i => x i &&& y i) ∧ gives (.vor m b a d r) (fun i => x i ||| y i) ∧
    gives (.vxor m b a d r) (fun i => x i ^^^ y i) ∧ gives (.vsll m b a d r) (fun i => x i <<< (y i).setWidth 5) ∧
    gives (.vsrl m b a d r) (fun i => x i >>> (y i).setWidth 5) ∧
    gives (.vsra m b a d r) (fun i => (x i).sshiftRight' ((y i).setWidth 5)) ∧
    gives (.vmin m b a d r) (fun i => if (x i).slt (y i) then x i else y i) ∧
    gives (.vmax m b a d r) (fun i => if (x i).slt (y i) then y i else x i) ∧
    gives (.vminu m b a d r) (fun i => if (x i).ult (y i) then x i else y i) ∧
    gives (.vmaxu m b a d r) (fun i => if (x i).ult (y i) then y i else x i) ∧
    gives (.vfadd m b a d r) (fun i => fadd (x i) (y i)) ∧ gives (.vfsub m b a d r) (fun i => fsub (x i) (y i)) ∧
    gives (.vfmul m b a d r) (fun i => fmul (x i) (y i)) ∧ gives (.vfma m b a d r) (fun i => ffma (x i) (y i) (z i)) ∧
    gives (.vfmin m b a d r) (fun i => fminOne (x i) (y i)) ∧ gives (.vfmax m b a d r) (fun i => fmaxOne (x i) (y i)) ∧
    gives (.vsmaxfin m b a d r) (fun i => fdiv (x i) (y 1)) ∧
    gives (.vperm m b a d r) (fun i => if (y i).toNat < 32 then x (y i).toNat else 0)

/-- Every lane-wise operation of one vector register, with a scalar register, an immediate or a format register where it has
one, completes at once on an idle eager cell under the same mask, and nothing else changes (R93, R94, R135, R137, R143, R144).
vcvtn rounds each lane that the mask lets through to a code of its format register's format, packed from bit 0 up; masked codes
keep their bits, and without a mask the bits above the 32 codes are 0 (R93). Between the lines of these rules the model's own
reading or choice stands (assumption logs 4 and 15). -/
def Obligations.UnaryLaneWords : Prop :=
  (∀ (m : BitVec 1) (i5 b a d : BitVec 5) (r : BitVec 3) (s : State), VectorReady r [a, d] s →
     let x (i : Nat) := lane (s.cpu.rv a) i
     let low (v : Word) : Lane := v.setWidth 32
     let offset : Int := (s.x b).toInt
     let mode := RMode.ofBits (s.cpu.vrm.extractLsb' 0 4)
     let gives (i : Instr) (f : Nat → Lane) : Prop := Completes i s (WroteV s d (s.cpu.masked m d f))
     gives (.vaddx m b a d r) (fun i => x i + low (s.x b)) ∧ gives (.vfaddx m b a d r) (fun i => fadd (x i) (low (s.x b))) ∧
     gives (.vfmulx m b a d r) (fun i => fmul (x i) (low (s.x b))) ∧
     gives (.viota m i5 a d r) (fun i => low (s.x a) + BitVec.ofNat 32 (i * i5.toNat)) ∧
     gives (.vmvxv m a d r) (fun _ => low (s.x a)) ∧
     gives (.vfexp2 m a d r) (fun i => fexp2 (x i)) ∧ gives (.vfrcp m a d r) (fun i => frcp (x i)) ∧
     gives (.vfrsqrt m a d r) (fun i => frsqrt (x i)) ∧ gives (.vflog2 m a d r) (fun i => flog2 (x i)) ∧
     gives (.vcvtif m i5 a d r) (fun i => fixedToFloat i5 mode (x i)) ∧
     gives (.vcvtfi m i5 a d r) (fun i => floatToFixed i5 mode (x i)) ∧
     (∀ f, decodeDesc s.cpu.fm[mod16 i5.toNat] = some f →
       gives (.vcvtw m i5 a d r) (fun i => widen f (codeAt (s.cpu.rv a) f.width i))) ∧
     gives (.vslide m b a d r)
       (fun i => if 0 ≤ (i : Int) + offset ∧ (i : Int) + offset < 32 then x ((i : Int) + offset).toNat else 0)) ∧
  (∀ (m : BitVec 1) (f a d : BitVec 5) (r : BitVec 3) (fmt : Fmt) (s : State), VectorReady r [a, d] s →
     decodeDesc s.cpu.fm[mod16 f.toNat] = some fmt →
     Completes (.vcvtn m f a d r) s (fun t =>
       (∀ i, i < 32 → codeAt (t.cpu.rv d) fmt.width i =
         if m = 0 ∨ (s.cpu.rk 0).getLsbD i = true
           then roundCode fmt (RMode.ofBits (s.cpu.vrm.extractLsb' 0 4)) (lane (s.cpu.rv a) i) % 2 ^ fmt.width
           else codeAt (s.cpu.rv d) fmt.width i) ∧
       (m = 0 → (t.cpu.rv d).toNat < 2 ^ (32 * fmt.width)) ∧
       WroteV s d (lane (t.cpu.rv d)) t))

/-- Comparisons, mask operations and vseghead write one mask register bit by bit, under the mask where they have one, and change
nothing else (R134, R138, R139, R149). kpop counts the bits of a mask register, kpop.first gives the lowest set one or 32, and
vmvvx one lane, sign-extended, in rd (R139, R144). Between the lines of these rules the model's own reading or choice stands
(assumption log 4). -/
def Obligations.MaskAndScalarWords : Prop :=
  (∀ (m : BitVec 1) (b a d : BitVec 5) (k : BitVec 3) (r : BitVec 3) (s : State), VectorReady r [a, b] s →
     let x (i : Nat) := lane (s.cpu.rv a) i
     let y (i : Nat) := lane (s.cpu.rv b) i
     let p (i : Nat) := (s.cpu.rk a.toNat).getLsbD i
     let q (i : Nat) := (s.cpu.rk k.toNat).getLsbD i
     let gives (i : Instr) (f : Nat → Bool) : Prop := Completes i s (WroteK s d f)
     let compares (i : Instr) (f : Lane → Lane → Bool) : Prop :=
       gives i (fun i => if m = 0 ∨ (s.cpu.rk 0).getLsbD i = true then f (x i) (y i) else (s.cpu.rk d.toNat).getLsbD i)
     compares (.vcmpeq m b a d r) (fun u v => u == v) ∧ compares (.vcmplt m b a d r) (fun u v => u.slt v) ∧
     compares (.vcmpltu m b a d r) (fun u v => u.ult v) ∧ compares (.vfcmpeq m b a d r) feq ∧
     compares (.vfcmplt m b a d r) flt ∧
     gives (.kopAnd k a d r) (fun i => p i && q i) ∧ gives (.kopOr k a d r) (fun i => p i || q i) ∧
     gives (.kopXor k a d r) (fun i => p i != q i) ∧ gives (.kopAndn k a d r) (fun i => p i && !q i) ∧
     gives (.vseghead a d r) (fun i => i == 0 || x i != x (i - 1))) ∧
  (∀ (i5 a d : BitVec 5) (r : BitVec 3) (s : State), VectorReady r [a] s →
     let k := s.cpu.rk a.toNat
     Completes (.kpop a d r) s (VectorWroteX s d (BitVec.ofNat 64 ((List.range 32).filter (fun i => k.getLsbD i)).length)) ∧
     (∀ n, n < 32 → k.getLsbD n = true → (∀ j, j < n → k.getLsbD j = false) →
       Completes (.kpopFirst a d r) s (VectorWroteX s d (BitVec.ofNat 64 n))) ∧
     (k = 0 → Completes (.kpopFirst a d r) s (VectorWroteX s d 32)) ∧
     Completes (.vmvvx i5 a d r) s (VectorWroteX s d ((lane (s.cpu.rv a) i5.toNat).signExtend 64)))

/-- A reduction writes to lane 0 the result of the fixed pairwise tree over the 32 lanes, a masked lane counting as the unit of
the operation, and 0 to every other lane (R134, R141, R142). Between the lines of these rules the model's own reading or choice
stands (assumption log 4). -/
def Obligations.ReductionsUseTheFixedTree : Prop :=
  ∀ (m : BitVec 1) (a d : BitVec 5) (r : BitVec 3) (s : State), VectorReady r [a, d] s →
    let reduces (i : Instr) (unit : Lane) (f : Lane → Lane → Lane) : Prop :=
      let x (i : Nat) : Lane := if m = 0 ∨ (s.cpu.rk 0).getLsbD i = true then lane (s.cpu.rv a) i else unit
      let two (g : Nat → Lane) (i : Nat) : Lane := f (g (2 * i)) (g (2 * i + 1))
      Completes i s (WroteV s d (fun i => if i = 0 then two (two (two (two (two x)))) 0 else 0))
    reduces (.vredsum m a d r) 0x80000000 fadd ∧ reduces (.vredsumI32 m a d r) 0 (fun x y => x + y) ∧
    reduces (.vredmax m a d r) 0xFF800000 fmaxNaN ∧ reduces (.vredmin m a d r) 0x7F800000 fminNaN ∧
    reduces (.vredmaxI32 m a d r) 0x80000000 (fun x y => if x.slt y then y else x) ∧
    reduces (.vredminI32 m a d r) 0x7FFFFFFF (fun x y => if y.slt x then y else x)

/-- vsel chooses lane by lane under k0: lane i of vd is lane i of vs1 where bit i of k0 is 1 and lane i of vs2 where it is 0,
whatever mask the word could name; nothing else changes (R140). Between the lines of these rules the model's own reading or
choice stands (assumption log 4). -/
def Obligations.VselChoosesUnderK0 : Prop :=
  ∀ (b a d : BitVec 5) (r : BitVec 3) (s : State), VectorReady r [a, b, d] s →
    Completes (.vsel b a d r) s
      (WroteV s d (fun i => if (s.cpu.rk 0).getLsbD i = true then lane (s.cpu.rv a) i else lane (s.cpu.rv b) i))

/-- vcompress moves the lanes that k0 selects to the low lanes, in order, and clears the rest (R143). vsortkv writes its keys in
ascending signed order to vd and its values, permuted with them, to vs2, equal keys in their old order; where vd is vs2 it ends
with the keys; no other register changes (R148). vsppack keeps the n largest of the 24 lanes by magnitude, a NaN counting as
largest and a tie going to the lower lane, in lane order from lane 0 up, then zeros up to lane 23; lanes 24 to 26 hold the
positions of the kept lanes as a string of 5-bit fields, and the last five lanes are 0; no other register changes (R150).
Between the lines of these rules the model's own reading or choice stands (assumption log 4). -/
def Obligations.LanesCompressSortAndPack : Prop :=
  (∀ (a d : BitVec 5) (r : BitVec 3) (s : State), VectorReady r [a, d] s →
     let on (i : Nat) : Bool := (s.cpu.rk 0).getLsbD i
     Completes (.vcompress a d r) s (fun t =>
       WroteV s d (lane (t.cpu.rv d)) t ∧
       (∀ i, i < 32 → on i = true →
         lane (t.cpu.rv d) ((List.range i).filter on).length = lane (s.cpu.rv a) i) ∧
       ∀ j, j < 32 → ((List.range 32).filter on).length ≤ j → lane (t.cpu.rv d) j = 0)) ∧
  (∀ (b a d : BitVec 5) (r : BitVec 3) (s : State), VectorReady r [a, b, d] s →
     let key (i : Nat) : Int := (lane (s.cpu.rv a) i).toInt
     Completes (.vsortkv b a d r) s (fun t => ∃ p : List Nat,
       p.Perm (List.range 32) ∧ p.Pairwise (fun i j => key i < key j ∨ (key i = key j ∧ i < j)) ∧
       (∀ j, j < 32 → lane (t.cpu.rv d) j = lane (s.cpu.rv a) (p.getD j 0)) ∧
       (b ≠ d → ∀ j, j < 32 → lane (t.cpu.rv b) j = lane (s.cpu.rv b) (p.getD j 0)) ∧
       (∀ q, q ≠ d → q ≠ b → t.cpu.rv q = s.cpu.rv q) ∧ SameMemory s t ∧
       t = { s with cpu := { s.cpu.flowTo (s.cpu.pc + 4) with v := t.cpu.v, vseq := s.cpu.vseq + 1 } })) ∧
  (∀ (n a d : BitVec 5) (r : BitVec 3) (s : State), VectorReady r [a, d] s → n.toNat ≤ 16 →
     let rank (i : Nat) : Nat := packRank (lane (s.cpu.rv a) i)
     Completes (.vsppack n a d r) s (fun t => ∃ kept : List Nat,
       kept.length = n.toNat ∧ kept.Pairwise (fun i j => i < j) ∧ (∀ i ∈ kept, i < 24) ∧
       (∀ i ∈ kept, ∀ j, j < 24 → j ∉ kept → rank j < rank i ∨ (rank j = rank i ∧ i < j)) ∧
       (∀ j, j < 24 → lane (t.cpu.rv d) j = if j < n.toNat then lane (s.cpu.rv a) (kept.getD j 0) else 0) ∧
       ((t.cpu.rv d).extractLsb' 768 96).toNat = kept.foldr (fun p m => p + 32 * m) 0 ∧
       (∀ j, 27 ≤ j → j < 32 → lane (t.cpu.rv d) j = 0) ∧ WroteV s d (lane (t.cpu.rv d)) t))

/-- vsmaxacc: a lane is live where its position lies in the window and the mask lets it through; the largest live finite score
moves the reference exponent to its ceiling, kept within 2^30 either way, where no score had been seen or it exceeds the
reference by more than 8, in which case l is scaled and e tells by how much; a live lane's probability is two to the power of
its score less the reference, a NaN for a NaN, and every other lane's is 0; l then takes the exact sum of l and all
probabilities, rounded once. The probabilities go to vs1 and r, l and e to lanes 0, 1 and 5 of vd, whose other lanes stay (where
vd is vs1 it ends with the probabilities there, assumption log 18); no other register changes (R145, R146). Between the lines of
these rules the model's own reading or choice stands (assumption logs 4, 15 and 18). -/
def Obligations.SoftmaxStepUpdatesItsState : Prop :=
  ∀ (m : BitVec 1) (b a d : BitVec 5) (r : BitVec 3) (s : State), VectorReady r [a, b, d] s →
    let st (i : Nat) := lane (s.cpu.rv d) i
    let score (i : Nat) := lane (s.cpu.rv a) i
    let live (i : Nat) : Prop :=
      i < 32 ∧ (m = 0 ∨ (s.cpu.rk 0).getLsbD i = true) ∧
      (st 2).toInt ≤ (st 4).toInt + (lane (s.cpu.rv b) i).toInt ∧ (st 4).toInt + (lane (s.cpu.rv b) i).toInt < (st 3).toInt
    let finite (i : Nat) : Prop := ∃ neg n e, val32 (score i) = .fin neg n e
    let ref : Int := (st 0).toInt
    Completes (.vsmaxacc m b a d r) s (fun t => ∃ (r e : Int) (sum : Lane) (p : VReg),
      ((∀ i, live i → ¬ finite i) → r = ref ∧ e = 0 ∧ sum = st 1) ∧
      (∀ i neg n f, live i → val32 (score i) = .fin neg n f → (∀ j, live j → finite j → flt (score i) (score j) = false) →
        let c : Int := max (-2 ^ 30) (min (ceilVal neg n f) (2 ^ 30))
        (ref = -2 ^ 31 → r = c ∧ e = 0 ∧ sum = st 1) ∧
        (ref ≠ -2 ^ 31 → exceeds neg n f (ref + 8) = true → r = c ∧ e = ref - c ∧ sum = scaleVal (st 1) (ref - c)) ∧
        (ref ≠ -2 ^ 31 → exceeds neg n f (ref + 8) = false → r = ref ∧ e = 0 ∧ sum = st 1)) ∧
      (∀ i, i < 32 → (live i → lane p i = softProb (score i) r) ∧ (¬ live i → lane p i = 0)) ∧
      (a ≠ d → t.cpu.rv a = p) ∧
      (∀ i, i < 32 → lane (t.cpu.rv d) i =
        if i = 0 then BitVec.ofInt 32 r
        else if i = 1 then rn32 (sumVals (val32 sum :: (List.range 32).map (fun j => val32 (lane p j))))
        else if i = 5 then BitVec.ofInt 32 e else if a = d then lane p i else st i) ∧
      (∀ q, q ≠ d → q ≠ a → t.cpu.rv q = s.cpu.rv q) ∧ SameMemory s t ∧
      t = { s with cpu := { s.cpu.flowTo (s.cpu.pc + 4) with v := t.cpu.v, vseq := s.cpu.vseq + 1 } })

/-- A word of format V, S or M that names a vector register outside the cell's allotment, read or written, takes a precise trap
with cause 2 and the number of the lowest such register among its vector fields, and has no effect; accrd and accwr name the run
of registers from their field up, past v31 too (R130, R188). -/
def Obligations.UnallottedRegistersTrap : Prop :=
  ∀ (m : BitVec 1) (c : BitVec 2) (o : BitVec 4) (b a d : BitVec 5) (r : BitVec 3) (s : State), s.cpu.executes r = true →
    let traps (vs : List Nat) (is : List Instr) : Prop :=
      ∀ n ∈ vs, s.cpu.valloc ≤ n → (∀ k ∈ vs, s.cpu.valloc ≤ k → n ≤ k) →
        ∀ i ∈ is, exec i s = .next (s.trap 2 (BitVec.ofNat 64 n))
    let rows : Nat := if c = 0 then 1 else if c = 1 then 4 else 8
    traps [a.toNat, b.toNat, d.toNat] [.vadd m b a d r, .vsub m b a d r, .vmul m b a d r, .vmulh m b a d r, .vand m b a d r,
      .vor m b a d r, .vxor m b a d r, .vsll m b a d r, .vsrl m b a d r, .vsra m b a d r, .vmin m b a d r, .vmax m b a d r,
      .vminu m b a d r, .vmaxu m b a d r, .vfadd m b a d r, .vfsub m b a d r, .vfmul m b a d r, .vfma m b a d r, .vfmin m b a d r,
      .vfmax m b a d r, .vsel b a d r, .vperm m b a d r, .vsmaxacc m b a d r, .vsmaxfin m b a d r, .vsortkv b a d r] ∧
    traps [a.toNat, d.toNat] [.vaddx m b a d r, .vfaddx m b a d r, .vfmulx m b a d r, .vfexp2 m a d r, .vfrcp m a d r, .vfrsqrt m a d r,
      .vflog2 m a d r, .vcvtn m b a d r, .vcvtw m b a d r, .vcvtif m b a d r, .vcvtfi m b a d r, .vredsum m a d r, .vredsumI32 m a d r,
      .vredmax m a d r, .vredmaxI32 m a d r, .vredmin m a d r, .vredminI32 m a d r, .vslide m b a d r, .vcompress a d r,
      .vsppack b a d r] ∧
    traps [a.toNat, b.toNat] [.vcmpeq m b a d r, .vcmplt m b a d r, .vcmpltu m b a d r, .vfcmpeq m b a d r, .vfcmplt m b a d r] ∧
    traps [a.toNat] [.vmvvx b a d r, .vseghead a d r, .accscl a o r, .redaF32add a b r, .redaBf16add a b r, .redaI32add a b r,
      .redaF32max a b r, .redaF32min a b r, .redaI32max a b r, .redaI32min a b r] ∧
    traps [d.toNat] [.viota m b a d r, .vmvxv m a d r, .vlds b a d r, .vsts b a d r, .vldm b a d r, .vstm b a d r, .nbrd b a d r] ∧
    traps [d.toNat, b.toNat] [.vldx b a d r, .vstx b a d r] ∧
    traps ((List.range rows).map (fun q => d.toNat + q))
      [.accrd c a d o r, .accrdCol c a d o r, .accwr c a d o r, .accwrCol c a d o r]

/-- vlds reads 32 lanes from the scratchpad of the cell's cluster and vsts writes them, at its offset plus the lane number times
its stride, in increasing lane order; each byte outside the lanes stays, and main memory stays (R156, R160). A vlds or vsts
whose offset or stride is no multiple of 4 below 2 ^ 22 traps on its command with cause 3 and that value, and one whose lanes
leave the node's window with cause 5 and the first offset outside; nothing is written (R153, R160). Between the lines of these
rules the model's own reading or choice stands (assumption logs 4 and 19). -/
def Obligations.ScratchpadLanes : Prop :=
  (∀ (b a d : BitVec 5) (r : BitVec 3) (s : State), VectorReady r [d] s → s.MemOk →
     let stride := if b = 0 then 4 else s.x b
     let off (i : Nat) : Nat := (s.x a).toNat + i * stride.toNat
     let key (i : Nat) : Nat := s.cpu.cluster * 2 ^ 22 + off i % 2 ^ 22
     laneCheck s.cpu (s.x a) stride = none →
     (s.spBlocked (laneRuns (s.x a) stride) = false → s.spPoisoned (laneRuns (s.x a) stride) = none →
       Completes (.vlds b a d r) s (WroteV s d (fun i => BitVec.ofNat 32 (readLE s.sp (key i) 4)))) ∧
     Completes (.vsts b a d r) s (fun t =>
       (∀ i, i < 32 → (∀ j, i < j → j < 32 → key j ≠ key i) → readLE t.sp (key i) 4 = (lane (s.cpu.rv d) i).toNat) ∧
       (∀ k, (∀ i, i < 32 → k < key i ∨ key i + 4 ≤ k) → readByte t.sp k = readByte s.sp k) ∧
       t = { s with
         cpu := { s.cpu.flowTo (s.cpu.pc + 4) with vseq := s.cpu.vseq + 1 }
         sp := t.sp
         spPoison := t.spPoison })) ∧
  (∀ (b d : BitVec 5) (w : Cmd) (s : State),
     let stride := if b = 0 then 4 else w.op1
     let bad (v : Word) : Prop := 2 ^ 22 ≤ v.toNat ∨ v.toNat % 4 ≠ 0
     let traps (cause : Nat) (v : Word) : Prop := unitVlds b d w s = .trap w cause v none s ∧ unitVsts b d w s = .trap w cause v none s
     (bad w.op0 → traps 3 w.op0) ∧ (¬ bad w.op0 → bad stride → traps 3 stride) ∧
     (∀ i, i < 32 → ¬ bad w.op0 → ¬ bad stride →
       (∀ j, j < i → s.cpu.outside ((w.op0.toNat + j * stride.toNat) % 2 ^ 22) 4 = none) →
       ∀ o, s.cpu.outside ((w.op0.toNat + i * stride.toNat) % 2 ^ 22) 4 = some o → traps 5 (BitVec.ofNat 64 o)))

/-- tld copies the 32 rows of a scratchpad view to a tile register and tst a tile register to the view, row 0 first: each row
lies where the view puts it for the loop value in force; no other byte and no other register changes (R86, R155, R161). Between
the lines of these rules the model's own reading or choice stands (assumption logs 4 and 19). -/
def Obligations.TilesMoveThroughViews : Prop :=
  ∀ (a d : BitVec 5) (r : BitVec 3) (p : Pair) (s : State), VectorReady r [] s → s.MemOk → viewOf s.cpu a = .ok p →
    let key (i : Nat) : Nat := s.cpu.cluster * 2 ^ 22 + p.spRow s.cpu.loopValue i
    let rows := p.rows s.cpu.loopValue
    (s.spBlocked rows = false → s.spPoisoned rows = none →
      Completes (.tld a d r) s (fun t =>
        (∀ i, i < 32 → tileRow (t.cpu.rm d.toNat) i = BitVec.ofNat 1024 (readLE s.sp (key i) 128)) ∧
        (∀ n, n < 8 → n ≠ d.toNat % 8 → t.cpu.rm n = s.cpu.rm n) ∧
        t = { s with cpu := { s.cpu.flowTo (s.cpu.pc + 4) with m := t.cpu.m } })) ∧
    Completes (.tst a d r) s (fun t =>
      (∀ i, i < 32 → (∀ j, i < j → j < 32 → key j ≠ key i) → readLE t.sp (key i) 128 = (tileRow (s.cpu.rm d.toNat) i).toNat) ∧
      (∀ k, (∀ i, i < 32 → k < key i ∨ key i + 128 ≤ k) → readByte t.sp k = readByte s.sp k) ∧
      t = { s with cpu := s.cpu.flowTo (s.cpu.pc + 4), sp := t.sp, spPoison := t.spPoison })

/-- spfe.empty marks a run of scratchpad lines empty and spfe.full marks it full, and no other line, and a count of 0 does
nothing; an offset that is no line's traps with cause 3, and a run that leaves the window with cause 5 and the first offset
outside (R153, R159). A vlds that waits for an empty line stays as it is, and reads its lanes once its lines are full; in
general the engine of the named queue goes on, for the matrix queue with the epilogue (R156). The end of a window clears its
bytes and its poison and leaves its lines full and nothing else changed (R153). -/
def Obligations.LinesAreMarkedAndCleared : Prop :=
  ∀ (b a : BitVec 5) (r : BitVec 3) (s : State),
    (s.cpu.executes r = true → s.cpu.ready [a, b] = true →
      let o := (s.x a).toNat
      let n := min (s.x b).toNat 32768
      let line : Prop := o < 2 ^ 22 ∧ o % 128 = 0
      let inRun (l : Nat) : Prop := ∃ i, i < n ∧ l = spLineNo s.cpu.cluster (o + 128 * i)
      (line → n = 0 → Completes (.spfeEmpty b a r) s (Stepped s) ∧ Completes (.spfeFull b a r) s (Stepped s)) ∧
      (line → 0 < n → s.cpu.outside o (128 * n) = none → s.cpu.rangesBusy [rangeOf true [(o, 128 * n)]] = false →
        Completes (.spfeEmpty b a r) s (fun t => (∀ l, l ∈ t.spEmpty ↔ l ∈ s.spEmpty ∨ inRun l) ∧
          t = { s with cpu := s.cpu.flowTo (s.cpu.pc + 4), spEmpty := t.spEmpty }) ∧
        Completes (.spfeFull b a r) s (fun t => (∀ l, l ∈ t.spEmpty ↔ l ∈ s.spEmpty ∧ ¬ inRun l) ∧
          t = { s with cpu := s.cpu.flowTo (s.cpu.pc + 4), spEmpty := t.spEmpty })) ∧
      (∀ i ∈ [Instr.spfeEmpty b a r, .spfeFull b a r],
        (¬ line → exec i s = .next (s.trap 3 (s.x a))) ∧
        ∀ k, line → 0 < n → s.cpu.outside o (128 * n) = some k → exec i s = .next (s.trap 5 (BitVec.ofNat 64 k)))) ∧
    (∀ q, (∀ qu, queueOf (q : BitVec 3).toNat = some qu → qu ≠ .matrix →
        Completes (.emptyLineReadServe q) s (fun t => t = s.engineTurn qu)) ∧
      (queueOf q.toNat = some .matrix → Completes (.emptyLineReadServe q) s (fun t => t = (s.engineTurn .matrix).epilogueTurn)) ∧
      (queueOf q.toNat = none → Completes (.emptyLineReadServe q) s (fun t => t = s))) ∧
    (∀ (w : Cmd) (d : BitVec 5), s.cpu.pending = [w] → s.cpu.poison = [] → w.instr = .vlds b a d r → w.queue = .load → w.progress = 0 →
      let off (i : Nat) : Nat := w.op0.toNat + i * (if b = 0 then 4 else w.op1).toNat
      let lanes := (List.range 32).map (fun i => (off i, 4))
      laneCheck s.cpu w.op0 (if b = 0 then 4 else w.op1) = none →
      ((∃ i, i < 32 ∧ spLineNo s.cpu.cluster (off i) ∈ s.spEmpty) →
        Completes (.emptyLineReadServe 1) s (fun t => t = s)) ∧
      ((∀ i, i < 32 → spLineNo s.cpu.cluster (off i) ∉ s.spEmpty) → s.spPoisoned lanes = none →
        Completes (.emptyLineReadServe 1) s (fun t =>
          (∀ i, i < 32 → lane (t.cpu.rv d) i = BitVec.ofNat 32 (readLE s.sp (spKey s.cpu.cluster (off i)) 4)) ∧
          (∀ q, q ≠ d → t.cpu.rv q = s.cpu.rv q) ∧ t = { s with cpu := { s.cpu with v := t.cpu.v, pending := [] } }))) ∧
    ∀ cluster base, let z? := s.zeroing.find? (fun z => z.cluster == cluster && z.base == base)
      (∀ z, z? = some z → s.MemOk → Completes (.windowZeroing cluster base) s (fun t =>
        (∀ k, readByte t.sp k = if inWindow z k then 0 else readByte s.sp k) ∧
        (∀ l, l ∈ t.spEmpty ↔ l ∈ s.spEmpty ∧ inWindow z (128 * l) = false) ∧
        (∀ w, w ∈ t.spPoison ↔ w ∈ s.spPoison ∧ inWindow z (8 * w) = false) ∧
        t = { s with sp := t.sp, spEmpty := t.spEmpty, spPoison := t.spPoison, zeroing := s.zeroing.erase z })) ∧
      (z? = none → Completes (.windowZeroing cluster base) s (fun t => t = s))

/-- sprot advances the member's phase count once and, while the rest of its team is not there, stands in the vector store queue
with no line moved; when the four cells of the team have reached the same count, one unit moves a row of each to the next cell's
quarter, all four from what stood there before, and every byte outside the four rows stays (R117, R162, R163). Between the lines
of these rules the model's own reading or choice stands (assumption logs 19 and 20). -/
def Obligations.RotationMovesRowsTogether : Prop :=
  (∀ (a : BitVec 5) (r : BitVec 3) (p : Pair) (s : State), VectorReady r [] s → rotCheck s.cpu a = .ok p → s.cells = [] →
    Completes (.sprot a r) s (fun t =>
      t.cpu.phaseCount = s.cpu.phaseCount + 1 ∧ t.sp = s.sp ∧ t.mem = s.mem ∧ t.cpu.pc = (s.cpu.flowTo (s.cpu.pc + 4)).pc ∧
      ∃ c, t.cpu.pending = [c] ∧ c.queue = .store ∧ c.op0 = p.compact ∧ c.progress = 0)) ∧
  ∀ (w : Cmd) (cmds : List (Cell × Nat × Cmd)) (s : State), w.aux = 1 → w.progress < 32 → s.MemOk → rotReady s = some cmds →
    let src (q : Cell × Nat × Cmd) : Nat := rotSource (Pair.ofCompact q.2.2.op0) q.2.2.lv q.1.pos w.progress
    let dst (q : Cell × Nat × Cmd) : Nat := rotDest (Pair.ofCompact q.2.2.op0) q.2.2.lv q.1.pos w.progress
    (∀ q ∈ cmds, q.2.2.progress = w.progress) → s.spBlocked (cmds.map (fun q => (src q, 128))) = false →
    s.spPoisoned (cmds.map (fun q => (src q, 128))) = none →
    (∀ q ∈ cmds, dst q % 128 = 0) → cmds.Pairwise (fun p q => dst p ≠ dst q) →
    ∃ t, (unitSprot w s = .done t ∨ ∃ v, unitSprot w s = .more v t ∧ v.progress = w.progress + 1) ∧
      (∀ q ∈ cmds, readLE t.sp (spKey s.cpu.cluster (dst q)) 128 = readLE s.sp (spKey s.cpu.cluster (src q)) 128) ∧
      (∀ k, (∀ q ∈ cmds, k < spKey s.cpu.cluster (dst q) ∨ spKey s.cpu.cluster (dst q) + 128 ≤ k) → readByte t.sp k = readByte s.sp k) ∧
      t.mem = s.mem

/-- ringinit binds a handle to the unit of its firing with the key, or to the lowest free unit of the cluster, whose counts are
0 and slots free; with a geometry of 0 it unbinds. A bad geometry, and a word on a handle that binds nothing, trap with cause
0x0A (R164, R167). With nobody before it, ringclaim claims the next free slot, ringtake takes the next filled one, ringcommit
fills a claimed slot and ringfree releases a taken one; rd gets the slot's ref, and each count moves past the slots that are
then in its state; waitfill and waitfree give the count of filled or free slots once it reaches their operand (R165 to R168). A
hand-over passes over a cell of neither role. Its sole sender claims the slots, releases and has arrived; the commit takes the
slots once all senders have arrived; the receiver then acquires and goes on, and waits while nothing is committed. A role with
no cell bound traps with cause 0x0B (R111 to R114). Between the lines of these rules the model's own reading or choice stands
(assumption logs 3 and 49). -/
def Obligations.RingsAndHandovers : Prop :=
  (∀ (b a q d : BitVec 5) (r : BitVec 3) (s : State), s.cpu.executes r = true → s.cpu.ready [a, b, d] = true →
     let g := s.x a
     let key := (s.x b).toNat
     let known := s.rings.find? (fun u => u.cluster == s.cpu.cluster && u.firing == s.cpu.firing && u.key == key)
     let bound (n : Option Nat) (t : State) : Prop :=
       t.cpu = { s.cpu.flowTo (s.cpu.pc + 4) with q := s.cpu.q.set (mod16 q.toNat) n } ∧ SameMemory s t
     (g = 0 → Completes (.ringinit b a q r) s (fun t => bound none t ∧ t.rings = s.rings)) ∧
     (g ≠ 0 → key < 65536 → geomOk g = true → s.cpu.outside (geomBase g) (128 * geomSize g * geomSlots g) = none →
       (∀ u, known = some u → u.geom = g →
         Completes (.ringinit b a q r) s (fun t => bound (some u.unit) t ∧ t.rings = s.rings)) ∧
       (∀ n, known = none → n < 64 → (∀ u ∈ s.rings, u.cluster = s.cpu.cluster → u.unit ≠ n) →
         (∀ k, k < n → ∃ u ∈ s.rings, u.cluster = s.cpu.cluster ∧ u.unit = k) →
         Completes (.ringinit b a q r) s (fun t => bound (some n) t ∧
           t.rings = s.rings ++ [Ring.fresh s.cpu.cluster n s.cpu.firing key g]))) ∧
     (g ≠ 0 → geomOk g = false → exec (.ringinit b a q r) s = .next (s.trap 0x0A g)) ∧
     (s.ringOf q.toNat = none →
       ∀ i ∈ [Instr.ringclaim q d r, .ringcommit b q r, .ringtake q d r, .ringfree b q r, .waitfill b q d r, .waitfree b q d r],
         exec i s = .next (s.trap 0x0A (BitVec.ofNat 64 q.toNat)))) ∧
  (∀ (b q d : BitVec 5) (r : BitVec 3) (u : Ring) (s : State),
     s.cpu.executes r = true → s.cpu.pending = [] → s.ringOf q.toNat = some u → u.waiters = [] → u.handovers = [] →
     let i := ((s.x b).extractLsb' 0 12).toNat
     let ref (p : Nat) : Word := BitVec.ofNat 64 (geomBase u.geom + 128 * geomSize u.geom * p + p * 2 ^ 32)
     let kept (t : State) : Prop := t.sp = s.sp ∧ t.cpu.v = s.cpu.v ∧ t.cpu.q = s.cpu.q ∧
       t.cpu.pc = (s.cpu.flowTo (s.cpu.pc + 4)).pc
     let gets (v : Word) (t : State) : Prop := (t.x d = if d = 0 then 0 else v) ∧ ∀ x, x ≠ d → t.x x = s.x x
     (u.room ≠ 0 → Completes (.ringclaim q d r) s (fun t => kept t ∧ gets (ref u.pClaimed) t ∧ t.mem = s.mem ∧
       t.ringOf q.toNat = some { u with
         claimed := u.claimed + 1
         pClaimed := (u.pClaimed + 1) % u.nslots
         slots := u.slots.set u.pClaimed .claimed })) ∧
     (i < u.nslots → u.slot i = .claimed → s.releaseWaits 1 = false → Completes (.ringcommit b q r) s (fun t => kept t ∧
       (∀ x, t.x x = s.x x) ∧ t.mem = (s.release 1).mem ∧
       t.ringOf q.toNat = some (Ring.passHead u.nslots { u with slots := u.slots.set i .filled }))) ∧
     (u.filled ≠ 0 → u.slot u.pTaken = .filled → Completes (.ringtake q d r) s (fun t => kept t ∧ gets (ref u.pTaken) t ∧
       t.mem = s.mem ∧ t.cpu.l1 = (s.acquire 1).cpu.l1 ∧
       t.ringOf q.toNat = some { u with
         taken := u.taken + 1
         pTaken := (u.pTaken + 1) % u.nslots
         slots := u.slots.set u.pTaken .taken })) ∧
     (i < u.nslots → u.slot i = .taken → Completes (.ringfree b q r) s (fun t => kept t ∧ (∀ x, t.x x = s.x x) ∧ t.mem = s.mem ∧
       t.ringOf q.toNat = some (Ring.passTail u.nslots { u with slots := u.slots.set i .released }))) ∧
     ((s.x b).toNat ≤ u.nslots →
       ((s.x b).toNat ≤ u.filled →
         Completes (.waitfill b q d r) s (fun t => kept t ∧ gets (BitVec.ofNat 64 u.filled) t ∧ t.mem = s.mem)) ∧
       ((s.x b).toNat ≤ u.room →
         Completes (.waitfree b q d r) s (fun t => kept t ∧ gets (BitVec.ofNat 64 u.room) t ∧ t.mem = s.mem)))) ∧
  (∀ (v : BitVec 3) (q : BitVec 4) (n : BitVec 8) (sc : BitVec 3) (u : Ring) (s : State),
     s.ringOf q.toNat = some u → n.toNat ≤ u.nslots →
     let snd := sc.toNat
     let rcv := v.toNat
     (s.cpu.role ≠ snd → s.cpu.role ≠ rcv → Completes (.handoff v q n sc) s (Stepped s)) ∧
     (s.cpu.role = snd ∨ s.cpu.role = rcv → s.cpu.roleCount snd = 0 ∨ s.cpu.roleCount rcv = 0 →
       exec (.handoff v q n sc) s = .next (s.trap 0x0B (BitVec.ofNat 64 (snd + 8 * rcv)))) ∧
     (s.cpu.role = snd → s.cpu.roleCount snd ≠ 0 → s.cpu.roleCount rcv ≠ 0 → s.cpu.pending = [] → s.cpu.eager = false →
       s.releaseWaits 1 = false → u.waiters = [] → u.handovers = [] → u.head = u.claimed → n.toNat ≤ u.room →
       Completes (.handoff v q n sc) s (fun t =>
         t.cpu.pc = (s.cpu.flowTo (s.cpu.pc + 4)).pc ∧ t.mem = (s.release 1).mem ∧ t.sp = s.sp ∧ t.cpu.x = s.cpu.x ∧
         ∃ w h, t.ringOf q.toNat = some w ∧ w.claimed = u.claimed + n.setWidth 32 ∧ w.handovers = [h] ∧ h.team = s.cpu.team ∧ h.sender = snd ∧ h.handle = q.toNat ∧
           h.receiver = rcv ∧ h.count = n.toNat ∧ h.h0 = u.head ∧ h.claimed = true ∧ h.arrived = [s.cpu.id] ∧
           h.committed = false)) ∧
     (s.cpu.role = rcv → rcv ≠ snd → s.cpu.roleCount snd ≠ 0 → s.cpu.roleCount rcv ≠ 0 → s.cpu.received = [] →
       ∀ h, u.handovers = [h] → h.team = s.cpu.team → h.sender = snd → h.handle = q.toNat → h.receiver = rcv →
         (h.committed = true → Completes (.handoff v q n sc) s (fun t =>
           t.cpu.pc = (s.cpu.flowTo (s.cpu.pc + 4)).pc ∧ t.cpu.l1 = (s.acquire 1).cpu.l1 ∧ t.cpu.x = s.cpu.x ∧
           t.rings = s.rings ∧ SameMemory s t)) ∧
         (h.committed = false → exec (.handoff v q n sc) s = .next s)) ∧
     (∀ h, s.rings = [u] → u.handovers = [h] → h.committed = false → h.complete (s.roleSize h.team h.sender) = true →
       h.h0 = u.taken →
       Completes (.handoffCommit u.cluster u.unit) s (fun t =>
         ∃ w, t.rings = [w] ∧ w.taken = u.taken + BitVec.ofNat 32 h.count ∧ w.handovers = [{ h with committed := true }] ∧
           SameMemory s t ∧ t.cpu.x = s.cpu.x ∧ t.cpu.pc = s.cpu.pc)))

/-- prcfg gives the node a region of free slots, or releases it for a count of 0, once the tags of the node's previous region
are dropped and its fills are over; it traps with cause 0x0C on a bad base, code or count and where the table has too few free
tags, and with cause 5 on a region that leaves the window. probe of a block that a slot holds gives the slot and goes on; of
another it takes the lowest Free slot, or else the least recently probed Valid unpinned one, marks its lines empty, starts its
fill and branches; with no such slot it gives −1 and branches. prinv drops a tag, prpin pins a slot and prunpin lets go of it;
each traps where R172 says so, and without a region each but prcfg traps with cause 0x0C and 0 (R153, R169, R170, R172). A fill
goes line by line: a line whose page translates is read from memory and written to the slot, and is then full. A fill all of
whose lines have been written leaves the slot Valid, or Free where its tag was dropped; one that meets a fault leaves the slot
Free and posts a record of type 3 with cause 0x0E, the tag's address and the underlying cause; one that waits keeps the lines
that it has written and goes on from there; a slot that is not filling stays (R170, R171). Between the lines of these rules the
model's own reading or choice stands (assumption log 58). -/
def Obligations.ProbesAndFills : Prop :=
  (∀ (b a d : BitVec 5) (o : BitVec 10) (r : BitVec 3) (s : State), s.cpu.executes r = true → s.cpu.ready [d, a, b] = true →
     let tag := s.x a
     let n := (s.x b).toNat
     let code := ((s.x a).extractLsb' 22 3).toNat
     let base := ((s.x a).extractLsb' 0 22).toNat
     (let bad : Prop := 2 ^ 25 ≤ (s.x a).toNat ∨ 4 < code ∨ base % blockBytes code ≠ 0 ∨ 1024 < n ∨ 2 ^ 22 < base + n * blockBytes code
       let without : State := { s with probes := s.probes.filter (fun p => !p.mine s.cpu) }
       let made : State := { s with probes := without.probes ++ (if n = 0 then [] else
         [⟨s.cpu.cluster, s.cpu.firing, s.cpu.ctx, s.cpu.node, base, code, List.replicate n .free, 0⟩]) }
       (bad → exec (.prcfg b a d r) s = .next (s.trap 0x0C (s.x a))) ∧
       (∀ k, ¬ bad → s.cpu.outside base (n * blockBytes code) = some k →
         exec (.prcfg b a d r) s = .next (s.trap 5 (BitVec.ofNat 64 k))) ∧
       (¬ bad → s.cpu.outside base (n * blockBytes code) = none →
         (∀ p x, s.probeRegion = some p → x ∈ p.slots → x.filling = true →
           exec (.prcfg b a d r) s = .next (s.setRegion { p with slots := p.slots.map ProbeSlot.drop })) ∧
         ((∀ p x, s.probeRegion = some p → x ∈ p.slots → x.filling = false) →
           (without.freeTags s.cpu.cluster < n → exec (.prcfg b a d r) s = .next (without.trap 0x0C (s.x b))) ∧
           (n ≤ without.freeTags s.cpu.cluster →
             Completes (.prcfg b a d r) s (WroteX made d (BitVec.ofNat 64 (made.freeTags s.cpu.cluster))))))) ∧
     (s.probeRegion = none →
       ∀ i ∈ [Instr.probe o a d r, .prinv a d r, .prpin a r, .prunpin a r], exec i s = .next (s.trap 0x0C 0)) ∧
     ∀ p, s.probeRegion = some p →
       let slot (i : Nat) : ProbeSlot := p.slots.getD i .free
       let idle (x : ProbeSlot) : Prop := x.filling = false ∧ x.valid = false
       let holds (i : Nat) : Prop := i < p.slots.length ∧ ¬ idle (slot i) ∧ (slot i).tag = some tag
       let found (i : Nat) : Prop := holds i ∧ ∀ j, j < i → ¬ holds j
       let missed : Prop := ∀ i, ¬ holds i
       let old (i : Nat) : Prop := i < p.slots.length ∧ (slot i).valid = true ∧ (slot i).pinned = false
       let victim (i : Nat) : Prop :=
         (i < p.slots.length ∧ idle (slot i) ∧ ∀ j, j < i → ¬ idle (slot j)) ∨
         ((∀ j, j < p.slots.length → ¬ idle (slot j)) ∧ old i ∧
           ∀ j, old j → (slot i).stamp < (slot j).stamp ∨ ((slot i).stamp = (slot j).stamp ∧ i ≤ j))
       let put (i : Nat) (x : ProbeSlot) (q : ProbeRegion) : State := s.setRegion { q with slots := p.slots.set i x }
       let probed : ProbeRegion := { p with clock := p.clock + 1 }
       let branched (u : State) (v : Word) : State :=
         { u with cpu := (s.cpu.wx d v).jumpTo (s.cpu.pc + 4 * o.signExtend 64) }
       (tag.toNat % blockBytes p.code ≠ 0 → exec (.probe o a d r) s = .next (s.trap 3 tag)) ∧
       (tag.toNat % blockBytes p.code = 0 →
         (∀ i, found i → Completes (.probe o a d r) s
           (WroteX (put i { slot i with stamp := p.clock + 1 } probed) d (BitVec.ofNat 64 i))) ∧
         (∀ i, missed → victim i →
           (s.cpu.rangesBusy [⟨p.line i, p.lines, true⟩] = true → exec (.probe o a d r) s = .next s) ∧
           (s.cpu.rangesBusy [⟨p.line i, p.lines, true⟩] = false → Completes (.probe o a d r) s (fun t =>
             t = { branched (put i ⟨some tag, true, false, false, p.clock + 1, tag, 0⟩ probed) (BitVec.ofNat 64 i) with
               spEmpty := t.spEmpty } ∧
             ∀ l, l ∈ t.spEmpty ↔ l ∈ s.spEmpty ∨ ∃ j, j < p.lines ∧ l = spLineNo p.cluster (128 * (p.line i + j))))) ∧
         (missed → (∀ i, ¬ victim i) → Completes (.probe o a d r) s (fun t => t = branched s (-1)))) ∧
       (∀ i, found i →
         ((slot i).pinned = true → exec (.prinv a d r) s = .next (s.trap 0x0C tag)) ∧
         ((slot i).pinned = false → Completes (.prinv a d r) s (WroteX
           (put i (if (slot i).filling then { slot i with tag := none } else .free) p) d (BitVec.ofNat 64 i)))) ∧
       (missed → Completes (.prinv a d r) s (WroteX s d (-1))) ∧
       (p.slots.length ≤ tag.toNat → exec (.prpin a r) s = .next (s.trap 0x0C tag) ∧ exec (.prunpin a r) s = .next (s.trap 0x0C tag)) ∧
       (tag.toNat < p.slots.length →
         (idle (slot tag.toNat) → exec (.prpin a r) s = .next (s.trap 0x0C tag)) ∧
         (¬ idle (slot tag.toNat) → Completes (.prpin a r) s (Stepped (put tag.toNat { slot tag.toNat with pinned := true } p))) ∧
         Completes (.prunpin a r) s (Stepped (put tag.toNat { slot tag.toNat with pinned := false } p)))) ∧
  (∀ (cluster firing slot : Nat) (p : ProbeRegion) (x : ProbeSlot) (s : State),
     s.probes.find? (fun q => q.cluster == cluster && q.firing == firing) = some p → p.slots[slot]? = some x →
     let die := stackDie s.fuses (cluster / 16)
     let filled := fillLines p.ctx die cluster (p.lines - x.filled) (x.fillFrom + BitVec.ofNat 64 (128 * x.filled))
       (p.line slot + x.filled) s
     let ends (u : State) (y : ProbeSlot) : State := u.setRegion { p with slots := p.slots.set slot y }
     (x.filling = false → Completes (.probeFill cluster firing slot) s (fun t => t = s)) ∧
     (x.filling = true →
       (filled.2.2 = .full → Completes (.probeFill cluster firing slot) s (fun t =>
         t = ends filled.1 (if x.tag = none then .free else { x with filling := false, valid := true }))) ∧
       (∀ c, filled.2.2 = .fault c → Completes (.probeFill cluster firing slot) s (fun t =>
         t = (ends filled.1 .free).post p.ctx 5 cluster
           (record 3 0x0E p.cluster filled.1.now p.node x.fillFrom.toNat [BitVec.ofNat 8 c]))) ∧
       (filled.2.2 = .wait → Completes (.probeFill cluster firing slot) s (fun t =>
         t = ends filled.1 { x with filled := p.lines - filled.2.1 }))) ∧
     (∀ va line, fillLines p.ctx die cluster 0 va line s = (s, 0, .full)) ∧
     ∀ n va line q leaf u, s.MemOk → translateFor s p.ctx die va .read = .ok q leaf u → isDevice q.pa = false →
       u.homeWaits (u.key q) = false → poisonedIn u.memPoison (u.key q) 128 = false →
       ∃ v, fillLines p.ctx die cluster (n + 1) va line s = fillLines p.ctx die cluster n (va + 128) (line + 1) v ∧
         readLE v.sp (spKey cluster (128 * line)) 128 = readLE u.mem (u.key q) 128 ∧
         (∀ k, k < spKey cluster (128 * line) ∨ spKey cluster (128 * line) + 128 ≤ k → readByte v.sp k = readByte s.sp k) ∧
         (∀ l, l ∈ v.spEmpty ↔ l ∈ u.spEmpty ∧ l ≠ spLineNo cluster (128 * line)) ∧ v.mem = u.mem ∧ v.cpu = u.cpu)

/-- Each tile product fills the accumulator slot that its offset names, H − 1 − o, element by element with the sum of R90 over
its operands' rows, starting from the old element where it accumulates and with negated products where it negates; the slot is
tagged with the entry's output format and the epilogue mode, and no other slot, register or byte changes. The operands pass the
checks at issue, the lines that hold the bytes it needs are full and sound, and no epi stands in the replay queue (R84, R90,
R175, R181 to R184, R192). A sum group of R90 with a NaN among the accumulator or the kept operands gives the canonical NaN;
without pairs it gives the accumulator rounded, and with none at all 0. A product of formats whose entry names FP32 traps with
the entry and cause 1, an offset beyond the live slots with cause 2 and 0x100 + o, and more pushed slots than the ring has room
for with 0x200 + n (R90, R175, R183, R186). Between the lines of these rules the model's own reading or choice stands
(assumption logs 4, 20 and 52). -/
def Obligations.ProductsFillTheirSlot : Prop :=
  (∀ (b a : BitVec 5) (x y : BitVec 1) (o : BitVec 4) (r : BitVec 3) (op0 op1 : Word) (s : State),
     VectorReady r [] s → (∀ d ∈ s.cpu.replay, d.isEpi = false) →
     let e := s.cpu.ftEntry
     let k := s.cpu.slotIx (s.cpu.accH.toNat + 2 ^ 32 - 1 - o.toNat)
     let row (i : Nat) : Nat := operandRow s x a op0 s.cpu.loopValue i
     let col (j : Nat) : Nat := operandRow s y b op1 s.cpu.loopValue j
     let fills (i : Instr) (sparse neg keep : Bool) : Prop :=
       isFp32 (entryA e) = false → isFp32 (entryB e) = false → (sparse = true → entryN e ≠ 0) → o.toNat < s.cpu.live →
       operandCheck s.cpu x a (companionA sparse) = .ok op0 → operandCheck s.cpu y b (companionB sparse e) = .ok op1 →
       let runs := (if x = 1 then neededRuns op0 s.cpu.loopValue (needA sparse e) else []) ++
         (if y = 1 then neededRuns op1 s.cpu.loopValue (needB sparse e) else [])
       s.spBlocked runs = false → s.spPoisoned runs = none →
       Completes i s (fun t =>
         (∀ p q, p < 32 → q < 32 → lane (tileRow t.cpu.acc[k] p) q =
           sumGroups neg (if keep then some (lane (tileRow s.cpu.acc[k] p) q) else none)
             (if sparse then sparseGroups e (row p) (col q) else denseGroups e (row p) (col q))) ∧
         t.cpu.accTag[k] = ⟨e.extractLsb' 40 20, s.cpu.epiMode⟩ ∧
         (∀ n : Fin 24, n ≠ k → t.cpu.acc[n] = s.cpu.acc[n] ∧ t.cpu.accTag[n] = s.cpu.accTag[n]) ∧
         t = { s with cpu := { s.cpu.flowTo (s.cpu.pc + 4) with
           acc := t.cpu.acc
           accTag := t.cpu.accTag
           accFmt := t.cpu.accFmt } })
     fills (.mma b a x y o r) false false false ∧ fills (.mmaAcc b a x y o r) false false true ∧
     fills (.mmaNeg b a x y o r) false true true ∧ fills (.mmas b a x y o r) true false false ∧
     fills (.mmasAcc b a x y o r) true false true ∧ fills (.mmasNeg b a x y o r) true true true) ∧
  ((∀ (neg : Bool) (acc : Option Lane) (ps : List (FpVal × FpVal)),
     ((∃ v, acc = some v ∧ isNaN32 v = true) ∨ (∃ p ∈ ps, p.1.isNaN = true ∨ p.2.isNaN = true) →
       sumGroup neg acc ps = canonNaN)) ∧
   ∀ (n : BitVec 4) (v b a : BitVec 5) (x y : BitVec 1) (o : BitVec 4) (r : BitVec 3) (s : State), VectorReady r [] s →
     let e := s.cpu.ftEntry
     (isFp32 (entryA e) = true ∨ isFp32 (entryB e) = true →
       ∀ i ∈ [Instr.mma b a x y o r, .mmaAcc b a x y o r, .mmaNeg b a x y o r, .mmas b a x y o r, .mmasAcc b a x y o r,
         .mmasNeg b a x y o r], exec i s = .next (s.trap 1 e)) ∧
     (s.cpu.live ≤ o.toNat → v.toNat < s.cpu.valloc →
       exec (.accscl v o r) s = .next (s.trap 2 (BitVec.ofNat 64 (0x100 + o.toNat))) ∧
       exec (.accsclX v o r) s = .next (s.trap 2 (BitVec.ofNat 64 (0x100 + o.toNat)))) ∧
     (s.cpu.accS < s.cpu.live + n.toNat + 1 →
       exec (.accz n r) s = .next (s.trap 2 (BitVec.ofNat 64 (0x200 + n.toNat + 1)))))

/-- accz pushes n + 1 slots of zeros, tagged with the entry's output format: H goes up by n + 1, T and every other slot stay
(R174, R175, R186). accscl scales row i of a slot by two to the power of lane i of its register, accscl.x every row by one
power, exponents clamped to 1,024 either way; accrd copies 1, 4 or 8 rows or columns to as many registers from vd up, and accwr
registers to rows or columns, which wrap after 31; a slot that is written takes the epilogue mode into its tag and keeps its
output format; nothing else changes (R84, R179, R187, R188). mqctl.wait takes its place in the matrix queue: it completes at
once where no command is left, and stands behind an earlier matrix command with the front end waiting for it; mqctl.rm sets the
epilogue mode and mqctl.ftb ftbase, in the order of the matrix queue, and each traps with cause 1 on a value with a bad field
(R193). Between the lines of these rules the model's own reading or choice stands (assumption log 4). -/
def Obligations.SlotWords : Prop :=
  (∀ (n : BitVec 4) (r : BitVec 3) (s : State), VectorReady r [] s → (∀ d ∈ s.cpu.replay, d.isEpi = false) → s.cpu.accS ≤ 24 →
     s.cpu.live + n.toNat + 1 ≤ s.cpu.accS →
     let mine (k : Fin 24) : Prop := ∃ j, j ≤ n.toNat ∧ k = s.cpu.slotIx (s.cpu.accH.toNat + j)
     Completes (.accz n r) s (fun t =>
       t.cpu.accH = s.cpu.accH + BitVec.ofNat 32 (n.toNat + 1) ∧ t.cpu.accT = s.cpu.accT ∧
       (∀ k, mine k → t.cpu.acc[k] = Vector.replicate 32 0 ∧
         t.cpu.accTag[k] = ⟨s.cpu.ftEntry.extractLsb' 40 20, s.cpu.epiMode⟩) ∧
       (∀ k, ¬ mine k → t.cpu.acc[k] = s.cpu.acc[k] ∧ t.cpu.accTag[k] = s.cpu.accTag[k]) ∧
       t = { s with cpu := { s.cpu.flowTo (s.cpu.pc + 4) with
         acc := t.cpu.acc
         accTag := t.cpu.accTag
         accFmt := t.cpu.accFmt
         accH := t.cpu.accH } })) ∧
  (∀ (n : BitVec 2) (t0 d v : BitVec 5) (o : BitVec 4) (r : BitVec 3) (s : State),
     VectorReady r [] s → (∀ d ∈ s.cpu.replay, d.isEpi = false) → o.toNat < s.cpu.live →
     let k := s.cpu.slotIx (s.cpu.accH.toNat + 2 ^ 32 - 1 - o.toNat)
     let old := s.cpu.acc[k]
     let count := if n = 0 then 1 else if n = 1 then 4 else 8
     let place (q : Nat) : Nat := (t0.toNat + q) % 32
     let reg (q : Nat) : BitVec 5 := d + BitVec.ofNat 5 q
     let scaled (e : Int) (x : Lane) : Lane := match val32 x with
       | .fin neg m f => rn32 (.fin neg m (f + max (-1024) (min e 1024)))
       | w => rn32 w
     let slotFrame (u : State) : Prop := (∀ j : Fin 24, j ≠ k → u.cpu.acc[j] = s.cpu.acc[j] ∧ u.cpu.accTag[j] = s.cpu.accTag[j]) ∧
       u.cpu.accTag[k] = ⟨s.cpu.accTag[k].ofmt, s.cpu.epiMode⟩ ∧
       u = { s with cpu := { s.cpu.flowTo (s.cpu.pc + 4) with acc := u.cpu.acc, accTag := u.cpu.accTag } }
     (v.toNat < s.cpu.valloc → Completes (.accscl v o r) s (fun u => slotFrame u ∧ ∀ p q, p < 32 → q < 32 →
       lane (tileRow u.cpu.acc[k] p) q = scaled (lane (s.cpu.rv v) p).toInt (lane (tileRow old p) q))) ∧
     Completes (.accsclX v o r) s (fun u => slotFrame u ∧ ∀ p q, p < 32 → q < 32 →
       lane (tileRow u.cpu.acc[k] p) q = scaled (s.x v).toInt (lane (tileRow old p) q)) ∧
     (s.cpu.notAllotted (regRun n d) = none → d.toNat + count ≤ 32 →
       Completes (.accrd n t0 d o r) s (fun u => (∀ q, q < count → u.cpu.rv (reg q) = tileRow old (place q)) ∧
         (∀ x : BitVec 5, x.toNat < d.toNat ∨ d.toNat + count ≤ x.toNat → u.cpu.rv x = s.cpu.rv x) ∧
         u = { s with cpu := { s.cpu.flowTo (s.cpu.pc + 4) with v := u.cpu.v } }) ∧
       Completes (.accrdCol n t0 d o r) s (fun u =>
         (∀ q p, q < count → p < 32 → lane (u.cpu.rv (reg q)) p = lane (tileRow old p) (place q)) ∧
         (∀ x : BitVec 5, x.toNat < d.toNat ∨ d.toNat + count ≤ x.toNat → u.cpu.rv x = s.cpu.rv x) ∧
         u = { s with cpu := { s.cpu.flowTo (s.cpu.pc + 4) with v := u.cpu.v } }) ∧
       Completes (.accwr n t0 d o r) s (fun u => slotFrame u ∧
         (∀ q, q < count → tileRow u.cpu.acc[k] (place q) = s.cpu.rv (reg q)) ∧
         ∀ p, p < 32 → (∀ q, q < count → p ≠ place q) → tileRow u.cpu.acc[k] p = tileRow old p) ∧
       Completes (.accwrCol n t0 d o r) s (fun u => slotFrame u ∧
         (∀ p q, p < 32 → q < count → lane (tileRow u.cpu.acc[k] p) (place q) = lane (s.cpu.rv (reg q)) p) ∧
         ∀ p c, p < 32 → c < 32 → (∀ q, q < count → c ≠ place q) →
           lane (tileRow u.cpu.acc[k] p) c = lane (tileRow old p) c))) ∧
  (∀ (sc : BitVec 5) (r : BitVec 3) (s : State), s.cpu.executes r = true →
     (VectorReady r [] s → Completes (.mqctlWait r) s (Stepped s)) ∧
     (s.cpu.queueFull .matrix = false → s.cpu.rangesUsed ≤ 64 → (∃ d ∈ s.cpu.pending, d.queue = .matrix) →
       Completes (.mqctlWait r) s (fun t => t.cellWaits = true ∧ ∃ d, d.instr = .mqctlWait r ∧ d.queue = .matrix ∧
         t = { s with cpu := { s.cpu.flowTo (s.cpu.pc + 4) with pending := s.cpu.pending ++ [d] } })) ∧
     (VectorReady r [] s →
       ((s.x sc).toNat < 16 → ((s.x sc).extractLsb' 0 3).toNat ≤ 4 → Completes (.mqctlRm sc r) s (fun t =>
         t = { s with cpu := { s.cpu.flowTo (s.cpu.pc + 4) with epiMode := (s.x sc).setWidth 4 } })) ∧
       ((s.x sc).toNat < 64 → Completes (.mqctlFtb sc r) s (fun t =>
         t = { s with cpu := { s.cpu.flowTo (s.cpu.pc + 4) with ftbase := s.x sc } })) ∧
       (16 ≤ (s.x sc).toNat → exec (.mqctlRm sc r) s = .next (s.trap 1 (s.x sc))) ∧
       (64 ≤ (s.x sc).toNat → exec (.mqctlFtb sc r) s = .next (s.trap 1 (s.x sc)))))

/-- epi drains the oldest slots: T goes up by its count at once, and each of the 32 rows of a slot, scaled, biased, activated
and narrowed to the slot's output format, takes its part of the row of a tile register or of a scratchpad view, slot j the
register after that of slot j − 1, round the eight, or the view one loop value on; where rows meet, the later one stands, and
the rest of the rows stays. The control word passes its checks and the scale and bias lines are full and sound (R84, R178, R189
to R192). Between the lines of these rules the model's own reading or choice stands (assumption logs 4 and 20). -/
def Obligations.EpilogueDrainsTheOldestSlot : Prop :=
  ∀ (b a : BitVec 5) (r : BitVec 3) (op0 : Word) (s : State), VectorReady r [] s → s.MemOk →
    let w := s.x b
    let k (j : Nat) : Fin 24 := s.cpu.slotIx (s.cpu.accT.toNat + j)
    let tag (j : Nat) : AccTag := s.cpu.accTag[k j]
    let n (j : Nat) : Nat := 4 * (compactFmt (tag j).ofmt).width
    let part (j : Nat) : Nat := epiPart w * n j
    let value (j i : Nat) : Nat :=
      epiRow w (tag j) (tileRow s.cpu.acc[k j] i) (s.spLine (epiScale w)) (s.spLine (epiBias w)) i
    let rows := (List.range (32 * epiCount w)).reverse
    (∀ j, j < epiCount w → (tag j).ofmt = s.cpu.accFmt[k j]) → s.spBlocked (epiLines w) = false →
    s.spPoisoned (epiLines w) = none →
    (epiCheck s.cpu w a 0 = .ok op0 → Completes (.epi b a 0 r) s (fun t =>
      t.cpu.accT = s.cpu.accT + BitVec.ofNat 32 (epiCount w) ∧
      (∀ m i y, m < 8 → i < 32 → y < 128 → (tileRow (t.cpu.rm m) i).extractLsb' (8 * y) 8 =
        match rows.find? (fun q => q % 32 = i && (a.toNat + q / 32) % 8 = m && part (q / 32) ≤ y && y < part (q / 32) + n (q / 32)) with
        | some q => BitVec.ofNat 8 (value (q / 32) i / 256 ^ (y - part (q / 32)))
        | none => (tileRow (s.cpu.rm m) i).extractLsb' (8 * y) 8) ∧
      t = { s with cpu := { s.cpu.flowTo (s.cpu.pc + 4) with m := t.cpu.m, accT := t.cpu.accT } })) ∧
    (epiCheck s.cpu w a 1 = .ok op0 →
      let place (q : Nat) : Nat :=
        s.cpu.cluster * 2 ^ 22 + (Pair.ofCompact op0).spRow (s.cpu.loopValue + q / 32) (q % 32) + part (q / 32)
      Completes (.epi b a 1 r) s (fun t => t.cpu.accT = s.cpu.accT + BitVec.ofNat 32 (epiCount w) ∧
        (∀ z, readByte t.sp z = match rows.find? (fun q => place q ≤ z && z < place q + n (q / 32)) with
          | some q => BitVec.ofNat 8 (value (q / 32) (q % 32) / 256 ^ (z - place q))
          | none => readByte s.sp z) ∧
        t = { s with
          cpu := { s.cpu.flowTo (s.cpu.pc + 4) with accT := t.cpu.accT }
          sp := t.sp
          spPoison := t.spPoison }))

/-- barinit makes a barrier of 1 to 65,535 arrivals, its force form flips a valid one and its free form clears it, with no other
byte of memory changed; an operand outside that range and an object that is not valid trap (R266, R269, R274). An arrival
releases at package scope, counts one arrival and the bytes it announces, and gives the parity of its phase; the last arrival of
a phase with no bytes outstanding flips the object, with the expected count that the drops and joins of the phase leave (R269,
R270, R275). Between the lines of these rules the model's own reading or choice stands (assumption logs 49 and 76). -/
def Obligations.BarriersCountArrivals : Prop :=
  (∀ (b a : BitVec 5) (r : BitVec 3) (key : Nat) (s s1 : State), s.cpu.executes r = true → s.cpu.ready [a, b] = true → s.MemOk →
     ReachesBarrier s (s.x a) .write key s1 →
     let n := (s.x b).toNat
     let s2 := s1.syncTouch key
     let o := s1.barrier key
     let e := o.expected + o.join - o.drop
     (0 < n → n < 2 ^ 16 → s.cpu.ctx < 2 ^ 16 →
       Completes (.barinit b a r) s (BarrierSet s1 key ⟨false, true, false, n, n, s.cpu.ctx, 0, 0, 0, 0⟩ 0)) ∧
     (n = 0 ∨ 2 ^ 16 ≤ n → exec (.barinit b a r) s = .next (s2.trap 1 (s.x b))) ∧
     (o.valid = true → e < 2 ^ 16 → Completes (.barinitForce a r) s (BarrierSet s1 key
       ⟨!o.parity, true, false, e, e, o.owner, 0, 0, 0, o.flips + 1⟩ 0)) ∧
     (o.valid = true → Completes (.barinitFree a r) s (BarrierSet s1 key ⟨false, false, false, 0, 0, 0, 0, 0, 0, 0⟩ 0)) ∧
     (o.valid = false → exec (.barinitForce a r) s = .next (s2.trap 9 (s.x a)) ∧
       exec (.barinitFree a r) s = .next (s2.trap 9 (s.x a)))) ∧
  (∀ (b a d : BitVec 5) (r : BitVec 3) (key : Nat) (s s1 : State),
     s.cpu.executes r = true → s.cpu.ready [d, a, b] = true → s.cpu.memoryQuiet = true → s.MemOk →
     ReachesBarrier s (s.x a) .write key s1 → s1.releaseWaits 4 = false → (s.x b).toNat < 2 ^ 47 →
     let s2 := (s1.syncTouch key).release 4
     let o := s2.barrier key
     let p := o.pending + (s.x b).toNat
     o.valid = true → o.overrun = false → 0 < o.remaining → p < 2 ^ 47 →
     let arrives (i : Instr) (dropped joined : Nat) : Prop :=
       o.drop + dropped < 2 ^ 16 → o.join + joined < 2 ^ 16 → o.drop + dropped ≤ o.expected + o.join →
       o.expected + o.join + joined < 2 ^ 16 + o.drop →
       let e := o.expected + (o.join + joined) - (o.drop + dropped)
       (1 < o.remaining ∨ 0 < p → Completes i s (fun t =>
         (t.x d = if d = 0 then 0 else BitVec.ofNat 64 o.parity.toNat) ∧ BarrierSet s2 key { o with
           remaining := o.remaining - 1
           pending := p
           drop := o.drop + dropped
           join := o.join + joined } d t)) ∧
       (o.remaining = 1 → p = 0 → Completes i s (fun t =>
         (t.x d = if d = 0 then 0 else BitVec.ofNat 64 o.parity.toNat) ∧
         BarrierSet s2 key ⟨!o.parity, true, false, e, e, o.owner, 0, 0, 0, o.flips + 1⟩ d t))
     arrives (.bararr b a d r) 0 0 ∧ arrives (.bardrop b a d r) 1 0 ∧ arrives (.barjoin b a d r) 0 1)

/-- barwait and bartest compare the object's parity with their operand: where it differs they go on, bartest with 1, the cell's
clean copies of the counted payloads being dropped; where it does not, bartest gives 0 and barwait sleeps at its own address
with a wait record after those of other cells; an operand above 1 and an object that is not valid trap (R262, R276, R277). The
wake of a barwait ends its wait record, drops the clean copies of the payloads of its phase and lets the cell go on; without a
woken record it changes nothing. The first subtraction of a copy entry that may go ahead at its engine, those of class-0 work
before all else, lowers the pending count of its phase by its bytes, and flips an object whose last arrival has come and whose
count reaches 0, each waiter on the old phase being woken by the end of that phase (R269, R270, R276, R277, R373). waita gives
its 8-byte word, after an acquire, once it differs from the operand, and sleeps with a wait record while it does not; the wake
rereads the word and does the same (R278, R310). Between the lines of these rules the model's own reading or choice stands
(assumption logs 3 and 49). -/
def Obligations.WaitsEndOnTheirCondition : Prop :=
  (∀ (b a d : BitVec 5) (r : BitVec 3) (key : Nat) (s s1 : State),
     s.cpu.executes r = true → s.cpu.ready [d, a, b] = true → ReachesBarrier s (s.x a) .read key s1 → s.waitOf 32 = none →
     let s2 := s1.syncTouch key
     let o := s1.barrier key
     let v := s.x b
     (o.valid = true → v.toNat < 2 →
       (o.parity ≠ v.getLsbD 0 →
         Completes (.barwait b a r) s (Stepped (s2.endWait.observe key none)) ∧
         Completes (.bartest b a d r) s (WroteX (s2.observe key none) d 1)) ∧
       (o.parity = v.getLsbD 0 →
         Completes (.bartest b a d r) s (WroteX s2 d 0) ∧
         Completes (.barwait b a r) s (fun t => t = { s2 with
           waits := s1.waits ++ [⟨s.cpu.id, key, 32, v, 0, false, s.x a, o.flips.toNat⟩]
           syncSram := t.syncSram }))) ∧
     (2 ≤ v.toNat → exec (.barwait b a r) s = .next (s2.trap 1 v) ∧ exec (.bartest b a d r) s = .next (s2.trap 1 v)) ∧
     (v.toNat < 2 → o.valid = false →
       exec (.barwait b a r) s = .next (s2.trap 9 (s.x a)) ∧ exec (.bartest b a d r) s = .next (s2.trap 9 (s.x a)))) ∧
  (∀ (s : State), s.MemOk →
     (∀ w, s.waitOf 32 = some w →
       (w.woken = true → Completes .waiterWake s (Stepped (s.endWait.observe w.key (some w.flip)))) ∧
       (w.woken = false → exec .waiterWake s = .next s)) ∧
     ∀ i x, s.subtractions[i]? = some x → s.maySubtract i x = true →
       (∀ j y, j < i → s.subtractions[j]? = some y → s.maySubtract j y = false) →
       let u : State := { s with
         subtractions := s.subtractions.eraseIdx i
         payloads := x.runs.map (fun q => ⟨x.key, (s.barrier x.key).flips.toNat, q.1, q.2⟩) ++ s.payloads }
       let o := s.barrier x.key
       let e := o.expected + o.join - o.drop
       let leaves (b : Barrier) (t : State) : Prop :=
         t.barrier x.key = b ∧ (∀ q, q < x.key ∨ x.key + 32 ≤ q → readByte t.mem q = readByte s.mem q) ∧ t.cpu.pc = s.cpu.pc ∧
         (∀ q, t.x q = s.x q) ∧ HomeFrame u { t with saved := u.saved }
       o.valid = true → o.overrun = false → -2 ^ 47 ≤ o.pending - x.bytes → e < 2 ^ 16 →
       (0 < o.remaining ∨ (x.bytes : Int) < o.pending → Completes .barrierSubtraction s
         (leaves { o with pending := o.pending - x.bytes })) ∧
       (o.remaining = 0 → o.pending = x.bytes → Completes .barrierSubtraction s (fun t =>
         leaves ⟨!o.parity, true, false, e, e, o.owner, 0, 0, 0, o.flips + 1⟩ t ∧
         ∀ w ∈ s.waits, w.bytes = 32 → w.key = x.key → w.want = BitVec.ofNat 64 o.parity.toNat → w.woken = false →
           { w with woken := true, flip := o.flips.toNat } ∈ t.waits))) ∧
  (∀ (b a d : BitVec 5) (r : BitVec 3) (p : Place) (leaf : Word) (s s1 : State),
     s.cpu.executes r = true → s.cpu.ready [d, a, b] = true → s.waitOf 8 = none → (s.x a).toNat % 8 = 0 →
     translate s (s.x a) .read = .ok p leaf s1 → (isHbm p.pa || isLpddr p.pa || isSync p.pa) = true → isDevice p.pa = false →
     s1.isOffline (homeDie s1.fuses p) = false → s1.bytesBusy (s1.key p) 8 = false → InTurn s1 p false →
     let k := s1.key p
     let home := s1.selfFlush p 8
     AtHome home p 8 →
     let s2 := (home.syncTouch k).endWait
     let w : Word := BitVec.ofNat 64 (readLE home.mem k 8)
     (w ≠ s.x b → Completes (.waita b a d r) s (WroteX (s2.acquire 4) d w)) ∧
     (w = s.x b → Completes (.waita b a d r) s (fun t => t = { s2 with
       waits := s2.waits ++ [⟨s.cpu.id, k, 8, s.x b, d, false, s.x a, 0⟩]
       syncSram := t.syncSram })) ∧
     ∀ (u : State) (x : WaitRecord), u.waitOf 8 = some x → x.woken = true →
       u.homeWaits x.key = false → poisonedIn u.memPoison x.key 8 = false →
       let y : Word := BitVec.ofNat 64 (readLE u.mem x.key 8)
       (y ≠ x.want → Completes .waitaWake u (WroteX (u.endWait.acquire 4) x.rd y)) ∧
       (y = x.want → Completes .waitaWake u (fun t => t = { u.endWait with
         waits := u.endWait.waits ++ [⟨u.cpu.id, x.key, 8, x.want, x.rd, false, x.va, 0⟩]
         syncSram := t.syncSram })))

/-- A reduction that reaches its row is sent after the cell's own bytes of the row, and an eager cell's unit that may serve it
applies it at once: the flags of its elements are added to those of the context on the cell, no register changes, and where no
element raises a flag the row in memory becomes the combined row and every other byte stays. redfence, once the cell's
reductions are applied, gives the flags of the context and clears them and no other context's. The same application is the
unit's own move for a reduction that was left in its lane; one that meets a valid barrier or poison is discarded with a record
of cause 0x05 or 0x12, and the row stays (R267, R282 to R286). Between the lines of these rules the model's own reading or
choice stands (assumption log 4). -/
def Obligations.ReductionsApplyAtMemory : Prop :=
  ∀ (b a d : BitVec 5) (r : BitVec 3) (p : Place) (s s1 : State),
    (VectorReady r [b] s → s.MemOk → ReachesRow s (s.x a) p s1 → s.inFlight < 64 →
      let s2 := if p.pol = 0 then s1.writeBack p.line else s1
      let k := s1.key p
      s2.homeWaits k = false → s2.barrierIn k 128 = false → poisonedIn s2.memPoison k 128 = false →
      ∀ e ∈ [(Instr.redaF32add b a r, 0), (.redaBf16add b a r, 1), (.redaI32add b a r, 2), (.redaF32max b a r, 3),
        (.redaF32min b a r, 4), (.redaI32max b a r, 5), (.redaI32min b a r, 6)],
        let x : Reduction := ⟨s.cpu.id, s.cpu.ctx, s.cpu.firing, s.cpu.node, s.x a, k, e.2, s.cpu.rv b, s.cpu.cls = 0⟩
        let row := combineRow e.2 (BitVec.ofNat 1024 (readLE s2.mem k 128)) (s.cpu.rv b)
        ({ s with reductions := s.reductions ++ [x] } : State).mayApply s.reductions.length x = true →
        Completes e.1 s (fun t => t.reductions = s.reductions ∧ t.cpu.x = s.cpu.x ∧ t.cpu.hx = s.cpu.hx ∧ t.cpu.v = s.cpu.v ∧
          t.cpu.pc = (s.cpu.flowTo (s.cpu.pc + 4)).pc ∧
          t.cpu.flagsOf s.cpu.ctx = s.cpu.flagsOf s.cpu.ctx ||| row.2.1 ∧
          (row.2.1 = 0 → Stored s2 k 128 row.1.toNat t))) ∧
    (s.cpu.executes r = true → s.cpu.ready [d] = true → s.cpu.pending.any Cmd.isReda = false → s.inFlight = 0 →
      Completes (.redfence d r) s (fun t =>
        WroteX (s.upd (fun c => c.setFlags c.ctx 0)) d ((s.cpu.flagsOf s.cpu.ctx).setWidth 64) t ∧
        t.cpu.flagsOf s.cpu.ctx = 0 ∧ ∀ c, c ≠ s.cpu.ctx → t.cpu.flagsOf c = s.cpu.flagsOf c)) ∧
    ∀ (i : Nat) (x : Reduction), s.reductions[i]? = some x → s.mayApply i x = true → s.MemOk → s.homeWaits x.key = false →
      (∀ cause, (s.barrierIn x.key 128 = true ∧ cause = 5 ∨
          s.barrierIn x.key 128 = false ∧ poisonedIn s.memPoison x.key 128 = true ∧ cause = 0x12) →
        Completes (.reductionApply i) s (fun t =>
          t = ({ s with reductions := s.reductions.eraseIdx i } : State).postOrDrop x.ctx (redRecord s x cause 0 0))) ∧
      (s.barrierIn x.key 128 = false → poisonedIn s.memPoison x.key 128 = false →
      let row := combineRow x.op (BitVec.ofNat 1024 (readLE s.mem x.key 128)) x.data
      Completes (.reductionApply i) s (fun t => t.reductions = s.reductions.eraseIdx i ∧
        (x.cell = s.cpu.id → t.cpu.flagsOf x.ctx = s.cpu.flagsOf x.ctx ||| row.2.1) ∧
        (row.2.1 = 0 → Stored s x.key 128 row.1.toNat t)))

/-- Through the translation at the head of the cell's TLB, vldm and vldx give each active lane the four bytes at its own
address, from home lines outside the L1 or from lines that the L1 holds, and vstm and vstx store each active lane there in
increasing order, at home or in the L1; an inactive lane of an indexed access keeps its value or stores nothing, and no other
register or byte changes. nbrd gives 32 or 64 result registers of a bank whose turn it is (R98, R230, R239, R302, R309). Between
the lines of these rules the model's own reading or choice stands (assumption logs 1, 4 and 64). -/
def Obligations.VectorMemoryMovesLanes : Prop :=
  ∀ (b a d : BitVec 5) (r : BitVec 3) (e : TlbEntry) (s : State),
    s.cpu.tlb.head? = some e → (∀ t ∈ s.cpu.tlb.tail, t.samePage e = false) → s.cpu.tlb.length ≤ 64 → e.ctx = s.cpu.ctx → e.leaf.getLsbD 7 = false → s.MemOk →
    let place (va : Word) : Place := placeOf e.leaf e.bits va.toNat
    let key (va : Word) : Nat := s.key (place va)
    let covered (va : Word) : Prop :=
      va.toNat < 2 ^ 54 ∧ e.base ≤ va.toNat ∧ va.toNat < e.base + 2 ^ e.bits ∧ 12 ≤ e.bits ∧
      isHbm (place va).pa = true ∧ s.isOffline (homeDie s.fuses (place va)) = false
    let fine (va : Word) : Prop := va.toNat % 4 = 0 ∧ covered va ∧ s.homeWaits (key va) = false
    let sound (va : Word) : Prop := poisonedIn s.memPoison (key va) 4 = false
    let step := if b = 0 then 4 else s.x b
    let line (i : Nat) : Option Word := some (s.x a + BitVec.ofNat 64 i * step)
    let offset (i : Nat) : Lane := lane (s.cpu.rv b) i
    let indexed (i : Nat) : Option Word := if offset i = 0x80000000#32 then none else some (s.x a + (offset i).signExtend 64)
    let all (f : Nat → Option Word) (q : Word → Prop) : Prop := ∀ i va, i < 32 → f i = some va → fine va ∧ q va
    let loads (f : Nat → Option Word) : State → Prop := WroteV s.banksServed d (fun i =>
      match f i with
      | none => lane (s.cpu.rv d) i
      | some va => BitVec.ofNat 32 (readLE s.mem (key va) 4))
    let held (x : L1Line) (va : Word) : Prop := findLine s.cpu.l1 (place va).line = some x ∧
      x.serves &&& byteMask ((place va).pa % 128) 4 = byteMask ((place va).pa % 128) 4
    let hits (f : Nat → Option Word) (t : State) : Prop :=
      (∀ no, findLine t.cpu.l1 no = findLine s.cpu.l1 no) ∧
      ∃ g, WroteV (s.upd (fun c => { c with l1 := t.cpu.l1 })) d g t ∧
        ∀ i, i < 32 → match f i with
          | none => g i = lane (s.cpu.rv d) i
          | some va => ∀ x, held x va → g i = BitVec.ofNat 32 (lineBytes x.data ((place va).pa % 128) 4)
    let stores (f : Nat → Option Word) (t : State) : Prop :=
      ∃ u : Nat → State, u 0 = s ∧
        (∀ i, i < 32 → match f i with
          | none => u (i + 1) = u i
          | some va => if leafPol e.leaf = 0 then u (i + 1) = (u i).l1Store (place va) 4 (lane (s.cpu.rv d) i).toNat s.cpu.vseq
            else Stored (u i) (key va) 4 (lane (s.cpu.rv d) i).toNat (u (i + 1)) ∧ HomeFrame (u i) (u (i + 1)) ∧
              (u (i + 1)).cpu = (u i).cpu) ∧
        t = { u 32 with cpu := { (u 32).cpu.flowTo (s.cpu.pc + 4) with vseq := s.cpu.vseq + 1 } }
    (e.leaf.getLsbD 1 = true →
      (VectorReady r [d] s → (s.x a).toNat % 4 = 0 → step.toNat % 4 = 0 →
        (leafPol e.leaf ≠ 0 → all line sound → Completes (.vldm b a d r) s (loads line)) ∧
        (leafPol e.leaf = 0 → s.cpu.busyLanes = 0 → all line (fun va => ∃ x, held x va) →
          Completes (.vldm b a d r) s (hits line))) ∧
      (VectorReady r [d, b] s →
        (leafPol e.leaf ≠ 0 → all indexed sound → Completes (.vldx b a d r) s (loads indexed)) ∧
        (leafPol e.leaf = 0 → s.cpu.busyLanes = 0 → all indexed (fun va => ∃ x, held x va) →
          Completes (.vldx b a d r) s (hits indexed))) ∧
      (VectorReady r [d] s → covered (s.x a) → e.leaf.getLsbD 6 = true → (s.x b).toNat < 128 →
        let n := (s.x b).toNat / 64 + 1
        let ch := s.chanAt (key (s.x a))
        let k := ch.bank ((s.x a).extractLsb' 10 4).toNat
        d.toNat + n ≤ s.cpu.valloc → d.toNat + n ≤ 32 → ch.prev = some s.cpu.ctx → k.queue = [] →
        Completes (.nbrd b a d r) s (fun t =>
          (∀ q i, q < n → i < 32 →
            lane (t.cpu.rv (d + BitVec.ofNat 5 q)) i = k.res[mod64 ((s.x b).toNat % 64 + 32 * q + i)]) ∧
          (∀ x : BitVec 5, x.toNat < d.toNat ∨ d.toNat + n ≤ x.toNat → t.cpu.rv x = s.cpu.rv x) ∧
          (∀ c, t.channel c = s.channel c) ∧
          t = { s with
            cpu := { s.cpu.flowTo (s.cpu.pc + 4) with v := t.cpu.v, vseq := s.cpu.vseq + 1 }
            channels := t.channels }))) ∧
    (e.leaf.getLsbD 2 = true → e.leaf.getLsbD 4 = true →
      (VectorReady r [d] s → (s.x a).toNat % 4 = 0 → step.toNat % 4 = 0 → all line (fun _ => True) →
        Completes (.vstm b a d r) s (stores line)) ∧
      (VectorReady r [d, b] s → all indexed (fun _ => True) → Completes (.vstx b a d r) s (stores indexed)))

/-- hint.life sets the priority and next-use step of the record of a migratable page and of no other page, hint.fetch asks for
such a page in LPDDR6, hint.pref brings the line into its home slice and changes nothing else, and a hint for any other address
is only passed; trec, with room in a ring whose channels serve its accesses, writes its record after those before it, and waits
without either; a held record is written once there is room (R233, R234, R241, R293, R369 to R371). A walker sets acc in the
entries that it passes, and dirty for a write in the leaf that it finds, and keeps the translation, for a group of 16 leaves
that of the entry the group stands for; without a leaf, or without the permission, nothing changes, and a walk that meets an
entry in migration keeps its walker. A shootdown leaves no translation of its range in any TLB and no sleeping waita on it, and
its acknowledgement, once nothing translated before is on its way, ends it and lets the move go on; a page that moves keeps its
entry but for the frame, and its bytes, and only after the acknowledgement; the window of accesses ends after 1 ms with every
count at 0 (R226, R228 to R230, R232, R234 to R236, R293). Between the lines of these rules the model's own reading or choice
stands (assumption logs 9, 33, 51, 54 and 68). -/
def Obligations.HintsRecordsAndTranslations : Prop :=
  (∀ (b a : BitVec 5) (r : BitVec 3) (s : State), s.cpu.executes r = true → s.cpu.ready [a, b] = true → s.MemOk →
     let base := (s.x a).toNat / 2 ^ 21 * 2 ^ 21
     let page := migratableLeaf s s.cpu.ctx (s.x a)
     let served (x : Context) : Prop := ringHeldAt s x.ringBase = none
     let room (x : Context) : Prop := served x ∧ ringFull s x.ringBase = false ∧ droppedOf s x.id = 0
     let posted (x : Context) (bs : List Byte) (t : State) : Prop :=
       readBytes t.mem (x.ringBase + 64 + 64 * (ringProd s x.ringBase % 2 ^ ringN s x.ringBase)) 64 = bs ∧
       ringProd t x.ringBase = (ringProd s x.ringBase + 1) % 2 ^ 32 ∧
       (∀ q, (q < x.ringBase ∨ x.ringBase + 4 ≤ q) →
         (let k := x.ringBase + 64 + 64 * (ringProd s x.ringBase % 2 ^ ringN s x.ringBase); q < k ∨ k + 64 ≤ q) →
         readByte t.mem q = readByte s.mem q) ∧
       t.sp = s.sp ∧ (∀ q, t.x q = s.x q) ∧ t.cpu.v = s.cpu.v
     Completes (.hintPref a r) s (fun t =>
       t = { s with cpu := s.cpu.flowTo (s.cpu.pc + 4), slices := t.slices } ∧
       (s.ctxPlace s.cpu.ctx (s.x a) = none → t.slices = s.slices) ∧
       ∀ p, s.ctxPlace s.cpu.ctx (s.x a) = some p → isHbm p.pa = true ∨ isLpddr p.pa = true →
         s.retired.contains (1, homeSlice s.fuses p) = false → (∀ c ∈ s.channels, c.mode = .ordinary) →
         ∀ l, l ∈ t.slices ↔ l ∈ s.slices ∨ l = (homeSlice s.fuses p, s.key p / 128)) ∧
     (page = none → Completes (.hintLife b a r) s (Stepped s) ∧ Completes (.hintFetch a r) s (Stepped s)) ∧
     (∀ key leaf, page = some (key, leaf) →
       Completes (.hintLife b a r) s (fun t =>
         pageRecord t s.cpu.ctx base = { pageRecord s s.cpu.ctx base with
           prio := ((s.x b).extractLsb' 0 3).toNat, nextUse := (s.x b).extractLsb' 32 32 } ∧
         (∀ c v, (c, v) ≠ (s.cpu.ctx, base) → pageRecord t c v = pageRecord s c v) ∧
         t = { s with cpu := s.cpu.flowTo (s.cpu.pc + 4), pageRecords := t.pageRecords }) ∧
       (isLpddr (leafFrame leaf) = true → Completes (.hintFetch a r) s (fun t => (s.cpu.ctx, base) ∈ t.fetchHints ∧
         (∀ h ∈ t.fetchHints, h ∈ s.fetchHints ∨ h = (s.cpu.ctx, base)) ∧
         t = { s with cpu := s.cpu.flowTo (s.cpu.pc + 4), fetchHints := t.fetchHints })) ∧
       (isLpddr (leafFrame leaf) = false → Completes (.hintFetch a r) s (Stepped s))) ∧
     (∀ x, s.context s.cpu.ctx = some x →
       ((s.x a).toNat < 2 ^ 16 → room x → (∀ h ∈ s.held, h.ctx ≠ x.id) → Completes (.trec b a r) s (fun t =>
         posted x (record 7 (s.x a).toNat s.cpu.id s.now s.cpu.pc.toNat (s.x b).toNat []) t ∧
         t.cpu.pc = (s.cpu.flowTo (s.cpu.pc + 4)).pc)) ∧
       ((s.x a).toNat < 2 ^ 16 → served x → ringFull s x.ringBase = true → droppedOf s x.id = 0 → exec (.trec b a r) s = .next s) ∧
       ((s.x a).toNat < 2 ^ 16 → ∀ k, ringHeldAt s x.ringBase = some k → exec (.trec b a r) s = .next (s.stall k))) ∧
     (2 ^ 16 ≤ (s.x a).toNat → exec (.trec b a r) s = .next (s.trap 1 (s.x a))) ∧
     ∀ x h rest, s.context h.ctx = some x → s.held = h :: rest → (∀ g ∈ rest, g.ctx ≠ h.ctx) → h.bytes.length = 64 → room x →
       Completes (.trapRingSpaceReturn h.ctx) s (fun t => posted x h.bytes t ∧ t.held = rest ∧ t.cpu.pc = s.cpu.pc)) ∧
  (∀ (s : State), s.MemOk →
     (∀ ctx die (va : Word) write, (2 ^ 54 ≤ va.toNat ∨ s.context ctx = none) → exec (.pageWalk ctx die va write) s = .next s) ∧
     (∀ ctx die (va : Word) write c, va.toNat < 2 ^ 54 → s.context ctx = some c → s.walkersBusy (s.walkOf ctx die va.toNat) = false →
       (walk s va.toNat 4 c.root [] = .invalid → exec (.pageWalk ctx die va write) s = .next s) ∧
       (walk s va.toNat 4 c.root [] = .wait → exec (.pageWalk ctx die va write) s = .next (s.keepWalker (s.walkOf ctx die va.toNat))) ∧
       (∀ k, walk s va.toNat 4 c.root [] = .stalled k →
         exec (.pageWalk ctx die va write) s = .next ((s.keepWalker (s.walkOf ctx die va.toNat)).stall k)) ∧
       ∀ level key e path, walk s va.toNat 4 c.root [] = .leaf level key e path →
         let u := if level = 0 ∧ e.getLsbD 10 = true then (groupLeaf s key e).1 else e
         (u.getLsbD (if write then 2 else 1) = false → Completes (.pageWalk ctx die va write) s (fun t => t = { s with fresh := t.fresh })) ∧
         (u.getLsbD (if write then 2 else 1) = true → Completes (.pageWalk ctx die va write) s (fun t =>
           readByte t.mem key = (e ||| (if write then 0x18 else 0x8)).setWidth 8 ∧
           (∀ a, a ≠ key → readByte t.mem a = if a ∈ path then readByte s.mem a ||| 0x8 else readByte s.mem a) ∧
           t.sp = s.sp ∧ t.cpu = { s.cpu with reservation := t.cpu.reservation } ∧
           (die, ⟨ctx, va.toNat - va.toNat % 2 ^ (12 + 9 * level), 12 + 9 * level, u ||| (if write then 0x18 else 0x8)⟩) ∈ t.llTlb))) ∧
     (∀ d : Shootdown, s.shootdowns = [d] →
       let gone (t : State) : Prop := (∀ e ∈ t.cpu.tlb, d.drops e = false) ∧ (∀ c ∈ t.cells, ∀ e ∈ c.tlb, d.drops e = false) ∧
         (∀ c ∈ t.copiers, ∀ e ∈ c.tlb, d.drops e = false) ∧ ∀ p ∈ t.llTlb, d.drops p.2 = false
       (d.issued = false → Completes (.shootdown d.ctx d.va) s (fun t => gone t ∧ t.shootdowns = [{ d with issued := true }] ∧
         SameMemory s t ∧ ∀ w ∈ t.waits, w ∈ s.waits ∧
           (w.bytes = 8 → (s.cell w.cell).ctx = d.ctx → overlap w.va.toNat 8 d.va d.bytes = false))) ∧
       (d.issued = true → d.move = false → s.ackWaits d [] = false → Completes (.shootdownAck d.ctx d.va) s (fun t => gone t ∧
         t.shootdowns = [] ∧ t.migrations = s.migrations ∧ SameMemory s t)) ∧
       (∀ m, d.issued = true → d.move = true → s.migrations = [m] → m.ctx = d.ctx → m.va = d.va →
         (s.ackWaits d [m] = true → exec (.shootdownAck d.ctx d.va) s = .next s) ∧
         (s.ackWaits d [m] = false → Completes (.shootdownAck d.ctx d.va) s (fun t => gone t ∧ t.shootdowns = [] ∧
           t.migrations = [{ m with acked := true }] ∧
           ∀ x ∈ t.cpu.l1, lineKey s.fuses x.no / 4096 * 4096 ∉ m.units s.fuses)))) ∧
     (∀ m : Migration, s.migrations = [m] → m.acked = true →
       let news := frameUnits s.fuses m.frame (leafIl m.leaf)
       (∀ k ∈ m.key :: m.units s.fuses ++ news, s.homeWaits k = false) →
       let moved (t : State) : Prop := t.migrations = [] ∧
         readLE t.mem m.key 8 = ((m.leaf &&& ~~~0x000FFFFFFFFFF000#64) ||| BitVec.ofNat 64 m.frame).toNat ∧
         (leafFrame m.leaf, leafIl m.leaf) ∈ t.freeFrames ∧ t.cpu.x = s.cpu.x ∧ t.cpu.pc = s.cpu.pc ∧
         ((m.units s.fuses ++ news).Nodup → (∀ k ∈ m.units s.fuses ++ news, k % 4096 = 0) → m.key % 8 = 0 →
           m.key / 4096 * 4096 ∉ news → ∀ p ∈ (m.units s.fuses).zip news, ∀ j, j < 4096 →
             readByte t.mem (p.2 + j) = readByte s.mem (p.1 + j))
       (isHbm m.frame = true → Completes (.tierPromotion m.ctx m.va) s moved) ∧
       ∀ stack, isLpddr m.frame = true → (leafIl m.leaf = true ∨ leafFrame m.leaf / 2 ^ 36 = stack) →
         Completes (.tierDemotion stack) s moved) ∧
     (s.migrations = [] →
       let starts (p : PageLeaf) (frame : Nat) (t : State) : Prop :=
         t.migrations = [⟨p.ctx, p.va, p.key, p.leaf, frame, false⟩] ∧
         t.shootdowns = s.shootdowns ++ [⟨p.ctx, p.va, 2 ^ 21, false, true⟩] ∧
         readLE t.mem p.key 8 = (p.leaf &&& ~~~1#64).toNat ∧ t.cpu.x = s.cpu.x ∧ t.cpu.pc = s.cpu.pc
       (∀ stack, let frames := stackBytes s.fuses / 4096
         let on : Prop := 1000 * s.freeIn stack < (s.marks stack).1 * frames ∨
           (stack ∈ s.demoting ∧ 1000 * s.freeIn stack < (s.marks stack).2 * frames)
         (¬ on → exec (.tierDemotion stack) s = .next { s with demoting := eraseNat stack s.demoting }) ∧
         ∀ p f, on → s.victimPage stack = some p → s.homeWaits p.key = false →
           s.freeFrames.find? (fun x => isLpddr x.1) = some f → Completes (.tierDemotion stack) s (starts p f.1)) ∧
       (∀ ctx va, (ctx, va) ∉ s.fetchHints → exec (.tierPromotion ctx va) s = .next s) ∧
       ∀ p f, (p.ctx, p.va) ∈ s.fetchHints →
         (s.contexts.flatMap s.pagesOf).find? (fun x => x.ctx == p.ctx && x.va == p.va) = some p → s.homeWaits p.key = false →
         isLpddr (leafFrame p.leaf) = true → s.freeFrames.find? (fun x => isHbm x.1 && x.2 = leafIl p.leaf) = some f →
         Completes (.tierPromotion p.ctx p.va) s (starts p f.1)) ∧
     (s.now < s.tierWindow + 1500000 → exec .promotionWindowExpiry s = .next s) ∧
     (s.tierWindow + 1500000 ≤ s.now → Completes .promotionWindowExpiry s (fun t => t.tierWindow = s.now ∧
       (∀ r ∈ t.pageRecords, r.accesses = 0) ∧ (∀ h ∈ s.fetchHints, h ∈ t.fetchHints) ∧ SameMemory s t ∧ t.cpu = s.cpu)))

/-- The commands on one handle: pin, unpin and hint change those fields of the object and nothing else, wait goes on for a
resident object and brings in one from its image, query gives the status word, and new gives the handle of a zeroed object in
the cell's cluster; a handle that is not valid traps with cause 5 and the handle, for query it reads 0x7 in bits 38 to 36 (R198,
R199, R213, R214, R218). A snapshot or fork is a new handle that shares every block; rollback gives an object its snapshot's
blocks and next index; free lets go of the blocks and the handle; mig moves an object whole to another cluster, to its image or
to another chip; avg writes the weighted sum, block by block. Every one completes where its holds are granted at once, and no
other object changes its contents or holds (R197, R198, R201, R203, R210 to R212, R215). The pager writes an evicted object to
its image and brings an object into the first cluster that asks for it, unchanged, from its image or from another cluster, and
asks another chip for one that lies there, which is Moving meanwhile; an object that arrives from another chip keeps its handle
value; a waiting request for holds is granted once they are compatible, and no earlier (R201, R215, R217 to R219). Between the
lines of these rules the model's own reading or choice stands (assumption logs 4, 50, 56, 57, 65 and 69). -/
def Obligations.FastWeightObjects : Prop :=
  (∀ (h a b : BitVec 5) (r : BitVec 3) (s : State), VectorReady r [] s →
     let on (f : FwObject → FwObject) (t : State) : Prop :=
       t = { s with
         cpu := s.cpu.flowTo (s.cpu.pc + 4)
         objects := s.objects.map (fun o => if o.handle = s.x h then f o else o) }
     (∀ o, s.validObject (s.x h) = some o →
       (o.isHere s.cpu.cluster = true →
         Completes (.fwctlPin h r) s (on (fun o => { o with pinned := true })) ∧ Completes (.fwctlWait h r) s (Stepped s)) ∧
       (s.InOrder → o.place = .image → o.move = .none → o.holds = [] → o.nb ≤ s.freeBlocks s.cpu.cluster →
         Completes (.fwctlWait h r) s (fun t => ∃ q, t.object (s.x h) = some q ∧ q.isHere s.cpu.cluster = true ∧
           t.contents q = o.image ∧ OthersKept s t (s.x h) ∧ t.cpu = s.cpu.flowTo (s.cpu.pc + 4) ∧ SameMemory s t)) ∧
       Completes (.fwctlUnpin h r) s (on (fun o => { o with pinned := false })) ∧
       ((s.x a).toNat < 8 → (s.x b).toNat < 2 ^ 32 → Completes (.fwctlHint h a b r) s
         (on (fun o => { o with prio := (s.x a).toNat, nextUse := (s.x b).setWidth 32 })))) ∧
     (∀ o, s.validObject (s.x a) = some o →
       let place : Nat := match o.move, o.place with
         | .none, .cluster c => if c = s.cpu.cluster then 0 else 1
         | .none, .image => 2
         | .none, .chip _ _ => 3
         | _, _ => 4
       Completes (.fwctlQuery h a r) s (WroteX s h (BitVec.ofNat 64 (o.next.toNat + o.prio * 2 ^ 32 + o.pinned.toNat * 2 ^ 35 +
         place * 2 ^ 36 + o.snap.toNat * 2 ^ 39 + (o.nb - 1) * 2 ^ 40)))) ∧
     (s.validObject (s.x a) = none → Completes (.fwctlQuery h a r) s (WroteX s h 0x7000000000)) ∧
     (s.validObject (s.x h) = none →
       ∀ i ∈ [Instr.fwctlPin h r, .fwctlUnpin h r, .fwctlHint h a b r, .fwctlWait h r, .fwsnapFree h r, .fwmig h a r,
         .opu h a r, .fwfwd h a r, .fwupdD h a b r, .fwfuD h a b r], exec i s = .next (s.trap 5 (s.x h))) ∧
     ∀ c, s.context s.cpu.ctx = some c → (s.x a).toNat < 2 ^ 22 → (s.x b).toNat < 2 ^ 32 → s.directoryFull s.cpu.ctx 1 = false →
       let rows := ((s.x a).extractLsb' 0 9).toNat + 1
       let cols := ((s.x a).extractLsb' 9 9).toNat + 1
       let n := ((rows + 31) / 32) * ((cols + 31) / 32)
       n ≤ s.freeBlocks s.cpu.cluster →
       Completes (.fwctlNew h a b r) s (fun t =>
         ∃ o, t.objects = s.objects ++ [o] ∧ (t.x h = if h = 0 then 0 else o.handle) ∧ (∀ q, q ≠ h → t.x q = s.x q) ∧
           o.handle = handleOf s.cpu.ctx (c.serial + 1) s.chipId false ∧ o.ctx = s.cpu.ctx ∧ o.rows = rows ∧ o.cols = cols ∧
           o.prio = ((s.x a).extractLsb' 18 3).toNat ∧ o.pinned = (s.x a).getLsbD 21 ∧ o.nextUse = (s.x b).setWidth 32 ∧
           o.next = 0 ∧ o.snap = false ∧ o.place = .cluster s.cpu.cluster ∧ o.blocks.length = n ∧
           (∀ id ∈ o.blocks, ∃ x ∈ t.blocks, x.id = id ∧ x.cluster = s.cpu.cluster ∧ x.refs = 1 ∧
             x.data = Vector.replicate 32 0 ∧ x.poison = false) ∧
           (∀ x ∈ s.blocks, x ∈ t.blocks) ∧ SameMemory s t)) ∧
  (∀ (h a b : BitVec 5) (r : BitVec 3) (o : FwObject) (s : State), s.InOrder → VectorReady r [] s →
     let same (t : State) : Prop := (∀ q, t.x q = s.x q) ∧ t.cpu.pc = (s.cpu.flowTo (s.cpu.pc + 4)).pc ∧ SameMemory s t
     (s.validObject (s.x a) = some o → o.isHere s.cpu.cluster = true → s.Grants false (s.x a) →
       s.directoryFull s.cpu.ctx 1 = false → ∀ c, s.context s.cpu.ctx = some c →
       let shares (snap : Bool) (t : State) : Prop :=
         let n := handleOf s.cpu.ctx (c.serial + 1) s.chipId snap
         (s.object n = none → ∃ q, t.object n = some q ∧ q.snap = snap ∧ q.ctx = o.ctx ∧ q.rows = o.rows ∧ q.cols = o.cols ∧
           q.next = o.next ∧ q.blocks = o.blocks ∧ q.place = o.place ∧ q.move = .none ∧ q.holds = []) ∧
         (t.x h = if h = 0 then 0 else n) ∧ (∀ x, x ≠ h → t.x x = s.x x) ∧
         (o.blocks.Nodup → ∀ id ∈ o.blocks, ∀ x ∈ s.blocks, x.id = id → { x with refs := x.refs + 1 } ∈ t.blocks) ∧
         (∀ x ∈ s.blocks, x.id ∉ o.blocks → x ∈ t.blocks) ∧ OthersKept s t n ∧ SameMemory s t
       Completes (.fwsnapSnap h a r) s (shares true) ∧ Completes (.fwsnapFork h a r) s (shares false)) ∧
     (∀ p, s.validObject (s.x h) = some o → s.validObject (s.x a) = some p → o.snap = false → p.snap = true →
       o.isHere s.cpu.cluster = true → p.isHere s.cpu.cluster = true → s.Grants true (s.x h) → s.Grants false (s.x a) →
       o.rows = p.rows → o.cols = p.cols →
       Completes (.fwsnapRollback h a r) s (fun t =>
         (∃ q, t.object (s.x h) = some q ∧ q.blocks = p.blocks ∧ q.next = p.next ∧ q.rows = o.rows ∧ q.holds = []) ∧
         OthersKept s t (s.x h) ∧ same t)) ∧
     (s.validObject (s.x h) = some o → s.Grants true (s.x h) → Completes (.fwsnapFree h r) s (fun t =>
       t.objects = s.objects.filter (fun q => q.handle != s.x h) ∧
       (o.blocks.Nodup → ∀ x ∈ s.blocks, x.id ∈ o.blocks → x.refs = 1 → x ∉ t.blocks) ∧
       (∀ x ∈ s.blocks, x.id ∉ o.blocks → x ∈ t.blocks) ∧ same t)) ∧
     (s.validObject (s.x h) = some o → s.Grants true (s.x h) → migOk s (s.x a) = true →
       let v := s.x a
       (o.isAt v = true → Completes (.fwmig h a r) s (fun t => (∃ q, t.object (s.x h) = some q ∧ q.place = o.place ∧
         t.contents q = s.contents o) ∧ OthersKept s t (s.x h) ∧ same t)) ∧
       (o.isAt v = false → (∀ c k, o.place ≠ .chip c k) → (∀ x ∈ s.contents o, x.2 = false) →
         let goes (place : ObjPlace) (t : State) : Prop :=
           (∃ q, t.object (s.x h) = some q ∧ q.place = place ∧ q.move = .none ∧ q.holds = [] ∧ q.rows = o.rows ∧ q.cols = o.cols ∧
             q.next = o.next ∧ ((∀ c k, place ≠ .chip c k) → t.contents q = s.contents o)) ∧ OthersKept s t (s.x h) ∧ same t
         (migKind v = 0 → o.nb ≤ s.freeBlocks (migCluster v) → Completes (.fwmig h a r) s (goes (.cluster (migCluster v)))) ∧
         (migKind v = 1 → Completes (.fwmig h a r) s (fun t => goes (.chip (migChip v) (migCluster v)) t ∧ t.outbox = s.outbox ++
           [.object (migChip v) (s.x h) (migCluster v) o.attr o.next o.nextUse ((s.contents o).map (fun x => x.1))])) ∧
         (migKind v = 2 → s.imageFits o = true → Completes (.fwmig h a r) s (goes .image)))) ∧
     ∀ p z, s.validObject (s.x h) = some o → s.validObject (s.x a) = some p → s.validObject (s.x (a + 1)) = some z → o.snap = false →
       (∀ q ∈ [o, p, z], q.isHere s.cpu.cluster = true ∧ q.rows = o.rows ∧ q.cols = o.cols ∧
         keyHandle s.cpu.ctx (handleKey q.handle) = q.handle ∧ ∀ id ∈ q.blocks, (s.block id).poison = false) →
       s.Grants true (s.x h) → s.Grants false (s.x a) → s.Grants false (s.x (a + 1)) →
       s.sharedAmong o (List.range o.nb) ≤ s.freeBlocks s.cpu.cluster →
       Completes (.fwavg h a b r) s (fun t => (∃ q, t.object (s.x h) = some q ∧ q.holds = [] ∧ q.next = o.next ∧ q.place = o.place ∧
         ∀ k i j, k < o.nb → i < 32 → j < 32 →
           let at0 (y : FwObject) : Lane := lane (tileRow (s.block (y.blocks.getD k 0)).data i) j
           lane (tileRow (t.block (q.blocks.getD k 0)).data i) j =
             if 32 * (k / o.nbc) + i < o.rows ∧ 32 * (k % o.nbc) + j < o.cols then
               fmaVal (val32 ((s.x b).setWidth 32)) (val32 (at0 p)) (rn32 ((val32 ((s.x b).extractLsb' 32 32)).mul (val32 (at0 z))))
             else at0 o) ∧
         OthersKept s t (s.x h) ∧ same t)) ∧
  (∀ (v : Word) (o : FwObject) (s : State), s.InOrder →
     (s.object v = some o → o.move = .evicting → Completes (.stateEviction v) s (fun t =>
       (∃ q, t.object v = some q ∧ q.place = .image ∧ q.move = .none ∧ q.blocks = [] ∧ q.image = s.contents o ∧ q.next = o.next) ∧
       OthersKept s t v ∧ t.cpu = s.cpu ∧ SameMemory s t)) ∧
     (s.object v = some o → o.move ≠ .evicting → o.holds = [] → ∀ cl rest,
       let asked : State := s.updObject v (fun q => { q with want := cl :: rest })
       (∀ c k, o.place ≠ .chip c k) → (o.place ≠ .cluster cl → o.nb ≤ s.freeBlocks cl) →
       Completes (.statePageIn v) asked (fun t =>
         (∃ q, t.object v = some q ∧ q.place = .cluster cl ∧ q.move = (if rest = [] then .none else .moving) ∧ q.want = rest ∧
           t.contents q = s.contents o ∧ q.next = o.next) ∧ OthersKept s t v ∧ t.cpu = s.cpu ∧ SameMemory s t)) ∧
     (s.object v = some o → o.move ≠ .evicting → o.holds = [] → o.asked = false → ∀ c k cl rest, o.place = .chip c k →
       let asked : State := s.updObject v (fun q => { q with want := cl :: rest })
       Completes (.statePageIn v) asked (fun t =>
         t = { asked.updObject v (fun q => { q with asked := true, move := .moving }) with outbox := s.outbox ++ [.fetch c v cl] })) ∧
     (∀ (h : BitVec 5) (r : BitVec 3) (w : Cmd) (i id : Nat), s.cpu.headOf .state = some i → s.cpu.pending[i]? = some w →
       s.mayStart i = true → w.instr = .fwsnapFree h r → w.started = true → w.progress = 0 → w.hold = some id →
       s.validObject w.op0 = some o → o.holds.contains (id, true) = false →
       let q : HoldReq := ⟨id, [], [w.op0]⟩
       s.holdReqs.find? (fun q => q.id == id) = some q →
       (s.grantable q = true → Completes .stateHoldGrant s (fun t =>
         t = { s with
           cpu := { s.cpu with pending := s.cpu.pending.set i w }
           holdReqs := s.holdReqs.filter (fun q => q.id != id)
           holdClock := s.holdClock + 1
           objects := s.objects.map (fun p =>
             if p.handle = w.op0 then { p with holds := p.holds ++ [(id, true)], lastHeld := s.holdClock } else p) })) ∧
       (s.grantable q = false → exec .stateHoldGrant s = .next s)) ∧
     ∀ (attr : Word) (cl : Nat) (next use : BitVec 32) (rows : List (BitVec 1024)),
       (∀ o, s.object v = some o → ∃ c k, o.place = .chip c k) → (s.context (v.extractLsb' 0 16).toNat).isSome = true →
       let n := ((attrRows attr + 31) / 32) * ((attrCols attr + 31) / 32)
       n ≤ s.freeBlocks cl →
       Completes (.migratedObjectArrival v cl attr next use rows) s (fun t =>
         (∃ q, t.object v = some q ∧ q.place = .cluster cl ∧ q.ctx = (v.extractLsb' 0 16).toNat ∧ q.rows = attrRows attr ∧
           q.cols = attrCols attr ∧ q.prio = attrPrio attr ∧ q.pinned = attr.getLsbD 21 ∧ q.snap = v.getLsbD 40 ∧ q.next = next ∧
           q.nextUse = use ∧ t.contents q = shapedBlocks (attrRows attr) (attrCols attr) (tilesOf rows n)) ∧
         OthersKept s t v ∧ t.cpu = s.cpu ∧ SameMemory s t))

/-- An update of a resident object, whose descriptor decodes, whose chunk is the object's next and whose hold is granted at
once: each block column gets its new elements by its kind (raw, delta or Hebbian, faded where the kind fades), from the values
of the arrays and the u and λ formed once, the chunked kinds add 1 to next, the kinds with an output write Y from the old or the
new column, and nothing else changes; a chunk out of turn traps with cause 8. Where Y lies over an array that is read for every
block column, only an object of one such column is covered (R201, R203, R205 to R210). Between the lines of these rules the
model's own reading or choice stands (assumption logs 4 and 66). -/
def Obligations.UpdatesFollowTheirDescriptor : Prop :=
  ∀ (h a b : BitVec 5) (r : BitVec 3) (o : FwObject) (d : BitVec 256) (s : State), s.InOrder → VectorReady r [] s →
    s.validObject (s.x h) = some o → o.isHere s.cpu.cluster = true → (∀ id ∈ o.blocks, (s.block id).poison = false) →
    let updates (i : Instr) (k : Upd) : Prop :=
      readDesc s k o (s.x a) = .ok d → (k.v = true → o.snap = false ∧ s.sharedAmong o (List.range o.nb) ≤ s.freeBlocks s.cpu.cluster) → s.Grants k.v (s.x h) →
      s.spBlocked ((readRows k d o).flatMap Rows.runs) = false → s.spPoisoned ((readRows k d o).flatMap Rows.runs) = none →
      (o.nbc = 1 ∨ k.y = false ∨ ∀ x ∈ (readRows k.columns d o).flatMap Rows.runs, ∀ y ∈ (yRows d o).runs, ∀ i j,
        i < x.2 → j < y.2 → (x.1 + i) % 2 ^ 22 ≠ (y.1 + j) % 2 ^ 22) →
      ((k.beta = true → s.x b = o.next.setWidth 64) →
        let inputs := updInputs s k d o (if k.v then updForms s k d o else [])
        let column (q : Nat) : List Tile := (List.range o.nbr).map (fun p => (s.block (o.blocks.getD (p * o.nbc + q) 0)).data)
        let new (q : Nat) : List Tile × List (List Lane) := updColumn k inputs o q (column q)
        Completes i s (fun t =>
          (∃ z, t.object (s.x h) = some z ∧ z.next = (if k.beta then o.next + 1 else o.next) ∧ z.holds = o.holds ∧
            z.place = o.place ∧ (k.v = true → ∀ p q, p < o.nbr → q < o.nbc →
              (t.block (z.blocks.getD (p * o.nbc + q) 0)).data = (new q).1.getD p zeroTile) ∧
            (k.v = false → z.blocks = o.blocks)) ∧
          (k.v = false → t.blocks = s.blocks) ∧ OthersKept s t (s.x h) ∧
          t.sp = (if k.y then ((List.range o.nbc).foldl (fun u q => writeY d o q (new q).2 u) s).sp else s.sp) ∧ t.mem = s.mem ∧
          t.cpu = s.cpu.flowTo (s.cpu.pc + 4))) ∧
      (k.beta = true → s.x b ≠ o.next.setWidth 64 → s.cpu.handler = false → s.cpu.thandler ≠ 0 →
        Completes i s (fun t => t.cpu.tcause = 8 ∧ t.cpu.tval = s.x b ∧ t.cpu.handler = true ∧ t.blocks = s.blocks ∧
          t.sp = s.sp))
    updates (.opu h a r) ⟨false, true, true, false, false, false, false⟩ ∧
    updates (.fwfwd h a r) ⟨true, false, false, true, false, false, false⟩ ∧
    updates (.fwupdD h a b r) ⟨false, true, true, false, true, true, false⟩ ∧
    updates (.fwupdH h a b r) ⟨false, true, true, false, true, false, false⟩ ∧
    updates (.fwupdE h a b r) ⟨false, true, true, false, true, false, false⟩ ∧
    updates (.fwfuD h a b r) ⟨true, true, true, true, true, true, false⟩ ∧
    updates (.fwfuDl h a b r) ⟨true, true, true, true, true, true, true⟩ ∧
    updates (.fwfuH h a b r) ⟨true, true, true, true, true, false, false⟩ ∧
    updates (.fwfuHl h a b r) ⟨true, true, true, true, true, false, true⟩ ∧
    updates (.fwfuE h a b r) ⟨true, true, true, true, true, false, false⟩

/-- cparm arms a checked schedule on a free engine of the die, with its serial raised, and rd gets the copy id; cpstep releases
and raises the stage counter to at most 255; cpstat gives the status word; cpcancel frees the engine, wakes its context and
gives the index of the first entry not completed. An id of another context traps with cause 5, and an old id gives 255 to cpstep
and 0 to the others (R243, R253 to R256, R372). An engine goes to the request served next, and a copy node's request then arms
its schedule; an entry whose stage is below the counter starts, after its predecessor's completion or, without the wait bit,
after its last beat; a lookup reads its word of the scratchpad; the oldest entry whose bytes are written completes with its
full, word and bar actions in order, also when a later one has met a fault, and the next one follows or the schedule retires; a
fault then stops the schedule with its cause and a cancelled one retires; a refresh owed changes nothing (R243, R249, R250,
R252, R253, R257, R258, R261, R351). Between the lines of these rules the model's own reading or choice stands (assumption logs
14, 27, 49 and 70). -/
def Obligations.CopyEngines : Prop :=
  (∀ (b a d : BitVec 5) (r : BitVec 3) (s : State), s.cpu.executes r = true → s.cpu.ready [d, a, b] = true →
     let id := s.x a
     let n := (s.x b).toNat
     (∀ es s1, s.firingWaits s.cpu.firing = false → (s.x a).toNat < 2 ^ 40 → (s.x a).extractLsb' 24 8 = 0 → (s.x a).extractLsb' 0 6 = 0 →
       readSched (s.copyArea s.cpu.firing).1 (s.copyArea s.cpu.firing).2 256 ((s.x a).extractLsb' 0 24).toNat none [] s = .ok es s1 →
       schedTotal es < 2 ^ 47 →
       let w : CopyWait := ⟨some s1.cpu.id, s1.cpu.firing, s1.cpu.die, s1.cpu.cls = 0, none⟩
       let arms (e : Nat) (t : State) : Prop :=
         let serial := (((s1.copier e).map (fun c => c.serial)).getD 0 + 1) % 2 ^ 24
         (t.x d = if d = 0 then 0 else BitVec.ofNat 64 (e + 256 * serial)) ∧
         t.copyWaits = s1.copyWaits.filter (fun w => w.cell != some s1.cpu.id) ∧
         (∃ q, t.copier e = some q ∧ q.serial = serial ∧ q.ctx = s1.cpu.ctx ∧ q.firing = s1.cpu.firing ∧ q.cell = some s1.cpu.id ∧
           q.cluster = s1.cpu.cluster ∧ q.entries = es ∧ q.state = .waiting ∧ q.pos = 0 ∧
           q.counter = ((s.x a).extractLsb' 32 8).toNat ∧ q.base = s1.x b ∧ q.done = 0 ∧ q.tbl = [] ∧ q.fault = none ∧ q.closing = []) ∧
         (∀ n, n ≠ e → t.copier n = s1.copier n) ∧
         (∀ q, q ≠ d → t.x q = s1.x q) ∧ t.cpu.pc = (s1.cpu.flowTo (s1.cpu.pc + 4)).pc ∧ t.mem = s1.mem ∧ t.sp = s1.sp
       (s1.copyWaitOf = none → s1.cpu.eager = true →
         ({ s1 with copyWaits := s1.copyWaits ++ [w] } : State).nextCopyWait s1.cpu.die = some w →
         s1.freeEngines s1.cpu.die (s1.cpu.cls = 0) ≠ [] →
         Completes (.cparm b a d r) s (fun t => ∃ e ∈ s1.freeEngines s1.cpu.die (s1.cpu.cls = 0), arms e t)) ∧
       ∀ v e, s1.copyWaitOf = some v → v.granted = some e → Completes (.cparm b a d r) s (arms e)) ∧
     ((s.x a).extractLsb' 0 6 ≠ 0 → exec (.cparm b a d r) s = .next (s.trap 1 (s.x a))) ∧
     (∀ c, s.copyRef id = .current c →
       (n ≤ 255 → s.cpu.memoryQuiet = true → s.releaseWaits 4 = false → Completes (.cpstep b a d r) s
         (WroteX ((s.release 4).setCopier { c with counter := min (c.counter + n) 255 }) d
           (BitVec.ofNat 64 (min (c.counter + n) 255)))) ∧
       Completes (.cpstat a d r) s (WroteX s d c.status) ∧
       Completes (.cpcancel a d r) s (fun t => WroteX ((s.setCopier c.free).wakeCtx c.ctx) d (BitVec.ofNat 64 c.firstOpen) t ∧
         ∃ e, t.copier c.engine = some e ∧ e.state = .retired ∧ e.serial = c.serial)) ∧
     (s.copyRef id = .foreign →
       exec (.cpstat a d r) s = .next (s.trap 5 id) ∧ exec (.cpcancel a d r) s = .next (s.trap 5 id) ∧
       (n ≤ 255 → exec (.cpstep b a d r) s = .next (s.trap 5 id))) ∧
     (s.copyRef id = .old → Completes (.cpstat a d r) s (WroteX s d 0) ∧ Completes (.cpcancel a d r) s (WroteX s d 0) ∧
       (n ≤ 255 → s.cpu.memoryQuiet = true → s.releaseWaits 4 = false →
         Completes (.cpstep b a d r) s (WroteX (s.release 4) d 255))) ∧
     (255 < n → exec (.cpstep b a d r) s = .next (s.trap 1 (s.x b)))) ∧
  (∀ (engine : Nat) (c : Copier) (s : State),
     (∀ w die, s.nextCopyWait die = some w → s.freeEngines die w.urgent ≠ [] → (∀ x ∈ s.copyWaits, x.cell = none → x.granted = none) →
       let granted (e : Nat) : List CopyWait :=
         s.copyWaits.map (fun x => if x.cell = w.cell && x.firing = w.firing then { x with granted := some e } else x)
       (w.cell.isSome = true → Completes (.copyEngineGrant die) s (fun t =>
         ∃ e ∈ s.freeEngines die w.urgent, t = { s with copyWaits := granted e, fresh := s.fresh + 1 })) ∧
       ∀ f g es, w.cell = none → (∀ x ∈ s.copyWaits, x.cell = none → x.firing = w.firing → x = w) → s.copyWaits.Nodup →
         s.firing w.firing = some f → f.id = w.firing → s.graph f.graph = some g → s.graphWaits g = false →
         s.ctxWaits g.ctx (s.copyArea f.id).1 (s.copyArea f.id).2 = false →
         nodeSched s g.ctx (s.copyArea f.id).1 (s.copyArea f.id).2 256 (s.node g f.node 80 4) none [] = some es →
         schedTotal es < 2 ^ 47 →
         Completes (.copyEngineGrant die) s (fun t => t.copyWaits = s.copyWaits.filter (fun x => x != w) ∧ SameMemory s t ∧
           ∃ e ∈ s.freeEngines die w.urgent, ∃ q, t.copier e = some q ∧ q.firing = f.id ∧ q.cell = none ∧ q.entries = es ∧
             q.state = .waiting ∧ q.pos = 0 ∧ q.counter = s.node g f.node 84 1 ∧ q.base = s.copyNodeBase g f ∧
             ∀ n, n ≠ e → t.copier n = s.copier n)) ∧
     (s.copier engine = some c → s.stalled 1 engine = false →
       (c.mayStart = true → Completes (.copyEntryStart engine) s (fun t => t = { s with copiers := t.copiers } ∧
         t.copier engine = some { c with
           state := .running
           done := 0
           tbl := []
           poison := none
           runs := []
           lines := []
           acted := false })) ∧
       (c.mayStart = false → c.mayOvertake = true → Completes (.copyEntryStart engine) s (fun t =>
         t = { s with copiers := t.copiers } ∧ ∃ q, t.copier engine = some q ∧ q.state = .running ∧ q.pos = c.after ∧ q.done = 0 ∧
           q.closing = c.closing ++ [⟨c.pos, c.done, c.poison, c.runs, c.lines, c.acted⟩]))) ∧
     (s.copying engine = some c →
       let e := c.entry
       let k := c.tbl.length
       let o := (e.stride e.side e.dim + 4 * (k % e.cnt e.dim)) % 2 ^ 22
       (k < e.lookups → k ≤ e.lookup (c.done / e.cnt 0) + e.ahead → s.holdsWindow c.firing c.cluster o = true →
         s.holdsWindow c.firing c.cluster ((o + 3) % 2 ^ 22) = true → spLineNo c.cluster o ∉ s.spEmpty →
         poisonedIn s.spPoison (spKey c.cluster o) 4 = false →
         Completes (.copyIndexLookup engine) s (fun t => t = { s with copiers := t.copiers } ∧
           t.copier engine = some { c with tbl := c.tbl ++ [readLE s.sp (spKey c.cluster o) 4] }))) ∧
     (s.completing engine = some c →
       (c.written = true → c.cell.isSome = true → c.oldest.poison = none →
         let x := c.oldest
         let w := x.ext.at 8 8
         let cl := if w.testBit 40 then c.cluster else w / 2 ^ 32 % 128
         let puts : Prop := x.entry.word = true ∧ x.acted = false
         let fills : Prop := x.entry.full = true ∧ x.acted = false
         let goes (t : State) : Prop := ∃ q, t.copier engine = some q ∧
           (c.closing = [] → (c.entry.last = true → q.state = .retired) ∧
             (c.entry.last = false → q.pos = c.after ∧ q.counter = c.counter ∧ (q.state = .waiting ∨ q.state = .running))) ∧
           ∀ y rest, c.closing = y :: rest → q.closing = rest ∧ q.pos = c.pos ∧ q.done = c.done ∧ q.state = c.state
         (puts → s.holdsWindow c.firing cl (w % 2 ^ 22) = true) →
         (x.entry.bar = false → Completes (.copyEntryComplete engine) s (fun t =>
           (∀ l, l ∈ t.spEmpty ↔ l ∈ s.spEmpty ∧ (fills → l ∉ x.lines)) ∧ (∀ q, readByte t.mem q = readByte s.mem q) ∧
           (¬ puts → t.sp = s.sp) ∧
           (puts → t.sp = writeLE s.sp (spKey cl (w % 2 ^ 22)) 8 (x.ext.at 16 8)) ∧ t.subtractions = s.subtractions ∧ goes t)) ∧
         ∀ p leaf u,
           let va : Word := BitVec.ofNat 64 (x.ext.at 0 8)
           let z : State := if x.acted then s else { s with
             spEmpty := if x.entry.full then s.spEmpty.filter (fun l => !x.lines.contains l) else s.spEmpty
             sp := if x.entry.word then writeLE s.sp (spKey cl (w % 2 ^ 22)) 8 (x.ext.at 16 8) else s.sp
             spPoison := if x.entry.word then healed s.spPoison (spKey cl (w % 2 ^ 22)) 8 else s.spPoison }
           x.entry.bar = true → engineXlat x va .write z = .ok p leaf u → isSync p.pa = true →
           Completes (.copyEntryComplete engine) s (fun t =>
             t.subtractions = u.subtractions ++ [⟨u.key p, x.entry.total, x.ctx, x.runs, u.copyUrgent x⟩] ∧ goes t))) ∧
     (∀ cause addr, s.copier engine = some c → c.fault = some (cause, addr) → c.cell.isSome = true → c.closing = [] →
       (c.state = .running ∨ c.state = .waiting → Completes (.copyFault engine) s (fun t =>
         t.copier engine = some { c with state := .faulted, cause := cause, fault := none, poison := none } ∧ t.sp = s.sp ∧
         ∀ q, t.x q = s.x q)) ∧
       (c.state = .cancelling ∨ c.state = .faulted ∨ c.state = .retired → exec (.copyFault engine) s = .next s)) ∧
     (s.copier engine = some c → c.state = .cancelling → Completes (.copyCancelDrain engine) s (fun t =>
       t.copier engine = some c.free ∧ SameMemory s t ∧ t.cpu.x = s.cpu.x)) ∧
     Completes .refreshOwed s (fun t => t = s))

/-- nbmode passes a pseudo-channel at rest to a mode at once, where no request that waited for it waits still, or gives 1 on a
page of another kind and 4 where another context owns it; the end of the transition that it has begun gives 0; nbcmd gives 1 to
5 with its status in nbstat, in that order of the checks, or queues its command at its banks, which an eager cell's banks
execute at once, and gives 0; nbfence gives and keeps nbstat once the cell's commands are over and, with bytes to publish, its
earlier reads, and drops the cell's lines of compute-capable pages (R292, R296, R299 to R301, R303, R319, R374). A bank takes
its oldest command: MAC adds its sixteen products to a result register, LOAD and FOUNTAIN fill an operand register from the row
or from the beat, ZERO clears a run of results and STORE writes eight of them to the burst, but for bytes of a running graph's
record (R320); other registers and bytes stay. A channel enters and leaves a compute mode when it may, a request that has waited
2 µs forces it out of all-bank mode without the commands of its queues, but for one that a bank has begun, and a refresh that
falls due is postponed, up to eight, and then served, in all-bank mode at every bank, and changes no register (R292, R294, R295,
R297). Between the lines of these rules the model's own reading or choice stands (assumption logs 4, 28, 49, 71 and 72). -/
def Obligations.RillUnits : Prop :=
  (∀ (b a d : BitVec 5) (r : BitVec 3) (p : Place) (leaf : Word) (s s1 : State),
     s.cpu.executes r = true → s.cpu.ready [d, a, b] = true →
     let key := s1.key p
     let ch := s1.chanAt key
     let mine : Prop := ch.owner = some s1.cpu.ctx
     let cc : Prop := leaf.getLsbD 6 = true
     (translateHome s (s.x a) .read = .ok p leaf s1 → ∀ m : Fin 3, (s.x b).toNat = m.val →
       let mode := modeOf m.val
       let ends (v : Word) : Prop := Completes (.nbmode b a d r) s (WroteX (s1.upd (fun c => { c with nbBegun := false })) d v)
       (¬ cc → ends 1) ∧
       (cc → s1.cpu.nbBegun = true → ch.next = none ∨ ¬ mine → ends 0) ∧
       (cc → s1.cpu.nbBegun = false → (ch.mode ≠ .ordinary ∨ ch.next.isSome = true) → ¬ mine → ends 4) ∧
       (cc → ch.next = none → ch.mode = mode → (ch.mode ≠ .ordinary → mine) → ends 0) ∧
       (cc → ch.next = none → ch.mode ≠ mode → (ch.mode ≠ .ordinary → mine) → s1.cpu.nbBegun = false → s1.cpu.eager = true →
         (ch.mode = .ordinary → s1.inFlightTo ch = false) →
         (ch.mode ≠ .ordinary → ch.drained = true ∧ (mode = .allBank → ch.owed.any s1.owedLive = false)) →
         Completes (.nbmode b a d r) s (fun t =>
           (t.x d = 0) ∧ (∀ q, q ≠ d → t.x q = s1.x q) ∧ (t.chanAt key).mode = mode ∧ (t.chanAt key).next = none ∧
           (mode ≠ .ordinary → (t.chanAt key).owner = some s1.cpu.ctx) ∧ (mode = .ordinary → (t.chanAt key).owner = none) ∧
           t.mem = s1.mem ∧ t.cpu.pc = (s1.cpu.flowTo (s1.cpu.pc + 4)).pc))) ∧
     (2 < (s.x b).toNat → exec (.nbmode b a d r) s = .next (s.trap 1 (s.x b))) ∧
     (let w := s.x a
       let va := s.x b
       let op := rillOp w
       let off := va.toNat % 2 ^ 21
       (rillSound w = false → exec (.nbcmd b a d r) s = .next (s.trap 1 w)) ∧
       (rillSound w = true → va.toNat % 32 ≠ 0 → exec (.nbcmd b a d r) s = .next (s.trap 3 va)) ∧
       (rillSound w = true → va.toNat % 32 = 0 → translateHome s va (if op = 4 then .write else .read) = .ok p leaf s1 →
         let inside : Prop := off + rillLength op ≤ 2 ^ 21
         let compute : Prop := ch.mode ≠ .ordinary ∧ ch.next = none ∧ (ch.mode = .singleBank → op ≠ 2)
         let target (j : Nat) : Prop := ch.mode = .allBank ∨ j = off / 1024 % 16
         let room : Prop := ∀ j, j < 16 → target j → (ch.bank j).queue.length < 32
         let turn : Prop := (op = 4 → s1.cpu.readsPending = false) ∧
           (op = 2 → s1.cpu.outside (rillSpoff w) 512 = none ∧ s1.cpu.rangesBusy [rangeOf false [(rillSpoff w, 512)]] = false ∧
             s1.spBlocked [(rillSpoff w, 512)] = false ∧ s1.spPoisoned [(rillSpoff w, 512)] = none)
         let fails (n : Nat) : Prop := Completes (.nbcmd b a d r) s (WroteX (s1.upd (fun c => { c with
           nbstat := (c.nbstat &&& ~~~0xFF00#64) ||| 1 ||| BitVec.ofNat 64 (256 * n) })) d (BitVec.ofNat 64 n))
         (¬ cc → fails 1) ∧ (cc → ¬ inside → fails 2) ∧ (cc → inside → ¬ compute → fails 3) ∧
         (cc → inside → compute → ¬ mine → fails 4) ∧ (cc → inside → compute → mine → turn → ¬ room → fails 5) ∧
         (cc → inside → compute → mine → turn → room → s1.cpu.eager = true → Completes (.nbcmd b a d r) s (fun t =>
           t.x d = 0 ∧ (∀ q, q ≠ d → t.x q = s1.x q) ∧ t.sp = s1.sp ∧ t.cpu.pc = (s1.cpu.flowTo (s1.cpu.pc + 4)).pc)) ∧
         (cc → inside → compute → mine → turn → room → s1.cpu.eager = false →
           Completes (.nbcmd b a d r) s (fun t =>
             t.x d = 0 ∧ (∀ q, q ≠ d → t.x q = s1.x q) ∧ t.cpu.nbstat = s1.cpu.nbstat ∧
             (∀ j, j < 16 → (target j →
               ((t.chanAt key).bank j).queue = (ch.bank j).queue ++ [⟨s1.cpu.id, s1.cpu.firing, w, some va.toNat,
                 key - off + off / 2 ^ 14 * 2 ^ 14, off / 32 % 32,
                 if op = 2 then BitVec.ofNat 256 (s1.spRead (rillSpoff w + 32 * j) 32) else 0, false⟩]) ∧
               (¬ target j → (t.chanAt key).bank j = ch.bank j)) ∧
             SameMemory s1 t ∧ t.cpu.pc = (s1.cpu.flowTo (s1.cpu.pc + 4)).pc)))) ∧
     (s.rillPending = false → (∀ x ∈ s.ccLines, x.dirty ≠ 0 → s.homeWaits (lineKey s.fuses x.no) = false) →
       (s.cpu.readsPending = true → ∀ x ∈ s.ccLines, x.dirty = 0) → Completes (.nbfence d r) s (fun t =>
         (t.x d = if d = 0 then 0 else s.cpu.nbstat &&& 0x3F) ∧ (∀ q, q ≠ d → t.x q = s.x q) ∧ t.cpu.nbstat = s.cpu.nbstat ∧
         (∀ x ∈ t.cpu.l1, inReserve s.fuses (lineKey s.fuses x.no) = false) ∧ t.sp = s.sp ∧
         t.cpu.pc = (s.cpu.flowTo (s.cpu.pc + 4)).pc)) ∧
     (s.rillPending = true → exec (.nbfence d r) s = .next s)) ∧
  (∀ (stack chan bank : Nat) (c : Channel) (s : State), s.channel (stack, chan) = some c →
     (∀ (x : RillCmd) (rest : List RillCmd), bank < 16 → (c.bank bank).queue = x :: rest → x.read = false → s.MemOk →
       let k := c.bank bank
       let w := x.word
       let key := x.burstKey bank
       let leaves (j : Bank) (t : State) : Prop := ∃ e, t.channel (stack, chan) = some e ∧ e.bank bank = { j with queue := rest } ∧
         (∀ i, i < 16 → i ≠ bank → e.bank i = c.bank i) ∧ e.mode = c.mode ∧ t.sp = s.sp ∧ t.cpu.pc = s.cpu.pc ∧ t.cpu.x = s.cpu.x
       let sum (k : Bank) : BitVec 32 := (macSum (rillFmt w) k.res[mod64 (rillRes w)] (s.burst key) k.opr[rillOpr w]).1
       (rillOp w = 0 → poisonedIn s.memPoison key 32 = false → Completes (.rillMac stack chan bank) s (fun t => t.mem = s.mem ∧
         leaves { k with res := k.res.set (mod64 (rillRes w)) (sum k) } t)) ∧
       (rillOp w = 1 → poisonedIn s.memPoison key 32 = false → Completes (.rillLoad stack chan bank) s (fun t => t.mem = s.mem ∧
         leaves { k with opr := k.opr.set (rillOpr w) (BitVec.ofNat 256 (readLE s.mem key 32)) } t)) ∧
       (rillOp w = 2 → Completes (.rillFountain stack chan bank) s (fun t => t.mem = s.mem ∧
         leaves { k with opr := k.opr.set (rillOpr w) x.beat } t)) ∧
       (rillOp w = 3 → Completes (.rillZero stack chan bank) s (fun t => t.mem = s.mem ∧ ∃ v : Vector (BitVec 32) 64,
         leaves { k with res := v } t ∧ ∀ i : Fin 64, v[i] =
           if ∃ n, n ≤ rillCnt w ∧ i.val = (rillRes w + n) % 64 then 0 else k.res[i])) ∧
       (rillOp w = 4 → Completes (.rillStore stack chan bank) s (fun t => leaves k t ∧
         (∀ i j, i < 8 → j < 4 → readByte t.mem (key + 4 * i + j) =
           if s.recordHolds (key + 4 * i + j) then readByte s.mem (key + 4 * i + j)
           else (k.res[mod64 (rillRes w + i)]).extractLsb' (8 * j) 8) ∧
         ∀ q, q < key ∨ key + 32 ≤ q → readByte t.mem q = readByte s.mem q))) ∧
     (bank < 16 → Completes (.rillRefreshSlot stack chan bank) s (fun t => SameMemory s t ∧ ∃ e, t.channel (stack, chan) = some e ∧
       e.mode = c.mode ∧ ∀ i, i < 16 → (e.bank i).opr = (c.bank i).opr ∧ (e.bank i).res = (c.bank i).res ∧
         (e.bank i).queue = (c.bank i).queue ∧ (e.bank i).postponed =
           if (c.bank bank).postponed < 8 then (c.bank i).postponed + (if i = bank then 1 else 0)
           else if i = bank ∨ c.mode = .allBank then 0 else (c.bank i).postponed)) ∧
     (∀ m, m ≠ .ordinary → c.next = some m → (c.mode = .ordinary → s.inFlightTo c = false) →
       (c.mode ≠ .ordinary → c.drained = true ∧ (m = .allBank → c.owed.any s.owedLive = false)) →
       Completes (.modeEntryComplete stack chan) s (fun t => SameMemory s t ∧ ∃ e, t.channel (stack, chan) = some e ∧ e.mode = m ∧
         e.next = none ∧ e.owner = c.owner ∧
         (c.mode = .ordinary → c.prev ≠ c.owner → ∀ i, i < 16 → (e.bank i).res = Vector.replicate 64 0) ∧
         (c.mode ≠ .ordinary ∨ c.prev = c.owner → e.banks = c.banks))) ∧
     (c.next = some .ordinary → c.drained = true → Completes (.modeExitComplete stack chan) s (fun t =>
       SameMemory s t ∧ ∃ e, t.channel (stack, chan) = some e ∧ e.mode = .ordinary ∧ e.next = none ∧ e.owner = none ∧
         (c.released = false → e.prev = c.owner ∧ e.banks = c.banks) ∧
         (c.released = true → e.prev = none ∧ ∀ i, i < 16 → (e.bank i).res = Vector.replicate 64 0))) ∧
     ∀ t0, c.mode = .allBank → c.waitSince = some t0 → t0 + 3000 ≤ s.now → Completes (.forcedExit stack chan) s (fun t =>
       (∃ e, t.channel (stack, chan) = some e ∧ e.mode = .ordinary ∧ e.next = none ∧
         ∀ i, i < 16 → (e.bank i).queue = (c.bank i).queue.filter (fun x => x.read)) ∧
       ((∀ i, i < 16 → ∀ x, (c.bank i).queue.head? = some x → rillOp x.word < 4) → SameMemory s t)))

/-- enread reads the figure that its operand names: account, reservation less M, M, refill, window number or class-0 reserve,
the signed ones as 48 bits; an operand above 5 traps with it (R384). -/
def Obligations.EnreadReadsOneFigure : Prop :=
  ∀ (a d : BitVec 5) (r : BitVec 3) (c : Context) (f : Firing) (w : Work) (s : State),
    s.cpu.executes r = true → s.cpu.ready [d, a] = true → s.context s.cpu.ctx = some c → s.workHere = some (f, w) →
    let gives (v : Word) : Prop := Completes (.enread a d r) s (WroteX s d v)
    let signed (v : Int) : Word := (BitVec.ofInt 48 v).signExtend 64
    (s.x a = 0 → gives (signed c.account)) ∧
    (s.x a = 1 → gives (signed (w.reservation - w.metered))) ∧
    (s.x a = 2 → gives (BitVec.ofNat 64 w.metered)) ∧ (s.x a = 3 → gives (BitVec.ofNat 64 c.refill)) ∧
    (s.x a = 4 → gives (BitVec.ofNat 64 s.windowNo)) ∧ (s.x a = 5 → gives (signed s.reserve)) ∧
    (5 < (s.x a).toNat → exec (.enread a d r) s = .next (s.trap 1 (s.x a)))

/-- enest gives the firing's old reservation, sets the new one and moves the difference between it and the account, or the
reserve for class 0; the meters add the weighted activity of running work to its count and the leakage of the cycles for which
its team has occupied cells, and leakage that belongs to no work to the package alone; a window boundary takes the limit set,
refills the reserve and every account, up to its cap, rescales the weights and begins to meter anew; a limit set is at most that
of the grade (R375 to R379, R385). Between the lines of these rules the model's own reading or choice stands (assumption logs 14
and 30). -/
def Obligations.AccountsFollowTheirWindows : Prop :=
  let sat (v : Int) : Int := max (-2 ^ 47) (min v (2 ^ 47 - 1))
  (∀ (a d : BitVec 5) (r : BitVec 3) (s : State), s.cpu.executes r = true → s.cpu.ready [d, a] = true →
    let e := (s.x a).toNat
    (2 ^ 47 ≤ e → exec (.enest a d r) s = .next (s.trap 1 (s.x a))) ∧
    (e < 2 ^ 47 → s.workHere = none → Completes (.enest a d r) s (WroteX s d 0)) ∧
    ∀ f w, e < 2 ^ 47 → s.workHere = some (f, w) → (f.cls ≠ 0 → (s.context f.ctx).isSome = true) →
      Completes (.enest a d r) s (fun t =>
        (t.x d = if d = 0 then 0 else BitVec.ofInt 64 w.reservation) ∧ (∀ q, q ≠ d → t.x q = s.x q) ∧
        t.cpu.pc = (s.cpu.flowTo (s.cpu.pc + 4)).pc ∧
        (∀ c, f.cls ≠ 0 → s.context f.ctx = some c → t.reserve = s.reserve ∧
          ∃ x, t.context f.ctx = some x ∧ x.account = sat (c.account + (w.reservation - e))) ∧
        (f.cls = 0 → t.reserve = sat (s.reserve + (w.reservation - e)) ∧ t.contexts = s.contexts) ∧
        ∃ g v, t.workHere = some (g, v) ∧ v.reservation = e ∧ v.count = w.count ∧ v.staged = w.staged)) ∧
  (∀ s : State, s.now < s.meterTime + 1500 → exec .meterUpdate s = .next s) ∧
  (∀ s : State, s.meterTime + 1500 ≤ s.now → Completes .meterUpdate s (fun t => s.metered ≤ t.metered ∧
    t = { s with meterTime := s.now, leaks := [], metered := t.metered, fresh := t.fresh, firings := t.firings })) ∧
  (∀ (f : Firing) (w : Work) (n : Nat) (s : State), s.meterTime + 1500 ≤ s.now →
    let scaled (raw : Nat) : Nat := raw * s.meterScale.1 / s.meterScale.2
    let leak := scaled (Config.leakage * n)
    let e := leak + scaled (Config.meterEnergy s.fresh)
    (s.firings = [f] → f.works = [w] → f.state = .running → s.leaks = [(f.id, w.team, n)] →
      Completes .meterUpdate s (fun t => t.metered = s.metered + e ∧ t.leaks = [] ∧
        t.firings = [{ f with works := [{ w with count := w.count + e }] }])) ∧
    (s.firings = [f] → f.works = [w] → f.state ≠ .running → s.leaks = [] →
      Completes .meterUpdate s (fun t => t = { s with meterTime := s.now })) ∧
    (∀ id team, s.firings = [] → s.leaks = [(id, team, n)] →
      Completes .meterUpdate s (fun t => t = { s with meterTime := s.now, leaks := [], metered := s.metered + leak })) ∧
    (s.cpu.running = true → (∀ c ∈ s.cells, c.running = false) → s.leaks = [] →
      s.leaksAfter n = [(s.cpu.firing, s.cpu.team, n)])) ∧
  (∀ s : State, s.now < s.windowStart + 1500000 → exec .energyWindowBoundary s = .next s) ∧
  (∀ s : State, s.windowStart + 1500000 ≤ s.now →
    Completes .energyWindowBoundary s (fun t => t.windowNo = s.windowNo + 1 ∧ t.windowStart = s.windowStart + 1500000 ∧
      t.budget = s.budgetNext ∧ t.metered = 0 ∧ t.refillCut = s.metered / 1000000 - s.budget ∧
      (s.metered ≠ 0 → t.meterScale = (s.meterScale.1 * Config.railEnergy s.fresh, s.meterScale.2 * s.metered)) ∧
      (s.metered = 0 → t.meterScale = s.meterScale) ∧
      ((∀ f ∈ s.firings, f.state = .running → ∀ w ∈ f.works, (w.metered : Int) ≤ w.reservation) →
        (s.contexts.map (fun c => c.id)).Nodup →
        t.reserve = sat ((s.budgetNext * s.reservePermille / 1000 : Nat) : Int) ∧
        ∀ c ∈ s.contexts, ∃ x ∈ t.contexts, x.id = c.id ∧
          x.account = sat (min (c.cap : Int) (c.account + ({ s with budget := s.budgetNext } : State).refillOf c))))) ∧
  ∀ (watts : Nat) (s : State), Completes (.pldmPowerLimit watts) s (fun t =>
    t = { s with budgetNext := t.budgetNext } ∧
    t.budgetNext = min (1000 * watts) (if s.fuses.grade = 3 then 2400000 else if s.fuses.grade = 2 then 2700000 else 3000000))

/-- rnext draws the team's next iteration, or gives −1 at its end, and hands a stage member the answer of its boundary; ntoken
stages a token with its tag on a port that has room, and nctx reads a peeked token or the node's summary, each trapping with
cause 0x0A where there is none; ndone releases and counts the member as done, and with the last member of the last team the
firing is over; nfail ends the firing with its code, or with the cause of the last trap for 0. The words wait while the graph
cannot be reached (R340, R341, R344, R345, R346). Between the lines of these rules the model's own reading or choice stands
(assumption log 29). -/
def Obligations.NodeInstructionsActOnTheirFiring : Prop :=
  ∀ (b a d : BitVec 5) (r : BitVec 3) (f : Firing) (g : Graph) (s : State), s.cpu.executes r = true →
    s.cpu.ready [d, a, b] = true → s.here = some (f, g) → s.firingWaits s.cpu.firing = false →
    let v := s.x b
    let p := (v.extractLsb' 0 2).toNat
    let q := s.x a
    let port := (q.extractLsb' 0 2).toNat
    (∀ t, f.team s.cpu.team = some t → s.nodeKind g f.node = 0 →
      (t.cur < t.hi → Completes (.rnext d r) s
        (WroteX (s.setFiring (f.setTeam { t with cur := t.cur + 1 })) d (BitVec.ofNat 64 t.cur))) ∧
      (t.hi ≤ t.cur → Completes (.rnext d r) s (WroteX s d (-1)))) ∧
    ((f.team s.cpu.team = none ∨ (s.nodeKind g f.node ≠ 0 ∧ s.nodeKind g f.node ≠ 2)) → Completes (.rnext d r) s (WroteX s d (-1))) ∧
    (∀ t ok, f.team s.cpu.team = some t → s.nodeKind g f.node = 2 → t.answer = some ok → s.cpu.id ∈ t.waiting →
      let w := t.waiting.filter (fun c => c ≠ s.cpu.id)
      Completes (.rnext d r) s (WroteX ((if ok then s.acquire 4 else s).setFiring (f.setTeam { t with
        waiting := w, answer := if w = [] then none else some ok })) d (if ok then 0 else -1))) ∧
    (∀ w, s.workHere = some (f, w) →
      (v.extractLsb' 2 14 = 0 → v.extractLsb' 17 15 = 0 →
        let used := (w.staged.filter (fun t => t.port = p)).length
        ((s.outEdge g f.node p).isSome = true → used < s.needOut g f.node p → Completes (.ntoken b a r) s
          (fun t => Stepped (s.setFiring (f.setWork { w with staged := w.staged ++ [⟨p, s.x a,
            BitVec.ofNat 64 (s.cpu.ctx % 2 ^ 16 + (v.extractLsb' 32 32).toNat * 2 ^ 16 + (v.getLsbD 16).toNat * 2 ^ 48)⟩] })) t)) ∧
        (s.outEdge g f.node p = none ∨ s.needOut g f.node p ≤ used →
          exec (.ntoken b a r) s = .next (s.trap 0x0A (BitVec.ofNat 64 p)))) ∧
      (q.toNat < 2 ^ 16 →
        let tok := (w.peeked.filter (fun t => t.port = port))[(q.extractLsb' 2 12).toNat]?
        (q.extractLsb' 14 2 = 2 → Completes (.nctx a d r) s (WroteX s d (s.nodeSummary g f.node))) ∧
        (∀ t, tok = some t → (s.inEdge g f.node port).isSome = true →
          (q.extractLsb' 14 2 = 0 → Completes (.nctx a d r) s (WroteX s d t.payload)) ∧
          (q.extractLsb' 14 2 = 1 → Completes (.nctx a d r) s (WroteX s d t.tag))) ∧
        (tok = none → (q.extractLsb' 14 2).toNat < 2 → exec (.nctx a d r) s = .next (s.trap 0x0A q)))) ∧
    (v.extractLsb' 2 14 ≠ 0 ∨ v.extractLsb' 17 15 ≠ 0 → exec (.ntoken b a r) s = .next (s.trap 1 v)) ∧
    (∀ t, f.team s.cpu.team = some t → f.state = .running → s.cpu.pending = [] → s.releaseWaits 4 = false →
      (∃ m ∈ t.cells, m ≠ s.cpu.id ∧ m ∉ t.done) → (∃ u ∈ f.teams, u.id = t.id) →
      Completes (.ndone r) s (fun u => u.cpu.done = true ∧ u.cpu.x = s.cpu.x ∧ u.mem = (s.release 4).mem ∧
        ∃ k w, u.firing f.id = some k ∧ k.team t.id = some w ∧ w.done = t.done ++ [s.cpu.id] ∧ w.cells = t.cells ∧ k.state = f.state)) ∧
    (∀ t, f.teams = [t] → t.id = s.cpu.team → t.leaving = none → f.state = .running → s.cpu.pending = [] → s.releaseWaits 4 = false →
      s.cpu.id ∈ t.cells → (∀ m ∈ t.cells, m ≠ s.cpu.id → m ∈ t.done) →
      Completes (.ndone r) s (fun u => u.firing f.id = none ∧ u.cpu.running = false ∧ u.cpu.firing = 0)) ∧
    (q = 0 → Completes (.nfail a r) s (fun u => u.cpu.running = false ∧ u.faults = s.faults ++
      [⟨s.cpu.firing, s.cpu.id, s.cpu.tcause.toNat, s.cpu.tval, s.cpu.hwLost⟩])) ∧
    (q.toNat < 256 → q ≠ 0 → Completes (.nfail a r) s (fun u => u.cpu.running = false ∧ u.cpu.x = s.cpu.x ∧
      (∀ c ∈ u.cells, c.firing = s.cpu.firing → c.running = false) ∧
      ∃ n, u.faults = s.faults ++ [n] ∧ n.firing = s.cpu.firing ∧ n.cell = s.cpu.id ∧ n.cause = q.toNat ∧ n.tval = 0)) ∧
    (256 ≤ q.toNat → exec (.nfail a r) s = .next (s.trap 1 q))

/-- The graph engine, where it can reach the graph: a node that may fire is armed once, in order, and one that may not is no
longer armed; of the candidates of a die the first that can be placed fires; the first fault whose ring takes its record ends
its running firing and frees its teams, and with none ready the firing only stands; the largest interval splits for a new team;
a waiting stage team gets a set or its end, and a donor team is told to leave; a cone walk cancels the firings of its node,
disarms it and is over; a Retry-pending firing whose delay has passed, or whose lost die is live again, is armed again. A
pre-empted team leaves its cells with its registers saved, a request that completes a waiting WFI or stays pending as a wake
event, and resumed contexts without commands stand as they were saved, at their resume addresses (R328, R333, R338, R339, R344,
R347, R349, R366, R367, R372). Between the lines of these rules the model's own reading or choice stands (assumption logs 2 and
29). -/
def Obligations.TheGraphEngineMovesItsFirings : Prop :=
  ∀ (g : Graph) (f : Firing) (s : State), s.graph g.id = some g → s.firing f.id = some f → s.graphWaits g = false →
    (∀ node ctx, let c := if s.nodeKind g node = 1 then ctx else g.ctx
      node < s.nodeCount g → s.nodeState g node ≤ 1 → s.staleToken g node = none → (s.canFire g node c).isSome = true →
      (∀ a ∈ g.armed, ¬ (a.node = node ∧ a.ctx = c)) → Completes (.nodeArm g.id node ctx) s (fun t =>
        t.firings = s.firings ∧ ∃ h, t.graph g.id = some h ∧ h.armed = g.armed ++ [⟨node, c, s.runClock⟩])) ∧
    (∀ node ctx, let c := if s.nodeKind g node = 1 then ctx else g.ctx
      node < s.nodeCount g → s.nodeState g node ≤ 1 → s.staleToken g node = none → s.canFire g node c = none →
      Completes (.nodeArm g.id node ctx) s (fun t => t.firings = s.firings ∧ ∃ h, t.graph g.id = some h ∧
        h.armed = g.armed.filter (fun a => !(a.node = node ∧ a.ctx = c)))) ∧
    (s.postings = [] → (∀ h ∈ s.graphs, h.armed ≠ [] → s.graphWaits h = false) → ∀ die, (s.candidates die = [] → Completes (.firingDecision die) s (fun t => t = s.setFloor die 0)) ∧
      ∀ c rest u v, s.candidates die = c :: rest → s.floorOf die < 63 → s.tryFire c die = (u, true) → u.graph c.g.id = some v →
        Completes (.firingDecision die) s (fun t => t = (u.settleGraph v).setFloor die
          (if c.cls = 3 ∨ (∀ e ∈ c :: rest, e.cls ≠ 3) then 0 else s.floorOf die + 1))) ∧
    (∀ n, n.firing = f.id → f.graph = g.id → f.state = .running →
      (s.faults.find? s.faultReady = some n → Completes .firingFault s (fun t => t.faults = s.faults.erase n ∧
        ∃ k, t.firing f.id = some k ∧ k.state ≠ .running ∧ k.teams = [] ∧ k.clusters = [])) ∧
      (s.ringTakes f.ctx = false → s.faults = [n] → Completes .firingFault s (fun t => t.faults = [n] ∧
        ∃ k, t.firing f.id = some k ∧ k.state = .running ∧ k.teams = f.teams))) ∧
    (∀ u cluster cells, f.graph = g.id → f.state = .running → s.nodeKind g f.node = 0 → f.largest = some u →
      let mid := u.cur + (u.hi - u.cur + 1) / 2
      mid + s.node g f.node 88 2 ≤ u.hi → (s.node g f.node 52 4).testBit (cluster / 4) = true → s.sectorLive (cluster / 4) = true →
      s.cellsIn g f.node f.id cluster = some cells → Completes (.rangeSplit f.id cluster) s (fun t =>
        ∃ k, t.firing f.id = some k ∧ k.teams = (f.setTeam { u with hi := mid }).teams ++
          [⟨s.runClock, cluster, cells, mid, u.hi, [], [], none, none⟩])) ∧
    (∀ u, f.graph = g.id → f.state = .running → f.team u.id = some u → u.waits = true → u.answer = none → u.cells ≠ [] →
      (s.nextSet f g u = some none → Completes (.stageSetReady f.id u.id) s (fun t =>
        ∃ k w, t.firing f.id = some k ∧ k.team u.id = some w ∧ w.answer = some false)) ∧
      ∀ toks, s.nextSet f g u = some (some toks) → Completes (.stageSetReady f.id u.id) s (fun t =>
        ∃ k w, t.firing f.id = some k ∧ k.team u.id = some w ∧ w.answer = some true ∧
          ∃ x ∈ k.works, x.team = u.id ∧ x.peeked = toks ∧ x.staged = [])) ∧
    (∀ donor recipient h u, s.stageFiring g donor = some f → s.stageFiring g recipient = some h → f.team u.id = some u →
      g.lastMove + 30000 ≤ s.now → s.isDonor g donor = true → s.isRecipient g recipient = true → donor ≠ recipient →
      (∀ i, i < s.nodeCount g → s.isDonor g i = true → s.heldBefore g donor ≤ s.heldBefore g i) →
      (∀ i, i < s.nodeCount g → s.isRecipient g i = true → s.heldBefore g i ≤ s.heldBefore g recipient) →
      u.over = false → u.leaving = none → (s.node g recipient 52 4).testBit (u.cluster / 4) = true →
      (s.setFiring (f.without u)).mayJoin h u = true → Completes (.stageTeamMove g.id donor recipient u.id) s (fun t =>
        ∃ k w, t.firing f.id = some k ∧ k.team u.id = some w ∧ w.leaving = some h.id ∧ SameMemory s t)) ∧
    (∀ node, node ∈ g.walks → Completes (.coneWalk g.id node) s (fun t =>
      (∃ h, t.graph g.id = some h ∧ node ∉ h.walks ∧ ∀ a ∈ h.armed, a.node ≠ node) ∧
      ∀ k ∈ t.firings, k.graph = g.id → k.node = node → k.state = .cancelled)) ∧
    (f.graph = g.id → f.state = .pending →
      ((∃ t0, f.lost = none ∧ f.retryAt = some t0 ∧ t0 ≤ s.now) ∨ ∃ die, f.lost = some die ∧ s.isOffline die = false) →
      Completes (.retryDelayExpiry f.id) s (fun t => (∃ k, t.firing f.id = some k ∧ k.state = .rearmed ∧ k.works = f.works) ∧
        ∃ h, t.graph g.id = some h ∧ h.armed = g.armed ++ [⟨f.node, f.ctx, s.runClock⟩])) ∧
    (∀ team k u, s.teamOf team = some (k, u) → k.state = .running → k.cls ≠ 0 → u.cells.Nodup →
      (∀ id ∈ u.cells, (s.cell id).running = true ∧ (s.cell id).team = team) → s.wantedBy0 k u = true →
      Completes (.preemption team) s (fun t => t.mem = s.mem ∧ ∀ id ∈ u.cells, (t.cell id).running = false ∧
        ∃ c ∈ t.saved, c.id = id ∧ c.preempted = true ∧ c.x = (s.cell id).x ∧ c.hx = (s.cell id).hx ∧ c.v = (s.cell id).v ∧
          c.k = (s.cell id).k ∧ c.m = (s.cell id).m ∧ c.acc = (s.cell id).acc ∧ c.asleep = false ∧
          c.wake = !(s.cell id).asleep ∧ ((s.cell id).handler = false → c.tepc =
            if (s.cell id).asleep then ((s.cell id).flowTo ((s.cell id).pc + 4)).pc else (s.cell id).pc))) ∧
    ∀ team, let kept := s.saved.filter (fun k => k.team = team)
      kept ≠ [] → (kept.map (fun c => c.id)).Nodup →
      (∀ c ∈ kept, (s.cell c.id).running = false ∧ (s.cell c.id).firing = 0 ∧ c.pending = [] ∧
        (c.handler = false → c.replay = []) ∧ (c.handler = true → ∃ h, c.capture = some h ∧ h.cmds = [])) →
      Completes (.preemptionResume team) s (fun t =>
        t.mem = s.mem ∧ t.cpu.id = s.cpu.id ∧ (∀ k ∈ t.saved, k.team ≠ team) ∧ ∀ c ∈ kept,
        let now := t.cell c.id
        now.running = true ∧ now.preempted = false ∧ now.x = c.x ∧ now.hx = c.hx ∧ now.v = c.v ∧ now.k = c.k ∧
        now.m = c.m ∧ now.acc = c.acc ∧ now.loops = c.loops ∧ now.lc = c.lc ∧ now.handler = c.handler ∧ now.team = team ∧
        (c.handler = false → now.pc = c.tepc) ∧ ∀ h, c.handler = true → c.capture = some h → now.pc = h.resume)

/-- The network engine and the queues, once a firmware slot has booted: a send takes a ring entry and posts an event, or leaves
a transport error; a remote write changes its bytes, all of them or, where one may not be written, none; a request of another
kind is refused; a table level is brought back; an idle core takes an event and locks its queue. At the head of a locked queue
each packet has its effect, with a completion, where it asks for one, that is written or waits for the host's ring: INVOKE and
GRAPH launch, IB opens a buffer, FENCE waits for the launches, SIGNAL writes to the host, SLOT_LOAD and SLOT_EVICT fill and free
a slot; a packet error stops its queue (R386 to R388, R390 to R394, R398 to R401, R404). Between the lines of these rules the
model's own reading or choice stands (assumption logs 23, 31, 37, 38, 39, 61 and 74). -/
def Obligations.QueuesRunTheirPackets : Prop :=
  ∀ (pasid queue : Nat) (s : State), s.MemOk →
    (s.up = false → (∀ bytes, exec (.commandMessage pasid queue bytes) s = .next s) ∧
      (∀ va bytes, exec (.rdmaWrite pasid va bytes) s = .next s) ∧ exec (.unsupportedOperation pasid) s = .next s) ∧
    (s.up = true →
    (∀ bytes, (256 < bytes.length → Completes (.commandMessage pasid queue bytes) s (fun t =>
        t = { s with outbox := s.outbox ++ [.refused pasid queue] })) ∧
      (s.arrivals = [] → s.remoteWrites = [] → bytes.length ≤ 256 →
        (s.qcbWalk pasid queue = .refused → Completes (.commandMessage pasid queue bytes) s (fun t =>
          t = { s with outbox := s.outbox ++ [.refused pasid queue] })) ∧
        (∀ key, s.qcbWalk pasid queue = .absent key → Completes (.commandMessage pasid queue bytes) s (fun t =>
          t = { s with arrivals := [⟨pasid, queue, bytes⟩] })) ∧
        (∀ key, s.qcbWalk pasid queue = .held key → Completes (.commandMessage pasid queue bytes) s (fun t =>
          t = { s.stall key with arrivals := [⟨pasid, queue, bytes⟩] })) ∧
        ∀ q u, s.qcbWalk pasid queue = .ok q u → u.qcbFull q = false → u.fwEvents.length < 4096 →
          u.ctxWaits (u.qcbCtx q) (u.ringEntry q (u.qcbTail q)) 256 = false →
          Completes (.commandMessage pasid queue bytes) s (fun t =>
            t.fwEvents = u.fwEvents ++ [(pasid, queue)] ∧ t.arrivals = [] ∧ t.outbox = s.outbox))) ∧
    (∀ c va bytes, s.arrivals = [] → s.remoteWrites = [] → s.pasidContext pasid = some c → s.ctxWaits c.id va bytes.length = false →
      ((∀ i, i < bytes.length → s.writableByte c.id (va + BitVec.ofNat 64 i) = true) →
        Completes (.rdmaWrite pasid va bytes) s (fun t => t = s.ctxLand c.id va bytes)) ∧
      ((∃ i, i < bytes.length ∧ s.writableByte c.id (va + BitVec.ofNat 64 i) = false) →
        exec (.rdmaWrite pasid va bytes) s = .next s) ∧
      ∀ k b, bytes = [b] → s.writableByte c.id va = true → s.ctxKey c.id va = some k →
        Completes (.rdmaWrite pasid va bytes) s (fun t => readByte t.mem k = (if s.recordHolds k then readByte s.mem k else b) ∧
          (∀ q, q ≠ k → readByte t.mem q = readByte s.mem q) ∧ t.sp = s.sp ∧ t.outbox = s.outbox)) ∧
    Completes (.unsupportedOperation pasid) s (fun t => t = { s with outbox := s.outbox ++ [.unsupported pasid] }) ∧
    (∀ key, s.arrivals = [] → s.remoteWrites = [] → s.postings = [] → (s.tableEntry key).getLsbD 0 = true →
      (s.tableEntry key).getLsbD 1 = false → s.homeWaits key = false →
      Completes (.pasidLevelRestore key) s (fun t => readLE t.mem key 8 = (s.tableEntry key ||| 2).toNat ∧
        ∀ a, a < key ∨ key + 8 ≤ a → readByte t.mem a = readByte s.mem a)) ∧
    (∀ r, s.fwEvents = [(pasid, queue)] → s.queueRun pasid queue = some r → r.locked = false → r.disabling = false →
      (s.queues.filter (fun x => x.locked)).length < 12 → s.qcbState r.qcb = 1 ∨ s.qcbState r.qcb = 2 →
      s.homeWaits r.qcb = false → r.sources ≠ [] ∨ s.qcbEmpty r.qcb = false → Completes .firmwareEventTake s (fun t => t.fwEvents = [] ∧
        t.qcbState r.qcb = 2 ∧ t.queueRun pasid queue = some { r with locked := true })) ∧
    ∀ (r : QueueRun) (p : Packet), s.queueRun pasid queue = some r → s.headPacket r = some p →
      s.homeWaits r.qcb = false →
      let entry (code : Nat) : List Byte := packetEntry p.tag p.seq code
      let written (code : Nat) (extra : List Message) (t : State) : Prop := t.postings = s.postings ∧
        t.outbox = s.outbox ++ extra ++ [completionWrite t r (completionIndex t r) (entry code)]
      let held (code : Nat) (extra : List Message) (t : State) : Prop := t.outbox = s.outbox ++ extra ∧
        t.postings = s.postings ++ [⟨r.pasid, r.queue, some r.qcb, entry code, none⟩]
      let full : Bool := s.cqFull r.qcb || s.posting r.pasid r.queue
      let answered (code : Nat) (t : State) : Prop := if full then held code [] t else written code [] t
      let inside : Prop := r.sources = [] ∨ ∃ x rest, r.sources = x :: rest ∧ 16 * p.units + 16 ≤ x.left
      (r.fencing = true → inside → (∀ id ∈ r.launches, s.launchEnded id = true) →
        Completes (.fencePacketDone pasid queue) s (fun t => t.fwEvents = s.fwEvents ++ [(pasid, queue)] ∧ answered 0 t)) ∧
      (r.locked = true → p.error = none →
        let done (extra : List Message) (t : State) : Prop :=
          if p.flags = 1 then written 0 extra t ∨ held 0 extra t else t.outbox = s.outbox ++ extra ∧ t.postings = s.postings
        let stops (code : Nat) (i : Instr) : Prop := Completes i s (fun t => answered code t ∧ t.qcbState r.qcb = 4 ∧
          t.qcb r.qcb 13 1 = code ∧ t.queueRun pasid queue = some { r with sources := [], locked := false, started := false })
        let ctx := s.qcbCtx r.qcb
        (p.typ = 1 → (s.slot (p.at 16 2) = none → stops 4 (.invoke pasid queue)) ∧
          ∀ x, s.slot (p.at 16 2) = some x → (x.leaving = true → stops 4 (.invoke pasid queue)) ∧ (x.leaving = false →
            (x.pasid ≠ r.pasid → stops 5 (.invoke pasid queue)) ∧
            (x.pasid = r.pasid → (∀ a ∈ addressesOf x.template p.buffers, s.ctxWaitsAt ctx a = false) →
              (∀ (i : Nat) (a : Word), p.buffers[i]? = some a → s.ctxKey ctx a = none →
                stops 6 (.invoke pasid queue) ∨ Config.relIsSize x.template i = true) ∧
              ((∀ a ∈ addressesOf x.template p.buffers, (s.ctxKey ctx a).isSome = true) → s.ctxWaits ctx x.graph x.template.length = false →
                (∀ id, x.launch = some id → s.launchEnded id = false → exec (.invoke pasid queue) s = .next s) ∧
                ((∀ id, x.launch = some id → s.launchEnded id = true) → inside →
                  recordOk ((s.restoreRecord ctx x.graph (bytesRec x.template)).recordAt ctx x.graph) = true →
                  Completes (.invoke pasid queue) s (fun t => done [] t ∧ ∃ g ∈ t.graphs, g.id = s.runClock ∧ g.va = x.graph ∧
                    g.ctx = ctx ∧ g.slot = some x.number ∧ g.lead = x.lead ∧ ∀ i : Fin 16, g.rel[i] = p.buffers.getD i.val 0)))))) ∧
        (p.typ = 2 → let va : Word := BitVec.ofNat 64 (p.at 16 8)
          (s.context ctx).isSome = true →
          (va.toNat % 128 ≠ 0 → stops 7 (.graph pasid queue)) ∧
          (va.toNat % 128 = 0 → s.recordWaits ctx va = false →
            ((s.recordMapped ctx va = false ∨ recordOk (s.recordAt ctx va) = false ∨ s.recordAt ctx va 12 1 = 1 ∨
              s.recordAt ctx va 12 1 = 4) → stops 7 (.graph pasid queue)) ∧
            (s.recordMapped ctx va = true → recordOk (s.recordAt ctx va) = true → s.recordAt ctx va 12 1 ≠ 1 →
              s.recordAt ctx va 12 1 ≠ 4 → inside →
              Completes (.graph pasid queue) s (fun t => done [] t ∧ ∃ g ∈ t.graphs, g.id = s.runClock ∧ g.va = va ∧ g.ctx = ctx ∧
                g.slot = none ∧ g.lead = 4)))) ∧
        (p.typ = 3 → (4 ≤ p.depth → stops 3 (.ib pasid queue)) ∧
          (p.depth < 4 → 16 ≤ p.at 24 4 → Completes (.ib pasid queue) s (fun t => t.outbox = s.outbox ∧ t.postings = s.postings ∧
            t.queueRun pasid queue = some { r with sources := ⟨BitVec.ofNat 64 (p.at 16 8), p.at 24 4, p.depth + 1, p.seq,
              if p.flags = 1 then some p.tag else none⟩ :: pastHead p r.sources }))) ∧
        (p.typ = 4 → ((∀ id ∈ r.launches, s.launchEnded id = true) → inside → Completes (.fencePacket pasid queue) s (answered 0)) ∧
          ((∃ id ∈ r.launches, s.launchEnded id = false) → Completes (.fencePacket pasid queue) s (fun t => t.outbox = s.outbox ∧
            t.queueRun pasid queue = some { r with fencing := true, locked := false }))) ∧
        (p.typ = 5 → inside → Completes (.signal pasid queue) s
          (done [.hostWrite r.pasid (BitVec.ofNat 64 (p.at 16 8)) (p.at 24 4) (leBytes 8 (p.at 32 8))])) ∧
        (p.typ = 6 → let n := p.at 16 2
          let addr : Word := BitVec.ofNat 64 (p.at 24 8)
          ((256 ≤ n ∨ (s.slot n).isSome = true) → stops 10 (.slotLoad pasid queue)) ∧
          (n < 256 → s.slot n = none → s.ctxWaits ctx addr (p.at 32 4) = false →
            ((∃ k, k < p.at 32 4 ∧ s.ctxKey ctx (addr + BitVec.ofNat 64 k) = none) → stops 8 (.slotLoad pasid queue)) ∧
            ((∀ k, k < p.at 32 4 → (s.ctxKey ctx (addr + BitVec.ofNat 64 k)).isSome = true) →
              (s.verifyImage r.pasid (s.ctxBytes ctx addr (p.at 32 4)) = none → stops 8 (.slotLoad pasid queue)) ∧
              ∀ m, s.verifyImage r.pasid (s.ctxBytes ctx addr (p.at 32 4)) = some m → (∀ a ∈ m.pages, s.ctxWaitsAt ctx a = false) →
                (∀ a ∈ m.pages, ∃ l, s.leafOf ctx a = some l ∧ l.2.getLsbD 2 = true) →
                (∀ k ∈ s.unpinned ctx m.pages, s.homeWaits k = false) → inside →
                Completes (.slotLoad pasid queue) s (fun t => done [] t ∧ ∃ x, t.slot n = some x ∧ x.pasid = r.pasid ∧ x.ctx = ctx ∧
                  x.graph = BitVec.ofNat 64 m.graph ∧ x.lead = m.lead ∧ x.template = m.template ∧ x.launch = none ∧
                  x.leaving = false)))) ∧
        (p.typ = 7 → (s.slot (p.at 16 2) = none → stops 4 (.slotEvict pasid queue)) ∧
          ∀ x, s.slot (p.at 16 2) = some x → (x.leaving = true → r.started = false → stops 4 (.slotEvict pasid queue)) ∧
          (x.leaving = false ∨ r.started = true →
            (x.pasid ≠ r.pasid → stops 5 (.slotEvict pasid queue)) ∧
            (x.pasid = r.pasid →
              (∀ id, x.launch = some id → s.launchEnded id = false → Completes (.slotEvict pasid queue) s (fun t =>
                t.outbox = s.outbox ∧ t.mem = s.mem ∧ t.slot (p.at 16 2) = some { x with leaving := true } ∧
                t.queueRun pasid queue = some { r with started := true })) ∧
              ((∀ id, x.launch = some id → s.launchEnded id = true) → (∀ k ∈ x.pages, s.homeWaits k = false) → inside →
                Completes (.slotEvict pasid queue) s (fun t => done [] t ∧
                  t.slots = s.slots.filter (fun y => y.number != x.number))))))))

/-- ADMIN packets: of a PASID off the privileged list each stops its queue with ADMIN_DENIED; of one on it, a context is
created, or destroyed once its graphs are cancelled, a queue enabled, resumed or disabled, a range shot down, a faulted node
retried, skipped or cancelled, a cancelled one reset, an edge thawed, and a peer, the class-0 cells, the reserve or the tier
marks are set (R333, R334, R393, R395 to R397, R410; the places of the fields that the manual does not give are free, assumption
log 25). Between the lines of these rules the model's own reading or choice stands (assumption logs 31 and 40). -/
def Obligations.AdminPacketsTakeEffect : Prop :=
  ∀ (pasid queue : Nat) (r : QueueRun) (p : Packet) (s : State), s.MemOk → s.up = true → s.queueRun pasid queue = some r → r.locked = true →
    s.headPacket r = some p → p.error = none → p.typ = 8 →
    (r.sources = [] ∨ ∃ x rest, r.sources = x :: rest ∧ 16 * p.units + 16 ≤ x.left) → s.homeWaits r.qcb = false →
    let written (code : Nat) (t : State) : Prop := t.postings = s.postings ∧
      t.outbox = s.outbox ++ [completionWrite t r (completionIndex t r) (packetEntry p.tag p.seq code)]
    let held (code : Nat) (t : State) : Prop := t.outbox = s.outbox ∧
      t.postings = s.postings ++ [⟨r.pasid, r.queue, some r.qcb, packetEntry p.tag p.seq code, none⟩]
    let done (t : State) : Prop := if p.flags = 1 then written 0 t ∨ held 0 t else t.outbox = s.outbox ∧ t.postings = s.postings
    let denied (i : Instr) : Prop := Completes i s (fun t => t.qcbState r.qcb = 4 ∧ t.qcb r.qcb 13 1 = 9 ∧
      if s.cqFull r.qcb || s.posting r.pasid r.queue then held 9 t else written 9 t)
    let apart (t u : State) : Prop := ∀ a, a < r.qcb ∨ r.qcb + 48 ≤ a → readByte t.mem a = readByte u.mem a
    let admin (op form : Nat) (i : Instr) (effect : Prop) : Prop := p.op = op → p.form = form →
      (s.isPrivileged r.pasid = false → denied i) ∧ (s.isPrivileged r.pasid = true → effect)
    let record := Config.adminBytes 0 p.admin
    let onNode (g : Graph) : Prop := s.graphs.find? (fun x => x.ctx == p.field 1 && x.va == BitVec.ofNat 64 (p.field 2)) = some g
    (s.homeWaits (bytesRec record 16 8) = false →
    admin 0 0 (.adminCreateContext pasid queue) (∀ u, s.createContext record = some u →
      Completes (.adminCreateContext pasid queue) s (fun t => done t ∧ ∃ c, t.contexts = s.contexts ++ [c] ∧
        c.id = bytesRec record 0 2 ∧ c.pasid = bytesRec record 2 3 ∧ c.root = bytesRec record 8 8 ∧ c.step = 0 ∧ c.account = 0 ∧
        c.refill = bytesRec record 32 6 ∧ c.ringSize = bytesRec record 24 1)) ∧
    admin 0 0 (.adminCreateContext pasid queue) (s.createContext record = none → denied (.adminCreateContext pasid queue))) ∧
    admin 1 0 (.adminDestroyContext pasid queue)
      ((s.context (p.field 0) = none → denied (.adminDestroyContext pasid queue)) ∧
      ((s.context (p.field 0)).isSome = true → (∀ g ∈ s.graphs, g.ctx = p.field 0 → s.graphWaits g = false) →
        (r.started = false → Completes (.adminDestroyContext pasid queue) s (fun t => t.outbox = s.outbox ∧
          t.queueRun pasid queue = some { r with started := true })) ∧
        (r.started = true → (∀ g ∈ s.graphs, g.ctx = p.field 0 → g.cancelling = false) →
          Completes (.adminDestroyContext pasid queue) s (fun t => done t ∧ t.context (p.field 0) = none ∧
            (∀ o ∈ t.objects, o.ctx ≠ p.field 0) ∧ (∀ g ∈ t.graphs, g.ctx ≠ p.field 0) ∧ ∀ e ∈ t.peers, e.ctx ≠ p.field 0)))) ∧
    (s.postings = [] → (∀ k ∈ s.queueKeys (p.field 1) (p.field 2), s.homeWaits k = false) →
      admin 2 0 (.adminQueueEnable pasid queue) ((∀ u, s.enableQueue (p.field 1) (p.field 2) (Config.adminBytes 2 p.admin) = some u →
        Completes (.adminQueueEnable pasid queue) s (fun t => done t ∧ (t.queueRun (p.field 1) (p.field 2)).isSome = true)) ∧
        (s.enableQueue (p.field 1) (p.field 2) (Config.adminBytes 2 p.admin) = none → denied (.adminQueueEnable pasid queue)))) ∧
    admin 2 1 (.adminQueueResume pasid queue) (∀ q, s.queueRun (p.field 1) (p.field 2) = some q →
      s.homeWaits q.qcb = false →
      (s.qcbState q.qcb = 4 → Completes (.adminQueueResume pasid queue) s (fun t => done t ∧
        ((s.qcbHead q.qcb + 1) % 2 ^ 32 ≠ s.qcbTail q.qcb → (q.pasid, q.queue) ∈ t.fwEvents) ∧
        (q.qcb + 48 ≤ r.qcb ∨ r.qcb + 48 ≤ q.qcb → t.qcbState q.qcb = 1 ∧ t.qcbHead q.qcb = (s.qcbHead q.qcb + 1) % 2 ^ 32))) ∧
      (s.qcbState q.qcb ≠ 4 → denied (.adminQueueResume pasid queue))) ∧
    admin 2 2 (.adminQueueDisable pasid queue) (∀ q, s.queueRun (p.field 1) (p.field 2) = some q →
      (∀ k ∈ s.queueKeys q.pasid q.queue, s.homeWaits k = false) →
      (q.locked = false → q.is r.pasid r.queue = false → (∀ id ∈ q.launches, s.launchEnded id = true) →
        Completes (.adminQueueDisable pasid queue) s (fun t => done t ∧ t.queueRun (p.field 1) (p.field 2) = none)) ∧
      (q.is r.pasid r.queue = true → (∀ id ∈ q.launches, s.launchEnded id = true) →
        Completes (.adminQueueDisable pasid queue) s (fun t => t.queueRun (p.field 1) (p.field 2) = none ∧
          if p.flags = 1 then held 0 t ∨ (t.postings = s.postings ∧ t.outbox = s.outbox ++
            [completionWrite s r (s.qcb r.qcb 40 4) (packetEntry p.tag p.seq 0)])
          else t.outbox = s.outbox ∧ t.postings = s.postings)) ∧
      ((q.locked = true ∧ q.is r.pasid r.queue = false) ∨ (∃ id ∈ q.launches, s.launchEnded id = false) →
        Completes (.adminQueueDisable pasid queue) s (fun t => t.outbox = s.outbox ∧
          ∃ x, t.queueRun (p.field 1) (p.field 2) = some x ∧ x.disabling = true))) ∧
    admin 3 0 (.adminShootdown pasid queue)
      ((r.started = false → Completes (.adminShootdown pasid queue) s (fun t => t.outbox = s.outbox ∧
        t.shootdowns = s.shootdowns ++ [⟨p.field 0, p.field 1, p.field 2, false, false⟩])) ∧
      (r.started = true → (∃ e ∈ s.shootdowns, e.ctx = p.field 0 ∧ e.va = p.field 1 ∧ e.move = false) →
        exec (.adminShootdown pasid queue) s = .next s) ∧
      (r.started = true → (∀ e ∈ s.shootdowns, e.ctx = p.field 0 → e.va = p.field 1 → e.move = true) →
        Completes (.adminShootdown pasid queue) s (fun t => done t ∧ t.shootdowns = s.shootdowns))) ∧
    admin 4 0 (.adminGraphRetry pasid queue) (∀ g f, onNode g → s.graphWaits g = false → p.field 3 < s.nodeCount g → s.faultedOf g (p.field 3) = some f →
      Completes (.adminGraphRetry pasid queue) s (fun t => done t ∧ (∃ k, t.firing f.id = some k ∧ k.state = .pending ∧
        k.retryAt = some (s.now + 1500 * s.node g (p.field 3) 60 4) ∧ k.works = f.works) ∧ apart t (s.ownerRetry g (p.field 3)))) ∧
    admin 4 1 (.adminGraphSkip pasid queue) (∀ g f, onNode g → s.graphWaits g = false → p.field 3 < s.nodeCount g → s.faultedOf g (p.field 3) = some f →
      Completes (.adminGraphSkip pasid queue) s (fun t => done t ∧ (∀ k ∈ t.firings, k.id ≠ f.id) ∧
        apart t (s.ownerSkip g (p.field 3)))) ∧
    admin 4 2 (.adminGraphCancel pasid queue) (∀ g, onNode g → s.graphWaits g = false → p.field 3 < s.nodeCount g → s.nodeState g (p.field 3) = 4 →
      Completes (.adminGraphCancel pasid queue) s (fun t => done t ∧ (∃ h ∈ t.graphs, h.id = g.id ∧ p.field 3 ∈ h.walks) ∧
        apart t (s.ownerCancel g (p.field 3)))) ∧
    admin 4 3 (.adminGraphReset pasid queue) (∀ g, onNode g → s.graphWaits g = false → p.field 3 < s.nodeCount g → s.nodeState g (p.field 3) = 6 →
      Completes (.adminGraphReset pasid queue) s (fun t => done t ∧ (∀ f ∈ t.firings, f.graph = g.id → f.node ≠ p.field 3) ∧
        (∃ h ∈ t.graphs, h.id = g.id ∧ p.field 3 ∉ h.fired) ∧ apart t (s.ownerReset g (p.field 3)))) ∧
    admin 4 4 (.adminGraphThaw pasid queue) (∀ g, onNode g → s.graphWaits g = false → p.field 3 < s.edgeCount g →
      Completes (.adminGraphThaw pasid queue) s (fun t => done t ∧ t.firings = s.firings ∧ t.graphs = s.graphs ∧
        apart t (s.ownerThaw g (p.field 3)))) ∧
    admin 5 0 (.adminSetPeer pasid queue) ((s.context (p.field 0)).isSome = true → p.field 1 < 1024 → p.field 2 < 2 ^ 16 →
      p.field 4 < 2 ^ 32 → Completes (.adminSetPeer pasid queue) s (fun t => done t ∧
        (⟨p.field 0, p.field 1, p.field 2, BitVec.ofNat 64 (p.field 3), p.field 4⟩ : Peer) ∈ t.peers ∧
        ∀ e ∈ s.peers, e.ctx ≠ p.field 0 ∨ e.index ≠ p.field 1 → e ∈ t.peers)) ∧
    admin 5 0 (.adminSetPeer pasid queue) ((s.context (p.field 0) = none ∨ 1024 ≤ p.field 1) → denied (.adminSetPeer pasid queue)) ∧
    admin 6 0 (.adminSetClass0Cells pasid queue)
      ((p.field 0 < 4 → p.field 1 ≤ 32 → Completes (.adminSetClass0Cells pasid queue) s (fun t => done t ∧
        (p.field 0, p.field 1) ∈ t.class0Cells ∧ ∀ e ∈ t.class0Cells, e.1 = p.field 0 → e.2 = p.field 1)) ∧
      ((4 ≤ p.field 0 ∨ 32 < p.field 1) → denied (.adminSetClass0Cells pasid queue))) ∧
    admin 7 0 (.adminSetEnergyReserve pasid queue)
      ((p.at 18 2 ≤ 250 → Completes (.adminSetEnergyReserve pasid queue) s (fun t => done t ∧ t.reservePermille = p.at 18 2)) ∧
      (250 < p.at 18 2 → denied (.adminSetEnergyReserve pasid queue))) ∧
    admin 8 0 (.adminSetTierParams pasid queue)
      ((p.at 17 1 < liveStacks s.fuses → p.at 18 2 < p.at 20 2 → p.at 20 2 ≤ 500 → p.at 22 4 ≠ 0 →
        Completes (.adminSetTierParams pasid queue) s (fun t => done t ∧
          t.marks (p.at 17 1) = (p.at 18 2, p.at 20 2) ∧ t.promotionThreshold = p.at 22 4 ∧
          ∀ n, n ≠ p.at 17 1 → t.marks n = s.marks n)) ∧
      ((liveStacks s.fuses ≤ p.at 17 1 ∨ p.at 20 2 ≤ p.at 18 2 ∨ 500 < p.at 20 2 ∨ p.at 22 4 = 0) → denied (.adminSetTierParams pasid queue)))

/-- A link leaves Active after more than 64 retries in any 1 ms, passes from Quiesce to Reset when drained, from Reset to
Training when its dies are ready after 1 ms, or 100 ms if its last training failed, and from Training to Active with the modules
that train, or back to Reset; in Reset and Training none carries traffic; each change gives the enumeration table its next even
generation. A compute die that has no Active ring link after the change of one goes offline, and it is live again when a ring
link becomes Active. In recovery no link turns (R9, R18, R20, R404, R406, R409). A warm reset of a die runs its steps in order
and joins one under way: step 1 takes the die offline; step 2 leaves no line homed on it in an L1, fetched ones included; step 3
quiesces its links and, drained, puts them in Reset, once none trains; step 4 leaves its cells at their reset contents; step 5
trains its links 1 ms after; step 6 retires the units that fail, once no link trains; step 7 ends the reset, with the die live
if it has an Active ring link. Before the firmware runs, nothing happens (R9, R404, R409, R414). Between the lines of these
rules the model's own reading or choice stands (assumption logs 26, 43 and 75). -/
def Obligations.LinksAndWarmReset : Prop :=
  (∀ (i : Nat) (l : Link) (s : State), s.links[i]? = some l →
     let becomes (m : Link) (j : Instr) : Prop := Completes j s (fun t => t.links = s.links.set i m ∧
       t.enumGen = (s.enumGen + 2) % 2 ^ 64 ∧ t.offline = s.offline ∧ t.linkAge i = 0 ∧ t.cpu.x = s.cpu.x ∧
       t.cpu.pc = s.cpu.pc ∧ ∀ k, readByte t.sp k = readByte s.sp k)
     let stays (j : Instr) : Prop := exec j s = .next s
     (s.recovery = true → stays (.flitCrcRetry i) ∧ stays (.linkQuiesceDrained i) ∧ stays (.linkResetElapsed i) ∧
       stays (.linkRetryTimer i) ∧ stays (.linkTrainingFailed i) ∧ ∀ n, stays (.linkTrained i n)) ∧
     (s.recovery = false →
     let kept := s.now :: l.retries.filter (fun x => s.now < x + 1500000)
     let joined (m : Link) : Prop :=
       l.b = 4 ∨ ∀ d ∈ [l.a, l.b], ({ s with links := s.links.set i m }).isCut d = true → s.isOffline d = true
     let cuts (m : Link) (j : Instr) : Prop := ∀ d, d ∈ [l.a, l.b] → l.b < 4 → s.resets = [] → s.firings = [] → s.channels = [] →
       (∀ c ∈ s.copiers, c.state = .retired) → ({ s with links := s.links.set i m }).isCut d = true →
       Completes j s (fun t => d ∈ t.offline)
     (l.state = 0 →
       (kept.length ≤ 64 → Completes (.flitCrcRetry i) s (fun t =>
         t = { s with links := s.links.set i { l with retries := kept } })) ∧
       (64 < kept.length → joined { l with state := 1, retries := [] } →
         becomes { l with state := 1, retries := [] } (.flitCrcRetry i)) ∧
       (64 < kept.length → cuts { l with state := 1, retries := [] } (.flitCrcRetry i))) ∧
     (l.state ≠ 0 → stays (.flitCrcRetry i)) ∧
     (l.state = 1 → s.linkDrained i = true → joined { l with state := 2, trained := 0 } → becomes { l with state := 2, trained := 0 } (.linkQuiesceDrained i)) ∧
     (l.state ≠ 1 ∨ s.linkDrained i = false → stays (.linkQuiesceDrained i)) ∧
     (l.state = 2 → (∀ r ∈ s.resets, r.die = l.a ∨ r.die = l.b → r.step ≠ 3) → joined { l with state := 3, trained := 0 } →
       (l.failed = false → (1500000 ≤ s.linkAge i → becomes { l with state := 3, trained := 0 } (.linkResetElapsed i)) ∧
         (s.linkAge i < 1500000 → stays (.linkResetElapsed i)) ∧ stays (.linkRetryTimer i)) ∧
       (l.failed = true → (150000000 ≤ s.linkAge i → becomes { l with state := 3, trained := 0 } (.linkRetryTimer i)) ∧
         (s.linkAge i < 150000000 → stays (.linkRetryTimer i)) ∧ stays (.linkResetElapsed i))) ∧
     (l.state = 3 →
       (joined { l with state := 2, trained := 0, failed := true } →
         becomes { l with state := 2, trained := 0, failed := true } (.linkTrainingFailed i)) ∧
       cuts { l with state := 2, trained := 0, failed := true } (.linkTrainingFailed i) ∧
       ∀ n, 0 < n → n ≤ l.fitted →
         ((∀ d ∈ [l.a, l.b], s.isOffline d = false) →
           becomes { l with state := 0, trained := n, retries := [], failed := false } (.linkTrained i n)) ∧
         ∀ d, d ∈ [l.a, l.b] → s.resets = [] → s.firings = [] → l.b < 4 → s.isOffline d = true →
           Completes (.linkTrained i n) s (fun t => d ∉ t.offline)) ∧
     (l.state ≠ 3 → stays (.linkTrainingFailed i) ∧ ∀ n, stays (.linkTrained i n)))) ∧
  (∀ (die : Nat) (failed : List (Nat × Nat)) (s : State), die < 4 → s.firings = [] → s.channels = [] →
     (∀ c ∈ s.copiers, c.state = .retired) →
     let under (n : Nat) : Prop := s.resets = [⟨die, n⟩]
     let halts (n : Nat) : Prop := Completes (.warmReset die n failed) s (fun t => t.resets = s.resets)
     let reaches (n : Nat) (post : State → Prop) : Prop :=
       Completes (.warmReset die n failed) s (fun t => t.resets = [⟨die, n⟩] ∧ t.offline = s.offline ∧ post t)
     (s.up = false → Completes (.warmReset die 1 failed) s (fun t => t = s)) ∧ (s.up = true →
     (s.resets = [] → Completes (.warmReset die 1 failed) s (fun t => t.resets = [⟨die, 1⟩] ∧ die ∈ t.offline)) ∧
     (s.resets = [] → ∀ n, n ≠ 1 → Completes (.warmReset die n failed) s (fun t => t = s)) ∧
     (∀ m n, under m → n ≠ m + 1 → Completes (.warmReset die n failed) s (fun t => t = s)) ∧
     (under 1 → s.cells = [] → reaches 2 (fun t => t.cells = [] ∧ t.cpu.x = s.cpu.x ∧ (∀ x ∈ t.cpu.l1, x ∈ s.cpu.l1 ∧
       homeDie s.fuses ⟨x.no % 2 ^ 60 * 128, decide (2 ^ 60 ≤ x.no), 0⟩ ≠ die) ∧
       ∀ e ∈ t.cpu.icache, e ∈ s.cpu.icache ∧ homeDie s.fuses ⟨e.1 % 2 ^ 60 * 128, decide (2 ^ 60 ≤ e.1), 0⟩ ≠ die) ∧
     (under 2 → (∀ (j : Nat) (l : Link), s.links[j]? = some l → l.a = die ∨ l.b = die → l.state ≤ 2 ∧ s.linkDrained j = true) →
       (∀ d, d < 4 → d ≠ die → ∃ l ∈ s.links, l.state = 0 ∧ l.b < 4 ∧ (l.a = d ∨ l.b = d) ∧ l.a ≠ die ∧ l.b ≠ die) →
       reaches 3 (fun t => ∀ (j : Nat) (l : Link), t.links[j]? = some l → l.a = die ∨ l.b = die → l.state = 2)) ∧
     (under 2 → (∃ l ∈ s.links, (l.a = die ∨ l.b = die) ∧ l.state = 3) → halts 3) ∧
     (under 3 → s.blocks = [] → reaches 4 (fun t => (s.cpu.die = die → t.cpu = { idleCell s.fuses s.cpu.id with eager := s.cpu.eager }) ∧
       (s.cpu.die ≠ die → t.cpu = s.cpu) ∧ SameMemory s t)) ∧
     (under 4 → (∃ (j : Nat) (l : Link), s.links[j]? = some l ∧ (l.a = die ∨ l.b = die) ∧ l.state = 2 ∧ l.failed = false ∧
       s.linkAge j < 1500000) → halts 5) ∧
     (under 4 → (∀ (j : Nat) (l : Link), s.links[j]? = some l → l.a = die ∨ l.b = die → l.state = 2 ∧ l.failed = false ∧
         1500000 ≤ s.linkAge j) → (∀ d, d < 4 → d ≠ die → s.isCut d = true → s.isOffline d = true) →
       reaches 5 (fun t => ∀ (j : Nat) (l : Link), t.links[j]? = some l → l.a = die ∨ l.b = die → l.state = 3)) ∧
     (under 5 → (∀ l ∈ s.links, l.a = die ∨ l.b = die → l.state ≠ 3) →
       reaches 6 (fun t => ∀ u ∈ failed, u.1 ≤ 4 → s.unitDie u.1 u.2 = die → t.isRetired u.1 u.2 = true)) ∧
     (under 5 → (∃ l ∈ s.links, (l.a = die ∨ l.b = die) ∧ l.state = 3) → Completes (.warmReset die 6 failed) s (fun t => t = s)) ∧
     (under 6 → Completes (.warmReset die 7 failed) s (fun t => t.resets = [] ∧
       (if s.isCut die then t.offline = s.offline else die ∉ t.offline ∧ ∀ d, d ≠ die → (d ∈ t.offline ↔ d ∈ s.offline)))))))

/-- A die sends each kind of message on the link of its route while that is Active, on the channel of the kind, for as many
credits as the message has slots; a credit return needs none; the slots, header first, fill the flit in progress and go on into
the next, each full flit of 15 slots; a request is noted under its tag. Without the credits, with a header that does not decode
for the kind, on a link that its route does not take, with a tag whose request has no answer yet, of a kind that the link of a
die under reset does not carry before it is quiesced, or in recovery, nothing is sent (R9, R404, R407, R408, R414). Between the
lines of these rules the model's own reading or choice stands (assumption logs 1, 22 and 62). -/
def Obligations.MessagesTakeTheirChannelsCredits : Prop :=
  ∀ (i : Nat) (back : Bool) (hdr : BitVec 128) (data : List (BitVec 128)) (l : Link) (w : Wire) (s : State),
    s.links[i]? = some l →
    let field (lo n : Nat) : Nat := (hdr.extractLsb' lo n).toNat
    let chan (k : Nat) : Nat := if k = 4 then 2 else if k ≤ 8 then (if hdr.getLsbD 8 then 4 else 0)
      else if k ≤ 11 then (if hdr.getLsbD 8 then 5 else 1) else 3
    let fits (k : Nat) (slots : List (BitVec 128)) : Prop := field 0 5 = k ∧ field 5 3 = chan k ∧ field 9 4 = slots.length ∧
      slots.length ≤ 8 ∧ hdr.getLsbD 31 = false ∧ field 13 3 = (if back then l.b else l.a) ∧ field 16 3 ≤ 4 ∧
      field 16 3 ≠ field 13 3 ∧ (4 ≤ l.b → field 16 3 = if back then l.a else l.b) ∧ (l.b ≠ 4 → field 16 3 ≠ 4)
    let sends (k : Nat) (slots : List (BitVec 128)) (j : Instr) : Prop :=
      let clear : Prop := fits k slots ∧ s.recovery = false ∧ s.route (field 13 3) (field 16 3) (field 32 52) = some (i, back) ∧
        (k ≤ 3 ∨ (5 ≤ k ∧ k ≤ 8) ∨ k = 12 → ∀ x ∈ s.txns, x.die = field 13 3 → x.tag = field 19 12 → x.answer.isSome = true) ∧
        ((∃ x ∈ s.resets, x.step ≤ 2 ∧ (x.die = l.a ∨ x.die = l.b)) → k = 4 ∨ (9 ≤ k ∧ k ≤ 11) ∨ k = 13 ∨ 15 ≤ k)
      (¬ clear → exec j s = .next s) ∧
      (clear → s.wires.find? (fun v => v.link == i && v.back == back && v.chan == chan k) = some w →
        let cost := if k = 16 then 0 else 1 + slots.length
        (l.state ≠ 0 ∨ w.credits < cost → exec j s = .next s) ∧
        (l.state = 0 → cost ≤ w.credits → Completes j s (fun t =>
          t = { s with wires := t.wires, streams := t.streams, txns := t.txns } ∧
          (if k ≤ 3 ∨ (5 ≤ k ∧ k ≤ 8) ∨ k = 12 then ⟨field 13 3, field 19 12, k, none⟩ ∈ t.txns else t.txns = s.txns) ∧
          t.wires.find? (fun v => v.link == i && v.back == back && v.chan == chan k) =
            some { w with credits := w.credits - cost } ∧
          (∃ full, (t.stream i back).flits = (s.stream i back).flits ++ full ∧ (∀ x ∈ full, x.length = 15) ∧
            (t.stream i back).filling.length < 15 ∧ full.flatten ++ (t.stream i back).filling =
              (s.stream i back).filling ++ ⟨hdr, 0⟩ :: slots.map (fun d => CamyarSlot.mk d 0)) ∧
          (∀ j b, j ≠ i ∨ b ≠ back → t.stream j b = s.stream j b) ∧ (t.stream i back).rest = (s.stream i back).rest ∧
          ∀ v, v.link ≠ i ∨ v.back ≠ back ∨ v.chan ≠ chan k → (v ∈ t.wires ↔ v ∈ s.wires))))
    sends 1 [] (.camyarRead i back hdr) ∧ sends 2 [] (.camyarReadOwn i back hdr) ∧ sends 3 data (.camyarWrite i back hdr data) ∧
    sends 4 data (.camyarWriteBack i back hdr data) ∧ sends 5 data (.camyarAmo i back hdr data) ∧
    sends 6 data (.camyarReda i back hdr data) ∧ sends 7 data (.camyarRillCommand i back hdr data) ∧
    sends 8 data (.camyarSyncOperation i back hdr data) ∧ sends 9 data (.camyarCompletion i back hdr data) ∧
    sends 10 data (.camyarDataReturn i back hdr data) ∧ sends 11 data (.camyarError i back hdr data) ∧
    sends 12 data (.camyarShootdown i back hdr data) ∧ sends 13 data (.camyarShootdownAck i back hdr data) ∧
    sends 14 data (.camyarGraphMessage i back hdr data) ∧ sends 15 data (.camyarStatusBroadcast i back hdr data) ∧
    sends 16 [] (.camyarCreditReturn i back hdr)

/-- The effecters of the management controller write a privileged entry, create the bootstrap context with its mapping and give
the base of its region, enable a queue, and set the signing policy and keys; the error window and threshold are set within their
bounds, and a unit that is at the new threshold within the new window is retired; before a firmware slot has booted no context
and no queue is made. Each SPDM request is answered: that of the capabilities without secured sessions, that of the algorithms
with Ed448 and SHAKE256 alone, that of the certificates with the chain of the image that runs (R396, R397, R400, R403, R404,
R413; the bytes of the answers are free, assumption log 16). A firmware update writes the inactive slot, stages it if it
verifies, then names it in the marker copy of the lower sequence number, which becomes the higher plus 1; in another state of
the slot nothing happens. A boot takes the marker copies that verify in decreasing order of sequence and boots the first whose
slot verifies, else the other slot, else stays in recovery, and keeps the overflow areas of the synchronisation engines out of
the free frames. A loss of power keeps the slots and a marker copy that was not being written, and the next boot takes the slot
that R405 names (R262, R404, R405). Between the lines of these rules the model's own reading or choice stands (assumption logs
41 and 42). -/
def Obligations.ManagementSetsAndBoots : Prop :=
  (∀ s : State,
     (∀ i pasid on, i < 16 → pasid < 2 ^ 20 → Completes (.pldmPrivilegedList i pasid on) s (fun t =>
       t = { s with privileged := t.privileged, outbox := s.outbox ++ [.pldm 0x5701 0] } ∧
       (∀ e, e.1 ≠ i → (e ∈ t.privileged ↔ e ∈ s.privileged)) ∧ ∀ p, (i, p) ∈ t.privileged ↔ on = true ∧ p = pasid)) ∧
     (∀ i pasid on, 16 ≤ i ∨ 2 ^ 20 ≤ pasid → Completes (.pldmPrivilegedList i pasid on) s (fun t => t = s)) ∧
     (s.up = false → (∀ record, exec (.pldmCreateContext record) s = .next s) ∧
       ∀ pasid queue qcb, exec (.pldmEnableQueue pasid queue qcb) s = .next s) ∧
     (∀ record, bytesRec record 8 8 ≠ 0 → s.homeWaits (bytesRec record 16 8) = false → s.createContext record = none → exec (.pldmCreateContext record) s = .next s) ∧
     (∀ pasid queue qcb, (∀ k ∈ s.queueKeys pasid queue, s.homeWaits k = false) → s.enableQueue pasid queue qcb = none → exec (.pldmEnableQueue pasid queue qcb) s = .next s) ∧
     (∀ record u, s.up = true → bytesRec record 8 8 ≠ 0 → s.homeWaits (bytesRec record 16 8) = false → s.createContext record = some u →
       Completes (.pldmCreateContext record) s (fun t => t = { u with outbox := t.outbox } ∧
         t.outbox = s.outbox ++ [.pldm 0x5702 0])) ∧
     (∀ record, s.up = true → s.MemOk → bytesRec record 8 8 = 0 → record.length = 64 → contextOk (bytesRec record) = true →
       s.context (bytesRec record 0 2) = none → bytesRec record 16 8 + 64 + 64 * 2 ^ bytesRec record 24 1 < 2 ^ 30 →
       (∀ c ∈ s.contexts, c.bootstrap = false) →
       (∀ k ∈ [frameAt 0, frameAt 1, frameAt 2, bootstrapBase s.fuses + bytesRec record 16 8], s.homeWaits k = false) → Completes (.pldmCreateContext record) s (fun t => ∃ c,
         t.context (bytesRec record 0 2) = some c ∧ c.bootstrap = true ∧ c.ringBase = bootstrapBase s.fuses + bytesRec record 16 8 ∧
         t.outbox = s.outbox ++ [.pldm 0x5702 (bootstrapBase s.fuses)])) ∧
     (∀ pasid queue qcb u, s.up = true → s.postings = [] → (∀ k ∈ s.queueKeys pasid queue, s.homeWaits k = false) → s.enableQueue pasid queue qcb = some u → Completes (.pldmEnableQueue pasid queue qcb) s
       (fun t => t = { u with outbox := t.outbox } ∧ (t.queueRun pasid queue).isSome = true ∧
         t.outbox = s.outbox ++ [.pldm 0x5703 0])) ∧
     (∀ on, Completes (.pldmSigningPolicy on) s (fun t => t = { s with signing := on, outbox := s.outbox ++ [.pldm 0x5705 0] })) ∧
     (∀ pasid i key, i < 4 → pasid < 2 ^ 20 → key.length = 57 → Completes (.pldmSigningKey pasid i key) s (fun t =>
       t = { s with keys := t.keys, outbox := s.outbox ++ [.pldm 0x5706 0] } ∧
       (∀ k, ((pasid, i), k) ∈ t.keys ↔ k = key) ∧ ∀ e, e.1 ≠ (pasid, i) → (e ∈ t.keys ↔ e ∈ s.keys))) ∧
     (∀ minutes n, 1 ≤ minutes → minutes ≤ 30 * 24 * 60 → 1 ≤ n → n ≤ 65535 → Completes (.pldmErrorWindow minutes n) s (fun t =>
       t.errWindow = minutes ∧ t.errThreshold = n ∧ ∀ kind m, t.isRetired kind m = (s.isRetired kind m || (decide (kind ≤ 4) &&
         decide (n ≤ (s.errors.filter (fun e => e.1 = kind && e.2.1 = m && s.standbyNow < e.2.2 + minutes * 90000000000)).length))))) ∧
     (∀ minutes n, minutes = 0 ∨ 30 * 24 * 60 < minutes ∨ n = 0 ∨ 65535 < n →
       Completes (.pldmErrorWindow minutes n) s (fun t => t = s)) ∧
     let answers (k : Nat) (j : Instr) : Prop :=
         Completes j s (fun t => t = { s with outbox := t.outbox, fresh := s.fresh + 1 } ∧ ∃ b, t.outbox = s.outbox ++ [.spdm k b])
     answers 0 .getVersion ∧ answers 3 .getDigests ∧
       answers 5 .challenge ∧ answers 6 .getMeasurements ∧
       Completes .getCapabilities s (fun t => t = { s with outbox := t.outbox, fresh := s.fresh + 1 } ∧
         ∃ b, t.outbox = s.outbox ++ [.capabilities false b]) ∧
       Completes .negotiateAlgorithms s (fun t => t = { s with outbox := t.outbox, fresh := s.fresh + 1 } ∧
         ∃ b, t.outbox = s.outbox ++ [.algorithms [.ed448] [.shake256] b]) ∧
       Completes .getCertificate s (fun t => t = { s with outbox := s.outbox ++ [.spdm 4 s.certificates] })) ∧
  (∀ s : State,
     (∀ image, let n := s.inactive
       let x := s.fwSlot n
       let slotIs (y : FwSlot) (t : State) : Prop := t = { s with fwSlots := t.fwSlots } ∧ t.fwSlot n = y ∧
         t.fwSlot (1 - n) = s.fwSlot (1 - n)
       (x.state = .standby ∨ x.state = .empty → Completes (.pldmFirmwareUpdate 0 image) s (slotIs ⟨.writing, []⟩)) ∧
       (x.state = .writing → Config.firmwareVerifies image = true → Completes (.pldmFirmwareUpdate 1 image) s
         (slotIs ⟨.staged, image⟩)) ∧
       (x.state = .writing → Config.firmwareVerifies image = false → Completes (.pldmFirmwareUpdate 1 image) s
         (slotIs ⟨.writing, image⟩)) ∧
       (x.state ≠ .standby → x.state ≠ .empty → exec (.pldmFirmwareUpdate 0 image) s = .next s) ∧
       (x.state ≠ .writing → exec (.pldmFirmwareUpdate 1 image) s = .next s) ∧
       (x.state ≠ .staged → exec (.pldmFirmwareUpdate 2 image) s = .next s) ∧
       (∀ step, 2 < step → exec (.pldmFirmwareUpdate step image) s = .next s) ∧
       (x.state = .staged → s.markers[0].seq ≤ s.markers[1].seq → s.markers[1].seq < 2 ^ 32 - 1 →
         Completes (.pldmFirmwareUpdate 2 image) s (fun t => t = { s with markers := t.markers } ∧
           t.markers[0] = ⟨n, s.markers[1].seq + 1, true⟩ ∧ t.markers[1] = s.markers[1])) ∧
       (x.state = .staged → s.markers[1].seq < s.markers[0].seq → s.markers[0].seq < 2 ^ 32 - 1 →
         Completes (.pldmFirmwareUpdate 2 image) s (fun t => t = { s with markers := t.markers } ∧
           t.markers[1] = ⟨n, s.markers[0].seq + 1, true⟩ ∧ t.markers[0] = s.markers[0]))) ∧
     (s.booted ≠ none → exec .boot s = .next s) ∧
     (s.booted = none →
       let good (n : Nat) : Prop := (s.fwSlot n).state ≠ .writing ∧ (s.fwSlot n).state ≠ .empty ∧
         Config.firmwareVerifies (s.fwSlot n).image = true
       let names (i j : Fin 2) (n : Nat) : Prop := s.markers[i].sound = true ∧ s.markers[i].slot = n ∧
         (s.markers[j].sound = true → s.markers[j].seq < s.markers[i].seq ∨ ¬ good s.markers[j].slot)
       let boots (n : Nat) (t : State) : Prop := t.booted = some n ∧ t.recovery = false ∧ t.standbyOnly = false ∧
         (t.fwSlot n).state = .active ∧ (t.fwSlot n).image = (s.fwSlot n).image ∧ (t.fwSlot (1 - n)).image = (s.fwSlot (1 - n)).image ∧
         t.mem = s.mem ∧ t.cpu = s.cpu ∧ t.overflow = overflowAreas s.fuses ∧
         ∀ p ∈ t.freeFrames, p ∈ Config.tierFrames ∧ frameFree s.fuses t.overflow p = true
       (∀ i j n, i ≠ j → n < 2 → s.markers[j].slot < 2 → names i j n → good n → Completes .boot s (boots n)) ∧
       (∀ n, n < 2 → (∀ i : Fin 2, s.markers[i].slot < 2) → (∀ i : Fin 2, s.markers[i].sound = true → ¬ good s.markers[i].slot) →
         good n → ¬ good (1 - n) → Completes .boot s (boots n)) ∧
       (¬ good 0 → ¬ good 1 → Completes .boot s (fun t => t = { s with recovery := true, standbyOnly := true }))) ∧
     ∀ marking, Completes (.powerLoss marking) s (fun t => t.fwSlots = s.fwSlots ∧ t.fuses = s.fuses ∧ t.retired = s.retired ∧
       t.errors = s.errors ∧ t.standbyNow = s.standbyNow ∧
       t.booted = none ∧ t.contexts = [] ∧ t.mem = [] ∧ t.cpu = idleCell s.fuses 0 ∧
       (marking = false ∨ (s.fwSlot s.inactive).state ≠ .staged → t.markers = s.markers) ∧
       (marking = true → (s.fwSlot s.inactive).state = .staged → s.markers[1].seq < s.markers[0].seq →
         t.markers[0] = s.markers[0] ∧ t.markers[1].sound = false) ∧
       (marking = true → (s.fwSlot s.inactive).state = .staged → s.markers[0].seq < s.markers[1].seq →
         t.markers[1] = s.markers[1] ∧ t.markers[0].sound = false)))

/-- Once a firmware slot has booted, a chip applies the update of a placement table that follows the last one applied, modulo
2^32, and acknowledges it; across a gap it asks for the next; an older one it drops. An update of this chip itself is the next
of the sequence and goes out to every chip. A chip that has not acknowledged an update after 2 ms takes no appends until it has
acknowledged every update, and an append goes to a chip with the fewest blocks (R404, R411). A corrected event counts for its
unit over the error window, and the unit is retired at the threshold; an uncorrectable word is poisoned, in memory, a
scratchpad, a state block, a line of the acting cell's L1, which then no longer holds it, a register of the acting cell but x0,
or the firmware's memory, and no byte of memory changes; a scrub changes nothing; a thermal emergency suspends the class-0
bounds and its end restores them (R374, R412, R413). Between the lines of these rules the model's own reading or choice stands
(assumption logs 17, 44, 45 and 46). -/
def Obligations.PlacementsAndErrors : Prop :=
  (∀ (ctx chip : Nat) (s : State), let p := s.placement ctx
     let only (q : Placement) (sent : List Message) (t : State) : Prop :=
       t = { s with placements := t.placements, outbox := s.outbox ++ sent } ∧
       t.placement ctx = q ∧ ∀ c, c ≠ ctx → t.placement c = s.placement c
     let placed (block holder : Nat) : List (Nat × Nat) := (block, holder) :: p.blocks.filter (fun b => b.1 ≠ block)
     let next := (p.seq + 1) % 2 ^ 32
     let ahead (seq : Nat) : Nat := (seq + 2 ^ 32 - next) % 2 ^ 32
     (s.up = false → ∀ seq block holder, exec (.placementTableUpdate ctx chip seq block holder) s = .next s ∧
       exec (.placementAckTimeout ctx chip) s = .next s ∧ exec (.placementUpdateAcknowledgement ctx chip seq) s = .next s) ∧
     (s.up = true →
     (∀ seq block holder, chip ≠ s.chipId → seq < 2 ^ 32 → p.seq < 2 ^ 32 →
       (ahead seq = 0 → Completes (.placementTableUpdate ctx chip seq block holder) s (fun t =>
         only { p with seq := next, blocks := placed block holder } [.ack ctx chip seq] t)) ∧
       (0 < ahead seq → ahead seq < 2 ^ 31 → Completes (.placementTableUpdate ctx chip seq block holder) s (fun t =>
         t = { s with outbox := s.outbox ++ [.resend ctx chip next] })) ∧
       (2 ^ 31 ≤ ahead seq → Completes (.placementTableUpdate ctx chip seq block holder) s (fun t => t = s))) ∧
     (∀ seq block holder, chip = s.chipId →
       let own (c : Nat) (t : State) : Prop := only { p with
         seq := next
         blocks := placed block c
         sentAt := (next, s.now) :: p.sentAt.filter (fun e => e.1 ≠ next)
         sent := (next, block, c) :: p.sent.filter (fun e => e.1 ≠ next) } [.update ctx none next block c] t
       ((∃ h, (block, h) ∈ p.blocks) → Completes (.placementTableUpdate ctx chip seq block holder) s (own holder)) ∧
       ((∀ h, (block, h) ∉ p.blocks) → (∀ a ∈ p.acks, a.2.2 = false) →
         Completes (.placementTableUpdate ctx chip seq block holder) s (fun t => ∃ c, own c t ∧
           c ∈ s.chips ctx ∧ ∀ d ∈ s.chips ctx, p.count c < p.count d ∨ (p.count c = p.count d ∧ c ≤ d)))) ∧
     (chip ≠ s.chipId → (∃ e ∈ p.sentAt, seqAfter e.1 (p.acked chip) = true ∧ e.2 + 3000000 ≤ s.now) →
       Completes (.placementAckTimeout ctx chip) s (fun t => ∃ q, only q [] t ∧ q.excluded chip = true ∧ q.acked chip = p.acked chip ∧
         q.blocks = p.blocks ∧ ∀ c, c ≠ chip → q.excluded c = p.excluded c)) ∧
     ((∀ e ∈ p.sentAt, seqAfter e.1 (p.acked chip) = false ∨ s.now < e.2 + 3000000) →
       Completes (.placementAckTimeout ctx chip) s (fun t => t = s)) ∧
     ∀ seq, let n := if seqAfter seq (p.acked chip) then seq else p.acked chip
       Completes (.placementUpdateAcknowledgement ctx chip seq) s (fun t => ∃ q, only q [] t ∧
       q.acked chip = n ∧ ((∀ e ∈ p.sentAt, seqAfter e.1 n = false) → q.excluded chip = false) ∧
       ((∃ e ∈ p.sentAt, seqAfter e.1 n = true) → q.excluded chip = p.excluded chip) ∧
       q.blocks = p.blocks ∧ ∀ c, c ≠ chip → q.excluded c = p.excluded c))) ∧
  (∀ s : State,
     (∀ kind n, 0 < s.errThreshold →
       let count (k m : Nat) : Nat := ((s.errors ++ [(kind, n, s.standbyNow)]).filter (fun e =>
         e.1 = k && e.2.1 = m && s.standbyNow < e.2.2 + s.errWindow * 90000000000)).length
       Completes (.errorCorrected kind n) s (fun t => (0 < s.errWindow → (kind, n, s.standbyNow) ∈ t.errors) ∧
         (∀ k m, t.isRetired k m = (s.isRetired k m || (decide (k ≤ 4) && decide (s.errThreshold ≤ count k m)))) ∧
         ((∀ k m, 4 < k ∨ count k m < s.errThreshold) → t = { s with errors := t.errors }))) ∧
     (∀ key, Completes (.errorUncorrectable 0 key) s (fun t => t = { s with memPoison := t.memPoison } ∧
         ∀ w, w ∈ t.memPoison ↔ w = key / 8 ∨ w ∈ s.memPoison) ∧
       Completes (.errorUncorrectable 1 key) s (fun t => t = { s with spPoison := t.spPoison } ∧
         ∀ w, w ∈ t.spPoison ↔ w = key / 8 ∨ w ∈ s.spPoison) ∧
       Completes (.errorUncorrectable 2 key) s (fun t => t = { s with blocks := t.blocks } ∧
         t.blocks = s.blocks.map (fun b => if b.id = key then { b with poison := true } else b)) ∧
       ((∀ x ∈ s.cpu.l1, lineKey s.fuses x.no ≠ key / 128 * 128) → exec (.errorUncorrectable 3 key) s = .next s) ∧
       (∀ x, s.cpu.l1.find? (fun y => lineKey s.fuses y.no == key / 128 * 128) = some x →
         Completes (.errorUncorrectable 3 key) s (fun t => t.mem = s.mem ∧ t.sp = s.sp ∧ t.cpu.x = s.cpu.x ∧
           (∀ w, w ∈ t.memPoison ↔ w = key / 8 ∨ w ∈ s.memPoison) ∧
           ∀ y ∈ t.cpu.l1, y.no = x.no → y.present &&& byteMask (key % 128 / 8 * 8) 8 = 0)) ∧
       (∀ r, regOf key = some r → Completes (.errorUncorrectable 4 key) s (fun t => t = { s with cpu := { s.cpu with poison := t.cpu.poison } } ∧
         ∀ q, q ∈ t.cpu.poison ↔ q = r ∨ q ∈ s.cpu.poison)) ∧
       (regOf key = none → exec (.errorUncorrectable 4 key) s = .next s) ∧
       Completes (.errorUncorrectable 5 key) s (fun t => t = { s with fwPoison := t.fwPoison } ∧
         ∀ w, w ∈ t.fwPoison ↔ w = key / 8 ∨ w ∈ s.fwPoison) ∧
       ∀ space, 5 < space → exec (.errorUncorrectable space key) s = .next s) ∧
     Completes .sramScrub s (fun t => t = s) ∧
     ∀ on, Completes (.thermalEmergency on) s (fun t => t.thermal = on ∧ t.cpu.x = s.cpu.x ∧ t.cpu.pc = s.cpu.pc ∧
       (s.graphs = [] → t = { s with thermal := on })))
end

