-- ==== Sys2Proof/Laws/Arms.lean ====
section
/-! SUPPORT. The meaning that `exec` calls for each constructor. -/

namespace Sys2Proof.Machine

theorem exec_vadd (m : BitVec 1) (b : BitVec 5) (a : BitVec 5) (d : BitVec 5) (r : BitVec 3) (s : State) : exec (.vadd m b a d r) s = execVadd m b a d r s := rfl
theorem exec_vsub (m : BitVec 1) (b : BitVec 5) (a : BitVec 5) (d : BitVec 5) (r : BitVec 3) (s : State) : exec (.vsub m b a d r) s = execVsub m b a d r s := rfl
theorem exec_vmul (m : BitVec 1) (b : BitVec 5) (a : BitVec 5) (d : BitVec 5) (r : BitVec 3) (s : State) : exec (.vmul m b a d r) s = execVmul m b a d r s := rfl
theorem exec_vmulh (m : BitVec 1) (b : BitVec 5) (a : BitVec 5) (d : BitVec 5) (r : BitVec 3) (s : State) : exec (.vmulh m b a d r) s = execVmulh m b a d r s := rfl
theorem exec_vand (m : BitVec 1) (b : BitVec 5) (a : BitVec 5) (d : BitVec 5) (r : BitVec 3) (s : State) : exec (.vand m b a d r) s = execVand m b a d r s := rfl
theorem exec_vor (m : BitVec 1) (b : BitVec 5) (a : BitVec 5) (d : BitVec 5) (r : BitVec 3) (s : State) : exec (.vor m b a d r) s = execVor m b a d r s := rfl
theorem exec_vxor (m : BitVec 1) (b : BitVec 5) (a : BitVec 5) (d : BitVec 5) (r : BitVec 3) (s : State) : exec (.vxor m b a d r) s = execVxor m b a d r s := rfl
theorem exec_vsll (m : BitVec 1) (b : BitVec 5) (a : BitVec 5) (d : BitVec 5) (r : BitVec 3) (s : State) : exec (.vsll m b a d r) s = execVsll m b a d r s := rfl
theorem exec_vsrl (m : BitVec 1) (b : BitVec 5) (a : BitVec 5) (d : BitVec 5) (r : BitVec 3) (s : State) : exec (.vsrl m b a d r) s = execVsrl m b a d r s := rfl
theorem exec_vsra (m : BitVec 1) (b : BitVec 5) (a : BitVec 5) (d : BitVec 5) (r : BitVec 3) (s : State) : exec (.vsra m b a d r) s = execVsra m b a d r s := rfl
theorem exec_vmin (m : BitVec 1) (b : BitVec 5) (a : BitVec 5) (d : BitVec 5) (r : BitVec 3) (s : State) : exec (.vmin m b a d r) s = execVmin m b a d r s := rfl
theorem exec_vmax (m : BitVec 1) (b : BitVec 5) (a : BitVec 5) (d : BitVec 5) (r : BitVec 3) (s : State) : exec (.vmax m b a d r) s = execVmax m b a d r s := rfl
theorem exec_vminu (m : BitVec 1) (b : BitVec 5) (a : BitVec 5) (d : BitVec 5) (r : BitVec 3) (s : State) : exec (.vminu m b a d r) s = execVminu m b a d r s := rfl
theorem exec_vmaxu (m : BitVec 1) (b : BitVec 5) (a : BitVec 5) (d : BitVec 5) (r : BitVec 3) (s : State) : exec (.vmaxu m b a d r) s = execVmaxu m b a d r s := rfl
theorem exec_vaddx (m : BitVec 1) (b : BitVec 5) (a : BitVec 5) (d : BitVec 5) (r : BitVec 3) (s : State) : exec (.vaddx m b a d r) s = execVaddx m b a d r s := rfl
theorem exec_viota (m : BitVec 1) (ix : BitVec 5) (a : BitVec 5) (d : BitVec 5) (r : BitVec 3) (s : State) : exec (.viota m ix a d r) s = execViota m ix a d r s := rfl
theorem exec_vfadd (m : BitVec 1) (b : BitVec 5) (a : BitVec 5) (d : BitVec 5) (r : BitVec 3) (s : State) : exec (.vfadd m b a d r) s = execVfadd m b a d r s := rfl
theorem exec_vfsub (m : BitVec 1) (b : BitVec 5) (a : BitVec 5) (d : BitVec 5) (r : BitVec 3) (s : State) : exec (.vfsub m b a d r) s = execVfsub m b a d r s := rfl
theorem exec_vfmul (m : BitVec 1) (b : BitVec 5) (a : BitVec 5) (d : BitVec 5) (r : BitVec 3) (s : State) : exec (.vfmul m b a d r) s = execVfmul m b a d r s := rfl
theorem exec_vfma (m : BitVec 1) (b : BitVec 5) (a : BitVec 5) (d : BitVec 5) (r : BitVec 3) (s : State) : exec (.vfma m b a d r) s = execVfma m b a d r s := rfl
theorem exec_vfmin (m : BitVec 1) (b : BitVec 5) (a : BitVec 5) (d : BitVec 5) (r : BitVec 3) (s : State) : exec (.vfmin m b a d r) s = execVfmin m b a d r s := rfl
theorem exec_vfmax (m : BitVec 1) (b : BitVec 5) (a : BitVec 5) (d : BitVec 5) (r : BitVec 3) (s : State) : exec (.vfmax m b a d r) s = execVfmax m b a d r s := rfl
theorem exec_vfexp2 (m : BitVec 1) (a : BitVec 5) (d : BitVec 5) (r : BitVec 3) (s : State) : exec (.vfexp2 m a d r) s = execVfexp2 m a d r s := rfl
theorem exec_vfrcp (m : BitVec 1) (a : BitVec 5) (d : BitVec 5) (r : BitVec 3) (s : State) : exec (.vfrcp m a d r) s = execVfrcp m a d r s := rfl
theorem exec_vfrsqrt (m : BitVec 1) (a : BitVec 5) (d : BitVec 5) (r : BitVec 3) (s : State) : exec (.vfrsqrt m a d r) s = execVfrsqrt m a d r s := rfl
theorem exec_vflog2 (m : BitVec 1) (a : BitVec 5) (d : BitVec 5) (r : BitVec 3) (s : State) : exec (.vflog2 m a d r) s = execVflog2 m a d r s := rfl
theorem exec_vfmulx (m : BitVec 1) (b : BitVec 5) (a : BitVec 5) (d : BitVec 5) (r : BitVec 3) (s : State) : exec (.vfmulx m b a d r) s = execVfmulx m b a d r s := rfl
theorem exec_vfaddx (m : BitVec 1) (b : BitVec 5) (a : BitVec 5) (d : BitVec 5) (r : BitVec 3) (s : State) : exec (.vfaddx m b a d r) s = execVfaddx m b a d r s := rfl
theorem exec_vcmpeq (m : BitVec 1) (b : BitVec 5) (a : BitVec 5) (d : BitVec 5) (r : BitVec 3) (s : State) : exec (.vcmpeq m b a d r) s = execVcmpeq m b a d r s := rfl
theorem exec_vcmplt (m : BitVec 1) (b : BitVec 5) (a : BitVec 5) (d : BitVec 5) (r : BitVec 3) (s : State) : exec (.vcmplt m b a d r) s = execVcmplt m b a d r s := rfl
theorem exec_vcmpltu (m : BitVec 1) (b : BitVec 5) (a : BitVec 5) (d : BitVec 5) (r : BitVec 3) (s : State) : exec (.vcmpltu m b a d r) s = execVcmpltu m b a d r s := rfl
theorem exec_vfcmpeq (m : BitVec 1) (b : BitVec 5) (a : BitVec 5) (d : BitVec 5) (r : BitVec 3) (s : State) : exec (.vfcmpeq m b a d r) s = execVfcmpeq m b a d r s := rfl
theorem exec_vfcmplt (m : BitVec 1) (b : BitVec 5) (a : BitVec 5) (d : BitVec 5) (r : BitVec 3) (s : State) : exec (.vfcmplt m b a d r) s = execVfcmplt m b a d r s := rfl
theorem exec_kopAnd (b : BitVec 3) (a : BitVec 5) (d : BitVec 5) (r : BitVec 3) (s : State) : exec (.kopAnd b a d r) s = execKopAnd b a d r s := rfl
theorem exec_kopOr (b : BitVec 3) (a : BitVec 5) (d : BitVec 5) (r : BitVec 3) (s : State) : exec (.kopOr b a d r) s = execKopOr b a d r s := rfl
theorem exec_kopXor (b : BitVec 3) (a : BitVec 5) (d : BitVec 5) (r : BitVec 3) (s : State) : exec (.kopXor b a d r) s = execKopXor b a d r s := rfl
theorem exec_kopAndn (b : BitVec 3) (a : BitVec 5) (d : BitVec 5) (r : BitVec 3) (s : State) : exec (.kopAndn b a d r) s = execKopAndn b a d r s := rfl
theorem exec_kpop (a : BitVec 5) (d : BitVec 5) (r : BitVec 3) (s : State) : exec (.kpop a d r) s = execKpop a d r s := rfl
theorem exec_kpopFirst (a : BitVec 5) (d : BitVec 5) (r : BitVec 3) (s : State) : exec (.kpopFirst a d r) s = execKpopFirst a d r s := rfl
theorem exec_vsel (b : BitVec 5) (a : BitVec 5) (d : BitVec 5) (r : BitVec 3) (s : State) : exec (.vsel b a d r) s = execVsel b a d r s := rfl
theorem exec_vcvtn (m : BitVec 1) (f : BitVec 5) (a : BitVec 5) (d : BitVec 5) (r : BitVec 3) (s : State) : exec (.vcvtn m f a d r) s = execVcvtn m f a d r s := rfl
theorem exec_vcvtw (m : BitVec 1) (f : BitVec 5) (a : BitVec 5) (d : BitVec 5) (r : BitVec 3) (s : State) : exec (.vcvtw m f a d r) s = execVcvtw m f a d r s := rfl
theorem exec_vcvtif (m : BitVec 1) (ix : BitVec 5) (a : BitVec 5) (d : BitVec 5) (r : BitVec 3) (s : State) : exec (.vcvtif m ix a d r) s = execVcvtif m ix a d r s := rfl
theorem exec_vcvtfi (m : BitVec 1) (ix : BitVec 5) (a : BitVec 5) (d : BitVec 5) (r : BitVec 3) (s : State) : exec (.vcvtfi m ix a d r) s = execVcvtfi m ix a d r s := rfl
theorem exec_vredsum (m : BitVec 1) (a : BitVec 5) (d : BitVec 5) (r : BitVec 3) (s : State) : exec (.vredsum m a d r) s = execVredsum m a d r s := rfl
theorem exec_vredsumI32 (m : BitVec 1) (a : BitVec 5) (d : BitVec 5) (r : BitVec 3) (s : State) : exec (.vredsumI32 m a d r) s = execVredsumI32 m a d r s := rfl
theorem exec_vredmax (m : BitVec 1) (a : BitVec 5) (d : BitVec 5) (r : BitVec 3) (s : State) : exec (.vredmax m a d r) s = execVredmax m a d r s := rfl
theorem exec_vredmaxI32 (m : BitVec 1) (a : BitVec 5) (d : BitVec 5) (r : BitVec 3) (s : State) : exec (.vredmaxI32 m a d r) s = execVredmaxI32 m a d r s := rfl
theorem exec_vredmin (m : BitVec 1) (a : BitVec 5) (d : BitVec 5) (r : BitVec 3) (s : State) : exec (.vredmin m a d r) s = execVredmin m a d r s := rfl
theorem exec_vredminI32 (m : BitVec 1) (a : BitVec 5) (d : BitVec 5) (r : BitVec 3) (s : State) : exec (.vredminI32 m a d r) s = execVredminI32 m a d r s := rfl
theorem exec_vslide (m : BitVec 1) (b : BitVec 5) (a : BitVec 5) (d : BitVec 5) (r : BitVec 3) (s : State) : exec (.vslide m b a d r) s = execVslide m b a d r s := rfl
theorem exec_vperm (m : BitVec 1) (b : BitVec 5) (a : BitVec 5) (d : BitVec 5) (r : BitVec 3) (s : State) : exec (.vperm m b a d r) s = execVperm m b a d r s := rfl
theorem exec_vcompress (a : BitVec 5) (d : BitVec 5) (r : BitVec 3) (s : State) : exec (.vcompress a d r) s = execVcompress a d r s := rfl
theorem exec_vmvxv (m : BitVec 1) (a : BitVec 5) (d : BitVec 5) (r : BitVec 3) (s : State) : exec (.vmvxv m a d r) s = execVmvxv m a d r s := rfl
theorem exec_vmvvx (ix : BitVec 5) (a : BitVec 5) (d : BitVec 5) (r : BitVec 3) (s : State) : exec (.vmvvx ix a d r) s = execVmvvx ix a d r s := rfl
theorem exec_vsmaxacc (m : BitVec 1) (b : BitVec 5) (a : BitVec 5) (d : BitVec 5) (r : BitVec 3) (s : State) : exec (.vsmaxacc m b a d r) s = execVsmaxacc m b a d r s := rfl
theorem exec_vsmaxfin (m : BitVec 1) (b : BitVec 5) (a : BitVec 5) (d : BitVec 5) (r : BitVec 3) (s : State) : exec (.vsmaxfin m b a d r) s = execVsmaxfin m b a d r s := rfl
theorem exec_vsortkv (b : BitVec 5) (a : BitVec 5) (d : BitVec 5) (r : BitVec 3) (s : State) : exec (.vsortkv b a d r) s = execVsortkv b a d r s := rfl
theorem exec_vseghead (a : BitVec 5) (d : BitVec 5) (r : BitVec 3) (s : State) : exec (.vseghead a d r) s = execVseghead a d r s := rfl
theorem exec_vsppack (ix : BitVec 5) (a : BitVec 5) (d : BitVec 5) (r : BitVec 3) (s : State) : exec (.vsppack ix a d r) s = execVsppack ix a d r s := rfl
theorem exec_vldm (b : BitVec 5) (a : BitVec 5) (d : BitVec 5) (r : BitVec 3) (s : State) : exec (.vldm b a d r) s = execVldm b a d r s := rfl
theorem exec_vstm (b : BitVec 5) (a : BitVec 5) (d : BitVec 5) (r : BitVec 3) (s : State) : exec (.vstm b a d r) s = execVstm b a d r s := rfl
theorem exec_vldx (b : BitVec 5) (a : BitVec 5) (d : BitVec 5) (r : BitVec 3) (s : State) : exec (.vldx b a d r) s = execVldx b a d r s := rfl
theorem exec_vstx (b : BitVec 5) (a : BitVec 5) (d : BitVec 5) (r : BitVec 3) (s : State) : exec (.vstx b a d r) s = execVstx b a d r s := rfl
theorem exec_vlds (b : BitVec 5) (a : BitVec 5) (d : BitVec 5) (r : BitVec 3) (s : State) : exec (.vlds b a d r) s = execVlds b a d r s := rfl
theorem exec_vsts (b : BitVec 5) (a : BitVec 5) (d : BitVec 5) (r : BitVec 3) (s : State) : exec (.vsts b a d r) s = execVsts b a d r s := rfl
theorem exec_ldst (z : BitVec 2) (sc : BitVec 3) (a : BitVec 5) (d : BitVec 5) (r : BitVec 3) (s : State) : exec (.ldst z sc a d r) s = execLdst z sc a d r s := rfl
theorem exec_stst (z : BitVec 2) (sc : BitVec 3) (a : BitVec 5) (d : BitVec 5) (r : BitVec 3) (s : State) : exec (.stst z sc a d r) s = execStst z sc a d r s := rfl
theorem exec_phase (sc : BitVec 3) (d : BitVec 5) (r : BitVec 3) (s : State) : exec (.phase sc d r) s = execPhase sc d r s := rfl
theorem exec_fenceBoth (sc : BitVec 3) (r : BitVec 3) (s : State) : exec (.fenceBoth sc r) s = execFenceBoth sc r s := rfl
theorem exec_fenceRel (sc : BitVec 3) (r : BitVec 3) (s : State) : exec (.fenceRel sc r) s = execFenceRel sc r s := rfl
theorem exec_fenceAcq (sc : BitVec 3) (r : BitVec 3) (s : State) : exec (.fenceAcq sc r) s = execFenceAcq sc r s := rfl
theorem exec_spfeEmpty (b : BitVec 5) (a : BitVec 5) (r : BitVec 3) (s : State) : exec (.spfeEmpty b a r) s = execSpfeEmpty b a r s := rfl
theorem exec_spfeFull (b : BitVec 5) (a : BitVec 5) (r : BitVec 3) (s : State) : exec (.spfeFull b a r) s = execSpfeFull b a r s := rfl
theorem exec_sprot (a : BitVec 5) (r : BitVec 3) (s : State) : exec (.sprot a r) s = execSprot a r s := rfl
theorem exec_tld (a : BitVec 5) (d : BitVec 5) (r : BitVec 3) (s : State) : exec (.tld a d r) s = execTld a d r s := rfl
theorem exec_tst (a : BitVec 5) (d : BitVec 5) (r : BitVec 3) (s : State) : exec (.tst a d r) s = execTst a d r s := rfl
theorem exec_barinit (b : BitVec 5) (a : BitVec 5) (r : BitVec 3) (s : State) : exec (.barinit b a r) s = execBarinit b a r s := rfl
theorem exec_barinitForce (a : BitVec 5) (r : BitVec 3) (s : State) : exec (.barinitForce a r) s = execBarinitForce a r s := rfl
theorem exec_barinitFree (a : BitVec 5) (r : BitVec 3) (s : State) : exec (.barinitFree a r) s = execBarinitFree a r s := rfl
theorem exec_bararr (b : BitVec 5) (a : BitVec 5) (d : BitVec 5) (r : BitVec 3) (s : State) : exec (.bararr b a d r) s = execBararr b a d r s := rfl
theorem exec_bardrop (b : BitVec 5) (a : BitVec 5) (d : BitVec 5) (r : BitVec 3) (s : State) : exec (.bardrop b a d r) s = execBardrop b a d r s := rfl
theorem exec_barjoin (b : BitVec 5) (a : BitVec 5) (d : BitVec 5) (r : BitVec 3) (s : State) : exec (.barjoin b a d r) s = execBarjoin b a d r s := rfl
theorem exec_barwait (b : BitVec 5) (a : BitVec 5) (r : BitVec 3) (s : State) : exec (.barwait b a r) s = execBarwait b a r s := rfl
theorem exec_bartest (b : BitVec 5) (a : BitVec 5) (d : BitVec 5) (r : BitVec 3) (s : State) : exec (.bartest b a d r) s = execBartest b a d r s := rfl
theorem exec_waita (b : BitVec 5) (a : BitVec 5) (d : BitVec 5) (r : BitVec 3) (s : State) : exec (.waita b a d r) s = execWaita b a d r s := rfl
theorem exec_ringinit (b : BitVec 5) (a : BitVec 5) (q : BitVec 5) (r : BitVec 3) (s : State) : exec (.ringinit b a q r) s = execRinginit b a q r s := rfl
theorem exec_ringclaim (q : BitVec 5) (d : BitVec 5) (r : BitVec 3) (s : State) : exec (.ringclaim q d r) s = execRingclaim q d r s := rfl
theorem exec_ringcommit (b : BitVec 5) (q : BitVec 5) (r : BitVec 3) (s : State) : exec (.ringcommit b q r) s = execRingcommit b q r s := rfl
theorem exec_ringtake (q : BitVec 5) (d : BitVec 5) (r : BitVec 3) (s : State) : exec (.ringtake q d r) s = execRingtake q d r s := rfl
theorem exec_ringfree (b : BitVec 5) (q : BitVec 5) (r : BitVec 3) (s : State) : exec (.ringfree b q r) s = execRingfree b q r s := rfl
theorem exec_waitfill (b : BitVec 5) (q : BitVec 5) (d : BitVec 5) (r : BitVec 3) (s : State) : exec (.waitfill b q d r) s = execWaitfill b q d r s := rfl
theorem exec_waitfree (b : BitVec 5) (q : BitVec 5) (d : BitVec 5) (r : BitVec 3) (s : State) : exec (.waitfree b q d r) s = execWaitfree b q d r s := rfl
theorem exec_redaF32add (b : BitVec 5) (a : BitVec 5) (r : BitVec 3) (s : State) : exec (.redaF32add b a r) s = execRedaF32add b a r s := rfl
theorem exec_redaBf16add (b : BitVec 5) (a : BitVec 5) (r : BitVec 3) (s : State) : exec (.redaBf16add b a r) s = execRedaBf16add b a r s := rfl
theorem exec_redaI32add (b : BitVec 5) (a : BitVec 5) (r : BitVec 3) (s : State) : exec (.redaI32add b a r) s = execRedaI32add b a r s := rfl
theorem exec_redaF32max (b : BitVec 5) (a : BitVec 5) (r : BitVec 3) (s : State) : exec (.redaF32max b a r) s = execRedaF32max b a r s := rfl
theorem exec_redaF32min (b : BitVec 5) (a : BitVec 5) (r : BitVec 3) (s : State) : exec (.redaF32min b a r) s = execRedaF32min b a r s := rfl
theorem exec_redaI32max (b : BitVec 5) (a : BitVec 5) (r : BitVec 3) (s : State) : exec (.redaI32max b a r) s = execRedaI32max b a r s := rfl
theorem exec_redaI32min (b : BitVec 5) (a : BitVec 5) (r : BitVec 3) (s : State) : exec (.redaI32min b a r) s = execRedaI32min b a r s := rfl
theorem exec_redfence (d : BitVec 5) (r : BitVec 3) (s : State) : exec (.redfence d r) s = execRedfence d r s := rfl
theorem exec_prcfg (b : BitVec 5) (a : BitVec 5) (d : BitVec 5) (r : BitVec 3) (s : State) : exec (.prcfg b a d r) s = execPrcfg b a d r s := rfl
theorem exec_prinv (a : BitVec 5) (d : BitVec 5) (r : BitVec 3) (s : State) : exec (.prinv a d r) s = execPrinv a d r s := rfl
theorem exec_prpin (a : BitVec 5) (r : BitVec 3) (s : State) : exec (.prpin a r) s = execPrpin a r s := rfl
theorem exec_prunpin (a : BitVec 5) (r : BitVec 3) (s : State) : exec (.prunpin a r) s = execPrunpin a r s := rfl
theorem exec_cparm (b : BitVec 5) (a : BitVec 5) (d : BitVec 5) (r : BitVec 3) (s : State) : exec (.cparm b a d r) s = execCparm b a d r s := rfl
theorem exec_cpstep (b : BitVec 5) (a : BitVec 5) (d : BitVec 5) (r : BitVec 3) (s : State) : exec (.cpstep b a d r) s = execCpstep b a d r s := rfl
theorem exec_cpstat (a : BitVec 5) (d : BitVec 5) (r : BitVec 3) (s : State) : exec (.cpstat a d r) s = execCpstat a d r s := rfl
theorem exec_cpcancel (a : BitVec 5) (d : BitVec 5) (r : BitVec 3) (s : State) : exec (.cpcancel a d r) s = execCpcancel a d r s := rfl
theorem exec_nbmode (b : BitVec 5) (a : BitVec 5) (d : BitVec 5) (r : BitVec 3) (s : State) : exec (.nbmode b a d r) s = execNbmode b a d r s := rfl
theorem exec_nbcmd (b : BitVec 5) (a : BitVec 5) (d : BitVec 5) (r : BitVec 3) (s : State) : exec (.nbcmd b a d r) s = execNbcmd b a d r s := rfl
theorem exec_nbfence (d : BitVec 5) (r : BitVec 3) (s : State) : exec (.nbfence d r) s = execNbfence d r s := rfl
theorem exec_nbrd (b : BitVec 5) (a : BitVec 5) (d : BitVec 5) (r : BitVec 3) (s : State) : exec (.nbrd b a d r) s = execNbrd b a d r s := rfl
theorem exec_hintLife (b : BitVec 5) (a : BitVec 5) (r : BitVec 3) (s : State) : exec (.hintLife b a r) s = execHintLife b a r s := rfl
theorem exec_hintPref (a : BitVec 5) (r : BitVec 3) (s : State) : exec (.hintPref a r) s = execHintPref a r s := rfl
theorem exec_hintFetch (a : BitVec 5) (r : BitVec 3) (s : State) : exec (.hintFetch a r) s = execHintFetch a r s := rfl
theorem exec_stepadv (a : BitVec 5) (d : BitVec 5) (r : BitVec 3) (s : State) : exec (.stepadv a d r) s = execStepadv a d r s := rfl
theorem exec_mma (b : BitVec 5) (a : BitVec 5) (x : BitVec 1) (y : BitVec 1) (o : BitVec 4) (r : BitVec 3) (s : State) : exec (.mma b a x y o r) s = execMma b a x y o r s := rfl
theorem exec_mmaAcc (b : BitVec 5) (a : BitVec 5) (x : BitVec 1) (y : BitVec 1) (o : BitVec 4) (r : BitVec 3) (s : State) : exec (.mmaAcc b a x y o r) s = execMmaAcc b a x y o r s := rfl
theorem exec_mmaNeg (b : BitVec 5) (a : BitVec 5) (x : BitVec 1) (y : BitVec 1) (o : BitVec 4) (r : BitVec 3) (s : State) : exec (.mmaNeg b a x y o r) s = execMmaNeg b a x y o r s := rfl
theorem exec_mmas (b : BitVec 5) (a : BitVec 5) (x : BitVec 1) (y : BitVec 1) (o : BitVec 4) (r : BitVec 3) (s : State) : exec (.mmas b a x y o r) s = execMmas b a x y o r s := rfl
theorem exec_mmasAcc (b : BitVec 5) (a : BitVec 5) (x : BitVec 1) (y : BitVec 1) (o : BitVec 4) (r : BitVec 3) (s : State) : exec (.mmasAcc b a x y o r) s = execMmasAcc b a x y o r s := rfl
theorem exec_mmasNeg (b : BitVec 5) (a : BitVec 5) (x : BitVec 1) (y : BitVec 1) (o : BitVec 4) (r : BitVec 3) (s : State) : exec (.mmasNeg b a x y o r) s = execMmasNeg b a x y o r s := rfl
theorem exec_accz (n : BitVec 4) (r : BitVec 3) (s : State) : exec (.accz n r) s = execAccz n r s := rfl
theorem exec_accscl (v : BitVec 5) (o : BitVec 4) (r : BitVec 3) (s : State) : exec (.accscl v o r) s = execAccscl v o r s := rfl
theorem exec_accsclX (v : BitVec 5) (o : BitVec 4) (r : BitVec 3) (s : State) : exec (.accsclX v o r) s = execAccsclX v o r s := rfl
theorem exec_accrd (n : BitVec 2) (t : BitVec 5) (d : BitVec 5) (o : BitVec 4) (r : BitVec 3) (s : State) : exec (.accrd n t d o r) s = execAccrd n t d o r s := rfl
theorem exec_accrdCol (n : BitVec 2) (t : BitVec 5) (d : BitVec 5) (o : BitVec 4) (r : BitVec 3) (s : State) : exec (.accrdCol n t d o r) s = execAccrdCol n t d o r s := rfl
theorem exec_accwr (n : BitVec 2) (t : BitVec 5) (d : BitVec 5) (o : BitVec 4) (r : BitVec 3) (s : State) : exec (.accwr n t d o r) s = execAccwr n t d o r s := rfl
theorem exec_accwrCol (n : BitVec 2) (t : BitVec 5) (d : BitVec 5) (o : BitVec 4) (r : BitVec 3) (s : State) : exec (.accwrCol n t d o r) s = execAccwrCol n t d o r s := rfl
theorem exec_epi (b : BitVec 5) (a : BitVec 5) (x : BitVec 1) (r : BitVec 3) (s : State) : exec (.epi b a x r) s = execEpi b a x r s := rfl
theorem exec_mqctlWait (r : BitVec 3) (s : State) : exec (.mqctlWait r) s = execMqctlWait r s := rfl
theorem exec_mqctlRm (sc : BitVec 5) (r : BitVec 3) (s : State) : exec (.mqctlRm sc r) s = execMqctlRm sc r s := rfl
theorem exec_mqctlFtb (sc : BitVec 5) (r : BitVec 3) (s : State) : exec (.mqctlFtb sc r) s = execMqctlFtb sc r s := rfl
theorem exec_opu (h : BitVec 5) (a : BitVec 5) (r : BitVec 3) (s : State) : exec (.opu h a r) s = execOpu h a r s := rfl
theorem exec_fwfwd (h : BitVec 5) (a : BitVec 5) (r : BitVec 3) (s : State) : exec (.fwfwd h a r) s = execFwfwd h a r s := rfl
theorem exec_fwupdD (h : BitVec 5) (a : BitVec 5) (b : BitVec 5) (r : BitVec 3) (s : State) : exec (.fwupdD h a b r) s = execFwupdD h a b r s := rfl
theorem exec_fwupdH (h : BitVec 5) (a : BitVec 5) (b : BitVec 5) (r : BitVec 3) (s : State) : exec (.fwupdH h a b r) s = execFwupdH h a b r s := rfl
theorem exec_fwupdE (h : BitVec 5) (a : BitVec 5) (b : BitVec 5) (r : BitVec 3) (s : State) : exec (.fwupdE h a b r) s = execFwupdE h a b r s := rfl
theorem exec_fwfuD (h : BitVec 5) (a : BitVec 5) (b : BitVec 5) (r : BitVec 3) (s : State) : exec (.fwfuD h a b r) s = execFwfuD h a b r s := rfl
theorem exec_fwfuDl (h : BitVec 5) (a : BitVec 5) (b : BitVec 5) (r : BitVec 3) (s : State) : exec (.fwfuDl h a b r) s = execFwfuDl h a b r s := rfl
theorem exec_fwfuH (h : BitVec 5) (a : BitVec 5) (b : BitVec 5) (r : BitVec 3) (s : State) : exec (.fwfuH h a b r) s = execFwfuH h a b r s := rfl
theorem exec_fwfuHl (h : BitVec 5) (a : BitVec 5) (b : BitVec 5) (r : BitVec 3) (s : State) : exec (.fwfuHl h a b r) s = execFwfuHl h a b r s := rfl
theorem exec_fwfuE (h : BitVec 5) (a : BitVec 5) (b : BitVec 5) (r : BitVec 3) (s : State) : exec (.fwfuE h a b r) s = execFwfuE h a b r s := rfl
theorem exec_fwsnapSnap (h : BitVec 5) (a : BitVec 5) (r : BitVec 3) (s : State) : exec (.fwsnapSnap h a r) s = execFwsnapSnap h a r s := rfl
theorem exec_fwsnapFork (h : BitVec 5) (a : BitVec 5) (r : BitVec 3) (s : State) : exec (.fwsnapFork h a r) s = execFwsnapFork h a r s := rfl
theorem exec_fwsnapRollback (h : BitVec 5) (a : BitVec 5) (r : BitVec 3) (s : State) : exec (.fwsnapRollback h a r) s = execFwsnapRollback h a r s := rfl
theorem exec_fwsnapFree (h : BitVec 5) (r : BitVec 3) (s : State) : exec (.fwsnapFree h r) s = execFwsnapFree h r s := rfl
theorem exec_fwavg (h : BitVec 5) (a : BitVec 5) (b : BitVec 5) (r : BitVec 3) (s : State) : exec (.fwavg h a b r) s = execFwavg h a b r s := rfl
theorem exec_fwmig (h : BitVec 5) (a : BitVec 5) (r : BitVec 3) (s : State) : exec (.fwmig h a r) s = execFwmig h a r s := rfl
theorem exec_fwctlPin (h : BitVec 5) (r : BitVec 3) (s : State) : exec (.fwctlPin h r) s = execFwctlPin h r s := rfl
theorem exec_fwctlUnpin (h : BitVec 5) (r : BitVec 3) (s : State) : exec (.fwctlUnpin h r) s = execFwctlUnpin h r s := rfl
theorem exec_fwctlQuery (h : BitVec 5) (a : BitVec 5) (r : BitVec 3) (s : State) : exec (.fwctlQuery h a r) s = execFwctlQuery h a r s := rfl
theorem exec_fwctlHint (h : BitVec 5) (a : BitVec 5) (b : BitVec 5) (r : BitVec 3) (s : State) : exec (.fwctlHint h a b r) s = execFwctlHint h a b r s := rfl
theorem exec_fwctlWait (h : BitVec 5) (r : BitVec 3) (s : State) : exec (.fwctlWait h r) s = execFwctlWait h r s := rfl
theorem exec_fwctlNew (h : BitVec 5) (a : BitVec 5) (b : BitVec 5) (r : BitVec 3) (s : State) : exec (.fwctlNew h a b r) s = execFwctlNew h a b r s := rfl
theorem exec_role (m : BitVec 7) (sc : BitVec 8) (s : State) : exec (.role m sc) s = execRole m sc s := rfl
theorem exec_handoff (v : BitVec 3) (q : BitVec 4) (n : BitVec 8) (sc : BitVec 3) (s : State) : exec (.handoff v q n sc) s = execHandoff v q n sc s := rfl
theorem exec_loop (c : BitVec 5) (e : BitVec 10) (r : BitVec 3) (s : State) : exec (.loop c e r) s = execLoop c e r s := rfl
theorem exec_roleid (a : BitVec 5) (d : BitVec 5) (r : BitVec 3) (s : State) : exec (.roleid a d r) s = execRoleid a d r s := rfl
theorem exec_drift (a : BitVec 5) (d : BitVec 5) (r : BitVec 3) (s : State) : exec (.drift a d r) s = execDrift a d r s := rfl
theorem exec_vgrow (a : BitVec 5) (d : BitVec 5) (r : BitVec 3) (s : State) : exec (.vgrow a d r) s = execVgrow a d r s := rfl
theorem exec_vshrink (a : BitVec 5) (d : BitVec 5) (r : BitVec 3) (s : State) : exec (.vshrink a d r) s = execVshrink a d r s := rfl
theorem exec_fmset (a : BitVec 5) (d : BitVec 5) (r : BitVec 3) (s : State) : exec (.fmset a d r) s = execFmset a d r s := rfl
theorem exec_ftset (b : BitVec 5) (a : BitVec 5) (r : BitVec 3) (s : State) : exec (.ftset b a r) s = execFtset b a r s := rfl
theorem exec_rnext (d : BitVec 5) (r : BitVec 3) (s : State) : exec (.rnext d r) s = execRnext d r s := rfl
theorem exec_ntoken (b : BitVec 5) (a : BitVec 5) (r : BitVec 3) (s : State) : exec (.ntoken b a r) s = execNtoken b a r s := rfl
theorem exec_nctx (a : BitVec 5) (d : BitVec 5) (r : BitVec 3) (s : State) : exec (.nctx a d r) s = execNctx a d r s := rfl
theorem exec_ndone (r : BitVec 3) (s : State) : exec (.ndone r) s = execNdone r s := rfl
theorem exec_nfail (a : BitVec 5) (r : BitVec 3) (s : State) : exec (.nfail a r) s = execNfail a r s := rfl
theorem exec_trapret (r : BitVec 3) (s : State) : exec (.trapret r) s = execTrapret r s := rfl
theorem exec_rqrd (a : BitVec 5) (d : BitVec 5) (r : BitVec 3) (s : State) : exec (.rqrd a d r) s = execRqrd a d r s := rfl
theorem exec_rqwr (b : BitVec 5) (a : BitVec 5) (r : BitVec 3) (s : State) : exec (.rqwr b a r) s = execRqwr b a r s := rfl
theorem exec_rqdrop (a : BitVec 5) (r : BitVec 3) (s : State) : exec (.rqdrop a r) s = execRqdrop a r s := rfl
theorem exec_enread (a : BitVec 5) (d : BitVec 5) (r : BitVec 3) (s : State) : exec (.enread a d r) s = execEnread a d r s := rfl
theorem exec_enest (a : BitVec 5) (d : BitVec 5) (r : BitVec 3) (s : State) : exec (.enest a d r) s = execEnest a d r s := rfl
theorem exec_trec (b : BitVec 5) (a : BitVec 5) (r : BitVec 3) (s : State) : exec (.trec b a r) s = execTrec b a r s := rfl
theorem exec_probe (o : BitVec 10) (a : BitVec 5) (d : BitVec 5) (r : BitVec 3) (s : State) : exec (.probe o a d r) s = execProbe o a d r s := rfl
theorem exec_lui (rd : BitVec 5) (imm : BitVec 20) (s : State) : exec (.lui rd imm) s = execLui rd imm s := rfl
theorem exec_auipc (rd : BitVec 5) (imm : BitVec 20) (s : State) : exec (.auipc rd imm) s = execAuipc rd imm s := rfl
theorem exec_jal (rd : BitVec 5) (imm : BitVec 20) (s : State) : exec (.jal rd imm) s = execJal rd imm s := rfl
theorem exec_jalr (rd : BitVec 5) (rs1 : BitVec 5) (imm : BitVec 12) (s : State) : exec (.jalr rd rs1 imm) s = execJalr rd rs1 imm s := rfl
theorem exec_beq (rs1 : BitVec 5) (rs2 : BitVec 5) (imm : BitVec 12) (s : State) : exec (.beq rs1 rs2 imm) s = execBeq rs1 rs2 imm s := rfl
theorem exec_bne (rs1 : BitVec 5) (rs2 : BitVec 5) (imm : BitVec 12) (s : State) : exec (.bne rs1 rs2 imm) s = execBne rs1 rs2 imm s := rfl
theorem exec_blt (rs1 : BitVec 5) (rs2 : BitVec 5) (imm : BitVec 12) (s : State) : exec (.blt rs1 rs2 imm) s = execBlt rs1 rs2 imm s := rfl
theorem exec_bge (rs1 : BitVec 5) (rs2 : BitVec 5) (imm : BitVec 12) (s : State) : exec (.bge rs1 rs2 imm) s = execBge rs1 rs2 imm s := rfl
theorem exec_bltu (rs1 : BitVec 5) (rs2 : BitVec 5) (imm : BitVec 12) (s : State) : exec (.bltu rs1 rs2 imm) s = execBltu rs1 rs2 imm s := rfl
theorem exec_bgeu (rs1 : BitVec 5) (rs2 : BitVec 5) (imm : BitVec 12) (s : State) : exec (.bgeu rs1 rs2 imm) s = execBgeu rs1 rs2 imm s := rfl
theorem exec_lb (rd : BitVec 5) (rs1 : BitVec 5) (imm : BitVec 12) (s : State) : exec (.lb rd rs1 imm) s = execLb rd rs1 imm s := rfl
theorem exec_lh (rd : BitVec 5) (rs1 : BitVec 5) (imm : BitVec 12) (s : State) : exec (.lh rd rs1 imm) s = execLh rd rs1 imm s := rfl
theorem exec_lw (rd : BitVec 5) (rs1 : BitVec 5) (imm : BitVec 12) (s : State) : exec (.lw rd rs1 imm) s = execLw rd rs1 imm s := rfl
theorem exec_ld (rd : BitVec 5) (rs1 : BitVec 5) (imm : BitVec 12) (s : State) : exec (.ld rd rs1 imm) s = execLd rd rs1 imm s := rfl
theorem exec_lbu (rd : BitVec 5) (rs1 : BitVec 5) (imm : BitVec 12) (s : State) : exec (.lbu rd rs1 imm) s = execLbu rd rs1 imm s := rfl
theorem exec_lhu (rd : BitVec 5) (rs1 : BitVec 5) (imm : BitVec 12) (s : State) : exec (.lhu rd rs1 imm) s = execLhu rd rs1 imm s := rfl
theorem exec_lwu (rd : BitVec 5) (rs1 : BitVec 5) (imm : BitVec 12) (s : State) : exec (.lwu rd rs1 imm) s = execLwu rd rs1 imm s := rfl
theorem exec_sb (rs1 : BitVec 5) (rs2 : BitVec 5) (imm : BitVec 12) (s : State) : exec (.sb rs1 rs2 imm) s = execSb rs1 rs2 imm s := rfl
theorem exec_sh (rs1 : BitVec 5) (rs2 : BitVec 5) (imm : BitVec 12) (s : State) : exec (.sh rs1 rs2 imm) s = execSh rs1 rs2 imm s := rfl
theorem exec_sw (rs1 : BitVec 5) (rs2 : BitVec 5) (imm : BitVec 12) (s : State) : exec (.sw rs1 rs2 imm) s = execSw rs1 rs2 imm s := rfl
theorem exec_sd (rs1 : BitVec 5) (rs2 : BitVec 5) (imm : BitVec 12) (s : State) : exec (.sd rs1 rs2 imm) s = execSd rs1 rs2 imm s := rfl
theorem exec_addi (rd : BitVec 5) (rs1 : BitVec 5) (imm : BitVec 12) (s : State) : exec (.addi rd rs1 imm) s = execAddi rd rs1 imm s := rfl
theorem exec_slti (rd : BitVec 5) (rs1 : BitVec 5) (imm : BitVec 12) (s : State) : exec (.slti rd rs1 imm) s = execSlti rd rs1 imm s := rfl
theorem exec_sltiu (rd : BitVec 5) (rs1 : BitVec 5) (imm : BitVec 12) (s : State) : exec (.sltiu rd rs1 imm) s = execSltiu rd rs1 imm s := rfl
theorem exec_xori (rd : BitVec 5) (rs1 : BitVec 5) (imm : BitVec 12) (s : State) : exec (.xori rd rs1 imm) s = execXori rd rs1 imm s := rfl
theorem exec_ori (rd : BitVec 5) (rs1 : BitVec 5) (imm : BitVec 12) (s : State) : exec (.ori rd rs1 imm) s = execOri rd rs1 imm s := rfl
theorem exec_andi (rd : BitVec 5) (rs1 : BitVec 5) (imm : BitVec 12) (s : State) : exec (.andi rd rs1 imm) s = execAndi rd rs1 imm s := rfl
theorem exec_slli (rd : BitVec 5) (rs1 : BitVec 5) (sh : BitVec 6) (s : State) : exec (.slli rd rs1 sh) s = execSlli rd rs1 sh s := rfl
theorem exec_srli (rd : BitVec 5) (rs1 : BitVec 5) (sh : BitVec 6) (s : State) : exec (.srli rd rs1 sh) s = execSrli rd rs1 sh s := rfl
theorem exec_srai (rd : BitVec 5) (rs1 : BitVec 5) (sh : BitVec 6) (s : State) : exec (.srai rd rs1 sh) s = execSrai rd rs1 sh s := rfl
theorem exec_add (rd : BitVec 5) (rs1 : BitVec 5) (rs2 : BitVec 5) (s : State) : exec (.add rd rs1 rs2) s = execAdd rd rs1 rs2 s := rfl
theorem exec_sub (rd : BitVec 5) (rs1 : BitVec 5) (rs2 : BitVec 5) (s : State) : exec (.sub rd rs1 rs2) s = execSub rd rs1 rs2 s := rfl
theorem exec_sll (rd : BitVec 5) (rs1 : BitVec 5) (rs2 : BitVec 5) (s : State) : exec (.sll rd rs1 rs2) s = execSll rd rs1 rs2 s := rfl
theorem exec_slt (rd : BitVec 5) (rs1 : BitVec 5) (rs2 : BitVec 5) (s : State) : exec (.slt rd rs1 rs2) s = execSlt rd rs1 rs2 s := rfl
theorem exec_sltu (rd : BitVec 5) (rs1 : BitVec 5) (rs2 : BitVec 5) (s : State) : exec (.sltu rd rs1 rs2) s = execSltu rd rs1 rs2 s := rfl
theorem exec_xor (rd : BitVec 5) (rs1 : BitVec 5) (rs2 : BitVec 5) (s : State) : exec (.xor rd rs1 rs2) s = execXor rd rs1 rs2 s := rfl
theorem exec_srl (rd : BitVec 5) (rs1 : BitVec 5) (rs2 : BitVec 5) (s : State) : exec (.srl rd rs1 rs2) s = execSrl rd rs1 rs2 s := rfl
theorem exec_sra (rd : BitVec 5) (rs1 : BitVec 5) (rs2 : BitVec 5) (s : State) : exec (.sra rd rs1 rs2) s = execSra rd rs1 rs2 s := rfl
theorem exec_or (rd : BitVec 5) (rs1 : BitVec 5) (rs2 : BitVec 5) (s : State) : exec (.or rd rs1 rs2) s = execOr rd rs1 rs2 s := rfl
theorem exec_and (rd : BitVec 5) (rs1 : BitVec 5) (rs2 : BitVec 5) (s : State) : exec (.and rd rs1 rs2) s = execAnd rd rs1 rs2 s := rfl
theorem exec_addiw (rd : BitVec 5) (rs1 : BitVec 5) (imm : BitVec 12) (s : State) : exec (.addiw rd rs1 imm) s = execAddiw rd rs1 imm s := rfl
theorem exec_slliw (rd : BitVec 5) (rs1 : BitVec 5) (sh : BitVec 5) (s : State) : exec (.slliw rd rs1 sh) s = execSlliw rd rs1 sh s := rfl
theorem exec_srliw (rd : BitVec 5) (rs1 : BitVec 5) (sh : BitVec 5) (s : State) : exec (.srliw rd rs1 sh) s = execSrliw rd rs1 sh s := rfl
theorem exec_sraiw (rd : BitVec 5) (rs1 : BitVec 5) (sh : BitVec 5) (s : State) : exec (.sraiw rd rs1 sh) s = execSraiw rd rs1 sh s := rfl
theorem exec_addw (rd : BitVec 5) (rs1 : BitVec 5) (rs2 : BitVec 5) (s : State) : exec (.addw rd rs1 rs2) s = execAddw rd rs1 rs2 s := rfl
theorem exec_subw (rd : BitVec 5) (rs1 : BitVec 5) (rs2 : BitVec 5) (s : State) : exec (.subw rd rs1 rs2) s = execSubw rd rs1 rs2 s := rfl
theorem exec_sllw (rd : BitVec 5) (rs1 : BitVec 5) (rs2 : BitVec 5) (s : State) : exec (.sllw rd rs1 rs2) s = execSllw rd rs1 rs2 s := rfl
theorem exec_srlw (rd : BitVec 5) (rs1 : BitVec 5) (rs2 : BitVec 5) (s : State) : exec (.srlw rd rs1 rs2) s = execSrlw rd rs1 rs2 s := rfl
theorem exec_sraw (rd : BitVec 5) (rs1 : BitVec 5) (rs2 : BitVec 5) (s : State) : exec (.sraw rd rs1 rs2) s = execSraw rd rs1 rs2 s := rfl
theorem exec_fence (rd : BitVec 5) (rs1 : BitVec 5) (imm : BitVec 12) (s : State) : exec (.fence rd rs1 imm) s = execFence rd rs1 imm s := rfl
theorem exec_fenceTso (rd : BitVec 5) (rs1 : BitVec 5) (s : State) : exec (.fenceTso rd rs1) s = execFenceTso rd rs1 s := rfl
theorem exec_fenceI (rd : BitVec 5) (rs1 : BitVec 5) (imm : BitVec 12) (s : State) : exec (.fenceI rd rs1 imm) s = execFenceI rd rs1 imm s := rfl
theorem exec_ecall (s : State) : exec (.ecall) s = execEcall s := rfl
theorem exec_ebreak (s : State) : exec (.ebreak) s = execEbreak s := rfl
theorem exec_wfi (s : State) : exec (.wfi) s = execWfi s := rfl
theorem exec_mul (rd : BitVec 5) (rs1 : BitVec 5) (rs2 : BitVec 5) (s : State) : exec (.mul rd rs1 rs2) s = execMul rd rs1 rs2 s := rfl
theorem exec_mulh (rd : BitVec 5) (rs1 : BitVec 5) (rs2 : BitVec 5) (s : State) : exec (.mulh rd rs1 rs2) s = execMulh rd rs1 rs2 s := rfl
theorem exec_mulhsu (rd : BitVec 5) (rs1 : BitVec 5) (rs2 : BitVec 5) (s : State) : exec (.mulhsu rd rs1 rs2) s = execMulhsu rd rs1 rs2 s := rfl
theorem exec_mulhu (rd : BitVec 5) (rs1 : BitVec 5) (rs2 : BitVec 5) (s : State) : exec (.mulhu rd rs1 rs2) s = execMulhu rd rs1 rs2 s := rfl
theorem exec_div (rd : BitVec 5) (rs1 : BitVec 5) (rs2 : BitVec 5) (s : State) : exec (.div rd rs1 rs2) s = execDiv rd rs1 rs2 s := rfl
theorem exec_divu (rd : BitVec 5) (rs1 : BitVec 5) (rs2 : BitVec 5) (s : State) : exec (.divu rd rs1 rs2) s = execDivu rd rs1 rs2 s := rfl
theorem exec_rem (rd : BitVec 5) (rs1 : BitVec 5) (rs2 : BitVec 5) (s : State) : exec (.rem rd rs1 rs2) s = execRem rd rs1 rs2 s := rfl
theorem exec_remu (rd : BitVec 5) (rs1 : BitVec 5) (rs2 : BitVec 5) (s : State) : exec (.remu rd rs1 rs2) s = execRemu rd rs1 rs2 s := rfl
theorem exec_mulw (rd : BitVec 5) (rs1 : BitVec 5) (rs2 : BitVec 5) (s : State) : exec (.mulw rd rs1 rs2) s = execMulw rd rs1 rs2 s := rfl
theorem exec_divw (rd : BitVec 5) (rs1 : BitVec 5) (rs2 : BitVec 5) (s : State) : exec (.divw rd rs1 rs2) s = execDivw rd rs1 rs2 s := rfl
theorem exec_divuw (rd : BitVec 5) (rs1 : BitVec 5) (rs2 : BitVec 5) (s : State) : exec (.divuw rd rs1 rs2) s = execDivuw rd rs1 rs2 s := rfl
theorem exec_remw (rd : BitVec 5) (rs1 : BitVec 5) (rs2 : BitVec 5) (s : State) : exec (.remw rd rs1 rs2) s = execRemw rd rs1 rs2 s := rfl
theorem exec_remuw (rd : BitVec 5) (rs1 : BitVec 5) (rs2 : BitVec 5) (s : State) : exec (.remuw rd rs1 rs2) s = execRemuw rd rs1 rs2 s := rfl
theorem exec_lrW (rd : BitVec 5) (rs1 : BitVec 5) (aq : BitVec 1) (rl : BitVec 1) (s : State) : exec (.lrW rd rs1 aq rl) s = execLrW rd rs1 aq rl s := rfl
theorem exec_lrD (rd : BitVec 5) (rs1 : BitVec 5) (aq : BitVec 1) (rl : BitVec 1) (s : State) : exec (.lrD rd rs1 aq rl) s = execLrD rd rs1 aq rl s := rfl
theorem exec_scW (rd : BitVec 5) (rs1 : BitVec 5) (rs2 : BitVec 5) (aq : BitVec 1) (rl : BitVec 1) (s : State) : exec (.scW rd rs1 rs2 aq rl) s = execScW rd rs1 rs2 aq rl s := rfl
theorem exec_scD (rd : BitVec 5) (rs1 : BitVec 5) (rs2 : BitVec 5) (aq : BitVec 1) (rl : BitVec 1) (s : State) : exec (.scD rd rs1 rs2 aq rl) s = execScD rd rs1 rs2 aq rl s := rfl
theorem exec_amoswapW (rd : BitVec 5) (rs1 : BitVec 5) (rs2 : BitVec 5) (aq : BitVec 1) (rl : BitVec 1) (s : State) : exec (.amoswapW rd rs1 rs2 aq rl) s = execAmoswapW rd rs1 rs2 aq rl s := rfl
theorem exec_amoswapD (rd : BitVec 5) (rs1 : BitVec 5) (rs2 : BitVec 5) (aq : BitVec 1) (rl : BitVec 1) (s : State) : exec (.amoswapD rd rs1 rs2 aq rl) s = execAmoswapD rd rs1 rs2 aq rl s := rfl
theorem exec_amoaddW (rd : BitVec 5) (rs1 : BitVec 5) (rs2 : BitVec 5) (aq : BitVec 1) (rl : BitVec 1) (s : State) : exec (.amoaddW rd rs1 rs2 aq rl) s = execAmoaddW rd rs1 rs2 aq rl s := rfl
theorem exec_amoaddD (rd : BitVec 5) (rs1 : BitVec 5) (rs2 : BitVec 5) (aq : BitVec 1) (rl : BitVec 1) (s : State) : exec (.amoaddD rd rs1 rs2 aq rl) s = execAmoaddD rd rs1 rs2 aq rl s := rfl
theorem exec_amoxorW (rd : BitVec 5) (rs1 : BitVec 5) (rs2 : BitVec 5) (aq : BitVec 1) (rl : BitVec 1) (s : State) : exec (.amoxorW rd rs1 rs2 aq rl) s = execAmoxorW rd rs1 rs2 aq rl s := rfl
theorem exec_amoxorD (rd : BitVec 5) (rs1 : BitVec 5) (rs2 : BitVec 5) (aq : BitVec 1) (rl : BitVec 1) (s : State) : exec (.amoxorD rd rs1 rs2 aq rl) s = execAmoxorD rd rs1 rs2 aq rl s := rfl
theorem exec_amoandW (rd : BitVec 5) (rs1 : BitVec 5) (rs2 : BitVec 5) (aq : BitVec 1) (rl : BitVec 1) (s : State) : exec (.amoandW rd rs1 rs2 aq rl) s = execAmoandW rd rs1 rs2 aq rl s := rfl
theorem exec_amoandD (rd : BitVec 5) (rs1 : BitVec 5) (rs2 : BitVec 5) (aq : BitVec 1) (rl : BitVec 1) (s : State) : exec (.amoandD rd rs1 rs2 aq rl) s = execAmoandD rd rs1 rs2 aq rl s := rfl
theorem exec_amoorW (rd : BitVec 5) (rs1 : BitVec 5) (rs2 : BitVec 5) (aq : BitVec 1) (rl : BitVec 1) (s : State) : exec (.amoorW rd rs1 rs2 aq rl) s = execAmoorW rd rs1 rs2 aq rl s := rfl
theorem exec_amoorD (rd : BitVec 5) (rs1 : BitVec 5) (rs2 : BitVec 5) (aq : BitVec 1) (rl : BitVec 1) (s : State) : exec (.amoorD rd rs1 rs2 aq rl) s = execAmoorD rd rs1 rs2 aq rl s := rfl
theorem exec_amominW (rd : BitVec 5) (rs1 : BitVec 5) (rs2 : BitVec 5) (aq : BitVec 1) (rl : BitVec 1) (s : State) : exec (.amominW rd rs1 rs2 aq rl) s = execAmominW rd rs1 rs2 aq rl s := rfl
theorem exec_amominD (rd : BitVec 5) (rs1 : BitVec 5) (rs2 : BitVec 5) (aq : BitVec 1) (rl : BitVec 1) (s : State) : exec (.amominD rd rs1 rs2 aq rl) s = execAmominD rd rs1 rs2 aq rl s := rfl
theorem exec_amomaxW (rd : BitVec 5) (rs1 : BitVec 5) (rs2 : BitVec 5) (aq : BitVec 1) (rl : BitVec 1) (s : State) : exec (.amomaxW rd rs1 rs2 aq rl) s = execAmomaxW rd rs1 rs2 aq rl s := rfl
theorem exec_amomaxD (rd : BitVec 5) (rs1 : BitVec 5) (rs2 : BitVec 5) (aq : BitVec 1) (rl : BitVec 1) (s : State) : exec (.amomaxD rd rs1 rs2 aq rl) s = execAmomaxD rd rs1 rs2 aq rl s := rfl
theorem exec_amominuW (rd : BitVec 5) (rs1 : BitVec 5) (rs2 : BitVec 5) (aq : BitVec 1) (rl : BitVec 1) (s : State) : exec (.amominuW rd rs1 rs2 aq rl) s = execAmominuW rd rs1 rs2 aq rl s := rfl
theorem exec_amominuD (rd : BitVec 5) (rs1 : BitVec 5) (rs2 : BitVec 5) (aq : BitVec 1) (rl : BitVec 1) (s : State) : exec (.amominuD rd rs1 rs2 aq rl) s = execAmominuD rd rs1 rs2 aq rl s := rfl
theorem exec_amomaxuW (rd : BitVec 5) (rs1 : BitVec 5) (rs2 : BitVec 5) (aq : BitVec 1) (rl : BitVec 1) (s : State) : exec (.amomaxuW rd rs1 rs2 aq rl) s = execAmomaxuW rd rs1 rs2 aq rl s := rfl
theorem exec_amomaxuD (rd : BitVec 5) (rs1 : BitVec 5) (rs2 : BitVec 5) (aq : BitVec 1) (rl : BitVec 1) (s : State) : exec (.amomaxuD rd rs1 rs2 aq rl) s = execAmomaxuD rd rs1 rs2 aq rl s := rfl
theorem exec_csrrw (rd : BitVec 5) (rs1 : BitVec 5) (csr : BitVec 12) (s : State) : exec (.csrrw rd rs1 csr) s = execCsrrw rd rs1 csr s := rfl
theorem exec_csrrs (rd : BitVec 5) (rs1 : BitVec 5) (csr : BitVec 12) (s : State) : exec (.csrrs rd rs1 csr) s = execCsrrs rd rs1 csr s := rfl
theorem exec_csrrc (rd : BitVec 5) (rs1 : BitVec 5) (csr : BitVec 12) (s : State) : exec (.csrrc rd rs1 csr) s = execCsrrc rd rs1 csr s := rfl
theorem exec_csrrwi (rd : BitVec 5) (uimm : BitVec 5) (csr : BitVec 12) (s : State) : exec (.csrrwi rd uimm csr) s = execCsrrwi rd uimm csr s := rfl
theorem exec_csrrsi (rd : BitVec 5) (uimm : BitVec 5) (csr : BitVec 12) (s : State) : exec (.csrrsi rd uimm csr) s = execCsrrsi rd uimm csr s := rfl
theorem exec_csrrci (rd : BitVec 5) (uimm : BitVec 5) (csr : BitVec 12) (s : State) : exec (.csrrci rd uimm csr) s = execCsrrci rd uimm csr s := rfl
theorem exec_addUw (rd : BitVec 5) (rs1 : BitVec 5) (rs2 : BitVec 5) (s : State) : exec (.addUw rd rs1 rs2) s = execAddUw rd rs1 rs2 s := rfl
theorem exec_sh1add (rd : BitVec 5) (rs1 : BitVec 5) (rs2 : BitVec 5) (s : State) : exec (.sh1add rd rs1 rs2) s = execSh1add rd rs1 rs2 s := rfl
theorem exec_sh2add (rd : BitVec 5) (rs1 : BitVec 5) (rs2 : BitVec 5) (s : State) : exec (.sh2add rd rs1 rs2) s = execSh2add rd rs1 rs2 s := rfl
theorem exec_sh3add (rd : BitVec 5) (rs1 : BitVec 5) (rs2 : BitVec 5) (s : State) : exec (.sh3add rd rs1 rs2) s = execSh3add rd rs1 rs2 s := rfl
theorem exec_sh1addUw (rd : BitVec 5) (rs1 : BitVec 5) (rs2 : BitVec 5) (s : State) : exec (.sh1addUw rd rs1 rs2) s = execSh1addUw rd rs1 rs2 s := rfl
theorem exec_sh2addUw (rd : BitVec 5) (rs1 : BitVec 5) (rs2 : BitVec 5) (s : State) : exec (.sh2addUw rd rs1 rs2) s = execSh2addUw rd rs1 rs2 s := rfl
theorem exec_sh3addUw (rd : BitVec 5) (rs1 : BitVec 5) (rs2 : BitVec 5) (s : State) : exec (.sh3addUw rd rs1 rs2) s = execSh3addUw rd rs1 rs2 s := rfl
theorem exec_slliUw (rd : BitVec 5) (rs1 : BitVec 5) (sh : BitVec 6) (s : State) : exec (.slliUw rd rs1 sh) s = execSlliUw rd rs1 sh s := rfl
theorem exec_csrWriteVslip (v : Word) (s : State) : exec (.csrWriteVslip v) s = execCsrWriteVslip v s := rfl
theorem exec_csrWriteVrm (v : Word) (s : State) : exec (.csrWriteVrm v) s = execCsrWriteVrm v s := rfl
theorem exec_csrWriteFtbase (v : Word) (s : State) : exec (.csrWriteFtbase v) s = execCsrWriteFtbase v s := rfl
theorem exec_csrWriteFtsel (v : Word) (s : State) : exec (.csrWriteFtsel v) s = execCsrWriteFtsel v s := rfl
theorem exec_csrWriteLc (k : BitVec 2) (v : Word) (s : State) : exec (.csrWriteLc k v) s = execCsrWriteLc k v s := rfl
theorem exec_csrWritePidx (v : Word) (s : State) : exec (.csrWritePidx v) s = execCsrWritePidx v s := rfl
theorem exec_csrWriteNbstat (v : Word) (s : State) : exec (.csrWriteNbstat v) s = execCsrWriteNbstat v s := rfl
theorem exec_csrWrite (csr : BitVec 12) (v : Word) (s : State) : exec (.csrWrite csr v) s = execCsrWrite csr v s := rfl
theorem exec_preciseTrap (cause : Nat) (tval : Word) (s : State) : exec (.preciseTrap cause tval) s = execPreciseTrap cause tval s := rfl
theorem exec_preemption (team : Nat) (s : State) : exec (.preemption team) s = execPreemption team s := rfl
theorem exec_preemptionResume (team : Nat) (s : State) : exec (.preemptionResume team) s = execPreemptionResume team s := rfl
theorem exec_handoffCommit (cluster : Nat) (unit : Nat) (s : State) : exec (.handoffCommit cluster unit) s = execHandoffCommit cluster unit s := rfl
theorem exec_phaseHoldRelease (s : State) : exec (.phaseHoldRelease) s = execPhaseHoldRelease s := rfl
theorem exec_windowZeroing (cluster : Nat) (base : Nat) (s : State) : exec (.windowZeroing cluster base) s = execWindowZeroing cluster base s := rfl
theorem exec_emptyLineReadServe (queue : BitVec 3) (s : State) : exec (.emptyLineReadServe queue) s = execEmptyLineReadServe queue s := rfl
theorem exec_probeFill (cluster : Nat) (firing : Nat) (slot : Nat) (s : State) : exec (.probeFill cluster firing slot) s = execProbeFill cluster firing slot s := rfl
theorem exec_stateHoldGrant (s : State) : exec (.stateHoldGrant) s = execStateHoldGrant s := rfl
theorem exec_stateEviction (h : Word) (s : State) : exec (.stateEviction h) s = execStateEviction h s := rfl
theorem exec_statePageIn (h : Word) (s : State) : exec (.statePageIn h) s = execStatePageIn h s := rfl
theorem exec_pageWalk (ctx : Nat) (die : Nat) (va : Word) (write : Bool) (s : State) : exec (.pageWalk ctx die va write) s = execPageWalk ctx die va write s := rfl
theorem exec_tierDemotion (stack : Nat) (s : State) : exec (.tierDemotion stack) s = execTierDemotion stack s := rfl
theorem exec_tierPromotion (ctx : Nat) (va : Nat) (s : State) : exec (.tierPromotion ctx va) s = execTierPromotion ctx va s := rfl
theorem exec_promotionWindowExpiry (s : State) : exec (.promotionWindowExpiry) s = execPromotionWindowExpiry s := rfl
theorem exec_shootdown (ctx : Nat) (va : Nat) (s : State) : exec (.shootdown ctx va) s = execShootdown ctx va s := rfl
theorem exec_shootdownAck (ctx : Nat) (va : Nat) (s : State) : exec (.shootdownAck ctx va) s = execShootdownAck ctx va s := rfl
theorem exec_copyEngineGrant (die : Nat) (s : State) : exec (.copyEngineGrant die) s = execCopyEngineGrant die s := rfl
theorem exec_copyEntryStart (engine : Nat) (s : State) : exec (.copyEntryStart engine) s = execCopyEntryStart engine s := rfl
theorem exec_copyIndexLookup (engine : Nat) (s : State) : exec (.copyIndexLookup engine) s = execCopyIndexLookup engine s := rfl
theorem exec_copyEntryComplete (engine : Nat) (s : State) : exec (.copyEntryComplete engine) s = execCopyEntryComplete engine s := rfl
theorem exec_copyFault (engine : Nat) (s : State) : exec (.copyFault engine) s = execCopyFault engine s := rfl
theorem exec_copyCancelDrain (engine : Nat) (s : State) : exec (.copyCancelDrain engine) s = execCopyCancelDrain engine s := rfl
theorem exec_refreshOwed (s : State) : exec (.refreshOwed) s = execRefreshOwed s := rfl
theorem exec_barrierSubtraction (s : State) : exec (.barrierSubtraction) s = execBarrierSubtraction s := rfl
theorem exec_waiterWake (s : State) : exec (.waiterWake) s = execWaiterWake s := rfl
theorem exec_waitaWake (s : State) : exec (.waitaWake) s = execWaitaWake s := rfl
theorem exec_reductionApply (ix : Nat) (s : State) : exec (.reductionApply ix) s = execReductionApply ix s := rfl
theorem exec_modeEntryComplete (stack : Nat) (chan : Nat) (s : State) : exec (.modeEntryComplete stack chan) s = execModeEntryComplete stack chan s := rfl
theorem exec_modeExitComplete (stack : Nat) (chan : Nat) (s : State) : exec (.modeExitComplete stack chan) s = execModeExitComplete stack chan s := rfl
theorem exec_forcedExit (stack : Nat) (chan : Nat) (s : State) : exec (.forcedExit stack chan) s = execForcedExit stack chan s := rfl
theorem exec_rillMac (stack : Nat) (chan : Nat) (bank : Nat) (s : State) : exec (.rillMac stack chan bank) s = execRillMac stack chan bank s := rfl
theorem exec_rillLoad (stack : Nat) (chan : Nat) (bank : Nat) (s : State) : exec (.rillLoad stack chan bank) s = execRillLoad stack chan bank s := rfl
theorem exec_rillFountain (stack : Nat) (chan : Nat) (bank : Nat) (s : State) : exec (.rillFountain stack chan bank) s = execRillFountain stack chan bank s := rfl
theorem exec_rillZero (stack : Nat) (chan : Nat) (bank : Nat) (s : State) : exec (.rillZero stack chan bank) s = execRillZero stack chan bank s := rfl
theorem exec_rillStore (stack : Nat) (chan : Nat) (bank : Nat) (s : State) : exec (.rillStore stack chan bank) s = execRillStore stack chan bank s := rfl
theorem exec_rillRefreshSlot (stack : Nat) (chan : Nat) (bank : Nat) (s : State) : exec (.rillRefreshSlot stack chan bank) s = execRillRefreshSlot stack chan bank s := rfl
theorem exec_nodeArm (graph : Nat) (node : Nat) (ctx : Nat) (s : State) : exec (.nodeArm graph node ctx) s = execNodeArm graph node ctx s := rfl
theorem exec_firingDecision (die : Nat) (s : State) : exec (.firingDecision die) s = execFiringDecision die s := rfl
theorem exec_rangeSplit (firing : Nat) (cluster : Nat) (s : State) : exec (.rangeSplit firing cluster) s = execRangeSplit firing cluster s := rfl
theorem exec_stageSetReady (firing : Nat) (team : Nat) (s : State) : exec (.stageSetReady firing team) s = execStageSetReady firing team s := rfl
theorem exec_stageTeamMove (graph : Nat) (donor : Nat) (recipient : Nat) (team : Nat) (s : State) : exec (.stageTeamMove graph donor recipient team) s = execStageTeamMove graph donor recipient team s := rfl
theorem exec_firingFault (s : State) : exec (.firingFault) s = execFiringFault s := rfl
theorem exec_coneWalk (graph : Nat) (node : Nat) (s : State) : exec (.coneWalk graph node) s = execConeWalk graph node s := rfl
theorem exec_retryDelayExpiry (firing : Nat) (s : State) : exec (.retryDelayExpiry firing) s = execRetryDelayExpiry firing s := rfl
theorem exec_trapRingSpaceReturn (ctx : Nat) (s : State) : exec (.trapRingSpaceReturn ctx) s = execTrapRingSpaceReturn ctx s := rfl
theorem exec_wfiWake (cell : Nat) (s : State) : exec (.wfiWake cell) s = execWfiWake cell s := rfl
theorem exec_energyWindowBoundary (s : State) : exec (.energyWindowBoundary) s = execEnergyWindowBoundary s := rfl
theorem exec_meterUpdate (s : State) : exec (.meterUpdate) s = execMeterUpdate s := rfl
theorem exec_commandMessage (pasid : Nat) (queue : Nat) (bytes : (List Byte)) (s : State) : exec (.commandMessage pasid queue bytes) s = execCommandMessage pasid queue bytes s := rfl
theorem exec_rdmaWrite (pasid : Nat) (va : Word) (bytes : (List Byte)) (s : State) : exec (.rdmaWrite pasid va bytes) s = execRdmaWrite pasid va bytes s := rfl
theorem exec_unsupportedOperation (pasid : Nat) (s : State) : exec (.unsupportedOperation pasid) s = execUnsupportedOperation pasid s := rfl
theorem exec_pasidLevelRestore (key : Nat) (s : State) : exec (.pasidLevelRestore key) s = execPasidLevelRestore key s := rfl
theorem exec_firmwareEventTake (s : State) : exec (.firmwareEventTake) s = execFirmwareEventTake s := rfl
theorem exec_invoke (pasid : Nat) (queue : Nat) (s : State) : exec (.invoke pasid queue) s = execInvoke pasid queue s := rfl
theorem exec_graph (pasid : Nat) (queue : Nat) (s : State) : exec (.graph pasid queue) s = execGraph pasid queue s := rfl
theorem exec_ib (pasid : Nat) (queue : Nat) (s : State) : exec (.ib pasid queue) s = execIb pasid queue s := rfl
theorem exec_fencePacket (pasid : Nat) (queue : Nat) (s : State) : exec (.fencePacket pasid queue) s = execFencePacket pasid queue s := rfl
theorem exec_fencePacketDone (pasid : Nat) (queue : Nat) (s : State) : exec (.fencePacketDone pasid queue) s = execFencePacketDone pasid queue s := rfl
theorem exec_signal (pasid : Nat) (queue : Nat) (s : State) : exec (.signal pasid queue) s = execSignal pasid queue s := rfl
theorem exec_slotLoad (pasid : Nat) (queue : Nat) (s : State) : exec (.slotLoad pasid queue) s = execSlotLoad pasid queue s := rfl
theorem exec_slotEvict (pasid : Nat) (queue : Nat) (s : State) : exec (.slotEvict pasid queue) s = execSlotEvict pasid queue s := rfl
theorem exec_adminCreateContext (pasid : Nat) (queue : Nat) (s : State) : exec (.adminCreateContext pasid queue) s = execAdminCreateContext pasid queue s := rfl
theorem exec_adminDestroyContext (pasid : Nat) (queue : Nat) (s : State) : exec (.adminDestroyContext pasid queue) s = execAdminDestroyContext pasid queue s := rfl
theorem exec_adminQueueEnable (pasid : Nat) (queue : Nat) (s : State) : exec (.adminQueueEnable pasid queue) s = execAdminQueueEnable pasid queue s := rfl
theorem exec_adminQueueResume (pasid : Nat) (queue : Nat) (s : State) : exec (.adminQueueResume pasid queue) s = execAdminQueueResume pasid queue s := rfl
theorem exec_adminQueueDisable (pasid : Nat) (queue : Nat) (s : State) : exec (.adminQueueDisable pasid queue) s = execAdminQueueDisable pasid queue s := rfl
theorem exec_adminShootdown (pasid : Nat) (queue : Nat) (s : State) : exec (.adminShootdown pasid queue) s = execAdminShootdown pasid queue s := rfl
theorem exec_adminGraphRetry (pasid : Nat) (queue : Nat) (s : State) : exec (.adminGraphRetry pasid queue) s = execAdminGraphRetry pasid queue s := rfl
theorem exec_adminGraphSkip (pasid : Nat) (queue : Nat) (s : State) : exec (.adminGraphSkip pasid queue) s = execAdminGraphSkip pasid queue s := rfl
theorem exec_adminGraphCancel (pasid : Nat) (queue : Nat) (s : State) : exec (.adminGraphCancel pasid queue) s = execAdminGraphCancel pasid queue s := rfl
theorem exec_adminGraphReset (pasid : Nat) (queue : Nat) (s : State) : exec (.adminGraphReset pasid queue) s = execAdminGraphReset pasid queue s := rfl
theorem exec_adminGraphThaw (pasid : Nat) (queue : Nat) (s : State) : exec (.adminGraphThaw pasid queue) s = execAdminGraphThaw pasid queue s := rfl
theorem exec_adminSetPeer (pasid : Nat) (queue : Nat) (s : State) : exec (.adminSetPeer pasid queue) s = execAdminSetPeer pasid queue s := rfl
theorem exec_adminSetClass0Cells (pasid : Nat) (queue : Nat) (s : State) : exec (.adminSetClass0Cells pasid queue) s = execAdminSetClass0Cells pasid queue s := rfl
theorem exec_adminSetEnergyReserve (pasid : Nat) (queue : Nat) (s : State) : exec (.adminSetEnergyReserve pasid queue) s = execAdminSetEnergyReserve pasid queue s := rfl
theorem exec_adminSetTierParams (pasid : Nat) (queue : Nat) (s : State) : exec (.adminSetTierParams pasid queue) s = execAdminSetTierParams pasid queue s := rfl
theorem exec_pldmPrivilegedList (index : Nat) (pasid : Nat) (enable : Bool) (s : State) : exec (.pldmPrivilegedList index pasid enable) s = execPldmPrivilegedList index pasid enable s := rfl
theorem exec_pldmCreateContext (record : (List Byte)) (s : State) : exec (.pldmCreateContext record) s = execPldmCreateContext record s := rfl
theorem exec_pldmEnableQueue (pasid : Nat) (queue : Nat) (qcb : (List Byte)) (s : State) : exec (.pldmEnableQueue pasid queue qcb) s = execPldmEnableQueue pasid queue qcb s := rfl
theorem exec_pldmSigningPolicy (policy : Bool) (s : State) : exec (.pldmSigningPolicy policy) s = execPldmSigningPolicy policy s := rfl
theorem exec_pldmSigningKey (pasid : Nat) (index : Nat) (key : (List Byte)) (s : State) : exec (.pldmSigningKey pasid index key) s = execPldmSigningKey pasid index key s := rfl
theorem exec_pldmPowerLimit (watts : Nat) (s : State) : exec (.pldmPowerLimit watts) s = execPldmPowerLimit watts s := rfl
theorem exec_pldmErrorWindow (minutes : Nat) (threshold : Nat) (s : State) : exec (.pldmErrorWindow minutes threshold) s = execPldmErrorWindow minutes threshold s := rfl
theorem exec_pldmFirmwareUpdate (step : Nat) (image : (List Byte)) (s : State) : exec (.pldmFirmwareUpdate step image) s = execPldmFirmwareUpdate step image s := rfl
theorem exec_getVersion (s : State) : exec (.getVersion) s = execGetVersion s := rfl
theorem exec_getCapabilities (s : State) : exec (.getCapabilities) s = execGetCapabilities s := rfl
theorem exec_negotiateAlgorithms (s : State) : exec (.negotiateAlgorithms) s = execNegotiateAlgorithms s := rfl
theorem exec_getDigests (s : State) : exec (.getDigests) s = execGetDigests s := rfl
theorem exec_getCertificate (s : State) : exec (.getCertificate) s = execGetCertificate s := rfl
theorem exec_challenge (s : State) : exec (.challenge) s = execChallenge s := rfl
theorem exec_getMeasurements (s : State) : exec (.getMeasurements) s = execGetMeasurements s := rfl
theorem exec_boot (s : State) : exec (.boot) s = execBoot s := rfl
theorem exec_flitCrcRetry (link : Nat) (s : State) : exec (.flitCrcRetry link) s = execFlitCrcRetry link s := rfl
theorem exec_linkQuiesceDrained (link : Nat) (s : State) : exec (.linkQuiesceDrained link) s = execLinkQuiesceDrained link s := rfl
theorem exec_linkResetElapsed (link : Nat) (s : State) : exec (.linkResetElapsed link) s = execLinkResetElapsed link s := rfl
theorem exec_linkTrained (link : Nat) (modules : Nat) (s : State) : exec (.linkTrained link modules) s = execLinkTrained link modules s := rfl
theorem exec_linkTrainingFailed (link : Nat) (s : State) : exec (.linkTrainingFailed link) s = execLinkTrainingFailed link s := rfl
theorem exec_linkRetryTimer (link : Nat) (s : State) : exec (.linkRetryTimer link) s = execLinkRetryTimer link s := rfl
theorem exec_camyarRead (link : Nat) (back : Bool) (hdr : BitVec 128) (s : State) : exec (.camyarRead link back hdr) s = execCamyarRead link back hdr s := rfl
theorem exec_camyarReadOwn (link : Nat) (back : Bool) (hdr : BitVec 128) (s : State) : exec (.camyarReadOwn link back hdr) s = execCamyarReadOwn link back hdr s := rfl
theorem exec_camyarWrite (link : Nat) (back : Bool) (hdr : BitVec 128) (data : (List (BitVec 128))) (s : State) : exec (.camyarWrite link back hdr data) s = execCamyarWrite link back hdr data s := rfl
theorem exec_camyarWriteBack (link : Nat) (back : Bool) (hdr : BitVec 128) (data : (List (BitVec 128))) (s : State) : exec (.camyarWriteBack link back hdr data) s = execCamyarWriteBack link back hdr data s := rfl
theorem exec_camyarAmo (link : Nat) (back : Bool) (hdr : BitVec 128) (data : (List (BitVec 128))) (s : State) : exec (.camyarAmo link back hdr data) s = execCamyarAmo link back hdr data s := rfl
theorem exec_camyarReda (link : Nat) (back : Bool) (hdr : BitVec 128) (data : (List (BitVec 128))) (s : State) : exec (.camyarReda link back hdr data) s = execCamyarReda link back hdr data s := rfl
theorem exec_camyarRillCommand (link : Nat) (back : Bool) (hdr : BitVec 128) (data : (List (BitVec 128))) (s : State) : exec (.camyarRillCommand link back hdr data) s = execCamyarRillCommand link back hdr data s := rfl
theorem exec_camyarSyncOperation (link : Nat) (back : Bool) (hdr : BitVec 128) (data : (List (BitVec 128))) (s : State) : exec (.camyarSyncOperation link back hdr data) s = execCamyarSyncOperation link back hdr data s := rfl
theorem exec_camyarCompletion (link : Nat) (back : Bool) (hdr : BitVec 128) (data : (List (BitVec 128))) (s : State) : exec (.camyarCompletion link back hdr data) s = execCamyarCompletion link back hdr data s := rfl
theorem exec_camyarDataReturn (link : Nat) (back : Bool) (hdr : BitVec 128) (data : (List (BitVec 128))) (s : State) : exec (.camyarDataReturn link back hdr data) s = execCamyarDataReturn link back hdr data s := rfl
theorem exec_camyarError (link : Nat) (back : Bool) (hdr : BitVec 128) (data : (List (BitVec 128))) (s : State) : exec (.camyarError link back hdr data) s = execCamyarError link back hdr data s := rfl
theorem exec_camyarShootdown (link : Nat) (back : Bool) (hdr : BitVec 128) (data : (List (BitVec 128))) (s : State) : exec (.camyarShootdown link back hdr data) s = execCamyarShootdown link back hdr data s := rfl
theorem exec_camyarShootdownAck (link : Nat) (back : Bool) (hdr : BitVec 128) (data : (List (BitVec 128))) (s : State) : exec (.camyarShootdownAck link back hdr data) s = execCamyarShootdownAck link back hdr data s := rfl
theorem exec_camyarGraphMessage (link : Nat) (back : Bool) (hdr : BitVec 128) (data : (List (BitVec 128))) (s : State) : exec (.camyarGraphMessage link back hdr data) s = execCamyarGraphMessage link back hdr data s := rfl
theorem exec_camyarStatusBroadcast (link : Nat) (back : Bool) (hdr : BitVec 128) (data : (List (BitVec 128))) (s : State) : exec (.camyarStatusBroadcast link back hdr data) s = execCamyarStatusBroadcast link back hdr data s := rfl
theorem exec_camyarCreditReturn (link : Nat) (back : Bool) (hdr : BitVec 128) (s : State) : exec (.camyarCreditReturn link back hdr) s = execCamyarCreditReturn link back hdr s := rfl
theorem exec_placementTableUpdate (ctx : Nat) (chip : Nat) (seq : Nat) (block : Nat) (holder : Nat) (s : State) : exec (.placementTableUpdate ctx chip seq block holder) s = execPlacementTableUpdate ctx chip seq block holder s := rfl
theorem exec_placementAckTimeout (ctx : Nat) (chip : Nat) (s : State) : exec (.placementAckTimeout ctx chip) s = execPlacementAckTimeout ctx chip s := rfl
theorem exec_errorCorrected (kind : Nat) (number : Nat) (s : State) : exec (.errorCorrected kind number) s = execErrorCorrected kind number s := rfl
theorem exec_errorUncorrectable (space : Nat) (key : Nat) (s : State) : exec (.errorUncorrectable space key) s = execErrorUncorrectable space key s := rfl
theorem exec_sramScrub (s : State) : exec (.sramScrub) s = execSramScrub s := rfl
theorem exec_warmReset (die : Nat) (step : Nat) (failed : (List (Nat × Nat))) (s : State) : exec (.warmReset die step failed) s = execWarmReset die step failed s := rfl
theorem exec_powerLoss (marking : Bool) (s : State) : exec (.powerLoss marking) s = execPowerLoss marking s := rfl
theorem exec_thermalEmergency (declared : Bool) (s : State) : exec (.thermalEmergency declared) s = execThermalEmergency declared s := rfl
theorem exec_placementUpdateAcknowledgement (ctx : Nat) (chip : Nat) (seq : Nat) (s : State) : exec (.placementUpdateAcknowledgement ctx chip seq) s = execPlacementUpdateAcknowledgement ctx chip seq s := rfl
theorem exec_migratedObjectArrival (handle : Word) (cluster : Nat) (attr : Word) (next : BitVec 32) (nextUse : BitVec 32) (rows : (List (BitVec 1024))) (s : State) : exec (.migratedObjectArrival handle cluster attr next nextUse rows) s = execMigratedObjectArrival handle cluster attr next nextUse rows s := rfl

end Sys2Proof.Machine
end

