-- ==== Sys2Proof/Laws/Encoding.lean ====
section
/-! SUPPORT. The fields of the words that the encoder builds (R28 to R33, R43): each field reads back as what was put there. -/

namespace Sys2Proof.Laws

theorem toNat_append {n m : Nat} (x : BitVec n) (y : BitVec m) : (x ++ y).toNat = x.toNat * 2 ^ m + y.toNat := by
  rw [BitVec.toNat_append, Nat.shiftLeft_eq, Nat.mul_comm, ← Nat.two_pow_add_eq_or_of_lt y.isLt]

/-- A field of a word from the word's number. -/
theorem field_of_toNat {w lo n : Nat} {x : BitVec w} {y : BitVec n} (h : x.toNat / 2 ^ lo % 2 ^ n = y.toNat) :
    x.extractLsb' lo n = y := by
  apply BitVec.eq_of_toNat_eq
  rw [BitVec.extractLsb'_toNat, Nat.shiftRight_eq_div_pow, h]

theorem and_ones1 (x : BitVec 1) : x &&& 1#1 = x := by
  rw [show 1#1 = BitVec.allOnes 1 from rfl, BitVec.and_allOnes]

theorem and_ones2 (x : BitVec 2) : x &&& 3#2 = x := by
  rw [show 3#2 = BitVec.allOnes 2 from rfl, BitVec.and_allOnes]

theorem and_ones3 (x : BitVec 3) : x &&& 7#3 = x := by
  rw [show 7#3 = BitVec.allOnes 3 from rfl, BitVec.and_allOnes]

theorem and_ones4 (x : BitVec 4) : x &&& 15#4 = x := by
  rw [show 15#4 = BitVec.allOnes 4 from rfl, BitVec.and_allOnes]

theorem and_ones5 (x : BitVec 5) : x &&& 31#5 = x := by
  rw [show 31#5 = BitVec.allOnes 5 from rfl, BitVec.and_allOnes]

theorem and_ones6 (x : BitVec 6) : x &&& 63#6 = x := by
  rw [show 63#6 = BitVec.allOnes 6 from rfl, BitVec.and_allOnes]

theorem and_ones7 (x : BitVec 7) : x &&& 127#7 = x := by
  rw [show 127#7 = BitVec.allOnes 7 from rfl, BitVec.and_allOnes]

theorem and_ones8 (x : BitVec 8) : x &&& 255#8 = x := by
  rw [show 255#8 = BitVec.allOnes 8 from rfl, BitVec.and_allOnes]

theorem and_ones10 (x : BitVec 10) : x &&& 1023#10 = x := by
  rw [show 1023#10 = BitVec.allOnes 10 from rfl, BitVec.and_allOnes]

theorem encodeV_toNat (f6 : BitVec 6) (m : BitVec 1) (b : BitVec 5) (a : BitVec 5) (d : BitVec 5) (r : BitVec 3) :
    (encodeV f6 m b a d r).toNat = f6.toNat * 2 ^ 26 + m.toNat * 2 ^ 25 + b.toNat * 2 ^ 20 + a.toNat * 2 ^ 15 + d.toNat * 2 ^ 10 + r.toNat * 2 ^ 7 + 11 * 2 ^ 0 := by
  show BitVec.toNat (w := 6 + 1 + 5 + 5 + 5 + 3 + 7) (f6 ++ m ++ b ++ a ++ d ++ r ++ 11#7) = _
  simp only [toNat_append, BitVec.toNat_ofNat]
  omega

@[simp] theorem encodeV_f6 (f6 : BitVec 6) (m : BitVec 1) (b : BitVec 5) (a : BitVec 5) (d : BitVec 5) (r : BitVec 3) :
    (encodeV f6 m b a d r).extractLsb' 26 6 = f6 := by
  apply field_of_toNat
  rw [encodeV_toNat]
  omega

@[simp] theorem encodeV_m (f6 : BitVec 6) (m : BitVec 1) (b : BitVec 5) (a : BitVec 5) (d : BitVec 5) (r : BitVec 3) :
    (encodeV f6 m b a d r).extractLsb' 25 1 = m := by
  apply field_of_toNat
  rw [encodeV_toNat]
  omega

@[simp] theorem encodeV_b (f6 : BitVec 6) (m : BitVec 1) (b : BitVec 5) (a : BitVec 5) (d : BitVec 5) (r : BitVec 3) :
    (encodeV f6 m b a d r).extractLsb' 20 5 = b := by
  apply field_of_toNat
  rw [encodeV_toNat]
  omega

@[simp] theorem encodeV_a (f6 : BitVec 6) (m : BitVec 1) (b : BitVec 5) (a : BitVec 5) (d : BitVec 5) (r : BitVec 3) :
    (encodeV f6 m b a d r).extractLsb' 15 5 = a := by
  apply field_of_toNat
  rw [encodeV_toNat]
  omega

@[simp] theorem encodeV_d (f6 : BitVec 6) (m : BitVec 1) (b : BitVec 5) (a : BitVec 5) (d : BitVec 5) (r : BitVec 3) :
    (encodeV f6 m b a d r).extractLsb' 10 5 = d := by
  apply field_of_toNat
  rw [encodeV_toNat]
  omega

@[simp] theorem encodeV_r (f6 : BitVec 6) (m : BitVec 1) (b : BitVec 5) (a : BitVec 5) (d : BitVec 5) (r : BitVec 3) :
    (encodeV f6 m b a d r).extractLsb' 7 3 = r := by
  apply field_of_toNat
  rw [encodeV_toNat]
  omega

@[simp] theorem encodeV_at0 (f6 : BitVec 6) (m : BitVec 1) (b : BitVec 5) (a : BitVec 5) (d : BitVec 5) (r : BitVec 3) :
    (encodeV f6 m b a d r).extractLsb' 0 7 = 11#7 := by
  apply field_of_toNat
  rw [encodeV_toNat]
  show _ = 11
  omega

@[simp] theorem encodeV_b_0 (f6 : BitVec 6) (m : BitVec 1) (b : BitVec 5) (a : BitVec 5) (d : BitVec 5) (r : BitVec 3) :
    (encodeV f6 m b a d r).extractLsb' 20 3 = b.extractLsb' 0 3 := by
  apply field_of_toNat
  rw [encodeV_toNat, BitVec.extractLsb'_toNat, Nat.shiftRight_eq_div_pow]
  omega

@[simp] theorem encodeV_b_3 (f6 : BitVec 6) (m : BitVec 1) (b : BitVec 5) (a : BitVec 5) (d : BitVec 5) (r : BitVec 3) :
    (encodeV f6 m b a d r).extractLsb' 23 2 = b.extractLsb' 3 2 := by
  apply field_of_toNat
  rw [encodeV_toNat, BitVec.extractLsb'_toNat, Nat.shiftRight_eq_div_pow]
  omega

@[simp] theorem encodeV_maskFC00007F (f6 : BitVec 6) (m : BitVec 1) (b : BitVec 5) (a : BitVec 5) (d : BitVec 5) (r : BitVec 3) :
    (encodeV f6 m b a d r) &&& 0xFC00007F#32 = encodeV f6 0 0 0 0 0 := by
  show (f6 ++ m ++ b ++ a ++ d ++ r ++ 11#7 : BitVec (6 + 1 + 5 + 5 + 5 + 3 + 7)) &&&
    (63#6 ++ 0#1 ++ 0#5 ++ 0#5 ++ 0#5 ++ 0#3 ++ 127#7 : BitVec (6 + 1 + 5 + 5 + 5 + 3 + 7)) = _
  simp only [BitVec.and_append]
  simp only [BitVec.and_zero, and_ones6]
  rfl

@[simp] theorem encodeV_maskFDF0007F (f6 : BitVec 6) (m : BitVec 1) (b : BitVec 5) (a : BitVec 5) (d : BitVec 5) (r : BitVec 3) :
    (encodeV f6 m b a d r) &&& 0xFDF0007F#32 = encodeV f6 0 b 0 0 0 := by
  show (f6 ++ m ++ b ++ a ++ d ++ r ++ 11#7 : BitVec (6 + 1 + 5 + 5 + 5 + 3 + 7)) &&&
    (63#6 ++ 0#1 ++ 31#5 ++ 0#5 ++ 0#5 ++ 0#3 ++ 127#7 : BitVec (6 + 1 + 5 + 5 + 5 + 3 + 7)) = _
  simp only [BitVec.and_append]
  simp only [BitVec.and_zero, and_ones5, and_ones6]
  rfl

@[simp] theorem encodeV_maskFE00007F (f6 : BitVec 6) (m : BitVec 1) (b : BitVec 5) (a : BitVec 5) (d : BitVec 5) (r : BitVec 3) :
    (encodeV f6 m b a d r) &&& 0xFE00007F#32 = encodeV f6 m 0 0 0 0 := by
  show (f6 ++ m ++ b ++ a ++ d ++ r ++ 11#7 : BitVec (6 + 1 + 5 + 5 + 5 + 3 + 7)) &&&
    (63#6 ++ 1#1 ++ 0#5 ++ 0#5 ++ 0#5 ++ 0#3 ++ 127#7 : BitVec (6 + 1 + 5 + 5 + 5 + 3 + 7)) = _
  simp only [BitVec.and_append]
  simp only [BitVec.and_zero, and_ones1, and_ones6]
  rfl

@[simp] theorem encodeV_maskFF80007F (f6 : BitVec 6) (m : BitVec 1) (b : BitVec 5) (a : BitVec 5) (d : BitVec 5) (r : BitVec 3) :
    (encodeV f6 m b a d r) &&& 0xFF80007F#32 = encodeV f6 m (b &&& 24#5) 0 0 0 := by
  show (f6 ++ m ++ b ++ a ++ d ++ r ++ 11#7 : BitVec (6 + 1 + 5 + 5 + 5 + 3 + 7)) &&&
    (63#6 ++ 1#1 ++ 24#5 ++ 0#5 ++ 0#5 ++ 0#3 ++ 127#7 : BitVec (6 + 1 + 5 + 5 + 5 + 3 + 7)) = _
  simp only [BitVec.and_append]
  simp only [BitVec.and_zero, and_ones1, and_ones6]
  rfl

@[simp] theorem encodeV_maskFFF0007F (f6 : BitVec 6) (m : BitVec 1) (b : BitVec 5) (a : BitVec 5) (d : BitVec 5) (r : BitVec 3) :
    (encodeV f6 m b a d r) &&& 0xFFF0007F#32 = encodeV f6 m b 0 0 0 := by
  show (f6 ++ m ++ b ++ a ++ d ++ r ++ 11#7 : BitVec (6 + 1 + 5 + 5 + 5 + 3 + 7)) &&&
    (63#6 ++ 1#1 ++ 31#5 ++ 0#5 ++ 0#5 ++ 0#3 ++ 127#7 : BitVec (6 + 1 + 5 + 5 + 5 + 3 + 7)) = _
  simp only [BitVec.and_append]
  simp only [BitVec.and_zero, and_ones1, and_ones5, and_ones6]
  rfl

theorem encodeM_toNat (f4 : BitVec 4) (n : BitVec 2) (b : BitVec 5) (a : BitVec 5) (x : BitVec 1) (y : BitVec 1) (o : BitVec 4) (r : BitVec 3) :
    (encodeM f4 n b a x y o r).toNat = f4.toNat * 2 ^ 28 + n.toNat * 2 ^ 26 + b.toNat * 2 ^ 21 + a.toNat * 2 ^ 16 + x.toNat * 2 ^ 15 + y.toNat * 2 ^ 14 + o.toNat * 2 ^ 10 + r.toNat * 2 ^ 7 + 43 * 2 ^ 0 := by
  show BitVec.toNat (w := 4 + 2 + 5 + 5 + 1 + 1 + 4 + 3 + 7) (f4 ++ n ++ b ++ a ++ x ++ y ++ o ++ r ++ 43#7) = _
  simp only [toNat_append, BitVec.toNat_ofNat]
  omega

@[simp] theorem encodeM_f4 (f4 : BitVec 4) (n : BitVec 2) (b : BitVec 5) (a : BitVec 5) (x : BitVec 1) (y : BitVec 1) (o : BitVec 4) (r : BitVec 3) :
    (encodeM f4 n b a x y o r).extractLsb' 28 4 = f4 := by
  apply field_of_toNat
  rw [encodeM_toNat]
  omega

@[simp] theorem encodeM_n (f4 : BitVec 4) (n : BitVec 2) (b : BitVec 5) (a : BitVec 5) (x : BitVec 1) (y : BitVec 1) (o : BitVec 4) (r : BitVec 3) :
    (encodeM f4 n b a x y o r).extractLsb' 26 2 = n := by
  apply field_of_toNat
  rw [encodeM_toNat]
  omega

@[simp] theorem encodeM_b (f4 : BitVec 4) (n : BitVec 2) (b : BitVec 5) (a : BitVec 5) (x : BitVec 1) (y : BitVec 1) (o : BitVec 4) (r : BitVec 3) :
    (encodeM f4 n b a x y o r).extractLsb' 21 5 = b := by
  apply field_of_toNat
  rw [encodeM_toNat]
  omega

@[simp] theorem encodeM_a (f4 : BitVec 4) (n : BitVec 2) (b : BitVec 5) (a : BitVec 5) (x : BitVec 1) (y : BitVec 1) (o : BitVec 4) (r : BitVec 3) :
    (encodeM f4 n b a x y o r).extractLsb' 16 5 = a := by
  apply field_of_toNat
  rw [encodeM_toNat]
  omega

@[simp] theorem encodeM_x (f4 : BitVec 4) (n : BitVec 2) (b : BitVec 5) (a : BitVec 5) (x : BitVec 1) (y : BitVec 1) (o : BitVec 4) (r : BitVec 3) :
    (encodeM f4 n b a x y o r).extractLsb' 15 1 = x := by
  apply field_of_toNat
  rw [encodeM_toNat]
  omega

@[simp] theorem encodeM_y (f4 : BitVec 4) (n : BitVec 2) (b : BitVec 5) (a : BitVec 5) (x : BitVec 1) (y : BitVec 1) (o : BitVec 4) (r : BitVec 3) :
    (encodeM f4 n b a x y o r).extractLsb' 14 1 = y := by
  apply field_of_toNat
  rw [encodeM_toNat]
  omega

@[simp] theorem encodeM_o (f4 : BitVec 4) (n : BitVec 2) (b : BitVec 5) (a : BitVec 5) (x : BitVec 1) (y : BitVec 1) (o : BitVec 4) (r : BitVec 3) :
    (encodeM f4 n b a x y o r).extractLsb' 10 4 = o := by
  apply field_of_toNat
  rw [encodeM_toNat]
  omega

@[simp] theorem encodeM_r (f4 : BitVec 4) (n : BitVec 2) (b : BitVec 5) (a : BitVec 5) (x : BitVec 1) (y : BitVec 1) (o : BitVec 4) (r : BitVec 3) :
    (encodeM f4 n b a x y o r).extractLsb' 7 3 = r := by
  apply field_of_toNat
  rw [encodeM_toNat]
  omega

@[simp] theorem encodeM_at0 (f4 : BitVec 4) (n : BitVec 2) (b : BitVec 5) (a : BitVec 5) (x : BitVec 1) (y : BitVec 1) (o : BitVec 4) (r : BitVec 3) :
    (encodeM f4 n b a x y o r).extractLsb' 0 7 = 43#7 := by
  apply field_of_toNat
  rw [encodeM_toNat]
  show _ = 43
  omega

@[simp] theorem encodeM_maskF000C07F (f4 : BitVec 4) (n : BitVec 2) (b : BitVec 5) (a : BitVec 5) (x : BitVec 1) (y : BitVec 1) (o : BitVec 4) (r : BitVec 3) :
    (encodeM f4 n b a x y o r) &&& 0xF000C07F#32 = encodeM f4 0 0 0 x y 0 0 := by
  show (f4 ++ n ++ b ++ a ++ x ++ y ++ o ++ r ++ 43#7 : BitVec (4 + 2 + 5 + 5 + 1 + 1 + 4 + 3 + 7)) &&&
    (15#4 ++ 0#2 ++ 0#5 ++ 0#5 ++ 1#1 ++ 1#1 ++ 0#4 ++ 0#3 ++ 127#7 : BitVec (4 + 2 + 5 + 5 + 1 + 1 + 4 + 3 + 7)) = _
  simp only [BitVec.and_append]
  simp only [BitVec.and_zero, and_ones1, and_ones4]
  rfl

@[simp] theorem encodeM_maskFC00007F (f4 : BitVec 4) (n : BitVec 2) (b : BitVec 5) (a : BitVec 5) (x : BitVec 1) (y : BitVec 1) (o : BitVec 4) (r : BitVec 3) :
    (encodeM f4 n b a x y o r) &&& 0xFC00007F#32 = encodeM f4 n 0 0 0 0 0 0 := by
  show (f4 ++ n ++ b ++ a ++ x ++ y ++ o ++ r ++ 43#7 : BitVec (4 + 2 + 5 + 5 + 1 + 1 + 4 + 3 + 7)) &&&
    (15#4 ++ 3#2 ++ 0#5 ++ 0#5 ++ 0#1 ++ 0#1 ++ 0#4 ++ 0#3 ++ 127#7 : BitVec (4 + 2 + 5 + 5 + 1 + 1 + 4 + 3 + 7)) = _
  simp only [BitVec.and_append]
  simp only [BitVec.and_zero, and_ones2, and_ones4]
  rfl

@[simp] theorem encodeM_maskFC007C7F (f4 : BitVec 4) (n : BitVec 2) (b : BitVec 5) (a : BitVec 5) (x : BitVec 1) (y : BitVec 1) (o : BitVec 4) (r : BitVec 3) :
    (encodeM f4 n b a x y o r) &&& 0xFC007C7F#32 = encodeM f4 n 0 0 0 y o 0 := by
  show (f4 ++ n ++ b ++ a ++ x ++ y ++ o ++ r ++ 43#7 : BitVec (4 + 2 + 5 + 5 + 1 + 1 + 4 + 3 + 7)) &&&
    (15#4 ++ 3#2 ++ 0#5 ++ 0#5 ++ 0#1 ++ 1#1 ++ 15#4 ++ 0#3 ++ 127#7 : BitVec (4 + 2 + 5 + 5 + 1 + 1 + 4 + 3 + 7)) = _
  simp only [BitVec.and_append]
  simp only [BitVec.and_zero, and_ones1, and_ones2, and_ones4]
  rfl

@[simp] theorem encodeM_maskFFE0C07F (f4 : BitVec 4) (n : BitVec 2) (b : BitVec 5) (a : BitVec 5) (x : BitVec 1) (y : BitVec 1) (o : BitVec 4) (r : BitVec 3) :
    (encodeM f4 n b a x y o r) &&& 0xFFE0C07F#32 = encodeM f4 n b 0 x y 0 0 := by
  show (f4 ++ n ++ b ++ a ++ x ++ y ++ o ++ r ++ 43#7 : BitVec (4 + 2 + 5 + 5 + 1 + 1 + 4 + 3 + 7)) &&&
    (15#4 ++ 3#2 ++ 31#5 ++ 0#5 ++ 1#1 ++ 1#1 ++ 0#4 ++ 0#3 ++ 127#7 : BitVec (4 + 2 + 5 + 5 + 1 + 1 + 4 + 3 + 7)) = _
  simp only [BitVec.and_append]
  simp only [BitVec.and_zero, and_ones1, and_ones2, and_ones4, and_ones5]
  rfl

@[simp] theorem encodeM_maskFFE0FC7F (f4 : BitVec 4) (n : BitVec 2) (b : BitVec 5) (a : BitVec 5) (x : BitVec 1) (y : BitVec 1) (o : BitVec 4) (r : BitVec 3) :
    (encodeM f4 n b a x y o r) &&& 0xFFE0FC7F#32 = encodeM f4 n b 0 x y o 0 := by
  show (f4 ++ n ++ b ++ a ++ x ++ y ++ o ++ r ++ 43#7 : BitVec (4 + 2 + 5 + 5 + 1 + 1 + 4 + 3 + 7)) &&&
    (15#4 ++ 3#2 ++ 31#5 ++ 0#5 ++ 1#1 ++ 1#1 ++ 15#4 ++ 0#3 ++ 127#7 : BitVec (4 + 2 + 5 + 5 + 1 + 1 + 4 + 3 + 7)) = _
  simp only [BitVec.and_append]
  simp only [BitVec.and_zero, and_ones1, and_ones2, and_ones4, and_ones5]
  rfl

@[simp] theorem encodeM_maskFFFFC07F (f4 : BitVec 4) (n : BitVec 2) (b : BitVec 5) (a : BitVec 5) (x : BitVec 1) (y : BitVec 1) (o : BitVec 4) (r : BitVec 3) :
    (encodeM f4 n b a x y o r) &&& 0xFFFFC07F#32 = encodeM f4 n b a x y 0 0 := by
  show (f4 ++ n ++ b ++ a ++ x ++ y ++ o ++ r ++ 43#7 : BitVec (4 + 2 + 5 + 5 + 1 + 1 + 4 + 3 + 7)) &&&
    (15#4 ++ 3#2 ++ 31#5 ++ 31#5 ++ 1#1 ++ 1#1 ++ 0#4 ++ 0#3 ++ 127#7 : BitVec (4 + 2 + 5 + 5 + 1 + 1 + 4 + 3 + 7)) = _
  simp only [BitVec.and_append]
  simp only [BitVec.and_zero, and_ones1, and_ones2, and_ones4, and_ones5]
  rfl

@[simp] theorem encodeM_maskFFFFFC7F (f4 : BitVec 4) (n : BitVec 2) (b : BitVec 5) (a : BitVec 5) (x : BitVec 1) (y : BitVec 1) (o : BitVec 4) (r : BitVec 3) :
    (encodeM f4 n b a x y o r) &&& 0xFFFFFC7F#32 = encodeM f4 n b a x y o 0 := by
  show (f4 ++ n ++ b ++ a ++ x ++ y ++ o ++ r ++ 43#7 : BitVec (4 + 2 + 5 + 5 + 1 + 1 + 4 + 3 + 7)) &&&
    (15#4 ++ 3#2 ++ 31#5 ++ 31#5 ++ 1#1 ++ 1#1 ++ 15#4 ++ 0#3 ++ 127#7 : BitVec (4 + 2 + 5 + 5 + 1 + 1 + 4 + 3 + 7)) = _
  simp only [BitVec.and_append]
  simp only [BitVec.and_zero, and_ones1, and_ones2, and_ones4, and_ones5]
  rfl

theorem encodeF_toNat (f4 : BitVec 4) (c : BitVec 5) (b : BitVec 5) (a : BitVec 5) (o : BitVec 3) (r : BitVec 3) :
    (encodeF f4 c b a o r).toNat = f4.toNat * 2 ^ 28 + c.toNat * 2 ^ 23 + b.toNat * 2 ^ 18 + a.toNat * 2 ^ 13 + o.toNat * 2 ^ 10 + r.toNat * 2 ^ 7 + 43 * 2 ^ 0 := by
  show BitVec.toNat (w := 4 + 5 + 5 + 5 + 3 + 3 + 7) (f4 ++ c ++ b ++ a ++ o ++ r ++ 43#7) = _
  simp only [toNat_append, BitVec.toNat_ofNat]
  omega

@[simp] theorem encodeF_f4 (f4 : BitVec 4) (c : BitVec 5) (b : BitVec 5) (a : BitVec 5) (o : BitVec 3) (r : BitVec 3) :
    (encodeF f4 c b a o r).extractLsb' 28 4 = f4 := by
  apply field_of_toNat
  rw [encodeF_toNat]
  omega

@[simp] theorem encodeF_c (f4 : BitVec 4) (c : BitVec 5) (b : BitVec 5) (a : BitVec 5) (o : BitVec 3) (r : BitVec 3) :
    (encodeF f4 c b a o r).extractLsb' 23 5 = c := by
  apply field_of_toNat
  rw [encodeF_toNat]
  omega

@[simp] theorem encodeF_b (f4 : BitVec 4) (c : BitVec 5) (b : BitVec 5) (a : BitVec 5) (o : BitVec 3) (r : BitVec 3) :
    (encodeF f4 c b a o r).extractLsb' 18 5 = b := by
  apply field_of_toNat
  rw [encodeF_toNat]
  omega

@[simp] theorem encodeF_a (f4 : BitVec 4) (c : BitVec 5) (b : BitVec 5) (a : BitVec 5) (o : BitVec 3) (r : BitVec 3) :
    (encodeF f4 c b a o r).extractLsb' 13 5 = a := by
  apply field_of_toNat
  rw [encodeF_toNat]
  omega

@[simp] theorem encodeF_o (f4 : BitVec 4) (c : BitVec 5) (b : BitVec 5) (a : BitVec 5) (o : BitVec 3) (r : BitVec 3) :
    (encodeF f4 c b a o r).extractLsb' 10 3 = o := by
  apply field_of_toNat
  rw [encodeF_toNat]
  omega

@[simp] theorem encodeF_r (f4 : BitVec 4) (c : BitVec 5) (b : BitVec 5) (a : BitVec 5) (o : BitVec 3) (r : BitVec 3) :
    (encodeF f4 c b a o r).extractLsb' 7 3 = r := by
  apply field_of_toNat
  rw [encodeF_toNat]
  omega

@[simp] theorem encodeF_at0 (f4 : BitVec 4) (c : BitVec 5) (b : BitVec 5) (a : BitVec 5) (o : BitVec 3) (r : BitVec 3) :
    (encodeF f4 c b a o r).extractLsb' 0 7 = 43#7 := by
  apply field_of_toNat
  rw [encodeF_toNat]
  show _ = 43
  omega

@[simp] theorem encodeF_maskF0001C7F (f4 : BitVec 4) (c : BitVec 5) (b : BitVec 5) (a : BitVec 5) (o : BitVec 3) (r : BitVec 3) :
    (encodeF f4 c b a o r) &&& 0xF0001C7F#32 = encodeF f4 0 0 0 o 0 := by
  show (f4 ++ c ++ b ++ a ++ o ++ r ++ 43#7 : BitVec (4 + 5 + 5 + 5 + 3 + 3 + 7)) &&&
    (15#4 ++ 0#5 ++ 0#5 ++ 0#5 ++ 7#3 ++ 0#3 ++ 127#7 : BitVec (4 + 5 + 5 + 5 + 3 + 3 + 7)) = _
  simp only [BitVec.and_append]
  simp only [BitVec.and_zero, and_ones3, and_ones4]
  rfl

@[simp] theorem encodeF_maskF003FC7F (f4 : BitVec 4) (c : BitVec 5) (b : BitVec 5) (a : BitVec 5) (o : BitVec 3) (r : BitVec 3) :
    (encodeF f4 c b a o r) &&& 0xF003FC7F#32 = encodeF f4 0 0 a o 0 := by
  show (f4 ++ c ++ b ++ a ++ o ++ r ++ 43#7 : BitVec (4 + 5 + 5 + 5 + 3 + 3 + 7)) &&&
    (15#4 ++ 0#5 ++ 0#5 ++ 31#5 ++ 7#3 ++ 0#3 ++ 127#7 : BitVec (4 + 5 + 5 + 5 + 3 + 3 + 7)) = _
  simp only [BitVec.and_append]
  simp only [BitVec.and_zero, and_ones3, and_ones4, and_ones5]
  rfl

@[simp] theorem encodeF_maskF07FFC7F (f4 : BitVec 4) (c : BitVec 5) (b : BitVec 5) (a : BitVec 5) (o : BitVec 3) (r : BitVec 3) :
    (encodeF f4 c b a o r) &&& 0xF07FFC7F#32 = encodeF f4 0 b a o 0 := by
  show (f4 ++ c ++ b ++ a ++ o ++ r ++ 43#7 : BitVec (4 + 5 + 5 + 5 + 3 + 3 + 7)) &&&
    (15#4 ++ 0#5 ++ 31#5 ++ 31#5 ++ 7#3 ++ 0#3 ++ 127#7 : BitVec (4 + 5 + 5 + 5 + 3 + 3 + 7)) = _
  simp only [BitVec.and_append]
  simp only [BitVec.and_zero, and_ones3, and_ones4, and_ones5]
  rfl

theorem encodeS_toNat (f7 : BitVec 7) (b : BitVec 5) (a : BitVec 5) (d : BitVec 5) (r : BitVec 3) :
    (encodeS f7 b a d r).toNat = f7.toNat * 2 ^ 25 + b.toNat * 2 ^ 20 + a.toNat * 2 ^ 15 + d.toNat * 2 ^ 10 + r.toNat * 2 ^ 7 + 91 * 2 ^ 0 := by
  show BitVec.toNat (w := 7 + 5 + 5 + 5 + 3 + 7) (f7 ++ b ++ a ++ d ++ r ++ 91#7) = _
  simp only [toNat_append, BitVec.toNat_ofNat]
  omega

@[simp] theorem encodeS_f7 (f7 : BitVec 7) (b : BitVec 5) (a : BitVec 5) (d : BitVec 5) (r : BitVec 3) :
    (encodeS f7 b a d r).extractLsb' 25 7 = f7 := by
  apply field_of_toNat
  rw [encodeS_toNat]
  omega

@[simp] theorem encodeS_b (f7 : BitVec 7) (b : BitVec 5) (a : BitVec 5) (d : BitVec 5) (r : BitVec 3) :
    (encodeS f7 b a d r).extractLsb' 20 5 = b := by
  apply field_of_toNat
  rw [encodeS_toNat]
  omega

@[simp] theorem encodeS_a (f7 : BitVec 7) (b : BitVec 5) (a : BitVec 5) (d : BitVec 5) (r : BitVec 3) :
    (encodeS f7 b a d r).extractLsb' 15 5 = a := by
  apply field_of_toNat
  rw [encodeS_toNat]
  omega

@[simp] theorem encodeS_d (f7 : BitVec 7) (b : BitVec 5) (a : BitVec 5) (d : BitVec 5) (r : BitVec 3) :
    (encodeS f7 b a d r).extractLsb' 10 5 = d := by
  apply field_of_toNat
  rw [encodeS_toNat]
  omega

@[simp] theorem encodeS_r (f7 : BitVec 7) (b : BitVec 5) (a : BitVec 5) (d : BitVec 5) (r : BitVec 3) :
    (encodeS f7 b a d r).extractLsb' 7 3 = r := by
  apply field_of_toNat
  rw [encodeS_toNat]
  omega

@[simp] theorem encodeS_at0 (f7 : BitVec 7) (b : BitVec 5) (a : BitVec 5) (d : BitVec 5) (r : BitVec 3) :
    (encodeS f7 b a d r).extractLsb' 0 7 = 91#7 := by
  apply field_of_toNat
  rw [encodeS_toNat]
  show _ = 91
  omega

@[simp] theorem encodeS_b_0 (f7 : BitVec 7) (b : BitVec 5) (a : BitVec 5) (d : BitVec 5) (r : BitVec 3) :
    (encodeS f7 b a d r).extractLsb' 20 3 = b.extractLsb' 0 3 := by
  apply field_of_toNat
  rw [encodeS_toNat, BitVec.extractLsb'_toNat, Nat.shiftRight_eq_div_pow]
  omega

@[simp] theorem encodeS_b_3 (f7 : BitVec 7) (b : BitVec 5) (a : BitVec 5) (d : BitVec 5) (r : BitVec 3) :
    (encodeS f7 b a d r).extractLsb' 23 2 = b.extractLsb' 3 2 := by
  apply field_of_toNat
  rw [encodeS_toNat, BitVec.extractLsb'_toNat, Nat.shiftRight_eq_div_pow]
  omega

@[simp] theorem encodeS_maskFE00007F (f7 : BitVec 7) (b : BitVec 5) (a : BitVec 5) (d : BitVec 5) (r : BitVec 3) :
    (encodeS f7 b a d r) &&& 0xFE00007F#32 = encodeS f7 0 0 0 0 := by
  show (f7 ++ b ++ a ++ d ++ r ++ 91#7 : BitVec (7 + 5 + 5 + 5 + 3 + 7)) &&&
    (127#7 ++ 0#5 ++ 0#5 ++ 0#5 ++ 0#3 ++ 127#7 : BitVec (7 + 5 + 5 + 5 + 3 + 7)) = _
  simp only [BitVec.and_append]
  simp only [BitVec.and_zero, and_ones7]
  rfl

@[simp] theorem encodeS_maskFE007C7F (f7 : BitVec 7) (b : BitVec 5) (a : BitVec 5) (d : BitVec 5) (r : BitVec 3) :
    (encodeS f7 b a d r) &&& 0xFE007C7F#32 = encodeS f7 0 0 d 0 := by
  show (f7 ++ b ++ a ++ d ++ r ++ 91#7 : BitVec (7 + 5 + 5 + 5 + 3 + 7)) &&&
    (127#7 ++ 0#5 ++ 0#5 ++ 31#5 ++ 0#3 ++ 127#7 : BitVec (7 + 5 + 5 + 5 + 3 + 7)) = _
  simp only [BitVec.and_append]
  simp only [BitVec.and_zero, and_ones5, and_ones7]
  rfl

@[simp] theorem encodeS_maskFF8F807F (f7 : BitVec 7) (b : BitVec 5) (a : BitVec 5) (d : BitVec 5) (r : BitVec 3) :
    (encodeS f7 b a d r) &&& 0xFF8F807F#32 = encodeS f7 (b &&& 24#5) a 0 0 := by
  show (f7 ++ b ++ a ++ d ++ r ++ 91#7 : BitVec (7 + 5 + 5 + 5 + 3 + 7)) &&&
    (127#7 ++ 24#5 ++ 31#5 ++ 0#5 ++ 0#3 ++ 127#7 : BitVec (7 + 5 + 5 + 5 + 3 + 7)) = _
  simp only [BitVec.and_append]
  simp only [BitVec.and_zero, and_ones5, and_ones7]
  rfl

@[simp] theorem encodeS_maskFF8FFC7F (f7 : BitVec 7) (b : BitVec 5) (a : BitVec 5) (d : BitVec 5) (r : BitVec 3) :
    (encodeS f7 b a d r) &&& 0xFF8FFC7F#32 = encodeS f7 (b &&& 24#5) a d 0 := by
  show (f7 ++ b ++ a ++ d ++ r ++ 91#7 : BitVec (7 + 5 + 5 + 5 + 3 + 7)) &&&
    (127#7 ++ 24#5 ++ 31#5 ++ 31#5 ++ 0#3 ++ 127#7 : BitVec (7 + 5 + 5 + 5 + 3 + 7)) = _
  simp only [BitVec.and_append]
  simp only [BitVec.and_zero, and_ones5, and_ones7]
  rfl

@[simp] theorem encodeS_maskFFF0007F (f7 : BitVec 7) (b : BitVec 5) (a : BitVec 5) (d : BitVec 5) (r : BitVec 3) :
    (encodeS f7 b a d r) &&& 0xFFF0007F#32 = encodeS f7 b 0 0 0 := by
  show (f7 ++ b ++ a ++ d ++ r ++ 91#7 : BitVec (7 + 5 + 5 + 5 + 3 + 7)) &&&
    (127#7 ++ 31#5 ++ 0#5 ++ 0#5 ++ 0#3 ++ 127#7 : BitVec (7 + 5 + 5 + 5 + 3 + 7)) = _
  simp only [BitVec.and_append]
  simp only [BitVec.and_zero, and_ones5, and_ones7]
  rfl

@[simp] theorem encodeS_maskFFF07C7F (f7 : BitVec 7) (b : BitVec 5) (a : BitVec 5) (d : BitVec 5) (r : BitVec 3) :
    (encodeS f7 b a d r) &&& 0xFFF07C7F#32 = encodeS f7 b 0 d 0 := by
  show (f7 ++ b ++ a ++ d ++ r ++ 91#7 : BitVec (7 + 5 + 5 + 5 + 3 + 7)) &&&
    (127#7 ++ 31#5 ++ 0#5 ++ 31#5 ++ 0#3 ++ 127#7 : BitVec (7 + 5 + 5 + 5 + 3 + 7)) = _
  simp only [BitVec.and_append]
  simp only [BitVec.and_zero, and_ones5, and_ones7]
  rfl

@[simp] theorem encodeS_maskFFFF807F (f7 : BitVec 7) (b : BitVec 5) (a : BitVec 5) (d : BitVec 5) (r : BitVec 3) :
    (encodeS f7 b a d r) &&& 0xFFFF807F#32 = encodeS f7 b a 0 0 := by
  show (f7 ++ b ++ a ++ d ++ r ++ 91#7 : BitVec (7 + 5 + 5 + 5 + 3 + 7)) &&&
    (127#7 ++ 31#5 ++ 31#5 ++ 0#5 ++ 0#3 ++ 127#7 : BitVec (7 + 5 + 5 + 5 + 3 + 7)) = _
  simp only [BitVec.and_append]
  simp only [BitVec.and_zero, and_ones5, and_ones7]
  rfl

theorem encodeC_toNat (f7 : BitVec 7) (b : BitVec 5) (a : BitVec 5) (d : BitVec 5) (r : BitVec 3) :
    (encodeC f7 b a d r).toNat = f7.toNat * 2 ^ 25 + b.toNat * 2 ^ 20 + a.toNat * 2 ^ 15 + d.toNat * 2 ^ 10 + r.toNat * 2 ^ 7 + 123 * 2 ^ 0 := by
  show BitVec.toNat (w := 7 + 5 + 5 + 5 + 3 + 7) (f7 ++ b ++ a ++ d ++ r ++ 123#7) = _
  simp only [toNat_append, BitVec.toNat_ofNat]
  omega

@[simp] theorem encodeC_f7 (f7 : BitVec 7) (b : BitVec 5) (a : BitVec 5) (d : BitVec 5) (r : BitVec 3) :
    (encodeC f7 b a d r).extractLsb' 25 7 = f7 := by
  apply field_of_toNat
  rw [encodeC_toNat]
  omega

@[simp] theorem encodeC_b (f7 : BitVec 7) (b : BitVec 5) (a : BitVec 5) (d : BitVec 5) (r : BitVec 3) :
    (encodeC f7 b a d r).extractLsb' 20 5 = b := by
  apply field_of_toNat
  rw [encodeC_toNat]
  omega

@[simp] theorem encodeC_a (f7 : BitVec 7) (b : BitVec 5) (a : BitVec 5) (d : BitVec 5) (r : BitVec 3) :
    (encodeC f7 b a d r).extractLsb' 15 5 = a := by
  apply field_of_toNat
  rw [encodeC_toNat]
  omega

@[simp] theorem encodeC_d (f7 : BitVec 7) (b : BitVec 5) (a : BitVec 5) (d : BitVec 5) (r : BitVec 3) :
    (encodeC f7 b a d r).extractLsb' 10 5 = d := by
  apply field_of_toNat
  rw [encodeC_toNat]
  omega

@[simp] theorem encodeC_r (f7 : BitVec 7) (b : BitVec 5) (a : BitVec 5) (d : BitVec 5) (r : BitVec 3) :
    (encodeC f7 b a d r).extractLsb' 7 3 = r := by
  apply field_of_toNat
  rw [encodeC_toNat]
  omega

@[simp] theorem encodeC_at0 (f7 : BitVec 7) (b : BitVec 5) (a : BitVec 5) (d : BitVec 5) (r : BitVec 3) :
    (encodeC f7 b a d r).extractLsb' 0 7 = 123#7 := by
  apply field_of_toNat
  rw [encodeC_toNat]
  show _ = 123
  omega

@[simp] theorem encodeC_f7_5 (f7 : BitVec 7) (b : BitVec 5) (a : BitVec 5) (d : BitVec 5) (r : BitVec 3) :
    (encodeC f7 b a d r).extractLsb' 30 2 = f7.extractLsb' 5 2 := by
  apply field_of_toNat
  rw [encodeC_toNat, BitVec.extractLsb'_toNat, Nat.shiftRight_eq_div_pow]
  omega

@[simp] theorem encodeC_maskFE007C7F (f7 : BitVec 7) (b : BitVec 5) (a : BitVec 5) (d : BitVec 5) (r : BitVec 3) :
    (encodeC f7 b a d r) &&& 0xFE007C7F#32 = encodeC f7 0 0 d 0 := by
  show (f7 ++ b ++ a ++ d ++ r ++ 123#7 : BitVec (7 + 5 + 5 + 5 + 3 + 7)) &&&
    (127#7 ++ 0#5 ++ 0#5 ++ 31#5 ++ 0#3 ++ 127#7 : BitVec (7 + 5 + 5 + 5 + 3 + 7)) = _
  simp only [BitVec.and_append]
  simp only [BitVec.and_zero, and_ones5, and_ones7]
  rfl

@[simp] theorem encodeC_maskFFF0007F (f7 : BitVec 7) (b : BitVec 5) (a : BitVec 5) (d : BitVec 5) (r : BitVec 3) :
    (encodeC f7 b a d r) &&& 0xFFF0007F#32 = encodeC f7 b 0 0 0 := by
  show (f7 ++ b ++ a ++ d ++ r ++ 123#7 : BitVec (7 + 5 + 5 + 5 + 3 + 7)) &&&
    (127#7 ++ 31#5 ++ 0#5 ++ 0#5 ++ 0#3 ++ 127#7 : BitVec (7 + 5 + 5 + 5 + 3 + 7)) = _
  simp only [BitVec.and_append]
  simp only [BitVec.and_zero, and_ones5, and_ones7]
  rfl

@[simp] theorem encodeC_maskFFF07C7F (f7 : BitVec 7) (b : BitVec 5) (a : BitVec 5) (d : BitVec 5) (r : BitVec 3) :
    (encodeC f7 b a d r) &&& 0xFFF07C7F#32 = encodeC f7 b 0 d 0 := by
  show (f7 ++ b ++ a ++ d ++ r ++ 123#7 : BitVec (7 + 5 + 5 + 5 + 3 + 7)) &&&
    (127#7 ++ 31#5 ++ 0#5 ++ 31#5 ++ 0#3 ++ 127#7 : BitVec (7 + 5 + 5 + 5 + 3 + 7)) = _
  simp only [BitVec.and_append]
  simp only [BitVec.and_zero, and_ones5, and_ones7]
  rfl

@[simp] theorem encodeC_maskFFFF807F (f7 : BitVec 7) (b : BitVec 5) (a : BitVec 5) (d : BitVec 5) (r : BitVec 3) :
    (encodeC f7 b a d r) &&& 0xFFFF807F#32 = encodeC f7 b a 0 0 := by
  show (f7 ++ b ++ a ++ d ++ r ++ 123#7 : BitVec (7 + 5 + 5 + 5 + 3 + 7)) &&&
    (127#7 ++ 31#5 ++ 31#5 ++ 0#5 ++ 0#3 ++ 127#7 : BitVec (7 + 5 + 5 + 5 + 3 + 7)) = _
  simp only [BitVec.and_append]
  simp only [BitVec.and_zero, and_ones5, and_ones7]
  rfl

@[simp] theorem encodeC_maskFFFFFC7F (f7 : BitVec 7) (b : BitVec 5) (a : BitVec 5) (d : BitVec 5) (r : BitVec 3) :
    (encodeC f7 b a d r) &&& 0xFFFFFC7F#32 = encodeC f7 b a d 0 := by
  show (f7 ++ b ++ a ++ d ++ r ++ 123#7 : BitVec (7 + 5 + 5 + 5 + 3 + 7)) &&&
    (127#7 ++ 31#5 ++ 31#5 ++ 31#5 ++ 0#3 ++ 127#7 : BitVec (7 + 5 + 5 + 5 + 3 + 7)) = _
  simp only [BitVec.and_append]
  simp only [BitVec.and_zero, and_ones5, and_ones7]
  rfl

theorem encodeP_toNat (i : BitVec 10) (a : BitVec 5) (d : BitVec 5) (r : BitVec 3) :
    (encodeP i a d r).toNat = 3 * 2 ^ 30 + i.toNat * 2 ^ 20 + a.toNat * 2 ^ 15 + d.toNat * 2 ^ 10 + r.toNat * 2 ^ 7 + 123 * 2 ^ 0 := by
  show BitVec.toNat (w := 2 + 10 + 5 + 5 + 3 + 7) (3#2 ++ i ++ a ++ d ++ r ++ 123#7) = _
  simp only [toNat_append, BitVec.toNat_ofNat]
  omega

@[simp] theorem encodeP_at30 (i : BitVec 10) (a : BitVec 5) (d : BitVec 5) (r : BitVec 3) :
    (encodeP i a d r).extractLsb' 30 2 = 3#2 := by
  apply field_of_toNat
  rw [encodeP_toNat]
  show _ = 3
  omega

@[simp] theorem encodeP_i (i : BitVec 10) (a : BitVec 5) (d : BitVec 5) (r : BitVec 3) :
    (encodeP i a d r).extractLsb' 20 10 = i := by
  apply field_of_toNat
  rw [encodeP_toNat]
  omega

@[simp] theorem encodeP_a (i : BitVec 10) (a : BitVec 5) (d : BitVec 5) (r : BitVec 3) :
    (encodeP i a d r).extractLsb' 15 5 = a := by
  apply field_of_toNat
  rw [encodeP_toNat]
  omega

@[simp] theorem encodeP_d (i : BitVec 10) (a : BitVec 5) (d : BitVec 5) (r : BitVec 3) :
    (encodeP i a d r).extractLsb' 10 5 = d := by
  apply field_of_toNat
  rw [encodeP_toNat]
  omega

@[simp] theorem encodeP_r (i : BitVec 10) (a : BitVec 5) (d : BitVec 5) (r : BitVec 3) :
    (encodeP i a d r).extractLsb' 7 3 = r := by
  apply field_of_toNat
  rw [encodeP_toNat]
  omega

@[simp] theorem encodeP_at0 (i : BitVec 10) (a : BitVec 5) (d : BitVec 5) (r : BitVec 3) :
    (encodeP i a d r).extractLsb' 0 7 = 123#7 := by
  apply field_of_toNat
  rw [encodeP_toNat]
  show _ = 123
  omega

@[simp] theorem encodeP_maskC000007F (i : BitVec 10) (a : BitVec 5) (d : BitVec 5) (r : BitVec 3) :
    (encodeP i a d r) &&& 0xC000007F#32 = encodeP 0 0 0 0 := by
  show (3#2 ++ i ++ a ++ d ++ r ++ 123#7 : BitVec (2 + 10 + 5 + 5 + 3 + 7)) &&&
    (3#2 ++ 0#10 ++ 0#5 ++ 0#5 ++ 0#3 ++ 127#7 : BitVec (2 + 10 + 5 + 5 + 3 + 7)) = _
  simp only [BitVec.and_append]
  simp only [BitVec.and_zero]
  rfl

theorem encodeRole_toNat (x : BitVec 7) (s : BitVec 8) :
    (encodeRole x s).toNat = 0 * 2 ^ 25 + x.toNat * 2 ^ 18 + s.toNat * 2 ^ 10 + 7 * 2 ^ 7 + 123 * 2 ^ 0 := by
  show BitVec.toNat (w := 7 + 7 + 8 + 3 + 7) (0#7 ++ x ++ s ++ 7#3 ++ 123#7) = _
  simp only [toNat_append, BitVec.toNat_ofNat]
  omega

@[simp] theorem encodeRole_at25 (x : BitVec 7) (s : BitVec 8) :
    (encodeRole x s).extractLsb' 25 7 = 0#7 := by
  apply field_of_toNat
  rw [encodeRole_toNat]
  show _ = 0
  omega

@[simp] theorem encodeRole_x (x : BitVec 7) (s : BitVec 8) :
    (encodeRole x s).extractLsb' 18 7 = x := by
  apply field_of_toNat
  rw [encodeRole_toNat]
  omega

@[simp] theorem encodeRole_s (x : BitVec 7) (s : BitVec 8) :
    (encodeRole x s).extractLsb' 10 8 = s := by
  apply field_of_toNat
  rw [encodeRole_toNat]
  omega

@[simp] theorem encodeRole_at7 (x : BitVec 7) (s : BitVec 8) :
    (encodeRole x s).extractLsb' 7 3 = 7#3 := by
  apply field_of_toNat
  rw [encodeRole_toNat]
  show _ = 7
  omega

@[simp] theorem encodeRole_at0 (x : BitVec 7) (s : BitVec 8) :
    (encodeRole x s).extractLsb' 0 7 = 123#7 := by
  apply field_of_toNat
  rw [encodeRole_toNat]
  show _ = 123
  omega

@[simp] theorem encodeRole_at30 (x : BitVec 7) (s : BitVec 8) :
    (encodeRole x s).extractLsb' 30 2 = 0#2 := by
  apply field_of_toNat
  rw [encodeRole_toNat]
  show _ = 0
  omega

@[simp] theorem encodeRole_maskFE0003FF (x : BitVec 7) (s : BitVec 8) :
    (encodeRole x s) &&& 0xFE0003FF#32 = encodeRole 0 0 := by
  show (0#7 ++ x ++ s ++ 7#3 ++ 123#7 : BitVec (7 + 7 + 8 + 3 + 7)) &&&
    (127#7 ++ 0#7 ++ 0#8 ++ 7#3 ++ 127#7 : BitVec (7 + 7 + 8 + 3 + 7)) = _
  simp only [BitVec.and_append]
  simp only [BitVec.and_zero]
  rfl

theorem encodeHandoff_toNat (v : BitVec 3) (m : BitVec 4) (n : BitVec 8) (r : BitVec 3) :
    (encodeHandoff v m n r).toNat = 1 * 2 ^ 25 + v.toNat * 2 ^ 22 + m.toNat * 2 ^ 18 + n.toNat * 2 ^ 10 + r.toNat * 2 ^ 7 + 123 * 2 ^ 0 := by
  show BitVec.toNat (w := 7 + 3 + 4 + 8 + 3 + 7) (1#7 ++ v ++ m ++ n ++ r ++ 123#7) = _
  simp only [toNat_append, BitVec.toNat_ofNat]
  omega

@[simp] theorem encodeHandoff_at25 (v : BitVec 3) (m : BitVec 4) (n : BitVec 8) (r : BitVec 3) :
    (encodeHandoff v m n r).extractLsb' 25 7 = 1#7 := by
  apply field_of_toNat
  rw [encodeHandoff_toNat]
  show _ = 1
  omega

@[simp] theorem encodeHandoff_v (v : BitVec 3) (m : BitVec 4) (n : BitVec 8) (r : BitVec 3) :
    (encodeHandoff v m n r).extractLsb' 22 3 = v := by
  apply field_of_toNat
  rw [encodeHandoff_toNat]
  omega

@[simp] theorem encodeHandoff_m (v : BitVec 3) (m : BitVec 4) (n : BitVec 8) (r : BitVec 3) :
    (encodeHandoff v m n r).extractLsb' 18 4 = m := by
  apply field_of_toNat
  rw [encodeHandoff_toNat]
  omega

@[simp] theorem encodeHandoff_n (v : BitVec 3) (m : BitVec 4) (n : BitVec 8) (r : BitVec 3) :
    (encodeHandoff v m n r).extractLsb' 10 8 = n := by
  apply field_of_toNat
  rw [encodeHandoff_toNat]
  omega

@[simp] theorem encodeHandoff_r (v : BitVec 3) (m : BitVec 4) (n : BitVec 8) (r : BitVec 3) :
    (encodeHandoff v m n r).extractLsb' 7 3 = r := by
  apply field_of_toNat
  rw [encodeHandoff_toNat]
  omega

@[simp] theorem encodeHandoff_at0 (v : BitVec 3) (m : BitVec 4) (n : BitVec 8) (r : BitVec 3) :
    (encodeHandoff v m n r).extractLsb' 0 7 = 123#7 := by
  apply field_of_toNat
  rw [encodeHandoff_toNat]
  show _ = 123
  omega

@[simp] theorem encodeHandoff_at30 (v : BitVec 3) (m : BitVec 4) (n : BitVec 8) (r : BitVec 3) :
    (encodeHandoff v m n r).extractLsb' 30 2 = 0#2 := by
  apply field_of_toNat
  rw [encodeHandoff_toNat]
  show _ = 0
  omega

@[simp] theorem encodeHandoff_maskFE00007F (v : BitVec 3) (m : BitVec 4) (n : BitVec 8) (r : BitVec 3) :
    (encodeHandoff v m n r) &&& 0xFE00007F#32 = encodeHandoff 0 0 0 0 := by
  show (1#7 ++ v ++ m ++ n ++ r ++ 123#7 : BitVec (7 + 3 + 4 + 8 + 3 + 7)) &&&
    (127#7 ++ 0#3 ++ 0#4 ++ 0#8 ++ 0#3 ++ 127#7 : BitVec (7 + 3 + 4 + 8 + 3 + 7)) = _
  simp only [BitVec.and_append]
  simp only [BitVec.and_zero]
  rfl

theorem encodeLoop_toNat (c : BitVec 5) (e : BitVec 10) (r : BitVec 3) :
    (encodeLoop c e r).toNat = 2 * 2 ^ 25 + c.toNat * 2 ^ 20 + e.toNat * 2 ^ 10 + r.toNat * 2 ^ 7 + 123 * 2 ^ 0 := by
  show BitVec.toNat (w := 7 + 5 + 10 + 3 + 7) (2#7 ++ c ++ e ++ r ++ 123#7) = _
  simp only [toNat_append, BitVec.toNat_ofNat]
  omega

@[simp] theorem encodeLoop_at25 (c : BitVec 5) (e : BitVec 10) (r : BitVec 3) :
    (encodeLoop c e r).extractLsb' 25 7 = 2#7 := by
  apply field_of_toNat
  rw [encodeLoop_toNat]
  show _ = 2
  omega

@[simp] theorem encodeLoop_c (c : BitVec 5) (e : BitVec 10) (r : BitVec 3) :
    (encodeLoop c e r).extractLsb' 20 5 = c := by
  apply field_of_toNat
  rw [encodeLoop_toNat]
  omega

@[simp] theorem encodeLoop_e (c : BitVec 5) (e : BitVec 10) (r : BitVec 3) :
    (encodeLoop c e r).extractLsb' 10 10 = e := by
  apply field_of_toNat
  rw [encodeLoop_toNat]
  omega

@[simp] theorem encodeLoop_r (c : BitVec 5) (e : BitVec 10) (r : BitVec 3) :
    (encodeLoop c e r).extractLsb' 7 3 = r := by
  apply field_of_toNat
  rw [encodeLoop_toNat]
  omega

@[simp] theorem encodeLoop_at0 (c : BitVec 5) (e : BitVec 10) (r : BitVec 3) :
    (encodeLoop c e r).extractLsb' 0 7 = 123#7 := by
  apply field_of_toNat
  rw [encodeLoop_toNat]
  show _ = 123
  omega

@[simp] theorem encodeLoop_at30 (c : BitVec 5) (e : BitVec 10) (r : BitVec 3) :
    (encodeLoop c e r).extractLsb' 30 2 = 0#2 := by
  apply field_of_toNat
  rw [encodeLoop_toNat]
  show _ = 0
  omega

@[simp] theorem encodeLoop_maskFE00007F (c : BitVec 5) (e : BitVec 10) (r : BitVec 3) :
    (encodeLoop c e r) &&& 0xFE00007F#32 = encodeLoop 0 0 0 := by
  show (2#7 ++ c ++ e ++ r ++ 123#7 : BitVec (7 + 5 + 10 + 3 + 7)) &&&
    (127#7 ++ 0#5 ++ 0#10 ++ 0#3 ++ 127#7 : BitVec (7 + 5 + 10 + 3 + 7)) = _
  simp only [BitVec.and_append]
  simp only [BitVec.and_zero]
  rfl

theorem encodeI_toNat (op : BitVec 7) (f3 : BitVec 3) (rd : BitVec 5) (rs1 : BitVec 5) (imm : BitVec 12) :
    (encodeI op f3 rd rs1 imm).toNat = imm.toNat * 2 ^ 20 + rs1.toNat * 2 ^ 15 + f3.toNat * 2 ^ 12 + rd.toNat * 2 ^ 7 + op.toNat * 2 ^ 0 := by
  show BitVec.toNat (w := 12 + 5 + 3 + 5 + 7) (imm ++ rs1 ++ f3 ++ rd ++ op) = _
  simp only [toNat_append]
  omega

@[simp] theorem encodeI_imm (op : BitVec 7) (f3 : BitVec 3) (rd : BitVec 5) (rs1 : BitVec 5) (imm : BitVec 12) :
    (encodeI op f3 rd rs1 imm).extractLsb' 20 12 = imm := by
  apply field_of_toNat
  rw [encodeI_toNat]
  omega

@[simp] theorem encodeI_rs1 (op : BitVec 7) (f3 : BitVec 3) (rd : BitVec 5) (rs1 : BitVec 5) (imm : BitVec 12) :
    (encodeI op f3 rd rs1 imm).extractLsb' 15 5 = rs1 := by
  apply field_of_toNat
  rw [encodeI_toNat]
  omega

@[simp] theorem encodeI_f3 (op : BitVec 7) (f3 : BitVec 3) (rd : BitVec 5) (rs1 : BitVec 5) (imm : BitVec 12) :
    (encodeI op f3 rd rs1 imm).extractLsb' 12 3 = f3 := by
  apply field_of_toNat
  rw [encodeI_toNat]
  omega

@[simp] theorem encodeI_rd (op : BitVec 7) (f3 : BitVec 3) (rd : BitVec 5) (rs1 : BitVec 5) (imm : BitVec 12) :
    (encodeI op f3 rd rs1 imm).extractLsb' 7 5 = rd := by
  apply field_of_toNat
  rw [encodeI_toNat]
  omega

@[simp] theorem encodeI_op (op : BitVec 7) (f3 : BitVec 3) (rd : BitVec 5) (rs1 : BitVec 5) (imm : BitVec 12) :
    (encodeI op f3 rd rs1 imm).extractLsb' 0 7 = op := by
  apply field_of_toNat
  rw [encodeI_toNat]
  omega

theorem encodeR_toNat (op : BitVec 7) (f7 : BitVec 7) (f3 : BitVec 3) (rd : BitVec 5) (rs1 : BitVec 5) (rs2 : BitVec 5) :
    (encodeR op f7 f3 rd rs1 rs2).toNat = f7.toNat * 2 ^ 25 + rs2.toNat * 2 ^ 20 + rs1.toNat * 2 ^ 15 + f3.toNat * 2 ^ 12 + rd.toNat * 2 ^ 7 + op.toNat * 2 ^ 0 := by
  show BitVec.toNat (w := 7 + 5 + 5 + 3 + 5 + 7) (f7 ++ rs2 ++ rs1 ++ f3 ++ rd ++ op) = _
  simp only [toNat_append]
  omega

@[simp] theorem encodeR_f7 (op : BitVec 7) (f7 : BitVec 7) (f3 : BitVec 3) (rd : BitVec 5) (rs1 : BitVec 5) (rs2 : BitVec 5) :
    (encodeR op f7 f3 rd rs1 rs2).extractLsb' 25 7 = f7 := by
  apply field_of_toNat
  rw [encodeR_toNat]
  omega

@[simp] theorem encodeR_rs2 (op : BitVec 7) (f7 : BitVec 7) (f3 : BitVec 3) (rd : BitVec 5) (rs1 : BitVec 5) (rs2 : BitVec 5) :
    (encodeR op f7 f3 rd rs1 rs2).extractLsb' 20 5 = rs2 := by
  apply field_of_toNat
  rw [encodeR_toNat]
  omega

@[simp] theorem encodeR_rs1 (op : BitVec 7) (f7 : BitVec 7) (f3 : BitVec 3) (rd : BitVec 5) (rs1 : BitVec 5) (rs2 : BitVec 5) :
    (encodeR op f7 f3 rd rs1 rs2).extractLsb' 15 5 = rs1 := by
  apply field_of_toNat
  rw [encodeR_toNat]
  omega

@[simp] theorem encodeR_f3 (op : BitVec 7) (f7 : BitVec 7) (f3 : BitVec 3) (rd : BitVec 5) (rs1 : BitVec 5) (rs2 : BitVec 5) :
    (encodeR op f7 f3 rd rs1 rs2).extractLsb' 12 3 = f3 := by
  apply field_of_toNat
  rw [encodeR_toNat]
  omega

@[simp] theorem encodeR_rd (op : BitVec 7) (f7 : BitVec 7) (f3 : BitVec 3) (rd : BitVec 5) (rs1 : BitVec 5) (rs2 : BitVec 5) :
    (encodeR op f7 f3 rd rs1 rs2).extractLsb' 7 5 = rd := by
  apply field_of_toNat
  rw [encodeR_toNat]
  omega

@[simp] theorem encodeR_op (op : BitVec 7) (f7 : BitVec 7) (f3 : BitVec 3) (rd : BitVec 5) (rs1 : BitVec 5) (rs2 : BitVec 5) :
    (encodeR op f7 f3 rd rs1 rs2).extractLsb' 0 7 = op := by
  apply field_of_toNat
  rw [encodeR_toNat]
  omega

theorem encodeSh_toNat (op : BitVec 7) (f3 : BitVec 3) (f6 : BitVec 6) (rd : BitVec 5) (rs1 : BitVec 5) (sh : BitVec 6) :
    (encodeSh op f3 f6 rd rs1 sh).toNat = f6.toNat * 2 ^ 26 + sh.toNat * 2 ^ 20 + rs1.toNat * 2 ^ 15 + f3.toNat * 2 ^ 12 + rd.toNat * 2 ^ 7 + op.toNat * 2 ^ 0 := by
  show BitVec.toNat (w := 6 + 6 + 5 + 3 + 5 + 7) (f6 ++ sh ++ rs1 ++ f3 ++ rd ++ op) = _
  simp only [toNat_append]
  omega

@[simp] theorem encodeSh_f6 (op : BitVec 7) (f3 : BitVec 3) (f6 : BitVec 6) (rd : BitVec 5) (rs1 : BitVec 5) (sh : BitVec 6) :
    (encodeSh op f3 f6 rd rs1 sh).extractLsb' 26 6 = f6 := by
  apply field_of_toNat
  rw [encodeSh_toNat]
  omega

@[simp] theorem encodeSh_sh (op : BitVec 7) (f3 : BitVec 3) (f6 : BitVec 6) (rd : BitVec 5) (rs1 : BitVec 5) (sh : BitVec 6) :
    (encodeSh op f3 f6 rd rs1 sh).extractLsb' 20 6 = sh := by
  apply field_of_toNat
  rw [encodeSh_toNat]
  omega

@[simp] theorem encodeSh_rs1 (op : BitVec 7) (f3 : BitVec 3) (f6 : BitVec 6) (rd : BitVec 5) (rs1 : BitVec 5) (sh : BitVec 6) :
    (encodeSh op f3 f6 rd rs1 sh).extractLsb' 15 5 = rs1 := by
  apply field_of_toNat
  rw [encodeSh_toNat]
  omega

@[simp] theorem encodeSh_f3 (op : BitVec 7) (f3 : BitVec 3) (f6 : BitVec 6) (rd : BitVec 5) (rs1 : BitVec 5) (sh : BitVec 6) :
    (encodeSh op f3 f6 rd rs1 sh).extractLsb' 12 3 = f3 := by
  apply field_of_toNat
  rw [encodeSh_toNat]
  omega

@[simp] theorem encodeSh_rd (op : BitVec 7) (f3 : BitVec 3) (f6 : BitVec 6) (rd : BitVec 5) (rs1 : BitVec 5) (sh : BitVec 6) :
    (encodeSh op f3 f6 rd rs1 sh).extractLsb' 7 5 = rd := by
  apply field_of_toNat
  rw [encodeSh_toNat]
  omega

@[simp] theorem encodeSh_op (op : BitVec 7) (f3 : BitVec 3) (f6 : BitVec 6) (rd : BitVec 5) (rs1 : BitVec 5) (sh : BitVec 6) :
    (encodeSh op f3 f6 rd rs1 sh).extractLsb' 0 7 = op := by
  apply field_of_toNat
  rw [encodeSh_toNat]
  omega

theorem encodeA_toNat (f5 : BitVec 5) (f3 : BitVec 3) (rd : BitVec 5) (rs1 : BitVec 5) (rs2 : BitVec 5) (aq : BitVec 1) (rl : BitVec 1) :
    (encodeA f5 f3 rd rs1 rs2 aq rl).toNat = f5.toNat * 2 ^ 27 + aq.toNat * 2 ^ 26 + rl.toNat * 2 ^ 25 + rs2.toNat * 2 ^ 20 + rs1.toNat * 2 ^ 15 + f3.toNat * 2 ^ 12 + rd.toNat * 2 ^ 7 + 47 * 2 ^ 0 := by
  show BitVec.toNat (w := 5 + 1 + 1 + 5 + 5 + 3 + 5 + 7) (f5 ++ aq ++ rl ++ rs2 ++ rs1 ++ f3 ++ rd ++ 47#7) = _
  simp only [toNat_append, BitVec.toNat_ofNat]
  omega

@[simp] theorem encodeA_f5 (f5 : BitVec 5) (f3 : BitVec 3) (rd : BitVec 5) (rs1 : BitVec 5) (rs2 : BitVec 5) (aq : BitVec 1) (rl : BitVec 1) :
    (encodeA f5 f3 rd rs1 rs2 aq rl).extractLsb' 27 5 = f5 := by
  apply field_of_toNat
  rw [encodeA_toNat]
  omega

@[simp] theorem encodeA_aq (f5 : BitVec 5) (f3 : BitVec 3) (rd : BitVec 5) (rs1 : BitVec 5) (rs2 : BitVec 5) (aq : BitVec 1) (rl : BitVec 1) :
    (encodeA f5 f3 rd rs1 rs2 aq rl).extractLsb' 26 1 = aq := by
  apply field_of_toNat
  rw [encodeA_toNat]
  omega

@[simp] theorem encodeA_rl (f5 : BitVec 5) (f3 : BitVec 3) (rd : BitVec 5) (rs1 : BitVec 5) (rs2 : BitVec 5) (aq : BitVec 1) (rl : BitVec 1) :
    (encodeA f5 f3 rd rs1 rs2 aq rl).extractLsb' 25 1 = rl := by
  apply field_of_toNat
  rw [encodeA_toNat]
  omega

@[simp] theorem encodeA_rs2 (f5 : BitVec 5) (f3 : BitVec 3) (rd : BitVec 5) (rs1 : BitVec 5) (rs2 : BitVec 5) (aq : BitVec 1) (rl : BitVec 1) :
    (encodeA f5 f3 rd rs1 rs2 aq rl).extractLsb' 20 5 = rs2 := by
  apply field_of_toNat
  rw [encodeA_toNat]
  omega

@[simp] theorem encodeA_rs1 (f5 : BitVec 5) (f3 : BitVec 3) (rd : BitVec 5) (rs1 : BitVec 5) (rs2 : BitVec 5) (aq : BitVec 1) (rl : BitVec 1) :
    (encodeA f5 f3 rd rs1 rs2 aq rl).extractLsb' 15 5 = rs1 := by
  apply field_of_toNat
  rw [encodeA_toNat]
  omega

@[simp] theorem encodeA_f3 (f5 : BitVec 5) (f3 : BitVec 3) (rd : BitVec 5) (rs1 : BitVec 5) (rs2 : BitVec 5) (aq : BitVec 1) (rl : BitVec 1) :
    (encodeA f5 f3 rd rs1 rs2 aq rl).extractLsb' 12 3 = f3 := by
  apply field_of_toNat
  rw [encodeA_toNat]
  omega

@[simp] theorem encodeA_rd (f5 : BitVec 5) (f3 : BitVec 3) (rd : BitVec 5) (rs1 : BitVec 5) (rs2 : BitVec 5) (aq : BitVec 1) (rl : BitVec 1) :
    (encodeA f5 f3 rd rs1 rs2 aq rl).extractLsb' 7 5 = rd := by
  apply field_of_toNat
  rw [encodeA_toNat]
  omega

@[simp] theorem encodeA_at0 (f5 : BitVec 5) (f3 : BitVec 3) (rd : BitVec 5) (rs1 : BitVec 5) (rs2 : BitVec 5) (aq : BitVec 1) (rl : BitVec 1) :
    (encodeA f5 f3 rd rs1 rs2 aq rl).extractLsb' 0 7 = 47#7 := by
  apply field_of_toNat
  rw [encodeA_toNat]
  show _ = 47
  omega

theorem encodeU_toNat (op : BitVec 7) (rd : BitVec 5) (imm : BitVec 20) :
    (encodeU op rd imm).toNat = imm.toNat * 2 ^ 12 + rd.toNat * 2 ^ 7 + op.toNat * 2 ^ 0 := by
  show BitVec.toNat (w := 20 + 5 + 7) (imm ++ rd ++ op) = _
  simp only [toNat_append]
  omega

@[simp] theorem encodeU_imm (op : BitVec 7) (rd : BitVec 5) (imm : BitVec 20) :
    (encodeU op rd imm).extractLsb' 12 20 = imm := by
  apply field_of_toNat
  rw [encodeU_toNat]
  omega

@[simp] theorem encodeU_rd (op : BitVec 7) (rd : BitVec 5) (imm : BitVec 20) :
    (encodeU op rd imm).extractLsb' 7 5 = rd := by
  apply field_of_toNat
  rw [encodeU_toNat]
  omega

@[simp] theorem encodeU_op (op : BitVec 7) (rd : BitVec 5) (imm : BitVec 20) :
    (encodeU op rd imm).extractLsb' 0 7 = op := by
  apply field_of_toNat
  rw [encodeU_toNat]
  omega

/-- A field of two parts (R38, R39). -/
theorem pair_toNat (c : BitVec 2) (b : BitVec 3) : BitVec.toNat (w := 5) (c ++ b) = c.toNat * 2 ^ 3 + b.toNat := toNat_append c b

@[simp] theorem pair_low (c : BitVec 2) (b : BitVec 3) : BitVec.extractLsb' (n := 5) 0 3 (c ++ b) = b := by
  apply field_of_toNat
  rw [pair_toNat]
  omega

@[simp] theorem pair_high (c : BitVec 2) (b : BitVec 3) : BitVec.extractLsb' (n := 5) 3 2 (c ++ b) = c := by
  apply field_of_toNat
  rw [pair_toNat]
  omega

@[simp] theorem pair_mask (c : BitVec 2) (b : BitVec 3) : ((c ++ b : BitVec 5) &&& 24#5) = (c ++ 0#3 : BitVec 5) := by
  show (c ++ b : BitVec (2 + 3)) &&& (3#2 ++ 0#3 : BitVec (2 + 3)) = _
  simp only [BitVec.and_append, BitVec.and_zero, and_ones2]

theorem encodeB_toNat (f3 : BitVec 3) (rs1 rs2 : BitVec 5) (imm : BitVec 12) :
    (encodeB f3 rs1 rs2 imm).toNat = imm.toNat / 2 ^ 11 * 2 ^ 31 + imm.toNat / 2 ^ 4 % 2 ^ 6 * 2 ^ 25 + rs2.toNat * 2 ^ 20 +
      rs1.toNat * 2 ^ 15 + f3.toNat * 2 ^ 12 + imm.toNat % 2 ^ 4 * 2 ^ 8 + imm.toNat / 2 ^ 10 % 2 * 2 ^ 7 + 99 := by
  show BitVec.toNat (w := 1 + 6 + 5 + 5 + 3 + 4 + 1 + 7) (imm.extractLsb' 11 1 ++ imm.extractLsb' 4 6 ++ rs2 ++ rs1 ++ f3 ++
    imm.extractLsb' 0 4 ++ imm.extractLsb' 10 1 ++ 0x63#7) = _
  simp only [toNat_append, BitVec.toNat_ofNat, BitVec.extractLsb'_toNat, Nat.shiftRight_eq_div_pow]
  omega

theorem encodeSt_toNat (f3 : BitVec 3) (rs1 rs2 : BitVec 5) (imm : BitVec 12) :
    (encodeSt f3 rs1 rs2 imm).toNat = imm.toNat / 2 ^ 5 * 2 ^ 25 + rs2.toNat * 2 ^ 20 + rs1.toNat * 2 ^ 15 + f3.toNat * 2 ^ 12 +
      imm.toNat % 2 ^ 5 * 2 ^ 7 + 35 := by
  show BitVec.toNat (w := 7 + 5 + 5 + 3 + 5 + 7) (imm.extractLsb' 5 7 ++ rs2 ++ rs1 ++ f3 ++ imm.extractLsb' 0 5 ++ 0x23#7) = _
  simp only [toNat_append, BitVec.toNat_ofNat, BitVec.extractLsb'_toNat, Nat.shiftRight_eq_div_pow]
  omega

theorem encodeJ_toNat (rd : BitVec 5) (imm : BitVec 20) :
    (encodeJ rd imm).toNat = imm.toNat / 2 ^ 19 * 2 ^ 31 + imm.toNat % 2 ^ 10 * 2 ^ 21 + imm.toNat / 2 ^ 10 % 2 * 2 ^ 20 +
      imm.toNat / 2 ^ 11 % 2 ^ 8 * 2 ^ 12 + rd.toNat * 2 ^ 7 + 111 := by
  show BitVec.toNat (w := 1 + 10 + 1 + 8 + 5 + 7) (imm.extractLsb' 19 1 ++ imm.extractLsb' 0 10 ++ imm.extractLsb' 10 1 ++
    imm.extractLsb' 11 8 ++ rd ++ 0x6F#7) = _
  simp only [toNat_append, BitVec.toNat_ofNat, BitVec.extractLsb'_toNat, Nat.shiftRight_eq_div_pow]
  omega

@[simp] theorem encodeB_f3 (f3 : BitVec 3) (rs1 rs2 : BitVec 5) (imm : BitVec 12) :
    (encodeB f3 rs1 rs2 imm).extractLsb' 12 3 = f3 := by
  apply field_of_toNat
  rw [encodeB_toNat]
  have h0 : imm.toNat / 2 ^ 11 < 2 := by omega
  have h1 : imm.toNat / 2 ^ 4 % 2 ^ 6 < 64 := by omega
  have h2 : imm.toNat % 2 ^ 4 < 16 := by omega
  have h3 : imm.toNat / 2 ^ 10 % 2 < 2 := by omega
  generalize imm.toNat / 2 ^ 11 = p0 at *
  generalize imm.toNat / 2 ^ 4 % 2 ^ 6 = p1 at *
  generalize imm.toNat % 2 ^ 4 = p2 at *
  generalize imm.toNat / 2 ^ 10 % 2 = p3 at *
  omega

@[simp] theorem encodeB_rs1 (f3 : BitVec 3) (rs1 rs2 : BitVec 5) (imm : BitVec 12) :
    (encodeB f3 rs1 rs2 imm).extractLsb' 15 5 = rs1 := by
  apply field_of_toNat
  rw [encodeB_toNat]
  have h0 : imm.toNat / 2 ^ 11 < 2 := by omega
  have h1 : imm.toNat / 2 ^ 4 % 2 ^ 6 < 64 := by omega
  have h2 : imm.toNat % 2 ^ 4 < 16 := by omega
  have h3 : imm.toNat / 2 ^ 10 % 2 < 2 := by omega
  generalize imm.toNat / 2 ^ 11 = p0 at *
  generalize imm.toNat / 2 ^ 4 % 2 ^ 6 = p1 at *
  generalize imm.toNat % 2 ^ 4 = p2 at *
  generalize imm.toNat / 2 ^ 10 % 2 = p3 at *
  omega

@[simp] theorem encodeB_rs2 (f3 : BitVec 3) (rs1 rs2 : BitVec 5) (imm : BitVec 12) :
    (encodeB f3 rs1 rs2 imm).extractLsb' 20 5 = rs2 := by
  apply field_of_toNat
  rw [encodeB_toNat]
  have h0 : imm.toNat / 2 ^ 11 < 2 := by omega
  have h1 : imm.toNat / 2 ^ 4 % 2 ^ 6 < 64 := by omega
  have h2 : imm.toNat % 2 ^ 4 < 16 := by omega
  have h3 : imm.toNat / 2 ^ 10 % 2 < 2 := by omega
  generalize imm.toNat / 2 ^ 11 = p0 at *
  generalize imm.toNat / 2 ^ 4 % 2 ^ 6 = p1 at *
  generalize imm.toNat % 2 ^ 4 = p2 at *
  generalize imm.toNat / 2 ^ 10 % 2 = p3 at *
  omega

@[simp] theorem encodeB_op (f3 : BitVec 3) (rs1 rs2 : BitVec 5) (imm : BitVec 12) :
    (encodeB f3 rs1 rs2 imm).extractLsb' 0 7 = 99#7 := by
  apply field_of_toNat
  rw [encodeB_toNat]
  show _ = 99
  have h0 : imm.toNat / 2 ^ 11 < 2 := by omega
  have h1 : imm.toNat / 2 ^ 4 % 2 ^ 6 < 64 := by omega
  have h2 : imm.toNat % 2 ^ 4 < 16 := by omega
  have h3 : imm.toNat / 2 ^ 10 % 2 < 2 := by omega
  generalize imm.toNat / 2 ^ 11 = p0 at *
  generalize imm.toNat / 2 ^ 4 % 2 ^ 6 = p1 at *
  generalize imm.toNat % 2 ^ 4 = p2 at *
  generalize imm.toNat / 2 ^ 10 % 2 = p3 at *
  omega

@[simp] theorem encodeSt_f3 (f3 : BitVec 3) (rs1 rs2 : BitVec 5) (imm : BitVec 12) :
    (encodeSt f3 rs1 rs2 imm).extractLsb' 12 3 = f3 := by
  apply field_of_toNat
  rw [encodeSt_toNat]
  have h0 : imm.toNat / 2 ^ 5 < 128 := by omega
  have h1 : imm.toNat % 2 ^ 5 < 32 := by omega
  generalize imm.toNat / 2 ^ 5 = p0 at *
  generalize imm.toNat % 2 ^ 5 = p1 at *
  omega

@[simp] theorem encodeSt_rs1 (f3 : BitVec 3) (rs1 rs2 : BitVec 5) (imm : BitVec 12) :
    (encodeSt f3 rs1 rs2 imm).extractLsb' 15 5 = rs1 := by
  apply field_of_toNat
  rw [encodeSt_toNat]
  have h0 : imm.toNat / 2 ^ 5 < 128 := by omega
  have h1 : imm.toNat % 2 ^ 5 < 32 := by omega
  generalize imm.toNat / 2 ^ 5 = p0 at *
  generalize imm.toNat % 2 ^ 5 = p1 at *
  omega

@[simp] theorem encodeSt_rs2 (f3 : BitVec 3) (rs1 rs2 : BitVec 5) (imm : BitVec 12) :
    (encodeSt f3 rs1 rs2 imm).extractLsb' 20 5 = rs2 := by
  apply field_of_toNat
  rw [encodeSt_toNat]
  have h0 : imm.toNat / 2 ^ 5 < 128 := by omega
  have h1 : imm.toNat % 2 ^ 5 < 32 := by omega
  generalize imm.toNat / 2 ^ 5 = p0 at *
  generalize imm.toNat % 2 ^ 5 = p1 at *
  omega

@[simp] theorem encodeSt_op (f3 : BitVec 3) (rs1 rs2 : BitVec 5) (imm : BitVec 12) :
    (encodeSt f3 rs1 rs2 imm).extractLsb' 0 7 = 35#7 := by
  apply field_of_toNat
  rw [encodeSt_toNat]
  show _ = 35
  have h0 : imm.toNat / 2 ^ 5 < 128 := by omega
  have h1 : imm.toNat % 2 ^ 5 < 32 := by omega
  generalize imm.toNat / 2 ^ 5 = p0 at *
  generalize imm.toNat % 2 ^ 5 = p1 at *
  omega

@[simp] theorem encodeJ_rd (rd : BitVec 5) (imm : BitVec 20) :
    (encodeJ rd imm).extractLsb' 7 5 = rd := by
  apply field_of_toNat
  rw [encodeJ_toNat]
  have h0 : imm.toNat / 2 ^ 19 < 2 := by omega
  have h1 : imm.toNat % 2 ^ 10 < 1024 := by omega
  have h2 : imm.toNat / 2 ^ 10 % 2 < 2 := by omega
  have h3 : imm.toNat / 2 ^ 11 % 2 ^ 8 < 256 := by omega
  generalize imm.toNat / 2 ^ 19 = p0 at *
  generalize imm.toNat % 2 ^ 10 = p1 at *
  generalize imm.toNat / 2 ^ 10 % 2 = p2 at *
  generalize imm.toNat / 2 ^ 11 % 2 ^ 8 = p3 at *
  omega

@[simp] theorem encodeJ_op (rd : BitVec 5) (imm : BitVec 20) :
    (encodeJ rd imm).extractLsb' 0 7 = 111#7 := by
  apply field_of_toNat
  rw [encodeJ_toNat]
  show _ = 111
  have h0 : imm.toNat / 2 ^ 19 < 2 := by omega
  have h1 : imm.toNat % 2 ^ 10 < 1024 := by omega
  have h2 : imm.toNat / 2 ^ 10 % 2 < 2 := by omega
  have h3 : imm.toNat / 2 ^ 11 % 2 ^ 8 < 256 := by omega
  generalize imm.toNat / 2 ^ 19 = p0 at *
  generalize imm.toNat % 2 ^ 10 = p1 at *
  generalize imm.toNat / 2 ^ 10 % 2 = p2 at *
  generalize imm.toNat / 2 ^ 11 % 2 ^ 8 = p3 at *
  omega

theorem encodeB_immB (f3 : BitVec 3) (rs1 rs2 : BitVec 5) (imm : BitVec 12) : immB (encodeB f3 rs1 rs2 imm) = imm := by
  generalize hw : (encodeB f3 rs1 rs2 imm) = w
  apply BitVec.eq_of_toNat_eq
  show BitVec.toNat (w := 1 + 1 + 6 + 4) (w.extractLsb' 31 1 ++ w.extractLsb' 7 1 ++ w.extractLsb' 25 6 ++ w.extractLsb' 8 4) = _
  simp only [toNat_append, BitVec.extractLsb'_toNat, Nat.shiftRight_eq_div_pow, ← hw, encodeB_toNat]
  have h0 : imm.toNat / 2 ^ 11 < 2 := by omega
  have h1 : imm.toNat / 2 ^ 4 % 2 ^ 6 < 64 := by omega
  have h2 : imm.toNat % 2 ^ 4 < 16 := by omega
  have h3 : imm.toNat / 2 ^ 10 % 2 < 2 := by omega
  have ht : imm.toNat = imm.toNat / 2 ^ 11 * 2 ^ 11 + imm.toNat / 2 ^ 10 % 2 * 2 ^ 10 + imm.toNat / 2 ^ 4 % 2 ^ 6 * 2 ^ 4 + imm.toNat % 2 ^ 4 := by omega
  generalize imm.toNat / 2 ^ 11 = p0 at *
  generalize imm.toNat / 2 ^ 4 % 2 ^ 6 = p1 at *
  generalize imm.toNat % 2 ^ 4 = p2 at *
  generalize imm.toNat / 2 ^ 10 % 2 = p3 at *
  have e0 : (p0 * 2 ^ 31 + p1 * 2 ^ 25 + rs2.toNat * 2 ^ 20 + rs1.toNat * 2 ^ 15 + f3.toNat * 2 ^ 12 + p2 * 2 ^ 8 + p3 * 2 ^ 7 + 99) / 2 ^ 31 % 2 ^ 1 = p0 := by clear ht; omega
  have e1 : (p0 * 2 ^ 31 + p1 * 2 ^ 25 + rs2.toNat * 2 ^ 20 + rs1.toNat * 2 ^ 15 + f3.toNat * 2 ^ 12 + p2 * 2 ^ 8 + p3 * 2 ^ 7 + 99) / 2 ^ 25 % 2 ^ 6 = p1 := by clear ht; omega
  have e2 : (p0 * 2 ^ 31 + p1 * 2 ^ 25 + rs2.toNat * 2 ^ 20 + rs1.toNat * 2 ^ 15 + f3.toNat * 2 ^ 12 + p2 * 2 ^ 8 + p3 * 2 ^ 7 + 99) / 2 ^ 8 % 2 ^ 4 = p2 := by clear ht; omega
  have e3 : (p0 * 2 ^ 31 + p1 * 2 ^ 25 + rs2.toNat * 2 ^ 20 + rs1.toNat * 2 ^ 15 + f3.toNat * 2 ^ 12 + p2 * 2 ^ 8 + p3 * 2 ^ 7 + 99) / 2 ^ 7 % 2 ^ 1 = p3 := by clear ht; omega
  rw [e0, e1, e2, e3]
  omega

theorem encodeSt_immS (f3 : BitVec 3) (rs1 rs2 : BitVec 5) (imm : BitVec 12) : immS (encodeSt f3 rs1 rs2 imm) = imm := by
  generalize hw : (encodeSt f3 rs1 rs2 imm) = w
  apply BitVec.eq_of_toNat_eq
  show BitVec.toNat (w := 7 + 5) (w.extractLsb' 25 7 ++ w.extractLsb' 7 5) = _
  simp only [toNat_append, BitVec.extractLsb'_toNat, Nat.shiftRight_eq_div_pow, ← hw, encodeSt_toNat]
  have h0 : imm.toNat / 2 ^ 5 < 128 := by omega
  have h1 : imm.toNat % 2 ^ 5 < 32 := by omega
  have ht : imm.toNat = imm.toNat / 2 ^ 5 * 2 ^ 5 + imm.toNat % 2 ^ 5 := by omega
  generalize imm.toNat / 2 ^ 5 = p0 at *
  generalize imm.toNat % 2 ^ 5 = p1 at *
  have e0 : (p0 * 2 ^ 25 + rs2.toNat * 2 ^ 20 + rs1.toNat * 2 ^ 15 + f3.toNat * 2 ^ 12 + p1 * 2 ^ 7 + 35) / 2 ^ 25 % 2 ^ 7 = p0 := by clear ht; omega
  have e1 : (p0 * 2 ^ 25 + rs2.toNat * 2 ^ 20 + rs1.toNat * 2 ^ 15 + f3.toNat * 2 ^ 12 + p1 * 2 ^ 7 + 35) / 2 ^ 7 % 2 ^ 5 = p1 := by clear ht; omega
  rw [e0, e1]
  omega

theorem encodeJ_immJ (rd : BitVec 5) (imm : BitVec 20) : immJ (encodeJ rd imm) = imm := by
  generalize hw : (encodeJ rd imm) = w
  apply BitVec.eq_of_toNat_eq
  show BitVec.toNat (w := 1 + 8 + 1 + 10) (w.extractLsb' 31 1 ++ w.extractLsb' 12 8 ++ w.extractLsb' 20 1 ++ w.extractLsb' 21 10) = _
  simp only [toNat_append, BitVec.extractLsb'_toNat, Nat.shiftRight_eq_div_pow, ← hw, encodeJ_toNat]
  have h0 : imm.toNat / 2 ^ 19 < 2 := by omega
  have h1 : imm.toNat % 2 ^ 10 < 1024 := by omega
  have h2 : imm.toNat / 2 ^ 10 % 2 < 2 := by omega
  have h3 : imm.toNat / 2 ^ 11 % 2 ^ 8 < 256 := by omega
  have ht : imm.toNat = imm.toNat / 2 ^ 19 * 2 ^ 19 + imm.toNat / 2 ^ 11 % 2 ^ 8 * 2 ^ 11 + imm.toNat / 2 ^ 10 % 2 * 2 ^ 10 + imm.toNat % 2 ^ 10 := by omega
  generalize imm.toNat / 2 ^ 19 = p0 at *
  generalize imm.toNat % 2 ^ 10 = p1 at *
  generalize imm.toNat / 2 ^ 10 % 2 = p2 at *
  generalize imm.toNat / 2 ^ 11 % 2 ^ 8 = p3 at *
  have e0 : (p0 * 2 ^ 31 + p1 * 2 ^ 21 + p2 * 2 ^ 20 + p3 * 2 ^ 12 + rd.toNat * 2 ^ 7 + 111) / 2 ^ 31 % 2 ^ 1 = p0 := by clear ht; omega
  have e1 : (p0 * 2 ^ 31 + p1 * 2 ^ 21 + p2 * 2 ^ 20 + p3 * 2 ^ 12 + rd.toNat * 2 ^ 7 + 111) / 2 ^ 21 % 2 ^ 10 = p1 := by clear ht; omega
  have e2 : (p0 * 2 ^ 31 + p1 * 2 ^ 21 + p2 * 2 ^ 20 + p3 * 2 ^ 12 + rd.toNat * 2 ^ 7 + 111) / 2 ^ 20 % 2 ^ 1 = p2 := by clear ht; omega
  have e3 : (p0 * 2 ^ 31 + p1 * 2 ^ 21 + p2 * 2 ^ 20 + p3 * 2 ^ 12 + rd.toNat * 2 ^ 7 + 111) / 2 ^ 12 % 2 ^ 8 = p3 := by clear ht; omega
  rw [e0, e1, e2, e3]
  omega

end Sys2Proof.Laws
end

