-- ==== Sys2Proof/Laws/Memory.lean ====
section
/-! SUPPORT. The memories: reading after writing, every other byte kept, and the canonical form kept by every operation over memory. -/

namespace Sys2Proof.Machine

/-! ### One byte -/

theorem sortedFrom_mono {l : List Host.Cell} {a b : Nat} (h : a ≤ b) (hs : sortedFrom b l = true) : sortedFrom a l = true := by
  cases l with
  | nil => rfl
  | cons c t =>
    simp only [sortedFrom, Bool.and_eq_true, decide_eq_true_eq] at hs ⊢
    exact ⟨⟨by omega, hs.1.2⟩, hs.2⟩

/-- Below its first key a canonical list reads as an unlisted address does. -/
theorem readByte_below {l : List Host.Cell} {a k : Nat} (hs : sortedFrom a l = true) (h : k < a) : readByte l k = 0 := by
  cases l with
  | nil => rfl
  | cons c t =>
    obtain ⟨x, v⟩ := c
    simp only [sortedFrom, Bool.and_eq_true, decide_eq_true_eq] at hs
    rw [readByte, if_neg (by omega), if_pos (by omega)]

/-- A read after a write: the byte written there, every other byte as before. -/
theorem readByte_writeByte {l : List Host.Cell} {lo : Nat} (hs : sortedFrom lo l = true) (k : Nat) (b : Byte) (q : Nat) :
    readByte (writeByte l k b) q = if q = k then b else readByte l q := by
  induction l generalizing lo with
  | nil =>
    by_cases hb : b = 0
    · rw [writeByte, if_pos hb, readByte]
      by_cases hq : q = k
      · rw [if_pos hq, hb]
      · rw [if_neg hq]
    · rw [writeByte, if_neg hb, readByte, readByte]
      by_cases hq : q = k
      · rw [if_pos hq.symm, if_pos hq]
      · rw [if_neg (Ne.symm hq), if_neg hq]
        exact ite_self 0
  | cons c t ih =>
    obtain ⟨a, v⟩ := c
    simp only [sortedFrom, Bool.and_eq_true, decide_eq_true_eq] at hs
    obtain ⟨⟨_, _⟩, ht⟩ := hs
    have below : ∀ j, j ≤ a → readByte t j = 0 := fun j hj => readByte_below ht (by omega)
    by_cases h1 : k < a
    · by_cases hb : b = 0
      · simp only [writeByte, if_pos h1, if_pos hb]
        by_cases hq : q = k
        · subst hq
          rw [if_pos rfl, hb, readByte, if_neg (by omega), if_pos h1]
        · rw [if_neg hq]
      · simp only [writeByte, if_pos h1, if_neg hb]
        rw [readByte]
        by_cases hq : q = k
        · rw [if_pos hq.symm, if_pos hq]
        · rw [if_neg (Ne.symm hq), if_neg hq]
          by_cases hlt : q < k
          · rw [if_pos hlt, readByte, if_neg (by omega), if_pos (by omega)]
          · rw [if_neg hlt]
    · by_cases h2 : k = a
      · subst h2
        by_cases hb : b = 0
        · simp only [writeByte, if_neg h1, if_true, if_pos hb]
          rw [readByte]
          by_cases hq : q = k
          · subst hq
            rw [if_pos rfl, below q (by omega), hb]
          · rw [if_neg hq, if_neg (Ne.symm hq)]
            by_cases hlt : q < k
            · rw [if_pos hlt, below q (by omega)]
            · rw [if_neg hlt]
        · simp only [writeByte, if_neg h1, if_true, if_neg hb]
          rw [readByte, readByte]
          by_cases hq : q = k
          · rw [if_pos hq.symm, if_pos hq]
          · rw [if_neg (Ne.symm hq), if_neg hq, if_neg (Ne.symm hq)]
      · simp only [writeByte, if_neg h1, if_neg h2]
        rw [readByte, readByte]
        by_cases hq : a = q
        · rw [if_pos hq, if_pos hq, if_neg (by omega)]
        · rw [if_neg hq, if_neg hq]
          by_cases hlt : q < a
          · rw [if_pos hlt, if_pos hlt, if_neg (by omega)]
          · rw [if_neg hlt, if_neg hlt]
            exact ih ht

theorem writeByte_sorted {l : List Host.Cell} {lo k : Nat} (hs : sortedFrom lo l = true) (hk : lo ≤ k) (b : Byte) :
    sortedFrom lo (writeByte l k b) = true := by
  induction l generalizing lo with
  | nil =>
    by_cases hb : b = 0
    · rw [writeByte, if_pos hb]; rfl
    · simp only [writeByte, if_neg hb, sortedFrom, Bool.and_eq_true, decide_eq_true_eq]
      exact ⟨⟨hk, hb⟩, trivial⟩
  | cons c t ih =>
    obtain ⟨a, v⟩ := c
    simp only [sortedFrom, Bool.and_eq_true, decide_eq_true_eq] at hs
    obtain ⟨⟨h1, h2⟩, h3⟩ := hs
    by_cases hk1 : k < a
    · by_cases hb : b = 0
      · simp only [writeByte, if_pos hk1, if_pos hb, sortedFrom, Bool.and_eq_true, decide_eq_true_eq]
        exact ⟨⟨h1, h2⟩, h3⟩
      · simp only [writeByte, if_pos hk1, if_neg hb, sortedFrom, Bool.and_eq_true, decide_eq_true_eq]
        exact ⟨⟨hk, hb⟩, ⟨by omega, h2⟩, h3⟩
    · by_cases hk2 : k = a
      · subst hk2
        by_cases hb : b = 0
        · simp only [writeByte, if_neg hk1, if_true, if_pos hb]
          exact sortedFrom_mono (by omega) h3
        · simp only [writeByte, if_neg hk1, if_true, if_neg hb, sortedFrom, Bool.and_eq_true, decide_eq_true_eq]
          exact ⟨⟨h1, hb⟩, h3⟩
      · simp only [writeByte, if_neg hk1, if_neg hk2, sortedFrom, Bool.and_eq_true, decide_eq_true_eq]
        exact ⟨⟨h1, h2⟩, ih h3 (by omega)⟩

/-- A write of a byte keeps the canonical form. -/
theorem writeByte_wf {m : List Host.Cell} (h : Memory.wf m = true) (k : Nat) (b : Byte) : Memory.wf (writeByte m k b) = true :=
  writeByte_sorted h (Nat.zero_le k) b

/-! ### Runs of bytes -/

theorem writeLE_wf {m : List Host.Cell} (h : Memory.wf m = true) (k n v : Nat) : Memory.wf (writeLE m k n v) = true := by
  induction n generalizing m k v with
  | zero => exact h
  | succ n ih => exact ih (writeByte_wf h k _) (k + 1) (v / 256)

theorem writeBytes_wf {m : List Host.Cell} (h : Memory.wf m = true) (k : Nat) (bs : List Byte) :
    Memory.wf (writeBytes m k bs) = true := by
  induction bs generalizing m k with
  | nil => exact h
  | cons b t ih => exact ih (writeByte_wf h k b) (k + 1)

/-- The bytes of a run written, and every other byte. -/
theorem readByte_writeLE {m : List Host.Cell} (h : Memory.wf m = true) (k n v q : Nat) :
    readByte (writeLE m k n v) q = if k ≤ q ∧ q < k + n then BitVec.ofNat 8 (v / 256 ^ (q - k)) else readByte m q := by
  induction n generalizing m k v with
  | zero => rw [if_neg (by omega)]; rfl
  | succ n ih =>
    rw [writeLE, ih (writeByte_wf h k _), readByte_writeByte h]
    by_cases h1 : q = k
    · subst h1
      rw [if_neg (by omega), if_pos rfl, if_pos (by omega)]
      simp
    · rw [if_neg h1]
      by_cases h2 : k + 1 ≤ q ∧ q < k + 1 + n
      · rw [if_pos h2, if_pos (by omega), Nat.div_div_eq_div_mul]
        have : q - k = (q - (k + 1)) + 1 := by omega
        rw [this, Nat.pow_succ, Nat.mul_comm 256]
      · rw [if_neg h2, if_neg (by omega)]

theorem readByte_writeBytes {m : List Host.Cell} (h : Memory.wf m = true) (k : Nat) (bs : List Byte) (q : Nat) :
    readByte (writeBytes m k bs) q = if k ≤ q ∧ q < k + bs.length then bs.getD (q - k) 0 else readByte m q := by
  induction bs generalizing m k with
  | nil => rw [if_neg (by simp)]; rfl
  | cons b t ih =>
    rw [writeBytes, ih (writeByte_wf h k b), readByte_writeByte h]
    simp only [List.length_cons]
    by_cases h1 : q = k
    · subst h1
      rw [if_neg (by omega), if_pos rfl, if_pos (by omega), Nat.sub_self]; rfl
    · rw [if_neg h1]
      by_cases h2 : k + 1 ≤ q ∧ q < k + 1 + t.length
      · rw [if_pos h2, if_pos (by omega)]
        have : q - k = (q - (k + 1)) + 1 := by omega
        rw [this]; rfl
      · rw [if_neg h2, if_neg (by omega)]

/-- Equal bytes give equal little-endian numbers. -/
theorem readLE_congr {m m' : List Host.Cell} (k n : Nat) (h : ∀ i, i < n → readByte m' (k + i) = readByte m (k + i)) :
    readLE m' k n = readLE m k n := by
  induction n generalizing k with
  | zero => rfl
  | succ n ih =>
    rw [readLE, readLE]
    have h0 := h 0 (by omega)
    rw [Nat.add_zero] at h0
    rw [h0, ih (k + 1) (fun i hi => by
      have e : k + 1 + i = k + (i + 1) := by omega
      rw [e]; exact h (i + 1) (by omega))]

/-- A run written reads back, modulo its width. -/
theorem readLE_writeLE {m : List Host.Cell} (h : Memory.wf m = true) (k n v : Nat) :
    readLE (writeLE m k n v) k n = v % 256 ^ n := by
  induction n generalizing m k v with
  | zero => rw [readLE, Nat.pow_zero, Nat.mod_one]
  | succ n ih =>
    rw [readLE, readByte_writeLE h, if_pos (by omega), writeLE, ih (writeByte_wf h k _)]
    simp only [Nat.sub_self, Nat.pow_zero, Nat.div_one, BitVec.toNat_ofNat]
    show v % 256 + 256 * (v / 256 % 256 ^ n) = v % 256 ^ (n + 1)
    rw [Nat.pow_succ, Nat.mul_comm (256 ^ n) 256, Nat.mod_mul]

/-- A run written elsewhere leaves a run as it was. -/
theorem readLE_writeLE_apart {m : List Host.Cell} (h : Memory.wf m = true) (k n v a c : Nat) (d : a + c ≤ k ∨ k + n ≤ a) :
    readLE (writeLE m k n v) a c = readLE m a c :=
  readLE_congr a c (fun i hi => by rw [readByte_writeLE h, if_neg (by omega)])

theorem leBytes_length (n v : Nat) : (leBytes n v).length = n := by
  induction n generalizing v with
  | zero => rfl
  | succ n ih => rw [leBytes, List.length_cons, ih]

theorem writeBytes_leBytes (m : List Host.Cell) (k n v : Nat) : writeBytes m k (leBytes n v) = writeLE m k n v := by
  induction n generalizing m k v with
  | zero => rfl
  | succ n ih => rw [leBytes, writeBytes, ih, writeLE]

/-! ### The state's operations -/

/-- A write at home changes the bytes, their poison, reservations of other cells and the waits on the bytes, nothing else. -/
theorem homeWrite_frame (s : State) (k : Nat) (bs : List Byte) (who : Option Nat) :
    s.homeWrite k bs who = { s with
      cpu := (s.homeWrite k bs who).cpu
      mem := writeBytes s.mem k bs
      memPoison := (s.homeWrite k bs who).memPoison
      cells := (s.homeWrite k bs who).cells
      waits := (s.homeWrite k bs who).waits } := rfl

@[simp] theorem homeWrite_mem (s : State) (k : Nat) (bs : List Byte) (who : Option Nat) :
    (s.homeWrite k bs who).mem = writeBytes s.mem k bs := rfl
@[simp] theorem homeWrite_sp (s : State) (k : Nat) (bs : List Byte) (who : Option Nat) : (s.homeWrite k bs who).sp = s.sp := rfl

/-- Losing a reservation changes nothing else of a cell. -/
theorem dropReservation_eq (k n : Nat) (c : Cell) :
    dropReservation k n c = { c with reservation := (dropReservation k n c).reservation } := by
  unfold dropReservation
  split
  · split <;> rfl
  · rfl

/-- A write at home leaves a cell everything but its reservation. -/
theorem homeWrite_cpu (s : State) (k : Nat) (bs : List Byte) (who : Option Nat) :
    (s.homeWrite k bs who).cpu = { s.cpu with reservation := (s.homeWrite k bs who).cpu.reservation } := by
  have h : (s.homeWrite k bs who).cpu = if who = some s.cpu.id then s.cpu else dropReservation k bs.length s.cpu := rfl
  rw [h]
  split
  · rfl
  · exact dropReservation_eq ..

theorem homeWrite_memOk {s : State} (h : s.MemOk) (k : Nat) (bs : List Byte) (who : Option Nat) : (s.homeWrite k bs who).MemOk :=
  ⟨writeBytes_wf h.1 k bs, h.2⟩

/-- A state with the same memories is as canonical. -/
theorem memOk_of_eq {s t : State} (h : s.MemOk) (hm : t.mem = s.mem) (hp : t.sp = s.sp) : t.MemOk := by
  unfold State.MemOk; rw [hm, hp]; exact h

theorem reset_memOk : State.reset.MemOk := ⟨rfl, rfl⟩

end Sys2Proof.Machine
end

