-- ==== Sys2Proof/Laws/State.lean ====
section
/-! SUPPORT. What each update of the state leaves of every field: one lemma per field per update. -/

namespace Sys2Proof.Machine

/-! ### A change to the acting cell -/

@[simp] theorem State.upd_cpu (s : State) (f : Cell → Cell) : (s.upd f).cpu = f s.cpu := rfl
@[simp] theorem State.upd_cells (s : State) (f : Cell → Cell) : (s.upd f).cells = s.cells := rfl
@[simp] theorem State.upd_saved (s : State) (f : Cell → Cell) : (s.upd f).saved = s.saved := rfl
@[simp] theorem State.upd_mem (s : State) (f : Cell → Cell) : (s.upd f).mem = s.mem := rfl
@[simp] theorem State.upd_memPoison (s : State) (f : Cell → Cell) : (s.upd f).memPoison = s.memPoison := rfl
@[simp] theorem State.upd_fwPoison (s : State) (f : Cell → Cell) : (s.upd f).fwPoison = s.fwPoison := rfl
@[simp] theorem State.upd_sp (s : State) (f : Cell → Cell) : (s.upd f).sp = s.sp := rfl
@[simp] theorem State.upd_spEmpty (s : State) (f : Cell → Cell) : (s.upd f).spEmpty = s.spEmpty := rfl
@[simp] theorem State.upd_spPoison (s : State) (f : Cell → Cell) : (s.upd f).spPoison = s.spPoison := rfl
@[simp] theorem State.upd_rings (s : State) (f : Cell → Cell) : (s.upd f).rings = s.rings := rfl
@[simp] theorem State.upd_probes (s : State) (f : Cell → Cell) : (s.upd f).probes = s.probes := rfl
@[simp] theorem State.upd_zeroing (s : State) (f : Cell → Cell) : (s.upd f).zeroing = s.zeroing := rfl
@[simp] theorem State.upd_waits (s : State) (f : Cell → Cell) : (s.upd f).waits = s.waits := rfl
@[simp] theorem State.upd_subtractions (s : State) (f : Cell → Cell) : (s.upd f).subtractions = s.subtractions := rfl
@[simp] theorem State.upd_payloads (s : State) (f : Cell → Cell) : (s.upd f).payloads = s.payloads := rfl
@[simp] theorem State.upd_reductions (s : State) (f : Cell → Cell) : (s.upd f).reductions = s.reductions := rfl
@[simp] theorem State.upd_syncSram (s : State) (f : Cell → Cell) : (s.upd f).syncSram = s.syncSram := rfl
@[simp] theorem State.upd_llTlb (s : State) (f : Cell → Cell) : (s.upd f).llTlb = s.llTlb := rfl
@[simp] theorem State.upd_walks (s : State) (f : Cell → Cell) : (s.upd f).walks = s.walks := rfl
@[simp] theorem State.upd_slices (s : State) (f : Cell → Cell) : (s.upd f).slices = s.slices := rfl
@[simp] theorem State.upd_blocks (s : State) (f : Cell → Cell) : (s.upd f).blocks = s.blocks := rfl
@[simp] theorem State.upd_blockClock (s : State) (f : Cell → Cell) : (s.upd f).blockClock = s.blockClock := rfl
@[simp] theorem State.upd_objects (s : State) (f : Cell → Cell) : (s.upd f).objects = s.objects := rfl
@[simp] theorem State.upd_holdReqs (s : State) (f : Cell → Cell) : (s.upd f).holdReqs = s.holdReqs := rfl
@[simp] theorem State.upd_holdClock (s : State) (f : Cell → Cell) : (s.upd f).holdClock = s.holdClock := rfl
@[simp] theorem State.upd_chipId (s : State) (f : Cell → Cell) : (s.upd f).chipId = s.chipId := rfl
@[simp] theorem State.upd_copiers (s : State) (f : Cell → Cell) : (s.upd f).copiers = s.copiers := rfl
@[simp] theorem State.upd_copyWaits (s : State) (f : Cell → Cell) : (s.upd f).copyWaits = s.copyWaits := rfl
@[simp] theorem State.upd_channels (s : State) (f : Cell → Cell) : (s.upd f).channels = s.channels := rfl
@[simp] theorem State.upd_graphs (s : State) (f : Cell → Cell) : (s.upd f).graphs = s.graphs := rfl
@[simp] theorem State.upd_firings (s : State) (f : Cell → Cell) : (s.upd f).firings = s.firings := rfl
@[simp] theorem State.upd_runClock (s : State) (f : Cell → Cell) : (s.upd f).runClock = s.runClock := rfl
@[simp] theorem State.upd_floors (s : State) (f : Cell → Cell) : (s.upd f).floors = s.floors := rfl
@[simp] theorem State.upd_contexts (s : State) (f : Cell → Cell) : (s.upd f).contexts = s.contexts := rfl
@[simp] theorem State.upd_held (s : State) (f : Cell → Cell) : (s.upd f).held = s.held := rfl
@[simp] theorem State.upd_dropped (s : State) (f : Cell → Cell) : (s.upd f).dropped = s.dropped := rfl
@[simp] theorem State.upd_faults (s : State) (f : Cell → Cell) : (s.upd f).faults = s.faults := rfl
@[simp] theorem State.upd_pageRecords (s : State) (f : Cell → Cell) : (s.upd f).pageRecords = s.pageRecords := rfl
@[simp] theorem State.upd_accessClock (s : State) (f : Cell → Cell) : (s.upd f).accessClock = s.accessClock := rfl
@[simp] theorem State.upd_fetchHints (s : State) (f : Cell → Cell) : (s.upd f).fetchHints = s.fetchHints := rfl
@[simp] theorem State.upd_migrations (s : State) (f : Cell → Cell) : (s.upd f).migrations = s.migrations := rfl
@[simp] theorem State.upd_shootdowns (s : State) (f : Cell → Cell) : (s.upd f).shootdowns = s.shootdowns := rfl
@[simp] theorem State.upd_tierParams (s : State) (f : Cell → Cell) : (s.upd f).tierParams = s.tierParams := rfl
@[simp] theorem State.upd_freeFrames (s : State) (f : Cell → Cell) : (s.upd f).freeFrames = s.freeFrames := rfl
@[simp] theorem State.upd_tierWindow (s : State) (f : Cell → Cell) : (s.upd f).tierWindow = s.tierWindow := rfl
@[simp] theorem State.upd_demoting (s : State) (f : Cell → Cell) : (s.upd f).demoting = s.demoting := rfl
@[simp] theorem State.upd_budget (s : State) (f : Cell → Cell) : (s.upd f).budget = s.budget := rfl
@[simp] theorem State.upd_budgetNext (s : State) (f : Cell → Cell) : (s.upd f).budgetNext = s.budgetNext := rfl
@[simp] theorem State.upd_windowNo (s : State) (f : Cell → Cell) : (s.upd f).windowNo = s.windowNo := rfl
@[simp] theorem State.upd_windowStart (s : State) (f : Cell → Cell) : (s.upd f).windowStart = s.windowStart := rfl
@[simp] theorem State.upd_reserve (s : State) (f : Cell → Cell) : (s.upd f).reserve = s.reserve := rfl
@[simp] theorem State.upd_reservePermille (s : State) (f : Cell → Cell) : (s.upd f).reservePermille = s.reservePermille := rfl
@[simp] theorem State.upd_metered (s : State) (f : Cell → Cell) : (s.upd f).metered = s.metered := rfl
@[simp] theorem State.upd_meterTime (s : State) (f : Cell → Cell) : (s.upd f).meterTime = s.meterTime := rfl
@[simp] theorem State.upd_leaks (s : State) (f : Cell → Cell) : (s.upd f).leaks = s.leaks := rfl
@[simp] theorem State.upd_meterScale (s : State) (f : Cell → Cell) : (s.upd f).meterScale = s.meterScale := rfl
@[simp] theorem State.upd_refillCut (s : State) (f : Cell → Cell) : (s.upd f).refillCut = s.refillCut := rfl
@[simp] theorem State.upd_pasidBase (s : State) (f : Cell → Cell) : (s.upd f).pasidBase = s.pasidBase := rfl
@[simp] theorem State.upd_queues (s : State) (f : Cell → Cell) : (s.upd f).queues = s.queues := rfl
@[simp] theorem State.upd_fwEvents (s : State) (f : Cell → Cell) : (s.upd f).fwEvents = s.fwEvents := rfl
@[simp] theorem State.upd_arrivals (s : State) (f : Cell → Cell) : (s.upd f).arrivals = s.arrivals := rfl
@[simp] theorem State.upd_overflow (s : State) (f : Cell → Cell) : (s.upd f).overflow = s.overflow := rfl
@[simp] theorem State.upd_remoteWrites (s : State) (f : Cell → Cell) : (s.upd f).remoteWrites = s.remoteWrites := rfl
@[simp] theorem State.upd_postings (s : State) (f : Cell → Cell) : (s.upd f).postings = s.postings := rfl
@[simp] theorem State.upd_hostReads (s : State) (f : Cell → Cell) : (s.upd f).hostReads = s.hostReads := rfl
@[simp] theorem State.upd_slots (s : State) (f : Cell → Cell) : (s.upd f).slots = s.slots := rfl
@[simp] theorem State.upd_peers (s : State) (f : Cell → Cell) : (s.upd f).peers = s.peers := rfl
@[simp] theorem State.upd_privileged (s : State) (f : Cell → Cell) : (s.upd f).privileged = s.privileged := rfl
@[simp] theorem State.upd_signing (s : State) (f : Cell → Cell) : (s.upd f).signing = s.signing := rfl
@[simp] theorem State.upd_keys (s : State) (f : Cell → Cell) : (s.upd f).keys = s.keys := rfl
@[simp] theorem State.upd_class0Cells (s : State) (f : Cell → Cell) : (s.upd f).class0Cells = s.class0Cells := rfl
@[simp] theorem State.upd_placements (s : State) (f : Cell → Cell) : (s.upd f).placements = s.placements := rfl
@[simp] theorem State.upd_outbox (s : State) (f : Cell → Cell) : (s.upd f).outbox = s.outbox := rfl
@[simp] theorem State.upd_errWindow (s : State) (f : Cell → Cell) : (s.upd f).errWindow = s.errWindow := rfl
@[simp] theorem State.upd_errThreshold (s : State) (f : Cell → Cell) : (s.upd f).errThreshold = s.errThreshold := rfl
@[simp] theorem State.upd_errors (s : State) (f : Cell → Cell) : (s.upd f).errors = s.errors := rfl
@[simp] theorem State.upd_standbyTime (s : State) (f : Cell → Cell) : (s.upd f).standbyTime = s.standbyTime := rfl
@[simp] theorem State.upd_thermal (s : State) (f : Cell → Cell) : (s.upd f).thermal = s.thermal := rfl
@[simp] theorem State.upd_booted (s : State) (f : Cell → Cell) : (s.upd f).booted = s.booted := rfl
@[simp] theorem State.upd_recovery (s : State) (f : Cell → Cell) : (s.upd f).recovery = s.recovery := rfl
@[simp] theorem State.upd_fwSlots (s : State) (f : Cell → Cell) : (s.upd f).fwSlots = s.fwSlots := rfl
@[simp] theorem State.upd_markers (s : State) (f : Cell → Cell) : (s.upd f).markers = s.markers := rfl
@[simp] theorem State.upd_standbyOnly (s : State) (f : Cell → Cell) : (s.upd f).standbyOnly = s.standbyOnly := rfl
@[simp] theorem State.upd_resets (s : State) (f : Cell → Cell) : (s.upd f).resets = s.resets := rfl
@[simp] theorem State.upd_links (s : State) (f : Cell → Cell) : (s.upd f).links = s.links := rfl
@[simp] theorem State.upd_linkTimes (s : State) (f : Cell → Cell) : (s.upd f).linkTimes = s.linkTimes := rfl
@[simp] theorem State.upd_wires (s : State) (f : Cell → Cell) : (s.upd f).wires = s.wires := rfl
@[simp] theorem State.upd_streams (s : State) (f : Cell → Cell) : (s.upd f).streams = s.streams := rfl
@[simp] theorem State.upd_txns (s : State) (f : Cell → Cell) : (s.upd f).txns = s.txns := rfl
@[simp] theorem State.upd_retired (s : State) (f : Cell → Cell) : (s.upd f).retired = s.retired := rfl
@[simp] theorem State.upd_enumGen (s : State) (f : Cell → Cell) : (s.upd f).enumGen = s.enumGen := rfl
@[simp] theorem State.upd_fuses (s : State) (f : Cell → Cell) : (s.upd f).fuses = s.fuses := rfl
@[simp] theorem State.upd_offline (s : State) (f : Cell → Cell) : (s.upd f).offline = s.offline := rfl
@[simp] theorem State.upd_now (s : State) (f : Cell → Cell) : (s.upd f).now = s.now := rfl
@[simp] theorem State.upd_fresh (s : State) (f : Cell → Cell) : (s.upd f).fresh = s.fresh := rfl
@[simp] theorem State.upd_agenda (s : State) (f : Cell → Cell) : (s.upd f).agenda = s.agenda := rfl

/-! ### A scalar register -/

@[simp] theorem State.setX_cpu (s : State) (n : BitVec 5) (w : Word) : (s.setX n w).cpu = s.cpu.wx n w := rfl
@[simp] theorem State.setX_cells (s : State) (n : BitVec 5) (w : Word) : (s.setX n w).cells = s.cells := rfl
@[simp] theorem State.setX_saved (s : State) (n : BitVec 5) (w : Word) : (s.setX n w).saved = s.saved := rfl
@[simp] theorem State.setX_mem (s : State) (n : BitVec 5) (w : Word) : (s.setX n w).mem = s.mem := rfl
@[simp] theorem State.setX_memPoison (s : State) (n : BitVec 5) (w : Word) : (s.setX n w).memPoison = s.memPoison := rfl
@[simp] theorem State.setX_fwPoison (s : State) (n : BitVec 5) (w : Word) : (s.setX n w).fwPoison = s.fwPoison := rfl
@[simp] theorem State.setX_sp (s : State) (n : BitVec 5) (w : Word) : (s.setX n w).sp = s.sp := rfl
@[simp] theorem State.setX_spEmpty (s : State) (n : BitVec 5) (w : Word) : (s.setX n w).spEmpty = s.spEmpty := rfl
@[simp] theorem State.setX_spPoison (s : State) (n : BitVec 5) (w : Word) : (s.setX n w).spPoison = s.spPoison := rfl
@[simp] theorem State.setX_rings (s : State) (n : BitVec 5) (w : Word) : (s.setX n w).rings = s.rings := rfl
@[simp] theorem State.setX_probes (s : State) (n : BitVec 5) (w : Word) : (s.setX n w).probes = s.probes := rfl
@[simp] theorem State.setX_zeroing (s : State) (n : BitVec 5) (w : Word) : (s.setX n w).zeroing = s.zeroing := rfl
@[simp] theorem State.setX_waits (s : State) (n : BitVec 5) (w : Word) : (s.setX n w).waits = s.waits := rfl
@[simp] theorem State.setX_subtractions (s : State) (n : BitVec 5) (w : Word) : (s.setX n w).subtractions = s.subtractions := rfl
@[simp] theorem State.setX_payloads (s : State) (n : BitVec 5) (w : Word) : (s.setX n w).payloads = s.payloads := rfl
@[simp] theorem State.setX_reductions (s : State) (n : BitVec 5) (w : Word) : (s.setX n w).reductions = s.reductions := rfl
@[simp] theorem State.setX_syncSram (s : State) (n : BitVec 5) (w : Word) : (s.setX n w).syncSram = s.syncSram := rfl
@[simp] theorem State.setX_llTlb (s : State) (n : BitVec 5) (w : Word) : (s.setX n w).llTlb = s.llTlb := rfl
@[simp] theorem State.setX_walks (s : State) (n : BitVec 5) (w : Word) : (s.setX n w).walks = s.walks := rfl
@[simp] theorem State.setX_slices (s : State) (n : BitVec 5) (w : Word) : (s.setX n w).slices = s.slices := rfl
@[simp] theorem State.setX_blocks (s : State) (n : BitVec 5) (w : Word) : (s.setX n w).blocks = s.blocks := rfl
@[simp] theorem State.setX_blockClock (s : State) (n : BitVec 5) (w : Word) : (s.setX n w).blockClock = s.blockClock := rfl
@[simp] theorem State.setX_objects (s : State) (n : BitVec 5) (w : Word) : (s.setX n w).objects = s.objects := rfl
@[simp] theorem State.setX_holdReqs (s : State) (n : BitVec 5) (w : Word) : (s.setX n w).holdReqs = s.holdReqs := rfl
@[simp] theorem State.setX_holdClock (s : State) (n : BitVec 5) (w : Word) : (s.setX n w).holdClock = s.holdClock := rfl
@[simp] theorem State.setX_chipId (s : State) (n : BitVec 5) (w : Word) : (s.setX n w).chipId = s.chipId := rfl
@[simp] theorem State.setX_copiers (s : State) (n : BitVec 5) (w : Word) : (s.setX n w).copiers = s.copiers := rfl
@[simp] theorem State.setX_copyWaits (s : State) (n : BitVec 5) (w : Word) : (s.setX n w).copyWaits = s.copyWaits := rfl
@[simp] theorem State.setX_channels (s : State) (n : BitVec 5) (w : Word) : (s.setX n w).channels = s.channels := rfl
@[simp] theorem State.setX_graphs (s : State) (n : BitVec 5) (w : Word) : (s.setX n w).graphs = s.graphs := rfl
@[simp] theorem State.setX_firings (s : State) (n : BitVec 5) (w : Word) : (s.setX n w).firings = s.firings := rfl
@[simp] theorem State.setX_runClock (s : State) (n : BitVec 5) (w : Word) : (s.setX n w).runClock = s.runClock := rfl
@[simp] theorem State.setX_floors (s : State) (n : BitVec 5) (w : Word) : (s.setX n w).floors = s.floors := rfl
@[simp] theorem State.setX_contexts (s : State) (n : BitVec 5) (w : Word) : (s.setX n w).contexts = s.contexts := rfl
@[simp] theorem State.setX_held (s : State) (n : BitVec 5) (w : Word) : (s.setX n w).held = s.held := rfl
@[simp] theorem State.setX_dropped (s : State) (n : BitVec 5) (w : Word) : (s.setX n w).dropped = s.dropped := rfl
@[simp] theorem State.setX_faults (s : State) (n : BitVec 5) (w : Word) : (s.setX n w).faults = s.faults := rfl
@[simp] theorem State.setX_pageRecords (s : State) (n : BitVec 5) (w : Word) : (s.setX n w).pageRecords = s.pageRecords := rfl
@[simp] theorem State.setX_accessClock (s : State) (n : BitVec 5) (w : Word) : (s.setX n w).accessClock = s.accessClock := rfl
@[simp] theorem State.setX_fetchHints (s : State) (n : BitVec 5) (w : Word) : (s.setX n w).fetchHints = s.fetchHints := rfl
@[simp] theorem State.setX_migrations (s : State) (n : BitVec 5) (w : Word) : (s.setX n w).migrations = s.migrations := rfl
@[simp] theorem State.setX_shootdowns (s : State) (n : BitVec 5) (w : Word) : (s.setX n w).shootdowns = s.shootdowns := rfl
@[simp] theorem State.setX_tierParams (s : State) (n : BitVec 5) (w : Word) : (s.setX n w).tierParams = s.tierParams := rfl
@[simp] theorem State.setX_freeFrames (s : State) (n : BitVec 5) (w : Word) : (s.setX n w).freeFrames = s.freeFrames := rfl
@[simp] theorem State.setX_tierWindow (s : State) (n : BitVec 5) (w : Word) : (s.setX n w).tierWindow = s.tierWindow := rfl
@[simp] theorem State.setX_demoting (s : State) (n : BitVec 5) (w : Word) : (s.setX n w).demoting = s.demoting := rfl
@[simp] theorem State.setX_budget (s : State) (n : BitVec 5) (w : Word) : (s.setX n w).budget = s.budget := rfl
@[simp] theorem State.setX_budgetNext (s : State) (n : BitVec 5) (w : Word) : (s.setX n w).budgetNext = s.budgetNext := rfl
@[simp] theorem State.setX_windowNo (s : State) (n : BitVec 5) (w : Word) : (s.setX n w).windowNo = s.windowNo := rfl
@[simp] theorem State.setX_windowStart (s : State) (n : BitVec 5) (w : Word) : (s.setX n w).windowStart = s.windowStart := rfl
@[simp] theorem State.setX_reserve (s : State) (n : BitVec 5) (w : Word) : (s.setX n w).reserve = s.reserve := rfl
@[simp] theorem State.setX_reservePermille (s : State) (n : BitVec 5) (w : Word) : (s.setX n w).reservePermille = s.reservePermille := rfl
@[simp] theorem State.setX_metered (s : State) (n : BitVec 5) (w : Word) : (s.setX n w).metered = s.metered := rfl
@[simp] theorem State.setX_meterTime (s : State) (n : BitVec 5) (w : Word) : (s.setX n w).meterTime = s.meterTime := rfl
@[simp] theorem State.setX_leaks (s : State) (n : BitVec 5) (w : Word) : (s.setX n w).leaks = s.leaks := rfl
@[simp] theorem State.setX_meterScale (s : State) (n : BitVec 5) (w : Word) : (s.setX n w).meterScale = s.meterScale := rfl
@[simp] theorem State.setX_refillCut (s : State) (n : BitVec 5) (w : Word) : (s.setX n w).refillCut = s.refillCut := rfl
@[simp] theorem State.setX_pasidBase (s : State) (n : BitVec 5) (w : Word) : (s.setX n w).pasidBase = s.pasidBase := rfl
@[simp] theorem State.setX_queues (s : State) (n : BitVec 5) (w : Word) : (s.setX n w).queues = s.queues := rfl
@[simp] theorem State.setX_fwEvents (s : State) (n : BitVec 5) (w : Word) : (s.setX n w).fwEvents = s.fwEvents := rfl
@[simp] theorem State.setX_arrivals (s : State) (n : BitVec 5) (w : Word) : (s.setX n w).arrivals = s.arrivals := rfl
@[simp] theorem State.setX_overflow (s : State) (n : BitVec 5) (w : Word) : (s.setX n w).overflow = s.overflow := rfl
@[simp] theorem State.setX_remoteWrites (s : State) (n : BitVec 5) (w : Word) : (s.setX n w).remoteWrites = s.remoteWrites := rfl
@[simp] theorem State.setX_postings (s : State) (n : BitVec 5) (w : Word) : (s.setX n w).postings = s.postings := rfl
@[simp] theorem State.setX_hostReads (s : State) (n : BitVec 5) (w : Word) : (s.setX n w).hostReads = s.hostReads := rfl
@[simp] theorem State.setX_slots (s : State) (n : BitVec 5) (w : Word) : (s.setX n w).slots = s.slots := rfl
@[simp] theorem State.setX_peers (s : State) (n : BitVec 5) (w : Word) : (s.setX n w).peers = s.peers := rfl
@[simp] theorem State.setX_privileged (s : State) (n : BitVec 5) (w : Word) : (s.setX n w).privileged = s.privileged := rfl
@[simp] theorem State.setX_signing (s : State) (n : BitVec 5) (w : Word) : (s.setX n w).signing = s.signing := rfl
@[simp] theorem State.setX_keys (s : State) (n : BitVec 5) (w : Word) : (s.setX n w).keys = s.keys := rfl
@[simp] theorem State.setX_class0Cells (s : State) (n : BitVec 5) (w : Word) : (s.setX n w).class0Cells = s.class0Cells := rfl
@[simp] theorem State.setX_placements (s : State) (n : BitVec 5) (w : Word) : (s.setX n w).placements = s.placements := rfl
@[simp] theorem State.setX_outbox (s : State) (n : BitVec 5) (w : Word) : (s.setX n w).outbox = s.outbox := rfl
@[simp] theorem State.setX_errWindow (s : State) (n : BitVec 5) (w : Word) : (s.setX n w).errWindow = s.errWindow := rfl
@[simp] theorem State.setX_errThreshold (s : State) (n : BitVec 5) (w : Word) : (s.setX n w).errThreshold = s.errThreshold := rfl
@[simp] theorem State.setX_errors (s : State) (n : BitVec 5) (w : Word) : (s.setX n w).errors = s.errors := rfl
@[simp] theorem State.setX_standbyTime (s : State) (n : BitVec 5) (w : Word) : (s.setX n w).standbyTime = s.standbyTime := rfl
@[simp] theorem State.setX_thermal (s : State) (n : BitVec 5) (w : Word) : (s.setX n w).thermal = s.thermal := rfl
@[simp] theorem State.setX_booted (s : State) (n : BitVec 5) (w : Word) : (s.setX n w).booted = s.booted := rfl
@[simp] theorem State.setX_recovery (s : State) (n : BitVec 5) (w : Word) : (s.setX n w).recovery = s.recovery := rfl
@[simp] theorem State.setX_fwSlots (s : State) (n : BitVec 5) (w : Word) : (s.setX n w).fwSlots = s.fwSlots := rfl
@[simp] theorem State.setX_markers (s : State) (n : BitVec 5) (w : Word) : (s.setX n w).markers = s.markers := rfl
@[simp] theorem State.setX_standbyOnly (s : State) (n : BitVec 5) (w : Word) : (s.setX n w).standbyOnly = s.standbyOnly := rfl
@[simp] theorem State.setX_resets (s : State) (n : BitVec 5) (w : Word) : (s.setX n w).resets = s.resets := rfl
@[simp] theorem State.setX_links (s : State) (n : BitVec 5) (w : Word) : (s.setX n w).links = s.links := rfl
@[simp] theorem State.setX_linkTimes (s : State) (n : BitVec 5) (w : Word) : (s.setX n w).linkTimes = s.linkTimes := rfl
@[simp] theorem State.setX_wires (s : State) (n : BitVec 5) (w : Word) : (s.setX n w).wires = s.wires := rfl
@[simp] theorem State.setX_streams (s : State) (n : BitVec 5) (w : Word) : (s.setX n w).streams = s.streams := rfl
@[simp] theorem State.setX_txns (s : State) (n : BitVec 5) (w : Word) : (s.setX n w).txns = s.txns := rfl
@[simp] theorem State.setX_retired (s : State) (n : BitVec 5) (w : Word) : (s.setX n w).retired = s.retired := rfl
@[simp] theorem State.setX_enumGen (s : State) (n : BitVec 5) (w : Word) : (s.setX n w).enumGen = s.enumGen := rfl
@[simp] theorem State.setX_fuses (s : State) (n : BitVec 5) (w : Word) : (s.setX n w).fuses = s.fuses := rfl
@[simp] theorem State.setX_offline (s : State) (n : BitVec 5) (w : Word) : (s.setX n w).offline = s.offline := rfl
@[simp] theorem State.setX_now (s : State) (n : BitVec 5) (w : Word) : (s.setX n w).now = s.now := rfl
@[simp] theorem State.setX_fresh (s : State) (n : BitVec 5) (w : Word) : (s.setX n w).fresh = s.fresh := rfl
@[simp] theorem State.setX_agenda (s : State) (n : BitVec 5) (w : Word) : (s.setX n w).agenda = s.agenda := rfl

/-! ### A vector register -/

@[simp] theorem State.setV_cpu (s : State) (n : BitVec 5) (w : VReg) : (s.setV n w).cpu = s.cpu.wv n w := rfl
@[simp] theorem State.setV_cells (s : State) (n : BitVec 5) (w : VReg) : (s.setV n w).cells = s.cells := rfl
@[simp] theorem State.setV_saved (s : State) (n : BitVec 5) (w : VReg) : (s.setV n w).saved = s.saved := rfl
@[simp] theorem State.setV_mem (s : State) (n : BitVec 5) (w : VReg) : (s.setV n w).mem = s.mem := rfl
@[simp] theorem State.setV_memPoison (s : State) (n : BitVec 5) (w : VReg) : (s.setV n w).memPoison = s.memPoison := rfl
@[simp] theorem State.setV_fwPoison (s : State) (n : BitVec 5) (w : VReg) : (s.setV n w).fwPoison = s.fwPoison := rfl
@[simp] theorem State.setV_sp (s : State) (n : BitVec 5) (w : VReg) : (s.setV n w).sp = s.sp := rfl
@[simp] theorem State.setV_spEmpty (s : State) (n : BitVec 5) (w : VReg) : (s.setV n w).spEmpty = s.spEmpty := rfl
@[simp] theorem State.setV_spPoison (s : State) (n : BitVec 5) (w : VReg) : (s.setV n w).spPoison = s.spPoison := rfl
@[simp] theorem State.setV_rings (s : State) (n : BitVec 5) (w : VReg) : (s.setV n w).rings = s.rings := rfl
@[simp] theorem State.setV_probes (s : State) (n : BitVec 5) (w : VReg) : (s.setV n w).probes = s.probes := rfl
@[simp] theorem State.setV_zeroing (s : State) (n : BitVec 5) (w : VReg) : (s.setV n w).zeroing = s.zeroing := rfl
@[simp] theorem State.setV_waits (s : State) (n : BitVec 5) (w : VReg) : (s.setV n w).waits = s.waits := rfl
@[simp] theorem State.setV_subtractions (s : State) (n : BitVec 5) (w : VReg) : (s.setV n w).subtractions = s.subtractions := rfl
@[simp] theorem State.setV_payloads (s : State) (n : BitVec 5) (w : VReg) : (s.setV n w).payloads = s.payloads := rfl
@[simp] theorem State.setV_reductions (s : State) (n : BitVec 5) (w : VReg) : (s.setV n w).reductions = s.reductions := rfl
@[simp] theorem State.setV_syncSram (s : State) (n : BitVec 5) (w : VReg) : (s.setV n w).syncSram = s.syncSram := rfl
@[simp] theorem State.setV_llTlb (s : State) (n : BitVec 5) (w : VReg) : (s.setV n w).llTlb = s.llTlb := rfl
@[simp] theorem State.setV_walks (s : State) (n : BitVec 5) (w : VReg) : (s.setV n w).walks = s.walks := rfl
@[simp] theorem State.setV_slices (s : State) (n : BitVec 5) (w : VReg) : (s.setV n w).slices = s.slices := rfl
@[simp] theorem State.setV_blocks (s : State) (n : BitVec 5) (w : VReg) : (s.setV n w).blocks = s.blocks := rfl
@[simp] theorem State.setV_blockClock (s : State) (n : BitVec 5) (w : VReg) : (s.setV n w).blockClock = s.blockClock := rfl
@[simp] theorem State.setV_objects (s : State) (n : BitVec 5) (w : VReg) : (s.setV n w).objects = s.objects := rfl
@[simp] theorem State.setV_holdReqs (s : State) (n : BitVec 5) (w : VReg) : (s.setV n w).holdReqs = s.holdReqs := rfl
@[simp] theorem State.setV_holdClock (s : State) (n : BitVec 5) (w : VReg) : (s.setV n w).holdClock = s.holdClock := rfl
@[simp] theorem State.setV_chipId (s : State) (n : BitVec 5) (w : VReg) : (s.setV n w).chipId = s.chipId := rfl
@[simp] theorem State.setV_copiers (s : State) (n : BitVec 5) (w : VReg) : (s.setV n w).copiers = s.copiers := rfl
@[simp] theorem State.setV_copyWaits (s : State) (n : BitVec 5) (w : VReg) : (s.setV n w).copyWaits = s.copyWaits := rfl
@[simp] theorem State.setV_channels (s : State) (n : BitVec 5) (w : VReg) : (s.setV n w).channels = s.channels := rfl
@[simp] theorem State.setV_graphs (s : State) (n : BitVec 5) (w : VReg) : (s.setV n w).graphs = s.graphs := rfl
@[simp] theorem State.setV_firings (s : State) (n : BitVec 5) (w : VReg) : (s.setV n w).firings = s.firings := rfl
@[simp] theorem State.setV_runClock (s : State) (n : BitVec 5) (w : VReg) : (s.setV n w).runClock = s.runClock := rfl
@[simp] theorem State.setV_floors (s : State) (n : BitVec 5) (w : VReg) : (s.setV n w).floors = s.floors := rfl
@[simp] theorem State.setV_contexts (s : State) (n : BitVec 5) (w : VReg) : (s.setV n w).contexts = s.contexts := rfl
@[simp] theorem State.setV_held (s : State) (n : BitVec 5) (w : VReg) : (s.setV n w).held = s.held := rfl
@[simp] theorem State.setV_dropped (s : State) (n : BitVec 5) (w : VReg) : (s.setV n w).dropped = s.dropped := rfl
@[simp] theorem State.setV_faults (s : State) (n : BitVec 5) (w : VReg) : (s.setV n w).faults = s.faults := rfl
@[simp] theorem State.setV_pageRecords (s : State) (n : BitVec 5) (w : VReg) : (s.setV n w).pageRecords = s.pageRecords := rfl
@[simp] theorem State.setV_accessClock (s : State) (n : BitVec 5) (w : VReg) : (s.setV n w).accessClock = s.accessClock := rfl
@[simp] theorem State.setV_fetchHints (s : State) (n : BitVec 5) (w : VReg) : (s.setV n w).fetchHints = s.fetchHints := rfl
@[simp] theorem State.setV_migrations (s : State) (n : BitVec 5) (w : VReg) : (s.setV n w).migrations = s.migrations := rfl
@[simp] theorem State.setV_shootdowns (s : State) (n : BitVec 5) (w : VReg) : (s.setV n w).shootdowns = s.shootdowns := rfl
@[simp] theorem State.setV_tierParams (s : State) (n : BitVec 5) (w : VReg) : (s.setV n w).tierParams = s.tierParams := rfl
@[simp] theorem State.setV_freeFrames (s : State) (n : BitVec 5) (w : VReg) : (s.setV n w).freeFrames = s.freeFrames := rfl
@[simp] theorem State.setV_tierWindow (s : State) (n : BitVec 5) (w : VReg) : (s.setV n w).tierWindow = s.tierWindow := rfl
@[simp] theorem State.setV_demoting (s : State) (n : BitVec 5) (w : VReg) : (s.setV n w).demoting = s.demoting := rfl
@[simp] theorem State.setV_budget (s : State) (n : BitVec 5) (w : VReg) : (s.setV n w).budget = s.budget := rfl
@[simp] theorem State.setV_budgetNext (s : State) (n : BitVec 5) (w : VReg) : (s.setV n w).budgetNext = s.budgetNext := rfl
@[simp] theorem State.setV_windowNo (s : State) (n : BitVec 5) (w : VReg) : (s.setV n w).windowNo = s.windowNo := rfl
@[simp] theorem State.setV_windowStart (s : State) (n : BitVec 5) (w : VReg) : (s.setV n w).windowStart = s.windowStart := rfl
@[simp] theorem State.setV_reserve (s : State) (n : BitVec 5) (w : VReg) : (s.setV n w).reserve = s.reserve := rfl
@[simp] theorem State.setV_reservePermille (s : State) (n : BitVec 5) (w : VReg) : (s.setV n w).reservePermille = s.reservePermille := rfl
@[simp] theorem State.setV_metered (s : State) (n : BitVec 5) (w : VReg) : (s.setV n w).metered = s.metered := rfl
@[simp] theorem State.setV_meterTime (s : State) (n : BitVec 5) (w : VReg) : (s.setV n w).meterTime = s.meterTime := rfl
@[simp] theorem State.setV_leaks (s : State) (n : BitVec 5) (w : VReg) : (s.setV n w).leaks = s.leaks := rfl
@[simp] theorem State.setV_meterScale (s : State) (n : BitVec 5) (w : VReg) : (s.setV n w).meterScale = s.meterScale := rfl
@[simp] theorem State.setV_refillCut (s : State) (n : BitVec 5) (w : VReg) : (s.setV n w).refillCut = s.refillCut := rfl
@[simp] theorem State.setV_pasidBase (s : State) (n : BitVec 5) (w : VReg) : (s.setV n w).pasidBase = s.pasidBase := rfl
@[simp] theorem State.setV_queues (s : State) (n : BitVec 5) (w : VReg) : (s.setV n w).queues = s.queues := rfl
@[simp] theorem State.setV_fwEvents (s : State) (n : BitVec 5) (w : VReg) : (s.setV n w).fwEvents = s.fwEvents := rfl
@[simp] theorem State.setV_arrivals (s : State) (n : BitVec 5) (w : VReg) : (s.setV n w).arrivals = s.arrivals := rfl
@[simp] theorem State.setV_overflow (s : State) (n : BitVec 5) (w : VReg) : (s.setV n w).overflow = s.overflow := rfl
@[simp] theorem State.setV_remoteWrites (s : State) (n : BitVec 5) (w : VReg) : (s.setV n w).remoteWrites = s.remoteWrites := rfl
@[simp] theorem State.setV_postings (s : State) (n : BitVec 5) (w : VReg) : (s.setV n w).postings = s.postings := rfl
@[simp] theorem State.setV_hostReads (s : State) (n : BitVec 5) (w : VReg) : (s.setV n w).hostReads = s.hostReads := rfl
@[simp] theorem State.setV_slots (s : State) (n : BitVec 5) (w : VReg) : (s.setV n w).slots = s.slots := rfl
@[simp] theorem State.setV_peers (s : State) (n : BitVec 5) (w : VReg) : (s.setV n w).peers = s.peers := rfl
@[simp] theorem State.setV_privileged (s : State) (n : BitVec 5) (w : VReg) : (s.setV n w).privileged = s.privileged := rfl
@[simp] theorem State.setV_signing (s : State) (n : BitVec 5) (w : VReg) : (s.setV n w).signing = s.signing := rfl
@[simp] theorem State.setV_keys (s : State) (n : BitVec 5) (w : VReg) : (s.setV n w).keys = s.keys := rfl
@[simp] theorem State.setV_class0Cells (s : State) (n : BitVec 5) (w : VReg) : (s.setV n w).class0Cells = s.class0Cells := rfl
@[simp] theorem State.setV_placements (s : State) (n : BitVec 5) (w : VReg) : (s.setV n w).placements = s.placements := rfl
@[simp] theorem State.setV_outbox (s : State) (n : BitVec 5) (w : VReg) : (s.setV n w).outbox = s.outbox := rfl
@[simp] theorem State.setV_errWindow (s : State) (n : BitVec 5) (w : VReg) : (s.setV n w).errWindow = s.errWindow := rfl
@[simp] theorem State.setV_errThreshold (s : State) (n : BitVec 5) (w : VReg) : (s.setV n w).errThreshold = s.errThreshold := rfl
@[simp] theorem State.setV_errors (s : State) (n : BitVec 5) (w : VReg) : (s.setV n w).errors = s.errors := rfl
@[simp] theorem State.setV_standbyTime (s : State) (n : BitVec 5) (w : VReg) : (s.setV n w).standbyTime = s.standbyTime := rfl
@[simp] theorem State.setV_thermal (s : State) (n : BitVec 5) (w : VReg) : (s.setV n w).thermal = s.thermal := rfl
@[simp] theorem State.setV_booted (s : State) (n : BitVec 5) (w : VReg) : (s.setV n w).booted = s.booted := rfl
@[simp] theorem State.setV_recovery (s : State) (n : BitVec 5) (w : VReg) : (s.setV n w).recovery = s.recovery := rfl
@[simp] theorem State.setV_fwSlots (s : State) (n : BitVec 5) (w : VReg) : (s.setV n w).fwSlots = s.fwSlots := rfl
@[simp] theorem State.setV_markers (s : State) (n : BitVec 5) (w : VReg) : (s.setV n w).markers = s.markers := rfl
@[simp] theorem State.setV_standbyOnly (s : State) (n : BitVec 5) (w : VReg) : (s.setV n w).standbyOnly = s.standbyOnly := rfl
@[simp] theorem State.setV_resets (s : State) (n : BitVec 5) (w : VReg) : (s.setV n w).resets = s.resets := rfl
@[simp] theorem State.setV_links (s : State) (n : BitVec 5) (w : VReg) : (s.setV n w).links = s.links := rfl
@[simp] theorem State.setV_linkTimes (s : State) (n : BitVec 5) (w : VReg) : (s.setV n w).linkTimes = s.linkTimes := rfl
@[simp] theorem State.setV_wires (s : State) (n : BitVec 5) (w : VReg) : (s.setV n w).wires = s.wires := rfl
@[simp] theorem State.setV_streams (s : State) (n : BitVec 5) (w : VReg) : (s.setV n w).streams = s.streams := rfl
@[simp] theorem State.setV_txns (s : State) (n : BitVec 5) (w : VReg) : (s.setV n w).txns = s.txns := rfl
@[simp] theorem State.setV_retired (s : State) (n : BitVec 5) (w : VReg) : (s.setV n w).retired = s.retired := rfl
@[simp] theorem State.setV_enumGen (s : State) (n : BitVec 5) (w : VReg) : (s.setV n w).enumGen = s.enumGen := rfl
@[simp] theorem State.setV_fuses (s : State) (n : BitVec 5) (w : VReg) : (s.setV n w).fuses = s.fuses := rfl
@[simp] theorem State.setV_offline (s : State) (n : BitVec 5) (w : VReg) : (s.setV n w).offline = s.offline := rfl
@[simp] theorem State.setV_now (s : State) (n : BitVec 5) (w : VReg) : (s.setV n w).now = s.now := rfl
@[simp] theorem State.setV_fresh (s : State) (n : BitVec 5) (w : VReg) : (s.setV n w).fresh = s.fresh := rfl
@[simp] theorem State.setV_agenda (s : State) (n : BitVec 5) (w : VReg) : (s.setV n w).agenda = s.agenda := rfl

/-! ### The next word -/

@[simp] theorem State.advance_cpu (s : State)  : (s.advance).cpu = s.cpu.flowTo (s.cpu.pc + 4) := rfl
@[simp] theorem State.advance_cells (s : State)  : (s.advance).cells = s.cells := rfl
@[simp] theorem State.advance_saved (s : State)  : (s.advance).saved = s.saved := rfl
@[simp] theorem State.advance_mem (s : State)  : (s.advance).mem = s.mem := rfl
@[simp] theorem State.advance_memPoison (s : State)  : (s.advance).memPoison = s.memPoison := rfl
@[simp] theorem State.advance_fwPoison (s : State)  : (s.advance).fwPoison = s.fwPoison := rfl
@[simp] theorem State.advance_sp (s : State)  : (s.advance).sp = s.sp := rfl
@[simp] theorem State.advance_spEmpty (s : State)  : (s.advance).spEmpty = s.spEmpty := rfl
@[simp] theorem State.advance_spPoison (s : State)  : (s.advance).spPoison = s.spPoison := rfl
@[simp] theorem State.advance_rings (s : State)  : (s.advance).rings = s.rings := rfl
@[simp] theorem State.advance_probes (s : State)  : (s.advance).probes = s.probes := rfl
@[simp] theorem State.advance_zeroing (s : State)  : (s.advance).zeroing = s.zeroing := rfl
@[simp] theorem State.advance_waits (s : State)  : (s.advance).waits = s.waits := rfl
@[simp] theorem State.advance_subtractions (s : State)  : (s.advance).subtractions = s.subtractions := rfl
@[simp] theorem State.advance_payloads (s : State)  : (s.advance).payloads = s.payloads := rfl
@[simp] theorem State.advance_reductions (s : State)  : (s.advance).reductions = s.reductions := rfl
@[simp] theorem State.advance_syncSram (s : State)  : (s.advance).syncSram = s.syncSram := rfl
@[simp] theorem State.advance_llTlb (s : State)  : (s.advance).llTlb = s.llTlb := rfl
@[simp] theorem State.advance_walks (s : State)  : (s.advance).walks = s.walks := rfl
@[simp] theorem State.advance_slices (s : State)  : (s.advance).slices = s.slices := rfl
@[simp] theorem State.advance_blocks (s : State)  : (s.advance).blocks = s.blocks := rfl
@[simp] theorem State.advance_blockClock (s : State)  : (s.advance).blockClock = s.blockClock := rfl
@[simp] theorem State.advance_objects (s : State)  : (s.advance).objects = s.objects := rfl
@[simp] theorem State.advance_holdReqs (s : State)  : (s.advance).holdReqs = s.holdReqs := rfl
@[simp] theorem State.advance_holdClock (s : State)  : (s.advance).holdClock = s.holdClock := rfl
@[simp] theorem State.advance_chipId (s : State)  : (s.advance).chipId = s.chipId := rfl
@[simp] theorem State.advance_copiers (s : State)  : (s.advance).copiers = s.copiers := rfl
@[simp] theorem State.advance_copyWaits (s : State)  : (s.advance).copyWaits = s.copyWaits := rfl
@[simp] theorem State.advance_channels (s : State)  : (s.advance).channels = s.channels := rfl
@[simp] theorem State.advance_graphs (s : State)  : (s.advance).graphs = s.graphs := rfl
@[simp] theorem State.advance_firings (s : State)  : (s.advance).firings = s.firings := rfl
@[simp] theorem State.advance_runClock (s : State)  : (s.advance).runClock = s.runClock := rfl
@[simp] theorem State.advance_floors (s : State)  : (s.advance).floors = s.floors := rfl
@[simp] theorem State.advance_contexts (s : State)  : (s.advance).contexts = s.contexts := rfl
@[simp] theorem State.advance_held (s : State)  : (s.advance).held = s.held := rfl
@[simp] theorem State.advance_dropped (s : State)  : (s.advance).dropped = s.dropped := rfl
@[simp] theorem State.advance_faults (s : State)  : (s.advance).faults = s.faults := rfl
@[simp] theorem State.advance_pageRecords (s : State)  : (s.advance).pageRecords = s.pageRecords := rfl
@[simp] theorem State.advance_accessClock (s : State)  : (s.advance).accessClock = s.accessClock := rfl
@[simp] theorem State.advance_fetchHints (s : State)  : (s.advance).fetchHints = s.fetchHints := rfl
@[simp] theorem State.advance_migrations (s : State)  : (s.advance).migrations = s.migrations := rfl
@[simp] theorem State.advance_shootdowns (s : State)  : (s.advance).shootdowns = s.shootdowns := rfl
@[simp] theorem State.advance_tierParams (s : State)  : (s.advance).tierParams = s.tierParams := rfl
@[simp] theorem State.advance_freeFrames (s : State)  : (s.advance).freeFrames = s.freeFrames := rfl
@[simp] theorem State.advance_tierWindow (s : State)  : (s.advance).tierWindow = s.tierWindow := rfl
@[simp] theorem State.advance_demoting (s : State)  : (s.advance).demoting = s.demoting := rfl
@[simp] theorem State.advance_budget (s : State)  : (s.advance).budget = s.budget := rfl
@[simp] theorem State.advance_budgetNext (s : State)  : (s.advance).budgetNext = s.budgetNext := rfl
@[simp] theorem State.advance_windowNo (s : State)  : (s.advance).windowNo = s.windowNo := rfl
@[simp] theorem State.advance_windowStart (s : State)  : (s.advance).windowStart = s.windowStart := rfl
@[simp] theorem State.advance_reserve (s : State)  : (s.advance).reserve = s.reserve := rfl
@[simp] theorem State.advance_reservePermille (s : State)  : (s.advance).reservePermille = s.reservePermille := rfl
@[simp] theorem State.advance_metered (s : State)  : (s.advance).metered = s.metered := rfl
@[simp] theorem State.advance_meterTime (s : State)  : (s.advance).meterTime = s.meterTime := rfl
@[simp] theorem State.advance_leaks (s : State)  : (s.advance).leaks = s.leaks := rfl
@[simp] theorem State.advance_meterScale (s : State)  : (s.advance).meterScale = s.meterScale := rfl
@[simp] theorem State.advance_refillCut (s : State)  : (s.advance).refillCut = s.refillCut := rfl
@[simp] theorem State.advance_pasidBase (s : State)  : (s.advance).pasidBase = s.pasidBase := rfl
@[simp] theorem State.advance_queues (s : State)  : (s.advance).queues = s.queues := rfl
@[simp] theorem State.advance_fwEvents (s : State)  : (s.advance).fwEvents = s.fwEvents := rfl
@[simp] theorem State.advance_arrivals (s : State)  : (s.advance).arrivals = s.arrivals := rfl
@[simp] theorem State.advance_overflow (s : State)  : (s.advance).overflow = s.overflow := rfl
@[simp] theorem State.advance_remoteWrites (s : State)  : (s.advance).remoteWrites = s.remoteWrites := rfl
@[simp] theorem State.advance_postings (s : State)  : (s.advance).postings = s.postings := rfl
@[simp] theorem State.advance_hostReads (s : State)  : (s.advance).hostReads = s.hostReads := rfl
@[simp] theorem State.advance_slots (s : State)  : (s.advance).slots = s.slots := rfl
@[simp] theorem State.advance_peers (s : State)  : (s.advance).peers = s.peers := rfl
@[simp] theorem State.advance_privileged (s : State)  : (s.advance).privileged = s.privileged := rfl
@[simp] theorem State.advance_signing (s : State)  : (s.advance).signing = s.signing := rfl
@[simp] theorem State.advance_keys (s : State)  : (s.advance).keys = s.keys := rfl
@[simp] theorem State.advance_class0Cells (s : State)  : (s.advance).class0Cells = s.class0Cells := rfl
@[simp] theorem State.advance_placements (s : State)  : (s.advance).placements = s.placements := rfl
@[simp] theorem State.advance_outbox (s : State)  : (s.advance).outbox = s.outbox := rfl
@[simp] theorem State.advance_errWindow (s : State)  : (s.advance).errWindow = s.errWindow := rfl
@[simp] theorem State.advance_errThreshold (s : State)  : (s.advance).errThreshold = s.errThreshold := rfl
@[simp] theorem State.advance_errors (s : State)  : (s.advance).errors = s.errors := rfl
@[simp] theorem State.advance_standbyTime (s : State)  : (s.advance).standbyTime = s.standbyTime := rfl
@[simp] theorem State.advance_thermal (s : State)  : (s.advance).thermal = s.thermal := rfl
@[simp] theorem State.advance_booted (s : State)  : (s.advance).booted = s.booted := rfl
@[simp] theorem State.advance_recovery (s : State)  : (s.advance).recovery = s.recovery := rfl
@[simp] theorem State.advance_fwSlots (s : State)  : (s.advance).fwSlots = s.fwSlots := rfl
@[simp] theorem State.advance_markers (s : State)  : (s.advance).markers = s.markers := rfl
@[simp] theorem State.advance_standbyOnly (s : State)  : (s.advance).standbyOnly = s.standbyOnly := rfl
@[simp] theorem State.advance_resets (s : State)  : (s.advance).resets = s.resets := rfl
@[simp] theorem State.advance_links (s : State)  : (s.advance).links = s.links := rfl
@[simp] theorem State.advance_linkTimes (s : State)  : (s.advance).linkTimes = s.linkTimes := rfl
@[simp] theorem State.advance_wires (s : State)  : (s.advance).wires = s.wires := rfl
@[simp] theorem State.advance_streams (s : State)  : (s.advance).streams = s.streams := rfl
@[simp] theorem State.advance_txns (s : State)  : (s.advance).txns = s.txns := rfl
@[simp] theorem State.advance_retired (s : State)  : (s.advance).retired = s.retired := rfl
@[simp] theorem State.advance_enumGen (s : State)  : (s.advance).enumGen = s.enumGen := rfl
@[simp] theorem State.advance_fuses (s : State)  : (s.advance).fuses = s.fuses := rfl
@[simp] theorem State.advance_offline (s : State)  : (s.advance).offline = s.offline := rfl
@[simp] theorem State.advance_now (s : State)  : (s.advance).now = s.now := rfl
@[simp] theorem State.advance_fresh (s : State)  : (s.advance).fresh = s.fresh := rfl
@[simp] theorem State.advance_agenda (s : State)  : (s.advance).agenda = s.agenda := rfl

/-! ### A context -/

@[simp] theorem State.updContext_cpu (s : State) (i : Nat) (f : Context → Context) : (s.updContext i f).cpu = s.cpu := rfl
@[simp] theorem State.updContext_cells (s : State) (i : Nat) (f : Context → Context) : (s.updContext i f).cells = s.cells := rfl
@[simp] theorem State.updContext_saved (s : State) (i : Nat) (f : Context → Context) : (s.updContext i f).saved = s.saved := rfl
@[simp] theorem State.updContext_mem (s : State) (i : Nat) (f : Context → Context) : (s.updContext i f).mem = s.mem := rfl
@[simp] theorem State.updContext_memPoison (s : State) (i : Nat) (f : Context → Context) : (s.updContext i f).memPoison = s.memPoison := rfl
@[simp] theorem State.updContext_fwPoison (s : State) (i : Nat) (f : Context → Context) : (s.updContext i f).fwPoison = s.fwPoison := rfl
@[simp] theorem State.updContext_sp (s : State) (i : Nat) (f : Context → Context) : (s.updContext i f).sp = s.sp := rfl
@[simp] theorem State.updContext_spEmpty (s : State) (i : Nat) (f : Context → Context) : (s.updContext i f).spEmpty = s.spEmpty := rfl
@[simp] theorem State.updContext_spPoison (s : State) (i : Nat) (f : Context → Context) : (s.updContext i f).spPoison = s.spPoison := rfl
@[simp] theorem State.updContext_rings (s : State) (i : Nat) (f : Context → Context) : (s.updContext i f).rings = s.rings := rfl
@[simp] theorem State.updContext_probes (s : State) (i : Nat) (f : Context → Context) : (s.updContext i f).probes = s.probes := rfl
@[simp] theorem State.updContext_zeroing (s : State) (i : Nat) (f : Context → Context) : (s.updContext i f).zeroing = s.zeroing := rfl
@[simp] theorem State.updContext_waits (s : State) (i : Nat) (f : Context → Context) : (s.updContext i f).waits = s.waits := rfl
@[simp] theorem State.updContext_subtractions (s : State) (i : Nat) (f : Context → Context) : (s.updContext i f).subtractions = s.subtractions := rfl
@[simp] theorem State.updContext_payloads (s : State) (i : Nat) (f : Context → Context) : (s.updContext i f).payloads = s.payloads := rfl
@[simp] theorem State.updContext_reductions (s : State) (i : Nat) (f : Context → Context) : (s.updContext i f).reductions = s.reductions := rfl
@[simp] theorem State.updContext_syncSram (s : State) (i : Nat) (f : Context → Context) : (s.updContext i f).syncSram = s.syncSram := rfl
@[simp] theorem State.updContext_llTlb (s : State) (i : Nat) (f : Context → Context) : (s.updContext i f).llTlb = s.llTlb := rfl
@[simp] theorem State.updContext_walks (s : State) (i : Nat) (f : Context → Context) : (s.updContext i f).walks = s.walks := rfl
@[simp] theorem State.updContext_slices (s : State) (i : Nat) (f : Context → Context) : (s.updContext i f).slices = s.slices := rfl
@[simp] theorem State.updContext_blocks (s : State) (i : Nat) (f : Context → Context) : (s.updContext i f).blocks = s.blocks := rfl
@[simp] theorem State.updContext_blockClock (s : State) (i : Nat) (f : Context → Context) : (s.updContext i f).blockClock = s.blockClock := rfl
@[simp] theorem State.updContext_objects (s : State) (i : Nat) (f : Context → Context) : (s.updContext i f).objects = s.objects := rfl
@[simp] theorem State.updContext_holdReqs (s : State) (i : Nat) (f : Context → Context) : (s.updContext i f).holdReqs = s.holdReqs := rfl
@[simp] theorem State.updContext_holdClock (s : State) (i : Nat) (f : Context → Context) : (s.updContext i f).holdClock = s.holdClock := rfl
@[simp] theorem State.updContext_chipId (s : State) (i : Nat) (f : Context → Context) : (s.updContext i f).chipId = s.chipId := rfl
@[simp] theorem State.updContext_copiers (s : State) (i : Nat) (f : Context → Context) : (s.updContext i f).copiers = s.copiers := rfl
@[simp] theorem State.updContext_copyWaits (s : State) (i : Nat) (f : Context → Context) : (s.updContext i f).copyWaits = s.copyWaits := rfl
@[simp] theorem State.updContext_channels (s : State) (i : Nat) (f : Context → Context) : (s.updContext i f).channels = s.channels := rfl
@[simp] theorem State.updContext_graphs (s : State) (i : Nat) (f : Context → Context) : (s.updContext i f).graphs = s.graphs := rfl
@[simp] theorem State.updContext_firings (s : State) (i : Nat) (f : Context → Context) : (s.updContext i f).firings = s.firings := rfl
@[simp] theorem State.updContext_runClock (s : State) (i : Nat) (f : Context → Context) : (s.updContext i f).runClock = s.runClock := rfl
@[simp] theorem State.updContext_floors (s : State) (i : Nat) (f : Context → Context) : (s.updContext i f).floors = s.floors := rfl
@[simp] theorem State.updContext_held (s : State) (i : Nat) (f : Context → Context) : (s.updContext i f).held = s.held := rfl
@[simp] theorem State.updContext_dropped (s : State) (i : Nat) (f : Context → Context) : (s.updContext i f).dropped = s.dropped := rfl
@[simp] theorem State.updContext_faults (s : State) (i : Nat) (f : Context → Context) : (s.updContext i f).faults = s.faults := rfl
@[simp] theorem State.updContext_pageRecords (s : State) (i : Nat) (f : Context → Context) : (s.updContext i f).pageRecords = s.pageRecords := rfl
@[simp] theorem State.updContext_accessClock (s : State) (i : Nat) (f : Context → Context) : (s.updContext i f).accessClock = s.accessClock := rfl
@[simp] theorem State.updContext_fetchHints (s : State) (i : Nat) (f : Context → Context) : (s.updContext i f).fetchHints = s.fetchHints := rfl
@[simp] theorem State.updContext_migrations (s : State) (i : Nat) (f : Context → Context) : (s.updContext i f).migrations = s.migrations := rfl
@[simp] theorem State.updContext_shootdowns (s : State) (i : Nat) (f : Context → Context) : (s.updContext i f).shootdowns = s.shootdowns := rfl
@[simp] theorem State.updContext_tierParams (s : State) (i : Nat) (f : Context → Context) : (s.updContext i f).tierParams = s.tierParams := rfl
@[simp] theorem State.updContext_freeFrames (s : State) (i : Nat) (f : Context → Context) : (s.updContext i f).freeFrames = s.freeFrames := rfl
@[simp] theorem State.updContext_tierWindow (s : State) (i : Nat) (f : Context → Context) : (s.updContext i f).tierWindow = s.tierWindow := rfl
@[simp] theorem State.updContext_demoting (s : State) (i : Nat) (f : Context → Context) : (s.updContext i f).demoting = s.demoting := rfl
@[simp] theorem State.updContext_budget (s : State) (i : Nat) (f : Context → Context) : (s.updContext i f).budget = s.budget := rfl
@[simp] theorem State.updContext_budgetNext (s : State) (i : Nat) (f : Context → Context) : (s.updContext i f).budgetNext = s.budgetNext := rfl
@[simp] theorem State.updContext_windowNo (s : State) (i : Nat) (f : Context → Context) : (s.updContext i f).windowNo = s.windowNo := rfl
@[simp] theorem State.updContext_windowStart (s : State) (i : Nat) (f : Context → Context) : (s.updContext i f).windowStart = s.windowStart := rfl
@[simp] theorem State.updContext_reserve (s : State) (i : Nat) (f : Context → Context) : (s.updContext i f).reserve = s.reserve := rfl
@[simp] theorem State.updContext_reservePermille (s : State) (i : Nat) (f : Context → Context) : (s.updContext i f).reservePermille = s.reservePermille := rfl
@[simp] theorem State.updContext_metered (s : State) (i : Nat) (f : Context → Context) : (s.updContext i f).metered = s.metered := rfl
@[simp] theorem State.updContext_meterTime (s : State) (i : Nat) (f : Context → Context) : (s.updContext i f).meterTime = s.meterTime := rfl
@[simp] theorem State.updContext_leaks (s : State) (i : Nat) (f : Context → Context) : (s.updContext i f).leaks = s.leaks := rfl
@[simp] theorem State.updContext_meterScale (s : State) (i : Nat) (f : Context → Context) : (s.updContext i f).meterScale = s.meterScale := rfl
@[simp] theorem State.updContext_refillCut (s : State) (i : Nat) (f : Context → Context) : (s.updContext i f).refillCut = s.refillCut := rfl
@[simp] theorem State.updContext_pasidBase (s : State) (i : Nat) (f : Context → Context) : (s.updContext i f).pasidBase = s.pasidBase := rfl
@[simp] theorem State.updContext_queues (s : State) (i : Nat) (f : Context → Context) : (s.updContext i f).queues = s.queues := rfl
@[simp] theorem State.updContext_fwEvents (s : State) (i : Nat) (f : Context → Context) : (s.updContext i f).fwEvents = s.fwEvents := rfl
@[simp] theorem State.updContext_arrivals (s : State) (i : Nat) (f : Context → Context) : (s.updContext i f).arrivals = s.arrivals := rfl
@[simp] theorem State.updContext_overflow (s : State) (i : Nat) (f : Context → Context) : (s.updContext i f).overflow = s.overflow := rfl
@[simp] theorem State.updContext_remoteWrites (s : State) (i : Nat) (f : Context → Context) : (s.updContext i f).remoteWrites = s.remoteWrites := rfl
@[simp] theorem State.updContext_postings (s : State) (i : Nat) (f : Context → Context) : (s.updContext i f).postings = s.postings := rfl
@[simp] theorem State.updContext_hostReads (s : State) (i : Nat) (f : Context → Context) : (s.updContext i f).hostReads = s.hostReads := rfl
@[simp] theorem State.updContext_slots (s : State) (i : Nat) (f : Context → Context) : (s.updContext i f).slots = s.slots := rfl
@[simp] theorem State.updContext_peers (s : State) (i : Nat) (f : Context → Context) : (s.updContext i f).peers = s.peers := rfl
@[simp] theorem State.updContext_privileged (s : State) (i : Nat) (f : Context → Context) : (s.updContext i f).privileged = s.privileged := rfl
@[simp] theorem State.updContext_signing (s : State) (i : Nat) (f : Context → Context) : (s.updContext i f).signing = s.signing := rfl
@[simp] theorem State.updContext_keys (s : State) (i : Nat) (f : Context → Context) : (s.updContext i f).keys = s.keys := rfl
@[simp] theorem State.updContext_class0Cells (s : State) (i : Nat) (f : Context → Context) : (s.updContext i f).class0Cells = s.class0Cells := rfl
@[simp] theorem State.updContext_placements (s : State) (i : Nat) (f : Context → Context) : (s.updContext i f).placements = s.placements := rfl
@[simp] theorem State.updContext_outbox (s : State) (i : Nat) (f : Context → Context) : (s.updContext i f).outbox = s.outbox := rfl
@[simp] theorem State.updContext_errWindow (s : State) (i : Nat) (f : Context → Context) : (s.updContext i f).errWindow = s.errWindow := rfl
@[simp] theorem State.updContext_errThreshold (s : State) (i : Nat) (f : Context → Context) : (s.updContext i f).errThreshold = s.errThreshold := rfl
@[simp] theorem State.updContext_errors (s : State) (i : Nat) (f : Context → Context) : (s.updContext i f).errors = s.errors := rfl
@[simp] theorem State.updContext_standbyTime (s : State) (i : Nat) (f : Context → Context) : (s.updContext i f).standbyTime = s.standbyTime := rfl
@[simp] theorem State.updContext_thermal (s : State) (i : Nat) (f : Context → Context) : (s.updContext i f).thermal = s.thermal := rfl
@[simp] theorem State.updContext_booted (s : State) (i : Nat) (f : Context → Context) : (s.updContext i f).booted = s.booted := rfl
@[simp] theorem State.updContext_recovery (s : State) (i : Nat) (f : Context → Context) : (s.updContext i f).recovery = s.recovery := rfl
@[simp] theorem State.updContext_fwSlots (s : State) (i : Nat) (f : Context → Context) : (s.updContext i f).fwSlots = s.fwSlots := rfl
@[simp] theorem State.updContext_markers (s : State) (i : Nat) (f : Context → Context) : (s.updContext i f).markers = s.markers := rfl
@[simp] theorem State.updContext_standbyOnly (s : State) (i : Nat) (f : Context → Context) : (s.updContext i f).standbyOnly = s.standbyOnly := rfl
@[simp] theorem State.updContext_resets (s : State) (i : Nat) (f : Context → Context) : (s.updContext i f).resets = s.resets := rfl
@[simp] theorem State.updContext_links (s : State) (i : Nat) (f : Context → Context) : (s.updContext i f).links = s.links := rfl
@[simp] theorem State.updContext_linkTimes (s : State) (i : Nat) (f : Context → Context) : (s.updContext i f).linkTimes = s.linkTimes := rfl
@[simp] theorem State.updContext_wires (s : State) (i : Nat) (f : Context → Context) : (s.updContext i f).wires = s.wires := rfl
@[simp] theorem State.updContext_streams (s : State) (i : Nat) (f : Context → Context) : (s.updContext i f).streams = s.streams := rfl
@[simp] theorem State.updContext_txns (s : State) (i : Nat) (f : Context → Context) : (s.updContext i f).txns = s.txns := rfl
@[simp] theorem State.updContext_retired (s : State) (i : Nat) (f : Context → Context) : (s.updContext i f).retired = s.retired := rfl
@[simp] theorem State.updContext_enumGen (s : State) (i : Nat) (f : Context → Context) : (s.updContext i f).enumGen = s.enumGen := rfl
@[simp] theorem State.updContext_fuses (s : State) (i : Nat) (f : Context → Context) : (s.updContext i f).fuses = s.fuses := rfl
@[simp] theorem State.updContext_offline (s : State) (i : Nat) (f : Context → Context) : (s.updContext i f).offline = s.offline := rfl
@[simp] theorem State.updContext_now (s : State) (i : Nat) (f : Context → Context) : (s.updContext i f).now = s.now := rfl
@[simp] theorem State.updContext_fresh (s : State) (i : Nat) (f : Context → Context) : (s.updContext i f).fresh = s.fresh := rfl
@[simp] theorem State.updContext_agenda (s : State) (i : Nat) (f : Context → Context) : (s.updContext i f).agenda = s.agenda := rfl

/-! ### A write at home -/

@[simp] theorem State.homeWrite_saved (s : State) (k : Nat) (bs : List Byte) (who : Option Nat) : (s.homeWrite k bs who).saved = s.saved := rfl
@[simp] theorem State.homeWrite_mem (s : State) (k : Nat) (bs : List Byte) (who : Option Nat) : (s.homeWrite k bs who).mem = writeBytes s.mem k bs := rfl
@[simp] theorem State.homeWrite_memPoison (s : State) (k : Nat) (bs : List Byte) (who : Option Nat) : (s.homeWrite k bs who).memPoison = healed s.memPoison k bs.length := rfl
@[simp] theorem State.homeWrite_fwPoison (s : State) (k : Nat) (bs : List Byte) (who : Option Nat) : (s.homeWrite k bs who).fwPoison = s.fwPoison := rfl
@[simp] theorem State.homeWrite_sp (s : State) (k : Nat) (bs : List Byte) (who : Option Nat) : (s.homeWrite k bs who).sp = s.sp := rfl
@[simp] theorem State.homeWrite_spEmpty (s : State) (k : Nat) (bs : List Byte) (who : Option Nat) : (s.homeWrite k bs who).spEmpty = s.spEmpty := rfl
@[simp] theorem State.homeWrite_spPoison (s : State) (k : Nat) (bs : List Byte) (who : Option Nat) : (s.homeWrite k bs who).spPoison = s.spPoison := rfl
@[simp] theorem State.homeWrite_rings (s : State) (k : Nat) (bs : List Byte) (who : Option Nat) : (s.homeWrite k bs who).rings = s.rings := rfl
@[simp] theorem State.homeWrite_probes (s : State) (k : Nat) (bs : List Byte) (who : Option Nat) : (s.homeWrite k bs who).probes = s.probes := rfl
@[simp] theorem State.homeWrite_zeroing (s : State) (k : Nat) (bs : List Byte) (who : Option Nat) : (s.homeWrite k bs who).zeroing = s.zeroing := rfl
@[simp] theorem State.homeWrite_subtractions (s : State) (k : Nat) (bs : List Byte) (who : Option Nat) : (s.homeWrite k bs who).subtractions = s.subtractions := rfl
@[simp] theorem State.homeWrite_payloads (s : State) (k : Nat) (bs : List Byte) (who : Option Nat) : (s.homeWrite k bs who).payloads = s.payloads := rfl
@[simp] theorem State.homeWrite_reductions (s : State) (k : Nat) (bs : List Byte) (who : Option Nat) : (s.homeWrite k bs who).reductions = s.reductions := rfl
@[simp] theorem State.homeWrite_syncSram (s : State) (k : Nat) (bs : List Byte) (who : Option Nat) : (s.homeWrite k bs who).syncSram = s.syncSram := rfl
@[simp] theorem State.homeWrite_llTlb (s : State) (k : Nat) (bs : List Byte) (who : Option Nat) : (s.homeWrite k bs who).llTlb = s.llTlb := rfl
@[simp] theorem State.homeWrite_walks (s : State) (k : Nat) (bs : List Byte) (who : Option Nat) : (s.homeWrite k bs who).walks = s.walks := rfl
@[simp] theorem State.homeWrite_slices (s : State) (k : Nat) (bs : List Byte) (who : Option Nat) : (s.homeWrite k bs who).slices = s.slices := rfl
@[simp] theorem State.homeWrite_blocks (s : State) (k : Nat) (bs : List Byte) (who : Option Nat) : (s.homeWrite k bs who).blocks = s.blocks := rfl
@[simp] theorem State.homeWrite_blockClock (s : State) (k : Nat) (bs : List Byte) (who : Option Nat) : (s.homeWrite k bs who).blockClock = s.blockClock := rfl
@[simp] theorem State.homeWrite_objects (s : State) (k : Nat) (bs : List Byte) (who : Option Nat) : (s.homeWrite k bs who).objects = s.objects := rfl
@[simp] theorem State.homeWrite_holdReqs (s : State) (k : Nat) (bs : List Byte) (who : Option Nat) : (s.homeWrite k bs who).holdReqs = s.holdReqs := rfl
@[simp] theorem State.homeWrite_holdClock (s : State) (k : Nat) (bs : List Byte) (who : Option Nat) : (s.homeWrite k bs who).holdClock = s.holdClock := rfl
@[simp] theorem State.homeWrite_chipId (s : State) (k : Nat) (bs : List Byte) (who : Option Nat) : (s.homeWrite k bs who).chipId = s.chipId := rfl
@[simp] theorem State.homeWrite_copiers (s : State) (k : Nat) (bs : List Byte) (who : Option Nat) : (s.homeWrite k bs who).copiers = s.copiers := rfl
@[simp] theorem State.homeWrite_copyWaits (s : State) (k : Nat) (bs : List Byte) (who : Option Nat) : (s.homeWrite k bs who).copyWaits = s.copyWaits := rfl
@[simp] theorem State.homeWrite_channels (s : State) (k : Nat) (bs : List Byte) (who : Option Nat) : (s.homeWrite k bs who).channels = s.channels := rfl
@[simp] theorem State.homeWrite_graphs (s : State) (k : Nat) (bs : List Byte) (who : Option Nat) : (s.homeWrite k bs who).graphs = s.graphs := rfl
@[simp] theorem State.homeWrite_firings (s : State) (k : Nat) (bs : List Byte) (who : Option Nat) : (s.homeWrite k bs who).firings = s.firings := rfl
@[simp] theorem State.homeWrite_runClock (s : State) (k : Nat) (bs : List Byte) (who : Option Nat) : (s.homeWrite k bs who).runClock = s.runClock := rfl
@[simp] theorem State.homeWrite_floors (s : State) (k : Nat) (bs : List Byte) (who : Option Nat) : (s.homeWrite k bs who).floors = s.floors := rfl
@[simp] theorem State.homeWrite_contexts (s : State) (k : Nat) (bs : List Byte) (who : Option Nat) : (s.homeWrite k bs who).contexts = s.contexts := rfl
@[simp] theorem State.homeWrite_held (s : State) (k : Nat) (bs : List Byte) (who : Option Nat) : (s.homeWrite k bs who).held = s.held := rfl
@[simp] theorem State.homeWrite_dropped (s : State) (k : Nat) (bs : List Byte) (who : Option Nat) : (s.homeWrite k bs who).dropped = s.dropped := rfl
@[simp] theorem State.homeWrite_faults (s : State) (k : Nat) (bs : List Byte) (who : Option Nat) : (s.homeWrite k bs who).faults = s.faults := rfl
@[simp] theorem State.homeWrite_pageRecords (s : State) (k : Nat) (bs : List Byte) (who : Option Nat) : (s.homeWrite k bs who).pageRecords = s.pageRecords := rfl
@[simp] theorem State.homeWrite_accessClock (s : State) (k : Nat) (bs : List Byte) (who : Option Nat) : (s.homeWrite k bs who).accessClock = s.accessClock := rfl
@[simp] theorem State.homeWrite_fetchHints (s : State) (k : Nat) (bs : List Byte) (who : Option Nat) : (s.homeWrite k bs who).fetchHints = s.fetchHints := rfl
@[simp] theorem State.homeWrite_migrations (s : State) (k : Nat) (bs : List Byte) (who : Option Nat) : (s.homeWrite k bs who).migrations = s.migrations := rfl
@[simp] theorem State.homeWrite_shootdowns (s : State) (k : Nat) (bs : List Byte) (who : Option Nat) : (s.homeWrite k bs who).shootdowns = s.shootdowns := rfl
@[simp] theorem State.homeWrite_tierParams (s : State) (k : Nat) (bs : List Byte) (who : Option Nat) : (s.homeWrite k bs who).tierParams = s.tierParams := rfl
@[simp] theorem State.homeWrite_freeFrames (s : State) (k : Nat) (bs : List Byte) (who : Option Nat) : (s.homeWrite k bs who).freeFrames = s.freeFrames := rfl
@[simp] theorem State.homeWrite_tierWindow (s : State) (k : Nat) (bs : List Byte) (who : Option Nat) : (s.homeWrite k bs who).tierWindow = s.tierWindow := rfl
@[simp] theorem State.homeWrite_demoting (s : State) (k : Nat) (bs : List Byte) (who : Option Nat) : (s.homeWrite k bs who).demoting = s.demoting := rfl
@[simp] theorem State.homeWrite_budget (s : State) (k : Nat) (bs : List Byte) (who : Option Nat) : (s.homeWrite k bs who).budget = s.budget := rfl
@[simp] theorem State.homeWrite_budgetNext (s : State) (k : Nat) (bs : List Byte) (who : Option Nat) : (s.homeWrite k bs who).budgetNext = s.budgetNext := rfl
@[simp] theorem State.homeWrite_windowNo (s : State) (k : Nat) (bs : List Byte) (who : Option Nat) : (s.homeWrite k bs who).windowNo = s.windowNo := rfl
@[simp] theorem State.homeWrite_windowStart (s : State) (k : Nat) (bs : List Byte) (who : Option Nat) : (s.homeWrite k bs who).windowStart = s.windowStart := rfl
@[simp] theorem State.homeWrite_reserve (s : State) (k : Nat) (bs : List Byte) (who : Option Nat) : (s.homeWrite k bs who).reserve = s.reserve := rfl
@[simp] theorem State.homeWrite_reservePermille (s : State) (k : Nat) (bs : List Byte) (who : Option Nat) : (s.homeWrite k bs who).reservePermille = s.reservePermille := rfl
@[simp] theorem State.homeWrite_metered (s : State) (k : Nat) (bs : List Byte) (who : Option Nat) : (s.homeWrite k bs who).metered = s.metered := rfl
@[simp] theorem State.homeWrite_meterTime (s : State) (k : Nat) (bs : List Byte) (who : Option Nat) : (s.homeWrite k bs who).meterTime = s.meterTime := rfl
@[simp] theorem State.homeWrite_leaks (s : State) (k : Nat) (bs : List Byte) (who : Option Nat) : (s.homeWrite k bs who).leaks = s.leaks := rfl
@[simp] theorem State.homeWrite_meterScale (s : State) (k : Nat) (bs : List Byte) (who : Option Nat) : (s.homeWrite k bs who).meterScale = s.meterScale := rfl
@[simp] theorem State.homeWrite_refillCut (s : State) (k : Nat) (bs : List Byte) (who : Option Nat) : (s.homeWrite k bs who).refillCut = s.refillCut := rfl
@[simp] theorem State.homeWrite_pasidBase (s : State) (k : Nat) (bs : List Byte) (who : Option Nat) : (s.homeWrite k bs who).pasidBase = s.pasidBase := rfl
@[simp] theorem State.homeWrite_queues (s : State) (k : Nat) (bs : List Byte) (who : Option Nat) : (s.homeWrite k bs who).queues = s.queues := rfl
@[simp] theorem State.homeWrite_fwEvents (s : State) (k : Nat) (bs : List Byte) (who : Option Nat) : (s.homeWrite k bs who).fwEvents = s.fwEvents := rfl
@[simp] theorem State.homeWrite_arrivals (s : State) (k : Nat) (bs : List Byte) (who : Option Nat) : (s.homeWrite k bs who).arrivals = s.arrivals := rfl
@[simp] theorem State.homeWrite_overflow (s : State) (k : Nat) (bs : List Byte) (who : Option Nat) : (s.homeWrite k bs who).overflow = s.overflow := rfl
@[simp] theorem State.homeWrite_remoteWrites (s : State) (k : Nat) (bs : List Byte) (who : Option Nat) : (s.homeWrite k bs who).remoteWrites = s.remoteWrites := rfl
@[simp] theorem State.homeWrite_postings (s : State) (k : Nat) (bs : List Byte) (who : Option Nat) : (s.homeWrite k bs who).postings = s.postings := rfl
@[simp] theorem State.homeWrite_hostReads (s : State) (k : Nat) (bs : List Byte) (who : Option Nat) : (s.homeWrite k bs who).hostReads = s.hostReads := rfl
@[simp] theorem State.homeWrite_slots (s : State) (k : Nat) (bs : List Byte) (who : Option Nat) : (s.homeWrite k bs who).slots = s.slots := rfl
@[simp] theorem State.homeWrite_peers (s : State) (k : Nat) (bs : List Byte) (who : Option Nat) : (s.homeWrite k bs who).peers = s.peers := rfl
@[simp] theorem State.homeWrite_privileged (s : State) (k : Nat) (bs : List Byte) (who : Option Nat) : (s.homeWrite k bs who).privileged = s.privileged := rfl
@[simp] theorem State.homeWrite_signing (s : State) (k : Nat) (bs : List Byte) (who : Option Nat) : (s.homeWrite k bs who).signing = s.signing := rfl
@[simp] theorem State.homeWrite_keys (s : State) (k : Nat) (bs : List Byte) (who : Option Nat) : (s.homeWrite k bs who).keys = s.keys := rfl
@[simp] theorem State.homeWrite_class0Cells (s : State) (k : Nat) (bs : List Byte) (who : Option Nat) : (s.homeWrite k bs who).class0Cells = s.class0Cells := rfl
@[simp] theorem State.homeWrite_placements (s : State) (k : Nat) (bs : List Byte) (who : Option Nat) : (s.homeWrite k bs who).placements = s.placements := rfl
@[simp] theorem State.homeWrite_outbox (s : State) (k : Nat) (bs : List Byte) (who : Option Nat) : (s.homeWrite k bs who).outbox = s.outbox := rfl
@[simp] theorem State.homeWrite_errWindow (s : State) (k : Nat) (bs : List Byte) (who : Option Nat) : (s.homeWrite k bs who).errWindow = s.errWindow := rfl
@[simp] theorem State.homeWrite_errThreshold (s : State) (k : Nat) (bs : List Byte) (who : Option Nat) : (s.homeWrite k bs who).errThreshold = s.errThreshold := rfl
@[simp] theorem State.homeWrite_errors (s : State) (k : Nat) (bs : List Byte) (who : Option Nat) : (s.homeWrite k bs who).errors = s.errors := rfl
@[simp] theorem State.homeWrite_standbyTime (s : State) (k : Nat) (bs : List Byte) (who : Option Nat) : (s.homeWrite k bs who).standbyTime = s.standbyTime := rfl
@[simp] theorem State.homeWrite_thermal (s : State) (k : Nat) (bs : List Byte) (who : Option Nat) : (s.homeWrite k bs who).thermal = s.thermal := rfl
@[simp] theorem State.homeWrite_booted (s : State) (k : Nat) (bs : List Byte) (who : Option Nat) : (s.homeWrite k bs who).booted = s.booted := rfl
@[simp] theorem State.homeWrite_recovery (s : State) (k : Nat) (bs : List Byte) (who : Option Nat) : (s.homeWrite k bs who).recovery = s.recovery := rfl
@[simp] theorem State.homeWrite_fwSlots (s : State) (k : Nat) (bs : List Byte) (who : Option Nat) : (s.homeWrite k bs who).fwSlots = s.fwSlots := rfl
@[simp] theorem State.homeWrite_markers (s : State) (k : Nat) (bs : List Byte) (who : Option Nat) : (s.homeWrite k bs who).markers = s.markers := rfl
@[simp] theorem State.homeWrite_standbyOnly (s : State) (k : Nat) (bs : List Byte) (who : Option Nat) : (s.homeWrite k bs who).standbyOnly = s.standbyOnly := rfl
@[simp] theorem State.homeWrite_resets (s : State) (k : Nat) (bs : List Byte) (who : Option Nat) : (s.homeWrite k bs who).resets = s.resets := rfl
@[simp] theorem State.homeWrite_links (s : State) (k : Nat) (bs : List Byte) (who : Option Nat) : (s.homeWrite k bs who).links = s.links := rfl
@[simp] theorem State.homeWrite_linkTimes (s : State) (k : Nat) (bs : List Byte) (who : Option Nat) : (s.homeWrite k bs who).linkTimes = s.linkTimes := rfl
@[simp] theorem State.homeWrite_wires (s : State) (k : Nat) (bs : List Byte) (who : Option Nat) : (s.homeWrite k bs who).wires = s.wires := rfl
@[simp] theorem State.homeWrite_streams (s : State) (k : Nat) (bs : List Byte) (who : Option Nat) : (s.homeWrite k bs who).streams = s.streams := rfl
@[simp] theorem State.homeWrite_txns (s : State) (k : Nat) (bs : List Byte) (who : Option Nat) : (s.homeWrite k bs who).txns = s.txns := rfl
@[simp] theorem State.homeWrite_retired (s : State) (k : Nat) (bs : List Byte) (who : Option Nat) : (s.homeWrite k bs who).retired = s.retired := rfl
@[simp] theorem State.homeWrite_enumGen (s : State) (k : Nat) (bs : List Byte) (who : Option Nat) : (s.homeWrite k bs who).enumGen = s.enumGen := rfl
@[simp] theorem State.homeWrite_fuses (s : State) (k : Nat) (bs : List Byte) (who : Option Nat) : (s.homeWrite k bs who).fuses = s.fuses := rfl
@[simp] theorem State.homeWrite_offline (s : State) (k : Nat) (bs : List Byte) (who : Option Nat) : (s.homeWrite k bs who).offline = s.offline := rfl
@[simp] theorem State.homeWrite_now (s : State) (k : Nat) (bs : List Byte) (who : Option Nat) : (s.homeWrite k bs who).now = s.now := rfl
@[simp] theorem State.homeWrite_fresh (s : State) (k : Nat) (bs : List Byte) (who : Option Nat) : (s.homeWrite k bs who).fresh = s.fresh := rfl
@[simp] theorem State.homeWrite_agenda (s : State) (k : Nat) (bs : List Byte) (who : Option Nat) : (s.homeWrite k bs who).agenda = s.agenda := rfl

/-! ### A scratchpad write -/

@[simp] theorem State.spWrite_cpu (s : State) (off n v : Nat) : (s.spWrite off n v).cpu = s.cpu := rfl
@[simp] theorem State.spWrite_cells (s : State) (off n v : Nat) : (s.spWrite off n v).cells = s.cells := rfl
@[simp] theorem State.spWrite_saved (s : State) (off n v : Nat) : (s.spWrite off n v).saved = s.saved := rfl
@[simp] theorem State.spWrite_mem (s : State) (off n v : Nat) : (s.spWrite off n v).mem = s.mem := rfl
@[simp] theorem State.spWrite_memPoison (s : State) (off n v : Nat) : (s.spWrite off n v).memPoison = s.memPoison := rfl
@[simp] theorem State.spWrite_fwPoison (s : State) (off n v : Nat) : (s.spWrite off n v).fwPoison = s.fwPoison := rfl
@[simp] theorem State.spWrite_sp (s : State) (off n v : Nat) : (s.spWrite off n v).sp = writeLE s.sp (spKey s.cpu.cluster off) n v := rfl
@[simp] theorem State.spWrite_spEmpty (s : State) (off n v : Nat) : (s.spWrite off n v).spEmpty = s.spEmpty := rfl
@[simp] theorem State.spWrite_rings (s : State) (off n v : Nat) : (s.spWrite off n v).rings = s.rings := rfl
@[simp] theorem State.spWrite_probes (s : State) (off n v : Nat) : (s.spWrite off n v).probes = s.probes := rfl
@[simp] theorem State.spWrite_zeroing (s : State) (off n v : Nat) : (s.spWrite off n v).zeroing = s.zeroing := rfl
@[simp] theorem State.spWrite_waits (s : State) (off n v : Nat) : (s.spWrite off n v).waits = s.waits := rfl
@[simp] theorem State.spWrite_subtractions (s : State) (off n v : Nat) : (s.spWrite off n v).subtractions = s.subtractions := rfl
@[simp] theorem State.spWrite_payloads (s : State) (off n v : Nat) : (s.spWrite off n v).payloads = s.payloads := rfl
@[simp] theorem State.spWrite_reductions (s : State) (off n v : Nat) : (s.spWrite off n v).reductions = s.reductions := rfl
@[simp] theorem State.spWrite_syncSram (s : State) (off n v : Nat) : (s.spWrite off n v).syncSram = s.syncSram := rfl
@[simp] theorem State.spWrite_llTlb (s : State) (off n v : Nat) : (s.spWrite off n v).llTlb = s.llTlb := rfl
@[simp] theorem State.spWrite_walks (s : State) (off n v : Nat) : (s.spWrite off n v).walks = s.walks := rfl
@[simp] theorem State.spWrite_slices (s : State) (off n v : Nat) : (s.spWrite off n v).slices = s.slices := rfl
@[simp] theorem State.spWrite_blocks (s : State) (off n v : Nat) : (s.spWrite off n v).blocks = s.blocks := rfl
@[simp] theorem State.spWrite_blockClock (s : State) (off n v : Nat) : (s.spWrite off n v).blockClock = s.blockClock := rfl
@[simp] theorem State.spWrite_objects (s : State) (off n v : Nat) : (s.spWrite off n v).objects = s.objects := rfl
@[simp] theorem State.spWrite_holdReqs (s : State) (off n v : Nat) : (s.spWrite off n v).holdReqs = s.holdReqs := rfl
@[simp] theorem State.spWrite_holdClock (s : State) (off n v : Nat) : (s.spWrite off n v).holdClock = s.holdClock := rfl
@[simp] theorem State.spWrite_chipId (s : State) (off n v : Nat) : (s.spWrite off n v).chipId = s.chipId := rfl
@[simp] theorem State.spWrite_copiers (s : State) (off n v : Nat) : (s.spWrite off n v).copiers = s.copiers := rfl
@[simp] theorem State.spWrite_copyWaits (s : State) (off n v : Nat) : (s.spWrite off n v).copyWaits = s.copyWaits := rfl
@[simp] theorem State.spWrite_channels (s : State) (off n v : Nat) : (s.spWrite off n v).channels = s.channels := rfl
@[simp] theorem State.spWrite_graphs (s : State) (off n v : Nat) : (s.spWrite off n v).graphs = s.graphs := rfl
@[simp] theorem State.spWrite_firings (s : State) (off n v : Nat) : (s.spWrite off n v).firings = s.firings := rfl
@[simp] theorem State.spWrite_runClock (s : State) (off n v : Nat) : (s.spWrite off n v).runClock = s.runClock := rfl
@[simp] theorem State.spWrite_floors (s : State) (off n v : Nat) : (s.spWrite off n v).floors = s.floors := rfl
@[simp] theorem State.spWrite_contexts (s : State) (off n v : Nat) : (s.spWrite off n v).contexts = s.contexts := rfl
@[simp] theorem State.spWrite_held (s : State) (off n v : Nat) : (s.spWrite off n v).held = s.held := rfl
@[simp] theorem State.spWrite_dropped (s : State) (off n v : Nat) : (s.spWrite off n v).dropped = s.dropped := rfl
@[simp] theorem State.spWrite_faults (s : State) (off n v : Nat) : (s.spWrite off n v).faults = s.faults := rfl
@[simp] theorem State.spWrite_pageRecords (s : State) (off n v : Nat) : (s.spWrite off n v).pageRecords = s.pageRecords := rfl
@[simp] theorem State.spWrite_accessClock (s : State) (off n v : Nat) : (s.spWrite off n v).accessClock = s.accessClock := rfl
@[simp] theorem State.spWrite_fetchHints (s : State) (off n v : Nat) : (s.spWrite off n v).fetchHints = s.fetchHints := rfl
@[simp] theorem State.spWrite_migrations (s : State) (off n v : Nat) : (s.spWrite off n v).migrations = s.migrations := rfl
@[simp] theorem State.spWrite_shootdowns (s : State) (off n v : Nat) : (s.spWrite off n v).shootdowns = s.shootdowns := rfl
@[simp] theorem State.spWrite_tierParams (s : State) (off n v : Nat) : (s.spWrite off n v).tierParams = s.tierParams := rfl
@[simp] theorem State.spWrite_freeFrames (s : State) (off n v : Nat) : (s.spWrite off n v).freeFrames = s.freeFrames := rfl
@[simp] theorem State.spWrite_tierWindow (s : State) (off n v : Nat) : (s.spWrite off n v).tierWindow = s.tierWindow := rfl
@[simp] theorem State.spWrite_demoting (s : State) (off n v : Nat) : (s.spWrite off n v).demoting = s.demoting := rfl
@[simp] theorem State.spWrite_budget (s : State) (off n v : Nat) : (s.spWrite off n v).budget = s.budget := rfl
@[simp] theorem State.spWrite_budgetNext (s : State) (off n v : Nat) : (s.spWrite off n v).budgetNext = s.budgetNext := rfl
@[simp] theorem State.spWrite_windowNo (s : State) (off n v : Nat) : (s.spWrite off n v).windowNo = s.windowNo := rfl
@[simp] theorem State.spWrite_windowStart (s : State) (off n v : Nat) : (s.spWrite off n v).windowStart = s.windowStart := rfl
@[simp] theorem State.spWrite_reserve (s : State) (off n v : Nat) : (s.spWrite off n v).reserve = s.reserve := rfl
@[simp] theorem State.spWrite_reservePermille (s : State) (off n v : Nat) : (s.spWrite off n v).reservePermille = s.reservePermille := rfl
@[simp] theorem State.spWrite_metered (s : State) (off n v : Nat) : (s.spWrite off n v).metered = s.metered := rfl
@[simp] theorem State.spWrite_meterTime (s : State) (off n v : Nat) : (s.spWrite off n v).meterTime = s.meterTime := rfl
@[simp] theorem State.spWrite_leaks (s : State) (off n v : Nat) : (s.spWrite off n v).leaks = s.leaks := rfl
@[simp] theorem State.spWrite_meterScale (s : State) (off n v : Nat) : (s.spWrite off n v).meterScale = s.meterScale := rfl
@[simp] theorem State.spWrite_refillCut (s : State) (off n v : Nat) : (s.spWrite off n v).refillCut = s.refillCut := rfl
@[simp] theorem State.spWrite_pasidBase (s : State) (off n v : Nat) : (s.spWrite off n v).pasidBase = s.pasidBase := rfl
@[simp] theorem State.spWrite_queues (s : State) (off n v : Nat) : (s.spWrite off n v).queues = s.queues := rfl
@[simp] theorem State.spWrite_fwEvents (s : State) (off n v : Nat) : (s.spWrite off n v).fwEvents = s.fwEvents := rfl
@[simp] theorem State.spWrite_arrivals (s : State) (off n v : Nat) : (s.spWrite off n v).arrivals = s.arrivals := rfl
@[simp] theorem State.spWrite_overflow (s : State) (off n v : Nat) : (s.spWrite off n v).overflow = s.overflow := rfl
@[simp] theorem State.spWrite_remoteWrites (s : State) (off n v : Nat) : (s.spWrite off n v).remoteWrites = s.remoteWrites := rfl
@[simp] theorem State.spWrite_postings (s : State) (off n v : Nat) : (s.spWrite off n v).postings = s.postings := rfl
@[simp] theorem State.spWrite_hostReads (s : State) (off n v : Nat) : (s.spWrite off n v).hostReads = s.hostReads := rfl
@[simp] theorem State.spWrite_slots (s : State) (off n v : Nat) : (s.spWrite off n v).slots = s.slots := rfl
@[simp] theorem State.spWrite_peers (s : State) (off n v : Nat) : (s.spWrite off n v).peers = s.peers := rfl
@[simp] theorem State.spWrite_privileged (s : State) (off n v : Nat) : (s.spWrite off n v).privileged = s.privileged := rfl
@[simp] theorem State.spWrite_signing (s : State) (off n v : Nat) : (s.spWrite off n v).signing = s.signing := rfl
@[simp] theorem State.spWrite_keys (s : State) (off n v : Nat) : (s.spWrite off n v).keys = s.keys := rfl
@[simp] theorem State.spWrite_class0Cells (s : State) (off n v : Nat) : (s.spWrite off n v).class0Cells = s.class0Cells := rfl
@[simp] theorem State.spWrite_placements (s : State) (off n v : Nat) : (s.spWrite off n v).placements = s.placements := rfl
@[simp] theorem State.spWrite_outbox (s : State) (off n v : Nat) : (s.spWrite off n v).outbox = s.outbox := rfl
@[simp] theorem State.spWrite_errWindow (s : State) (off n v : Nat) : (s.spWrite off n v).errWindow = s.errWindow := rfl
@[simp] theorem State.spWrite_errThreshold (s : State) (off n v : Nat) : (s.spWrite off n v).errThreshold = s.errThreshold := rfl
@[simp] theorem State.spWrite_errors (s : State) (off n v : Nat) : (s.spWrite off n v).errors = s.errors := rfl
@[simp] theorem State.spWrite_standbyTime (s : State) (off n v : Nat) : (s.spWrite off n v).standbyTime = s.standbyTime := rfl
@[simp] theorem State.spWrite_thermal (s : State) (off n v : Nat) : (s.spWrite off n v).thermal = s.thermal := rfl
@[simp] theorem State.spWrite_booted (s : State) (off n v : Nat) : (s.spWrite off n v).booted = s.booted := rfl
@[simp] theorem State.spWrite_recovery (s : State) (off n v : Nat) : (s.spWrite off n v).recovery = s.recovery := rfl
@[simp] theorem State.spWrite_fwSlots (s : State) (off n v : Nat) : (s.spWrite off n v).fwSlots = s.fwSlots := rfl
@[simp] theorem State.spWrite_markers (s : State) (off n v : Nat) : (s.spWrite off n v).markers = s.markers := rfl
@[simp] theorem State.spWrite_standbyOnly (s : State) (off n v : Nat) : (s.spWrite off n v).standbyOnly = s.standbyOnly := rfl
@[simp] theorem State.spWrite_resets (s : State) (off n v : Nat) : (s.spWrite off n v).resets = s.resets := rfl
@[simp] theorem State.spWrite_links (s : State) (off n v : Nat) : (s.spWrite off n v).links = s.links := rfl
@[simp] theorem State.spWrite_linkTimes (s : State) (off n v : Nat) : (s.spWrite off n v).linkTimes = s.linkTimes := rfl
@[simp] theorem State.spWrite_wires (s : State) (off n v : Nat) : (s.spWrite off n v).wires = s.wires := rfl
@[simp] theorem State.spWrite_streams (s : State) (off n v : Nat) : (s.spWrite off n v).streams = s.streams := rfl
@[simp] theorem State.spWrite_txns (s : State) (off n v : Nat) : (s.spWrite off n v).txns = s.txns := rfl
@[simp] theorem State.spWrite_retired (s : State) (off n v : Nat) : (s.spWrite off n v).retired = s.retired := rfl
@[simp] theorem State.spWrite_enumGen (s : State) (off n v : Nat) : (s.spWrite off n v).enumGen = s.enumGen := rfl
@[simp] theorem State.spWrite_fuses (s : State) (off n v : Nat) : (s.spWrite off n v).fuses = s.fuses := rfl
@[simp] theorem State.spWrite_offline (s : State) (off n v : Nat) : (s.spWrite off n v).offline = s.offline := rfl
@[simp] theorem State.spWrite_now (s : State) (off n v : Nat) : (s.spWrite off n v).now = s.now := rfl
@[simp] theorem State.spWrite_fresh (s : State) (off n v : Nat) : (s.spWrite off n v).fresh = s.fresh := rfl
@[simp] theorem State.spWrite_agenda (s : State) (off n v : Nat) : (s.spWrite off n v).agenda = s.agenda := rfl

/-! ### A vector register of a cell -/

@[simp] theorem Cell.wv_id (c : Cell) (n : BitVec 5) (w : VReg) : (c.wv n w).id = c.id := rfl
@[simp] theorem Cell.wv_cluster (c : Cell) (n : BitVec 5) (w : VReg) : (c.wv n w).cluster = c.cluster := rfl
@[simp] theorem Cell.wv_sector (c : Cell) (n : BitVec 5) (w : VReg) : (c.wv n w).sector = c.sector := rfl
@[simp] theorem Cell.wv_stack (c : Cell) (n : BitVec 5) (w : VReg) : (c.wv n w).stack = c.stack := rfl
@[simp] theorem Cell.wv_die (c : Cell) (n : BitVec 5) (w : VReg) : (c.wv n w).die = c.die := rfl
@[simp] theorem Cell.wv_pos (c : Cell) (n : BitVec 5) (w : VReg) : (c.wv n w).pos = c.pos := rfl
@[simp] theorem Cell.wv_running (c : Cell) (n : BitVec 5) (w : VReg) : (c.wv n w).running = c.running := rfl
@[simp] theorem Cell.wv_ctx (c : Cell) (n : BitVec 5) (w : VReg) : (c.wv n w).ctx = c.ctx := rfl
@[simp] theorem Cell.wv_firing (c : Cell) (n : BitVec 5) (w : VReg) : (c.wv n w).firing = c.firing := rfl
@[simp] theorem Cell.wv_team (c : Cell) (n : BitVec 5) (w : VReg) : (c.wv n w).team = c.team := rfl
@[simp] theorem Cell.wv_node (c : Cell) (n : BitVec 5) (w : VReg) : (c.wv n w).node = c.node := rfl
@[simp] theorem Cell.wv_cls (c : Cell) (n : BitVec 5) (w : VReg) : (c.wv n w).cls = c.cls := rfl
@[simp] theorem Cell.wv_role (c : Cell) (n : BitVec 5) (w : VReg) : (c.wv n w).role = c.role := rfl
@[simp] theorem Cell.wv_tindex (c : Cell) (n : BitVec 5) (w : VReg) : (c.wv n w).tindex = c.tindex := rfl
@[simp] theorem Cell.wv_tsize (c : Cell) (n : BitVec 5) (w : VReg) : (c.wv n w).tsize = c.tsize := rfl
@[simp] theorem Cell.wv_roleCounts (c : Cell) (n : BitVec 5) (w : VReg) : (c.wv n w).roleCounts = c.roleCounts := rfl
@[simp] theorem Cell.wv_winBase (c : Cell) (n : BitVec 5) (w : VReg) : (c.wv n w).winBase = c.winBase := rfl
@[simp] theorem Cell.wv_winSize (c : Cell) (n : BitVec 5) (w : VReg) : (c.wv n w).winSize = c.winSize := rfl
@[simp] theorem Cell.wv_pc (c : Cell) (n : BitVec 5) (w : VReg) : (c.wv n w).pc = c.pc := rfl
@[simp] theorem Cell.wv_word (c : Cell) (n : BitVec 5) (w : VReg) : (c.wv n w).word = c.word := rfl
@[simp] theorem Cell.wv_x (c : Cell) (n : BitVec 5) (w : VReg) : (c.wv n w).x = c.x := rfl
@[simp] theorem Cell.wv_hx (c : Cell) (n : BitVec 5) (w : VReg) : (c.wv n w).hx = c.hx := rfl
@[simp] theorem Cell.wv_handler (c : Cell) (n : BitVec 5) (w : VReg) : (c.wv n w).handler = c.handler := rfl
@[simp] theorem Cell.wv_v (c : Cell) (n : BitVec 5) (w : VReg) : (c.wv n w).v = c.v.set n.toNat w n.isLt := rfl
@[simp] theorem Cell.wv_k (c : Cell) (n : BitVec 5) (w : VReg) : (c.wv n w).k = c.k := rfl
@[simp] theorem Cell.wv_m (c : Cell) (n : BitVec 5) (w : VReg) : (c.wv n w).m = c.m := rfl
@[simp] theorem Cell.wv_fm (c : Cell) (n : BitVec 5) (w : VReg) : (c.wv n w).fm = c.fm := rfl
@[simp] theorem Cell.wv_poison (c : Cell) (n : BitVec 5) (w : VReg) : (c.wv n w).poison = c.poison := rfl
@[simp] theorem Cell.wv_ft (c : Cell) (n : BitVec 5) (w : VReg) : (c.wv n w).ft = c.ft := rfl
@[simp] theorem Cell.wv_q (c : Cell) (n : BitVec 5) (w : VReg) : (c.wv n w).q = c.q := rfl
@[simp] theorem Cell.wv_acc (c : Cell) (n : BitVec 5) (w : VReg) : (c.wv n w).acc = c.acc := rfl
@[simp] theorem Cell.wv_accTag (c : Cell) (n : BitVec 5) (w : VReg) : (c.wv n w).accTag = c.accTag := rfl
@[simp] theorem Cell.wv_accFmt (c : Cell) (n : BitVec 5) (w : VReg) : (c.wv n w).accFmt = c.accFmt := rfl
@[simp] theorem Cell.wv_accS (c : Cell) (n : BitVec 5) (w : VReg) : (c.wv n w).accS = c.accS := rfl
@[simp] theorem Cell.wv_accH (c : Cell) (n : BitVec 5) (w : VReg) : (c.wv n w).accH = c.accH := rfl
@[simp] theorem Cell.wv_accT (c : Cell) (n : BitVec 5) (w : VReg) : (c.wv n w).accT = c.accT := rfl
@[simp] theorem Cell.wv_epiMode (c : Cell) (n : BitVec 5) (w : VReg) : (c.wv n w).epiMode = c.epiMode := rfl
@[simp] theorem Cell.wv_vslip (c : Cell) (n : BitVec 5) (w : VReg) : (c.wv n w).vslip = c.vslip := rfl
@[simp] theorem Cell.wv_vrm (c : Cell) (n : BitVec 5) (w : VReg) : (c.wv n w).vrm = c.vrm := rfl
@[simp] theorem Cell.wv_ftbase (c : Cell) (n : BitVec 5) (w : VReg) : (c.wv n w).ftbase = c.ftbase := rfl
@[simp] theorem Cell.wv_ftsel (c : Cell) (n : BitVec 5) (w : VReg) : (c.wv n w).ftsel = c.ftsel := rfl
@[simp] theorem Cell.wv_thandler (c : Cell) (n : BitVec 5) (w : VReg) : (c.wv n w).thandler = c.thandler := rfl
@[simp] theorem Cell.wv_lc (c : Cell) (n : BitVec 5) (w : VReg) : (c.wv n w).lc = c.lc := rfl
@[simp] theorem Cell.wv_pidx (c : Cell) (n : BitVec 5) (w : VReg) : (c.wv n w).pidx = c.pidx := rfl
@[simp] theorem Cell.wv_tcause (c : Cell) (n : BitVec 5) (w : VReg) : (c.wv n w).tcause = c.tcause := rfl
@[simp] theorem Cell.wv_tval (c : Cell) (n : BitVec 5) (w : VReg) : (c.wv n w).tval = c.tval := rfl
@[simp] theorem Cell.wv_tepc (c : Cell) (n : BitVec 5) (w : VReg) : (c.wv n w).tepc = c.tepc := rfl
@[simp] theorem Cell.wv_nbstat (c : Cell) (n : BitVec 5) (w : VReg) : (c.wv n w).nbstat = c.nbstat := rfl
@[simp] theorem Cell.wv_rel (c : Cell) (n : BitVec 5) (w : VReg) : (c.wv n w).rel = c.rel := rfl
@[simp] theorem Cell.wv_valloc (c : Cell) (n : BitVec 5) (w : VReg) : (c.wv n w).valloc = c.valloc := rfl
@[simp] theorem Cell.wv_loops (c : Cell) (n : BitVec 5) (w : VReg) : (c.wv n w).loops = c.loops := rfl
@[simp] theorem Cell.wv_savedLoops (c : Cell) (n : BitVec 5) (w : VReg) : (c.wv n w).savedLoops = c.savedLoops := rfl
@[simp] theorem Cell.wv_savedLc (c : Cell) (n : BitVec 5) (w : VReg) : (c.wv n w).savedLc = c.savedLc := rfl
@[simp] theorem Cell.wv_pending (c : Cell) (n : BitVec 5) (w : VReg) : (c.wv n w).pending = c.pending := rfl
@[simp] theorem Cell.wv_vseq (c : Cell) (n : BitVec 5) (w : VReg) : (c.wv n w).vseq = c.vseq := rfl
@[simp] theorem Cell.wv_replay (c : Cell) (n : BitVec 5) (w : VReg) : (c.wv n w).replay = c.replay := rfl
@[simp] theorem Cell.wv_capture (c : Cell) (n : BitVec 5) (w : VReg) : (c.wv n w).capture = c.capture := rfl
@[simp] theorem Cell.wv_phaseCount (c : Cell) (n : BitVec 5) (w : VReg) : (c.wv n w).phaseCount = c.phaseCount := rfl
@[simp] theorem Cell.wv_lead (c : Cell) (n : BitVec 5) (w : VReg) : (c.wv n w).lead = c.lead := rfl
@[simp] theorem Cell.wv_hold (c : Cell) (n : BitVec 5) (w : VReg) : (c.wv n w).hold = c.hold := rfl
@[simp] theorem Cell.wv_savedHold (c : Cell) (n : BitVec 5) (w : VReg) : (c.wv n w).savedHold = c.savedHold := rfl
@[simp] theorem Cell.wv_redFlags (c : Cell) (n : BitVec 5) (w : VReg) : (c.wv n w).redFlags = c.redFlags := rfl
@[simp] theorem Cell.wv_hwLost (c : Cell) (n : BitVec 5) (w : VReg) : (c.wv n w).hwLost = c.hwLost := rfl
@[simp] theorem Cell.wv_sent (c : Cell) (n : BitVec 5) (w : VReg) : (c.wv n w).sent = c.sent := rfl
@[simp] theorem Cell.wv_received (c : Cell) (n : BitVec 5) (w : VReg) : (c.wv n w).received = c.received := rfl
@[simp] theorem Cell.wv_nbBegun (c : Cell) (n : BitVec 5) (w : VReg) : (c.wv n w).nbBegun = c.nbBegun := rfl
@[simp] theorem Cell.wv_reservation (c : Cell) (n : BitVec 5) (w : VReg) : (c.wv n w).reservation = c.reservation := rfl
@[simp] theorem Cell.wv_l1 (c : Cell) (n : BitVec 5) (w : VReg) : (c.wv n w).l1 = c.l1 := rfl
@[simp] theorem Cell.wv_icache (c : Cell) (n : BitVec 5) (w : VReg) : (c.wv n w).icache = c.icache := rfl
@[simp] theorem Cell.wv_tlb (c : Cell) (n : BitVec 5) (w : VReg) : (c.wv n w).tlb = c.tlb := rfl
@[simp] theorem Cell.wv_wake (c : Cell) (n : BitVec 5) (w : VReg) : (c.wv n w).wake = c.wake := rfl
@[simp] theorem Cell.wv_asleep (c : Cell) (n : BitVec 5) (w : VReg) : (c.wv n w).asleep = c.asleep := rfl
@[simp] theorem Cell.wv_done (c : Cell) (n : BitVec 5) (w : VReg) : (c.wv n w).done = c.done := rfl
@[simp] theorem Cell.wv_vRes (c : Cell) (n : BitVec 5) (w : VReg) : (c.wv n w).vRes = c.vRes := rfl
@[simp] theorem Cell.wv_aRes (c : Cell) (n : BitVec 5) (w : VReg) : (c.wv n w).aRes = c.aRes := rfl
@[simp] theorem Cell.wv_preempted (c : Cell) (n : BitVec 5) (w : VReg) : (c.wv n w).preempted = c.preempted := rfl
@[simp] theorem Cell.wv_eager (c : Cell) (n : BitVec 5) (w : VReg) : (c.wv n w).eager = c.eager := rfl
@[simp] theorem Cell.wv_busyLanes (c : Cell) (n : BitVec 5) (w : VReg) : (c.wv n w).busyLanes = c.busyLanes := rfl

/-! ### A mask register of a cell -/

@[simp] theorem Cell.wk_id (c : Cell) (n : Nat) (w : BitVec 32) : (c.wk n w).id = c.id := rfl
@[simp] theorem Cell.wk_cluster (c : Cell) (n : Nat) (w : BitVec 32) : (c.wk n w).cluster = c.cluster := rfl
@[simp] theorem Cell.wk_sector (c : Cell) (n : Nat) (w : BitVec 32) : (c.wk n w).sector = c.sector := rfl
@[simp] theorem Cell.wk_stack (c : Cell) (n : Nat) (w : BitVec 32) : (c.wk n w).stack = c.stack := rfl
@[simp] theorem Cell.wk_die (c : Cell) (n : Nat) (w : BitVec 32) : (c.wk n w).die = c.die := rfl
@[simp] theorem Cell.wk_pos (c : Cell) (n : Nat) (w : BitVec 32) : (c.wk n w).pos = c.pos := rfl
@[simp] theorem Cell.wk_running (c : Cell) (n : Nat) (w : BitVec 32) : (c.wk n w).running = c.running := rfl
@[simp] theorem Cell.wk_ctx (c : Cell) (n : Nat) (w : BitVec 32) : (c.wk n w).ctx = c.ctx := rfl
@[simp] theorem Cell.wk_firing (c : Cell) (n : Nat) (w : BitVec 32) : (c.wk n w).firing = c.firing := rfl
@[simp] theorem Cell.wk_team (c : Cell) (n : Nat) (w : BitVec 32) : (c.wk n w).team = c.team := rfl
@[simp] theorem Cell.wk_node (c : Cell) (n : Nat) (w : BitVec 32) : (c.wk n w).node = c.node := rfl
@[simp] theorem Cell.wk_cls (c : Cell) (n : Nat) (w : BitVec 32) : (c.wk n w).cls = c.cls := rfl
@[simp] theorem Cell.wk_role (c : Cell) (n : Nat) (w : BitVec 32) : (c.wk n w).role = c.role := rfl
@[simp] theorem Cell.wk_tindex (c : Cell) (n : Nat) (w : BitVec 32) : (c.wk n w).tindex = c.tindex := rfl
@[simp] theorem Cell.wk_tsize (c : Cell) (n : Nat) (w : BitVec 32) : (c.wk n w).tsize = c.tsize := rfl
@[simp] theorem Cell.wk_roleCounts (c : Cell) (n : Nat) (w : BitVec 32) : (c.wk n w).roleCounts = c.roleCounts := rfl
@[simp] theorem Cell.wk_winBase (c : Cell) (n : Nat) (w : BitVec 32) : (c.wk n w).winBase = c.winBase := rfl
@[simp] theorem Cell.wk_winSize (c : Cell) (n : Nat) (w : BitVec 32) : (c.wk n w).winSize = c.winSize := rfl
@[simp] theorem Cell.wk_pc (c : Cell) (n : Nat) (w : BitVec 32) : (c.wk n w).pc = c.pc := rfl
@[simp] theorem Cell.wk_word (c : Cell) (n : Nat) (w : BitVec 32) : (c.wk n w).word = c.word := rfl
@[simp] theorem Cell.wk_x (c : Cell) (n : Nat) (w : BitVec 32) : (c.wk n w).x = c.x := rfl
@[simp] theorem Cell.wk_hx (c : Cell) (n : Nat) (w : BitVec 32) : (c.wk n w).hx = c.hx := rfl
@[simp] theorem Cell.wk_handler (c : Cell) (n : Nat) (w : BitVec 32) : (c.wk n w).handler = c.handler := rfl
@[simp] theorem Cell.wk_v (c : Cell) (n : Nat) (w : BitVec 32) : (c.wk n w).v = c.v := rfl
@[simp] theorem Cell.wk_k (c : Cell) (n : Nat) (w : BitVec 32) : (c.wk n w).k = c.k.set (mod8 n) w := rfl
@[simp] theorem Cell.wk_m (c : Cell) (n : Nat) (w : BitVec 32) : (c.wk n w).m = c.m := rfl
@[simp] theorem Cell.wk_fm (c : Cell) (n : Nat) (w : BitVec 32) : (c.wk n w).fm = c.fm := rfl
@[simp] theorem Cell.wk_poison (c : Cell) (n : Nat) (w : BitVec 32) : (c.wk n w).poison = c.poison := rfl
@[simp] theorem Cell.wk_ft (c : Cell) (n : Nat) (w : BitVec 32) : (c.wk n w).ft = c.ft := rfl
@[simp] theorem Cell.wk_q (c : Cell) (n : Nat) (w : BitVec 32) : (c.wk n w).q = c.q := rfl
@[simp] theorem Cell.wk_acc (c : Cell) (n : Nat) (w : BitVec 32) : (c.wk n w).acc = c.acc := rfl
@[simp] theorem Cell.wk_accTag (c : Cell) (n : Nat) (w : BitVec 32) : (c.wk n w).accTag = c.accTag := rfl
@[simp] theorem Cell.wk_accFmt (c : Cell) (n : Nat) (w : BitVec 32) : (c.wk n w).accFmt = c.accFmt := rfl
@[simp] theorem Cell.wk_accS (c : Cell) (n : Nat) (w : BitVec 32) : (c.wk n w).accS = c.accS := rfl
@[simp] theorem Cell.wk_accH (c : Cell) (n : Nat) (w : BitVec 32) : (c.wk n w).accH = c.accH := rfl
@[simp] theorem Cell.wk_accT (c : Cell) (n : Nat) (w : BitVec 32) : (c.wk n w).accT = c.accT := rfl
@[simp] theorem Cell.wk_epiMode (c : Cell) (n : Nat) (w : BitVec 32) : (c.wk n w).epiMode = c.epiMode := rfl
@[simp] theorem Cell.wk_vslip (c : Cell) (n : Nat) (w : BitVec 32) : (c.wk n w).vslip = c.vslip := rfl
@[simp] theorem Cell.wk_vrm (c : Cell) (n : Nat) (w : BitVec 32) : (c.wk n w).vrm = c.vrm := rfl
@[simp] theorem Cell.wk_ftbase (c : Cell) (n : Nat) (w : BitVec 32) : (c.wk n w).ftbase = c.ftbase := rfl
@[simp] theorem Cell.wk_ftsel (c : Cell) (n : Nat) (w : BitVec 32) : (c.wk n w).ftsel = c.ftsel := rfl
@[simp] theorem Cell.wk_thandler (c : Cell) (n : Nat) (w : BitVec 32) : (c.wk n w).thandler = c.thandler := rfl
@[simp] theorem Cell.wk_lc (c : Cell) (n : Nat) (w : BitVec 32) : (c.wk n w).lc = c.lc := rfl
@[simp] theorem Cell.wk_pidx (c : Cell) (n : Nat) (w : BitVec 32) : (c.wk n w).pidx = c.pidx := rfl
@[simp] theorem Cell.wk_tcause (c : Cell) (n : Nat) (w : BitVec 32) : (c.wk n w).tcause = c.tcause := rfl
@[simp] theorem Cell.wk_tval (c : Cell) (n : Nat) (w : BitVec 32) : (c.wk n w).tval = c.tval := rfl
@[simp] theorem Cell.wk_tepc (c : Cell) (n : Nat) (w : BitVec 32) : (c.wk n w).tepc = c.tepc := rfl
@[simp] theorem Cell.wk_nbstat (c : Cell) (n : Nat) (w : BitVec 32) : (c.wk n w).nbstat = c.nbstat := rfl
@[simp] theorem Cell.wk_rel (c : Cell) (n : Nat) (w : BitVec 32) : (c.wk n w).rel = c.rel := rfl
@[simp] theorem Cell.wk_valloc (c : Cell) (n : Nat) (w : BitVec 32) : (c.wk n w).valloc = c.valloc := rfl
@[simp] theorem Cell.wk_loops (c : Cell) (n : Nat) (w : BitVec 32) : (c.wk n w).loops = c.loops := rfl
@[simp] theorem Cell.wk_savedLoops (c : Cell) (n : Nat) (w : BitVec 32) : (c.wk n w).savedLoops = c.savedLoops := rfl
@[simp] theorem Cell.wk_savedLc (c : Cell) (n : Nat) (w : BitVec 32) : (c.wk n w).savedLc = c.savedLc := rfl
@[simp] theorem Cell.wk_pending (c : Cell) (n : Nat) (w : BitVec 32) : (c.wk n w).pending = c.pending := rfl
@[simp] theorem Cell.wk_vseq (c : Cell) (n : Nat) (w : BitVec 32) : (c.wk n w).vseq = c.vseq := rfl
@[simp] theorem Cell.wk_replay (c : Cell) (n : Nat) (w : BitVec 32) : (c.wk n w).replay = c.replay := rfl
@[simp] theorem Cell.wk_capture (c : Cell) (n : Nat) (w : BitVec 32) : (c.wk n w).capture = c.capture := rfl
@[simp] theorem Cell.wk_phaseCount (c : Cell) (n : Nat) (w : BitVec 32) : (c.wk n w).phaseCount = c.phaseCount := rfl
@[simp] theorem Cell.wk_lead (c : Cell) (n : Nat) (w : BitVec 32) : (c.wk n w).lead = c.lead := rfl
@[simp] theorem Cell.wk_hold (c : Cell) (n : Nat) (w : BitVec 32) : (c.wk n w).hold = c.hold := rfl
@[simp] theorem Cell.wk_savedHold (c : Cell) (n : Nat) (w : BitVec 32) : (c.wk n w).savedHold = c.savedHold := rfl
@[simp] theorem Cell.wk_redFlags (c : Cell) (n : Nat) (w : BitVec 32) : (c.wk n w).redFlags = c.redFlags := rfl
@[simp] theorem Cell.wk_hwLost (c : Cell) (n : Nat) (w : BitVec 32) : (c.wk n w).hwLost = c.hwLost := rfl
@[simp] theorem Cell.wk_sent (c : Cell) (n : Nat) (w : BitVec 32) : (c.wk n w).sent = c.sent := rfl
@[simp] theorem Cell.wk_received (c : Cell) (n : Nat) (w : BitVec 32) : (c.wk n w).received = c.received := rfl
@[simp] theorem Cell.wk_nbBegun (c : Cell) (n : Nat) (w : BitVec 32) : (c.wk n w).nbBegun = c.nbBegun := rfl
@[simp] theorem Cell.wk_reservation (c : Cell) (n : Nat) (w : BitVec 32) : (c.wk n w).reservation = c.reservation := rfl
@[simp] theorem Cell.wk_l1 (c : Cell) (n : Nat) (w : BitVec 32) : (c.wk n w).l1 = c.l1 := rfl
@[simp] theorem Cell.wk_icache (c : Cell) (n : Nat) (w : BitVec 32) : (c.wk n w).icache = c.icache := rfl
@[simp] theorem Cell.wk_tlb (c : Cell) (n : Nat) (w : BitVec 32) : (c.wk n w).tlb = c.tlb := rfl
@[simp] theorem Cell.wk_wake (c : Cell) (n : Nat) (w : BitVec 32) : (c.wk n w).wake = c.wake := rfl
@[simp] theorem Cell.wk_asleep (c : Cell) (n : Nat) (w : BitVec 32) : (c.wk n w).asleep = c.asleep := rfl
@[simp] theorem Cell.wk_done (c : Cell) (n : Nat) (w : BitVec 32) : (c.wk n w).done = c.done := rfl
@[simp] theorem Cell.wk_vRes (c : Cell) (n : Nat) (w : BitVec 32) : (c.wk n w).vRes = c.vRes := rfl
@[simp] theorem Cell.wk_aRes (c : Cell) (n : Nat) (w : BitVec 32) : (c.wk n w).aRes = c.aRes := rfl
@[simp] theorem Cell.wk_preempted (c : Cell) (n : Nat) (w : BitVec 32) : (c.wk n w).preempted = c.preempted := rfl
@[simp] theorem Cell.wk_eager (c : Cell) (n : Nat) (w : BitVec 32) : (c.wk n w).eager = c.eager := rfl
@[simp] theorem Cell.wk_busyLanes (c : Cell) (n : Nat) (w : BitVec 32) : (c.wk n w).busyLanes = c.busyLanes := rfl

/-! ### A tile register of a cell -/

@[simp] theorem Cell.wm_id (c : Cell) (n : Nat) (w : Tile) : (c.wm n w).id = c.id := rfl
@[simp] theorem Cell.wm_cluster (c : Cell) (n : Nat) (w : Tile) : (c.wm n w).cluster = c.cluster := rfl
@[simp] theorem Cell.wm_sector (c : Cell) (n : Nat) (w : Tile) : (c.wm n w).sector = c.sector := rfl
@[simp] theorem Cell.wm_stack (c : Cell) (n : Nat) (w : Tile) : (c.wm n w).stack = c.stack := rfl
@[simp] theorem Cell.wm_die (c : Cell) (n : Nat) (w : Tile) : (c.wm n w).die = c.die := rfl
@[simp] theorem Cell.wm_pos (c : Cell) (n : Nat) (w : Tile) : (c.wm n w).pos = c.pos := rfl
@[simp] theorem Cell.wm_running (c : Cell) (n : Nat) (w : Tile) : (c.wm n w).running = c.running := rfl
@[simp] theorem Cell.wm_ctx (c : Cell) (n : Nat) (w : Tile) : (c.wm n w).ctx = c.ctx := rfl
@[simp] theorem Cell.wm_firing (c : Cell) (n : Nat) (w : Tile) : (c.wm n w).firing = c.firing := rfl
@[simp] theorem Cell.wm_team (c : Cell) (n : Nat) (w : Tile) : (c.wm n w).team = c.team := rfl
@[simp] theorem Cell.wm_node (c : Cell) (n : Nat) (w : Tile) : (c.wm n w).node = c.node := rfl
@[simp] theorem Cell.wm_cls (c : Cell) (n : Nat) (w : Tile) : (c.wm n w).cls = c.cls := rfl
@[simp] theorem Cell.wm_role (c : Cell) (n : Nat) (w : Tile) : (c.wm n w).role = c.role := rfl
@[simp] theorem Cell.wm_tindex (c : Cell) (n : Nat) (w : Tile) : (c.wm n w).tindex = c.tindex := rfl
@[simp] theorem Cell.wm_tsize (c : Cell) (n : Nat) (w : Tile) : (c.wm n w).tsize = c.tsize := rfl
@[simp] theorem Cell.wm_roleCounts (c : Cell) (n : Nat) (w : Tile) : (c.wm n w).roleCounts = c.roleCounts := rfl
@[simp] theorem Cell.wm_winBase (c : Cell) (n : Nat) (w : Tile) : (c.wm n w).winBase = c.winBase := rfl
@[simp] theorem Cell.wm_winSize (c : Cell) (n : Nat) (w : Tile) : (c.wm n w).winSize = c.winSize := rfl
@[simp] theorem Cell.wm_pc (c : Cell) (n : Nat) (w : Tile) : (c.wm n w).pc = c.pc := rfl
@[simp] theorem Cell.wm_word (c : Cell) (n : Nat) (w : Tile) : (c.wm n w).word = c.word := rfl
@[simp] theorem Cell.wm_x (c : Cell) (n : Nat) (w : Tile) : (c.wm n w).x = c.x := rfl
@[simp] theorem Cell.wm_hx (c : Cell) (n : Nat) (w : Tile) : (c.wm n w).hx = c.hx := rfl
@[simp] theorem Cell.wm_handler (c : Cell) (n : Nat) (w : Tile) : (c.wm n w).handler = c.handler := rfl
@[simp] theorem Cell.wm_v (c : Cell) (n : Nat) (w : Tile) : (c.wm n w).v = c.v := rfl
@[simp] theorem Cell.wm_k (c : Cell) (n : Nat) (w : Tile) : (c.wm n w).k = c.k := rfl
@[simp] theorem Cell.wm_m (c : Cell) (n : Nat) (w : Tile) : (c.wm n w).m = c.m.set (mod8 n) w := rfl
@[simp] theorem Cell.wm_fm (c : Cell) (n : Nat) (w : Tile) : (c.wm n w).fm = c.fm := rfl
@[simp] theorem Cell.wm_poison (c : Cell) (n : Nat) (w : Tile) : (c.wm n w).poison = c.poison := rfl
@[simp] theorem Cell.wm_ft (c : Cell) (n : Nat) (w : Tile) : (c.wm n w).ft = c.ft := rfl
@[simp] theorem Cell.wm_q (c : Cell) (n : Nat) (w : Tile) : (c.wm n w).q = c.q := rfl
@[simp] theorem Cell.wm_acc (c : Cell) (n : Nat) (w : Tile) : (c.wm n w).acc = c.acc := rfl
@[simp] theorem Cell.wm_accTag (c : Cell) (n : Nat) (w : Tile) : (c.wm n w).accTag = c.accTag := rfl
@[simp] theorem Cell.wm_accFmt (c : Cell) (n : Nat) (w : Tile) : (c.wm n w).accFmt = c.accFmt := rfl
@[simp] theorem Cell.wm_accS (c : Cell) (n : Nat) (w : Tile) : (c.wm n w).accS = c.accS := rfl
@[simp] theorem Cell.wm_accH (c : Cell) (n : Nat) (w : Tile) : (c.wm n w).accH = c.accH := rfl
@[simp] theorem Cell.wm_accT (c : Cell) (n : Nat) (w : Tile) : (c.wm n w).accT = c.accT := rfl
@[simp] theorem Cell.wm_epiMode (c : Cell) (n : Nat) (w : Tile) : (c.wm n w).epiMode = c.epiMode := rfl
@[simp] theorem Cell.wm_vslip (c : Cell) (n : Nat) (w : Tile) : (c.wm n w).vslip = c.vslip := rfl
@[simp] theorem Cell.wm_vrm (c : Cell) (n : Nat) (w : Tile) : (c.wm n w).vrm = c.vrm := rfl
@[simp] theorem Cell.wm_ftbase (c : Cell) (n : Nat) (w : Tile) : (c.wm n w).ftbase = c.ftbase := rfl
@[simp] theorem Cell.wm_ftsel (c : Cell) (n : Nat) (w : Tile) : (c.wm n w).ftsel = c.ftsel := rfl
@[simp] theorem Cell.wm_thandler (c : Cell) (n : Nat) (w : Tile) : (c.wm n w).thandler = c.thandler := rfl
@[simp] theorem Cell.wm_lc (c : Cell) (n : Nat) (w : Tile) : (c.wm n w).lc = c.lc := rfl
@[simp] theorem Cell.wm_pidx (c : Cell) (n : Nat) (w : Tile) : (c.wm n w).pidx = c.pidx := rfl
@[simp] theorem Cell.wm_tcause (c : Cell) (n : Nat) (w : Tile) : (c.wm n w).tcause = c.tcause := rfl
@[simp] theorem Cell.wm_tval (c : Cell) (n : Nat) (w : Tile) : (c.wm n w).tval = c.tval := rfl
@[simp] theorem Cell.wm_tepc (c : Cell) (n : Nat) (w : Tile) : (c.wm n w).tepc = c.tepc := rfl
@[simp] theorem Cell.wm_nbstat (c : Cell) (n : Nat) (w : Tile) : (c.wm n w).nbstat = c.nbstat := rfl
@[simp] theorem Cell.wm_rel (c : Cell) (n : Nat) (w : Tile) : (c.wm n w).rel = c.rel := rfl
@[simp] theorem Cell.wm_valloc (c : Cell) (n : Nat) (w : Tile) : (c.wm n w).valloc = c.valloc := rfl
@[simp] theorem Cell.wm_loops (c : Cell) (n : Nat) (w : Tile) : (c.wm n w).loops = c.loops := rfl
@[simp] theorem Cell.wm_savedLoops (c : Cell) (n : Nat) (w : Tile) : (c.wm n w).savedLoops = c.savedLoops := rfl
@[simp] theorem Cell.wm_savedLc (c : Cell) (n : Nat) (w : Tile) : (c.wm n w).savedLc = c.savedLc := rfl
@[simp] theorem Cell.wm_pending (c : Cell) (n : Nat) (w : Tile) : (c.wm n w).pending = c.pending := rfl
@[simp] theorem Cell.wm_vseq (c : Cell) (n : Nat) (w : Tile) : (c.wm n w).vseq = c.vseq := rfl
@[simp] theorem Cell.wm_replay (c : Cell) (n : Nat) (w : Tile) : (c.wm n w).replay = c.replay := rfl
@[simp] theorem Cell.wm_capture (c : Cell) (n : Nat) (w : Tile) : (c.wm n w).capture = c.capture := rfl
@[simp] theorem Cell.wm_phaseCount (c : Cell) (n : Nat) (w : Tile) : (c.wm n w).phaseCount = c.phaseCount := rfl
@[simp] theorem Cell.wm_lead (c : Cell) (n : Nat) (w : Tile) : (c.wm n w).lead = c.lead := rfl
@[simp] theorem Cell.wm_hold (c : Cell) (n : Nat) (w : Tile) : (c.wm n w).hold = c.hold := rfl
@[simp] theorem Cell.wm_savedHold (c : Cell) (n : Nat) (w : Tile) : (c.wm n w).savedHold = c.savedHold := rfl
@[simp] theorem Cell.wm_redFlags (c : Cell) (n : Nat) (w : Tile) : (c.wm n w).redFlags = c.redFlags := rfl
@[simp] theorem Cell.wm_hwLost (c : Cell) (n : Nat) (w : Tile) : (c.wm n w).hwLost = c.hwLost := rfl
@[simp] theorem Cell.wm_sent (c : Cell) (n : Nat) (w : Tile) : (c.wm n w).sent = c.sent := rfl
@[simp] theorem Cell.wm_received (c : Cell) (n : Nat) (w : Tile) : (c.wm n w).received = c.received := rfl
@[simp] theorem Cell.wm_nbBegun (c : Cell) (n : Nat) (w : Tile) : (c.wm n w).nbBegun = c.nbBegun := rfl
@[simp] theorem Cell.wm_reservation (c : Cell) (n : Nat) (w : Tile) : (c.wm n w).reservation = c.reservation := rfl
@[simp] theorem Cell.wm_l1 (c : Cell) (n : Nat) (w : Tile) : (c.wm n w).l1 = c.l1 := rfl
@[simp] theorem Cell.wm_icache (c : Cell) (n : Nat) (w : Tile) : (c.wm n w).icache = c.icache := rfl
@[simp] theorem Cell.wm_tlb (c : Cell) (n : Nat) (w : Tile) : (c.wm n w).tlb = c.tlb := rfl
@[simp] theorem Cell.wm_wake (c : Cell) (n : Nat) (w : Tile) : (c.wm n w).wake = c.wake := rfl
@[simp] theorem Cell.wm_asleep (c : Cell) (n : Nat) (w : Tile) : (c.wm n w).asleep = c.asleep := rfl
@[simp] theorem Cell.wm_done (c : Cell) (n : Nat) (w : Tile) : (c.wm n w).done = c.done := rfl
@[simp] theorem Cell.wm_vRes (c : Cell) (n : Nat) (w : Tile) : (c.wm n w).vRes = c.vRes := rfl
@[simp] theorem Cell.wm_aRes (c : Cell) (n : Nat) (w : Tile) : (c.wm n w).aRes = c.aRes := rfl
@[simp] theorem Cell.wm_preempted (c : Cell) (n : Nat) (w : Tile) : (c.wm n w).preempted = c.preempted := rfl
@[simp] theorem Cell.wm_eager (c : Cell) (n : Nat) (w : Tile) : (c.wm n w).eager = c.eager := rfl
@[simp] theorem Cell.wm_busyLanes (c : Cell) (n : Nat) (w : Tile) : (c.wm n w).busyLanes = c.busyLanes := rfl

/-! ### A loop counter of a cell -/

@[simp] theorem Cell.wlc_id (c : Cell) (n : Nat) (w : Word) : (c.wlc n w).id = c.id := rfl
@[simp] theorem Cell.wlc_cluster (c : Cell) (n : Nat) (w : Word) : (c.wlc n w).cluster = c.cluster := rfl
@[simp] theorem Cell.wlc_sector (c : Cell) (n : Nat) (w : Word) : (c.wlc n w).sector = c.sector := rfl
@[simp] theorem Cell.wlc_stack (c : Cell) (n : Nat) (w : Word) : (c.wlc n w).stack = c.stack := rfl
@[simp] theorem Cell.wlc_die (c : Cell) (n : Nat) (w : Word) : (c.wlc n w).die = c.die := rfl
@[simp] theorem Cell.wlc_pos (c : Cell) (n : Nat) (w : Word) : (c.wlc n w).pos = c.pos := rfl
@[simp] theorem Cell.wlc_running (c : Cell) (n : Nat) (w : Word) : (c.wlc n w).running = c.running := rfl
@[simp] theorem Cell.wlc_ctx (c : Cell) (n : Nat) (w : Word) : (c.wlc n w).ctx = c.ctx := rfl
@[simp] theorem Cell.wlc_firing (c : Cell) (n : Nat) (w : Word) : (c.wlc n w).firing = c.firing := rfl
@[simp] theorem Cell.wlc_team (c : Cell) (n : Nat) (w : Word) : (c.wlc n w).team = c.team := rfl
@[simp] theorem Cell.wlc_node (c : Cell) (n : Nat) (w : Word) : (c.wlc n w).node = c.node := rfl
@[simp] theorem Cell.wlc_cls (c : Cell) (n : Nat) (w : Word) : (c.wlc n w).cls = c.cls := rfl
@[simp] theorem Cell.wlc_role (c : Cell) (n : Nat) (w : Word) : (c.wlc n w).role = c.role := rfl
@[simp] theorem Cell.wlc_tindex (c : Cell) (n : Nat) (w : Word) : (c.wlc n w).tindex = c.tindex := rfl
@[simp] theorem Cell.wlc_tsize (c : Cell) (n : Nat) (w : Word) : (c.wlc n w).tsize = c.tsize := rfl
@[simp] theorem Cell.wlc_roleCounts (c : Cell) (n : Nat) (w : Word) : (c.wlc n w).roleCounts = c.roleCounts := rfl
@[simp] theorem Cell.wlc_winBase (c : Cell) (n : Nat) (w : Word) : (c.wlc n w).winBase = c.winBase := rfl
@[simp] theorem Cell.wlc_winSize (c : Cell) (n : Nat) (w : Word) : (c.wlc n w).winSize = c.winSize := rfl
@[simp] theorem Cell.wlc_pc (c : Cell) (n : Nat) (w : Word) : (c.wlc n w).pc = c.pc := rfl
@[simp] theorem Cell.wlc_word (c : Cell) (n : Nat) (w : Word) : (c.wlc n w).word = c.word := rfl
@[simp] theorem Cell.wlc_x (c : Cell) (n : Nat) (w : Word) : (c.wlc n w).x = c.x := rfl
@[simp] theorem Cell.wlc_hx (c : Cell) (n : Nat) (w : Word) : (c.wlc n w).hx = c.hx := rfl
@[simp] theorem Cell.wlc_handler (c : Cell) (n : Nat) (w : Word) : (c.wlc n w).handler = c.handler := rfl
@[simp] theorem Cell.wlc_v (c : Cell) (n : Nat) (w : Word) : (c.wlc n w).v = c.v := rfl
@[simp] theorem Cell.wlc_k (c : Cell) (n : Nat) (w : Word) : (c.wlc n w).k = c.k := rfl
@[simp] theorem Cell.wlc_m (c : Cell) (n : Nat) (w : Word) : (c.wlc n w).m = c.m := rfl
@[simp] theorem Cell.wlc_fm (c : Cell) (n : Nat) (w : Word) : (c.wlc n w).fm = c.fm := rfl
@[simp] theorem Cell.wlc_poison (c : Cell) (n : Nat) (w : Word) : (c.wlc n w).poison = c.poison := rfl
@[simp] theorem Cell.wlc_ft (c : Cell) (n : Nat) (w : Word) : (c.wlc n w).ft = c.ft := rfl
@[simp] theorem Cell.wlc_q (c : Cell) (n : Nat) (w : Word) : (c.wlc n w).q = c.q := rfl
@[simp] theorem Cell.wlc_acc (c : Cell) (n : Nat) (w : Word) : (c.wlc n w).acc = c.acc := rfl
@[simp] theorem Cell.wlc_accTag (c : Cell) (n : Nat) (w : Word) : (c.wlc n w).accTag = c.accTag := rfl
@[simp] theorem Cell.wlc_accFmt (c : Cell) (n : Nat) (w : Word) : (c.wlc n w).accFmt = c.accFmt := rfl
@[simp] theorem Cell.wlc_accS (c : Cell) (n : Nat) (w : Word) : (c.wlc n w).accS = c.accS := rfl
@[simp] theorem Cell.wlc_accH (c : Cell) (n : Nat) (w : Word) : (c.wlc n w).accH = c.accH := rfl
@[simp] theorem Cell.wlc_accT (c : Cell) (n : Nat) (w : Word) : (c.wlc n w).accT = c.accT := rfl
@[simp] theorem Cell.wlc_epiMode (c : Cell) (n : Nat) (w : Word) : (c.wlc n w).epiMode = c.epiMode := rfl
@[simp] theorem Cell.wlc_vslip (c : Cell) (n : Nat) (w : Word) : (c.wlc n w).vslip = c.vslip := rfl
@[simp] theorem Cell.wlc_vrm (c : Cell) (n : Nat) (w : Word) : (c.wlc n w).vrm = c.vrm := rfl
@[simp] theorem Cell.wlc_ftbase (c : Cell) (n : Nat) (w : Word) : (c.wlc n w).ftbase = c.ftbase := rfl
@[simp] theorem Cell.wlc_ftsel (c : Cell) (n : Nat) (w : Word) : (c.wlc n w).ftsel = c.ftsel := rfl
@[simp] theorem Cell.wlc_thandler (c : Cell) (n : Nat) (w : Word) : (c.wlc n w).thandler = c.thandler := rfl
@[simp] theorem Cell.wlc_pidx (c : Cell) (n : Nat) (w : Word) : (c.wlc n w).pidx = c.pidx := rfl
@[simp] theorem Cell.wlc_tcause (c : Cell) (n : Nat) (w : Word) : (c.wlc n w).tcause = c.tcause := rfl
@[simp] theorem Cell.wlc_tval (c : Cell) (n : Nat) (w : Word) : (c.wlc n w).tval = c.tval := rfl
@[simp] theorem Cell.wlc_tepc (c : Cell) (n : Nat) (w : Word) : (c.wlc n w).tepc = c.tepc := rfl
@[simp] theorem Cell.wlc_nbstat (c : Cell) (n : Nat) (w : Word) : (c.wlc n w).nbstat = c.nbstat := rfl
@[simp] theorem Cell.wlc_rel (c : Cell) (n : Nat) (w : Word) : (c.wlc n w).rel = c.rel := rfl
@[simp] theorem Cell.wlc_valloc (c : Cell) (n : Nat) (w : Word) : (c.wlc n w).valloc = c.valloc := rfl
@[simp] theorem Cell.wlc_loops (c : Cell) (n : Nat) (w : Word) : (c.wlc n w).loops = c.loops := rfl
@[simp] theorem Cell.wlc_savedLoops (c : Cell) (n : Nat) (w : Word) : (c.wlc n w).savedLoops = c.savedLoops := rfl
@[simp] theorem Cell.wlc_savedLc (c : Cell) (n : Nat) (w : Word) : (c.wlc n w).savedLc = c.savedLc := rfl
@[simp] theorem Cell.wlc_pending (c : Cell) (n : Nat) (w : Word) : (c.wlc n w).pending = c.pending := rfl
@[simp] theorem Cell.wlc_vseq (c : Cell) (n : Nat) (w : Word) : (c.wlc n w).vseq = c.vseq := rfl
@[simp] theorem Cell.wlc_replay (c : Cell) (n : Nat) (w : Word) : (c.wlc n w).replay = c.replay := rfl
@[simp] theorem Cell.wlc_capture (c : Cell) (n : Nat) (w : Word) : (c.wlc n w).capture = c.capture := rfl
@[simp] theorem Cell.wlc_phaseCount (c : Cell) (n : Nat) (w : Word) : (c.wlc n w).phaseCount = c.phaseCount := rfl
@[simp] theorem Cell.wlc_lead (c : Cell) (n : Nat) (w : Word) : (c.wlc n w).lead = c.lead := rfl
@[simp] theorem Cell.wlc_hold (c : Cell) (n : Nat) (w : Word) : (c.wlc n w).hold = c.hold := rfl
@[simp] theorem Cell.wlc_savedHold (c : Cell) (n : Nat) (w : Word) : (c.wlc n w).savedHold = c.savedHold := rfl
@[simp] theorem Cell.wlc_redFlags (c : Cell) (n : Nat) (w : Word) : (c.wlc n w).redFlags = c.redFlags := rfl
@[simp] theorem Cell.wlc_hwLost (c : Cell) (n : Nat) (w : Word) : (c.wlc n w).hwLost = c.hwLost := rfl
@[simp] theorem Cell.wlc_sent (c : Cell) (n : Nat) (w : Word) : (c.wlc n w).sent = c.sent := rfl
@[simp] theorem Cell.wlc_received (c : Cell) (n : Nat) (w : Word) : (c.wlc n w).received = c.received := rfl
@[simp] theorem Cell.wlc_nbBegun (c : Cell) (n : Nat) (w : Word) : (c.wlc n w).nbBegun = c.nbBegun := rfl
@[simp] theorem Cell.wlc_reservation (c : Cell) (n : Nat) (w : Word) : (c.wlc n w).reservation = c.reservation := rfl
@[simp] theorem Cell.wlc_l1 (c : Cell) (n : Nat) (w : Word) : (c.wlc n w).l1 = c.l1 := rfl
@[simp] theorem Cell.wlc_icache (c : Cell) (n : Nat) (w : Word) : (c.wlc n w).icache = c.icache := rfl
@[simp] theorem Cell.wlc_tlb (c : Cell) (n : Nat) (w : Word) : (c.wlc n w).tlb = c.tlb := rfl
@[simp] theorem Cell.wlc_wake (c : Cell) (n : Nat) (w : Word) : (c.wlc n w).wake = c.wake := rfl
@[simp] theorem Cell.wlc_asleep (c : Cell) (n : Nat) (w : Word) : (c.wlc n w).asleep = c.asleep := rfl
@[simp] theorem Cell.wlc_done (c : Cell) (n : Nat) (w : Word) : (c.wlc n w).done = c.done := rfl
@[simp] theorem Cell.wlc_vRes (c : Cell) (n : Nat) (w : Word) : (c.wlc n w).vRes = c.vRes := rfl
@[simp] theorem Cell.wlc_aRes (c : Cell) (n : Nat) (w : Word) : (c.wlc n w).aRes = c.aRes := rfl
@[simp] theorem Cell.wlc_preempted (c : Cell) (n : Nat) (w : Word) : (c.wlc n w).preempted = c.preempted := rfl
@[simp] theorem Cell.wlc_eager (c : Cell) (n : Nat) (w : Word) : (c.wlc n w).eager = c.eager := rfl
@[simp] theorem Cell.wlc_busyLanes (c : Cell) (n : Nat) (w : Word) : (c.wlc n w).busyLanes = c.busyLanes := rfl

/-! ### A scalar register of a cell -/

@[simp] theorem Cell.wx_id (c : Cell) (n : BitVec 5) (w : Word) : (c.wx n w).id = c.id := by
  unfold Cell.wx; split <;> [rfl; (split <;> rfl)]
@[simp] theorem Cell.wx_cluster (c : Cell) (n : BitVec 5) (w : Word) : (c.wx n w).cluster = c.cluster := by
  unfold Cell.wx; split <;> [rfl; (split <;> rfl)]
@[simp] theorem Cell.wx_sector (c : Cell) (n : BitVec 5) (w : Word) : (c.wx n w).sector = c.sector := by
  unfold Cell.wx; split <;> [rfl; (split <;> rfl)]
@[simp] theorem Cell.wx_stack (c : Cell) (n : BitVec 5) (w : Word) : (c.wx n w).stack = c.stack := by
  unfold Cell.wx; split <;> [rfl; (split <;> rfl)]
@[simp] theorem Cell.wx_die (c : Cell) (n : BitVec 5) (w : Word) : (c.wx n w).die = c.die := by
  unfold Cell.wx; split <;> [rfl; (split <;> rfl)]
@[simp] theorem Cell.wx_pos (c : Cell) (n : BitVec 5) (w : Word) : (c.wx n w).pos = c.pos := by
  unfold Cell.wx; split <;> [rfl; (split <;> rfl)]
@[simp] theorem Cell.wx_running (c : Cell) (n : BitVec 5) (w : Word) : (c.wx n w).running = c.running := by
  unfold Cell.wx; split <;> [rfl; (split <;> rfl)]
@[simp] theorem Cell.wx_ctx (c : Cell) (n : BitVec 5) (w : Word) : (c.wx n w).ctx = c.ctx := by
  unfold Cell.wx; split <;> [rfl; (split <;> rfl)]
@[simp] theorem Cell.wx_firing (c : Cell) (n : BitVec 5) (w : Word) : (c.wx n w).firing = c.firing := by
  unfold Cell.wx; split <;> [rfl; (split <;> rfl)]
@[simp] theorem Cell.wx_team (c : Cell) (n : BitVec 5) (w : Word) : (c.wx n w).team = c.team := by
  unfold Cell.wx; split <;> [rfl; (split <;> rfl)]
@[simp] theorem Cell.wx_node (c : Cell) (n : BitVec 5) (w : Word) : (c.wx n w).node = c.node := by
  unfold Cell.wx; split <;> [rfl; (split <;> rfl)]
@[simp] theorem Cell.wx_cls (c : Cell) (n : BitVec 5) (w : Word) : (c.wx n w).cls = c.cls := by
  unfold Cell.wx; split <;> [rfl; (split <;> rfl)]
@[simp] theorem Cell.wx_role (c : Cell) (n : BitVec 5) (w : Word) : (c.wx n w).role = c.role := by
  unfold Cell.wx; split <;> [rfl; (split <;> rfl)]
@[simp] theorem Cell.wx_tindex (c : Cell) (n : BitVec 5) (w : Word) : (c.wx n w).tindex = c.tindex := by
  unfold Cell.wx; split <;> [rfl; (split <;> rfl)]
@[simp] theorem Cell.wx_tsize (c : Cell) (n : BitVec 5) (w : Word) : (c.wx n w).tsize = c.tsize := by
  unfold Cell.wx; split <;> [rfl; (split <;> rfl)]
@[simp] theorem Cell.wx_roleCounts (c : Cell) (n : BitVec 5) (w : Word) : (c.wx n w).roleCounts = c.roleCounts := by
  unfold Cell.wx; split <;> [rfl; (split <;> rfl)]
@[simp] theorem Cell.wx_winBase (c : Cell) (n : BitVec 5) (w : Word) : (c.wx n w).winBase = c.winBase := by
  unfold Cell.wx; split <;> [rfl; (split <;> rfl)]
@[simp] theorem Cell.wx_winSize (c : Cell) (n : BitVec 5) (w : Word) : (c.wx n w).winSize = c.winSize := by
  unfold Cell.wx; split <;> [rfl; (split <;> rfl)]
@[simp] theorem Cell.wx_pc (c : Cell) (n : BitVec 5) (w : Word) : (c.wx n w).pc = c.pc := by
  unfold Cell.wx; split <;> [rfl; (split <;> rfl)]
@[simp] theorem Cell.wx_word (c : Cell) (n : BitVec 5) (w : Word) : (c.wx n w).word = c.word := by
  unfold Cell.wx; split <;> [rfl; (split <;> rfl)]
@[simp] theorem Cell.wx_handler (c : Cell) (n : BitVec 5) (w : Word) : (c.wx n w).handler = c.handler := by
  unfold Cell.wx; split <;> [rfl; (split <;> rfl)]
@[simp] theorem Cell.wx_v (c : Cell) (n : BitVec 5) (w : Word) : (c.wx n w).v = c.v := by
  unfold Cell.wx; split <;> [rfl; (split <;> rfl)]
@[simp] theorem Cell.wx_k (c : Cell) (n : BitVec 5) (w : Word) : (c.wx n w).k = c.k := by
  unfold Cell.wx; split <;> [rfl; (split <;> rfl)]
@[simp] theorem Cell.wx_m (c : Cell) (n : BitVec 5) (w : Word) : (c.wx n w).m = c.m := by
  unfold Cell.wx; split <;> [rfl; (split <;> rfl)]
@[simp] theorem Cell.wx_fm (c : Cell) (n : BitVec 5) (w : Word) : (c.wx n w).fm = c.fm := by
  unfold Cell.wx; split <;> [rfl; (split <;> rfl)]
@[simp] theorem Cell.wx_poison (c : Cell) (n : BitVec 5) (w : Word) :
    (c.wx n w).poison = if n = 0 then c.poison else c.heal (c.xRes n.toNat) := by
  unfold Cell.wx; split <;> [rfl; (split <;> rfl)]
@[simp] theorem Cell.wx_ft (c : Cell) (n : BitVec 5) (w : Word) : (c.wx n w).ft = c.ft := by
  unfold Cell.wx; split <;> [rfl; (split <;> rfl)]
@[simp] theorem Cell.wx_q (c : Cell) (n : BitVec 5) (w : Word) : (c.wx n w).q = c.q := by
  unfold Cell.wx; split <;> [rfl; (split <;> rfl)]
@[simp] theorem Cell.wx_acc (c : Cell) (n : BitVec 5) (w : Word) : (c.wx n w).acc = c.acc := by
  unfold Cell.wx; split <;> [rfl; (split <;> rfl)]
@[simp] theorem Cell.wx_accTag (c : Cell) (n : BitVec 5) (w : Word) : (c.wx n w).accTag = c.accTag := by
  unfold Cell.wx; split <;> [rfl; (split <;> rfl)]
@[simp] theorem Cell.wx_accFmt (c : Cell) (n : BitVec 5) (w : Word) : (c.wx n w).accFmt = c.accFmt := by
  unfold Cell.wx; split <;> [rfl; (split <;> rfl)]
@[simp] theorem Cell.wx_accS (c : Cell) (n : BitVec 5) (w : Word) : (c.wx n w).accS = c.accS := by
  unfold Cell.wx; split <;> [rfl; (split <;> rfl)]
@[simp] theorem Cell.wx_accH (c : Cell) (n : BitVec 5) (w : Word) : (c.wx n w).accH = c.accH := by
  unfold Cell.wx; split <;> [rfl; (split <;> rfl)]
@[simp] theorem Cell.wx_accT (c : Cell) (n : BitVec 5) (w : Word) : (c.wx n w).accT = c.accT := by
  unfold Cell.wx; split <;> [rfl; (split <;> rfl)]
@[simp] theorem Cell.wx_epiMode (c : Cell) (n : BitVec 5) (w : Word) : (c.wx n w).epiMode = c.epiMode := by
  unfold Cell.wx; split <;> [rfl; (split <;> rfl)]
@[simp] theorem Cell.wx_vslip (c : Cell) (n : BitVec 5) (w : Word) : (c.wx n w).vslip = c.vslip := by
  unfold Cell.wx; split <;> [rfl; (split <;> rfl)]
@[simp] theorem Cell.wx_vrm (c : Cell) (n : BitVec 5) (w : Word) : (c.wx n w).vrm = c.vrm := by
  unfold Cell.wx; split <;> [rfl; (split <;> rfl)]
@[simp] theorem Cell.wx_ftbase (c : Cell) (n : BitVec 5) (w : Word) : (c.wx n w).ftbase = c.ftbase := by
  unfold Cell.wx; split <;> [rfl; (split <;> rfl)]
@[simp] theorem Cell.wx_ftsel (c : Cell) (n : BitVec 5) (w : Word) : (c.wx n w).ftsel = c.ftsel := by
  unfold Cell.wx; split <;> [rfl; (split <;> rfl)]
@[simp] theorem Cell.wx_thandler (c : Cell) (n : BitVec 5) (w : Word) : (c.wx n w).thandler = c.thandler := by
  unfold Cell.wx; split <;> [rfl; (split <;> rfl)]
@[simp] theorem Cell.wx_lc (c : Cell) (n : BitVec 5) (w : Word) : (c.wx n w).lc = c.lc := by
  unfold Cell.wx; split <;> [rfl; (split <;> rfl)]
@[simp] theorem Cell.wx_pidx (c : Cell) (n : BitVec 5) (w : Word) : (c.wx n w).pidx = c.pidx := by
  unfold Cell.wx; split <;> [rfl; (split <;> rfl)]
@[simp] theorem Cell.wx_tcause (c : Cell) (n : BitVec 5) (w : Word) : (c.wx n w).tcause = c.tcause := by
  unfold Cell.wx; split <;> [rfl; (split <;> rfl)]
@[simp] theorem Cell.wx_tval (c : Cell) (n : BitVec 5) (w : Word) : (c.wx n w).tval = c.tval := by
  unfold Cell.wx; split <;> [rfl; (split <;> rfl)]
@[simp] theorem Cell.wx_tepc (c : Cell) (n : BitVec 5) (w : Word) : (c.wx n w).tepc = c.tepc := by
  unfold Cell.wx; split <;> [rfl; (split <;> rfl)]
@[simp] theorem Cell.wx_nbstat (c : Cell) (n : BitVec 5) (w : Word) : (c.wx n w).nbstat = c.nbstat := by
  unfold Cell.wx; split <;> [rfl; (split <;> rfl)]
@[simp] theorem Cell.wx_rel (c : Cell) (n : BitVec 5) (w : Word) : (c.wx n w).rel = c.rel := by
  unfold Cell.wx; split <;> [rfl; (split <;> rfl)]
@[simp] theorem Cell.wx_valloc (c : Cell) (n : BitVec 5) (w : Word) : (c.wx n w).valloc = c.valloc := by
  unfold Cell.wx; split <;> [rfl; (split <;> rfl)]
@[simp] theorem Cell.wx_loops (c : Cell) (n : BitVec 5) (w : Word) : (c.wx n w).loops = c.loops := by
  unfold Cell.wx; split <;> [rfl; (split <;> rfl)]
@[simp] theorem Cell.wx_savedLoops (c : Cell) (n : BitVec 5) (w : Word) : (c.wx n w).savedLoops = c.savedLoops := by
  unfold Cell.wx; split <;> [rfl; (split <;> rfl)]
@[simp] theorem Cell.wx_savedLc (c : Cell) (n : BitVec 5) (w : Word) : (c.wx n w).savedLc = c.savedLc := by
  unfold Cell.wx; split <;> [rfl; (split <;> rfl)]
@[simp] theorem Cell.wx_pending (c : Cell) (n : BitVec 5) (w : Word) : (c.wx n w).pending = c.pending := by
  unfold Cell.wx; split <;> [rfl; (split <;> rfl)]
@[simp] theorem Cell.wx_vseq (c : Cell) (n : BitVec 5) (w : Word) : (c.wx n w).vseq = c.vseq := by
  unfold Cell.wx; split <;> [rfl; (split <;> rfl)]
@[simp] theorem Cell.wx_replay (c : Cell) (n : BitVec 5) (w : Word) : (c.wx n w).replay = c.replay := by
  unfold Cell.wx; split <;> [rfl; (split <;> rfl)]
@[simp] theorem Cell.wx_capture (c : Cell) (n : BitVec 5) (w : Word) : (c.wx n w).capture = c.capture := by
  unfold Cell.wx; split <;> [rfl; (split <;> rfl)]
@[simp] theorem Cell.wx_phaseCount (c : Cell) (n : BitVec 5) (w : Word) : (c.wx n w).phaseCount = c.phaseCount := by
  unfold Cell.wx; split <;> [rfl; (split <;> rfl)]
@[simp] theorem Cell.wx_lead (c : Cell) (n : BitVec 5) (w : Word) : (c.wx n w).lead = c.lead := by
  unfold Cell.wx; split <;> [rfl; (split <;> rfl)]
@[simp] theorem Cell.wx_hold (c : Cell) (n : BitVec 5) (w : Word) : (c.wx n w).hold = c.hold := by
  unfold Cell.wx; split <;> [rfl; (split <;> rfl)]
@[simp] theorem Cell.wx_savedHold (c : Cell) (n : BitVec 5) (w : Word) : (c.wx n w).savedHold = c.savedHold := by
  unfold Cell.wx; split <;> [rfl; (split <;> rfl)]
@[simp] theorem Cell.wx_redFlags (c : Cell) (n : BitVec 5) (w : Word) : (c.wx n w).redFlags = c.redFlags := by
  unfold Cell.wx; split <;> [rfl; (split <;> rfl)]
@[simp] theorem Cell.wx_hwLost (c : Cell) (n : BitVec 5) (w : Word) : (c.wx n w).hwLost = c.hwLost := by
  unfold Cell.wx; split <;> [rfl; (split <;> rfl)]
@[simp] theorem Cell.wx_sent (c : Cell) (n : BitVec 5) (w : Word) : (c.wx n w).sent = c.sent := by
  unfold Cell.wx; split <;> [rfl; (split <;> rfl)]
@[simp] theorem Cell.wx_received (c : Cell) (n : BitVec 5) (w : Word) : (c.wx n w).received = c.received := by
  unfold Cell.wx; split <;> [rfl; (split <;> rfl)]
@[simp] theorem Cell.wx_nbBegun (c : Cell) (n : BitVec 5) (w : Word) : (c.wx n w).nbBegun = c.nbBegun := by
  unfold Cell.wx; split <;> [rfl; (split <;> rfl)]
@[simp] theorem Cell.wx_reservation (c : Cell) (n : BitVec 5) (w : Word) : (c.wx n w).reservation = c.reservation := by
  unfold Cell.wx; split <;> [rfl; (split <;> rfl)]
@[simp] theorem Cell.wx_l1 (c : Cell) (n : BitVec 5) (w : Word) : (c.wx n w).l1 = c.l1 := by
  unfold Cell.wx; split <;> [rfl; (split <;> rfl)]
@[simp] theorem Cell.wx_icache (c : Cell) (n : BitVec 5) (w : Word) : (c.wx n w).icache = c.icache := by
  unfold Cell.wx; split <;> [rfl; (split <;> rfl)]
@[simp] theorem Cell.wx_tlb (c : Cell) (n : BitVec 5) (w : Word) : (c.wx n w).tlb = c.tlb := by
  unfold Cell.wx; split <;> [rfl; (split <;> rfl)]
@[simp] theorem Cell.wx_wake (c : Cell) (n : BitVec 5) (w : Word) : (c.wx n w).wake = c.wake := by
  unfold Cell.wx; split <;> [rfl; (split <;> rfl)]
@[simp] theorem Cell.wx_asleep (c : Cell) (n : BitVec 5) (w : Word) : (c.wx n w).asleep = c.asleep := by
  unfold Cell.wx; split <;> [rfl; (split <;> rfl)]
@[simp] theorem Cell.wx_done (c : Cell) (n : BitVec 5) (w : Word) : (c.wx n w).done = c.done := by
  unfold Cell.wx; split <;> [rfl; (split <;> rfl)]
@[simp] theorem Cell.wx_vRes (c : Cell) (n : BitVec 5) (w : Word) : (c.wx n w).vRes = c.vRes := by
  unfold Cell.wx; split <;> [rfl; (split <;> rfl)]
@[simp] theorem Cell.wx_aRes (c : Cell) (n : BitVec 5) (w : Word) : (c.wx n w).aRes = c.aRes := by
  unfold Cell.wx; split <;> [rfl; (split <;> rfl)]
@[simp] theorem Cell.wx_preempted (c : Cell) (n : BitVec 5) (w : Word) : (c.wx n w).preempted = c.preempted := by
  unfold Cell.wx; split <;> [rfl; (split <;> rfl)]
@[simp] theorem Cell.wx_eager (c : Cell) (n : BitVec 5) (w : Word) : (c.wx n w).eager = c.eager := by
  unfold Cell.wx; split <;> [rfl; (split <;> rfl)]
@[simp] theorem Cell.wx_busyLanes (c : Cell) (n : BitVec 5) (w : Word) : (c.wx n w).busyLanes = c.busyLanes := by
  unfold Cell.wx; split <;> [rfl; (split <;> rfl)]

end Sys2Proof.Machine
end

