-- ==== Sys2Proof/Laws/Registers.lean ====
section
/-! SUPPORT. Reading a register after a write, and what the flow of control leaves of a cell. -/

namespace Sys2Proof.Machine

/-! ### Scalar registers (R47) -/

theorem Cell.bank_wx (c : Cell) (n : BitVec 5) (v : Word) :
    (c.wx n v).bank = if n = 0 then c.bank else c.bank.set n.toNat v n.isLt := by
  unfold Cell.wx Cell.bank
  split
  · rfl
  · cases c.handler <;> simp

/-- A scalar register reads the value last written; x0 reads 0, and other registers keep their values (R47). -/
theorem Cell.rx_wx (c : Cell) (n m : BitVec 5) (v : Word) :
    (c.wx n v).rx m = if m = 0 then 0 else if m = n then v else c.rx m := by
  unfold Cell.rx
  by_cases hm : m = 0
  · simp [hm]
  · have hb := Cell.bank_wx c n v
    by_cases hn : n = 0
    · subst hn
      simp only [hm, if_false]; rfl
    · simp only [hm, if_false, hb, hn]
      by_cases h : m = n
      · simp [h]
      · have : n.toNat ≠ m.toNat := fun e => h (BitVec.eq_of_toNat_eq e.symm)
        simp [h, Vector.getElem_set_ne _ _ this]

theorem Cell.rx_zero (c : Cell) : c.rx 0 = 0 := rfl

theorem Cell.wx_zero (c : Cell) (v : Word) : c.wx 0 v = c := rfl

theorem Cell.wx_taskBank (c : Cell) (n : BitVec 5) (v : Word) (h : c.handler = true) : (c.wx n v).x = c.x := by
  unfold Cell.wx; split
  · rfl
  · simp

theorem Cell.wx_handlerBank (c : Cell) (n : BitVec 5) (v : Word) (h : c.handler = false) : (c.wx n v).hx = c.hx := by
  unfold Cell.wx; split
  · rfl
  · simp [h]

/-- A write of a scalar register changes its bank, and heals the register (R412). -/
theorem Cell.wx_eq (c : Cell) (n : BitVec 5) (v : Word) :
    c.wx n v = { c with x := (c.wx n v).x, hx := (c.wx n v).hx, poison := (c.wx n v).poison } := by
  unfold Cell.wx; split
  · rfl
  · split <;> rfl

/-- The value read depends on the banks and the mode alone. -/
theorem Cell.rx_congr {c d : Cell} (n : BitVec 5) (h : d.handler = c.handler) (hx : d.x = c.x) (hh : d.hx = c.hx) :
    d.rx n = c.rx n := by
  unfold Cell.rx Cell.bank; rw [h, hx, hh]

/-! ### Vector, mask and tile registers -/

theorem Cell.rv_wv (c : Cell) (n m : BitVec 5) (v : VReg) : (c.wv n v).rv m = if m = n then v else c.rv m := by
  unfold Cell.rv Cell.wv
  by_cases h : m = n
  · simp [h]
  · have : n.toNat ≠ m.toNat := fun e => h (BitVec.eq_of_toNat_eq e.symm)
    simp [h, Vector.getElem_set_ne _ _ this]

theorem Cell.rk_wk (c : Cell) (n m : Nat) (v : BitVec 32) : (c.wk n v).rk m = if m % 8 = n % 8 then v else c.rk m := by
  show (c.k.set (n % 8) v (Nat.mod_lt _ (by decide)))[m % 8]'(Nat.mod_lt _ (by decide)) = _
  rw [Vector.getElem_set]
  by_cases h : m % 8 = n % 8
  · simp [h]
  · rw [if_neg (Ne.symm h), if_neg h]; rfl

/-! ### Lanes (R47) -/

theorem lane_packLanes (f : Nat → Lane) (n i : Nat) (hn : n ≤ 32) :
    lane (packLanes f n) i = if i < n then f i else 0 := by
  induction n with
  | zero => simp [packLanes, lane]
  | succ n ih =>
    have hn' : n < 32 := hn
    unfold packLanes
    have e : lane (packLanes f n ||| (f n).setWidth 1024 <<< (32 * n)) i =
        lane (packLanes f n) i ||| lane ((f n).setWidth 1024 <<< (32 * n)) i := by
      unfold lane; exact BitVec.extractLsb'_or
    rw [e, ih (by omega)]
    have e2 : lane ((f n).setWidth 1024 <<< (32 * n)) i = if i = n then f n else 0 := by
      apply BitVec.eq_of_getLsbD_eq
      intro j hj
      simp only [lane, BitVec.getLsbD_extractLsb', BitVec.getLsbD_shiftLeft, BitVec.getLsbD_setWidth]
      by_cases h : i = n
      · subst h
        have h1 : 32 * i + j < 1024 := by omega
        have h2 : ¬ (32 * i + j < 32 * i) := by omega
        have h3 : 32 * i + j - 32 * i = j := by omega
        have h4 : j < 1024 := by omega
        simp [hj, h1, h3, h4]
      · simp only [h, if_false]
        by_cases h5 : i < n
        · have : 32 * i + j < 32 * n := by omega
          simp [this]
        · have h6 : 32 ≤ 32 * i + j - 32 * n := by omega
          simp [BitVec.getLsbD_of_ge _ _ h6]
    rw [e2]
    by_cases h : i < n
    · have : i ≠ n := by omega
      have h7 : i < n + 1 := by omega
      simp [h, this, h7]
    · by_cases h' : i = n
      · subst h'; simp
      · have h7 : ¬ i < n + 1 := by omega
        simp [h, h', h7]

/-- Each lane of a register given by lanes. -/
theorem lane_ofLanes (f : Nat → Lane) (i : Nat) (h : i < 32) : lane (ofLanes f) i = f i := by
  unfold ofLanes; rw [lane_packLanes _ _ _ (Nat.le_refl _)]; simp [h]

/-! ### The flow of control (R120) -/

/-- Sequential flow changes the pc, the loops and the loop counters alone. -/
theorem reach_eq (t : Word) (ls : List Loop) (c : Cell) :
    reach t ls c = { c with pc := (reach t ls c).pc, loops := (reach t ls c).loops, lc := (reach t ls c).lc } := by
  induction ls with
  | nil => rfl
  | cons l rest ih =>
    unfold reach
    split
    · split
      · rfl
      · exact ih
    · split
      · rfl
      · exact ih

/-- Sequential flow depends on the loop counters alone. -/
theorem reach_congr (t : Word) (ls : List Loop) (c d : Cell) (h : d.lc = c.lc) :
    reach t ls d = { d with pc := (reach t ls c).pc, loops := (reach t ls c).loops, lc := (reach t ls c).lc } := by
  induction ls with
  | nil => simp only [reach]; rw [← h]
  | cons l rest ih =>
    have hr : d.rlc l.ctr = c.rlc l.ctr := by unfold Cell.rlc; simp only [h]
    unfold reach
    split
    · rw [hr]; split
      · simp only [Cell.wlc]; simp only [h]
      · exact ih
    · split
      · rw [← h]
      · exact ih

theorem leave_eq (t : Word) (ls : List Loop) (c : Cell) :
    leave t ls c = { c with pc := t, loops := (leave t ls c).loops } := by
  induction ls with
  | nil => rfl
  | cons l rest ih =>
    unfold leave
    split
    · rfl
    · exact ih

theorem leave_congr (t : Word) (ls : List Loop) (c d : Cell) :
    leave t ls d = { d with pc := t, loops := (leave t ls c).loops } := by
  induction ls with
  | nil => rfl
  | cons l rest ih =>
    unfold leave
    split
    · rfl
    · exact ih

/-- With no loop active the next word is the next one in memory. -/
theorem Cell.flowTo_noLoop (c : Cell) (t : Word) (h : c.loops = []) : c.flowTo t = { c with pc := t } := by
  unfold Cell.flowTo; rw [h]; simp only [reach]

theorem Cell.jumpTo_noLoop (c : Cell) (t : Word) (h : c.loops = []) : c.jumpTo t = { c with pc := t } := by
  unfold Cell.jumpTo; rw [h]; simp only [leave]

end Sys2Proof.Machine
end

