-- ==== Sys2Proof/Laws/Operations.lean ====
section
/-! SUPPORT. One lemma for each shared operation of Ops and Operands: what it answers, what it leaves, and that it keeps the memories canonical. -/

namespace Sys2Proof.Machine

/-! ### How a word begins (R25, R48, R97) -/

theorem baseWord_ready {regs : List (BitVec 5)} {s : State} (h : s.cpu.ready regs = true) (body : State → Out) :
    baseWord regs s body = body s := by
  unfold baseWord; simp [h]

theorem baseWord_busy {regs : List (BitVec 5)} {s : State} (h : s.cpu.ready regs = false) (body : State → Out) :
    baseWord regs s body = .next s := by
  unfold baseWord; simp [h]

/-- A cell of another role passes over a word (R25). -/
theorem frontWord_other {r : BitVec 3} {s : State} (h : s.cpu.executes r = false) (regs : List (BitVec 5)) (body : State → Out) :
    frontWord r regs s body = .next s.advance := by
  unfold frontWord; simp [h]

theorem frontWord_ready {r : BitVec 3} {regs : List (BitVec 5)} {s : State} (h : s.cpu.executes r = true)
    (hr : s.cpu.ready regs = true) (body : State → Out) : frontWord r regs s body = body s := by
  unfold frontWord; simp [h, hr]

theorem forwardWord_other {r : BitVec 3} {s : State} (h : s.cpu.executes r = false) (vs : List Nat) (regs : List (BitVec 5))
    (q : Queue) (body : State → Out) : forwardWord r vs regs q s body = .next s.advance := by
  unfold forwardWord; simp [h]

/-- A register that is not allotted traps with cause 2 and its number (R48, R130). -/
theorem forwardWord_notAllotted {r : BitVec 3} {s : State} {vs : List Nat} {n : Nat} (h : s.cpu.executes r = true)
    (hn : s.cpu.notAllotted vs = some n) (regs : List (BitVec 5)) (q : Queue) (body : State → Out) :
    forwardWord r vs regs q s body = trapOut s 2 (BitVec.ofNat 64 n) := by
  unfold forwardWord; simp [h, hn]

theorem forwardWord_ready {r : BitVec 3} {s : State} {vs : List Nat} {regs : List (BitVec 5)} {q : Queue}
    (h : s.cpu.executes r = true) (hn : s.cpu.notAllotted vs = none) (hr : s.cpu.ready regs = true)
    (hq : s.cpu.queueFull q = false) (body : State → Out) : forwardWord r vs regs q s body = body s := by
  unfold forwardWord
  simp [h, hn, hr, hq]

/-- Registers among some that are free are free. -/
theorem Cell.ready_of_subset {c : Cell} {l l' : List (BitVec 5)} (h : c.ready l = true) (hs : ∀ x ∈ l', x ∈ l) :
    c.ready l' = true := by
  unfold Cell.ready Cell.busy at *
  simp only [Bool.not_eq_true', List.any_eq_false] at *
  intro d hd hm
  apply h d hd
  unfold meets at *
  simp only [List.any_eq_true, List.contains_iff_mem, List.mem_map] at *
  obtain ⟨x, hx, y, hy, e⟩ := hm
  exact ⟨x, hx, y, hs y hy, e⟩

/-- A cell with nothing forwarded has no busy register. -/
theorem Cell.ready_of_idle {c : Cell} (h : c.pending = []) (l : List (BitVec 5)) : c.ready l = true := by
  unfold Cell.ready Cell.busy; simp [h]

/-- A forwarded word always answers a next state: the front end is past it, or waits for range entries (R95, R104). -/
theorem enqueue_next (w : Issue) (unit : Cmd → State → EngOut) (s : State) : ∃ t, enqueue w unit s = .next t := by
  unfold enqueue
  dsimp only
  split
  · exact ⟨_, rfl⟩
  · cases s.cpu.eager && (State.mayStart _ _) <;> exact ⟨_, rfl⟩

/-- Too few range entries are free: the word waits and nothing changes (R104). -/
theorem enqueue_full {w : Issue} {s : State} (h : 64 < s.cpu.rangesUsed + w.ranges.length) (unit : Cmd → State → EngOut) :
    enqueue w unit s = .next s := by
  unfold enqueue; simp [h]

/-! ### A word is done (R23, R120) -/

/-- Going on to the next word changes the pc, the loops and the loop counters of the acting cell alone. -/
theorem advance_frame (s : State) :
    s.advance = { s with cpu := { s.cpu with
      pc := s.advance.cpu.pc
      loops := s.advance.cpu.loops
      lc := s.advance.cpu.lc } } := by
  have h : s.advance.cpu = { s.cpu with pc := s.advance.cpu.pc, loops := s.advance.cpu.loops, lc := s.advance.cpu.lc } := by
    simp only [State.advance_cpu, Cell.flowTo]; exact reach_eq ..
  show { s with cpu := s.advance.cpu } = _
  rw [h]

theorem advance_x (s : State) (n : BitVec 5) : s.advance.x n = s.x n := by
  rw [advance_frame]; rfl

/-- Writing a register and going on: the register holds the value. -/
theorem setX_advance_x (s : State) (rd n : BitVec 5) (v : Word) :
    (s.setX rd v).advance.x n = if n = 0 then 0 else if n = rd then v else s.x n := by
  rw [advance_x]; exact Cell.rx_wx ..

/-- Writing a register and going on changes the banks of the acting cell and heals the register, beside what going on changes. -/
theorem setX_advance_frame (s : State) (rd : BitVec 5) (v : Word) :
    (s.setX rd v).advance = { s.advance with cpu := { s.advance.cpu with
      x := (s.cpu.wx rd v).x
      hx := (s.cpu.wx rd v).hx
      poison := s.cpu.poisonAfter rd } } := by
  show State.advance { s with cpu := s.cpu.wx rd v } = _
  unfold State.advance Cell.flowTo
  simp only [Cell.wx_pc, Cell.wx_loops]
  rw [reach_congr _ _ s.cpu (s.cpu.wx rd v) (Cell.wx_lc _ _ _), reach_eq _ _ s.cpu]
  have hp : (s.cpu.wx rd v).poison = s.cpu.poisonAfter rd := Cell.wx_poison ..
  rw [← hp]
  congr 1
  rw [Cell.wx_eq]

/-- A word that writes `v` to `rd` and goes on changes that register alone, as the statements say it. -/
theorem wroteX_setX_advance (s : State) (rd : BitVec 5) (v : Word) : WroteX s rd v (s.setX rd v).advance := by
  have hx : (s.setX rd v).advance.cpu.x = (s.cpu.wx rd v).x := by rw [setX_advance_frame]
  have hh : (s.setX rd v).advance.cpu.hx = (s.cpu.wx rd v).hx := by rw [setX_advance_frame]
  refine ⟨?_, ?_, ?_, ?_, ⟨fun _ => rfl, fun _ => rfl⟩, ?_⟩
  · rw [setX_advance_x]; by_cases h : rd = 0 <;> simp [h]
  · intro r hne
    rw [setX_advance_x]
    by_cases h : r = 0
    · subst h; rfl
    · rw [if_neg h, if_neg hne]
  · intro h; rw [hx]; exact Cell.wx_taskBank _ _ _ h
  · intro h; rw [hh]; exact Cell.wx_handlerBank _ _ _ h
  · rw [hx, hh]; exact setX_advance_frame s rd v

theorem advance_memOk {s : State} (h : s.MemOk) : s.advance.MemOk := memOk_of_eq h rfl rfl
theorem setX_memOk {s : State} (h : s.MemOk) (rd : BitVec 5) (v : Word) : (s.setX rd v).MemOk := memOk_of_eq h rfl rfl
theorem setV_memOk {s : State} (h : s.MemOk) (n : BitVec 5) (v : VReg) : (s.setV n v).MemOk := memOk_of_eq h rfl rfl
theorem upd_memOk {s : State} (h : s.MemOk) (f : Cell → Cell) : (s.upd f).MemOk := memOk_of_eq h rfl rfl

/-- A taken branch or jump to an aligned target; a misaligned one traps with cause 3 and writes nothing (R23). -/
theorem transfer_aligned {t : Word} (h : t.extractLsb' 0 2 = 0) (s s' : State) :
    s.transfer t s' = s'.upd (fun c => c.jumpTo t) := by
  unfold State.transfer; simp [h]

theorem transfer_misaligned {t : Word} (h : t.extractLsb' 0 2 ≠ 0) (s s' : State) : s.transfer t s' = s.trap 3 t := by
  unfold State.transfer; simp only [ne_eq, h, not_false_eq_true, if_true]

/-! ### Cells -/

theorem focus_mem (s : State) (id : Nat) : (s.focus id).mem = s.mem := by unfold State.focus; split <;> rfl
theorem focus_sp (s : State) (id : Nat) : (s.focus id).sp = s.sp := by unfold State.focus; split <;> rfl
theorem setCell_mem (s : State) (c : Cell) : (s.setCell c).mem = s.mem := by unfold State.setCell; split <;> rfl
theorem setCell_sp (s : State) (c : Cell) : (s.setCell c).sp = s.sp := by unfold State.setCell; split <;> rfl
theorem focus_memOk {s : State} (h : s.MemOk) (id : Nat) : (s.focus id).MemOk := memOk_of_eq h (focus_mem ..) (focus_sp ..)
theorem setCell_memOk {s : State} (h : s.MemOk) (c : Cell) : (s.setCell c).MemOk := memOk_of_eq h (setCell_mem ..) (setCell_sp ..)
theorem updCell_memOk {s : State} (h : s.MemOk) (id : Nat) (f : Cell → Cell) : (s.updCell id f).MemOk := setCell_memOk h _

/-! ### Poison and running records (R4, R320, R412) -/

theorem Cell.mem_heal (c : Cell) (r q : Res) : q ∈ c.heal r ↔ q ∈ c.poison ∧ q ≠ r := by simp [Cell.heal]

theorem mem_healed (l : List Nat) (k n w : Nat) : w ∈ healed l k n ↔ w ∈ l ∧ ¬ (k ≤ 8 * w ∧ 8 * w + 8 ≤ k + n) := by
  simp only [healed, List.mem_filter, Bool.not_eq_true', Bool.and_eq_false_iff, decide_eq_false_iff_not]
  constructor <;> (rintro ⟨h, g⟩; exact ⟨h, by omega⟩)

/-- With no graph running, a write lands whole. -/
theorem landing_idle {s : State} (h : s.graphs = []) (k : Nat) (bs : List Byte) : s.landing k bs = bs := by
  simp [State.landing, h]

/-! ### Scratchpad -/

/-- A scratchpad write changes its bytes and heals the words that it covers, nothing else. -/
theorem spWrite_frame (s : State) (o n v : Nat) :
    s.spWrite o n v = { s with
      sp := writeLE s.sp (spKey s.cpu.cluster o) n v
      spPoison := healed s.spPoison (spKey s.cpu.cluster o) n } := rfl

theorem spWrite_memOk {s : State} (h : s.MemOk) (o n v : Nat) : (s.spWrite o n v).MemOk := ⟨h.1, writeLE_wf h.2 ..⟩

/-! ### The L1 (R309) -/

/-- A weak store stays in the acting cell's L1. -/
theorem l1Store_frame (s : State) (p : Place) (n v seq : Nat) :
    s.l1Store p n v seq = { s with cpu := { s.cpu with l1 := (s.l1Store p n v seq).cpu.l1 } } := rfl

theorem foldl_memOk {α : Type} {f : State → α → State} (hf : ∀ s x, s.MemOk → (f s x).MemOk) (l : List α) {s : State}
    (h : s.MemOk) : (l.foldl f s).MemOk := by
  induction l generalizing s with
  | nil => exact h
  | cons a l ih => exact ih (hf s a h)

/-- Bytes of a line land at home one run after another; the memories stay canonical. -/
theorem landLine_memOk {s : State} (h : s.MemOk) (k : Nat) (mask : BitVec 128) (data : VReg) (who : Option Nat) :
    (s.landLine k mask data who).MemOk := by
  unfold State.landLine
  refine foldl_memOk (fun s w h => ?_) _ h
  dsimp only
  split
  · exact homeWrite_memOk h ..
  · refine foldl_memOk (fun s j h => ?_) _ h
    split
    · exact homeWrite_memOk h ..
    · exact h

theorem writeBack_memOk {s : State} (h : s.MemOk) (no : Nat) : (s.writeBack no).MemOk := by
  unfold State.writeBack
  split
  · exact h
  · exact upd_memOk (landLine_memOk h ..) _

theorem release_memOk {s : State} (h : s.MemOk) (scope : Nat) : (s.release scope).MemOk := by
  unfold State.release
  split
  · exact h
  · exact foldl_memOk (fun _ _ h => writeBack_memOk h _) _ h

theorem acquire_memOk {s : State} (h : s.MemOk) (scope : Nat) : (s.acquire scope).MemOk := by
  unfold State.acquire
  split
  · exact h
  · exact upd_memOk h _

theorem selfFlush_memOk {s : State} (h : s.MemOk) (p : Place) (n : Nat) : (s.selfFlush p n).MemOk := by
  unfold State.selfFlush
  split
  · exact h
  · exact upd_memOk (writeBack_memOk h _) _

/-! ### Translation (R226 to R230) -/

/-- The state that a translation leaves, whatever it answers. -/
def Xlat.after : Xlat → State
  | .ok _ _ s => s
  | .trap _ _ s => s
  | .wait s => s

/-- What a translation leaves: memory as canonical as before, scratchpads and contexts as before, and of the acting cell all but
its TLB and, by the AMOs of a walk (R228), its reservation. -/
def Translated (s t : State) : Prop :=
  (s.MemOk → t.MemOk) ∧ t.sp = s.sp ∧
  t.cpu = { s.cpu with tlb := t.cpu.tlb, reservation := t.cpu.reservation } ∧ t.contexts = s.contexts ∧ t.fuses = s.fuses

theorem Translated.refl (s : State) : Translated s s := ⟨id, rfl, rfl, rfl, rfl⟩

theorem Translated.trans {s t u : State} (h : Translated s t) (k : Translated t u) : Translated s u := by
  obtain ⟨a, b, c, d, e⟩ := h
  obtain ⟨a', b', c', d', e'⟩ := k
  exact ⟨a' ∘ a, b'.trans b, by rw [c', c], d'.trans d, e'.trans e⟩

theorem homeWrite_translated (s : State) (k : Nat) (bs : List Byte) (who : Option Nat) : Translated s (s.homeWrite k bs who) :=
  ⟨fun h => homeWrite_memOk h .., rfl, by rw [homeWrite_cpu], rfl, rfl⟩

theorem groupLeaf_translated (s : State) (key : Nat) (e : Word) : Translated s (groupLeaf s key e).2 := by
  unfold groupLeaf
  simp only []
  split
  · exact Translated.refl s
  · split <;> exact Translated.refl s

theorem foldl_translated {α : Type} {f : State → α → State} (hf : ∀ s x, Translated s (f s x)) (l : List α) (s : State) :
    Translated s (l.foldl f s) := by
  induction l generalizing s with
  | nil => exact Translated.refl s
  | cons a l ih => exact (hf s a).trans (ih (f s a))

/-- Bytes of a line that land at home: what a write at home changes, and nothing more. -/
theorem landLine_translated (s : State) (k : Nat) (mask : BitVec 128) (data : VReg) (who : Option Nat) :
    Translated s (s.landLine k mask data who) := by
  unfold State.landLine
  refine foldl_translated (fun s w => ?_) _ s
  dsimp only
  split
  · exact homeWrite_translated ..
  · refine foldl_translated (fun s j => ?_) _ s
    split
    · exact homeWrite_translated ..
    · exact Translated.refl s

theorem markUsed_translated (s : State) (key : Nat) (leaf : Word) (path : List Nat) (w : Bool) :
    Translated s (markUsed s key leaf path w) :=
  (foldl_translated (fun s _ => homeWrite_translated s ..) path s).trans (homeWrite_translated ..)

theorem touchPage_translated (s : State) (ctx va : Nat) (leaf : Word) (bits : Nat) : Translated s (touchPage s ctx va leaf bits) := by
  unfold touchPage
  split <;> exact Translated.refl s

theorem stall_translated (s : State) (k : Nat) : Translated s (s.stall k) := by
  unfold State.stall
  split <;> exact Translated.refl s

theorem tlb_translated (s : State) (e : TlbEntry) : Translated s (s.upd (fun c => { c with tlb := addTlb c.tlb e })) :=
  ⟨fun h => h, rfl, rfl, rfl, rfl⟩

theorem walkFor_translated (s : State) (ctx die va : Nat) (a : Access) : Translated s (walkFor s ctx die va a).1.after := by
  unfold walkFor
  split
  · exact Translated.refl s
  · dsimp only
    split
    · exact Translated.refl s
    · split
      · exact Translated.refl s
      · exact Translated.refl s
      · exact stall_translated (s.keepWalker (s.walkOf ctx die va)) _
      · exact Translated.refl s
      · rename_i level key e path _
        have hg : Translated s (if level = 0 && e.getLsbD 10 then groupLeaf s key e else (e, s)).2 := by
          split
          · exact groupLeaf_translated ..
          · exact Translated.refl s
        revert hg
        generalize (if level = 0 && e.getLsbD 10 then groupLeaf s key e else (e, s)) = p
        obtain ⟨e', s'⟩ := p
        intro hg
        dsimp only
        cases a.allowed e'
        · exact hg
        · exact hg.trans (markUsed_translated s' key e path a.writes)

/-- Everything that a translation of the acting cell changes (R226, R228, R230). -/
theorem translate_translated (s : State) (va : Word) (a : Access) : Translated s (translate s va a).after := by
  unfold translate
  simp only []
  split
  · exact Translated.refl s
  · split
    · split
      · exact (tlb_translated ..).trans (touchPage_translated ..)
      · exact tlb_translated ..
    · split
      · split
        · exact (tlb_translated (s.usedLl _ _) _).trans (touchPage_translated ..)
        · exact tlb_translated (s.usedLl _ _) _
      · have hw := walkFor_translated s s.cpu.ctx s.cpu.die va.toNat a
        split
        · rename_i h
          rw [h] at hw
          exact (hw.trans (touchPage_translated ..)).trans (tlb_translated ..)
        · rename_i h
          rw [h] at hw
          exact hw

theorem translateHome_translated (s : State) (va : Word) (a : Access) : Translated s (translateHome s va a).after := by
  have h := translate_translated s va a
  unfold translateHome
  split
  · rename_i e
    rw [e] at h
    split <;> exact h
  · exact h

/-! ### The trap ring (R369, R370) -/

theorem wakeCtx_memOk {s : State} (h : s.MemOk) (ctx : Nat) : (s.wakeCtx ctx).MemOk := memOk_of_eq h rfl rfl

theorem writeRecord_memOk {s : State} (h : s.MemOk) (ctx base : Nat) (bs : List Byte) : (writeRecord s ctx base bs).MemOk := by
  unfold writeRecord
  refine wakeCtx_memOk ?_ _
  refine homeWrite_memOk ?_ _ _ _
  exact homeWrite_memOk h _ _ _

theorem setDropped_memOk {s : State} (h : s.MemOk) (ctx n : Nat) : (setDropped s ctx n).MemOk := memOk_of_eq h rfl rfl

theorem flushLost_memOk {s : State} (h : s.MemOk) (ctx base : Nat) : (flushLost s ctx base).MemOk := by
  unfold flushLost
  split
  · exact h
  · exact setDropped_memOk (writeRecord_memOk h _ _ _) _ _

theorem hold_memOk {s : State} (h : s.MemOk) (ctx producer unit : Nat) (bs : List Byte) : (s.hold ctx producer unit bs).MemOk :=
  memOk_of_eq h rfl rfl

theorem stall_memOk {s : State} (h : s.MemOk) (k : Nat) : (s.stall k).MemOk := (stall_translated s k).1 h

theorem post_memOk {s : State} (h : s.MemOk) (ctx producer unit : Nat) (bs : List Byte) : (s.post ctx producer unit bs).MemOk := by
  unfold State.post
  split
  · exact h
  · split
    · exact hold_memOk (stall_memOk h _) ..
    · dsimp only
      split
      · exact hold_memOk (flushLost_memOk h _ _) ..
      · exact writeRecord_memOk (flushLost_memOk h _ _) ..

theorem dropRecord_memOk {s : State} (h : s.MemOk) (ctx base : Nat) : (dropRecord s ctx base).MemOk :=
  setDropped_memOk (homeWrite_memOk h _ _ _) _ _

theorem postOrDrop_memOk {s : State} (h : s.MemOk) (ctx : Nat) (bs : List Byte) : (s.postOrDrop ctx bs).MemOk := by
  unfold State.postOrDrop
  split
  · exact h
  · split
    · exact hold_memOk (stall_memOk h _) ..
    · dsimp only
      split
      · exact dropRecord_memOk (flushLost_memOk h _ _) ..
      · exact writeRecord_memOk (flushLost_memOk h _ _) ..

/-! ### Traps (R346, R354) -/

/-- A node that faults: the cells of its firing stop and a note is left for the graph engine; no memory changes. -/
theorem faultNode_frame (s : State) (cause : Nat) (tval : Word) (lost : Option Nat) :
    s.faultNode cause tval lost = { s with
      faults := s.faults ++ [⟨s.cpu.firing, s.cpu.id, cause, tval, lost⟩]
      cpu := (s.faultNode cause tval lost).cpu
      cells := (s.faultNode cause tval lost).cells } := rfl

/-- Of the acting cell, leaving its waits changes an nbmode that has begun. -/
theorem leaveWaits_cpu (s : State) : (s.leaveWaits s.cpu.id).cpu = { s.cpu with nbBegun := false } := by
  simp [State.leaveWaits, State.dropWaits, State.updCell, State.setCell, State.cell]

theorem leaveWaits_mem (s : State) (id : Nat) : (s.leaveWaits id).mem = s.mem := setCell_mem ..
theorem leaveWaits_sp (s : State) (id : Nat) : (s.leaveWaits id).sp = s.sp := setCell_sp ..

theorem capturePending_mem (s : State) (i : Option Nat) : (s.capturePending i).mem = s.mem := rfl
theorem capturePending_sp (s : State) (i : Option Nat) : (s.capturePending i).sp = s.sp := rfl

theorem enterTrap_memOk {s : State} (h : s.MemOk) (cause : Nat) (tval epc addr : Word) (word : BitVec 32) (lost : Option Nat) :
    (s.enterTrap cause tval epc addr word lost).MemOk := by
  have h1 : (s.leaveWaits s.cpu.id).MemOk := memOk_of_eq h (leaveWaits_mem ..) (leaveWaits_sp ..)
  unfold State.enterTrap
  simp only []
  split
  · exact memOk_of_eq (post_memOk (upd_memOk h1 _) ..) rfl rfl
  · exact upd_memOk (upd_memOk h1 _) _

theorem trap_memOk {s : State} (h : s.MemOk) (cause : Nat) (tval : Word) (lost : Option Nat) : (s.trap cause tval lost).MemOk := by
  unfold State.trap
  apply enterTrap_memOk
  split
  · exact h
  · exact memOk_of_eq h rfl rfl

theorem trapCmd_memOk {s : State} (h : s.MemOk) (i cause : Nat) (tval : Word) (lost : Option Nat) :
    (s.trapCmd i cause tval lost).MemOk := by
  unfold State.trapCmd
  split
  · exact h
  · apply enterTrap_memOk
    split
    · exact h
    · exact memOk_of_eq h rfl rfl

theorem transfer_memOk {s s' : State} (h : s.MemOk) (h' : s'.MemOk) (t : Word) : (s.transfer t s').MemOk := by
  unfold State.transfer
  split
  · exact trap_memOk h ..
  · exact upd_memOk h' _

/-- A precise trap of a task that has a handler: the cell runs the handler from its first word with the cause, the value and the
address of the word saved; banks, vector registers and memories are as before (R354). -/
theorem trap_task {s : State} (hm : s.cpu.handler = false) (ht : s.cpu.thandler ≠ 0) (cause : Nat) (tval : Word)
    (lost : Option Nat) :
    let t := s.trap cause tval lost
    t.cpu.handler = true ∧ t.cpu.pc = s.cpu.thandler ∧ t.cpu.tcause = BitVec.ofNat 64 cause ∧ t.cpu.tval = tval ∧
      t.cpu.tepc = s.cpu.pc ∧ t.cpu.savedLoops = s.cpu.loops ∧ t.cpu.savedLc = s.cpu.lc ∧ t.cpu.loops = [] ∧ t.cpu.asleep = false ∧ t.cpu.x = s.cpu.x ∧ t.cpu.hx = s.cpu.hx ∧
      t.cpu.v = s.cpu.v ∧ t.cpu.k = s.cpu.k ∧ t.mem = s.mem ∧ t.sp = s.sp := by
  have e : (s.capturePending none).cpu.handler = false := hm
  have e2 : (s.capturePending none).cpu.thandler = s.cpu.thandler := rfl
  simp only [State.trap, hm, Bool.false_eq_true, if_false, State.enterTrap, State.upd, leaveWaits_cpu, e, e2, Bool.false_or,
    decide_eq_true_eq, ht]
  and_intros <;> first | trivial | rfl | exact leaveWaits_mem .. | exact leaveWaits_sp ..

end Sys2Proof.Machine
end

