-- ==== Sys2Proof/Tests/Slice0.lean ====
section
/-! SUPPORT. Tests: decoding and the limits of fields on words written out from the encodings, single steps against results worked out by hand from the rules, and witnesses for the hypotheses of every statement. -/

set_option Elab.async false

namespace Sys2Proof.Tests

open Sys2Proof Sys2Proof.Machine

/-! ### Decoding and the limits of fields (R23 to R45) -/

/-- Words of the RV64 base (R43 to R45), written out from the encoding of each. -/
theorem test_decode_rv1 : ∀ p ∈ [
    (0xABCDE2B7#32, Instr.lui 5 0xABCDE), (0xABCDE297#32, Instr.auipc 5 0xABCDE),
    (0xA55A52EF#32, Instr.jal 5 0xD2D2A), (0xFFC302E7#32, Instr.jalr 5 6 0xFFC),
    (0xA4730AE3#32, Instr.beq 6 7 0xD2A), (0xA4731AE3#32, Instr.bne 6 7 0xD2A), (0xA4734AE3#32, Instr.blt 6 7 0xD2A),
    (0xA4735AE3#32, Instr.bge 6 7 0xD2A), (0xA4736AE3#32, Instr.bltu 6 7 0xD2A),
    (0xA4737AE3#32, Instr.bgeu 6 7 0xD2A), (0xFF830283#32, Instr.lb 5 6 0xFF8), (0xFF831283#32, Instr.lh 5 6 0xFF8),
    (0xFF832283#32, Instr.lw 5 6 0xFF8), (0xFF833283#32, Instr.ld 5 6 0xFF8), (0xFF834283#32, Instr.lbu 5 6 0xFF8),
    (0xFF835283#32, Instr.lhu 5 6 0xFF8), (0xFF836283#32, Instr.lwu 5 6 0xFF8), (0xFC730DA3#32, Instr.sb 6 7 0xFDB),
    (0xFC731DA3#32, Instr.sh 6 7 0xFDB), (0xFC732DA3#32, Instr.sw 6 7 0xFDB), (0xFC733DA3#32, Instr.sd 6 7 0xFDB),
    (0xFFB30293#32, Instr.addi 5 6 0xFFB), (0xFFB32293#32, Instr.slti 5 6 0xFFB),
    (0xFFB33293#32, Instr.sltiu 5 6 0xFFB), (0xFFB34293#32, Instr.xori 5 6 0xFFB),
    (0xFFB36293#32, Instr.ori 5 6 0xFFB), (0xFFB37293#32, Instr.andi 5 6 0xFFB), (0x02531293#32, Instr.slli 5 6 37),
    (0x02535293#32, Instr.srli 5 6 37), (0x42535293#32, Instr.srai 5 6 37)], decode p.1 = .ok p.2 := by
  decide +kernel

/-- Words of the RV64 base (R43 to R45), written out from the encoding of each. -/
theorem test_decode_rv2 : ∀ p ∈ [
    (0x007302B3#32, Instr.add 5 6 7), (0x407302B3#32, Instr.sub 5 6 7), (0x007312B3#32, Instr.sll 5 6 7),
    (0x007322B3#32, Instr.slt 5 6 7), (0x007332B3#32, Instr.sltu 5 6 7), (0x007342B3#32, Instr.xor 5 6 7),
    (0x007352B3#32, Instr.srl 5 6 7), (0x407352B3#32, Instr.sra 5 6 7), (0x007362B3#32, Instr.or 5 6 7),
    (0x007372B3#32, Instr.and 5 6 7), (0xFFB3029B#32, Instr.addiw 5 6 0xFFB), (0x0113129B#32, Instr.slliw 5 6 17),
    (0x0113529B#32, Instr.srliw 5 6 17), (0x4113529B#32, Instr.sraiw 5 6 17), (0x007302BB#32, Instr.addw 5 6 7),
    (0x407302BB#32, Instr.subw 5 6 7), (0x007312BB#32, Instr.sllw 5 6 7), (0x007352BB#32, Instr.srlw 5 6 7),
    (0x407352BB#32, Instr.sraw 5 6 7), (0x0330000F#32, Instr.fence 0 0 0x033), (0x8330000F#32, Instr.fenceTso 0 0),
    (0x0000100F#32, Instr.fenceI 0 0 0), (0x00000073#32, Instr.ecall), (0x00100073#32, Instr.ebreak),
    (0x10500073#32, Instr.wfi), (0x027302B3#32, Instr.mul 5 6 7), (0x027312B3#32, Instr.mulh 5 6 7),
    (0x027322B3#32, Instr.mulhsu 5 6 7), (0x027332B3#32, Instr.mulhu 5 6 7), (0x027342B3#32, Instr.div 5 6 7)], decode p.1 = .ok p.2 := by
  decide +kernel

/-- Words of the RV64 base (R43 to R45), written out from the encoding of each. -/
theorem test_decode_rv3 : ∀ p ∈ [
    (0x027352B3#32, Instr.divu 5 6 7), (0x027362B3#32, Instr.rem 5 6 7), (0x027372B3#32, Instr.remu 5 6 7),
    (0x027302BB#32, Instr.mulw 5 6 7), (0x027342BB#32, Instr.divw 5 6 7), (0x027352BB#32, Instr.divuw 5 6 7),
    (0x027362BB#32, Instr.remw 5 6 7), (0x027372BB#32, Instr.remuw 5 6 7), (0x140322AF#32, Instr.lrW 5 6 1 0),
    (0x1A7322AF#32, Instr.scW 5 6 7 0 1), (0x0C7322AF#32, Instr.amoswapW 5 6 7 1 0),
    (0x047322AF#32, Instr.amoaddW 5 6 7 1 0), (0x247322AF#32, Instr.amoxorW 5 6 7 1 0),
    (0x647322AF#32, Instr.amoandW 5 6 7 1 0), (0x447322AF#32, Instr.amoorW 5 6 7 1 0),
    (0x847322AF#32, Instr.amominW 5 6 7 1 0), (0xA47322AF#32, Instr.amomaxW 5 6 7 1 0),
    (0xC47322AF#32, Instr.amominuW 5 6 7 1 0), (0xE47322AF#32, Instr.amomaxuW 5 6 7 1 0),
    (0x140332AF#32, Instr.lrD 5 6 1 0), (0x1A7332AF#32, Instr.scD 5 6 7 0 1),
    (0x0C7332AF#32, Instr.amoswapD 5 6 7 1 0), (0x047332AF#32, Instr.amoaddD 5 6 7 1 0),
    (0x247332AF#32, Instr.amoxorD 5 6 7 1 0), (0x647332AF#32, Instr.amoandD 5 6 7 1 0),
    (0x447332AF#32, Instr.amoorD 5 6 7 1 0), (0x847332AF#32, Instr.amominD 5 6 7 1 0),
    (0xA47332AF#32, Instr.amomaxD 5 6 7 1 0), (0xC47332AF#32, Instr.amominuD 5 6 7 1 0),
    (0xE47332AF#32, Instr.amomaxuD 5 6 7 1 0)], decode p.1 = .ok p.2 := by
  decide +kernel

/-- Words of the RV64 base (R43 to R45), written out from the encoding of each. -/
theorem test_decode_rv4 : ∀ p ∈ [
    (0x804312F3#32, Instr.csrrw 5 6 0x804), (0x804322F3#32, Instr.csrrs 5 6 0x804),
    (0x804332F3#32, Instr.csrrc 5 6 0x804), (0x804352F3#32, Instr.csrrwi 5 6 0x804),
    (0x804362F3#32, Instr.csrrsi 5 6 0x804), (0x804372F3#32, Instr.csrrci 5 6 0x804),
    (0x087302BB#32, Instr.addUw 5 6 7), (0x207322B3#32, Instr.sh1add 5 6 7), (0x207342B3#32, Instr.sh2add 5 6 7),
    (0x207362B3#32, Instr.sh3add 5 6 7), (0x207322BB#32, Instr.sh1addUw 5 6 7),
    (0x207342BB#32, Instr.sh2addUw 5 6 7), (0x207362BB#32, Instr.sh3addUw 5 6 7),
    (0x0A53129B#32, Instr.slliUw 5 6 37)], decode p.1 = .ok p.2 := by
  decide +kernel

/-- Words of format V (R28, R37), written out from the encoding of each. -/
theorem test_decode_v1 : ∀ p ∈ [
    (0x02B5278B#32, Instr.vadd 1 11 10 9 7), (0x06B5278B#32, Instr.vsub 1 11 10 9 7),
    (0x0AB5278B#32, Instr.vmul 1 11 10 9 7), (0x0EB5278B#32, Instr.vmulh 1 11 10 9 7),
    (0x12B5278B#32, Instr.vand 1 11 10 9 7), (0x16B5278B#32, Instr.vor 1 11 10 9 7),
    (0x1AB5278B#32, Instr.vxor 1 11 10 9 7), (0x1EB5278B#32, Instr.vsll 1 11 10 9 7),
    (0x22B5278B#32, Instr.vsrl 1 11 10 9 7), (0x26B5278B#32, Instr.vsra 1 11 10 9 7),
    (0x2AB5278B#32, Instr.vmin 1 11 10 9 7), (0x2EB5278B#32, Instr.vmax 1 11 10 9 7),
    (0x32B5278B#32, Instr.vminu 1 11 10 9 7), (0x36B5278B#32, Instr.vmaxu 1 11 10 9 7),
    (0x3AB5278B#32, Instr.vaddx 1 11 10 9 7), (0x3EB5278B#32, Instr.viota 1 11 10 9 7),
    (0x42B5278B#32, Instr.vfadd 1 11 10 9 7), (0x46B5278B#32, Instr.vfsub 1 11 10 9 7),
    (0x4AB5278B#32, Instr.vfmul 1 11 10 9 7), (0x4EB5278B#32, Instr.vfma 1 11 10 9 7),
    (0x52B5278B#32, Instr.vfmin 1 11 10 9 7), (0x56B5278B#32, Instr.vfmax 1 11 10 9 7),
    (0x5A05AB8B#32, Instr.vfexp2 1 11 10 7), (0x5E05AB8B#32, Instr.vfrcp 1 11 10 7),
    (0x6205AB8B#32, Instr.vfrsqrt 1 11 10 7), (0x6605AB8B#32, Instr.vflog2 1 11 10 7),
    (0x6AB5278B#32, Instr.vfmulx 1 11 10 9 7), (0x6EB5278B#32, Instr.vfaddx 1 11 10 9 7),
    (0x82B51B8B#32, Instr.vcmpeq 1 11 10 6 7), (0x86B51B8B#32, Instr.vcmplt 1 11 10 6 7)], decode p.1 = .ok p.2 := by
  decide +kernel

/-- Words of format V (R28, R37), written out from the encoding of each. -/
theorem test_decode_v2 : ∀ p ∈ [
    (0x8AB51B8B#32, Instr.vcmpltu 1 11 10 6 7), (0x8EB51B8B#32, Instr.vfcmpeq 1 11 10 6 7),
    (0x92B51B8B#32, Instr.vfcmplt 1 11 10 6 7), (0x94519B8B#32, Instr.kopAnd 5 3 6 7),
    (0x94D19B8B#32, Instr.kopOr 5 3 6 7), (0x95519B8B#32, Instr.kopXor 5 3 6 7),
    (0x95D19B8B#32, Instr.kopAndn 5 3 6 7), (0x9801AB8B#32, Instr.kpop 3 10 7),
    (0x9811AB8B#32, Instr.kpopFirst 3 10 7), (0x9CB5278B#32, Instr.vsel 11 10 9 7),
    (0xA2C5278B#32, Instr.vcvtn 1 12 10 9 7), (0xA6C5278B#32, Instr.vcvtw 1 12 10 9 7),
    (0xAAB5278B#32, Instr.vcvtif 1 11 10 9 7), (0xAEB5278B#32, Instr.vcvtfi 1 11 10 9 7),
    (0xC205AB8B#32, Instr.vredsum 1 11 10 7), (0xC215AB8B#32, Instr.vredsumI32 1 11 10 7),
    (0xC605AB8B#32, Instr.vredmax 1 11 10 7), (0xC615AB8B#32, Instr.vredmaxI32 1 11 10 7),
    (0xCA05AB8B#32, Instr.vredmin 1 11 10 7), (0xCA15AB8B#32, Instr.vredminI32 1 11 10 7),
    (0xCEB5278B#32, Instr.vslide 1 11 10 9 7), (0xD2B5278B#32, Instr.vperm 1 11 10 9 7),
    (0xD405AB8B#32, Instr.vcompress 11 10 7), (0xDA05AB8B#32, Instr.vmvxv 1 11 10 7),
    (0xDCB5278B#32, Instr.vmvvx 11 10 9 7), (0xE2B5278B#32, Instr.vsmaxacc 1 11 10 9 7),
    (0xE6B5278B#32, Instr.vsmaxfin 1 11 10 9 7), (0xE8B5278B#32, Instr.vsortkv 11 10 9 7),
    (0xEC059B8B#32, Instr.vseghead 11 6 7), (0xF0C5278B#32, Instr.vsppack 12 10 9 7)], decode p.1 = .ok p.2 := by
  decide +kernel

/-- Words of format S (R31, R40), written out from the encoding of each. -/
theorem test_decode_s1 : ∀ p ∈ [
    (0x00B527DB#32, Instr.vldm 11 10 9 7), (0x02B527DB#32, Instr.vstm 11 10 9 7),
    (0x04B527DB#32, Instr.vldx 11 10 9 7), (0x06B527DB#32, Instr.vstx 11 10 9 7),
    (0x08B527DB#32, Instr.vlds 11 10 9 7), (0x0AB527DB#32, Instr.vsts 11 10 9 7),
    (0x0D55ABDB#32, Instr.ldst 2 5 11 10 7), (0x0F55ABDB#32, Instr.stst 2 5 11 10 7),
    (0x10502FDB#32, Instr.phase 5 11 7), (0x125003DB#32, Instr.fenceBoth 5 7), (0x125007DB#32, Instr.fenceRel 5 7),
    (0x12500BDB#32, Instr.fenceAcq 5 7), (0x14B503DB#32, Instr.spfeEmpty 11 10 7),
    (0x14B507DB#32, Instr.spfeFull 11 10 7), (0x160503DB#32, Instr.sprot 10 7), (0x18051BDB#32, Instr.tld 10 6 7),
    (0x1A051BDB#32, Instr.tst 10 6 7), (0x20B503DB#32, Instr.barinit 11 10 7),
    (0x200587DB#32, Instr.barinitForce 11 7), (0x20058BDB#32, Instr.barinitFree 11 7),
    (0x22B527DB#32, Instr.bararr 11 10 9 7), (0x24B527DB#32, Instr.bardrop 11 10 9 7),
    (0x26B527DB#32, Instr.barjoin 11 10 9 7), (0x28B503DB#32, Instr.barwait 11 10 7),
    (0x2AB527DB#32, Instr.bartest 11 10 9 7), (0x2CB527DB#32, Instr.waita 11 10 9 7),
    (0x2EB537DB#32, Instr.ringinit 11 10 13 7), (0x3006ABDB#32, Instr.ringclaim 13 10 7),
    (0x32B683DB#32, Instr.ringcommit 11 13 7), (0x3406ABDB#32, Instr.ringtake 13 10 7)], decode p.1 = .ok p.2 := by
  decide +kernel

/-- Words of format S (R31, R40), written out from the encoding of each. -/
theorem test_decode_s2 : ∀ p ∈ [
    (0x36B683DB#32, Instr.ringfree 11 13 7), (0x38B6A7DB#32, Instr.waitfill 11 13 9 7),
    (0x3AB6A7DB#32, Instr.waitfree 11 13 9 7), (0x40B503DB#32, Instr.redaF32add 11 10 7),
    (0x40B507DB#32, Instr.redaBf16add 11 10 7), (0x40B50BDB#32, Instr.redaI32add 11 10 7),
    (0x40B50FDB#32, Instr.redaF32max 11 10 7), (0x40B513DB#32, Instr.redaF32min 11 10 7),
    (0x40B517DB#32, Instr.redaI32max 11 10 7), (0x40B51BDB#32, Instr.redaI32min 11 10 7),
    (0x42002FDB#32, Instr.redfence 11 7), (0x50B527DB#32, Instr.prcfg 11 10 9 7),
    (0x5205ABDB#32, Instr.prinv 11 10 7), (0x540583DB#32, Instr.prpin 11 7), (0x560583DB#32, Instr.prunpin 11 7),
    (0x60B527DB#32, Instr.cparm 11 10 9 7), (0x62B527DB#32, Instr.cpstep 11 10 9 7),
    (0x6405ABDB#32, Instr.cpstat 11 10 7), (0x6605ABDB#32, Instr.cpcancel 11 10 7),
    (0x70B527DB#32, Instr.nbmode 11 10 9 7), (0x72B527DB#32, Instr.nbcmd 11 10 9 7),
    (0x74002FDB#32, Instr.nbfence 11 7), (0x76B527DB#32, Instr.nbrd 11 10 9 7),
    (0x80B503DB#32, Instr.hintLife 11 10 7), (0x800587DB#32, Instr.hintPref 11 7),
    (0x80058BDB#32, Instr.hintFetch 11 7), (0x8205ABDB#32, Instr.stepadv 11 10 7)], decode p.1 = .ok p.2 := by
  decide +kernel

/-- Words of format M (R29, R38), written out from the encoding of each. -/
theorem test_decode_m : ∀ p ∈ [
    (0x00AA8FAB#32, Instr.mma 5 10 1 0 3 7), (0x04AA8FAB#32, Instr.mmaAcc 5 10 1 0 3 7),
    (0x08AA8FAB#32, Instr.mmaNeg 5 10 1 0 3 7), (0x10AA8FAB#32, Instr.mmas 5 10 1 0 3 7),
    (0x14AA8FAB#32, Instr.mmasAcc 5 10 1 0 3 7), (0x18AA8FAB#32, Instr.mmasNeg 5 10 1 0 3 7),
    (0x20000FAB#32, Instr.accz 3 7), (0x300B0FAB#32, Instr.accscl 11 3 7), (0x300B8FAB#32, Instr.accsclX 11 3 7),
    (0x496A0FAB#32, Instr.accrd 2 11 10 3 7), (0x496A8FAB#32, Instr.accrdCol 2 11 10 3 7),
    (0x596A0FAB#32, Instr.accwr 2 11 10 3 7), (0x596A8FAB#32, Instr.accwrCol 2 11 10 3 7),
    (0x616A83AB#32, Instr.epi 11 10 1 7), (0x700003AB#32, Instr.mqctlWait 7), (0x740B03AB#32, Instr.mqctlRm 11 7),
    (0x780B03AB#32, Instr.mqctlFtb 11 7)], decode p.1 = .ok p.2 := by
  decide +kernel

/-- Words of format F (R30, R39), written out from the encoding of each. -/
theorem test_decode_f : ∀ p ∈ [
    (0x85A803AB#32, Instr.opu 11 10 7), (0x95A803AB#32, Instr.fwfwd 11 10 7),
    (0xA5A923AB#32, Instr.fwupdD 11 10 9 7), (0xA5A92BAB#32, Instr.fwupdH 11 10 9 7),
    (0xA5A933AB#32, Instr.fwupdE 11 10 9 7), (0xB5A923AB#32, Instr.fwfuD 11 10 9 7),
    (0xB5A927AB#32, Instr.fwfuDl 11 10 9 7), (0xB5A92BAB#32, Instr.fwfuH 11 10 9 7),
    (0xB5A92FAB#32, Instr.fwfuHl 11 10 9 7), (0xB5A933AB#32, Instr.fwfuE 11 10 9 7),
    (0xC5A803AB#32, Instr.fwsnapSnap 11 10 7), (0xC5A807AB#32, Instr.fwsnapFork 11 10 7),
    (0xC5A80BAB#32, Instr.fwsnapRollback 11 10 7), (0xC5800FAB#32, Instr.fwsnapFree 11 7),
    (0xD5A923AB#32, Instr.fwavg 11 10 9 7), (0xE5A803AB#32, Instr.fwmig 11 10 7),
    (0xF58003AB#32, Instr.fwctlPin 11 7), (0xF58007AB#32, Instr.fwctlUnpin 11 7),
    (0xF5A80BAB#32, Instr.fwctlQuery 11 10 7), (0xF5A92FAB#32, Instr.fwctlHint 11 10 9 7),
    (0xF58013AB#32, Instr.fwctlWait 11 7), (0xF5A937AB#32, Instr.fwctlNew 11 10 9 7)], decode p.1 = .ok p.2 := by
  decide +kernel

/-- Words of the control words and probe (R32, R33), written out from the encoding of each. -/
theorem test_decode_c : ∀ p ∈ [
    (0x003013FB#32, Instr.role 12 4), (0x0274107B#32, Instr.handoff 1 13 4 0), (0x049023FB#32, Instr.loop 9 8 7),
    (0x0605ABFB#32, Instr.roleid 11 10 7), (0x0805ABFB#32, Instr.drift 11 10 7),
    (0x0A05ABFB#32, Instr.vgrow 11 10 7), (0x0C05ABFB#32, Instr.vshrink 11 10 7),
    (0x0E05B7FB#32, Instr.fmset 11 13 7), (0x10B503FB#32, Instr.ftset 11 10 7), (0x12002FFB#32, Instr.rnext 11 7),
    (0x14B503FB#32, Instr.ntoken 11 10 7), (0x1605ABFB#32, Instr.nctx 11 10 7), (0x180003FB#32, Instr.ndone 7),
    (0x1A0583FB#32, Instr.nfail 11 7), (0x1C0003FB#32, Instr.trapret 7), (0x1E05ABFB#32, Instr.rqrd 11 10 7),
    (0x20B503FB#32, Instr.rqwr 11 10 7), (0x220583FB#32, Instr.rqdrop 11 7), (0x2405ABFB#32, Instr.enread 11 10 7),
    (0x2605ABFB#32, Instr.enest 11 10 7), (0x28B503FB#32, Instr.trec 11 10 7), (0xC085ABFB#32, Instr.probe 8 11 10 7)], decode p.1 = .ok p.2 := by
  decide +kernel


/-- A term that breaks each limit of R34, R35, R41, R45 and R133 is refused by its name. -/
theorem test_ill_formed : ∀ p ∈ [
    (Instr.vcmpeq 0 1 2 8 7, Illegal.maskRegister), (.vseghead 2 8 7, .maskRegister), (.kopAnd 1 8 2 7, .maskRegister),
    (.kopOr 1 2 8 7, .maskRegister), (.kpop 8 1 7, .maskRegister), (.kpopFirst 31 1 7, .maskRegister),
    (.vcvtn 0 16 1 2 7, .formatRegister), (.vcvtw 0 31 1 2 7, .formatRegister), (.fmset 1 16 7, .formatRegister),
    (.vsppack 9 1 2 7, .sparseCount), (.ldst 3 6 1 2 7, .scope), (.stst 0 7 1 2 7, .scope), (.phase 6 1 7, .scope),
    (.fenceBoth 7 7, .scope), (.fenceRel 6 7, .scope), (.fenceAcq 6 7, .scope), (.tld 2 8 7, .tileRegister),
    (.tst 3 7 7, .pair), (.sprot 1 7, .pair), (.fwavg 1 3 2 7, .pair), (.ringinit 1 2 16 7, .ringHandle),
    (.ringclaim 16 2 7, .ringHandle), (.ringcommit 1 31 7, .ringHandle), (.ringtake 16 1 7, .ringHandle),
    (.ringfree 1 16 7, .ringHandle), (.waitfill 1 16 2 7, .ringHandle), (.waitfree 1 16 2 7, .ringHandle),
    (.mma 8 1 0 0 0 7, .tileOrPair), (.mmas 2 3 1 0 0 7, .tileOrPair), (.mmaNeg 3 2 0 1 0 7, .tileOrPair),
    (.epi 1 8 0 7, .tileOrPair), (.accrd 3 0 1 0 7, .accumulateMode), (.accwrCol 3 0 1 0 7, .accumulateMode),
    (.role 1 0, .roleMarker), (.handoff 1 0 0 0, .handoff), (.handoff 7 0 1 0, .handoff), (.handoff 2 0 1 2, .handoff),
    (.loop 0 1 7, .loop), (.loop 1 0 7, .loop), (.csrrw 1 2 0xC10, .csrAccess), (.csrrs 1 2 0x814, .csrAccess),
    (.csrrci 1 2 0x7FF, .csrAccess), (.fence 0 0 0x833, .base)],
    p.1.check = some p.2 := by
  decide +kernel

/-- Words that R24, R35, R41, R43 and R44 make illegal are refused, each by the name of its reason. -/
theorem test_illegal_words : ∀ p ∈ [
    (0x00000000#32, Illegal.allZerosOrOnes), (0xFFFFFFFF#32, .allZerosOrOnes), (0x00000001#32, .compressed),
    (0x00000002#32, .compressed), (0x00000007#32, .opcode), (0x00000043#32, .opcode), (0x30200073#32, .base),
    (0x0020902F#32, .base), (0xF400000B#32, .reserved), (0x5810000B#32, .unusedField)],
    decode p.1 = .error p.2 := by
  decide +kernel

/-- The limits hold at their ends: role fields and registers at the last legal number. -/
theorem test_well_formed_at_the_limits : ∀ i ∈ [Instr.kpop 7 31 6, .vcvtn 1 15 31 31 7, .vsppack 16 0 0 0, .ldst 3 5 31 31 7,
    .tld 30 7 7, .waitfree 31 15 31 7, .mma 7 30 1 0 15 7, .accrd 2 31 31 15 7, .role 127 255, .handoff 6 15 255 5,
    .loop 31 1023 7, .csrrw 0 0 0x820, .csrrs 1 0 0xC31], i.check = none := by
  decide +kernel

/-! ### Concrete states -/

/-- The acting cell runs in context 1 with a handler, and its TLB maps the first GiB of HBM4E to itself by `leaf`. -/
def mapped (leaf : Word) : State :=
  { State.reset with
    contexts := [placedContext]
    cpu := { State.reset.cpu with
      running := true
      ctx := 1
      pc := 0x1000
      thandler := 0x4000
      tlb := [⟨1, 0, 30, leaf⟩] } }

/-- Cached pages that can be read and written, and the same pages with the policy that keeps them out of the L1. -/
def cached : State := mapped 0x1F
def uncached : State := mapped 0x11F

/-- A state with scalar registers set. -/
def withX (s : State) (l : List (BitVec 5 × Word)) : State := l.foldl (fun s p => s.setX p.1 p.2) s

/-- A state with the acting cell changed. -/
abbrev on (s : State) (f : Cell → Cell) : State := s.upd f

/-- The parts of a translation that succeeds. -/
def place : Xlat → Place
  | .ok p _ _ => p
  | _ => ⟨0, false, 0⟩
def leaf : Xlat → Word
  | .ok _ e _ => e
  | _ => 0
def after : Xlat → State
  | .ok _ _ s => s
  | .trap _ _ s => s
  | .wait s => s
def isOk : Xlat → Bool
  | .ok _ _ _ => true
  | _ => false
theorem ok_parts (x : Xlat) (h : isOk x = true) : x = .ok (place x) (leaf x) (after x) := by
  cases x <;> simp_all [isOk, place, leaf, after]

/-- The word, the state and the cause of a fetch. -/
def fetchedWord : Fetched → Option (BitVec 32)
  | .ok w _ => some w
  | _ => none
def fetchCause : Fetched → Option Nat
  | .trap c _ _ => some c
  | _ => none
def fetchWaits : Fetched → Bool
  | .wait _ => true
  | _ => false

/-- The same cell with every bank of the first pseudo-channel in all-bank mode for another context (R293). -/
def banksTaken (s : State) : State :=
  { s with channels := [⟨0, 0, .allBank, none, some 2, none, 0, false,
    Vector.replicate 16 ⟨Vector.replicate 8 0, Vector.replicate 64 0, [], 0⟩, none, false, [], false⟩] }

/-- The access `a` of `n` bytes at `va` reaches its bytes from `s`. -/
def reachesB (s : State) (va : Word) (n : Nat) (a : Access) : Bool :=
  let x := translateHome s va a
  decide (va.toNat % n = 0) && isOk x && (!a.writes || !storeBarred (after x) (place x) n) &&
    !(after x).bytesBusy ((after x).key (place x)) n

theorem reaches_of (s : State) (va : Word) (n : Nat) (a : Access) (h : reachesB s va n a = true) :
    Reaches s va n a (place (translateHome s va a)) (after (translateHome s va a)) := by
  simp only [reachesB, Bool.and_eq_true, decide_eq_true_eq, Bool.or_eq_true, Bool.not_eq_true'] at h
  exact ⟨h.1.1.1, ⟨_, ok_parts _ h.1.1.2⟩, fun w => by simpa [w] using h.1.2, h.2⟩

def atHomeB (s : State) (p : Place) (n : Nat) : Bool :=
  !isDevice p.pa && !s.homeWaits (s.key p) && !poisonedIn s.memPoison (s.key p) n

theorem atHome_of (s : State) (p : Place) (n : Nat) (h : atHomeB s p n = true) : AtHome s p n := by
  simp only [atHomeB, Bool.and_eq_true, Bool.not_eq_true'] at h
  exact ⟨h.1.1, h.1.2, h.2⟩

def inTurnB (s : State) (p : Place) (writes : Bool) : Bool :=
  !(writes && s.cpu.readsPending) && !s.cpu.flushesEarly p

theorem inTurn_of (s : State) (p : Place) (w : Bool) (h : inTurnB s p w = true) : InTurn s p w := by
  simp only [inTurnB, Bool.and_eq_true, Bool.not_eq_true'] at h
  exact ⟨fun hw => by simpa [hw] using h.1, h.2⟩

/-! ### Witnesses: for each statement, a state and operands that meet its hypotheses -/

/-- StepRunsTheDecodedInstruction: a cell that waits, one that fetches a word that decodes, with its register sound and poisoned, one that
fetches an illegal word, one whose fetch traps and one whose fetch waits for its channel, a move on the agenda, a cell with no command
under way, one that is not eager, one with no register poisoned, and a machine with no channel in a compute mode. -/
theorem witness_StepRunsTheDecodedInstruction :
    (State.reset.agenda = [] ∧ State.reset.cellWaits = true ∧ State.reset.channels = [] ∧ State.reset.cpu.poison = []) ∧
    (let s := State.reset.withFetchWord 32 0x00030293
     s.agenda = [] ∧ s.cellWaits = false ∧ s.barFor (.cell 0) = s ∧ fetchedWord s.fetch = some 0x00030293 ∧
       decode 0x00030293 = .ok (.addi 5 6 0) ∧ s.cpu.consumesBad (.addi 5 6 0) = false ∧
       (on s (fun c => { c with poison := [.x 6] })).cpu.consumesBad (.addi 5 6 0) = true ∧
       fetchedWord (on s (fun c => { c with poison := [.x 6] })).fetch = some 0x00030293) ∧
    (let s := State.reset.withFetchWord 32 0
     s.agenda = [] ∧ s.cellWaits = false ∧ fetchedWord (s.barFor (.cell 0)).fetch = some 0 ∧ decode 0 = .error .allZerosOrOnes) ∧
    (let s := on cached (fun c => { c with pc := 2 })
     s.agenda = [] ∧ s.cellWaits = false ∧ fetchCause (s.barFor (.cell s.cpu.id)).fetch = some 3) ∧
    (let s := banksTaken (on cached (fun c => { c with pc := 0x200 }))
     s.agenda = [] ∧ s.cellWaits = false ∧ fetchWaits (s.barFor (.cell s.cpu.id)).fetch = true) ∧
    ({ cached with agenda := [.tick 5] } : State).agenda = [.tick 5] ∧ cached.cpu.pending = [] ∧
    (on cached (fun c => { c with eager := false })).cpu.eager = false := by
  decide +kernel

/-- AFetchReadsTheWordAtThePc: a pc that is not a multiple of 4, one that does not translate, a kept line, and a line that is
fetched, whole and with a poisoned byte. -/
theorem witness_AFetchReadsTheWordAtThePc :
    (on cached (fun c => { c with pc := 2 })).cpu.pc.extractLsb' 0 2 ≠ 0 ∧
    (let s := on cached (fun c => { c with pc := 2 ^ 54 })
     s.cpu.pc.extractLsb' 0 2 = 0 ∧ translateHome s s.cpu.pc .read = .trap 4 none s) ∧
    (let x := translateHome cached cached.cpu.pc .read
     cached.cpu.pc.extractLsb' 0 2 = 0 ∧ isOk x = true ∧ isDevice (place x).pa = false ∧
       (after x).cpu.icache = [] ∧ (after x).homeWaits ((after x).key (place x)) = false ∧
       poisonedIn (after x).memPoison ((after x).key (place x)) 4 = false ∧ (place x).pa % 4 = 0 ∧
       findLine (after x).cpu.l1 (place x).line = none) ∧
    (let s := on cached (fun c => { c with icache := [(32, 0x13)] })
     let x := translateHome s s.cpu.pc .read
     isOk x = true ∧ (after x).cpu.icache.find? (fun e => e.1 == (place x).line) = some (32, 0x13)) ∧
    (let s : State := { cached with memPoison := [0x200] }
     let x := translateHome s s.cpu.pc .read
     isOk x = true ∧ poisonedIn (after x).memPoison ((after x).key (place x)) 4 = true) := by
  decide +kernel

/-- DecodeEncodeRoundTrip: a well-formed instruction with a word. -/
theorem witness_DecodeEncodeRoundTrip :
    WellFormed (.vsppack 12 31 31 7) ∧ encode (.vsppack 12 31 31 7) = some 0xF0CFFF8B := by
  unfold WellFormed
  decide +kernel

/-- StepKeepsMemOk: canonical memories and a step that answers a next state. -/
theorem witness_StepKeepsMemOk : State.reset.MemOk ∧ step State.reset = .next State.reset :=
  ⟨⟨rfl, rfl⟩, rfl⟩

/-- IntegerWordsWriteRd, JumpsAndBranchesTransfer and MisalignmentTraps: free registers, and targets and addresses on both sides
of their alignment. -/
theorem witness_BaseWords :
    cached.cpu.ready [31, 31, 0] = true ∧
    (cached.cpu.pc + 2 * (2#20).signExtend 64).setWidth 2 = 0#2 ∧ (cached.cpu.pc + 2 * (1#20).signExtend 64).setWidth 2 ≠ 0#2 ∧
    (cached.cpu.pc + 2 * (0xFFE#12).signExtend 64).setWidth 2 = 0#2 ∧
    (cached.cpu.pc + 2 * (0xFFF#12).signExtend 64).setWidth 2 ≠ 0#2 ∧
    (((withX cached [(6, 4)]).x 6 + (1#12).signExtend 64) &&& (-2)).setWidth 2 = 0#2 ∧
    (((withX cached [(6, 4)]).x 6 + (2#12).signExtend 64) &&& (-2)).setWidth 2 ≠ 0#2 ∧
    (withX cached [(6, 1)]).x 6 ≠ (withX cached [(6, 1)]).x 7 ∧ ((withX cached [(6, -1)]).x 6).slt 0 = true ∧
    ((withX cached [(6, -1)]).x 6).ult 0 = false ∧ ((withX cached [(7, 1)]).x 6).ult ((withX cached [(7, 1)]).x 7) = true ∧
    ((withX cached [(6, 1)]).x 6).toNat % 2 ≠ 0 ∧ ((withX cached [(6, 2)]).x 6).toNat % 4 ≠ 0 ∧
    ((withX cached [(6, 4)]).x 6).toNat % 8 ≠ 0 ∧ rlWaits 1 cached = false ∧ cached.cpu.executes 7 = true := by
  decide +kernel

/-- LoadsReadTheirBytes and StoresWriteTheirBytes: a line of the L1 that holds a whole sector, and one that holds dirty bytes of one,
bytes at home, and a cached and an
uncached place to store to. -/
theorem witness_LoadsAndStores :
    (∃ p s1 x, Reaches (withX (on cached (fun c => { c with l1 := [⟨4, 5, 0xFFFFFFFF, 0, 0⟩] })) [(6, 0x200)]) 0x200 8 .read p s1 ∧
      InL1 s1 p 8 x) ∧
    (∃ p s1 x, Reaches (withX (on cached (fun c => { c with l1 := [⟨4, 5, 0xFF, 0xFF, 0⟩] })) [(6, 0x200)]) 0x200 8 .read p s1 ∧
      InL1 s1 p 8 x) ∧
    (∃ p s1, Reaches (withX uncached [(6, 0x200)]) 0x200 8 .read p s1 ∧ p.pol ≠ 0 ∧ AtHome s1 p 8) ∧
    (∃ p s1, Reaches (withX cached [(6, 0x207)]) 0x207 1 .write p s1 ∧ p.pol = 0) ∧
    (∃ p s1, Reaches (withX uncached [(6, 0x206)]) 0x206 2 .write p s1 ∧ p.pol ≠ 0 ∧ s1.homeWaits (s1.key p) = false ∧
      s1.cpu.readsBefore s1.cpu.vseq = false) ∧
    (withX uncached [(6, 0x206)]).MemOk := by
  refine ⟨⟨_, _, ⟨4, 5, 0xFFFFFFFF, 0, 0⟩, reaches_of _ _ _ _ (by decide +kernel), ⟨by decide +kernel, by decide +kernel,
      by decide +kernel, by decide +kernel⟩⟩,
    ⟨_, _, ⟨4, 5, 0xFF, 0xFF, 0⟩, reaches_of _ _ _ _ (by decide +kernel), ⟨by decide +kernel, by decide +kernel,
      by decide +kernel, by decide +kernel⟩⟩,
    ⟨_, _, reaches_of _ _ _ _ (by decide +kernel), by decide +kernel, atHome_of _ _ _ (by decide +kernel)⟩,
    ⟨_, _, reaches_of _ _ _ _ (by decide +kernel), by decide +kernel⟩,
    ⟨_, _, reaches_of _ _ _ _ (by decide +kernel), by decide +kernel, by decide +kernel, by decide +kernel⟩, ?_⟩
  unfold State.MemOk
  decide +kernel

/-- AtomicsAndReservations and StrongAccessesActAtHome: words at home after the cell's own dirty
bytes and no earlier read in the way, a reservation held and none held, and every access of the strong words (those of cell scope
as in the last witness). A release of a scope wider than the cell. -/
theorem witness_Atomics :
    (∃ p s1, Reaches (withX cached [(6, 0x208)]) 0x208 8 .amo p s1 ∧ InTurn s1 p true ∧ AtHome ((withRl 1 s1).selfFlush p 8) p 8) ∧
    (∃ p s1, Reaches (withX uncached [(6, 0x20C)]) 0x20C 4 .read p s1 ∧ InTurn s1 p false ∧
      AtHome ((withRl 0 s1).selfFlush p 4) p 4) ∧
    (∃ p s1, Reaches (withX (on cached (fun c => { c with reservation := some 0x208 })) [(6, 0x20C)]) 0x20C 4 .write p s1 ∧
      s1.cpu.reservation = some (s1.key p - s1.key p % 8) ∧ InTurn s1 p true ∧
      ((withRl 0 s1).selfFlush p 4).homeWaits (s1.key p) = false) ∧
    (∃ p s1, Reaches (withX cached [(6, 0x208)]) 0x208 8 .write p s1 ∧ s1.cpu.reservation ≠ some (s1.key p - s1.key p % 8)) ∧
    (∃ p s1, Reaches (withX cached [(6, 0x204)]) 0x204 (2 ^ (2#2).toNat) .read p s1 ∧ InTurn s1 p false ∧
      AtHome (s1.selfFlush p 4) p 4) ∧
    (∃ p s1, Reaches (withX cached [(6, 0x208)]) 0x208 (2 ^ (3#2).toNat) .write p s1 ∧ InTurn s1 p true ∧
      (s1.selfFlush p 8).homeWaits (s1.key p) = false) ∧ (4 : Nat) ≠ 0 := by
  refine ⟨⟨_, _, reaches_of _ _ _ _ (by decide +kernel), inTurn_of _ _ _ (by decide +kernel), atHome_of _ _ _ (by decide +kernel)⟩,
    ⟨_, _, reaches_of _ _ _ _ (by decide +kernel), inTurn_of _ _ _ (by decide +kernel), atHome_of _ _ _ (by decide +kernel)⟩,
    ⟨_, _, reaches_of _ _ _ _ (by decide +kernel), by decide +kernel, inTurn_of _ _ _ (by decide +kernel), by decide +kernel⟩,
    ⟨_, _, reaches_of _ _ _ _ (by decide +kernel), by decide +kernel⟩,
    ⟨_, _, reaches_of _ _ _ _ (by decide +kernel), inTurn_of _ _ _ (by decide +kernel), atHome_of _ _ _ (by decide +kernel)⟩,
    ⟨_, _, reaches_of _ _ _ _ (by decide +kernel), inTurn_of _ _ _ (by decide +kernel), by decide +kernel⟩, by decide⟩

/-- CsrInstructionsExchange, CsrWritesFollowFieldRules and PidxIsTheTrappedProgress: free registers, values at the ends of the
field rules, and a handler with one trapped entry, with none, and task mode. -/
theorem witness_Csrs :
    cached.cpu.ready [1, 31] = true ∧
    (let ok (v : Word) : Prop := 1 ≤ (v.extractLsb' 0 6).toNat ∧ (v.extractLsb' 0 6).toNat ≤ 32 ∧
       1 ≤ (v.extractLsb' 8 6).toNat ∧ (v.extractLsb' 8 6).toNat ≤ 32 ∧ 1 ≤ (v.extractLsb' 16 6).toNat ∧
       (v.extractLsb' 16 6).toNat ≤ 32 ∧ v.extractLsb' 6 2 = 0 ∧ v.extractLsb' 14 2 = 0 ∧ v.toNat < 2 ^ 22
     ok 0x200120 ∧ ¬ ok 0x210120) ∧
    ((0xC#64).toNat < 16 ∧ ((0xC#64).extractLsb' 0 3).toNat ≤ 4 ∧ ¬ ((0xD#64).extractLsb' 0 3).toNat ≤ 4) ∧
    ((63#64).toNat < 64 ∧ 64 ≤ (64#64).toNat ∧ (3#64).toNat < 4 ∧ 4 ≤ (4#64).toNat ∧ (0xFFFFFFFF#64).toNat < 2 ^ 32 ∧
      2 ^ 32 ≤ (0x100000000#64).toNat) ∧ cached.cpu.handler = false := by
  decide +kernel

/-- A command as the front end forwards it. -/
def command (i : Instr) (q : Queue) : Cmd :=
  ⟨i, 0, 0x1000, q, 0, 0, 0, 0, 0, 0, 0, 0, false, false, 0, 0, [], none, 0, []⟩

/-- A handler whose second replay entry trapped. -/
def inHandler : State := on cached (fun c => { c with
  handler := true
  replay := [command (.vadd 0 1 2 3 7) .arith, { command (.vldm 0 2 3 7) .load with trapped := true, progress := 65535 }] })

theorem witness_PidxIsTheTrappedProgress :
    (inHandler.cpu.ready [5] = true ∧ inHandler.cpu.handler = true ∧ ∃ e, inHandler.cpu.replay[1]? = some e ∧ e.trapped = true ∧
      ∀ j f, inHandler.cpu.replay[j]? = some f → f.trapped = true → j = 1) ∧
    (let s := on cached (fun c => { c with handler := true })
     s.cpu.handler = true ∧ ∀ e ∈ s.cpu.replay, e.trapped = false) ∧ cached.cpu.handler = false := by
  refine ⟨⟨by decide +kernel, by decide +kernel, _, rfl, rfl, ?_⟩, by decide +kernel, by decide +kernel⟩
  intro j f hj hf
  match j, hj with
  | 0, hj =>
    cases hj
    cases hf
  | 1, _ => rfl
  | j + 2, hj => simp [inHandler, on, State.upd] at hj

/-- A member with no lead allowed, and a neighbour at the same count. -/
def leader : State := on
  { cached with cells := [{ cached.cpu with id := 1, role := 1 }] }
  (fun c => { c with lead := 0, roleCounts := [1, 1, 0, 0, 0, 0, 0] })

/-- FencesReleaseAndAcquire and PhaseCountsAndHolds: a quiet cell, a member with no neighbour, one that leads its neighbour by
more than its allowance, and both with a phase that holds. -/
theorem witness_FencesAndPhases :
    (cached.cpu.memoryQuiet = true ∧ cached.cpu.executes 7 = true ∧ cached.releaseWaits 5 = false ∧
      cached.releaseWaits 4 = false ∧ cached.cpu.ready [3] = true ∧ cached.cpu.hold = none) ∧
    (let count := cached.cpu.phaseCount + 1
     let counted := (cached.release 4).upd (fun c => { c with phaseCount := count })
     phaseHeld counted counted.cpu = false) ∧
    (let count := leader.cpu.phaseCount + 1
     let counted := (leader.release 4).upd (fun c => { c with phaseCount := count })
     leader.cpu.hold = none ∧ leader.releaseWaits 4 = false ∧ phaseHeld counted counted.cpu = true) ∧
    (let s := on cached (fun c => { c with hold := some 4 })
     s.cpu.hold = some 4 ∧ phaseHeld s s.cpu = false) ∧
    (let s := on leader (fun c => { c with hold := some 4, phaseCount := 1 })
     s.cpu.hold = some 4 ∧ phaseHeld s s.cpu = true) := by
  decide +kernel

/-- TeamWordsReadAndSet: operands at both sides of each limit. -/
theorem witness_TeamWordsReadAndSet :
    (cached.cpu.executes 0 = true ∧ cached.cpu.ready [5, 6] = true ∧ ((withX cached [(6, 6)]).x 6).toNat ≤ 6 ∧
      6 < ((withX cached [(6, 7)]).x 6).toNat ∧ cached.cpu.role ≠ 3 ∧ cached.cpu.roleCount 3 = 0) ∧
    (((withX cached [(6, 255)]).x 6).toNat ≤ 255 ∧ 255 < ((withX cached [(6, 256)]).x 6).toNat) ∧
    (cached.context cached.cpu.ctx = some placedContext ∧ ((withX cached [(6, 0xFFFFFFFF)]).x 6).toNat < 2 ^ 32 ∧
      2 ^ 32 ≤ ((withX cached [(6, 0x100000000)]).x 6).toNat) ∧
    (cached.cpu.pending = [] ∧ cached.cpu.valloc = 8 ∧ 32 ∈ [8, 16, 24, 32] ∧ 12 ∉ [8, 16, 24, 32] ∧
      (on cached (fun c => { c with valloc := 16 })).cpu.valloc = 16) ∧
    ((decodeDesc ((0xFFF00001#64).setWidth 32)).isSome = true ∧ decodeDesc ((0#64).setWidth 32) = none ∧
      entryDecodes 0x0300013000330003 = true ∧ entryDecodes 0xFFFFFFFFFFFFFFFF = false) := by
  decide +kernel

/-- A cell in a loop of three iterations, with its counter at `i`. -/
def inLoop (i : Word) : Cell := { cached.cpu with loops := [⟨0, 0x1000, 0x1010, 3⟩], lc := Vector.replicate 4 i }

/-- LoopsAndFlow: a count and nest that fit, a count of 0, one too large, a nest that is full and one that ends earlier; the last
iteration of a loop, an earlier one, and a word inside; roles in a marker's mask and out of it; a word of another role. -/
theorem witness_LoopsAndFlow :
    (cached.cpu.executes 7 = true ∧ cached.cpu.ready [6] = true ∧ cached.cpu.loops.length < 4 ∧ 0 < ((withX cached [(6, 1)]).x 6).toNat ∧
      ((withX cached [(6, 1)]).x 6).toNat < 2 ^ 32 ∧ (cached.x 6).toNat = 0 ∧ 2 ^ 32 ≤ ((withX cached [(6, 0x100000000)]).x 6).toNat) ∧
    (let s := on cached (fun c => { c with loops := List.replicate 4 ⟨0, 0x1000, 0x1FFC, 2⟩ })
     ¬ s.cpu.loops.length < 4) ∧
    (let s := on cached (fun _ => inLoop 0)
     ¬ (∀ l ∈ s.cpu.loops, (s.cpu.pc + 4 * (5#10).setWidth 64).toNat ≤ l.stop.toNat) ∧
       ∀ l ∈ s.cpu.loops, (s.cpu.pc + 4 * (4#10).setWidth 64).toNat ≤ l.stop.toNat) ∧
    ((inLoop 1).loops = [⟨0, 0x1000, 0x1010, 3⟩] ∧ ((inLoop 1).rlc 0).toNat + 1 < 3 ∧ 3 ≤ ((inLoop 2).rlc 0).toNat + 1 ∧
      (Loop.holds ⟨0, 0x1000, 0x1010, 3⟩ 0x1004 = true ∧ (0x1004 : Word) ≠ 0x1010 + 4)) ∧
    ((1#7).getLsbD cached.cpu.role = true ∧ (2#7).getLsbD cached.cpu.role = false) ∧
    (encode (.vadd 0 1 2 3 5) = some 0x00110E8B ∧ (0x00110E8B#32).extractLsb' 0 7 ∈ [0x0B#7, 0x2B#7, 0x5B#7, 0x7B#7] ∧
      cached.cpu.executes ((0x00110E8B#32).extractLsb' 7 3) = false) := by
  decide +kernel

/-- TrapsEnterTheHandler, EnvironmentCallsAndWaits and HandlersReadAndReturn: task mode with a handler and with none, handler
mode, a command under way, a pending wake and a sleeping cell, and selectors at the ends of their ranges, of a sound register and a
poisoned one. -/
theorem witness_Traps :
    (cached.cpu.handler = false ∧ cached.cpu.thandler ≠ 0 ∧ cached.cpu.pending = []) ∧
    (let s := on cached (fun c => { c with pending := [command (.vadd 0 1 2 3 7) .arith, command (.vldm 0 2 3 7) .load] })
     s.cpu.handler = false ∧ s.cpu.thandler ≠ 0 ∧ 1 < s.cpu.pending.length) ∧
    State.reset.cpu.thandler = 0 ∧ inHandler.cpu.handler = true ∧
    ((on cached (fun c => { c with wake := true })).cpu.wake = true ∧ cached.cpu.wake = false ∧ cached.cpu.running = true ∧
      (on cached (fun c => { c with asleep := true, wake := true })).cpu.asleep = true ∧
      (on cached (fun c => { c with asleep := true, wake := true })).cpu.wake = true ∧ cached.cpu.asleep = false) ∧
    (∀ cause ∈ [0, 1, 0x0D, 0x16, 0x17], (1 ≤ cause ∧ cause ≤ 0x16 ∧ cause ≠ 0x0D ∧ cause ≠ 0x0F ∧ cause ≠ 0x13 ↔
      cause = 1 ∨ cause = 0x16)) ∧
    (let s := on inHandler (fun c => { c with replay := [] })
     s.cpu.executes 7 = true ∧ s.cpu.handler = true ∧ s.cpu.pending = [] ∧ s.cpu.replay = []) ∧
    (let s := withX inHandler [(6, 0x9F)]
     s.cpu.ready [5, 6, 7] = true ∧ (s.x 6).toNat < 256 ∧ (s.x 6).getLsbD 7 = true ∧ ((s.x 6).extractLsb' 5 2).toNat = 0 ∧
       s.cpu.poison.contains (.x ((s.x 6).extractLsb' 0 5).toNat) = false ∧
       (on s (fun c => { c with poison := [.x 31] })).cpu.poison.contains (.x ((s.x 6).extractLsb' 0 5).toNat) = true) ∧
    (let s := withX inHandler [(6, 0x21)]
     (s.x 6).toNat < 128 ∧ (s.cpu.replay[((s.x 6).extractLsb' 0 5).toNat]?).isSome = true ∧ ((s.x 6).extractLsb' 5 2).toNat = 1) ∧
    ((((withX inHandler [(6, 0x41)]).x 6).extractLsb' 5 2).toNat = 2 ∧ (((withX inHandler [(6, 0x61)]).x 6).extractLsb' 5 2).toNat = 3) ∧
    256 ≤ ((withX inHandler [(6, 256)]).x 6).toNat ∧
    (let s := withX inHandler [(6, 2)]
     (s.x 6).getLsbD 7 = false ∧ s.cpu.replay.length ≤ ((s.x 6).extractLsb' 0 5).toNat) := by
  decide +kernel

/-- RqdropRemovesOneEntry: an entry with no holds and one with holds, and an index with no entry. -/
theorem witness_RqdropRemovesOneEntry :
    (inHandler.cpu.executes 7 = true ∧ inHandler.cpu.ready [6] = true ∧ inHandler.cpu.handler = true ∧
      ∃ e, inHandler.cpu.replay[(inHandler.x 6).toNat]? = some e ∧ e.hold = none) ∧
    inHandler.cpu.replay.length ≤ ((withX inHandler [(6, 2)]).x 6).toNat ∧ cached.cpu.handler = false ∧
    (let s := on inHandler (fun c => { c with replay := [{ command (.opu 1 2 7) .state with hold := some 9 }] })
     ∃ e, s.cpu.replay[(s.x 6).toNat]? = some e ∧ e.hold = some 9) :=
  ⟨⟨by decide +kernel, by decide +kernel, rfl, _, rfl, rfl⟩, by decide +kernel, rfl, _, rfl, rfl⟩

/-- A cell whose node has the whole scratchpad as its window, with a team of four cells. -/
def whole : State := on cached (fun c => { c with winSize := 2 ^ 22, tsize := 4 })

theorem ready_of (r : BitVec 3) (vs : List (BitVec 5)) (s : State) (h : s.cpu.executes r = true)
    (a : s.cpu.notAllotted (vs.map BitVec.toNat) = none) (i : s.cpu.pending = []) (e : s.cpu.eager = true)
    (p : s.cpu.poison = [] := by rfl) : VectorReady r vs s :=
  ⟨h, a, p, i, e⟩

/-- LaneOperationsWriteTheirLanes, UnaryLaneWords, MaskAndScalarWords, ReductionsUseTheFixedTree, VselChoosesUnderK0,
LanesCompressSortAndPack and SoftmaxStepUpdatesItsState: an idle eager cell and allotted registers, up to the last one; a format register that decodes;
a mask register with a lowest bit, and one that is clear. -/
theorem witness_FormatV :
    VectorReady 7 [7, 0, 6] cached ∧ decodeDesc cached.cpu.fm[mod16 15] = some fp32 ∧ (5 : BitVec 5) ≠ 6 ∧
    (let s := on cached (fun c => { c with k := Vector.replicate 8 0x80000000 })
     (s.cpu.rk 3).getLsbD 31 = true ∧ ∀ j, j < 31 → (s.cpu.rk 3).getLsbD j = false) ∧ cached.cpu.rk 3 = 0 ∧
    (16 : BitVec 5).toNat ≤ 16 :=
  ⟨ready_of _ _ _ rfl (by decide) rfl rfl, by decide +kernel, by decide, by decide +kernel, by decide, by decide⟩

/-- UnallottedRegistersTrap: the lowest register past an allotment of 8. -/
theorem witness_UnallottedRegistersTrap :
    let traps (vs : List Nat) (n : Nat) : Prop :=
      n ∈ vs ∧ cached.cpu.valloc ≤ n ∧ ∀ k ∈ vs, cached.cpu.valloc ≤ k → n ≤ k
    cached.cpu.executes 7 = true ∧ traps [31, 8, 7] 8 ∧ traps [31, 7] 31 ∧ traps [31, 8] 8 ∧ traps [8] 8 ∧ traps [31] 31 ∧
    traps [0, 8] 8 ∧ traps ((List.range 8).map (fun q => (31 : BitVec 5).toNat + q)) 31 ∧
    traps ((List.range 4).map (fun q => (5 : BitVec 5).toNat + q)) 8 := by
  decide +kernel

/-- ScratchpadLanes: lanes inside the window whose lines are full and sound; a bad offset, a bad stride, and lanes of which the
last leaves the window. -/
theorem witness_ScratchpadLanes :
    (VectorReady 7 [5] whole ∧ whole.MemOk) ∧
    (laneCheck whole.cpu (whole.x 6) 4 = none ∧ whole.spBlocked (laneRuns (whole.x 6) 4) = false ∧
      whole.spPoisoned (laneRuns (whole.x 6) 4) = none) ∧
    ((2 ^ 22 ≤ (0x400000#64).toNat ∨ (0x400000#64).toNat % 4 ≠ 0) ∧ ¬ (2 ^ 22 ≤ (0x3FFFFC#64).toNat ∨ (0x3FFFFC#64).toNat % 4 ≠ 0) ∧
      (2 ^ 22 ≤ (6#64).toNat ∨ (6#64).toNat % 4 ≠ 0)) ∧
    (let s := on whole (fun c => { c with winSize := 124 })
     (∀ j, j < 31 → s.cpu.outside ((0 + j * 4) % 2 ^ 22) 4 = none) ∧ s.cpu.outside ((0 + 31 * 4) % 2 ^ 22) 4 = some 124) := by
  refine ⟨⟨ready_of _ _ _ rfl (by decide) rfl rfl, ?_⟩, by decide +kernel, by decide, by decide +kernel⟩
  unfold State.MemOk
  decide +kernel

/-- TilesMoveThroughViews: a view inside the window, its lines full and sound. -/
theorem witness_TilesMoveThroughViews :
    let s := withX whole [(6, 0x100 + 128 * 2 ^ 22), (7, 3 * 2 ^ 22)]
    VectorReady 7 [] s ∧ viewOf s.cpu 6 = .ok ⟨0x100, 128, 0, 3⟩ ∧
      s.spBlocked (Pair.rows ⟨0x100, 128, 0, 3⟩ s.cpu.loopValue) = false ∧
      s.spPoisoned (Pair.rows ⟨0x100, 128, 0, 3⟩ s.cpu.loopValue) = none :=
  ⟨ready_of _ _ _ rfl (by decide) rfl rfl, by decide +kernel, by decide +kernel, by decide +kernel⟩

/-- LinesAreMarkedAndCleared: the last line of the scratchpad with a count of 0 and of 1, an offset that is no line's, a run that leaves
the window, a queue of each number and a number of none, a vlds whose lines are full and one that waits for a line, a window being
zeroed and one that is not. -/
theorem witness_LinesAreMarkedAndCleared :
    (let s := withX whole [(6, 0x3FFF80), (7, 1)]
     s.cpu.executes 7 = true ∧ s.cpu.ready [6, 7] = true ∧ (s.x 6).toNat < 2 ^ 22 ∧ (s.x 6).toNat % 128 = 0 ∧ 0 < (s.x 7).toNat ∧
       s.cpu.outside (s.x 6).toNat (128 * min (s.x 7).toNat 32768) = none ∧
       s.cpu.rangesBusy [rangeOf true [((s.x 6).toNat, 128 * min (s.x 7).toNat 32768)]] = false ∧ (whole.x 7).toNat = 0) ∧
    (¬ ((0x400000#64).toNat < 2 ^ 22 ∧ (0x400000#64).toNat % 128 = 0) ∧ ¬ ((64#64).toNat < 2 ^ 22 ∧ (64#64).toNat % 128 = 0) ∧
      (on whole (fun c => { c with winSize := 128 })).cpu.outside 0 256 = some 128) ∧
    (queueOf (1#3).toNat = some .load ∧ queueOf (4#3).toNat = some .matrix ∧ queueOf (5#3).toNat = some .state ∧
      queueOf (0#3).toNat = none) ∧
    (let w := command (.vlds 5 6 3 7) .load
     let s := on whole (fun c => { c with pending := [w] })
     s.cpu.pending = [w] ∧ w.queue = .load ∧ w.progress = 0 ∧ laneCheck s.cpu w.op0 w.op1 = none ∧
       (∀ i, i < 32 → spLineNo s.cpu.cluster (w.op0.toNat + i * w.op1.toNat) ∉ s.spEmpty) ∧
       s.spPoisoned ((List.range 32).map (fun i => (w.op0.toNat + i * w.op1.toNat, 4))) = none ∧
       0 < 32 ∧ spLineNo s.cpu.cluster (w.op0.toNat + 0 * w.op1.toNat) ∈ ({ s with spEmpty := [0] } : State).spEmpty) ∧
    (let z : Zeroing := ⟨0, 0, 2 ^ 22⟩
     [z].find? (fun z => z.cluster == 0 && z.base == 0) = some z ∧ [z].find? (fun z => z.cluster == 0 && z.base == 128) = none) ∧
    whole.MemOk := by
  refine ⟨by decide +kernel, by decide +kernel, by decide +kernel, by decide +kernel, by decide +kernel, ?_⟩
  unfold State.MemOk
  decide +kernel

/-- A team of four cells, each with its sprot at row 31. -/
def rotating : State :=
  let cell (n : Nat) : Cell := { whole.cpu with
    id := n
    pos := n
    pending := [{ command (.sprot 6 7) .store with aux := 1, progress := 31, op0 := Pair.compact ⟨0, 128, 0, 0⟩ }] }
  { whole with cpu := cell 0, cells := [cell 1, cell 2, cell 3] }

/-- RotationMovesRowsTogether: a view that passes the checks with no other cell there, and a team that is ready. -/
theorem witness_RotationMovesRowsTogether :
    (let s := withX whole [(6, 128 * 2 ^ 22)]
     VectorReady 7 [] s ∧ rotCheck s.cpu 6 = .ok ⟨0, 128, 0, 0⟩ ∧ s.cells = []) ∧
    (rotating.MemOk ∧ ∃ cmds, rotReady rotating = some cmds ∧ (∀ q ∈ cmds, q.2.2.progress = 31) ∧
      (let src (q : Cell × Nat × Cmd) : Nat := rotSource (Pair.ofCompact q.2.2.op0) q.2.2.lv q.1.pos 31
       let dst (q : Cell × Nat × Cmd) : Nat := rotDest (Pair.ofCompact q.2.2.op0) q.2.2.lv q.1.pos 31
       rotating.spBlocked (cmds.map (fun q => (src q, 128))) = false ∧
       rotating.spPoisoned (cmds.map (fun q => (src q, 128))) = none ∧
       (∀ q ∈ cmds, dst q % 128 = 0) ∧ cmds.Pairwise (fun p q => dst p ≠ dst q))) := by
  refine ⟨⟨ready_of _ _ _ rfl (by decide) rfl rfl, by decide +kernel, rfl⟩, ?_, (rotReady rotating).getD [], ?_, ?_, ?_⟩
  · unfold State.MemOk
    decide +kernel
  · decide +kernel
  · decide +kernel
  · decide +kernel

/-- A ring unit of two slots of one line, its handle q3 bound by the acting cell. -/
def ringed (u : Ring) : State :=
  { on whole (fun c => { c with q := c.q.set 3 (some 0) }) with rings := [u] }
def emptyRing : Ring := Ring.fresh 0 0 0 9 (0x100 + 1 * 2 ^ 22 + 2 * 2 ^ 36)

/-- RingsAndHandovers: geometries that fit and do not, a known unit and a free one, a handle that binds nothing; slots to claim,
commit, take and free; and for a hand-over: another role, a role with no cell, the sender, and the receiver before and after
the commit. -/
theorem witness_RingsAndHandovers :
    (let g : Word := 0x100 + 1 * 2 ^ 22 + 2 * 2 ^ 36
     let s := withX whole [(6, g), (7, 9)]
     s.cpu.executes 7 = true ∧ s.cpu.ready [6, 7, 5] = true ∧ s.x 6 ≠ 0 ∧ whole.x 6 = 0 ∧ (s.x 7).toNat < 65536 ∧
       geomOk (s.x 6) = true ∧ s.cpu.outside (geomBase g) (128 * geomSize g * geomSlots g) = none ∧
       (s.rings.find? (fun u => u.cluster == s.cpu.cluster && u.firing == s.cpu.firing && u.key == 9)) = none ∧
       (∀ u ∈ s.rings, u.cluster = s.cpu.cluster → u.unit ≠ 0) ∧ geomOk 0x101 = false ∧ s.ringOf 5 = none) ∧
    ((ringed emptyRing).rings.find? (fun u => u.cluster == 0 && u.firing == 0 && u.key == 9) = some emptyRing ∧
      (ringed emptyRing).ringOf 3 = some emptyRing ∧ emptyRing.waiters = [] ∧ emptyRing.handovers = [] ∧ emptyRing.room ≠ 0 ∧
      (ringed emptyRing).cpu.pending = [] ∧ (ringed emptyRing).releaseWaits 1 = false ∧ 0 ≤ emptyRing.filled ∧
      2 ≤ emptyRing.room) ∧
    (let u := { emptyRing with claimed := 1, pClaimed := 1, slots := [.claimed, .free] }
     0 < u.nslots ∧ u.slot 0 = .claimed) ∧
    (let u := { emptyRing with claimed := 1, head := 1, pClaimed := 1, pHead := 1, slots := [.filled, .free] }
     u.filled ≠ 0 ∧ u.slot u.pTaken = .filled) ∧
    (let u := { emptyRing with claimed := 1, head := 1, taken := 1, slots := [.taken, .free] }
     u.slot 0 = .taken) ∧
    (let s := on (ringed emptyRing) (fun c => { c with roleCounts := [1, 1, 0, 0, 0, 0, 0], eager := false })
     (2#8).toNat ≤ emptyRing.nslots ∧ s.cpu.role ≠ 1 ∧ s.cpu.role ≠ 2 ∧ s.cpu.role = 0 ∧ s.cpu.roleCount 2 = 0 ∧
       s.cpu.roleCount 0 ≠ 0 ∧ s.cpu.roleCount 1 ≠ 0 ∧ s.cpu.pending = [] ∧ s.cpu.eager = false ∧ s.releaseWaits 1 = false ∧
       emptyRing.head = emptyRing.claimed ∧ (2#8).toNat ≤ emptyRing.room) ∧
    (let h : Handover := ⟨0, 0, 3, 0, 1, 2, 0, 0, true, [0], false⟩
     let u := { emptyRing with claimed := 2, slots := [.filled, .filled], head := 2, handovers := [h] }
     let s := on (ringed u) (fun c => { c with role := 1, roleCounts := [1, 1, 0, 0, 0, 0, 0] })
     s.ringOf 3 = some u ∧ s.cpu.received = [] ∧ u.handovers = [h] ∧ h.committed = false ∧ h.h0 = u.taken ∧
       h.complete (s.roleSize u.firing h.sender) = true ∧ ({ h with committed := true } : Handover).committed = true) := by
  decide +kernel

/-- A probe region of two slots of one line. -/
def probing (slots : List ProbeSlot) : State := { whole with probes := [⟨0, 0, 1, 0, 0x1000, 0, slots, 4⟩] }

/-- A slot that holds the block at 0x2000, Valid or Filling, pinned or not, and one that holds another block. -/
def heldSlot (filling pinned : Bool) : ProbeSlot := ⟨some 0x2000, filling, !filling, pinned, 3, 0x2000, 0⟩
def otherSlot : ProbeSlot := ⟨some 0x6000, false, true, false, 2, 0x6000, 0⟩

/-- ProbesAndFills, the words: for prcfg, no region and an idle one, a bad operand, a region that leaves the window, a slot that fills,
too few tags and enough; a tag that a slot holds, pinned and not; one that none holds with a Free slot, with an old one, and with
none to take, the lines of the slot in use and not; a number past the slots, of a Free slot and of a Valid one. -/
theorem witness_ProbeWords :
    (let s := withX whole [(6, 0x1000), (7, 2)]
     s.cpu.executes 7 = true ∧ s.cpu.ready [5, 6, 7] = true ∧ s.probeRegion = none ∧
       ¬ (2 ^ 25 ≤ (s.x 6).toNat ∨ 4 < ((s.x 6).extractLsb' 22 3).toNat ∨ ((s.x 6).extractLsb' 0 22).toNat % blockBytes 0 ≠ 0 ∨
         1024 < (s.x 7).toNat ∨ 2 ^ 22 < 0x1000 + 2 * blockBytes 0) ∧ 2 ^ 25 ≤ (0x2000000#64).toNat ∧
       s.cpu.outside 0x1000 (2 * blockBytes 0) = none ∧ 2 ≤ s.freeTags s.cpu.cluster ∧
       (on whole (fun c => { c with winSize := 0x1000 })).cpu.outside 0x1000 (2 * blockBytes 0) = some 0x1000) ∧
    (let full : State := { whole with probes := [⟨0, 99, 1, 0, 0x1000, 0, List.replicate 1023 .free, 4⟩] }
     full.probeRegion = none ∧ full.freeTags 0 < 2) ∧
    (let s := probing [heldSlot true false]
     ∃ p, s.probeRegion = some p ∧ heldSlot true false ∈ p.slots ∧ (heldSlot true false).filling = true) ∧
    (let s := withX (probing [.free, heldSlot false false]) [(6, 0x2000)]
     ∃ p, s.probeRegion = some p ∧ 1 < p.slots.length ∧ (p.slots.getD 1 .free).valid = true ∧
       (p.slots.getD 1 .free).tag = some (s.x 6) ∧ (p.slots.getD 0 .free).tag ≠ some (s.x 6) ∧ (s.x 6).toNat % blockBytes p.code = 0 ∧
       (1#64).toNat % blockBytes p.code ≠ 0 ∧ (p.slots.getD 1 .free).pinned = false ∧ (heldSlot false true).pinned = true ∧
       (∀ x ∈ p.slots, x.filling = false)) ∧
    (let s := withX (probing [otherSlot, .free]) [(6, 0x2000)]
     ∃ p, s.probeRegion = some p ∧ (∀ x ∈ p.slots, x.tag ≠ some (s.x 6)) ∧ 1 < p.slots.length ∧
       (p.slots.getD 1 .free).filling = false ∧ (p.slots.getD 1 .free).valid = false ∧ (p.slots.getD 0 .free).valid = true ∧
       s.cpu.rangesBusy [⟨p.line 1, p.lines, true⟩] = false ∧
       (on s (fun c => { c with pending := [{ command (.vlds 5 6 3 7) .load with ranges := [⟨p.line 1, 1, false⟩] }] })).cpu.rangesBusy
         [⟨p.line 1, p.lines, true⟩] = true) ∧
    (let s := withX (probing [otherSlot]) [(6, 0x2000)]
     ∃ p, s.probeRegion = some p ∧ (∀ x ∈ p.slots, x.tag ≠ some (s.x 6)) ∧ (p.slots.getD 0 .free).valid = true ∧
       (p.slots.getD 0 .free).pinned = false ∧ p.slots.length = 1) ∧
    (let s := withX (probing [{ otherSlot with pinned := true }]) [(6, 0x2000)]
     ∃ p, s.probeRegion = some p ∧ (∀ x ∈ p.slots, x.tag ≠ some (s.x 6)) ∧ (∀ x ∈ p.slots, x.valid = true ∧ x.pinned = true)) ∧
    (let s := withX (probing [.free, heldSlot false false]) [(6, 1)]
     ∃ p, s.probeRegion = some p ∧ (s.x 6).toNat < p.slots.length ∧ (p.slots.getD (s.x 6).toNat .free).valid = true ∧
       (p.slots.getD 0 .free).filling = false ∧ (p.slots.getD 0 .free).valid = false ∧ p.slots.length ≤ (2#64).toNat) := by
  refine ⟨by decide +kernel, by decide +kernel, ⟨_, rfl, by decide +kernel, rfl⟩, ⟨_, rfl, by decide +kernel⟩, ⟨_, rfl, by decide +kernel⟩,
    ⟨_, rfl, by decide +kernel⟩, ⟨_, rfl, by decide +kernel⟩, ⟨_, rfl, by decide +kernel⟩⟩

/-- ProbesAndFills, the fills: a slot that fills and one that does not, a fill that reaches its line, one that does not translate and
one that waits for its channel, and the line that is written. -/
theorem witness_ProbeFills :
    let s := probing [heldSlot true false, heldSlot false false]
    let llTlb := [(0, ⟨1, 0, 30, 0x1F⟩)]
    let die := stackDie s.fuses (0 / 16)
    let u : State := { s with llTlb := llTlb }
    (∃ p, s.probes.find? (fun q => q.cluster == 0 && q.firing == 0) = some p ∧ p.slots[0]? = some (heldSlot true false) ∧
      p.slots[1]? = some (heldSlot false false)) ∧
    (heldSlot true false).filling = true ∧ (heldSlot false false).filling = false ∧
    (fillLines 1 die 0 1 0x2000 0x20 u).2.2 = .full ∧ (fillLines 1 die 0 1 0x2000 0x20 s).2.2 = .fault 4 ∧
    (fillLines 1 die 0 1 0x200 0x20 (banksTaken u)).2.2 = .wait ∧
    (let x := translateFor u 1 die 0x2000 .read
     isOk x = true ∧ isDevice (place x).pa = false ∧ (after x).homeWaits ((after x).key (place x)) = false ∧
       poisonedIn (after x).memPoison ((after x).key (place x)) 128 = false) ∧ s.MemOk := by
  refine ⟨⟨_, rfl, rfl, rfl⟩, rfl, rfl, by decide +kernel, by decide +kernel, by decide +kernel, by decide +kernel, ?_⟩
  unfold State.MemOk
  decide +kernel

/-- ProductsFillTheirSlot, SlotWords and EpilogueDrainsTheOldestSlot: a slot live in the ring, an entry of a format of 8 bits and one of FP32, tile registers and views as
operands, an offset past the live slots, room for the slots of an accz and none, registers that fit a run, values of the queue
controls, and an epilogue of one slot to a tile register and to a view. -/
def slotted : State := on whole (fun c => { c with accH := 1, ft := Vector.replicate 64 (0x39 + 0x39 * 2 ^ 20 + 0x30001 * 2 ^ 40 + 2 ^ 60) })

theorem witness_MatrixWords :
    VectorReady 7 [] slotted ∧ slotted.cpu.replay = [] ∧ slotted.MemOk ∧
    (isFp32 (entryA slotted.cpu.ftEntry) = false ∧ isFp32 (entryB slotted.cpu.ftEntry) = false ∧
      entryN slotted.cpu.ftEntry ≠ 0 ∧ (0#4).toNat < slotted.cpu.live ∧ operandCheck slotted.cpu 0 2 (companionA true) = .ok 0 ∧
      (let s := withX slotted [(4, 0x100 + 128 * 2 ^ 22)]
       ∀ sparse ∈ [false, true],
         let e := s.cpu.ftEntry
         let w : Word := 0x100 + 128 * 2 ^ 22
         operandCheck s.cpu 1 4 (companionB false e) = .ok w ∧
         s.spBlocked (neededRuns w s.cpu.loopValue (needA sparse e) ++ neededRuns w s.cpu.loopValue (needB sparse e)) = false ∧
         s.spPoisoned (neededRuns w s.cpu.loopValue (needA sparse e) ++ neededRuns w s.cpu.loopValue (needB sparse e)) = none)) ∧
    (let s := on slotted (fun c => { c with ft := Vector.replicate 64 (0x30001 + 0x39 * 2 ^ 20 + 0x30001 * 2 ^ 40 + 2 ^ 60) })
     isFp32 (entryA s.cpu.ftEntry) = true ∧ s.cpu.live ≤ (1#4).toNat ∧ (7 : BitVec 5).toNat < s.cpu.valloc ∧
       s.cpu.accS < s.cpu.live + (7#4).toNat + 1 ∧ isNaN32 0x7FC00000 = true ∧ (val32 0x7FC00000).isNaN = true) ∧
    (slotted.cpu.accS ≤ 24 ∧ slotted.cpu.live + (6#4).toNat + 1 ≤ slotted.cpu.accS) ∧
    (slotted.cpu.notAllotted (regRun 1 4) = none ∧ (4 : BitVec 5).toNat + 4 ≤ 32 ∧ VectorReady 7 [7] slotted) ∧
    (let s := on slotted (fun c => { c with pending := [command (.accz 0 7) .matrix] })
     s.cpu.queueFull .matrix = false ∧ s.cpu.rangesUsed ≤ 64 ∧ ∃ d ∈ s.cpu.pending, d.queue = .matrix) ∧
    (((withX slotted [(6, 0xC)]).x 6).toNat < 16 ∧ (((withX slotted [(6, 0xC)]).x 6).extractLsb' 0 3).toNat ≤ 4 ∧
      ((withX slotted [(6, 63)]).x 6).toNat < 64 ∧ 16 ≤ ((withX slotted [(6, 16)]).x 6).toNat ∧
      64 ≤ ((withX slotted [(6, 64)]).x 6).toNat) ∧
    (let s := withX slotted [(4, 0x100 + 128 * 2 ^ 22)]
     let w := s.x 7
     epiCount w = 1 ∧ (∀ j, j < epiCount w → s.cpu.accTag[s.cpu.slotIx (s.cpu.accT.toNat + j)].ofmt =
         s.cpu.accFmt[s.cpu.slotIx (s.cpu.accT.toNat + j)]) ∧
       s.spBlocked (epiLines w) = false ∧ s.spPoisoned (epiLines w) = none ∧ epiCheck s.cpu w 3 0 = .ok 0 ∧
       epiCheck s.cpu w 4 1 = .ok (0x100 + 128 * 2 ^ 22)) := by
  refine ⟨ready_of _ _ _ rfl (by decide) rfl rfl, rfl, ?_, by decide +kernel, by decide +kernel, by decide +kernel,
    ⟨by decide +kernel, by decide, ready_of _ _ _ rfl (by decide) rfl rfl⟩,
    ⟨by decide +kernel, by decide +kernel, _, List.mem_singleton_self _, rfl⟩, by decide +kernel, by decide +kernel⟩
  unfold State.MemOk
  decide +kernel

/-- A cell whose first 2 MiB are the sync window of die 0, with an object at its start. -/
def synced (b : Barrier) : State :=
  { on cached (fun c => { c with tlb := [⟨1, 0, 21, 2 ^ 43 + 0x21F⟩] }) with mem := writeBytes [] (2 ^ 43) b.bytes }
def armed : Barrier := ⟨false, true, false, 2, 2, 1, 0, 0, 0, 0⟩

def reachesBarrierB (s : State) (va : Word) (a : Access) : Bool :=
  let x := translate s va a
  decide (va.toNat % 32 = 0) && isOk x && isSync (place x).pa && !(after x).isOffline (homeDie (after x).fuses (place x)) &&
    !(after x).bytesBusy ((after x).key (place x)) 32 && (!a.writes || !(after x).cpu.readsPending)

theorem reaches_barrier (s : State) (va : Word) (a : Access) (h : reachesBarrierB s va a = true) :
    ReachesBarrier s va a ((after (translate s va a)).key (place (translate s va a))) (after (translate s va a)) := by
  simp only [reachesBarrierB, Bool.and_eq_true, decide_eq_true_eq, Bool.or_eq_true, Bool.not_eq_true'] at h
  exact ⟨h.1.1.1.1.1, ⟨_, _, ok_parts _ h.1.1.1.1.2, h.1.1.1.2, h.1.1.2, rfl⟩, h.1.2, fun w => by simpa [w] using h.2⟩

/-- BarriersCountArrivals: an object that is valid and one that is not, counts at the ends of their range,
an arrival that is not the last one and one that is. -/
theorem witness_BarriersCountArrivals :
    (∃ key s1, ReachesBarrier (synced armed) 0 .write key s1 ∧ (s1.barrier key).valid = true ∧
      (s1.barrier key).expected + (s1.barrier key).join - (s1.barrier key).drop < 2 ^ 16) ∧
    (∃ key s1, ReachesBarrier (synced { armed with valid := false }) 0 .write key s1 ∧ (s1.barrier key).valid = false) ∧
    ((synced armed).cpu.executes 7 = true ∧ (synced armed).cpu.ready [5, 6, 7] = true ∧ (synced armed).cpu.ctx < 2 ^ 16 ∧
      0 < ((withX (synced armed) [(7, 65535)]).x 7).toNat ∧ ((withX (synced armed) [(7, 65535)]).x 7).toNat < 2 ^ 16 ∧
      2 ^ 16 ≤ ((withX (synced armed) [(7, 65536)]).x 7).toNat ∧ (synced armed).cpu.memoryQuiet = true ∧
      ((withX (synced armed) [(7, 2 ^ 47 - 1)]).x 7).toNat < 2 ^ 47) ∧
    (∃ key s1, ReachesBarrier (synced armed) 0 .write key s1 ∧ s1.releaseWaits 4 = false ∧
      (let o := ((s1.syncTouch key).release 4).barrier key
       o.valid = true ∧ o.overrun = false ∧ 1 < o.remaining ∧ o.pending + 5 < 2 ^ 47 ∧ o.drop + 1 < 2 ^ 16 ∧ o.join + 1 < 2 ^ 16 ∧
         o.drop + 1 ≤ o.expected + o.join ∧ o.expected + o.join + 1 < 2 ^ 16 + o.drop)) ∧
    (∃ key s1, ReachesBarrier (synced { armed with remaining := 1 }) 0 .write key s1 ∧
      (((s1.syncTouch key).release 4).barrier key).remaining = 1 ∧ (((s1.syncTouch key).release 4).barrier key).pending = 0) ∧
    (synced armed).MemOk := by
  refine ⟨⟨_, _, reaches_barrier _ _ _ (by decide +kernel), by decide +kernel, by decide +kernel⟩,
    ⟨_, _, reaches_barrier _ _ _ (by decide +kernel), by decide +kernel⟩, by decide +kernel,
    ⟨_, _, reaches_barrier _ _ _ (by decide +kernel), by decide +kernel, by decide +kernel⟩,
    ⟨_, _, reaches_barrier _ _ _ (by decide +kernel), by decide +kernel, by decide +kernel⟩, ?_⟩
  unfold State.MemOk
  decide +kernel

/-- WaitsEndOnTheirCondition: an object read at its parity and at the other, a
waiter woken and one that is not, a subtraction that does and one that does not end a phase, one that an urgent one comes before, and a word that differs from its operand
and one that does not. -/
theorem witness_WaitsEndOnTheirCondition :
    (∃ key s1, ReachesBarrier (synced armed) 0 .read key s1 ∧ (synced armed).waitOf 32 = none ∧ (s1.barrier key).valid = true ∧
      (s1.barrier key).parity ≠ (1#64).getLsbD 0 ∧ (s1.barrier key).parity = (0#64).getLsbD 0) ∧
    (∃ key s1, ReachesBarrier (synced { armed with valid := false }) 0 .read key s1 ∧ (s1.barrier key).valid = false) ∧
    ((1#64).toNat < 2 ∧ 2 ≤ (2#64).toNat) ∧
    (let w : WaitRecord := ⟨0, 2 ^ 43, 32, 1, 0, true, 0, 0⟩
     ({ cached with waits := [w] } : State).waitOf 32 = some w ∧
       ({ cached with waits := [{ w with woken := false }] } : State).waitOf 32 = some { w with woken := false }) ∧
    (let x : Subtraction := ⟨2 ^ 43, 8, 1, [], false⟩
     let s : State := { synced { armed with pending := 8 } with subtractions := [x] }
     s.subtractions[0]? = some x ∧ s.maySubtract 0 x = true ∧ (s.barrier (2 ^ 43)).valid = true ∧
       (let t : State := { s with subtractions := [x, { x with urgent := true }] }
        t.subtractions[1]? = some { x with urgent := true } ∧ t.maySubtract 1 { x with urgent := true } = true ∧
          t.maySubtract 0 x = false) ∧
       (s.barrier (2 ^ 43)).overrun = false ∧ -2 ^ 47 ≤ (s.barrier (2 ^ 43)).pending - 8 ∧ 0 < (s.barrier (2 ^ 43)).remaining ∧
       (s.barrier (2 ^ 43)).expected + (s.barrier (2 ^ 43)).join - (s.barrier (2 ^ 43)).drop < 2 ^ 16) ∧
    (let s : State := { synced { armed with pending := 8, remaining := 0 } with subtractions := [⟨2 ^ 43, 8, 1, [], false⟩] }
     (s.barrier (2 ^ 43)).remaining = 0 ∧ (s.barrier (2 ^ 43)).pending = 8) ∧
    (let w : WaitRecord := ⟨1, 2 ^ 43, 32, BitVec.ofNat 64 armed.parity.toNat, 0, false, 0, 0⟩
     w.bytes = 32 ∧ w.key = 2 ^ 43 ∧ w.woken = false ∧ w ∈ [w]) ∧
    (let s := withX uncached [(6, 0x200)]
     let x := translate s (s.x 6) .read
     s.cpu.executes 7 = true ∧ s.cpu.ready [5, 6, 7] = true ∧ s.waitOf 8 = none ∧ (s.x 6).toNat % 8 = 0 ∧ isOk x = true ∧
       isHbm (place x).pa = true ∧ isDevice (place x).pa = false ∧
       (after x).isOffline (homeDie (after x).fuses (place x)) = false ∧ (after x).bytesBusy ((after x).key (place x)) 8 = false ∧
       inTurnB (after x) (place x) false = true ∧ atHomeB ((after x).selfFlush (place x) 8) (place x) 8 = true ∧
       BitVec.ofNat 64 (readLE ((after x).selfFlush (place x) 8).mem ((after x).key (place x)) 8) = s.x 7 ∧
       BitVec.ofNat 64 (readLE ((after x).selfFlush (place x) 8).mem ((after x).key (place x)) 8) ≠ (withX s [(7, 1)]).x 7) ∧
    (let w : WaitRecord := ⟨0, 0x200, 8, 1, 5, true, 0x200, 0⟩
     let u : State := { cached with waits := [w] }
     u.waitOf 8 = some w ∧ u.homeWaits 0x200 = false ∧ poisonedIn u.memPoison 0x200 8 = false ∧
       BitVec.ofNat 64 (readLE u.mem 0x200 8) ≠ (1 : Word) ∧ BitVec.ofNat 64 (readLE u.mem 0x200 8) = (0 : Word)) := by
  refine ⟨⟨_, _, reaches_barrier _ _ _ (by decide +kernel), by decide +kernel⟩,
    ⟨_, _, reaches_barrier _ _ _ (by decide +kernel), by decide +kernel⟩, by decide +kernel, by decide +kernel,
    by decide +kernel, by decide +kernel, by decide +kernel, by decide +kernel, by decide +kernel⟩

/-- ReductionsApplyAtMemory: a row that is reached and applied, cached and not, no reduction under way, and one that is, sent by this
cell, with a row that is sound, one with a poisoned word and one with a valid barrier. Sums that overflow and none that does. -/
theorem witness_ReductionsApplyAtMemory :
    (∃ p s1, ReachesRow (withX uncached [(6, 0x200)]) 0x200 p s1 ∧ p.pol ≠ 0 ∧
      s1.homeWaits (s1.key p) = false ∧ s1.barrierIn (s1.key p) 128 = false ∧ poisonedIn s1.memPoison (s1.key p) 128 = false ∧
        (combineRow 0 (BitVec.ofNat 1024 (readLE s1.mem (s1.key p) 128)) (s1.cpu.rv 7)).2.1 = 0) ∧
    (∃ p s1, ReachesRow (withX cached [(6, 0x200)]) 0x200 p s1 ∧ p.pol = 0 ∧
      (s1.writeBack p.line).homeWaits (s1.key p) = false ∧ (s1.writeBack p.line).barrierIn (s1.key p) 128 = false ∧
      poisonedIn (s1.writeBack p.line).memPoison (s1.key p) 128 = false) ∧
    (let x : Reduction := ⟨0, 1, 0, 0, 0x200, 0x200, 0, 0, false⟩
     VectorReady 7 [7] uncached ∧ uncached.inFlight < 64 ∧ uncached.MemOk ∧
       ({ uncached with reductions := uncached.reductions ++ [x] } : State).mayApply uncached.reductions.length x = true) ∧
    (uncached.cpu.executes 7 = true ∧ uncached.cpu.ready [5] = true ∧ uncached.cpu.pending.any Cmd.isReda = false ∧
      uncached.inFlight = 0) ∧
    (let x : Reduction := ⟨0, 1, 0, 0, 0x200, 0x200, 2, 5, false⟩
     let s : State := { uncached with reductions := [x] }
     s.reductions[0]? = some x ∧ s.mayApply 0 x = true ∧ x.cell = s.cpu.id ∧ s.homeWaits 0x200 = false ∧
       s.barrierIn 0x200 128 = false ∧ poisonedIn s.memPoison 0x200 128 = false ∧
       poisonedIn ({ s with memPoison := [0x41] } : State).memPoison 0x200 128 = true ∧
       (synced armed).barrierIn (2 ^ 43) 128 = true ∧ (synced armed).homeWaits (2 ^ 43) = false ∧
       (combineRow 2 (BitVec.ofNat 1024 (readLE s.mem 0x200 128)) 5).2.1 = 0) ∧
    ((0x7FFFFFFF#32).saddOverflow 1 = true ∧ ∀ j, j < 32 → (lane (5 : VReg) j).saddOverflow (lane 5 j) = false) := by
  refine ⟨⟨_, _, ⟨by decide, ⟨_, ok_parts (translate (withX uncached [(6, 0x200)]) 0x200 .write) (by decide +kernel)⟩,
      by decide +kernel, by decide +kernel⟩, by decide +kernel⟩,
    ⟨_, _, ⟨by decide, ⟨_, ok_parts (translate (withX cached [(6, 0x200)]) 0x200 .write) (by decide +kernel)⟩,
      by decide +kernel, by decide +kernel⟩, by decide +kernel⟩,
    ⟨ready_of _ _ _ rfl (by decide) rfl rfl, by decide +kernel, ?_, by decide +kernel⟩, by decide +kernel, by decide +kernel,
    by decide +kernel⟩
  unfold State.MemOk
  decide +kernel

/-- VectorMemoryMovesLanes: one leaf that can be read and written and is not of the L1, with every lane of both kinds inside it, the
same leaf through the L1 with a line that holds every lane, and a compute-capable one whose bank has an owner and no command queued. -/
theorem witness_VectorMemoryMovesLanes :
    (uncached.cpu.tlb.head? = some ⟨1, 0, 30, 0x11F⟩ ∧ uncached.cpu.tlb.tail = [] ∧ uncached.cpu.tlb.length ≤ 64 ∧ uncached.cpu.ctx = 1 ∧
      (0x11F#64).getLsbD 7 = false ∧ leafPol 0x11F ≠ 0 ∧ (0x11F#64).getLsbD 1 = true ∧ (0x11F#64).getLsbD 2 = true ∧
      (0x11F#64).getLsbD 4 = true) ∧ uncached.MemOk ∧
    (∀ i, i < 32 → let va : Word := 0x200 + BitVec.ofNat 64 i * 4
      va.toNat % 4 = 0 ∧ va.toNat < 2 ^ 54 ∧ va.toNat < 2 ^ 30 ∧ isHbm (placeOf 0x11F 30 va.toNat).pa = true ∧
        uncached.isOffline (homeDie uncached.fuses (placeOf 0x11F 30 va.toNat)) = false ∧
        uncached.homeWaits (uncached.key (placeOf 0x11F 30 va.toNat)) = false ∧
        poisonedIn uncached.memPoison (uncached.key (placeOf 0x11F 30 va.toNat)) 4 = false) ∧
    (∀ i, i < 32 → lane (uncached.cpu.rv 7) i ≠ 0x80000000#32) ∧ VectorReady 7 [5, 7] uncached ∧
    (let x : L1Line := ⟨4, 5, (-1 : BitVec 128), 0, 0⟩
     let s := on cached (fun c => { c with l1 := [x] })
     s.cpu.tlb.head? = some ⟨1, 0, 30, 0x1F⟩ ∧ leafPol 0x1F = 0 ∧ (0x1F#64).getLsbD 7 = false ∧ s.cpu.busyLanes = 0 ∧
       ∀ i, i < 32 → let p := placeOf 0x1F 30 (0x200 + 4 * i)
         findLine s.cpu.l1 p.line = some x ∧ x.serves &&& byteMask (p.pa % 128) 4 = byteMask (p.pa % 128) 4) ∧
    (let key := reserveStart State.reset.fuses
     let c : Channel := ⟨0, 0, .singleBank, none, some 1, some 1, 0, false, Vector.replicate 16 ⟨Vector.replicate 8 0,
       Vector.replicate 64 0, [], 0⟩, none, false, [], false⟩
     let s : State := { mapped (BitVec.ofNat 64 (0x16F + key)) with channels := [c] }
     let ch := s.chanAt key
     (0x16F#64).getLsbD 6 = true ∧ ch.prev = some s.cpu.ctx ∧ (ch.bank 0).queue = [] ∧ isHbm key = true ∧
       (5 : BitVec 5).toNat + 2 ≤ s.cpu.valloc ∧ (64#64).toNat / 64 + 1 = 2 ∧ (64#64).toNat < 128) := by
  refine ⟨by decide +kernel, ?_, by decide +kernel, by decide +kernel, ready_of _ _ _ rfl (by decide) rfl rfl, by decide +kernel,
    by decide +kernel⟩
  unfold State.MemOk
  decide +kernel

/-- Tables that map the first 2 MiB to one frame by `leaf`, an empty trap ring, and some bytes more. -/
def paged (leaf : Nat) (more : List (Nat × Nat × Nat)) : State :=
  let m := placedMem [] 0
  let m := writeLE m (placedRoot + 8192) 8 (1 + (placedRoot + 12288))
  let m := writeLE m (placedRoot + 12288) 8 leaf
  { on cached (fun c => { c with tlb := [] }) with mem := more.foldl (fun m e => writeLE m e.1 e.2.1 e.2.2) m }

/-- A full trap ring: 64 records put, none taken. -/
def fullRing : List (Nat × Nat × Nat) := [(placedRing, 4, 64)]

/-- HintsRecordsAndTranslations, hints and records: a migratable page in each node and none, an address with a place and one with none, room in the
ring and none, a ring whose channel is in all-bank mode, a held record, an operand at both sides of its limit. -/
theorem witness_HintsAndRecords :
    (let s := paged 0x9F []
     s.cpu.executes 7 = true ∧ s.cpu.ready [6, 7] = true ∧ (migratableLeaf s s.cpu.ctx (s.x 6)).isSome = true ∧
       ringHeldAt s placedRing = none ∧ ringFull s placedRing = false ∧ droppedOf s 1 = 0 ∧ s.held = [] ∧ s.context 1 = some placedContext ∧
       ((withX s [(6, 65535)]).x 6).toNat < 2 ^ 16 ∧ 2 ^ 16 ≤ ((withX s [(6, 65536)]).x 6).toNat) ∧
    (migratableLeaf cached 1 0 = none ∧ migratableLeaf (paged 0x9F []) 1 0 = some (placedRoot + 12288, 0x9F) ∧
      isLpddr (leafFrame 0x9F) = false ∧ isLpddr (leafFrame (BitVec.ofNat 64 (2 ^ 40 + 0x9F))) = true ∧
      (migratableLeaf (paged (2 ^ 40 + 0x9F) []) 1 0).isSome = true) ∧
    (ringFull (paged 0x9F fullRing) placedRing = true ∧ ringHeldAt (paged 0x9F fullRing) placedRing = none ∧
      (let k := chanOf cached.fuses placedRing
       ringHeldAt { banksTaken (paged 0x9F []) with
         channels := (banksTaken cached).channels.map (fun c => { c with stack := k.1, number := k.2 }) } placedRing = some placedRing)) ∧
    (let s : State := { paged 0x9F [] with held := [⟨1, 0, 0, List.replicate 64 1⟩] }
     s.context 1 = some placedContext ∧ (List.replicate 64 (1 : Byte)).length = 64 ∧ s.held = [⟨1, 0, 0, List.replicate 64 1⟩]) ∧
    (let s := paged 0x9F []
     (s.ctxPlace 1 0).isSome = true ∧ (s.ctxPlace 1 0).any (fun p => isHbm p.pa && !s.retired.contains (1, homeSlice s.fuses p)) = true ∧
       s.ctxPlace 1 (BitVec.ofNat 64 (2 ^ 21)) = none ∧ s.channels = []) := by
  decide +kernel

/-- HintsRecordsAndTranslations, translations: an address past the space and one inside, a walk that finds its leaf, one that finds none and one
that waits for a move, one that waits for a channel, walkers that are free, a shootdown in each state with nothing on its way and with a reduction that is, a page in
migration to each node with its channels free, and a window that has and has not run out. -/
theorem witness_Translations :
    (2 ^ 54 ≤ (0x40000000000000#64).toNat ∧ (0#64).toNat < 2 ^ 54 ∧ (paged 0x9F []).context 1 = some placedContext ∧
      (paged 0x9F []).walkersBusy ((paged 0x9F []).walkOf 1 0 0) = false ∧ walk (paged 0x9F []) 0 4 placedRoot [] = .leaf 1 (placedRoot + 12288) 0x9F
        [placedRoot + 8192, placedRoot + 4096, placedRoot] ∧ (0x9F#64).getLsbD 2 = true ∧ (0x9B#64).getLsbD 2 = false ∧
      walk (paged 0x9F []) (2 ^ 21) 4 placedRoot [] = .invalid ∧
      (let s : State := { paged 0x9E [] with migrations := [⟨1, 0, placedRoot + 12288, 0x9F, 2 ^ 40, false⟩] }
       walk s 0 4 placedRoot [] = .wait) ∧
      (let k := chanOf cached.fuses placedRoot
       let s : State := { paged 0x9F [] with
         channels := (banksTaken cached).channels.map (fun c => { c with stack := k.1, number := k.2 }) }
       walk s 0 4 placedRoot [] = .stalled placedRoot ∧ s.walkersBusy (s.walkOf 1 0 0) = false)) ∧
    (let d : Shootdown := ⟨1, 0, 2 ^ 21, true, true⟩
     let m : Migration := ⟨1, 0, placedRoot + 12288, 0x9F, 2 ^ 40, false⟩
     let s : State := { cached with shootdowns := [d], migrations := [m] }
     s.shootdowns = [d] ∧ d.issued = true ∧ d.move = true ∧ ({ d with issued := false } : Shootdown).issued = false ∧
       ({ d with move := false } : Shootdown).move = false ∧ s.ackWaits d [m] = false ∧ s.ackWaits d [] = false ∧ m.ctx = d.ctx ∧
       m.va = d.va ∧ ({ s with reductions := [⟨0, 1, 0, 0, 0x200, 0x200, 2, 5, false⟩] } : State).ackWaits d [m] = true) ∧
    (let m : Migration := ⟨1, 0, placedRoot + 12288, 0x9F, 2 ^ 40, true⟩
     m.acked = true ∧ isLpddr m.frame = true ∧ leafFrame m.leaf / 2 ^ 36 = 0 ∧ isHbm ({ m with frame := 0 } : Migration).frame = true ∧
       ∀ k ∈ m.key :: m.units cached.fuses ++ frameUnits cached.fuses m.frame (leafIl m.leaf), cached.homeWaits k = false) ∧
    ((0 : Nat) < 0 + 1500000 ∧ (0 : Nat) + 1500000 ≤ 1500000) := by
  decide +kernel

theorem readByte_absent (m : List Host.Cell) (k : Nat) (h : ∀ e ∈ m, e.1 ≠ k) : readByte m k = 0 := by
  induction m with
  | nil => rfl
  | cons e m ih =>
    obtain ⟨a, b⟩ := e
    have ha : a ≠ k := h _ List.mem_cons_self
    simp only [readByte, ha, if_false]
    split
    · rfl
    · exact ih (fun e he => h e (List.mem_cons_of_mem _ he))

theorem readLE_absent (m : List Host.Cell) (n k : Nat) (h : ∀ e ∈ m, e.1 < k ∨ k + n ≤ e.1) : readLE m k n = 0 := by
  induction n generalizing k with
  | zero => rfl
  | succ n ih =>
    rw [readLE, readByte_absent _ _ (fun e he => by have := h e he; omega), ih (k + 1) (fun e he => by have := h e he; omega)]
    rfl

/-- Below a table with nothing after its first entry lies what lies below that entry. -/
theorem pages_first (s : State) (ctx level table va : Nat) (h : ∀ e ∈ s.mem, e.1 < table + 8 ∨ table + 4096 ≤ e.1) :
    pagesBelow s ctx (level + 1) table va =
      let e : Word := BitVec.ofNat 64 (readLE s.mem table 8)
      if !e.getLsbD 0 then []
      else if e.getLsbD 1 || e.getLsbD 2 then
        (if level = 0 && movable e && leafOk s.fuses 1 e then [PageLeaf.mk ctx va table e] else [])
      else pagesBelow s ctx level (leafFrame e) va := by
  obtain ⟨n, hn, hle⟩ : ∃ n, tableWidth (level + 1) = n + 1 ∧ n ≤ 511 := by
    unfold tableWidth
    split
    · exact ⟨63, rfl, by decide⟩
    · exact ⟨511, rfl, by decide⟩
  have rest : ∀ i ∈ List.range n, readLE s.mem (table + 8 * (i + 1)) 8 = 0 := by
    intro i hi
    rw [List.mem_range] at hi
    refine readLE_absent _ _ _ (fun e he => ?_)
    have := h e he
    omega
  rw [pagesBelow, hn, List.range_succ_eq_map, List.flatMap_cons, List.flatMap_map]
  have nil : ((List.range n).flatMap fun i =>
      let key := table + 8 * (i + 1)
      let e : Word := BitVec.ofNat 64 (readLE s.mem key 8)
      let here := va + (i + 1) * 2 ^ (12 + 9 * (level + 1))
      if !e.getLsbD 0 then []
      else if e.getLsbD 1 || e.getLsbD 2 then
        (if level = 0 && movable e && leafOk s.fuses 1 e then [PageLeaf.mk ctx here key e] else [])
      else pagesBelow s ctx level (leafFrame e) here) = [] := by
    rw [List.flatMap_eq_nil_iff]
    intro i hi
    simp [rest i hi]
  simp only [Nat.mul_zero, Nat.zero_mul, Nat.add_zero]
  exact (congrArg _ nil).trans (List.append_nil _)

theorem pages_table (s : State) (ctx level table next va : Nat) (h : ∀ e ∈ s.mem, e.1 < table + 8 ∨ table + 4096 ≤ e.1)
    (he : let e : Word := BitVec.ofNat 64 (readLE s.mem table 8)
      e.getLsbD 0 = true ∧ e.getLsbD 1 = false ∧ e.getLsbD 2 = false ∧ leafFrame e = next) :
    pagesBelow s ctx (level + 1) table va = pagesBelow s ctx level next va := by
  rw [pages_first s ctx level table va h]
  simp only [he.1, he.2.1, he.2.2.1, he.2.2.2]
  rfl

theorem pages_leaf (s : State) (ctx table va : Nat) (e : Word) (h : ∀ e ∈ s.mem, e.1 < table + 8 ∨ table + 4096 ≤ e.1)
    (he : BitVec.ofNat 64 (readLE s.mem table 8) = e)
    (hp : e.getLsbD 0 = true ∧ e.getLsbD 1 = true ∧ movable e = true ∧ leafOk s.fuses 1 e = true) :
    pagesBelow s ctx 1 table va = [⟨ctx, va, table, e⟩] := by
  rw [pages_first s ctx 0 table va h, he]
  simp [hp.1, hp.2.1, hp.2.2.1, hp.2.2.2]

/-- A page of a node at the first address, and a free frame of the other node. -/
def tiered (leaf : Nat) (frame : Nat) : State :=
  { paged leaf [] with
    freeFrames := [(frame, false)]
    fetchHints := [(1, 0)] }

theorem tiered_pages (leaf frame : Nat) (h : (leaf = 0x9F ∧ frame = 2 ^ 40) ∨ (leaf = 0x1000000009F ∧ frame = 2 ^ 21)) :
    (tiered leaf frame).contexts.flatMap (tiered leaf frame).pagesOf = [⟨1, 0, placedRoot + 12288, BitVec.ofNat 64 leaf⟩] := by
  refine (List.flatMap_singleton _ placedContext).trans ?_
  unfold State.pagesOf
  rcases h with ⟨rfl, rfl⟩ | ⟨rfl, rfl⟩ <;>
    rw [pages_table _ _ 3 _ (placedRoot + 4096) _ (by decide +kernel) (by decide +kernel),
      pages_table _ _ 2 _ (placedRoot + 8192) _ (by decide +kernel) (by decide +kernel),
      pages_table _ _ 1 _ (placedRoot + 12288) _ (by decide +kernel) (by decide +kernel)] <;>
    exact pages_leaf _ _ _ _ _ (by decide +kernel) (by decide +kernel) (by decide +kernel)

/-- A stack with fewer free frames than its low mark and one page to demote, and a page in LPDDR6 asked for with a frame to fill. -/
theorem witness_TierMoves :
    (let s := tiered 0x9F (2 ^ 40)
     s.migrations = [] ∧ s.homeWaits (placedRoot + 12288) = false ∧ 1000 * s.freeIn 0 < (s.marks 0).1 * (stackBytes s.fuses / 4096) ∧
       s.victimPage 0 = some ⟨1, 0, placedRoot + 12288, 0x9F⟩ ∧ s.freeFrames.find? (fun x => isLpddr x.1) = some (2 ^ 40, false)) ∧
    (let s := tiered 0x1000000009F (2 ^ 21)
     (1, 0) ∈ s.fetchHints ∧ (s.contexts.flatMap s.pagesOf).find? (fun x => x.ctx == 1 && x.va == 0) =
         some ⟨1, 0, placedRoot + 12288, 0x1000000009F⟩ ∧ isLpddr (leafFrame 0x1000000009F) = true ∧
       s.homeWaits (placedRoot + 12288) = false ∧ (1, 1) ∉ s.fetchHints ∧
       s.freeFrames.find? (fun x => isHbm x.1 && x.2 = leafIl 0x1000000009F) = some (2 ^ 21, false)) := by
  dsimp only
  unfold State.victimPage
  rw [tiered_pages _ _ (.inl ⟨rfl, rfl⟩), tiered_pages _ _ (.inr ⟨rfl, rfl⟩)]
  decide +kernel

/-- An object of one block in cluster 0, and the handles of its context. -/
def objectOf (serial id : Nat) (snap : Bool) (rows : Nat) : FwObject :=
  ⟨handleOf 1 serial 0 snap, 1, rows, 4, 2, 4, 0, false, snap, .cluster 0, .none, [id], [], [], false, [], [], 0⟩
def blockOf (id : Nat) : StateBlock := ⟨id, 0, 1, Vector.replicate 32 0x3F800000, false⟩
def stateful : State :=
  { withX whole [(1, handleOf 1 1 0 false), (2, handleOf 1 2 0 true), (3, handleOf 1 3 0 false), (4, 0x1000)] with
    objects := [objectOf 1 1 false 4, objectOf 2 2 true 4, objectOf 3 3 false 4]
    blocks := [blockOf 1, blockOf 2, blockOf 3]
    blockClock := 4 }

def inOrderB (s : State) : Bool :=
  decide ((s.blocks.map (fun b => b.id)).Nodup) &&
  s.blocks.all (fun b => decide (0 < b.refs ∧ b.id < s.blockClock ∧ (s.objects.flatMap (fun o => o.blocks)).count b.id ≤ b.refs)) &&
  s.objects.all (fun o => o.blocks.all (fun id => s.blocks.any (fun b => b.id == id))) &&
  s.objects.all (fun o => decide (0 < o.rows ∧ 0 < o.cols) && (match o.place with
    | .cluster _ => decide (o.blocks.length = o.nb)
    | .image => decide (o.image.length = o.nb ∧ o.blocks = [])
    | .chip _ _ => true)) &&
  decide ((s.objects.map (fun o => o.handle)).Nodup) && s.objects.all (fun o => decide (o.want = [])) &&
  s.objects.all (fun o => o.holds.all (fun p => decide (p.1 < s.holdClock))) &&
  s.holdReqs.all (fun q => decide (q.id < s.holdClock))

theorem inOrder_of (s : State) (h : inOrderB s = true) : s.InOrder := by
  simp only [inOrderB, Bool.and_eq_true, decide_eq_true_eq, List.all_eq_true, List.any_eq_true, beq_iff_eq] at h
  obtain ⟨⟨⟨⟨⟨⟨⟨h1, h2⟩, h3⟩, h4⟩, h5⟩, h6⟩, h7⟩, h8⟩ := h
  refine ⟨h1, h2, h3, fun o ho => ⟨(h4 o ho).1.1, (h4 o ho).1.2, ?_, ?_⟩, h5, h6, h7, h8⟩
  · rintro ⟨c, hc⟩
    simpa [hc] using (h4 o ho).2
  · intro hc
    simpa [hc] using (h4 o ho).2

theorem stateful_rest : stateful.InOrder := inOrder_of _ (by decide +kernel)

/-- Holds on its objects are granted at once. -/
theorem stateful_grants :
    stateful.Grants true (stateful.x 1) ∧ stateful.Grants false (stateful.x 2) ∧ stateful.Grants false (stateful.x 3) := by
  unfold State.Grants
  decide +kernel

/-- FastWeightObjects, the commands: valid handles of objects that are here and one of an object in its image,
a handle that is not valid, room for a new object, holds that are granted at once, a snapshot of the same shape, each kind of
destination, objects to average. -/
theorem witness_FastWeightObjects :
    VectorReady 7 [] stateful ∧ stateful.InOrder ∧
    (∃ o p q, stateful.validObject (stateful.x 1) = some o ∧ stateful.validObject (stateful.x 2) = some p ∧
      stateful.validObject (stateful.x 3) = some q ∧ o.isHere stateful.cpu.cluster = true ∧ p.isHere stateful.cpu.cluster = true ∧
      stateful.x 1 ≠ stateful.x 2 ∧ stateful.x 1 ≠ stateful.x 3 ∧ o.snap = false ∧ p.snap = true ∧ o.rows = p.rows ∧ o.cols = p.cols ∧
      o.rows = q.rows ∧ o.cols = q.cols ∧ q.isHere stateful.cpu.cluster = true ∧ o.nb ≤ stateful.freeBlocks 1 ∧ o.blocks.Nodup ∧
      stateful.sharedAmong o (List.range o.nb) ≤ stateful.freeBlocks stateful.cpu.cluster ∧
      (∀ e ∈ [o, p, q], keyHandle 1 (handleKey e.handle) = e.handle ∧ ∀ id ∈ e.blocks, (stateful.block id).poison = false) ∧
      (let v : Word := BitVec.ofNat 64 (1 * 4)
       migOk stateful v = true ∧ migKind v = 0 ∧ o.isAt v = false ∧ migCluster v = 1) ∧
      (let v : Word := BitVec.ofNat 64 (1 + 1 * 4)
       migOk stateful v = true ∧ migKind v = 1 ∧ o.isAt v = false) ∧
      (let s : State := { stateful with contexts := [{ placedContext with backing := 1 }] }
       migOk s 2 = true ∧ migKind 2 = 2 ∧ o.isAt 2 = false ∧ s.imageFits o = true) ∧
      migOk stateful 0 = true ∧ o.isAt 0 = true ∧ (∀ x ∈ stateful.contents o, x.2 = false)) ∧
    (stateful.Grants true (stateful.x 1) ∧ stateful.Grants false (stateful.x 2) ∧ stateful.Grants false (stateful.x 3)) ∧
    (stateful.directoryFull stateful.cpu.ctx 1 = false ∧ stateful.object (handleOf 1 1 0 true) = none) ∧
    (stateful.validObject (stateful.x 5) = none ∧ stateful.context stateful.cpu.ctx = some placedContext ∧
      ((withX stateful [(6, 31 + 63 * 512)]).x 6).toNat < 2 ^ 22 ∧ 2 ≤ stateful.freeBlocks stateful.cpu.cluster) :=
  ⟨ready_of _ _ _ rfl (by decide) rfl rfl, stateful_rest, ⟨_, _, _, rfl, rfl, rfl, by decide +kernel⟩, stateful_grants, by decide +kernel,
    by decide +kernel⟩

/-- An object in its image, one on its way there, and one on another chip. -/
def imaged : FwObject := { objectOf 1 1 false 4 with place := .image, blocks := [], image := [(Vector.replicate 32 5, false)] }
def leaving : FwObject := { objectOf 1 1 false 4 with move := .evicting }
def abroad : FwObject := { objectOf 1 1 false 4 with place := .chip 3 0, blocks := [] }

/-- FastWeightObjects, the pager: an eviction, a page-in from an image, from another cluster and from another
chip, a hold that waits and may be granted, one that may not, and an arrival. -/
theorem witness_Pager :
    (∀ o ∈ [imaged, leaving, abroad], let s : State := { stateful with objects := [o] }
      inOrderB s = true ∧ s.object (handleOf 1 1 0 false) = some o ∧ s.validObject (handleOf 1 1 0 false) = some o ∧ o.holds = []) ∧
    (imaged.place = .image ∧ imaged.move = .none ∧ imaged.nb ≤ stateful.freeBlocks stateful.cpu.cluster ∧ leaving.move = .evicting ∧
      abroad.place = .chip 3 0 ∧ abroad.asked = false ∧ (objectOf 1 1 false 4).place ≠ .cluster 1 ∧
      (objectOf 1 1 false 4).nb ≤ stateful.freeBlocks 1) ∧
    (let w : Cmd := { command (.fwsnapFree 1 7) .state with started := true, hold := some 7, op0 := handleOf 1 1 0 false }
     let q : HoldReq := ⟨7, [], [w.op0]⟩
     let s : State := { on stateful (fun c => { c with pending := [w] }) with holdReqs := [q], holdClock := 8 }
     let t : State := { s with objects := [{ objectOf 1 1 false 4 with holds := [(3, false)] }] }
     inOrderB s = true ∧ inOrderB t = true ∧ s.cpu.headOf .state = some 0 ∧ s.cpu.pending[0]? = some w ∧ s.mayStart 0 = true ∧
       t.mayStart 0 = true ∧ w.progress = 0 ∧ s.holdReqs.find? (fun q => q.id == 7) = some q ∧ s.grantable q = true ∧
       t.grantable q = false ∧ s.validObject w.op0 = some (objectOf 1 1 false 4) ∧
       (objectOf 1 1 false 4).holds.contains (7, true) = false) ∧
    (stateful.object (handleOf 1 9 0 false) = none ∧ (stateful.context ((handleOf 1 9 0 false).extractLsb' 0 16).toNat).isSome = true ∧
      ((attrRows (31 + 63 * 512) + 31) / 32) * ((attrCols (31 + 63 * 512) + 31) / 32) ≤ stateful.freeBlocks 1) := by
  decide +kernel

/-- A descriptor of one step of FP32 rows: Q, K, V and Y one line apart from 0x100 up, the fade values at 0x300. -/
def descriptor : BitVec 256 :=
  BitVec.ofNat 256 (0x100 + 0x180 * 2 ^ 32 + 0x200 * 2 ^ 64 + 0x280 * 2 ^ 96 + 0x300 * 2 ^ 128 + 128 * 2 ^ 192 + 128 * 2 ^ 208 +
    1 * 2 ^ 224 + 1 * 2 ^ 240 + 1 * 2 ^ 248)

/-- UpdatesFollowTheirDescriptor: an object of one block and a descriptor that decodes for every kind, its arrays inside the window,
full and sound, and its Y apart from what is read again; a chunk in turn and one that is not. -/
theorem witness_UpdatesFollowTheirDescriptor :
    let s : State := { stateful with sp := writeLE [] 0x1000 32 descriptor.toNat }
    s.InOrder ∧ VectorReady 7 [] s ∧ (s.Grants true (s.x 1) ∧ s.Grants false (s.x 1)) ∧ ∃ o, s.validObject (s.x 1) = some o ∧
      o.isHere s.cpu.cluster = true ∧ o.nbc = 1 ∧ (∀ id ∈ o.blocks, (s.block id).poison = false) ∧ o.snap = false ∧
      s.sharedAmong o (List.range o.nb) ≤ s.freeBlocks s.cpu.cluster ∧
      (∀ k ∈ [updOpu, ⟨true, false, false, true, false, false, false⟩, updUpdD, updUpdH, updFuD, updFuDl, updFuH, updFuHl],
        readDesc s k o (s.x 4) = .ok descriptor ∧ s.spBlocked ((readRows k descriptor o).flatMap Rows.runs) = false ∧
          s.spPoisoned ((readRows k descriptor o).flatMap Rows.runs) = none) ∧
      (withX s [(5, 2)]).x 5 = o.next.setWidth 64 ∧ s.x 5 ≠ o.next.setWidth 64 ∧ s.cpu.handler = false ∧ s.cpu.thandler ≠ 0 := by
  refine ⟨inOrder_of _ (by decide +kernel), ready_of _ _ _ rfl (by decide) rfl rfl, ?_, _, rfl, by decide +kernel⟩
  unfold State.Grants
  decide +kernel

/-- A launched graph of one compute node, whose record stands at 0x500000 with its copy area at 0x600000, and its firing. -/
def graphOne : Graph := ⟨7, 0x500000, 1, none, none, Vector.replicate 16 0, 4, [], [], 0, [], [], [], [], [], [], 0, false⟩
def teamOne : TeamRun := ⟨9, 0, [0], 0, 4, [], [], none, none⟩
def firingOne : Firing :=
  ⟨8, 7, 0, 1, 2, 0, 2 ^ 22, [teamOne], [⟨9, [], [], 0, 0⟩], [0], .running, none, none, [], false, false⟩
def graphed (more : List (Nat × Nat × Nat)) : State :=
  let m := [(0x500006, 2, 1), (0x500010, 4, 128), (0x500020, 8, 0x600000), (0x500028, 4, 128), (0x500040, 8, 0)].foldl
    (fun m (e : Nat × Nat × Nat) => writeLE m e.1 e.2.1 e.2.2) (placedMem [] 0)
  { whole with
    mem := more.foldl (fun m e => writeLE m e.1 e.2.1 e.2.2) m
    cpu := { whole.cpu with
      tlb := [⟨1, 0, 30, 0x11F⟩]
      firing := 8
      team := 9 }
    graphs := [graphOne]
    firings := [firingOne] }

/-- The bytes of node `i` of the record: kind, control, state, team and placement set, with no port in use but those given. -/
def nodeBytes (i kind ctl st team place : Nat) (ports : List (Nat × Nat × Nat)) : List (Nat × Nat × Nat) :=
  let k := 0x500080 + 128 * i
  [(k + 2, 1, kind), (k + 3, 1, ctl), (k + 4, 1, st), (k + 8, 4, team), (k + 12, 8, 2 ^ 64 - 1), (k + 20, 8, 2 ^ 64 - 1),
    (k + 52, 4, place)] ++ ports.map (fun p => (k + p.1, p.2.1, p.2.2))

/-- The bytes of a schedule of one entry: 4 bytes from one address to the next, the last entry. -/
def oneEntry : List (Nat × Nat × Nat) :=
  [(0x600010, 2, 4), (0x600012, 2, 1), (0x600014, 2, 1), (0x600016, 2, 1), (0x600018, 2, 1), (0x60003F, 1, 16)]

def schedOk : Sched → Option (List Entry)
  | .ok es _ => some es
  | _ => none
def schedState : Sched → State
  | .ok _ s => s
  | .bad _ s => s
  | .trap _ _ _ s => s
  | .wait s => s
theorem sched_parts (x : Sched) (es : List Entry) (h : schedOk x = some es) : x = .ok es (schedState x) := by
  cases x <;> simp_all [schedOk, schedState]

/-- An engine with a schedule of the acting cell. -/
def copier (st : CopyState) (e : Entry) : Copier := ⟨3, 5, 1, 8, 0, some 0, 0, [e], st, 0, 1, 0, 0, [], 0, none, none, [], [], false, [], []⟩
def indexed : Entry := BitVec.ofNat 512 (4 * 2 ^ 128 + 2 * 2 ^ 144 + 2 ^ 160 + 2 ^ 176 + 2 ^ 192 + 1 * 2 ^ 480 + 16 * 2 ^ 504)

/-- Two entries of which the second has no wait bit, and an entry that writes a word with its extension. -/
def twoEntries : Copier := { copier .running indexed with
  entries := [BitVec.ofNat 512 (4 * 2 ^ 128 + 2 ^ 144 + 2 ^ 160 + 2 ^ 176 + 2 ^ 192), indexed], done := 8 }
def worded (flags : Nat) (tlb : List TlbEntry) : Copier := { copier .running indexed with
  entries := [BitVec.ofNat 512 (4 * 2 ^ 128 + 2 ^ 144 + 2 ^ 160 + 2 ^ 176 + 2 ^ 192 + flags * 2 ^ 504),
    BitVec.ofNat 512 (0x1000 * 2 ^ 64 + 2 ^ 104 + 9 * 2 ^ 128)], done := 8, tlb := tlb }

/-- CopyEngines, the instructions: a schedule that reads, an engine free for the request that is served next and one granted to it
already, ids that are current, foreign and old. -/
theorem witness_CopyInstructions :
    (let s := graphed oneEntry
     s.cpu.executes 7 = true ∧ s.cpu.ready [5, 6, 7] = true ∧ s.firingWaits s.cpu.firing = false ∧ (s.x 6).toNat < 2 ^ 40 ∧ (s.x 6).extractLsb' 0 6 = 0 ∧
     (s.x 6).extractLsb' 24 8 = 0 ∧ (withX s [(6, 1)]).x 6 = 1 ∧ (1#64).extractLsb' 0 6 ≠ 0 ∧
     ∃ es s1, readSched (s.copyArea s.cpu.firing).1 (s.copyArea s.cpu.firing).2 256 0 none [] s = .ok es s1 ∧
       schedTotal es < 2 ^ 47 ∧ s1.copyWaitOf = none ∧ s1.cpu.eager = true ∧ s1.freeEngines s1.cpu.die (s1.cpu.cls = 0) ≠ [] ∧
       (let w : CopyWait := ⟨some s1.cpu.id, s1.cpu.firing, s1.cpu.die, s1.cpu.cls = 0, none⟩
        ({ s1 with copyWaits := s1.copyWaits ++ [w] } : State).nextCopyWait s1.cpu.die = some w ∧
        ({ s1 with copyWaits := [{ w with granted := some 3 }] } : State).copyWaitOf = some { w with granted := some 3 })) ∧
    (let s : State := { withX (graphed []) [(6, 3 + 5 * 256)] with copiers := [copier .running indexed] }
     s.copyRef (s.x 6) = .current (copier .running indexed) ∧ s.copyRef (2 ^ 32) = .foreign ∧ s.copyRef 4 = .old ∧
       s.cpu.memoryQuiet = true ∧ s.releaseWaits 4 = false ∧ (s.x 7).toNat ≤ 255 ∧ 255 < ((withX s [(7, 256)]).x 7).toNat) :=
  ⟨⟨by decide +kernel, by decide +kernel, by decide +kernel, by decide +kernel, by decide +kernel, by decide +kernel, by decide +kernel,
      by decide +kernel, _, _, sched_parts _ ((schedOk (readSched ((graphed oneEntry).copyArea 8).1 ((graphed oneEntry).copyArea 8).2 256 0 none []
        (graphed oneEntry))).getD []) (by decide +kernel), by decide +kernel, by decide +kernel, by decide +kernel, by decide +kernel,
      by decide +kernel⟩, by decide +kernel⟩

/-- CopyEngines, the engines: a cell's and a copy node's request that is served next, an entry to start after its predecessor and
one before its completion, a lookup, entries to complete without an action, with a word and with a barrier, one that has been
overtaken, also by an entry that has met a fault, a fault in a state that takes it and in one that does not, a schedule to cancel. -/
theorem witness_CopyEngines :
    (let w : CopyWait := ⟨some 0, 8, 0, false, none⟩
     let s : State := { graphed [] with copyWaits := [w] }
     s.nextCopyWait 0 = some w ∧ s.freeEngines 0 w.urgent ≠ [] ∧ w.cell.isSome = true ∧ ∀ x ∈ s.copyWaits, x.cell = none → x.granted = none) ∧
    (let w : CopyWait := ⟨none, 8, 0, false, none⟩
     let s : State := { graphed (nodeBytes 0 4 2 2 1 1 [] ++ oneEntry) with copyWaits := [w] }
     s.nextCopyWait 0 = some w ∧ s.freeEngines 0 w.urgent ≠ [] ∧ s.copyWaits.Nodup ∧ (∀ x ∈ s.copyWaits, x.cell = none → x.firing = w.firing → x = w) ∧
       s.firing w.firing = some firingOne ∧ s.graph firingOne.graph = some graphOne ∧ s.graphWaits graphOne = false ∧
       s.ctxWaits graphOne.ctx (s.copyArea 8).1 (s.copyArea 8).2 = false ∧
       (nodeSched s graphOne.ctx (s.copyArea 8).1 (s.copyArea 8).2 256 (s.node graphOne 0 80 4) none []).any
         (fun es => decide (schedTotal es < 2 ^ 47)) = true) ∧
    ((copier .waiting indexed).mayStart = true ∧ (graphed []).stalled 1 3 = false ∧ twoEntries.mayStart = false ∧
      twoEntries.mayOvertake = true) ∧
    (let c := copier .running indexed
     let o := (c.entry.stride c.entry.side c.entry.dim + 0) % 2 ^ 22
     ({ graphed [] with copiers := [c] } : State).copying 3 = some c ∧
       0 < c.entry.lookups ∧ 0 ≤ c.entry.lookup (c.done / c.entry.cnt 0) + c.entry.ahead ∧ (graphed []).holdsWindow 8 0 o = true ∧
       (graphed []).holdsWindow 8 0 ((o + 3) % 2 ^ 22) = true ∧ spLineNo 0 o ∉ (graphed []).spEmpty ∧
       poisonedIn (graphed []).spPoison (spKey 0 o) 4 = false) ∧
    (let c := { copier .running indexed with done := 8 }
     ({ graphed [] with copiers := [c] } : State).completing 3 = some c ∧
       c.written = true ∧ c.oldest.poison = none ∧ c.oldest.entry.word = false ∧ c.oldest.entry.bar = false ∧ c.cell.isSome = true ∧
       c.entry.last = true ∧ c.closing = []) ∧
    (let c : Copier := { twoEntries with pos := 1, closing := [⟨0, 8, none, [], [], false⟩] }
     ({ graphed [] with copiers := [c] } : State).completing 3 = some c ∧
       ({ graphed [] with copiers := [{ c with fault := some (4, 0x200) }] } : State).completing 3 = some { c with fault := some (4, 0x200) } ∧
       c.written = true ∧ c.oldest.poison = none ∧ c.oldest.entry.bar = false ∧ c.oldest.entry.last = false) ∧
    (let c := worded 20 []
     ({ graphed [] with copiers := [c] } : State).completing 3 = some c ∧
       c.written = true ∧ c.oldest.entry.word = true ∧ c.oldest.acted = false ∧ c.oldest.ext.at 8 8 = 0x1000 + 2 ^ 40 ∧
       (graphed []).holdsWindow 8 c.cluster ((0x1000 + 2 ^ 40) % 2 ^ 22) = true) ∧
    (let c := worded 17 [⟨1, 0, 21, 2 ^ 43 + 0x21F⟩]
     let s : State := { graphed [] with copiers := [c] }
     let x := engineXlat c.oldest (BitVec.ofNat 64 (c.oldest.ext.at 0 8)) .write s
     s.completing 3 = some c ∧ c.written = true ∧ c.oldest.entry.bar = true ∧ c.oldest.entry.word = false ∧ isOk x = true ∧ isSync (place x).pa = true) ∧
    (let c := { copier .running indexed with fault := some (4, 0x200) }
     c.fault = some (4, 0x200) ∧ c.closing = [] ∧ c.cell.isSome = true ∧ c.state = .running ∧ ({ c with state := .cancelling } : Copier).state = .cancelling) ∧
    (copier .cancelling indexed).state = .cancelling :=
  ⟨by decide +kernel, by decide +kernel, by decide +kernel, by decide +kernel, by decide +kernel, by decide +kernel, by decide +kernel,
    by decide +kernel, by decide +kernel, by decide +kernel⟩

/-- A compute-capable page of pseudo-channel `c`, the first 1 GiB of the region of stack 0. -/
def regionKey : Nat := reserveStart State.reset.fuses
def restingBank : Bank := ⟨Vector.replicate 8 0, Vector.replicate 64 0, [], 0⟩
def chan (m : ChanMode) (next : Option ChanMode) (owner : Option Nat) (q : List RillCmd) : Channel :=
  ⟨0, 0, m, next, owner, none, 0, false, Vector.replicate 16 { restingBank with queue := q }, none, false, [], false⟩
def rill (cs : List Channel) : State :=
  { on (mapped (BitVec.ofNat 64 (0x17F + regionKey))) (fun c => { c with winSize := 2 ^ 22 }) with channels := cs }

/-- RillUnits, nbmode and nbfence: pages of both kinds, an owner of another context, a mode that is in force, one to enter and one to leave,
a transition that the cell has begun and that is over, with the owner kept and with another since, and a fence with bytes to publish
and reads to wait for, none of them, and one of each. -/
theorem witness_NbmodeAndNbfence :
    (let x := translateHome uncached 0 .read
     isOk x = true ∧ (leaf x).getLsbD 6 = false) ∧
    (let x := translateHome (rill []) 0 .read
     let ch := (after x).chanAt ((after x).key (place x))
     (rill []).cpu.executes 7 = true ∧ (rill []).cpu.ready [5, 6, 7] = true ∧ isOk x = true ∧ (leaf x).getLsbD 6 = true ∧
       ch.next = none ∧ ch.mode = .ordinary ∧ (after x).cpu.nbBegun = false ∧ (after x).cpu.eager = true ∧
       (after x).inFlightTo ch = false) ∧
    (let x := translateHome (rill [chan .allBank none (some 1) []]) 0 .read
     let ch := (after x).chanAt ((after x).key (place x))
     isOk x = true ∧ ch.mode ≠ .ordinary ∧ ch.owner = some (after x).cpu.ctx ∧ ch.drained = true ∧
       ch.owed.any (after x).owedLive = false) ∧
    (let s := on (rill [chan .allBank none (some 2) []]) (fun c => { c with nbBegun := true })
     let x := translateHome s 0 .read
     isOk x = true ∧ (leaf x).getLsbD 6 = true ∧ (after x).cpu.nbBegun = true ∧
       ((after x).chanAt ((after x).key (place x))).next = none ∧
       ((after x).chanAt ((after x).key (place x))).owner ≠ some (after x).cpu.ctx) ∧
    (let s := on (rill [chan .ordinary (some .allBank) (some 2) []]) (fun c => { c with nbBegun := true })
     let x := translateHome s 0 .read
     isOk x = true ∧ ((after x).chanAt ((after x).key (place x))).next = some .allBank ∧
       ((after x).chanAt ((after x).key (place x))).owner ≠ some (after x).cpu.ctx) ∧
    (let x := translateHome (rill [chan .singleBank none (some 2) []]) 0 .read
     ((after x).chanAt ((after x).key (place x))).owner ≠ some (after x).cpu.ctx) ∧
    ((0#64).toNat = (0 : Fin 3).val ∧ (2#64).toNat = (2 : Fin 3).val ∧ 2 < (3#64).toNat) ∧
    ((rill []).rillPending = false ∧ (∀ x ∈ (rill []).ccLines, x.dirty ≠ 0 → (rill []).homeWaits (lineKey (rill []).fuses x.no) = false) ∧
      (rill []).cpu.readsPending = false ∧ (rill []).ccLines = [] ∧
      (let l : L1Line := ⟨regionKey / 128, 5, (-1 : BitVec 128), 1, 0⟩
       (on (rill []) (fun c => { c with l1 := [l] })).ccLines = [l] ∧ l.dirty ≠ 0) ∧
      (rill [chan .allBank none (some 1) [⟨0, 0, 0, none, 0, 0, 0, false⟩]]).rillPending = true) := by
  decide +kernel

/-- The same, nbcmd: command words that are sound and not, ranges inside the page and not, modes that take the command and not,
queues with room and full, a beat inside the window. -/
theorem witness_Nbcmd :
    (rillSound 0 = true ∧ rillSound 5 = false ∧ rillSound (2 + 128 * 2 ^ 22) = true ∧ (0x20#64).toNat % 32 = 0 ∧ (8#64).toNat % 32 ≠ 0 ∧
      rillOp (2 + 128 * 2 ^ 22) = 2) ∧
    (let s := on (rill [chan .allBank none (some 1) []]) (fun c => { c with eager := false })
     let x := translateHome s 0x1FFFE0 .read
     let ch := (after x).chanAt ((after x).key (place x))
     isOk x = true ∧ (0x1FFFE0#64).toNat % 2 ^ 21 + rillLength 0 ≤ 2 ^ 21 ∧ ¬ ((0x1FFFE0#64).toNat % 2 ^ 21 + rillLength 2 ≤ 2 ^ 21) ∧
       ch.mode ≠ .ordinary ∧ ch.next = none ∧ ch.owner = some (after x).cpu.ctx ∧
       (∀ j, j < 16 → (ch.bank j).queue.length < 32) ∧ (after x).cpu.eager = false ∧ (after x).cpu.readsPending = false ∧
       isOk (translateHome s 0x1FFFE0 .write) = true ∧
       (after x).cpu.outside (rillSpoff (2 + 128 * 2 ^ 22)) 512 = none ∧
       (after x).cpu.rangesBusy [rangeOf false [(rillSpoff (2 + 128 * 2 ^ 22), 512)]] = false ∧
       (after x).spBlocked [(rillSpoff (2 + 128 * 2 ^ 22), 512)] = false ∧
       (after x).spPoisoned [(rillSpoff (2 + 128 * 2 ^ 22), 512)] = none) ∧
    (((chan .allBank none (some 1) (List.replicate 32 ⟨0, 0, 0, none, 0, 0, 0, false⟩)).bank 0).queue.length = 32 ∧
      (chan .singleBank none (some 1) []).mode = .singleBank ∧ (chan .ordinary none none []).mode = .ordinary) := by
  decide +kernel

/-- RillUnits, the banks: a command of each operation at the head of a queue, a refresh that is postponed and one that is served, a
mode to enter and to leave, a forced exit of queues that no store heads. -/
theorem witness_RillBanks :
    (∀ op ∈ [0, 1, 2, 3, 4], let c := chan .allBank none (some 1) [⟨0, 0, BitVec.ofNat 64 op, none, regionKey, 0, 0, false⟩]
      (rill [c]).channel (0, 0) = some c ∧ (c.bank 15).queue = [⟨0, 0, BitVec.ofNat 64 op, none, regionKey, 0, 0, false⟩] ∧
        rillOp (BitVec.ofNat 64 op) = op ∧ poisonedIn (rill [c]).memPoison (RillCmd.burstKey ⟨0, 0, BitVec.ofNat 64 op, none, regionKey, 0, 0, false⟩ 15) 32 = false) ∧
    (restingBank.postponed < 8 ∧ ¬ ({ restingBank with postponed := 8 } : Bank).postponed < 8) ∧
    ((chan .ordinary (some .allBank) (some 1) []).next = some .allBank ∧
      (rill []).inFlightTo (chan .ordinary (some .allBank) (some 1) []) = false ∧
      (chan .singleBank (some .allBank) (some 1) []).drained = true ∧
      (chan .singleBank (some .allBank) (some 1) []).owed.any (rill []).owedLive = false ∧
      ({ chan .singleBank (some .allBank) (some 1) [] with owed := [⟨.beat 3, 8, false⟩] } : Channel).owed.any (rill []).owedLive = false ∧
      (chan .allBank (some .ordinary) (some 1) []).drained = true ∧ (chan .allBank (some .ordinary) (some 1) []).released = false) ∧
    (let c := { chan .allBank none (some 1) [] with waitSince := some 7 }
     c.mode = .allBank ∧ c.waitSince = some 7 ∧ 7 + 3000 ≤ 3007 ∧ ∀ i, i < 16 → (c.bank i).queue = []) := by
  decide +kernel

/-- EnreadReadsOneFigure and AccountsFollowTheirWindows: a cell with work and one with none, values at both sides of each limit, times at
both sides of the meters' and the window's end, a firing that runs and one that does not, with leakage of its cells and with none, leakage of no
firing, a cell alone at work, work within its reservation. -/
theorem witness_Energy :
    (let s := graphed []
     s.cpu.executes 7 = true ∧ s.cpu.ready [5, 6] = true ∧ s.context s.cpu.ctx = some placedContext ∧
       s.workHere = some (firingOne, ⟨9, [], [], 0, 0⟩) ∧ firingOne.cls ≠ 0 ∧ s.context firingOne.ctx = some placedContext ∧
       (withX s [(6, 5)]).x 6 = 5 ∧ 5 < ((withX s [(6, 6)]).x 6).toNat ∧ ((withX s [(6, 2 ^ 47 - 1)]).x 6).toNat < 2 ^ 47 ∧
       2 ^ 47 ≤ ((withX s [(6, 2 ^ 47)]).x 6).toNat) ∧ cached.workHere = none ∧
    ((graphed []).now < (graphed []).meterTime + 1500 ∧ (graphed []).now < (graphed []).windowStart + 1500000 ∧
      (let s : State := { graphed [] with now := 1500 }
       s.meterTime + 1500 ≤ s.now ∧ s.firings = [firingOne] ∧ firingOne.works = [⟨9, [], [], 0, 0⟩] ∧ firingOne.state = .running ∧
         ({ firingOne with state := .faulted } : Firing).state ≠ .running ∧ s.leaks = [] ∧
         ({ s with leaks := [(8, 9, 5)] } : State).leaks = [(firingOne.id, 9, 5)] ∧ ({ s with firings := [] } : State).firings = [] ∧
         s.cpu.running = true ∧ ∀ c ∈ s.cells, c.running = false)) ∧
    (let s : State := { graphed [] with now := 1500000 }
     s.windowStart + 1500000 ≤ s.now ∧ (s.contexts.map (fun c => c.id)).Nodup ∧
       (∀ f ∈ s.firings, f.state = .running → ∀ w ∈ f.works, (w.metered : Int) ≤ w.reservation) ∧ s.metered = 0 ∧
       ({ s with metered := 7 } : State).metered ≠ 0) := by
  decide +kernel

/-- NodeInstructionsActOnTheirFiring: a team with iterations left and one at its end, a port with room and one without, a token
peeked and none, a stage member with an answer, a member that is not the last and one that is. -/
theorem witness_NodeInstructions :
    (let s := graphed (nodeBytes 0 0 2 2 1 1 [(20, 2, 0), (36, 2, 1)])
     s.cpu.executes 7 = true ∧ s.cpu.ready [5, 6, 7] = true ∧ s.here = some (firingOne, graphOne) ∧
       s.firingWaits s.cpu.firing = false ∧ s.workHere = some (firingOne, ⟨9, [], [], 0, 0⟩) ∧
       firingOne.teams = [teamOne] ∧ teamOne.id = s.cpu.team ∧ teamOne.leaving = none ∧ s.cpu.id ∈ teamOne.cells ∧
       (∀ m ∈ teamOne.cells, m ≠ s.cpu.id → m ∈ teamOne.done) ∧ s.x 6 = 0 ∧
       firingOne.team s.cpu.team = some teamOne ∧ s.nodeKind graphOne firingOne.node = 0 ∧ teamOne.cur < teamOne.hi ∧
       (s.outEdge graphOne 0 0).isSome = true ∧ 0 < s.needOut graphOne 0 0 ∧ s.outEdge graphOne 0 1 = none ∧
       (s.x 7).extractLsb' 2 14 = 0 ∧ (s.x 7).extractLsb' 17 15 = 0 ∧ (withX s [(7, 4)]).x 7 = 4 ∧ (4#64).extractLsb' 2 14 ≠ 0 ∧
       s.cpu.pending = [] ∧ s.releaseWaits 4 = false ∧ firingOne.state = .running) ∧
    (let t := { teamOne with waiting := [0], answer := some true }
     let f := { firingOne with teams := [t] }
     let s : State := { graphed (nodeBytes 0 2 2 2 1 1 []) with firings := [f] }
     s.here = some (f, graphOne) ∧ s.nodeKind graphOne f.node = 2 ∧ f.team s.cpu.team = some t ∧ s.cpu.id ∈ t.waiting ∧
       firingOne.team 77 = none) ∧
    (let t := { teamOne with cur := 4, cells := [0, 1] }
     t.hi ≤ t.cur ∧ (∃ m ∈ t.cells, m ≠ (0 : Nat) ∧ m ∉ t.done)) ∧
    (let s := graphed (nodeBytes 0 0 2 2 1 1 [(12, 2, 0)])
     (s.inEdge graphOne 0 0).isSome = true ∧ (([⟨0, 1, 5, 6⟩] : List Peeked).filter (fun t => t.port = 0))[0]? = some ⟨0, 1, 5, 6⟩ ∧
       (2 ^ 14 : Word).extractLsb' 14 2 = 1 ∧ (2 ^ 15 : Word).extractLsb' 14 2 = 2) ∧
    ((255#64).toNat < 256 ∧ (255#64) ≠ 0 ∧ 256 ≤ (256#64).toNat) := by
  refine ⟨by decide +kernel, by decide +kernel, ⟨by decide, 1, by decide, by decide, by decide⟩, by decide +kernel, by decide⟩

/-- TheGraphEngineMovesItsFirings, arming, firing and faults: a node that may fire, one candidate that can be placed and none, a
fault of the running firing, an interval to split, a cone walk, a retry whose delay has passed. -/
theorem witness_GraphEngine :
    (let s := graphed (nodeBytes 0 0 2 2 1 1 [])
     s.graph 7 = some graphOne ∧ s.firing 8 = some firingOne ∧ s.graphWaits graphOne = false ∧ s.postings = [] ∧ ∀ h ∈ s.graphs, s.graphWaits h = false) ∧
    (let s : State := { graphed (nodeBytes 0 0 2 0 1 1 []) with firings := [] }
     0 < s.nodeCount graphOne ∧ s.nodeState graphOne 0 ≤ 1 ∧ s.staleToken graphOne 0 = none ∧ (s.canFire graphOne 0 1).isSome = true) ∧
    (let s : State := { graphed (nodeBytes 0 0 2 0 1 1 [(12, 2, 0), (28, 2, 1)]) with firings := [] }
     0 < s.nodeCount graphOne ∧ s.nodeState graphOne 0 ≤ 1 ∧ s.staleToken graphOne 0 = none ∧ s.canFire graphOne 0 1 = none) ∧
    (let g := { graphOne with armed := [⟨0, 1, 3⟩] }
     let s : State := { graphed (nodeBytes 0 0 2 1 1 1 []) with firings := [], graphs := [g] }
     ((s.candidates 0).map (fun c => (c.node, c.cls)) = [(0, 2)]) ∧ s.floorOf 0 < 63 ∧ (∀ h ∈ s.graphs, s.graphWaits h = false) ∧
       (∀ c ∈ s.candidates 0, (s.tryFire c 0).2 = true ∧ ((s.tryFire c 0).1.graph c.g.id).isSome = true)) ∧
    (graphed (nodeBytes 0 0 2 2 1 1 [])).candidates 1 = [] ∧
    (let n : FaultNote := ⟨8, 0, 5, 0, none⟩
     let s := graphed (nodeBytes 0 0 2 2 1 1 [])
     n.firing = firingOne.id ∧ firingOne.graph = graphOne.id ∧ firingOne.state = .running ∧
       (let u : State := { s with faults := [n] }
        u.faults.find? u.faultReady = some n) ∧
       ({ s with faults := [n], held := [⟨firingOne.ctx, 0, 0, []⟩] } : State).ringTakes firingOne.ctx = false) ∧
    (let s := graphed (nodeBytes 0 0 2 2 1 1 [(88, 2, 1)])
     firingOne.largest = some teamOne ∧ teamOne.cur + (teamOne.hi - teamOne.cur + 1) / 2 + s.node graphOne 0 88 2 ≤ teamOne.hi ∧
       (s.node graphOne 0 52 4).testBit (0 / 4) = true ∧ s.sectorLive (0 / 4) = true ∧ (s.cellsIn graphOne 0 8 0).isSome = true) ∧
    (({ graphOne with walks := [0] } : Graph).walks = [0]) ∧
    (let f := { firingOne with state := .pending, retryAt := some 0 }
     f.state = .pending ∧ f.lost = none ∧ f.retryAt = some 0 ∧ (0 : Nat) ≤ 0 ∧
       ({ f with lost := some 1 } : Firing).lost = some 1 ∧ (graphed []).isOffline 1 = false) := by
  decide +kernel

/-- The same, for stage nodes: a waiting team with an end and with a set, a donor with two teams and a recipient with tokens. -/
theorem witness_StageNodes :
    (let u := { teamOne with waiting := [0] }
     let f := { firingOne with teams := [u] }
     let s : State := { graphed (nodeBytes 0 2 2 2 1 1 []) with firings := [f] }
     u.waits = true ∧ u.answer = none ∧ u.cells ≠ [] ∧ s.nextSet f graphOne u = some none ∧
       (let h := { f with works := [⟨0, [], [], 0, 0⟩] }
        s.nextSet h graphOne u = some (some []))) ∧
    (let f := { firingOne with teams := [teamOne, { teamOne with id := 10, cells := [1] }], winSize := 0 }
     let h := { firingOne with id := 11, node := 1, teams := [{ teamOne with id := 12, cells := [2] }], clusters := [] }
     let s : State := { graphed ((0x500006, 2, 2) :: (0x500014, 4, 0x400) :: (0x500412, 2, 5) ::
       (nodeBytes 0 2 2 2 1 1 [] ++ nodeBytes 1 2 2 2 1 1 [(12, 2, 0)])) with firings := [f, h], now := 30000 }
     s.stageFiring graphOne 0 = some f ∧ s.stageFiring graphOne 1 = some h ∧ f.team 9 = some teamOne ∧
       graphOne.lastMove + 30000 ≤ s.now ∧ s.isDonor graphOne 0 = true ∧ s.isRecipient graphOne 1 = true ∧
       (∀ i, i < s.nodeCount graphOne → s.isDonor graphOne i = true → s.heldBefore graphOne 0 ≤ s.heldBefore graphOne i) ∧
       (∀ i, i < s.nodeCount graphOne → s.isRecipient graphOne i = true → s.heldBefore graphOne i ≤ s.heldBefore graphOne 1) ∧
       teamOne.over = false ∧ teamOne.leaving = none ∧ (s.node graphOne 1 52 4).testBit (teamOne.cluster / 4) = true ∧
       (s.setFiring (f.without teamOne)).mayJoin h teamOne = true) := by
  decide +kernel

/-- The same, for pre-emption: a team whose cells a class-0 node wants, and saved contexts whose cells are free, of a task and of a
handler that had no command left. -/
theorem witness_Preemption :
    (let f := { firingOne with winSize := 65536 }
     let g := { graphOne with armed := [⟨0, 4, 3⟩] }
     let s : State := { graphed (nodeBytes 0 1 0 1 3 1 [(50, 2, 65)]) with firings := [f], graphs := [g] }
     s.teamOf 9 = some (f, teamOne) ∧ f.state = .running ∧ f.cls ≠ 0 ∧ teamOne.cells.Nodup ∧
       (∀ id ∈ teamOne.cells, (s.cell id).running = true ∧ (s.cell id).team = 9) ∧ s.wantedBy0 f teamOne = true) ∧
    (let c := { (graphed []).cpu with id := 5 }
     let d := { c with id := 6, handler := true, capture := some ⟨[], 0x4000⟩ }
     let s : State := { graphed [] with saved := [c, d] }
     s.saved.filter (fun k => k.team = 9) = [c, d] ∧ ([c, d].map (fun c => c.id)).Nodup ∧
       (∀ e ∈ [c, d], (s.cell e.id).running = false ∧ (s.cell e.id).firing = 0 ∧ e.pending = [] ∧ (e.handler = false → e.replay = [])) ∧
       c.handler = false ∧ d.handler = true ∧ d.capture = some ⟨[], 0x4000⟩) := by
  decide +kernel

/-- Queue 5 of PASID 1, its QCB at 0x700000 and its ring of two entries at 0x800000, with one packet and no buffer open. -/
def queueOne : QueueRun := ⟨1, 5, 0x700000, true, [], [], false, false, false⟩
def queued (r : QueueRun) (typ flags units : Nat) (more : List (Nat × Nat × Nat)) : State :=
  let s := graphed ([(0x700000, 8, 0x800000), (0x700008, 2, 2), (0x70000A, 2, 1), (0x70000C, 1, 2), (0x700010, 4, 1), (0x700024, 2, 2),
    (0x800000, 1, typ), (0x800001, 1, flags), (0x800002, 2, units), (0x800004, 4, 3), (0x800008, 8, 77)] ++ more)
  { s with
    booted := some 0
    queues := [r] }
def walked : QcbWalk → Option (Nat × State)
  | .ok q s => some (q, s)
  | _ => none
theorem walked_ok (w : QcbWalk) (q : Nat) (p : State → Bool) (h : (walked w).any (fun e => e.1 == q && p e.2) = true) :
    ∃ u, w = .ok q u ∧ p u = true := by
  cases w with
  | ok k u =>
    simp only [walked, Option.any_some, Bool.and_eq_true, beq_iff_eq] at h
    exact ⟨u, by rw [h.1], h.2⟩
  | _ => simp [walked] at h
def headOf (s : State) (r : QueueRun) : Packet := (s.headPacket r).getD ⟨0, 0, 0, 0, 0, [], 0, 0⟩

/-- A record that passes the launch check: one compute node with no ports. -/
def launchable : List (Nat × Nat × Nat) :=
  [(0x500000, 4, 0x47525A59), (0x500004, 2, 1)] ++ nodeBytes 0 0 2 0 1 1 [(50, 2, 64), (84, 4, 4), (88, 2, 1)]

/-- The channel of a key is in all-bank mode. -/
def closed (key : Nat) (s : State) : State :=
  let c := chanOf s.fuses key
  { s with channels := [⟨c.1, c.2, .allBank, none, some 1, none, 0, false, Vector.replicate 16 restingBank, none, false, [], false⟩] }

/-- Without a channel in use no request waits at one. -/
theorem open_home (s : State) (key : Nat) (h : s.channels = []) : s.homeWaits key = false := by
  simp [State.homeWaits, State.channel, h]

/-- What holds of every value of a packet holds of those that are addresses. -/
theorem addresses_all (t : List Byte) (bufs : List Word) (p : Word → Prop) (h : ∀ a ∈ bufs, p a) : ∀ a ∈ addressesOf t bufs, p a := by
  intro a ha
  simp only [addressesOf, List.mem_map, List.mem_filter] at ha
  obtain ⟨b, ⟨hb, _⟩, rfl⟩ := ha
  exact h _ (List.fst_mem_of_mem_zipIdx hb)

/-- QueuesRunTheirPackets, the network engine: a table walk that is refused, one that finds its queue, one that waits at a channel, a byte
that may be written, a level that is not present, an event to take, and no firmware. -/
theorem witness_NetworkEngine :
    (cached.up = false ∧ (let s := queued queueOne 4 1 1 []
     s.up = true ∧ s.arrivals = [] ∧ s.remoteWrites = [] ∧ s.postings = [] ∧ s.qcbWalk 1 64 = .refused ∧
       (List.replicate 257 (0 : Byte)).length = 257)) ∧
    (let s : State := { queued queueOne 4 1 1 [(0x900008, 8, 0xA00003), (0xA00028, 8, 0x700003), (0x900010, 8, 1)] with
       pasidBase := 0x900000 }
     (∃ u, s.qcbWalk 1 5 = .ok 0x700000 u ∧ (!u.qcbFull 0x700000 && decide (u.fwEvents.length < 4096) &&
       !u.ctxWaits (u.qcbCtx 0x700000) (u.ringEntry 0x700000 (u.qcbTail 0x700000)) 256) = true) ∧
       (s.qcbWalk 2 5 = .absent 0x900010 ∧ (s.tableEntry 0x900010).getLsbD 0 = true ∧ (s.tableEntry 0x900010).getLsbD 1 = false ∧
        s.homeWaits 0x900010 = false ∧ (closed 0x900008 s).up = true ∧ (closed 0x900008 s).arrivals = [] ∧
        (closed 0x900008 s).remoteWrites = [] ∧ (closed 0x900008 s).qcbWalk 1 5 = .held 0x900008)) ∧
    (let s := queued queueOne 4 1 1 []
     s.pasidContext 1 = some placedContext ∧ s.context 1 = some placedContext ∧ s.ctxWaits 1 0xB00000 1 = false ∧
       s.writableByte 1 0xB00000 = true ∧ s.ctxKey 1 0xB00000 = some 0xB00000 ∧ s.writableByte 1 0x40000000000000 = false ∧
       s.MemOk) ∧
    (let r := { queueOne with locked := false }
     let s : State := { queued r 4 1 1 [] with fwEvents := [(1, 5)] }
     s.queueRun 1 5 = some r ∧ r.disabling = false ∧ (s.queues.filter (fun x => x.locked)).length < 12 ∧ s.qcbState r.qcb = 2 ∧
       s.qcbEmpty r.qcb = false ∧ s.homeWaits r.qcb = false) := by
  refine ⟨by decide +kernel, ⟨walked_ok _ _ _ (by decide +kernel), by decide +kernel⟩, ?_, by decide +kernel⟩
  unfold State.MemOk
  decide +kernel

/-- The same, the packets: one of each type at the head of a locked queue, with a slot, a record and launches in each state. -/
def slotOne : Slot := ⟨4, 1, 1, 0, 0x500000, 4, [], [], 0, List.replicate 256 0, [], none, false⟩

theorem witness_Packets :
    (∀ e ∈ [(1, 2), (2, 2), (3, 2), (4, 1), (5, 3), (6, 3), (7, 2)],
      let s := queued queueOne e.1 1 e.2 [(0x800010, 8, if e.1 = 1 ∨ e.1 = 6 ∨ e.1 = 7 then 4 else 0x500000),
        (0x800018, 4, if e.1 = 3 then 16 else 0)]
      let p := headOf s queueOne
      s.queueRun 1 5 = some queueOne ∧ s.headPacket queueOne = some p ∧ s.homeWaits queueOne.qcb = false ∧ p.typ = e.1 ∧ p.flags = 1 ∧ p.error = none ∧ p.depth < 4) ∧
    (let s := queued { queueOne with fencing := true } 4 1 1 []
     (s.headPacket { queueOne with fencing := true }).isSome = true ∧ queueOne.sources = [] ∧
       (s.cqFull queueOne.qcb = false ∧ ({ queueOne with launches := [7] } : QueueRun).launches = [7])) ∧
    (let s := queued queueOne 1 1 2 launchable
     let x := { slotOne with template := s.ctxBytes 1 0x500000 256 }
     s.ctxWaits 1 x.graph x.template.length = false ∧
       recordOk ((s.restoreRecord 1 x.graph (bytesRec x.template)).recordAt 1 x.graph) = true ∧
       ({ x with leaving := true } : Slot).leaving = true ∧ ({ x with pasid := 2 } : Slot).pasid ≠ queueOne.pasid ∧
       s.ctxKey 1 0x40000000000000 = none ∧ s.ctxWaitsAt 1 0x500000 = false ∧ (s.ctxKey 1 0x500000).isSome = true ∧
       (∀ k ∈ s.unpinned 1 [0x500000], s.homeWaits k = false) ∧ s.unpinned 1 [0x500000] ≠ [] ∧
       (∃ l, s.leafOf 1 0x500000 = some l ∧ l.2.getLsbD 2 = true)) ∧
    (∀ e ∈ [(0x500000, true), (0x40000000000000, false)],
      let s := queued queueOne 1 1 2 [(0x800010, 2, 4), (0x800012, 1, 1), (0x800018, 8, e.1)]
      let p := headOf s queueOne
      s.headPacket queueOne = some p ∧ p.error = none ∧ p.buffers = [BitVec.ofNat 64 e.1] ∧
        s.ctxWaitsAt 1 (BitVec.ofNat 64 e.1) = false ∧ (s.ctxKey 1 (BitVec.ofNat 64 e.1)).isSome = e.2) ∧
    (∀ (t : List Byte) (bufs : List Word) (p : Word → Prop), (∀ a ∈ bufs, p a) → ∀ a ∈ addressesOf t bufs, p a) ∧
    ((∀ k ∈ slotOne.pages, (queued queueOne 7 1 2 []).homeWaits k = false) ∧ slotOne.leaving = false ∧ slotOne.pasid = queueOne.pasid ∧ slotOne.launch = none ∧
      ({ queued queueOne 1 1 2 [] with slots := [slotOne] } : State).slot 4 = some slotOne) ∧
    (let s := queued queueOne 2 1 2 launchable
     (s.context (s.qcbCtx 0x700000)).isSome = true ∧ s.recordWaits 1 0x500000 = false ∧
       (0x500000#64).toNat % 128 = 0 ∧ s.recordMapped 1 0x500000 = true ∧ recordOk (s.recordAt 1 0x500000) = true ∧
       s.recordAt 1 0x500000 12 1 ≠ 1 ∧ s.recordAt 1 0x500000 12 1 ≠ 4) ∧
    ((queued queueOne 4 1 1 []).launchEnded 99 = true ∧ (queued queueOne 4 1 1 [(0x50000C, 1, 1)]).launchEnded 7 = false) :=
  ⟨by decide +kernel, by decide +kernel, by decide +kernel, by decide +kernel, addresses_all, by decide +kernel, by decide +kernel,
    by decide +kernel⟩

/-- AdminPacketsTakeEffect: a packet of an ADMIN operation whose fields the manual places, from a PASID on the privileged list and
off it, with values at both sides of each limit. The fields of the other operations are free (DESIGN CHOICE, assumption log 25): their clauses are
met where the free fields fall as each names; a record and QCB bytes that may be taken stand here for those. -/
theorem witness_AdminPackets :
    (∀ e ∈ [(7, 250), (7, 251)],
      let s := queued queueOne 8 1 2 [(0x800010, 1, e.1), (0x800012, 2, e.2)]
      let p := headOf s queueOne
      s.up = true ∧ s.queueRun 1 5 = some queueOne ∧ s.headPacket queueOne = some p ∧ p.error = none ∧ p.typ = 8 ∧ p.op = e.1 ∧
        p.at 18 2 = e.2 ∧ p.form = 0 ∧ queueOne.sources = [] ∧ s.postings = [] ∧
        s.homeWaits queueOne.qcb = false ∧ s.isPrivileged 1 = false ∧ ({ s with privileged := [(0, 1)] } : State).isPrivileged 1 = true) ∧
    (let s := queued queueOne 8 1 2 [(0x800010, 1, 8), (0x800011, 1, 7), (0x800012, 2, 20), (0x800014, 2, 500), (0x800016, 4, 9)]
     let p := headOf s queueOne
     p.error = none ∧ p.op = 8 ∧ p.at 17 1 < liveStacks s.fuses ∧ p.at 18 2 < p.at 20 2 ∧ p.at 20 2 ≤ 500 ∧ p.at 22 4 ≠ 0) ∧
    ((graphed []).graphs.find? (fun x => x.ctx == 1 && x.va == BitVec.ofNat 64 0x500000) = some graphOne ∧
      (graphed []).graphWaits graphOne = false ∧ 0 < (graphed []).nodeCount graphOne ∧
      (let f : Firing := { firingOne with state := .faulted }
       ({ graphed (nodeBytes 0 0 2 4 1 1 []) with firings := [f] } : State).faultedOf graphOne 0 = some f) ∧
      (graphed (nodeBytes 0 0 2 4 1 1 [])).nodeState graphOne 0 = 4 ∧ (graphed (nodeBytes 0 0 2 6 1 1 [])).nodeState graphOne 0 = 6) ∧
    (∀ k, (queued queueOne 8 1 2 []).homeWaits k = false) ∧
    (graphed []).createContext [] = none ∧ (graphed []).enableQueue 1 64 [] = none ∧
    ((graphed []).createContext ([2, 0] ++ List.replicate 8 0 ++ [0x30] ++ List.replicate 13 0 ++ [6] ++ List.replicate 39 0)).isSome = true ∧
    ((graphed []).enableQueue 1 5 ([0, 0, 0, 0, 0, 0, 0, 0, 2, 0, 1, 0] ++ List.replicate 24 0 ++ [2, 0] ++ List.replicate 10 0)).isSome = true :=
  ⟨by decide +kernel, by decide +kernel, by decide +kernel, fun _ => open_home _ _ rfl, by decide +kernel, by decide +kernel,
    by decide +kernel, by decide +kernel⟩

/-- LinksTurnThroughTheirStates: a link in each state with its age at each side of its limits, with 64 retries in the last millisecond
and with more, whose change cuts a die off and whose change cuts none, with a message or a flit in flight and drained, and in recovery. -/
def linked (st : Nat) (retries : List Nat) (failed : Bool) : State :=
  { cached with
    links := [⟨0, 1, 4, 4, st, retries, failed⟩, ⟨0, 2, 4, 4, 0, [], false⟩, ⟨1, 3, 4, 4, 0, [], false⟩, ⟨2, 3, 4, 4, 0, [], false⟩]
    now := 150000000 }
def keptOf (s : State) (l : Link) : List Nat := s.now :: l.retries.filter (fun x => s.now < x + 1500000)

theorem witness_Links :
    (let few := List.replicate 63 149999999
     let many := List.replicate 64 149999999
     (keptOf (linked 0 few false) ⟨0, 1, 4, 4, 0, few, false⟩).length ≤ 64 ∧
       64 < (keptOf (linked 0 many false) ⟨0, 1, 4, 4, 0, many, false⟩).length ∧
       (let s := linked 0 many false
        s.recovery = false ∧ s.links[0]? = some ⟨0, 1, 4, 4, 0, many, false⟩ ∧
          ∀ d ∈ [0, 1], ({ s with links := s.links.set 0 ⟨0, 1, 4, 4, 1, [], false⟩ } : State).isCut d = true → s.isOffline d = true) ∧
       (let s : State := { linked 0 many false with links := [⟨0, 1, 4, 4, 0, many, false⟩] }
        s.resets = [] ∧ s.firings = [] ∧ s.channels = [] ∧ (∀ c ∈ s.copiers, c.state = .retired) ∧
          ({ s with links := s.links.set 0 ⟨0, 1, 4, 4, 1, many, false⟩ } : State).isCut 0 = true)) ∧
    ({ linked 0 [] false with recovery := true } : State).recovery = true ∧
    ((linked 1 [] false).linkDrained 0 = true ∧
      (∀ d ∈ [0, 1], (linked 1 [] false).isCut d = true → (linked 1 [] false).isOffline d = true) ∧
      ({ linked 1 [] false with wires := [⟨0, false, 0, 4, [⟨0, 0, [], []⟩]⟩] } : State).linkDrained 0 = false ∧
      ({ linked 1 [] false with streams := [⟨0, false, [⟨0, 0⟩], [], []⟩] } : State).linkDrained 0 = false) ∧
    (150000000 ≤ (linked 2 [] true).linkAge 0 ∧ 1500000 ≤ (linked 2 [] false).linkAge 0 ∧
      ({ linked 2 [] false with linkTimes := [(0, 150000000)] } : State).linkAge 0 < 1500000 ∧
      (∀ r ∈ (linked 2 [] true).resets, r.die = 0 ∨ r.die = 1 → r.step ≠ 3)) ∧
    (let s : State := { linked 3 [] false with links := [⟨0, 1, 4, 0, 3, [], false⟩] }
     s.resets = [] ∧ s.firings = [] ∧ s.channels = [] ∧ (∀ c ∈ s.copiers, c.state = .retired) ∧
       ({ s with links := s.links.set 0 ⟨0, 1, 4, 0, 2, [], true⟩ } : State).isCut 0 = true ∧
       ∀ d ∈ [0, 1], ({ s with offline := [0, 1] } : State).isOffline d = true) ∧
    (0 < 4 ∧ 4 ≤ 4 ∧ (∀ d ∈ [0, 1], (linked 3 [] false).isOffline d = false) ∧ (linked 3 [] false).resets = [] ∧
      (linked 3 [] false).firings = [] ∧ ({ linked 3 [] false with offline := [1] } : State).isOffline 1 = true) := by
  decide +kernel

/-- AWarmResetTakesItsSteps: a reset of each step, with links that are drained, that train and that have rested for 1 ms or less, with an
Active ring link of its die and with none, and no firmware that runs. -/
theorem witness_WarmReset :
    (let s := linked 2 [] false
     s.up = false ∧ ({ s with booted := some 0 } : State).up = true ∧ s.resets = [] ∧ s.firings = [] ∧ s.channels = [] ∧
       ∀ c ∈ s.copiers, c.state = .retired) ∧
    (let s : State := { linked 2 [] false with
       links := [⟨0, 1, 4, 0, 2, [], false⟩, ⟨0, 2, 4, 4, 1, [], false⟩, ⟨1, 3, 4, 4, 0, [], false⟩, ⟨2, 3, 4, 4, 0, [], false⟩]
       resets := [⟨0, 2⟩] }
     s.resets = [⟨0, 2⟩] ∧ (∀ j ∈ List.range 4, s.linkDrained j = true) ∧ (∀ l ∈ s.links, l.a = 0 ∨ l.b = 0 → l.state ≤ 2) ∧
       (∀ d ∈ [1, 2, 3], ∃ l ∈ s.links, l.state = 0 ∧ l.b < 4 ∧ (l.a = d ∨ l.b = d) ∧ l.a ≠ 0 ∧ l.b ≠ 0)) ∧
    (let s : State := { linked 2 [] false with
       links := [⟨0, 1, 4, 0, 2, [], false⟩, ⟨0, 2, 4, 0, 2, [], false⟩, ⟨1, 3, 4, 4, 0, [], false⟩, ⟨2, 3, 4, 4, 0, [], false⟩]
       linkTimes := [(0, 148500000), (1, 148500000)]
       resets := [⟨0, 4⟩] }
     (∀ l ∈ s.links, l.a = 0 ∨ l.b = 0 → l.state = 2 ∧ l.failed = false) ∧ 1500000 ≤ s.linkAge 0 ∧ 1500000 ≤ s.linkAge 1 ∧
       ({ s with linkTimes := [(0, 148500001)] } : State).linkAge 0 < 1500000 ∧
       (∀ d, d < 4 → d ≠ 0 → s.isCut d = true → s.isOffline d = true) ∧
       (∀ l ∈ s.links, l.a = 0 ∨ l.b = 0 → l.state ≠ 3) ∧ s.isCut 0 = true) ∧
    ((linked 3 [] false).isCut 0 = false ∧ ∃ l ∈ (linked 3 [] false).links, (l.a = 0 ∨ l.b = 0) ∧ l.state = 3) ∧
    (cached.cells = [] ∧ cached.blocks = [] ∧ cached.cpu.die = 0 ∧ cached.unitDie 1 0 = 0) := by
  decide +kernel

/-- MessagesTakeTheirChannelsCredits: headers that fit their kind, for each kind; a route that takes the link; a tag in use and one that
is not; a link that is Active with credits for the message and without, and one that is not. -/
theorem witness_Messages :
    (∀ k ∈ [1, 2, 3, 4, 5, 6, 7, 8, 9, 10, 11, 12, 13, 14, 15, 16],
      let ch := if k = 4 then 2 else if k ≤ 8 then 0 else if k ≤ 11 then 1 else 3
      let hdr : BitVec 128 := BitVec.ofNat 128 (k + ch * 2 ^ 5 + 0 * 2 ^ 13 + 1 * 2 ^ 16)
      (hdr.extractLsb' 0 5).toNat = k ∧ (hdr.extractLsb' 5 3).toNat = ch ∧ hdr.getLsbD 8 = false ∧ hdr.getLsbD 31 = false ∧
        (hdr.extractLsb' 9 4).toNat = 0 ∧ (hdr.extractLsb' 13 3).toNat = 0 ∧ (hdr.extractLsb' 16 3).toNat = 1) ∧
    (linked 0 [] false).route 0 1 0 = some (0, false) ∧ (linked 0 [] false).txns = [] ∧ (linked 0 [] false).recovery = false ∧
    (linked 0 [] false).resets = [] ∧
    (let x : Txn := ⟨0, 5, 1, none⟩
     x.die = 0 ∧ x.tag = 5 ∧ x.answer.isSome = false) ∧
    (let w : Wire := ⟨0, false, 0, 1, []⟩
     let s : State := { linked 0 [] false with wires := [w] }
     s.wires.find? (fun v => v.link == 0 && v.back == false && v.chan == 0) = some w ∧ 1 + 0 ≤ w.credits ∧ w.credits < 1 + 1) ∧
    (linked 1 [] false).links[0]? = some ⟨0, 1, 4, 4, 1, [], false⟩ := by
  decide +kernel

/-- EffectersSetWhatTheyName and BootTakesTheSlotOfTheMarkers: values at both sides of each limit, records that may be taken, firmware slots and markers in each state.
Whether an image verifies is free (DESIGN CHOICE, assumption log 16): each clause on it is met where it verifies as the clause says. -/
theorem witness_Management :
    (15 < 16 ∧ 2 ^ 20 - 1 < 2 ^ 20 ∧ 1 ≤ 43200 ∧ 43200 ≤ 30 * 24 * 60 ∧ 1 ≤ 65535) ∧
    (let s : State := { graphed [] with booted := some 0 }
     let record : List Byte := [2, 0] ++ List.replicate 12 0 ++ [0, 0] ++ List.replicate 8 0 ++ [6] ++ List.replicate 39 0
     s.up = true ∧ bytesRec record 8 8 = 0 ∧ record.length = 64 ∧ contextOk (bytesRec record) = true ∧ s.context 2 = none ∧
       bytesRec record 16 8 + 64 + 64 * 2 ^ bytesRec record 24 1 < 2 ^ 30 ∧ (∀ c ∈ s.contexts, c.bootstrap = false) ∧
       bytesRec (List.replicate 8 0 ++ [1]) 8 8 ≠ 0 ∧ s.postings = []) ∧
    (∀ key, (graphed []).homeWaits key = false) ∧ State.reset.up = false ∧
    (let old : State := { cached with errors := List.replicate 15 (4, 2, 0) }
     (old.errors.filter (fun e => e.1 = 4 && e.2.1 = 2 && old.standbyNow < e.2.2 + 1 * 90000000000)).length = 15) ∧
    (State.reset.booted = none ∧ State.reset.inactive = 1 ∧ (State.reset.fwSlot 1).state = .empty ∧
      State.reset.markers[1].seq < State.reset.markers[0].seq ∧ State.reset.markers[0].seq < 2 ^ 32 - 1 ∧
      State.reset.markers[0].sound = true ∧ State.reset.markers[0].slot = 0 ∧ (State.reset.fwSlot 0).state ≠ .writing ∧
      (State.reset.fwSlot 0).state ≠ .empty ∧ (∀ i : Fin 2, State.reset.markers[i].slot < 2)) ∧
    (let s : State := { State.reset with fwSlots := ⟨#[⟨.active, []⟩, ⟨.staged, []⟩], rfl⟩ }
     (s.fwSlot s.inactive).state = .staged ∧ s.markers[1].seq < s.markers[0].seq ∧ s.postings = [] ∧ s.up = false) ∧
    (let s : State := { State.reset with fwSlots := ⟨#[⟨.active, []⟩, ⟨.writing, []⟩], rfl⟩ }
     (s.fwSlot s.inactive).state = .writing) :=
  ⟨by decide +kernel, by decide +kernel, fun _ => open_home _ _ rfl, by decide +kernel, by decide +kernel, by decide +kernel,
    by decide +kernel, by decide +kernel⟩

/-- PlacementTablesFollowInSequence and ErrorsAreCountedAndPoison: an update in turn, one across a gap and one that is old, also where
the sequence passes 2^32, a block placed and one that is not, an update not acknowledged for 2 ms and one within them, acknowledgements
that come after the last and before it, no firmware that runs, events below and at the threshold, a line of the L1 that holds a word
and none, and registers. -/
theorem witness_PlacementsAndErrors :
    (let s : State := { cached with booted := some 0 }
     let ahead (last seq : Nat) : Nat := (seq + 2 ^ 32 - (last + 1) % 2 ^ 32) % 2 ^ 32
     cached.up = false ∧ s.up = true ∧ (s.placement 1).seq = 0 ∧ ahead 0 1 = 0 ∧ ahead 0 2 = 1 ∧ 2 ^ 31 ≤ ahead 0 0 ∧
       ahead (2 ^ 32 - 1) 0 = 0 ∧ ahead (2 ^ 32 - 1) 1 = 1 ∧ 2 ^ 31 ≤ ahead (2 ^ 32 - 1) (2 ^ 32 - 1) ∧
       (3 ≠ s.chipId ∧ 0 = s.chipId) ∧ (∀ h < 8, (6, h) ∉ (s.placement 1).blocks) ∧ (∀ a ∈ (s.placement 1).acks, a.2.2 = false) ∧
       ∀ e ∈ (s.placement 1).sentAt, seqAfter e.1 ((s.placement 1).acked 3) = false) ∧
    (let s : State := { cached with
       booted := some 0
       placements := [⟨1, 1, [(6, 0)], [(3, 0, false)], [(1, 0)], [(1, 6, 0)]⟩]
       now := 3000000 }
     (6, 0) ∈ (s.placement 1).blocks ∧
       (∃ e ∈ (s.placement 1).sentAt, seqAfter e.1 ((s.placement 1).acked 3) = true ∧ e.2 + 3000000 ≤ s.now) ∧
       (let u : State := { s with now := 2999999 }
        ∀ e ∈ (u.placement 1).sentAt, u.now < e.2 + 3000000) ∧
       seqAfter 1 ((s.placement 1).acked 3) = true ∧ seqAfter 0 ((s.placement 1).acked 3) = false ∧
       (∀ e ∈ (s.placement 1).sentAt, seqAfter e.1 1 = false) ∧ ∃ e ∈ (s.placement 1).sentAt, seqAfter e.1 0 = true) ∧
    (let count (s : State) : Nat := ((s.errors ++ [(4, 2, s.standbyNow)]).filter (fun (e : Nat × Nat × Nat) =>
       e.1 = 4 && e.2.1 = 2 && s.standbyNow < e.2.2 + s.errWindow * 90000000000)).length
     0 < cached.errWindow ∧ 0 < cached.errThreshold ∧ count cached < cached.errThreshold ∧
       cached.errThreshold ≤ count { cached with errors := List.replicate 15 (4, 2, 0) } ∧
       count { cached with errors := List.replicate 15 (4, 2, 0), standbyTime := cached.errWindow * 90000000000 } = 1) ∧
    (let x : L1Line := ⟨4, 5, (-1 : BitVec 128), 0, 0⟩
     (on cached (fun c => { c with l1 := [x] })).cpu.l1.find? (fun y => lineKey cached.fuses y.no == 0x208 / 128 * 128) = some x ∧
       cached.cpu.l1 = [] ∧ cached.graphs = []) ∧
    (regOf 5 = some (.x 5) ∧ regOf 151 = some (.acc 23) ∧ regOf 0 = none ∧ regOf 152 = none) := by
  decide +kernel

/-! ### Single steps: results worked out by hand from the rules -/

/-- What a run of an instruction leaves in `X(5)`, and where it leaves the pc; its state and the cause of its trap. -/
def ran (i : Instr) (s : State) : Option State :=
  match exec i s with
  | .next t => some t
  | _ => none
def x5 (i : Instr) (l : List (BitVec 5 × Word)) : Option Word := (ran i (withX cached l)).map (fun t => t.x 5)
def pcAfter (i : Instr) (l : List (BitVec 5 × Word)) : Option Word := (ran i (withX cached l)).map (fun t => t.cpu.pc)
def causeOf (i : Instr) (s : State) : Option Word := (ran i s).map (fun t => t.cpu.tcause)

/-- The RV64 base: corners of the published instructions (R43). -/
theorem test_addi_sign : x5 (.addi 5 6 0xFFF) [(6, 0)] = some (-1) := by decide +kernel
theorem test_lui_sign : x5 (.lui 5 0x80000) [] = some 0xFFFFFFFF80000000 := by decide +kernel
theorem test_auipc : x5 (.auipc 5 1) [] = some 0x2000 := by decide +kernel
theorem test_sltiu_of_minus_one : x5 (.sltiu 5 6 0xFFF) [(6, 5)] = some 1 := by decide +kernel
theorem test_addw_sign : x5 (.addw 5 6 7) [(6, 0x7FFFFFFF), (7, 1)] = some 0xFFFFFFFF80000000 := by decide +kernel
theorem test_sra_amount : x5 (.sra 5 6 7) [(6, 0x8000000000000000), (7, 0x43)] = some 0xF000000000000000 := by decide +kernel
theorem test_srlw : x5 (.srlw 5 6 7) [(6, 0xFFFFFFFF80000000), (7, 31)] = some 1 := by decide +kernel
theorem test_sraiw : x5 (.sraiw 5 6 4) [(6, 0x80000000)] = some 0xFFFFFFFFF8000000 := by decide +kernel
theorem test_div_by_zero : x5 (.div 5 6 7) [(6, 9)] = some (-1) := by decide +kernel
theorem test_div_overflow : x5 (.div 5 6 7) [(6, 0x8000000000000000), (7, -1)] = some 0x8000000000000000 := by decide +kernel
theorem test_div_rounds_to_zero : x5 (.div 5 6 7) [(6, -7), (7, 2)] = some (-3) := by decide +kernel
theorem test_rem_sign : x5 (.rem 5 6 7) [(6, -7), (7, 2)] = some (-1) := by decide +kernel
theorem test_rem_by_zero : x5 (.rem 5 6 7) [(6, 9)] = some 9 := by decide +kernel
theorem test_rem_overflow : x5 (.rem 5 6 7) [(6, 0x8000000000000000), (7, -1)] = some 0 := by decide +kernel
theorem test_divw_overflow : x5 (.divw 5 6 7) [(6, 0x80000000), (7, 0xFFFFFFFF)] = some 0xFFFFFFFF80000000 := by decide +kernel
theorem test_divuw_by_zero : x5 (.divuw 5 6 7) [(6, 5)] = some (-1) := by decide +kernel
theorem test_remuw_sign : x5 (.remuw 5 6 7) [(6, 0x80000000)] = some 0xFFFFFFFF80000000 := by decide +kernel
theorem test_mulh : x5 (.mulh 5 6 7) [(6, -1), (7, -1)] = some 0 := by decide +kernel
theorem test_mulhu : x5 (.mulhu 5 6 7) [(6, -1), (7, -1)] = some 0xFFFFFFFFFFFFFFFE := by decide +kernel
theorem test_mulhsu : x5 (.mulhsu 5 6 7) [(6, -1), (7, -1)] = some (-1) := by decide +kernel
theorem test_sh3add : x5 (.sh3add 5 6 7) [(6, 3), (7, 5)] = some 29 := by decide +kernel
theorem test_sh1add_uw : x5 (.sh1addUw 5 6 7) [(6, 0xFFFFFFFF00000001), (7, 5)] = some 7 := by decide +kernel
theorem test_slli_uw : x5 (.slliUw 5 6 4) [(6, 0xFFFFFFFFFFFFFFFF)] = some 0xFFFFFFFF0 := by decide +kernel
theorem test_x0_stays_zero : (ran (.addi 0 6 1) (withX cached [(6, 4)])).map (fun t => t.x 0) = some 0 := by decide +kernel
theorem test_jalr_same_register : x5 (.jalr 5 5 0) [(5, 0x2001)] = some 0x1004 ∧ pcAfter (.jalr 5 5 0) [(5, 0x2001)] = some 0x2000 := by
  decide +kernel
theorem test_blt_signed : pcAfter (.blt 6 7 8) [(6, -1)] = some 0x1010 ∧ pcAfter (.bltu 6 7 8) [(6, -1)] = some 0x1004 := by
  decide +kernel
theorem test_jal_misaligned : (ran (.jal 5 1) cached).map (fun t => (t.cpu.tcause, t.cpu.tepc, t.cpu.pc, t.cpu.rx 5)) =
    some (3, 0x1000, 0x4000, 0) := by decide +kernel

/-- Loads and stores: what a store leaves, little-endian, and how a load extends it (R44, R53). -/
def stored (i : Instr) (l : List (BitVec 5 × Word)) (s : State) : State := (ran i (withX s l)).getD s
theorem test_sw_lb : (ran (.lb 5 6 1) (stored (.sw 6 7 0) [(6, 0x3000), (7, 0x80C0)] uncached)).map (fun t => t.x 5) =
    some 0xFFFFFFFFFFFFFF80 := by decide +kernel
theorem test_sw_lhu : (ran (.lhu 5 6 0) (stored (.sw 6 7 0) [(6, 0x3000), (7, 0x80C0)] cached)).map (fun t => t.x 5) = some 0x80C0 := by
  decide +kernel
theorem test_lw_misaligned : causeOf (.lw 5 6 2) (withX cached [(6, 0x3000)]) = some 3 := by decide +kernel
theorem test_amoadd_w : (let s := stored (.sw 6 7 0) [(6, 0x3000), (7, 0x80000000)] uncached
    (ran (.amoaddW 5 6 8 0 0) (withX s [(8, 0x80000001)])).map (fun t => (t.x 5, readLE t.mem 0x3000 8))) =
    some (0xFFFFFFFF80000000, 1) := by decide +kernel
theorem test_amomaxu_d : (let s := stored (.sd 6 7 0) [(6, 0x3000), (7, 5)] uncached
    (ran (.amomaxuD 5 6 8 0 0) (withX s [(8, -1)])).map (fun t => (t.x 5, readLE t.mem 0x3000 8))) =
    some (5, 0xFFFFFFFFFFFFFFFF) := by decide +kernel
theorem test_sc_without_reservation : (ran (.scW 5 6 7 0 0) (withX uncached [(6, 0x3000), (7, 9)])).map
    (fun t => (t.x 5 == 0, readLE t.mem 0x3000 4)) = some (false, 0) := by decide +kernel
theorem test_lr_sc : (let s := stored (.lrW 8 6 0 0) [(6, 0x3000)] uncached
    (ran (.scW 5 6 7 0 0) (withX s [(7, 9)])).map (fun t => (t.x 5, readLE t.mem 0x3000 4))) = some (0, 9) := by decide +kernel

/-- Vector words, one lane each (R134 to R144). -/
def withV (s : State) (l : List (BitVec 5 × Lane)) : State := l.foldl (fun s p => s.setV p.1 (ofLanes (fun _ => p.2))) s
def lane3 (i : Instr) (s : State) : Option Lane := (ran i s).map (fun t => lane (t.cpu.rv 3) 3)
theorem test_vadd_wraps : lane3 (.vadd 0 1 2 3 7) (withV cached [(1, 0xFFFFFFFF), (2, 2)]) = some 1 := by decide +kernel
theorem test_vsub_order : lane3 (.vsub 0 1 2 3 7) (withV cached [(1, 1), (2, 5)]) = some 4 := by decide +kernel
theorem test_vmulh : lane3 (.vmulh 0 1 2 3 7) (withV cached [(1, 0xFFFFFFFF), (2, 1)]) = some 0xFFFFFFFF := by decide +kernel
theorem test_vsra : lane3 (.vsra 0 1 2 3 7) (withV cached [(1, 33), (2, 0x80000000)]) = some 0xC0000000 := by decide +kernel
theorem test_vmin_signed : lane3 (.vmin 0 1 2 3 7) (withV cached [(1, 0xFFFFFFFF), (2, 1)]) = some 0xFFFFFFFF ∧
    lane3 (.vminu 0 1 2 3 7) (withV cached [(1, 0xFFFFFFFF), (2, 1)]) = some 1 := by decide +kernel
theorem test_masked_lane_keeps : lane3 (.vadd 1 1 2 3 7) (withV cached [(1, 1), (2, 2), (3, 77)]) = some 77 := by decide +kernel
theorem test_viota : lane3 (.viota 0 5 6 3 7) (withX cached [(6, 10)]) = some 25 := by decide +kernel
theorem test_vfadd : lane3 (.vfadd 0 1 2 3 7) (withV cached [(1, 0x3F800000), (2, 0x33800000)]) = some 0x3F800000 ∧
    lane3 (.vfadd 0 1 2 3 7) (withV cached [(1, 0x3F800001), (2, 0x33800000)]) = some 0x3F800002 := by decide +kernel
theorem test_vfmul_invalid : lane3 (.vfmul 0 1 2 3 7) (withV cached [(1, 0x7F800000), (2, 0)]) = some 0x7FC00000 := by decide +kernel
theorem test_vfmin_nan : lane3 (.vfmin 0 1 2 3 7) (withV cached [(1, 0x7FC00001), (2, 0x3F800000)]) = some 0x3F800000 := by decide +kernel
theorem test_vfma_old_vd : lane3 (.vfma 0 1 2 3 7) (withV cached [(1, 0x40000000), (2, 0x40400000), (3, 0x3F800000)]) =
    some 0x40E00000 := by decide +kernel
theorem test_vfexp2_exact : lane3 (.vfexp2 0 2 3 7) (withV cached [(2, 0x40400000)]) = some 0x41000000 := by decide +kernel
theorem test_vfrcp_third : lane3 (.vfrcp 0 2 3 7) (withV cached [(2, 0x40400000)]) = some 0x3EAAAAAB := by decide +kernel
theorem test_vflog2 : lane3 (.vflog2 0 2 3 7) (withV cached [(2, 0x41000000)]) = some 0x40400000 := by decide +kernel
theorem test_vredsum_i32 : ((ran (.vredsumI32 0 2 3 7) (withV cached [(2, 3), (3, 9)])).map (fun t => lane (t.cpu.rv 3) 0)) =
    some 96 := by decide +kernel
theorem test_vcmplt : (ran (.vcmplt 0 1 2 3 7) (withV cached [(1, 1), (2, 0xFFFFFFFF)])).map (fun t => t.cpu.rk 3) =
    some 0xFFFFFFFF := by decide +kernel
theorem test_kpop : (ran (.kpop 1 5 7) (on cached (fun c => c.wk 1 0x80000010))).map (fun t => t.x 5) = some 2 ∧
    (ran (.kpopFirst 1 5 7) (on cached (fun c => c.wk 1 0x80000010))).map (fun t => t.x 5) = some 4 := by decide +kernel
theorem test_vslide_fills_zero : lane3 (.vslide 0 6 2 3 7) (withX (withV cached [(2, 5)]) [(6, 4)]) ≠
    lane3 (.vslide 0 6 2 3 7) (withX (withV cached [(2, 5)]) [(6, -4)]) := by decide +kernel
theorem test_vmvvx_sign : (ran (.vmvvx 0 2 5 7) (withV cached [(2, 0x80000000)])).map (fun t => t.x 5) = some 0xFFFFFFFF80000000 := by
  decide +kernel

/-- System words: an environment call, a listed CSR, one that is not, and one that only reads (R23, R45, R46). -/
theorem test_ecall : (ran .ecall cached).map (fun t => (t.cpu.handler, t.cpu.pc, t.cpu.tepc)) = some (true, 0x4000, 0x1000) := by
  decide +kernel
theorem test_csrrs_reads : x5 (.csrrs 5 0 0x804) [] = some 0x4000 := by decide +kernel
theorem test_csr_unlisted : decode 0x300312F3 = .error .csrAccess ∧ decode 0xC1031073 = .error .csrAccess := by decide +kernel

end Sys2Proof.Tests
end

/-! # Proofs: Camyar messages and their credits (O58) -/

namespace Sys2Proof.Machine

/-! ### What a link may carry (R404, R407, R408, R414) -/

/-- The channel of a kind of message, by the priority bit of the header (R408). -/
def channelOf (hdr : BitVec 128) (k : Nat) : Nat :=
  if k = 4 then 2 else if k ≤ 8 then (if hdr.getLsbD 8 then 4 else 0) else if k ≤ 11 then (if hdr.getLsbD 8 then 5 else 1) else 3

/-- The header decodes for a kind with `n` data slots, for link `l` in a direction (R407, R9). -/
def HeaderFits (l : Link) (back : Bool) (hdr : BitVec 128) (k n : Nat) : Prop :=
  hdrKind hdr = k ∧ hdrChan hdr = channelOf hdr k ∧ hdrData hdr = n ∧ n ≤ 8 ∧ hdr.getLsbD 31 = false ∧
    hdrSrc hdr = (if back then l.b else l.a) ∧ hdrDst hdr ≤ 4 ∧ hdrDst hdr ≠ hdrSrc hdr ∧
    (4 ≤ l.b → hdrDst hdr = if back then l.a else l.b) ∧ (l.b ≠ 4 → hdrDst hdr ≠ 4)

/-- Kinds of which a die waits for an answer (R407). -/
abbrev AsksAnswer (k : Nat) : Prop := k ≤ 3 ∨ (5 ≤ k ∧ k ≤ 8) ∨ k = 12

/-- Nothing but the link and its credits keeps a message of kind `k` from link `l`, which is link `i`. -/
def ClearToSend (s : State) (i : Nat) (l : Link) (back : Bool) (hdr : BitVec 128) (k n : Nat) : Prop :=
  HeaderFits l back hdr k n ∧ s.recovery = false ∧ s.route (hdrSrc hdr) (hdrDst hdr) (hdrPa hdr) = some (i, back) ∧
    (AsksAnswer k → ∀ x ∈ s.txns, x.die = hdrSrc hdr → x.tag = hdrTag hdr → x.answer.isSome = true) ∧
    ((∃ x ∈ s.resets, x.step ≤ 2 ∧ (x.die = l.a ∨ x.die = l.b)) → k = 4 ∨ (9 ≤ k ∧ k ≤ 11) ∨ k = 13 ∨ 15 ≤ k)

theorem mayCarry_iff (l : Link) (back : Bool) (k : Nat) (hdr : BitVec 128) (data : List (BitVec 128)) :
    mayCarry l back k hdr data = true ↔ HeaderFits l back hdr k data.length := by
  have hc : kindChan k (hdrPrio hdr) = channelOf hdr k := rfl
  have hs : l.sender back = if back then l.b else l.a := rfl
  have hr : l.receiver back = if back then l.a else l.b := rfl
  unfold mayCarry HeaderFits
  rw [hc, hs, hr]
  simp only [Bool.and_eq_true, Bool.or_eq_true, decide_eq_true_eq, Bool.not_eq_true', and_assoc]
  constructor
  · rintro ⟨h1, h2, h3, h4, h5, h6, h7, h8, h9, h10⟩
    exact ⟨h1, h2, h3, h4, h5, h6, h7, h8, fun h => h9.resolve_left (by omega), fun h => by omega⟩
  · rintro ⟨h1, h2, h3, h4, h5, h6, h7, h8, h9, h10⟩
    refine ⟨h1, h2, h3, h4, h5, h6, h7, h8, ?_, by omega⟩
    by_cases h : l.b < 4
    · exact .inl h
    · exact .inr (h9 (by omega))

theorem isRequest_iff {k : Nat} (h : 1 ≤ k) : isRequest k = true ↔ AsksAnswer k := by
  unfold isRequest AsksAnswer
  simp only [Bool.or_eq_true, Bool.and_eq_true, decide_eq_true_eq]
  omega

theorem tagBusy_eq_false_iff {s : State} {hdr : BitVec 128} {k : Nat} (hk : hdrKind hdr = k) (h : 1 ≤ k) :
    s.tagBusy hdr = false ↔
      (AsksAnswer k → ∀ x ∈ s.txns, x.die = hdrSrc hdr → x.tag = hdrTag hdr → x.answer.isSome = true) := by
  rw [← isRequest_iff h, ← hk]
  simp only [State.tagBusy, Bool.and_eq_false_imp, List.any_eq_false, Bool.and_eq_true, beq_iff_eq, not_and, and_imp,
    Option.isNone_iff_eq_none, Option.isSome_iff_ne_none, ne_eq]

theorem linkServes_iff (s : State) (l : Link) (k : Nat) :
    s.linkServes l k = true ↔
      ((∃ x ∈ s.resets, x.step ≤ 2 ∧ (x.die = l.a ∨ x.die = l.b)) → k = 4 ∨ (9 ≤ k ∧ k ≤ 11) ∨ k = 13 ∨ 15 ≤ k) := by
  have hno : (s.resets.all (fun r => 2 < r.step || (r.die ≠ l.a && r.die ≠ l.b))) = true ↔
      ¬ ∃ x ∈ s.resets, x.step ≤ 2 ∧ (x.die = l.a ∨ x.die = l.b) := by
    simp only [List.all_eq_true, Bool.or_eq_true, Bool.and_eq_true, decide_eq_true_eq, not_exists, not_and]
    exact forall₂_congr fun r _ => by omega
  simp only [State.linkServes, Bool.or_eq_true, hno, Bool.and_eq_true, decide_eq_true_eq, or_assoc, imp_iff_not_or]

/-- The guard of a sending is that of the rules. -/
theorem sendKind_of_clear {s : State} {i : Nat} {l : Link} (hl : s.links[i]? = some l) {k : Nat} (hk : 1 ≤ k) (back : Bool)
    (hdr : BitVec 128) (data : List (BitVec 128)) :
    (¬ ClearToSend s i l back hdr k data.length → sendKind k i back hdr data s = .next s) ∧
    (ClearToSend s i l back hdr k data.length → sendKind k i back hdr data s =
      .next ((s.putMessage i back hdr data []).elim s (fun t => t.noteTxn hdr))) := by
  have hg : (!s.recovery && mayCarry l back k hdr data && s.route (hdrSrc hdr) (hdrDst hdr) (hdrPa hdr) = some (i, back) &&
      !s.tagBusy hdr && s.linkServes l k) = true ↔ ClearToSend s i l back hdr k data.length := by
    unfold ClearToSend
    simp only [Bool.and_eq_true, Bool.not_eq_true', decide_eq_true_eq, mayCarry_iff, linkServes_iff]
    constructor
    · rintro ⟨⟨⟨⟨hr, hf⟩, ht⟩, hb⟩, hs⟩
      exact ⟨hf, hr, ht, (tagBusy_eq_false_iff hf.1 hk).mp hb, hs⟩
    · rintro ⟨hf, hr, ht, hb, hs⟩
      exact ⟨⟨⟨⟨hr, hf⟩, ht⟩, (tagBusy_eq_false_iff hf.1 hk).mpr hb⟩, hs⟩
  unfold sendKind
  simp only [hl]
  constructor
  · intro h
    rw [if_neg (mt hg.mp h)]
  · intro h
    rw [if_pos (hg.mpr h)]
    cases s.putMessage i back hdr data [] <;> rfl

/-! ### Credits (R408) -/

/-- The key of a channel of a link in a direction. -/
def Wire.is (i : Nat) (back : Bool) (chan : Nat) (v : Wire) : Bool := v.link == i && v.back == back && v.chan == chan

theorem Wire.is_iff {i : Nat} {back : Bool} {chan : Nat} {v : Wire} :
    v.is i back chan = true ↔ v.link = i ∧ v.back = back ∧ v.chan = chan := by
  simp [Wire.is, and_assoc]

theorem State.mem_setWire (s : State) {v w : Wire} (h : ¬ v.is w.link w.back w.chan = true) :
    v ∈ (s.setWire w).wires ↔ v ∈ s.wires := by
  rw [Wire.is_iff] at h
  simp only [State.setWire, List.mem_map, Bool.and_eq_true, decide_eq_true_eq, and_assoc]
  constructor
  · rintro ⟨u, hu, e⟩
    split at e
    · exact absurd ⟨congrArg Wire.link e.symm, congrArg Wire.back e.symm, congrArg Wire.chan e.symm⟩ h
    · exact e ▸ hu
  · exact fun hv => ⟨v, hv, if_neg h⟩

/-- The channel set is the one found under its key, if there was one. -/
theorem State.find_setWire (s : State) {i : Nat} {back : Bool} {chan : Nat} {v w : Wire}
    (h : s.wires.find? (Wire.is i back chan) = some v) (hw : w.is i back chan = true) :
    (s.setWire w).wires.find? (Wire.is i back chan) = some w := by
  obtain ⟨rfl, rfl, rfl⟩ := Wire.is_iff.mp hw
  have hkey : Wire.is w.link w.back w.chan ∘ (fun u => if u.link = w.link && u.back = w.back && u.chan = w.chan then w else u) =
      Wire.is w.link w.back w.chan := by
    funext u
    simp only [Function.comp_apply]
    split
    · rename_i hu
      rw [hw, eq_comm, Wire.is_iff]
      simpa [and_assoc] using hu
    · rfl
  have hv := Wire.is_iff.mp (List.find?_some h)
  simp only [State.setWire, List.find?_map, hkey, h, Option.map_some]
  simp [hv]

/-! ### Flits (R407) -/

/-- The slots put into a stream fill its flits in order: the full ones have 15 slots, the one in progress fewer. -/
theorem flitsOf_spec (n : Nat) (l : List CamyarSlot) (h : l.length ≤ n) :
    (∀ x ∈ (flitsOf n l).1, x.length = 15) ∧ (flitsOf n l).2.length < 15 ∧ (flitsOf n l).1.flatten ++ (flitsOf n l).2 = l := by
  induction n generalizing l with
  | zero =>
    obtain rfl : l = [] := List.eq_nil_of_length_eq_zero (by omega)
    simp [flitsOf]
  | succ n ih =>
    unfold flitsOf
    split
    · rename_i hl
      exact ⟨by simp, hl, rfl⟩
    · rename_i hl
      obtain ⟨hfull, hlast, hall⟩ := ih (l.drop 15) (by simp only [List.length_drop]; omega)
      refine ⟨?_, hlast, ?_⟩
      · simp only [List.forall_mem_cons]
        exact ⟨by simp only [List.length_take]; omega, hfull⟩
      · simp only [List.flatten_cons, List.append_assoc, hall, List.take_append_drop]

theorem Stream.put_spec (x : Stream) (slots : List CamyarSlot) :
    ∃ full, (x.put slots).flits = x.flits ++ full ∧ (∀ f ∈ full, f.length = 15) ∧ (x.put slots).filling.length < 15 ∧
      full.flatten ++ (x.put slots).filling = x.filling ++ slots :=
  ⟨_, rfl, flitsOf_spec _ _ (by simp)⟩

/-- A message without poison: its header, then its data. -/
theorem messageSlots_sound (hdr : BitVec 128) (data : List (BitVec 128)) :
    messageSlots hdr data [] = ⟨hdr, 0⟩ :: data.map (fun d => CamyarSlot.mk d 0) := by
  have hfst : (fun (d : BitVec 128 × Nat) => CamyarSlot.mk d.1 0) = (fun d => CamyarSlot.mk d 0) ∘ Prod.fst := rfl
  simp only [messageSlots, List.getD_nil]
  rw [hfst, ← List.map_map, List.zipIdx_map_fst]

theorem stream_key (s : State) (i : Nat) (back : Bool) : (s.stream i back).link = i ∧ (s.stream i back).back = back := by
  unfold State.stream
  cases h : s.streams.find? (fun x => x.link == i && x.back == back) with
  | none => exact ⟨rfl, rfl⟩
  | some x => simpa using List.find?_some h

theorem stream_setStream_same (s : State) (x : Stream) : (s.setStream x).stream x.link x.back = x := by
  simp [State.stream, State.setStream]

theorem stream_setStream_other (s : State) (x : Stream) {j : Nat} {b : Bool} (h : j ≠ x.link ∨ b ≠ x.back) :
    (s.setStream x).stream j b = s.stream j b := by
  have hx : ¬ (x.link == j && x.back == b) = true := by
    simp only [Bool.and_eq_true, beq_iff_eq, not_and]
    rintro rfl rfl
    simp at h
  have hkept : (fun (y : Stream) => decide ((!(y.link == x.link && y.back == x.back)) = true ∧ (y.link == j && y.back == b) = true)) =
      fun y => y.link == j && y.back == b := by
    funext y
    rw [Bool.eq_iff_iff, decide_eq_true_eq, and_iff_right_iff_imp]
    intro hy
    obtain ⟨rfl, rfl⟩ : y.link = j ∧ y.back = b := by simpa using hy
    simpa [← not_and_or] using h
  show ((x :: List.filter _ s.streams).find? _).getD _ = _
  rw [List.find?_cons_of_neg (p := fun (y : Stream) => y.link == j && y.back == b) hx, List.find?_filter, hkept]
  rfl

/-! ### A message is put on its link -/

/-- Without an Active link, or with fewer credits than the message costs, nothing is sent (R404, R408). -/
theorem putMessage_refused {s : State} {i : Nat} {l : Link} (hl : s.links[i]? = some l) {back : Bool} {hdr : BitVec 128} {w : Wire}
    (hw : s.wire i back (hdrChan hdr) = some w) (h : l.state ≠ 0 ∨ w.credits < hdrCost hdr) (data : List (BitVec 128)) :
    s.putMessage i back hdr data [] = none := by
  unfold State.putMessage
  simp only [hl, hw]
  exact if_pos (by simpa using h)

theorem putMessage_sent {s : State} {i : Nat} {l : Link} (hl : s.links[i]? = some l) {back : Bool} {hdr : BitVec 128} {w : Wire}
    (hw : s.wire i back (hdrChan hdr) = some w) (h0 : l.state = 0) (hc : hdrCost hdr ≤ w.credits) (data : List (BitVec 128)) :
    s.putMessage i back hdr data [] = some ((s.setWire { w with credits := w.credits - hdrCost hdr }).setStream
      ((s.stream i back).put (messageSlots hdr data []))) := by
  unfold State.putMessage
  simp only [hl, hw]
  exact if_neg (by simpa [h0] using hc)

/-- What the sending of a message of kind `k` leaves: the slots in the stream, the credits less by the cost, and a request noted. -/
def MessageSent (s : State) (i : Nat) (back : Bool) (hdr : BitVec 128) (k : Nat) (data : List (BitVec 128)) (w : Wire) (cost : Nat)
    (t : State) : Prop :=
  t = { s with wires := t.wires, streams := t.streams, txns := t.txns } ∧
  (if AsksAnswer k then ⟨hdrSrc hdr, hdrTag hdr, k, none⟩ ∈ t.txns else t.txns = s.txns) ∧
  t.wires.find? (Wire.is i back (channelOf hdr k)) = some { w with credits := w.credits - cost } ∧
  (∃ full, (t.stream i back).flits = (s.stream i back).flits ++ full ∧ (∀ x ∈ full, x.length = 15) ∧
    (t.stream i back).filling.length < 15 ∧ full.flatten ++ (t.stream i back).filling =
      (s.stream i back).filling ++ ⟨hdr, 0⟩ :: data.map (fun d => CamyarSlot.mk d 0)) ∧
  (∀ j b, j ≠ i ∨ b ≠ back → t.stream j b = s.stream j b) ∧
  (t.stream i back).rest = (s.stream i back).rest ∧
  ∀ v : Wire, v.link ≠ i ∨ v.back ≠ back ∨ v.chan ≠ channelOf hdr k → (v ∈ t.wires ↔ v ∈ s.wires)

theorem noteTxn_noted (s : State) {hdr : BitVec 128} {k : Nat} (hk : hdrKind hdr = k) (h1 : 1 ≤ k) :
    if AsksAnswer k then ⟨hdrSrc hdr, hdrTag hdr, k, none⟩ ∈ (s.noteTxn hdr).txns else (s.noteTxn hdr).txns = s.txns := by
  subst hk
  unfold State.noteTxn
  split
  · rename_i ha
    rw [if_pos ((isRequest_iff h1).mpr ha)]
    exact List.mem_cons_self ..
  · rename_i ha
    rw [if_neg (mt (isRequest_iff h1).mp ha)]

theorem noteTxn_frame (s : State) (hdr : BitVec 128) : s.noteTxn hdr = { s with txns := (s.noteTxn hdr).txns } := by
  unfold State.noteTxn
  split <;> rfl

/-- A message that is clear to send and for which the credits are there is sent. -/
theorem putMessage_noteTxn_sent {s : State} {i : Nat} {back : Bool} {hdr : BitVec 128} {k : Nat} {data : List (BitVec 128)} {w : Wire}
    (hk : hdrKind hdr = k) (h1 : 1 ≤ k) (hw : s.wires.find? (Wire.is i back (channelOf hdr k)) = some w) (cost : Nat) :
    MessageSent s i back hdr k data w cost (((s.setWire { w with credits := w.credits - cost }).setStream
      ((s.stream i back).put (messageSlots hdr data []))).noteTxn hdr) := by
  have hkey : w.is i back (channelOf hdr k) = true := List.find?_some hw
  obtain ⟨hi, hb, hc⟩ := Wire.is_iff.mp hkey
  obtain ⟨hsi, hsb⟩ := stream_key s i back
  set w' : Wire := { w with credits := w.credits - cost }
  set x := (s.stream i back).put (messageSlots hdr data []) with hx
  have hxi : x.link = i := hsi
  have hxb : x.back = back := hsb
  set u := (s.setWire w').setStream x with hu
  have hsame : u.stream i back = x := by
    have := stream_setStream_same (s.setWire w') x
    rwa [hxi, hxb] at this
  have hn := noteTxn_frame u hdr
  have hwires : (u.noteTxn hdr).wires = (s.setWire w').wires := by rw [hn]; rfl
  have hstream (j : Nat) (b : Bool) : (u.noteTxn hdr).stream j b = u.stream j b := by rw [hn]; rfl
  refine ⟨?frame, ?noted, ?credits, ?slots, ?streams, ?rest, ?wires⟩
  case frame => rw [hn]; rfl
  case noted => exact noteTxn_noted u hk h1
  case credits => rw [hwires]; exact s.find_setWire hw hkey
  case slots =>
    rw [hstream, hsame, ← messageSlots_sound]
    exact Stream.put_spec ..
  case streams =>
    intro j b h
    rw [hstream]
    exact stream_setStream_other _ x (by rwa [hxi, hxb])
  case rest => rw [hstream, hsame]; rfl
  case wires =>
    intro v hv
    rw [hwires]
    refine s.mem_setWire ?_
    rw [Wire.is_iff]
    rintro ⟨e1, e2, e3⟩
    rcases hv with h | h | h
    · exact h (e1.trans hi)
    · exact h (e2.trans hb)
    · exact h (e3.trans hc)

/-- What the statement says of a message of kind `k`: nothing is sent unless it is clear to be and the credits are there. -/
def SendsAs (s : State) (i : Nat) (l : Link) (back : Bool) (hdr : BitVec 128) (w : Wire) (k : Nat) (data : List (BitVec 128))
    (j : Instr) : Prop :=
  (¬ ClearToSend s i l back hdr k data.length → exec j s = .next s) ∧
  (ClearToSend s i l back hdr k data.length → s.wires.find? (Wire.is i back (channelOf hdr k)) = some w →
    (l.state ≠ 0 ∨ w.credits < (if k = 16 then 0 else 1 + data.length) → exec j s = .next s) ∧
    (l.state = 0 → (if k = 16 then 0 else 1 + data.length) ≤ w.credits →
      Completes j s (MessageSent s i back hdr k data w (if k = 16 then 0 else 1 + data.length))))

theorem sendsAs_of_sendKind {s : State} {i : Nat} {l : Link} (hl : s.links[i]? = some l) {back : Bool} {hdr : BitVec 128} (w : Wire)
    {k : Nat} (h1 : 1 ≤ k) {data : List (BitVec 128)} {j : Instr} (hj : exec j s = sendKind k i back hdr data s) :
    SendsAs s i l back hdr w k data j := by
  obtain ⟨hrefused, hclear⟩ := sendKind_of_clear hl h1 back hdr data
  refine ⟨fun h => hj.trans (hrefused h), fun h hw => ?_⟩
  obtain ⟨⟨hkind, hchan, hlen, -⟩, -⟩ := id h
  have hcost : hdrCost hdr = if k = 16 then 0 else 1 + data.length := by simp only [hdrCost, hkind, hlen]
  have hwire : s.wire i back (hdrChan hdr) = some w := by rw [hchan]; exact hw
  rw [← hcost]
  constructor
  · intro hno
    rw [hj, hclear h, putMessage_refused hl hwire hno]
    rfl
  · intro h0 hc
    refine ⟨_, ?_, putMessage_noteTxn_sent hkind h1 hw (hdrCost hdr)⟩
    rw [hj, hclear h, putMessage_sent hl hwire h0 hc]
    rfl

/-- Settles O58: every kind is sent by `sendKind`, whose guard, credits, slots and note are those of the rules. -/
theorem messagesTakeTheirChannelsCredits : Obligations.MessagesTakeTheirChannelsCredits := by
  unfold Obligations.MessagesTakeTheirChannelsCredits
  intro i back hdr data l w s hl
  have send (k : Nat) (slots : List (BitVec 128)) (j : Instr) (h1 : 1 ≤ k) (hj : exec j s = sendKind k i back hdr slots s) :
      SendsAs s i l back hdr w k slots j := sendsAs_of_sendKind hl w h1 hj
  exact ⟨send 1 [] _ (by decide) rfl, send 2 [] _ (by decide) rfl, send 3 data _ (by decide) rfl, send 4 data _ (by decide) rfl,
    send 5 data _ (by decide) rfl, send 6 data _ (by decide) rfl, send 7 data _ (by decide) rfl, send 8 data _ (by decide) rfl,
    send 9 data _ (by decide) rfl, send 10 data _ (by decide) rfl, send 11 data _ (by decide) rfl, send 12 data _ (by decide) rfl,
    send 13 data _ (by decide) rfl, send 14 data _ (by decide) rfl, send 15 data _ (by decide) rfl, send 16 [] _ (by decide) rfl⟩

end Sys2Proof.Machine

/-! # Proofs: link states and the warm reset of a die (O57) -/

namespace Sys2Proof.Machine

/-- No work is under way that the loss of a die could reach. -/
structure State.Quiet (s : State) : Prop where
  firings : s.firings = []
  channels : s.channels = []
  copiers : ∀ c ∈ s.copiers, c.state = .retired

/-! ### What the posting of a record leaves (R369, R370) -/

/-- From `s` to `t` records have been posted, dropped or held: of the cells, reservations and wake events change, and the channels, if
there are any, note a record that waits. -/
structure RecordsPosted (s t : State) : Prop where
  rest : t = { s with
    cpu := t.cpu
    cells := t.cells
    saved := t.saved
    mem := t.mem
    memPoison := t.memPoison
    waits := t.waits
    channels := t.channels
    held := t.held
    dropped := t.dropped }
  cell : t.cpu = { s.cpu with reservation := t.cpu.reservation, wake := t.cpu.wake }
  noChannel : s.channels = [] → t.channels = []
  noCell : s.cells = [] → t.cells = []

namespace RecordsPosted

theorem refl (s : State) : RecordsPosted s s := ⟨rfl, rfl, id, id⟩

theorem trans {s t u : State} (h : RecordsPosted s t) (k : RecordsPosted t u) : RecordsPosted s u where
  rest := by
    have e := k.rest
    rw [h.rest] at e
    exact e
  cell := by
    have e := k.cell
    rw [h.cell] at e
    exact e
  noChannel := k.noChannel ∘ h.noChannel
  noCell := k.noCell ∘ h.noCell

theorem foldl {α : Type} {f : State → α → State} (hf : ∀ s x, RecordsPosted s (f s x)) (l : List α) (s : State) :
    RecordsPosted s (l.foldl f s) := by
  induction l generalizing s with
  | nil => exact refl s
  | cons a l ih => exact (hf s a).trans (ih (f s a))

section
variable {s t : State} (h : RecordsPosted s t)
include h

theorem links : t.links = s.links := by rw [h.rest]
theorem linkTimes : t.linkTimes = s.linkTimes := by rw [h.rest]
theorem wires : t.wires = s.wires := by rw [h.rest]
theorem streams : t.streams = s.streams := by rw [h.rest]
theorem resets : t.resets = s.resets := by rw [h.rest]
theorem offline : t.offline = s.offline := by rw [h.rest]
theorem firings : t.firings = s.firings := by rw [h.rest]
theorem copiers : t.copiers = s.copiers := by rw [h.rest]
theorem retired : t.retired = s.retired := by rw [h.rest]
theorem fuses : t.fuses = s.fuses := by rw [h.rest]
theorem now : t.now = s.now := by rw [h.rest]
theorem enumGen : t.enumGen = s.enumGen := by rw [h.rest]
theorem sp : t.sp = s.sp := by rw [h.rest]
theorem quiet (q : s.Quiet) : t.Quiet := ⟨h.firings.trans q.firings, h.noChannel q.channels, h.copiers ▸ q.copiers⟩
theorem isCut (d : Nat) : t.isCut d = s.isCut d := by unfold State.isCut; rw [h.links]
theorem isOffline (d : Nat) : t.isOffline d = s.isOffline d := by unfold State.isOffline; rw [h.offline]
theorem inReset (d : Nat) : t.inReset d = s.inReset d := by unfold State.inReset; rw [h.resets]
theorem linkAge (i : Nat) : t.linkAge i = s.linkAge i := by unfold State.linkAge; rw [h.linkTimes, h.now]
theorem x : t.cpu.x = s.cpu.x := by rw [h.cell]
theorem pc : t.cpu.pc = s.cpu.pc := by rw [h.cell]

end

end RecordsPosted

theorem homeWrite_posted (s : State) (k : Nat) (bs : List Byte) (who : Option Nat) : RecordsPosted s (s.homeWrite k bs who) :=
  ⟨rfl, by rw [homeWrite_cpu], id, fun h => congrArg (List.map _) h⟩

theorem wakeWhere_posted (s : State) (p : Cell → Bool) : RecordsPosted s (s.wakeWhere p) := by
  refine ⟨rfl, ?_, id, fun h => congrArg (List.map _) h⟩
  unfold State.wakeWhere
  dsimp only
  split <;> rfl

theorem setDropped_posted (s : State) (ctx n : Nat) : RecordsPosted s (setDropped s ctx n) := ⟨rfl, rfl, id, id⟩

theorem hold_posted (s : State) (ctx producer unit : Nat) (bs : List Byte) : RecordsPosted s (s.hold ctx producer unit bs) :=
  ⟨rfl, rfl, id, id⟩

theorem stall_posted (s : State) (key : Nat) : RecordsPosted s (s.stall key) := by
  unfold State.stall
  split
  · rename_i c hc
    refine ⟨rfl, rfl, fun h => ?_, id⟩
    simp [State.channel, h] at hc
  · exact .refl s

theorem writeRecord_posted (s : State) (ctx base : Nat) (bs : List Byte) : RecordsPosted s (writeRecord s ctx base bs) :=
  (homeWrite_posted ..).trans ((homeWrite_posted ..).trans (wakeWhere_posted _ (fun c => c.ctx = ctx)))

theorem dropRecord_posted (s : State) (ctx base : Nat) : RecordsPosted s (dropRecord s ctx base) :=
  (homeWrite_posted ..).trans (setDropped_posted ..)

theorem flushLost_posted (s : State) (ctx base : Nat) : RecordsPosted s (flushLost s ctx base) := by
  unfold flushLost
  split
  · exact .refl s
  · exact (writeRecord_posted ..).trans (setDropped_posted ..)

theorem post_posted (s : State) (ctx producer unit : Nat) (bs : List Byte) : RecordsPosted s (s.post ctx producer unit bs) := by
  unfold State.post
  split
  · exact .refl s
  · split
    · exact (stall_posted ..).trans (hold_posted ..)
    · rename_i c _ _ _
      refine (flushLost_posted s ctx c.ringBase).trans ?_
      dsimp only
      split
      · exact hold_posted ..
      · exact writeRecord_posted ..

theorem postOrDrop_posted (s : State) (ctx : Nat) (bs : List Byte) : RecordsPosted s (s.postOrDrop ctx bs) := by
  unfold State.postOrDrop
  split
  · exact .refl s
  · split
    · exact (stall_posted ..).trans (hold_posted ..)
    · rename_i c _ _ _
      refine (flushLost_posted s ctx c.ringBase).trans ?_
      dsimp only
      split
      · exact dropRecord_posted ..
      · exact writeRecord_posted ..

/-- The table takes its next even generation, and records are posted (R20, R426). -/
theorem tableChange_posted (s : State) (event unit status extra number : Nat) (monitor : Bool) :
    RecordsPosted { s with enumGen := (s.enumGen + 2) % 2 ^ 64 } (s.tableChange event unit status extra number monitor) := by
  unfold State.tableChange
  refine RecordsPosted.foldl (fun s ctx => ?_) _ _
  split
  · exact postOrDrop_posted ..
  · exact post_posted ..

theorem noteBounds_posted (s : State) (was : Bool) (die : Nat) : RecordsPosted s (s.noteBounds was die) := by
  unfold State.noteBounds
  split
  · exact .refl s
  · exact RecordsPosted.foldl (fun s ctx => post_posted ..) _ s

/-! ### Dies that go offline and come back (R9) -/

/-- From `s` to `t` links have changed, dies have gone offline or come back, units have been retired: beside these, the table and
records alone. -/
def Turned (s t : State) : Prop :=
  RecordsPosted { s with
    links := t.links
    linkTimes := t.linkTimes
    retired := t.retired
    enumGen := t.enumGen
    offline := t.offline } t

namespace Turned

theorem trans {s t u : State} (h : Turned s t) (k : Turned t u) : Turned s u := by
  refine RecordsPosted.trans (t := { t with
    links := u.links
    linkTimes := u.linkTimes
    retired := u.retired
    enumGen := u.enumGen
    offline := u.offline }) ⟨?_, h.cell, h.noChannel, h.noCell⟩ k
  exact congrArg (fun v : State => { v with
    links := u.links
    linkTimes := u.linkTimes
    retired := u.retired
    enumGen := u.enumGen
    offline := u.offline }) h.rest

section
variable {s t : State} (h : Turned s t)
include h

theorem posted : RecordsPosted { s with
    links := t.links
    linkTimes := t.linkTimes
    retired := t.retired
    enumGen := t.enumGen
    offline := t.offline } t := h
theorem quiet (q : s.Quiet) : t.Quiet := h.posted.quiet ⟨q.firings, q.channels, q.copiers⟩
theorem wires : t.wires = s.wires := h.posted.wires
theorem streams : t.streams = s.streams := h.posted.streams
theorem resets : t.resets = s.resets := h.posted.resets
theorem firings : t.firings = s.firings := h.posted.firings
theorem linkDrained (i : Nat) : t.linkDrained i = s.linkDrained i := by unfold State.linkDrained; rw [h.wires, h.streams]

end

end Turned

theorem RecordsPosted.turned {s t u : State} (h : RecordsPosted u t)
    (hu : u = { s with links := u.links, linkTimes := u.linkTimes, retired := u.retired, enumGen := u.enumGen, offline := u.offline }) :
    Turned s t := by
  unfold Turned
  rw [h.links, h.linkTimes, h.retired, h.enumGen, h.offline, ← hu]
  exact h

theorem Turned.refl (s : State) : Turned s s := (RecordsPosted.refl s).turned rfl

theorem mem_insertNat (k a : Nat) (l : List Nat) : a ∈ insertNat k l ↔ a = k ∨ a ∈ l := by
  induction l with
  | nil => simp [insertNat]
  | cons b l ih =>
    unfold insertNat
    split
    · simp
    · split
      · rename_i hk
        subst hk
        simp
      · simp only [List.mem_cons, ih]
        tauto

theorem mem_eraseNat (k a : Nat) (l : List Nat) : a ∈ eraseNat k l ↔ a ∈ l ∧ a ≠ k := by simp [eraseNat]

theorem isOffline_iff (s : State) (die : Nat) : s.isOffline die = true ↔ die ∈ s.offline := List.contains_iff_mem

/-- With nothing under way, the loss of a die changes the list of those offline, the table and records alone. -/
theorem takeOffline_posted {s : State} (q : s.Quiet) (die : Nat) :
    RecordsPosted { s with offline := insertNat die s.offline, enumGen := (s.enumGen + 2) % 2 ^ 64 } (s.takeOffline die) := by
  have hp := tableChange_posted { s with offline := insertNat die s.offline } 1 die 2 0 0 false
  have hq : (({ s with offline := insertNat die s.offline } : State).tableChange 1 die 2 0 0).Quiet :=
    hp.quiet ⟨q.firings, q.channels, q.copiers⟩
  unfold State.takeOffline
  generalize ({ s with offline := insertNat die s.offline } : State).tableChange 1 die 2 0 0 = t at hp hq
  have hfirings : t.faultDieFirings die = t := by simp [State.faultDieFirings, hq.firings]
  have hcopies : t.faultDieCopies die = t := by
    have hnone : t.copiers.filter (fun c => c.die = die && (c.state = .running || c.state = .waiting)) = [] := by
      rw [List.filter_eq_nil_iff]
      intro c hc
      simp [hq.copiers c hc]
    simp only [State.faultDieCopies, hnone, List.foldl_nil]
  have hchannels : t.dropChannels die = t := by simp [State.dropChannels, hq.channels]
  dsimp only
  rw [hfirings, hcopies, hchannels]
  exact hp

/-- With no firing under way, the return of a die changes the list of those offline, the table and records alone. -/
theorem bringLive_posted {s : State} (h : s.firings = []) (die : Nat) :
    RecordsPosted { s with offline := eraseNat die s.offline, enumGen := (s.enumGen + 2) % 2 ^ 64 } (s.bringLive die) := by
  have hp := tableChange_posted { s with offline := eraseNat die s.offline } 2 die 0 0 0 false
  unfold State.bringLive
  generalize ({ s with offline := eraseNat die s.offline } : State).tableChange 2 die 0 0 0 = t at hp
  dsimp only
  rw [hp.firings.trans h]
  exact hp

theorem takeOffline_turned {s : State} (q : s.Quiet) (die : Nat) : Turned s (s.takeOffline die) :=
  (takeOffline_posted q die).turned rfl

theorem bringLive_turned {s : State} (h : s.firings = []) (die : Nat) : Turned s (s.bringLive die) :=
  (bringLive_posted h die).turned rfl

theorem foldl_takeOffline {s : State} (q : s.Quiet) (l : List Nat) :
    Turned s (l.foldl State.takeOffline s) ∧ (l.foldl State.takeOffline s).links = s.links ∧
      ∀ d, d ∈ (l.foldl State.takeOffline s).offline ↔ d ∈ l ∨ d ∈ s.offline := by
  induction l generalizing s with
  | nil => exact ⟨.refl s, rfl, by simp⟩
  | cons a l ih =>
    have hp := takeOffline_posted q a
    have ha := takeOffline_turned q a
    obtain ⟨ht, hl, hm⟩ := ih (ha.quiet q)
    refine ⟨ha.trans ht, hl.trans hp.links, fun d => ?_⟩
    rw [List.foldl_cons, hm, hp.offline, mem_insertNat, List.mem_cons]
    tauto

theorem foldl_bringLive {s : State} (h : s.firings = []) (l : List Nat) :
    Turned s (l.foldl State.bringLive s) ∧ (l.foldl State.bringLive s).links = s.links ∧
      ∀ d, d ∈ (l.foldl State.bringLive s).offline ↔ d ∈ s.offline ∧ d ∉ l := by
  induction l generalizing s with
  | nil => exact ⟨.refl s, rfl, by simp⟩
  | cons a l ih =>
    have hp := bringLive_posted h a
    have ha := bringLive_turned h a
    obtain ⟨ht, hl, hm⟩ := ih (ha.firings.trans h)
    refine ⟨ha.trans ht, hl.trans hp.links, fun d => ?_⟩
    rw [List.foldl_cons, hm, hp.offline, mem_eraseNat, List.mem_cons]
    tauto

/-! ### A link changes (R9, R18, R409) -/

/-- The state of a link becomes `m`, and the table its next generation: a change with no consequence for a die. -/
def State.withLink (s : State) (i : Nat) (m : Link) : State :=
  { s with
    links := s.links.set i m
    linkTimes := (i, s.now) :: s.linkTimes.filter (fun t => t.1 ≠ i)
    enumGen := (s.enumGen + 2) % 2 ^ 64 }

/-- The ends of a link that no warm reset holds. -/
def State.freeEnds (s : State) (l : Link) : List Nat := [l.a, l.b].filter (fun d => !s.inReset d)

/-- What the change of link `l` to `m` means for its dies (R9). -/
def State.settleEnds (s : State) (l m : Link) : State :=
  if l.b = 4 then s
  else if m.state = 0 then ((s.freeEnds l).filter (fun d => s.isOffline d && !s.isCut d)).foldl State.bringLive s
  else ((s.freeEnds l).filter (fun d => s.isCut d && !s.isOffline d)).foldl State.takeOffline s

/-- The change of a link, in its three parts: the link with the table, its dies, and the bounds. -/
theorem changeLink_parts {s : State} {i : Nat} {l : Link} (hl : s.links[i]? = some l) (f : Link → Link) (monitor : Bool) :
    ∃ u v, RecordsPosted (s.withLink i (f l).settled) u ∧ v = u.settleEnds l (f l).settled ∧
      RecordsPosted v (s.changeLink i f monitor) := by
  refine ⟨_, _, tableChange_posted { s with
    links := s.links.set i (f l).settled
    linkTimes := (i, s.now) :: s.linkTimes.filter (fun t => t.1 ≠ i) } 3 i (f l).settled.state (f l).settled.trained 0 monitor, rfl, ?_⟩
  unfold State.changeLink
  simp only [hl]
  exact noteBounds_posted ..

theorem linkAge_withLink (s : State) (i : Nat) (m : Link) : (s.withLink i m).linkAge i = 0 := by
  simp [State.linkAge, State.withLink]

theorem mem_freeEnds (s : State) (l : Link) (d : Nat) : d ∈ s.freeEnds l ↔ d ∈ [l.a, l.b] ∧ s.inReset d = false := by
  simp [State.freeEnds]

/-- The change of a link from `l` to `m` turns no die. -/
def State.TurnsNone (s : State) (i : Nat) (l m : Link) : Prop :=
  l.b = 4 ∨ ∀ d ∈ s.freeEnds l, if m.state = 0 then s.isOffline d = true → (s.withLink i m).isCut d = true
    else (s.withLink i m).isCut d = true → s.isOffline d = true

theorem settleEnds_none {s u : State} {i : Nat} {l m : Link} (hu : RecordsPosted (s.withLink i m) u) (h : s.TurnsNone i l m) :
    u.settleEnds l m = u := by
  have hoff (d : Nat) : u.isOffline d = s.isOffline d := hu.isOffline d
  have hends : u.freeEnds l = s.freeEnds l := List.filter_congr fun d _ => congrArg not (hu.inReset d)
  unfold State.settleEnds
  rw [hends]
  split
  · rfl
  · rename_i hb
    have hd := h.resolve_left hb
    split
    · rename_i hm
      rw [List.filter_eq_nil_iff.mpr]
      · rfl
      · intro d hmem
        have := hd d hmem
        rw [if_pos hm] at this
        rw [hu.isCut, hoff]
        simpa using this
    · rename_i hm
      rw [List.filter_eq_nil_iff.mpr]
      · rfl
      · intro d hmem
        have := hd d hmem
        rw [if_neg hm] at this
        rw [hu.isCut, hoff]
        simpa using this

/-- A change that turns no die: the link, its time, the table and records alone. -/
theorem changeLink_posted {s : State} {i : Nat} {l : Link} (hl : s.links[i]? = some l) {f : Link → Link}
    (h : s.TurnsNone i l (f l).settled) (monitor : Bool) :
    RecordsPosted (s.withLink i (f l).settled) (s.changeLink i f monitor) := by
  obtain ⟨u, v, hu, rfl, hv⟩ := changeLink_parts hl f monitor
  rw [settleEnds_none hu h] at hv
  exact hu.trans hv

theorem settleEnds_turned {s : State} (q : s.Quiet) (l m : Link) :
    Turned s (s.settleEnds l m) ∧ (s.settleEnds l m).links = s.links := by
  unfold State.settleEnds
  split
  · exact ⟨.refl s, rfl⟩
  · split
    · exact ⟨(foldl_bringLive q.firings _).1, (foldl_bringLive q.firings _).2.1⟩
    · exact ⟨(foldl_takeOffline q _).1, (foldl_takeOffline q _).2.1⟩

/-- With nothing under way, the change of a link changes that link and turns dies. -/
theorem changeLink_turned {s : State} (q : s.Quiet) {i : Nat} {l : Link} (hl : s.links[i]? = some l) (f : Link → Link)
    (monitor : Bool) :
    Turned s (s.changeLink i f monitor) ∧ (s.changeLink i f monitor).links = s.links.set i (f l).settled := by
  obtain ⟨u, v, hu, rfl, hv⟩ := changeLink_parts hl f monitor
  have hsu : Turned s u := hu.turned rfl
  obtain ⟨hd, hlinks⟩ := settleEnds_turned (hsu.quiet q) l (f l).settled
  exact ⟨(hsu.trans hd).trans (hv.turned rfl), by rw [hv.links, hlinks, hu.links]; rfl⟩

/-- A change that leaves an end of the link, a compute die, without an Active ring link takes it offline (R9). -/
theorem changeLink_cuts {s : State} (q : s.Quiet) {i : Nat} {l : Link} (hl : s.links[i]? = some l) {f : Link → Link}
    (hm : (f l).settled.state ≠ 0) (hb : l.b ≠ 4) {d : Nat} (hd : d ∈ s.freeEnds l)
    (hcut : (s.withLink i (f l).settled).isCut d = true) (monitor : Bool) : d ∈ (s.changeLink i f monitor).offline := by
  obtain ⟨u, v, hu, rfl, hv⟩ := changeLink_parts hl f monitor
  have hsu : Turned s u := hu.turned rfl
  rw [hv.offline, State.settleEnds, if_neg hb, if_neg hm, (foldl_takeOffline (hsu.quiet q) _).2.2]
  by_cases ho : d ∈ u.offline
  · exact .inr ho
  · have hends : d ∈ u.freeEnds l := by rwa [mem_freeEnds, hu.inReset, ← mem_freeEnds]
    refine .inl (List.mem_filter.mpr ⟨hends, ?_⟩)
    rw [← isOffline_iff] at ho
    simp [ho, hu.isCut, hcut]

/-- A ring link that becomes Active brings its ends back (R9). -/
theorem changeLink_revives {s : State} (h : s.firings = []) {i : Nat} {l : Link} (hl : s.links[i]? = some l) {f : Link → Link}
    (hm : (f l).settled.state = 0) (hb : l.b ≠ 4) {d : Nat} (hd : d ∈ s.freeEnds l)
    (hlive : (s.withLink i (f l).settled).isCut d = false) (monitor : Bool) : d ∉ (s.changeLink i f monitor).offline := by
  obtain ⟨u, v, hu, rfl, hv⟩ := changeLink_parts hl f monitor
  rw [hv.offline, State.settleEnds, if_neg hb, if_pos hm, (foldl_bringLive (hu.firings.trans h) _).2.2]
  rintro ⟨ho, hnot⟩
  refine hnot (List.mem_filter.mpr ⟨?_, ?_⟩)
  · rwa [mem_freeEnds, hu.inReset, ← mem_freeEnds]
  · rw [← isOffline_iff] at ho
    simp [ho, hu.isCut, hlive]

/-- A die with an Active ring link is not cut off. -/
theorem isCut_false_of_active {s : State} {l : Link} {d : Nat} (h : l ∈ s.links) (h0 : l.state = 0) (hb : l.b < 4)
    (hd : l.a = d ∨ l.b = d) : s.isCut d = false := by
  have hany : s.links.any (fun l => l.b < 4 && (l.a = d || l.b = d) && l.state = 0) = true :=
    List.any_eq_true.mpr ⟨l, h, by simp [h0, hb, hd]⟩
  simp [State.isCut, hany]

/-! ### The events of a link (R404, R406, R409) -/

theorem onLink_acts {s : State} {i : Nat} {l : Link} (hl : s.links[i]? = some l) (hr : s.recovery = false) {st : Nat} (h : l.state = st)
    (act : Link → State) : onLink i st s act = .next (act l) := by
  simp [onLink, hl, h, hr]

theorem onLink_stays {s : State} {i : Nat} {l : Link} (hl : s.links[i]? = some l) {st : Nat} (h : l.state ≠ st ∨ s.recovery = true)
    (act : Link → State) : onLink i st s act = .next s := by
  simp only [onLink, hl]
  refine if_neg ?_
  rcases h with h | h <;> simp [h]

/-- The retries of a link in the last millisecond, with one more now (R406). -/
def State.keptRetries (s : State) (l : Link) : List Nat := s.now :: l.retries.filter (fun x => s.now < x + 1500000)

/-- Link `i` has become `m`, the table has its next generation, and no die has turned. -/
def LinkBecame (s : State) (i : Nat) (m : Link) (t : State) : Prop :=
  t.links = s.links.set i m ∧ t.enumGen = (s.enumGen + 2) % 2 ^ 64 ∧ t.offline = s.offline ∧ t.linkAge i = 0 ∧
    t.cpu.x = s.cpu.x ∧ t.cpu.pc = s.cpu.pc ∧ ∀ k, readByte t.sp k = readByte s.sp k

theorem linkBecame_of_posted {s t : State} {i : Nat} {m : Link} (h : RecordsPosted (s.withLink i m) t) : LinkBecame s i m t :=
  ⟨h.links, h.enumGen, h.offline, (h.linkAge i).trans (linkAge_withLink s i m), h.x, h.pc, fun k => by rw [h.sp]; rfl⟩

/-- The change of link `l` to `m` cuts off no die that is not offline already. -/
def State.Joined (s : State) (i : Nat) (l m : Link) : Prop :=
  l.b = 4 ∨ ∀ d ∈ [l.a, l.b], (s.withLink i m).isCut d = true → s.isOffline d = true

theorem turnsNone_of_joined {s : State} {i : Nat} {l m : Link} (hm : m.state ≠ 0) (h : s.Joined i l m) : s.TurnsNone i l m := by
  refine h.imp_right fun h d hd => ?_
  rw [if_neg hm]
  exact h d ((mem_freeEnds ..).mp hd).1

theorem turnsNone_of_live {s : State} {i : Nat} {l m : Link} (hm : m.state = 0) (h : ∀ d ∈ [l.a, l.b], s.isOffline d = false) :
    s.TurnsNone i l m := by
  refine .inr fun d hd => ?_
  rw [if_pos hm, h d ((mem_freeEnds ..).mp hd).1]
  exact Bool.false_ne_true.elim

section
variable {s : State} {i : Nat} {l : Link}

/-- A change out of Active that joins no die to those offline. -/
theorem completes_becomes {j : Instr} {f : Link → Link} {m : Link} (hl : s.links[i]? = some l)
    (hj : exec j s = .next (s.changeLink i f)) (hf : (f l).settled = m) (hm : m.state ≠ 0) (h : s.Joined i l m) :
    Completes j s (LinkBecame s i m) := by
  subst hf
  exact ⟨_, hj, linkBecame_of_posted (changeLink_posted hl (turnsNone_of_joined hm h) true)⟩

/-- A change out of Active that cuts off a die takes it offline. -/
theorem completes_cuts {j : Instr} {f : Link → Link} {m : Link} (hl : s.links[i]? = some l)
    (hj : exec j s = .next (s.changeLink i f)) (hf : (f l).settled = m) (hm : m.state ≠ 0) {d : Nat} (hd : d ∈ [l.a, l.b])
    (hb : l.b < 4) (hres : s.resets = []) (q : s.Quiet) (hcut : (s.withLink i m).isCut d = true) :
    Completes j s (fun t => d ∈ t.offline) := by
  subst hf
  have hfree : d ∈ s.freeEnds l := (mem_freeEnds ..).mpr ⟨hd, by simp [State.inReset, hres]⟩
  exact ⟨_, hj, changeLink_cuts q hl hm (by omega) hfree hcut true⟩

theorem exec_flitCrcRetry_few (hl : s.links[i]? = some l) (hr : s.recovery = false) (h0 : l.state = 0)
    (h : (s.keptRetries l).length ≤ 64) :
    exec (.flitCrcRetry i) s = .next { s with links := s.links.set i { l with retries := s.keptRetries l } } := by
  rw [exec_flitCrcRetry, execFlitCrcRetry, onLink_acts hl hr h0]
  exact congrArg _ (if_neg (by simpa [State.keptRetries] using h))

theorem exec_flitCrcRetry_many (hl : s.links[i]? = some l) (hr : s.recovery = false) (h0 : l.state = 0)
    (h : 64 < (s.keptRetries l).length) :
    exec (.flitCrcRetry i) s = .next (s.changeLink i (fun l => { l with state := 1, retries := [] })) := by
  rw [exec_flitCrcRetry, execFlitCrcRetry, onLink_acts hl hr h0]
  exact congrArg _ (if_pos h)

theorem exec_linkQuiesceDrained_drained (hl : s.links[i]? = some l) (hr : s.recovery = false) (h1 : l.state = 1)
    (h : s.linkDrained i = true) : exec (.linkQuiesceDrained i) s = .next (s.changeLink i (fun l => { l with state := 2 })) := by
  rw [exec_linkQuiesceDrained, execLinkQuiesceDrained, onLink_acts hl hr h1, if_pos h]

theorem exec_linkQuiesceDrained_stays (hl : s.links[i]? = some l) (h : l.state ≠ 1 ∨ s.linkDrained i = false) :
    exec (.linkQuiesceDrained i) s = .next s := by
  rw [exec_linkQuiesceDrained, execLinkQuiesceDrained]
  by_cases h1 : l.state = 1 ∧ s.recovery = false
  · rw [onLink_acts hl h1.2 h1.1, h.resolve_left (not_not.mpr h1.1)]
    rfl
  · exact onLink_stays hl (by simpa [or_iff_not_imp_left] using h1) _

theorem endsReady_iff (s : State) (l : Link) :
    s.endsReady l = true ↔ ∀ r ∈ s.resets, r.die = l.a ∨ r.die = l.b → r.step ≠ 3 := by
  simp only [State.endsReady, Bool.not_eq_true', List.any_eq_false, Bool.and_eq_true, Bool.or_eq_true, decide_eq_true_eq, not_and]

theorem exec_linkResetElapsed_over (hl : s.links[i]? = some l) (hr : s.recovery = false) (h2 : l.state = 2)
    (hready : s.endsReady l = true) (hf : l.failed = false) (hage : 1500000 ≤ s.linkAge i) :
    exec (.linkResetElapsed i) s = .next (s.changeLink i (fun l => { l with state := 3 })) := by
  rw [exec_linkResetElapsed, execLinkResetElapsed, onLink_acts hl hr h2]
  exact congrArg _ (if_neg (by simpa [hf, hready] using hage))

theorem exec_linkResetElapsed_stays (hl : s.links[i]? = some l) (hr : s.recovery = false) (h2 : l.state = 2)
    (h : l.failed = true ∨ s.linkAge i < 1500000) : exec (.linkResetElapsed i) s = .next s := by
  rw [exec_linkResetElapsed, execLinkResetElapsed, onLink_acts hl hr h2]
  exact congrArg _ (if_pos (by rcases h with h | h <;> simp [h]))

theorem exec_linkRetryTimer_over (hl : s.links[i]? = some l) (hr : s.recovery = false) (h2 : l.state = 2)
    (hready : s.endsReady l = true) (hf : l.failed = true) (hage : 150000000 ≤ s.linkAge i) :
    exec (.linkRetryTimer i) s = .next (s.changeLink i (fun l => { l with state := 3 })) := by
  rw [exec_linkRetryTimer, execLinkRetryTimer, onLink_acts hl hr h2]
  exact congrArg _ (if_neg (by simpa [hf, hready] using hage))

theorem exec_linkRetryTimer_stays (hl : s.links[i]? = some l) (hr : s.recovery = false) (h2 : l.state = 2)
    (h : l.failed = false ∨ s.linkAge i < 150000000) : exec (.linkRetryTimer i) s = .next s := by
  rw [exec_linkRetryTimer, execLinkRetryTimer, onLink_acts hl hr h2]
  exact congrArg _ (if_pos (by rcases h with h | h <;> simp [h]))

theorem exec_linkTrainingFailed_acts (hl : s.links[i]? = some l) (hr : s.recovery = false) (h3 : l.state = 3) :
    exec (.linkTrainingFailed i) s = .next (s.changeLink i (fun l => { l with state := 2, failed := true })) := by
  rw [exec_linkTrainingFailed, execLinkTrainingFailed, onLink_acts hl hr h3]

/-- The channels and flits of a link that comes up are fresh. -/
def State.freshLink (s : State) (i : Nat) : State :=
  { s with
    wires := s.wires.filter (fun (w : Wire) => w.link ≠ i) ++ freshWires i
    streams := s.streams.filter (fun x => x.link ≠ i) }

theorem exec_linkTrained_acts (hl : s.links[i]? = some l) (hr : s.recovery = false) (h3 : l.state = 3) {n : Nat} (h0 : 0 < n)
    (hn : n ≤ l.fitted) :
    exec (.linkTrained i n) s =
      .next ((s.freshLink i).changeLink i (fun l => { l with state := 0, trained := n, retries := [], failed := false })) := by
  rw [exec_linkTrained, execLinkTrained, onLink_acts hl hr h3]
  exact congrArg _ (if_neg (by simp only [Bool.or_eq_true, decide_eq_true_eq]; omega))

/-- With its ends live, a link that trains becomes Active. -/
theorem linkTrained_becomes (hl : s.links[i]? = some l) (hr : s.recovery = false) (h3 : l.state = 3) {n : Nat} (h0 : 0 < n)
    (hn : n ≤ l.fitted) (hlive : ∀ d ∈ [l.a, l.b], s.isOffline d = false) :
    Completes (.linkTrained i n) s
      (LinkBecame s i { l with state := 0, trained := n, retries := [], failed := false }) := by
  have hnone : (s.freshLink i).TurnsNone i l { l with state := 0, trained := n, retries := [], failed := false } :=
    turnsNone_of_live rfl hlive
  have hp := changeLink_posted (s := s.freshLink i)
    (f := fun l => { l with state := 0, trained := n, retries := [], failed := false }) hl hnone true
  have hbecame := linkBecame_of_posted hp
  exact ⟨_, exec_linkTrained_acts hl hr h3 h0 hn, hbecame⟩

/-- A ring link that trains brings its ends back. -/
theorem linkTrained_revives (hl : s.links[i]? = some l) (hr : s.recovery = false) (h3 : l.state = 3) {n : Nat} (h0 : 0 < n)
    (hn : n ≤ l.fitted) {d : Nat} (hd : d ∈ [l.a, l.b]) (hres : s.resets = []) (hfir : s.firings = []) (hb : l.b < 4) :
    Completes (.linkTrained i n) s (fun t => d ∉ t.offline) := by
  refine ⟨_, exec_linkTrained_acts hl hr h3 h0 hn, ?_⟩
  have hfree : d ∈ (s.freshLink i).freeEnds l := (mem_freeEnds ..).mpr ⟨hd, by simp [State.inReset, State.freshLink, hres]⟩
  refine changeLink_revives (s := s.freshLink i) hfir hl rfl (by omega) hfree ?_ true
  obtain ⟨hi, -⟩ := List.getElem?_eq_some_iff.mp hl
  refine isCut_false_of_active (List.mem_iff_getElem?.mpr ⟨i, List.getElem?_set_self hi⟩) rfl hb ?_
  rcases List.mem_pair.mp hd with rfl | rfl
  · exact .inl rfl
  · exact .inr rfl

/-- In recovery no link turns (R404). -/
theorem links_stay_in_recovery (hl : s.links[i]? = some l) (h : s.recovery = true) :
    exec (.flitCrcRetry i) s = .next s ∧ exec (.linkQuiesceDrained i) s = .next s ∧ exec (.linkResetElapsed i) s = .next s ∧
      exec (.linkRetryTimer i) s = .next s ∧ exec (.linkTrainingFailed i) s = .next s ∧ ∀ n, exec (.linkTrained i n) s = .next s :=
  ⟨onLink_stays hl (.inr h) _, onLink_stays hl (.inr h) _, onLink_stays hl (.inr h) _, onLink_stays hl (.inr h) _,
    onLink_stays hl (.inr h) _, fun _ => onLink_stays hl (.inr h) _⟩

/-- The change of link `l` to `m` by `j` takes an end offline that it leaves without an Active ring link. -/
def LinkCuts (s : State) (i : Nat) (l m : Link) (j : Instr) : Prop :=
  ∀ d, d ∈ [l.a, l.b] → l.b < 4 → s.resets = [] → s.firings = [] → s.channels = [] → (∀ c ∈ s.copiers, c.state = .retired) →
    (s.withLink i m).isCut d = true → Completes j s (fun t => d ∈ t.offline)

theorem linkCuts_of_changeLink {j : Instr} {f : Link → Link} {m : Link} (hl : s.links[i]? = some l)
    (hj : exec j s = .next (s.changeLink i f)) (hf : (f l).settled = m) (hm : m.state ≠ 0) : LinkCuts s i l m j :=
  fun _ hd hb hres hfir hch hcop hcut => completes_cuts hl hj hf hm hd hb hres ⟨hfir, hch, hcop⟩ hcut

/-- An Active link under retries (R406). -/
theorem link_active (hl : s.links[i]? = some l) (hr : s.recovery = false) (h0 : l.state = 0) :
    ((s.keptRetries l).length ≤ 64 → Completes (.flitCrcRetry i) s (fun t =>
      t = { s with links := s.links.set i { l with retries := s.keptRetries l } })) ∧
    (64 < (s.keptRetries l).length → s.Joined i l { l with state := 1, retries := [] } →
      Completes (.flitCrcRetry i) s (LinkBecame s i { l with state := 1, retries := [] })) ∧
    (64 < (s.keptRetries l).length → LinkCuts s i l { l with state := 1, retries := [] } (.flitCrcRetry i)) :=
  ⟨fun h => ⟨_, exec_flitCrcRetry_few hl hr h0 h, rfl⟩,
    fun h => completes_becomes hl (exec_flitCrcRetry_many hl hr h0 h) rfl one_ne_zero,
    fun h => linkCuts_of_changeLink hl (exec_flitCrcRetry_many hl hr h0 h) rfl one_ne_zero⟩

/-- A link in Reset whose dies are ready (R409). -/
theorem link_rests (hl : s.links[i]? = some l) (hr : s.recovery = false) (h2 : l.state = 2)
    (hready : ∀ r ∈ s.resets, r.die = l.a ∨ r.die = l.b → r.step ≠ 3) (hj : s.Joined i l { l with state := 3, trained := 0 }) :
    (l.failed = false →
      (1500000 ≤ s.linkAge i → Completes (.linkResetElapsed i) s (LinkBecame s i { l with state := 3, trained := 0 })) ∧
      (s.linkAge i < 1500000 → exec (.linkResetElapsed i) s = .next s) ∧ exec (.linkRetryTimer i) s = .next s) ∧
    (l.failed = true →
      (150000000 ≤ s.linkAge i → Completes (.linkRetryTimer i) s (LinkBecame s i { l with state := 3, trained := 0 })) ∧
      (s.linkAge i < 150000000 → exec (.linkRetryTimer i) s = .next s) ∧ exec (.linkResetElapsed i) s = .next s) := by
  have hends := (endsReady_iff s l).mpr hready
  constructor
  · intro hf
    exact ⟨fun hage => completes_becomes hl (exec_linkResetElapsed_over hl hr h2 hends hf hage) rfl three_ne_zero hj,
      fun hage => exec_linkResetElapsed_stays hl hr h2 (.inr hage), exec_linkRetryTimer_stays hl hr h2 (.inl hf)⟩
  · intro hf
    exact ⟨fun hage => completes_becomes hl (exec_linkRetryTimer_over hl hr h2 hends hf hage) rfl three_ne_zero hj,
      fun hage => exec_linkRetryTimer_stays hl hr h2 (.inr hage), exec_linkResetElapsed_stays hl hr h2 (.inl hf)⟩

/-- A link in Training (R9, R409). -/
theorem link_trains (hl : s.links[i]? = some l) (hr : s.recovery = false) (h3 : l.state = 3) :
    (s.Joined i l { l with state := 2, trained := 0, failed := true } →
      Completes (.linkTrainingFailed i) s (LinkBecame s i { l with state := 2, trained := 0, failed := true })) ∧
    LinkCuts s i l { l with state := 2, trained := 0, failed := true } (.linkTrainingFailed i) ∧
    ∀ n, 0 < n → n ≤ l.fitted →
      ((∀ d ∈ [l.a, l.b], s.isOffline d = false) →
        Completes (.linkTrained i n) s (LinkBecame s i { l with state := 0, trained := n, retries := [], failed := false })) ∧
      ∀ d, d ∈ [l.a, l.b] → s.resets = [] → s.firings = [] → l.b < 4 → s.isOffline d = true →
        Completes (.linkTrained i n) s (fun t => d ∉ t.offline) := by
  have hexec := exec_linkTrainingFailed_acts hl hr h3
  exact ⟨completes_becomes hl hexec rfl two_ne_zero, linkCuts_of_changeLink hl hexec rfl two_ne_zero, fun n h0 hn =>
    ⟨linkTrained_becomes hl hr h3 h0 hn, fun d hd hres hfir hb _ => linkTrained_revives hl hr h3 h0 hn hd hres hfir hb⟩⟩

end

/-! ### The links of a die under a warm reset (R414) -/

theorem mem_dieLinks (s : State) (die i : Nat) :
    i ∈ s.dieLinks die ↔ ∃ l, s.links[i]? = some l ∧ (l.a = die ∨ l.b = die) := by
  simp only [State.dieLinks, List.mem_map, List.mem_filter, Prod.exists, List.mem_zipIdx_iff_getElem?, Bool.or_eq_true,
    decide_eq_true_eq]
  constructor
  · rintro ⟨l, j, ⟨hl, hd⟩, rfl⟩
    exact ⟨l, hl, hd⟩
  · rintro ⟨l, hl, hd⟩
    exact ⟨l, i, ⟨hl, hd⟩, rfl⟩

theorem nodup_dieLinks (s : State) (die : Nat) : (s.dieLinks die).Nodup := by
  have hsub : (s.dieLinks die).Sublist (s.links.zipIdx.map Prod.snd) := List.filter_sublist.map _
  rw [List.zipIdx_map_snd] at hsub
  exact (List.nodup_range' ..).sublist hsub

theorem linksAre_iff (s : State) (die : Nat) (p : Link → Bool) :
    s.linksAre die p = true ↔ ∀ (j : Nat) (l : Link), s.links[j]? = some l → l.a = die ∨ l.b = die → p l = true := by
  simp only [State.linksAre, List.all_eq_true, mem_dieLinks]
  constructor
  · intro h j l hl hd
    simpa [hl] using h j ⟨l, hl, hd⟩
  · rintro h j ⟨l, hl, hd⟩
    simpa [hl] using h j l hl hd

theorem any_dieLinks_iff (s : State) (die : Nat) (p : Link → Bool) :
    (s.dieLinks die).any (fun i => (s.links[i]?).any p) = true ↔ ∃ l ∈ s.links, (l.a = die ∨ l.b = die) ∧ p l = true := by
  simp only [List.any_eq_true, mem_dieLinks]
  constructor
  · rintro ⟨i, ⟨l, hl, hd⟩, hp⟩
    exact ⟨l, List.mem_of_getElem? hl, hd, by simpa [hl] using hp⟩
  · rintro ⟨l, hm, hd, hp⟩
    obtain ⟨i, hl⟩ := List.mem_iff_getElem?.mp hm
    exact ⟨i, ⟨l, hl, hd⟩, by simpa [hl] using hp⟩

/-- One link goes on to the next state if it is ready. -/
def State.passLink (ready : Nat → Link → Bool) (next : Nat) (s : State) (i : Nat) : State :=
  if (s.links[i]?).any (ready i) then s.changeLink i (fun l => { l with state := next }) false else s

/-- The link as it is after its turn. -/
def Link.passed (l : Link) (ready : Bool) (next : Nat) : Link := if ready then ({ l with state := next } : Link).settled else l

theorem passLinks_eq (s : State) (die : Nat) (ready : Nat → Link → Bool) (next : Nat) :
    s.passLinks die ready next = (s.dieLinks die).foldl (State.passLink ready next) s := rfl

theorem Link.passed_ends (l : Link) (ready : Bool) (next : Nat) :
    (l.passed ready next).a = l.a ∧ (l.passed ready next).b = l.b ∧ (l.passed ready next).failed = l.failed := by
  unfold Link.passed Link.settled
  split
  · split <;> exact ⟨rfl, rfl, rfl⟩
  · exact ⟨rfl, rfl, rfl⟩

theorem Link.passed_state (l : Link) (ready : Bool) (next : Nat) :
    (l.passed ready next).state = if ready then next else l.state := by
  unfold Link.passed Link.settled
  split
  · split <;> rfl
  · rfl

theorem passLink_turned {s : State} (q : s.Quiet) (ready : Nat → Link → Bool) (next i : Nat) :
    Turned s (s.passLink ready next i) ∧
      ∀ j, (s.passLink ready next i).links[j]? =
        if j = i then (s.links[i]?).map (fun l => l.passed (ready i l) next) else s.links[j]? := by
  unfold State.passLink
  cases hl : s.links[i]? with
  | none =>
    refine ⟨.refl s, fun j => ?_⟩
    by_cases hj : j = i
    · simp [hj, hl]
    · simp [hj]
  | some l =>
    obtain ⟨hi, -⟩ := List.getElem?_eq_some_iff.mp hl
    cases hready : ready i l with
    | false =>
      rw [if_neg (by simp [hready])]
      refine ⟨.refl s, fun j => ?_⟩
      by_cases hj : j = i
      · simp [hj, hl, hready, Link.passed]
      · simp [hj]
    | true =>
      rw [if_pos (by simp [hready])]
      obtain ⟨ht, hlinks⟩ := changeLink_turned q hl (fun l => { l with state := next }) false
      refine ⟨ht, fun j => ?_⟩
      rw [hlinks]
      by_cases hj : j = i
      · subst hj
        rw [List.getElem?_set_self hi]
        simp [hready, Link.passed]
      · rw [List.getElem?_set_ne (Ne.symm hj), if_neg hj]

theorem foldl_passLink_turned {s : State} (q : s.Quiet) (ready : Nat → Link → Bool) (next : Nat) (is : List Nat) (hn : is.Nodup) :
    Turned s (is.foldl (State.passLink ready next) s) ∧
      ∀ j, (is.foldl (State.passLink ready next) s).links[j]? =
        if j ∈ is then (s.links[j]?).map (fun l => l.passed (ready j l) next) else s.links[j]? := by
  induction is generalizing s with
  | nil => exact ⟨.refl s, fun j => rfl⟩
  | cons i is ih =>
    obtain ⟨hi, his⟩ := List.nodup_cons.mp hn
    obtain ⟨ht, hlinks⟩ := passLink_turned q ready next i
    obtain ⟨hrest, hall⟩ := ih (ht.quiet q) his
    refine ⟨ht.trans hrest, fun j => ?_⟩
    rw [List.foldl_cons, hall, hlinks]
    by_cases hj : j = i
    · subst hj
      simp [hi]
    · simp [hj]

/-- Every link of the die has its turn, on its own; the others stay. -/
theorem passLinks_turned {s : State} (q : s.Quiet) (die : Nat) (ready : Nat → Link → Bool) (next : Nat) :
    Turned s (s.passLinks die ready next) ∧
      ∀ j, (s.passLinks die ready next).links[j]? =
        (s.links[j]?).map (fun (l : Link) => l.passed (decide (l.a = die ∨ l.b = die) && ready j l) next) := by
  rw [passLinks_eq]
  obtain ⟨ht, hlinks⟩ := foldl_passLink_turned q ready next _ (nodup_dieLinks s die)
  refine ⟨ht, fun j => ?_⟩
  rw [hlinks]
  cases hl : s.links[j]? with
  | none => simp
  | some l =>
    have hmem : j ∈ s.dieLinks die ↔ l.a = die ∨ l.b = die := by simp [mem_dieLinks, hl]
    by_cases hd : l.a = die ∨ l.b = die
    · rw [if_pos (hmem.mpr hd), Option.map_some, Option.map_some, decide_eq_true hd, Bool.true_and]
    · rw [if_neg (mt hmem.mp hd), Option.map_some, decide_eq_false hd, Bool.false_and]
      rfl

/-- Link `j`, which was `l`, is `m` after the links of the die have had their turn. -/
def PassedTo (die : Nat) (ready : Nat → Link → Bool) (next j : Nat) (l m : Link) : Prop :=
  m.a = l.a ∧ m.b = l.b ∧ m.failed = l.failed ∧
    m.state = if (l.a = die ∨ l.b = die) ∧ ready j l = true then next else l.state

theorem passed_passedTo (die : Nat) (ready : Nat → Link → Bool) (next j : Nat) (l : Link) :
    PassedTo die ready next j l (l.passed (decide (l.a = die ∨ l.b = die) && ready j l) next) := by
  obtain ⟨ha, hb, hf⟩ := l.passed_ends (decide (l.a = die ∨ l.b = die) && ready j l) next
  refine ⟨ha, hb, hf, ?_⟩
  rw [Link.passed_state]
  simp only [Bool.and_eq_true, decide_eq_true_eq]

theorem passLinks_get {s : State} (q : s.Quiet) {die : Nat} (ready : Nat → Link → Bool) (next : Nat) {j : Nat} {l : Link}
    (hl : s.links[j]? = some l) :
    ∃ m, (s.passLinks die ready next).links[j]? = some m ∧ PassedTo die ready next j l m := by
  obtain ⟨-, hlinks⟩ := passLinks_turned q die ready next
  exact ⟨_, by rw [hlinks, hl, Option.map_some], passed_passedTo ..⟩

theorem of_passLinks_get {s : State} (q : s.Quiet) {die : Nat} {ready : Nat → Link → Bool} {next : Nat} {j : Nat} {m : Link}
    (hm : (s.passLinks die ready next).links[j]? = some m) :
    ∃ l, s.links[j]? = some l ∧ PassedTo die ready next j l m := by
  obtain ⟨-, hlinks⟩ := passLinks_turned q die ready next
  rw [hlinks] at hm
  obtain ⟨l, hl, rfl⟩ := Option.map_eq_some_iff.mp hm
  exact ⟨l, hl, passed_passedTo ..⟩

/-- Every other compute die is offline already or has an Active ring link away from the die. -/
def State.RestServed (s : State) (die : Nat) : Prop :=
  ∀ d, d < 4 → d ≠ die → s.isOffline d = true ∨
    ∃ l ∈ s.links, l.state = 0 ∧ l.b < 4 ∧ (l.a = d ∨ l.b = d) ∧ l.a ≠ die ∧ l.b ≠ die

/-- The change of a link of the die leaves the others served, so it turns none of them. -/
theorem withLink_served {s : State} {die : Nat} (h : s.RestServed die) {i : Nat} {l : Link} (hl : s.links[i]? = some l)
    (hd : l.a = die ∨ l.b = die) (m : Link) : (s.withLink i m).RestServed die := by
  intro d h4 hne
  refine (h d h4 hne).imp_right ?_
  rintro ⟨k, hk, h0, hb, hkd, ha', hb'⟩
  obtain ⟨j, hj⟩ := List.mem_iff_getElem?.mp hk
  have hji : i ≠ j := by
    rintro rfl
    obtain rfl : l = k := Option.some.inj (hl.symm.trans hj)
    exact hd.elim ha' hb'
  exact ⟨k, List.mem_iff_getElem?.mpr ⟨j, (List.getElem?_set_ne hji).trans hj⟩, h0, hb, hkd, ha', hb'⟩

theorem isOffline_of_served {s : State} {die d : Nat} (h : s.RestServed die) (hne : d ≠ die) (hcut : s.isCut d = true) :
    s.isOffline d = true := by
  have h4 : d < 4 := by
    simp only [State.isCut, Bool.and_eq_true, decide_eq_true_eq] at hcut
    exact hcut.1
  refine (h d h4 hne).resolve_right ?_
  rintro ⟨l, hl, h0, hb, hd, -⟩
  rw [isCut_false_of_active hl h0 hb hd] at hcut
  exact Bool.false_ne_true hcut

theorem RecordsPosted.served {s t : State} (h : RecordsPosted s t) {die : Nat} (hs : s.RestServed die) : t.RestServed die := by
  unfold State.RestServed State.isOffline
  rw [h.links, h.offline]
  exact hs

/-- With the others served, a link of a die under reset goes on and no die turns. -/
theorem passLink_offline {s : State} {die : Nat} (hs : s.RestServed die) (hres : s.inReset die = true) {ready : Nat → Link → Bool}
    {next : Nat} (hnext : next ≠ 0) {i : Nat} (hd : ∀ l, s.links[i]? = some l → l.a = die ∨ l.b = die) :
    (s.passLink ready next i).offline = s.offline ∧ (s.passLink ready next i).RestServed die := by
  unfold State.passLink
  split
  · rename_i hready
    obtain ⟨l, hl⟩ := Option.isSome_iff_exists.mp (Option.isSome_of_any hready)
    have hm : ({ l with state := next } : Link).settled.state ≠ 0 := by
      have := Link.passed_state l true next
      simp only [Link.passed, if_true] at this
      rwa [this]
    have hserved := withLink_served hs hl (hd l hl) ({ l with state := next } : Link).settled
    have hnone : s.TurnsNone i l ({ l with state := next } : Link).settled := by
      refine .inr fun d hmem => ?_
      rw [if_neg hm]
      intro hcut
      have hne : d ≠ die := by
        rintro rfl
        rw [mem_freeEnds, hres] at hmem
        exact Bool.noConfusion hmem.2
      have hoff := isOffline_of_served hserved hne hcut
      exact hoff
    have hp := changeLink_posted (f := fun l => { l with state := next }) hl hnone false
    exact ⟨hp.offline, hp.served hserved⟩
  · exact ⟨rfl, hs⟩

theorem passLinks_offline {s : State} (q : s.Quiet) {die : Nat} (hs : s.RestServed die) (hres : s.inReset die = true)
    (ready : Nat → Link → Bool) {next : Nat} (hnext : next ≠ 0) :
    (s.passLinks die ready next).offline = s.offline ∧ (s.passLinks die ready next).RestServed die := by
  rw [passLinks_eq]
  have hd : ∀ i ∈ s.dieLinks die, ∀ l, s.links[i]? = some l → l.a = die ∨ l.b = die := by
    intro i hi l hl
    obtain ⟨k, hk, hd⟩ := (mem_dieLinks ..).mp hi
    exact Option.some.inj (hk.symm.trans hl) ▸ hd
  generalize s.dieLinks die = is at hd
  induction is generalizing s with
  | nil => exact ⟨rfl, hs⟩
  | cons i is ih =>
    obtain ⟨hoff, hserved⟩ := passLink_offline (ready := ready) hs hres hnext (hd i (List.mem_cons_self ..))
    obtain ⟨ht, hlinks⟩ := passLink_turned q ready next i
    have hres' : (s.passLink ready next i).inReset die = true := by
      rwa [State.inReset, ht.resets]
    obtain ⟨ho, hr⟩ := ih (ht.quiet q) hserved hres' fun j hj l hl => by
      rw [hlinks] at hl
      split at hl
      · obtain ⟨k, hk, rfl⟩ := Option.map_eq_some_iff.mp hl
        obtain ⟨ea, eb, -⟩ := k.passed_ends (ready i k) next
        rw [ea, eb]
        exact hd i (List.mem_cons_self ..) k hk
      · exact hd j (List.mem_cons_of_mem _ hj) l hl
    exact ⟨ho.trans hoff, hr⟩

theorem active_of_not_cut {s : State} {d : Nat} (h4 : d < 4) (h : s.isCut d = false) :
    ∃ l ∈ s.links, l.state = 0 ∧ l.b < 4 ∧ (l.a = d ∨ l.b = d) := by
  have hany : s.links.any (fun l => l.b < 4 && (l.a = d || l.b = d) && l.state = 0) = true := by
    simpa [State.isCut, h4] using h
  obtain ⟨l, hl, hp⟩ := List.any_eq_true.mp hany
  simp only [Bool.and_eq_true, Bool.or_eq_true, decide_eq_true_eq] at hp
  exact ⟨l, hl, hp.2, hp.1.1, hp.1.2⟩

/-! ### Step 2: lines go home (R414) -/

/-- From `s` to `t` the L1 of the acting cell has changed, beside what posting a record leaves. -/
def L1Written (s t : State) : Prop := RecordsPosted (s.upd (fun c => { c with l1 := t.cpu.l1 })) t

theorem RecordsPosted.l1Written {s t : State} (h : RecordsPosted s t) (f : Cell → List L1Line) :
    L1Written s (t.upd (fun c => { c with l1 := f c })) where
  rest := congrArg (State.upd · (fun c => { c with l1 := f t.cpu })) h.rest
  cell := congrArg (fun c : Cell => { c with l1 := f t.cpu }) h.cell
  noChannel := h.noChannel
  noCell := h.noCell

theorem L1Written.refl (s : State) : L1Written s s := RecordsPosted.refl s

theorem L1Written.trans {s t u : State} (h : L1Written s t) (k : L1Written t u) : L1Written s u :=
  RecordsPosted.trans (t := t.upd (fun c => { c with l1 := u.cpu.l1 }))
    { rest := congrArg (State.upd · (fun c => { c with l1 := u.cpu.l1 })) h.rest
      cell := congrArg (fun c : Cell => { c with l1 := u.cpu.l1 }) h.cell
      noChannel := h.noChannel
      noCell := h.noCell } k

theorem landLine_posted (s : State) (k : Nat) (mask : BitVec 128) (data : VReg) (who : Option Nat) :
    RecordsPosted s (s.landLine k mask data who) := by
  unfold State.landLine
  refine RecordsPosted.foldl (fun s w => ?_) _ s
  dsimp only
  split
  · exact homeWrite_posted ..
  · refine RecordsPosted.foldl (fun s j => ?_) _ s
    split
    · exact homeWrite_posted ..
    · exact .refl s

/-- The write-back of one line leaves every other line as it was. -/
theorem writeBack_l1Written (s : State) (no : Nat) :
    L1Written s (s.writeBack no) ∧ ∀ x ∈ (s.writeBack no).cpu.l1, x.no ≠ no → x ∈ s.cpu.l1 := by
  unfold State.writeBack
  split
  · exact ⟨.refl s, fun x hx _ => hx⟩
  · rename_i x _
    have hp := landLine_posted s (lineKey s.fuses x.no) x.dirty x.data (some s.cpu.id)
    refine ⟨hp.l1Written (fun c => c.l1.map (fun y => if y.no = no then { y with dirty := 0 } else y)), ?_⟩
    have hl1 : (s.landLine (lineKey s.fuses x.no) x.dirty x.data (some s.cpu.id)).cpu.l1 = s.cpu.l1 := by rw [hp.cell]
    simp only [State.upd_cpu, hl1, List.mem_map]
    rintro z ⟨y, hy, rfl⟩ hne
    split at hne
    · exact absurd ‹_› hne
    · rwa [if_neg ‹_›]

theorem foldl_writeBack_l1Written (nos : List Nat) (s : State) :
    L1Written s (nos.foldl State.writeBack s) ∧ ∀ x ∈ (nos.foldl State.writeBack s).cpu.l1, x.no ∉ nos → x ∈ s.cpu.l1 := by
  induction nos generalizing s with
  | nil => exact ⟨.refl s, fun x hx _ => hx⟩
  | cons no nos ih =>
    obtain ⟨hw, hl⟩ := writeBack_l1Written s no
    obtain ⟨hws, hls⟩ := ih (s.writeBack no)
    refine ⟨hw.trans hws, fun x hx hno => ?_⟩
    obtain ⟨hne, hnot⟩ : x.no ≠ no ∧ x.no ∉ nos := by simpa using hno
    exact hl x (hls x hx hnot) hne

/-- The line of a number is homed on a die. -/
def homedOn (f : Fuses) (die no : Nat) : Prop := homeDie f ⟨no % 2 ^ 60 * 128, decide (2 ^ 60 ≤ no), 0⟩ = die

theorem mem_linesOn (f : Fuses) (die : Nat) (c : Cell) (no : Nat) :
    no ∈ linesOn f die c ↔ (∃ x ∈ c.l1, x.no = no) ∧ homedOn f die no := by
  simp [linesOn, homedOn]

/-- The acting cell writes its lines of the die home and drops them, those that it has fetched too; its registers stay. -/
theorem writeBackDie_acting (s : State) (die : Nat) :
    let t := s.writeBackDie die s.cpu.id
    t.resets = s.resets ∧ t.offline = s.offline ∧ (s.cells = [] → t.cells = []) ∧ t.cpu.id = s.cpu.id ∧ t.cpu.x = s.cpu.x ∧
      (∀ x ∈ t.cpu.l1, x ∈ s.cpu.l1 ∧ ¬ homedOn s.fuses die x.no) ∧
      ∀ e ∈ t.cpu.icache, e ∈ s.cpu.icache ∧ ¬ homedOn s.fuses die e.1 := by
  have hself : s.focus s.cpu.id = s := if_pos rfl
  obtain ⟨hw, hl⟩ := foldl_writeBack_l1Written (linesOn s.fuses die s.cpu) s
  unfold State.writeBackDie
  rw [hself]
  dsimp only
  generalize (linesOn s.fuses die s.cpu).foldl State.writeBack s = u at hw hl
  have hp : RecordsPosted (s.upd (fun c => { c with l1 := u.cpu.l1 })) u := hw
  have hicache : u.cpu.icache = s.cpu.icache := by rw [hp.cell]; rfl
  have hid : u.cpu.id = s.cpu.id := by rw [hp.cell]; rfl
  refine ⟨hp.resets, hp.offline, hp.noCell, hid, hp.x, ?_, ?_⟩
  · intro x hx
    simp only [State.upd_cpu, List.mem_filter, Bool.not_eq_true', List.contains_eq_mem, decide_eq_false_iff_not] at hx
    have hold := hl x hx.1 hx.2
    exact ⟨hold, fun hh => hx.2 ((mem_linesOn ..).mpr ⟨⟨x, hold, rfl⟩, hh⟩)⟩
  · intro e he
    simp only [State.upd_cpu, List.mem_filter, hicache, hp.fuses, State.upd_fuses] at he
    exact ⟨he.1, by simpa [homedOn] using he.2⟩

/-! ### The units that a reset retires (R413, R414) -/

theorem retire_posted (s : State) (kind number : Nat) :
    (s.retire kind number).resets = s.resets ∧ (s.retire kind number).offline = s.offline ∧
      ∀ k n, (s.retire kind number).isRetired k n = true ↔ (k, n) = (kind, number) ∨ s.isRetired k n = true := by
  unfold State.retire
  split
  · rename_i h
    refine ⟨rfl, rfl, fun k n => ⟨.inr, ?_⟩⟩
    rintro (e | hk)
    · obtain ⟨rfl, rfl⟩ := Prod.mk.inj e
      exact h
    · exact hk
  · have hp := tableChange_posted { s with retired := (kind, number) :: s.retired } 4
      (State.unitDie { s with retired := (kind, number) :: s.retired } kind number) 1 kind number false
    refine ⟨hp.resets, hp.offline, fun k n => ?_⟩
    simp only [State.isRetired, List.contains_iff_mem]
    rw [hp.retired]
    exact List.mem_cons

theorem foldl_retire_posted (us : List (Nat × Nat)) (s : State) :
    let t := us.foldl (fun s u => s.retire u.1 u.2) s
    t.resets = s.resets ∧ t.offline = s.offline ∧ ∀ k n, t.isRetired k n = true ↔ (k, n) ∈ us ∨ s.isRetired k n = true := by
  induction us generalizing s with
  | nil => simp
  | cons u us ih =>
    obtain ⟨hr, ho, hu⟩ := retire_posted s u.1 u.2
    obtain ⟨hrs, hos, hus⟩ := ih (s.retire u.1 u.2)
    refine ⟨hrs.trans hr, hos.trans ho, fun k n => ?_⟩
    rw [List.foldl_cons, hus, hu, List.mem_cons, ← or_assoc, or_comm (a := (k, n) ∈ us)]

/-! ### The steps of a warm reset (R414) -/

/-- In a state whose one reset is that of a die, its step becomes the next. -/
theorem setReset_resets {s : State} {die m : Nat} (h : s.resets = [⟨die, m⟩]) (n : Nat) :
    (s.setReset die n).resets = [⟨die, n⟩] := by
  simp [State.setReset, h]

theorem inReset_of_resets {s : State} {die n : Nat} (h : s.resets = [⟨die, n⟩]) : s.inReset die = true := by
  simp [State.inReset, h]

section
variable {s : State} {die : Nat} {failed : List (Nat × Nat)}

/-- Before the firmware runs nothing happens (R404). -/
theorem exec_warmReset_down (h : s.up = false) (n : Nat) : exec (.warmReset die n failed) s = .next s := by
  simp [exec_warmReset, execWarmReset, h]

theorem exec_warmReset_begins (hup : s.up = true) (h4 : die < 4) (hres : s.resets = []) :
    exec (.warmReset die 1 failed) s =
      .next (({ s with resets := [⟨die, 1⟩] }.takeOffline die).noteBounds s.boundsHold die) := by
  simp [exec_warmReset, execWarmReset, hup, hres, Nat.not_le.mpr h4]

theorem exec_warmReset_unbegun (hup : s.up = true) (hres : s.resets = []) {n : Nat} (hn : n ≠ 1) :
    exec (.warmReset die n failed) s = .next s := by
  simp [exec_warmReset, execWarmReset, hup, hres, hn]

/-- A step out of its turn joins the reset under way. -/
theorem exec_warmReset_joins (hup : s.up = true) {m n : Nat} (hres : s.resets = [⟨die, m⟩]) (hn : n ≠ m + 1) :
    exec (.warmReset die n failed) s = .next s := by
  simp [exec_warmReset, execWarmReset, hup, hres, hn]

theorem exec_warmReset_two (hup : s.up = true) (hres : s.resets = [⟨die, 1⟩]) :
    exec (.warmReset die 2 failed) s = .next
      (let t := (s.allCells.map (fun c => c.id)).foldl (fun s id => s.writeBackDie die id) s
       (({ t with slices := t.slices.filter (fun x => stackDie s.fuses (x.1 / 4) ≠ die) } : State).focus s.cpu.id).setReset die 2) := by
  simp [exec_warmReset, execWarmReset, hup, hres]

theorem exec_warmReset_three (hup : s.up = true) (hres : s.resets = [⟨die, 2⟩]) :
    exec (.warmReset die 3 failed) s = .next (s.quiesceDie die) := by
  simp [exec_warmReset, execWarmReset, hup, hres]

theorem exec_warmReset_four (hup : s.up = true) (hres : s.resets = [⟨die, 3⟩]) :
    exec (.warmReset die 4 failed) s = .next ((s.resetLogic die).setReset die 4) := by
  simp [exec_warmReset, execWarmReset, hup, hres]

theorem exec_warmReset_five (hup : s.up = true) (hres : s.resets = [⟨die, 4⟩]) :
    exec (.warmReset die 5 failed) s = .next (s.retrainDie die) := by
  simp [exec_warmReset, execWarmReset, hup, hres]

theorem exec_warmReset_six (hup : s.up = true) (hres : s.resets = [⟨die, 5⟩]) :
    exec (.warmReset die 6 failed) s = .next
      (if (s.dieLinks die).any (fun i => (s.links[i]?).any (fun l => l.state = 3)) then s
       else ((failed.filter (fun u => u.1 ≤ 4 && s.unitDie u.1 u.2 = die)).foldl (fun s u => s.retire u.1 u.2) s).setReset die 6) := by
  rw [apply_ite Host.Outcome.next]
  simp only [exec_warmReset, execWarmReset, hup, hres, List.find?_cons_of_pos, beq_self_eq_true]
  rfl

theorem exec_warmReset_seven (hup : s.up = true) (hres : s.resets = [⟨die, 6⟩]) :
    exec (.warmReset die 7 failed) s = .next
      ((if s.isCut die then { s with resets := [] } else State.bringLive { s with resets := [] } die).noteBounds s.boundsHold die) := by
  simp only [exec_warmReset, execWarmReset, hup, hres, List.find?_cons_of_pos, beq_self_eq_true]
  simp [State.isCut, State.boundsHold]

/-- Step 1 takes the die offline. -/
theorem warmReset_begins (hup : s.up = true) (h4 : die < 4) (q : s.Quiet) (hres : s.resets = []) :
    Completes (.warmReset die 1 failed) s (fun t => t.resets = [⟨die, 1⟩] ∧ die ∈ t.offline) := by
  refine ⟨_, exec_warmReset_begins hup h4 hres, ?_⟩
  have hp := takeOffline_posted (s := { s with resets := [⟨die, 1⟩] }) ⟨q.firings, q.channels, q.copiers⟩ die
  have hn := hp.trans (noteBounds_posted _ s.boundsHold die)
  exact ⟨hn.resets, hn.offline ▸ (mem_insertNat ..).mpr (.inl rfl)⟩

/-- Step 2 leaves no line that is homed on the die in the L1 of the acting cell. -/
theorem warmReset_two (hup : s.up = true) (hres : s.resets = [⟨die, 1⟩]) (hcells : s.cells = []) :
    Completes (.warmReset die 2 failed) s (fun t => t.resets = [⟨die, 2⟩] ∧ t.offline = s.offline ∧ t.cells = [] ∧
      t.cpu.x = s.cpu.x ∧ (∀ x ∈ t.cpu.l1, x ∈ s.cpu.l1 ∧ ¬ homedOn s.fuses die x.no) ∧
      ∀ e ∈ t.cpu.icache, e ∈ s.cpu.icache ∧ ¬ homedOn s.fuses die e.1) := by
  refine ⟨_, exec_warmReset_two hup hres, ?_⟩
  obtain ⟨hr, ho, hc, hid, hx, hl, hi⟩ := writeBackDie_acting s die
  have hone : (s.allCells.map (fun c => c.id)).foldl (fun s id => s.writeBackDie die id) s = s.writeBackDie die s.cpu.id := by
    simp [State.allCells, hcells]
  dsimp only
  rw [hone, State.focus, if_pos hid]
  exact ⟨setReset_resets (hr.trans hres) 2, ho, hc hcells, hx, hl, hi⟩

/-- The links of the die once those of step 3 have passed: Active ones quiesce, and those that have drained go to Reset. -/
def State.quiesced (s : State) (die : Nat) : State :=
  let u := s.passLinks die (fun _ l => l.state = 0) 1
  u.passLinks die (fun i l => l.state = 1 && u.linkDrained i) 2

/-- Step 3 is over when every link of the die is in Reset; a failure before it counts no more. -/
theorem quiesceDie_eq (s : State) (die : Nat) :
    s.quiesceDie die =
      if (s.quiesced die).linksAre die (fun l => l.state = 2) then
        ({ s.quiesced die with
            links := (s.quiesced die).links.map (fun l => if l.a = die || l.b = die then { l with failed := false } else l) } :
          State).setReset die 3
      else s.quiesced die := rfl

theorem quiesced_turned (q : s.Quiet) (die : Nat) : Turned s (s.quiesced die) := by
  obtain ⟨hu, -⟩ := passLinks_turned q die (fun _ l => l.state = 0) 1
  exact hu.trans (passLinks_turned (hu.quiet q) die _ 2).1

/-- A drained link of the die that does not train is in Reset once the links have passed. -/
theorem state_of_quiesced (q : s.Quiet)
    (hready : ∀ (j : Nat) (l : Link), s.links[j]? = some l → l.a = die ∨ l.b = die → l.state ≤ 2 ∧ s.linkDrained j = true)
    {j : Nat} {m : Link} (hm : (s.quiesced die).links[j]? = some m) (hd : m.a = die ∨ m.b = die) : m.state = 2 := by
  obtain ⟨hu, -⟩ := passLinks_turned q die (fun _ l => l.state = 0) 1
  obtain ⟨k, hk, ka, kb, -, kst⟩ := of_passLinks_get (hu.quiet q) hm
  obtain ⟨l, hl, la, lb, -, lst⟩ := of_passLinks_get q hk
  rw [ka, kb] at hd
  rw [la, lb] at hd
  obtain ⟨hle, hdrained⟩ := hready j l hl hd
  simp only [la, lb, hd, hu.linkDrained, hdrained, true_and, Bool.and_eq_true, and_true, decide_eq_true_eq] at kst lst
  split_ifs at kst lst <;> omega

/-- A link of the die that trains stays in Training. -/
theorem quiesced_training (q : s.Quiet) {j : Nat} {l : Link} (hl : s.links[j]? = some l) (hd : l.a = die ∨ l.b = die)
    (h3 : l.state = 3) : ∃ m, (s.quiesced die).links[j]? = some m ∧ (m.a = die ∨ m.b = die) ∧ m.state = 3 := by
  obtain ⟨hu, -⟩ := passLinks_turned q die (fun _ l => l.state = 0) 1
  obtain ⟨k, hk, ka, kb, -, kst⟩ := passLinks_get q (die := die) (fun _ l => l.state = 0) 1 hl
  obtain ⟨m, hm, ma, mb, -, mst⟩ := passLinks_get (hu.quiet q) (die := die)
    (fun i l => l.state = 1 && (s.passLinks die (fun _ l => l.state = 0) 1).linkDrained i) 2 hk
  simp only [h3, decide_eq_true_eq, OfNat.ofNat_ne_zero, and_false, if_false] at kst
  simp only [kst, Bool.and_eq_true, decide_eq_true_eq, OfNat.ofNat_ne_one, false_and, and_false, if_false] at mst
  exact ⟨m, hm, by rwa [ma, mb, ka, kb], mst⟩

theorem quiesced_offline (q : s.Quiet) {n : Nat} (hres : s.resets = [⟨die, n⟩]) (hs : s.RestServed die) :
    (s.quiesced die).offline = s.offline := by
  have hin := inReset_of_resets hres
  obtain ⟨hu, -⟩ := passLinks_turned q die (fun _ l => l.state = 0) 1
  obtain ⟨ho, hserved⟩ := passLinks_offline q hs hin (fun _ l => l.state = 0) one_ne_zero
  have hin' : (s.passLinks die (fun _ l => l.state = 0) 1).inReset die = true := by rwa [State.inReset, hu.resets]
  exact (passLinks_offline (hu.quiet q) hserved hin' _ two_ne_zero).1.trans ho

/-- Step 3 is over once every link of the die is in Reset. -/
theorem warmReset_three (hup : s.up = true) (q : s.Quiet) (hres : s.resets = [⟨die, 2⟩])
    (hready : ∀ (j : Nat) (l : Link), s.links[j]? = some l → l.a = die ∨ l.b = die → l.state ≤ 2 ∧ s.linkDrained j = true)
    (hrest : ∀ d, d < 4 → d ≠ die → ∃ l ∈ s.links, l.state = 0 ∧ l.b < 4 ∧ (l.a = d ∨ l.b = d) ∧ l.a ≠ die ∧ l.b ≠ die) :
    Completes (.warmReset die 3 failed) s (fun t => t.resets = [⟨die, 3⟩] ∧ t.offline = s.offline ∧
      ∀ (j : Nat) (l : Link), t.links[j]? = some l → l.a = die ∨ l.b = die → l.state = 2) := by
  refine ⟨_, exec_warmReset_three hup hres, ?_⟩
  have hall : (s.quiesced die).linksAre die (fun l => l.state = 2) = true := by
    rw [linksAre_iff]
    exact fun j m hm hd => decide_eq_true (state_of_quiesced q hready hm hd)
  rw [quiesceDie_eq, if_pos hall]
  refine ⟨setReset_resets ((quiesced_turned q die).resets.trans hres) 3,
    quiesced_offline q hres (fun d h4 hne => .inr (hrest d h4 hne)), fun j l hl hd => ?_⟩
  simp only [State.setReset, List.getElem?_map, Option.map_eq_some_iff] at hl
  obtain ⟨m, hm, rfl⟩ := hl
  have hends : (m.a = die ∨ m.b = die) ∧ (if m.a = die || m.b = die then { m with failed := false } else m).state = m.state := by
    split at hd
    · exact ⟨hd, by split <;> rfl⟩
    · exact ⟨hd, by split <;> rfl⟩
  rw [hends.2]
  exact state_of_quiesced q hready hm hends.1

/-- While a link of the die trains, step 3 is not over. -/
theorem warmReset_three_waits (hup : s.up = true) (q : s.Quiet) (hres : s.resets = [⟨die, 2⟩])
    (h : ∃ l ∈ s.links, (l.a = die ∨ l.b = die) ∧ l.state = 3) :
    Completes (.warmReset die 3 failed) s (fun t => t.resets = s.resets) := by
  refine ⟨_, exec_warmReset_three hup hres, ?_⟩
  obtain ⟨l, hmem, hd, h3⟩ := h
  obtain ⟨j, hl⟩ := List.mem_iff_getElem?.mp hmem
  obtain ⟨m, hm, hmd, hm3⟩ := quiesced_training q hl hd h3
  have hnot : ¬ (s.quiesced die).linksAre die (fun l => l.state = 2) = true := by
    rw [linksAre_iff]
    intro hall
    have := of_decide_eq_true (hall j m hm hmd)
    omega
  rw [quiesceDie_eq, if_neg hnot]
  exact (quiesced_turned q die).resets

/-- Step 4: the acting cell, if it is one of the die's, is at its reset contents, and the memories are as they were. -/
theorem warmReset_four (hup : s.up = true) (hres : s.resets = [⟨die, 3⟩]) (hblocks : s.blocks = []) :
    Completes (.warmReset die 4 failed) s (fun t => t.resets = [⟨die, 4⟩] ∧ t.offline = s.offline ∧
      (s.cpu.die = die → t.cpu = { idleCell s.fuses s.cpu.id with eager := s.cpu.eager }) ∧
      (s.cpu.die ≠ die → t.cpu = s.cpu) ∧ SameMemory s t) := by
  refine ⟨_, exec_warmReset_four hup hres, ?_⟩
  simp only [State.resetLogic, hblocks, List.filter_nil, List.foldl_nil]
  exact ⟨setReset_resets hres 4, rfl, fun h => if_pos h, fun h => if_neg h, fun _ => rfl, fun _ => rfl⟩

/-- A link of the die is ready to train. -/
def State.trainable (s : State) (i : Nat) (l : Link) : Bool :=
  l.state = 2 && !l.failed && 1500000 ≤ s.linkAge i && s.endsReady l

theorem trainable_iff (s : State) (i : Nat) (l : Link) :
    s.trainable i l = true ↔ l.state = 2 ∧ l.failed = false ∧ 1500000 ≤ s.linkAge i ∧ s.endsReady l = true := by
  simp [State.trainable, and_assoc]

/-- A link has done its part of step 5: it trains, is Active, or has failed to come up. -/
def Link.retrained (l : Link) : Bool := l.state = 3 || l.state = 0 || (l.state = 2 && l.failed)

/-- Step 5 is over when every link of the die has done its part. -/
theorem retrainDie_eq (s : State) (die : Nat) :
    s.retrainDie die =
      if (s.passLinks die s.trainable 3).linksAre die Link.retrained then
        (s.passLinks die s.trainable 3).setReset die 5
      else s.passLinks die s.trainable 3 := rfl

/-- Step 5 starts the links of the die 1 ms after, all at once. -/
theorem warmReset_five (hup : s.up = true) (q : s.Quiet) (hres : s.resets = [⟨die, 4⟩])
    (hready : ∀ (j : Nat) (l : Link), s.links[j]? = some l → l.a = die ∨ l.b = die →
      l.state = 2 ∧ l.failed = false ∧ 1500000 ≤ s.linkAge j)
    (hrest : ∀ d, d < 4 → d ≠ die → s.isCut d = true → s.isOffline d = true) :
    Completes (.warmReset die 5 failed) s (fun t => t.resets = [⟨die, 5⟩] ∧ t.offline = s.offline ∧
      ∀ (j : Nat) (l : Link), t.links[j]? = some l → l.a = die ∨ l.b = die → l.state = 3) := by
  refine ⟨_, exec_warmReset_five hup hres, ?_⟩
  have htrains : ∀ (j : Nat) (m : Link), (s.passLinks die s.trainable 3).links[j]? = some m → m.a = die ∨ m.b = die → m.state = 3 := by
    intro j m hm hd
    obtain ⟨l, hl, la, lb, -, lst⟩ := of_passLinks_get q hm
    rw [la, lb] at hd
    obtain ⟨h2, hf, hage⟩ := hready j l hl hd
    have hends : s.endsReady l = true := (endsReady_iff ..).mpr (by simp [hres])
    rw [lst, if_pos ⟨hd, (trainable_iff ..).mpr ⟨h2, hf, hage, hends⟩⟩]
  have hserved : s.RestServed die := by
    intro d h4 hne
    cases hcut : s.isCut d with
    | true => exact .inl (hrest d h4 hne hcut)
    | false =>
      obtain ⟨l, hmem, h0, hb, hd⟩ := active_of_not_cut h4 hcut
      obtain ⟨j, hl⟩ := List.mem_iff_getElem?.mp hmem
      have haway : ¬ (l.a = die ∨ l.b = die) := fun hdie => by
        have := (hready j l hl hdie).1
        omega
      exact .inr ⟨l, hmem, h0, hb, hd, not_or.mp haway⟩
  have hall : (s.passLinks die s.trainable 3).linksAre die Link.retrained = true :=
    (linksAre_iff ..).mpr fun j m hm hd => by simp [Link.retrained, htrains j m hm hd]
  rw [retrainDie_eq, if_pos hall]
  exact ⟨setReset_resets ((passLinks_turned q die s.trainable 3).1.resets.trans hres) 5,
    (passLinks_offline q hserved (inReset_of_resets hres) s.trainable three_ne_zero).1, htrains⟩

/-- While a link of the die has not rested 1 ms, step 5 is not over. -/
theorem warmReset_five_waits (hup : s.up = true) (q : s.Quiet) (hres : s.resets = [⟨die, 4⟩])
    (h : ∃ (j : Nat) (l : Link), s.links[j]? = some l ∧ (l.a = die ∨ l.b = die) ∧ l.state = 2 ∧ l.failed = false ∧
      s.linkAge j < 1500000) :
    Completes (.warmReset die 5 failed) s (fun t => t.resets = s.resets) := by
  refine ⟨_, exec_warmReset_five hup hres, ?_⟩
  obtain ⟨j, l, hl, hd, h2, hf, hage⟩ := h
  obtain ⟨m, hm, ma, mb, mf, mst⟩ := passLinks_get q (die := die) s.trainable 3 hl
  have hyoung : ¬ ((l.a = die ∨ l.b = die) ∧ s.trainable j l = true) := fun hr => by
    have := ((trainable_iff ..).mp hr.2).2.2.1
    omega
  rw [if_neg hyoung] at mst
  have hnot : ¬ (s.passLinks die s.trainable 3).linksAre die Link.retrained = true := by
    rw [linksAre_iff]
    intro hall
    have := hall j m hm (by rwa [ma, mb])
    simp [Link.retrained, mst, mf, h2, hf] at this
  rw [retrainDie_eq, if_neg hnot]
  exact (passLinks_turned q die s.trainable 3).1.resets

/-- Step 6 retires the units of the die that fail, once none of its links trains. -/
theorem warmReset_six (hup : s.up = true) (hres : s.resets = [⟨die, 5⟩])
    (h : ∀ l ∈ s.links, l.a = die ∨ l.b = die → l.state ≠ 3) :
    Completes (.warmReset die 6 failed) s (fun t => t.resets = [⟨die, 6⟩] ∧ t.offline = s.offline ∧
      ∀ u ∈ failed, u.1 ≤ 4 → s.unitDie u.1 u.2 = die → t.isRetired u.1 u.2 = true) := by
  refine ⟨_, exec_warmReset_six hup hres, ?_⟩
  have hnone : ¬ (s.dieLinks die).any (fun i => (s.links[i]?).any (fun l => l.state = 3)) = true := by
    rw [any_dieLinks_iff]
    rintro ⟨l, hl, hd, h3⟩
    exact h l hl hd (of_decide_eq_true h3)
  rw [if_neg hnone]
  obtain ⟨hr, ho, hu⟩ := foldl_retire_posted (failed.filter (fun u => u.1 ≤ 4 && s.unitDie u.1 u.2 = die)) s
  refine ⟨setReset_resets (hr.trans hres) 6, ho, fun u hmem h4 hdie => (hu u.1 u.2).mpr (.inl ?_)⟩
  exact List.mem_filter.mpr ⟨hmem, by simp [h4, hdie]⟩

theorem warmReset_six_waits (hup : s.up = true) (hres : s.resets = [⟨die, 5⟩])
    (h : ∃ l ∈ s.links, (l.a = die ∨ l.b = die) ∧ l.state = 3) :
    Completes (.warmReset die 6 failed) s (fun t => t = s) := by
  refine ⟨_, exec_warmReset_six hup hres, if_pos ?_⟩
  rw [any_dieLinks_iff]
  obtain ⟨l, hl, hd, h3⟩ := h
  exact ⟨l, hl, hd, decide_eq_true h3⟩

/-- Step 7 ends the reset; the die is live if it has an Active ring link. -/
theorem warmReset_seven (hup : s.up = true) (hfir : s.firings = []) (hres : s.resets = [⟨die, 6⟩]) :
    Completes (.warmReset die 7 failed) s (fun t => t.resets = [] ∧
      if s.isCut die then t.offline = s.offline
      else die ∉ t.offline ∧ ∀ d, d ≠ die → (d ∈ t.offline ↔ d ∈ s.offline)) := by
  refine ⟨_, exec_warmReset_seven hup hres, ?_⟩
  split
  · rename_i hcut
    have hn := noteBounds_posted { s with resets := [] } s.boundsHold die
    exact ⟨hn.resets, hn.offline⟩
  · rename_i hcut
    have hp := (bringLive_posted (s := { s with resets := [] }) hfir die).trans (noteBounds_posted _ s.boundsHold die)
    refine ⟨hp.resets, ?_⟩
    rw [hp.offline]
    exact ⟨fun h => ((mem_eraseNat ..).mp h).2 rfl, fun d hne => (mem_eraseNat ..).trans (and_iff_left hne)⟩

end

/-- Settles O57: an event of a link is one change of that link, with what follows for its dies, and each step of a warm reset has a
lemma of its own; both rest on what the posting of records leaves. The statement has its clauses on steps 3 to 7 under the premises of
its clause on step 2; `warmReset_three` to `warmReset_seven` prove them without. -/
theorem linksAndWarmReset : Obligations.LinksAndWarmReset := by
  unfold Obligations.LinksAndWarmReset
  refine ⟨fun i l s hl => ⟨links_stay_in_recovery hl, fun hr => ?_⟩, fun die failed s h4 hfir hch hcop => ?_⟩
  · exact ⟨link_active hl hr, fun h => onLink_stays hl (.inl h) _,
      fun h1 hd hj => completes_becomes hl (exec_linkQuiesceDrained_drained hl hr h1 hd) rfl two_ne_zero hj,
      exec_linkQuiesceDrained_stays hl, link_rests hl hr, link_trains hl hr,
      fun h => ⟨onLink_stays hl (.inl h) _, fun _ => onLink_stays hl (.inl h) _⟩⟩
  · have q : s.Quiet := ⟨hfir, hch, hcop⟩
    exact ⟨fun h => ⟨s, exec_warmReset_down h 1, rfl⟩, fun hup => ⟨warmReset_begins hup h4 q,
      fun hres n hn => ⟨s, exec_warmReset_unbegun hup hres hn, rfl⟩,
      fun m n hres hn => ⟨s, exec_warmReset_joins hup hres hn, rfl⟩,
      fun hres hcells => ⟨warmReset_two hup hres hcells, warmReset_three hup q, warmReset_three_waits hup q, warmReset_four hup,
        warmReset_five_waits hup q, warmReset_five hup q, warmReset_six hup, warmReset_six_waits hup, warmReset_seven hup hfir⟩⟩⟩

end Sys2Proof.Machine

/-! # Proofs: decoding and encoding (O4) -/

namespace Sys2Proof.Laws

/-! ### The opcode of a word selects its decoder (R24) -/

section
variable {w : BitVec 32}

theorem not_blank_of_opcode {op : BitVec 7} (h : w.extractLsb' 0 7 = op) (h0 : op ≠ 0) (h1 : op ≠ 0x7F) :
    ¬ (w = 0 ∨ w = 0xFFFFFFFF#32) := by
  rintro (rfl | rfl)
  · exact h0 h.symm
  · exact h1 h.symm

theorem decodeFields_V (h : w.extractLsb' 0 7 = 0x0B#7) : decodeFields w = decodeV w := by
  unfold decodeFields
  rw [if_neg (not_blank_of_opcode h (by decide) (by decide)), h]; rfl

theorem decodeFields_MF (h : w.extractLsb' 0 7 = 0x2B#7) : decodeFields w = decodeMF w := by
  unfold decodeFields
  rw [if_neg (not_blank_of_opcode h (by decide) (by decide)), h]; rfl

theorem decodeFields_S (h : w.extractLsb' 0 7 = 0x5B#7) : decodeFields w = decodeS w := by
  unfold decodeFields
  rw [if_neg (not_blank_of_opcode h (by decide) (by decide)), h]; rfl

theorem decodeFields_CP (h : w.extractLsb' 0 7 = 0x7B#7) : decodeFields w = decodeCP w := by
  unfold decodeFields
  rw [if_neg (not_blank_of_opcode h (by decide) (by decide)), h]; rfl

theorem decodeFields_load (h : w.extractLsb' 0 7 = 0x03#7) : decodeFields w = decodeLoad w := by
  unfold decodeFields
  rw [if_neg (not_blank_of_opcode h (by decide) (by decide)), h]; rfl

theorem decodeFields_miscMem (h : w.extractLsb' 0 7 = 0x0F#7) : decodeFields w = decodeMiscMem w := by
  unfold decodeFields
  rw [if_neg (not_blank_of_opcode h (by decide) (by decide)), h]; rfl

theorem decodeFields_opImm (h : w.extractLsb' 0 7 = 0x13#7) : decodeFields w = decodeOpImm w := by
  unfold decodeFields
  rw [if_neg (not_blank_of_opcode h (by decide) (by decide)), h]; rfl

theorem decodeFields_opImm32 (h : w.extractLsb' 0 7 = 0x1B#7) : decodeFields w = decodeOpImm32 w := by
  unfold decodeFields
  rw [if_neg (not_blank_of_opcode h (by decide) (by decide)), h]; rfl

theorem decodeFields_store (h : w.extractLsb' 0 7 = 0x23#7) : decodeFields w = decodeStore w := by
  unfold decodeFields
  rw [if_neg (not_blank_of_opcode h (by decide) (by decide)), h]; rfl

theorem decodeFields_amo (h : w.extractLsb' 0 7 = 0x2F#7) : decodeFields w = decodeAmo w := by
  unfold decodeFields
  rw [if_neg (not_blank_of_opcode h (by decide) (by decide)), h]; rfl

theorem decodeFields_op (h : w.extractLsb' 0 7 = 0x33#7) : decodeFields w = decodeOp w := by
  unfold decodeFields
  rw [if_neg (not_blank_of_opcode h (by decide) (by decide)), h]; rfl

theorem decodeFields_op32 (h : w.extractLsb' 0 7 = 0x3B#7) : decodeFields w = decodeOp32 w := by
  unfold decodeFields
  rw [if_neg (not_blank_of_opcode h (by decide) (by decide)), h]; rfl

theorem decodeFields_branch (h : w.extractLsb' 0 7 = 0x63#7) : decodeFields w = decodeBranch w := by
  unfold decodeFields
  rw [if_neg (not_blank_of_opcode h (by decide) (by decide)), h]; rfl

theorem decodeFields_system (h : w.extractLsb' 0 7 = 0x73#7) : decodeFields w = decodeSystem w := by
  unfold decodeFields
  rw [if_neg (not_blank_of_opcode h (by decide) (by decide)), h]; rfl

theorem decodeFields_auipc (h : w.extractLsb' 0 7 = 0x17#7) : decodeFields w = .ok (.auipc (rdOf w) (w.extractLsb' 12 20)) := by
  unfold decodeFields
  rw [if_neg (not_blank_of_opcode h (by decide) (by decide)), h]; rfl

theorem decodeFields_lui (h : w.extractLsb' 0 7 = 0x37#7) : decodeFields w = .ok (.lui (rdOf w) (w.extractLsb' 12 20)) := by
  unfold decodeFields
  rw [if_neg (not_blank_of_opcode h (by decide) (by decide)), h]; rfl

theorem decodeFields_jal (h : w.extractLsb' 0 7 = 0x6F#7) : decodeFields w = .ok (.jal (rdOf w) (immJ w)) := by
  unfold decodeFields
  rw [if_neg (not_blank_of_opcode h (by decide) (by decide)), h]; rfl

theorem decodeFields_jalr (h : w.extractLsb' 0 7 = 0x67#7) :
    decodeFields w = if w.extractLsb' 12 3 = 0 then .ok (.jalr (rdOf w) (rs1Of w) (immI w)) else .error .base := by
  unfold decodeFields
  rw [if_neg (not_blank_of_opcode h (by decide) (by decide)), h]; rfl

end

/-- A shift by 6 bits with funct6 2 has no funct7 of 0, which would be a shift by 5. -/
theorem encodeSh_f7_ne_zero (op : BitVec 7) (f3 : BitVec 3) (rd rs1 : BitVec 5) (sh : BitVec 6) :
    (encodeSh op f3 2#6 rd rs1 sh).extractLsb' 25 7 ≠ 0#7 := by
  intro h
  have e := congrArg BitVec.toNat h
  rw [BitVec.extractLsb'_toNat, Nat.shiftRight_eq_div_pow, encodeSh_toNat, BitVec.toNat_ofNat, BitVec.toNat_ofNat] at e
  omega

theorem fence_wellFormed {rd rs1 : BitVec 5} {imm : BitVec 12} (h : WellFormed (.fence rd rs1 imm)) : imm ≠ 0x833#12 := by
  have hn : need (imm ≠ 0x833) .base = none := h
  simpa [need] using hn

theorem decodeFields_encode_formatV {i : Instr} {w : BitVec 32} (hw : encode i = some w)
    (hop : w.extractLsb' 0 7 = 0x0B#7) : decodeFields w = .ok i := by
  cases i
  case vadd | vsub | vmul | vmulh | vand | vor | vxor | vsll | vsrl | vsra | vmin | vmax | vminu | vmaxu | vaddx | viota |
      vfadd | vfsub | vfmul | vfma | vfmin | vfmax | vfexp2 | vfrcp | vfrsqrt | vflog2 | vfmulx | vfaddx | vcmpeq | vcmplt |
      vcmpltu | vfcmpeq | vfcmplt | kopAnd | kopOr | kopXor | kopAndn | kpop | kpopFirst | vsel | vcvtn | vcvtw | vcvtif |
      vcvtfi | vredsum | vredsumI32 | vredmax | vredmaxI32 | vredmin | vredminI32 | vslide | vperm | vcompress | vmvxv | vmvvx |
      vsmaxacc | vsmaxfin | vsortkv | vseghead | vsppack =>
    obtain rfl := Option.some.inj hw
    rw [decodeFields_V hop]
    simp [decodeV, row]
    rfl
  all_goals cases hw <;> simp at hop

theorem decodeFields_encode_formatMF {i : Instr} {w : BitVec 32} (hw : encode i = some w)
    (hop : w.extractLsb' 0 7 = 0x2B#7) : decodeFields w = .ok i := by
  cases i
  case mma | mmaAcc | mmaNeg | mmas | mmasAcc | mmasNeg | accz | accscl | accsclX | accrd | accrdCol | accwr | accwrCol | epi |
      mqctlWait | mqctlRm | mqctlFtb | opu | fwfwd | fwupdD | fwupdH | fwupdE | fwfuD | fwfuDl | fwfuH | fwfuHl | fwfuE |
      fwsnapSnap | fwsnapFork | fwsnapRollback | fwsnapFree | fwavg | fwmig | fwctlPin | fwctlUnpin | fwctlQuery | fwctlHint |
      fwctlWait | fwctlNew =>
    obtain rfl := Option.some.inj hw
    rw [decodeFields_MF hop]
    simp [decodeMF, row]
    rfl
  all_goals cases hw <;> simp at hop

theorem decodeFields_encode_formatS {i : Instr} {w : BitVec 32} (hw : encode i = some w)
    (hop : w.extractLsb' 0 7 = 0x5B#7) : decodeFields w = .ok i := by
  cases i
  case vldm | vstm | vldx | vstx | vlds | vsts | ldst | stst | phase | fenceBoth | fenceRel | fenceAcq | spfeEmpty | spfeFull |
      sprot | tld | tst | barinit | barinitForce | barinitFree | bararr | bardrop | barjoin | barwait | bartest | waita |
      ringinit | ringclaim | ringcommit | ringtake | ringfree | waitfill | waitfree | redaF32add | redaBf16add | redaI32add |
      redaF32max | redaF32min | redaI32max | redaI32min | redfence | prcfg | prinv | prpin | prunpin | cparm | cpstep | cpstat |
      cpcancel | nbmode | nbcmd | nbfence | nbrd | hintLife | hintPref | hintFetch | stepadv =>
    obtain rfl := Option.some.inj hw
    rw [decodeFields_S hop]
    simp [decodeS, row]
    rfl
  all_goals cases hw <;> simp at hop

theorem decodeFields_encode_formatCP {i : Instr} {w : BitVec 32} (hw : encode i = some w)
    (hop : w.extractLsb' 0 7 = 0x7B#7) : decodeFields w = .ok i := by
  cases i
  case roleid | drift | vgrow | vshrink | fmset | ftset | rnext | ntoken | nctx | ndone | nfail | trapret | rqrd | rqwr |
      rqdrop | enread | enest | trec | role | handoff | loop | probe =>
    obtain rfl := Option.some.inj hw
    rw [decodeFields_CP hop]
    simp [decodeCP, decodeC, row]
    rfl
  all_goals cases hw <;> simp at hop

theorem decodeFields_encode_base {i : Instr} {w : BitVec 32} (hi : WellFormed i) (hw : encode i = some w)
    (hop : w.extractLsb' 0 7 ∉ [0x0B#7, 0x2B#7, 0x5B#7, 0x7B#7]) : decodeFields w = .ok i := by
  cases i
  case beq | bne | blt | bge | bltu | bgeu =>
    obtain rfl := Option.some.inj hw
    rw [decodeFields_branch (encodeB_op ..)]
    simp [decodeBranch, rs1Of, rs2Of, encodeB_immB]
  case sb | sh | sw | sd =>
    obtain rfl := Option.some.inj hw
    rw [decodeFields_store (encodeSt_op ..)]
    simp [decodeStore, rs1Of, rs2Of, encodeSt_immS]
  case lrW | lrD | scW | scD | amoswapW | amoswapD | amoaddW | amoaddD | amoxorW | amoxorD | amoandW | amoandD | amoorW |
      amoorD | amominW | amominD | amomaxW | amomaxD | amominuW | amominuD | amomaxuW | amomaxuD =>
    obtain rfl := Option.some.inj hw
    rw [decodeFields_amo (encodeA_at0 ..)]
    simp [decodeAmo, rdOf, rs1Of, rs2Of]
  case lb | lh | lw | ld | lbu | lhu | lwu =>
    obtain rfl := Option.some.inj hw
    rw [decodeFields_load (encodeI_op 0x03 ..)]
    simp [decodeLoad, rdOf, rs1Of, immI]
  case addi | slti | sltiu | xori | ori | andi =>
    obtain rfl := Option.some.inj hw
    rw [decodeFields_opImm (encodeI_op 0x13 ..)]
    simp [decodeOpImm, rdOf, rs1Of, immI]
  case slli | srli | srai =>
    obtain rfl := Option.some.inj hw
    rw [decodeFields_opImm (encodeSh_op 0x13 ..)]
    simp [decodeOpImm, rdOf, rs1Of]
  case addiw =>
    obtain rfl := Option.some.inj hw
    rw [decodeFields_opImm32 (encodeI_op 0x1B ..)]
    simp [decodeOpImm32, rdOf, rs1Of, immI]
  case slliw | srliw | sraiw =>
    obtain rfl := Option.some.inj hw
    rw [decodeFields_opImm32 (encodeR_op 0x1B ..)]
    simp [decodeOpImm32, rdOf, rs1Of]
  case slliUw =>
    obtain rfl := Option.some.inj hw
    rw [decodeFields_opImm32 (encodeSh_op 0x1B ..)]
    simp [decodeOpImm32, encodeSh_f7_ne_zero, rdOf, rs1Of]
  case add | sub | sll | slt | sltu | xor | srl | sra | or | and | mul | mulh | mulhsu | mulhu | div | divu | rem | remu |
      sh1add | sh2add | sh3add =>
    obtain rfl := Option.some.inj hw
    rw [decodeFields_op (encodeR_op 0x33 ..)]
    simp [decodeOp, rdOf, rs1Of, rs2Of]
  case addw | subw | sllw | srlw | sraw | mulw | divw | divuw | remw | remuw | addUw | sh1addUw | sh2addUw | sh3addUw =>
    obtain rfl := Option.some.inj hw
    rw [decodeFields_op32 (encodeR_op 0x3B ..)]
    simp [decodeOp32, rdOf, rs1Of, rs2Of]
  case csrrw | csrrs | csrrc | csrrwi | csrrsi | csrrci =>
    obtain rfl := Option.some.inj hw
    rw [decodeFields_system (encodeI_op 0x73 ..)]
    simp [decodeSystem, rdOf, rs1Of, immI]
  case fence =>
    obtain rfl := Option.some.inj hw
    rw [decodeFields_miscMem (encodeI_op 0x0F ..)]
    simp [decodeMiscMem, rdOf, rs1Of, immI, fence_wellFormed hi]
  case fenceTso | fenceI =>
    obtain rfl := Option.some.inj hw
    rw [decodeFields_miscMem (encodeI_op 0x0F ..)]
    simp [decodeMiscMem, rdOf, rs1Of, immI]
  case jalr =>
    obtain rfl := Option.some.inj hw
    rw [decodeFields_jalr (encodeI_op 0x67 ..)]
    simp [rdOf, rs1Of, immI]
  case ecall | ebreak | wfi =>
    obtain rfl := Option.some.inj hw
    rw [decodeFields_system (by decide)]
    rfl
  case lui =>
    obtain rfl := Option.some.inj hw
    rw [decodeFields_lui (encodeU_op 0x37 ..)]
    simp [rdOf]
  case auipc =>
    obtain rfl := Option.some.inj hw
    rw [decodeFields_auipc (encodeU_op 0x17 ..)]
    simp [rdOf]
  case jal =>
    obtain rfl := Option.some.inj hw
    rw [decodeFields_jal (encodeJ_op ..)]
    simp [rdOf, encodeJ_immJ]
  all_goals cases hw <;> simp at hop

theorem decodeFields_encode {i : Instr} {w : BitVec 32} (hi : WellFormed i) (hw : encode i = some w) : decodeFields w = .ok i := by
  by_cases hV : w.extractLsb' 0 7 = 0x0B#7
  · exact decodeFields_encode_formatV hw hV
  by_cases hMF : w.extractLsb' 0 7 = 0x2B#7
  · exact decodeFields_encode_formatMF hw hMF
  by_cases hS : w.extractLsb' 0 7 = 0x5B#7
  · exact decodeFields_encode_formatS hw hS
  by_cases hCP : w.extractLsb' 0 7 = 0x7B#7
  · exact decodeFields_encode_formatCP hw hCP
  · exact decodeFields_encode_base hi hw (by simp [hV, hMF, hS, hCP])

/-- Its four bytes, the first lowest, make up a word (R23). -/
theorem wordOfBytes_bytes (w : BitVec 32) :
    wordOfBytes (w.extractLsb' 0 8) (w.extractLsb' 8 8) (w.extractLsb' 16 8) (w.extractLsb' 24 8) = w := by
  apply BitVec.eq_of_toNat_eq
  show BitVec.toNat (w := 8 + 8 + 8 + 8) (w.extractLsb' 24 8 ++ w.extractLsb' 16 8 ++ w.extractLsb' 8 8 ++ w.extractLsb' 0 8) = _
  simp only [toNat_append, BitVec.extractLsb'_toNat, Nat.shiftRight_eq_div_pow]
  omega

theorem decode_eq_ok_iff {i : Instr} {w : BitVec 32} : decode w = .ok i ↔ decodeFields w = .ok i ∧ WellFormed i := by
  unfold decode WellFormed
  cases hf : decodeFields w with
  | error e => simp
  | ok j =>
    cases hc : j.check with
    | none =>
      simp only [hc, Except.ok.injEq]
      exact ⟨fun h => ⟨h, h ▸ hc⟩, And.left⟩
    | some e =>
      simp only [hc, Except.ok.injEq, reduceCtorEq, false_iff, not_and]
      rintro rfl
      simp [hc]

theorem decodeBytes_bytes {i : Instr} {w : BitVec 32} (h : decode w = .ok i) (rest : List Byte) :
    decodeBytes (w.extractLsb' 0 8 :: w.extractLsb' 8 8 :: w.extractLsb' 16 8 :: w.extractLsb' 24 8 :: rest) = .ok (i, rest) := by
  simp only [decodeBytes, wordOfBytes_bytes, h]

theorem decodeTableWord_toNat {i : Instr} {w : BitVec 32} (h : decode w = .ok i) : decodeTableWord 32 w.toNat = some i := by
  have hw : BitVec.ofNat 32 (w.toNat % 2 ^ min 32 32) = w := by
    rw [Nat.min_self, Nat.mod_eq_of_lt w.isLt, BitVec.ofNat_toNat, BitVec.setWidth_eq]
  unfold decodeTableWord
  simp only [hw, decodeBytes_bytes h]

/-- Settles O4: the opcode of an encoded word selects the decoder of its format, which reads each field back. -/
theorem decodeEncodeRoundTrip : Obligations.DecodeEncodeRoundTrip := by
  unfold Obligations.DecodeEncodeRoundTrip
  refine ⟨fun i w hi hw => ?_, fun i w h => (decode_eq_ok_iff.mp h).2⟩
  have h : decode w = .ok i := decode_eq_ok_iff.mpr ⟨decodeFields_encode hi hw, hi⟩
  exact ⟨h, decodeTableWord_toNat h, decodeBytes_bytes h⟩

end Sys2Proof.Laws

/-! # Proofs: integer words (O7) -/

namespace Sys2Proof.Machine

/-! ### The forms of a value (R43, R47) -/

theorem low32_eq_setWidth (a : Word) : low32 a = a.setWidth 32 := (BitVec.setWidth_eq_extractLsb' (by decide)).symm

theorem low32_add (a b : Word) : low32 (a + b) = a.setWidth 32 + b.setWidth 32 := by
  rw [low32_eq_setWidth, BitVec.setWidth_add _ _ (by decide)]

theorem low32_sub (a b : Word) : low32 (a - b) = a.setWidth 32 - b.setWidth 32 := by
  rw [low32_eq_setWidth]
  apply BitVec.eq_of_toNat_eq
  simp only [BitVec.toNat_setWidth, BitVec.toNat_sub]
  omega

theorem low32_mul (a b : Word) : low32 (a * b) = a.setWidth 32 * b.setWidth 32 := by
  rw [low32_eq_setWidth, BitVec.setWidth_mul _ _ (by decide)]

theorem setWidth_signExtend_imm (imm : BitVec 12) : (imm.signExtend 64).setWidth 32 = imm.signExtend 32 := by
  apply BitVec.eq_of_getLsbD_eq
  intro j hj
  have hj' : j < 64 := by omega
  rw [BitVec.getLsbD_setWidth, BitVec.getLsbD_signExtend, BitVec.getLsbD_signExtend]
  simp [hj, hj']

/-- Twelve zero bits below an upper immediate. -/
theorem append_zero_eq_shiftLeft (imm : BitVec 20) : imm ++ 0#12 = (imm.setWidth 32 <<< 12 : BitVec 32) := by
  apply BitVec.eq_of_toNat_eq
  show BitVec.toNat (w := 20 + 12) (imm ++ 0#12) = _
  rw [Laws.toNat_append, BitVec.toNat_shiftLeft, BitVec.toNat_setWidth, Nat.shiftLeft_eq]
  simp
  omega

/-- A sign-extended offset with one zero bit below it is twice the sign-extended offset. -/
theorem signExtend_append_zero {n : Nat} (imm : BitVec n) : (imm ++ 0#1).signExtend 64 = 2 * imm.signExtend 64 := by
  show BitVec.ofInt 64 (imm ++ 0#1).toInt = BitVec.ofInt 64 2 * BitVec.ofInt 64 imm.toInt
  rw [BitVec.toInt_append_zero, ← BitVec.ofInt_mul]
  rfl

theorem toNat_setWidth_six (b : Word) : (b.setWidth 6).toNat = b.toNat % 64 := BitVec.toNat_setWidth ..
theorem toNat_setWidth_five (b : Word) : (b.setWidth 5).toNat = b.toNat % 32 := BitVec.toNat_setWidth ..

theorem shiftLeft_eq_mul (a : Word) (n : Nat) : a <<< n = BitVec.ofNat 64 (2 ^ n) * a := by
  apply BitVec.eq_of_toNat_eq
  simp [Nat.shiftLeft_eq, Nat.mul_comm]

theorem ofInt_toNat (a : Word) : BitVec.ofInt 128 a.toNat = a.setWidth 128 :=
  (BitVec.ofInt_natCast ..).trans (BitVec.ofNat_toNat ..)

/-- The upper half of a product of two numbers, from the product of their 128-bit words. -/
theorem mulHi_eq_extractLsb' (a b : Int) : mulHi a b = (BitVec.ofInt 128 a * BitVec.ofInt 128 b).extractLsb' 64 64 := by
  rw [← BitVec.ofInt_mul]
  apply BitVec.eq_of_toNat_eq
  rw [mulHi, BitVec.extractLsb'_toNat, Nat.shiftRight_eq_div_pow, BitVec.toNat_ofInt, BitVec.toNat_ofInt]
  omega

/-! ### Words that write one register -/

section
variable {rd rs1 rs2 : BitVec 5} {s : State} {i : Instr} {v : Word}

theorem completes_setAdvance (h : exec i s = setAdvance rd v s) : Completes i s (WroteX s rd v) :=
  ⟨_, h, wroteX_setX_advance s rd v⟩

theorem completes_aluImm {f : Word → Word} (hr : s.cpu.ready [rd, rs1, rs2] = true) (hi : exec i s = aluImm rd rs1 f s)
    (hv : f (s.x rs1) = v) : Completes i s (WroteX s rd v) := by
  have hr' : s.cpu.ready [rd, rs1] = true := Cell.ready_of_subset hr (by simp)
  exact completes_setAdvance (by rw [hi, aluImm, baseWord_ready hr', hv])

theorem completes_aluReg {f : Word → Word → Word} (hr : s.cpu.ready [rd, rs1, rs2] = true) (hi : exec i s = aluReg rd rs1 rs2 f s)
    (hv : f (s.x rs1) (s.x rs2) = v) : Completes i s (WroteX s rd v) :=
  completes_setAdvance (by rw [hi, aluReg, baseWord_ready hr, hv])

end

theorem boolWord_toInt_lt (a b : Word) : boolWord (a.toInt < b.toInt) = if a.slt b then 1 else 0 := by
  rw [BitVec.slt_eq_decide]; rfl

theorem boolWord_toNat_lt (a b : Word) : boolWord (a.toNat < b.toNat) = if a.ult b then 1 else 0 := rfl

theorem allOnes_eq_neg_one {n : Nat} : BitVec.allOnes n = -1 := BitVec.neg_one_eq_allOnes.symm

/-- Settles O7: every word writes a register with one operation on its operands, and each operation is the published one. -/
theorem integerWordsWriteRd : Obligations.IntegerWordsWriteRd := by
  unfold Obligations.IntegerWordsWriteRd
  constructor
  · intro rd rs1 rs2 up imm sh sw s hr
    have hrd : s.cpu.ready [rd] = true := Cell.ready_of_subset hr (by simp)
    have him : (imm.signExtend 64).toInt = imm.toInt := BitVec.toInt_signExtend_of_le (by decide)
    have hlt : boolWord ((s.x rs1).toInt < imm.toInt) = if (s.x rs1).slt (imm.signExtend 64) then 1 else 0 := by
      rw [← him]; exact boolWord_toInt_lt ..
    intro a b k word low uw gives
    have hup : sext64 (up ++ 0#12) = word (up.setWidth 32 <<< 12) := congrArg sext64 (append_zero_eq_shiftLeft up)
    have hlow : low32 a = low a := low32_eq_setWidth a
    have upper (i : Instr) (v : Word) (hi : exec i s = baseWord [rd] s (setAdvance rd v)) : gives i v :=
      completes_setAdvance (by rw [hi, baseWord_ready hrd])
    have immediate (i : Instr) (f : Word → Word) (v : Word) (hi : exec i s = aluImm rd rs1 f s) (hv : f a = v) : gives i v :=
      completes_aluImm hr hi hv
    have register (i : Instr) (f : Word → Word → Word) (v : Word) (hi : exec i s = aluReg rd rs1 rs2 f s) (hv : f a b = v) :
        gives i v :=
      completes_aluReg hr hi hv
    refine ⟨upper _ _ ((exec_lui ..).trans ?lui), upper _ _ ((exec_auipc ..).trans ?auipc), immediate _ _ _ (exec_addi ..) rfl,
      immediate _ _ _ (exec_slti ..) hlt, immediate _ _ _ (exec_sltiu ..) rfl, immediate _ _ _ (exec_xori ..) rfl,
      immediate _ _ _ (exec_ori ..) rfl, immediate _ _ _ (exec_andi ..) rfl, immediate _ _ _ (exec_slli ..) rfl,
      immediate _ _ _ (exec_srli ..) rfl, immediate _ _ _ (exec_srai ..) rfl, immediate _ _ _ (exec_addiw ..) ?addiw,
      immediate _ _ _ (exec_slliw ..) ?slliw, immediate _ _ _ (exec_srliw ..) ?srliw, immediate _ _ _ (exec_sraiw ..) ?sraiw,
      register _ _ _ (exec_add ..) rfl, register _ _ _ (exec_sub ..) rfl, register _ _ _ (exec_sll ..) ?sll,
      register _ _ _ (exec_slt ..) (boolWord_toInt_lt ..), register _ _ _ (exec_sltu ..) rfl, register _ _ _ (exec_xor ..) rfl,
      register _ _ _ (exec_srl ..) ?srl, register _ _ _ (exec_sra ..) ?sra, register _ _ _ (exec_or ..) rfl,
      register _ _ _ (exec_and ..) rfl, register _ _ _ (exec_addw ..) ?addw, register _ _ _ (exec_subw ..) ?subw,
      register _ _ _ (exec_sllw ..) ?sllw, register _ _ _ (exec_srlw ..) ?srlw, register _ _ _ (exec_sraw ..) ?sraw,
      register _ _ _ (exec_addUw ..) ?addUw, register _ _ _ (exec_sh1add ..) ?sh1add, register _ _ _ (exec_sh2add ..) ?sh2add,
      register _ _ _ (exec_sh3add ..) ?sh3add, register _ _ _ (exec_sh1addUw ..) ?sh1addUw,
      register _ _ _ (exec_sh2addUw ..) ?sh2addUw, register _ _ _ (exec_sh3addUw ..) ?sh3addUw,
      immediate _ _ _ (exec_slliUw ..) ?slliUw⟩
    case lui => rw [execLui, hup]
    case auipc => rw [execAuipc, hup]
    case addiw => exact congrArg sext64 ((low32_add ..).trans (congrArg _ (setWidth_signExtend_imm _)))
    case slliw | srliw | sraiw => rw [hlow]; rfl
    case sll | srl | sra => rw [← toNat_setWidth_six]; rfl
    case addw => exact congrArg sext64 (low32_add ..)
    case subw => exact congrArg sext64 (low32_sub ..)
    case sllw | srlw | sraw => rw [hlow, ← toNat_setWidth_five]; rfl
    case addUw | slliUw => rw [hlow]; rfl
    case sh1add | sh2add | sh3add => exact congrArg (· + b) (shiftLeft_eq_mul a _)
    case sh1addUw | sh2addUw | sh3addUw => rw [hlow]; exact congrArg (· + b) (shiftLeft_eq_mul uw _)
  · intro rd rs1 rs2 s hr a b word al bl high gives
    have register (i : Instr) (f : Word → Word → Word) (v : Word) (hi : exec i s = aluReg rd rs1 rs2 f s) (hv : f a b = v) :
        gives i v :=
      completes_aluReg hr hi hv
    have hal : low32 a = al := low32_eq_setWidth a
    have hbl : low32 b = bl := low32_eq_setWidth b
    refine ⟨register _ _ _ (exec_mul ..) rfl, register _ _ _ (exec_mulh ..) (mulHi_eq_extractLsb' ..),
      register _ _ _ (exec_mulhsu ..) ?mulhsu, register _ _ _ (exec_mulhu ..) ?mulhu,
      register _ _ _ (exec_mulw ..) (congrArg sext64 (low32_mul ..)), register _ _ _ (exec_div ..) ?div,
      register _ _ _ (exec_divu ..) ?divu, register _ _ _ (exec_rem ..) rfl, register _ _ _ (exec_remu ..) rfl,
      register _ _ _ (exec_divw ..) ?divw, register _ _ _ (exec_divuw ..) ?divuw, register _ _ _ (exec_remw ..) ?remw,
      register _ _ _ (exec_remuw ..) ?remuw⟩
    case mulhsu => rw [mulHi_eq_extractLsb', ofInt_toNat]; rfl
    case mulhu => rw [mulHi_eq_extractLsb', ofInt_toNat, ofInt_toNat]
    case div | divu => rw [← allOnes_eq_neg_one]; rfl
    case divw | divuw => rw [← allOnes_eq_neg_one, ← hal, ← hbl]; rfl
    case remw | remuw => rw [← hal, ← hbl]; rfl

end Sys2Proof.Machine

/-! # Proofs: jumps, branches and misaligned accesses (O8, O9) -/

namespace Sys2Proof.Machine

/-! ### Targets (R23) -/

theorem setWidth_two (t : Word) : t.setWidth 2 = t.extractLsb' 0 2 := BitVec.setWidth_eq_extractLsb' (by decide)

theorem branchOffset_eq (imm : BitVec 12) : branchOffset imm = 2 * imm.signExtend 64 := signExtend_append_zero imm
theorem jalOffset_eq (imm : BitVec 20) : jalOffset imm = 2 * imm.signExtend 64 := signExtend_append_zero imm

section
variable {rd rs1 rs2 : BitVec 5} {off : BitVec 20} {imm : BitVec 12} {s : State}

/-- A branch as its rules say it: not taken it goes on, taken it transfers (R23, R43). -/
theorem branchIf_ready (hr : s.cpu.ready [rd, rs1, rs2] = true) (c : Word → Word → Bool) :
    branchIf rs1 rs2 imm c s = if c (s.x rs1) (s.x rs2) then .next (s.transfer (s.cpu.pc + 2 * imm.signExtend 64) s)
      else .next s.advance := by
  rw [branchIf, baseWord_ready (Cell.ready_of_subset hr (by simp)), branchOffset_eq]

theorem execJal_ready (hr : s.cpu.ready [rd, rs1, rs2] = true) :
    execJal rd off s = .next (s.transfer (s.cpu.pc + 2 * off.signExtend 64) (s.setX rd (s.cpu.pc + 4))) := by
  rw [execJal, baseWord_ready (Cell.ready_of_subset hr (by simp)), jalOffset_eq]

theorem execJalr_ready (hr : s.cpu.ready [rd, rs1, rs2] = true) :
    execJalr rd rs1 imm s = .next (s.transfer ((s.x rs1 + imm.signExtend 64) &&& -2) (s.setX rd (s.cpu.pc + 4))) := by
  rw [execJalr, baseWord_ready (Cell.ready_of_subset hr (by simp))]
  rfl

end

/-- The six conditions of the branches in the terms of the statements. -/
theorem lt_toInt_eq_slt (a b : Word) : decide (a.toInt < b.toInt) = a.slt b := BitVec.slt_eq_decide.symm
theorem le_toInt_eq_not_slt (a b : Word) : decide (b.toInt ≤ a.toInt) = !a.slt b := by
  rw [BitVec.slt_eq_decide, Bool.eq_iff_iff]; simp
theorem le_toNat_eq_not_ult (a b : Word) : decide (b.toNat ≤ a.toNat) = !a.ult b := by
  rw [Bool.eq_iff_iff]; simp [BitVec.ult]

/-- Settles O8: a target that is a multiple of 4 is taken with the link written, and a branch not taken goes on. -/
theorem jumpsAndBranchesTransfer : Obligations.JumpsAndBranchesTransfer := by
  unfold Obligations.JumpsAndBranchesTransfer
  intro rd rs1 rs2 off imm s hr a b pc goes links far near reg branch
  have aligned {t : Word} (h : t.setWidth 2 = 0#2) (s' : State) : s.transfer t s' = s'.upd (fun c => c.jumpTo t) :=
    transfer_aligned (by rwa [← setWidth_two]) s s'
  have conditional (i : Instr) (f : Word → Word → Bool) (c : Bool) (hi : exec i s = branchIf rs1 rs2 imm f s) (hc : f a b = c) :
      branch i c := by
    rw [branchIf_ready hr] at hi
    subst hc
    constructor
    · intro hc ht
      exact ⟨_, by rw [hi, if_pos hc, aligned ht]; rfl, rfl⟩
    · intro hc
      exact ⟨_, by rw [hi, if_neg (by rw [Bool.not_eq_true]; exact hc)]; rfl, rfl, fun _ => rfl, fun _ => rfl⟩
  refine ⟨fun h => ⟨_, ?jal, rfl⟩, fun h => ⟨_, ?jalr, rfl⟩, conditional _ _ _ (exec_beq ..) rfl,
    conditional _ _ _ (exec_bne ..) rfl,
    conditional _ _ _ (exec_blt ..) (lt_toInt_eq_slt ..), conditional _ _ _ (exec_bge ..) (le_toInt_eq_not_slt ..),
    conditional _ _ _ (exec_bltu ..) rfl, conditional _ _ _ (exec_bgeu ..) (le_toNat_eq_not_ult ..)⟩
  case jal => rw [exec_jal, execJal_ready hr, aligned h]; rfl
  case jalr => rw [exec_jalr, execJalr_ready hr, aligned h]; rfl

/-! ### Misaligned accesses (R44, R240) -/

theorem accessAt_misaligned {s : State} {va : Word} {n : Nat} (h : va.toNat % n ≠ 0) (a : Access) (act : State → Place → Got)
    (k : Nat → State → Out) : accessAt s va n a act k = .next (s.trap 3 va) := if_pos h

/-- Settles O9: a transfer tests its target and an access its address before anything else. -/
theorem misalignmentTraps : Obligations.MisalignmentTraps := by
  unfold Obligations.MisalignmentTraps
  constructor
  · intro rd rs1 rs2 off imm s hr a b far near reg traps
    have misaligned {t : Word} (h : t.setWidth 2 ≠ 0#2) (s' : State) : s.transfer t s' = s.trap 3 t :=
      transfer_misaligned (by rwa [← setWidth_two]) s s'
    have conditional (i : Instr) (f : Word → Word → Bool) (hi : exec i s = branchIf rs1 rs2 imm f s) (hc : f a b = true)
        (ht : near.setWidth 2 ≠ 0#2) : traps i near := by
      show exec i s = _
      rw [hi, branchIf_ready hr, if_pos hc, misaligned ht]
    refine ⟨fun h => ?jal, fun h => ?jalr, fun h => ⟨fun e => conditional _ _ (exec_beq ..) ?beq h,
      fun e => conditional _ _ (exec_bne ..) ?bne h,
      fun e => conditional _ _ (exec_blt ..) ?blt h, fun e => conditional _ _ (exec_bge ..) ?bge h,
      fun e => conditional _ _ (exec_bltu ..) e h, fun e => conditional _ _ (exec_bgeu ..) ?bgeu h⟩⟩
    case jal => show exec _ _ = _; rw [exec_jal, execJal_ready hr, misaligned h]
    case jalr => show exec _ _ = _; rw [exec_jalr, execJalr_ready hr, misaligned h]
    case beq => exact beq_iff_eq.mpr e
    case bne => exact bne_iff_ne.mpr e
    case blt => exact (lt_toInt_eq_slt ..).trans e
    case bge => rw [le_toInt_eq_not_slt, e]; rfl
    case bgeu => rw [le_toNat_eq_not_ult, e]; rfl
  · intro rd rs1 rs2 imm aq rl sc r s hr va a traps
    have hr2 : s.cpu.ready [rd, rs1] = true := Cell.ready_of_subset hr (by simp)
    have load (i : Instr) (n : Nat) (signed : Bool) (hi : exec i s = loadWord rd rs1 imm n signed s) : traps i va n := by
      intro h
      rw [hi, loadWord, baseWord_ready hr2]
      exact accessAt_misaligned h ..
    have store (i : Instr) (n : Nat) (hi : exec i s = storeWord rs1 rs2 imm n s) : traps i va n := by
      intro h
      rw [hi, storeWord, baseWord_ready (Cell.ready_of_subset hr (by simp))]
      exact accessAt_misaligned h ..
    refine ⟨load _ _ _ (exec_lh ..), load _ _ _ (exec_lhu ..), load _ _ _ (exec_lw ..), load _ _ _ (exec_lwu ..),
      load _ _ _ (exec_ld ..),
      store _ _ (exec_sh ..), store _ _ (exec_sw ..), store _ _ (exec_sd ..), fun hw => ?atomic, fun he => ?strong⟩
    case atomic =>
      have misaligned (n : Nat) (x : Access) (act : State → Place → Got) (k : Nat → State → Out) (h : a.toNat % n ≠ 0) :
          (if rlWaits rl s then .next (rlStall s) else accessAt s a n x act k) = .next (s.trap 3 a) := by
        rw [hw]
        exact accessAt_misaligned h ..
      have amo (i : Instr) (n : Nat) (f : Nat → Nat → Nat) (hi : exec i s = amo rd rs1 rs2 aq rl n f s) : traps i a n := by
        intro h
        rw [hi, Machine.amo, baseWord_ready hr]
        exact misaligned n _ _ _ h
      have lrW : traps (.lrW rd rs1 aq rl) a 4 := fun h => by
        rw [exec_lrW, execLrW, baseWord_ready hr2]; exact misaligned 4 _ _ _ h
      have lrD : traps (.lrD rd rs1 aq rl) a 8 := fun h => by
        rw [exec_lrD, execLrD, baseWord_ready hr2]; exact misaligned 8 _ _ _ h
      have scW : traps (.scW rd rs1 rs2 aq rl) a 4 := fun h => by
        rw [exec_scW, execScW, baseWord_ready hr]; exact misaligned 4 _ _ _ h
      have scD : traps (.scD rd rs1 rs2 aq rl) a 8 := fun h => by
        rw [exec_scD, execScD, baseWord_ready hr]; exact misaligned 8 _ _ _ h
      simp only [List.forall_mem_cons]
      exact ⟨⟨lrW, scW, amo _ _ _ (exec_amoswapW ..), amo _ _ _ (exec_amoaddW ..), amo _ _ _ (exec_amoxorW ..),
        amo _ _ _ (exec_amoandW ..), amo _ _ _ (exec_amoorW ..), amo _ _ _ (exec_amominW ..), amo _ _ _ (exec_amomaxW ..),
        amo _ _ _ (exec_amominuW ..), amo _ _ _ (exec_amomaxuW ..), nofun⟩,
        ⟨lrD, scD, amo _ _ _ (exec_amoswapD ..), amo _ _ _ (exec_amoaddD ..), amo _ _ _ (exec_amoxorD ..),
        amo _ _ _ (exec_amoandD ..), amo _ _ _ (exec_amoorD ..), amo _ _ _ (exec_amominD ..), amo _ _ _ (exec_amomaxD ..),
        amo _ _ _ (exec_amominuD ..), amo _ _ _ (exec_amomaxuD ..), nofun⟩⟩
    case strong =>
      have load (z : BitVec 2) : traps (.ldst z sc rs1 rd r) a (2 ^ z.toNat) := by
        intro h
        rw [exec_ldst, execLdst, frontWord_ready he hr2]
        exact accessAt_misaligned h ..
      have store (z : BitVec 2) : traps (.stst z sc rs1 rd r) a (2 ^ z.toNat) := by
        intro h
        rw [exec_stst, execStst, frontWord_ready he hr2]
        exact accessAt_misaligned h ..
      exact ⟨load 1, load 2, load 3, store 1, store 2, store 3⟩

end Sys2Proof.Machine

/-! # Proofs: scalar loads and stores (O10, O11) -/

namespace Sys2Proof.Machine

/-! ### Accesses of the front end (R98, R225, R309) -/

theorem translateHome_of_reaches {s s1 : State} {va : Word} {n : Nat} {a : Access} {p : Place} (h : Reaches s va n a p s1) :
    Translated s s1 := by
  obtain ⟨leaf, hm⟩ := h.maps
  have ht := translateHome_translated s va a
  rwa [hm] at ht

/-- An access that reaches its bytes acts at its place. -/
theorem accessAt_of_reaches {s s1 : State} {va : Word} {n : Nat} {a : Access} {p : Place} (h : Reaches s va n a p s1)
    {act : State → Place → Got} {k : Nat → State → Out} {v : Nat} {t : State} (ha : act s1 p = .ok v t) :
    accessAt s va n a act k = k v t := by
  obtain ⟨leaf, hm⟩ := h.maps
  have hb : (a.writes && storeBarred s1 p n) = false := by
    cases hw : a.writes
    · rfl
    · exact h.unbarred hw
  simp [accessAt, h.aligned, hm, hb, h.free, ha]

theorem weakRead_inL1 {s : State} {p : Place} {n : Nat} {x : L1Line} (h : InL1 s p n x) :
    weakRead s p n = .ok (lineBytes x.data (p.pa % 128) n) (s.upd (fun c => { c with l1 := putLine c.l1 x })) := by
  simp [weakRead, h.cached, h.memory, h.line, h.present]

theorem homeRead_atHome {s : State} {p : Place} {n : Nat} (h : AtHome s p n) :
    homeRead s p n = .ok (readLE s.mem (s.key p) n) (s.syncTouch (s.key p)) := by
  simp [homeRead, h.memory, h.serves, h.sound]

theorem weakRead_uncached {s : State} {p : Place} (hp : p.pol ≠ 0) (n : Nat) : weakRead s p n = homeRead s p n := by
  simp [weakRead, hp]

/-- Settles O10: a load that reaches its bytes reads them in the L1 or at home and writes rd. -/
theorem loadsReadTheirBytes : Obligations.LoadsReadTheirBytes := by
  unfold Obligations.LoadsReadTheirBytes
  intro rd rs1 imm p s s1 hr loads
  have load (i : Instr) (n : Nat) (signed : Bool) (hi : exec i s = loadWord rd rs1 imm n signed s) :
      loads i n (extend signed n) := by
    rw [loadWord, baseWord_ready hr] at hi
    intro hreach
    constructor
    · intro x hx
      exact ⟨_, hi.trans (accessAt_of_reaches hreach (weakRead_inL1 hx)), wroteX_setX_advance ..⟩
    · intro hp hh
      exact ⟨_, hi.trans (accessAt_of_reaches hreach ((weakRead_uncached hp n).trans (homeRead_atHome hh))), wroteX_setX_advance ..⟩
  have doubleword : extend true 8 = fun v => BitVec.ofNat 64 v := funext fun v => BitVec.signExtend_eq _
  exact ⟨load _ 1 true (exec_lb ..), load _ 2 true (exec_lh ..), load _ 4 true (exec_lw ..),
    doubleword ▸ load _ 8 true (exec_ld ..),
    load _ 1 false (exec_lbu ..), load _ 2 false (exec_lhu ..), load _ 4 false (exec_lwu ..)⟩

/-! ### Stores (R225, R309, R319) -/

/-- What a translation leaves of the acting cell's scalar registers. -/
theorem Translated.x_eq {s t : State} (h : Translated s t) (r : BitVec 5) : t.x r = s.x r := by
  obtain ⟨-, -, hc, -, -⟩ := h
  exact Cell.rx_congr r (by rw [hc]) (by rw [hc]) (by rw [hc])

theorem weakWrite_cached {s : State} {p : Place} (hp : p.pol = 0) (n v seq : Nat) :
    weakWrite s p n v seq = .ok 0 (s.l1Store p n v seq) := by
  simp [weakWrite, hp]

theorem weakWrite_home {s : State} {p : Place} {seq : Nat} (hp : p.pol ≠ 0) (hw : s.homeWaits (s.key p) = false)
    (hr : s.cpu.readsBefore seq = false) (n v : Nat) : weakWrite s p n v seq = .ok 0 (homePut s p n v) := by
  simp [weakWrite, homeStore, hp, hw, hr]

/-- Going on to the next word does not depend on the L1. -/
theorem advance_l1Store (s : State) (p : Place) (n v seq : Nat) :
    (s.l1Store p n v seq).advance =
      { s with cpu := { s.cpu.flowTo (s.cpu.pc + 4) with l1 := (s.l1Store p n v seq).cpu.l1 } } := by
  rw [l1Store_frame]
  generalize (s.l1Store p n v seq).cpu.l1 = y
  show { s with cpu := reach (s.cpu.pc + 4) s.cpu.loops { s.cpu with l1 := y } } = _
  rw [Cell.flowTo, reach_congr _ _ s.cpu { s.cpu with l1 := y } rfl, reach_eq _ _ s.cpu]

theorem syncTouch_frame (s : State) (k : Nat) : s.syncTouch k = { s with syncSram := (s.syncTouch k).syncSram } := by
  unfold State.syncTouch
  split <;> rfl

theorem getD_leBytes (n v i : Nat) (hi : i < n) : (leBytes n v).getD i 0 = BitVec.ofNat 8 (v / 256 ^ i) := by
  induction n generalizing v i with
  | zero => omega
  | succ n ih =>
    cases i with
    | zero => simp [leBytes]
    | succ i => rw [leBytes, List.getD_cons_succ, ih _ i (by omega), Nat.div_div_eq_div_mul, Nat.pow_succ, Nat.mul_comm 256]

/-- The bytes of a write by the acting cell land, but for those in the record of a running graph (R4, R320). -/
theorem getD_landing_leBytes (s : State) (k n v i : Nat) (hi : i < n) :
    (s.landing k (leBytes n v)).getD i 0 =
      if s.recordHolds (k + i) then readByte s.mem (k + i) else BitVec.ofNat 8 (v / 256 ^ i) := by
  have hlen : i < (leBytes n v).length := by rwa [leBytes_length]
  have hb : (leBytes n v).getD i 0 = BitVec.ofNat 8 (v / 256 ^ i) := getD_leBytes n v i hi
  unfold State.landing
  split
  · rename_i hg
    rw [hb, State.recordHolds, List.isEmpty_iff.mp hg]
    rfl
  · rw [List.getD_eq_getElem _ _ (by simpa using hlen), List.getElem_mapIdx, ← List.getD_eq_getElem _ 0 hlen, hb]

theorem landing_length (s : State) (k : Nat) (bs : List Byte) : (s.landing k bs).length = bs.length := by
  unfold State.landing
  split
  · rfl
  · exact List.length_mapIdx

theorem homePut_mem (s : State) (p : Place) (n v : Nat) :
    (homePut s p n v).mem = writeBytes s.mem (s.key p) (s.landing (s.key p) (leBytes n v)) := by
  rw [homePut, syncTouch_frame]; rfl

theorem homePut_sp (s : State) (p : Place) (n v : Nat) : (homePut s p n v).sp = s.sp := by
  rw [homePut, syncTouch_frame]; rfl

/-- A write by the acting cell leaves its own reservation. -/
theorem homePut_cpu (s : State) (p : Place) (n v : Nat) : (homePut s p n v).cpu = s.cpu := by
  rw [homePut, syncTouch_frame]
  exact if_pos rfl

theorem homePut_stored {s : State} (h : s.MemOk) (p : Place) (n v : Nat) : Stored s (s.key p) n v (homePut s p n v) where
  there i hi := by
    rw [homePut_mem, readByte_writeBytes h.1, landing_length, leBytes_length, if_pos (by omega), Nat.add_sub_cancel_left,
      getD_landing_leBytes s _ _ _ _ hi]
  elsewhere a ha := by
    rw [homePut_mem, readByte_writeBytes h.1, landing_length, leBytes_length, if_neg (by omega)]
  scratch a := by rw [homePut_sp]

theorem homePut_homeFrame (s : State) (p : Place) (n v : Nat) : HomeFrame s (homePut s p n v) := by
  unfold HomeFrame
  rw [homePut, syncTouch_frame, homeWrite_frame]

theorem HomeFrame.advance {s t : State} (h : HomeFrame s t) : HomeFrame s t.advance := by
  unfold HomeFrame at h ⊢
  exact congrArg (fun u : State => { u with cpu := t.advance.cpu }) h

/-- Settles O11: a store that reaches its bytes writes them in the L1 of the cell or at home. -/
theorem storesWriteTheirBytes : Obligations.StoresWriteTheirBytes := by
  unfold Obligations.StoresWriteTheirBytes
  intro rs1 rs2 imm p s s1 hr hm stores
  have store (i : Instr) (n : Nat) (hi : exec i s = storeWord rs1 rs2 imm n s) : stores i n := by
    rw [storeWord, baseWord_ready hr] at hi
    intro hreach
    have ht := translateHome_of_reaches hreach
    rw [← ht.x_eq rs2]
    constructor
    · intro hp
      refine ⟨_, hi.trans (accessAt_of_reaches hreach (weakWrite_cached hp ..)), ⟨fun _ => rfl, fun _ => rfl⟩, ?_⟩
      exact advance_l1Store ..
    · intro hp hw hb
      refine ⟨_, hi.trans (accessAt_of_reaches hreach (weakWrite_home hp hw hb ..)), ?_, ?_, ?_⟩
      · obtain ⟨hthere, helse, hscratch⟩ := homePut_stored (ht.1 hm) p n (s1.x rs2).toNat
        exact ⟨hthere, helse, hscratch⟩
      · exact (homePut_homeFrame s1 p n (s1.x rs2).toNat).advance
      · rw [State.advance_cpu, homePut_cpu]
  exact ⟨store _ 1 (exec_sb ..), store _ 2 (exec_sh ..), store _ 4 (exec_sw ..), store _ 8 (exec_sd ..)⟩

end Sys2Proof.Machine

/-! # Proofs: CSR instructions, fences, environment calls and waits (O14, O17, O22) -/

namespace Sys2Proof.Machine

/-! ### CSR instructions (R45) -/

/-- A CSR instruction that starts leaves the old value in rd, after the write that it makes. -/
theorem completes_csrInstr {i : Instr} {s : State} {op : CsrOp} {rd : BitVec 5} {n : BitVec 12} {operand : Word} {writes : Bool}
    (hi : exec i s = csrInstr op rd n operand writes s) :
    Completes i s (WroteX (if writes then s.upd (fun c => c.csrWrite n (csrNew op n (s.csr n) operand)) else s) rd (s.csr n)) :=
  ⟨_, hi, wroteX_setX_advance ..⟩

theorem csrNew_write (n : BitVec 12) (old operand : Word) : csrNew .write n old operand = operand := ite_self _

/-- Settles O14: the operand is read, the CSR written, and the old value goes to rd. -/
theorem csrInstructionsExchange : Obligations.CsrInstructionsExchange := by
  unfold Obligations.CsrInstructionsExchange
  intro rd rs1 uimm csr s hr old wrote set clear
  have hrd : s.cpu.ready [rd] = true := Cell.ready_of_subset hr (by simp)
  have unwritten {r : BitVec 5} (a b : State) : (if decide (r ≠ 0) then a else b) = if r = 0 then b else a := by
    by_cases h : r = 0 <;> simp [h]
  have exchange (i : Instr) (op : CsrOp) (operand : Word) (writes : Bool) (u : State)
      (hi : exec i s = csrInstr op rd csr operand writes s)
      (hu : (if writes then wrote (csrNew op csr old operand) else s) = u) : Completes i s (WroteX u rd old) :=
    hu ▸ completes_csrInstr hi
  refine ⟨exchange _ .write _ true _ ?csrrw (congrArg wrote (csrNew_write ..)), exchange _ .set _ _ _ ?csrrs (unwritten ..),
    exchange _ .clear _ _ _ ?csrrc (unwritten ..), exchange _ .write _ true _ ?csrrwi (congrArg wrote (csrNew_write ..)),
    exchange _ .set _ _ _ ?csrrsi (unwritten ..), exchange _ .clear _ _ _ ?csrrci (unwritten ..)⟩
  case csrrw => rw [exec_csrrw, execCsrrw, baseWord_ready hr]
  case csrrs => rw [exec_csrrs, execCsrrs, baseWord_ready hr]
  case csrrc => rw [exec_csrrc, execCsrrc, baseWord_ready hr]
  case csrrwi => rw [exec_csrrwi, execCsrrwi, baseWord_ready hrd]; rfl
  case csrrsi => rw [exec_csrrsi, execCsrrsi, baseWord_ready hrd]; rfl
  case csrrci => rw [exec_csrrci, execCsrrci, baseWord_ready hrd]; rfl

/-! ### Fences (R44, R312, R313) -/

theorem Cell.ready_nil (c : Cell) : c.ready [] = true := by
  simp [Cell.ready, Cell.busy, meets]

theorem stepped_advance (s : State) : Stepped s s.advance := ⟨rfl, fun _ => rfl, fun _ => rfl⟩

theorem fenceAt_quiet {s : State} (hq : s.cpu.memoryQuiet = true) {scope : Nat} {rel : Bool}
    (hw : rel = true → s.releaseWaits scope = false) (acq : Bool) :
    fenceAt scope rel acq s =
      .next (if acq then (if rel then s.release scope else s).acquire scope else if rel then s.release scope else s).advance := by
  have hw' : (rel && s.releaseWaits scope) = false := by
    cases rel
    · rfl
    · exact hw rfl
  simp [fenceAt, hq, hw']

/-- Settles O17: a fence that does not wait releases, acquires and goes on. -/
theorem fencesReleaseAndAcquire : Obligations.FencesReleaseAndAcquire := by
  unfold Obligations.FencesReleaseAndAcquire
  intro sc r rd rs1 imm s hq
  refine ⟨fun he => ⟨⟨_, ?acq, stepped_advance _⟩, fun hw => ⟨⟨_, ?both, stepped_advance _⟩, ⟨_, ?rel, stepped_advance _⟩⟩⟩,
    fun hw => ⟨⟨_, ?fence, stepped_advance _⟩, ⟨_, ?tso, stepped_advance _⟩⟩, ⟨_, ?fenceI, stepped_advance _⟩⟩
  case acq =>
    rw [exec_fenceAcq, execFenceAcq, frontWord_ready he (Cell.ready_nil _), fenceAt_quiet (rel := false) hq (nomatch ·)]
    rfl
  case both => rw [exec_fenceBoth, execFenceBoth, frontWord_ready he (Cell.ready_nil _), fenceAt_quiet hq fun _ => hw]; rfl
  case rel => rw [exec_fenceRel, execFenceRel, frontWord_ready he (Cell.ready_nil _), fenceAt_quiet hq fun _ => hw]; rfl
  case fence => rw [exec_fence, execFence, fenceAt_quiet hq fun _ => hw]; rfl
  case tso => rw [exec_fenceTso, execFenceTso, fenceAt_quiet hq fun _ => hw]; rfl
  case fenceI => simp [exec_fenceI, execFenceI, hq]

/-! ### ECALL, EBREAK, precise traps, WFI (R44, R354, R357, R372) -/

theorem raised_iff (cause : Nat) :
    raised cause = true ↔ 1 ≤ cause ∧ cause ≤ 0x16 ∧ cause ≠ 0x0D ∧ cause ≠ 0x0F ∧ cause ≠ 0x13 := by
  simp [raised, and_assoc]

theorem focus_self (s : State) : s.focus s.cpu.id = s := if_pos rfl

/-- Settles O22: the three traps by what a precise trap does, WFI and the wake by their one test. -/
theorem environmentCallsAndWaits : Obligations.EnvironmentCallsAndWaits := by
  unfold Obligations.EnvironmentCallsAndWaits
  constructor
  · intro s hm hh
    have traps (i : Instr) (cause : Nat) (v : Word) (lost : Option Nat) (hi : exec i s = .next (s.trap cause v lost)) :
        Completes i s (fun t => t = s.trap cause v lost ∧ t.cpu.tcause = BitVec.ofNat 64 cause ∧ t.cpu.tval = v ∧
          t.cpu.tepc = s.cpu.pc ∧ t.cpu.pc = s.cpu.thandler ∧ t.cpu.handler = true) := by
      obtain ⟨hhandler, hpc, hcause, hval, hepc, -⟩ := trap_task hm hh cause v lost
      exact ⟨_, hi, rfl, hcause, hval, hepc, hpc, hhandler⟩
    have withoutMode {i : Instr} {p q r a b c : State → Prop} (h : Completes i s (fun t => p t ∧ q t ∧ r t ∧ a t ∧ b t ∧ c t)) :
        Completes i s (fun t => p t ∧ q t ∧ r t ∧ a t ∧ b t) := by
      obtain ⟨t, ht, hp, hq, hr, ha, hb, -⟩ := h
      exact ⟨t, ht, hp, hq, hr, ha, hb⟩
    refine ⟨withoutMode (traps _ _ _ _ (exec_ecall s)), withoutMode (traps _ _ _ _ (exec_ebreak s)), fun cause v => ?_⟩
    intro isRaised
    constructor
    · intro h
      exact traps _ _ _ _ ((exec_preciseTrap ..).trans (if_pos ((raised_iff cause).mpr h)))
    · intro h
      exact (exec_preciseTrap ..).trans (if_neg (mt (raised_iff cause).mp h))
  · intro s
    have wfi := exec_wfi s
    have wake := exec_wfiWake s.cpu.id s
    rw [execWfi] at wfi
    rw [execWfiWake, focus_self] at wake
    refine ⟨fun h => ⟨_, wfi.trans (if_pos h), stepped_advance _⟩, fun h => ⟨_, wfi.trans (if_neg (by simp [h])), rfl⟩,
      fun ha hw => ⟨_, wake.trans (if_pos (by simp [ha, hw])), stepped_advance _⟩,
      fun h => ⟨_, wake.trans (if_neg ?_), rfl⟩, fun h => ?_⟩
    · rcases h with h | h <;> simp [h]
    · exact if_pos (by simp [h])

end Sys2Proof.Machine

/-! # Proofs: a step and its fetch (O1, O2) -/

namespace Sys2Proof.Machine

/-! ### A step is the turn of the acting cell (R41, R42, R48, R373) -/

/-- What a step makes of the outcome of its turn: the channels note the request that a completed turn leaves waiting. -/
def Out.noted (s : State) (t : Turn) (o : Out) : Out :=
  match o with
  | .next u => .next { u with channels := u.channels.map (fun c => c.after ⟨t, s.firingOfTurn t, s.urgentTurn t⟩) }
  | o => o

theorem Out.noted_of_not_next {s : State} {t : Turn} {o : Out} (h : ∀ v, o ≠ .next v) : Out.noted s t o = o := by
  cases o with
  | next v => exact absurd rfl (h v)
  | _ => rfl

/-- With an empty agenda a step is the turn of the acting cell, with its requests noted. -/
theorem step_of_agenda_nil {s : State} (h : s.agenda = []) :
    step s = Out.noted s (.cell s.cpu.id) (s.barFor (.cell s.cpu.id)).cellTurn := by
  rw [step, h]
  rfl

theorem step_of_agenda_cons {s : State} {t : Turn} {rest : List Turn} (h : s.agenda = t :: rest) :
    step s = ({ s with agenda := rest } : State).move t := by
  rw [step, h]

theorem barFor_of_channels_nil {s : State} (h : s.channels = []) (t : Turn) : s.barFor t = s := by
  cases s
  simp_all [State.barFor]

theorem cellTurn_of_waits {s : State} (h : s.cellWaits = true) : s.cellTurn = .next s := by
  simp [State.cellTurn, h]

theorem cellTurn_of_fetched {s t : State} {w : BitVec 32} (hw : s.cellWaits = false) (hf : s.fetch = .ok w t) :
    s.cellTurn = afterIssue (t.issue w) := by
  simp [State.cellTurn, hw, hf]

theorem cellTurn_of_fetch_trap {s t : State} {cause : Nat} {lost : Option Nat} (hw : s.cellWaits = false)
    (hf : s.fetch = .trap cause lost t) : s.cellTurn = afterIssue (.next ((t.withWord 0).trap cause t.cpu.pc lost)) := by
  simp [State.cellTurn, hw, hf]

theorem cellTurn_of_fetch_wait {s t : State} (hw : s.cellWaits = false) (hf : s.fetch = .wait t) : s.cellTurn = .next t := by
  simp [State.cellTurn, hw, hf]

theorem issue_of_decoded {s : State} {w : BitVec 32} {i : Instr} (hd : decode w = .ok i) (hb : s.cpu.consumesBad i = false) :
    s.issue w = exec i (s.withWord w) := by
  simp [State.issue, hd, hb]

theorem issue_of_poisoned {s : State} {w : BitVec 32} {i : Instr} (hd : decode w = .ok i) (hb : s.cpu.consumesBad i = true) :
    s.issue w = .next ((s.withWord w).free.2.trap 0x12 (s.withWord w).free.1) := by
  simp [State.issue, hd, hb, trapOut]

theorem issue_of_illegal {s : State} {w : BitVec 32} {e : Illegal} (hd : decode w = .error e) :
    s.issue w = .next ((s.withWord w).trap 1 (w.setWidth 64)) := by
  simp [State.issue, hd, trapOut, zext64]

/-- With no command under way the engines do not go on. -/
theorem settle_of_pending_nil {s : State} (h : s.cpu.pending = []) : s.settle = s := by
  simp [State.settle, State.settleFrom, h]

theorem settle_of_not_eager {s : State} (h : s.cpu.eager = false) : s.settle = s := by
  simp [State.settle, h]

/-- Settles O1: a step with an empty agenda is the turn of the cell; each outcome of its fetch gives the turn. -/
theorem stepRunsTheDecodedInstruction : Obligations.StepRunsTheDecodedInstruction := by
  unfold Obligations.StepRunsTheDecodedInstruction
  intro s turn u noted comes
  have comes_of {o : Out} (ha : s.agenda = []) (ho : u.cellTurn = o) : comes o := by
    have hs : step s = Out.noted s turn o := ho ▸ step_of_agenda_nil ha
    exact ⟨fun v hv => by rw [hs, hv]; rfl, fun hn => by rw [hs, Out.noted_of_not_next hn]⟩
  have waits_u : u.cellWaits = s.cellWaits := rfl
  refine ⟨fun hc => ⟨barFor_of_channels_nil hc turn, ?unnoted⟩, fun ha hw => comes_of ha (cellTurn_of_waits hw), ?fetched, ?clean,
    fun ha hw cause lost t hf => comes_of ha (cellTurn_of_fetch_trap hw hf),
    fun ha hw t hf => comes_of ha (cellTurn_of_fetch_wait hw hf), fun t rest ha => step_of_agenda_cons ha,
    fun hp => congrArg Host.Outcome.next (settle_of_pending_nil hp), fun he => congrArg Host.Outcome.next (settle_of_not_eager he)⟩
  case unnoted =>
    cases s
    simp_all [noted]
  case fetched =>
    intro ha hw w t hf
    have issues {o : Out} (ho : t.issue w = o) : comes (afterIssue o) := comes_of ha (ho ▸ cellTurn_of_fetched hw hf)
    exact ⟨fun i hd hb => issues (issue_of_decoded hd hb), fun i hd hb => ⟨_, issues (issue_of_poisoned hd hb)⟩,
      fun e hd => issues (issue_of_illegal hd)⟩
  case clean =>
    intro hp i
    simp [Cell.consumesBad, hp]

/-! ### The fetch (R23, R44, R48, R228) -/

/-- The bytes of a number read from memory are the bytes of memory. -/
theorem readLE_digit (m : List Host.Cell) (n j k : Nat) (h : j < n) :
    BitVec.ofNat 8 (readLE m k n / 256 ^ j) = readByte m (k + j) := by
  induction n generalizing j k with
  | zero => omega
  | succ n ih =>
    have hb : (readByte m k).toNat < 256 := (readByte m k).isLt
    cases j with
    | zero =>
      apply BitVec.eq_of_toNat_eq
      simp only [readLE, BitVec.toNat_ofNat, Nat.pow_zero, Nat.div_one, Nat.add_zero]
      omega
    | succ j =>
      have hdiv : readLE m k (n + 1) / 256 ^ (j + 1) = readLE m (k + 1) n / 256 ^ j := by
        rw [readLE, Nat.pow_succ', ← Nat.div_div_eq_div_mul, Nat.add_mul_div_left _ _ (by omega), Nat.div_eq_of_lt hb, Nat.zero_add]
      rw [hdiv, ih j (k + 1) (by omega)]
      congr 1
      omega

/-- The bytes of a line's word are the bytes at home. -/
theorem extractLsb'_wordAt_readLE (m : List Host.Cell) (k o i : Nat) (hi : i < 4) (ho : o + i < 128) :
    (wordAt (BitVec.ofNat 1024 (readLE m k 128)) o).extractLsb' (8 * i) 8 = readByte m (k + o + i) := by
  rw [Nat.add_assoc, ← readLE_digit m 128 (o + i) k ho]
  have hpow : 256 ^ (o + i) = 2 ^ (8 * (o + i)) := by rw [Nat.pow_mul]
  ext b hb
  have hin : 8 * i + b < 32 ∧ 8 * o + (8 * i + b) < 1024 := by omega
  have hbit : b + 8 * (o + i) = 8 * o + (8 * i + b) := by omega
  simp [wordAt, BitVec.getLsbD_ofNat, ← BitVec.getLsbD_eq_getElem, hpow, Nat.testBit_div_two_pow, hin, hb, hbit]

theorem fetch_of_translated {s s1 : State} {p : Place} {leaf : Word} (ha : s.cpu.pc.extractLsb' 0 2 = 0)
    (ht : translateHome s s.cpu.pc .read = .ok p leaf s1) : s.fetch = s1.fetchAt p := by
  simp [State.fetch, ha, ht]

theorem fetchAt_of_kept {s : State} {p : Place} {e : Nat × VReg} (hd : isDevice p.pa = false)
    (hk : s.cpu.icache.find? (fun e => e.1 == p.line) = some e) : s.fetchAt p = .ok (wordAt e.2 (p.pa % 128)) s := by
  simp [State.fetchAt, hd, hk]

theorem fetchAt_of_poisoned {s : State} {p : Place} (hd : isDevice p.pa = false)
    (hk : s.cpu.icache.find? (fun e => e.1 == p.line) = none) (hw : s.homeWaits (s.key p) = false)
    (hp : poisonedIn s.memPoison (s.key p) 4 = true) : s.fetchAt p = .trap 0x12 none s := by
  simp [State.fetchAt, hd, hk, hw, hp]

theorem fetchAt_of_home {s : State} {p : Place} (hd : isDevice p.pa = false)
    (hk : s.cpu.icache.find? (fun e => e.1 == p.line) = none) (hw : s.homeWaits (s.key p) = false)
    (hp : poisonedIn s.memPoison (s.key p) 4 = false) :
    s.fetchAt p = .ok (wordAt (s.fetchLine p) (p.pa % 128)) (s.keepLine p.line (s.fetchLine p)) := by
  simp [State.fetchAt, hd, hk, hw, hp]

theorem fetchLine_of_not_cached {s : State} {p : Place} (h : findLine s.cpu.l1 p.line = none) :
    s.fetchLine p = BitVec.ofNat 1024 (readLE s.mem (lineKey s.fuses p.line) 128) := by
  simp [State.fetchLine, h]

/-- Settles O2: after the translation the fetch is a kept line, a poison trap, or the line at home. -/
theorem aFetchReadsTheWordAtThePc : Obligations.AFetchReadsTheWordAtThePc := by
  unfold Obligations.AFetchReadsTheWordAtThePc
  refine fun s => ⟨fun hm => by rw [State.fetch, if_pos hm], fun ha cause lost t ht => by simp [State.fetch, ha, ht],
    fun p leaf s1 ha ht hd => ?_⟩
  rw [fetch_of_translated ha ht]
  refine ⟨fun n v hk => fetchAt_of_kept hd hk, fun hk hw => ⟨fetchAt_of_poisoned hd hk hw, fun hp hal hl => ?_⟩⟩
  refine ⟨_, _, fetchAt_of_home hd hk hw hp, rfl, fun i hi => ?_⟩
  rw [fetchLine_of_not_cached hl]
  exact extractLsb'_wordAt_readLE _ _ _ _ hi (by omega)

end Sys2Proof.Machine

/-! # Proofs: words of the specification and the reset state (O3, O6) -/

namespace Sys2Proof.Machine

/-- A word that encodes a well-formed instruction decodes to it. -/
theorem decode_of_encode {i : Instr} {w : BitVec 32} (hw : WellFormed i) (he : encode i = some w) : decode w = .ok i :=
  (Laws.decodeEncodeRoundTrip.1 i w hw he).1

/-- Settles O3: each word is the encoding of its instruction; the last three are illegal. -/
theorem decodeOfSpecWords : Obligations.DecodeOfSpecWords := by
  unfold Obligations.DecodeOfSpecWords
  refine ⟨?_, ?_, ?_, ?_, ?_, ?_, ?_, ?_, ?_, ?_, ?_, ?_, ?_, ?_, ?_, ?_, ?_, ?_, ?_, ?_, ?_, ?_, ?_, ?_, rfl, rfl, rfl⟩ <;>
    exact decode_of_encode rfl rfl

/-! ### The state at reset (R46) -/

theorem reset_x (r : BitVec 5) : State.reset.x r = 0 :=
  (congrArg (ite _ 0) (Vector.getElem_replicate r.isLt)).trans (ite_self _)

theorem reset_rv (r : BitVec 5) : State.reset.cpu.rv r = 0 := Vector.getElem_replicate r.isLt

/-- Settles O6: each clause reads the reset state; its register files hold one value each. -/
theorem resetState : Obligations.ResetState := by
  unfold Obligations.ResetState
  refine ⟨reset_memOk, rfl, rfl, rfl, rfl, rfl, rfl, rfl, rfl, rfl, rfl, ?_, ?_, rfl, ?_, rfl, ?_,
    fun r => ⟨reset_x r, reset_rv r⟩, ?_⟩
  · simp only [List.forall_mem_cons]
    exact ⟨rfl, rfl, rfl, rfl, rfl, rfl, rfl, rfl, rfl, rfl, rfl, rfl, rfl, rfl, nofun⟩
  · simp only [List.forall_mem_cons]
    exact ⟨rfl, rfl, rfl, rfl, rfl, rfl, nofun⟩
  · intro n
    fin_cases n <;> rfl
  · exact fun n => ⟨Vector.getElem_replicate n.isLt, Vector.getElem_replicate n.isLt⟩
  · exact fun n => ⟨Vector.getElem_replicate n.isLt, Vector.getElem_replicate n.isLt⟩

end Sys2Proof.Machine

/-! # Proofs: what it is for a result to keep the memories canonical (O5) -/

namespace Sys2Proof.Machine

/-! ### Results

A result of an operation is canonical when the state that it carries is. -/

theorem State.memOk_iff (s : State) : s.MemOk ↔ Memory.wf s.mem = true ∧ Memory.wf s.sp = true := Iff.rfl

def Out.MemOk : Out → Prop
  | .next s => s.MemOk
  | _ => True

def SomeMemOk : Option State → Prop
  | some s => s.MemOk
  | none => True

def Xlat.MemOk : Xlat → Prop
  | .ok _ _ s | .trap _ _ s | .wait s => s.MemOk

theorem Xlat.memOk_of_after {x : Xlat} (h : x.after.MemOk) : x.MemOk := by
  cases x <;> exact h

def Got.MemOk : Got → Prop
  | .ok _ s | .trap _ _ s | .wait s => s.MemOk

def Fetched.MemOk : Fetched → Prop
  | .ok _ s | .trap _ _ s | .wait s => s.MemOk

/-- The lanes of a vector access, or its trap. -/
def LanesMemOk {α : Type} : Except (Nat × Word × Option Nat × State) (Option α × State) → Prop
  | .error (_, _, _, s) => s.MemOk
  | .ok (_, s) => s.MemOk

def EngOut.MemOk : EngOut → Prop
  | .done s | .more _ s | .blocked s | .trap _ _ _ _ s => s.MemOk

/-- A check at the state port leaves a canonical state where it traps. -/
def Check.MemOk (c : Check) : Prop := ∀ t r, t.MemOk → c t = some r → r.2.2.MemOk

def Sched.MemOk : Sched → Prop
  | .ok _ s | .bad _ s | .trap _ _ _ s | .wait s => s.MemOk

def BeatEnd.MemOk : BeatEnd → Prop
  | .ok _ _ s | .fault _ _ s | .wait s => s.MemOk

def Actions.MemOk : Actions → Prop
  | .ok s | .fail _ _ s | .wait s => s.MemOk

def QcbWalk.MemOk : QcbWalk → Prop
  | .ok _ s => s.MemOk
  | _ => True

def Did.MemOk : Did → Prop
  | .ok s | .more s => s.MemOk
  | .err _ => True

/-! ### Chains of optional states -/

theorem bind_memOk {o : Option State} (ho : SomeMemOk o) {f : State → Option State} (hf : ∀ t, t.MemOk → SomeMemOk (f t)) :
    SomeMemOk (o.bind f) := by
  cases o with
  | none => trivial
  | some t => exact hf t ho

theorem foldl_bind_memOk {α : Type} {f : State → α → Option State} (hf : ∀ t x, t.MemOk → SomeMemOk (f t x)) (l : List α)
    {o : Option State} (ho : SomeMemOk o) : SomeMemOk (l.foldl (fun o x => o.bind (fun t => f t x)) o) := by
  induction l generalizing o with
  | nil => exact ho
  | cons x l ih => exact ih (bind_memOk ho fun t ht => hf t x ht)

/-! ### Dropping bytes of a memory -/

theorem sortedFrom_filter {l : List Host.Cell} {lo : Nat} (h : sortedFrom lo l = true) (p : Host.Cell → Bool) :
    sortedFrom lo (l.filter p) = true := by
  induction l generalizing lo with
  | nil => rfl
  | cons c rest ih =>
    obtain ⟨a, b⟩ := c
    simp only [sortedFrom, Bool.and_eq_true, decide_eq_true_eq] at h
    obtain ⟨⟨hlo, hb⟩, hrest⟩ := h
    rw [List.filter_cons]
    split
    · simp only [sortedFrom, Bool.and_eq_true, decide_eq_true_eq]
      exact ⟨⟨hlo, hb⟩, ih hrest⟩
    · exact sortedFrom_mono (by omega) (ih hrest)

theorem wf_filter {m : List Host.Cell} (h : Memory.wf m = true) (p : Host.Cell → Bool) : Memory.wf (m.filter p) = true :=
  sortedFrom_filter h p

end Sys2Proof.Machine

/-! # Proofs: Operations on the state keep the memories canonical (O5) -/

namespace Sys2Proof.Machine

section
variable {s : State} (h : s.MemOk)
include h

/-! ### Operations on the state -/

theorem updContext_memOk {id : Nat} {f : Context → Context} : (s.updContext id f).MemOk := h
theorem free_memOk : s.free.2.MemOk := h
theorem setChannel_memOk {c : Channel} : (s.setChannel c).MemOk := h

theorem syncTouch_memOk {key : Nat} : (s.syncTouch key).MemOk := by
  unfold State.syncTouch
  split <;> exact h

theorem walkFor_memOk {ctx die va : Nat} {a : Access} : (walkFor s ctx die va a).1.MemOk :=
  Xlat.memOk_of_after ((walkFor_translated ..).1 h)

theorem touchPage_memOk {ctx va : Nat} {leaf : Word} {bits : Nat} : (touchPage s ctx va leaf bits).MemOk :=
  (touchPage_translated ..).1 h

theorem usedLl_memOk {die : Nat} {e : TlbEntry} : (s.usedLl die e).MemOk := h
theorem translate_memOk {va : Word} {a : Access} : (translate s va a).MemOk := Xlat.memOk_of_after ((translate_translated ..).1 h)

theorem translateHome_memOk {va : Word} {a : Access} : (translateHome s va a).MemOk :=
  Xlat.memOk_of_after ((translateHome_translated ..).1 h)

theorem translateFor_memOk {ctx die : Nat} {va : Word} {a : Access} : (translateFor s ctx die va a).MemOk := by
  grind [translateFor, usedLl_memOk, touchPage_memOk, walkFor_memOk, Xlat.MemOk]

theorem ctxStall_memOk {ctx : Nat} {va : Word} {n : Nat} : (s.ctxStall ctx va n).MemOk := by
  refine foldl_memOk (fun s a h => ?_) _ h
  split
  · exact stall_memOk h _
  · exact h

theorem l1Store_memOk {p : Place} {n v seq : Nat} : (s.l1Store p n v seq).MemOk := h
theorem stallRelease_memOk : s.stallRelease.MemOk := foldl_memOk (fun _ _ h => stall_memOk h _) _ h
theorem acquireBytes_memOk {k n : Nat} : (s.acquireBytes k n).MemOk := h
theorem faultNode_memOk {cause : Nat} {tval : Word} {lost : Option Nat} : (s.faultNode cause tval lost).MemOk := h
theorem dropWaits_memOk {cell : Nat} : (s.dropWaits cell).MemOk := h
theorem leaveWaits_memOk {cell : Nat} : (s.leaveWaits cell).MemOk := updCell_memOk h ..

/-! ### Device registers -/

theorem deviceRead_memOk {pa n : Nat} : (deviceRead s pa n).2.MemOk := by
  induction n generalizing s pa with
  | zero => exact h
  | succ n ih => grind [deviceRead, free_memOk]

/-! ### Words that start, and the commands under way -/

theorem setSpLine_memOk {off : Nat} {r : VReg} : (s.setSpLine off r).MemOk := spWrite_memOk h ..

theorem frontWord_memOk {r : BitVec 3} {regs : List (BitVec 5)} {body : State → Out}
    (hbody : ∀ t, t.MemOk → Out.MemOk (body t)) : Out.MemOk (frontWord r regs s body) := by
  grind [frontWord, advance_memOk, Out.MemOk]

theorem baseWord_memOk {regs : List (BitVec 5)} {body : State → Out} (hbody : ∀ t, t.MemOk → Out.MemOk (body t)) :
    Out.MemOk (baseWord regs s body) := by
  grind [baseWord, Out.MemOk]

theorem trapOut_memOk {cause : Nat} {tval : Word} : Out.MemOk (trapOut s cause tval) := trap_memOk h ..
theorem setCmd_memOk {i : Nat} {d : Cmd} : (s.setCmd i d).MemOk := h

theorem runUnit_memOk {unit : Cmd → State → EngOut} {i : Nat} (hunit : ∀ x t, t.MemOk → (unit x t).MemOk) :
    (s.runUnit unit i).1.MemOk := by
  grind [State.runUnit, free_memOk, trapCmd_memOk, upd_memOk, setCmd_memOk, EngOut.MemOk]

theorem drive_memOk {unit : Cmd → State → EngOut} (hunit : ∀ w t, t.MemOk → (unit w t).MemOk) {i n : Nat} :
    (s.drive unit i n).MemOk := by
  induction n generalizing s with
  | zero => exact h
  | succ n ih => grind [State.drive, runUnit_memOk]

theorem enqueue_memOk {w : Issue} {unit : Cmd → State → EngOut} (hunit : ∀ x t, t.MemOk → (unit x t).MemOk) :
    Out.MemOk (enqueue w unit s) := by
  grind [enqueue, advance_memOk, upd_memOk, drive_memOk, EngOut.MemOk, Out.MemOk]

theorem forwardWord_memOk {r : BitVec 3} {vs : List Nat} {regs : List (BitVec 5)} {q : Queue} {body : State → Out}
    (hbody : ∀ t, t.MemOk → Out.MemOk (body t)) : Out.MemOk (forwardWord r vs regs q s body) := by
  grind [forwardWord, advance_memOk, trapOut_memOk, Out.MemOk]

theorem vectorWord_memOk {i : Instr} {r : BitVec 3} {vs regs : List (BitVec 5)} {op0 op1 aux : Word}
    {unit : Cmd → State → EngOut} (hunit : ∀ x t, t.MemOk → (unit x t).MemOk) :
    Out.MemOk (vectorWord i r vs regs op0 op1 aux unit s) := by
  grind [vectorWord, forwardWord_memOk, enqueue_memOk, EngOut.MemOk, Out.MemOk]

/-! ### Teams and phases -/

theorem csrInstr_memOk {op : CsrOp} {rd : BitVec 5} {n : BitVec 12} {operand : Word} {writes : Bool} :
    Out.MemOk (csrInstr op rd n operand writes s) := by
  unfold csrInstr
  split <;> exact h

theorem execRole_memOk {m : BitVec 7} {sk : BitVec 8} : Out.MemOk (execRole m sk s) := by
  unfold execRole
  split <;> exact h

theorem execRoleid_memOk {a d : BitVec 5} {r : BitVec 3} : Out.MemOk (execRoleid a d r s) := by
  grind [execRoleid, frontWord_memOk, advance_memOk, setX_memOk, trapOut_memOk, Out.MemOk]

theorem execLoop_memOk {c : BitVec 5} {e : BitVec 10} {r : BitVec 3} : Out.MemOk (execLoop c e r s) := by
  grind [execLoop, frontWord_memOk, trapOut_memOk, upd_memOk, Out.MemOk]

theorem execDrift_memOk {a d : BitVec 5} {r : BitVec 3} : Out.MemOk (execDrift a d r s) := by
  grind [execDrift, frontWord_memOk, trapOut_memOk, advance_memOk, upd_memOk, setX_memOk, Out.MemOk]

theorem resize_memOk {grow : Bool} {a d : BitVec 5} : Out.MemOk (resize grow a d s) := by
  grind [resize, trapOut_memOk, upd_memOk, advance_memOk, setX_memOk, Out.MemOk]

theorem execFmset_memOk {a d : BitVec 5} {r : BitVec 3} : Out.MemOk (execFmset a d r s) := by
  grind [execFmset, frontWord_memOk, trapOut_memOk, advance_memOk, upd_memOk, Out.MemOk]

theorem execFtset_memOk {b a : BitVec 5} {r : BitVec 3} : Out.MemOk (execFtset b a r s) := by
  grind [execFtset, frontWord_memOk, trapOut_memOk, advance_memOk, upd_memOk, Out.MemOk]

theorem phaseEnd_memOk {scope : Nat} : Out.MemOk (phaseEnd scope s) := by
  grind [phaseEnd, advance_memOk, upd_memOk, acquire_memOk, Out.MemOk]

theorem execPhase_memOk {sc : BitVec 3} {d : BitVec 5} {r : BitVec 3} : Out.MemOk (execPhase sc d r s) := by
  grind [execPhase, frontWord_memOk, phaseEnd_memOk, setX_memOk, stallRelease_memOk, upd_memOk, release_memOk, Out.MemOk]

theorem fenceAt_memOk {scope : Nat} {rel acq : Bool} : Out.MemOk (fenceAt scope rel acq s) := by
  grind [fenceAt, stallRelease_memOk, release_memOk, acquire_memOk, advance_memOk, Out.MemOk]

theorem execFenceI_memOk {_rd _rs1 : BitVec 5} {_imm : BitVec 12} : Out.MemOk (execFenceI _rd _rs1 _imm s) := by
  unfold execFenceI
  split <;> exact h

theorem execPhaseHoldRelease_memOk : Out.MemOk (execPhaseHoldRelease s) := by
  grind [execPhaseHoldRelease, phaseEnd_memOk, Out.MemOk]

end

end Sys2Proof.Machine

/-! # Proofs: Memory accesses, graph records and synchronization keep the memories canonical (O5) -/

namespace Sys2Proof.Machine

section
variable {s : State} (h : s.MemOk)
include h

/-! ### Memory accesses (R240, R309 to R313) -/

theorem homeRead_memOk {p : Place} {n : Nat} : (homeRead s p n).MemOk := by
  grind [homeRead, deviceRead_memOk, stall_memOk, syncTouch_memOk, Got.MemOk]

theorem weakRead_memOk {p : Place} {n : Nat} : (weakRead s p n).MemOk := by
  grind [weakRead, homeRead_memOk, upd_memOk, stall_memOk, Got.MemOk]

theorem passRead_memOk {p : Place} {n : Nat} : (passRead s p n).MemOk := by
  grind [passRead, stall_memOk, Got.MemOk]

theorem homePut_memOk {p : Place} {n v : Nat} : (homePut s p n v).MemOk := syncTouch_memOk (homeWrite_memOk h ..)

theorem homeStore_memOk {p : Place} {n v : Nat} : (homeStore s p n v).MemOk := by
  grind [homeStore, stall_memOk, homePut_memOk, Got.MemOk]

theorem weakWrite_memOk {p : Place} {n v seq : Nat} : (weakWrite s p n v seq).MemOk := by
  grind [weakWrite, l1Store_memOk, homeStore_memOk, Got.MemOk]

theorem atHome_memOk {p : Place} {writes : Bool} {go : State → Got} (hgo : ∀ t, t.MemOk → (go t).MemOk) :
    (atHome s p writes go).MemOk := by
  grind [atHome, stall_memOk, Got.MemOk]

theorem strongRead_memOk {p : Place} {n scope : Nat} : (strongRead s p n scope).MemOk := by
  grind [strongRead, weakRead_memOk, atHome_memOk, homeRead_memOk, selfFlush_memOk, Got.MemOk]

theorem strongWrite_memOk {p : Place} {n v scope : Nat} : (strongWrite s p n v scope).MemOk := by
  grind [strongWrite, weakWrite_memOk, atHome_memOk, homeStore_memOk, selfFlush_memOk, Got.MemOk]

theorem accessAt_memOk {va : Word} {n : Nat} {a : Access} {act : State → Place → Got} {k : Nat → State → Out}
    (hact : ∀ t x, t.MemOk → (act t x).MemOk) (hk : ∀ x t, t.MemOk → Out.MemOk (k x t)) :
    Out.MemOk (accessAt s va n a act k) := by
  grind [accessAt, trapOut_memOk, translateHome_memOk, trap_memOk, Got.MemOk, Xlat.MemOk, Out.MemOk]

theorem loadWord_memOk {rd rs1 : BitVec 5} {imm : BitVec 12} {n : Nat} {signed : Bool} :
    Out.MemOk (loadWord rd rs1 imm n signed s) := by
  grind [loadWord, baseWord_memOk, accessAt_memOk, weakRead_memOk, advance_memOk, setX_memOk, Got.MemOk, Out.MemOk]

theorem storeWord_memOk {rs1 rs2 : BitVec 5} {imm : BitVec 12} {n : Nat} : Out.MemOk (storeWord rs1 rs2 imm n s) :=
  baseWord_memOk h fun _ h => accessAt_memOk h (fun _ _ h => weakWrite_memOk h) fun _ _ h => advance_memOk h

theorem execLdst_memOk {z : BitVec 2} {sc : BitVec 3} {a d : BitVec 5} {r : BitVec 3} : Out.MemOk (execLdst z sc a d r s) :=
  frontWord_memOk h fun _ h => accessAt_memOk h (fun _ _ h => strongRead_memOk h) fun _ _ h => advance_memOk (setX_memOk h ..)

theorem execStst_memOk {z : BitVec 2} {sc : BitVec 3} {a d : BitVec 5} {r : BitVec 3} : Out.MemOk (execStst z sc a d r s) :=
  frontWord_memOk h fun _ h => accessAt_memOk h (fun _ _ h => strongWrite_memOk h) fun _ _ h => advance_memOk h

theorem lanePlaces_memOk {a : Access} {vas : List Word} {pages : List (Nat × Place)} {acc : List Place} :
    LanesMemOk (lanePlaces a vas pages acc s) := by
  induction vas generalizing s pages acc with
  | nil => exact h
  | cons va rest ih => grind [lanePlaces, translateHome_memOk, Xlat.MemOk, LanesMemOk]

theorem readLanes_memOk {ps : List (Word × Place × Bool)} {acc : List Lane} : LanesMemOk (readLanes ps acc s) := by
  induction ps generalizing s acc with
  | nil => exact h
  | cons p rest ih => grind [readLanes, passRead_memOk, weakRead_memOk, Got.MemOk, LanesMemOk]

theorem banksServed_memOk : s.banksServed.MemOk := h

theorem writeLanesAt_memOk {seq : Nat} {ps : List (Place × Lane)} : (writeLanesAt seq ps s).MemOk := by
  induction ps generalizing s with
  | nil => exact h
  | cons p rest ih => grind [writeLanesAt, l1Store_memOk, homePut_memOk]

theorem lanesWait_memOk {seq : Nat} {ps : List Place} : SomeMemOk (lanesWait seq ps s) := by
  unfold lanesWait
  dsimp only
  split
  · exact h
  · generalize List.find? _ _ = p
    cases p with
    | none => trivial
    | some p => exact stall_memOk h _

theorem unitVldm_memOk {b d : BitVec 5} {w : Cmd} : (unitVldm b d w s).MemOk := by
  grind [unitVldm, lanePlaces_memOk, readLanes_memOk, setV_memOk, banksServed_memOk, EngOut.MemOk, LanesMemOk]

theorem unitVstm_memOk {b d : BitVec 5} {w : Cmd} : (unitVstm b d w s).MemOk := by
  grind [unitVstm, lanePlaces_memOk, lanesWait_memOk, writeLanesAt_memOk, EngOut.MemOk, LanesMemOk, SomeMemOk]

theorem foundPlace_memOk {va : Word} {a : Access} {x : Xlat} (hx : foundPlace s va a = some x) : x.MemOk := by
  grind [foundPlace, Xlat.MemOk, Option.map_eq_some_iff]

theorem lanePlace_memOk {w : Cmd} {va : Word} {a : Access} : (lanePlace w va a s).MemOk := by
  unfold lanePlace
  split
  · cases hx : foundPlace s va a with
    | none => exact translateHome_memOk h
    | some x => exact foundPlace_memOk h hx
  · exact translateHome_memOk h

theorem indexedLane_memOk {w : Cmd} {offs : VReg} {a : Access} {act : Cmd → Word → Place → State → EngOut} {skip : EngOut}
    (hact : ∀ x y z t, t.MemOk → (act x y z t).MemOk) (hskip : skip.MemOk) : (indexedLane w offs a s act skip).MemOk := by
  grind [indexedLane, lanePlace_memOk, EngOut.MemOk, Xlat.MemOk]

theorem nextLane_memOk {w : Cmd} : (nextLane w s).MemOk := by
  unfold nextLane
  split <;> exact h

theorem unitVldx_memOk {b d : BitVec 5} {w : Cmd} : (unitVldx b d w s).MemOk := by
  grind [unitVldx, banksServed_memOk, indexedLane_memOk, passRead_memOk, weakRead_memOk, nextLane_memOk, setV_memOk,
    EngOut.MemOk, Got.MemOk]

theorem unitVstx_memOk {b d : BitVec 5} {w : Cmd} : (unitVstx b d w s).MemOk := by
  grind [unitVstx, indexedLane_memOk, weakWrite_memOk, nextLane_memOk, EngOut.MemOk, Got.MemOk]

theorem setPageRecord_memOk {r : PageRecord} : (setPageRecord s r).MemOk := h

theorem execHintLife_memOk {b a : BitVec 5} {r : BitVec 3} : Out.MemOk (execHintLife b a r s) := by
  grind [execHintLife, frontWord_memOk, setPageRecord_memOk, advance_memOk, Out.MemOk]

theorem prefetch_memOk {p : Place} : (s.prefetch p).MemOk := by
  grind [State.prefetch, State.memOk_iff]

theorem execHintPref_memOk {a : BitVec 5} {r : BitVec 3} : Out.MemOk (execHintPref a r s) := by
  grind [execHintPref, frontWord_memOk, advance_memOk, prefetch_memOk, Out.MemOk]

theorem execHintFetch_memOk {a : BitVec 5} {r : BitVec 3} : Out.MemOk (execHintFetch a r s) := by
  grind [execHintFetch, frontWord_memOk, advance_memOk, Out.MemOk, State.memOk_iff]

theorem execStepadv_memOk {a d : BitVec 5} {r : BitVec 3} : Out.MemOk (execStepadv a d r s) := by
  grind [execStepadv, frontWord_memOk, trapOut_memOk, updContext_memOk, advance_memOk, setX_memOk, Out.MemOk]

theorem withRl_memOk {rl : BitVec 1} : (withRl rl s).MemOk := by
  grind [withRl, release_memOk]

theorem withAq_memOk {aq : BitVec 1} : (withAq aq s).MemOk := by
  unfold withAq
  split <;> exact h

theorem rlStall_memOk : (rlStall s).MemOk := by
  grind [rlStall, stallRelease_memOk]

theorem amo_memOk {rd rs1 rs2 : BitVec 5} {aq rl : BitVec 1} {n : Nat} {f : Nat → Nat → Nat} :
    Out.MemOk (amo rd rs1 rs2 aq rl n f s) := by
  grind [amo, baseWord_memOk, rlStall_memOk, accessAt_memOk, atHome_memOk, withRl_memOk, homeRead_memOk, selfFlush_memOk,
    homePut_memOk, advance_memOk, setX_memOk, withAq_memOk, Got.MemOk, Out.MemOk]

theorem execLrW_memOk {rd rs1 : BitVec 5} {aq rl : BitVec 1} : Out.MemOk (execLrW rd rs1 aq rl s) := by
  grind [execLrW, baseWord_memOk, rlStall_memOk, accessAt_memOk, atHome_memOk, homeRead_memOk, selfFlush_memOk,
    withRl_memOk, upd_memOk, advance_memOk, setX_memOk, withAq_memOk, Got.MemOk, Out.MemOk]

theorem execScW_memOk {rd rs1 rs2 : BitVec 5} {aq rl : BitVec 1} : Out.MemOk (execScW rd rs1 rs2 aq rl s) := by
  grind [execScW, baseWord_memOk, rlStall_memOk, accessAt_memOk, upd_memOk, atHome_memOk, homePut_memOk, selfFlush_memOk,
    withRl_memOk, advance_memOk, setX_memOk, withAq_memOk, Got.MemOk, Out.MemOk]

theorem execLrD_memOk {rd rs1 : BitVec 5} {aq rl : BitVec 1} : Out.MemOk (execLrD rd rs1 aq rl s) := by
  grind [execLrD, baseWord_memOk, rlStall_memOk, accessAt_memOk, atHome_memOk, homeRead_memOk, selfFlush_memOk,
    withRl_memOk, upd_memOk, advance_memOk, setX_memOk, withAq_memOk, Got.MemOk, Out.MemOk]

theorem execScD_memOk {rd rs1 rs2 : BitVec 5} {aq rl : BitVec 1} : Out.MemOk (execScD rd rs1 rs2 aq rl s) := by
  grind [execScD, baseWord_memOk, rlStall_memOk, accessAt_memOk, upd_memOk, atHome_memOk, homePut_memOk, selfFlush_memOk,
    withRl_memOk, advance_memOk, setX_memOk, withAq_memOk, Got.MemOk, Out.MemOk]

/-! ### The bytes of a context and of a graph record -/

theorem ctxWrite_memOk {ctx : Nat} {va : Word} {bs : List Byte} : (s.ctxWrite ctx va bs).MemOk := by
  grind [State.ctxWrite, syncTouch_memOk, homeWrite_memOk]

theorem ctxStore_memOk {ctx : Nat} {va : Word} {bs : List Byte} : (s.ctxStore ctx va bs).MemOk :=
  foldl_memOk (fun _ _ h => ctxWrite_memOk h) _ h

theorem ctxLand_memOk {ctx : Nat} {va : Word} {bs : List Byte} : (s.ctxLand ctx va bs).MemOk := ctxStore_memOk h
theorem recWrite_memOk {g : Graph} {o n v : Nat} : (s.recWrite g o n v).MemOk := ctxWrite_memOk h
theorem setGraphState_memOk {g : Graph} {v : Nat} : (s.setGraphState g v).MemOk := recWrite_memOk h
theorem setNode_memOk {g : Graph} {i o n v : Nat} : (s.setNode g i o n v).MemOk := recWrite_memOk h
theorem setNodeState_memOk {g : Graph} {i v : Nat} : (s.setNodeState g i v).MemOk := setNode_memOk h
theorem setEdge_memOk {g : Graph} {e o n v : Nat} : (s.setEdge g e o n v).MemOk := recWrite_memOk h
theorem freezeEdge_memOk {g : Graph} {e : Nat} {f : Bool} : (s.freezeEdge g e f).MemOk := setEdge_memOk h
theorem bumpEdge_memOk {g : Graph} {e o n : Nat} {by' : Int} : (s.bumpEdge g e o n by').MemOk := setEdge_memOk h
theorem graphStall_memOk {g : Graph} : (s.graphStall g).MemOk := foldl_memOk (fun _ _ h => ctxStall_memOk h) _ (ctxStall_memOk h)
theorem putToken_memOk {g : Graph} {e i : Nat} {t : Word × Word} : (s.putToken g e i t).MemOk := ctxWrite_memOk h
theorem setFiring_memOk {f : Firing} : (s.setFiring f).MemOk := h

theorem firingStall_memOk {firing : Nat} : (s.firingStall firing).MemOk := by
  unfold State.firingStall
  cases (s.firing firing).bind fun f => s.graph f.graph with
  | none => exact h
  | some g => exact graphStall_memOk h

/-! ### Barriers, waits and reductions (R262 to R290) -/

theorem setBarrier_memOk {key : Nat} {b : Barrier} : (s.setBarrier key b).MemOk := syncTouch_memOk (homeWrite_memOk h ..)
theorem wakeBarrier_memOk {key : Nat} {parity : Bool} {phase : Nat} : (s.wakeBarrier key parity phase).MemOk := h
theorem wakeMates_memOk {key : Nat} : (s.wakeMates key).MemOk := h

theorem postOverrun_memOk {ctx key : Nat} {b : Barrier} : (s.postOverrun ctx key b).MemOk := by
  grind [State.postOverrun, post_memOk, State.memOk_iff]

theorem settled_memOk {key : Nat} {b : Settled} : (s.settled key b).MemOk := by
  rcases b with b | b | b
  · exact setBarrier_memOk h
  · exact wakeBarrier_memOk (wakeMates_memOk (setBarrier_memOk h))
  · exact postOverrun_memOk (setBarrier_memOk h)

theorem subtract_memOk {x : Subtraction} : (s.subtract x).MemOk := by
  grind [State.subtract, postOverrun_memOk, settled_memOk, State.memOk_iff]

theorem execBarrierSubtraction_memOk : Out.MemOk (execBarrierSubtraction s) := by
  grind [execBarrierSubtraction, subtract_memOk, Out.MemOk, State.memOk_iff]

theorem withBarrier_memOk {va : Word} {acc : Access} {body : Nat → State → Out} (hbody : ∀ x t, t.MemOk → Out.MemOk (body x t))
    : Out.MemOk (withBarrier va acc s body) := by
  grind [withBarrier, trapOut_memOk, translate_memOk, trap_memOk, syncTouch_memOk, Xlat.MemOk, Out.MemOk]

theorem execBarinit_memOk {b a : BitVec 5} {r : BitVec 3} : Out.MemOk (execBarinit b a r s) := by
  grind [execBarinit, frontWord_memOk, withBarrier_memOk, trapOut_memOk, advance_memOk, setBarrier_memOk, Out.MemOk]

theorem execBarinitForce_memOk {a : BitVec 5} {r : BitVec 3} : Out.MemOk (execBarinitForce a r s) := by
  grind [execBarinitForce, frontWord_memOk, withBarrier_memOk, trapOut_memOk, advance_memOk, settled_memOk, Out.MemOk]

theorem execBarinitFree_memOk {a : BitVec 5} {r : BitVec 3} : Out.MemOk (execBarinitFree a r s) := by
  grind [execBarinitFree, frontWord_memOk, withBarrier_memOk, trapOut_memOk, advance_memOk, syncTouch_memOk,
    homeWrite_memOk, Out.MemOk]

theorem arrive_memOk {delta : Int} {a b d : BitVec 5} : Out.MemOk (arrive delta a b d s) := by
  grind [arrive, withBarrier_memOk, trapOut_memOk, stallRelease_memOk, release_memOk, advance_memOk, setX_memOk,
    settled_memOk, Out.MemOk]

theorem observe_memOk {key : Nat} {phase : Option Nat} : (s.observe key phase).MemOk :=
  foldl_memOk (fun _ _ h => acquireBytes_memOk h) _ h

theorem endWait_memOk : s.endWait.MemOk := h
theorem barwaitEnd_memOk {key : Nat} {phase : Option Nat} : Out.MemOk (barwaitEnd key phase s) := observe_memOk (endWait_memOk h)

theorem sleepOn_memOk {va : Word} {key n : Nat} {want : Word} {rd : BitVec 5} : (s.sleepOn va key n want rd).MemOk := by
  grind [State.sleepOn, State.memOk_iff]

theorem execBarwait_memOk {b a : BitVec 5} {r : BitVec 3} : Out.MemOk (execBarwait b a r s) := by
  grind [execBarwait, frontWord_memOk, barwaitEnd_memOk, withBarrier_memOk, trapOut_memOk, sleepOn_memOk, Out.MemOk]

theorem execBartest_memOk {b a d : BitVec 5} {r : BitVec 3} : Out.MemOk (execBartest b a d r s) := by
  grind [execBartest, frontWord_memOk, withBarrier_memOk, trapOut_memOk, advance_memOk, setX_memOk, observe_memOk, Out.MemOk]

theorem execWaiterWake_memOk : Out.MemOk (execWaiterWake s) := by
  grind [execWaiterWake, barwaitEnd_memOk, Out.MemOk]

/-- The outcome is named by an equation: a use of the lemma then never evaluates the comparison in `waitaRound`. -/
theorem waitaRound_memOk {va : Word} {key : Nat} {v : Word} {rd : BitVec 5} {o : Out}
    (ho : waitaRound va key v rd s = o) : Out.MemOk o := by
  grind [waitaRound, endWait_memOk, advance_memOk, setX_memOk, acquire_memOk, sleepOn_memOk, Out.MemOk]

theorem waitaReread_memOk {va : Word} {w : WaitRecord} : Out.MemOk (waitaReread va w s) := by
  grind [waitaReread, stall_memOk, trapOut_memOk, endWait_memOk, waitaRound_memOk, syncTouch_memOk, Out.MemOk]

theorem execWaita_memOk {b a d : BitVec 5} {r : BitVec 3} : Out.MemOk (execWaita b a d r s) := by
  grind [execWaita, frontWord_memOk, waitaReread_memOk, trapOut_memOk, translate_memOk, trap_memOk, strongRead_memOk,
    waitaRound_memOk, Got.MemOk, Xlat.MemOk, Out.MemOk]

theorem execWaitaWake_memOk : Out.MemOk (execWaitaWake s) := by
  grind [execWaitaWake, stall_memOk, waitaRound_memOk, Out.MemOk]

theorem raise_memOk {x : Reduction} {f : BitVec 2} : (s.raise x f).MemOk := by
  grind [State.raise, updCell_memOk]

theorem dropSliceLine_memOk {key : Nat} : (s.dropSliceLine key).MemOk := by
  unfold State.dropSliceLine
  split <;> exact h

theorem applyReduction_memOk {x : Reduction} : (s.applyReduction x).MemOk := by
  grind [State.applyReduction, postOrDrop_memOk, dropSliceLine_memOk, raise_memOk, syncTouch_memOk, homeWrite_memOk]

theorem execReductionApply_memOk {i : Nat} : Out.MemOk (execReductionApply i s) := by
  grind [execReductionApply, stall_memOk, applyReduction_memOk, Out.MemOk, State.memOk_iff]

theorem sendReduction_memOk {op : Nat} {b : BitVec 5} {w : Cmd} : (sendReduction op b w s).MemOk := by
  grind [sendReduction, translate_memOk, stall_memOk, writeBack_memOk, applyReduction_memOk, EngOut.MemOk, Xlat.MemOk,
    State.memOk_iff]

theorem redaWord_memOk {i : Instr} {op : Nat} {b a : BitVec 5} {r : BitVec 3} : Out.MemOk (redaWord i op b a r s) := by
  grind [redaWord, forwardWord_memOk, enqueue_memOk, sendReduction_memOk, EngOut.MemOk, Out.MemOk]

theorem execRedfence_memOk {d : BitVec 5} {r : BitVec 3} : Out.MemOk (execRedfence d r s) := by
  grind [execRedfence, frontWord_memOk, advance_memOk, upd_memOk, setX_memOk, Out.MemOk]

end

end Sys2Proof.Machine

/-! # Proofs: Copy engines, energy, scratchpad and matrix words keep the memories canonical (O5) -/

namespace Sys2Proof.Machine

section
variable {s : State} (h : s.MemOk)
include h

/-! ### Copy engines (R243 to R258) -/

theorem setCopier_memOk {c : Copier} : (s.setCopier c).MemOk := h

theorem grantCopy_memOk {die : Nat} : (s.grantCopy die).MemOk := by
  grind [State.grantCopy, free_memOk, State.memOk_iff]

theorem armEngine_memOk {n ctx firing node : Nat} {cell : Option Nat} {cluster : Nat} {es : List Entry} {counter : Nat} {base : Word}
    : (s.armEngine n ctx firing node cell cluster es counter base).MemOk := h

theorem readEntry_memOk {base : Word} {o : Nat} {k : Entry → State → Sched} (hk : ∀ x t, t.MemOk → (k x t).MemOk) :
    (readEntry base o s k).MemOk := by
  grind [readEntry, translate_memOk, homeRead_memOk, Got.MemOk, Xlat.MemOk, Sched.MemOk]

theorem readSched_memOk {base : Word} {size n o : Nat} {pre : Option Entry} {acc : List Entry} :
    (readSched base size n o pre acc s).MemOk := by
  induction n generalizing s o pre acc with
  | zero => exact h
  | succ n ih =>
    unfold readSched
    split
    · exact h
    · refine readEntry_memOk h fun e t ht => ?_
      grind [Sched.MemOk]

theorem armWait_memOk {es : List Entry} {counter : Nat} {base : Word} {d : BitVec 5} :
    Out.MemOk (armWait es counter base d s) := by
  grind [armWait, grantCopy_memOk, armEngine_memOk, advance_memOk, setX_memOk, Out.MemOk, State.memOk_iff]

theorem execCparm_memOk {b a d : BitVec 5} {r : BitVec 3} : Out.MemOk (execCparm b a d r s) := by
  grind [execCparm, frontWord_memOk, trapOut_memOk, firingStall_memOk, readSched_memOk, trap_memOk, armWait_memOk,
    Out.MemOk, Sched.MemOk]

theorem execCpstep_memOk {b a d : BitVec 5} {r : BitVec 3} : Out.MemOk (execCpstep b a d r s) := by
  grind [execCpstep, frontWord_memOk, trapOut_memOk, stallRelease_memOk, release_memOk, advance_memOk, setX_memOk,
    setCopier_memOk, Out.MemOk]

theorem execCpstat_memOk {a d : BitVec 5} {r : BitVec 3} : Out.MemOk (execCpstat a d r s) := by
  grind [execCpstat, frontWord_memOk, trapOut_memOk, advance_memOk, setX_memOk, Out.MemOk]

theorem execCpcancel_memOk {a d : BitVec 5} {r : BitVec 3} : Out.MemOk (execCpcancel a d r s) := by
  grind [execCpcancel, frontWord_memOk, trapOut_memOk, advance_memOk, setX_memOk, wakeCtx_memOk, setCopier_memOk, Out.MemOk]

theorem execCopyEntryStart_memOk {engine : Nat} : Out.MemOk (execCopyEntryStart engine s) := by
  grind [execCopyEntryStart, setCopier_memOk, Out.MemOk]

theorem meetFault_memOk {engine cause addr : Nat} : (s.meetFault engine cause addr).MemOk := by
  unfold State.meetFault
  split <;> exact h

theorem execCopyIndexLookup_memOk {engine : Nat} : Out.MemOk (execCopyIndexLookup engine s) := by
  unfold execCopyIndexLookup
  dsimp only
  split
  · exact h
  split
  · exact h
  split
  · exact meetFault_memOk h
  split
  · exact h
  split
  · exact setCopier_memOk (free_memOk h)
  · exact setCopier_memOk h

theorem updCopier_memOk {engine : Nat} {f : Copier → Copier} : (s.updCopier engine f).MemOk := by
  unfold State.updCopier
  split <;> exact h

theorem engineXlat_memOk {c : Copier} {va : Word} {a : Access} : (engineXlat c va a s).MemOk := by
  grind [engineXlat, updCopier_memOk, touchPage_memOk, translateFor_memOk, Xlat.MemOk]

theorem beatRead_memOk {c : Copier} {r o n : Nat} : (beatRead c r o n s).MemOk := by
  grind [beatRead, engineXlat_memOk, deviceRead_memOk, stall_memOk, syncTouch_memOk, Xlat.MemOk, BeatEnd.MemOk]

theorem beatWrite_memOk {c : Copier} {r o : Nat} {bs : List Byte} {bad : List Bool} : (beatWrite c r o bs bad s).MemOk := by
  have scratch (k : Nat) {t : State} (hm : t.mem = s.mem) (hp : t.sp = writeBytes s.sp k bs) : t.MemOk :=
    ⟨hm ▸ h.1, hp ▸ writeBytes_wf h.2 ..⟩
  grind [beatWrite, engineXlat_memOk, stall_memOk, homeWrite_memOk, syncTouch_memOk, updCopier_memOk, memOk_of_eq, BeatEnd.MemOk,
    Xlat.MemOk]

theorem fillDone_memOk {c : Copier} : (fillDone c s).MemOk := by
  unfold fillDone
  split <;> exact h

theorem beat_memOk {engine : Nat} : (s.beat engine).MemOk := by
  unfold State.beat
  split
  · exact h
  next c _ =>
    dsimp only
    split
    · exact h
    split
    · exact h
    generalize hr : beatRead c _ _ _ s = r
    have hread : r.MemOk := hr ▸ beatRead_memOk h
    cases r with
    | fault cause addr s => exact meetFault_memOk hread
    | wait s => exact hread
    | ok bs bad t =>
      dsimp only
      generalize hw : beatWrite c _ _ bs bad t = w
      have hwrite : w.MemOk := hw ▸ beatWrite_memOk hread
      cases w with
      | fault cause addr s => exact meetFault_memOk hwrite
      | wait s => exact hwrite
      | ok _ _ s =>
        dsimp only
        split
        · exact hwrite
        · exact fillDone_memOk (setCopier_memOk hwrite)

theorem fullAction_memOk {c : Copier} : (fullAction c s).MemOk := by
  unfold fullAction
  split <;> exact h

theorem wordAction_memOk {c : Copier} : (wordAction c s).MemOk := by
  unfold wordAction
  extract_lets w cl o
  split
  · exact h
  split
  · exact h
  · exact ⟨h.1, writeLE_wf h.2 ..⟩

theorem barAction_memOk {c : Copier} : (barAction c s).MemOk := by
  grind [barAction, engineXlat_memOk, Xlat.MemOk, Actions.MemOk, State.memOk_iff]

theorem postPoison_memOk {c : Copier} : (s.postPoison c).MemOk := by
  grind [State.postPoison, post_memOk]

theorem completeEntry_memOk {c : Copier} : (s.completeEntry c).1.MemOk := by
  grind [State.completeEntry, postPoison_memOk, updCopier_memOk, wordAction_memOk, fullAction_memOk, barAction_memOk,
    wakeCtx_memOk, Actions.MemOk]

theorem faultCopy_memOk {c : Copier} {cause addr : Nat} : (s.faultCopy c cause addr).MemOk := by
  grind [State.faultCopy, setCopier_memOk, postPoison_memOk, wakeCtx_memOk, post_memOk]

theorem cancelCopies_memOk {firing : Nat} : (s.cancelCopies firing).MemOk := h

theorem execCopyCancelDrain_memOk {engine : Nat} : Out.MemOk (execCopyCancelDrain engine s) := by
  grind [execCopyCancelDrain, wakeCtx_memOk, setCopier_memOk, Out.MemOk]

/-! ### Energy (R375 to R385) -/

theorem setAccount_memOk {ctx : Nat} {v : Int} {node : Nat} : (s.setAccount ctx v node).MemOk := by
  grind [State.setAccount, updContext_memOk, post_memOk]

theorem setReserveFrom_memOk {was : Bool} {v : Int} {node : Nat} : (s.setReserveFrom was v node).MemOk := by
  unfold State.setReserveFrom
  extract_lets v u event
  have hu : u.MemOk := h
  split
  · exact hu
  · exact foldl_memOk (fun _ _ h => post_memOk h ..) _ hu

theorem setReserve_memOk {v : Int} {node : Nat} : (s.setReserve v node).MemOk := setReserveFrom_memOk h

theorem credit_memOk {f : Firing} {v : Int} : (s.credit f v).MemOk := by
  grind [State.credit, setReserve_memOk, setAccount_memOk]

theorem trueUp_memOk {f : Firing} {w : Work} : (s.trueUp f w).MemOk := credit_memOk h

theorem execEnread_memOk {a d : BitVec 5} {r : BitVec 3} : Out.MemOk (execEnread a d r s) := by
  grind [execEnread, frontWord_memOk, trapOut_memOk, advance_memOk, setX_memOk, Out.MemOk]

theorem execEnest_memOk {a d : BitVec 5} {r : BitVec 3} : Out.MemOk (execEnest a d r s) := by
  grind [execEnest, frontWord_memOk, trapOut_memOk, advance_memOk, setX_memOk, setFiring_memOk, credit_memOk, Out.MemOk]

theorem meter_memOk {firing team raw : Nat} : (s.meter firing team raw).MemOk := by
  grind [State.meter, setFiring_memOk, State.memOk_iff]

theorem meterFiring_memOk {f : Firing} : (meterFiring f s).MemOk := by
  unfold meterFiring
  split
  · exact h
  · refine foldl_memOk (fun s w h => ?_) _ h
    exact memOk_of_eq (meter_memOk h) rfl rfl

theorem meterLeak_memOk {e : Nat × Nat × Nat} : (meterLeak s e).MemOk := meter_memOk h

theorem execMeterUpdate_memOk : Out.MemOk (execMeterUpdate s) := by
  unfold execMeterUpdate
  split
  · exact h
  · exact foldl_memOk (fun _ _ h => meterFiring_memOk h) _ (foldl_memOk (fun _ _ h => meterLeak_memOk h) _ h)

theorem rescale_memOk : s.rescale.MemOk := by
  unfold State.rescale
  split <;> exact h

theorem chargeFiring_memOk {f : Firing} : (chargeFiring f s).MemOk := by
  unfold chargeFiring
  split
  · exact h
  · refine foldl_memOk (fun s w h => ?_) _ h
    grind [credit_memOk, setFiring_memOk]

theorem execEnergyWindowBoundary_memOk : Out.MemOk (execEnergyWindowBoundary s) := by
  unfold execEnergyWindowBoundary
  split
  · exact h
  · refine foldl_memOk (fun _ _ h => chargeFiring_memOk h) _
      (foldl_memOk (fun _ _ h => setAccount_memOk h) _ (setReserveFrom_memOk ?_))
    exact memOk_of_eq (rescale_memOk h) rfl rfl

/-! ### The scratchpad (R151 to R163) -/

theorem spReading_memOk {w : Cmd} {runs : List (Nat × Nat)} {go : EngOut} (hgo : go.MemOk) : (spReading s w runs go).MemOk := by
  grind [spReading, EngOut.MemOk]

theorem setFull_memOk {cluster line n : Nat} {full : Bool} : (s.setFull cluster line n full).MemOk := h

theorem spfe_memOk {full : Bool} {a b : BitVec 5} : Out.MemOk (spfe full a b s) := by
  grind [spfe, trapOut_memOk, advance_memOk, setFull_memOk, Out.MemOk]

theorem unitVlds_memOk {b d : BitVec 5} {w : Cmd} : (unitVlds b d w s).MemOk := by
  grind [unitVlds, spReading_memOk, setV_memOk, EngOut.MemOk]

theorem unitVsts_memOk {b d : BitVec 5} {w : Cmd} : (unitVsts b d w s).MemOk := by
  unfold unitVsts
  dsimp only
  split
  · exact h
  · exact foldl_memOk (fun _ _ h => spWrite_memOk h ..) _ h

theorem unitTld_memOk {d : BitVec 5} {w : Cmd} : (unitTld d w s).MemOk := by
  grind [unitTld, spReading_memOk, upd_memOk, EngOut.MemOk]

theorem execTld_memOk {a d : BitVec 5} {r : BitVec 3} : Out.MemOk (execTld a d r s) := by
  grind [execTld, forwardWord_memOk, trapOut_memOk, enqueue_memOk, unitTld_memOk, EngOut.MemOk, Out.MemOk]

theorem unitTst_memOk {d : BitVec 5} {w : Cmd} : (unitTst d w s).MemOk :=
  foldl_memOk (fun _ _ h => setSpLine_memOk h) _ h

theorem execTst_memOk {a d : BitVec 5} {r : BitVec 3} : Out.MemOk (execTst a d r s) := by
  grind [execTst, forwardWord_memOk, trapOut_memOk, enqueue_memOk, unitTst_memOk, EngOut.MemOk, Out.MemOk]

theorem unitSprot_memOk {w : Cmd} : (unitSprot w s).MemOk := by
  have moved {α : Type} (l : List α) (off : α → Nat) (v : α → VReg) :
      (l.foldl (fun t q => t.setSpLine (off q) (v q)) s).MemOk := foldl_memOk (fun _ _ h => setSpLine_memOk h) l h
  have stepped {α : Type} (l : List α) (id : α → Nat) (f : α → Cell → Cell) {t : State} (ht : t.MemOk) :
      (l.foldl (fun t q => t.updCell (id q) (f q)) t).MemOk := foldl_memOk (fun _ _ h => updCell_memOk h ..) l ht
  unfold unitSprot
  split
  · exact h
  split
  · exact h
  split
  · exact h
  dsimp only
  split
  · exact h
  split
  · exact h
  split
  · exact stepped _ _ _ (moved _ _ _)
  · exact stepped _ _ _ (moved _ _ _)

theorem execSprot_memOk {a : BitVec 5} {r : BitVec 3} : Out.MemOk (execSprot a r s) := by
  grind [execSprot, forwardWord_memOk, trapOut_memOk, enqueue_memOk, unitSprot_memOk, EngOut.MemOk, Out.MemOk]

theorem zeroWindow_memOk {z : Zeroing} : (s.zeroWindow z).MemOk := ⟨h.1, wf_filter h.2 _⟩

theorem execWindowZeroing_memOk {cluster base : Nat} : Out.MemOk (execWindowZeroing cluster base s) := by
  grind [execWindowZeroing, zeroWindow_memOk, Out.MemOk]

/-! ### Matrix words (R173 to R193) -/

theorem unitProduct_memOk {sparse neg keep : Bool} {b a : BitVec 5} {x y : BitVec 1} {o : BitVec 4} {w : Cmd} :
    (unitProduct sparse neg keep b a x y o w s).MemOk := by
  grind [unitProduct, spReading_memOk, upd_memOk, EngOut.MemOk]

theorem issueProduct_memOk {i : Instr} {sparse neg keep : Bool} {b a : BitVec 5} {x y : BitVec 1} {o : BitVec 4}
    {r : BitVec 3} : Out.MemOk (issueProduct i sparse neg keep b a x y o r s) := by
  grind [issueProduct, forwardWord_memOk, trapOut_memOk, enqueue_memOk, unitProduct_memOk, EngOut.MemOk, Out.MemOk]

theorem unitAccz_memOk {n : BitVec 4} {w : Cmd} : (unitAccz n w s).MemOk := by
  unfold unitAccz
  split <;> exact h

theorem execAccz_memOk {n : BitVec 4} {r : BitVec 3} : Out.MemOk (execAccz n r s) := by
  grind [execAccz, forwardWord_memOk, trapOut_memOk, enqueue_memOk, unitAccz_memOk, EngOut.MemOk, Out.MemOk]

theorem unitScale_memOk {o : BitVec 4} {e : Nat → Int} {w : Cmd} : (unitScale o e w s).MemOk := by
  grind [unitScale, upd_memOk, EngOut.MemOk]

theorem issueSlot_memOk {i : Instr} {vs : List Nat} {regs : List (BitVec 5)} {op0 : Word} {o : BitVec 4} {r : BitVec 3}
    {unit : Cmd → State → EngOut} (hunit : ∀ x t, t.MemOk → (unit x t).MemOk) :
    Out.MemOk (issueSlot i vs regs op0 o r unit s) := by
  grind [issueSlot, forwardWord_memOk, trapOut_memOk, enqueue_memOk, EngOut.MemOk, Out.MemOk]

theorem nextRow_memOk {n : Nat} {w : Cmd} : (nextRow n w s).MemOk := by
  unfold nextRow
  split <;> exact h

theorem unitRead_memOk {col : Bool} {n : BitVec 2} {t d : BitVec 5} {o : BitVec 4} {w : Cmd} :
    (unitRead col n t d o w s).MemOk := by
  grind [unitRead, nextRow_memOk, setV_memOk, EngOut.MemOk]

theorem unitWrite_memOk {col : Bool} {n : BitVec 2} {t d : BitVec 5} {o : BitVec 4} {w : Cmd} :
    (unitWrite col n t d o w s).MemOk := by
  grind [unitWrite, nextRow_memOk, upd_memOk, EngOut.MemOk]

theorem epiStep_memOk {a : BitVec 5} {x : BitVec 1} {w : Cmd} {scale bias : VReg} {q : Nat} :
    (epiStep a x w scale bias s q).MemOk := by
  grind [epiStep, spWrite_memOk, upd_memOk]

theorem unitEpi_memOk {a : BitVec 5} {x : BitVec 1} {w : Cmd} : (unitEpi a x w s).MemOk := by
  grind [unitEpi, nextRow_memOk, epiStep_memOk, spReading_memOk, EngOut.MemOk]

theorem execEpi_memOk {b a : BitVec 5} {x : BitVec 1} {r : BitVec 3} : Out.MemOk (execEpi b a x r s) := by
  grind [execEpi, forwardWord_memOk, trapOut_memOk, enqueue_memOk, unitEpi_memOk, EngOut.MemOk, Out.MemOk]

theorem unitMqctlRm_memOk {w : Cmd} : (unitMqctlRm w s).MemOk := h

theorem execMqctlRm_memOk {sc : BitVec 5} {r : BitVec 3} : Out.MemOk (execMqctlRm sc r s) := by
  grind [execMqctlRm, forwardWord_memOk, trapOut_memOk, enqueue_memOk, unitMqctlRm_memOk, EngOut.MemOk, Out.MemOk]

theorem unitMqctlFtb_memOk {w : Cmd} : (unitMqctlFtb w s).MemOk := h

theorem execMqctlFtb_memOk {sc : BitVec 5} {r : BitVec 3} : Out.MemOk (execMqctlFtb sc r s) := by
  grind [execMqctlFtb, forwardWord_memOk, trapOut_memOk, enqueue_memOk, unitMqctlFtb_memOk, EngOut.MemOk, Out.MemOk]

end

end Sys2Proof.Machine

/-! # Proofs: Fast weights, queues and rill commands keep the memories canonical (O5) -/

namespace Sys2Proof.Machine

section
variable {s : State} (h : s.MemOk)
include h

/-! ### Fast weights (R197 to R219) -/

theorem updObject_memOk {hd : Word} {f : FwObject → FwObject} : (s.updObject hd f).MemOk := h
theorem newHandle_memOk {ctx : Nat} {snap : Bool} : (s.newHandle ctx snap).2.MemOk := h
theorem unref_memOk {id : Nat} : (s.unref id).MemOk := h
theorem addRef_memOk {id : Nat} : (s.addRef id).MemOk := h

theorem newBlocks_memOk {cl : Nat} {tiles : List (Tile × Bool)} : (State.newBlocks cl tiles s).2.MemOk := by
  induction tiles generalizing s with
  | nil => exact h
  | cons d rest ih => exact ih h

theorem startEvictions_memOk {cl n fuel : Nat} : (State.startEvictions cl n fuel s).MemOk := by
  induction fuel generalizing s with
  | zero => exact h
  | succ fuel ih => grind [State.startEvictions, updObject_memOk]

theorem finishEviction_memOk {o : FwObject} : (s.finishEviction o).MemOk :=
  updObject_memOk (foldl_memOk (fun _ _ h => unref_memOk h) _ h)

theorem finishEvictions_memOk {cl : Nat} : (s.finishEvictions cl).MemOk :=
  foldl_memOk (fun _ _ h => finishEviction_memOk h) _ h

theorem ensureBlocks_memOk {cl n : Nat} : (s.ensureBlocks cl n).1.MemOk := by
  grind [State.ensureBlocks, startEvictions_memOk, finishEvictions_memOk]

theorem execStateEviction_memOk {hd : Word} : Out.MemOk (execStateEviction hd s) := by
  grind [execStateEviction, finishEviction_memOk, Out.MemOk]

theorem fetchObject_memOk {o : FwObject} {chip cl : Nat} : (s.fetchObject o chip cl).MemOk := by
  unfold State.fetchObject
  split <;> exact h

theorem pageIn_memOk {o : Word} : (s.pageIn o).MemOk := by
  have unrefs (l : List Nat) {t : State} (ht : t.MemOk) : (l.foldl State.unref t).MemOk :=
    foldl_memOk (fun _ _ h => unref_memOk h) l ht
  grind [State.pageIn, fetchObject_memOk, ensureBlocks_memOk, newBlocks_memOk, updObject_memOk]

theorem pageAll_memOk : s.pageAll.MemOk := by
  unfold State.pageAll
  split
  · exact foldl_memOk (fun _ _ h => foldl_memOk (fun _ _ h => pageIn_memOk h) _ h) _ h
  · exact h

theorem askPage_memOk {hd : Word} {cl : Nat} : (s.askPage hd cl).MemOk := pageAll_memOk h
theorem grant_memOk {q : HoldReq} : (s.grant q).MemOk := h

theorem abandonCopy_memOk {o : FwObject} : (s.abandonCopy o).MemOk := by
  unfold State.abandonCopy
  split
  · exact h
  · exact updObject_memOk (foldl_memOk (fun _ _ h => unref_memOk h) _ h)

theorem dropHold_memOk {id : Option Nat} : (s.dropHold id).MemOk := by
  unfold State.dropHold
  split
  · exact h
  · exact pageAll_memOk (memOk_of_eq (foldl_memOk (fun _ _ h => abandonCopy_memOk h) _ h) rfl rfl)

omit h in
theorem refuse_memOk {w : Cmd} {t : Nat × Word × State} (ht : t.2.2.MemOk) : (refuse w t).MemOk := dropHold_memOk ht

theorem withHolds_memOk {w : Cmd} {sh ex : List Word} {check : Check} {go : Cmd → State → EngOut} (hcheck : check.MemOk)
    (hgo : ∀ x t, t.MemOk → (go x t).MemOk) : (withHolds w sh ex check s go).MemOk := by
  grind [withHolds, refuse_memOk, grant_memOk, dropHold_memOk, EngOut.MemOk, Check.MemOk, State.memOk_iff]

theorem endHolds_memOk {w : Cmd} : (endHolds w s).MemOk := dropHold_memOk h

omit h in
theorem checkHere_memOk {hs : List Word} : (checkHere hs).MemOk := by
  grind [checkHere, askPage_memOk, Check.MemOk]

omit h in
theorem andThen_memOk {a b : Check} (ha : a.MemOk) (hb : b.MemOk) : (a.andThen b).MemOk := by
  grind [Check.andThen, Check.MemOk]

omit h in
theorem checkHandle_memOk {hd : Word} {write : Bool} : (checkHandle hd write).MemOk := by
  grind [checkHandle, Check.MemOk, Option.map_eq_some_iff]

omit h in
theorem checkThat_memOk {ok : State → Bool} {cause : Nat} {v : Word} : (checkThat ok cause v).MemOk := by
  grind [checkThat, Check.MemOk]

theorem writeY_memOk {d : BitVec 256} {o : FwObject} {q : Nat} {y : List (List Lane)} : (writeY d o q y s).MemOk :=
  foldl_memOk (fun _ _ h => foldl_memOk (fun _ _ h => spWrite_memOk h ..) _ h) _ h

theorem writeBlock_memOk {hd : Word} {k : Nat} {t : Tile} : (s.writeBlock hd k t).MemOk := by
  grind [State.writeBlock, newBlocks_memOk, unref_memOk, updObject_memOk, State.memOk_iff]

omit h in
theorem updCheck_memOk {k : Upd} {hd chunk : Word} : (updCheck k hd chunk).MemOk := by
  grind [updCheck, andThen_memOk, checkHandle_memOk, checkThat_memOk, checkHere_memOk, Check.MemOk]

theorem updColumnStep_memOk {k : Upd} {w : Cmd} {o : FwObject} : (updColumnStep k w o s).MemOk := by
  have written (l : List (Nat × Tile)) {t : State} (ht : t.MemOk) :
      (l.foldl (fun s p => s.writeBlock w.op0 p.1 p.2) t).MemOk := foldl_memOk (fun _ _ h => writeBlock_memOk h) l ht
  unfold updColumnStep
  extract_lets hd d q ks
  split
  · exact h
  refine spReading_memOk h ?_
  grind [endHolds_memOk, ensureBlocks_memOk, writeY_memOk, updObject_memOk, EngOut.MemOk]

theorem updStep_memOk {k : Upd} {w : Cmd} : (updStep k w s).MemOk := by
  grind [updStep, endHolds_memOk, spReading_memOk, updColumnStep_memOk, EngOut.MemOk]

theorem updAgain_memOk {k : Upd} {w : Cmd} : (updAgain k w s).MemOk := by
  grind [updAgain, EngOut.MemOk]

theorem unitUpdate_memOk {k : Upd} {w : Cmd} : (unitUpdate k w s).MemOk := by
  grind [unitUpdate, endHolds_memOk, updAgain_memOk, withHolds_memOk, updCheck_memOk, updStep_memOk, EngOut.MemOk,
    Check.MemOk]

theorem issueUpdate_memOk {i : Instr} {k : Upd} {hd a b : BitVec 5} {r : BitVec 3} :
    Out.MemOk (issueUpdate i k hd a b r s) := by
  grind [issueUpdate, forwardWord_memOk, trapOut_memOk, enqueue_memOk, unitUpdate_memOk, EngOut.MemOk, Out.MemOk]

omit h in
theorem avgCheck_memOk {hd a b : Word} : (avgCheck hd a b).MemOk := by
  grind [avgCheck, andThen_memOk, checkHandle_memOk, checkThat_memOk, checkHere_memOk, Check.MemOk]

theorem avgStep_memOk {hd a b : Word} {w : Cmd} : (avgStep hd a b w s).MemOk := by
  grind [avgStep, ensureBlocks_memOk, writeBlock_memOk, endHolds_memOk, EngOut.MemOk]

theorem unitFwavg_memOk {w : Cmd} : (unitFwavg w s).MemOk := by
  grind [unitFwavg, endHolds_memOk, withHolds_memOk, avgCheck_memOk, avgStep_memOk, EngOut.MemOk, Check.MemOk]

theorem execFwavg_memOk {hd a b : BitVec 5} {r : BitVec 3} : Out.MemOk (execFwavg hd a b r s) := by
  grind [execFwavg, forwardWord_memOk, andThen_memOk, checkHandle_memOk, trapOut_memOk, enqueue_memOk, unitFwavg_memOk,
    EngOut.MemOk, Out.MemOk, Check.MemOk]

theorem share_memOk {o : FwObject} {snap : Bool} : (s.share o snap).2.MemOk := by
  have shared : (o.blocks.foldl State.addRef (s.newHandle o.ctx snap).2).MemOk :=
    foldl_memOk (fun _ _ h => addRef_memOk h) _ (newHandle_memOk h)
  exact memOk_of_eq shared rfl rfl

theorem unitShare_memOk {snap : Bool} {hd : BitVec 5} {w : Cmd} : (unitShare snap hd w s).MemOk := by
  grind [unitShare, endHolds_memOk, withHolds_memOk, andThen_memOk, checkHandle_memOk, checkHere_memOk, share_memOk,
    setX_memOk, EngOut.MemOk, Check.MemOk]

theorem issueState_memOk {i : Instr} {r : BitVec 3} {hd a b : BitVec 5} {check : State → Word → Word → Option (Nat × Word)}
    {unit : Cmd → State → EngOut} (hunit : ∀ x t, t.MemOk → (unit x t).MemOk) :
    Out.MemOk (issueState i r hd a b check unit s) := by
  grind [issueState, forwardWord_memOk, trapOut_memOk, enqueue_memOk, EngOut.MemOk, Out.MemOk]

omit h in
theorem checkRollback_memOk {hd a : Word} : (checkRollback hd a).MemOk := by
  grind [checkRollback, Check.MemOk, Option.map_eq_some_iff]

theorem unitFwsnapRollback_memOk {w : Cmd} : (unitFwsnapRollback w s).MemOk := by
  unfold unitFwsnapRollback
  dsimp only
  split
  · exact endHolds_memOk h
  · refine withHolds_memOk h (andThen_memOk (andThen_memOk checkRollback_memOk checkThat_memOk) checkHere_memOk) fun w s h => ?_
    split
    · exact endHolds_memOk (updObject_memOk (foldl_memOk (fun _ _ h => unref_memOk h) _
        (foldl_memOk (fun _ _ h => addRef_memOk h) _ h)))
    · exact endHolds_memOk h

theorem unitFwsnapFree_memOk {w : Cmd} : (unitFwsnapFree w s).MemOk := by
  unfold unitFwsnapFree
  dsimp only
  split
  · exact endHolds_memOk h
  · refine withHolds_memOk h checkHandle_memOk fun w s h => ?_
    split
    · exact endHolds_memOk h
    · refine endHolds_memOk ?_
      exact memOk_of_eq (foldl_memOk (fun _ _ h => unref_memOk h) _ h) rfl rfl

theorem create_memOk {ctx cl : Nat} {attr : Word} {nextUse next : BitVec 32} {given : List (Tile × Bool)} :
    (s.create ctx cl attr nextUse next given).2.MemOk := by
  grind [State.create, newHandle_memOk, newBlocks_memOk, State.memOk_iff]

theorem unitFwctlNew_memOk {hd : BitVec 5} {w : Cmd} : (unitFwctlNew hd w s).MemOk := by
  grind [unitFwctlNew, ensureBlocks_memOk, create_memOk, setX_memOk, EngOut.MemOk]

theorem onHandle_memOk {check : Check} {f : FwObject → FwObject} {w : Cmd} (hcheck : check.MemOk) :
    (onHandle check f w s).MemOk := by
  grind [onHandle, andThen_memOk, checkHandle_memOk, updObject_memOk, EngOut.MemOk, Check.MemOk]

theorem unitFwctlPin_memOk {w : Cmd} : (unitFwctlPin w s).MemOk := by
  grind [unitFwctlPin, onHandle_memOk, checkHere_memOk, EngOut.MemOk, Check.MemOk]

theorem unitFwctlUnpin_memOk {w : Cmd} : (unitFwctlUnpin w s).MemOk := by
  refine onHandle_memOk h fun _ _ _ hr => ?_
  exact nomatch hr

theorem unitFwctlQuery_memOk {hd : BitVec 5} {w : Cmd} : (unitFwctlQuery hd w s).MemOk := by
  unfold unitFwctlQuery
  split <;> exact h

theorem unitFwctlHint_memOk {w : Cmd} : (unitFwctlHint w s).MemOk := by
  grind [unitFwctlHint, onHandle_memOk, andThen_memOk, checkThat_memOk, EngOut.MemOk, Check.MemOk]

theorem unitFwctlWait_memOk {w : Cmd} : (unitFwctlWait w s).MemOk := by
  grind [unitFwctlWait, askPage_memOk, EngOut.MemOk]

theorem finishMigration_memOk {o : FwObject} {v : Word} : (s.finishMigration o v).MemOk := by
  have freed : (o.blocks.foldl State.unref s).MemOk := foldl_memOk (fun _ _ h => unref_memOk h) _ h
  grind [State.finishMigration, updObject_memOk, memOk_of_eq]

theorem copyBlock_memOk {o : FwObject} {v : Word} {k : Nat} : (s.copyBlock o v k).1.MemOk := by
  grind [State.copyBlock, updObject_memOk, ensureBlocks_memOk, newBlocks_memOk]

theorem migrate_memOk {w : Cmd} : (migrate w s).MemOk := by
  grind [migrate, endHolds_memOk, fetchObject_memOk, abandonCopy_memOk, copyBlock_memOk, finishMigration_memOk, EngOut.MemOk]

theorem unitFwmig_memOk {w : Cmd} : (unitFwmig w s).MemOk := by
  grind [unitFwmig, endHolds_memOk, withHolds_memOk, andThen_memOk, checkHandle_memOk, checkThat_memOk, migrate_memOk,
    EngOut.MemOk, Check.MemOk]

theorem execMigratedObjectArrival_memOk {handle : Word} {cluster : Nat} {attr : Word} {next nextUse : BitVec 32}
    {rows : List (BitVec 1024)} : Out.MemOk (execMigratedObjectArrival handle cluster attr next nextUse rows s) := by
  grind [execMigratedObjectArrival, ensureBlocks_memOk, newBlocks_memOk, Out.MemOk, State.memOk_iff]

/-! ### Queue control blocks -/

theorem setAcc_memOk {k : Nat} : (s.setAcc k).MemOk := homeWrite_memOk h ..

theorem qcbLevel_memOk {k : Nat} {go : Nat → State → QcbWalk} (hgo : ∀ x t, t.MemOk → (go x t).MemOk) :
    (s.qcbLevel k go).MemOk := by
  grind [State.qcbLevel, setAcc_memOk, QcbWalk.MemOk]

theorem qcbWalk_memOk {pasid queue : Nat} : (s.qcbWalk pasid queue).MemOk := by
  grind [State.qcbWalk, qcbLevel_memOk, QcbWalk.MemOk]

theorem setQcb_memOk {q o n v : Nat} : (s.setQcb q o n v).MemOk := homeWrite_memOk h ..
theorem putEntry_memOk {pasid q : Nat} {entry : List Byte} : (s.putEntry pasid q entry).MemOk := setQcb_memOk h

theorem complete_memOk {pasid queue q : Nat} {entry : List Byte} : (s.complete pasid queue q entry).MemOk := by
  grind [State.complete, putEntry_memOk, State.memOk_iff]

theorem postingQcb_memOk {p : Posting} : (s.postingQcb p).MemOk := by
  grind [State.postingQcb, qcbWalk_memOk, QcbWalk.MemOk]

theorem putPosting_memOk {p : Posting} : (s.putPosting p).1.MemOk := by
  grind [State.putPosting, postingQcb_memOk, putEntry_memOk, stall_memOk, QcbWalk.MemOk]

/-! ### Rill commands (R291 to R303) -/

theorem enterCompute_memOk {c : Channel} {m : ChanMode} : (s.enterCompute c m).MemOk := h

theorem settleChannel_memOk {c : Channel} : (s.settleChannel c).MemOk := by
  grind [State.settleChannel, setChannel_memOk, enterCompute_memOk]

theorem execModeEntryComplete_memOk {stack chan : Nat} : Out.MemOk (execModeEntryComplete stack chan s) := by
  grind [execModeEntryComplete, settleChannel_memOk, Out.MemOk]

theorem execModeExitComplete_memOk {stack chan : Nat} : Out.MemOk (execModeExitComplete stack chan s) := by
  grind [execModeExitComplete, settleChannel_memOk, Out.MemOk]

theorem nbFlag_memOk {x : RillCmd} {bits : Word} : (s.nbFlag x bits).MemOk := h

theorem flagCommands_memOk {c : Channel} {bits : Word} : (s.flagCommands c bits).MemOk :=
  foldl_memOk (fun _ _ h => nbFlag_memOk h) _ h

theorem discardQueue_memOk {c : Channel} : (s.discardQueue c).MemOk := flagCommands_memOk h
theorem releaseChannels_memOk {firing : Nat} : (s.releaseChannels firing).MemOk := h

theorem dropChannels_memOk {die : Nat} : (s.dropChannels die).MemOk := by
  refine foldl_memOk (fun s c h => ?_) _ h
  split
  · exact setChannel_memOk (flagCommands_memOk h)
  · exact h

theorem runRill_memOk {x : RillCmd} {b : Nat} {k : Bank} : (runRill x b k s).2.MemOk := by
  grind [runRill, nbFlag_memOk, homeWrite_memOk]

theorem runBank_memOk {p : Nat × Nat} {b : Nat} : (s.runBank p b).MemOk := by
  grind [State.runBank, runRill_memOk, setChannel_memOk]

theorem rillTurn_memOk {op stack chan bank : Nat} : Out.MemOk (rillTurn op stack chan bank s) := by
  grind [rillTurn, runBank_memOk, Out.MemOk]

theorem finishBegun_memOk {p : Nat × Nat} : (s.finishBegun p).MemOk := by
  refine foldl_memOk (fun s b h => ?_) _ (free_memOk h)
  split
  · exact runBank_memOk h
  · exact h

theorem execForcedExit_memOk {stack chan : Nat} : Out.MemOk (execForcedExit stack chan s) := by
  grind [execForcedExit, finishBegun_memOk, flagCommands_memOk, discardQueue_memOk, setChannel_memOk, Out.MemOk]

theorem execRillRefreshSlot_memOk {stack chan bank : Nat} : Out.MemOk (execRillRefreshSlot stack chan bank s) := by
  unfold execRillRefreshSlot
  split <;> exact h

theorem withChannel_memOk {va : Word} {acc : Access} {body : Word → Nat → State → Out}
    (hbody : ∀ x y t, t.MemOk → Out.MemOk (body x y t)) : Out.MemOk (withChannel va acc s body) := by
  grind [withChannel, translateHome_memOk, trap_memOk, Xlat.MemOk, Out.MemOk]

theorem nbmodeEnd_memOk {d : BitVec 5} {status : Nat} : Out.MemOk (nbmodeEnd d status s) := h

theorem nbmodeAt_memOk {m : ChanMode} {d : BitVec 5} {key : Nat} : Out.MemOk (nbmodeAt m d key s) := by
  grind [nbmodeAt, nbmodeEnd_memOk, upd_memOk, setChannel_memOk, settleChannel_memOk, Out.MemOk]

theorem execNbmode_memOk {b a d : BitVec 5} {r : BitVec 3} : Out.MemOk (execNbmode b a d r s) := by
  grind [execNbmode, frontWord_memOk, trapOut_memOk, withChannel_memOk, nbmodeEnd_memOk, nbmodeAt_memOk, Out.MemOk]

theorem nbcmdEnd_memOk {d : BitVec 5} {st : Nat} : Out.MemOk (nbcmdEnd d st s) := by
  unfold nbcmdEnd
  split <;> exact h

theorem nbcmdIssue_memOk {w va : Word} {key : Nat} {beats : Nat → BitVec 256} {d : BitVec 5} :
    Out.MemOk (nbcmdIssue w va key beats d s) := by
  unfold nbcmdIssue
  extract_lets ch off targets row cmd ch' t drain
  have ht : t.MemOk := setChannel_memOk h
  split
  · exact nbcmdEnd_memOk h
  · refine nbcmdEnd_memOk ?_
    split
    · exact foldl_memOk (fun _ _ h => foldl_memOk (fun _ _ h => runBank_memOk h) _ h) _ ht
    · exact ht

theorem nbcmdAt_memOk {w va : Word} {d : BitVec 5} {leaf : Word} {key : Nat} : Out.MemOk (nbcmdAt w va d leaf key s) := by
  grind [nbcmdAt, nbcmdEnd_memOk, nbcmdIssue_memOk, trapOut_memOk, Out.MemOk]

theorem execNbcmd_memOk {b a d : BitVec 5} {r : BitVec 3} : Out.MemOk (execNbcmd b a d r s) := by
  grind [execNbcmd, frontWord_memOk, trapOut_memOk, withChannel_memOk, nbcmdAt_memOk, Out.MemOk]

theorem execNbfence_memOk {d : BitVec 5} {r : BitVec 3} : Out.MemOk (execNbfence d r s) := by
  refine frontWord_memOk h fun s h => ?_
  dsimp only
  split
  · exact h
  split
  · exact stall_memOk h _
  · exact advance_memOk (setX_memOk (upd_memOk (foldl_memOk (fun _ _ h => writeBack_memOk h _) _ h) _) ..)

theorem joinBank_memOk {ch : Channel} {b : Nat} : (s.joinBank ch b).MemOk := by
  unfold State.joinBank
  dsimp only
  split
  · exact h
  split
  · exact foldl_memOk (fun _ _ h => runBank_memOk h) _ (setChannel_memOk h)
  · exact setChannel_memOk h

theorem unitNbrd_memOk {d : BitVec 5} {w : Cmd} : (unitNbrd d w s).MemOk := by
  grind [unitNbrd, translateHome_memOk, joinBank_memOk, setV_memOk, setChannel_memOk, EngOut.MemOk, Xlat.MemOk]

end

end Sys2Proof.Machine

/-! # Proofs: Graph engines and tiers keep the memories canonical (O5) -/

namespace Sys2Proof.Machine

section
variable {s : State} (h : s.MemOk)
include h

/-! ### Firings (R328 to R341) -/

theorem updGraph_memOk {id : Nat} {f : Graph → Graph} : (s.updGraph id f).MemOk := h

theorem reserveSlots_memOk {g : Graph} {i : Nat} {back : Bool} : (s.reserveSlots g i back).MemOk :=
  foldl_memOk (fun _ _ h => bumpEdge_memOk (bumpEdge_memOk h)) _ h

theorem removeTokens_memOk {g : Graph} {e : Nat} {ids : List Nat} : (s.removeTokens g e ids).MemOk :=
  updGraph_memOk (foldl_memOk (fun _ _ h => putToken_memOk h) _
    (setEdge_memOk (bumpEdge_memOk (bumpEdge_memOk (bumpEdge_memOk h)))))

theorem State.enqueue_memOk {g : Graph} {e : Nat} {t : Word × Word} : (s.enqueue g e t).MemOk := by
  grind [State.enqueue, putToken_memOk, bumpEdge_memOk, setEdge_memOk, updGraph_memOk]

theorem drainEdge_memOk {g : Graph} {e : Nat} : (s.drainEdge g e).MemOk := by
  grind [State.drainEdge, setEdge_memOk, bumpEdge_memOk, updGraph_memOk]

theorem passTokens_memOk {g : Graph} {i : Nat} {w : Work} : (s.passTokens g i w).MemOk :=
  foldl_memOk (fun _ _ h => bumpEdge_memOk (bumpEdge_memOk (foldl_memOk (fun _ _ h => State.enqueue_memOk h) _ h))) _
    (foldl_memOk (fun _ _ h => removeTokens_memOk h) _ h)

theorem holdState_memOk {g : Graph} {i base : Nat} : (s.holdState g i base).MemOk := by
  grind [State.holdState, setNodeState_memOk]

theorem settleDone_memOk {g : Graph} {n : Nat} : (s.settleDone g n).MemOk := by
  induction n generalizing s with
  | zero => exact h
  | succ n ih => grind [State.settleDone, setNodeState_memOk]

theorem settleGraph_memOk {g : Graph} : (s.settleGraph g).MemOk := setGraphState_memOk (settleDone_memOk h)

theorem loadSp_memOk {cl base size : Nat} {img : List Byte} : (loadSp cl base size img s).MemOk := by
  refine foldl_memOk (fun s b h => ?_) _ h
  split
  · exact ⟨h.1, writeByte_wf h.2 ..⟩
  · exact h

theorem startTeam_memOk {g : Graph} {fid cl : Nat} {cells : List Nat} {cur hi : Nat} :
    (s.startTeam g fid cl cells cur hi).MemOk := by
  unfold State.startTeam
  split
  · exact h
  · refine setFiring_memOk (foldl_memOk (fun _ _ h => setCell_memOk h _) _ ?_)
    split
    · exact h
    · exact loadSp_memOk (s := { s with runClock := s.runClock + 1 }) h

theorem dropContext_memOk {c : Cell} : (s.dropContext c).MemOk := foldl_memOk (fun _ _ h => dropHold_memOk h) _ h

theorem freeCells_memOk {fid : Nat} {cells : List Nat} : (s.freeCells fid cells).MemOk := by
  refine foldl_memOk (fun s id h => ?_) _ (memOk_of_eq (foldl_memOk (fun _ _ h => dropContext_memOk h) _ h) rfl rfl)
  have vacated := setCell_memOk (leaveWaits_memOk h (cell := id)) ((s.leaveWaits id).cell id).vacant
  grind [updCell_memOk]

theorem endFiring_memOk {fid : Nat} : (s.endFiring fid).MemOk := by
  grind [State.endFiring, freeCells_memOk, releaseChannels_memOk, cancelCopies_memOk, setFiring_memOk, State.memOk_iff]

theorem completeFiring_memOk {fid : Nat} : (s.completeFiring fid).MemOk := by
  unfold State.completeFiring
  split
  · exact h
  split
  · exact h
  next f _ _ g _ =>
    extract_lets i s1 s2 s3 s4 s5 s6 last need s7 s8 s9
    have h3 : s3.MemOk := foldl_memOk (fun _ _ h => trueUp_memOk h) _
      (foldl_memOk (fun _ _ h => freezeEdge_memOk h) _ (foldl_memOk (fun _ _ h => passTokens_memOk h) _ h))
    have h5 : s5.MemOk := by grind [setNode_memOk, recWrite_memOk, updContext_memOk]
    have h7 : s7.MemOk := by grind [setNode_memOk, updGraph_memOk]
    have h8 : s8.MemOk := endFiring_memOk h7
    exact settleGraph_memOk (holdState_memOk (s := s9) h8)

theorem disarm_memOk {g : Graph} {i ctx : Nat} : (s.disarm g i ctx).MemOk := h

theorem openFiring_memOk {g : Graph} {i ctx : Nat} {toks : List Peeked} : (s.openFiring g i ctx toks).1.MemOk := by
  grind [State.openFiring, setFiring_memOk, credit_memOk, reserveSlots_memOk, State.memOk_iff]

theorem postHost_memOk {g : Graph} {f : Firing} : (s.postHost g f).MemOk := h

theorem writePostings_memOk {l : List Posting} : (s.writePostings l).MemOk := by
  induction l generalizing s with
  | nil => exact h
  | cons p rest ih =>
    unfold State.writePostings
    extract_lets waits keep
    have kept (t : State) (ht : t.MemOk) : (keep t).MemOk := ht
    have waited : waits.MemOk := by
      unfold waits
      cases p.firing with
      | none => exact h
      | some fid => exact firingStall_memOk h
    split
    · exact ih (kept _ waited)
    · have posted := putPosting_memOk h (p := p)
      generalize s.putPosting p = r at posted ⊢
      obtain ⟨t, b⟩ := r
      cases b with
      | false => exact ih (kept _ posted)
      | true =>
        refine ih ?_
        cases p.firing with
        | none => exact posted
        | some fid => exact completeFiring_memOk posted

theorem writeCompletions_memOk : s.writeCompletions.MemOk := by
  grind [State.writeCompletions, writePostings_memOk, State.memOk_iff]

theorem createStates_memOk {g : Graph} {cl fuel : Nat} : (State.createStates g cl fuel s).1.MemOk := by
  induction fuel generalizing s with
  | zero => exact h
  | succ fuel ih =>
    unfold State.createStates
    extract_lets g'
    split
    · exact h
    extract_lets va
    split
    · exact ctxStall_memOk h
    generalize hr : s.ensureBlocks cl _ = r
    have room : r.1.MemOk := hr ▸ ensureBlocks_memOk h
    obtain ⟨t, b⟩ := r
    cases b with
    | false => exact room
    | true => exact ih (updGraph_memOk (ctxWrite_memOk (create_memOk room)))

theorem fire_memOk {g : Graph} {i ctx : Nat} {toks : List Peeked} {at' : Nat × List Nat} {die : Nat} :
    (s.fire g i ctx toks at' die).MemOk := by
  grind [State.fire, openFiring_memOk, disarm_memOk, setNodeState_memOk, updGraph_memOk, writeCompletions_memOk,
    postHost_memOk, startTeam_memOk, State.memOk_iff]

/-! ### Node decisions, faults and retries (R328 to R349) -/

theorem applyPolicy_memOk {g : Graph} {f : Firing} {outcome : Nat} {lost : Option Nat} :
    (s.applyPolicy g f outcome lost).MemOk := by
  unfold State.applyPolicy
  dsimp only
  split
  · exact holdState_memOk (setFiring_memOk h)
  · exact updGraph_memOk (setNodeState_memOk (setFiring_memOk h))
  · exact holdState_memOk (setFiring_memOk h)

theorem countFault_memOk {g : Graph} {i : Nat} : (s.countFault g i).MemOk := setNode_memOk h

theorem freezePeeked_memOk {g : Graph} {f : Firing} : (s.freezePeeked g f).MemOk :=
  setFiring_memOk (foldl_memOk (fun _ _ h => freezeEdge_memOk h) _ h)

theorem stopFiring_memOk {fid : Nat} : (s.stopFiring fid).MemOk := h

theorem faultFiring_memOk {fid source cause tval : Nat} {lost : Option Nat} : (s.faultFiring fid source cause tval lost).MemOk := by
  unfold State.faultFiring
  split
  · exact h
  split
  · exact h
  split
  · exact h
  extract_lets waits room s1 i s2 out s3 s4 s5
  have h1 : s1.MemOk := by
    unfold s1
    split
    · exact graphStall_memOk h
    · exact freezePeeked_memOk h
  split
  · split
    · exact h1
    · refine stopFiring_memOk ?_
      exact h1
  · have h2 : s2.MemOk := foldl_memOk (fun _ _ h => trueUp_memOk h) _ (countFault_memOk h1)
    have h3 : s3.MemOk := by
      unfold s3
      split
      · exact setNode_memOk h2
      · exact h2
    have h5 : s5.MemOk := endFiring_memOk (post_memOk h3 ..)
    split
    · exact h5
    · exact settleGraph_memOk (applyPolicy_memOk h5)

theorem execFiringFault_memOk : Out.MemOk (execFiringFault s) := by
  unfold execFiringFault
  split
  · refine faultFiring_memOk ?_
    exact h
  · exact foldl_memOk (fun _ _ h => faultFiring_memOk h) _ h

theorem reportStale_memOk {g : Graph} {f : Firing} : (s.reportStale g f).MemOk :=
  settleGraph_memOk (applyPolicy_memOk (post_memOk (countFault_memOk (foldl_memOk (fun _ _ h => freezeEdge_memOk h) _ h)) ..))

theorem staleFault_memOk {g : Graph} {i : Nat} {t : Peeked} : (s.staleFault g i t).MemOk := by
  grind [State.staleFault, reportStale_memOk, State.memOk_iff]

theorem execNodeArm_memOk {graph node ctx : Nat} : Out.MemOk (execNodeArm graph node ctx s) := by
  grind [execNodeArm, graphStall_memOk, staleFault_memOk, freezeEdge_memOk, updGraph_memOk, settleGraph_memOk,
    setNodeState_memOk, disarm_memOk, Out.MemOk, State.memOk_iff]

theorem armCopyNode_memOk {w : CopyWait} : (s.armCopyNode w).MemOk := by
  have dropped (ws : List CopyWait) : State.MemOk { s with copyWaits := ws } := h
  unfold State.armCopyNode
  split
  · dsimp only
    split
    · exact h
    split
    · exact ctxStall_memOk (graphStall_memOk h)
    split
    · exact faultFiring_memOk (dropped _)
    split
    · exact faultFiring_memOk (dropped _)
    · exact armEngine_memOk (dropped _)
  · exact h

theorem armCopyNodes_memOk : s.armCopyNodes.MemOk := foldl_memOk (fun _ _ h => armCopyNode_memOk h) _ h

theorem execCopyEntryComplete_memOk {engine : Nat} : Out.MemOk (execCopyEntryComplete engine s) := by
  grind [execCopyEntryComplete, firingStall_memOk, completeEntry_memOk, completeFiring_memOk, Out.MemOk]

theorem execCopyFault_memOk {engine : Nat} : Out.MemOk (execCopyFault engine s) := by
  grind [execCopyFault, faultCopy_memOk, faultFiring_memOk, Out.MemOk]

theorem reportLost_memOk {g : Graph} {i : Nat} : (s.reportLost g i).MemOk := by
  grind [State.reportLost, updGraph_memOk, post_memOk]

theorem tryFire_memOk {c : Candidate} {die : Nat} : (s.tryFire c die).1.MemOk := by
  grind [State.tryFire, reportStale_memOk, disarm_memOk, fire_memOk, reportLost_memOk, armCopyNodes_memOk, grantCopy_memOk,
    createStates_memOk]

theorem fireFirst_memOk {die : Nat} {l : List Candidate} : (State.fireFirst die l s).1.MemOk := by
  induction l generalizing s with
  | nil => exact h
  | cons c rest ih =>
    unfold State.fireFirst
    have fired := tryFire_memOk h (c := c) (die := die)
    generalize s.tryFire c die = r at fired ⊢
    obtain ⟨t, b⟩ := r
    cases b with
    | false => exact ih fired
    | true =>
      dsimp only
      split
      · exact settleGraph_memOk fired
      · exact fired

theorem setFloor_memOk {die n : Nat} : (s.setFloor die n).MemOk := h

theorem execFiringDecision_memOk {die : Nat} : Out.MemOk (execFiringDecision die s) :=
  setFloor_memOk (fireFirst_memOk (foldl_memOk (fun _ _ h => graphStall_memOk h) _ (writeCompletions_memOk h)))

theorem completeSet_memOk {f : Firing} {g : Graph} {t : TeamRun} : (s.completeSet f g t).MemOk := by
  grind [State.completeSet, trueUp_memOk, passTokens_memOk, settleGraph_memOk, setFiring_memOk]

theorem setReady_memOk {firing team : Nat} : (s.setReady firing team).MemOk := by
  grind [State.setReady, graphStall_memOk, setFiring_memOk, credit_memOk, reserveSlots_memOk]

theorem stageNext_memOk {d : BitVec 5} {f : Firing} {g : Graph} {t : TeamRun} : Out.MemOk (stageNext d f g t s) := by
  grind [stageNext, acquire_memOk, setFiring_memOk, advance_memOk, setX_memOk, stallRelease_memOk, release_memOk,
    completeSet_memOk, setReady_memOk, Out.MemOk]

theorem execRnext_memOk {d : BitVec 5} {r : BitVec 3} : Out.MemOk (execRnext d r s) := by
  grind [execRnext, frontWord_memOk, firingStall_memOk, advance_memOk, setX_memOk, setFiring_memOk, stageNext_memOk,
    Out.MemOk]

theorem execNtoken_memOk {b a : BitVec 5} {r : BitVec 3} : Out.MemOk (execNtoken b a r s) := by
  grind [execNtoken, frontWord_memOk, trapOut_memOk, firingStall_memOk, advance_memOk, setFiring_memOk, Out.MemOk]

theorem execNctx_memOk {a d : BitVec 5} {r : BitVec 3} : Out.MemOk (execNctx a d r s) := by
  grind [execNctx, frontWord_memOk, trapOut_memOk, firingStall_memOk, advance_memOk, setX_memOk, Out.MemOk]

theorem leaveWindow_memOk {f : Firing} {cl : Nat} : (s.leaveWindow f cl).MemOk := zeroWindow_memOk h

theorem joinStage_memOk {f : Firing} {t : TeamRun} {dest : Nat} : (s.joinStage f t dest).MemOk := by
  grind [State.joinStage, setFiring_memOk, freeCells_memOk, leaveWindow_memOk, startTeam_memOk]

theorem memberDone_memOk : s.memberDone.MemOk := by
  grind [State.memberDone, upd_memOk, setFiring_memOk, completeFiring_memOk, joinStage_memOk]

theorem execNdone_memOk {r : BitVec 3} : Out.MemOk (execNdone r s) := by
  grind [execNdone, frontWord_memOk, firingStall_memOk, stallRelease_memOk, memberDone_memOk, release_memOk, Out.MemOk]

theorem execNfail_memOk {a : BitVec 5} {r : BitVec 3} : Out.MemOk (execNfail a r s) := by
  grind [execNfail, frontWord_memOk, trapOut_memOk, faultNode_memOk, Out.MemOk]

theorem execRangeSplit_memOk {firing cluster : Nat} : Out.MemOk (execRangeSplit firing cluster s) := by
  grind [execRangeSplit, graphStall_memOk, startTeam_memOk, setFiring_memOk, Out.MemOk]

theorem execStageTeamMove_memOk {graph donor recipient team : Nat} :
    Out.MemOk (execStageTeamMove graph donor recipient team s) := by
  grind [execStageTeamMove, setFiring_memOk, graphStall_memOk, updGraph_memOk, Out.MemOk]

theorem returnSlots_memOk {g : Graph} {f : Firing} : (s.returnSlots g f).MemOk := by
  unfold State.returnSlots
  split
  · exact foldl_memOk (fun _ _ h => reserveSlots_memOk h) _ h
  split
  · exact reserveSlots_memOk h
  · exact h

theorem cancelFiring_memOk {g : Graph} {f : Firing} : (s.cancelFiring g f).MemOk := by
  unfold State.cancelFiring
  split
  · exact h
  extract_lets s1 src s2 s3
  have h1 : s1.MemOk := returnSlots_memOk h
  have h3 : s3.MemOk := by
    unfold s3
    split
    · exact endFiring_memOk (post_memOk (foldl_memOk (fun _ _ h => trueUp_memOk h) _ h1) ..)
    · exact h1
  split
  · exact h3
  · exact setFiring_memOk h3

theorem forgetEdge_memOk {g : Graph} {e : Nat} : (s.forgetEdge g e).MemOk := h

theorem cancelNode_memOk {g : Graph} {i : Nat} : (s.cancelNode g i).MemOk := by
  unfold State.cancelNode
  extract_lets o s1 s2 s3 s4
  have h3 : s3.MemOk := updGraph_memOk (foldl_memOk (fun _ _ h => cancelFiring_memOk h) _ (recWrite_memOk h))
  have h4 : s4.MemOk := by
    unfold s4
    split
    · exact h3
    · exact setNodeState_memOk h3
  exact foldl_memOk (fun _ _ h => forgetEdge_memOk (drainEdge_memOk (freezeEdge_memOk h))) _ h4

theorem execConeWalk_memOk {graph node : Nat} : Out.MemOk (execConeWalk graph node s) := by
  unfold execConeWalk
  split
  · exact h
  split
  · exact graphStall_memOk h
  · exact settleGraph_memOk (updGraph_memOk (foldl_memOk (fun _ _ h => cancelNode_memOk h) _ (setGraphState_memOk h)))

theorem rearm_memOk {f : Firing} : (s.rearm f).MemOk := by
  grind [State.rearm, holdState_memOk, setFiring_memOk, updGraph_memOk, settleGraph_memOk, State.memOk_iff]

theorem execRetryDelayExpiry_memOk {firing : Nat} : Out.MemOk (execRetryDelayExpiry firing s) := by
  grind [execRetryDelayExpiry, firingStall_memOk, rearm_memOk, Out.MemOk]

theorem ownerRetry_memOk {g : Graph} {i : Nat} : (s.ownerRetry g i).MemOk := by
  grind [State.ownerRetry, setFiring_memOk, settleGraph_memOk, holdState_memOk]

theorem ownerSkip_memOk {g : Graph} {i : Nat} : (s.ownerSkip g i).MemOk := by
  unfold State.ownerSkip
  split
  · exact h
  · refine settleGraph_memOk (holdState_memOk ?_)
    exact memOk_of_eq (returnSlots_memOk (foldl_memOk (fun _ _ h => removeTokens_memOk h) _ h)) rfl rfl

theorem ownerCancel_memOk {g : Graph} {i : Nat} : (s.ownerCancel g i).MemOk := by
  grind [State.ownerCancel, updGraph_memOk, setNodeState_memOk, settleGraph_memOk]

theorem ownerReset_memOk {g : Graph} {i : Nat} : (s.ownerReset g i).MemOk := by
  grind [State.ownerReset, updGraph_memOk, setNode_memOk, settleGraph_memOk, setNodeState_memOk, State.memOk_iff]

theorem ownerThaw_memOk {g : Graph} {e : Nat} : (s.ownerThaw g e).MemOk := settleGraph_memOk (freezeEdge_memOk h)

/-! ### Tiers and shootdowns (R231 to R236) -/

theorem execPageWalk_memOk {ctx die : Nat} {va : Word} {write : Bool} : Out.MemOk (execPageWalk ctx die va write s) := by
  grind [execPageWalk, walkFor_memOk, Xlat.MemOk, Out.MemOk]

theorem dropTlbs_memOk {d : Shootdown} : (s.dropTlbs d).MemOk := h
theorem prunePages_memOk : s.prunePages.MemOk := h
theorem wakeRange_memOk {d : Shootdown} : (s.wakeRange d).MemOk := foldl_memOk (fun _ _ h => dropWaits_memOk h) _ h

theorem execShootdown_memOk {ctx va : Nat} : Out.MemOk (execShootdown ctx va s) := by
  grind [execShootdown, prunePages_memOk, wakeRange_memOk, dropTlbs_memOk, Out.MemOk, State.memOk_iff]

theorem flushUnits_memOk {units : List Nat} {id : Nat} : (s.flushUnits units id).MemOk :=
  upd_memOk (foldl_memOk (fun _ _ h => writeBack_memOk h _) _ (focus_memOk h _)) _

theorem flushAll_memOk {units : List Nat} : (s.flushAll units).MemOk := by
  have flushed {l : List Nat} : (l.foldl (fun s id => s.flushUnits units id) s).MemOk :=
    foldl_memOk (fun _ _ h => flushUnits_memOk h) l h
  exact memOk_of_eq (focus_memOk flushed s.cpu.id) rfl rfl

theorem execShootdownAck_memOk {ctx va : Nat} : Out.MemOk (execShootdownAck ctx va s) := by
  unfold execShootdownAck
  split
  · exact h
  next d _ =>
    extract_lets moves t
    split
    · exact h
    · have flushed : t.MemOk := foldl_memOk (fun _ _ h => flushAll_memOk h) _ h
      exact dropTlbs_memOk flushed (d := d)

theorem startMove_memOk {p : PageLeaf} {frame : Nat × Bool} : (s.startMove p frame).MemOk := by
  grind [State.startMove, stall_memOk, homeWrite_memOk, State.memOk_iff]

theorem copyUnit_memOk {src dst : Nat} : (copyUnit s src dst).MemOk := by
  unfold copyUnit
  generalize readBytes s.mem src 4096 = bs
  exact ⟨writeBytes_wf h.1 dst bs, h.2⟩

theorem finishMove_memOk {m : Migration} : (s.finishMove m).MemOk := by
  unfold State.finishMove
  extract_lets il olds news s1 leaf s2
  split
  · exact stall_memOk h _
  · have h2 : s2.MemOk := homeWrite_memOk (foldl_memOk (fun _ _ h => copyUnit_memOk h) _ h) ..
    simpa only [State.memOk_iff] using h2

theorem execTierDemotion_memOk {stack : Nat} : Out.MemOk (execTierDemotion stack s) := by
  grind [execTierDemotion, finishMove_memOk, startMove_memOk, Out.MemOk, State.memOk_iff]

theorem execTierPromotion_memOk {ctx va : Nat} : Out.MemOk (execTierPromotion ctx va s) := by
  grind [execTierPromotion, finishMove_memOk, startMove_memOk, Out.MemOk]

theorem execPromotionWindowExpiry_memOk : Out.MemOk (execPromotionWindowExpiry s) := by
  unfold execPromotionWindowExpiry
  split <;> exact h

end

end Sys2Proof.Machine

/-! # Proofs: Packets, administration and engine units keep the memories canonical (O5) -/

namespace Sys2Proof.Machine

section
variable {s : State} (h : s.MemOk)
include h

/-! ### Packets (R386 to R401) -/

theorem updQueue_memOk {r : QueueRun} {f : QueueRun → QueueRun} : (s.updQueue r f).MemOk := h
theorem postEvent_memOk {pasid queue : Nat} : (s.postEvent pasid queue).MemOk := h

theorem State.arrive_memOk {a : Arrival} : (s.arrive a).1.MemOk := by
  unfold State.arrive
  have walked := qcbWalk_memOk h (pasid := a.pasid) (queue := a.queue)
  generalize s.qcbWalk a.pasid a.queue = w at walked ⊢
  cases w with
  | refused => exact h
  | absent k => exact h
  | held k => exact stall_memOk h k
  | ok q t =>
    dsimp only
    split
    · exact h
    split
    · exact ctxStall_memOk h
    · exact postEvent_memOk (setQcb_memOk (ctxLand_memOk walked))

theorem arriveAll_memOk {l : List Arrival} : (State.arriveAll l s).MemOk := by
  induction l generalizing s with
  | nil => exact h
  | cons a rest ih =>
    unfold State.arriveAll
    split
    · refine ih ?_
      exact h
    · have arrived := State.arrive_memOk h (a := a)
      generalize s.arrive a = r at arrived ⊢
      obtain ⟨t, b⟩ := r
      cases b with
      | false =>
        refine ih ?_
        exact arrived
      | true => exact ih arrived

theorem landWrite_memOk {w : RemoteWrite} : (s.landWrite w).1.MemOk := by
  grind [State.landWrite, ctxStall_memOk, ctxLand_memOk]

theorem landAll_memOk {l : List RemoteWrite} : (State.landAll l s).MemOk := by
  induction l generalizing s with
  | nil => exact h
  | cons w rest ih =>
    unfold State.landAll
    split
    · refine ih ?_
      exact h
    · have landed := landWrite_memOk h (w := w)
      generalize s.landWrite w = r at landed ⊢
      obtain ⟨t, b⟩ := r
      cases b with
      | false =>
        refine ih ?_
        exact landed
      | true => exact ih landed

theorem takeArrivals_memOk : s.takeArrivals.MemOk := by
  grind [State.takeArrivals, landAll_memOk, arriveAll_memOk, State.memOk_iff]

theorem execCommandMessage_memOk {pasid queue : Nat} {bytes : List Byte} :
    Out.MemOk (execCommandMessage pasid queue bytes s) := by
  grind [execCommandMessage, takeArrivals_memOk, Out.MemOk, State.memOk_iff]

theorem execRdmaWrite_memOk {pasid : Nat} {va : Word} {bytes : List Byte} : Out.MemOk (execRdmaWrite pasid va bytes s) := by
  grind [execRdmaWrite, takeArrivals_memOk, Out.MemOk, State.memOk_iff]

theorem execUnsupportedOperation_memOk {pasid : Nat} : Out.MemOk (execUnsupportedOperation pasid s) := by
  unfold execUnsupportedOperation
  split <;> exact h

theorem execPasidLevelRestore_memOk {key : Nat} : Out.MemOk (execPasidLevelRestore key s) := by
  grind [execPasidLevelRestore, stall_memOk, writeCompletions_memOk, takeArrivals_memOk, homeWrite_memOk, Out.MemOk]

theorem execFirmwareEventTake_memOk : Out.MemOk (execFirmwareEventTake s) := by
  grind [execFirmwareEventTake, stall_memOk, updQueue_memOk, setQcb_memOk, Out.MemOk, State.memOk_iff]

theorem headStall_memOk {r : QueueRun} : (s.headStall r).MemOk := by
  grind [State.headStall, ctxStall_memOk]

theorem ringNext_memOk {r : QueueRun} : (s.ringNext r).MemOk := by
  grind [State.ringNext, setQcb_memOk, updQueue_memOk]

theorem leaveBuffers_memOk {r : QueueRun} {l : List PacketSource} : (State.leaveBuffers r l s).MemOk := by
  induction l generalizing s with
  | nil => exact ringNext_memOk h
  | cons x rest ih =>
    unfold State.leaveBuffers
    split
    · exact updQueue_memOk h
    · refine ih ?_
      split
      · exact complete_memOk (setQcb_memOk h)
      · exact setQcb_memOk h

theorem packetDone_memOk {r : QueueRun} {p : Packet} {notify : Bool} : (s.packetDone r p notify).MemOk := by
  grind [State.packetDone, setQcb_memOk, complete_memOk, updQueue_memOk, leaveBuffers_memOk]

theorem packetError_memOk {r : QueueRun} {p : Packet} {code : Nat} : (s.packetError r p code).MemOk := by
  grind [State.packetError, complete_memOk, setQcb_memOk, updQueue_memOk]

theorem dispatchType_memOk {pasid queue typ : Nat} {act : QueueRun → Packet → Did} (hact : ∀ x y, (act x y).MemOk) :
    (s.dispatchType pasid queue typ act).MemOk := by
  grind [State.dispatchType, stall_memOk, headStall_memOk, packetDone_memOk, packetError_memOk, Did.MemOk]

theorem rejectPacket_memOk {pasid queue : Nat} : (s.rejectPacket pasid queue).MemOk := by
  grind [State.rejectPacket, stall_memOk, headStall_memOk, packetError_memOk]

theorem restoreRecord_memOk {ctx : Nat} {va : Word} {template : Rec} : (s.restoreRecord ctx va template).MemOk :=
  foldl_memOk (fun _ _ h => ctxWrite_memOk h) _ h

theorem resetRecord_memOk {ctx : Nat} {va : Word} : (s.resetRecord ctx va).MemOk :=
  foldl_memOk (fun _ _ h => ctxWrite_memOk h) _ (foldl_memOk (fun _ _ h => ctxWrite_memOk h) _ h)

theorem forgetGraph_memOk {ctx : Nat} {va : Word} : (s.forgetGraph ctx va).MemOk := h

theorem launch_memOk {g : Graph} : (s.launch g).MemOk := by
  grind [State.launch, forgetGraph_memOk, recWrite_memOk, settleGraph_memOk, updGraph_memOk, State.memOk_iff]

theorem addLaunch_memOk {r : QueueRun} {id : Nat} : (s.addLaunch r id).MemOk := h
theorem setSlot_memOk {x : Slot} : (s.setSlot x).MemOk := h

theorem doInvoke_memOk {r : QueueRun} {p : Packet} : (s.doInvoke r p).MemOk := by
  have stalled (l : List Word) : (l.foldl (fun s' a => s'.ctxStall (s.qcbCtx r.qcb) a 1) s).MemOk :=
    foldl_memOk (fun _ _ h => ctxStall_memOk h) l h
  grind [State.doInvoke, ctxStall_memOk, restoreRecord_memOk, launch_memOk, setSlot_memOk, addLaunch_memOk, Did.MemOk]

theorem execInvoke_memOk {pasid queue : Nat} : Out.MemOk (execInvoke pasid queue s) := by
  grind [execInvoke, dispatchType_memOk, doInvoke_memOk, Did.MemOk, Out.MemOk]

theorem recordStall_memOk {ctx : Nat} {va : Word} : (s.recordStall ctx va).MemOk := by
  grind [State.recordStall, ctxStall_memOk]

theorem doGraph_memOk {r : QueueRun} {p : Packet} : (s.doGraph r p).MemOk := by
  unfold State.doGraph
  dsimp only
  split
  · trivial
  split
  · exact recordStall_memOk h
  split
  · trivial
  · exact addLaunch_memOk (launch_memOk (resetRecord_memOk h))

theorem execGraph_memOk {pasid queue : Nat} : Out.MemOk (execGraph pasid queue s) := by
  grind [execGraph, dispatchType_memOk, doGraph_memOk, Did.MemOk, Out.MemOk]

theorem doIb_memOk {r : QueueRun} {p : Packet} : (s.doIb r p).MemOk := by
  grind [State.doIb, leaveBuffers_memOk, Did.MemOk]

theorem execIb_memOk {pasid queue : Nat} : Out.MemOk (execIb pasid queue s) := by
  grind [execIb, dispatchType_memOk, doIb_memOk, Did.MemOk, Out.MemOk]

theorem doFence_memOk {r : QueueRun} {p : Packet} : (s.doFence r p).MemOk := by
  grind [State.doFence, packetDone_memOk, updQueue_memOk, setQcb_memOk, Did.MemOk]

theorem execFencePacket_memOk {pasid queue : Nat} : Out.MemOk (execFencePacket pasid queue s) := by
  grind [execFencePacket, dispatchType_memOk, doFence_memOk, Did.MemOk, Out.MemOk]

theorem execFencePacketDone_memOk {pasid queue : Nat} : Out.MemOk (execFencePacketDone pasid queue s) := by
  grind [execFencePacketDone, stall_memOk, headStall_memOk, updQueue_memOk, setQcb_memOk, postEvent_memOk, packetDone_memOk,
    Out.MemOk]

theorem doSignal_memOk {r : QueueRun} {p : Packet} : (s.doSignal r p).MemOk := h

theorem execSignal_memOk {pasid queue : Nat} : Out.MemOk (execSignal pasid queue s) := by
  grind [execSignal, dispatchType_memOk, doSignal_memOk, Did.MemOk, Out.MemOk]

theorem pinAll_memOk {keys : List Nat} {on : Bool} : (s.pinAll keys on).MemOk :=
  prunePages_memOk (foldl_memOk (fun _ _ h => homeWrite_memOk h ..) _ h)

theorem doSlotLoad_memOk {r : QueueRun} {p : Packet} : (s.doSlotLoad r p).MemOk := by
  unfold State.doSlotLoad
  extract_lets ctx n addr len
  split
  · trivial
  split
  · exact ctxStall_memOk h
  split
  · trivial
  split
  · trivial
  split
  · exact foldl_memOk (fun _ _ h => ctxStall_memOk h) _ h
  split
  · trivial
  extract_lets keys s1 s2
  split
  · exact stall_memOk h _
  · have h2 : s2.MemOk := foldl_memOk (fun _ _ h => ctxLand_memOk h) _ (pinAll_memOk h)
    exact h2

theorem execSlotLoad_memOk {pasid queue : Nat} : Out.MemOk (execSlotLoad pasid queue s) := by
  grind [execSlotLoad, dispatchType_memOk, doSlotLoad_memOk, Did.MemOk, Out.MemOk]

theorem doSlotEvict_memOk {r : QueueRun} {p : Packet} : (s.doSlotEvict r p).MemOk := by
  grind [State.doSlotEvict, updQueue_memOk, setSlot_memOk, stall_memOk, pinAll_memOk, Did.MemOk, State.memOk_iff]

theorem execSlotEvict_memOk {pasid queue : Nat} : Out.MemOk (execSlotEvict pasid queue s) := by
  grind [execSlotEvict, dispatchType_memOk, doSlotEvict_memOk, Did.MemOk, Out.MemOk]

/-! ### Administrative packets (R393 to R397) -/

theorem addContext_memOk {c : Context} {flags : Nat} : (s.addContext c flags).MemOk := by
  grind [State.addContext, homeWrite_memOk, State.memOk_iff]

theorem createContext_memOk {record : List Byte} : SomeMemOk (s.createContext record) := by
  grind [State.createContext, addContext_memOk, SomeMemOk]

theorem enableQueue_memOk {pasid queue : Nat} {qcb : List Byte} : SomeMemOk (s.enableQueue pasid queue qcb) := by
  grind [State.enableQueue, homeWrite_memOk, SomeMemOk, State.memOk_iff]

theorem disableQueue_memOk {r : QueueRun} : (s.disableQueue r).MemOk := setQcb_memOk (homeWrite_memOk h ..)

theorem dispatchAdmin_memOk {pasid queue op form : Nat} {act : QueueRun → Packet → Did} (hact : ∀ x y, (act x y).MemOk) :
    (s.dispatchAdmin pasid queue op form act).MemOk := by
  grind [State.dispatchAdmin, dispatchType_memOk, Did.MemOk]

omit h in
theorem didOr_memOk {o : Option State} (ho : SomeMemOk o) : (didOr o).MemOk := by
  cases o with
  | none => trivial
  | some t => exact ho

theorem begun_memOk {r : QueueRun} : (s.begun r).MemOk := h

theorem withKeys_memOk {keys : List Nat} {act : Did} (hact : act.MemOk) : (s.withKeys keys act).MemOk := by
  grind [State.withKeys, stall_memOk, Did.MemOk]

theorem doCreateContext_memOk {r : QueueRun} {p : Packet} : (s.doCreateContext r p).MemOk := by
  grind [State.doCreateContext, withKeys_memOk, didOr_memOk, createContext_memOk, Did.MemOk, SomeMemOk]

theorem execAdminCreateContext_memOk {pasid queue : Nat} : Out.MemOk (execAdminCreateContext pasid queue s) := by
  grind [execAdminCreateContext, dispatchAdmin_memOk, doCreateContext_memOk, Did.MemOk, Out.MemOk]

theorem cancelGraph_memOk {g : Graph} : (s.cancelGraph g).MemOk := setGraphState_memOk (updGraph_memOk h)

theorem removeContext_memOk {ctx : Nat} : (s.removeContext ctx).MemOk := by
  have freed {l : List Nat} : (l.foldl State.unref s).MemOk := foldl_memOk (fun _ _ h => unref_memOk h) l h
  exact memOk_of_eq freed rfl rfl

theorem doDestroyContext_memOk {r : QueueRun} {p : Packet} : (s.doDestroyContext r p).MemOk := by
  unfold State.doDestroyContext
  dsimp only
  split
  · trivial
  split
  · exact foldl_memOk (fun _ _ h => graphStall_memOk h) _ h
  split
  · refine begun_memOk (foldl_memOk (fun s g h => ?_) _ h)
    split
    · exact h
    · exact cancelGraph_memOk h
  split
  · exact h
  · exact removeContext_memOk h

theorem execAdminDestroyContext_memOk {pasid queue : Nat} : Out.MemOk (execAdminDestroyContext pasid queue s) := by
  grind [execAdminDestroyContext, dispatchAdmin_memOk, doDestroyContext_memOk, Did.MemOk, Out.MemOk]

theorem doQueueEnable_memOk {r : QueueRun} {p : Packet} : (s.doQueueEnable r p).MemOk := by
  grind [State.doQueueEnable, withKeys_memOk, didOr_memOk, enableQueue_memOk, Did.MemOk, SomeMemOk]

theorem execAdminQueueEnable_memOk {pasid queue : Nat} : Out.MemOk (execAdminQueueEnable pasid queue s) := by
  grind [execAdminQueueEnable, writeCompletions_memOk, dispatchAdmin_memOk, doQueueEnable_memOk, Did.MemOk, Out.MemOk]

theorem doQueueResume_memOk {r : QueueRun} {p : Packet} : (s.doQueueResume r p).MemOk := by
  grind [State.doQueueResume, stall_memOk, setQcb_memOk, postEvent_memOk, Did.MemOk]

theorem execAdminQueueResume_memOk {pasid queue : Nat} : Out.MemOk (execAdminQueueResume pasid queue s) := by
  grind [execAdminQueueResume, dispatchAdmin_memOk, doQueueResume_memOk, Did.MemOk, Out.MemOk]

theorem doQueueDisable_memOk {r : QueueRun} {p : Packet} : (s.doQueueDisable r p).MemOk := by
  grind [State.doQueueDisable, withKeys_memOk, disableQueue_memOk, packetDone_memOk, begun_memOk, updQueue_memOk, Did.MemOk]

theorem execAdminQueueDisable_memOk {pasid queue : Nat} : Out.MemOk (execAdminQueueDisable pasid queue s) := by
  grind [execAdminQueueDisable, dispatchAdmin_memOk, doQueueDisable_memOk, Did.MemOk, Out.MemOk]

theorem doShootdown_memOk {r : QueueRun} {p : Packet} : (s.doShootdown r p).MemOk := by
  grind [State.doShootdown, begun_memOk, Did.MemOk, State.memOk_iff]

theorem execAdminShootdown_memOk {pasid queue : Nat} : Out.MemOk (execAdminShootdown pasid queue s) := by
  grind [execAdminShootdown, dispatchAdmin_memOk, doShootdown_memOk, Did.MemOk, Out.MemOk]

theorem onGraph_memOk {p : Packet} {limit : Graph → Nat} {act : Graph → Nat → State} (hact : ∀ x y, (act x y).MemOk) :
    (s.onGraph p limit act).MemOk := by
  grind [State.onGraph, graphStall_memOk, Did.MemOk]

theorem execAdminGraphRetry_memOk {pasid queue : Nat} : Out.MemOk (execAdminGraphRetry pasid queue s) := by
  grind [execAdminGraphRetry, dispatchAdmin_memOk, onGraph_memOk, ownerRetry_memOk, Did.MemOk, Out.MemOk]

theorem execAdminGraphSkip_memOk {pasid queue : Nat} : Out.MemOk (execAdminGraphSkip pasid queue s) := by
  grind [execAdminGraphSkip, dispatchAdmin_memOk, onGraph_memOk, ownerSkip_memOk, Did.MemOk, Out.MemOk]

theorem execAdminGraphCancel_memOk {pasid queue : Nat} : Out.MemOk (execAdminGraphCancel pasid queue s) := by
  grind [execAdminGraphCancel, dispatchAdmin_memOk, onGraph_memOk, ownerCancel_memOk, Did.MemOk, Out.MemOk]

theorem execAdminGraphReset_memOk {pasid queue : Nat} : Out.MemOk (execAdminGraphReset pasid queue s) := by
  grind [execAdminGraphReset, dispatchAdmin_memOk, onGraph_memOk, ownerReset_memOk, Did.MemOk, Out.MemOk]

theorem execAdminGraphThaw_memOk {pasid queue : Nat} : Out.MemOk (execAdminGraphThaw pasid queue s) := by
  grind [execAdminGraphThaw, dispatchAdmin_memOk, onGraph_memOk, ownerThaw_memOk, Did.MemOk, Out.MemOk]

theorem doSetPeer_memOk {r : QueueRun} {p : Packet} : (s.doSetPeer r p).MemOk := by
  grind [State.doSetPeer, Did.MemOk, State.memOk_iff]

theorem execAdminSetPeer_memOk {pasid queue : Nat} : Out.MemOk (execAdminSetPeer pasid queue s) := by
  grind [execAdminSetPeer, dispatchAdmin_memOk, doSetPeer_memOk, Did.MemOk, Out.MemOk]

theorem doSetClass0Cells_memOk {r : QueueRun} {p : Packet} : (s.doSetClass0Cells r p).MemOk := by
  grind [State.doSetClass0Cells, Did.MemOk, State.memOk_iff]

theorem execAdminSetClass0Cells_memOk {pasid queue : Nat} : Out.MemOk (execAdminSetClass0Cells pasid queue s) := by
  grind [execAdminSetClass0Cells, dispatchAdmin_memOk, doSetClass0Cells_memOk, Did.MemOk, Out.MemOk]

theorem doSetEnergyReserve_memOk {r : QueueRun} {p : Packet} : (s.doSetEnergyReserve r p).MemOk := by
  grind [State.doSetEnergyReserve, Did.MemOk, State.memOk_iff]

theorem execAdminSetEnergyReserve_memOk {pasid queue : Nat} : Out.MemOk (execAdminSetEnergyReserve pasid queue s) := by
  grind [execAdminSetEnergyReserve, dispatchAdmin_memOk, doSetEnergyReserve_memOk, Did.MemOk, Out.MemOk]

theorem doSetTierParams_memOk {r : QueueRun} {p : Packet} : (s.doSetTierParams r p).MemOk := by
  grind [State.doSetTierParams, Did.MemOk, State.memOk_iff]

theorem execAdminSetTierParams_memOk {pasid queue : Nat} : Out.MemOk (execAdminSetTierParams pasid queue s) := by
  grind [execAdminSetTierParams, dispatchAdmin_memOk, doSetTierParams_memOk, Did.MemOk, Out.MemOk]

theorem rejectAdmin_memOk {pasid queue : Nat} : (s.rejectAdmin pasid queue).MemOk := by
  refine dispatchType_memOk h fun _ p => ?_
  split
  · exact h
  · trivial

theorem packetMeanings_memOk {pasid queue : Nat} : (packetMeanings pasid queue).Forall (fun f => Out.MemOk (f s)) :=
  ⟨execInvoke_memOk h, execGraph_memOk h, execIb_memOk h, execFencePacket_memOk h, execSignal_memOk h, execSlotLoad_memOk h,
    execSlotEvict_memOk h, execAdminCreateContext_memOk h, execAdminDestroyContext_memOk h, execAdminQueueEnable_memOk h,
    execAdminQueueResume_memOk h, execAdminQueueDisable_memOk h, execAdminShootdown_memOk h, execAdminGraphRetry_memOk h,
    execAdminGraphSkip_memOk h, execAdminGraphCancel_memOk h, execAdminGraphReset_memOk h, execAdminGraphThaw_memOk h,
    execAdminSetPeer_memOk h, execAdminSetClass0Cells_memOk h, execAdminSetEnergyReserve_memOk h, execAdminSetTierParams_memOk h⟩

theorem dispatch_memOk {pasid queue : Nat} : Out.MemOk (s.dispatch pasid queue) := by
  unfold State.dispatch
  split
  · exact h
  split
  next f hf =>
    obtain ⟨i, -, hi⟩ := Option.bind_eq_some_iff.mp hf
    exact List.forall_iff_forall_mem.mp (packetMeanings_memOk h) f (List.mem_of_getElem? hi)
  · exact rejectAdmin_memOk (rejectPacket_memOk h)

/-! ### Vector words (R134 to R150) -/

theorem narrowLanes_memOk {m : BitVec 1} {a t : BitVec 5} {aux : Word} : (narrowLanes m a t aux s).MemOk := by
  unfold narrowLanes
  split <;> exact h

theorem widenLanes_memOk {m : BitVec 1} {a t : BitVec 5} {aux : Word} : (widenLanes m a t aux s).MemOk := by
  unfold widenLanes
  split <;> exact h

/-! ### Turns of the engines -/

theorem engEffect_memOk {w : Cmd} : (engEffect w s).MemOk := by
  unfold engEffect
  cases w.instr with
  | vcvtn => exact narrowLanes_memOk h
  | vcvtw => exact widenLanes_memOk h
  | vldm => exact unitVldm_memOk h
  | vstm => exact unitVstm_memOk h
  | vldx => exact unitVldx_memOk h
  | vstx => exact unitVstx_memOk h
  | vlds => exact unitVlds_memOk h
  | vsts => exact unitVsts_memOk h
  | sprot => exact unitSprot_memOk h
  | tld => exact unitTld_memOk h
  | tst => exact unitTst_memOk h
  | redaF32add | redaBf16add | redaI32add | redaF32max | redaF32min | redaI32max | redaI32min => exact sendReduction_memOk h
  | nbrd => exact unitNbrd_memOk h
  | mma | mmaAcc | mmaNeg | mmas | mmasAcc | mmasNeg => exact unitProduct_memOk h
  | accz => exact unitAccz_memOk h
  | accscl | accsclX => exact unitScale_memOk h
  | accrd | accrdCol => exact unitRead_memOk h
  | accwr | accwrCol => exact unitWrite_memOk h
  | epi => exact unitEpi_memOk h
  | opu | fwfwd | fwupdD | fwupdH | fwupdE | fwfuD | fwfuDl | fwfuH | fwfuHl | fwfuE => exact unitUpdate_memOk h
  | fwsnapSnap | fwsnapFork => exact unitShare_memOk h
  | fwsnapRollback => exact unitFwsnapRollback_memOk h
  | fwsnapFree => exact unitFwsnapFree_memOk h
  | fwavg => exact unitFwavg_memOk h
  | fwmig => exact unitFwmig_memOk h
  | fwctlPin => exact unitFwctlPin_memOk h
  | fwctlUnpin => exact unitFwctlUnpin_memOk h
  | fwctlQuery => exact unitFwctlQuery_memOk h
  | fwctlHint => exact unitFwctlHint_memOk h
  | fwctlWait => exact unitFwctlWait_memOk h
  | fwctlNew => exact unitFwctlNew_memOk h
  | _ => exact h

theorem engUnit_memOk {w : Cmd} : (engUnit w s).MemOk := by
  grind [engUnit, endHolds_memOk, engEffect_memOk, EngOut.MemOk]

theorem unitAt_memOk {i : Nat} : (s.unitAt i).MemOk := by
  grind [State.unitAt, runUnit_memOk, engUnit_memOk, EngOut.MemOk]

theorem engineTurn_memOk {q : Queue} : (s.engineTurn q).MemOk := by
  grind [State.engineTurn, unitAt_memOk]

theorem epilogueTurn_memOk : s.epilogueTurn.MemOk := by
  grind [State.epilogueTurn, unitAt_memOk]

theorem settleFrom_memOk {fuel i : Nat} : (State.settleFrom fuel i s).MemOk := by
  induction fuel generalizing s i with
  | zero => exact h
  | succ fuel ih =>
    have driven : (s.drive engUnit i unitFuel).MemOk := drive_memOk h fun _ _ h => engUnit_memOk h
    grind [State.settleFrom]

theorem settle_memOk : s.settle.MemOk := by
  grind [State.settle, settleFrom_memOk]

theorem execEmptyLineReadServe_memOk {queue : BitVec 3} : Out.MemOk (execEmptyLineReadServe queue s) := by
  grind [execEmptyLineReadServe, epilogueTurn_memOk, engineTurn_memOk, Out.MemOk]

theorem reinject_memOk {l : List Cmd} : (reinject l s).1.MemOk := by
  induction l generalizing s with
  | nil => exact h
  | cons d rest ih => grind [reinject, upd_memOk]

end

end Sys2Proof.Machine

/-! # Proofs: Links, management, probes and rings keep the memories canonical (O5) -/

namespace Sys2Proof.Machine

section
variable {s : State} (h : s.MemOk)
include h

/-! ### Links (R404 to R414) -/

theorem tableChange_memOk {event unit status extra number : Nat} {monitor : Bool} :
    (s.tableChange event unit status extra number monitor).MemOk := by
  refine foldl_memOk (fun s ctx h => ?_) _ h
  split
  · exact postOrDrop_memOk h ..
  · exact post_memOk h ..

theorem noteBounds_memOk {was : Bool} {die : Nat} : (s.noteBounds was die).MemOk := by
  unfold State.noteBounds
  split
  · exact h
  · exact foldl_memOk (fun _ _ h => post_memOk h ..) _ h

theorem faultDieCopies_memOk {die : Nat} : (s.faultDieCopies die).MemOk := by
  refine foldl_memOk (fun s c h => ?_) _ h
  extract_lets s1 c' s2
  have h1 : s1.MemOk := foldl_memOk (fun _ _ h => postPoison_memOk h) _ h
  have h2 : s2.MemOk := faultCopy_memOk h1
  split
  · exact faultFiring_memOk h2
  · exact h2

theorem faultDieFirings_memOk {die : Nat} : (s.faultDieFirings die).MemOk := by
  refine foldl_memOk (fun s f h => ?_) _ h
  split
  · split
    · exact faultFiring_memOk h
    · exact h
  · exact h

theorem takeOffline_memOk {die : Nat} : (s.takeOffline die).MemOk := by
  grind [State.takeOffline, tableChange_memOk, dropChannels_memOk, faultDieCopies_memOk, faultDieFirings_memOk,
    State.memOk_iff]

theorem bringLive_memOk {die : Nat} : (s.bringLive die).MemOk :=
  foldl_memOk (fun _ _ h => rearm_memOk h) _ (tableChange_memOk (s := { s with offline := eraseNat die s.offline }) h)

theorem changeLink_memOk {i : Nat} {f : Link → Link} {monitor : Bool} : (s.changeLink i f monitor).MemOk := by
  unfold State.changeLink
  split
  · exact h
  extract_lets was m s1 s2 ends s3
  have h1 : s1.MemOk := h
  have h2 : s2.MemOk := tableChange_memOk h1
  have h3 : s3.MemOk := by
    unfold s3
    split
    · exact h2
    split
    · exact foldl_memOk (fun _ _ h => bringLive_memOk h) _ h2
    · exact foldl_memOk (fun _ _ h => takeOffline_memOk h) _ h2
  exact noteBounds_memOk h3

theorem onLink_memOk {i state : Nat} {act : Link → State} (hact : ∀ x, (act x).MemOk) : Out.MemOk (onLink i state s act) := by
  grind [onLink, Out.MemOk]

theorem execFlitCrcRetry_memOk {link : Nat} : Out.MemOk (execFlitCrcRetry link s) := by
  grind [execFlitCrcRetry, onLink_memOk, changeLink_memOk, Out.MemOk, State.memOk_iff]

theorem quiesceLink_memOk {link : Nat} : Out.MemOk (s.quiesceLink link) := by
  grind [State.quiesceLink, onLink_memOk, changeLink_memOk, Out.MemOk]

theorem execLinkQuiesceDrained_memOk {link : Nat} : Out.MemOk (execLinkQuiesceDrained link s) := by
  grind [execLinkQuiesceDrained, onLink_memOk, changeLink_memOk, Out.MemOk]

theorem execLinkResetElapsed_memOk {link : Nat} : Out.MemOk (execLinkResetElapsed link s) := by
  grind [execLinkResetElapsed, onLink_memOk, changeLink_memOk, Out.MemOk]

theorem execLinkTrained_memOk {link modules : Nat} : Out.MemOk (execLinkTrained link modules s) := by
  grind [execLinkTrained, onLink_memOk, changeLink_memOk, Out.MemOk, State.memOk_iff]

theorem execLinkRetryTimer_memOk {link : Nat} : Out.MemOk (execLinkRetryTimer link s) := by
  grind [execLinkRetryTimer, onLink_memOk, changeLink_memOk, Out.MemOk]

theorem setWire_memOk {w : Wire} : (s.setWire w).MemOk := h
theorem setStream_memOk {x : Stream} : (s.setStream x).MemOk := h

theorem putMessage_memOk {link : Nat} {back : Bool} {hdr : BitVec 128} {data : List (BitVec 128)} {bad : List (BitVec 2)} :
    SomeMemOk (s.putMessage link back hdr data bad) := by
  grind [State.putMessage, setStream_memOk, setWire_memOk, SomeMemOk]

theorem received_memOk {link : Nat} {back : Bool} {m : BitVec 128 × List CamyarSlot} : (s.received link back m).MemOk := by
  unfold State.received
  split <;> exact h

theorem takeFlit_memOk {link : Nat} {back : Bool} : (s.takeFlit link back).MemOk := by
  unfold State.takeFlit
  split
  · split
    · exact h
    · exact foldl_memOk (fun _ _ h => received_memOk h) _ (setStream_memOk h)
  · exact h

theorem sendFrom_memOk {src : Nat} {hdr : BitVec 128} {data : List (BitVec 128)} {bad : List (BitVec 2)} :
    SomeMemOk (s.sendFrom src hdr data bad) := by
  unfold State.sendFrom
  generalize s.route src (hdrDst hdr) (hdrPa hdr) = r
  cases r with
  | none => trivial
  | some r => exact putMessage_memOk h

theorem noteTxn_memOk {hd : BitVec 128} : (s.noteTxn hd).MemOk := by
  unfold State.noteTxn
  split <;> exact h

theorem answerTxn_memOk {hd : BitVec 128} {data : List (BitVec 128)} {bad : List (BitVec 2)} :
    (s.answerTxn hd data bad).MemOk := h

theorem sendKind_memOk {kind link : Nat} {back : Bool} {hdr : BitVec 128} {data : List (BitVec 128)} :
    Out.MemOk (sendKind kind link back hdr data s) := by
  grind [sendKind, putMessage_memOk, noteTxn_memOk, Out.MemOk, SomeMemOk]

theorem respond_memOk {hd : BitVec 128} {kind op : Nat} {data : List (BitVec 128)} {bad : List (BitVec 2)} :
    SomeMemOk (s.respond hd kind op data bad) := sendFrom_memOk h

theorem freeBytes_memOk {key n : Nat} : (s.freeBytes key n).MemOk := by
  induction n generalizing s key with
  | zero => exact h
  | succ n ih => exact ih (homeWrite_memOk (free_memOk h) ..)

theorem landBytes_memOk {line : Nat} {data : List (BitVec 128)} {bad : List (BitVec 2)} : (s.landBytes line data bad).MemOk :=
  syncTouch_memOk (landLine_memOk h ..)

theorem reduceRow_memOk {hd : BitVec 128} : (s.reduceRow hd).MemOk := by
  grind [State.reduceRow, free_memOk, postOrDrop_memOk, syncTouch_memOk, freeBytes_memOk, dropSliceLine_memOk]

theorem queueRill_memOk {hd : BitVec 128} {data : List (BitVec 128)} : SomeMemOk (s.queueRill hd data) := by
  grind [State.queueRill, setChannel_memOk, SomeMemOk]

theorem dropDieTlbs_memOk {die ctx : Nat} : (s.dropDieTlbs die ctx).MemOk := h

theorem applyStatus_memOk {op : Nat} : (s.applyStatus op).MemOk := by
  grind [State.applyStatus, takeOffline_memOk, bringLive_memOk]

theorem relay_memOk {src : Nat} {m : CamyarMsg} : SomeMemOk (s.relay src m) :=
  foldl_bind_memOk (fun _ _ h => sendFrom_memOk h) _ (o := some s) h

theorem performRequest_memOk {m : CamyarMsg} : SomeMemOk (s.performRequest m) := by
  unfold State.performRequest
  extract_lets hdr line dev read a a'
  have hread : read.2.MemOk := by
    unfold read
    split
    · exact deviceRead_memOk h
    · exact h
  split
  · trivial
  split
  · exact respond_memOk hread
  · exact respond_memOk hread
  · split
    · exact respond_memOk h
    · exact respond_memOk (landBytes_memOk h)
  · split
    · exact respond_memOk h
    split
    · exact respond_memOk h
    · exact respond_memOk (freeBytes_memOk h)
  · split
    · exact respond_memOk h
    · exact respond_memOk (reduceRow_memOk h)
  · exact bind_memOk (queueRill_memOk h) fun _ h => respond_memOk h
  · split
    · exact respond_memOk h
    · exact respond_memOk (syncTouch_memOk (freeBytes_memOk h))

theorem perform_memOk {link : Nat} {back : Bool} {m : CamyarMsg} : SomeMemOk (s.perform link back m) := by
  grind [State.perform, landBytes_memOk, answerTxn_memOk, sendFrom_memOk, dropDieTlbs_memOk, applyStatus_memOk, relay_memOk,
    setWire_memOk, respond_memOk, performRequest_memOk, SomeMemOk]

theorem taken_memOk {link : Nat} {back : Bool} {chan : Nat} : SomeMemOk (s.taken link back chan) := by
  grind [State.taken, setWire_memOk, perform_memOk, applyStatus_memOk, sendFrom_memOk, SomeMemOk]

theorem stallMessage_memOk {link : Nat} {back : Bool} {chan : Nat} : (s.stallMessage link back chan).MemOk := by
  grind [State.stallMessage, stall_memOk]

theorem deliver_memOk {link : Nat} {back : Bool} {chan : Nat} : (s.deliver link back chan).MemOk := by
  unfold State.deliver
  split
  · exact h
  · have taken := taken_memOk h (link := link) (back := back) (chan := chan)
    generalize s.taken link back chan = r at taken ⊢
    cases r with
    | none => exact stallMessage_memOk h
    | some t => exact taken

theorem retire_memOk {kind number : Nat} : (s.retire kind number).MemOk := by
  grind [State.retire, tableChange_memOk, State.memOk_iff]

theorem writeBackDie_memOk {die id : Nat} : (s.writeBackDie die id).MemOk :=
  upd_memOk (foldl_memOk (fun _ _ h => writeBack_memOk h _) _ (focus_memOk h _)) _

theorem freeTile_memOk : s.freeTile.2.MemOk := h

theorem resetLogic_memOk {die : Nat} : (s.resetLogic die).MemOk := by
  refine foldl_memOk (fun s b h => ?_) _ h
  exact freeTile_memOk h

theorem setReset_memOk {die step : Nat} : (s.setReset die step).MemOk := h

theorem passLinks_memOk {die : Nat} {ready : Nat → Link → Bool} {next : Nat} : (s.passLinks die ready next).MemOk := by
  refine foldl_memOk (fun s i h => ?_) _ h
  split
  · exact changeLink_memOk h
  · exact h

theorem quiesceDie_memOk {die : Nat} : (s.quiesceDie die).MemOk := by
  grind [State.quiesceDie, passLinks_memOk, setReset_memOk, State.memOk_iff]

theorem retrainDie_memOk {die : Nat} : (s.retrainDie die).MemOk := by
  grind [State.retrainDie, passLinks_memOk, setReset_memOk]

theorem execWarmReset_memOk {die step : Nat} {failed : List (Nat × Nat)} : Out.MemOk (execWarmReset die step failed s) := by
  have inReset (l : List DieReset) : State.MemOk { s with resets := l } := h
  unfold execWarmReset
  split
  · exact h
  split
  · split
    · exact h
    · exact noteBounds_memOk (takeOffline_memOk (inReset _))
  split
  · exact h
  split
  · extract_lets me t t'
    have written : t.MemOk := foldl_memOk (fun _ _ h => writeBackDie_memOk h) _ h
    have sliced : t'.MemOk := written
    exact setReset_memOk (focus_memOk sliced _)
  · exact quiesceDie_memOk h
  · exact setReset_memOk (resetLogic_memOk h)
  · exact retrainDie_memOk h
  · split
    · exact h
    · exact setReset_memOk (foldl_memOk (fun _ _ h => retire_memOk h) _ h)
  · refine noteBounds_memOk ?_
    split
    · exact h
    · exact bringLive_memOk (inReset _)
  · exact h

/-! ### Management (R396 to R413) -/

theorem execPldmPrivilegedList_memOk {index pasid : Nat} {enable : Bool} :
    Out.MemOk (execPldmPrivilegedList index pasid enable s) := by
  unfold execPldmPrivilegedList
  split <;> exact h

theorem buildBootstrap_memOk : s.buildBootstrap.MemOk := by
  grind [State.buildBootstrap, homeWrite_memOk]

theorem execPldmCreateContext_memOk {record : List Byte} : Out.MemOk (execPldmCreateContext record s) := by
  unfold execPldmCreateContext
  split
  · exact h
  extract_lets rd t t'
  split
  · exact stall_memOk h _
  split
  · have created := createContext_memOk h (record := record)
    cases hc : s.createContext record with
    | none => exact h
    | some u => exact (show SomeMemOk (some u) from hc ▸ created)
  split
  · exact h
  split
  · exact stall_memOk h _
  · have ht' : t'.MemOk := addContext_memOk (buildBootstrap_memOk h)
    simpa only [Out.MemOk, State.memOk_iff] using ht'

theorem execPldmEnableQueue_memOk {pasid queue : Nat} {qcb : List Byte} : Out.MemOk (execPldmEnableQueue pasid queue qcb s) := by
  unfold execPldmEnableQueue
  split
  · exact h
  have enabled := enableQueue_memOk h (pasid := pasid) (queue := queue) (qcb := qcb)
  generalize s.enableQueue pasid queue qcb = e at enabled ⊢
  split
  · exact stall_memOk h _
  · refine writeCompletions_memOk ?_
    exact enabled
  · exact h

theorem execPldmSigningKey_memOk {pasid index : Nat} {key : List Byte} : Out.MemOk (execPldmSigningKey pasid index key s) := by
  unfold execPldmSigningKey
  split <;> exact h

theorem retireLasting_memOk : s.retireLasting.MemOk :=
  foldl_memOk (fun _ _ h => retire_memOk h) _ (s := { s with errors := s.recentErrors }) h

theorem execPldmErrorWindow_memOk {minutes threshold : Nat} : Out.MemOk (execPldmErrorWindow minutes threshold s) := by
  grind [execPldmErrorWindow, retireLasting_memOk, Out.MemOk, State.memOk_iff]

theorem setFwSlot_memOk {n : Nat} {x : FwSlot} : (s.setFwSlot n x).MemOk := h

theorem execPldmFirmwareUpdate_memOk {step : Nat} {image : List Byte} : Out.MemOk (execPldmFirmwareUpdate step image s) := by
  unfold execPldmFirmwareUpdate
  dsimp only
  split
  · split
    · exact setFwSlot_memOk h
    · exact h
  · split
    · exact h
    split
    · exact setFwSlot_memOk h
    · exact setFwSlot_memOk h
  · split
    · exact h
    · exact h
  · exact h

theorem afterBoot_memOk {n : Nat} : (s.afterBoot n).MemOk := by
  grind [State.afterBoot, setFwSlot_memOk]

theorem execBoot_memOk : Out.MemOk (execBoot s) := by
  grind [execBoot, afterBoot_memOk, Out.MemOk, State.memOk_iff]

omit h in
theorem execPowerLoss_memOk {marking : Bool} : Out.MemOk (execPowerLoss marking s) := by
  grind [execPowerLoss, reset_memOk, Out.MemOk, State.memOk_iff]

theorem setPlacement_memOk {p : Placement} : (s.setPlacement p).MemOk := h

theorem execPlacementTableUpdate_memOk {ctx chip seq block holder : Nat} :
    Out.MemOk (execPlacementTableUpdate ctx chip seq block holder s) := by
  unfold execPlacementTableUpdate
  dsimp only
  split
  · exact h
  split
  · simp only [Out.MemOk, State.memOk_iff]
    exact setPlacement_memOk h
  split
  · simp only [Out.MemOk, State.memOk_iff]
    exact setPlacement_memOk h
  split
  · exact h
  · exact h

theorem sendAgain_memOk {ctx chip seq : Nat} : (s.sendAgain ctx chip seq).MemOk := by
  grind [State.sendAgain, State.memOk_iff]

theorem execPlacementAckTimeout_memOk {ctx chip : Nat} : Out.MemOk (execPlacementAckTimeout ctx chip s) := by
  grind [execPlacementAckTimeout, setPlacement_memOk, Out.MemOk]

theorem execPlacementUpdateAcknowledgement_memOk {ctx chip seq : Nat} :
    Out.MemOk (execPlacementUpdateAcknowledgement ctx chip seq s) := by
  unfold execPlacementUpdateAcknowledgement
  split <;> exact h

theorem execErrorUncorrectable_memOk {space key : Nat} : Out.MemOk (execErrorUncorrectable space key s) := by
  unfold execErrorUncorrectable
  split
  · exact h
  · exact h
  · exact h
  · split
    · exact h
    · exact h
  · split
    · exact h
    · exact upd_memOk h _
  · exact h
  · exact h

theorem execThermalEmergency_memOk {declared : Bool} : Out.MemOk (execThermalEmergency declared s) := by
  grind [execThermalEmergency, noteBounds_memOk, Out.MemOk, State.memOk_iff]

/-! ### Probe regions (R169 to R172) -/

theorem setRegion_memOk {p : ProbeRegion} : (s.setRegion p).MemOk := h

theorem execPrcfg_memOk {b a d : BitVec 5} {r : BitVec 3} : Out.MemOk (execPrcfg b a d r s) := by
  grind [execPrcfg, frontWord_memOk, trapOut_memOk, setRegion_memOk, advance_memOk, setX_memOk, Out.MemOk, State.memOk_iff]

theorem withRegion_memOk {body : ProbeRegion → Out} (hbody : ∀ x, Out.MemOk (body x)) : Out.MemOk (withRegion s body) := by
  grind [withRegion, trapOut_memOk, Out.MemOk]

theorem probeTo_memOk {o : BitVec 10} : (probeTo o s).MemOk := h

theorem execProbe_memOk {o : BitVec 10} {a d : BitVec 5} {r : BitVec 3} : Out.MemOk (execProbe o a d r s) := by
  grind [execProbe, frontWord_memOk, withRegion_memOk, trapOut_memOk, advance_memOk, setX_memOk, setRegion_memOk,
    probeTo_memOk, setFull_memOk, Out.MemOk]

theorem execPrinv_memOk {a d : BitVec 5} {r : BitVec 3} : Out.MemOk (execPrinv a d r s) := by
  grind [execPrinv, frontWord_memOk, withRegion_memOk, advance_memOk, setX_memOk, trapOut_memOk, setRegion_memOk, Out.MemOk]

theorem execPrpin_memOk {a : BitVec 5} {r : BitVec 3} : Out.MemOk (execPrpin a r s) := by
  grind [execPrpin, frontWord_memOk, withRegion_memOk, trapOut_memOk, advance_memOk, setRegion_memOk, Out.MemOk]

theorem execPrunpin_memOk {a : BitVec 5} {r : BitVec 3} : Out.MemOk (execPrunpin a r s) := by
  grind [execPrunpin, frontWord_memOk, withRegion_memOk, trapOut_memOk, advance_memOk, setRegion_memOk, Out.MemOk]

theorem fillLines_memOk {ctx die cluster n : Nat} {va : Word} {line : Nat} : (fillLines ctx die cluster n va line s).1.MemOk := by
  induction n generalizing s va line with
  | zero => exact h
  | succ n ih =>
    unfold fillLines
    have translated := translateFor_memOk h (ctx := ctx) (die := die) (va := va) (a := .read)
    generalize translateFor s ctx die va .read = x at translated ⊢
    cases x with
    | trap c l t => exact translated
    | wait t => exact translated
    | ok p leaf t =>
      dsimp only
      split
      · have hread := deviceRead_memOk translated (pa := p.pa) (n := 128)
        refine ih (setFull_memOk ?_)
        simp only [State.memOk_iff]
        exact ⟨hread.1, writeLE_wf hread.2 ..⟩
      split
      · exact stall_memOk translated _
      split
      · exact translated
      · refine ih (setFull_memOk (syncTouch_memOk ?_))
        simp only [State.memOk_iff]
        exact ⟨translated.1, writeLE_wf translated.2 ..⟩

theorem execProbeFill_memOk {cluster firing slot : Nat} : Out.MemOk (execProbeFill cluster firing slot s) := by
  grind [execProbeFill, fillLines_memOk, setRegion_memOk, post_memOk, Out.MemOk]

/-! ### Rings and handovers (R111 to R118) -/

theorem setRing_memOk {u : Ring} : (s.setRing u).MemOk := h
theorem wakeRing_memOk {u : Ring} : (s.wakeRing u).MemOk := h

theorem ringWait_memOk {u : Ring} {kind : RingWait} {ok : Bool} {go : State → Ring → Out}
    (hgo : ∀ t x, t.MemOk → Out.MemOk (go t x)) : Out.MemOk (ringWait s u kind ok go) := by
  grind [ringWait, setRing_memOk, Out.MemOk]

theorem commitRing_memOk {cluster unit n : Nat} : (State.commitRing cluster unit n s).MemOk := by
  induction n generalizing s with
  | zero => exact h
  | succ n ih => grind [State.commitRing, setRing_memOk, wakeRing_memOk]

theorem settleRing_memOk {u : Ring} : (s.settleRing u).MemOk := by
  grind [State.settleRing, commitRing_memOk]

theorem bindHandle_memOk {q : BitVec 5} {n : Option Nat} : Out.MemOk (bindHandle q n s) := h

theorem execRinginit_memOk {b a q : BitVec 5} {r : BitVec 3} : Out.MemOk (execRinginit b a q r s) := by
  grind [execRinginit, frontWord_memOk, bindHandle_memOk, trapOut_memOk, Out.MemOk, State.memOk_iff]

theorem withRing_memOk {q : Nat} {body : Ring → Out} (hbody : ∀ x, Out.MemOk (body x)) : Out.MemOk (withRing q s body) := by
  grind [withRing, trapOut_memOk, Out.MemOk]

theorem execRingclaim_memOk {q d : BitVec 5} {r : BitVec 3} : Out.MemOk (execRingclaim q d r s) := by
  grind [execRingclaim, frontWord_memOk, withRing_memOk, ringWait_memOk, advance_memOk, setX_memOk, setRing_memOk, Out.MemOk]

theorem execRingcommit_memOk {b q : BitVec 5} {r : BitVec 3} : Out.MemOk (execRingcommit b q r s) := by
  grind [execRingcommit, frontWord_memOk, withRing_memOk, trapOut_memOk, stallRelease_memOk, advance_memOk, wakeRing_memOk,
    settleRing_memOk, setRing_memOk, release_memOk, Out.MemOk]

theorem execRingtake_memOk {q d : BitVec 5} {r : BitVec 3} : Out.MemOk (execRingtake q d r s) := by
  grind [execRingtake, frontWord_memOk, withRing_memOk, ringWait_memOk, wakeRing_memOk, settleRing_memOk, setRing_memOk,
    advance_memOk, setX_memOk, acquire_memOk, Out.MemOk]

theorem execRingfree_memOk {b q : BitVec 5} {r : BitVec 3} : Out.MemOk (execRingfree b q r s) := by
  grind [execRingfree, frontWord_memOk, withRing_memOk, trapOut_memOk, advance_memOk, wakeRing_memOk, setRing_memOk,
    Out.MemOk]

theorem waitCount_memOk {kind : RingWait} {count : Ring → Nat} {b q d : BitVec 5} :
    Out.MemOk (waitCount kind count b q d s) := by
  grind [waitCount, withRing_memOk, trapOut_memOk, advance_memOk, setX_memOk, ringWait_memOk, Out.MemOk]

theorem arriveHandoff_memOk {u : Ring} {hd : Handover} {num : Nat} : Out.MemOk (arriveHandoff s u hd num) := by
  grind [arriveHandoff, stallRelease_memOk, release_memOk, upd_memOk, advance_memOk, settleRing_memOk, setRing_memOk,
    Out.MemOk]

theorem sendHandoff_memOk {u : Ring} {q snd rcv n : Nat} : Out.MemOk (sendHandoff s u q snd rcv n) := by
  grind [sendHandoff, trapOut_memOk, arriveHandoff_memOk, setRing_memOk, ringWait_memOk, Out.MemOk]

theorem receiveHandoff_memOk {u : Ring} {q snd : Nat} : Out.MemOk (receiveHandoff s u q snd) := by
  grind [receiveHandoff, advance_memOk, upd_memOk, acquire_memOk, Out.MemOk]

theorem execHandoff_memOk {v : BitVec 3} {q : BitVec 4} {n : BitVec 8} {sc : BitVec 3} :
    Out.MemOk (execHandoff v q n sc s) := by
  grind [execHandoff, advance_memOk, trapOut_memOk, withRing_memOk, sendHandoff_memOk, receiveHandoff_memOk, Out.MemOk]

end

end Sys2Proof.Machine

/-! # Proofs: Scalar words and traps keep the memories canonical (O5) -/

namespace Sys2Proof.Machine

section
variable {s : State} (h : s.MemOk)
include h

/-! ### Scalar words (R43 to R45) -/

theorem setAdvance_memOk {rd : BitVec 5} {v : Word} : Out.MemOk (setAdvance rd v s) := h

theorem aluImm_memOk {rd rs1 : BitVec 5} {f : Word → Word} : Out.MemOk (aluImm rd rs1 f s) := by
  grind [aluImm, baseWord_memOk, setAdvance_memOk, Out.MemOk]

theorem aluReg_memOk {rd rs1 rs2 : BitVec 5} {f : Word → Word → Word} : Out.MemOk (aluReg rd rs1 rs2 f s) := by
  grind [aluReg, baseWord_memOk, setAdvance_memOk, Out.MemOk]

theorem branchIf_memOk {rs1 rs2 : BitVec 5} {imm : BitVec 12} {c : Word → Word → Bool} :
    Out.MemOk (branchIf rs1 rs2 imm c s) := by
  grind [branchIf, baseWord_memOk, transfer_memOk, advance_memOk, Out.MemOk]

theorem execJal_memOk {rd : BitVec 5} {imm : BitVec 20} : Out.MemOk (execJal rd imm s) := by
  grind [execJal, baseWord_memOk, transfer_memOk, setX_memOk, Out.MemOk]

theorem execJalr_memOk {rd rs1 : BitVec 5} {imm : BitVec 12} : Out.MemOk (execJalr rd rs1 imm s) := by
  grind [execJalr, baseWord_memOk, transfer_memOk, setX_memOk, Out.MemOk]

theorem execWfi_memOk : Out.MemOk (execWfi s) := by
  unfold execWfi
  split <;> exact h

/-! ### Traps and handlers (R353 to R372) -/

theorem handlerWord_memOk {r : BitVec 3} {regs : List (BitVec 5)} {body : State → Out}
    (hbody : ∀ t, t.MemOk → Out.MemOk (body t)) : Out.MemOk (handlerWord r regs s body) := by
  grind [handlerWord, frontWord_memOk, trapOut_memOk, Out.MemOk]

theorem execRqrd_memOk {a d : BitVec 5} {r : BitVec 3} : Out.MemOk (execRqrd a d r s) := by
  grind [execRqrd, handlerWord_memOk, trapOut_memOk, free_memOk, advance_memOk, setX_memOk, Out.MemOk]

theorem writeEntry_memOk {i k : Nat} {v : Word} : Out.MemOk (writeEntry i k v s) := by
  grind [writeEntry, advance_memOk, upd_memOk, trapOut_memOk, Out.MemOk]

theorem execRqwr_memOk {b a : BitVec 5} {r : BitVec 3} : Out.MemOk (execRqwr b a r s) := by
  grind [execRqwr, handlerWord_memOk, trapOut_memOk, advance_memOk, upd_memOk, writeEntry_memOk, Out.MemOk]

theorem execRqdrop_memOk {a : BitVec 5} {r : BitVec 3} : Out.MemOk (execRqdrop a r s) := by
  grind [execRqdrop, handlerWord_memOk, trapOut_memOk, advance_memOk, upd_memOk, dropHold_memOk, Out.MemOk]

theorem reenter_memOk {entries : List Cmd} : (reenter entries s).MemOk := by
  grind [reenter, reinject_memOk, settle_memOk, upd_memOk, enterTrap_memOk]

theorem execTrapret_memOk {r : BitVec 3} : Out.MemOk (execTrapret r s) := by
  grind [execTrapret, handlerWord_memOk, upd_memOk, reenter_memOk, Out.MemOk]

theorem execTrec_memOk {b a : BitVec 5} {r : BitVec 3} : Out.MemOk (execTrec b a r s) := by
  grind [execTrec, frontWord_memOk, trapOut_memOk, advance_memOk, stall_memOk, flushLost_memOk, writeRecord_memOk, Out.MemOk]

theorem postHeld_memOk {ctx n : Nat} : (State.postHeld ctx n s).MemOk := by
  induction n generalizing s with
  | zero => grind [State.postHeld, stall_memOk, flushLost_memOk]
  | succ n ih =>
    unfold State.postHeld
    split
    · next c e _ _ =>
      split
      · exact stall_memOk h _
      have flushed : (flushLost s ctx c.ringBase).MemOk := flushLost_memOk h ..
      have dropped (l : List HeldRecord) : State.MemOk { flushLost s ctx c.ringBase with held := l } := flushed
      dsimp only
      split
      · exact ih (writeRecord_memOk (dropped _) ..)
      split
      · exact ih (dropRecord_memOk (dropped _) ..)
      · exact flushed
    · exact h

theorem execWfiWake_memOk {cell : Nat} : Out.MemOk (execWfiWake cell s) := by
  grind [execWfiWake, focus_memOk, advance_memOk, upd_memOk, Out.MemOk]

theorem execPreciseTrap_memOk {cause : Nat} {tval : Word} : Out.MemOk (execPreciseTrap cause tval s) := by
  grind [execPreciseTrap, trap_memOk, Out.MemOk]

theorem preemptCell_memOk {id : Nat} : (s.preemptCell id).MemOk := by
  grind [State.preemptCell, updCell_memOk, leaveWaits_memOk, State.memOk_iff]

theorem execPreemption_memOk {team : Nat} : Out.MemOk (execPreemption team s) := by
  unfold execPreemption
  split
  · exact h
  split
  · exact h
  · exact foldl_memOk (fun _ _ h => preemptCell_memOk h) _ h

theorem resumeCell_memOk {kept : Cell} : (s.resumeCell kept).MemOk := by
  grind [State.resumeCell, focus_memOk, reenter_memOk, State.memOk_iff]

theorem execPreemptionResume_memOk {team : Nat} : Out.MemOk (execPreemptionResume team s) := by
  unfold execPreemptionResume
  dsimp only
  split
  · exact h
  · exact focus_memOk (foldl_memOk (fun _ _ h => resumeCell_memOk h) _ h) _

end

end Sys2Proof.Machine

/-! # Proofs: Every step keeps the memories canonical (O5) -/

namespace Sys2Proof.Machine

section
variable {s : State} (h : s.MemOk)
include h

/-! ### The meaning of an instruction -/

theorem exec_memOk {i : Instr} : Out.MemOk (exec i s) := by
  unfold exec
  cases i with
  | vadd | vsub | vmul | vmulh | vand | vor | vxor | vsll | vsrl | vsra | vmin | vmax | vminu | vmaxu | vaddx | viota | vfadd
  | vfsub | vfmul | vfma | vfmin | vfmax | vfexp2 | vfrcp | vfrsqrt | vflog2 | vfmulx | vfaddx | vcmpeq | vcmplt | vcmpltu
  | vfcmpeq | vfcmplt | kopAnd | kopOr | kopXor | kopAndn | kpop | kpopFirst | vsel | vcvtif | vcvtfi | vredsum | vredsumI32
  | vredmax | vredmaxI32 | vredmin | vredminI32 | vslide | vperm | vcompress | vmvxv | vmvvx | vsmaxacc | vsmaxfin | vsortkv
  | vseghead | vsppack => exact vectorWord_memOk h fun _ _ h => h
  | vcvtn => exact vectorWord_memOk h fun _ _ h => narrowLanes_memOk h
  | vcvtw => exact vectorWord_memOk h fun _ _ h => widenLanes_memOk h
  | vldm => exact forwardWord_memOk h fun _ h => enqueue_memOk h fun _ _ h => unitVldm_memOk h
  | vstm => exact forwardWord_memOk h fun _ h => enqueue_memOk h fun _ _ h => unitVstm_memOk h
  | vldx => exact forwardWord_memOk h fun _ h => enqueue_memOk h fun _ _ h => unitVldx_memOk h
  | vstx => exact forwardWord_memOk h fun _ h => enqueue_memOk h fun _ _ h => unitVstx_memOk h
  | vlds => exact forwardWord_memOk h fun _ h => enqueue_memOk h fun _ _ h => unitVlds_memOk h
  | vsts => exact forwardWord_memOk h fun _ h => enqueue_memOk h fun _ _ h => unitVsts_memOk h
  | ldst => exact execLdst_memOk h
  | stst => exact execStst_memOk h
  | phase => exact execPhase_memOk h
  | fenceBoth | fenceRel | fenceAcq => exact frontWord_memOk h fun _ h => fenceAt_memOk h
  | spfeEmpty | spfeFull => exact frontWord_memOk h fun _ h => spfe_memOk h
  | sprot => exact execSprot_memOk h
  | tld => exact execTld_memOk h
  | tst => exact execTst_memOk h
  | barinit => exact execBarinit_memOk h
  | barinitForce => exact execBarinitForce_memOk h
  | barinitFree => exact execBarinitFree_memOk h
  | bararr | bardrop | barjoin => exact frontWord_memOk h fun _ h => arrive_memOk h
  | barwait => exact execBarwait_memOk h
  | bartest => exact execBartest_memOk h
  | waita => exact execWaita_memOk h
  | ringinit => exact execRinginit_memOk h
  | ringclaim => exact execRingclaim_memOk h
  | ringcommit => exact execRingcommit_memOk h
  | ringtake => exact execRingtake_memOk h
  | ringfree => exact execRingfree_memOk h
  | waitfill | waitfree => exact frontWord_memOk h fun _ h => waitCount_memOk h
  | redaF32add | redaBf16add | redaI32add | redaF32max | redaF32min | redaI32max | redaI32min => exact redaWord_memOk h
  | redfence => exact execRedfence_memOk h
  | prcfg => exact execPrcfg_memOk h
  | prinv => exact execPrinv_memOk h
  | prpin => exact execPrpin_memOk h
  | prunpin => exact execPrunpin_memOk h
  | cparm => exact execCparm_memOk h
  | cpstep => exact execCpstep_memOk h
  | cpstat => exact execCpstat_memOk h
  | cpcancel => exact execCpcancel_memOk h
  | nbmode => exact execNbmode_memOk h
  | nbcmd => exact execNbcmd_memOk h
  | nbfence => exact execNbfence_memOk h
  | nbrd => exact forwardWord_memOk h fun _ h => enqueue_memOk h fun _ _ h => unitNbrd_memOk h
  | hintLife => exact execHintLife_memOk h
  | hintPref => exact execHintPref_memOk h
  | hintFetch => exact execHintFetch_memOk h
  | stepadv => exact execStepadv_memOk h
  | mma | mmaAcc | mmaNeg | mmas | mmasAcc | mmasNeg => exact issueProduct_memOk h
  | accz => exact execAccz_memOk h
  | accscl | accsclX => exact issueSlot_memOk h fun _ _ h => unitScale_memOk h
  | accrd | accrdCol => exact issueSlot_memOk h fun _ _ h => unitRead_memOk h
  | accwr | accwrCol => exact issueSlot_memOk h fun _ _ h => unitWrite_memOk h
  | epi => exact execEpi_memOk h
  | mqctlWait => exact forwardWord_memOk h fun _ h => enqueue_memOk h fun _ _ h => h
  | mqctlRm => exact execMqctlRm_memOk h
  | mqctlFtb => exact execMqctlFtb_memOk h
  | opu | fwfwd | fwupdD | fwupdH | fwupdE | fwfuD | fwfuDl | fwfuH | fwfuHl | fwfuE => exact issueUpdate_memOk h
  | fwsnapSnap | fwsnapFork => exact issueState_memOk h fun _ _ h => unitShare_memOk h
  | fwsnapRollback => exact issueState_memOk h fun _ _ h => unitFwsnapRollback_memOk h
  | fwsnapFree => exact issueState_memOk h fun _ _ h => unitFwsnapFree_memOk h
  | fwavg => exact execFwavg_memOk h
  | fwmig => exact issueState_memOk h fun _ _ h => unitFwmig_memOk h
  | fwctlPin => exact issueState_memOk h fun _ _ h => unitFwctlPin_memOk h
  | fwctlUnpin => exact issueState_memOk h fun _ _ h => unitFwctlUnpin_memOk h
  | fwctlQuery => exact issueState_memOk h fun _ _ h => unitFwctlQuery_memOk h
  | fwctlHint => exact issueState_memOk h fun _ _ h => unitFwctlHint_memOk h
  | fwctlWait => exact issueState_memOk h fun _ _ h => unitFwctlWait_memOk h
  | fwctlNew => exact issueState_memOk h fun _ _ h => unitFwctlNew_memOk h
  | role => exact execRole_memOk h
  | handoff => exact execHandoff_memOk h
  | loop => exact execLoop_memOk h
  | roleid => exact execRoleid_memOk h
  | drift => exact execDrift_memOk h
  | vgrow | vshrink => exact frontWord_memOk h fun _ h => resize_memOk h
  | fmset => exact execFmset_memOk h
  | ftset => exact execFtset_memOk h
  | rnext => exact execRnext_memOk h
  | ntoken => exact execNtoken_memOk h
  | nctx => exact execNctx_memOk h
  | ndone => exact execNdone_memOk h
  | nfail => exact execNfail_memOk h
  | trapret => exact execTrapret_memOk h
  | rqrd => exact execRqrd_memOk h
  | rqwr => exact execRqwr_memOk h
  | rqdrop => exact execRqdrop_memOk h
  | enread => exact execEnread_memOk h
  | enest => exact execEnest_memOk h
  | trec => exact execTrec_memOk h
  | probe => exact execProbe_memOk h
  | lui | auipc => exact baseWord_memOk h fun _ h => setAdvance_memOk h
  | jal => exact execJal_memOk h
  | jalr => exact execJalr_memOk h
  | beq | bne | blt | bge | bltu | bgeu => exact branchIf_memOk h
  | lb | lh | lw | ld | lbu | lhu | lwu => exact loadWord_memOk h
  | sb | sh | sw | sd => exact storeWord_memOk h
  | addi | slti | sltiu | xori | ori | andi | slli | srli | srai | addiw | slliw | srliw | sraiw
  | slliUw => exact aluImm_memOk h
  | add | sub | sll | slt | sltu | xor | srl | sra | or | and | addw | subw | sllw | srlw | sraw | mul | mulh | mulhsu | mulhu
  | div | divu | rem | remu | mulw | divw | divuw | remw | remuw | addUw | sh1add | sh2add | sh3add | sh1addUw | sh2addUw
  | sh3addUw => exact aluReg_memOk h
  | fence | fenceTso => exact fenceAt_memOk h
  | fenceI => exact execFenceI_memOk h
  | ecall | ebreak => exact trapOut_memOk h
  | wfi => exact execWfi_memOk h
  | lrW => exact execLrW_memOk h
  | lrD => exact execLrD_memOk h
  | scW => exact execScW_memOk h
  | scD => exact execScD_memOk h
  | amoswapW | amoswapD | amoaddW | amoaddD | amoxorW | amoxorD | amoandW | amoandD | amoorW | amoorD | amominW | amominD
  | amomaxW | amomaxD | amominuW | amominuD | amomaxuW | amomaxuD => exact amo_memOk h
  | csrrw | csrrs | csrrc | csrrwi | csrrsi | csrrci => exact baseWord_memOk h fun _ h => csrInstr_memOk h
  | preciseTrap => exact execPreciseTrap_memOk h
  | preemption => exact execPreemption_memOk h
  | preemptionResume => exact execPreemptionResume_memOk h
  | handoffCommit => exact commitRing_memOk h
  | phaseHoldRelease => exact execPhaseHoldRelease_memOk h
  | windowZeroing => exact execWindowZeroing_memOk h
  | emptyLineReadServe => exact execEmptyLineReadServe_memOk h
  | probeFill => exact execProbeFill_memOk h
  | stateHoldGrant => exact engineTurn_memOk h
  | stateEviction => exact execStateEviction_memOk h
  | statePageIn => exact pageIn_memOk h
  | pageWalk => exact execPageWalk_memOk h
  | tierDemotion => exact execTierDemotion_memOk h
  | tierPromotion => exact execTierPromotion_memOk h
  | promotionWindowExpiry => exact execPromotionWindowExpiry_memOk h
  | shootdown => exact execShootdown_memOk h
  | shootdownAck => exact execShootdownAck_memOk h
  | copyEngineGrant => exact armCopyNodes_memOk (grantCopy_memOk h)
  | copyEntryStart => exact execCopyEntryStart_memOk h
  | copyIndexLookup => exact execCopyIndexLookup_memOk h
  | copyEntryComplete => exact execCopyEntryComplete_memOk h
  | copyFault => exact execCopyFault_memOk h
  | copyCancelDrain => exact execCopyCancelDrain_memOk h
  | barrierSubtraction => exact execBarrierSubtraction_memOk h
  | waiterWake => exact execWaiterWake_memOk h
  | waitaWake => exact execWaitaWake_memOk h
  | reductionApply => exact execReductionApply_memOk h
  | modeEntryComplete => exact execModeEntryComplete_memOk h
  | modeExitComplete => exact execModeExitComplete_memOk h
  | forcedExit => exact execForcedExit_memOk h
  | rillMac | rillLoad | rillFountain | rillZero | rillStore => exact rillTurn_memOk h
  | rillRefreshSlot => exact execRillRefreshSlot_memOk h
  | nodeArm => exact execNodeArm_memOk h
  | firingDecision => exact execFiringDecision_memOk h
  | rangeSplit => exact execRangeSplit_memOk h
  | stageSetReady => exact setReady_memOk h
  | stageTeamMove => exact execStageTeamMove_memOk h
  | firingFault => exact execFiringFault_memOk h
  | coneWalk => exact execConeWalk_memOk h
  | retryDelayExpiry => exact execRetryDelayExpiry_memOk h
  | trapRingSpaceReturn => exact postHeld_memOk h
  | wfiWake => exact execWfiWake_memOk h
  | energyWindowBoundary => exact execEnergyWindowBoundary_memOk h
  | meterUpdate => exact execMeterUpdate_memOk h
  | commandMessage => exact execCommandMessage_memOk h
  | rdmaWrite => exact execRdmaWrite_memOk h
  | unsupportedOperation => exact execUnsupportedOperation_memOk h
  | pasidLevelRestore => exact execPasidLevelRestore_memOk h
  | firmwareEventTake => exact execFirmwareEventTake_memOk h
  | invoke => exact execInvoke_memOk h
  | graph => exact execGraph_memOk h
  | ib => exact execIb_memOk h
  | fencePacket => exact execFencePacket_memOk h
  | fencePacketDone => exact execFencePacketDone_memOk h
  | signal => exact execSignal_memOk h
  | slotLoad => exact execSlotLoad_memOk h
  | slotEvict => exact execSlotEvict_memOk h
  | adminCreateContext => exact execAdminCreateContext_memOk h
  | adminDestroyContext => exact execAdminDestroyContext_memOk h
  | adminQueueEnable => exact execAdminQueueEnable_memOk h
  | adminQueueResume => exact execAdminQueueResume_memOk h
  | adminQueueDisable => exact execAdminQueueDisable_memOk h
  | adminShootdown => exact execAdminShootdown_memOk h
  | adminGraphRetry => exact execAdminGraphRetry_memOk h
  | adminGraphSkip => exact execAdminGraphSkip_memOk h
  | adminGraphCancel => exact execAdminGraphCancel_memOk h
  | adminGraphReset => exact execAdminGraphReset_memOk h
  | adminGraphThaw => exact execAdminGraphThaw_memOk h
  | adminSetPeer => exact execAdminSetPeer_memOk h
  | adminSetClass0Cells => exact execAdminSetClass0Cells_memOk h
  | adminSetEnergyReserve => exact execAdminSetEnergyReserve_memOk h
  | adminSetTierParams => exact execAdminSetTierParams_memOk h
  | pldmPrivilegedList => exact execPldmPrivilegedList_memOk h
  | pldmCreateContext => exact execPldmCreateContext_memOk h
  | pldmEnableQueue => exact execPldmEnableQueue_memOk h
  | pldmSigningKey => exact execPldmSigningKey_memOk h
  | pldmErrorWindow => exact execPldmErrorWindow_memOk h
  | pldmFirmwareUpdate => exact execPldmFirmwareUpdate_memOk h
  | boot => exact execBoot_memOk h
  | flitCrcRetry => exact execFlitCrcRetry_memOk h
  | linkQuiesceDrained => exact execLinkQuiesceDrained_memOk h
  | linkResetElapsed => exact execLinkResetElapsed_memOk h
  | linkTrained => exact execLinkTrained_memOk h
  | linkTrainingFailed => exact onLink_memOk h fun _ => changeLink_memOk h
  | linkRetryTimer => exact execLinkRetryTimer_memOk h
  | camyarRead | camyarReadOwn | camyarWrite | camyarWriteBack | camyarAmo | camyarReda | camyarRillCommand
  | camyarSyncOperation | camyarCompletion | camyarDataReturn | camyarError | camyarShootdown | camyarShootdownAck
  | camyarGraphMessage | camyarStatusBroadcast | camyarCreditReturn => exact sendKind_memOk h
  | placementTableUpdate => exact execPlacementTableUpdate_memOk h
  | placementAckTimeout => exact execPlacementAckTimeout_memOk h
  | errorCorrected => exact retireLasting_memOk h
  | errorUncorrectable => exact execErrorUncorrectable_memOk h
  | warmReset => exact execWarmReset_memOk h
  | powerLoss => exact execPowerLoss_memOk
  | thermalEmergency => exact execThermalEmergency_memOk h
  | placementUpdateAcknowledgement => exact execPlacementUpdateAcknowledgement_memOk h
  | migratedObjectArrival => exact execMigratedObjectArrival_memOk h
  | _ => exact h

/-! ### Turns and moves -/

theorem keepLine_memOk {no : Nat} {v : VReg} : (s.keepLine no v).MemOk := h

theorem fetchAt_memOk {p : Place} : (s.fetchAt p).MemOk := by
  grind [State.fetchAt, deviceRead_memOk, stall_memOk, keepLine_memOk, Fetched.MemOk]

theorem fetch_memOk : s.fetch.MemOk := by
  grind [State.fetch, translateHome_memOk, fetchAt_memOk, Xlat.MemOk, Fetched.MemOk]

theorem withWord_memOk {w : BitVec 32} : (s.withWord w).MemOk := h

omit h in
theorem afterIssue_memOk {o : Out} (ho : Out.MemOk o) : Out.MemOk (afterIssue o) := by
  cases o with
  | next t => exact settle_memOk ho
  | fault r => trivial
  | refused r => trivial

theorem issue_memOk {w : BitVec 32} : Out.MemOk (s.issue w) := by
  grind [State.issue, trapOut_memOk, withWord_memOk, free_memOk, exec_memOk, Out.MemOk]

theorem cellTurn_memOk : Out.MemOk s.cellTurn := by
  grind [State.cellTurn, fetch_memOk, afterIssue_memOk, issue_memOk, trap_memOk, withWord_memOk, Fetched.MemOk, Out.MemOk]

theorem focusLive_memOk {c : Nat} : (s.focusLive c).MemOk := by
  grind [State.focusLive, focus_memOk]

theorem replaceLine_memOk {no : Nat} : (s.replaceLine no).MemOk := by
  grind [State.replaceLine, stall_memOk, upd_memOk, writeBack_memOk]

theorem hostReading_memOk {q n : Nat} : (s.hostReading q n).MemOk := writeCompletions_memOk h
theorem sendTable_memOk : s.sendTable.MemOk := h
theorem sendSensor_memOk {kind number : Nat} : (s.sendSensor kind number).MemOk := h
theorem barFor_memOk {t : Turn} : (s.barFor t).MemOk := h

theorem noting_memOk {t : Turn} {act : State → Out} (hact : ∀ t, t.MemOk → Out.MemOk (act t)) :
    Out.MemOk (s.noting t act) := by
  grind [State.noting, barFor_memOk, Out.MemOk, State.memOk_iff]

theorem act_memOk {t : Turn} : Out.MemOk (State.act t s) := by
  have focused (c : Nat) : (s.focusLive c).MemOk := focusLive_memOk h
  cases t with
  | cell c =>
    simp only [State.act]
    grind [cellTurn_memOk]
  | engine c q => exact engineTurn_memOk (focused c)
  | epilogue c => exact epilogueTurn_memOk (focused c)
  | tick n =>
    simp only [State.act, Out.MemOk, State.memOk_iff]
    exact h
  | l1Replace c line => exact replaceLine_memOk (focused c)
  | busyBanks c lanes => exact upd_memOk (focused c) _
  | icacheReplace c line => exact upd_memOk (focused c) _
  | beat e => exact beat_memOk h
  | flit l back => exact takeFlit_memOk h
  | quiesce l => exact quiesceLink_memOk h
  | resendAsked ctx chip seq => exact sendAgain_memOk h
  | deliver l back chan => exact deliver_memOk h
  | dispatch p q => exact dispatch_memOk h
  | arrival => exact takeArrivals_memOk h
  | hostRead q n => exact hostReading_memOk h
  | readTable => exact sendTable_memOk (s := s) h
  | readSensor kind number => exact sendSensor_memOk h
  | event c i =>
    change Out.MemOk (if (encode i).isSome then _ else _)
    split
    · exact h
    · exact exec_memOk (focused c)

theorem move_memOk {t : Turn} : Out.MemOk (s.move t) := by
  grind [State.move, noting_memOk, act_memOk, Out.MemOk]

/-! ### The step -/

theorem step_memOk : Out.MemOk (step s) := by
  grind [step, noting_memOk, cellTurn_memOk, move_memOk, Out.MemOk, State.memOk_iff]

end

/-- Settles O5: each operation of the model writes the memories by the canonical writes alone, so each instruction, each turn and
each step keeps them canonical. -/
theorem stepKeepsMemOk : Obligations.StepKeepsMemOk := by
  unfold Obligations.StepKeepsMemOk
  intro s t h hstep
  have kept : Out.MemOk (step s) := step_memOk h
  rwa [hstep] at kept

end Sys2Proof.Machine

/-! # Proofs: words that an idle, eager cell forwards (R95, R96, R104, assumption log 4) -/

namespace Sys2Proof.Machine

/-! ### How such a word begins -/

/-- Registers are allotted when each lies below the allotment (R130). -/
theorem Cell.notAllotted_eq_none_iff (c : Cell) (ns : List Nat) : c.notAllotted ns = none ↔ ∀ n ∈ ns, n < c.valloc := by
  unfold Cell.notAllotted
  induction ns using List.reverseRecOn with
  | nil => simp
  | append_singleton ns n ih =>
    simp only [List.foldl_append, List.foldl_cons, List.foldl_nil, List.forall_mem_append, List.forall_mem_singleton, ← ih]
    by_cases hn : n < c.valloc
    · simp [hn]
    · simp only [hn, if_false, and_false, iff_false]
      split <;> nofun

section
variable {r : BitVec 3} {vs : List (BitVec 5)} {s : State} (h : VectorReady r vs s)
include h

theorem VectorReady.notAllotted_of_subset {vs' : List (BitVec 5)} (hs : ∀ v ∈ vs', v ∈ vs) :
    s.cpu.notAllotted (vs'.map BitVec.toNat) = none := by
  have ha := (s.cpu.notAllotted_eq_none_iff _).mp h.allotted
  simp only [List.forall_mem_map] at ha
  exact (s.cpu.notAllotted_eq_none_iff _).mpr (by simpa only [List.forall_mem_map] using fun v hv => ha v (hs v hv))

theorem VectorReady.queueFull (q : Queue) : s.cpu.queueFull q = false := by
  have hd : 0 < q.depth := by cases q <;> decide
  simp [Cell.queueFull, h.idle, Nat.not_le.mpr hd]

theorem VectorReady.forwardWord {ns : List Nat} (hn : s.cpu.notAllotted ns = none) (regs : List (BitVec 5)) (q : Queue)
    (body : State → Out) : forwardWord r ns regs q s body = body s :=
  forwardWord_ready h.role hn (Cell.ready_of_idle h.idle regs) (h.queueFull q) body

end

/-! ### The flow to the next word (R120) -/

theorem Cell.flowTo_frame (c : Cell) (t : Word) :
    c.flowTo t = { c with pc := (c.flowTo t).pc, loops := (c.flowTo t).loops, lc := (c.flowTo t).lc } := reach_eq ..

/-- Cells with the same loops and loop counters flow alike. -/
theorem Cell.flowTo_congr {c d : Cell} (t : Word) (hl : d.loops = c.loops) (hc : d.lc = c.lc) :
    d.flowTo t = { d with pc := (c.flowTo t).pc, loops := (c.flowTo t).loops, lc := (c.flowTo t).lc } := by
  unfold Cell.flowTo
  rw [hl]
  exact reach_congr t c.loops c d hc

/-! ### The state in which the engine takes the command -/

/-- The command that the front end of a cell makes of a word. -/
def Issue.cmd (w : Issue) (c : Cell) : Cmd :=
  ⟨w.instr, c.word, c.pc, w.queue, w.op0, w.op1, w.op2, w.aux, c.accH.toNat, c.accT.toNat, w.lv, 0, false, false, c.vseq,
    c.slipDepth w.queue, w.ranges, none, w.desc, []⟩

/-- Forwarding the word changes the accumulator ring's formats and counts alone (R175). -/
def Issue.MovesRing (w : Issue) (c : Cell) : Prop :=
  w.also c = { c with accFmt := (w.also c).accFmt, accH := (w.also c).accH, accT := (w.also c).accT }

/-- An idle cell has forwarded a word: its command is the only one, and the front end is past the word. -/
def State.forwarded (s : State) (w : Issue) : State :=
  { s with cpu := { s.cpu.flowTo (s.cpu.pc + 4) with
      accFmt := (w.also s.cpu).accFmt
      accH := (w.also s.cpu).accH
      accT := (w.also s.cpu).accT
      pending := [w.cmd s.cpu]
      vseq := if w.queue.isVector then s.cpu.vseq + 1 else s.cpu.vseq } }

section
variable (s : State) (w : Issue)

@[simp] theorem forwarded_pending : (s.forwarded w).cpu.pending = [w.cmd s.cpu] := rfl
@[simp] theorem forwarded_sp : (s.forwarded w).sp = s.sp := rfl
@[simp] theorem forwarded_spPoison : (s.forwarded w).spPoison = s.spPoison := rfl
@[simp] theorem forwarded_v : (s.forwarded w).cpu.v = s.cpu.v := by rw [State.forwarded, Cell.flowTo_frame]
@[simp] theorem forwarded_k : (s.forwarded w).cpu.k = s.cpu.k := by rw [State.forwarded, Cell.flowTo_frame]
@[simp] theorem forwarded_m : (s.forwarded w).cpu.m = s.cpu.m := by rw [State.forwarded, Cell.flowTo_frame]
@[simp] theorem forwarded_acc : (s.forwarded w).cpu.acc = s.cpu.acc := by rw [State.forwarded, Cell.flowTo_frame]
@[simp] theorem forwarded_accTag : (s.forwarded w).cpu.accTag = s.cpu.accTag := by rw [State.forwarded, Cell.flowTo_frame]
@[simp] theorem forwarded_accS : (s.forwarded w).cpu.accS = s.cpu.accS := by rw [State.forwarded, Cell.flowTo_frame]
@[simp] theorem forwarded_epiMode : (s.forwarded w).cpu.epiMode = s.cpu.epiMode := by rw [State.forwarded, Cell.flowTo_frame]
@[simp] theorem forwarded_cluster : (s.forwarded w).cpu.cluster = s.cpu.cluster := by rw [State.forwarded, Cell.flowTo_frame]
@[simp] theorem forwarded_replay : (s.forwarded w).cpu.replay = s.cpu.replay := by rw [State.forwarded, Cell.flowTo_frame]
@[simp] theorem forwarded_poison : (s.forwarded w).cpu.poison = s.cpu.poison := by rw [State.forwarded, Cell.flowTo_frame]

@[simp] theorem forwarded_rv (n : BitVec 5) : (s.forwarded w).cpu.rv n = s.cpu.rv n := by simp only [Cell.rv, forwarded_v]
@[simp] theorem forwarded_rk (n : Nat) : (s.forwarded w).cpu.rk n = s.cpu.rk n := by simp only [Cell.rk, forwarded_k]
@[simp] theorem forwarded_rm (n : Nat) : (s.forwarded w).cpu.rm n = s.cpu.rm n := by simp only [Cell.rm, forwarded_m]
@[simp] theorem forwarded_slotIx (n : Nat) : (s.forwarded w).cpu.slotIx n = s.cpu.slotIx n := by
  simp only [Cell.slotIx, forwarded_accS]
@[simp] theorem forwarded_slot (n : Nat) : (s.forwarded w).cpu.slot n = s.cpu.slot n := by
  simp only [Cell.slot, forwarded_slotIx, forwarded_acc]
@[simp] theorem forwarded_laneOn (m : BitVec 1) : laneOn m (s.forwarded w).cpu = laneOn m s.cpu := by
  funext i
  rw [laneOn, forwarded_rk, laneOn]
@[simp] theorem forwarded_spRead (o n : Nat) : (s.forwarded w).spRead o n = s.spRead o n := by
  simp only [State.spRead, forwarded_cluster, forwarded_sp]
@[simp] theorem forwarded_spLine (o : Nat) : (s.forwarded w).spLine o = s.spLine o := by
  simp only [State.spLine, forwarded_spRead]
@[simp] theorem forwarded_spBlocked (runs : List (Nat × Nat)) : (s.forwarded w).spBlocked runs = s.spBlocked runs := by
  simp only [State.spBlocked, State.spWaits, forwarded_cluster]; rfl
@[simp] theorem forwarded_spPoisoned (runs : List (Nat × Nat)) : (s.forwarded w).spPoisoned runs = s.spPoisoned runs := by
  simp only [State.spPoisoned, State.spBad, forwarded_cluster]; rfl

end

/-- Where forwarding changes nothing of the ring, the command and the vector sequence are all that is new. -/
theorem forwarded_of_also_id {w : Issue} (h : w.also = id) (s : State) :
    s.forwarded w = { s with cpu := { s.cpu.flowTo (s.cpu.pc + 4) with
      pending := [w.cmd s.cpu]
      vseq := if w.queue.isVector then s.cpu.vseq + 1 else s.cpu.vseq } } := by
  rw [State.forwarded, h, Cell.flowTo_frame]
  rfl

/-- What the forwarding of a word makes of its cell. -/
def Issue.enter (w : Issue) (c : Cell) : Cell :=
  { w.also c with
    pending := c.pending ++ [w.cmd c]
    vseq := if w.queue.isVector then c.vseq + 1 else c.vseq }

theorem advance_enter {w : Issue} {s : State} (hi : s.cpu.pending = []) (ha : w.MovesRing s.cpu) :
    (s.upd w.enter).advance = s.forwarded w := by
  have hcell : w.enter s.cpu = { s.cpu with
      accFmt := (w.also s.cpu).accFmt
      accH := (w.also s.cpu).accH
      accT := (w.also s.cpu).accT
      pending := [w.cmd s.cpu]
      vseq := if w.queue.isVector then s.cpu.vseq + 1 else s.cpu.vseq } := by
    unfold Issue.enter
    rw [ha, hi]
    rfl
  have hflow : (w.enter s.cpu).flowTo (s.cpu.pc + 4) = { w.enter s.cpu with
      pc := (s.cpu.flowTo (s.cpu.pc + 4)).pc
      loops := (s.cpu.flowTo (s.cpu.pc + 4)).loops
      lc := (s.cpu.flowTo (s.cpu.pc + 4)).lc } := Cell.flowTo_congr _ (by rw [hcell]) (by rw [hcell])
  have hpc : (w.enter s.cpu).pc = s.cpu.pc := by rw [hcell]
  show { s with cpu := (w.enter s.cpu).flowTo ((w.enter s.cpu).pc + 4) } = _
  rw [hpc, hflow, hcell, State.forwarded, Cell.flowTo_frame s.cpu]

/-- The command of an idle, eager cell is taken up at once. -/
theorem enqueue_idle {w : Issue} {s : State} (hi : s.cpu.pending = []) (he : s.cpu.eager = true) (ha : w.MovesRing s.cpu)
    (hr : w.ranges.length ≤ 64) (unit : Cmd → State → EngOut) :
    enqueue w unit s = .next ((s.forwarded w).drive unit 0 unitFuel) := by
  have hroom : ¬ 64 < s.cpu.rangesUsed + w.ranges.length := by
    rw [Cell.rangesUsed, hi]
    simpa using hr
  have hstart : (s.forwarded w).mayStart 0 = true := by simp [State.mayStart]
  unfold enqueue
  change (if _ then _ else if s.cpu.eager && (s.upd w.enter).advance.mayStart s.cpu.pending.length then
    Host.Outcome.next ((s.upd w.enter).advance.drive unit s.cpu.pending.length unitFuel) else _) = _
  rw [if_neg hroom, advance_enter hi ha, hi, he, List.length_nil, hstart, Bool.true_and, if_pos rfl]

/-- A cell without commands is the one whose commands are dropped. -/
theorem Cell.dropPending_of_idle {c : Cell} (h : c.pending = []) : { c with pending := [] } = c := by
  rw [← h]

theorem Cell.flowTo_idle {c : Cell} (h : c.pending = []) (t : Word) :
    { c.flowTo t with pending := [] } = c.flowTo t :=
  Cell.dropPending_of_idle (by rw [Cell.flowTo_frame]; exact h)

/-! ### The engine takes the only command through its units -/

section
variable {unit : Cmd → State → EngOut} {d d' : Cmd} {s t : State} (hp : s.cpu.pending = [d]) (hs : s.cpu.poison = [])
include hp hs

theorem drive_done (hu : unit d s = .done t) (hp' : t.cpu.pending = [d]) (hs' : t.cpu.poison = []) (n : Nat) :
    s.drive unit 0 (n + 1) = t.upd (fun c => { c with pending := [] }) := by
  have hread : s.cpu.readsBad d = false := by simp [Cell.readsBad, meets, hs]
  have hrun : s.runUnit unit 0 = (t.upd (fun c => { c with pending := [] }), false) := by
    simp [State.runUnit, hp, hread, hu, hp', Cell.healed, hs', State.upd]
  rw [State.drive, hrun]

theorem drive_more (hu : unit d s = .more d' t) (hp' : t.cpu.pending = [d]) (hs' : t.cpu.poison = []) (n : Nat) :
    s.drive unit 0 (n + 1) = (t.upd (fun c => { c with pending := [{ d' with started := true }] })).drive unit 0 n := by
  have hread : s.cpu.readsBad d = false := by simp [Cell.readsBad, meets, hs]
  have hrun : s.runUnit unit 0 = (t.upd (fun c => { c with pending := [{ d' with started := true }] }), true) := by
    simp [State.runUnit, State.setCmd, hp, hread, hu, hp', Cell.healed, hs', State.upd]
  rw [State.drive, hrun]

end

/-- A word of an idle, eager cell whose command is done in one unit. -/
theorem VectorReady.exec_done {r : BitVec 3} {vs : List (BitVec 5)} {s t : State} (h : VectorReady r vs s) {i : Instr} {w : Issue}
    {unit : Cmd → State → EngOut} (hi : exec i s = enqueue w unit s) (ha : w.MovesRing s.cpu) (hr : w.ranges.length ≤ 64)
    (hu : unit (w.cmd s.cpu) (s.forwarded w) = .done t) (hp : t.cpu.pending = [w.cmd s.cpu]) (hs : t.cpu.poison = []) :
    exec i s = .next (t.upd (fun c => { c with pending := [] })) := by
  have hs' : (s.forwarded w).cpu.poison = [] := (forwarded_poison ..).trans h.sound
  rw [hi, enqueue_idle h.idle h.eager ha hr, unitFuel, drive_done (forwarded_pending ..) hs' hu hp hs]

end Sys2Proof.Machine

/-! # Proofs: CSR writes (O15) -/

namespace Sys2Proof.Machine

/-! ### Fields that must be 0 (R82, R86, R101, R121) -/

/-- The bits of a word from `n` up are 0 when it is below `2 ^ n`. -/
theorem extractLsb'_high_eq_zero_iff (v : Word) (n k : Nat) (h : n + k = 64) : v.extractLsb' n k = 0 ↔ v.toNat < 2 ^ n := by
  have hv : v.toNat < 2 ^ n * 2 ^ k := by rw [← Nat.pow_add, h]; exact v.isLt
  rw [← BitVec.toNat_inj, BitVec.extractLsb'_toNat, Nat.shiftRight_eq_div_pow, Nat.mod_eq_of_lt (Nat.div_lt_of_lt_mul hv)]
  exact Nat.div_eq_zero_iff_lt (Nat.two_pow_pos n)

theorem vslipOk_iff (v : Word) :
    vslipOk v = true ↔ (1 ≤ (v.extractLsb' 0 6).toNat ∧ (v.extractLsb' 0 6).toNat ≤ 32) ∧
      (1 ≤ (v.extractLsb' 8 6).toNat ∧ (v.extractLsb' 8 6).toNat ≤ 32) ∧
      (1 ≤ (v.extractLsb' 16 6).toNat ∧ (v.extractLsb' 16 6).toNat ≤ 32) ∧
      v.extractLsb' 6 2 = 0 ∧ v.extractLsb' 14 2 = 0 ∧ v.toNat < 2 ^ 22 := by
  simp only [vslipOk, depthOk, Bool.and_eq_true, decide_eq_true_eq, and_assoc, extractLsb'_high_eq_zero_iff v 22 42 rfl]

theorem vrmOk_iff (v : Word) : vrmOk v = true ↔ v.toNat < 16 ∧ (v.extractLsb' 0 3).toNat ≤ 4 := by
  simp only [vrmOk, Bool.and_eq_true, decide_eq_true_eq, extractLsb'_high_eq_zero_iff v 4 60 rfl]
  rfl

/-! ### Writes that take effect, and reads after them -/

/-- A write of ftbase stands before every mqctl.ftb already queued (R86, R87). -/
theorem Cell.ftbaseNow_setFtbase (c : Cell) (v : Word) : (c.setFtbase v).ftbaseNow = v := by
  unfold Cell.ftbaseNow Cell.setFtbase
  simp only [List.foldl_map]
  induction c.pending with
  | nil => rfl
  | cons d ds ih =>
    rw [List.foldl_cons]
    convert ih using 2
    obtain ⟨i⟩ := d
    cases i <;> rfl

theorem State.csr_lc (s : State) (k : BitVec 2) : s.csr (0x808 + k.setWidth 12) = s.cpu.rlc k.toNat := by
  match k with
  | 0 | 1 | 2 | 3 => rfl

theorem Cell.csrWrite_lc (c : Cell) (k : BitVec 2) (v : Word) :
    c.csrWrite (0x808 + k.setWidth 12) v = if v.toNat < 2 ^ 32 then c.setLc k.toNat v else c := by
  rw [← if_congr (extractLsb'_high_eq_zero_iff v 32 32 rfl) rfl rfl]
  match k with
  | 0 | 1 | 2 | 3 => rfl

theorem Cell.setLc_frame (c : Cell) (k : Nat) (v : Word) :
    c.setLc k v = { c with lc := (c.wlc k v).lc, savedLc := (c.setLc k v).savedLc } := by
  unfold Cell.setLc
  split <;> rfl

/-- Only a handler's write sets the counter of the task too (assumption log 55). -/
theorem Cell.setLc_savedLc_of_task {c : Cell} (h : c.handler = false) (k : Nat) (v : Word) :
    (c.setLc k v).savedLc = c.savedLc := by
  simp [Cell.setLc, h]

theorem Cell.rlc_setLc (c : Cell) (k : BitVec 2) (v : Word) (j : BitVec 2) :
    (c.setLc k.toNat v).rlc j.toNat = if j = k then v else c.rlc j.toNat := by
  rw [Cell.setLc_frame]
  show (c.lc.set (k.toNat % 4) v (Nat.mod_lt _ (by decide)))[j.toNat % 4]'(Nat.mod_lt _ (by decide)) = _
  rw [Vector.getElem_set]
  have hk : k.toNat % 4 = k.toNat := Nat.mod_eq_of_lt k.isLt
  have hj : j.toNat % 4 = j.toNat := Nat.mod_eq_of_lt j.isLt
  by_cases h : j = k
  · rw [if_pos h, if_pos (by rw [h])]
  · rw [if_neg h, if_neg (by rw [hk, hj, BitVec.toNat_inj]; exact Ne.symm h)]
    rfl

/-! ### The events -/

/-- Settles O15: each event is a write of its CSR, which its field rule takes or discards. -/
theorem csrWritesFollowFieldRules : Obligations.CsrWritesFollowFieldRules := by
  unfold Obligations.CsrWritesFollowFieldRules
  intro v s depth slip mode kept
  have takes {i : Instr} {n : BitVec 12} {c : Cell} (hi : exec i s = .next (s.upd (fun c => c.csrWrite n v)))
      (hc : s.cpu.csrWrite n v = c) : Completes i s (fun t => t = { s with cpu := c }) :=
    ⟨_, hi, by rw [State.upd, hc]⟩
  have discards {i : Instr} {n : BitVec 12} (hi : exec i s = .next (s.upd (fun c => c.csrWrite n v)))
      (hc : s.cpu.csrWrite n v = s.cpu) : Completes i s (fun t => t = s) := takes hi hc
  have ftbase : v.extractLsb' 6 58 = 0 ↔ v.toNat < 64 := extractLsb'_high_eq_zero_iff v _ _ rfl
  have ftsel : v.extractLsb' 2 62 = 0 ↔ v.toNat < 4 := extractLsb'_high_eq_zero_iff v _ _ rfl
  refine ⟨fun h => takes (exec_csrWriteVslip ..) (if_pos ((vslipOk_iff v).mpr h)),
    fun h => discards (exec_csrWriteVslip ..) (if_neg (mt (vslipOk_iff v).mp h)),
    fun h => takes (exec_csrWriteVrm ..) (if_pos ((vrmOk_iff v).mpr h)),
    fun h => discards (exec_csrWriteVrm ..) (if_neg (mt (vrmOk_iff v).mp h)), ?ftbase,
    fun h => discards (exec_csrWriteFtbase ..) (if_neg (mt ftbase.mp (Nat.not_lt.mpr h))),
    fun h => takes (exec_csrWriteFtsel ..) (if_pos (ftsel.mpr h)),
    fun h => discards (exec_csrWriteFtsel ..) (if_neg (mt ftsel.mp (Nat.not_lt.mpr h))), ?lc,
    fun k h => discards (exec_csrWriteLc ..) ((s.cpu.csrWrite_lc k v).trans (if_neg (Nat.not_lt.mpr h))),
    takes (exec_csrWriteNbstat ..) rfl, ?pidx, takes (exec_csrWrite ..) rfl, takes (exec_csrWrite ..) rfl,
    takes (exec_csrWrite ..) rfl, takes (exec_csrWrite ..) rfl⟩
  case ftbase =>
    intro h
    obtain ⟨t, ht, rfl⟩ := takes (exec_csrWriteFtbase ..) (if_pos (ftbase.mpr h))
    exact ⟨_, ht, s.cpu.ftbaseNow_setFtbase v, rfl⟩
  case lc =>
    intro k h
    obtain ⟨t, ht, rfl⟩ := takes (exec_csrWriteLc ..) ((s.cpu.csrWrite_lc k v).trans (if_pos h))
    simp only [State.csr_lc]
    refine ⟨_, ht, ?_, ?_, fun hh => Cell.setLc_savedLc_of_task hh _ v, fun j hj => ?_⟩
    · rw [Cell.rlc_setLc, if_pos rfl]
    · rw [Cell.setLc_frame]
    · rw [Cell.rlc_setLc, if_neg hj]
  case pidx =>
    intro h
    exact takes (exec_csrWritePidx ..) (by simp [Cell.csrWrite, Cell.writePidx, h])

end Sys2Proof.Machine

/-! # Proofs: lane-wise words of one vector register (O26) -/

namespace Sys2Proof.Machine

/-! ### A vector word of an idle, eager cell (R95, R132, R134) -/

/-- A format-V word as its front end forwards it. -/
def vectorIssue (i : Instr) (op0 op1 aux : Word) : Issue := { instr := i, queue := .arith, op0 := op0, op1 := op1, aux := aux }

section
variable {r : BitVec 3} {vs : List (BitVec 5)} {s : State} (h : VectorReady r vs s) {vs' : List (BitVec 5)} (hs : ∀ v ∈ vs', v ∈ vs)
  {i : Instr} {regs : List (BitVec 5)} {op0 op1 aux : Word} {unit : Cmd → State → EngOut}
  (hi : exec i s = vectorWord i r vs' regs op0 op1 aux unit s)
include h hs hi

/-- A word whose one unit writes a vector register completes at once. -/
theorem VectorReady.completes_setV {d : BitVec 5} {x : VReg}
    (hu : unit ((vectorIssue i op0 op1 aux).cmd s.cpu) (s.forwarded (vectorIssue i op0 op1 aux)) =
      .done ((s.forwarded (vectorIssue i op0 op1 aux)).setV d x)) :
    Completes i s (fun t => t.cpu.rv d = x ∧ WroteV s d (lane x) t) := by
  set w := vectorIssue i op0 op1 aux with hw
  have hrun : exec i s = .next (((s.forwarded w).setV d x).upd (fun c => { c with pending := [] })) := by
    have hi' : exec i s = enqueue w unit s := by rw [hi, vectorWord, h.forwardWord (h.notAllotted_of_subset hs)]; rfl
    exact h.exec_done hi' rfl (Nat.zero_le _) hu (forwarded_pending s w) ((forwarded_poison s w).trans h.sound)
  have hv (n : BitVec 5) : (((s.forwarded w).setV d x).upd (fun c => { c with pending := [] })).cpu.rv n =
      if n = d then x else s.cpu.rv n := by
    refine (Cell.rv_wv (s.forwarded w).cpu d n x).trans ?_
    rw [forwarded_rv]
  refine ⟨_, hrun, by rw [hv, if_pos rfl], fun i _ => by rw [hv, if_pos rfl], fun n hn => by rw [hv, if_neg hn],
    ⟨fun _ => rfl, fun _ => rfl⟩, ?_⟩
  rw [forwarded_of_also_id rfl, ← Cell.flowTo_idle h.idle]
  rfl

/-- A word whose one unit writes the lanes that the mask lets through. -/
theorem VectorReady.completes_writeLanes {m : BitVec 1} {d : BitVec 5} {f g : Nat → Lane}
    (hu : unit ((vectorIssue i op0 op1 aux).cmd s.cpu) (s.forwarded (vectorIssue i op0 op1 aux)) =
      writeLanes m d f (s.forwarded (vectorIssue i op0 op1 aux)))
    (hf : ∀ n, n < 32 → f n = g n) : Completes i s (WroteV s d (s.cpu.masked m d g)) := by
  obtain ⟨t, ht, -, hl, ho, hm, hr⟩ := h.completes_setV hs hi hu
  refine ⟨t, ht, fun n hn => ?_, ho, hm, hr⟩
  rw [hl n hn, lane_ofLanes _ _ hn, forwarded_rv, Cell.masked, ← hf n hn]
  simp only [laneOn, forwarded_rk, Bool.or_eq_true, decide_eq_true_eq]

/-- A word whose one unit computes each lane from the lane of one register. -/
theorem VectorReady.completes_lanes1 {m : BitVec 1} {a d : BitVec 5} {f : Lane → Lane} {g : Nat → Lane}
    (hu : unit ((vectorIssue i op0 op1 aux).cmd s.cpu) (s.forwarded (vectorIssue i op0 op1 aux)) =
      lanes1 m a d f (s.forwarded (vectorIssue i op0 op1 aux)))
    (hf : ∀ n, n < 32 → f (lane (s.cpu.rv a) n) = g n) : Completes i s (WroteV s d (s.cpu.masked m d g)) :=
  h.completes_writeLanes hs hi hu fun n hn => by rw [forwarded_rv, hf n hn]

end

/-! ### Codes of a vector register (R77, R93) -/

theorem Fmt.width_pos (f : Fmt) : 0 < f.width := by unfold Fmt.width; grind
theorem Fmt.width_le (f : Fmt) : f.width ≤ 32 := by unfold Fmt.width; grind

/-- Codes put together fill `n` fields of `w` bits. -/
theorem putCodes_lt (w : Nat) (old : VReg) (on : Nat → Bool) (f : Nat → Nat) (n : Nat) : putCodes w old on f n < 2 ^ (w * n) := by
  induction n with
  | zero => exact Nat.one_pos
  | succ n ih =>
    have hc : (if on n then f n % 2 ^ w else codeAt old w n) < 2 ^ w := by
      split <;> exact Nat.mod_lt _ (Nat.two_pow_pos w)
    calc putCodes w old on f n + _ * 2 ^ (w * n) < 2 ^ (w * n) + (2 ^ w - 1) * 2 ^ (w * n) :=
          Nat.add_lt_add_of_lt_of_le ih (Nat.mul_le_mul_right _ (Nat.le_sub_one_of_lt hc))
      _ = 2 ^ (w * (n + 1)) := by
          rw [Nat.add_comm, ← Nat.succ_mul, Nat.succ_eq_add_one, Nat.sub_add_cancel (Nat.two_pow_pos w), ← Nat.pow_add,
            Nat.mul_succ, Nat.add_comm w]

/-- A field of codes put together is its code, whatever stands above the last field. -/
theorem putCodes_code (w : Nat) (old : VReg) (on : Nat → Bool) (f : Nat → Nat) {n i : Nat} (h : i < n) (high : Nat) :
    (putCodes w old on f n + high * 2 ^ (w * n)) / 2 ^ (w * i) % 2 ^ w = if on i then f i % 2 ^ w else codeAt old w i := by
  induction n generalizing high with
  | zero => omega
  | succ n ih =>
    have hsplit : putCodes w old on f (n + 1) + high * 2 ^ (w * (n + 1)) =
        putCodes w old on f n + ((if on n then f n % 2 ^ w else codeAt old w n) + high * 2 ^ w) * 2 ^ (w * n) := by
      rw [putCodes, Nat.mul_succ, Nat.pow_add, Nat.add_mul, Nat.mul_assoc, Nat.mul_comm (2 ^ w), Nat.add_assoc]
    rw [hsplit]
    by_cases hi : i < n
    · exact ih hi _
    · obtain rfl : i = n := by omega
      rw [Nat.add_mul_div_right _ _ (Nat.two_pow_pos _), Nat.div_eq_of_lt (putCodes_lt ..), Nat.zero_add,
        Nat.add_mul_mod_self_right]
      split <;> exact Nat.mod_mod ..

theorem toNat_ofNat_of_lt_two_pow {k v : Nat} (h : v < 2 ^ k) : (BitVec.ofNat k v).toNat = v := by
  rw [BitVec.toNat_ofNat, Nat.mod_eq_of_lt h]

/-- The register that vcvtn writes (R93). -/
def narrowed (m : BitVec 1) (fmt : Fmt) (mode : RMode) (c : Cell) (a d : BitVec 5) : Nat :=
  putCodes fmt.width (c.rv d) (laneOn m c) (fun i => roundCode fmt mode (lane (c.rv a) i)) 32 +
    if m = 0 then 0 else (c.rv d).toNat / 2 ^ (32 * fmt.width) * 2 ^ (32 * fmt.width)

theorem narrowLanes_of_desc {aux : Word} {fmt : Fmt} (h : decodeDesc (aux.extractLsb' 0 32) = some fmt) (m : BitVec 1)
    (a d : BitVec 5) (s : State) : narrowLanes m a d aux s =
      .done (s.setV d (BitVec.ofNat 1024 (narrowed m fmt (RMode.ofBits (aux.extractLsb' 32 4)) s.cpu a d))) := by
  simp only [narrowLanes, h, narrowed]

theorem narrowed_lt_of_unmasked {m : BitVec 1} (hm : m = 0) (fmt : Fmt) (mode : RMode) (c : Cell) (a d : BitVec 5) :
    narrowed m fmt mode c a d < 2 ^ (32 * fmt.width) := by
  rw [narrowed, if_pos hm, Nat.add_zero, Nat.mul_comm 32]
  exact putCodes_lt ..

/-- Low bits may be replaced below the others. -/
theorem add_high_lt_two_pow {n k x : Nat} (h : n ≤ k) (v : BitVec k) (hx : x < 2 ^ n) : x + v.toNat / 2 ^ n * 2 ^ n < 2 ^ k := by
  have hsplit : 2 ^ n * 2 ^ (k - n) = 2 ^ k := pow_mul_pow_sub 2 h
  have hd : v.toNat / 2 ^ n < 2 ^ (k - n) := Nat.div_lt_of_lt_mul (hsplit ▸ v.isLt)
  calc x + v.toNat / 2 ^ n * 2 ^ n < (v.toNat / 2 ^ n + 1) * 2 ^ n := by rw [Nat.succ_mul, Nat.add_comm]; exact Nat.add_lt_add_left hx _
    _ ≤ 2 ^ k := by rw [← hsplit, Nat.mul_comm]; exact Nat.mul_le_mul_left _ hd

theorem narrowed_lt (m : BitVec 1) (fmt : Fmt) (mode : RMode) (c : Cell) (a d : BitVec 5) :
    narrowed m fmt mode c a d < 2 ^ 1024 := by
  have hw : 32 * fmt.width ≤ 1024 := Nat.mul_le_mul_left 32 fmt.width_le
  by_cases hm : m = 0
  · exact (narrowed_lt_of_unmasked hm ..).trans_le (pow_le_pow_right₀ one_le_two hw)
  · rw [narrowed, if_neg hm]
    exact add_high_lt_two_pow hw (c.rv d) (Nat.mul_comm 32 _ ▸ putCodes_lt ..)

theorem codeAt_narrowed (m : BitVec 1) (fmt : Fmt) (mode : RMode) (c : Cell) (a d : BitVec 5) {i : Nat} (hi : i < 32) :
    codeAt (BitVec.ofNat 1024 (narrowed m fmt mode c a d)) fmt.width i =
      if laneOn m c i then roundCode fmt mode (lane (c.rv a) i) % 2 ^ fmt.width else codeAt (c.rv d) fmt.width i := by
  have hhigh : ∃ x, narrowed m fmt mode c a d = putCodes fmt.width (c.rv d) (laneOn m c)
      (fun i => roundCode fmt mode (lane (c.rv a) i)) 32 + x * 2 ^ (fmt.width * 32) := by
    unfold narrowed
    rw [Nat.mul_comm fmt.width 32]
    split
    · exact ⟨0, by rw [Nat.zero_mul]⟩
    · exact ⟨_, rfl⟩
  obtain ⟨x, hx⟩ := hhigh
  rw [codeAt, toNat_ofNat_of_lt_two_pow (narrowed_lt ..), hx, putCodes_code _ _ _ _ hi]

/-! ### The captured descriptor and mode (R83) -/

theorem convAux_getLsbD (c : Cell) (f : BitVec 5) (j : Nat) :
    (c.convAux f).getLsbD j = if j < 32 then c.fm[mod16 f.toNat].getLsbD j else
      if j - 32 < 4 then (c.vrm.extractLsb' 0 4).getLsbD (j - 32) else false := by
  show BitVec.getLsbD (w := 28 + 4 + 32) ((0#28 ++ c.vrm.extractLsb' 0 4) ++ c.fm[mod16 f.toNat]) j = _
  rw [BitVec.getLsbD_append, BitVec.getLsbD_append, BitVec.getLsbD_zero]

theorem convAux_desc (c : Cell) (f : BitVec 5) : (c.convAux f).extractLsb' 0 32 = c.fm[mod16 f.toNat] := by
  apply BitVec.eq_of_getLsbD_eq
  intro j hj
  rw [BitVec.getLsbD_extractLsb', convAux_getLsbD, Nat.zero_add, if_pos hj]
  simp [hj]

theorem convAux_mode (c : Cell) (f : BitVec 5) : (c.convAux f).extractLsb' 32 4 = c.vrm.extractLsb' 0 4 := by
  apply BitVec.eq_of_getLsbD_eq
  intro j hj
  rw [BitVec.getLsbD_extractLsb', convAux_getLsbD, if_neg (by omega), Nat.add_sub_cancel_left, if_pos hj]
  simp [hj]

/-- The low word of a scalar register. -/
theorem extractLsb'_low (v : Word) : v.extractLsb' 0 32 = v.setWidth 32 := (BitVec.setWidth_eq_extractLsb' (by decide)).symm

/-- Settles O26: each word is one unit that writes its lanes under the mask; vcvtn puts its codes together. -/
theorem unaryLaneWords : Obligations.UnaryLaneWords := by
  unfold Obligations.UnaryLaneWords
  constructor
  · intro m i5 b a d r s h x low offset mode gives
    have hd : ∀ v ∈ [d], v ∈ [a, d] := by simp
    have unary {i : Instr} {regs : List (BitVec 5)} {op1 aux : Word} {unit : Cmd → State → EngOut} (f : Lane → Lane)
        {g : Nat → Lane} (hi : exec i s = vectorWord i r [a, d] regs 0 op1 aux unit s)
        (hu : ∀ u, unit ((vectorIssue i 0 op1 aux).cmd s.cpu) u = lanes1 m a d f u) (hf : ∀ n, f (x n) = g n) : gives i g :=
      h.completes_lanes1 (fun _ hv => hv) hi (hu _) fun n _ => hf n
    refine ⟨unary _ (exec_vaddx ..) (fun _ => rfl) ?vaddx, unary _ (exec_vfaddx ..) (fun _ => rfl) ?vfaddx,
      unary _ (exec_vfmulx ..) (fun _ => rfl) ?vfmulx, h.completes_writeLanes hd (exec_viota ..) rfl ?viota,
      h.completes_writeLanes hd (exec_vmvxv ..) rfl ?vmvxv, unary _ (exec_vfexp2 ..) (fun _ => rfl) fun _ => rfl,
      unary _ (exec_vfrcp ..) (fun _ => rfl) fun _ => rfl, unary _ (exec_vfrsqrt ..) (fun _ => rfl) fun _ => rfl,
      unary _ (exec_vflog2 ..) (fun _ => rfl) fun _ => rfl, unary _ (exec_vcvtif ..) (fun _ => rfl) fun _ => rfl,
      unary _ (exec_vcvtfi ..) (fun _ => rfl) fun _ => rfl, fun f hf => ?vcvtw,
      h.completes_writeLanes (fun _ hv => hv) (exec_vslide ..) rfl ?vslide⟩
    case vaddx => exact fun n => congrArg (x n + ·) (extractLsb'_low _)
    case vfaddx => exact fun n => congrArg (fadd (x n)) (extractLsb'_low _)
    case vfmulx => exact fun n => congrArg (fmul (x n)) (extractLsb'_low _)
    case viota =>
      intro n _
      rw [extractLsb'_low, BitVec.setWidth_add _ _ (by decide)]
      simp [Issue.cmd, vectorIssue, low]
    case vmvxv => exact fun n _ => extractLsb'_low _
    case vcvtw =>
      refine h.completes_writeLanes (fun _ hv => hv) (exec_vcvtw ..) (f := fun n => widen f (codeAt (s.cpu.rv a) f.width n)) ?_
        fun _ _ => rfl
      simp only [unitVcvtw, widenLanes, Issue.cmd, vectorIssue, convAux_desc, hf, forwarded_rv]
    case vslide =>
      intro n _
      simp only [forwarded_rv, Bool.and_eq_true, decide_eq_true_eq]
      exact if_congr (and_congr_right fun _ => Int.le_iff_lt_add_one) rfl rfl
  · intro m f a d r fmt s h hf
    set mode := RMode.ofBits (s.cpu.vrm.extractLsb' 0 4)
    have hnarrow : Completes (.vcvtn m f a d r) s (fun t => t.cpu.rv d = BitVec.ofNat 1024 (narrowed m fmt mode s.cpu a d) ∧
        WroteV s d (lane (BitVec.ofNat 1024 (narrowed m fmt mode s.cpu a d))) t) := by
      refine h.completes_setV (fun _ hv => hv) (exec_vcvtn ..) ?_
      have hn : narrowed m fmt mode (s.forwarded (vectorIssue (.vcvtn m f a d r) 0 0 (s.cpu.convAux f))).cpu a d =
          narrowed m fmt mode s.cpu a d := by
        simp only [narrowed, forwarded_laneOn, forwarded_rv]
      refine (narrowLanes_of_desc (aux := s.cpu.convAux f) (by rw [convAux_desc, hf]) ..).trans ?_
      rw [convAux_mode, hn]
    obtain ⟨t, ht, hv, hw⟩ := hnarrow
    refine ⟨t, ht, fun n hn => ?_, fun hm => ?_, by rw [hv]; exact hw⟩
    · rw [hv, codeAt_narrowed _ _ _ _ _ _ hn]
      simp only [laneOn, Bool.or_eq_true, decide_eq_true_eq]
    · rw [hv, BitVec.toNat_ofNat]
      exact (Nat.mod_le ..).trans_lt (narrowed_lt_of_unmasked hm ..)

end Sys2Proof.Machine

/-! # Proofs: tiles and scratchpad views (O34) -/

namespace Sys2Proof.Machine

/-! ### Steps of which the last one on a place stands -/

/-- A place that each step of a fold overwrites or leaves: the last step that overwrites it stands. -/
theorem foldl_observed {σ α γ : Type} {step : σ → α → σ} {inv : σ → Prop} {obs : σ → γ} {p : α → Bool} {g : α → γ} (l : List α)
    (hinv : ∀ t q, inv t → inv (step t q)) (hobs : ∀ q ∈ l, ∀ t, inv t → obs (step t q) = if p q then g q else obs t)
    {s : σ} (h : inv s) :
    inv (l.foldl step s) ∧ obs (l.foldl step s) = ((l.reverse.find? p).map g).getD (obs s) := by
  induction l using List.reverseRecOn with
  | nil => exact ⟨h, rfl⟩
  | append_singleton l q ih =>
    simp only [List.forall_mem_append, List.forall_mem_singleton] at hobs
    obtain ⟨hi, ho⟩ := ih hobs.1
    rw [List.foldl_concat, List.reverse_concat, List.find?_cons]
    refine ⟨hinv _ q hi, ?_⟩
    rw [hobs.2 _ hi]
    cases hq : p q
    · rw [if_neg Bool.false_ne_true, ho]
    · rw [if_pos rfl]; rfl

/-- The last number below `n` of which `p` holds. -/
theorem find?_reverse_range {p : Nat → Bool} {n i : Nat} (hi : i < n) (hp : p i = true)
    (hlast : ∀ j, i < j → j < n → p j = false) : (List.range n).reverse.find? p = some i := by
  induction n with
  | zero => omega
  | succ n ih =>
    rw [List.range_succ, List.reverse_concat, List.find?_cons]
    by_cases h : i = n
    · rw [← h, hp]
    · rw [hlast n (by omega) (by omega)]
      exact ih (by omega) fun j hj hn => hlast j hj (by omega)

/-! ### Runs of scratchpad writes -/

section
variable {α : Type} (o n v : α → Nat) (s : State)

/-- The writes change the bytes and the poison alone, in ways that depend on the cell's cluster alone. -/
theorem foldl_spWrite_eq (l : List α) : l.foldl (fun t q => t.spWrite (o q) (n q) (v q)) s = { s with
    sp := l.foldl (fun m q => writeLE m (spKey s.cpu.cluster (o q)) (n q) (v q)) s.sp
    spPoison := l.foldl (fun g q => healed g (spKey s.cpu.cluster (o q)) (n q)) s.spPoison } := by
  induction l using List.reverseRecOn with
  | nil => rfl
  | append_singleton l q ih =>
    simp only [List.foldl_concat, ih]
    rfl

/-- Each byte is that of the last write that covers it. -/
theorem readByte_foldl_spWrite (h : Memory.wf s.sp = true) (l : List α) (z : Nat) :
    readByte (l.foldl (fun t q => t.spWrite (o q) (n q) (v q)) s).sp z =
      ((l.reverse.find? (fun q => decide (spKey s.cpu.cluster (o q) ≤ z) && decide (z < spKey s.cpu.cluster (o q) + n q))).map
        (fun q => BitVec.ofNat 8 (v q / 256 ^ (z - spKey s.cpu.cluster (o q))))).getD (readByte s.sp z) := by
  refine (foldl_observed (inv := fun (t : State) => Memory.wf t.sp = true ∧ t.cpu = s.cpu) (obs := fun (t : State) => readByte t.sp z)
    l ?_ ?_ ⟨h, rfl⟩).2
  · rintro t q ⟨ht, hc⟩
    exact ⟨writeLE_wf ht .., hc⟩
  · rintro q - t ⟨ht, hc⟩
    simp only [State.spWrite_sp, readByte_writeLE ht, hc, Bool.and_eq_true, decide_eq_true_eq]

end

/-! ### Views (R47, R155, R359) -/

theorem Pair.spRow_lt (p : Pair) (l i : Nat) : p.spRow l i < 2 ^ 22 := by
  unfold Pair.spRow
  exact Nat.mod_lt _ (by decide)

theorem spKey_of_lt (cluster : Nat) {o : Nat} (h : o < 2 ^ 22) : spKey cluster o = cluster * 2 ^ 22 + o := by
  rw [spKey, Nat.mod_eq_of_lt h]

/-- The rows of an aligned view start at lines. -/
theorem Pair.spRow_aligned {p : Pair} (h : p.aligned = true) (l i : Nat) : 128 ∣ p.spRow l i := by
  simp only [Pair.aligned, Bool.and_eq_true, decide_eq_true_eq] at h
  obtain ⟨⟨hb, hr⟩, ht⟩ := h
  refine (Nat.dvd_mod_iff (by decide)).mpr (Nat.dvd_add (Nat.dvd_add (Nat.dvd_add (Nat.dvd_of_mod_eq_zero hb) ?_) ?_) ?_)
  · exact (Nat.dvd_of_mod_eq_zero ht).mul_right _
  · exact (Nat.dvd_of_mod_eq_zero hr).mul_right _
  · exact Nat.dvd_mul_right ..

theorem Pair.ofCompact_eq (w : Word) : Pair.ofCompact w =
    ⟨w.toNat % 2 ^ 22, w.toNat / 2 ^ 22 % 2 ^ 16, w.toNat / 2 ^ 38 % 2 ^ 22, w.toNat / 2 ^ 60 % 2 ^ 4⟩ := by
  simp only [Pair.ofCompact, BitVec.extractLsb'_toNat, Nat.shiftRight_eq_div_pow, pow_zero, Nat.div_one]

theorem Pair.ofCompact_compact_of_lt {b r t o : Nat} (hb : b < 2 ^ 22) (hr : r < 2 ^ 16) (ht : t < 2 ^ 22) (ho : o < 2 ^ 4) :
    Pair.ofCompact (Pair.compact ⟨b, r, t, o⟩) = ⟨b, r, t, o⟩ := by
  have hfit : b + r * 2 ^ 22 + t * 2 ^ 38 + o * 2 ^ 60 < 2 ^ 64 := by omega
  rw [Pair.ofCompact_eq, Pair.compact, BitVec.toNat_ofNat, Nat.mod_eq_of_lt hfit]
  congr 1 <;> omega

/-- A pair read from registers is kept by its compact form. -/
theorem Pair.ofCompact_compact {c : Cell} {n : BitVec 5} {p : Pair} (h : c.spPair n = some p) : Pair.ofCompact p.compact = p := by
  simp only [Cell.spPair, Option.ite_none_left_eq_some, Option.some.injEq] at h
  rw [← h.2]
  exact Pair.ofCompact_compact_of_lt (BitVec.isLt _) (BitVec.isLt _) (BitVec.isLt _) (BitVec.isLt _)

theorem viewCheck_ok {c : Cell} {p q : Pair} {v : Word} {runs : List (Nat × Nat)} (h : viewCheck c p v runs = .ok q) :
    q = p ∧ p.aligned = true := by
  unfold viewCheck at h
  grind

theorem viewOf_ok {c : Cell} {n : BitVec 5} {p : Pair} (h : viewOf c n = .ok p) : c.spPair n = some p ∧ p.aligned = true := by
  unfold viewOf at h
  split at h
  · nomatch h
  · rename_i q hq
    obtain ⟨rfl, ha⟩ := viewCheck_ok h
    exact ⟨hq, ha⟩

/-! ### Tiles (R125, R161) -/

theorem Cell.rm_wm (c : Cell) (n m : Nat) (t : Tile) : (c.wm n t).rm m = if m % 8 = n % 8 then t else c.rm m := by
  show (c.m.set (n % 8) t (Nat.mod_lt _ (by decide)))[m % 8]'(Nat.mod_lt _ (by decide)) = _
  rw [Vector.getElem_set]
  exact if_congr eq_comm rfl rfl

theorem tileRow_ofFn (f : Fin 32 → VReg) {i : Nat} (h : i < 32) : tileRow (Vector.ofFn f) i = f ⟨i, h⟩ := by
  have hi : i % 32 = i := Nat.mod_eq_of_lt h
  simp only [tileRow, Vector.getElem_ofFn, hi]

theorem tileRow_setTileRow (t : Tile) (i j : Nat) (r : VReg) :
    tileRow (setTileRow t i r) j = if j % 32 = i % 32 then r else tileRow t j :=
  (Vector.getElem_set ..).trans (if_congr eq_comm rfl rfl)

/-- The lines are full and sound: the read goes ahead (R156, R412). -/
theorem spReading_sound {s : State} {runs : List (Nat × Nat)} (hb : s.spBlocked runs = false) (hp : s.spPoisoned runs = none)
    (w : Cmd) (go : EngOut) : spReading s w runs go = go := by
  simp [spReading, hb, hp]

/-- A number of `n` bytes is the one that its bytes read back as. -/
theorem readLE_of_bytes {m : List Host.Cell} {k n : Nat} (x : BitVec (8 * n))
    (h : ∀ y, y < n → readByte m (k + y) = BitVec.ofNat 8 (x.toNat / 256 ^ y)) : readLE m k n = x.toNat := by
  have hx : x.toNat < 256 ^ n := by
    have := x.isLt
    rwa [Nat.pow_mul] at this
  have hwf : Memory.wf [] = true := rfl
  rw [← Nat.mod_eq_of_lt hx, ← readLE_writeLE hwf k]
  refine readLE_congr k n fun y hy => ?_
  rw [h y hy, readByte_writeLE hwf, if_pos (by omega), Nat.add_sub_cancel_left]

/-- tld and tst as their front end forwards them. -/
def viewIssue (i : Instr) (p : Pair) (lv : Nat) (write : Bool) : Issue :=
  { instr := i, queue := .matrix, op0 := p.compact, lv := lv, ranges := [rangeOf write (p.rows lv)] }

/-- What tst makes of the scratchpad. -/
def State.tileStored (s : State) (p : Pair) (l : Nat) (t : Tile) : State :=
  (List.range 32).foldl (fun u i => u.setSpLine (p.spRow l i) (tileRow t i)) s

theorem tileStored_eq (s : State) (p : Pair) (l : Nat) (t : Tile) : s.tileStored p l t = { s with
    sp := (List.range 32).foldl (fun m i => writeLE m (spKey s.cpu.cluster (p.spRow l i)) 128 (tileRow t i).toNat) s.sp
    spPoison := (List.range 32).foldl (fun g i => healed g (spKey s.cpu.cluster (p.spRow l i)) 128) s.spPoison } :=
  foldl_spWrite_eq (fun i => p.spRow l i) (fun _ => 128) (fun i => (tileRow t i).toNat) s _

theorem tileStored_forwarded (s : State) (w : Issue) (p : Pair) (l : Nat) (t : Tile) :
    (s.forwarded w).tileStored p l t =
      { s.forwarded w with sp := (s.tileStored p l t).sp, spPoison := (s.tileStored p l t).spPoison } := by
  rw [tileStored_eq, tileStored_eq, forwarded_cluster, forwarded_sp, forwarded_spPoison]

/-- Each byte is that of the last row that covers it. -/
theorem readByte_tileStored {s : State} (h : Memory.wf s.sp = true) (p : Pair) (l : Nat) (t : Tile) (z : Nat) :
    readByte (s.tileStored p l t).sp z = (((List.range 32).reverse.find? (fun i =>
        decide (spKey s.cpu.cluster (p.spRow l i) ≤ z) && decide (z < spKey s.cpu.cluster (p.spRow l i) + 128))).map
      (fun i => BitVec.ofNat 8 ((tileRow t i).toNat / 256 ^ (z - spKey s.cpu.cluster (p.spRow l i))))).getD (readByte s.sp z) :=
  readByte_foldl_spWrite (fun i => p.spRow l i) (fun _ => 128) (fun i => (tileRow t i).toNat) s h _ z

/-- Each row of an aligned view that no later row lies on reads back. -/
theorem readLE_tileStored {s : State} (h : Memory.wf s.sp = true) {p : Pair} (ha : p.aligned = true) (l : Nat) (t : Tile) {i : Nat}
    (hi : i < 32) (hlast : ∀ j, i < j → j < 32 → p.spRow l j ≠ p.spRow l i) :
    readLE (s.tileStored p l t).sp (spKey s.cpu.cluster (p.spRow l i)) 128 = (tileRow t i).toNat := by
  refine readLE_of_bytes (n := 128) (tileRow t i) fun y hy => ?_
  have hcovers (j : Nat) : (decide (spKey s.cpu.cluster (p.spRow l j) ≤ spKey s.cpu.cluster (p.spRow l i) + y) &&
      decide (spKey s.cpu.cluster (p.spRow l i) + y < spKey s.cpu.cluster (p.spRow l j) + 128)) =
      decide (p.spRow l j = p.spRow l i) := by
    have hj := Pair.spRow_aligned ha l j
    have hi := Pair.spRow_aligned ha l i
    rw [spKey_of_lt _ (p.spRow_lt l j), spKey_of_lt _ (p.spRow_lt l i), ← Bool.decide_and, decide_eq_decide]
    omega
  rw [readByte_tileStored h, find?_reverse_range hi, Option.map_some, Option.getD_some, Nat.add_sub_cancel_left]
  · rw [hcovers, decide_eq_true rfl]
  · intro j hij hj
    rw [hcovers, decide_eq_false (hlast j hij hj)]

theorem readByte_tileStored_of_outside {s : State} (h : Memory.wf s.sp = true) (p : Pair) (l : Nat) (t : Tile) {z : Nat}
    (hz : ∀ i, i < 32 → z < spKey s.cpu.cluster (p.spRow l i) ∨ spKey s.cpu.cluster (p.spRow l i) + 128 ≤ z) :
    readByte (s.tileStored p l t).sp z = readByte s.sp z := by
  rw [readByte_tileStored h, List.find?_eq_none.mpr]
  · rfl
  · intro i hi
    rw [List.mem_reverse, List.mem_range] at hi
    have := hz i hi
    simp only [Bool.and_eq_true, decide_eq_true_eq]
    omega

section
variable {a d : BitVec 5} {r : BitVec 3} {p : Pair} {s : State} (h : VectorReady r [] s) (hp : viewOf s.cpu a = .ok p)
include h hp

/-- tld writes its tile register and changes nothing else. -/
theorem completes_tld (hb : s.spBlocked (p.rows s.cpu.loopValue) = false) (hsound : s.spPoisoned (p.rows s.cpu.loopValue) = none) :
    Completes (.tld a d r) s (fun t =>
      (∀ n, t.cpu.rm n = if n % 8 = d.toNat % 8 then Vector.ofFn (fun i : Fin 32 => s.spLine (p.rawRow s.cpu.loopValue i))
        else s.cpu.rm n) ∧
      t = { s with cpu := { s.cpu.flowTo (s.cpu.pc + 4) with m := t.cpu.m } }) := by
  set w := viewIssue (.tld a d r) p s.cpu.loopValue false
  have hi : exec (.tld a d r) s = enqueue w (unitTld d) s := by
    rw [exec_tld, execTld, h.forwardWord (ns := []) rfl]
    simp only [hp]
    rfl
  have hu : unitTld d (w.cmd s.cpu) (s.forwarded w) = .done ((s.forwarded w).upd (fun c => c.wm d.toNat
      (Vector.ofFn (fun i => s.spLine (p.rawRow s.cpu.loopValue i))))) := by
    have hruns : viewRuns (w.cmd s.cpu).op0 (w.cmd s.cpu).lv = p.rows s.cpu.loopValue :=
      congrArg (Pair.rows · s.cpu.loopValue) (Pair.ofCompact_compact (viewOf_ok hp).1)
    have hrow (i : Fin 32) : (p.rows s.cpu.loopValue).getD i.val (0, 0) = (p.rawRow s.cpu.loopValue i, 128) := by
      simp [Pair.rows, List.getD]
    simp only [unitTld, hruns, hrow, forwarded_spLine]
    exact spReading_sound ((forwarded_spBlocked ..).trans hb) ((forwarded_spPoisoned ..).trans hsound) _ _
  refine ⟨_, h.exec_done hi rfl (Nat.le_of_ble_eq_true rfl) hu (forwarded_pending s w) ((forwarded_poison s w).trans h.sound),
    fun n => ?_, ?_⟩
  · rw [← forwarded_rm s w]
    exact Cell.rm_wm ..
  · rw [forwarded_of_also_id rfl, ← Cell.flowTo_idle h.idle, Cell.flowTo_frame]
    rfl

/-- tst writes the rows of its view and changes nothing else. -/
theorem completes_tst : Completes (.tst a d r) s (fun t =>
    t.sp = (s.tileStored p s.cpu.loopValue (s.cpu.rm d.toNat)).sp ∧
    t = { s with cpu := s.cpu.flowTo (s.cpu.pc + 4), sp := t.sp, spPoison := t.spPoison }) := by
  set w := viewIssue (.tst a d r) p s.cpu.loopValue true
  have hi : exec (.tst a d r) s = enqueue w (unitTst d) s := by
    rw [exec_tst, execTst, h.forwardWord (ns := []) rfl]
    simp only [hp]
    rfl
  have hu : unitTst d (w.cmd s.cpu) (s.forwarded w) = .done ((s.forwarded w).tileStored p s.cpu.loopValue (s.cpu.rm d.toNat)) := by
    have hpair : Pair.ofCompact (w.cmd s.cpu).op0 = p := Pair.ofCompact_compact (viewOf_ok hp).1
    rw [unitTst, hpair, forwarded_rm]
    rfl
  rw [tileStored_forwarded] at hu
  generalize (s.tileStored p s.cpu.loopValue (s.cpu.rm d.toNat)).sp = sp at hu ⊢
  generalize (s.tileStored p s.cpu.loopValue (s.cpu.rm d.toNat)).spPoison = poison at hu
  refine ⟨_, h.exec_done hi rfl (Nat.le_of_ble_eq_true rfl) hu (forwarded_pending s w) ((forwarded_poison s w).trans h.sound),
    rfl, ?_⟩
  · rw [forwarded_of_also_id rfl, ← Cell.flowTo_idle h.idle, Cell.flowTo_frame]
    rfl

end

/-- Settles O34: a tile is read row by row, and written row by row, of which the last one on a line stands. -/
theorem tilesMoveThroughViews : Obligations.TilesMoveThroughViews := by
  unfold Obligations.TilesMoveThroughViews
  intro a d r p s h hm hp key rows
  have hal := (viewOf_ok hp).2
  have hkey (i : Nat) : spKey s.cpu.cluster (p.spRow s.cpu.loopValue i) = key i := spKey_of_lt _ (p.spRow_lt _ _)
  constructor
  · intro hb hsound
    obtain ⟨t, ht, hrm, hframe⟩ := completes_tld (d := d) h hp hb hsound
    refine ⟨t, ht, fun i hi => ?_, fun n hn hne => ?_, hframe⟩
    · rw [hrm, if_pos rfl, tileRow_ofFn _ hi, State.spLine, State.spRead, spKey]
      rfl
    · rw [hrm, Nat.mod_eq_of_lt hn, if_neg hne]
  · obtain ⟨t, ht, hsp, hframe⟩ := completes_tst (d := d) h hp
    refine ⟨t, ht, fun i hi hlast => ?_, fun k hk => ?_, hframe⟩
    · rw [hsp, ← hkey]
      exact readLE_tileStored hm.2 hal _ _ hi fun j hij hj hrow => hlast j hij hj (congrArg (s.cpu.cluster * 2 ^ 22 + ·) hrow)
    · rw [hsp]
      exact readByte_tileStored_of_outside hm.2 p _ _ fun i hi => (hkey i).symm ▸ hk i hi

end Sys2Proof.Machine

/-! # Proofs: tile products (O39) -/

namespace Sys2Proof.Machine

/-! ### Accumulator slots (R174, R175, R192) -/

/-- No epi in the replay queue holds a slot. -/
theorem Cell.slotsHeld_of_noEpi {c : Cell} (h : ∀ d ∈ c.replay, d.isEpi = false) (rs : List Res) : c.slotsHeld rs = false := by
  refine List.any_eq_false.mpr fun d hd => ?_
  have hslots : d.epiSlots c.accS = [] := by
    unfold Cmd.epiSlots
    split
    · next heq => simpa [Cmd.isEpi, heq] using h d hd
    · rfl
  rw [hslots]
  exact Bool.false_ne_true

theorem Cell.slotIx_mod (c : Cell) (k : Nat) : c.slotIx (k % 2 ^ 32) = c.slotIx k := by
  rw [Cell.slotIx, Nat.mod_mod, Cell.slotIx]

theorem Cell.acc_setSlot (c : Cell) (k : Nat) (t : Tile) (f : Option (BitVec 20)) (n : Fin 24) :
    (c.setSlot k t f).acc[n] = if n = c.slotIx k then t else c.acc[n] :=
  (Vector.getElem_set (c.slotIx k).isLt n.isLt).trans (if_congr (Fin.ext_iff.symm.trans eq_comm) rfl rfl)

theorem Cell.accTag_setSlot (c : Cell) (k : Nat) (t : Tile) (f : Option (BitVec 20)) (n : Fin 24) :
    (c.setSlot k t f).accTag[n] = if n = c.slotIx k then ⟨f.getD c.accTag[c.slotIx k].ofmt, c.epiMode⟩ else c.accTag[n] :=
  (Vector.getElem_set (c.slotIx k).isLt n.isLt).trans (if_congr (Fin.ext_iff.symm.trans eq_comm) rfl rfl)

/-! ### A product of an idle, eager cell (R181 to R184) -/

theorem lane_product (sparse neg keep : Bool) (e : Word) (old : Tile) (a b : Nat → Nat) {p q : Nat} (hp : p < 32) (hq : q < 32) :
    lane (tileRow (product sparse neg keep e old a b) p) q =
      sumGroups neg (if keep then some (lane (tileRow old p) q) else none)
        (if sparse then sparseGroups e (a p) (b q) else denseGroups e (a p) (b q)) := by
  rw [product, tileRow_ofFn _ hp, lane_ofLanes _ _ hq]

theorem forwarded_operandRow (s : State) (w : Issue) (view : BitVec 1) (n : BitVec 5) (compact : Word) (lv i : Nat) :
    operandRow (s.forwarded w) view n compact lv i = operandRow s view n compact lv i := by
  simp only [operandRow, forwarded_spRead, forwarded_rm]

/-- A product as its front end forwards it. -/
def productIssue (i : Instr) (sparse : Bool) (x y : BitVec 1) (o : BitVec 4) (op0 op1 : Word) (c : Cell) : Issue where
  instr := i
  queue := .matrix
  op0 := op0
  op1 := op1
  aux := c.ftEntry
  lv := c.loopValue
  ranges := productRanges sparse x y c.ftEntry op0 op1 c.loopValue
  also := fun d => d.noteFmt (((c.accH - 1).toNat + 2 ^ 32 - o.toNat) % 2 ^ 32) (c.ftEntry.extractLsb' 40 20)

theorem productRanges_length (sparse : Bool) (x y : BitVec 1) (e op0 op1 : Word) (lv : Nat) :
    (productRanges sparse x y e op0 op1 lv).length ≤ 64 := by
  rw [productRanges, List.length_append]
  split <;> split <;> simp

/-- The runs that a product reads of its views. -/
def productRuns (sparse : Bool) (x y : BitVec 1) (e op0 op1 : Word) (lv : Nat) : List (Nat × Nat) :=
  (if x = 1 then neededRuns op0 lv (needA sparse e) else []) ++ (if y = 1 then neededRuns op1 lv (needB sparse e) else [])

section
variable {sparse neg keep : Bool} {b a : BitVec 5} {x y : BitVec 1} {o : BitVec 4} {r : BitVec 3} {op0 op1 : Word} {s : State}
  (h : VectorReady r [] s) {i : Instr} (hi : exec i s = issueProduct i sparse neg keep b a x y o r s)
include h hi

theorem exec_product (ha : isFp32 (entryA s.cpu.ftEntry) = false) (hb : isFp32 (entryB s.cpu.ftEntry) = false)
    (hn : sparse = true → entryN s.cpu.ftEntry ≠ 0) (ho : o.toNat < s.cpu.live)
    (hx : operandCheck s.cpu x a (companionA sparse) = .ok op0)
    (hy : operandCheck s.cpu y b (companionB sparse s.cpu.ftEntry) = .ok op1) :
    exec i s = enqueue (productIssue i sparse x y o op0 op1 s.cpu) (unitProduct sparse neg keep b a x y o) s := by
  have hentry : ¬ (isFp32 (entryA s.cpu.ftEntry) || isFp32 (entryB s.cpu.ftEntry) ||
      (sparse && entryN s.cpu.ftEntry = 0)) = true := by
    simpa [ha, hb] using hn
  rw [hi, issueProduct, h.forwardWord (ns := []) rfl]
  simp only [hx, hy]
  rw [if_neg hentry, if_neg (Nat.not_le.mpr ho)]
  rfl

theorem exec_product_fp32 (hf : isFp32 (entryA s.cpu.ftEntry) = true ∨ isFp32 (entryB s.cpu.ftEntry) = true) :
    exec i s = .next (s.trap 1 s.cpu.ftEntry) := by
  have hentry : (isFp32 (entryA s.cpu.ftEntry) || isFp32 (entryB s.cpu.ftEntry) ||
      (sparse && entryN s.cpu.ftEntry = 0)) = true := by
    simp [hf]
  rw [hi, issueProduct, h.forwardWord (ns := []) rfl]
  exact if_pos hentry

/-- A product fills the slot of its offset and changes nothing else. -/
theorem completes_product (he : ∀ d ∈ s.cpu.replay, d.isEpi = false)
    (ha : isFp32 (entryA s.cpu.ftEntry) = false) (hb : isFp32 (entryB s.cpu.ftEntry) = false)
    (hn : sparse = true → entryN s.cpu.ftEntry ≠ 0) (ho : o.toNat < s.cpu.live)
    (hx : operandCheck s.cpu x a (companionA sparse) = .ok op0)
    (hy : operandCheck s.cpu y b (companionB sparse s.cpu.ftEntry) = .ok op1)
    (hblock : s.spBlocked (productRuns sparse x y s.cpu.ftEntry op0 op1 s.cpu.loopValue) = false)
    (hsound : s.spPoisoned (productRuns sparse x y s.cpu.ftEntry op0 op1 s.cpu.loopValue) = none) :
    Completes i s (fun t =>
      let k := s.cpu.slotIx (s.cpu.accH.toNat + 2 ^ 32 - 1 - o.toNat)
      (∀ n : Fin 24, t.cpu.acc[n] = if n = k then product sparse neg keep s.cpu.ftEntry s.cpu.acc[k]
        (operandRow s x a op0 s.cpu.loopValue) (operandRow s y b op1 s.cpu.loopValue) else s.cpu.acc[n]) ∧
      (∀ n : Fin 24, t.cpu.accTag[n] =
        if n = k then ⟨s.cpu.ftEntry.extractLsb' 40 20, s.cpu.epiMode⟩ else s.cpu.accTag[n]) ∧
      t = { s with cpu := { s.cpu.flowTo (s.cpu.pc + 4) with
        acc := t.cpu.acc
        accTag := t.cpu.accTag
        accFmt := t.cpu.accFmt } }) := by
  set w := productIssue i sparse x y o op0 op1 s.cpu
  have hk : s.cpu.slotIx ((w.cmd s.cpu).slotAt o) = s.cpu.slotIx (s.cpu.accH.toNat + 2 ^ 32 - 1 - o.toNat) := s.cpu.slotIx_mod _
  have hslot : s.cpu.slot ((w.cmd s.cpu).slotAt o) = s.cpu.acc[s.cpu.slotIx (s.cpu.accH.toNat + 2 ^ 32 - 1 - o.toNat)] :=
    congrArg (fun n : Fin 24 => s.cpu.acc[n]) hk
  set tile := product sparse neg keep s.cpu.ftEntry s.cpu.acc[s.cpu.slotIx (s.cpu.accH.toNat + 2 ^ 32 - 1 - o.toNat)]
    (operandRow s x a op0 s.cpu.loopValue) (operandRow s y b op1 s.cpu.loopValue)
  have hheld (rs : List Res) : (s.forwarded w).cpu.slotsHeld rs = false :=
    Cell.slotsHeld_of_noEpi (by rwa [forwarded_replay]) rs
  have hu : unitProduct sparse neg keep b a x y o (w.cmd s.cpu) (s.forwarded w) =
      .done ((s.forwarded w).upd (fun c => c.setSlot ((w.cmd s.cpu).slotAt o)
        tile (some (s.cpu.ftEntry.extractLsb' 40 20)))) := by
    have hgo (go : EngOut) := spReading_sound ((forwarded_spBlocked s w _).trans hblock)
      ((forwarded_spPoisoned s w _).trans hsound) (w.cmd s.cpu) go
    rw [unitProduct, hheld, if_neg Bool.false_ne_true]
    refine (hgo _).trans ?_
    rw [forwarded_slot, hslot, funext (forwarded_operandRow s w x a _ _), funext (forwarded_operandRow s w y b _ _)]
    rfl
  refine ⟨_, h.exec_done (exec_product h hi ha hb hn ho hx hy) rfl (productRanges_length ..) hu (forwarded_pending s w)
    ((forwarded_poison s w).trans h.sound), fun n => ?_, fun n => ?_, ?_⟩
  · refine (Cell.acc_setSlot _ _ tile (some (s.cpu.ftEntry.extractLsb' 40 20)) n).trans ?_
    rw [forwarded_slotIx, forwarded_acc, hk]
  · refine (Cell.accTag_setSlot _ _ tile _ n).trans ?_
    rw [Option.getD_some, forwarded_slotIx, forwarded_accTag, hk, forwarded_epiMode]
  · rw [State.forwarded, ← Cell.flowTo_idle h.idle, Cell.flowTo_frame]
    rfl

end

theorem sumGroup_of_isNaN (neg : Bool) {acc : Option Lane} {ps : List (FpVal × FpVal)}
    (h : (∃ v, acc = some v ∧ isNaN32 v = true) ∨ ∃ p ∈ ps, p.1.isNaN = true ∨ p.2.isNaN = true) :
    sumGroup neg acc ps = canonNaN := by
  refine if_pos ?_
  rw [Bool.or_eq_true]
  rcases h with ⟨v, rfl, hv⟩ | ⟨p, hp, hnan⟩
  · exact .inl hv
  · exact .inr (List.any_eq_true.mpr ⟨p, hp, by rwa [Bool.or_eq_true]⟩)

/-! ### Traps of slot words at issue (R175, R186) -/

section
variable {r : BitVec 3} {s : State} (h : VectorReady r [] s)
include h

/-- An offset beyond the live slots stops its word. -/
theorem issueSlot_of_dead {i : Instr} {vs : List Nat} (hvs : s.cpu.notAllotted vs = none) {o : BitVec 4} (ho : s.cpu.live ≤ o.toNat)
    (regs : List (BitVec 5)) (op0 : Word) (unit : Cmd → State → EngOut) :
    issueSlot i vs regs op0 o r unit s = .next (s.trap 2 (BitVec.ofNat 64 (0x100 + o.toNat))) := by
  rw [issueSlot, h.forwardWord hvs]
  exact if_pos ho

/-- More slots than the ring has room for stop accz. -/
theorem exec_accz_of_full {n : BitVec 4} (hn : s.cpu.accS < s.cpu.live + n.toNat + 1) :
    exec (.accz n r) s = .next (s.trap 2 (BitVec.ofNat 64 (0x200 + n.toNat + 1))) := by
  rw [exec_accz, execAccz, h.forwardWord (ns := []) rfl]
  exact if_pos hn

end

/-- Settles O39: one product word serves for all six. -/
theorem productsFillTheirSlot : Obligations.ProductsFillTheirSlot := by
  unfold Obligations.ProductsFillTheirSlot
  refine ⟨fun b a x y o r op0 op1 s h he => ?_, fun neg acc ps => sumGroup_of_isNaN neg, fun n v b a x y o r s h => ⟨?_, ?_, ?_⟩⟩
  · intro e k row col fills
    have hfills {i : Instr} {sparse neg keep : Bool} (hi : exec i s = issueProduct i sparse neg keep b a x y o r s) :
        fills i sparse neg keep := by
      intro ha hb hn ho hx hy runs hblock hsound
      obtain ⟨t, ht, hacc, htag, hframe⟩ := completes_product h hi he ha hb hn ho hx hy hblock hsound
      refine ⟨t, ht, fun p q hp hq => ?_, by rw [htag, if_pos rfl], fun n hn => ⟨by rw [hacc, if_neg hn], by rw [htag, if_neg hn]⟩,
        hframe⟩
      rw [hacc, if_pos rfl, lane_product _ _ _ _ _ _ _ hp hq]
    exact ⟨hfills (exec_mma ..), hfills (exec_mmaAcc ..), hfills (exec_mmaNeg ..), hfills (exec_mmas ..), hfills (exec_mmasAcc ..),
      hfills (exec_mmasNeg ..)⟩
  · intro hf
    simp only [List.forall_mem_cons]
    exact ⟨exec_product_fp32 h (exec_mma ..) hf, exec_product_fp32 h (exec_mmaAcc ..) hf, exec_product_fp32 h (exec_mmaNeg ..) hf,
      exec_product_fp32 h (exec_mmas ..) hf, exec_product_fp32 h (exec_mmasAcc ..) hf, exec_product_fp32 h (exec_mmasNeg ..) hf,
      nofun⟩
  · intro ho hv
    have hallot : s.cpu.notAllotted [v.toNat] = none := (s.cpu.notAllotted_eq_none_iff _).mpr (by simpa using hv)
    exact ⟨issueSlot_of_dead h hallot ho .., issueSlot_of_dead h (vs := []) rfl ho ..⟩
  · exact exec_accz_of_full h

end Sys2Proof.Machine

/-! # Proofs: the epilogue (O41) -/

namespace Sys2Proof.Machine

/-! ### A command of rows in the engine (R192) -/

/-- The state with these commands in its cell's queues. -/
def State.queued (s : State) (ds : List Cmd) : State := s.upd (fun c => { c with pending := ds })

@[simp] theorem queued_queued (s : State) (ds es : List Cmd) : (s.queued ds).queued es = s.queued es := rfl
@[simp] theorem queued_pending (s : State) (ds : List Cmd) : (s.queued ds).cpu.pending = ds := rfl
@[simp] theorem queued_poison (s : State) (ds : List Cmd) : (s.queued ds).cpu.poison = s.cpu.poison := rfl

/-- A row of a command is written whatever the queues hold, and leaves them and the poison of the registers. -/
structure RowStep (step : State → Nat → State) : Prop where
  queued : ∀ s ds q, step (s.queued ds) q = (step s q).queued ds
  pending : ∀ s q, (step s q).cpu.pending = s.cpu.pending
  poison : ∀ s q, (step s q).cpu.poison = s.cpu.poison

theorem RowStep.queued_foldl {step : State → Nat → State} (hstep : RowStep step) (l : List Nat) (s : State) (ds : List Cmd) :
    (l.foldl step s).queued ds = l.foldl step (s.queued ds) := by
  induction l using List.reverseRecOn with
  | nil => rfl
  | append_singleton l q ih => rw [List.foldl_concat, List.foldl_concat, ← hstep.queued, ih]

/-- The engine takes the only command through the rows that are left of it. -/
theorem drive_rows {unit : Cmd → State → EngOut} {cmd : Nat → Cmd} {step : State → Nat → State} (hstep : RowStep step) {n : Nat}
    (hu : ∀ q s, q < n → unit (cmd q) s = nextRow n (cmd q) (step s q)) (hprogress : ∀ q, (cmd q).progress = q)
    (hnext : ∀ q, { cmd q with progress := q + 1, started := true } = cmd (q + 1)) (m : Nat) :
    ∀ {q fuel : Nat} {s : State}, q + (m + 1) = n → m < fuel → s.cpu.poison = [] →
      (s.queued [cmd q]).drive unit 0 fuel = ((List.range' q (m + 1)).foldl step s).queued [] := by
  induction m with
  | zero =>
    intro q fuel s hq hfuel hs
    obtain ⟨fuel, rfl⟩ : ∃ k, fuel = k + 1 := ⟨fuel - 1, by omega⟩
    have hunit : unit (cmd q) (s.queued [cmd q]) = .done (step (s.queued [cmd q]) q) := by
      rw [hu q _ (by omega), nextRow, hprogress, if_neg (by omega)]
    rw [drive_done (queued_pending ..) hs hunit (hstep.pending ..) ((hstep.poison ..).trans hs), hstep.queued]
    rfl
  | succ m ih =>
    intro q fuel s hq hfuel hs
    obtain ⟨fuel, rfl⟩ : ∃ k, fuel = k + 1 := ⟨fuel - 1, by omega⟩
    have hunit : unit (cmd q) (s.queued [cmd q]) = .more { cmd q with progress := q + 1 } (step (s.queued [cmd q]) q) := by
      rw [hu q _ (by omega), nextRow, hprogress, if_pos (by omega)]
    rw [drive_more (queued_pending ..) hs hunit (hstep.pending ..) ((hstep.poison ..).trans hs), hstep.queued, hnext]
    exact ih (by omega) (by omega) ((hstep.poison ..).trans hs)

/-! ### The checks of epi at issue (R191) -/

theorem epiCheck_narrow {c : Cell} {w op0 : Word} {a : BitVec 5} {x : BitVec 1} (h : epiCheck c w a x = .ok op0) :
    epiWide w ((List.range (epiCount w)).map (fun j => c.accFmt[c.slotIx (c.accT.toNat + j)])) = false := by
  unfold epiCheck at h
  grind

theorem epiPlaces_ok {c : Cell} {w v op0 : Word} {p : Pair} {lv : Nat} (h : epiPlaces c w p v lv = .ok op0) :
    op0 = p.compact ∧ p.aligned = true := by
  unfold epiPlaces at h
  split at h
  · nomatch h
  · next q hq =>
    obtain ⟨rfl, ha⟩ := viewCheck_ok hq
    cases hl : epiLinesCheck c w <;> rw [hl] at h
    · nomatch h
    · injection h with h
      exact ⟨h.symm, ha⟩

theorem epiCheck_view {c : Cell} {w op0 : Word} {a : BitVec 5} (h : epiCheck c w a 1 = .ok op0) :
    (Pair.ofCompact op0).aligned = true := by
  unfold epiCheck at h
  split at h
  · nomatch h
  · dsimp only at h
    split at h
    · nomatch h
    · split at h
      · nomatch h
      · rw [if_neg (not_not_intro rfl)] at h
        split at h
        · nomatch h
        · next p hp =>
          obtain ⟨rfl, ha⟩ := epiPlaces_ok h
          rwa [Pair.ofCompact_compact hp]

theorem epiWide_eq_false_iff {w : Word} {fmts : List (BitVec 20)} :
    epiWide w fmts = false ↔ ∀ f ∈ fmts, (epiPart w + 1) * (4 * (compactFmt f).width) ≤ 128 := by
  simp [epiWide]

/-! ### epi in an idle, eager cell (R178, R192) -/

/-- T has moved past the slots and the front end has gone on (R178). -/
def State.drained (s : State) (n : Nat) : State :=
  { s with cpu := { s.cpu.flowTo (s.cpu.pc + 4) with accT := s.cpu.accT + BitVec.ofNat 32 n } }

/-- epi as its front end forwards it. -/
def epiIssue (i : Instr) (x : BitVec 1) (op0 w : Word) (c : Cell) : Issue where
  instr := i
  queue := .matrix
  op0 := op0
  op1 := w
  lv := c.loopValue
  ranges := epiRanges x op0 w c.loopValue
  also := fun d => { d with accT := d.accT + BitVec.ofNat 32 (epiCount w) }

/-- A command that its engine has handed over. -/
def Cmd.handedOver (d : Cmd) : Cmd := { d with started := true }

/-- An epi that has read its scale and bias lines and written `q` rows. -/
def Cmd.drains (d : Cmd) (scale bias : VReg) (q : Nat) : Cmd :=
  { d with progress := q, started := true, kept := [scale, bias], ranges := d.ranges.filter (fun r => r.write) }

/-- The bytes of a row of slot `j` of the command. -/
def Cmd.epiBytes (d : Cmd) (c : Cell) (j : Nat) : Nat := 4 * (compactFmt c.accTag[c.slotIx (d.tix + j)].ofmt).width

/-- Row `q` of the command as it is written. -/
def Cmd.epiValue (d : Cmd) (scale bias : VReg) (c : Cell) (q : Nat) : Nat :=
  epiRow d.op1 c.accTag[c.slotIx (d.tix + q / 32)] (tileRow (c.slot (d.tix + q / 32)) (q % 32)) scale bias (q % 32)

/-- A row with the bytes from `o` on replaced by a number of `n` bytes. -/
def spliced (old : VReg) (o n v : Nat) : VReg :=
  (old &&& ~~~(BitVec.ofNat 1024 ((2 ^ (8 * n) - 1) * 2 ^ (8 * o)))) |||
    (BitVec.ofNat 1024 (v * 2 ^ (8 * o)) &&& BitVec.ofNat 1024 ((2 ^ (8 * n) - 1) * 2 ^ (8 * o)))

section
variable (a : BitVec 5) (d : Cmd) (scale bias : VReg) (s : State) (q : Nat)

theorem epiStep_view : epiStep a 1 d scale bias s q =
    s.spWrite ((Pair.ofCompact d.op0).spRow (d.lv + q / 32) (q % 32) + epiPart d.op1 * d.epiBytes s.cpu (q / 32))
      (d.epiBytes s.cpu (q / 32)) (d.epiValue scale bias s.cpu q) := by
  unfold epiStep
  exact if_pos rfl

theorem epiStep_tile {x : BitVec 1} (hx : x ≠ 1) : epiStep a x d scale bias s q =
    s.upd (fun c => c.wm (a.toNat + q / 32) (setTileRow (c.rm (a.toNat + q / 32)) (q % 32)
      (spliced (tileRow (s.cpu.rm (a.toNat + q / 32)) (q % 32)) (epiPart d.op1 * d.epiBytes s.cpu (q / 32))
        (d.epiBytes s.cpu (q / 32)) (d.epiValue scale bias s.cpu q)))) := if_neg hx

end

theorem epiStep_rowStep (a : BitVec 5) (x : BitVec 1) (d : Cmd) (scale bias : VReg) : RowStep (epiStep a x d scale bias) := by
  by_cases hx : x = 1
  · subst hx
    constructor <;> intros <;> simp only [epiStep_view] <;> rfl
  · constructor <;> intros <;> simp only [epiStep_tile _ _ _ _ _ _ hx] <;> rfl

theorem epiRanges_length (x : BitVec 1) (op0 w : Word) (lv : Nat) : (epiRanges x op0 w lv).length ≤ 64 := by
  rw [epiRanges, epiLines]
  split <;> split <;> split <;> simp

/-! ### The units of epi (R178, R192) -/

section
variable (a : BitVec 5) (x : BitVec 1) {d : Cmd} {s : State} (hp : d.progress < 32 * epiCount d.op1)
include hp

theorem unitEpi_of_waiting (hs : d.started = false) : unitEpi a x d s = .more d s := by
  unfold unitEpi
  rw [if_neg (Nat.not_le.mpr hp), hs]
  rfl

theorem unitEpi_of_handedOver (hs : d.started = true) (hk : d.kept = []) (hn : epiWide d.op1 (epiTags s.cpu d) = false)
    (hb : s.spBlocked (epiLines d.op1) = false) (hsound : s.spPoisoned (epiLines d.op1) = none) :
    unitEpi a x d s = .more { d with
      kept := [s.spLine (epiScale d.op1), s.spLine (epiBias d.op1)]
      ranges := d.ranges.filter (fun r => r.write) } s := by
  unfold unitEpi
  rw [if_neg (Nat.not_le.mpr hp), hs, hk, hn]
  exact spReading_sound hb hsound ..

theorem unitEpi_of_kept {scale bias : VReg} (hs : d.started = true) (hk : d.kept = [scale, bias]) :
    unitEpi a x d s = nextRow (32 * epiCount d.op1) d (epiStep a x d scale bias s d.progress) := by
  unfold unitEpi
  rw [if_neg (Nat.not_le.mpr hp), hs, hk]
  rfl

end

section
variable {b a : BitVec 5} {x : BitVec 1} {r : BitVec 3} {op0 : Word} {s : State}
  (h : VectorReady r [] s) (hc : epiCheck s.cpu (s.x b) a x = .ok op0)
  (htags : ∀ j, j < epiCount (s.x b) →
    s.cpu.accTag[s.cpu.slotIx (s.cpu.accT.toNat + j)].ofmt = s.cpu.accFmt[s.cpu.slotIx (s.cpu.accT.toNat + j)])
  (hblock : s.spBlocked (epiLines (s.x b)) = false) (hsound : s.spPoisoned (epiLines (s.x b)) = none)

include hc htags in
/-- The slots' output formats leave room for each part. -/
theorem epi_room {j : Nat} (hj : j < epiCount (s.x b)) :
    (epiPart (s.x b) + 1) * (4 * (compactFmt s.cpu.accTag[s.cpu.slotIx (s.cpu.accT.toNat + j)].ofmt).width) ≤ 128 := by
  rw [htags j hj]
  exact epiWide_eq_false_iff.mp (epiCheck_narrow hc) _ (List.mem_map.mpr ⟨j, List.mem_range.mpr hj, rfl⟩)

include h hc htags hblock hsound in
/-- epi writes its rows in order, after T has moved and the front end has gone on. -/
theorem exec_epi_of_ready : exec (.epi b a x r) s = .next ((List.range (32 * epiCount (s.x b))).foldl
    (epiStep a x ((epiIssue (.epi b a x r) x op0 (s.x b) s.cpu).cmd s.cpu) (s.spLine (epiScale (s.x b))) (s.spLine (epiBias (s.x b))))
    (s.drained (epiCount (s.x b)))) := by
  set w := epiIssue (.epi b a x r) x op0 (s.x b) s.cpu
  set d := w.cmd s.cpu
  set scale := s.spLine (epiScale (s.x b))
  set bias := s.spLine (epiBias (s.x b))
  have hi : exec (.epi b a x r) s = enqueue w (unitEpi a x) s := by
    rw [exec_epi, execEpi, h.forwardWord (ns := []) rfl]
    simp only [hc]
    rfl
  have hcount : 0 < 32 * epiCount (s.x b) := by unfold epiCount; omega
  have hs' : (s.forwarded w).cpu.poison = [] := (forwarded_poison s w).trans h.sound
  have hhand : unitEpi a x d (s.forwarded w) = .more d (s.forwarded w) := unitEpi_of_waiting a x hcount rfl
  have hlines : unitEpi a x d.handedOver ((s.forwarded w).queued [d.handedOver]) =
      .more (d.drains scale bias 0) ((s.forwarded w).queued [d.handedOver]) := by
    have hnarrow : epiWide (s.x b) (epiTags (s.forwarded w).cpu d) = false := by
      refine epiWide_eq_false_iff.mpr fun f hf => ?_
      obtain ⟨j, hj, rfl⟩ := List.mem_map.mp hf
      simp only [forwarded_slotIx, forwarded_accTag]
      exact epi_room hc htags (List.mem_range.mp hj)
    refine (unitEpi_of_handedOver (d := d.handedOver) (s := (s.forwarded w).queued [d.handedOver]) a x hcount rfl rfl hnarrow
      ((forwarded_spBlocked s w _).trans hblock) ((forwarded_spPoisoned s w _).trans hsound)).trans ?_
    have hline (o : Nat) : ((s.forwarded w).queued [d.handedOver]).spLine o = s.spLine o := forwarded_spLine s w o
    rw [hline, hline]
    rfl
  have hrows (q : Nat) (t : State) (hq : q < 32 * epiCount (s.x b)) :
      unitEpi a x (d.drains scale bias q) t = nextRow (32 * epiCount (s.x b)) (d.drains scale bias q) (epiStep a x d scale bias t q) :=
    unitEpi_of_kept a x hq rfl rfl
  obtain ⟨m, hm⟩ : ∃ m, m + 1 = 32 * epiCount (s.x b) := ⟨32 * epiCount (s.x b) - 1, by omega⟩
  have hfuel : m < 1098 := by
    have := (BitVec.extractLsb' 49 5 (s.x b)).isLt
    unfold epiCount at hm
    omega
  have hfirst : (s.forwarded w).drive (unitEpi a x) 0 1100 = ((s.forwarded w).queued [d.handedOver]).drive (unitEpi a x) 0 1099 :=
    drive_more (forwarded_pending s w) hs' hhand (forwarded_pending s w) hs' 1099
  have hsecond : ((s.forwarded w).queued [d.handedOver]).drive (unitEpi a x) 0 1099 =
      ((s.forwarded w).queued [d.drains scale bias 0]).drive (unitEpi a x) 0 1098 :=
    drive_more (s := (s.forwarded w).queued [d.handedOver]) rfl hs' hlines rfl hs' 1098
  rw [hi, enqueue_idle h.idle h.eager (w := w) rfl (epiRanges_length ..), unitFuel, hfirst, hsecond]
  rw [drive_rows (epiStep_rowStep a x d scale bias) hrows (fun _ => rfl) (fun _ => rfl) m ((Nat.zero_add _).trans hm) hfuel hs', hm,
    (epiStep_rowStep a x d scale bias).queued_foldl, ← List.range_eq_range']
  have hmoved : (s.forwarded w).queued [] = s.drained (epiCount (s.x b)) := by
    rw [State.drained, State.forwarded, ← Cell.flowTo_idle h.idle, Cell.flowTo_frame]
    rfl
  rw [hmoved]

end

/-! ### The rows that stand (R191, R192) -/

/-- A row is written to its tile register alone. -/
theorem tileRow_rm_wm (c : Cell) {m i : Nat} (hm : m < 8) (hi : i < 32) (n q : Nat) (f : VReg → VReg) :
    tileRow ((c.wm n (setTileRow (c.rm n) (q % 32) (f (tileRow (c.rm n) (q % 32))))).rm m) i =
      if q % 32 = i ∧ n % 8 = m then f (tileRow (c.rm m) i) else tileRow (c.rm m) i := by
  have hn : c.rm (n % 8) = c.rm n := congrArg (fun k : Fin 8 => c.m[k]) (Fin.ext (Nat.mod_mod ..))
  rw [Cell.rm_wm, Nat.mod_eq_of_lt hm]
  by_cases h : m = n % 8
  · subst h
    rw [if_pos rfl, hn, tileRow_setTileRow, Nat.mod_mod, Nat.mod_eq_of_lt hi]
    by_cases hq : i = q % 32
    · subst hq
      rw [if_pos rfl, if_pos ⟨rfl, rfl⟩]
    · rw [if_neg hq, if_neg fun h => hq h.1.symm]
  · rw [if_neg h, if_neg fun hn => h hn.2.symm]

/-- Each byte of a row is that of the spliced number or the old one. -/
theorem byte_spliced (old : VReg) (o n v : Nat) {y : Nat} (hy : y < 128) : (spliced old o n v).extractLsb' (8 * y) 8 =
    if o ≤ y ∧ y < o + n then BitVec.ofNat 8 (v / 256 ^ (y - o)) else old.extractLsb' (8 * y) 8 := by
  apply BitVec.eq_of_getLsbD_eq
  intro b hb
  have hmask : ((2 ^ (8 * n) - 1) * 2 ^ (8 * o)).testBit (8 * y + b) = decide (o ≤ y ∧ y < o + n) := by
    rw [Nat.testBit_mul_two_pow, Nat.testBit_two_pow_sub_one, ← Bool.decide_and, decide_eq_decide]
    omega
  have hfit : decide (8 * y + b < 1024) = true := decide_eq_true (by omega)
  rw [spliced, BitVec.getLsbD_extractLsb', BitVec.getLsbD_or, BitVec.getLsbD_and, BitVec.getLsbD_and, BitVec.getLsbD_not,
    BitVec.getLsbD_ofNat, BitVec.getLsbD_ofNat, hfit, hmask]
  by_cases h : o ≤ y ∧ y < o + n
  · have hpos : 8 * y + b - 8 * o = b + 8 * (y - o) := by omega
    have hfrom : decide (8 * o ≤ 8 * y + b) = true := decide_eq_true (by omega)
    have hpow : 256 ^ (y - o) = 2 ^ (8 * (y - o)) := (Nat.pow_mul 2 8 _).symm
    rw [if_pos h, decide_eq_true h, BitVec.getLsbD_ofNat, Nat.testBit_mul_two_pow, hpos, hfrom, hpow, ← Nat.shiftRight_eq_div_pow,
      Nat.testBit_shiftRight, Nat.add_comm b]
    simp [hb]
  · rw [if_neg h, decide_eq_false h, BitVec.getLsbD_extractLsb']
    simp [hb]

/-- The cells hold the same slots with the same tags. -/
structure SameSlots (c e : Cell) : Prop where
  size : e.accS = c.accS
  tag : e.accTag = c.accTag
  slots : e.acc = c.acc

theorem SameSlots.epiBytes {c e : Cell} (h : SameSlots c e) (d : Cmd) (j : Nat) : d.epiBytes e j = d.epiBytes c j := by
  obtain ⟨hsize, htag, -⟩ := h
  simp only [Cmd.epiBytes, Cell.slotIx, hsize, htag]

theorem SameSlots.epiValue {c e : Cell} (h : SameSlots c e) (d : Cmd) (scale bias : VReg) (q : Nat) :
    d.epiValue scale bias e q = d.epiValue scale bias c q := by
  obtain ⟨hsize, htag, hslots⟩ := h
  simp only [Cmd.epiValue, Cell.slot, Cell.slotIx, hsize, htag, hslots]

/-- The scratchpad byte at which row `q` of the command begins. -/
def Cmd.epiPlace (d : Cmd) (c : Cell) (q : Nat) : Nat :=
  c.cluster * 2 ^ 22 + (Pair.ofCompact d.op0).spRow (d.lv + q / 32) (q % 32) + epiPart d.op1 * d.epiBytes c (q / 32)

theorem Cmd.epiBytes_pos (d : Cmd) (c : Cell) (j : Nat) : 0 < d.epiBytes c j := Nat.mul_pos (by decide) (Fmt.width_pos _)

/-- A part that fits its line does not wrap. -/
theorem spKey_epiPlace {d : Cmd} {c : Cell} {q : Nat} (ha : (Pair.ofCompact d.op0).aligned = true)
    (hroom : (epiPart d.op1 + 1) * d.epiBytes c (q / 32) ≤ 128) :
    spKey c.cluster ((Pair.ofCompact d.op0).spRow (d.lv + q / 32) (q % 32) + epiPart d.op1 * d.epiBytes c (q / 32)) =
      d.epiPlace c q := by
  have hline := Pair.spRow_aligned ha (d.lv + q / 32) (q % 32)
  have hlt := Pair.spRow_lt (Pair.ofCompact d.op0) (d.lv + q / 32) (q % 32)
  have hpos := d.epiBytes_pos c (q / 32)
  rw [Nat.succ_mul] at hroom
  rw [spKey_of_lt _ (by omega), Cmd.epiPlace, Nat.add_assoc]

theorem foldl_epiStep_view (a : BitVec 5) (d : Cmd) (scale bias : VReg) {s : State} (hwf : Memory.wf s.sp = true)
    (ha : (Pair.ofCompact d.op0).aligned = true)
    (hroom : ∀ j, j < epiCount d.op1 → (epiPart d.op1 + 1) * d.epiBytes s.cpu j ≤ 128) (z : Nat) {t : State}
    (ht : (List.range (32 * epiCount d.op1)).foldl (epiStep a 1 d scale bias) s = t) :
    t = { s with sp := t.sp, spPoison := t.spPoison } ∧
    readByte t.sp z = (((List.range (32 * epiCount d.op1)).reverse.find? (fun q =>
        decide (d.epiPlace s.cpu q ≤ z) && decide (z < d.epiPlace s.cpu q + d.epiBytes s.cpu (q / 32)))).map
      (fun q => BitVec.ofNat 8 (d.epiValue scale bias s.cpu q / 256 ^ (z - d.epiPlace s.cpu q)))).getD (readByte s.sp z) := by
  subst ht
  refine And.imp_left And.right (foldl_observed
    (inv := fun (t : State) => Memory.wf t.sp = true ∧ t = { s with sp := t.sp, spPoison := t.spPoison })
    (obs := fun (t : State) => readByte t.sp z) (List.range (32 * epiCount d.op1)) ?_ ?_ ⟨hwf, rfl⟩)
  · rintro t q ⟨ht, hf⟩
    rw [epiStep_view]
    refine ⟨writeLE_wf ht .., ?_⟩
    obtain ⟨sp, poison, rfl⟩ : ∃ sp poison, t = { s with sp := sp, spPoison := poison } := ⟨_, _, hf⟩
    rfl
  · rintro q hq t ⟨ht, hf⟩
    have hcpu : t.cpu = s.cpu := by rw [hf]
    have hj : q / 32 < epiCount d.op1 := Nat.div_lt_of_lt_mul (List.mem_range.mp hq)
    rw [epiStep_view, State.spWrite_sp, hcpu, spKey_epiPlace ha (hroom _ hj), readByte_writeLE ht]
    simp only [Bool.and_eq_true, decide_eq_true_eq]

theorem foldl_epiStep_tile (a : BitVec 5) {x : BitVec 1} (hx : x ≠ 1) (d : Cmd) (scale bias : VReg) {s : State} {m i y : Nat}
    (hm : m < 8) (hi : i < 32) (hy : y < 128) {t : State}
    (ht : (List.range (32 * epiCount d.op1)).foldl (epiStep a x d scale bias) s = t) :
    t = { s with cpu := { s.cpu with m := t.cpu.m } } ∧
    (tileRow (t.cpu.rm m) i).extractLsb' (8 * y) 8 = (((List.range (32 * epiCount d.op1)).reverse.find? (fun q =>
        decide (q % 32 = i) && decide ((a.toNat + q / 32) % 8 = m) && decide (epiPart d.op1 * d.epiBytes s.cpu (q / 32) ≤ y) &&
          decide (y < epiPart d.op1 * d.epiBytes s.cpu (q / 32) + d.epiBytes s.cpu (q / 32)))).map
      (fun q => BitVec.ofNat 8 (d.epiValue scale bias s.cpu q / 256 ^ (y - epiPart d.op1 * d.epiBytes s.cpu (q / 32))))).getD
        ((tileRow (s.cpu.rm m) i).extractLsb' (8 * y) 8) := by
  subst ht
  refine foldl_observed
    (inv := fun (t : State) => t = { s with cpu := { s.cpu with m := t.cpu.m } })
    (obs := fun (t : State) => (tileRow (t.cpu.rm m) i).extractLsb' (8 * y) 8)
    (List.range (32 * epiCount d.op1)) (fun t q ht => ?_) (fun q _ t ht => ?_) rfl
  · obtain ⟨tiles, rfl⟩ : ∃ tiles, t = { s with cpu := { s.cpu with m := tiles } } := ⟨_, ht⟩
    rw [epiStep_tile _ _ _ _ _ _ hx]
    rfl
  · have hslots : SameSlots s.cpu t.cpu := by
      rw [ht]
      exact ⟨rfl, rfl, rfl⟩
    have hrow : tileRow ((epiStep a x d scale bias t q).cpu.rm m) i =
        if q % 32 = i ∧ (a.toNat + q / 32) % 8 = m then
          spliced (tileRow (t.cpu.rm m) i) (epiPart d.op1 * d.epiBytes s.cpu (q / 32)) (d.epiBytes s.cpu (q / 32))
            (d.epiValue scale bias s.cpu q)
        else tileRow (t.cpu.rm m) i := by
      rw [epiStep_tile _ _ _ _ _ _ hx, hslots.epiBytes, hslots.epiValue]
      exact tileRow_rm_wm t.cpu hm hi (a.toNat + q / 32) q (fun old => spliced old (epiPart d.op1 * d.epiBytes s.cpu (q / 32))
        (d.epiBytes s.cpu (q / 32)) (d.epiValue scale bias s.cpu q))
    simp only [hrow, Bool.and_eq_true, decide_eq_true_eq]
    by_cases hq : q % 32 = i ∧ (a.toNat + q / 32) % 8 = m
    · rw [if_pos hq, byte_spliced _ _ _ _ hy]
      exact if_congr (and_assoc.trans (and_iff_right hq)).symm rfl rfl
    · rw [if_neg hq, if_neg fun h => hq h.1.1]

theorem drained_rm (s : State) (n m : Nat) : (s.drained n).cpu.rm m = s.cpu.rm m := by
  rw [State.drained, Cell.flowTo_frame]
  rfl

theorem drained_sameSlots (s : State) (n : Nat) : SameSlots s.cpu (s.drained n).cpu := by
  rw [State.drained, Cell.flowTo_frame]
  exact ⟨rfl, rfl, rfl⟩

theorem drained_cluster (s : State) (n : Nat) : (s.drained n).cpu.cluster = s.cpu.cluster := by
  rw [State.drained, Cell.flowTo_frame]

theorem drained_epiPlace (s : State) (n : Nat) (d : Cmd) (q : Nat) : d.epiPlace (s.drained n).cpu q = d.epiPlace s.cpu q := by
  rw [Cmd.epiPlace, drained_cluster, (drained_sameSlots s n).epiBytes, Cmd.epiPlace]

/-- Settles O41: the engine takes epi through its rows in order, and of the rows that cover a byte the last one stands. -/
theorem epilogueDrainsTheOldestSlot : Obligations.EpilogueDrainsTheOldestSlot := by
  unfold Obligations.EpilogueDrainsTheOldestSlot
  intro b a r op0 s h hm w k tag n part value rows htags hblock hsound
  have hslots := drained_sameSlots s (epiCount w)
  constructor
  · intro hc
    refine ⟨_, exec_epi_of_ready h hc htags hblock hsound, ?_⟩
    set d := (epiIssue (.epi b a 0 r) 0 op0 (s.x b) s.cpu).cmd s.cpu
    generalize ht : (List.range (32 * epiCount (s.x b))).foldl _ _ = t
    have hrow {m i y : Nat} (hm : m < 8) (hi : i < 32) (hy : y < 128) :=
      foldl_epiStep_tile a (x := 0) (s := s.drained (epiCount w)) (by decide) d (s.spLine (epiScale w)) (s.spLine (epiBias w))
        hm hi hy ht
    have hframe := (hrow (m := 0) (i := 0) (y := 0) (by decide) (by decide) (by decide)).1
    refine ⟨by rw [hframe]; rfl, fun m i y hm hi hy => ?_, by rw [hframe]; rfl⟩
    have hmem := (hrow hm hi hy).2
    simp only [hslots.epiBytes, hslots.epiValue, drained_rm] at hmem
    refine hmem.trans ?_
    show ((rows.find? (fun q => q % 32 = i && (a.toNat + q / 32) % 8 = m && part (q / 32) ≤ y &&
      y < part (q / 32) + n (q / 32))).map _).getD _ = _
    cases hlast : rows.find? (fun q => q % 32 = i && (a.toNat + q / 32) % 8 = m && part (q / 32) ≤ y &&
      y < part (q / 32) + n (q / 32))
    · rfl
    · have hq := List.find?_some hlast
      simp only [Bool.and_eq_true, decide_eq_true_eq] at hq
      obtain ⟨⟨⟨rfl, -⟩, -⟩, -⟩ := hq
      rfl
  · intro hc place
    refine ⟨_, exec_epi_of_ready h hc htags hblock hsound, ?_⟩
    set d := (epiIssue (.epi b a 1 r) 1 op0 (s.x b) s.cpu).cmd s.cpu
    generalize ht : (List.range (32 * epiCount (s.x b))).foldl _ _ = t
    have hview (z : Nat) := foldl_epiStep_view a d (s.spLine (epiScale w)) (s.spLine (epiBias w)) (s := s.drained (epiCount w)) hm.2
      (epiCheck_view hc) (fun j hj => by rw [hslots.epiBytes]; exact epi_room hc htags hj) z ht
    have hframe := (hview 0).1
    refine ⟨by rw [hframe]; rfl, fun z => ?_, by rw [hframe]; rfl⟩
    have hbyte := (hview z).2
    simp only [hslots.epiBytes, hslots.epiValue, drained_epiPlace] at hbyte
    refine hbyte.trans ?_
    show ((rows.find? (fun q => place q ≤ z && z < place q + n (q / 32))).map _).getD _ = _
    cases rows.find? (fun q => place q ≤ z && z < place q + n (q / 32)) <;> rfl

end Sys2Proof.Machine

/-! # Proofs: phase and its hold (O18) -/

namespace Sys2Proof.Machine

/-! ### The parts of a phase (R116, R308, R311) -/

/-- A release writes lines of the acting cell home (R308). -/
theorem release_l1Written (s : State) (scope : Nat) : L1Written s (s.release scope) := by
  unfold State.release
  split
  · exact .refl s
  · exact (foldl_writeBack_l1Written _ s).1

theorem release_cpu (s : State) (scope : Nat) : (s.release scope).cpu = { s.cpu with
    l1 := (s.release scope).cpu.l1
    reservation := (s.release scope).cpu.reservation
    wake := (s.release scope).cpu.wake } := (release_l1Written s scope).cell

/-- A cell is no neighbour of its own. -/
theorem isNeighbour_of_sameId {c d : Cell} (h : d.id = c.id) : isNeighbour c d = false := by simp [isNeighbour, h]

/-- The bound of drift looks at the acting cell's place in its team, its allowance and its count alone (R116). -/
theorem phaseHeld_congr {s : State} {c : Cell} (hid : c.id = s.cpu.id) (hteam : c.team = s.cpu.team) (hfiring : c.firing = s.cpu.firing)
    (hrole : c.role = s.cpu.role) (hcounts : c.roleCounts = s.cpu.roleCounts) (hlead : c.lead = s.cpu.lead)
    (hcount : c.phaseCount = s.cpu.phaseCount) : phaseHeld { s with cpu := c } c = phaseHeld s s.cpu := by
  have hneighbour (d : Cell) : isNeighbour c d = isNeighbour s.cpu d := by
    have hbound : c.roleCount = s.cpu.roleCount := by unfold Cell.roleCount; rw [hcounts]
    rw [isNeighbour, isNeighbour, roleBelow, roleBelow, roleAbove, roleAbove, hid, hteam, hfiring, hrole, hbound]
  simp only [phaseHeld, State.allCells, List.any_cons, hneighbour, isNeighbour_of_sameId hid, isNeighbour_of_sameId (c := s.cpu) rfl,
    hlead, hcount]

theorem Cell.wx_acquired (c : Cell) (n : BitVec 5) (v : Word) : (c.wx n v).acquired = c.acquired.wx n v := by
  unfold Cell.wx
  split
  · rfl
  · show (if c.handler then _ else _ : Cell).acquired = if c.handler then _ else _
    split <;> rfl

theorem Cell.wx_setHold (c : Cell) (n : BitVec 5) (v : Word) (h : Option Nat) :
    { c.wx n v with hold := h } = ({ c with hold := h } : Cell).wx n v := by
  unfold Cell.wx
  split
  · rfl
  · show ({ (if c.handler then _ else _ : Cell) with hold := h } : Cell) = if c.handler then _ else _
    split <;> rfl

theorem acquire_setX (s : State) (scope : Nat) (n : BitVec 5) (v : Word) : (s.setX n v).acquire scope = (s.acquire scope).setX n v := by
  unfold State.acquire
  split
  · rfl
  · exact congrArg (fun c => { s with cpu := c }) (s.cpu.wx_acquired n v)

/-- The hold of a cell stays with an acquire. -/
theorem acquire_setHold (s : State) (scope : Nat) (h : Option Nat) :
    (s.acquire scope).upd (fun c => { c with hold := h }) = (s.upd (fun c => { c with hold := h })).acquire scope := by
  unfold State.acquire
  split <;> rfl

theorem phaseEnd_held {s : State} (h : phaseHeld s s.cpu = true) (scope : Nat) : phaseEnd scope s = .next s := if_pos h

theorem phaseEnd_free {s : State} (h : phaseHeld s s.cpu = false) (scope : Nat) :
    phaseEnd scope s = .next ((s.acquire scope).upd (fun c => { c with hold := none })).advance := if_neg (by simp [h])

/-- The state in which a phase has released and counted. -/
def State.counted (s : State) (scope : Nat) : State :=
  (s.release scope).upd (fun c => { c with phaseCount := s.cpu.phaseCount + 1 })

/-- The same with the count in its register and the hold begun. -/
def State.holding (s : State) (scope : Nat) (d : BitVec 5) : State :=
  ((s.counted scope).upd (fun c => { c with hold := some scope })).setX d ((s.cpu.phaseCount + 1).setWidth 64)

theorem counted_cpu (s : State) (scope : Nat) : (s.counted scope).cpu = { s.cpu with
    l1 := (s.release scope).cpu.l1
    reservation := (s.release scope).cpu.reservation
    wake := (s.release scope).cpu.wake
    phaseCount := s.cpu.phaseCount + 1 } := by
  rw [State.counted, State.upd_cpu, release_cpu]

theorem phaseHeld_holding (s : State) (scope : Nat) (d : BitVec 5) :
    phaseHeld (s.holding scope d) (s.holding scope d).cpu = phaseHeld (s.counted scope) (s.counted scope).cpu :=
  phaseHeld_congr (s := s.counted scope) (Cell.wx_id ..) (Cell.wx_team ..) (Cell.wx_firing ..) (Cell.wx_role ..)
    (Cell.wx_roleCounts ..) (Cell.wx_lead ..) (Cell.wx_phaseCount ..)

/-- A phase that starts releases, counts and begins its hold. -/
theorem exec_phase_of_ready {sc : BitVec 3} {d : BitVec 5} {r : BitVec 3} {s : State} (he : s.cpu.executes r = true)
    (hr : s.cpu.ready [d] = true) (hh : s.cpu.hold = none) (hq : s.cpu.memoryQuiet = true) (hw : s.releaseWaits sc.toNat = false) :
    exec (.phase sc d r) s = phaseEnd sc.toNat (s.holding sc.toNat d) := by
  have hcount : (s.release sc.toNat).cpu.phaseCount = s.cpu.phaseCount := by rw [release_cpu]
  rw [exec_phase, execPhase, frontWord_ready he hr]
  simp only [hh, hq, hw, Bool.not_true, Bool.false_eq_true, if_false, State.upd, hcount]
  rfl

/-- A hold that ends leaves no trace. -/
theorem setX_setHold_none {s : State} (hh : s.cpu.hold = none) (h : Option Nat) (n : BitVec 5) (v : Word) :
    ((s.upd (fun c => { c with hold := h })).setX n v).upd (fun c => { c with hold := none }) = s.setX n v := by
  have hnone : ({ s.cpu with hold := none } : Cell) = s.cpu := by rw [← hh]
  have hcell : { ({ s.cpu with hold := h } : Cell).wx n v with hold := none } = s.cpu.wx n v :=
    (Cell.wx_setHold ..).trans (congrArg (fun c : Cell => c.wx n v) hnone)
  exact congrArg (fun c : Cell => { s with cpu := c }) hcell

theorem holding_done {s : State} (hh : s.cpu.hold = none) (scope : Nat) (d : BitVec 5) :
    ((s.holding scope d).acquire scope).upd (fun c => { c with hold := none }) =
      ((s.counted scope).acquire scope).setX d ((s.cpu.phaseCount + 1).setWidth 64) := by
  have hnone : (s.counted scope).cpu.hold = none := by rw [counted_cpu, hh]
  rw [acquire_setHold, ← acquire_setX, State.holding, setX_setHold_none hnone]

/-- Settles O18: phase is release, count and the end of its hold, which waits while the member leads too far. -/
theorem phaseCountsAndHolds : Obligations.PhaseCountsAndHolds := by
  unfold Obligations.PhaseCountsAndHolds
  constructor
  · intro sc d r s he hr hh hq hw count counted
    have hrun := exec_phase_of_ready he hr hh hq hw
    have hheld := phaseHeld_holding s sc.toNat d
    constructor
    · intro hfree
      refine ⟨_, hrun.trans (phaseEnd_free (hheld.trans hfree) _), ?_⟩
      rw [holding_done hh]
      exact wroteX_setX_advance ..
    · intro hlead
      refine ⟨_, hrun.trans (phaseEnd_held (hheld.trans hlead) _), ?_, ?_, ?_, ?_, ?_⟩
      · exact Cell.wx_phaseCount ..
      · exact Cell.wx_hold ..
      · exact (Cell.wx_pc ..).trans (by rw [State.upd_cpu, counted_cpu])
      · exact (Cell.wx_lead ..).trans (by rw [State.upd_cpu, counted_cpu])
      · refine (Cell.rx_wx ..).trans ?_
        rw [if_pos rfl]
  · intro scope s hh
    have hrun : exec .phaseHoldRelease s = phaseEnd scope s := by rw [exec_phaseHoldRelease, execPhaseHoldRelease, hh]
    exact ⟨fun hfree => ⟨_, hrun.trans (phaseEnd_free hfree scope), stepped_advance _⟩, fun hlead => hrun.trans (phaseEnd_held hlead scope)⟩

end Sys2Proof.Machine

/-! # Proofs: team words, the vector allotment and the format registers (O19) -/

namespace Sys2Proof.Machine

/-! ### Changes of the cell before it goes on -/

/-- Going on after a change that leaves the pc, the loops and their counters. -/
theorem advance_upd {s : State} {f : Cell → Cell} (hpc : (f s.cpu).pc = s.cpu.pc) (hl : (f s.cpu).loops = s.cpu.loops)
    (hc : (f s.cpu).lc = s.cpu.lc) : (s.upd f).advance = { s with cpu := { f s.cpu with
      pc := (s.cpu.flowTo (s.cpu.pc + 4)).pc
      loops := (s.cpu.flowTo (s.cpu.pc + 4)).loops
      lc := (s.cpu.flowTo (s.cpu.pc + 4)).lc } } := by
  show { s with cpu := (f s.cpu).flowTo ((f s.cpu).pc + 4) } = _
  rw [hpc, Cell.flowTo_congr _ hl hc]

theorem Cell.wx_setLead (c : Cell) (n : BitVec 5) (v : Word) (k : Nat) :
    { c.wx n v with lead := k } = ({ c with lead := k } : Cell).wx n v := by
  unfold Cell.wx
  split
  · rfl
  · show ({ (if c.handler then _ else _ : Cell) with lead := k } : Cell) = if c.handler then _ else _
    split <;> rfl

/-! ### Roles and step counts (R107, R242) -/

/-- The layout of another role without a bound cell shows count 0, member 0 and index 0 (R107). -/
theorem roleLayout_unbound {c : Cell} {q : Nat} (hq : q ≤ 6) (hr : q ≠ c.role) (hn : c.roleCount q = 0) :
    (c.roleLayout q).extractLsb' 4 2 = 0 ∧ (c.roleLayout q).extractLsb' 8 4 = 0 := by
  have hv : c.roleLayout q = BitVec.ofNat 64 (q + c.tindex * 2 ^ 12 + c.tsize * 2 ^ 16) := by
    simp [Cell.roleLayout, hr, hn]
  constructor <;>
  · apply BitVec.eq_of_toNat_eq
    rw [hv, BitVec.extractLsb'_toNat, BitVec.toNat_ofNat, Nat.shiftRight_eq_div_pow]
    simp only [BitVec.ofNat_eq_ofNat, BitVec.toNat_ofNat]
    omega

/-- A change of one context leaves the others. -/
theorem context_updContext (s : State) (id : Nat) {f : Context → Context} (hf : ∀ c, (f c).id = c.id) (i : Nat) :
    (s.updContext id f).context i = (s.context i).map (fun c => if c.id = id then f c else c) := by
  have hid : (fun c : Context => c.id == i) ∘ (fun c => if c.id = id then f c else c) = fun c => c.id == i := by
    funext c
    by_cases hc : c.id = id
    · simp [hc, hf]
    · simp [hc]
  rw [State.context, State.updContext, List.find?_map, hid]
  rfl

theorem context_id {s : State} {i : Nat} {x : Context} (h : s.context i = some x) : x.id = i :=
  beq_iff_eq.mp (List.find?_some (p := fun c : Context => c.id == i) h)

theorem stepOf_updContext_same {s : State} {i : Nat} {x : Context} (h : s.context i = some x) {f : Context → Context}
    (hf : ∀ c, (f c).id = c.id) : (s.updContext i f).stepOf i = (f x).step := by
  rw [State.stepOf, context_updContext s i hf, h, Option.map_some, if_pos (context_id h)]

theorem stepOf_updContext_other (s : State) {i j : Nat} (h : j ≠ i) {f : Context → Context} (hf : ∀ c, (f c).id = c.id) :
    (s.updContext i f).stepOf j = s.stepOf j := by
  rw [State.stepOf, context_updContext s i hf, State.stepOf]
  cases hx : s.context j with
  | none => rfl
  | some x =>
    have hne : x.id ≠ i := context_id hx ▸ h
    rw [Option.map_some, if_neg hne]

theorem setX_advance_stepOf (s : State) (n : BitVec 5) (v : Word) (i : Nat) : (s.setX n v).advance.stepOf i = s.stepOf i := rfl

/-! ### The allotment of vector registers (R129) -/

/-- The cell with another allotment of vector registers. -/
def Cell.resized (c : Cell) (vRes : List (Nat × Bool × Nat)) (v : Vector VReg 32) (poison : List Res) (n : Nat) : Cell :=
  { c with vRes := vRes, v := v, poison := poison, valloc := n }

theorem zeroRegs_getElem (v : Vector VReg 32) {lo hi : Nat} (h : lo ≤ hi) (j : Fin 32) :
    (zeroRegs v lo (hi - lo))[j] = if lo ≤ j.val ∧ j.val < hi then 0 else v[j] := by
  rw [zeroRegs, Fin.getElem_fin, Vector.getElem_ofFn, Nat.add_sub_cancel' h]
  simp only [Bool.and_eq_true, decide_eq_true_eq, Fin.getElem_fin]

theorem mem_healV (c : Cell) {lo hi : Nat} (h : lo ≤ hi) (q : Res) :
    q ∈ c.healV lo (hi - lo) ↔ q ∈ c.poison ∧ ∀ j, lo ≤ j → j < hi → q ≠ .v j := by
  have hrun : q ∈ (List.range (hi - lo)).map (fun i => Res.v (lo + i)) ↔ ∃ j, lo ≤ j ∧ j < hi ∧ q = .v j := by
    simp only [List.mem_map, List.mem_range]
    constructor
    · rintro ⟨i, hi, rfl⟩
      exact ⟨lo + i, by omega, by omega, rfl⟩
    · rintro ⟨j, hlo, hhi, rfl⟩
      exact ⟨j - lo, by omega, by rw [Nat.add_sub_cancel' hlo]⟩
  simp only [Cell.healV, List.mem_filter, Bool.not_eq_true', ← Bool.not_eq_true, List.contains_iff_mem, hrun]
  grind

theorem mem_poisonAfter (c : Cell) (d : BitVec 5) (q : Res) :
    q ∈ c.poisonAfter d ↔ q ∈ c.poison ∧ (d ≠ 0 → q ≠ c.xRes d.toNat) := by
  unfold Cell.poisonAfter
  split
  · rename_i hd
    exact (and_iff_left fun h => absurd hd h).symm
  · rename_i hd
    rw [Cell.mem_heal]
    exact and_congr_right fun _ => ⟨fun h _ => h, fun h => h hd⟩

/-- What a change of the allotment leaves of the machine. -/
theorem setX_resized_advance (s : State) (d : BitVec 5) (w : Word) (vRes : List (Nat × Bool × Nat)) {v : Vector VReg 32}
    {poison : List Res} (n : Nat) {clear : Fin 32 → Prop} [DecidablePred clear] {gone : Res → Prop}
    (hv : ∀ j : Fin 32, v[j] = if clear j then 0 else s.cpu.v[j]) (hp : ∀ q, q ∈ poison ↔ q ∈ s.cpu.poison ∧ gone q) {t : State}
    (ht : ((s.upd (fun c => c.resized vRes v poison n)).setX d w).advance = t) :
    (t.x d = if d = 0 then 0 else w) ∧ (∀ q, q ≠ d → t.x q = s.x q) ∧
    (∀ j : Fin 32, t.cpu.v[j] = if clear j then 0 else s.cpu.v[j]) ∧
    (∀ q, q ∈ t.cpu.poison ↔ q ∈ s.cpu.poison ∧ gone q ∧ (d ≠ 0 → q ≠ s.cpu.xRes d.toNat)) ∧
    t = { s with cpu := { s.cpu.flowTo (s.cpu.pc + 4) with
      x := t.cpu.x
      hx := t.cpu.hx
      v := t.cpu.v
      poison := t.cpu.poison
      vRes := t.cpu.vRes
      valloc := n } } := by
  have hw : WroteX (s.upd (fun c => c.resized vRes v poison n)) d w t := ht ▸ wroteX_setX_advance ..
  obtain ⟨hresult, hothers, -, -, -, hrest⟩ := hw
  have hflow : (s.cpu.resized vRes v poison n).flowTo (s.cpu.pc + 4) = { s.cpu.resized vRes v poison n with
      pc := (s.cpu.flowTo (s.cpu.pc + 4)).pc
      loops := (s.cpu.flowTo (s.cpu.pc + 4)).loops
      lc := (s.cpu.flowTo (s.cpu.pc + 4)).lc } := Cell.flowTo_congr _ rfl rfl
  rw [State.upd_cpu, show (s.cpu.resized vRes v poison n).pc = s.cpu.pc from rfl, hflow] at hrest
  refine ⟨hresult, hothers, fun j => ?_, fun q => ?_, ?_⟩
  · rw [hrest]
    exact hv j
  · rw [hrest]
    refine (mem_poisonAfter (s.cpu.resized vRes v poison n) d q).trans ?_
    rw [← and_assoc, ← hp]
    rfl
  · rw [Cell.flowTo_frame, hrest]
    rfl

section
variable {grow : Bool} {a d : BitVec 5} {s : State}

/-- The four sizes of an allotment (R129). -/
theorem allotment_iff (n : Nat) : (n = 8 || n = 16 || n = 24 || n = 32 : Bool) = decide (n ∈ [8, 16, 24, 32]) := by
  simp [Bool.or_assoc]

/-- A size on the right side of the allotment is taken when no command names a vector register; the registers between the two
allotments are cleared (R129). -/
theorem resize_takes (hn : (s.x a).toNat ∈ [8, 16, 24, 32]) (hp : s.cpu.pending = []) {lo hi : Nat} (h : lo ≤ hi)
    (hlo : lo = if grow then s.cpu.valloc else (s.x a).toNat) (hhi : hi = if grow then (s.x a).toNat else s.cpu.valloc) :
    ∃ vRes, resize grow a d s = .next ((s.upd (fun c => c.resized vRes (zeroRegs s.cpu.v lo (hi - lo)) (s.cpu.healV lo (hi - lo))
      (s.x a).toNat)).setX d (BitVec.ofNat 64 s.cpu.valloc)).advance := by
  have hsize : ¬ ((!((s.x a).toNat = 8 || (s.x a).toNat = 16 || (s.x a).toNat = 24 || (s.x a).toNat = 32)) = true) := by
    simp only [allotment_iff, decide_eq_true hn, Bool.not_true, Bool.false_eq_true, not_false_eq_true]
  have hside : ¬ ((grow && (s.x a).toNat < s.cpu.valloc || !grow && s.cpu.valloc < (s.x a).toNat) = true) := by
    cases grow <;> simpa [hlo, hhi] using h
  unfold resize
  dsimp only
  rw [if_neg hsize, if_neg hside, if_neg (by simp [hp])]
  cases grow
  · subst hlo hhi
    exact ⟨s.cpu.vRes, by simp only [State.upd, Cell.resized, Bool.false_eq_true, if_false]⟩
  · subst hlo hhi
    exact ⟨makeRoom (decide (s.cpu.cls = 0)) (s.x a).toNat 32 33 s.cpu.vRes, by simp only [State.upd, Cell.resized, if_true]⟩

/-- A size that is none, or on the wrong side of the allotment, traps (R129). -/
theorem resize_bad (hb : (s.x a).toNat ∉ [8, 16, 24, 32] ∨
      (if grow then (s.x a).toNat < s.cpu.valloc else s.cpu.valloc < (s.x a).toNat)) :
    resize grow a d s = .next (s.trap 1 (s.x a)) := by
  unfold resize
  dsimp only
  rw [allotment_iff]
  by_cases hn : (s.x a).toNat ∈ [8, 16, 24, 32]
  · have hside := hb.resolve_left (not_not.mpr hn)
    rw [decide_eq_true hn, if_neg (by decide), if_pos (by cases grow <;> simpa using hside)]
    rfl
  · rw [decide_eq_false hn, if_pos Bool.not_false]
    rfl

end

/-- An entry's place in the format table. -/
theorem set_mod_of_lt {n : Nat} (h : n < 64) (f : Vector Word 64) (e : Word) :
    f.set (n % 64) e (Nat.mod_lt _ (by decide)) = f.set n e h := by
  simp only [Nat.mod_eq_of_lt h]

/-- Settles O19: each word reads or sets its one field, or traps with its operand. -/
theorem teamWordsReadAndSet : Obligations.TeamWordsReadAndSet := by
  unfold Obligations.TeamWordsReadAndSet
  refine ⟨?roleid, ?drift, ?stepadv, ?resize, ?formats⟩
  case roleid =>
    intro a d r s he hr
    have hi : exec (.roleid a d r) s = _ := (exec_roleid ..).trans (frontWord_ready he hr _)
    refine ⟨fun ha => ⟨_, hi.trans (if_pos ha), wroteX_setX_advance ..⟩,
      fun ha hq => ⟨_, hi.trans ((if_neg ha).trans (if_neg (Nat.not_lt.mpr hq))), wroteX_setX_advance ..⟩,
      fun ha hq => hi.trans ((if_neg ha).trans (if_pos hq)), fun q => roleLayout_unbound⟩
  case drift =>
    intro a d r s he hr
    have hi : exec (.drift a d r) s = _ := (exec_drift ..).trans (frontWord_ready he hr _)
    refine ⟨fun hv => ⟨_, hi.trans (if_neg (Nat.not_lt.mpr hv)), ?_⟩, fun hv => hi.trans (if_pos hv)⟩
    have hcell : (s.setX d (BitVec.ofNat 64 s.cpu.lead)).upd (fun c => { c with lead := (s.x a).toNat }) =
        (s.upd (fun c => { c with lead := (s.x a).toNat })).setX d (BitVec.ofNat 64 s.cpu.lead) :=
      congrArg (fun c : Cell => { s with cpu := c }) (s.cpu.wx_setLead ..)
    rw [hcell]
    exact wroteX_setX_advance ..
  case stepadv =>
    intro a d r x s he hr hx
    have hi : exec (.stepadv a d r) s = _ := (exec_stepadv ..).trans (frontWord_ready he hr _)
    have hwide : (s.x a).extractLsb' 32 32 = 0 ↔ (s.x a).toNat < 2 ^ 32 := extractLsb'_high_eq_zero_iff _ _ _ rfl
    refine ⟨fun hn => ?_, fun hn => hi.trans (if_pos (mt hwide.mp (Nat.not_lt.mpr hn)))⟩
    intro step
    have hf (c : Context) : ({ c with step := c.step + (s.x a).setWidth 32 } : Context).id = c.id := rfl
    set u := s.updContext s.cpu.ctx (fun c => { c with step := c.step + (s.x a).setWidth 32 })
    have hstep : u.stepOf s.cpu.ctx = step := stepOf_updContext_same hx hf
    have hrun : exec (.stepadv a d r) s = .next (u.setX d (step.setWidth 64)).advance := by
      refine hi.trans ((if_neg (not_not.mpr (hwide.mpr hn))).trans ?_)
      rw [extractLsb'_low, ← hstep]
      rfl
    refine ⟨_, hrun, wroteX_setX_advance .., (setX_advance_stepOf ..).trans hstep, fun i hne => ?_⟩
    exact (setX_advance_stepOf ..).trans (stepOf_updContext_other s hne hf)
  case resize =>
    intro a d r s he hr n old resized
    have hgrow : exec (.vgrow a d r) s = resize true a d s := (exec_vgrow ..).trans (frontWord_ready he hr _)
    have hshrink : exec (.vshrink a d r) s = resize false a d s := (exec_vshrink ..).trans (frontWord_ready he hr _)
    have takes {i : Instr} {grow : Bool} {lo hi : Nat} (hi' : exec i s = resize grow a d s) (hn : n ∈ [8, 16, 24, 32])
        (hp : s.cpu.pending = []) (h : lo ≤ hi) (hlo : lo = if grow then old else n) (hhi : hi = if grow then n else old) :
        Completes i s (resized lo hi) := by
      obtain ⟨vRes, hrun⟩ := resize_takes (d := d) hn hp h hlo hhi
      exact ⟨_, hi'.trans hrun, setX_resized_advance s d _ vRes n (clear := fun j => lo ≤ j.val ∧ j.val < hi)
        (gone := fun q => ∀ j, lo ≤ j → j < hi → q ≠ .v j) (zeroRegs_getElem s.cpu.v h) (mem_healV s.cpu h) rfl⟩
    exact ⟨fun hn hp => ⟨fun hg => takes hgrow hn hp hg rfl rfl, fun hg => takes hshrink hn hp hg rfl rfl⟩,
      fun hb => hgrow.trans (resize_bad hb), fun hb => hshrink.trans (resize_bad hb)⟩
  case formats =>
    intro a b d r s he hr v
    have hfm : exec (.fmset a d r) s = _ := (exec_fmset ..).trans (frontWord_ready he (Cell.ready_of_subset hr (by simp)) _)
    have hft : exec (.ftset b a r) s = _ := (exec_ftset ..).trans (frontWord_ready he hr _)
    have hwide : v.extractLsb' 32 32 = 0 ↔ v.toNat < 2 ^ 32 := extractLsb'_high_eq_zero_iff _ _ _ rfl
    have hix : v.extractLsb' 6 58 = 0 ↔ v.toNat < 64 := extractLsb'_high_eq_zero_iff _ _ _ rfl
    refine ⟨fun hv hd hp => ?_, fun hb => hfm.trans (if_pos ?_), fun hv hd => ?_,
      fun hv => hft.trans (if_pos (mt hix.mp (Nat.not_lt.mpr hv))),
      fun hv hd => hft.trans ((if_neg (not_not.mpr (hix.mpr hv))).trans (if_pos (by simp [hd])))⟩
    · have hgood : ¬ (v.extractLsb' 32 32 ≠ 0 ∨ (decodeDesc (v.extractLsb' 0 32)).isNone = true) := by
        rw [extractLsb'_low, hwide.mpr hv]
        simpa [Option.isSome_iff_ne_none] using hd
      have hidle : ¬ s.cpu.inUse [.fm (d.toNat % 16)] = true := by simp [Cell.inUse, hp]
      refine ⟨_, hfm.trans ((if_neg hgood).trans (if_neg hidle)), ?_⟩
      rw [advance_upd rfl rfl rfl, Cell.flowTo_frame s.cpu, extractLsb'_low]
    · rw [extractLsb'_low, Option.isNone_iff_eq_none]
      exact hb.imp_left fun h => mt hwide.mp (Nat.not_lt.mpr h)
    · refine ⟨_, hft.trans ((if_neg (not_not.mpr (hix.mpr hv))).trans (if_neg (by simp [hd]))), ?_⟩
      rw [advance_upd rfl rfl rfl, Cell.flowTo_frame s.cpu, ← set_mod_of_lt hv]

end Sys2Proof.Machine

/-! # Proofs: loops, sequential flow and words of other roles (O20) -/

namespace Sys2Proof.Machine

/-! ### Starting a loop (R119) -/

/-- The counter of a new loop is the lowest that no active loop owns; with fewer than four loops there is one. -/
theorem freeCounter_spec {ls : List Loop} (h : ls.length < 4) :
    freeCounter ls < 4 ∧ (∀ l ∈ ls, l.ctr ≠ freeCounter ls) ∧ ∀ j, j < freeCounter ls → ∃ l ∈ ls, l.ctr = j := by
  have hex : ∃ k ∈ List.range 4, (!ls.any (fun l => l.ctr == k)) = true := by
    by_contra hnone
    have hall : List.range 4 ⊆ ls.map Loop.ctr := fun k hk => by
      simpa [hk] using fun hfree => hnone ⟨k, hk, hfree⟩
    have hlen := (List.nodup_range.subperm hall).length_le
    simp only [List.length_range, List.length_map] at hlen
    omega
  obtain ⟨k, hfind⟩ := Option.isSome_iff_exists.mp (List.find?_isSome.mpr hex)
  have hk : freeCounter ls = k := by rw [freeCounter, hfind, Option.getD_some]
  obtain ⟨hfree, hrange, hleast⟩ := List.find?_range_eq_some.mp hfind
  rw [hk]
  refine ⟨List.mem_range.mp hrange, fun l hl he => ?_, fun j hj => ?_⟩
  · have hany : ls.any (fun l => l.ctr == k) = true := List.any_eq_true.mpr ⟨l, hl, by simpa using he⟩
    simp [hany] at hfree
  · simpa using hleast j hj

section
variable {c : BitVec 5} {e : BitVec 10} {r : BitVec 3} {s : State}

/-- The four outcomes of loop. -/
theorem exec_loop_ready (he : s.cpu.executes r = true) (hr : s.cpu.ready [c] = true) : exec (.loop c e r) s =
    if (s.x c).extractLsb' 32 32 ≠ 0 then .next (s.trap 1 (s.x c))
    else if s.x c = 0 then .next (s.upd (fun d => d.flowTo (s.cpu.pc + 4 * e.setWidth 64 + 4)))
    else if 4 ≤ s.cpu.loops.length then .next (s.trap 1 s.cpu.pc)
    else if s.cpu.loops.any (fun l => l.stop.toNat < (s.cpu.pc + 4 * e.setWidth 64).toNat) then .next (s.trap 1 s.cpu.pc)
    else .next (s.upd (fun d => { d.wlc (freeCounter s.cpu.loops) 0 with
      loops := ⟨freeCounter s.cpu.loops, s.cpu.pc + 4, s.cpu.pc + 4 * e.setWidth 64, (s.x c).toNat⟩ :: s.cpu.loops
      pc := s.cpu.pc + 4 })) := by
  rw [exec_loop, execLoop, frontWord_ready he hr]
  rfl

end

/-! ### The end of a body (R120) -/

section
variable {c : Cell} {l : Loop} {rest : List Loop} (hc : c.loops = l :: rest)
include hc

theorem Cell.flowTo_end_again (hn : (c.rlc l.ctr).toNat + 1 < l.n) :
    c.flowTo (l.stop + 4) = { c.wlc l.ctr (c.rlc l.ctr + 1) with pc := l.start } := by
  rw [Cell.flowTo, hc, reach, if_pos rfl, if_pos hn, ← hc]
  rfl

theorem Cell.flowTo_end_done (hn : l.n ≤ (c.rlc l.ctr).toNat + 1) :
    c.flowTo (l.stop + 4) = ({ c with loops := rest } : Cell).flowTo (l.stop + 4) := by
  rw [Cell.flowTo, hc, reach, if_pos rfl, if_neg (Nat.not_lt.mpr hn), Cell.flowTo, reach_congr _ rest c { c with loops := rest } rfl]
  exact reach_eq ..

theorem Cell.flowTo_inside {t : Word} (ht : l.holds t = true) (hne : t ≠ l.stop + 4) : c.flowTo t = { c with pc := t } := by
  rw [Cell.flowTo, hc, reach, if_neg hne, if_pos ht, ← hc]

end

/-! ### Words of other roles (R25) -/

section
variable {i : Instr} {w : BitVec 32} {s : State} (hw : encode i = some w) (he : s.cpu.executes (w.extractLsb' 7 3) = false)
include hw he

theorem exec_otherRole_formatV (hop : w.extractLsb' 0 7 = 0x0B#7) : exec i s = .next s.advance := by
  cases i
  case vadd | vsub | vmul | vmulh | vand | vor | vxor | vsll | vsrl | vsra | vmin | vmax | vminu | vmaxu | vaddx | viota |
      vfadd | vfsub | vfmul | vfma | vfmin | vfmax | vfexp2 | vfrcp | vfrsqrt | vflog2 | vfmulx | vfaddx | vcmpeq | vcmplt |
      vcmpltu | vfcmpeq | vfcmplt | kopAnd | kopOr | kopXor | kopAndn | kpop | kpopFirst | vsel | vcvtn | vcvtw | vcvtif |
      vcvtfi | vredsum | vredsumI32 | vredmax | vredmaxI32 | vredmin | vredminI32 | vslide | vperm | vcompress | vmvxv | vmvvx |
      vsmaxacc | vsmaxfin | vsortkv | vseghead | vsppack =>
    obtain rfl := Option.some.inj hw
    rw [Laws.encodeV_r] at he
    exact if_pos (by rw [he]; rfl)
  all_goals cases hw <;> simp at hop

theorem exec_otherRole_formatMF (hop : w.extractLsb' 0 7 = 0x2B#7) : exec i s = .next s.advance := by
  cases i
  case mma | mmaAcc | mmaNeg | mmas | mmasAcc | mmasNeg | accz | accscl | accsclX | accrd | accrdCol | accwr | accwrCol | epi |
      mqctlWait | mqctlRm | mqctlFtb =>
    obtain rfl := Option.some.inj hw
    rw [Laws.encodeM_r] at he
    exact if_pos (by rw [he]; rfl)
  case opu | fwfwd | fwupdD | fwupdH | fwupdE | fwfuD | fwfuDl | fwfuH | fwfuHl | fwfuE | fwsnapSnap | fwsnapFork |
      fwsnapRollback | fwsnapFree | fwavg | fwmig | fwctlPin | fwctlUnpin | fwctlQuery | fwctlHint | fwctlWait | fwctlNew =>
    obtain rfl := Option.some.inj hw
    rw [Laws.encodeF_r] at he
    exact if_pos (by rw [he]; rfl)
  all_goals cases hw <;> simp at hop

theorem exec_otherRole_formatS (hop : w.extractLsb' 0 7 = 0x5B#7) : exec i s = .next s.advance := by
  cases i
  case ldst | stst | phase | fenceBoth | fenceRel | fenceAcq | barinit | barinitForce | barinitFree | bararr | bardrop | barjoin |
      barwait | bartest | waita | ringinit | ringclaim | ringcommit | ringtake | ringfree | waitfill | waitfree | redfence | prcfg |
      prinv | prpin | prunpin | cparm | cpstep | cpstat | cpcancel | nbmode | nbcmd | nbfence | hintLife | hintPref | hintFetch |
      stepadv | spfeEmpty | spfeFull =>
    obtain rfl := Option.some.inj hw
    rw [Laws.encodeS_r] at he
    exact if_pos (by rw [he]; rfl)
  case vldm | vstm | vldx | vstx | vlds | vsts | sprot | tld | tst | redaF32add | redaBf16add | redaI32add | redaF32max |
      redaF32min | redaI32max | redaI32min | nbrd =>
    obtain rfl := Option.some.inj hw
    rw [Laws.encodeS_r] at he
    exact if_pos (by rw [he]; rfl)
  all_goals cases hw <;> simp at hop

theorem exec_otherRole_formatCP (hop : w.extractLsb' 0 7 = 0x7B#7) (hrole : ∀ m k, i ≠ .role m k)
    (hhand : ∀ a b c d, i ≠ .handoff a b c d) : exec i s = .next s.advance := by
  cases i
  case role m k => exact absurd rfl (hrole m k)
  case handoff a b c d => exact absurd rfl (hhand a b c d)
  case roleid | drift | vgrow | vshrink | fmset | ftset | rnext | ntoken | nctx | ndone | nfail | trapret | rqrd | rqwr |
      rqdrop | enread | enest | trec =>
    obtain rfl := Option.some.inj hw
    rw [Laws.encodeC_r] at he
    exact if_pos (by rw [he]; rfl)
  case loop =>
    obtain rfl := Option.some.inj hw
    rw [Laws.encodeLoop_r] at he
    exact if_pos (by rw [he]; rfl)
  case probe =>
    obtain rfl := Option.some.inj hw
    rw [Laws.encodeP_r] at he
    exact if_pos (by rw [he]; rfl)
  all_goals cases hw <;> simp at hop

/-- A cell passes over a word of the four formats whose role is not its own. -/
theorem exec_otherRole (hop : w.extractLsb' 0 7 ∈ [0x0B#7, 0x2B#7, 0x5B#7, 0x7B#7]) (hrole : ∀ m k, i ≠ .role m k)
    (hhand : ∀ a b c d, i ≠ .handoff a b c d) : exec i s = .next s.advance := by
  simp only [List.mem_cons, List.not_mem_nil, or_false] at hop
  obtain hV | hMF | hS | hCP := hop
  · exact exec_otherRole_formatV hw he hV
  · exact exec_otherRole_formatMF hw he hMF
  · exact exec_otherRole_formatS hw he hS
  · exact exec_otherRole_formatCP hw he hCP hrole hhand

end

/-- Settles O20: loop by its four outcomes, the end of a body by the flow, and a word of another role by its format. -/
theorem loopsAndFlow : Obligations.LoopsAndFlow := by
  unfold Obligations.LoopsAndFlow
  refine ⟨?loop, ?flow, fun i w s hw hop hrole hhand he => exec_otherRole hw he hop hrole hhand⟩
  case loop =>
    intro c e r s he hr n last nests
    have hi := exec_loop_ready (e := e) he hr
    have hwide : (s.x c).extractLsb' 32 32 = 0 ↔ n < 2 ^ 32 := extractLsb'_high_eq_zero_iff _ _ _ rfl
    have hzero : s.x c = 0 ↔ n = 0 := by rw [← BitVec.toNat_inj]; rfl
    have hnests : nests ↔ ¬ 4 ≤ s.cpu.loops.length ∧ ¬ s.cpu.loops.any (fun l => l.stop.toNat < last.toNat) = true := by
      simp [nests]
    refine ⟨fun h0 hn hne => ?_, fun h0 => ?_, fun hn => ?_, fun h0 hn hne => ?_⟩
    · obtain ⟨hfew, hinner⟩ := hnests.mp hne
      obtain ⟨hk, hfree, hleast⟩ := freeCounter_spec (Nat.not_le.mp hfew)
      rw [if_neg (not_not.mpr (hwide.mpr hn)), if_neg (mt hzero.mp h0.ne'), if_neg hfew, if_neg hinner] at hi
      exact ⟨_, hi, _, hk, hfree, hleast, rfl⟩
    · rw [if_neg (not_not.mpr (hwide.mpr (by omega))), if_pos (hzero.mpr h0)] at hi
      exact ⟨_, hi, rfl⟩
    · rw [if_pos (mt hwide.mp (Nat.not_lt.mpr hn))] at hi
      exact hi
    · rw [if_neg (not_not.mpr (hwide.mpr hn)), if_neg (mt hzero.mp h0.ne')] at hi
      by_cases hfew : 4 ≤ s.cpu.loops.length
      · rwa [if_pos hfew] at hi
      · have hinner := not_not.mp fun h => hne (hnests.mpr ⟨hfew, h⟩)
        rwa [if_neg hfew, if_pos hinner] at hi
  case flow =>
    intro c l rest hc
    refine ⟨⟨Cell.flowTo_end_again hc, Cell.flowTo_end_done hc, fun t => Cell.flowTo_inside hc⟩, fun m skip s hs => ?_⟩
    subst hs
    have hi : exec (.role m skip) s = _ := exec_role m skip s
    exact ⟨fun hm => ⟨_, hi.trans (if_pos hm), stepped_advance s⟩, fun hm => ⟨_, hi.trans (if_neg (by simp [hm])), rfl⟩⟩

end Sys2Proof.Machine

/-! # Proofs: taking a trap (O21) -/

namespace Sys2Proof.Machine

/-! ### The parts of a trap (R354) -/

/-- A cell that leaves its waits: of the cell itself, an nbmode that has begun. -/
theorem leaveWaits_frame (s : State) : s.leaveWaits s.cpu.id = { s with
    cpu := { s.cpu with nbBegun := false }
    waits := (s.leaveWaits s.cpu.id).waits
    syncSram := (s.leaveWaits s.cpu.id).syncSram
    copyWaits := (s.leaveWaits s.cpu.id).copyWaits
    channels := (s.leaveWaits s.cpu.id).channels
    rings := (s.leaveWaits s.cpu.id).rings } := by
  have hcell : s.updCell s.cpu.id (fun c => { c with nbBegun := false }) = { s with cpu := { s.cpu with nbBegun := false } } := by
    rw [State.updCell, State.cell, if_pos rfl]
    exact if_pos rfl
  rw [State.leaveWaits, hcell]
  rfl

/-- The state in which a trap has saved what a handler reads: cause, value, resume address, loops and their counters (R122, R354). -/
def State.trapSaved (s : State) (cause : Nat) (tval epc : Word) (lost : Option Nat) : State :=
  (s.leaveWaits s.cpu.id).upd (fun c => { c with
    tcause := BitVec.ofNat 64 cause
    tval := tval
    tepc := epc
    hwLost := lost
    reservation := none
    savedHold := if c.handler then c.savedHold else c.hold.map (fun h => (c.pc, h))
    hold := none
    savedLoops := if c.handler then c.savedLoops else c.loops
    savedLc := if c.handler then c.savedLc else c.lc
    loops := []
    asleep := false })

section
variable (s : State) (cause : Nat) (tval epc : Word) (lost : Option Nat)

theorem trapSaved_cpu : (s.trapSaved cause tval epc lost).cpu = { s.cpu with
    nbBegun := false
    tcause := BitVec.ofNat 64 cause
    tval := tval
    tepc := epc
    hwLost := lost
    reservation := none
    savedHold := if s.cpu.handler then s.cpu.savedHold else s.cpu.hold.map (fun h => (s.cpu.pc, h))
    hold := none
    savedLoops := if s.cpu.handler then s.cpu.savedLoops else s.cpu.loops
    savedLc := if s.cpu.handler then s.cpu.savedLc else s.cpu.lc
    loops := []
    asleep := false } := by
  rw [State.trapSaved, State.upd_cpu, leaveWaits_cpu]

theorem trapSaved_frame : s.trapSaved cause tval epc lost = { s with
    cpu := (s.trapSaved cause tval epc lost).cpu
    waits := (s.trapSaved cause tval epc lost).waits
    syncSram := (s.trapSaved cause tval epc lost).syncSram
    copyWaits := (s.trapSaved cause tval epc lost).copyWaits
    channels := (s.trapSaved cause tval epc lost).channels
    rings := (s.trapSaved cause tval epc lost).rings } := by
  have h := leaveWaits_frame s
  generalize hu : s.leaveWaits s.cpu.id = u at h
  rw [State.trapSaved, hu, h]
  rfl

variable (addr : Word) (word : BitVec 32)

/-- A trap of a task with a handler enters it. -/
theorem enterTrap_handled (hm : s.cpu.handler = false) (ht : s.cpu.thandler ≠ 0) :
    s.enterTrap cause tval epc addr word lost =
      (s.trapSaved cause tval epc lost).upd (fun c => { c with handler := true, pc := c.thandler }) := by
  have hcell : (s.trapSaved cause tval epc lost).cpu.thandler = s.cpu.thandler := by rw [trapSaved_cpu]
  have hnot : ¬ ((s.cpu.handler || (s.trapSaved cause tval epc lost).cpu.thandler = 0) = true) := by
    rw [hm, hcell, Bool.false_or, decide_eq_true_eq]
    exact ht
  exact if_neg hnot

/-- Any other trap posts its record and faults the node (R346). -/
theorem enterTrap_fault (h : s.cpu.handler = true ∨ s.cpu.thandler = 0) :
    ∃ r, s.enterTrap cause tval epc addr word lost =
      ((s.trapSaved cause tval epc lost).post s.cpu.ctx 0 s.cpu.id r).faultNode cause tval lost := by
  have hcell := trapSaved_cpu s cause tval epc lost
  have hthandler : (s.trapSaved cause tval epc lost).cpu.thandler = s.cpu.thandler := by rw [hcell]
  have hctx : (s.trapSaved cause tval epc lost).cpu.ctx = s.cpu.ctx := by rw [hcell]
  have hid : (s.trapSaved cause tval epc lost).cpu.id = s.cpu.id := by rw [hcell]
  have hfault : (s.cpu.handler || (s.trapSaved cause tval epc lost).cpu.thandler = 0) = true := by
    rw [hthandler]
    obtain h | h := h <;> simp [h]
  refine ⟨record 1 cause (s.trapSaved cause tval epc lost).cpu.id (s.trapSaved cause tval epc lost).now addr.toNat tval.toNat
    (leBytes 4 word.toNat ++ leBytes 4 epc.toNat), ?_⟩
  rw [← hctx]
  conv_rhs => rw [← hid]
  exact if_pos hfault

end

/-- The replay queue that a trap makes of the commands under way (R354, R360). -/
def State.captured (s : State) (i : Option Nat) : List Cmd :=
  s.cpu.pending.mapIdx (fun j d => { d with
    trapped := i == some j, started := false, ranges := [], kept := []
    hold := if d.hold.any (fun id => s.holdReqs.any (fun q => q.id == id)) then none else d.hold })

theorem capturePending_cpu (s : State) (i : Option Nat) :
    (s.capturePending i).cpu = { s.cpu with replay := s.captured i, pending := [] } := rfl

theorem capturePending_frame (s : State) (i : Option Nat) :
    s.capturePending i = { s with cpu := (s.capturePending i).cpu, holdReqs := (s.capturePending i).holdReqs } := rfl

theorem captured_length (s : State) (i : Option Nat) : (s.captured i).length = s.cpu.pending.length := List.length_mapIdx

/-- An entry keeps what its command has captured. -/
theorem captured_map {α : Type} (s : State) (i : Option Nat) {f : Cmd → α}
    (hf : ∀ d b h, f { d with trapped := b, started := false, ranges := [], kept := [], hold := h } = f d) :
    (s.captured i).map f = s.cpu.pending.map f := by
  refine List.ext_getElem? fun j => ?_
  simp only [State.captured, List.getElem?_map, List.getElem?_mapIdx, Option.map_map, Function.comp_def, hf]

/-- The entry of the trapping command is marked, and no other (R354). -/
theorem captured_trapped {s : State} {i : Option Nat} {j : Nat} {d : Cmd} (h : (s.captured i)[j]? = some d) :
    d.trapped = true ↔ i = some j := by
  rw [State.captured, List.getElem?_mapIdx, Option.map_eq_some_iff] at h
  obtain ⟨e, -, rfl⟩ := h
  exact beq_iff_eq

theorem captured_none_trapped {s : State} {d : Cmd} (h : d ∈ s.captured none) : d.trapped = false := by
  obtain ⟨j, hj⟩ := List.mem_iff_getElem?.mp h
  exact Bool.eq_false_iff.mpr fun ht => nomatch (captured_trapped hj).mp ht

/-! ### The three traps -/

/-- The cell of a task that has trapped into its handler. -/
def Cell.inHandler (c : Cell) (entries : List Cmd) (cause : Nat) (tval : Word) (lost : Option Nat) : Cell :=
  { c with
    handler := true
    pc := c.thandler
    tcause := BitVec.ofNat 64 cause
    tval := tval
    tepc := c.pc
    hwLost := lost
    nbBegun := false
    reservation := none
    savedHold := c.hold.map (fun h => (c.pc, h))
    hold := none
    savedLoops := c.loops
    savedLc := c.lc
    loops := []
    asleep := false
    replay := entries
    pending := [] }

section
variable {s : State} (hm : s.cpu.handler = false) (ht : s.cpu.thandler ≠ 0) (cause : Nat) (tval : Word) (lost : Option Nat)
include hm ht

theorem enterTrap_captured (i : Option Nat) (addr : Word) (word : BitVec 32) :
    (s.capturePending i).enterTrap cause tval s.cpu.pc addr word lost =
      { (s.capturePending i).trapSaved cause tval s.cpu.pc lost with cpu := s.cpu.inHandler (s.captured i) cause tval lost } := by
  rw [enterTrap_handled _ _ _ _ _ _ _ (by exact hm) (by exact ht), State.upd, trapSaved_cpu, capturePending_cpu]
  simp only [hm, Bool.false_eq_true, if_false]
  rfl

theorem trap_handled : s.trap cause tval lost =
    { (s.capturePending none).trapSaved cause tval s.cpu.pc lost with cpu := s.cpu.inHandler (s.captured none) cause tval lost } := by
  rw [State.trap, if_neg (by simp [hm])]
  exact enterTrap_captured hm ht ..

theorem trap_cpu : (s.trap cause tval lost).cpu = s.cpu.inHandler (s.captured none) cause tval lost := by
  rw [trap_handled hm ht]

theorem trap_frame : s.trap cause tval lost = { s with
    cpu := (s.trap cause tval lost).cpu
    holdReqs := (s.trap cause tval lost).holdReqs
    waits := (s.trap cause tval lost).waits
    syncSram := (s.trap cause tval lost).syncSram
    copyWaits := (s.trap cause tval lost).copyWaits
    channels := (s.trap cause tval lost).channels
    rings := (s.trap cause tval lost).rings } := by
  have h := trapSaved_frame (s.capturePending none) cause tval s.cpu.pc lost
  generalize hu : (s.capturePending none).trapSaved cause tval s.cpu.pc lost = u at h
  rw [trap_handled hm ht, hu, h, capturePending_frame]

theorem trapCmd_cpu {i : Nat} (hi : i < s.cpu.pending.length) :
    (s.trapCmd i cause tval lost).cpu = s.cpu.inHandler (s.captured (some i)) cause tval lost := by
  rw [State.trapCmd, List.getElem?_eq_getElem hi]
  dsimp only
  rw [if_neg (by simp [hm]), show (s.capturePending (some i)).cpu.pc = s.cpu.pc from rfl, enterTrap_captured hm ht]

end

/-! ### A node that faults (R346) -/

theorem faultNode_cell_stopped {s : State} (cause : Nat) (tval : Word) (lost : Option Nat) {c : Cell}
    (hc : c ∈ (s.faultNode cause tval lost).allCells) (hf : c.firing = s.cpu.firing) : c.running = false := by
  have hstop : ∃ d, c = if d.firing = s.cpu.firing && d.running then { d with running := false } else d := by
    rcases List.mem_cons.mp hc with rfl | hmem
    · exact ⟨s.cpu, rfl⟩
    · obtain ⟨d, -, rfl⟩ := List.mem_map.mp hmem
      exact ⟨d, rfl⟩
  obtain ⟨d, rfl⟩ := hstop
  split at hf
  · rename_i h
    rw [if_pos h]
  · rename_i h
    rw [if_neg h]
    simpa [hf] using h

theorem faultNode_cpu (s : State) (cause : Nat) (tval : Word) (lost : Option Nat) :
    (s.faultNode cause tval lost).cpu = { s.cpu with running := false } := by
  show (if s.cpu.firing = s.cpu.firing && s.cpu.running then { s.cpu with running := false } else s.cpu) = _
  cases h : s.cpu.running
  · simp only [Bool.and_false, Bool.false_eq_true, if_false]
    rw [← h]
  · simp

/-- A trap without a handler: the cell and its firing stop, with a note for the graph engine (R346, R364). -/
theorem trap_fault {s : State} (h : s.cpu.handler = true ∨ s.cpu.thandler = 0) (cause : Nat) (tval : Word) (lost : Option Nat) :
    let t := s.trap cause tval lost
    t.cpu.running = false ∧ (∀ c ∈ t.cells, c.firing = s.cpu.firing → c.running = false) ∧
    t.cpu.tcause = BitVec.ofNat 64 cause ∧ t.cpu.tval = tval ∧ t.cpu.handler = s.cpu.handler ∧
    t.faults = s.faults ++ [⟨s.cpu.firing, s.cpu.id, cause, tval, lost⟩] := by
  obtain ⟨u, hcell, hfaults, hu⟩ : ∃ u : State, u.cpu = { s.cpu with replay := u.cpu.replay, pending := u.cpu.pending } ∧
      u.faults = s.faults ∧ s.trap cause tval lost = u.enterTrap cause tval u.cpu.pc u.cpu.pc u.cpu.word lost := by
    rw [State.trap]
    split
    · exact ⟨s, rfl, rfl, rfl⟩
    · exact ⟨s.capturePending none, rfl, rfl, rfl⟩
  obtain ⟨r, hr⟩ := enterTrap_fault u cause tval u.cpu.pc lost u.cpu.pc u.cpu.word (by rw [hcell]; exact h)
  have hsaved := trapSaved_cpu u cause tval u.cpu.pc lost
  have hnotes : (u.trapSaved cause tval u.cpu.pc lost).faults = s.faults := by rw [trapSaved_frame]; exact hfaults
  have hpost := post_posted (u.trapSaved cause tval u.cpu.pc lost) u.cpu.ctx 0 u.cpu.id r
  set v := (u.trapSaved cause tval u.cpu.pc lost).post u.cpu.ctx 0 u.cpu.id r
  have hv := hpost.cell
  rw [hsaved, hcell] at hv
  have hvf : v.faults = s.faults := by rw [hpost.rest]; exact hnotes
  have hfiring : v.cpu.firing = s.cpu.firing := by rw [hv]
  intro t
  have ht : t = v.faultNode cause tval lost := hu.trans hr
  have hcpu : t.cpu = { v.cpu with running := false } := by rw [ht, faultNode_cpu]
  refine ⟨by rw [hcpu], fun c hc hf => ?_, by rw [hcpu, hv], by rw [hcpu, hv], by rw [hcpu, hv], ?_⟩
  · rw [ht] at hc
    exact faultNode_cell_stopped cause tval lost (List.mem_cons_of_mem _ hc) (hf.trans hfiring.symm)
  · rw [ht, faultNode_frame, hvf, hfiring, hv]

/-- Settles O21: the cell that a trap leaves, the entries that it captures, and the fault of a node without a handler. -/
theorem trapsEnterTheHandler : Obligations.TrapsEnterTheHandler := by
  unfold Obligations.TrapsEnterTheHandler
  refine ⟨?task, ?command, ?fault⟩
  case task =>
    intro cause tval s hm ht t
    have hcpu : t.cpu = s.cpu.inHandler (s.captured none) cause tval none := trap_cpu hm ht ..
    have hframe := trap_frame hm ht cause tval none
    have hcells : t.cells = s.cells := by rw [show t = _ from hframe]
    have hnow : t.now = s.now := by rw [show t = _ from hframe]
    have hmem : t.mem = s.mem := by rw [show t = _ from hframe]
    have hsp : t.sp = s.sp := by rw [show t = _ from hframe]
    rw [hcpu]
    exact ⟨rfl, rfl, rfl, rfl, rfl, rfl, rfl, rfl, rfl, rfl, rfl, rfl, captured_map _ _ fun _ _ _ => rfl,
      captured_map _ _ fun _ _ _ => rfl, captured_map _ _ fun _ _ _ => rfl, fun d => captured_none_trapped, rfl, rfl, rfl, rfl, rfl,
      rfl, rfl, hcells, hnow, fun k => by rw [hmem], fun k => by rw [hsp]⟩
  case command =>
    intro i cause tval s hm ht hi t
    have hcpu : t.cpu = s.cpu.inHandler (s.captured (some i)) cause tval none := trapCmd_cpu hm ht cause tval none hi
    rw [hcpu]
    refine ⟨rfl, rfl, rfl, rfl, rfl, rfl, captured_length .., fun j d hd => ?_⟩
    exact (captured_trapped hd).trans (Option.some_inj.trans eq_comm)
  case fault =>
    intro cause tval s h t
    obtain ⟨hrun, hcells, hcause, hval, hmode, hnote⟩ := trap_fault h cause tval none
    exact ⟨hrun, hcells, hcause, hval, hmode, _, hnote, rfl, rfl, rfl, rfl⟩

end Sys2Proof.Machine

/-! # Proofs: handlers and the return from a trap (O23) -/

namespace Sys2Proof.Machine

/-! ### The words of a handler (R361, R363) -/

section
variable {r : BitVec 3} {regs : List (BitVec 5)} {s : State} (he : s.cpu.executes r = true) (hr : s.cpu.ready regs = true)
include he hr

theorem handlerWord_inTask (h : s.cpu.handler = false) (body : State → Out) : handlerWord r regs s body = .next (s.trap 1 0) := by
  rw [handlerWord, frontWord_ready he hr, h]
  rfl

theorem handlerWord_inHandler (h : s.cpu.handler = true) (body : State → Out) : handlerWord r regs s body = body s := by
  rw [handlerWord, frontWord_ready he hr, h]
  rfl

end

/-! ### trapret (R363) -/

/-- The cell that trapret resumes. -/
def Cell.resumed (c : Cell) : Cell :=
  { c with
    handler := false
    pc := c.tepc
    loops := c.savedLoops
    lc := c.savedLc
    savedLoops := []
    hold := match c.savedHold with
      | some (pc, h) => if pc = c.tepc then some h else none
      | none => none
    savedHold := none }

theorem Cell.dropReplay_of_empty {c : Cell} (h : c.replay = []) : { c with replay := [] } = c := by
  rw [← h]

/-- With no command to inject again, the task goes on at once. -/
theorem exec_trapret_idle {r : BitVec 3} {s : State} (he : s.cpu.executes r = true) (h : s.cpu.handler = true)
    (hp : s.cpu.pending = []) (hq : s.cpu.replay = []) :
    exec (.trapret r) s = .next { s with cpu := s.cpu.resumed.restamp } := by
  have hi : exec (.trapret r) s = _ := (exec_trapret r s).trans (handlerWord_inHandler he (Cell.ready_nil _) h _)
  have hreplay : ({ s.cpu.resumed with replay := [] } : Cell) = s.cpu.resumed := Cell.dropReplay_of_empty hq
  have hsettle : ({ s with cpu := s.cpu.resumed.restamp } : State).settle = { s with cpu := s.cpu.resumed.restamp } :=
    settle_of_pending_nil hp
  rw [hi, hp, hq, List.isEmpty_nil, ← hsettle, ← hreplay]
  rfl

/-- Restamping leaves what the lines hold. -/
theorem restamp_lines (c : Cell) : c.restamp.l1.map (fun x => (x.no, x.data, x.present, x.dirty)) =
    c.l1.map (fun x => (x.no, x.data, x.present, x.dirty)) := by
  rw [Cell.restamp, List.map_map]
  rfl

/-- The hold that a trap has saved goes on at the trapping word. -/
theorem hold_resumed_inHandler (c : Cell) (cause : Nat) (v : Word) (lost : Option Nat) :
    (c.inHandler [] cause v lost).resumed.hold = c.hold := by
  cases hh : c.hold with
  | none => simp [Cell.resumed, Cell.inHandler, hh]
  | some k => simp [Cell.resumed, Cell.inHandler, hh]

/-! ### Selectors (R361) -/

section
variable {s : State} {sel : Word}

theorem getLsbD_seven_of_lt (h : sel.toNat < 128) : sel.getLsbD 7 = false := Nat.testBit_lt_two_pow h

theorem selectorOk_iff : selectorOk s sel = true ↔ sel.toNat < 256 ∧
    if sel.getLsbD 7 = true then (sel.extractLsb' 5 2).toNat = 0 else (sel.extractLsb' 0 5).toNat < s.cpu.replay.length := by
  have hdword : sel.extractLsb' 5 2 = 0 ↔ (sel.extractLsb' 5 2).toNat = 0 := by rw [← BitVec.toNat_inj]; rfl
  rw [selectorOk, Bool.and_eq_true, decide_eq_true_eq, extractLsb'_high_eq_zero_iff sel 8 56 rfl]
  refine and_congr_right fun _ => ?_
  cases sel.getLsbD 7
  · simp only [Bool.false_eq_true, if_false, decide_eq_true_eq]
  · simp only [if_true, decide_eq_true_eq, hdword]

/-- A task-bank register named by a selector. -/
theorem selectorOk_register (h : sel.toNat < 256) (hb : sel.getLsbD 7 = true) (hd : (sel.extractLsb' 5 2).toNat = 0) :
    selectorOk s sel = true := selectorOk_iff.mpr ⟨h, by rw [if_pos hb]; exact hd⟩

/-- An entry of the replay queue named by a selector. -/
theorem selectorOk_entry (h : sel.toNat < 128) {e : Cmd} (he : s.cpu.replay[(sel.extractLsb' 0 5).toNat]? = some e) :
    selectorOk s sel = true := by
  obtain ⟨hlt, -⟩ := List.getElem?_eq_some_iff.mp he
  exact selectorOk_iff.mpr ⟨by omega, by rw [if_neg (Bool.eq_false_iff.mp (getLsbD_seven_of_lt h))]; exact hlt⟩

theorem selectorOk_nothing (h : 256 ≤ sel.toNat ∨ (sel.getLsbD 7 = false ∧ s.cpu.replay.length ≤ (sel.extractLsb' 0 5).toNat)) :
    selectorOk s sel = false := by
  rw [Bool.eq_false_iff, ne_eq, selectorOk_iff]
  rintro ⟨hlt, hsel⟩
  obtain h | ⟨hb, hlen⟩ := h
  · omega
  · rw [if_neg (Bool.eq_false_iff.mp hb)] at hsel
    omega

end

theorem Cell.task_setTask (c : Cell) (n q : BitVec 5) (v : Word) :
    (c.setTask n v).task q = if q ≠ 0 ∧ q = n then v else c.task q := by
  unfold Cell.setTask Cell.task
  by_cases hq : q = 0
  · simp [hq]
  · by_cases hn : n = 0
    · simp [hn]
    · simp only [hn, hq, if_false, Vector.getElem_set, BitVec.toNat_inj, eq_comm (a := n), ne_eq, not_false_eq_true, true_and]

theorem Cell.setTask_frame (c : Cell) (n : BitVec 5) (v : Word) : c.setTask n v = { c with
    x := (c.setTask n v).x
    poison := if n.toNat = 0 then c.poison else c.heal (.x n.toNat) } := by
  have hn : n = 0 ↔ n.toNat = 0 := by rw [← BitVec.toNat_inj]; rfl
  unfold Cell.setTask
  by_cases h : n = 0
  · rw [if_pos h, if_pos (hn.mp h)]
  · rw [if_neg h, if_neg (mt hn.mpr h)]

section
variable {a b d : BitVec 5} {r : BitVec 3} {s : State} (he : s.cpu.executes r = true) (hr : s.cpu.ready [d, a, b] = true)
  (h : s.cpu.handler = true)
include he hr h

theorem exec_rqrd_inHandler : exec (.rqrd a d r) s =
    if !selectorOk s (s.x a) then .next (s.trap 1 (s.x a))
    else if (s.x a).getLsbD 7 then
      if s.cpu.poison.contains (.x ((s.x a).extractLsb' 0 5).toNat) then .next (s.free.2.trap 0x12 s.free.1)
      else .next (s.setX d (s.cpu.task ((s.x a).extractLsb' 0 5))).advance
    else
      match s.cpu.replay[((s.x a).extractLsb' 0 5).toNat]? with
      | some e => .next (s.setX d (e.dword ((s.x a).extractLsb' 5 2).toNat)).advance
      | none => .next s :=
  (exec_rqrd ..).trans (handlerWord_inHandler he (Cell.ready_of_subset hr (by simp)) h _)

theorem exec_rqwr_inHandler : exec (.rqwr b a r) s =
    if !selectorOk s (s.x a) then .next (s.trap 1 (s.x a))
    else if (s.x a).getLsbD 7 then .next (s.upd (fun c => c.setTask ((s.x a).extractLsb' 0 5) (s.x b))).advance
    else writeEntry ((s.x a).extractLsb' 0 5).toNat ((s.x a).extractLsb' 5 2).toNat (s.x b) s :=
  (exec_rqwr ..).trans (handlerWord_inHandler he (Cell.ready_of_subset hr (by simp)) h _)

end

/-- An operand of an entry is written and the handler goes on. -/
theorem writeEntry_operand {s : State} {i k : Nat} {e : Cmd} (he : s.cpu.replay[i]? = some e) (v : Word) {e' : Cmd}
    (hk : k = 1 ∧ e' = { e with op0 := v } ∨ k = 2 ∧ e' = { e with op1 := v } ∨ k = 3 ∧ e' = { e with op2 := v }) :
    writeEntry i k v s = .next { s with cpu := { s.cpu.flowTo (s.cpu.pc + 4) with replay := s.cpu.replay.set i e' } } := by
  have hadvance : (s.upd (fun c => { c with replay := c.replay.set i e' })).advance =
      { s with cpu := { s.cpu.flowTo (s.cpu.pc + 4) with replay := s.cpu.replay.set i e' } } := by
    rw [advance_upd rfl rfl rfl, Cell.flowTo_frame s.cpu]
  rw [← hadvance, writeEntry, he]
  obtain ⟨rfl, rfl⟩ | ⟨rfl, rfl⟩ | ⟨rfl, rfl⟩ := hk <;> rfl

/-- Settles O23: trapret resumes what the trap set aside; a selector names a task register, an operand of an entry, or nothing. -/
theorem handlersReadAndReturn : Obligations.HandlersReadAndReturn := by
  unfold Obligations.HandlersReadAndReturn
  refine ⟨?trapret, ?resumes, ?selectors⟩
  case trapret =>
    intro r s he
    refine ⟨fun h hp hq => ⟨_, exec_trapret_idle he h hp hq, rfl, rfl, rfl, rfl, rfl, restamp_lines _⟩,
      fun h => (exec_trapret r s).trans (handlerWord_inTask he (Cell.ready_nil _) h _)⟩
  case resumes =>
    intro cause v s hm ht hp
    have hcpu : (s.trap cause v).cpu = s.cpu.inHandler [] cause v none := by
      rw [trap_cpu hm ht, State.captured, hp]
      rfl
    have hframe := trap_frame hm ht cause v none
    have hmem : (s.trap cause v).mem = s.mem := by rw [hframe]
    have hsp : (s.trap cause v).sp = s.sp := by rw [hframe]
    refine ⟨_, exec_trapret_idle rfl (by rw [hcpu]; rfl) (by rw [hcpu]; rfl) (by rw [hcpu]; rfl), ?_⟩
    rw [hcpu]
    exact ⟨rfl, rfl, rfl, rfl, rfl, rfl, rfl, rfl, hold_resumed_inHandler s.cpu cause v none, fun k => by rw [← hmem],
      fun k => by rw [← hsp]⟩
  case selectors =>
    intro a b d r s he hr sel ix dword
    refine ⟨fun h => ⟨(exec_rqrd ..).trans (handlerWord_inTask he (Cell.ready_of_subset hr (by simp)) h _),
      (exec_rqwr ..).trans (handlerWord_inTask he (Cell.ready_of_subset hr (by simp)) h _)⟩, fun h => ?_⟩
    have hread : exec (.rqrd a d r) s = _ := exec_rqrd_inHandler he hr h
    have hwrite : exec (.rqwr b a r) s = _ := exec_rqwr_inHandler he hr h
    refine ⟨fun hlt hb hd => ?_, fun e hlt hentry => ?_, fun hnone => ?_⟩
    · have hsel : selectorOk s (s.x a) = true := selectorOk_register hlt hb hd
      have hok : ¬ (!selectorOk s (s.x a)) = true := by rw [hsel]; exact Bool.false_ne_true
      rw [if_neg hok, if_pos hb] at hread hwrite
      refine ⟨fun hs => ⟨_, hread.trans (if_neg (Bool.eq_false_iff.mp hs)), wroteX_setX_advance ..⟩, fun hs => hread.trans (if_pos hs),
        _, hwrite, fun q => ?_, ?_⟩
      · rw [advance_frame]
        exact Cell.task_setTask ..
      · have hset := s.cpu.setTask_frame (sel.extractLsb' 0 5) (s.x b)
        rw [advance_upd (by rw [hset]) (by rw [hset]) (by rw [hset]), Cell.flowTo_frame s.cpu, hset]
    · have hsel : selectorOk s (s.x a) = true := selectorOk_entry hlt hentry
      have hok : ¬ (!selectorOk s (s.x a)) = true := by rw [hsel]; exact Bool.false_ne_true
      have hb : ¬ (s.x a).getLsbD 7 = true := Bool.eq_false_iff.mp (getLsbD_seven_of_lt hlt)
      rw [if_neg hok, if_neg hb] at hread hwrite
      rw [hentry] at hread
      exact ⟨⟨_, hread, wroteX_setX_advance ..⟩,
        fun hd => ⟨_, hwrite.trans (writeEntry_operand hentry _ (.inl ⟨hd, rfl⟩)), rfl⟩,
        fun hd => ⟨_, hwrite.trans (writeEntry_operand hentry _ (.inr (.inl ⟨hd, rfl⟩))), rfl⟩,
        fun hd => ⟨_, hwrite.trans (writeEntry_operand hentry _ (.inr (.inr ⟨hd, rfl⟩))), rfl⟩⟩
    · have hsel : selectorOk s (s.x a) = false := selectorOk_nothing hnone
      have hbad : (!selectorOk s (s.x a)) = true := by rw [hsel]; rfl
      exact ⟨hread.trans (if_pos hbad), hwrite.trans (if_pos hbad)⟩

end Sys2Proof.Machine

/-! # Proofs: sprot (O36) -/

namespace Sys2Proof.Machine

/-! ### Runs of bytes written apart -/

section
variable {α : Type} {n : Nat} {key val : α → Nat}

/-- A byte that no run covers is as before. -/
theorem readByte_foldl_writeLE_apart (l : List α) {m : List Host.Cell} (h : Memory.wf m = true) {k : Nat}
    (hk : ∀ q ∈ l, k < key q ∨ key q + n ≤ k) : readByte (l.foldl (fun m q => writeLE m (key q) n (val q)) m) k = readByte m k := by
  induction l generalizing m with
  | nil => rfl
  | cons a l ih =>
    have ha := hk a List.mem_cons_self
    rw [List.foldl_cons, ih (writeLE_wf h ..) fun q hq => hk q (List.mem_cons_of_mem _ hq), readByte_writeLE h, if_neg (by omega)]

/-- Of runs that lie apart, each reads back. -/
theorem readLE_foldl_writeLE (l : List α) {m : List Host.Cell} (h : Memory.wf m = true)
    (hl : l.Pairwise (fun p q => key p + n ≤ key q ∨ key q + n ≤ key p)) :
    ∀ q ∈ l, readLE (l.foldl (fun m q => writeLE m (key q) n (val q)) m) (key q) n = val q % 256 ^ n := by
  induction l generalizing m with
  | nil => nofun
  | cons a l ih =>
    rw [List.pairwise_cons] at hl
    rw [List.forall_mem_cons, List.foldl_cons]
    refine ⟨?_, ih (writeLE_wf h ..) hl.2⟩
    have hkept : ∀ y, y < n → readByte (l.foldl (fun m q => writeLE m (key q) n (val q)) (writeLE m (key a) n (val a))) (key a + y) =
        readByte (writeLE m (key a) n (val a)) (key a + y) := fun y hy =>
      readByte_foldl_writeLE_apart l (writeLE_wf h ..) fun q hq => by have := hl.1 q hq; omega
    rw [readLE_congr _ _ hkept, readLE_writeLE h]

end

theorem readLE_lt (m : List Host.Cell) (k n : Nat) : readLE m k n < 256 ^ n := by
  induction n generalizing k with
  | zero => exact Nat.one_pos
  | succ n ih =>
    have := ih (k + 1)
    have := (readByte m k).isLt
    rw [readLE, Nat.pow_succ]
    omega

/-- A line read as a register gives the line's bytes again. -/
theorem spLine_toNat (s : State) (o : Nat) : (s.spLine o).toNat = readLE s.sp (spKey s.cpu.cluster o) 128 := by
  rw [State.spLine, State.spRead, BitVec.toNat_ofNat, show 1024 = 8 * 128 from rfl, Nat.pow_mul 2 8 128]
  exact Nat.mod_eq_of_lt (readLE_lt ..)

/-! ### A row of each cell moves (R162, R163) -/

theorem rotDest_lt (p : Pair) (l pos i : Nat) : rotDest p l pos i < 2 ^ 22 := by
  unfold rotDest
  omega

/-- Marking the commands of cells moves no byte. -/
theorem foldl_updCell_memory {α : Type} (id : α → Nat) (f : α → Cell → Cell) (l : List α) (s : State) :
    (l.foldl (fun t q => t.updCell (id q) (f q)) s).sp = s.sp ∧ (l.foldl (fun t q => t.updCell (id q) (f q)) s).mem = s.mem :=
  List.foldlRecOn (motive := fun (t : State) => t.sp = s.sp ∧ t.mem = s.mem) l _ ⟨rfl, rfl⟩
    fun _ ht _ _ => ⟨(setCell_sp ..).trans ht.1, (setCell_mem ..).trans ht.2⟩

/-- A row of each cell, all four from what stood there before. -/
def State.rowsMoved {α : Type} (s : State) (src dst : α → Nat) (l : List α) : State :=
  l.foldl (fun t q => t.setSpLine (dst q) (s.spLine (src q))) s

section
variable {α : Type} {s : State} (src dst : α → Nat) {l : List α}

theorem rowsMoved_eq : s.rowsMoved src dst l = { s with
    sp := l.foldl (fun m q => writeLE m (spKey s.cpu.cluster (dst q)) 128 (s.spLine (src q)).toNat) s.sp
    spPoison := l.foldl (fun g q => healed g (spKey s.cpu.cluster (dst q)) 128) s.spPoison } :=
  foldl_spWrite_eq dst (fun _ => 128) (fun q => (s.spLine (src q)).toNat) s l

theorem rowsMoved_line (h : s.MemOk) (hlt : ∀ q ∈ l, dst q < 2 ^ 22) (hal : ∀ q ∈ l, dst q % 128 = 0)
    (hne : l.Pairwise (fun p q => dst p ≠ dst q)) : ∀ q ∈ l,
    readLE (s.rowsMoved src dst l).sp (spKey s.cpu.cluster (dst q)) 128 = readLE s.sp (spKey s.cpu.cluster (src q)) 128 := by
  have hkeys : l.Pairwise (fun p q => spKey s.cpu.cluster (dst p) + 128 ≤ spKey s.cpu.cluster (dst q) ∨
      spKey s.cpu.cluster (dst q) + 128 ≤ spKey s.cpu.cluster (dst p)) := by
    refine hne.imp_of_mem fun {p q} hp hq h => ?_
    rw [spKey_of_lt _ (hlt p hp), spKey_of_lt _ (hlt q hq)]
    have := hal p hp
    have := hal q hq
    omega
  intro q hq
  rw [rowsMoved_eq, readLE_foldl_writeLE l h.2 hkeys q hq, spLine_toNat]
  exact Nat.mod_eq_of_lt (readLE_lt ..)

theorem rowsMoved_apart (h : s.MemOk) {k : Nat}
    (hk : ∀ q ∈ l, k < spKey s.cpu.cluster (dst q) ∨ spKey s.cpu.cluster (dst q) + 128 ≤ k) :
    readByte (s.rowsMoved src dst l).sp k = readByte s.sp k := by
  rw [rowsMoved_eq]
  exact readByte_foldl_writeLE_apart l h.2 hk

theorem rowsMoved_mem : (s.rowsMoved src dst l).mem = s.mem := by rw [rowsMoved_eq]

end

/-- Where row `i` of a cell's sprot comes from, and where it goes. -/
def rotFrom (i : Nat) (q : Cell × Nat × Cmd) : Nat := rotSource (Pair.ofCompact q.2.2.op0) q.2.2.lv q.1.pos i
def rotTo (i : Nat) (q : Cell × Nat × Cmd) : Nat := rotDest (Pair.ofCompact q.2.2.op0) q.2.2.lv q.1.pos i

/-- The state after the row that a unit moves: the rows, and the progress of the four commands. -/
def State.rotated (s : State) (i : Nat) (cmds : List (Cell × Nat × Cmd)) : State :=
  cmds.foldl (fun t q => t.updCell q.1.id (fun c => { c with
    pending := c.pending.set q.2.1 { q.2.2 with progress := i + 1, started := true } })) (s.rowsMoved (rotFrom i) (rotTo i) cmds)

theorem unitSprot_ready {w : Cmd} {cmds : List (Cell × Nat × Cmd)} {s : State} (ha : w.aux = 1) (hi : w.progress < 32)
    (hr : rotReady s = some cmds) (hp : ∀ q ∈ cmds, q.2.2.progress = w.progress)
    (hb : s.spBlocked (cmds.map (fun q => (rotFrom w.progress q, 128))) = false)
    (hg : s.spPoisoned (cmds.map (fun q => (rotFrom w.progress q, 128))) = none) :
    unitSprot w s = if w.progress + 1 < 32 then .more { w with progress := w.progress + 1 } (s.rotated w.progress cmds)
      else .done (s.rotated w.progress cmds) := by
  have hany : cmds.any (fun q => q.2.2.progress != w.progress) = false := by simpa using hp
  simp only [rotFrom] at hb hg
  simp only [unitSprot, if_neg (Nat.not_le.mpr hi), ha, ne_eq, not_true_eq_false, if_false, hr, hany, hb, hg, Bool.or_self,
    Bool.false_eq_true]
  rfl

/-! ### A member alone (R117, R163) -/

/-- The unit in which a sprot reaches its team. -/
theorem unitSprot_first {w : Cmd} (ha : w.aux = 0) (hp : w.progress = 0) (s : State) :
    unitSprot w s = .more { w with aux := 1 } (s.upd (fun c => { c with phaseCount := c.phaseCount + 1 })) := by
  rw [unitSprot, if_neg (by omega), if_pos (by rw [ha]; decide)]

/-- One cell is no team of four. -/
theorem rotReady_alone {s : State} (h : s.cells = []) : rotReady s = none := by
  have hlen : (rotTeam s).length ≤ 1 := by
    rw [rotTeam, State.allCells, h]
    exact List.length_filter_le _ [s.cpu]
  have hfour : decide ((rotTeam s).length ≠ 4) = true := decide_eq_true (by omega)
  rw [rotReady]
  simp only [hfour, Bool.true_or, if_true]

theorem unitSprot_alone {w : Cmd} {s : State} (ha : w.aux = 1) (hp : w.progress = 0) (h : s.cells = []) :
    unitSprot w s = .blocked s := by
  rw [unitSprot, if_neg (by omega), if_neg (by rw [ha]; decide), rotReady_alone h]

theorem drive_blocked {unit : Cmd → State → EngOut} {d : Cmd} {s : State} (hp : s.cpu.pending = [d]) (hs : s.cpu.poison = [])
    (hu : unit d s = .blocked s) (n : Nat) : s.drive unit 0 (n + 1) = s := by
  have hread : s.cpu.readsBad d = false := by simp [Cell.readsBad, meets, hs]
  have hrun : s.runUnit unit 0 = (s, false) := by simp [State.runUnit, hp, hread, hu]
  rw [State.drive, hrun]

/-- sprot as its front end forwards it. -/
def rotIssue (a : BitVec 5) (r : BitVec 3) (p : Pair) (c : Cell) : Issue :=
  { instr := .sprot a r, queue := .store, op0 := p.compact, lv := c.loopValue, ranges := rotRanges p c.loopValue c.pos }

/-- The state in which a member's sprot has advanced the phase count and waits for its team. -/
def State.rotWaits (s : State) (w : Issue) : State :=
  (s.forwarded w).upd (fun c => { c with
    phaseCount := c.phaseCount + 1
    pending := [{ w.cmd s.cpu with aux := 1, started := true }] })

theorem exec_sprot_alone {a : BitVec 5} {r : BitVec 3} {p : Pair} {s : State} (h : VectorReady r [] s)
    (hp : rotCheck s.cpu a = .ok p) (hc : s.cells = []) :
    exec (.sprot a r) s = .next (s.rotWaits (rotIssue a r p s.cpu)) := by
  have hbody : exec (.sprot a r) s = enqueue (rotIssue a r p s.cpu) unitSprot s := by
    rw [exec_sprot, execSprot, h.forwardWord (ns := []) rfl, hp]
    rfl
  have hs : (s.forwarded (rotIssue a r p s.cpu)).cpu.poison = [] := (forwarded_poison ..).trans h.sound
  have hs' : (s.rotWaits (rotIssue a r p s.cpu)).cpu.poison = [] := hs
  have hwaits : (s.rotWaits (rotIssue a r p s.cpu)).drive unitSprot 0 1099 = s.rotWaits (rotIssue a r p s.cpu) :=
    drive_blocked rfl hs' (unitSprot_alone rfl rfl hc) 1098
  rw [hbody, enqueue_idle h.idle h.eager (w := rotIssue a r p s.cpu) rfl (Nat.le_of_ble_eq_true rfl), unitFuel,
    drive_more (forwarded_pending ..) hs (unitSprot_first rfl rfl _) (forwarded_pending ..) hs]
  exact congrArg _ hwaits

/-- Settles O36: alone, a sprot is its first unit and then a wait; with the team there, a unit writes four rows that lie apart, each
with what stood in its source before. -/
theorem rotationMovesRowsTogether : Obligations.RotationMovesRowsTogether := by
  unfold Obligations.RotationMovesRowsTogether
  refine ⟨fun a r p s h hp hc => ⟨_, exec_sprot_alone h hp hc, ?_, rfl, rfl, rfl, _, rfl, rfl, rfl, rfl⟩, ?_⟩
  · show (s.cpu.flowTo (s.cpu.pc + 4)).phaseCount + 1 = _
    rw [Cell.flowTo_frame]
  · intro w cmds s ha hi hm hr src dst hp hb hg hal hne
    obtain ⟨hsp, hmem⟩ := foldl_updCell_memory (fun q : Cell × Nat × Cmd => q.1.id) (fun q c => { c with
      pending := c.pending.set q.2.1 { q.2.2 with progress := w.progress + 1, started := true } }) cmds
      (s.rowsMoved (rotFrom w.progress) (rotTo w.progress) cmds)
    have hline := rowsMoved_line (rotFrom w.progress) (rotTo w.progress) hm (fun q _ => rotDest_lt ..) hal hne
    refine ⟨s.rotated w.progress cmds, ?_, ?_, ?_, hmem.trans (rowsMoved_mem ..)⟩
    · rw [unitSprot_ready ha hi hr hp hb hg]
      split
      · exact .inr ⟨_, rfl, rfl⟩
      · exact .inl rfl
    · intro q hq
      rw [State.rotated, hsp]
      exact hline q hq
    · intro k hk
      rw [State.rotated, hsp]
      exact rowsMoved_apart _ _ hm hk

end Sys2Proof.Machine

/-! # Proofs: vector memory and nbrd (O45) -/

namespace Sys2Proof.Machine

/-! ### Translation by the head of the TLB (R230, R232) -/

/-- The entry at the head of the cell's TLB is one of the cell's context, in a TLB that holds its page once; its page does not
migrate. -/
structure TlbHead (e : TlbEntry) (s : State) : Prop where
  head : s.cpu.tlb.head? = some e
  once : ∀ t ∈ s.cpu.tlb.tail, t.samePage e = false
  fits : s.cpu.tlb.length ≤ 64
  ctx : e.ctx = s.cpu.ctx
  still : e.leaf.getLsbD 7 = false

/-- An address that the entry maps to HBM4E whose home die is there. -/
structure Maps (e : TlbEntry) (s : State) (va : Word) : Prop where
  space : va.toNat < 2 ^ 54
  base : e.base ≤ va.toNat
  top : va.toNat < e.base + 2 ^ e.bits
  page : 12 ≤ e.bits
  hbm : isHbm (placeOf e.leaf e.bits va.toNat).pa = true
  online : s.isOffline (homeDie s.fuses (placeOf e.leaf e.bits va.toNat)) = false

/-- The entry lets the cell access its page, with no bit left to set. -/
def Grants (e : TlbEntry) (a : Access) : Prop := a.allowed e.leaf = true ∧ (a.writes = true → e.leaf.getLsbD 4 = true)

/-- Another state in which addresses mean what they mean in this one. -/
structure SeesAs (s t : State) : Prop where
  tlb : t.cpu.tlb = s.cpu.tlb
  ctx : t.cpu.ctx = s.cpu.ctx
  fuses : t.fuses = s.fuses
  offline : t.offline = s.offline

section
variable {e : TlbEntry} {s t : State} {va : Word}

theorem SeesAs.tlbHead (hs : SeesAs s t) (h : TlbHead e s) : TlbHead e t :=
  ⟨hs.tlb ▸ h.head, hs.tlb ▸ h.once, hs.tlb ▸ h.fits, hs.ctx ▸ h.ctx, h.still⟩

theorem SeesAs.maps (hs : SeesAs s t) (h : Maps e s va) : Maps e t va :=
  ⟨h.space, h.base, h.top, h.page, h.hbm, by rw [State.isOffline, hs.fuses, hs.offline]; exact h.online⟩

/-- The head of a TLB that holds its page once, used again, leaves the TLB as it is. -/
theorem addTlb_head {l : List TlbEntry} (hh : l.head? = some e) (ho : ∀ t ∈ l.tail, t.samePage e = false) (hl : l.length ≤ 64) :
    addTlb l e = l := by
  obtain ⟨rest, rfl⟩ := List.head?_eq_some_iff.mp hh
  have hself : e.samePage e = true := by simp [TlbEntry.samePage]
  have hrest : rest.filter (fun t => !t.samePage e) = rest := List.filter_eq_self.mpr fun t ht => by rw [ho t ht]; rfl
  rw [addTlb, List.filter_cons_of_neg (by rw [hself]; decide), hrest, List.take_of_length_le hl]

theorem Maps.serves (hm : Maps e s va) (hc : e.ctx = s.cpu.ctx) {a : Access} (ha : Grants e a) :
    e.serves s.cpu.ctx va.toNat a = true := by
  obtain ⟨hallowed, hdirty⟩ := ha
  have hcov : e.covers s.cpu.ctx va.toNat = true := by simp [TlbEntry.covers, hc, hm.base, hm.top]
  rw [TlbEntry.serves, hcov, hallowed]
  cases hw : a.writes
  · rfl
  · rw [hdirty hw]; rfl

theorem TlbHead.find? (h : TlbHead e s) (hm : Maps e s va) {a : Access} (ha : Grants e a) :
    s.cpu.tlb.find? (fun e => e.serves s.cpu.ctx va.toNat a) = some e := by
  obtain ⟨rest, hl⟩ := List.head?_eq_some_iff.mp h.head
  rw [hl]
  exact List.find?_cons_of_pos (hm.serves h.ctx ha)

/-- An access that the head serves changes nothing. -/
theorem TlbHead.translateHome (h : TlbHead e s) (hm : Maps e s va) {a : Access} (ha : Grants e a) :
    translateHome s va a = .ok (placeOf e.leaf e.bits va.toNat) e.leaf s := by
  have hspace : va.extractLsb' 54 10 = 0 := (extractLsb'_high_eq_zero_iff va 54 10 rfl).mpr hm.space
  have huse : s.upd (fun c => { c with tlb := addTlb c.tlb e }) = s := by
    rw [State.upd, addTlb_head h.head h.once h.fits]
  have htouch : touchPage s s.cpu.ctx va.toNat e.leaf e.bits = s := by
    rw [touchPage, h.still, Bool.and_false, Bool.false_and]
    rfl
  have ht : translate s va a = .ok (placeOf e.leaf e.bits va.toNat) e.leaf s := by
    rw [translate, if_neg (by rw [hspace]; decide)]
    simp only [h.find? hm ha, huse, ha.1, if_true, htouch]
  rw [Machine.translateHome, ht]
  exact if_neg (by rw [hm.online]; decide)

/-- So does a lane of an indexed access, on a page looked up for the command or not. -/
theorem TlbHead.lanePlace (h : TlbHead e s) (hm : Maps e s va) {a : Access} (ha : Grants e a) (w : Cmd) :
    lanePlace w va a s = .ok (placeOf e.leaf e.bits va.toNat) e.leaf s := by
  have hfound : foundPlace s va a = some (.ok (placeOf e.leaf e.bits va.toNat) e.leaf s) := by
    simp [foundPlace, h.find? hm ha, ha.1, hm.online]
  rw [Machine.lanePlace, hfound, h.translateHome hm ha]
  exact ite_self _

/-! ### The lanes of a strided access, through the coalescer (R230, R239) -/

/-- Two addresses of a 4 KiB page have one place but for the offset in the page. -/
theorem placeOf_samePage {leaf : Word} {bits va v : Nat} (hb : 12 ≤ bits) (h : v / 4096 = va / 4096) :
    { placeOf leaf bits v with pa := (placeOf leaf bits v).pa - (placeOf leaf bits v).pa % 4096 + va % 4096 } =
      placeOf leaf bits va := by
  obtain ⟨n, rfl⟩ := Nat.exists_eq_add_of_le hb
  have hmod (x : Nat) : x % 2 ^ (12 + n) = x % 4096 + 4096 * (x / 4096 % 2 ^ n) := by
    rw [Nat.pow_add]; exact Nat.mod_mul
  simp only [placeOf, leafFrame, hmod, h, Place.mk.injEq, and_true]
  omega

/-- Every lane goes to its own place, and nothing changes. -/
theorem TlbHead.lanePlaces (h : TlbHead e s) {a : Access} (ha : Grants e a) (vas : List Word) (hm : ∀ va ∈ vas, Maps e s va)
    (pages : List (Nat × Place)) (acc : List Place)
    (hp : ∀ q ∈ pages, ∃ v, q = (v / 4096, placeOf e.leaf e.bits v)) :
    lanePlaces a vas pages acc s = .ok (some (acc.reverse ++ vas.map (fun va => placeOf e.leaf e.bits va.toNat)), s) := by
  induction vas generalizing pages acc with
  | nil => rw [Machine.lanePlaces, List.map_nil, List.append_nil]
  | cons va rest ih =>
    rw [List.forall_mem_cons] at hm
    obtain ⟨hva, hrest⟩ := hm
    have hacc : (placeOf e.leaf e.bits va.toNat :: acc).reverse ++ rest.map (fun va => placeOf e.leaf e.bits va.toNat) =
        acc.reverse ++ (va :: rest).map (fun va => placeOf e.leaf e.bits va.toNat) := by simp
    rw [Machine.lanePlaces]
    cases hf : pages.find? (fun q => q.1 == va.toNat / 4096) with
    | none =>
      simp only [h.translateHome hva ha]
      rw [ih hrest, hacc]
      exact List.forall_mem_cons.mpr ⟨⟨_, rfl⟩, hp⟩
    | some q =>
      obtain ⟨v, rfl⟩ := hp q (List.mem_of_find?_eq_some hf)
      have hv : v / 4096 = va.toNat / 4096 := eq_of_beq (List.find?_some hf :)
      simp only [placeOf_samePage hva.page hv]
      rw [ih hrest _ _ hp, hacc]

/-! ### Places in HBM4E -/

theorem isDevice_of_isHbm {pa : Nat} (h : isHbm pa = true) : isDevice pa = false := by
  rw [isHbm, decide_eq_true_eq] at h
  exact Bool.and_eq_false_iff.mpr (.inl (decide_eq_false (by omega)))

theorem liveStacks_bounds (f : Fuses) : 0 < liveStacks f ∧ liveStacks f ≤ 8 := by
  unfold liveStacks
  split <;> decide

/-- Bytes of HBM4E lie in no sync window. -/
theorem isSync_key {p : Place} (h : isHbm p.pa = true) : isSync (s.key p) = false := by
  obtain ⟨hpos, hle⟩ := liveStacks_bounds s.fuses
  have hpa : p.pa < 2 ^ 39 := of_decide_eq_true h
  have hkey : s.key p < 2 ^ 43 := by
    rw [State.key, memKey]
    split
    · rename_i hil
      rw [hbmPlace, if_pos (Bool.and_eq_true_iff.mp hil).2]
      have hst : p.pa / 4096 % liveStacks s.fuses < liveStacks s.fuses := Nat.mod_lt _ hpos
      have hoff : p.pa / 4096 / liveStacks s.fuses ≤ p.pa / 4096 := Nat.div_le_self ..
      dsimp only
      omega
    · omega
  exact Bool.and_eq_false_iff.mpr (.inl (decide_eq_false (by omega)))

theorem syncTouch_of_isHbm {p : Place} (h : isHbm p.pa = true) : s.syncTouch (s.key p) = s := by
  rw [State.syncTouch, isSync_key h]
  rfl

theorem storeBarred_of_isHbm {p : Place} (h : isHbm p.pa = true) (n : Nat) : storeBarred s p n = false := by
  rw [storeBarred, isDevice_of_isHbm h, State.barrierIn, isSync_key h]
  rfl

end

end Sys2Proof.Machine

namespace Sys2Proof.Machine

/-! ### Lanes read, at home or in the L1 (R309) -/

/-- Whatever the cell holds beside an L1 of the kind `L`, a weak read of the place gives `v` and changes that L1 alone, within its kind. -/
def ServedAs (s : State) (L : List L1Line → Prop) (p : Place) (v : Nat) : Prop :=
  ∀ c : Cell, L c.l1 → ∃ l, L l ∧ weakRead { s with cpu := c } p 4 = .ok v { s with cpu := { c with l1 := l } }

/-- A lane of a place outside the L1. -/
def homeLane (s : State) (p : Place) : Nat := readLE s.mem (s.key p) 4
/-- A lane of a place in the L1. -/
def cachedLane (s : State) (p : Place) : Nat :=
  lineBytes ((findLine s.cpu.l1 p.line).getD ⟨p.line, 0, 0, 0, 0⟩).data (p.pa % 128) 4

/-- An L1 that holds the same lines. -/
def SameLines (l l' : List L1Line) : Prop := ∀ no, findLine l' no = findLine l no

/-- A line used again leaves the L1 with the same lines. -/
theorem findLine_putLine {l : List L1Line} {no : Nat} {x : L1Line} (h : findLine l no = some x) : SameLines l (putLine l x) := by
  intro n
  have hno : x.no = no := eq_of_beq (List.find?_some h :)
  rw [findLine, putLine, List.find?_cons]
  by_cases hn : x.no = n
  · rw [← hn, hno, h, beq_self_eq_true]
  · rw [beq_eq_false_iff_ne.mpr hn, List.find?_filter]
    refine congrFun (congrArg _ (funext fun y => ?_)) l
    by_cases hy : y.no = n
    · rw [hy, beq_self_eq_true]
      exact decide_eq_true ⟨bne_iff_ne.mpr (Ne.symm hn), rfl⟩
    · rw [beq_eq_false_iff_ne.mpr hy]
      exact decide_eq_false fun hf => Bool.false_ne_true hf.2

section
variable {s : State} {p : Place}

theorem servedAs_home (hp : p.pol ≠ 0) (hh : isHbm p.pa = true) (hw : s.homeWaits (s.key p) = false)
    (hs : poisonedIn s.memPoison (s.key p) 4 = false) : ServedAs s (fun l => l = s.cpu.l1) p (homeLane s p) := by
  intro c hl
  have hat : AtHome { s with cpu := c } p 4 := ⟨isDevice_of_isHbm hh, hw, hs⟩
  refine ⟨c.l1, hl, ?_⟩
  rw [weakRead_uncached hp, homeRead_atHome hat, syncTouch_of_isHbm hh]
  rfl

theorem servedAs_inL1 (hp : p.pol = 0) (hh : isHbm p.pa = true) {x : L1Line} (hx : findLine s.cpu.l1 p.line = some x)
    (hb : x.serves &&& byteMask (p.pa % 128) 4 = byteMask (p.pa % 128) 4) :
    ServedAs s (SameLines s.cpu.l1) p (cachedLane s p) := by
  intro c hl
  have hc : findLine c.l1 p.line = some x := (hl _).trans hx
  have hin : InL1 { s with cpu := c } p 4 x := ⟨hp, isDevice_of_isHbm hh, hc, hb⟩
  refine ⟨putLine c.l1 x, fun no => (findLine_putLine hc no).trans (hl no), ?_⟩
  rw [weakRead_inL1 hin, cachedLane, hx]
  rfl

/-- Lanes that are all served give their values in order. -/
theorem readLanes_served {L : List L1Line → Prop} {val : Word → Nat} (lanes : List (Word × Place × Bool))
    (h : ∀ q ∈ lanes, q.2.2 = false ∧ ServedAs s L q.2.1 (val q.1)) (acc : List Lane) (c : Cell) (hc : L c.l1) :
    ∃ l, L l ∧ readLanes lanes acc { s with cpu := c } =
      .ok (some (acc.reverse ++ lanes.map (fun q => BitVec.ofNat 32 (val q.1))), { s with cpu := { c with l1 := l } }) := by
  induction lanes generalizing acc c with
  | nil => exact ⟨c.l1, hc, by rw [readLanes, List.map_nil, List.append_nil]⟩
  | cons q rest ih =>
    obtain ⟨va, p, pass⟩ := q
    rw [List.forall_mem_cons] at h
    obtain ⟨⟨rfl, hs⟩, hrest⟩ := h
    obtain ⟨l, hl, hread⟩ := hs c hc
    obtain ⟨l', hl', hgo⟩ := ih hrest (BitVec.ofNat 32 (val va) :: acc) { c with l1 := l } hl
    refine ⟨l', hl', ?_⟩
    simp only [readLanes, Bool.false_eq_true, if_false, hread]
    rw [hgo, List.reverse_cons, List.append_assoc]
    rfl

end

/-! ### What a load leaves (R98, R239) -/

/-- The state after a vector load of an idle cell: the register, the L1, and the banks served. -/
def State.loaded (s : State) (d : BitVec 5) (l : List L1Line) (v : VReg) : State :=
  { s with cpu := { s.cpu.flowTo (s.cpu.pc + 4) with
      v := s.cpu.v.set d.toNat v d.isLt
      l1 := l
      busyLanes := 0
      vseq := s.cpu.vseq + 1 } }

/-- The word loads lanes `g` into register `d`, and leaves an L1 of the kind `L`. -/
def LoadsLanes (i : Instr) (d : BitVec 5) (s : State) (L : List L1Line → Prop) (g : Nat → Lane) : Prop :=
  ∃ l v, L l ∧ (∀ j, j < 32 → lane v j = g j) ∧ exec i s = .next (s.loaded d l v)

theorem loaded_rv (s : State) (d : BitVec 5) (l : List L1Line) (v : VReg) (q : BitVec 5) :
    (s.loaded d l v).cpu.rv q = if q = d then v else s.cpu.rv q := Cell.rv_wv s.cpu d q v

section
variable {i : Instr} {d : BitVec 5} {s : State} {g : Nat → Lane}

theorem LoadsLanes.home (h : LoadsLanes i d s (fun l => l = s.cpu.l1) g) : Completes i s (WroteV s.banksServed d g) := by
  obtain ⟨l, v, rfl, hv, he⟩ := h
  refine ⟨_, he, fun j hj => ?_, fun q hq => ?_, ⟨fun _ => rfl, fun _ => rfl⟩, ?_⟩
  · rw [loaded_rv, if_pos rfl, hv j hj]
  · rw [loaded_rv, if_neg hq]; rfl
  · have hflow : s.banksServed.cpu.flowTo (s.banksServed.cpu.pc + 4) = { s.cpu.flowTo (s.cpu.pc + 4) with busyLanes := 0 } := by
      rw [Cell.flowTo_frame s.cpu]
      exact Cell.flowTo_congr (c := s.cpu) _ rfl rfl
    rw [hflow, State.loaded, Cell.flowTo_frame s.cpu]
    rfl

theorem LoadsLanes.inL1 (h : LoadsLanes i d s (SameLines s.cpu.l1) g) (hb : s.cpu.busyLanes = 0) :
    Completes i s (fun t => SameLines s.cpu.l1 t.cpu.l1 ∧ WroteV (s.upd (fun c => { c with l1 := t.cpu.l1 })) d g t) := by
  obtain ⟨l, v, hl, hv, he⟩ := h
  refine ⟨_, he, hl, fun j hj => ?_, fun q hq => ?_, ⟨fun _ => rfl, fun _ => rfl⟩, ?_⟩
  · rw [loaded_rv, if_pos rfl, hv j hj]
  · rw [loaded_rv, if_neg hq]; rfl
  · have hflow : ({ s.cpu with l1 := l } : Cell).flowTo (s.cpu.pc + 4) = { s.cpu.flowTo (s.cpu.pc + 4) with l1 := l } := by
      rw [Cell.flowTo_frame s.cpu]
      exact Cell.flowTo_congr (c := s.cpu) _ rfl rfl
    show s.loaded d l v = { s with cpu := { ({ s.cpu with l1 := l } : Cell).flowTo (s.cpu.pc + 4) with v := _, vseq := _ } }
    rw [hflow, State.loaded, ← hb, Cell.flowTo_frame s.cpu]
    rfl

end

end Sys2Proof.Machine

namespace Sys2Proof.Machine

/-! ### A vector memory word as it is forwarded (R95) -/

/-- A word of vector memory as its front end forwards it. -/
def memoryIssue (i : Instr) (q : Queue) (op0 op1 : Word) : Issue := { instr := i, queue := q, op0 := op0, op1 := op1 }

section
variable {w : Issue} (h : w.also = id) (s : State)
include h

/-- Forwarding a word changes neither what addresses mean nor what the L1 holds. -/
theorem forwarded_seesAs : SeesAs s (s.forwarded w) := by
  rw [forwarded_of_also_id h, Cell.flowTo_frame]
  exact ⟨rfl, rfl, rfl, rfl⟩

theorem forwarded_l1 : (s.forwarded w).cpu.l1 = s.cpu.l1 := by rw [forwarded_of_also_id h, Cell.flowTo_frame]
theorem forwarded_busyLanes : (s.forwarded w).cpu.busyLanes = s.cpu.busyLanes := by rw [forwarded_of_also_id h, Cell.flowTo_frame]

/-- The cell once the command of a load is done. -/
theorem loaded_of_forwarded (hi : s.cpu.pending = []) (hq : w.queue = .load) (d : BitVec 5) (l : List L1Line) (v : VReg) :
    { s with cpu := { (s.forwarded w).cpu with
      v := (s.forwarded w).cpu.v.set d.toNat v d.isLt, l1 := l, busyLanes := 0, pending := [] } } = s.loaded d l v := by
  rw [forwarded_v, forwarded_of_also_id h, hq, State.loaded, Cell.flowTo_frame, ← hi]
  rfl

end

/-! ### vldm (R239) -/

/-- An aligned address has 0 in its low two bits. -/
theorem extractLsb'_of_mod_four {x : Word} (h : x.toNat % 4 = 0) : x.extractLsb' 0 2 = 0 :=
  BitVec.eq_of_toNat_eq (by rw [BitVec.extractLsb'_toNat, Nat.shiftRight_zero]; exact h)

/-- A lane whose place a weak read serves goes through the L1 or home, past no busy bank. -/
theorem lane_not_passed {c : Cell} {e : TlbEntry} (hb : leafPol e.leaf ≠ 0 ∨ c.busyLanes = 0) (n i : Nat) :
    (decide ((placeOf e.leaf e.bits n).pol = 0) && !isDevice (placeOf e.leaf e.bits n).pa && c.busyLanes.getLsbD i) = false := by
  obtain hp | hz := hb
  · have hpol : decide ((placeOf e.leaf e.bits n).pol = 0) = false := decide_eq_false hp
    rw [hpol, Bool.false_and, Bool.false_and]
  · rw [hz]
    exact Bool.and_eq_false_iff.mpr (.inr BitVec.getLsbD_zero)

theorem strideTrap_aligned {base stride : Word} (hb : base.toNat % 4 = 0) (hs : stride.toNat % 4 = 0) :
    strideTrap base stride = none := by
  rw [strideTrap, if_neg (not_not_intro (extractLsb'_of_mod_four hb)), if_neg (not_not_intro (extractLsb'_of_mod_four hs))]

/-- With no bank busy, or at home, no lane passes the L1 by. -/
theorem passes_false {c : Cell} {e : TlbEntry} (hb : leafPol e.leaf ≠ 0 ∨ c.busyLanes = 0) (vas : List Word) (i : Nat) :
    passes c (vas.map (fun va => placeOf e.leaf e.bits va.toNat)) i = false := by
  rw [passes, List.getElem?_map]
  cases vas[i]? with
  | none => rfl
  | some va => exact lane_not_passed hb ..

section
variable {b a d : BitVec 5} {r : BitVec 3} {e : TlbEntry} {s : State} {L : List L1Line → Prop} {val : Word → Nat}

/-- The addresses of a strided access. -/
def lineAddrs (b : BitVec 5) (base op1 : Word) : List Word := (List.range 32).map (laneAddr base (strideOf b op1))

/-- The register that a strided load gives, of the values at its addresses. -/
def lineLanes (b : BitVec 5) (base op1 : Word) (val : Word → Nat) : VReg :=
  ofLanes (fun i => ((lineAddrs b base op1).map (fun va => BitVec.ofNat 32 (val va))).getD i 0)

theorem lane_lineLanes (base op1 : Word) {j : Nat} (hj : j < 32) :
    lane (lineLanes b base op1 val) j = BitVec.ofNat 32 (val (laneAddr base (strideOf b op1) j)) := by
  rw [lineLanes, lane_ofLanes _ _ hj, lineAddrs, List.map_map, List.getD_eq_getElem?_getD, List.getElem?_map,
    List.getElem?_range hj]
  rfl

theorem forall_lineAddrs {P : Word → Prop} {base op1 : Word} (h : ∀ i, i < 32 → P (laneAddr base (strideOf b op1) i)) :
    ∀ va ∈ lineAddrs b base op1, P va :=
  List.forall_mem_map.mpr fun i hi => h i (List.mem_range.mp hi)

theorem unitVldm_served {w : Cmd} {c : Cell} (ht : TlbHead e { s with cpu := c }) (hg : Grants e .read) (hc : L c.l1)
    (hb : leafPol e.leaf ≠ 0 ∨ c.busyLanes = 0) (h0 : w.op0.toNat % 4 = 0) (h1 : (strideOf b w.op1).toNat % 4 = 0)
    (hm : ∀ va ∈ lineAddrs b w.op0 w.op1, Maps e { s with cpu := c } va)
    (hv : ∀ va ∈ lineAddrs b w.op0 w.op1, ServedAs s L (placeOf e.leaf e.bits va.toNat) (val va)) :
    ∃ l, L l ∧ unitVldm b d w { s with cpu := c } = .done (({ s with cpu := { c with l1 := l } } : State).banksServed.setV d
      (lineLanes b w.op0 w.op1 val)) := by
  have hplaces := ht.lanePlaces hg _ hm [] [] nofun
  rw [List.reverse_nil, List.nil_append] at hplaces
  set vas := lineAddrs b w.op0 w.op1 with hvas
  set ps := vas.map (fun va => placeOf e.leaf e.bits va.toNat) with hps
  have hlanes : ∀ q ∈ vas.zip (ps.mapIdx (fun i p => (p, passes c ps i))), q.2.2 = false ∧ ServedAs s L q.2.1 (val q.1) := by
    intro q hq
    obtain ⟨i, hi, rfl⟩ := List.mem_iff_getElem.mp hq
    rw [List.getElem_zip, List.getElem_mapIdx]
    refine ⟨passes_false hb vas i, ?_⟩
    simp only [hps, List.getElem_map]
    exact hv _ (List.getElem_mem _)
  obtain ⟨l, hl, hread⟩ := readLanes_served _ hlanes [] c hc
  have hvals : (vas.zip (ps.mapIdx (fun i p => (p, passes c ps i)))).map (fun q => BitVec.ofNat 32 (val q.1)) =
      vas.map (fun va => BitVec.ofNat 32 (val va)) := by
    have hcomp : (fun q : Word × Place × Bool => BitVec.ofNat 32 (val q.1)) = (fun va => BitVec.ofNat 32 (val va)) ∘ Prod.fst := rfl
    rw [hcomp, ← List.map_map, List.map_fst_zip]
    rw [List.length_mapIdx, hps, List.length_map]
  refine ⟨l, hl, ?_⟩
  rw [hvals, List.reverse_nil, List.nil_append] at hread
  have haddrs : (List.range 32).map (laneAddr w.op0 (strideOf b w.op1)) = vas := rfl
  simp only [unitVldm, strideTrap_aligned h0 h1, haddrs, hplaces, hread]
  rfl

theorem exec_vldm_loads (h : VectorReady r [d] s) (ht : TlbHead e s) (hg : Grants e .read) (hL : L s.cpu.l1)
    (hb : leafPol e.leaf ≠ 0 ∨ s.cpu.busyLanes = 0) (h0 : (s.x a).toNat % 4 = 0) (h1 : (strideOf b (s.x b)).toNat % 4 = 0)
    (hm : ∀ i, i < 32 → Maps e s (laneAddr (s.x a) (strideOf b (s.x b)) i))
    (hv : ∀ i, i < 32 → ServedAs s L (placeOf e.leaf e.bits (laneAddr (s.x a) (strideOf b (s.x b)) i).toNat)
      (val (laneAddr (s.x a) (strideOf b (s.x b)) i))) :
    LoadsLanes (.vldm b a d r) d s L (fun i => BitVec.ofNat 32 (val (laneAddr (s.x a) (strideOf b (s.x b)) i))) := by
  set w := memoryIssue (.vldm b a d r) .load (s.x a) (s.x b) with hw
  have hsees : SeesAs s (s.forwarded w) := forwarded_seesAs rfl s
  obtain ⟨l, hl, hu⟩ := unitVldm_served (s := s) (c := (s.forwarded w).cpu) (w := w.cmd s.cpu) (d := d) (L := L) (val := val)
    (hsees.tlbHead ht) hg ((forwarded_l1 (w := w) rfl s).symm ▸ hL) ((forwarded_busyLanes (w := w) rfl s).symm ▸ hb) h0 h1
    (forall_lineAddrs fun i hi => hsees.maps (hm i hi)) (forall_lineAddrs hv)
  have hi : exec (.vldm b a d r) s = enqueue w (unitVldm b d) s := by
    rw [exec_vldm, execVldm, h.forwardWord (ns := [d.toNat]) h.allotted]
    rfl
  refine ⟨l, lineLanes b (s.x a) (s.x b) val, hl, fun j hj => lane_lineLanes _ _ hj, ?_⟩
  rw [h.exec_done hi rfl (Nat.zero_le _) hu rfl ((forwarded_poison s w).trans h.sound),
    ← loaded_of_forwarded (w := w) rfl s h.idle rfl]
  rfl

end

end Sys2Proof.Machine

namespace Sys2Proof.Machine

/-! ### vldx, lane by lane (R239) -/

theorem lane_setLane (v : VReg) (i : Nat) (x : Lane) {j : Nat} (hj : j < 32) :
    lane (setLane v i x) j = if j = i then x else lane v j := lane_ofLanes _ _ hj

/-- A command that has looked up a lane's page is the same but for the pages that it keeps. -/
theorem keptWith (w : Cmd) (va : Word) :
    ∃ k, (if w.kept.contains (pageNo va) then w else { w with kept := pageNo va :: w.kept }) = { w with kept := k } := by
  split
  · exact ⟨w.kept, rfl⟩
  · exact ⟨_, rfl⟩

/-- A cell in the middle of an indexed load: the register so far, the L1, and the command. -/
def State.midLoad (s : State) (c : Cell) (d : BitVec 5) (v : VReg) (l : List L1Line) (w : Cmd) : State :=
  { s with cpu := { c with v := c.v.set d.toNat v d.isLt, l1 := l, pending := [w] } }

/-- The same, once lane 31 is done. -/
def State.endLoad (s : State) (c : Cell) (d : BitVec 5) (v : VReg) (l : List L1Line) (pending : List Cmd) : State :=
  { s with cpu := { c with v := c.v.set d.toNat v d.isLt, l1 := l, busyLanes := 0, pending := pending } }

/-- The value of a lane of an indexed load: what stood there where the lane is inactive. -/
def indexedLaneValue (base : Word) (offs old : VReg) (val : Word → Nat) (i : Nat) : Lane :=
  match indexedAddr base offs i with
  | none => lane old i
  | some va => BitVec.ofNat 32 (val va)

section
variable {b d : BitVec 5} {e : TlbEntry} {s : State} {L : List L1Line → Prop} {val : Word → Nat} {c : Cell} {base : Word}

/-- The lanes below `n` have been loaded, and the others stand as they were. -/
def LoadedTo (base : Word) (offs old : VReg) (val : Word → Nat) (n : Nat) (v : VReg) : Prop :=
  ∀ j, j < 32 → lane v j = if j < n then indexedLaneValue base offs old val j else lane old j

/-- The offset of a lane is not overwritten before the lane is loaded. -/
theorem midLoad_indexedAddr {v : VReg} {l : List L1Line} {w : Cmd} (hv : LoadedTo base (c.rv b) (c.rv d) val w.progress v)
    (hi : w.progress < 32) :
    indexedAddr base ((s.midLoad c d v l w).cpu.rv b) w.progress = indexedAddr base (c.rv b) w.progress := by
  have hrv : (s.midLoad c d v l w).cpu.rv b = if b = d then v else c.rv b := Cell.rv_wv c d b v
  have hlane : lane ((s.midLoad c d v l w).cpu.rv b) w.progress = lane (c.rv b) w.progress := by
    rw [hrv]
    split
    · rename_i hbd
      rw [hv _ hi, if_neg (Nat.lt_irrefl _), hbd]
    · rfl
  rw [indexedAddr, hlane, indexedAddr]

/-- A lane written into the register of a cell in the middle of a load. -/
theorem midLoad_setV (v v' : VReg) (l l' : List L1Line) (w : Cmd) :
    ({ s with cpu := { (s.midLoad c d v l w).cpu with l1 := l' } } : State).setV d v' = s.midLoad c d v' l' w := by
  rw [State.midLoad, State.midLoad, State.setV, Cell.wv, Vector.set_set]

/-- The lane's unit: the lane is loaded, or left as it is, and the command goes on. -/
theorem unitVldx_lane {v : VReg} {l : List L1Line} {w : Cmd} (hi : w.progress < 32) (hbase : w.op0 = base) (hl : L l)
    (hsees : SeesAs s { s with cpu := c }) (ht : TlbHead e s) (hg : Grants e .read)
    (hb : leafPol e.leaf ≠ 0 ∨ c.busyLanes = 0) (hv : LoadedTo base (c.rv b) (c.rv d) val w.progress v)
    (hm : ∀ va, indexedAddr base (c.rv b) w.progress = some va →
      va.toNat % 4 = 0 ∧ Maps e s va ∧ ServedAs s L (placeOf e.leaf e.bits va.toNat) (val va)) :
    ∃ v' l' k, L l' ∧ LoadedTo base (c.rv b) (c.rv d) val (w.progress + 1) v' ∧
      unitVldx b d w (s.midLoad c d v l w) =
        if w.progress + 1 < 32 then .more { w with kept := k, progress := w.progress + 1 } (s.midLoad c d v' l' w)
        else .done (s.endLoad c d v' l' [w]) := by
  subst hbase
  set m := s.midLoad c d v l w with hmid
  have haddr : indexedAddr w.op0 (m.cpu.rv b) w.progress = indexedAddr w.op0 (c.rv b) w.progress :=
    midLoad_indexedAddr hv hi
  have hrd : m.cpu.rv d = v := (Cell.rv_wv c d d v).trans (if_pos rfl)
  have hms : SeesAs s m := ⟨hsees.tlb, hsees.ctx, rfl, rfl⟩
  have hbusy : leafPol e.leaf ≠ 0 ∨ m.cpu.busyLanes = 0 := hb
  have hend (k : List VReg) (v' : VReg) (l' : List L1Line) :
      nextLane { w with kept := k } (if w.progress = 31 then (s.midLoad c d v' l' w).banksServed else s.midLoad c d v' l' w) =
        if w.progress + 1 < 32 then .more { w with kept := k, progress := w.progress + 1 } (s.midLoad c d v' l' w)
        else .done (s.endLoad c d v' l' [w]) := by
    rw [nextLane]
    by_cases h31 : w.progress + 1 < 32
    · rw [if_pos h31, if_pos h31, if_neg (by omega)]
    · rw [if_neg h31, if_neg h31, if_pos (by omega)]
      rfl
  rw [unitVldx, if_neg (Nat.not_le.mpr hi), indexedLane, haddr]
  cases hf : indexedAddr w.op0 (c.rv b) w.progress with
  | none =>
    refine ⟨v, l, w.kept, hl, fun j hj => ?_, hend w.kept v l⟩
    rw [hv j hj]
    by_cases hjw : j = w.progress
    · rw [if_neg (by omega), if_pos (by omega), indexedLaneValue, hjw, hf]
    · exact if_congr (by omega) rfl rfl
  | some va =>
    obtain ⟨halign, hmaps, hserved⟩ := hm va hf
    obtain ⟨l', hl', hread⟩ := hserved m.cpu hl
    obtain ⟨k, hk⟩ := keptWith w va
    refine ⟨setLane v w.progress (BitVec.ofNat 32 (val va)), l', k, hl', fun j hj => ?_, ?_⟩
    · rw [lane_setLane _ _ _ hj, hv j hj]
      by_cases hjw : j = w.progress
      · rw [if_pos hjw, if_pos (by omega), indexedLaneValue, hjw, hf]
      · rw [if_neg hjw]
        exact if_congr (by omega) rfl rfl
    · have hread' : weakRead m (placeOf e.leaf e.bits va.toNat) 4 = .ok (val va) { s with cpu := { m.cpu with l1 := l' } } := hread
      have hrd' : ({ m.cpu with l1 := l' } : Cell).rv d = v := hrd
      have hset : (if w.progress = 31 then ({ s with cpu := { m.cpu with l1 := l' } } : State).banksServed
          else { s with cpu := { m.cpu with l1 := l' } }).setV d (setLane v w.progress (BitVec.ofNat 32 (val va))) =
          if w.progress = 31 then (s.midLoad c d (setLane v w.progress (BitVec.ofNat 32 (val va))) l' w).banksServed
          else s.midLoad c d (setLane v w.progress (BitVec.ofNat 32 (val va))) l' w := by
        rw [← midLoad_setV v _ l l' w]
        split <;> rfl
      simp only [extractLsb'_of_mod_four halign, ne_eq, not_true_eq_false, if_false, (hms.tlbHead ht).lanePlace (hms.maps hmaps) hg,
        lane_not_passed hbusy, Bool.false_eq_true, hk, hread', hrd', hset]
      exact hend k _ l'

/-- The load from lane `31 - n` on. -/
theorem drive_vldx (hp : c.poison = []) (hsees : SeesAs s { s with cpu := c }) (ht : TlbHead e s) (hg : Grants e .read)
    (hb : leafPol e.leaf ≠ 0 ∨ c.busyLanes = 0)
    (hm : ∀ i va, i < 32 → indexedAddr base (c.rv b) i = some va →
      va.toNat % 4 = 0 ∧ Maps e s va ∧ ServedAs s L (placeOf e.leaf e.bits va.toNat) (val va))
    (n m : Nat) {v : VReg} {l : List L1Line} {w : Cmd} (hn : w.progress + n + 1 = 32) (hbase : w.op0 = base) (hl : L l)
    (hv : LoadedTo base (c.rv b) (c.rv d) val w.progress v) :
    ∃ v' l', L l' ∧ LoadedTo base (c.rv b) (c.rv d) val 32 v' ∧
      (s.midLoad c d v l w).drive (unitVldx b d) 0 (n + 1 + m) = s.endLoad c d v' l' [] := by
  induction n generalizing v l w with
  | zero =>
    obtain ⟨v', l', k, hl', hv', hu⟩ := unitVldx_lane (by omega) hbase hl hsees ht hg hb hv fun va => hm _ va (by omega)
    rw [if_neg (by omega)] at hu
    refine ⟨v', l', hl', (show w.progress + 1 = 32 by omega) ▸ hv', ?_⟩
    rw [Nat.add_comm, drive_done rfl hp hu rfl hp]
    rfl
  | succ n ih =>
    obtain ⟨v', l', k, hl', hv', hu⟩ := unitVldx_lane (by omega) hbase hl hsees ht hg hb hv fun va => hm _ va (by omega)
    rw [if_pos (by omega)] at hu
    obtain ⟨v'', l'', hl'', hv'', hd⟩ := ih (w := { w with kept := k, progress := w.progress + 1, started := true })
      (by show w.progress + 1 + n + 1 = 32; omega) hbase hl' hv'
    refine ⟨v'', l'', hl'', hv'', ?_⟩
    rw [Nat.add_right_comm, drive_more rfl hp hu rfl hp]
    exact hd

theorem exec_vldx_loads {a : BitVec 5} {r : BitVec 3} (h : VectorReady r [d, b] s) (ht : TlbHead e s) (hg : Grants e .read)
    (hL : L s.cpu.l1) (hb : leafPol e.leaf ≠ 0 ∨ s.cpu.busyLanes = 0)
    (hm : ∀ i va, i < 32 → indexedAddr (s.x a) (s.cpu.rv b) i = some va →
      va.toNat % 4 = 0 ∧ Maps e s va ∧ ServedAs s L (placeOf e.leaf e.bits va.toNat) (val va)) :
    LoadsLanes (.vldx b a d r) d s L (indexedLaneValue (s.x a) (s.cpu.rv b) (s.cpu.rv d) val) := by
  set w := memoryIssue (.vldx b a d r) .load (s.x a) 0 with hw
  have hpoison : (s.forwarded w).cpu.poison = [] := (forwarded_poison s w).trans h.sound
  have hstart : s.forwarded w = s.midLoad (s.forwarded w).cpu d (s.cpu.rv d) s.cpu.l1 (w.cmd s.cpu) := by
    have hset : (s.forwarded w).cpu.v.set d.toNat (s.cpu.rv d) d.isLt = (s.forwarded w).cpu.v := by
      rw [forwarded_v]
      exact Vector.set_getElem_self _
    rw [State.midLoad, hset, ← forwarded_l1 (w := w) rfl s]
    rfl
  obtain ⟨v, l, hl, hv, hd⟩ := drive_vldx (c := (s.forwarded w).cpu) (b := b) (d := d) (val := val) (base := s.x a) (w := w.cmd s.cpu)
    hpoison (forwarded_seesAs (w := w) rfl s) ht hg ((forwarded_busyLanes (w := w) rfl s).symm ▸ hb)
    (by rwa [forwarded_rv]) 31 1068 rfl rfl hL
    (v := s.cpu.rv d) (fun j _ => by simp only [forwarded_rv]; rfl)
  rw [forwarded_rv, forwarded_rv] at hv
  refine ⟨l, v, hl, fun j hj => (hv j hj).trans (if_pos hj), ?_⟩
  have hi : exec (.vldx b a d r) s = enqueue w (unitVldx b d) s := by
    rw [exec_vldx, execVldx, h.forwardWord (ns := [d.toNat, b.toNat]) h.allotted]
    rfl
  rw [hi, enqueue_idle h.idle h.eager (w := w) rfl (Nat.zero_le _), unitFuel, hstart, hd, ← loaded_of_forwarded (w := w) rfl s h.idle rfl]
  rfl

end

end Sys2Proof.Machine

namespace Sys2Proof.Machine

/-! ### Lanes stored, in the L1 or at home (R309) -/

/-- One lane stored at a place. -/
def State.laneStored (s : State) (seq : Nat) (p : Place) (v : Lane) : State :=
  if p.pol = 0 then s.l1Store p 4 v.toNat seq else homePut s p 4 v.toNat

/-- The first lanes stored in increasing order, each active one at its place. -/
def State.lanesStored (s : State) (seq : Nat) (f : Nat → Option Place) (x : Nat → Lane) : Nat → State
  | 0 => s
  | n + 1 =>
    match f n with
    | none => s.lanesStored seq f x n
    | some p => (s.lanesStored seq f x n).laneStored seq p (x n)

/-- All that stores of a cell may change: its L1, bytes at home and what goes with a write there. -/
def LaneFrame (s t : State) : Prop :=
  t = { s with
    cpu := { s.cpu with l1 := t.cpu.l1 }
    mem := t.mem
    memPoison := t.memPoison
    cells := t.cells
    waits := t.waits
    syncSram := t.syncSram }

/-- The state with another cell in the place of the acting one, but for the L1. -/
def State.under (s : State) (c : Cell) : State := { s with cpu := { c with l1 := s.cpu.l1 } }

section
variable {s t : State} {seq : Nat}

theorem laneStored_frame (s : State) (seq : Nat) (p : Place) (v : Lane) : LaneFrame s (s.laneStored seq p v) := by
  unfold LaneFrame State.laneStored
  split
  · exact l1Store_frame ..
  · have hf := homePut_homeFrame s p 4 v.toNat
    have hc := homePut_cpu s p 4 v.toNat
    unfold HomeFrame at hf
    rw [hc] at hf ⊢
    exact hf

theorem LaneFrame.trans {u : State} (h : LaneFrame s t) (k : LaneFrame t u) : LaneFrame s u := by
  unfold LaneFrame at h k ⊢
  rw [h] at k
  exact k

theorem lanesStored_frame (s : State) (seq : Nat) (f : Nat → Option Place) (x : Nat → Lane) (n : Nat) :
    LaneFrame s (s.lanesStored seq f x n) := by
  induction n with
  | zero => rfl
  | succ n ih =>
    rw [State.lanesStored]
    split
    · exact ih
    · exact ih.trans (laneStored_frame ..)

theorem LaneFrame.fuses (h : LaneFrame s t) : t.fuses = s.fuses := by unfold LaneFrame at h; rw [h]
theorem LaneFrame.key (h : LaneFrame s t) (p : Place) : t.key p = s.key p := by rw [State.key, h.fuses, State.key]
theorem LaneFrame.channels (h : LaneFrame s t) : t.channels = s.channels := by unfold LaneFrame at h; rw [h]
theorem LaneFrame.offline (h : LaneFrame s t) : t.offline = s.offline := by unfold LaneFrame at h; rw [h]
theorem LaneFrame.homeWaits (h : LaneFrame s t) (k : Nat) : t.homeWaits k = s.homeWaits k := by
  rw [State.homeWaits, State.channel, h.fuses, h.channels, State.homeWaits, State.channel]

theorem lanesStored_memOk (h : s.MemOk) (seq : Nat) (f : Nat → Option Place) (x : Nat → Lane) (n : Nat) :
    (s.lanesStored seq f x n).MemOk := by
  induction n with
  | zero => exact h
  | succ n ih =>
    rw [State.lanesStored]
    split
    · exact ih
    · rw [State.laneStored]
      split
      · exact l1Store_memOk ih
      · exact homePut_memOk ih

/-- Whether a graph's record holds a byte does not depend on the acting cell. -/
theorem recordHolds_under (c : Cell) (k : Nat) : (s.under c).recordHolds k = s.recordHolds k := rfl

theorem storeMask_under (c : Cell) (p : Place) (n : Nat) : (s.under c).storeMask p n = s.storeMask p n := by
  rw [State.storeMask, State.storeMask]
  simp only [recordHolds_under]
  rfl

theorem landing_under (c : Cell) (k : Nat) (bs : List Byte) : (s.under c).landing k bs = s.landing k bs := by
  rw [State.landing, State.landing]
  simp only [recordHolds_under]
  rfl

theorem l1Store_under (c : Cell) (p : Place) (n v seq : Nat) : (s.under c).l1Store p n v seq = (s.l1Store p n v seq).under c := by
  rw [State.l1Store, storeMask_under, State.l1Store]
  rfl

theorem syncTouch_under (c : Cell) (k : Nat) : (s.under c).syncTouch k = (s.syncTouch k).under c := by
  rw [State.syncTouch, State.syncTouch]
  split <;> rfl

theorem homeWrite_under {c : Cell} (h : c.id = s.cpu.id) (k : Nat) (bs : List Byte) :
    (s.under c).homeWrite k bs (some c.id) = (s.homeWrite k bs (some s.cpu.id)).under c := by
  simp [State.homeWrite, State.under, h]

theorem homePut_under {c : Cell} (h : c.id = s.cpu.id) (p : Place) (n v : Nat) :
    homePut (s.under c) p n v = (homePut s p n v).under c := by
  have hid : (s.under c).cpu.id = c.id := rfl
  rw [homePut, landing_under, hid, homeWrite_under h, syncTouch_under]
  rfl

/-- A lane's store depends on the acting cell's number and L1 alone. -/
theorem laneStored_under {c : Cell} (h : c.id = s.cpu.id) (seq : Nat) (p : Place) (v : Lane) :
    (s.under c).laneStored seq p v = (s.laneStored seq p v).under c := by
  unfold State.laneStored
  split
  · exact l1Store_under ..
  · exact homePut_under h ..

theorem lanesStored_id (f : Nat → Option Place) (x : Nat → Lane) (n : Nat) : (s.lanesStored seq f x n).cpu.id = s.cpu.id := by
  have h := lanesStored_frame s seq f x n
  unfold LaneFrame at h
  rw [h]

theorem lanesStored_under {c : Cell} (h : c.id = s.cpu.id) (seq : Nat) (f : Nat → Option Place) (x : Nat → Lane) (n : Nat) :
    (s.under c).lanesStored seq f x n = (s.lanesStored seq f x n).under c := by
  induction n with
  | zero => rfl
  | succ n ih =>
    rw [State.lanesStored, State.lanesStored, ih]
    split
    · rfl
    · exact laneStored_under (h.trans (lanesStored_id ..).symm) ..

end

end Sys2Proof.Machine

namespace Sys2Proof.Machine

/-! ### vstm (R239) -/

section
variable {s t : State} {seq : Nat}

theorem writeLanesAt_append (l l' : List (Place × Lane)) (s : State) :
    writeLanesAt seq (l ++ l') s = writeLanesAt seq l' (writeLanesAt seq l s) := by
  induction l generalizing s with
  | nil => rfl
  | cons q l ih => exact ih _

/-- The lanes of a strided store go one after another. -/
theorem writeLanesAt_range (p : Nat → Place) (x : Nat → Lane) (n : Nat) :
    writeLanesAt seq ((List.range n).map (fun i => (p i, x i))) s = s.lanesStored seq (fun i => some (p i)) x n := by
  induction n with
  | zero => rfl
  | succ n ih =>
    rw [List.range_succ, List.map_append, writeLanesAt_append, ih]
    rfl

/-- Lanes whose channels serve them wait for nothing but older reads. -/
theorem lanesWait_none {ps : List Place} (hr : s.cpu.readsBefore seq = false) (hw : ∀ p ∈ ps, s.homeWaits (s.key p) = false) :
    lanesWait seq ps s = none := by
  have hfind : (ps.filter (fun p => p.pol ≠ 0)).find? (fun p => s.homeWaits (s.key p)) = none :=
    List.find?_eq_none.mpr fun p hp => by rw [hw p (List.mem_of_mem_filter hp)]; decide
  simp only [lanesWait, hr, Bool.and_false, Bool.false_eq_true, if_false, hfind, Option.map_none]

/-- The state after a vector store of an idle cell: the lanes stored, and the front end past the word. -/
def State.storedPast (s t : State) : State :=
  { t with cpu := { t.cpu.flowTo (s.cpu.pc + 4) with vseq := s.cpu.vseq + 1 } }

/-- The cell once the command of a store is done. -/
theorem storedPast_of_forwarded {w : Issue} (hw : w.also = id) (hq : w.queue = .store) (hi : s.cpu.pending = [])
    (hf : LaneFrame s t) (pending : List Cmd) :
    (t.under { (s.forwarded w).cpu with pending := pending }).upd (fun c => { c with pending := [] }) = s.storedPast t := by
  have hc : t.cpu = { s.cpu with l1 := t.cpu.l1 } := congrArg State.cpu hf
  have hflow : t.cpu.flowTo (s.cpu.pc + 4) = { s.cpu.flowTo (s.cpu.pc + 4) with l1 := t.cpu.l1 } := by
    rw [hc, Cell.flowTo_frame s.cpu]
    exact Cell.flowTo_congr (c := s.cpu) _ rfl rfl
  rw [State.storedPast, hflow, forwarded_of_also_id hw, hq, Cell.flowTo_frame s.cpu, ← hi]
  rfl

theorem forwarded_id {w : Issue} (hw : w.also = id) (s : State) : (s.forwarded w).cpu.id = s.cpu.id := by
  rw [forwarded_of_also_id hw, Cell.flowTo_frame]

/-- A forwarded cell stands under its state. -/
theorem forwarded_under {w : Issue} (hw : w.also = id) (s : State) :
    s.forwarded w = s.under { (s.forwarded w).cpu with pending := [w.cmd s.cpu] } := by
  rw [State.under, ← forwarded_l1 hw s]
  rfl

end

section
variable {b a d : BitVec 5} {r : BitVec 3} {e : TlbEntry} {s : State}

/-- The place of lane `i` of a strided store. -/
def linePlace (e : TlbEntry) (b : BitVec 5) (base op1 : Word) (i : Nat) : Place :=
  placeOf e.leaf e.bits (laneAddr base (strideOf b op1) i).toNat

theorem unitVstm_stores {w : Cmd} (ht : TlbHead e s) (hg : Grants e .write) (hr : s.cpu.readsBefore w.vseq = false)
    (h0 : w.op0.toNat % 4 = 0) (h1 : (strideOf b w.op1).toNat % 4 = 0)
    (hm : ∀ i, i < 32 → Maps e s (laneAddr w.op0 (strideOf b w.op1) i))
    (hw : ∀ i, i < 32 → s.homeWaits (s.key (linePlace e b w.op0 w.op1 i)) = false) :
    unitVstm b d w s =
      .done (s.lanesStored w.vseq (fun i => some (linePlace e b w.op0 w.op1 i)) (lane (s.cpu.rv d)) 32) := by
  have hplaces := ht.lanePlaces hg _ (forall_lineAddrs hm) [] [] nofun
  rw [List.reverse_nil, List.nil_append] at hplaces
  set vas := lineAddrs b w.op0 w.op1 with hvas
  have hps : vas.map (fun va => placeOf e.leaf e.bits va.toNat) = (List.range 32).map (linePlace e b w.op0 w.op1) := by
    rw [hvas, lineAddrs, List.map_map]
    rfl
  rw [hps] at hplaces
  set ps := (List.range 32).map (linePlace e b w.op0 w.op1) with hpsdef
  have hplace (P : Place → Prop) (hP : ∀ i, i < 32 → P (linePlace e b w.op0 w.op1 i)) : ∀ p ∈ ps, P p :=
    List.forall_mem_map.mpr fun i hi => hP i (List.mem_range.mp hi)
  have hbarred : (vas.zip ps).find? (fun q => storeBarred s q.2 4) = none :=
    List.find?_eq_none.mpr fun q hq => by
      rw [hplace (fun p => storeBarred s p 4 = false) (fun i hi => storeBarred_of_isHbm (hm i hi).hbm 4) q.2
        (List.of_mem_zip hq).2]
      decide
  have hwait : lanesWait w.vseq ps s = none := lanesWait_none hr (hplace _ hw)
  have hzip : ps.zip ((List.range 32).map (lane (s.cpu.rv d))) =
      (List.range 32).map (fun i => (linePlace e b w.op0 w.op1 i, lane (s.cpu.rv d) i)) := List.zip_map' ..
  have haddrs : (List.range 32).map (laneAddr w.op0 (strideOf b w.op1)) = vas := rfl
  simp only [unitVstm, strideTrap_aligned h0 h1, haddrs, hplaces, hbarred, hwait, hzip, writeLanesAt_range]

/-- The only command of a cell, when it is one that reads nothing, follows no read. -/
theorem readsBefore_single {c : Cell} {w : Cmd} (hp : c.pending = [w]) (hw : w.readsMemory = false) (n : Nat) :
    c.readsBefore n = false := by
  rw [Cell.readsBefore, hp, List.any_cons, hw]
  rfl

theorem exec_vstm_stores (h : VectorReady r [d] s) (ht : TlbHead e s) (hg : Grants e .write) (h0 : (s.x a).toNat % 4 = 0)
    (h1 : (strideOf b (s.x b)).toNat % 4 = 0)
    (hm : ∀ i, i < 32 → Maps e s (laneAddr (s.x a) (strideOf b (s.x b)) i))
    (hw : ∀ i, i < 32 → s.homeWaits (s.key (linePlace e b (s.x a) (s.x b) i)) = false) :
    exec (.vstm b a d r) s = .next (s.storedPast
      (s.lanesStored s.cpu.vseq (fun i => some (linePlace e b (s.x a) (s.x b) i)) (lane (s.cpu.rv d)) 32)) := by
  set w := memoryIssue (.vstm b a d r) .store (s.x a) (s.x b) with hwd
  have hsees : SeesAs s (s.forwarded w) := forwarded_seesAs rfl s
  have hu := unitVstm_stores (d := d) (w := w.cmd s.cpu) (b := b) (hsees.tlbHead ht) hg
    (readsBefore_single (forwarded_pending s w) rfl _) h0 h1 (fun i hi => hsees.maps (hm i hi)) hw
  have hrun : (s.forwarded w).lanesStored s.cpu.vseq (fun i => some (linePlace e b (s.x a) (s.x b) i)) (lane (s.cpu.rv d)) 32 =
      (s.lanesStored s.cpu.vseq (fun i => some (linePlace e b (s.x a) (s.x b) i)) (lane (s.cpu.rv d)) 32).under
        { (s.forwarded w).cpu with pending := [w.cmd s.cpu] } :=
    (congrArg (fun u : State => u.lanesStored s.cpu.vseq (fun i => some (linePlace e b (s.x a) (s.x b) i)) (lane (s.cpu.rv d)) 32)
      (forwarded_under (w := w) rfl s)).trans (lanesStored_under (forwarded_id (w := w) rfl s) ..)
  have hi : exec (.vstm b a d r) s = enqueue w (unitVstm b d) s := by
    rw [exec_vstm, execVstm, h.forwardWord (ns := [d.toNat]) h.allotted]
    rfl
  rw [forwarded_rv] at hu
  rw [h.exec_done hi rfl (Nat.zero_le _) (hu.trans (congrArg EngOut.done hrun)) rfl ((forwarded_poison s w).trans h.sound),
    storedPast_of_forwarded (w := w) rfl rfl h.idle (lanesStored_frame ..)]

end

end Sys2Proof.Machine

namespace Sys2Proof.Machine

/-! ### vstx, lane by lane (R239) -/

/-- The place of lane `i` of an indexed access, if it is active. -/
def indexedPlace (e : TlbEntry) (base : Word) (offs : VReg) (i : Nat) : Option Place :=
  (indexedAddr base offs i).map (fun va => placeOf e.leaf e.bits va.toNat)

section
variable {b d : BitVec 5} {e : TlbEntry} {s : State} {c : Cell} {base : Word} {seq : Nat}

/-- A cell in the middle of an indexed store: the lanes below the command's stand stored. -/
def State.midStore (s : State) (c : Cell) (seq : Nat) (f : Nat → Option Place) (x : Nat → Lane) (n : Nat) (w : Cmd) : State :=
  (s.lanesStored seq f x n).under { c with pending := [w] }

theorem midStore_seesAs (h : SeesAs s { s with cpu := c }) (f : Nat → Option Place) (x : Nat → Lane) (n : Nat) (w : Cmd) :
    SeesAs s (s.midStore c seq f x n w) :=
  ⟨h.tlb, h.ctx, (lanesStored_frame ..).fuses, (lanesStored_frame ..).offline⟩

theorem midStore_homeWaits (f : Nat → Option Place) (x : Nat → Lane) (n : Nat) (w : Cmd) (p : Place) :
    (s.midStore c seq f x n w).homeWaits ((s.midStore c seq f x n w).key p) = s.homeWaits (s.key p) := by
  have hf := lanesStored_frame s seq f x n
  exact (congrArg _ (hf.key p)).trans (hf.homeWaits _)

/-- The next lane is stored, or passed over. -/
theorem midStore_succ (hid : c.id = s.cpu.id) (f : Nat → Option Place) (x : Nat → Lane) (n : Nat) (w : Cmd) :
    s.midStore c seq f x (n + 1) w = match f n with
      | none => s.midStore c seq f x n w
      | some p => (s.midStore c seq f x n w).laneStored seq p (x n) := by
  rw [State.midStore, State.lanesStored, State.midStore]
  cases f n with
  | none => rfl
  | some p =>
    have hc : ({ c with pending := [w] } : Cell).id = (s.lanesStored seq f x n).cpu.id := hid.trans (lanesStored_id ..).symm
    exact (laneStored_under hc ..).symm

/-- The lane's unit. -/
theorem unitVstx_lane {w : Cmd} (hi : w.progress < 32) (hbase : w.op0 = base) (hseq : w.vseq = seq) (hread : w.readsMemory = false)
    (hid : c.id = s.cpu.id) (hsees : SeesAs s { s with cpu := c }) (ht : TlbHead e s) (hg : Grants e .write)
    (hm : ∀ va, indexedAddr base (c.rv b) w.progress = some va →
      va.toNat % 4 = 0 ∧ Maps e s va ∧ s.homeWaits (s.key (placeOf e.leaf e.bits va.toNat)) = false) :
    ∃ k, unitVstx b d w (s.midStore c seq (indexedPlace e base (c.rv b)) (lane (c.rv d)) w.progress w) =
      nextLane { w with kept := k } (s.midStore c seq (indexedPlace e base (c.rv b)) (lane (c.rv d)) (w.progress + 1) w) := by
  subst hbase hseq
  rw [midStore_succ hid]
  set m := s.midStore c w.vseq (indexedPlace e w.op0 (c.rv b)) (lane (c.rv d)) w.progress w with hmid
  have hms : SeesAs s m := midStore_seesAs hsees ..
  have haddr : indexedAddr w.op0 (m.cpu.rv b) w.progress = indexedAddr w.op0 (c.rv b) w.progress := rfl
  have hrd : m.cpu.rv d = c.rv d := rfl
  rw [unitVstx, if_neg (Nat.not_le.mpr hi), indexedLane, haddr, indexedPlace]
  cases hf : indexedAddr w.op0 (c.rv b) w.progress with
  | none => exact ⟨w.kept, rfl⟩
  | some va =>
    obtain ⟨halign, hmaps, hwait⟩ := hm va hf
    obtain ⟨k, hk⟩ := keptWith w va
    have hbar : storeBarred m (placeOf e.leaf e.bits va.toNat) 4 = false := storeBarred_of_isHbm hmaps.hbm 4
    have hwrite : weakWrite m (placeOf e.leaf e.bits va.toNat) 4 (lane (c.rv d) w.progress).toNat w.vseq =
        .ok 0 (m.laneStored w.vseq (placeOf e.leaf e.bits va.toNat) (lane (c.rv d) w.progress)) := by
      rw [State.laneStored]
      split
      · rename_i hp
        exact weakWrite_cached hp ..
      · rename_i hp
        exact weakWrite_home hp ((midStore_homeWaits ..).trans hwait) (readsBefore_single rfl hread _) ..
    refine ⟨k, ?_⟩
    simp only [extractLsb'_of_mod_four halign, ne_eq, not_true_eq_false, if_false, (hms.tlbHead ht).lanePlace (hms.maps hmaps) hg,
      hk, hbar, Bool.false_eq_true, hrd, hwrite]
    rfl

/-- The store from lane `31 - n` on. -/
theorem drive_vstx (hp : c.poison = []) (hid : c.id = s.cpu.id) (hsees : SeesAs s { s with cpu := c }) (ht : TlbHead e s)
    (hg : Grants e .write)
    (hm : ∀ i va, i < 32 → indexedAddr base (c.rv b) i = some va →
      va.toNat % 4 = 0 ∧ Maps e s va ∧ s.homeWaits (s.key (placeOf e.leaf e.bits va.toNat)) = false)
    (n m : Nat) {w : Cmd} (hn : w.progress + n + 1 = 32) (hbase : w.op0 = base) (hseq : w.vseq = seq) (hread : w.readsMemory = false) :
    ∃ w', (s.midStore c seq (indexedPlace e base (c.rv b)) (lane (c.rv d)) w.progress w).drive (unitVstx b d) 0 (n + 1 + m) =
      (s.midStore c seq (indexedPlace e base (c.rv b)) (lane (c.rv d)) 32 w').upd (fun c => { c with pending := [] }) := by
  induction n generalizing w with
  | zero =>
    obtain ⟨k, hu⟩ := unitVstx_lane (d := d) (by omega) hbase hseq hread hid hsees ht hg fun va => hm _ va (by omega)
    have h32 : w.progress + 1 = 32 := by omega
    rw [nextLane, if_neg (by show ¬ w.progress + 1 < 32; omega), h32] at hu
    refine ⟨w, ?_⟩
    rw [Nat.add_comm, drive_done rfl hp hu rfl hp]
  | succ n ih =>
    obtain ⟨k, hu⟩ := unitVstx_lane (d := d) (by omega) hbase hseq hread hid hsees ht hg fun va => hm _ va (by omega)
    rw [nextLane, if_pos (by show w.progress + 1 < 32; omega)] at hu
    obtain ⟨w', hd⟩ := ih (w := { w with kept := k, progress := w.progress + 1, started := true })
      (by show w.progress + 1 + n + 1 = 32; omega) hbase hseq hread
    refine ⟨w', ?_⟩
    rw [Nat.add_right_comm, drive_more rfl hp hu rfl hp]
    exact hd

theorem exec_vstx_stores {a : BitVec 5} {r : BitVec 3} (h : VectorReady r [d, b] s) (ht : TlbHead e s) (hg : Grants e .write)
    (hm : ∀ i va, i < 32 → indexedAddr (s.x a) (s.cpu.rv b) i = some va →
      va.toNat % 4 = 0 ∧ Maps e s va ∧ s.homeWaits (s.key (placeOf e.leaf e.bits va.toNat)) = false) :
    exec (.vstx b a d r) s = .next (s.storedPast
      (s.lanesStored s.cpu.vseq (indexedPlace e (s.x a) (s.cpu.rv b)) (lane (s.cpu.rv d)) 32)) := by
  set w := memoryIssue (.vstx b a d r) .store (s.x a) 0 with hwd
  have hi : exec (.vstx b a d r) s = enqueue w (unitVstx b d) s := by
    rw [exec_vstx, execVstx, h.forwardWord (ns := [d.toNat, b.toNat]) h.allotted]
    rfl
  obtain ⟨w', hd⟩ := drive_vstx (c := (s.forwarded w).cpu) (b := b) (d := d) (base := s.x a) (seq := s.cpu.vseq) (w := w.cmd s.cpu)
    ((forwarded_poison s w).trans h.sound) (forwarded_id (w := w) rfl s) (forwarded_seesAs (w := w) rfl s) ht hg
    (by rwa [forwarded_rv]) 31 1068 rfl rfl rfl rfl
  have hstart : s.forwarded w =
      s.midStore (s.forwarded w).cpu s.cpu.vseq (indexedPlace e (s.x a) ((s.forwarded w).cpu.rv b)) (lane ((s.forwarded w).cpu.rv d))
        (w.cmd s.cpu).progress (w.cmd s.cpu) := forwarded_under (w := w) rfl s
  rw [hi, enqueue_idle h.idle h.eager (w := w) rfl (Nat.zero_le _), unitFuel, hstart, hd, State.midStore,
    storedPast_of_forwarded (w := w) rfl rfl h.idle (lanesStored_frame ..)]
  simp only [forwarded_rv]

end

end Sys2Proof.Machine

namespace Sys2Proof.Machine

/-! ### Channels and banks (R291, R302) -/

section
variable {s : State}

theorem channel_setChannel (c : Channel) (p : Nat × Nat) :
    (s.setChannel c).channel p = if p = (c.stack, c.number) then some c else s.channel p := by
  obtain ⟨st, n⟩ := p
  rw [State.channel, State.setChannel, List.find?_cons]
  by_cases h : (st, n) = (c.stack, c.number)
  · obtain ⟨rfl, rfl⟩ := Prod.mk.inj h
    rw [if_pos rfl]
    simp only [beq_self_eq_true, Bool.and_self]
  · have hc : (c.stack == st && c.number == n) = false := by
      rw [Bool.eq_false_iff]
      intro hh
      simp only [Bool.and_eq_true, beq_iff_eq] at hh
      exact h (Prod.ext hh.1.symm hh.2.symm)
    rw [if_neg h, hc, List.find?_filter, State.channel]
    refine congrFun (congrArg _ (funext fun d => ?_)) s.channels
    by_cases hd : (d.stack == st && d.number == n) = true
    · obtain ⟨rfl, rfl⟩ : d.stack = st ∧ d.number = n := by simpa using hd
      have hne : (!(d.stack == c.stack && d.number == c.number)) = true := by
        rw [Bool.not_eq_true', Bool.eq_false_iff]
        simpa using fun h1 h2 => h (Prod.ext h1 h2)
      rw [hd]
      exact decide_eq_true ⟨hne, rfl⟩
    · rw [Bool.eq_false_iff.mpr hd]
      exact decide_eq_false fun hf => Bool.false_ne_true hf.2

/-- A channel that a context has owned is one of those that have been used. -/
theorem channel_of_prev {key ctx : Nat} (h : (s.chanAt key).prev = some ctx) :
    s.channel (chanOf s.fuses key) = some (s.chanAt key) ∧
      ((s.chanAt key).stack, (s.chanAt key).number) = chanOf s.fuses key := by
  rw [State.chanAt] at h ⊢
  cases hc : s.channel (chanOf s.fuses key) with
  | none => rw [hc] at h; nomatch h
  | some c =>
    refine ⟨rfl, ?_⟩
    have hp := List.find?_some hc
    simp only [Bool.and_eq_true, beq_iff_eq] at hp
    exact Prod.ext hp.1 hp.2

theorem bank_setBank (c : Channel) (b : Nat) (k : Bank) : (c.setBank b k).bank b = k := Vector.getElem_set_self _

theorem setBank_setBank (c : Channel) (b : Nat) (k k' : Bank) : (c.setBank b k).setBank b k' = c.setBank b k' := by
  rw [Channel.setBank, Channel.setBank, Channel.setBank]
  exact congrArg (fun l => { c with banks := l }) (Vector.set_set ..)

theorem setBank_bank (c : Channel) (b : Nat) : c.setBank b (c.bank b) = c :=
  congrArg (fun l => { c with banks := l }) (Vector.set_getElem_self ..)

/-- The place in a bank's order that an nbrd of the cell takes. -/
def nbrdEntry (c : Cell) : RillCmd := ⟨c.id, c.firing, 0, none, 0, 0, 0, true⟩

theorem readOf_nbrdEntry (c : Cell) : readOf c (nbrdEntry c) = true := by simp [readOf, nbrdEntry]

/-- The channel once an nbrd waits alone at a bank. -/
def Channel.joined (ch : Channel) (c : Cell) (b : Nat) : Channel := ch.setBank b { ch.bank b with queue := [nbrdEntry c] }

theorem joined_place (ch : Channel) (c : Cell) (b : Nat) :
    ((ch.joined c b).stack, (ch.joined c b).number) = (ch.stack, ch.number) := rfl

/-- An nbrd joins an empty bank, which has nothing to execute before it. -/
theorem joinBank_empty {ch : Channel} {b : Nat} (he : s.cpu.eager = true) (hq : (ch.bank b).queue = []) :
    s.joinBank ch b = s.setChannel (ch.joined s.cpu b) := by
  have hrun : (s.setChannel (ch.joined s.cpu b)).runBank (ch.stack, ch.number) b = s.setChannel (ch.joined s.cpu b) := by
    have hch : (s.setChannel (ch.joined s.cpu b)).channel (ch.stack, ch.number) = some (ch.joined s.cpu b) :=
      (channel_setChannel ..).trans (if_pos rfl)
    have hb : ((ch.joined s.cpu b).bank b).queue = [nbrdEntry s.cpu] := by rw [Channel.joined, bank_setBank]
    simp only [State.runBank, hch, hb, nbrdEntry, if_true]
  have hfold (l : List Nat) : l.foldl (fun s _ => s.runBank (ch.stack, ch.number) b) (s.setChannel (ch.joined s.cpu b)) =
      s.setChannel (ch.joined s.cpu b) := by
    induction l with
    | nil => rfl
    | cons _ _ ih => rw [List.foldl_cons, hrun, ih]
  have hroom : decide (32 ≤ ([] : List RillCmd).length) = false := rfl
  have he' (c : Channel) : (s.setChannel c).cpu.eager = true := he
  simp only [State.joinBank, hq, List.any_nil, hroom, Bool.false_or, Bool.false_eq_true, if_false, List.nil_append, he', if_true]
  exact hfold _

/-- The channel of a key, once an nbrd waits at one of its banks. -/
theorem chanAt_joined {ch : Channel} {key : Nat} (hnum : (ch.stack, ch.number) = chanOf s.fuses key) (c : Cell) (b : Nat) :
    (s.setChannel (ch.joined c b)).chanAt key = ch.joined c b := by
  have hc : (s.setChannel (ch.joined c b)).channel (chanOf s.fuses key) = some (ch.joined c b) :=
    (channel_setChannel ..).trans (if_pos hnum.symm)
  exact congrArg (fun o => Option.getD o _) hc

/-- An nbrd that has its place does not take another. -/
theorem joinBank_joined {ch : Channel} {b : Nat} (hq : (ch.bank b).queue = [nbrdEntry s.cpu]) : s.joinBank ch b = s := by
  simp only [State.joinBank, hq, List.any_cons, readOf_nbrdEntry, Bool.true_or, if_true]

end

end Sys2Proof.Machine

namespace Sys2Proof.Machine

/-! ### nbrd (R302) -/

section
variable {s : State} {d : BitVec 5} {e : TlbEntry} {w : Cmd} {va : Word}

theorem joined_queue (ch : Channel) (c : Cell) (b : Nat) : ((ch.joined c b).bank b).queue = [nbrdEntry c] := by
  rw [Channel.joined, bank_setBank]

/-- Leaving the bank gives the channel back as it was. -/
theorem joined_left {ch : Channel} {c : Cell} {b : Nat} (hq : (ch.bank b).queue = []) :
    (ch.joined c b).setBank b { (ch.joined c b).bank b with queue := [] } = ch := by
  rw [Channel.joined, bank_setBank, setBank_setBank, ← hq]
  exact setBank_bank ch b

/-- A bank that an nbrd has joined keeps its results. -/
theorem resLanes_joined (ch : Channel) (c : Cell) (b n : Nat) : resLanes ((ch.joined c b).bank b) n = resLanes (ch.bank b) n := by
  rw [Channel.joined, bank_setBank]
  rfl

/-- A unit of nbrd whose turn at the bank has come gives one register; the last one leaves the bank. -/
theorem unitNbrd_turn {va count : Word} {b : Nat} {chS ch : Channel} {c : Cell} {j : State} (ht : TlbHead e s) (hm : Maps e s va)
    (hg : Grants e .read) (h6 : e.leaf.getLsbD 6 = true) (hva : w.op0 = va) (hw : w.op1 = count) (hc : count.toNat < 128)
    (hn : w.progress < count.toNat / 64 + 1) (hv : d.toNat + (count.toNat / 64 + 1) ≤ s.cpu.valloc) (hb : (va.extractLsb' 10 4).toNat = b)
    (hch : s.chanAt (s.key (placeOf e.leaf e.bits va.toNat)) = chS) (hprev : chS.prev = some s.cpu.ctx)
    (hj : s.joinBank chS b = j) (hjc : j.chanAt (j.key (placeOf e.leaf e.bits va.toNat)) = ch.joined c b)
    (hq : (ch.bank b).queue = []) (hent : nbrdEntry j.cpu = nbrdEntry c) :
    unitNbrd d w s =
      let t := j.setV (d + BitVec.ofNat 5 w.progress) (resLanes (ch.bank b) (count.toNat % 64 + 32 * w.progress))
      if w.progress + 1 < count.toNat / 64 + 1 then .more { w with progress := w.progress + 1 } t else .done (t.setChannel ch) := by
  subst hva hw hb
  have hhigh : w.op1.extractLsb' 7 57 = 0 := (extractLsb'_high_eq_zero_iff w.op1 7 57 rfl).mpr hc
  have hcount : (w.op1.extractLsb' 6 1).toNat + 1 = w.op1.toNat / 64 + 1 := by
    rw [BitVec.extractLsb'_toNat, Nat.shiftRight_eq_div_pow]
    omega
  have hlow : (w.op1.extractLsb' 0 6).toNat = w.op1.toNat % 64 := by
    rw [BitVec.extractLsb'_toNat, Nat.shiftRight_zero]
  have htwo : (decide (w.op1.toNat / 64 + 1 = 2) && decide (s.cpu.valloc ≤ d.toNat + 1)) = false := by
    rw [Bool.and_eq_false_iff, decide_eq_false_iff_not, decide_eq_false_iff_not]
    omega
  have htr := ht.translateHome hm hg
  have hjv (v : VReg) (n : BitVec 5) :
      (j.setV n v).chanAt ((j.setV n v).key (placeOf e.leaf e.bits w.op0.toNat)) = ch.joined c (w.op0.extractLsb' 10 4).toNat := hjc
  have hqueue := hent ▸ joined_queue ch c (w.op0.extractLsb' 10 4).toNat
  simp only [unitNbrd, hhigh, ne_eq, not_true_eq_false, if_false, hcount, htwo, Bool.false_eq_true, Nat.not_le.mpr hn, htr, hch, h6,
    hprev, decide_true, Bool.true_or, Bool.not_true, Bool.or_self, hj, hjc, hqueue, List.head?_cons, Option.any_some,
    readOf_nbrdEntry, hlow, hjv, List.drop_one, List.tail_cons, resLanes_joined, joined_left hq]

/-- The last unit of an nbrd that has its place at the bank. -/
theorem drive_nbrd_last {va count : Word} {b : Nat} {ch : Channel} {c : Cell} (ht : TlbHead e s) (hm : Maps e s va)
    (hg : Grants e .read) (h6 : e.leaf.getLsbD 6 = true) (hp : s.cpu.pending = [w]) (hs : s.cpu.poison = []) (hva : w.op0 = va)
    (hw : w.op1 = count) (hc : count.toNat < 128) (hlast : w.progress = count.toNat / 64)
    (hv : d.toNat + (count.toNat / 64 + 1) ≤ s.cpu.valloc) (hb : (va.extractLsb' 10 4).toNat = b) (hprev : ch.prev = some s.cpu.ctx)
    (hjoined : s.chanAt (s.key (placeOf e.leaf e.bits va.toNat)) = ch.joined c b) (hq : (ch.bank b).queue = [])
    (hent : nbrdEntry s.cpu = nbrdEntry c) (n : Nat) :
    s.drive (unitNbrd d) 0 (n + 1) = ((s.setV (d + BitVec.ofNat 5 w.progress)
      (resLanes (ch.bank b) (count.toNat % 64 + 32 * w.progress))).setChannel ch).upd (fun c => { c with pending := [] }) := by
  have hu := unitNbrd_turn ht hm hg h6 hva hw hc (by omega) hv hb hjoined hprev (joinBank_joined (hent ▸ joined_queue ..)) hjoined hq hent
  rw [if_neg (by omega)] at hu
  exact drive_done hp hs hu hp hs n

/-- A register written and the command kept do not touch the channels. -/
theorem chanAt_setV_upd (n : BitVec 5) (x : VReg) (pending : List Cmd) (p : Place) :
    (((s.setV n x).upd (fun c => { c with pending := pending })).chanAt
      (((s.setV n x).upd (fun c => { c with pending := pending })).key p)) = s.chanAt (s.key p) := rfl

/-- The channels with one written back. -/
def channelsWith (l : List Channel) (c : Channel) : List Channel :=
  c :: l.filter (fun d => !(d.stack == c.stack && d.number == c.number))

theorem setChannel_channels (c : Channel) : (s.setChannel c).channels = channelsWith s.channels c := rfl

/-- The cell after an nbrd: the registers, and the channel used and left again. -/
def State.nbrdPast (s : State) (ch chJ : Channel) (v : Vector VReg 32) : State :=
  { s with
    cpu := { s.cpu.flowTo (s.cpu.pc + 4) with v := v, vseq := s.cpu.vseq + 1 }
    channels := channelsWith (channelsWith s.channels chJ) ch }

/-- A channel used and left as it stood. -/
theorem channel_nbrdPast {ch chJ : Channel} {v : Vector VReg 32} (hch : s.channel (ch.stack, ch.number) = some ch)
    (hJ : (chJ.stack, chJ.number) = (ch.stack, ch.number)) (p : Nat × Nat) : (s.nbrdPast ch chJ v).channel p = s.channel p := by
  have hchannels : (s.nbrdPast ch chJ v).channels = channelsWith (channelsWith s.channels chJ) ch := rfl
  rw [State.channel, hchannels, ← setChannel_channels chJ, ← setChannel_channels ch]
  show ((s.setChannel chJ).setChannel ch).channel p = s.channel p
  rw [channel_setChannel, channel_setChannel, hJ]
  split
  · rename_i hp
    rw [hp, hch]
  · rfl

/-- The registers that an nbrd of 32 or 64 results gives. -/
def nbrdCell (c : Cell) (d : BitVec 5) (k : Bank) (count : Nat) : Cell :=
  let first := c.wv (d + BitVec.ofNat 5 0) (resLanes k (count % 64 + 32 * 0))
  if count / 64 = 0 then first else first.wv (d + BitVec.ofNat 5 1) (resLanes k (count % 64 + 32 * 1))

/-- The cell once the command of an nbrd is done. -/
theorem nbrdPast_of_forwarded {w : Issue} (hw : w.also = id) (hq : w.queue = .load) (hi : s.cpu.pending = []) (ch chJ : Channel)
    (v : Vector VReg 32) :
    { s.forwarded w with
      cpu := { (s.forwarded w).cpu with v := v, pending := [] }
      channels := channelsWith (channelsWith (s.forwarded w).channels chJ) ch } = s.nbrdPast ch chJ v := by
  rw [forwarded_of_also_id hw, hq, State.nbrdPast, Cell.flowTo_frame, ← hi]
  rfl

/-- A register and a channel written, and the commands. -/
theorem registerAndChannel (c : Channel) (n : BitVec 5) (x : VReg) (pending : List Cmd) :
    ((s.setChannel c).setV n x).upd (fun c => { c with pending := pending }) = { s with
      cpu := { s.cpu with v := (s.cpu.wv n x).v, pending := pending }
      channels := channelsWith s.channels c } := rfl

theorem setV_setChannel (c : Channel) (n : BitVec 5) (x : VReg) : (s.setV n x).setChannel c = (s.setChannel c).setV n x := rfl

/-- What two units of nbrd make of a state, and the end of the command. -/
theorem nbrd_two_units (ch chJ : Channel) (m n : BitVec 5) (x y : VReg) (pending : List Cmd) :
    (((((s.setChannel chJ).setV m x).upd (fun c => { c with pending := pending })).setV n y).setChannel ch).upd
      (fun c => { c with pending := [] }) = { s with
        cpu := { s.cpu with v := ((s.cpu.wv m x).wv n y).v, pending := [] }
        channels := channelsWith (channelsWith s.channels chJ) ch } := by
  rw [registerAndChannel, setV_setChannel, registerAndChannel]
  rfl

theorem wv_v_congr {c c' : Cell} (h : c'.v = c.v) (m n : BitVec 5) (x y : VReg) : ((c'.wv m x).wv n y).v = ((c.wv m x).wv n y).v := by
  show (c'.v.set m.toNat x m.isLt).set n.toNat y n.isLt = (c.v.set m.toNat x m.isLt).set n.toNat y n.isLt
  rw [h]

theorem exec_nbrd_reads {b a : BitVec 5} {r : BitVec 3} (h : VectorReady r [d] s) (ht : TlbHead e s) (hm : Maps e s (s.x a))
    (hg : Grants e .read) (h6 : e.leaf.getLsbD 6 = true) (hc : (s.x b).toNat < 128)
    (hv : d.toNat + ((s.x b).toNat / 64 + 1) ≤ s.cpu.valloc) {ch : Channel}
    (hch : s.chanAt (s.key (placeOf e.leaf e.bits (s.x a).toNat)) = ch) (hprev : ch.prev = some s.cpu.ctx)
    (hq : (ch.bank ((s.x a).extractLsb' 10 4).toNat).queue = []) :
    ∃ chJ : Channel, (chJ.stack, chJ.number) = (ch.stack, ch.number) ∧ exec (.nbrd b a d r) s =
      .next (s.nbrdPast ch chJ (nbrdCell s.cpu d (ch.bank ((s.x a).extractLsb' 10 4).toNat) (s.x b).toNat).v) := by
  set w := memoryIssue (.nbrd b a d r) .load (s.x a) (s.x b) with hw
  set bk := ((s.x a).extractLsb' 10 4).toNat with hbk
  set u := s.forwarded w with hu
  have hsees : SeesAs s u := forwarded_seesAs (w := w) rfl s
  have heager : u.cpu.eager = true := by rw [hu, forwarded_of_also_id rfl, Cell.flowTo_frame]; exact h.eager
  have hvalloc : u.cpu.valloc = s.cpu.valloc := by rw [hu, forwarded_of_also_id rfl, Cell.flowTo_frame]
  have hpoison : u.cpu.poison = [] := (forwarded_poison s w).trans h.sound
  have hi : exec (.nbrd b a d r) s = enqueue w (unitNbrd d) s := by
    rw [exec_nbrd, execNbrd, h.forwardWord (ns := [d.toNat]) h.allotted]
    rfl
  have hnum : (ch.stack, ch.number) = chanOf s.fuses (s.key (placeOf e.leaf e.bits (s.x a).toNat)) := by
    rw [← hch] at hprev ⊢
    exact (channel_of_prev hprev).2
  have hjoined : (u.setChannel (ch.joined u.cpu bk)).chanAt (u.key (placeOf e.leaf e.bits (s.x a).toNat)) = ch.joined u.cpu bk :=
    chanAt_joined hnum ..
  have hfirst := unitNbrd_turn (w := w.cmd s.cpu) (d := d) (hsees.tlbHead ht) (hsees.maps hm) hg h6 rfl rfl hc (Nat.succ_pos _)
    (hvalloc ▸ hv) rfl hch (hsees.ctx ▸ hprev) (joinBank_empty heager hq) hjoined hq rfl
  refine ⟨ch.joined u.cpu bk, joined_place .., ?_⟩
  rw [hi, enqueue_idle h.idle h.eager (w := w) rfl (Nat.zero_le _), unitFuel]
  by_cases hone : (s.x b).toNat / 64 = 0
  · rw [if_neg (by show ¬ 0 + 1 < (s.x b).toNat / 64 + 1; omega)] at hfirst
    rw [drive_done (forwarded_pending s w) hpoison hfirst rfl hpoison, nbrdCell, if_pos hone,
      ← nbrdPast_of_forwarded (w := w) rfl rfl h.idle, Cell.wv, ← forwarded_v s w]
    rfl
  · have hmore : unitNbrd d (w.cmd s.cpu) u = .more { w.cmd s.cpu with progress := 0 + 1 }
        ((u.setChannel (ch.joined u.cpu bk)).setV (d + BitVec.ofNat 5 0) (resLanes (ch.bank bk) ((s.x b).toNat % 64 + 32 * 0))) :=
      hfirst.trans (if_pos (by show 0 + 1 < (s.x b).toNat / 64 + 1; omega))
    rw [drive_more (forwarded_pending s w) hpoison hmore rfl hpoison]
    generalize hw1 : ({ w.cmd s.cpu with progress := 0 + 1, started := true } : Cmd) = w1
    generalize hu1 : (((u.setChannel (ch.joined u.cpu bk)).setV (d + BitVec.ofNat 5 0)
      (resLanes (ch.bank bk) ((s.x b).toNat % 64 + 32 * 0))).upd (fun c => { c with pending := [w1] })) = u1
    have hsees1 : SeesAs s u1 := by rw [← hu1]; exact ⟨hsees.tlb, hsees.ctx, rfl, rfl⟩
    have hjoined1 : u1.chanAt (u1.key (placeOf e.leaf e.bits (s.x a).toNat)) = ch.joined u.cpu bk := by
      rw [← hu1, chanAt_setV_upd]
      exact hjoined
    have hp1 : w1.progress = 1 := by rw [← hw1]
    have hlast := drive_nbrd_last (s := u1) (w := w1) (d := d) (hsees1.tlbHead ht) (hsees1.maps hm) hg h6 (by rw [← hu1]; rfl)
      (by rw [← hu1]; exact hpoison) (by rw [← hw1]; rfl) (by rw [← hw1]; rfl) hc (by omega)
      (by rw [← hu1]; exact hvalloc ▸ hv) rfl (hsees1.ctx ▸ hprev) hjoined1 hq (by rw [← hu1]; rfl) 1098
    rw [hlast, hp1, nbrdCell, if_neg hone, ← hu1, nbrd_two_units, wv_v_congr (forwarded_v s w), hu,
      nbrdPast_of_forwarded (w := w) rfl rfl h.idle]

/-- The registers of an nbrd hold the results, lane by lane, and the others stay. -/
theorem nbrdCell_rv {c : Cell} {k : Bank} {count : Nat} (hc : count < 128) (hd : d.toNat + (count / 64 + 1) ≤ 32) :
    (∀ q i, q < count / 64 + 1 → i < 32 →
      lane ((nbrdCell c d k count).rv (d + BitVec.ofNat 5 q)) i = k.res[mod64 (count % 64 + 32 * q + i)]) ∧
    (∀ x : BitVec 5, x.toNat < d.toNat ∨ d.toNat + (count / 64 + 1) ≤ x.toNat → (nbrdCell c d k count).rv x = c.rv x) := by
  have hlanes (q i : Nat) (hi : i < 32) : lane (resLanes k (count % 64 + 32 * q)) i = k.res[mod64 (count % 64 + 32 * q + i)] :=
    lane_ofLanes _ _ hi
  have hnat (q : Nat) (hq : q < count / 64 + 1) : (d + BitVec.ofNat 5 q).toNat = d.toNat + q := by
    rw [BitVec.toNat_add, BitVec.toNat_ofNat]
    omega
  have hapart (x : BitVec 5) (hx : x.toNat < d.toNat ∨ d.toNat + (count / 64 + 1) ≤ x.toNat) (q : Nat) (hq : q < count / 64 + 1) :
      x ≠ d + BitVec.ofNat 5 q := by
    rintro rfl
    rw [hnat q hq] at hx
    omega
  by_cases hone : count / 64 = 0
  · rw [nbrdCell, if_pos hone]
    refine ⟨fun q i hq hi => ?_, fun x hx => by rw [Cell.rv_wv, if_neg (hapart x hx 0 (by omega))]⟩
    obtain rfl : q = 0 := by omega
    rw [Cell.rv_wv, if_pos rfl, hlanes 0 i hi]
  · rw [nbrdCell, if_neg hone]
    refine ⟨fun q i hq hi => ?_, fun x hx => by
      rw [Cell.rv_wv, if_neg (hapart x hx 1 (by omega)), Cell.rv_wv, if_neg (hapart x hx 0 (by omega))]⟩
    rw [Cell.rv_wv, Cell.rv_wv]
    obtain rfl | rfl : q = 0 ∨ q = 1 := by omega
    · have hne : d + BitVec.ofNat 5 0 ≠ d + BitVec.ofNat 5 1 := fun he => by
        have := congrArg BitVec.toNat he
        rw [hnat 0 (by omega), hnat 1 (by omega)] at this
        omega
      rw [if_neg hne, if_pos rfl, hlanes 0 i hi]
    · rw [if_pos rfl, hlanes 1 i hi]

end

end Sys2Proof.Machine

namespace Sys2Proof.Machine

/-! ### The statement -/

/-- A lane that a line of the L1 holds. -/
theorem cachedLane_of_held {s : State} {p : Place} {x : L1Line} (h : findLine s.cpu.l1 p.line = some x) :
    cachedLane s p = lineBytes x.data (p.pa % 128) 4 := by
  rw [cachedLane, h]
  rfl

/-- A lane stored: in the L1, or at home. -/
theorem laneStored_effect {s u : State} {p : Place} {v : Lane} {seq : Nat} (hm : u.MemOk) (hf : LaneFrame s u) :
    if p.pol = 0 then u.laneStored seq p v = u.l1Store p 4 v.toNat seq
    else Stored u (s.key p) 4 v.toNat (u.laneStored seq p v) ∧ HomeFrame u (u.laneStored seq p v) ∧
      (u.laneStored seq p v).cpu = u.cpu := by
  split
  · rename_i hp
    exact if_pos hp
  · rename_i hp
    rw [State.laneStored, if_neg hp, ← hf.key]
    exact ⟨homePut_stored hm .., homePut_homeFrame .., homePut_cpu ..⟩

theorem lanesStored_inactive {s : State} {seq : Nat} {f : Nat → Option Place} {x : Nat → Lane} {n : Nat} (h : f n = none) :
    s.lanesStored seq f x (n + 1) = s.lanesStored seq f x n := by rw [State.lanesStored, h]

theorem lanesStored_active {s : State} {seq : Nat} {f : Nat → Option Place} {x : Nat → Lane} {n : Nat} {p : Place} (h : f n = some p) :
    s.lanesStored seq f x (n + 1) = (s.lanesStored seq f x n).laneStored seq p (x n) := by rw [State.lanesStored, h]

section
variable {base va : Word} {offs old : VReg} {val : Word → Nat} {i : Nat}

theorem indexedLaneValue_inactive (h : indexedAddr base offs i = none) : indexedLaneValue base offs old val i = lane old i := by
  rw [indexedLaneValue, h]

theorem indexedLaneValue_active (h : indexedAddr base offs i = some va) :
    indexedLaneValue base offs old val i = BitVec.ofNat 32 (val va) := by
  rw [indexedLaneValue, h]

theorem indexedPlace_of_addr {e : TlbEntry} {o : Option Word} (h : indexedAddr base offs i = o) :
    indexedPlace e base offs i = o.map (fun va => placeOf e.leaf e.bits va.toNat) := by
  rw [indexedPlace, h]

end

/-- Settles O45: the head of the TLB serves every lane without effect; a load reads its lanes at home or in the L1, a store writes
them one after another, and an nbrd finds its bank's queue empty and takes its turn at once. -/
theorem vectorMemoryMovesLanes : Obligations.VectorMemoryMovesLanes := by
  unfold Obligations.VectorMemoryMovesLanes
  intro b a d r e s hhead honce hfits hctx hstill hmem place key covered fine sound step line offset indexed all loads held hits stores
  have ht : TlbHead e s := ⟨hhead, honce, hfits, hctx, hstill⟩
  have hfine : ∀ va, fine va → va.toNat % 4 = 0 ∧ Maps e s va ∧ s.homeWaits (key va) = false :=
    fun va ⟨halign, ⟨h1, h2, h3, h4, h5, h6⟩, hwait⟩ => ⟨halign, ⟨h1, h2, h3, h4, h5, h6⟩, hwait⟩
  have homeLanes (hp : leafPol e.leaf ≠ 0) {f : Nat → Option Word} (hall : all f sound) (i : Nat) (va : Word) (hi : i < 32)
      (hva : f i = some va) :
      va.toNat % 4 = 0 ∧ Maps e s va ∧ ServedAs s (fun l => l = s.cpu.l1) (place va) (homeLane s (place va)) := by
    obtain ⟨hf, hs⟩ := hall i va hi hva
    obtain ⟨halign, hm, hwait⟩ := hfine va hf
    exact ⟨halign, hm, servedAs_home hp hm.hbm hwait hs⟩
  have cachedLanes (hp : leafPol e.leaf = 0) {f : Nat → Option Word} (hall : all f (fun va => ∃ x, held x va)) (i : Nat) (va : Word)
      (hi : i < 32) (hva : f i = some va) :
      va.toNat % 4 = 0 ∧ Maps e s va ∧ ServedAs s (SameLines s.cpu.l1) (place va) (cachedLane s (place va)) := by
    obtain ⟨hf, x, hx, hserves⟩ := hall i va hi hva
    obtain ⟨halign, hm, -⟩ := hfine va hf
    exact ⟨halign, hm, servedAs_inL1 hp hm.hbm hx hserves⟩
  refine ⟨fun hread => ?loads, fun hwrite hdirty => ?stores⟩
  case loads =>
    have hg : Grants e .read := ⟨hread, nofun⟩
    refine ⟨fun hr h0 h1 => ⟨fun hp hall => ?_, fun hp hb hall => ?_⟩, fun hr => ⟨fun hp hall => ?_, fun hp hb hall => ?_⟩,
      fun hr hc h6 h128 hv h32 hprev hq => ?_⟩
    · have hlanes := homeLanes hp hall
      exact (exec_vldm_loads (L := fun l => l = s.cpu.l1) (val := fun va => homeLane s (place va)) hr ht hg rfl (.inl hp) h0 h1
        (fun i hi => (hlanes i _ hi rfl).2.1) fun i hi => (hlanes i _ hi rfl).2.2).home
    · have hlanes := cachedLanes hp hall
      obtain ⟨t, he, hl, hw⟩ := (exec_vldm_loads (val := fun va => cachedLane s (place va)) hr ht hg (fun _ => rfl) (.inr hb) h0 h1
        (fun i hi => (hlanes i _ hi rfl).2.1) fun i hi => (hlanes i _ hi rfl).2.2).inL1 hb
      exact ⟨t, he, hl, _, hw, fun i hi x hx => congrArg _ (cachedLane_of_held hx.1)⟩
    · exact (exec_vldx_loads (L := fun l => l = s.cpu.l1) (val := fun va => homeLane s (place va)) hr ht hg rfl (.inl hp)
        (homeLanes hp hall)).home
    · obtain ⟨t, he, hl, hw⟩ := (exec_vldx_loads (val := fun va => cachedLane s (place va)) hr ht hg (fun _ => rfl) (.inr hb)
        (cachedLanes hp hall)).inL1 hb
      refine ⟨t, he, hl, _, hw, fun i hi => ?_⟩
      cases hva : indexed i with
      | none => exact indexedLaneValue_inactive hva
      | some va => exact fun x hx => (indexedLaneValue_active hva).trans (congrArg _ (cachedLane_of_held hx.1))
    · have hm : Maps e s (s.x a) := by
        obtain ⟨hspace, hbase, htop, hpage, hhbm, honline⟩ := hc
        exact ⟨hspace, hbase, htop, hpage, hhbm, honline⟩
      obtain ⟨hfound, hnum⟩ := channel_of_prev hprev
      rw [← hnum] at hfound
      obtain ⟨chJ, hJ, he⟩ := exec_nbrd_reads hr ht hm hg h6 h128 hv rfl hprev hq
      obtain ⟨hresults, hothers⟩ := nbrdCell_rv (c := s.cpu) (d := d) (k := (s.chanAt (key (s.x a))).bank _) h128 h32
      exact ⟨_, he, hresults, hothers, channel_nbrdPast hfound hJ, rfl⟩
  case stores =>
    have hg : Grants e .write := ⟨hwrite, fun _ => hdirty⟩
    refine ⟨fun hr h0 h1 hall => ?_, fun hr hall => ?_⟩
    · have hlanes (i : Nat) (hi : i < 32) := hfine _ (hall i _ hi rfl).1
      refine ⟨_, exec_vstm_stores hr ht hg h0 h1 (fun i hi => (hlanes i hi).2.1) (fun i hi => (hlanes i hi).2.2),
        s.lanesStored s.cpu.vseq _ _, rfl, fun i hi => ?_, rfl⟩
      exact laneStored_effect (p := place (laneAddr (s.x a) (strideOf b (s.x b)) i)) (v := lane (s.cpu.rv d) i) (seq := s.cpu.vseq)
        (lanesStored_memOk hmem ..) (lanesStored_frame ..)
    · refine ⟨_, exec_vstx_stores hr ht hg fun i va hi hva => hfine va (hall i va hi hva).1,
        s.lanesStored s.cpu.vseq _ _, rfl, fun i hi => ?_, rfl⟩
      cases hva : indexed i with
      | none => exact lanesStored_inactive (indexedPlace_of_addr hva)
      | some va =>
        rw [lanesStored_active (indexedPlace_of_addr hva)]
        exact laneStored_effect (p := place va) (v := lane (s.cpu.rv d) i) (seq := s.cpu.vseq) (lanesStored_memOk hmem ..)
          (lanesStored_frame ..)

end Sys2Proof.Machine

/-! # Proofs: what a format-V word may write (R95, R132, R134) -/

namespace Sys2Proof.Machine

/-- The vector register `p` becomes `x`, then `q` becomes `y`, and nothing else changes but the count of vector commands and the step
to the next word; where `p` is `q` the last write stands. -/
structure WroteTwoV (s : State) (p : BitVec 5) (x : VReg) (q : BitVec 5) (y : VReg) (t : State) : Prop where
  last : t.cpu.rv q = y
  first : p ≠ q → t.cpu.rv p = x
  others : ∀ n, n ≠ q → n ≠ p → t.cpu.rv n = s.cpu.rv n
  memory : SameMemory s t
  rest : t = { s with cpu := { s.cpu.flowTo (s.cpu.pc + 4) with v := t.cpu.v, vseq := s.cpu.vseq + 1 } }

/-- Writing a scalar register poisons no register. -/
theorem Cell.wx_poison_of_sound {c : Cell} (h : c.poison = []) (d : BitVec 5) (v : Word) : (c.wx d v).poison = [] := by
  rw [Cell.wx_poison]
  split
  · exact h
  · rw [Cell.heal, h]; rfl

section
variable {r : BitVec 3} {vs : List (BitVec 5)} {s : State} (h : VectorReady r vs s) {vs' : List (BitVec 5)} (hs : ∀ v ∈ vs', v ∈ vs)
  {i : Instr} {regs : List (BitVec 5)} {op0 op1 aux : Word} {unit : Cmd → State → EngOut}
  (hi : exec i s = vectorWord i r vs' regs op0 op1 aux unit s)
include h hs hi

/-- A word whose one unit writes registers completes at once. -/
theorem VectorReady.exec_vectorWord_done {t : State}
    (hu : unit ((vectorIssue i op0 op1 aux).cmd s.cpu) (s.forwarded (vectorIssue i op0 op1 aux)) = .done t)
    (hp : t.cpu.pending = [(vectorIssue i op0 op1 aux).cmd s.cpu]) (hsound : t.cpu.poison = []) :
    exec i s = .next (t.upd (fun c => { c with pending := [] })) := by
  have henqueue : exec i s = enqueue (vectorIssue i op0 op1 aux) unit s := by
    rw [hi, vectorWord, h.forwardWord (h.notAllotted_of_subset hs)]; rfl
  exact h.exec_done henqueue rfl (Nat.zero_le _) hu hp hsound

/-- A word that writes two vector registers. -/
theorem VectorReady.completes_setV_setV {p q : BitVec 5} {x y : VReg}
    (hu : unit ((vectorIssue i op0 op1 aux).cmd s.cpu) (s.forwarded (vectorIssue i op0 op1 aux)) =
      .done (((s.forwarded (vectorIssue i op0 op1 aux)).setV p x).setV q y)) :
    Completes i s (WroteTwoV s p x q y) := by
  set w := vectorIssue i op0 op1 aux with hw
  have hrun := h.exec_vectorWord_done hs hi hu (forwarded_pending s w) ((forwarded_poison s w).trans h.sound)
  have hv (n : BitVec 5) : ((((s.forwarded w).setV p x).setV q y).upd (fun c => { c with pending := [] })).cpu.rv n =
      if n = q then y else if n = p then x else s.cpu.rv n := by
    refine (Cell.rv_wv ((s.forwarded w).setV p x).cpu q n y).trans ?_
    rw [State.setV_cpu, Cell.rv_wv, forwarded_rv]
  refine ⟨_, hrun, by rw [hv, if_pos rfl], fun hne => by rw [hv, if_neg hne, if_pos rfl],
    fun n hq hp => by rw [hv, if_neg hq, if_neg hp], ⟨fun _ => rfl, fun _ => rfl⟩, ?_⟩
  rw [forwarded_of_also_id rfl, ← Cell.flowTo_idle h.idle]
  rfl

/-- A word that writes a mask register. -/
theorem VectorReady.completes_wk {d : BitVec 5} {x : BitVec 32} {f : Nat → Bool}
    (hu : unit ((vectorIssue i op0 op1 aux).cmd s.cpu) (s.forwarded (vectorIssue i op0 op1 aux)) =
      .done ((s.forwarded (vectorIssue i op0 op1 aux)).upd (fun c => c.wk d.toNat x)))
    (hf : ∀ n, n < 32 → x.getLsbD n = f n) : Completes i s (WroteK s d f) := by
  set w := vectorIssue i op0 op1 aux with hw
  have hrun := h.exec_vectorWord_done hs hi hu (forwarded_pending s w) ((forwarded_poison s w).trans h.sound)
  have hk (n : Nat) : (((s.forwarded w).upd (fun c => c.wk d.toNat x)).upd (fun c => { c with pending := [] })).cpu.rk n =
      if n % 8 = d.toNat % 8 then x else s.cpu.rk n := by
    refine (Cell.rk_wk (s.forwarded w).cpu d.toNat n x).trans ?_
    rw [forwarded_rk]
  refine ⟨_, hrun, fun n hn => by rw [hk, if_pos rfl, hf n hn], fun n hn hne => ?_, ⟨fun _ => rfl, fun _ => rfl⟩, ?_⟩
  · rw [hk, if_neg (by rwa [Nat.mod_eq_of_lt hn])]
  · rw [forwarded_of_also_id rfl, ← Cell.flowTo_idle h.idle]
    rfl

/-- A word that writes a scalar register. -/
theorem VectorReady.completes_setX {d : BitVec 5} {x : Word}
    (hu : unit ((vectorIssue i op0 op1 aux).cmd s.cpu) (s.forwarded (vectorIssue i op0 op1 aux)) =
      .done ((s.forwarded (vectorIssue i op0 op1 aux)).setX d x)) : Completes i s (VectorWroteX s d x) := by
  set w := vectorIssue i op0 op1 aux with hw
  have hsound : (s.forwarded w).cpu.poison = [] := (forwarded_poison s w).trans h.sound
  have hpoison := Cell.wx_poison_of_sound hsound d x
  have hrun := h.exec_vectorWord_done hs hi hu (Cell.wx_pending ..) hpoison
  have hread (n : BitVec 5) : (((s.forwarded w).setX d x).upd (fun c => { c with pending := [] })).x n =
      if n = 0 then 0 else if n = d then x else s.x n := by
    refine (Cell.rx_wx (s.forwarded w).cpu d n x).trans ?_
    have hflow : s.cpu.flowTo (s.cpu.pc + 4) = _ := s.cpu.flowTo_frame _
    rw [forwarded_of_also_id rfl, hflow]
    rfl
  refine ⟨_, hrun, ?_, fun n hn => ?_, ⟨fun _ => rfl, fun _ => rfl⟩, ?_⟩
  · rw [hread]; by_cases hd : d = 0 <;> simp [hd]
  · rw [hread, if_neg hn]
    split
    · next h0 => rw [h0]; rfl
    · rfl
  · have hcell : (s.forwarded w).cpu.wx d x =
        { (s.forwarded w).cpu with x := ((s.forwarded w).cpu.wx d x).x, hx := ((s.forwarded w).cpu.wx d x).hx } := by
      conv_lhs => rw [Cell.wx_eq, hpoison, ← hsound]
    rw [State.setX, hcell, forwarded_of_also_id rfl, ← Cell.flowTo_idle h.idle]
    rfl

end

end Sys2Proof.Machine

/-! # Proofs: lane-wise words of two or three vector registers (O25) and vsel (O29) -/

namespace Sys2Proof.Machine

section
variable {r : BitVec 3} {vs : List (BitVec 5)} {s : State} (h : VectorReady r vs s) {vs' : List (BitVec 5)} (hs : ∀ v ∈ vs', v ∈ vs)
  {i : Instr} {regs : List (BitVec 5)} {op0 op1 aux : Word} {unit : Cmd → State → EngOut}
  (hi : exec i s = vectorWord i r vs' regs op0 op1 aux unit s)
include h hs hi

/-- A word whose one unit computes each lane from the lanes of two registers. -/
theorem VectorReady.completes_lanes2 {m : BitVec 1} {b a d : BitVec 5} {f : Lane → Lane → Lane} {g : Nat → Lane}
    (hu : unit ((vectorIssue i op0 op1 aux).cmd s.cpu) (s.forwarded (vectorIssue i op0 op1 aux)) =
      lanes2 m b a d f (s.forwarded (vectorIssue i op0 op1 aux)))
    (hf : ∀ n, n < 32 → f (lane (s.cpu.rv a) n) (lane (s.cpu.rv b) n) = g n) :
    Completes i s (WroteV s d (s.cpu.masked m d g)) :=
  h.completes_writeLanes hs hi hu fun n hn => by rw [forwarded_rv, forwarded_rv, hf n hn]

/-- A word whose one unit gives every lane of a register, whatever the mask. -/
theorem VectorReady.completes_setV_ofLanes {d : BitVec 5} {f g : Nat → Lane}
    (hu : unit ((vectorIssue i op0 op1 aux).cmd s.cpu) (s.forwarded (vectorIssue i op0 op1 aux)) =
      .done ((s.forwarded (vectorIssue i op0 op1 aux)).setV d (ofLanes f)))
    (hf : ∀ n, n < 32 → f n = g n) : Completes i s (WroteV s d g) := by
  obtain ⟨t, ht, -, hl, ho, hm, hr⟩ := h.completes_setV hs hi hu
  exact ⟨t, ht, fun n hn => by rw [hl n hn, lane_ofLanes _ _ hn, hf n hn], ho, hm, hr⟩

end

/-- Settles O29: its one unit gives each lane by bit of k0, and no mask is asked. -/
theorem vselChoosesUnderK0 : Obligations.VselChoosesUnderK0 := by
  unfold Obligations.VselChoosesUnderK0
  intro b a d r s h
  exact h.completes_setV_ofLanes (fun _ hv => hv) (exec_vsel ..) rfl fun n _ => by simp only [forwarded_rk, forwarded_rv]

/-! ### Lane results (R135) -/

/-- Bits 63 to 32 of a 64-bit word are those of its quotient by 2^32. -/
theorem extractLsb'_high_ofInt (p : Int) : (BitVec.ofInt 64 p).extractLsb' 32 32 = BitVec.ofInt 32 (p / 2 ^ 32) := by
  apply BitVec.eq_of_toNat_eq
  rw [BitVec.extractLsb'_toNat, BitVec.toNat_ofInt, BitVec.toNat_ofInt, Nat.shiftRight_eq_div_pow]
  omega

theorem mulHigh_eq_extractLsb' (x y : Lane) : mulHigh x y = (x.signExtend 64 * y.signExtend 64).extractLsb' 32 32 := by
  rw [BitVec.signExtend, BitVec.signExtend, ← BitVec.ofInt_mul, extractLsb'_high_ofInt, mulHigh]

/-- The low five bits of a shift amount. -/
theorem toNat_shiftAmount (y : Lane) : (y.setWidth 5).toNat = y.toNat % 32 := BitVec.toNat_setWidth ..

/-- Settles O25: each word is one unit that computes each lane from the lanes of its registers. -/
theorem laneOperationsWriteTheirLanes : Obligations.LaneOperationsWriteTheirLanes := by
  unfold Obligations.LaneOperationsWriteTheirLanes
  intro m b a d r s h x y z gives
  have binary {i : Instr} {unit : Cmd → State → EngOut} (f : Lane → Lane → Lane) {g : Nat → Lane}
      (hi : exec i s = vectorWord i r [a, b, d] [] 0 0 0 unit s)
      (hu : ∀ w u, unit w u = lanes2 m b a d f u) (hf : ∀ n, f (x n) (y n) = g n) : gives i g :=
    h.completes_lanes2 (fun _ hv => hv) hi (hu _ _) fun n _ => hf n
  have ternary {i : Instr} {unit : Cmd → State → EngOut} {f g : Nat → Lane}
      (hi : exec i s = vectorWord i r [a, b, d] [] 0 0 0 unit s)
      (hu : unit ((vectorIssue i 0 0 0).cmd s.cpu) (s.forwarded (vectorIssue i 0 0 0)) =
        writeLanes m d f (s.forwarded (vectorIssue i 0 0 0)))
      (hf : ∀ n, n < 32 → f n = g n) : gives i g :=
    h.completes_writeLanes (fun _ hv => hv) hi hu hf
  refine ⟨binary _ (exec_vadd ..) (fun _ _ => rfl) fun _ => rfl, binary _ (exec_vsub ..) (fun _ _ => rfl) fun _ => rfl,
    binary _ (exec_vmul ..) (fun _ _ => rfl) fun _ => rfl,
    binary _ (exec_vmulh ..) (fun _ _ => rfl) fun n => mulHigh_eq_extractLsb' (x n) (y n),
    binary _ (exec_vand ..) (fun _ _ => rfl) fun _ => rfl, binary _ (exec_vor ..) (fun _ _ => rfl) fun _ => rfl,
    binary _ (exec_vxor ..) (fun _ _ => rfl) fun _ => rfl,
    binary _ (exec_vsll ..) (fun _ _ => rfl) fun n => congrArg (x n <<< ·) (toNat_shiftAmount (y n)).symm,
    binary _ (exec_vsrl ..) (fun _ _ => rfl) fun n => congrArg (x n >>> ·) (toNat_shiftAmount (y n)).symm,
    binary _ (exec_vsra ..) (fun _ _ => rfl) fun n => congrArg (x n).sshiftRight (toNat_shiftAmount (y n)).symm,
    binary _ (exec_vmin ..) (fun _ _ => rfl) fun n => ?vmin, binary _ (exec_vmax ..) (fun _ _ => rfl) fun n => ?vmax,
    binary _ (exec_vminu ..) (fun _ _ => rfl) fun n => ?vminu, binary _ (exec_vmaxu ..) (fun _ _ => rfl) fun n => ?vmaxu,
    binary _ (exec_vfadd ..) (fun _ _ => rfl) fun _ => rfl, binary _ (exec_vfsub ..) (fun _ _ => rfl) fun _ => rfl,
    binary _ (exec_vfmul ..) (fun _ _ => rfl) fun _ => rfl, ternary (exec_vfma ..) rfl fun n _ => ?vfma,
    binary _ (exec_vfmin ..) (fun _ _ => rfl) fun _ => rfl, binary _ (exec_vfmax ..) (fun _ _ => rfl) fun _ => rfl,
    ternary (exec_vsmaxfin ..) rfl fun n _ => ?vsmaxfin, ternary (exec_vperm ..) rfl fun n _ => ?vperm⟩
  case vmin | vmax => simp only [BitVec.slt_eq_decide, decide_eq_true_eq]
  case vminu | vmaxu => simp only [BitVec.ult_eq_decide, decide_eq_true_eq]
  case vfma | vsmaxfin | vperm => simp only [forwarded_rv, x, y, z]

end Sys2Proof.Machine

/-! # Proofs: lane reductions (O28) -/

namespace Sys2Proof.Machine

/-- The elements of one level of the tree, from those of the level below (R142). -/
def pairLevel (f : Lane → Lane → Lane) (g : Nat → Lane) (i : Nat) : Lane := f (g (2 * i)) (g (2 * i + 1))

/-- One level of the tree on `n` pairs of elements. -/
theorem pairUp_map_range (f : Lane → Lane → Lane) (g : Nat → Lane) (n : Nat) :
    pairUp f ((List.range (2 * n)).map g) = (List.range n).map (pairLevel f g) := by
  induction n generalizing g with
  | zero => rfl
  | succ n ih =>
    have hsplit : (List.range (2 * (n + 1))).map g = g 0 :: g 1 :: (List.range (2 * n)).map (fun i => g (i + 2)) := by
      rw [Nat.mul_succ, List.range_succ_eq_map, List.range_succ_eq_map]
      simp [Function.comp_def]
    rw [hsplit, pairUp, ih, List.range_succ_eq_map, List.map_cons, List.map_map]
    rfl

/-- The fixed tree over 32 lanes is five levels of pairs (R142). -/
theorem reduceTree_range (f : Lane → Lane → Lane) (x : Nat → Lane) :
    reduceTree f ((List.range 32).map x) =
      pairLevel f (pairLevel f (pairLevel f (pairLevel f (pairLevel f x)))) 0 := by
  unfold reduceTree
  rw [pairUp_map_range f _ 16, pairUp_map_range f _ 8, pairUp_map_range f _ 4, pairUp_map_range f _ 2, pairUp_map_range f _ 1]
  rfl

/-- Settles O28: each word is one unit that writes the result of the tree, whose levels pair neighbours. -/
theorem reductionsUseTheFixedTree : Obligations.ReductionsUseTheFixedTree := by
  unfold Obligations.ReductionsUseTheFixedTree
  intro m a d r s h reduces
  have tree {i : Instr} {unit : Cmd → State → EngOut} (identity : Lane) (f g : Lane → Lane → Lane) (hfg : f = g)
      (hi : exec i s = vectorWord i r [a, d] [] 0 0 0 unit s) (hu : ∀ w u, unit w u = reduceLanes m a d identity f u) :
      reduces i identity g := by
    subst hfg
    show Completes i s (WroteV s d fun n => if n = 0 then pairLevel f (pairLevel f (pairLevel f (pairLevel f (pairLevel f fun i =>
      if m = 0 ∨ (s.cpu.rk 0).getLsbD i = true then lane (s.cpu.rv a) i else identity)))) 0 else 0)
    refine h.completes_setV_ofLanes (fun _ hv => hv) hi (hu _ _) fun n _ => ?_
    rw [reduceTree_range]
    simp only [forwarded_rv, laneOn, forwarded_rk, Bool.or_eq_true, decide_eq_true_eq]
  have smax : (fun x y : Lane => if x.toInt < y.toInt then y else x) = fun x y => if x.slt y then y else x := by
    simp only [BitVec.slt_eq_decide, decide_eq_true_eq]
  have smin : (fun x y : Lane => if y.toInt < x.toInt then y else x) = fun x y => if y.slt x then y else x := by
    simp only [BitVec.slt_eq_decide, decide_eq_true_eq]
  have hsum := tree 0x80000000#32 fadd _ rfl (exec_vredsum ..) fun _ _ => rfl
  have hsumInt := tree 0 (fun x y => x + y) _ rfl (exec_vredsumI32 ..) fun _ _ => rfl
  have hmax := tree 0xFF800000#32 fmaxNaN _ rfl (exec_vredmax ..) fun _ _ => rfl
  have hmin := tree 0x7F800000#32 fminNaN _ rfl (exec_vredmin ..) fun _ _ => rfl
  have hmaxInt := tree 0x80000000#32 _ _ smax (exec_vredmaxI32 ..) fun _ _ => rfl
  have hminInt := tree 0x7FFFFFFF#32 _ _ smin (exec_vredminI32 ..) fun _ _ => rfl
  exact ⟨hsum, hsumInt, hmax, hmin, hmaxInt, hminInt⟩

end Sys2Proof.Machine

/-! # Proofs: comparisons, mask words, counts and moves to scalar registers (O27) -/

namespace Sys2Proof.Machine

/-! ### Bits of a mask (R138, R139) -/

theorem packBits_getLsbD (f : Nat → Bool) {n : Nat} (hn : n ≤ 32) (i : Nat) :
    (packBits f n).getLsbD i = (decide (i < n) && f i) := by
  induction n with
  | zero => simp [packBits]
  | succ n ih =>
    have hbit : (if f n then 1#32 <<< n else 0).getLsbD i = (decide (i = n) && f n) := by
      cases f n
      · simp
      · simp only [if_true, BitVec.getLsbD_shiftLeft, BitVec.getLsbD_one]
        grind
    rw [packBits, BitVec.getLsbD_or, ih (by omega), hbit]
    by_cases h : i = n
    · simp [h]
    · simp [h, show i < n + 1 ↔ i < n by omega]

theorem popCount_eq_length_filter (k : BitVec 32) (n : Nat) :
    popCount k n = ((List.range n).filter (fun i => k.getLsbD i)).length := by
  induction n with
  | zero => rfl
  | succ n ih =>
    rw [popCount, ih, List.range_succ, List.filter_append, List.length_append, List.filter_singleton]
    cases k.getLsbD n <;> rfl

theorem firstSet_of_lowest {k : BitVec 32} {n : Nat} (hn : n < 32) (hk : k.getLsbD n = true)
    (hlow : ∀ j, j < n → k.getLsbD j = false) : firstSet k = n := by
  have hfind : (List.range 32).find? (fun i => k.getLsbD i) = some n :=
    List.find?_range_eq_some.mpr ⟨hk, List.mem_range.mpr hn, fun j hj => by rw [hlow j hj]; rfl⟩
  rw [firstSet, hfind, Option.getD_some]

theorem firstSet_zero : firstSet 0 = 32 := by
  have hfind : (List.range 32).find? (fun i => (0 : BitVec 32).getLsbD i) = none :=
    List.find?_range_eq_none.mpr fun i _ => by simp
  rw [firstSet, hfind, Option.getD_none]

/-- Settles O27: each word is one unit that writes a mask register by bits, or a scalar register. -/
theorem maskAndScalarWords : Obligations.MaskAndScalarWords := by
  unfold Obligations.MaskAndScalarWords
  constructor
  · intro m b a d k r s h x y p q gives compares
    have compare {i : Instr} {unit : Cmd → State → EngOut} (f g : Lane → Lane → Bool) (hfg : f = g)
        (hi : exec i s = vectorWord i r [a, b] [] 0 0 0 unit s) (hu : ∀ w u, unit w u = compare2 m b a d f u) :
        compares i g := by
      subst hfg
      refine h.completes_wk (fun _ hv => hv) hi (hu _ _) fun n hn => ?_
      simp only [packBits_getLsbD _ (Nat.le_refl 32), hn, decide_true, Bool.true_and, forwarded_rv, forwarded_rk, laneOn,
        Bool.or_eq_true, decide_eq_true_eq, x, y]
    have combine {i : Instr} {unit : Cmd → State → EngOut} (f : BitVec 32 → BitVec 32 → BitVec 32) {g : Nat → Bool}
        (hi : exec i s = vectorWord i r [] [] 0 0 0 unit s) (hu : ∀ w u, unit w u = maskOp k a d f u)
        (hf : ∀ n, n < 32 → (f (s.cpu.rk a.toNat) (s.cpu.rk k.toNat)).getLsbD n = g n) : gives i g := by
      refine h.completes_wk (List.forall_mem_nil _) hi (hu _ _) fun n hn => ?_
      rw [forwarded_rk, forwarded_rk, hf n hn]
    have head (n : Nat) (hn : n < 32) : (packBits (fun i => i == 0 || x i != x (i - 1)) 32).getLsbD n =
        (n == 0 || x n != x (n - 1)) := by
      rw [packBits_getLsbD _ (Nat.le_refl 32), decide_eq_true hn, Bool.true_and]
    refine ⟨compare _ _ rfl (exec_vcmpeq ..) fun _ _ => rfl, compare _ _ rfl (exec_vcmplt ..) fun _ _ => rfl,
      compare _ _ rfl (exec_vcmpltu ..) fun _ _ => rfl, compare _ _ rfl (exec_vfcmpeq ..) fun _ _ => rfl,
      compare _ _ rfl (exec_vfcmplt ..) fun _ _ => rfl,
      combine _ (exec_kopAnd ..) (fun _ _ => rfl) fun n _ => BitVec.getLsbD_and,
      combine _ (exec_kopOr ..) (fun _ _ => rfl) fun n _ => BitVec.getLsbD_or,
      combine _ (exec_kopXor ..) (fun _ _ => rfl) fun n _ => BitVec.getLsbD_xor,
      combine _ (exec_kopAndn ..) (fun _ _ => rfl) fun n hn => ?andn,
      h.completes_wk (x := packBits (fun i => i == 0 || x i != x (i - 1)) 32) (by simp) (exec_vseghead ..) ?seghead head⟩
    case andn => rw [BitVec.getLsbD_and, BitVec.getLsbD_not, decide_eq_true hn, Bool.true_and]
    case seghead => simp only [unitVseghead, forwarded_rv, x]
  · intro i5 a d r s h k
    have scalar {i : Instr} {unit : Cmd → State → EngOut} {vs : List (BitVec 5)} (x : Word) (hs : ∀ v ∈ vs, v ∈ [a])
        (hi : exec i s = vectorWord i r vs [d] 0 0 0 unit s)
        (hu : ∀ w, unit w (s.forwarded (vectorIssue i 0 0 0)) = .done ((s.forwarded (vectorIssue i 0 0 0)).setX d x)) :
        Completes i s (VectorWroteX s d x) := h.completes_setX hs hi (hu _)
    have first {n : Nat} (hn : firstSet k = n) : Completes (.kpopFirst a d r) s (VectorWroteX s d (BitVec.ofNat 64 n)) :=
      scalar _ (List.forall_mem_nil _) (exec_kpopFirst ..) fun _ => by rw [unitKpopFirst, forwarded_rk, hn]
    refine ⟨scalar _ (List.forall_mem_nil _) (exec_kpop ..) fun _ => ?_, fun n hn hk hlow => first (firstSet_of_lowest hn hk hlow),
      fun hk => first (hk ▸ firstSet_zero), scalar _ (fun _ hv => hv) (exec_vmvvx ..) fun _ => ?_⟩
    · rw [unitKpop, forwarded_rk, popCount_eq_length_filter]
    · rw [unitVmvvx, forwarded_rv]; rfl

end Sys2Proof.Machine

/-! # Proofs: words that name a register outside the allotment (O32) -/

namespace Sys2Proof.Machine

/-- A register that is not allotted and is reported is the lowest such register of the list (R130). -/
theorem Cell.notAllotted_lowest {c : Cell} {ns : List Nat} {m : Nat} (h : c.notAllotted ns = some m) :
    m ∈ ns ∧ c.valloc ≤ m ∧ ∀ k ∈ ns, c.valloc ≤ k → m ≤ k := by
  unfold Cell.notAllotted at h
  induction ns using List.reverseRecOn generalizing m with
  | nil => nomatch h
  | append_singleton ns n ih =>
    simp only [List.foldl_append, List.foldl_cons, List.foldl_nil] at h
    simp only [List.mem_append, List.mem_singleton]
    split at h
    · next hn =>
      obtain ⟨hm, hv, hlow⟩ := ih h
      exact ⟨.inl hm, hv, by grind⟩
    · next hn =>
      split at h
      · next hnone =>
        have hall := (c.notAllotted_eq_none_iff ns).mp hnone
        grind
      · next m' hsome =>
        obtain ⟨hm, hv, hlow⟩ := ih hsome
        grind

theorem Cell.notAllotted_eq_some {c : Cell} {ns : List Nat} {n : Nat} (hn : n ∈ ns) (hv : c.valloc ≤ n)
    (hlow : ∀ k ∈ ns, c.valloc ≤ k → n ≤ k) : c.notAllotted ns = some n := by
  cases h : c.notAllotted ns with
  | none => exact absurd ((c.notAllotted_eq_none_iff ns).mp h n hn) (Nat.not_lt.mpr hv)
  | some m =>
    obtain ⟨hm, hvm, hlowm⟩ := c.notAllotted_lowest h
    exact congrArg some (Nat.le_antisymm (hlowm n hn hv) (hlow m hm hvm))

/-- The instruction is a word bound for an engine that names the vector registers `ns`: its allotment check comes before every
other. -/
def NamesVRegs (r : BitVec 3) (ns : List Nat) (s : State) (i : Instr) : Prop :=
  ∃ regs q body, exec i s = forwardWord r ns regs q s body

theorem names_vectorWord {i : Instr} {r : BitVec 3} {vs regs : List (BitVec 5)} {op0 op1 aux : Word} {unit : Cmd → State → EngOut}
    {s : State} (h : exec i s = vectorWord i r vs regs op0 op1 aux unit s) : NamesVRegs r (vs.map BitVec.toNat) s i := ⟨_, _, _, h⟩

theorem names_issueSlot {i : Instr} {ns : List Nat} {regs : List (BitVec 5)} {op0 : Word} {o : BitVec 4} {r : BitVec 3}
    {unit : Cmd → State → EngOut} {s : State} (h : exec i s = issueSlot i ns regs op0 o r unit s) : NamesVRegs r ns s i :=
  ⟨_, _, _, h⟩

theorem names_redaWord {i : Instr} {op : Nat} {b a : BitVec 5} {r : BitVec 3} {s : State} (h : exec i s = redaWord i op b a r s) :
    NamesVRegs r [b.toNat] s i := ⟨_, _, _, h⟩

theorem NamesVRegs.traps {r : BitVec 3} {ns : List Nat} {s : State} {i : Instr} (hi : NamesVRegs r ns s i)
    (hr : s.cpu.executes r = true) {n : Nat} (hn : s.cpu.notAllotted ns = some n) : exec i s = .next (s.trap 2 (BitVec.ofNat 64 n)) := by
  obtain ⟨regs, q, body, hi⟩ := hi
  exact hi.trans (forwardWord_notAllotted hr hn regs q body)

/-- Settles O32: each word is bound for an engine, and its allotment check finds the lowest register before anything else is asked. -/
theorem unallottedRegistersTrap : Obligations.UnallottedRegistersTrap := by
  unfold Obligations.UnallottedRegistersTrap
  intro m c o b a d r s hr traps rows
  have all {vs : List Nat} {is : List Instr} (his : ∀ i ∈ is, NamesVRegs r vs s i) : traps vs is :=
    fun _ hn hv hlow i hi => (his i hi).traps hr (Cell.notAllotted_eq_some hn hv hlow)
  refine ⟨all ?three, all ?two, all ?compared, all ?source, all ?destination, all ?indexed, all ?run⟩ <;>
    simp only [List.forall_mem_cons]
  case three =>
    exact ⟨names_vectorWord (exec_vadd ..), names_vectorWord (exec_vsub ..), names_vectorWord (exec_vmul ..),
      names_vectorWord (exec_vmulh ..), names_vectorWord (exec_vand ..), names_vectorWord (exec_vor ..),
      names_vectorWord (exec_vxor ..), names_vectorWord (exec_vsll ..), names_vectorWord (exec_vsrl ..),
      names_vectorWord (exec_vsra ..), names_vectorWord (exec_vmin ..), names_vectorWord (exec_vmax ..),
      names_vectorWord (exec_vminu ..), names_vectorWord (exec_vmaxu ..), names_vectorWord (exec_vfadd ..),
      names_vectorWord (exec_vfsub ..), names_vectorWord (exec_vfmul ..), names_vectorWord (exec_vfma ..),
      names_vectorWord (exec_vfmin ..), names_vectorWord (exec_vfmax ..), names_vectorWord (exec_vsel ..),
      names_vectorWord (exec_vperm ..), names_vectorWord (exec_vsmaxacc ..), names_vectorWord (exec_vsmaxfin ..),
      names_vectorWord (exec_vsortkv ..), List.forall_mem_nil _⟩
  case two =>
    exact ⟨names_vectorWord (exec_vaddx ..), names_vectorWord (exec_vfaddx ..), names_vectorWord (exec_vfmulx ..),
      names_vectorWord (exec_vfexp2 ..), names_vectorWord (exec_vfrcp ..), names_vectorWord (exec_vfrsqrt ..),
      names_vectorWord (exec_vflog2 ..), names_vectorWord (exec_vcvtn ..), names_vectorWord (exec_vcvtw ..),
      names_vectorWord (exec_vcvtif ..), names_vectorWord (exec_vcvtfi ..), names_vectorWord (exec_vredsum ..),
      names_vectorWord (exec_vredsumI32 ..), names_vectorWord (exec_vredmax ..), names_vectorWord (exec_vredmaxI32 ..),
      names_vectorWord (exec_vredmin ..), names_vectorWord (exec_vredminI32 ..), names_vectorWord (exec_vslide ..),
      names_vectorWord (exec_vcompress ..), names_vectorWord (exec_vsppack ..), List.forall_mem_nil _⟩
  case compared =>
    exact ⟨names_vectorWord (exec_vcmpeq ..), names_vectorWord (exec_vcmplt ..), names_vectorWord (exec_vcmpltu ..),
      names_vectorWord (exec_vfcmpeq ..), names_vectorWord (exec_vfcmplt ..), List.forall_mem_nil _⟩
  case source =>
    exact ⟨names_vectorWord (exec_vmvvx ..), names_vectorWord (exec_vseghead ..), names_issueSlot (exec_accscl ..),
      names_redaWord (exec_redaF32add ..), names_redaWord (exec_redaBf16add ..), names_redaWord (exec_redaI32add ..),
      names_redaWord (exec_redaF32max ..), names_redaWord (exec_redaF32min ..), names_redaWord (exec_redaI32max ..),
      names_redaWord (exec_redaI32min ..), List.forall_mem_nil _⟩
  case destination =>
    exact ⟨names_vectorWord (exec_viota ..), names_vectorWord (exec_vmvxv ..), ⟨_, _, _, exec_vlds ..⟩, ⟨_, _, _, exec_vsts ..⟩,
      ⟨_, _, _, exec_vldm ..⟩, ⟨_, _, _, exec_vstm ..⟩, ⟨_, _, _, exec_nbrd ..⟩, List.forall_mem_nil _⟩
  case indexed => exact ⟨⟨_, _, _, exec_vldx ..⟩, ⟨_, _, _, exec_vstx ..⟩, List.forall_mem_nil _⟩
  case run =>
    exact ⟨names_issueSlot (exec_accrd ..), names_issueSlot (exec_accrdCol ..), names_issueSlot (exec_accwr ..),
      names_issueSlot (exec_accwrCol ..), List.forall_mem_nil _⟩

end Sys2Proof.Machine

/-! # Proofs: vcompress, vsortkv and vsppack (O30) -/

namespace Sys2Proof.Machine

/-! ### Compressing (R143) -/

/-- A lane that is let through stands, among those let through, behind the ones below it. -/
theorem filter_range_getElem?_of_on {on : Nat → Bool} {i n : Nat} (hi : i < n) (h : on i = true) :
    ((List.range n).filter on)[((List.range i).filter on).length]? = some i := by
  obtain ⟨k, rfl⟩ := Nat.exists_eq_add_of_lt hi
  rw [Nat.add_assoc, List.range_add, Nat.add_comm k 1, List.range_add]
  simp [h]

/-! ### Sorting (R148) -/

/-- The stable ascending order of lane numbers by their keys. -/
def KeyOrder (key : Nat → Int) (i j : Nat) : Prop := key i < key j ∨ (key i = key j ∧ i < j)

theorem insertByKey_perm (key : Nat → Int) (i : Nat) (l : List Nat) : (insertByKey key i l).Perm (i :: l) := by
  induction l with
  | nil => exact .refl _
  | cons j l ih =>
    rw [insertByKey]
    split
    · exact .refl _
    · exact (ih.cons j).trans (.swap i j l)

/-- A lane above all of a sorted list is put behind the lanes with its key. -/
theorem insertByKey_pairwise {key : Nat → Int} {i : Nat} {l : List Nat} (hlow : ∀ j ∈ l, j < i) (hl : l.Pairwise (KeyOrder key)) :
    (insertByKey key i l).Pairwise (KeyOrder key) := by
  induction l with
  | nil => exact List.pairwise_singleton ..
  | cons j l ih =>
    obtain ⟨hj, hl'⟩ := List.pairwise_cons.mp hl
    rw [insertByKey]
    split
    · next hlt =>
      refine List.pairwise_cons.mpr ⟨fun k hk => ?_, hl⟩
      obtain rfl | hk := List.mem_cons.mp hk
      · exact .inl hlt
      · have hjk := hj k hk
        unfold KeyOrder at *
        omega
    · next hge =>
      refine List.pairwise_cons.mpr ⟨fun k hk => ?_, ih (fun k hk => hlow k (.tail _ hk)) hl'⟩
      obtain rfl | hk := List.mem_cons.mp ((insertByKey_perm key i l).subset hk)
      · have hji := hlow j (.head _)
        unfold KeyOrder
        omega
      · exact hj k hk

theorem sortOrder_perm (key : Nat → Int) (n : Nat) : (sortOrder key n).Perm (List.range n) := by
  induction n with
  | zero => exact .refl _
  | succ n ih =>
    rw [List.range_succ]
    exact (insertByKey_perm key n _).trans ((ih.cons n).trans (List.perm_append_singleton n _).symm)

theorem sortOrder_pairwise (key : Nat → Int) (n : Nat) : (sortOrder key n).Pairwise (KeyOrder key) := by
  induction n with
  | zero => exact .nil
  | succ n ih => exact insertByKey_pairwise (fun j hj => List.mem_range.mp ((sortOrder_perm key n).subset hj)) ih

/-! ### The lanes that vsppack keeps (R150) -/

/-- Lane `j` goes before lane `i`: it has the larger rank, or the same rank and the lower number. -/
def outranks (rank : Nat → Nat) (j i : Nat) : Bool := rank i < rank j || (rank j = rank i && j < i)

theorem outranks_iff {rank : Nat → Nat} {j i : Nat} : outranks rank j i = true ↔ rank i < rank j ∨ (rank j = rank i ∧ j < i) := by
  simp only [outranks, Bool.or_eq_true, Bool.and_eq_true, decide_eq_true_eq]

/-- The number of the lanes below `n` that go before lane `i`. -/
def packPlace (rank : Nat → Nat) (n i : Nat) : Nat := ((Finset.range n).filter (fun j => outranks rank j i)).card

theorem length_filter_range (p : Nat → Bool) (n : Nat) :
    ((List.range n).filter p).length = ((Finset.range n).filter (fun i => p i)).card := by
  rw [← Nat.count_eq_card_filter_range, Nat.count, List.countP_eq_length_filter]
  simp only [Bool.decide_eq_true]

theorem keptLane_eq (v : VReg) (n i : Nat) : keptLane v n i = decide (packPlace (fun i => packRank (lane v i)) 24 i < n) := by
  rw [packPlace, ← length_filter_range]; rfl

/-- Of two lanes the one that goes before the other has the lower place. -/
theorem packPlace_lt_of_outranks {rank : Nat → Nat} {n j i : Nat} (hj : j < n) (h : outranks rank j i = true) :
    packPlace rank n j < packPlace rank n i := by
  refine Finset.card_lt_card (Finset.ssubset_iff_of_subset ?_ |>.mpr ⟨j, ?_, ?_⟩)
  · intro k hk
    simp only [Finset.mem_filter, Finset.mem_range, outranks_iff] at hk h ⊢
    omega
  · exact Finset.mem_filter.mpr ⟨Finset.mem_range.mpr hj, h⟩
  · simp [outranks_iff]

theorem outranks_total {rank : Nat → Nat} {j i : Nat} (h : j ≠ i) : outranks rank j i = true ∨ outranks rank i j = true := by
  simp only [outranks_iff]
  omega

/-- Lane `i` goes before lane `j` where its place is the lower one. -/
theorem outranks_of_packPlace_lt {rank : Nat → Nat} {n i j : Nat} (hj : j < n) (h : packPlace rank n i < packPlace rank n j) :
    outranks rank i j = true := by
  have hne : i ≠ j := by rintro rfl; exact absurd h (Nat.lt_irrefl _)
  exact (outranks_total hne).resolve_right fun hji => absurd (packPlace_lt_of_outranks hj hji) (Nat.lt_asymm h)

theorem packPlace_injOn (rank : Nat → Nat) (n : Nat) : Set.InjOn (packPlace rank n) (Finset.range n) := by
  intro i hi j hj he
  rw [Finset.mem_coe, Finset.mem_range] at hi hj
  by_contra hne
  obtain hij | hji := outranks_total (rank := rank) hne
  · exact absurd (packPlace_lt_of_outranks hi hij) (by rw [he]; exact Nat.lt_irrefl _)
  · exact absurd (packPlace_lt_of_outranks hj hji) (by rw [he]; exact Nat.lt_irrefl _)

/-- The places of the lanes below `n` are the numbers below `n`, each once. -/
theorem image_packPlace (rank : Nat → Nat) (n : Nat) : (Finset.range n).image (packPlace rank n) = Finset.range n := by
  refine Finset.eq_of_subset_of_card_le (fun p hp => ?_) ?_
  · obtain ⟨i, hi, rfl⟩ := Finset.mem_image.mp hp
    have hself : packPlace rank n i < (Finset.range n).card :=
      Finset.card_lt_card (Finset.filter_ssubset.mpr ⟨i, hi, by simp [outranks_iff]⟩)
    rwa [Finset.card_range, ← Finset.mem_range] at hself
  · rw [Finset.card_image_of_injOn (packPlace_injOn rank n)]

/-- Exactly `k` lanes have fewer than `k` lanes before them. -/
theorem card_packPlace_lt (rank : Nat → Nat) {n k : Nat} (h : k ≤ n) :
    ((Finset.range n).filter (fun i => packPlace rank n i < k)).card = k := by
  have himage : ((Finset.range n).filter (fun i => packPlace rank n i < k)).image (packPlace rank n) =
      (Finset.range n).filter (· < k) := by
    rw [← Finset.filter_image (p := (· < k)), image_packPlace]
  rw [← Finset.card_image_of_injOn ((packPlace_injOn rank n).mono (Finset.coe_subset.mpr (Finset.filter_subset ..))), himage]
  have hlow : (Finset.range n).filter (· < k) = Finset.range k := by
    ext i
    simp only [Finset.mem_filter, Finset.mem_range]
    omega
  rw [hlow, Finset.card_range]

/-- The lanes that vsppack keeps, in lane order. -/
def keptLanes (v : VReg) (n : Nat) : List Nat := (List.range 24).filter (keptLane v n)

theorem keptLanes_length (v : VReg) {n : Nat} (h : n ≤ 24) : (keptLanes v n).length = n := by
  simp only [keptLanes, length_filter_range, keptLane_eq, decide_eq_true_eq, card_packPlace_lt _ h]

theorem keptLanes_ascending (v : VReg) (n : Nat) : (keptLanes v n).Pairwise (fun i j => i < j) :=
  List.pairwise_lt_range.filter _

theorem mem_keptLanes {v : VReg} {n i : Nat} :
    i ∈ keptLanes v n ↔ i < 24 ∧ packPlace (fun i => packRank (lane v i)) 24 i < n := by
  rw [keptLanes, List.mem_filter, List.mem_range, keptLane_eq, decide_eq_true_eq]

/-- A kept lane goes before every lane that is not kept. -/
theorem keptLanes_largest {v : VReg} {n i j : Nat} (hi : i ∈ keptLanes v n) (hj : j < 24) (hout : j ∉ keptLanes v n) :
    packRank (lane v j) < packRank (lane v i) ∨ (packRank (lane v j) = packRank (lane v i) ∧ i < j) := by
  obtain ⟨-, hplace⟩ := mem_keptLanes.mp hi
  have hlate : n ≤ packPlace (fun i => packRank (lane v i)) 24 j := Nat.not_lt.mp fun h => hout (mem_keptLanes.mpr ⟨hj, h⟩)
  have hbefore := outranks_iff.mp (outranks_of_packPlace_lt hj (hplace.trans_le hlate))
  exact hbefore.imp_right fun ⟨he, hlt⟩ => ⟨he.symm, hlt⟩

/-! ### The positions as a bit string (R150) -/

theorem packPositions_eq_foldr (l : List Nat) : packPositions l = l.foldr (fun p m => p + 32 * m) 0 := by
  induction l with
  | nil => rfl
  | cons p l ih => rw [packPositions, ih, List.foldr_cons]

/-- A string of 5-bit fields. -/
theorem packPositions_lt {l : List Nat} (h : ∀ p ∈ l, p < 32) : packPositions l < 2 ^ (5 * l.length) := by
  induction l with
  | nil => exact Nat.one_pos
  | cons p l ih =>
    have hp := h p (.head _)
    have hl := ih fun q hq => h q (.tail _ hq)
    rw [packPositions, List.length_cons, Nat.mul_succ, Nat.pow_add]
    omega

/-- Three lanes that hold the words of a number hold the number (R150). -/
theorem extractLsb'_of_words {v : VReg} {x k n : Nat} (h : ∀ j, j < n → lane v (k + j) = BitVec.ofNat 32 (x / 2 ^ (32 * j))) :
    v.extractLsb' (32 * k) (32 * n) = BitVec.ofNat (32 * n) x := by
  apply BitVec.eq_of_getLsbD_eq
  intro i hi
  have hbit : (lane v (k + i / 32)).getLsbD (i % 32) = x.testBit i := by
    rw [h _ (by omega), BitVec.getLsbD_ofNat, Nat.testBit_div_two_pow, Nat.add_comm, Nat.div_add_mod,
      decide_eq_true (Nat.mod_lt _ (by decide)), Bool.true_and]
  rw [BitVec.getLsbD_extractLsb', BitVec.getLsbD_ofNat, ← hbit, lane, BitVec.getLsbD_extractLsb', Nat.mul_add, Nat.add_assoc,
    Nat.div_add_mod, decide_eq_true hi, decide_eq_true (Nat.mod_lt _ (by decide)), Bool.true_and, Bool.true_and]

/-! ### What the words write -/

/-- Lane `j` of what vcompress writes under the mask `on` (R143). -/
def compressedLane (on : Nat → Bool) (x : VReg) (j : Nat) : Lane :=
  let kept := (List.range 32).filter on
  if j < kept.length then lane x (kept.getD j 0) else 0

theorem completes_vcompress {a d : BitVec 5} {r : BitVec 3} {s : State} (h : VectorReady r [a, d] s) :
    Completes (.vcompress a d r) s (WroteV s d (compressedLane (fun i => (s.cpu.rk 0).getLsbD i) (s.cpu.rv a))) := by
  refine h.completes_setV_ofLanes (fun _ hv => hv) (exec_vcompress ..) ?_ fun _ _ => rfl
  simp only [unitVcompress, forwarded_rv, forwarded_rk]
  rfl

/-- A lane that is let through moves down to the place behind those below it. -/
theorem compressedLane_of_on {on : Nat → Bool} {i : Nat} (hi : i < 32) (h : on i = true) (x : VReg) :
    compressedLane on x ((List.range i).filter on).length = lane x i := by
  have hget := filter_range_getElem?_of_on hi h
  rw [compressedLane, if_pos (List.getElem?_eq_some_iff.mp hget).1, List.getD_eq_getElem?_getD, hget, Option.getD_some]

theorem completes_vsortkv {b a d : BitVec 5} {r : BitVec 3} {s : State} (h : VectorReady r [a, b, d] s) :
    let order := sortOrder (fun i => (lane (s.cpu.rv a) i).toInt) 32
    Completes (.vsortkv b a d r) s (WroteTwoV s b (ofLanes fun j => lane (s.cpu.rv b) (order.getD j 0))
      d (ofLanes fun j => lane (s.cpu.rv a) (order.getD j 0))) := by
  refine h.completes_setV_setV (fun _ hv => hv) (exec_vsortkv ..) ?_
  simp only [unitVsortkv, sortLanes, forwarded_rv]

/-- Lane `j` of what vsppack writes (R150). -/
def packedLane (x : VReg) (n j : Nat) : Lane :=
  if j < n then lane x ((keptLanes x n).getD j 0)
  else if 24 ≤ j && j < 27 then BitVec.ofNat 32 (packPositions (keptLanes x n) / 2 ^ (32 * (j - 24)))
  else 0

theorem completes_vsppack {n a d : BitVec 5} {r : BitVec 3} {s : State} (h : VectorReady r [a, d] s) :
    Completes (.vsppack n a d r) s (WroteV s d (packedLane (s.cpu.rv a) n.toNat)) := by
  refine h.completes_setV_ofLanes (fun _ hv => hv) (exec_vsppack ..) ?_ fun _ _ => rfl
  simp only [unitVsppack, sparsePack, forwarded_rv]
  rfl

theorem packedLane_value {j : Nat} (hj : j < 24) (x : VReg) (n : Nat) :
    packedLane x n j = if j < n then lane x ((keptLanes x n).getD j 0) else 0 := by
  simp only [packedLane, Nat.not_le.mpr hj, decide_false, Bool.false_and, Bool.false_eq_true, if_false]

theorem packedLane_position {n j : Nat} (hn : n ≤ 24) (hj : j < 3) (x : VReg) :
    packedLane x n (24 + j) = BitVec.ofNat 32 (packPositions (keptLanes x n) / 2 ^ (32 * j)) := by
  have hkept : ¬ 24 + j < n := by omega
  have hstring : (24 ≤ 24 + j && 24 + j < 27) = true := by
    simp only [Bool.and_eq_true, decide_eq_true_eq]; omega
  rw [packedLane, if_neg hkept, if_pos hstring, Nat.add_sub_cancel_left]

theorem packedLane_rest {n j : Nat} (hn : n ≤ 24) (hj : 27 ≤ j) (x : VReg) : packedLane x n j = 0 := by
  have hkept : ¬ j < n := by omega
  simp only [packedLane, hkept, Nat.not_lt.mpr hj, decide_false, Bool.and_false, Bool.false_eq_true, if_false]

/-- At most 16 positions fill 80 of the 96 bits. -/
theorem packPositions_keptLanes_lt (x : VReg) {n : Nat} (hn : n ≤ 16) : packPositions (keptLanes x n) < 2 ^ 96 := by
  refine (packPositions_lt fun p hp => (mem_keptLanes.mp hp).1.trans (by decide)).trans_le (Nat.pow_le_pow_right Nat.two_pos ?_)
  rw [keptLanes_length x (by omega)]
  omega

/-- Settles O30: a filter of the lanes, a stable insertion sort, and the lanes with the lowest places. -/
theorem lanesCompressSortAndPack : Obligations.LanesCompressSortAndPack := by
  unfold Obligations.LanesCompressSortAndPack
  refine ⟨?compress, ?sort, ?pack⟩
  case compress =>
    intro a d r s h on
    obtain ⟨t, ht, hl, ho, hm, hr⟩ := completes_vcompress h
    refine ⟨t, ht, ⟨fun _ _ => rfl, ho, hm, hr⟩, fun i hi hon => ?_, fun j hj hlen => ?_⟩
    · have hle : ((List.range i).filter on).length ≤ i := by
        simpa only [List.length_range] using List.length_filter_le on (List.range i)
      rw [hl _ (hle.trans_lt hi), compressedLane_of_on hi hon]
    · rw [hl j hj, compressedLane, if_neg (Nat.not_lt.mpr hlen)]
  case sort =>
    intro b a d r s h key
    obtain ⟨t, ht, hkeys, hvals, ho, hm, hr⟩ := completes_vsortkv h
    exact ⟨t, ht, sortOrder key 32, sortOrder_perm key 32, sortOrder_pairwise key 32,
      fun j hj => by rw [hkeys, lane_ofLanes _ _ hj], fun hne j hj => by rw [hvals hne, lane_ofLanes _ _ hj], ho, hm, hr⟩
  case pack =>
    intro n a d r s h hn rank
    obtain ⟨t, ht, hl, ho, hm, hr⟩ := completes_vsppack (n := n) h
    have hn' : n.toNat ≤ 24 := hn.trans (by decide)
    have hstring : (t.cpu.rv d).extractLsb' 768 96 = BitVec.ofNat 96 (packPositions (keptLanes (s.cpu.rv a) n.toNat)) :=
      extractLsb'_of_words (k := 24) (n := 3) fun j hj => (hl _ (by omega)).trans (packedLane_position hn' hj _)
    refine ⟨t, ht, keptLanes (s.cpu.rv a) n.toNat, keptLanes_length _ hn', keptLanes_ascending .., fun i hi => (mem_keptLanes.mp hi).1,
      fun i hi j hj hout => keptLanes_largest hi hj hout, fun j hj => (hl j (by omega)).trans (packedLane_value hj ..), ?_,
      fun j hj hj' => (hl j hj').trans (packedLane_rest hn' hj _), fun _ _ => rfl, ho, hm, hr⟩
    rw [hstring, BitVec.toNat_ofNat, Nat.mod_eq_of_lt (packPositions_keptLanes_lt _ hn), packPositions_eq_foldr]

end Sys2Proof.Machine

/-! # Proofs: a block of online softmax (O31) -/

namespace Sys2Proof.Machine

/-! ### The order of finite scores (R138) -/

/-- The magnitude of a code with its sign: codes of finite values are ordered as it is, −0 and +0 alike. -/
def signedMag (a : Lane) : Int := if a.getLsbD 31 then -((a.toNat % 2 ^ 31 : Nat) : Int) else (a.toNat % 2 ^ 31 : Nat)

theorem fltVal_iff (a b : Lane) : fltVal a b = true ↔ signedMag a < signedMag b := by
  unfold fltVal fkey signedMag
  cases a.getLsbD 31 <;> cases b.getLsbD 31 <;> simp <;> omega

theorem fltVal_eq_false_iff (a b : Lane) : fltVal a b = false ↔ signedMag b ≤ signedMag a := by
  rw [← Bool.not_eq_true, fltVal_iff, Int.not_lt]

/-- The value of an FP32 code by its sign and its magnitude (R73). -/
def signMagVal (neg : Bool) (mag : Nat) : FpVal :=
  if mag / 2 ^ 23 = 255 then (if mag % 2 ^ 23 = 0 then .inf neg else .nan)
  else if mag / 2 ^ 23 = 0 then .fin neg (mag % 2 ^ 23) (-149)
  else .fin neg (2 ^ 23 + mag % 2 ^ 23) ((mag / 2 ^ 23 : Nat) - 127 - 23)

theorem val32_eq_signMagVal (a : Lane) : val32 a = signMagVal (a.getLsbD 31) (a.toNat % 2 ^ 31) := by
  unfold val32 decodeCode signMagVal
  simp only [show fp32.s = true from rfl, show fp32.e = 8 from rfl, show fp32.m = 23 from rfl, show fp32.bias = 127 from rfl,
    show fp32.special = 0 from rfl, show fp32.nzero = false from rfl]
  simp [BitVec.getLsbD]

/-- The sign of a finite value turns with the sign of the code. -/
theorem signMagVal_fin {neg : Bool} {mag : Nat} {n : Bool} {m : Nat} {e : Int} (h : signMagVal neg mag = .fin n m e) (neg' : Bool) :
    n = neg ∧ signMagVal neg' mag = .fin neg' m e := by
  unfold signMagVal at h ⊢
  grind

/-- Finite codes that are neither below the other stand for values that differ at most in the sign of a zero. -/
theorem val32_of_signedMag_eq {a b : Lane} (h : signedMag a = signedMag b) {n : Bool} {m : Nat} {e : Int} (ha : val32 a = .fin n m e) :
    ∃ n', val32 b = .fin n' m e ∧ (n' = n ∨ m = 0) := by
  rw [val32_eq_signMagVal] at ha
  obtain ⟨hn, hb⟩ := signMagVal_fin ha (b.getLsbD 31)
  have hmag : a.toNat % 2 ^ 31 = b.toNat % 2 ^ 31 ∧ (a.getLsbD 31 = b.getLsbD 31 ∨ a.toNat % 2 ^ 31 = 0) := by
    unfold signedMag at h
    grind
  obtain ⟨hmag, hsign⟩ := hmag
  refine ⟨b.getLsbD 31, by rw [val32_eq_signMagVal, ← hmag, hb], hsign.imp (fun hs => by rw [hn, hs]) fun h0 => ?_⟩
  rw [h0] at ha
  exact (FpVal.fin.inj ha).2.1.symm

/-! ### The largest finite score (R146) -/

/-- The code stands for a finite value. -/
def IsFinite32 (x : Lane) : Prop := ∃ neg n e, val32 x = .fin neg n e

/-- On finite codes the order of R138 needs no NaN check. -/
theorem flt_of_finite {x y : Lane} (hx : IsFinite32 x) (hy : IsFinite32 y) : flt x y = fltVal x y := by
  obtain ⟨_, _, _, hx⟩ := hx
  obtain ⟨_, _, _, hy⟩ := hy
  have hnx : isNaN32 x = false := by rw [isNaN32, hx]; rfl
  have hny : isNaN32 y = false := by rw [isNaN32, hy]; rfl
  rw [flt, hnx, hny]; rfl

/-- The larger of two finite scores, the first where neither is below the other. -/
def largerScore (x y : Lane) : Lane := if fltVal x y then y else x

theorem signedMag_le_largerScore (x y : Lane) :
    signedMag x ≤ signedMag (largerScore x y) ∧ signedMag y ≤ signedMag (largerScore x y) := by
  unfold largerScore
  split
  · next h => exact ⟨Int.le_of_lt ((fltVal_iff ..).mp h), Int.le_refl _⟩
  · next h => exact ⟨Int.le_refl _, (fltVal_eq_false_iff ..).mp (Bool.eq_false_iff.mpr h)⟩

section
variable {x : Lane} {l : List Lane}

theorem maxFinite_cons_of_none (hx : IsFinite32 x) (hl : maxFinite l = none) : maxFinite (x :: l) = some x := by
  obtain ⟨n, m, e, hx⟩ := hx
  rw [maxFinite, hx, hl]

theorem maxFinite_cons_of_some (hx : IsFinite32 x) {y : Lane} (hl : maxFinite l = some y) :
    maxFinite (x :: l) = some (largerScore x y) := by
  obtain ⟨n, m, e, hx⟩ := hx
  rw [maxFinite, hx, hl, largerScore]
  exact (apply_ite some ..).symm

theorem maxFinite_cons_of_not (h : ¬ IsFinite32 x) : maxFinite (x :: l) = maxFinite l := by
  rw [maxFinite]
  split
  · next hx _ => exact absurd ⟨_, _, _, hx⟩ h
  · next hx _ => exact absurd ⟨_, _, _, hx⟩ h
  · rfl

end

theorem maxFinite_eq_none_iff {l : List Lane} : maxFinite l = none ↔ ∀ x ∈ l, ¬ IsFinite32 x := by
  induction l with
  | nil => simp [maxFinite]
  | cons x l ih =>
    by_cases hx : IsFinite32 x
    · cases hl : maxFinite l with
      | none => simp [maxFinite_cons_of_none hx hl, hx]
      | some y => simp [maxFinite_cons_of_some hx hl, hx]
    · simp [maxFinite_cons_of_not hx, hx, ih]

/-- The answer is a finite code of the list, and no finite code of the list is above it. -/
theorem maxFinite_largest {l : List Lane} {y : Lane} (h : maxFinite l = some y) :
    y ∈ l ∧ IsFinite32 y ∧ ∀ x ∈ l, IsFinite32 x → signedMag x ≤ signedMag y := by
  induction l generalizing y with
  | nil => nomatch h
  | cons x l ih =>
    simp only [List.mem_cons, forall_eq_or_imp]
    by_cases hx : IsFinite32 x
    · cases hl : maxFinite l with
      | none =>
        obtain rfl : x = y := Option.some.inj ((maxFinite_cons_of_none hx hl).symm.trans h)
        exact ⟨.inl rfl, hx, fun _ => Int.le_refl _, fun z hz hfin => absurd hfin (maxFinite_eq_none_iff.mp hl z hz)⟩
      | some w =>
        obtain ⟨hw, hwfin, hlargest⟩ := ih hl
        obtain rfl : largerScore x w = y := Option.some.inj ((maxFinite_cons_of_some hx hl).symm.trans h)
        obtain ⟨hxle, hwle⟩ := signedMag_le_largerScore x w
        have hor : largerScore x w = w ∨ largerScore x w = x := ite_eq_or_eq ..
        refine ⟨?_, ?_, fun _ => hxle, fun z hz hfin => (hlargest z hz hfin).trans hwle⟩
        · exact hor.symm.imp_right fun he => by rwa [he]
        · obtain he | he := hor <;> rw [he] <;> assumption
    · obtain ⟨hy, hyfin, hlargest⟩ := ih ((maxFinite_cons_of_not hx).symm.trans h)
      exact ⟨.inr hy, hyfin, fun hfin => absurd hfin hx, hlargest⟩

/-! ### The new reference exponent (R146) -/

/-- The ceiling of a score, kept within 2^30 either way. -/
def softCeiling (neg : Bool) (n : Nat) (e : Int) : Int := max (-2 ^ 30) (min (ceilVal neg n e) (2 ^ 30))

theorem clampInt_eq_max_min {lo hi : Int} (h : lo ≤ hi) (x : Int) : clampInt x lo hi = max lo (min x hi) := by
  unfold clampInt
  omega

theorem ceilVal_zero (neg neg' : Bool) (e : Int) : ceilVal neg 0 e = ceilVal neg' 0 e := by
  have hup : (2 ^ (-e).toNat - 1) / 2 ^ (-e).toNat = 0 := Nat.div_eq_of_lt (Nat.sub_one_lt (Nat.two_pow_pos _).ne')
  cases neg <;> cases neg' <;> simp [ceilVal, hup]

theorem exceeds_zero (neg neg' : Bool) (e k : Int) : exceeds neg 0 e k = exceeds neg' 0 e k := by
  cases neg <;> cases neg' <;> simp [exceeds]

/-- What a block whose largest finite score is `± n × 2 ^ e` makes of the reference, the sum and the rescale exponent. -/
theorem softRescale_of_fin {x : Lane} {neg : Bool} {n : Nat} {e : Int} (hx : val32 x = .fin neg n e) (ref : Int) (l : Lane) :
    softRescale ref l (some x) =
      if ref = -2 ^ 31 then (softCeiling neg n e, l, 0)
      else if exceeds neg n e (ref + 8) then (softCeiling neg n e, scaleVal l (ref - softCeiling neg n e), ref - softCeiling neg n e)
      else (ref, l, 0) := by
  have hc : clampInt (ceilVal neg n e) (-(2 ^ 30)) (2 ^ 30) = softCeiling neg n e := clampInt_eq_max_min (by decide) _
  simp only [softRescale, hx, hc]

/-- The answer does not depend on which of several largest scores is taken. -/
theorem softRescale_congr {x y : Lane} {neg : Bool} {n : Nat} {e : Int} (hx : val32 x = .fin neg n e) (h : signedMag x = signedMag y)
    (ref : Int) (l : Lane) : softRescale ref l (some y) = softRescale ref l (some x) := by
  obtain ⟨neg', hy, hsign⟩ := val32_of_signedMag_eq h hx
  rw [softRescale_of_fin hx, softRescale_of_fin hy]
  obtain rfl | rfl := hsign
  · rfl
  · simp only [softCeiling, ceilVal_zero neg' neg, exceeds_zero neg' neg]

/-! ### The step on a cell (R145, R146) -/

section
variable (m : BitVec 1) (b a d : BitVec 5) (c : Cell)

/-- Lane `i` is live: its position lies in the window and the mask lets it through. -/
def softLive (i : Nat) : Bool :=
  let pos := (lane (c.rv d) 4).toInt + (lane (c.rv b) i).toInt
  (lane (c.rv d) 2).toInt ≤ pos && pos < (lane (c.rv d) 3).toInt && laneOn m c i

/-- The new reference exponent, the sum before the probabilities and the rescale exponent. -/
def softAnswer : Int × Lane × Int :=
  softRescale (lane (c.rv d) 0).toInt (lane (c.rv d) 1)
    (maxFinite (((List.range 32).filter (softLive m b d c)).map (lane (c.rv a))))

/-- The probabilities. -/
def softProbs : VReg :=
  ofLanes (fun i => if softLive m b d c i then softProb (lane (c.rv a) i) (softAnswer m b a d c).1 else 0)

/-- Lane `i` of the new state; where the state's register held the scores it holds the probabilities by then. -/
def softStateLane (i : Nat) : Lane :=
  if i = 0 then BitVec.ofInt 32 (softAnswer m b a d c).1
  else if i = 1 then
    rn32 (sumVals (val32 (softAnswer m b a d c).2.1 :: (List.range 32).map (fun j => val32 (lane (softProbs m b a d c) j))))
  else if i = 5 then BitVec.ofInt 32 (softAnswer m b a d c).2.2
  else lane (if d = a then softProbs m b a d c else c.rv d) i

end

section
variable {m : BitVec 1} {b a d : BitVec 5} {s : State}

theorem softmaxStep_eq : softmaxStep m b a d s =
    .done ((s.setV a (softProbs m b a d s.cpu)).setV d (ofLanes (softStateLane m b a d s.cpu))) := by
  have hold : (s.setV a (softProbs m b a d s.cpu)).cpu.rv d = if d = a then softProbs m b a d s.cpu else s.cpu.rv d :=
    Cell.rv_wv ..
  unfold softStateLane
  rw [← hold]
  rfl

/-- vsmaxacc completes at once on an idle eager cell. -/
theorem completes_vsmaxacc {r : BitVec 3} (h : VectorReady r [a, b, d] s) :
    Completes (.vsmaxacc m b a d r) s
      (WroteTwoV s a (softProbs m b a d s.cpu) d (ofLanes (softStateLane m b a d s.cpu))) := by
  refine h.completes_setV_setV (fun _ hv => hv) (exec_vsmaxacc ..) ?_
  rw [unitVsmaxacc, softmaxStep_eq]
  unfold softStateLane softProbs softAnswer softLive
  simp only [forwarded_rv, forwarded_laneOn]

end

section
variable {m : BitVec 1} {b a d : BitVec 5} {c : Cell}

theorem softLive_iff {i : Nat} : softLive m b d c i = true ↔
    (m = 0 ∨ (c.rk 0).getLsbD i = true) ∧ (lane (c.rv d) 2).toInt ≤ (lane (c.rv d) 4).toInt + (lane (c.rv b) i).toInt ∧
      (lane (c.rv d) 4).toInt + (lane (c.rv b) i).toInt < (lane (c.rv d) 3).toInt := by
  simp only [softLive, laneOn, Bool.and_eq_true, Bool.or_eq_true, decide_eq_true_eq]
  exact and_comm

/-- The scores of the live lanes. -/
theorem mem_liveScores {x : Lane} : x ∈ ((List.range 32).filter (softLive m b d c)).map (lane (c.rv a)) ↔
    ∃ i, (i < 32 ∧ softLive m b d c i = true) ∧ lane (c.rv a) i = x := by
  simp only [List.mem_map, List.mem_filter, List.mem_range]

theorem softAnswer_of_none (h : ∀ i, i < 32 → softLive m b d c i = true → ¬ IsFinite32 (lane (c.rv a) i)) :
    softAnswer m b a d c = ((lane (c.rv d) 0).toInt, lane (c.rv d) 1, 0) := by
  have hnone := maxFinite_eq_none_iff.mpr fun x hx => by
    obtain ⟨i, ⟨hi, hlive⟩, rfl⟩ := mem_liveScores.mp hx
    exact h i hi hlive
  rw [softAnswer, hnone]
  rfl

/-- A live finite score that no other exceeds gives the answer. -/
theorem softAnswer_of_largest {i : Nat} (hi : i < 32) (hlive : softLive m b d c i = true) {neg : Bool} {n : Nat} {e : Int}
    (hx : val32 (lane (c.rv a) i) = .fin neg n e)
    (hlargest : ∀ j, j < 32 → softLive m b d c j = true → IsFinite32 (lane (c.rv a) j) →
      flt (lane (c.rv a) i) (lane (c.rv a) j) = false) :
    softAnswer m b a d c = softRescale (lane (c.rv d) 0).toInt (lane (c.rv d) 1) (some (lane (c.rv a) i)) := by
  have hfin : IsFinite32 (lane (c.rv a) i) := ⟨_, _, _, hx⟩
  have hmem := (mem_liveScores (a := a)).mpr ⟨i, ⟨hi, hlive⟩, rfl⟩
  rw [softAnswer]
  cases hbest : maxFinite (((List.range 32).filter (softLive m b d c)).map (lane (c.rv a))) with
  | none => exact absurd hfin (maxFinite_eq_none_iff.mp hbest _ hmem)
  | some y =>
    obtain ⟨hy, hyfin, hle⟩ := maxFinite_largest hbest
    obtain ⟨j, ⟨hj, hjlive⟩, rfl⟩ := mem_liveScores.mp hy
    have hge := hlargest j hj hjlive hyfin
    rw [flt_of_finite hfin hyfin, fltVal_eq_false_iff] at hge
    exact softRescale_congr hx (Int.le_antisymm (hle _ hmem hfin) hge) _ _

end

/-- Settles O31: the answer is that of any largest live score, and the two writes are the probabilities and the new state. -/
theorem softmaxStepUpdatesItsState : Obligations.SoftmaxStepUpdatesItsState := by
  unfold Obligations.SoftmaxStepUpdatesItsState
  intro m b a d r s h st score live finite ref
  obtain ⟨t, ht, hstate, hprobs, ho, hm, hr⟩ := completes_vsmaxacc (m := m) h
  have hlive (i : Nat) : live i ↔ i < 32 ∧ softLive m b d s.cpu i = true := and_congr_right fun _ => softLive_iff.symm
  refine ⟨t, ht, (softAnswer m b a d s.cpu).1, (softAnswer m b a d s.cpu).2.2, (softAnswer m b a d s.cpu).2.1,
    softProbs m b a d s.cpu, ?none, ?largest, ?probs, hprobs, ?state, ho, hm, hr⟩
  case none =>
    intro hnone
    rw [softAnswer_of_none fun i hi hl => hnone i ((hlive i).mpr ⟨hi, hl⟩)]
    exact ⟨rfl, rfl, rfl⟩
  case largest =>
    intro i neg n f hi hfin hlargest c
    obtain ⟨hlt, hl⟩ := (hlive i).mp hi
    rw [softAnswer_of_largest hlt hl hfin fun j hj hjl => hlargest j ((hlive j).mpr ⟨hj, hjl⟩), softRescale_of_fin hfin]
    refine ⟨fun h0 => ?_, fun h0 hex => ?_, fun h0 hex => ?_⟩
    · rw [if_pos h0]; exact ⟨rfl, rfl, rfl⟩
    · rw [if_neg h0, if_pos hex]; exact ⟨rfl, rfl, rfl⟩
    · rw [if_neg h0, if_neg (Bool.eq_false_iff.mp hex)]; exact ⟨rfl, rfl, rfl⟩
  case probs =>
    intro i hi
    rw [softProbs, lane_ofLanes _ _ hi]
    exact ⟨fun hl => if_pos ((hlive i).mp hl).2, fun hl => if_neg fun hs => hl ((hlive i).mpr ⟨hi, hs⟩)⟩
  case state =>
    intro i hi
    rw [hstate, lane_ofLanes _ _ hi, softStateLane]
    simp only [eq_comm (a := d), apply_ite (lane · i), st]

end Sys2Proof.Machine

/-! # Proofs: lanes of the scratchpad (O33) -/

namespace Sys2Proof.Machine

/-! ### The checks of vlds and vsts (R153, R160) -/

/-- The lowest bits of a word are 0 when it is a multiple of their power of two. -/
theorem extractLsb'_zero_eq_zero_iff (v : Word) (n : Nat) : v.extractLsb' 0 n = 0 ↔ v.toNat % 2 ^ n = 0 := by
  rw [← BitVec.toNat_inj, BitVec.extractLsb'_toNat, Nat.shiftRight_zero]
  rfl

/-- No offset and no stride of lanes: no multiple of 4 below 4 MiB. -/
def BadLaneField (v : Word) : Prop := 2 ^ 22 ≤ v.toNat ∨ v.toNat % 4 ≠ 0

theorem badLaneField_iff (v : Word) : v.extractLsb' 22 42 ≠ 0 ∨ v.extractLsb' 0 2 ≠ 0 ↔ BadLaneField v := by
  rw [Ne, Ne, extractLsb'_high_eq_zero_iff v 22 42 rfl, extractLsb'_zero_eq_zero_iff, Nat.not_lt]
  rfl

/-- The window check asks where its run starts modulo 4 MiB alone. -/
theorem Cell.outside_mod (c : Cell) (o : Nat) {n : Nat} (hn : 0 < n) : c.outside (o % 2 ^ 22) n = c.outside o n := by
  have hlast : (o % 2 ^ 22 + n - 1) % 2 ^ 22 = (o + n - 1) % 2 ^ 22 := by omega
  simp only [Cell.outside, Nat.mod_mod, hlast]

theorem Cell.outsideAny_eq_findSome? (c : Cell) (l : List (Nat × Nat)) :
    c.outsideAny l = l.findSome? (fun q => c.outside q.1 q.2) := by
  induction l with
  | nil => rfl
  | cons q l ih =>
    rw [List.findSome?_cons, ← ih, Cell.outsideAny]
    cases c.outside q.1 q.2 <;> rfl

/-- Cells with the same window check alike. -/
theorem Cell.outsideAny_congr {c d : Cell} (hb : d.winBase = c.winBase) (hs : d.winSize = c.winSize) (l : List (Nat × Nat)) :
    d.outsideAny l = c.outsideAny l := by
  simp only [Cell.outsideAny_eq_findSome?, Cell.outside, hb, hs]

/-- The first run that leaves the window gives the offset outside. -/
theorem Cell.outsideAny_map_range {c : Cell} {f : Nat → Nat × Nat} {n i o : Nat} (hi : i < n)
    (hfirst : ∀ j, j < i → c.outside (f j).1 (f j).2 = none) (ho : c.outside (f i).1 (f i).2 = some o) :
    c.outsideAny ((List.range n).map f) = some o := by
  obtain ⟨k, rfl⟩ := Nat.exists_eq_add_of_lt hi
  have hnone : (List.range i).findSome? (fun j => c.outside (f j).1 (f j).2) = none :=
    List.findSome?_eq_none_iff.mpr fun j hj => hfirst j (List.mem_range.mp hj)
  rw [Cell.outsideAny_eq_findSome?, List.findSome?_map, Nat.add_assoc, List.range_add, List.findSome?_append, Function.comp_def,
    hnone, Option.none_or, List.range_succ_eq_map, List.map_cons, List.findSome?_cons, Nat.add_zero, ho]

section
variable {c : Cell} {o st : Word}

theorem laneCheck_offset (h : BadLaneField o) : laneCheck c o st = some (3, o) := if_pos ((badLaneField_iff o).mpr h)

theorem laneCheck_stride (ho : ¬ BadLaneField o) (h : BadLaneField st) : laneCheck c o st = some (3, st) := by
  rw [laneCheck, if_neg (mt (badLaneField_iff o).mp ho), if_pos ((badLaneField_iff st).mpr h)]

theorem laneCheck_window (ho : ¬ BadLaneField o) (hs : ¬ BadLaneField st) :
    laneCheck c o st = (c.outsideAny (laneRuns o st)).map (fun bad => (5, BitVec.ofNat 64 bad)) := by
  rw [laneCheck, if_neg (mt (badLaneField_iff o).mp ho), if_neg (mt (badLaneField_iff st).mp hs)]

/-- Lanes that pass the check start at multiples of 4. -/
theorem laneCheck_none (h : laneCheck c o st = none) : o.toNat % 4 = 0 ∧ st.toNat % 4 = 0 := by
  by_cases ho : BadLaneField o
  · rw [laneCheck_offset ho] at h
    nomatch h
  by_cases hs : BadLaneField st
  · rw [laneCheck_stride ho hs] at h
    nomatch h
  unfold BadLaneField at ho hs
  omega

end

theorem forwarded_laneCheck (s : State) (w : Issue) (o st : Word) :
    laneCheck (s.forwarded w).cpu o st = laneCheck s.cpu o st := by
  have hwindow : (s.forwarded w).cpu.outsideAny (laneRuns o st) = s.cpu.outsideAny (laneRuns o st) := by
    rw [State.forwarded, Cell.flowTo_frame]
    exact Cell.outsideAny_congr rfl rfl _
  rw [laneCheck, hwindow, laneCheck]

/-! ### Lanes read (R156, R160) -/

/-- The offset of lane `i`, before it wraps. -/
def laneOffset (o st : Word) (i : Nat) : Nat := o.toNat + i * st.toNat

theorem getD_laneRuns (o st : Word) {i : Nat} (h : i < 32) : (laneRuns o st).getD i (0, 0) = (laneOffset o st i, 4) := by
  simp [laneRuns, List.getD, h, laneOffset]

/-- The vector register that vlds reads. -/
def State.lanesRead (s : State) (o st : Word) : VReg :=
  ofLanes (fun i => BitVec.ofNat 32 (s.spRead ((laneRuns o st).getD i (0, 0)).1 4))

theorem lane_lanesRead (s : State) (o st : Word) {i : Nat} (h : i < 32) :
    lane (s.lanesRead o st) i = BitVec.ofNat 32 (readLE s.sp (spKey s.cpu.cluster (laneOffset o st i)) 4) := by
  rw [State.lanesRead, lane_ofLanes _ _ h, getD_laneRuns o st h]
  rfl

theorem forwarded_lanesRead (s : State) (w : Issue) (o st : Word) : (s.forwarded w).lanesRead o st = s.lanesRead o st := by
  simp only [State.lanesRead, forwarded_spRead]

/-- vlds in the engine, with its lines full and sound. -/
theorem unitVlds_sound {b d : BitVec 5} {w : Cmd} {s : State} (hc : laneCheck s.cpu w.op0 (strideOf b w.op1) = none)
    (hb : s.spBlocked (laneRuns w.op0 (strideOf b w.op1)) = false) (hp : s.spPoisoned (laneRuns w.op0 (strideOf b w.op1)) = none) :
    unitVlds b d w s = .done (s.setV d (s.lanesRead w.op0 (strideOf b w.op1))) := by
  simp only [unitVlds, hc]
  exact spReading_sound hb hp w _

/-! ### Lanes written (R160) -/

/-- What vsts makes of the scratchpad. -/
def State.lanesPut (s : State) (o st : Word) (v : VReg) : State :=
  (List.range 32).foldl (fun t i => t.spWrite (laneOffset o st i) 4 (lane v i).toNat) s

theorem lanesPut_eq (s : State) (o st : Word) (v : VReg) : s.lanesPut o st v = { s with
    sp := (List.range 32).foldl (fun m i => writeLE m (spKey s.cpu.cluster (laneOffset o st i)) 4 (lane v i).toNat) s.sp
    spPoison := (List.range 32).foldl (fun g i => healed g (spKey s.cpu.cluster (laneOffset o st i)) 4) s.spPoison } :=
  foldl_spWrite_eq (laneOffset o st) (fun _ => 4) (fun i => (lane v i).toNat) s _

theorem lanesPut_forwarded (s : State) (w : Issue) (o st : Word) (v : VReg) : (s.forwarded w).lanesPut o st v =
    { s.forwarded w with sp := (s.lanesPut o st v).sp, spPoison := (s.lanesPut o st v).spPoison } := by
  rw [lanesPut_eq, lanesPut_eq, forwarded_cluster, forwarded_sp, forwarded_spPoison]

section
variable {s : State} (h : Memory.wf s.sp = true) (o st : Word) (v : VReg)
include h

/-- Each byte is that of the last lane that covers it. -/
theorem readByte_lanesPut (z : Nat) :
    readByte (s.lanesPut o st v).sp z = (((List.range 32).reverse.find? (fun i =>
        decide (spKey s.cpu.cluster (laneOffset o st i) ≤ z) && decide (z < spKey s.cpu.cluster (laneOffset o st i) + 4))).map
      (fun i => BitVec.ofNat 8 ((lane v i).toNat / 256 ^ (z - spKey s.cpu.cluster (laneOffset o st i))))).getD (readByte s.sp z) :=
  readByte_foldl_spWrite (laneOffset o st) (fun _ => 4) (fun i => (lane v i).toNat) s h _ z

/-- Each lane that no later lane lies on reads back. -/
theorem readLE_lanesPut (ho : o.toNat % 4 = 0) (hst : st.toNat % 4 = 0) {i : Nat} (hi : i < 32)
    (hlast : ∀ j, i < j → j < 32 → spKey s.cpu.cluster (laneOffset o st j) ≠ spKey s.cpu.cluster (laneOffset o st i)) :
    readLE (s.lanesPut o st v).sp (spKey s.cpu.cluster (laneOffset o st i)) 4 = (lane v i).toNat := by
  have haligned (j : Nat) : 4 ∣ spKey s.cpu.cluster (laneOffset o st j) := by
    have hoff : 4 ∣ laneOffset o st j := Nat.dvd_add (Nat.dvd_of_mod_eq_zero ho) ((Nat.dvd_of_mod_eq_zero hst).mul_left j)
    unfold spKey
    omega
  have hcovers {y : Nat} (hy : y < 4) (j : Nat) : (decide (spKey s.cpu.cluster (laneOffset o st j) ≤
        spKey s.cpu.cluster (laneOffset o st i) + y) && decide (spKey s.cpu.cluster (laneOffset o st i) + y <
        spKey s.cpu.cluster (laneOffset o st j) + 4)) =
      decide (spKey s.cpu.cluster (laneOffset o st j) = spKey s.cpu.cluster (laneOffset o st i)) := by
    have hj := haligned j
    have hi := haligned i
    rw [← Bool.decide_and, decide_eq_decide]
    omega
  refine readLE_of_bytes (n := 4) (lane v i) fun y hy => ?_
  rw [readByte_lanesPut h, find?_reverse_range hi, Option.map_some, Option.getD_some, Nat.add_sub_cancel_left]
  · rw [hcovers hy, decide_eq_true rfl]
  · intro j hij hj
    rw [hcovers hy, decide_eq_false (hlast j hij hj)]

theorem readByte_lanesPut_of_outside {z : Nat} (hz : ∀ i, i < 32 → z < spKey s.cpu.cluster (laneOffset o st i) ∨
    spKey s.cpu.cluster (laneOffset o st i) + 4 ≤ z) : readByte (s.lanesPut o st v).sp z = readByte s.sp z := by
  rw [readByte_lanesPut h, List.find?_eq_none.mpr]
  · rfl
  · intro i hi
    have := hz i (List.mem_range.mp (List.mem_reverse.mp hi))
    simp only [Bool.and_eq_true, decide_eq_true_eq]
    omega

end

/-! ### vlds and vsts of an idle, eager cell (assumption log 4) -/

/-- vlds and vsts as their front end forwards them. -/
def laneIssue (i : Instr) (q : Queue) (write : Bool) (b : BitVec 5) (op0 op1 : Word) : Issue :=
  { instr := i, queue := q, op0 := op0, op1 := op1, ranges := laneRanges write b op0 op1 }

section
variable {b a d : BitVec 5} {r : BitVec 3} {s : State} (h : VectorReady r [d] s)
  (hc : laneCheck s.cpu (s.x a) (strideOf b (s.x b)) = none)
include h hc

theorem completes_vlds (hb : s.spBlocked (laneRuns (s.x a) (strideOf b (s.x b))) = false)
    (hp : s.spPoisoned (laneRuns (s.x a) (strideOf b (s.x b))) = none) :
    Completes (.vlds b a d r) s (WroteV s d (lane (s.lanesRead (s.x a) (strideOf b (s.x b))))) := by
  set w := laneIssue (.vlds b a d r) .load false b (s.x a) (s.x b)
  have hi : exec (.vlds b a d r) s = enqueue w (unitVlds b d) s := by
    rw [exec_vlds, execVlds, h.forwardWord (ns := [d.toNat]) h.allotted]
    rfl
  have hu : unitVlds b d (w.cmd s.cpu) (s.forwarded w) =
      .done ((s.forwarded w).setV d (s.lanesRead (s.x a) (strideOf b (s.x b)))) := by
    rw [← forwarded_lanesRead s w]
    exact unitVlds_sound ((forwarded_laneCheck ..).trans hc) ((forwarded_spBlocked ..).trans hb) ((forwarded_spPoisoned ..).trans hp)
  refine ⟨_, h.exec_done hi rfl (Nat.le_of_ble_eq_true rfl) hu (forwarded_pending s w) ((forwarded_poison s w).trans h.sound),
    fun i hi => ?_, fun q hq => ?_, ⟨fun _ => rfl, fun _ => rfl⟩, ?_⟩
  · exact congrArg (lane · i) ((Cell.rv_wv (s.forwarded w).cpu d d _).trans (if_pos rfl))
  · exact (Cell.rv_wv (s.forwarded w).cpu d q _).trans ((if_neg hq).trans (forwarded_rv s w q))
  · rw [forwarded_of_also_id rfl, ← Cell.flowTo_idle h.idle, Cell.flowTo_frame]
    rfl

theorem completes_vsts : Completes (.vsts b a d r) s (fun t =>
    t.sp = (s.lanesPut (s.x a) (strideOf b (s.x b)) (s.cpu.rv d)).sp ∧
    t = { s with
      cpu := { s.cpu.flowTo (s.cpu.pc + 4) with vseq := s.cpu.vseq + 1 }
      sp := t.sp
      spPoison := t.spPoison }) := by
  set w := laneIssue (.vsts b a d r) .store true b (s.x a) (s.x b)
  have hi : exec (.vsts b a d r) s = enqueue w (unitVsts b d) s := by
    rw [exec_vsts, execVsts, h.forwardWord (ns := [d.toNat]) h.allotted]
    rfl
  have hu : unitVsts b d (w.cmd s.cpu) (s.forwarded w) =
      .done ((s.forwarded w).lanesPut (s.x a) (strideOf b (s.x b)) (s.cpu.rv d)) := by
    have hf : laneCheck (s.forwarded w).cpu (w.cmd s.cpu).op0 (strideOf b (w.cmd s.cpu).op1) = none := (forwarded_laneCheck ..).trans hc
    simp only [unitVsts, hf, forwarded_rv]
    rfl
  rw [lanesPut_forwarded] at hu
  generalize (s.lanesPut (s.x a) (strideOf b (s.x b)) (s.cpu.rv d)).sp = sp at hu ⊢
  generalize (s.lanesPut (s.x a) (strideOf b (s.x b)) (s.cpu.rv d)).spPoison = poison at hu
  refine ⟨_, h.exec_done hi rfl (Nat.le_of_ble_eq_true rfl) hu (forwarded_pending s w) ((forwarded_poison s w).trans h.sound),
    rfl, ?_⟩
  rw [forwarded_of_also_id rfl, ← Cell.flowTo_idle h.idle, Cell.flowTo_frame]
  rfl

end

/-- A check that fails traps on the command, and neither word does anything else. -/
theorem units_trap_of_laneCheck {b : BitVec 5} {w : Cmd} {s : State} {cause : Nat} {v : Word}
    (h : laneCheck s.cpu w.op0 (strideOf b w.op1) = some (cause, v)) (d : BitVec 5) :
    unitVlds b d w s = .trap w cause v none s ∧ unitVsts b d w s = .trap w cause v none s := by
  simp only [unitVlds, unitVsts, h, and_self]

/-- Settles O33: the lanes are read in one go, and written one after another, of which the last one on a byte stands; a check that
fails is the engine's answer. -/
theorem scratchpadLanes : Obligations.ScratchpadLanes := by
  unfold Obligations.ScratchpadLanes
  constructor
  · intro b a d r s h hm stride off key hc
    obtain ⟨ho, hst⟩ := laneCheck_none hc
    constructor
    · intro hb hp
      obtain ⟨t, ht, hw⟩ := completes_vlds h hc hb hp
      refine ⟨t, ht, fun i hi => ?_, hw.others, hw.memory, hw.rest⟩
      rw [hw.lanes i hi, lane_lanesRead _ _ _ hi]
      rfl
    · obtain ⟨t, ht, hsp, hframe⟩ := completes_vsts h hc
      refine ⟨t, ht, fun i hi hlast => ?_, fun k hk => ?_, hframe⟩
      · rw [hsp]
        exact readLE_lanesPut hm.2 _ _ _ ho hst hi hlast
      · rw [hsp]
        exact readByte_lanesPut_of_outside hm.2 _ _ _ hk
  · intro b d w s stride bad traps
    refine ⟨fun ho => ?_, fun ho hs => ?_, fun i hi ho hs hfirst o hout => ?_⟩
    · exact units_trap_of_laneCheck (laneCheck_offset ho) d
    · exact units_trap_of_laneCheck (laneCheck_stride ho hs) d
    · have hwindow : s.cpu.outsideAny (laneRuns w.op0 stride) = some o :=
        Cell.outsideAny_map_range hi (fun j hj => (Cell.outside_mod _ _ (Nat.succ_pos 3)).symm.trans (hfirst j hj))
          ((Cell.outside_mod _ _ (Nat.succ_pos 3)).symm.trans hout)
      refine units_trap_of_laneCheck ((laneCheck_window ho hs).trans ?_) d
      exact congrArg (Option.map _) hwindow

end Sys2Proof.Machine

/-! # Proofs: empty lines and ended windows (O35) -/

namespace Sys2Proof.Machine

/-! ### Lines set empty or full (R156, R159) -/

theorem mem_foldl_insertNat (ns l : List Nat) (a : Nat) : a ∈ ns.foldl (fun e n => insertNat n e) l ↔ a ∈ l ∨ a ∈ ns := by
  induction ns generalizing l with
  | nil => simp
  | cons n ns ih =>
    rw [List.foldl_cons, ih, mem_insertNat, List.mem_cons]
    tauto

/-- The line `l` is among the `n` lines of a cluster from `line` up. -/
def InLines (cluster line n l : Nat) : Prop := ∃ i, i < n ∧ l = spLineNo cluster (128 * (line + i))

theorem mem_lineNumbers (cluster line n l : Nat) :
    l ∈ (List.range n).map (fun i => spLineNo cluster (128 * (line + i))) ↔ InLines cluster line n l := by
  simp only [List.mem_map, List.mem_range, InLines, eq_comm]

theorem mem_setFull_empty (s : State) (cluster line n l : Nat) :
    l ∈ (s.setFull cluster line n false).spEmpty ↔ l ∈ s.spEmpty ∨ InLines cluster line n l :=
  (mem_foldl_insertNat _ _ l).trans (or_congr_right (mem_lineNumbers ..))

theorem mem_setFull_full (s : State) (cluster line n l : Nat) :
    l ∈ (s.setFull cluster line n true).spEmpty ↔ l ∈ s.spEmpty ∧ ¬ InLines cluster line n l := by
  refine List.mem_filter.trans (and_congr_right fun _ => ?_)
  rw [Bool.not_eq_true', ← Bool.not_eq_true, List.contains_iff_mem, mem_lineNumbers]

/-- The run of `n` lines from a line's offset. -/
theorem inLines_of_offset {cluster o n : Nat} (ho : o % 128 = 0) (l : Nat) :
    InLines cluster (o / 128) n l ↔ ∃ i, i < n ∧ l = spLineNo cluster (o + 128 * i) := by
  have hoff (i : Nat) : 128 * (o / 128 + i) = o + 128 * i := by omega
  simp only [InLines, hoff]

/-! ### spfe (R153, R159) -/

/-- The offset of a scratchpad line. -/
def IsLine (v : Word) : Prop := v.toNat < 2 ^ 22 ∧ v.toNat % 128 = 0

theorem not_isLine_iff (v : Word) : v.extractLsb' 22 42 ≠ 0 ∨ v.extractLsb' 0 7 ≠ 0 ↔ ¬ IsLine v := by
  rw [Ne, Ne, extractLsb'_high_eq_zero_iff v 22 42 rfl, extractLsb'_zero_eq_zero_iff, IsLine]
  exact not_and_or.symm

section
variable {full : Bool} {a b : BitVec 5} {s : State}

theorem spfe_of_not_line (h : ¬ IsLine (s.x a)) : spfe full a b s = trapOut s 3 (s.x a) :=
  if_pos ((not_isLine_iff (s.x a)).mpr h)

section
variable (h : IsLine (s.x a))
include h

theorem spfe_of_count_zero (hn : min (s.x b).toNat 32768 = 0) : spfe full a b s = .next s.advance := by
  rw [spfe, if_neg (mt (not_isLine_iff (s.x a)).mp (not_not_intro h)), if_pos hn]

variable (hn : 0 < min (s.x b).toNat 32768)
include hn

theorem spfe_of_outside {k : Nat} (ho : s.cpu.outside (s.x a).toNat (128 * min (s.x b).toNat 32768) = some k) :
    spfe full a b s = trapOut s 5 (BitVec.ofNat 64 k) := by
  rw [spfe, if_neg (mt (not_isLine_iff (s.x a)).mp (not_not_intro h)), if_neg hn.ne']
  simp only [ho]

theorem spfe_of_inside (ho : s.cpu.outside (s.x a).toNat (128 * min (s.x b).toNat 32768) = none)
    (hr : s.cpu.rangesBusy [rangeOf true [((s.x a).toNat, 128 * min (s.x b).toNat 32768)]] = false) :
    spfe full a b s =
      .next (s.setFull s.cpu.cluster ((s.x a).toNat / 128) (min (s.x b).toNat 32768) full).advance := by
  rw [spfe, if_neg (mt (not_isLine_iff (s.x a)).mp (not_not_intro h)), if_neg hn.ne']
  simp only [ho, hr, Bool.false_eq_true, if_false]

end

end

theorem exec_spfeEmpty_ready {b a : BitVec 5} {r : BitVec 3} {s : State} (he : s.cpu.executes r = true)
    (hr : s.cpu.ready [a, b] = true) : exec (.spfeEmpty b a r) s = spfe false a b s := frontWord_ready he hr _

theorem exec_spfeFull_ready {b a : BitVec 5} {r : BitVec 3} {s : State} (he : s.cpu.executes r = true)
    (hr : s.cpu.ready [a, b] = true) : exec (.spfeFull b a r) s = spfe true a b s := frontWord_ready he hr _

/-! ### The engine of a queue goes on (R156) -/

section
variable {q : BitVec 3} (s : State)

theorem exec_serve_of_queue {qu : Queue} (h : queueOf q.toNat = some qu) (hne : qu ≠ .matrix) :
    exec (.emptyLineReadServe q) s = .next (s.engineTurn qu) := by
  rw [exec_emptyLineReadServe, execEmptyLineReadServe, h]
  cases qu with
  | matrix => exact absurd rfl hne
  | load | arith | store | state => rfl

theorem exec_serve_of_matrix (h : queueOf q.toNat = some .matrix) :
    exec (.emptyLineReadServe q) s = .next (s.engineTurn .matrix).epilogueTurn := by
  rw [exec_emptyLineReadServe, execEmptyLineReadServe, h]

theorem exec_serve_of_none (h : queueOf q.toNat = none) : exec (.emptyLineReadServe q) s = .next s := by
  rw [exec_emptyLineReadServe, execEmptyLineReadServe, h]

end

section
variable {w : Cmd} {s : State} (hp : s.cpu.pending = [w])
include hp

/-- The engine takes up the only command of the cell. -/
theorem engineTurn_alone (he : w.isEpi = false) : s.engineTurn w.queue = (s.runUnit engUnit 0).1 := by
  have hplace : s.cpu.headOf w.queue = some 0 := by
    simp [Cell.headOf, Cell.placesOf, Cell.epilogued, hp, Cmd.inEpilogue, he]
  have hstart : s.mayStart 0 = true := by simp [State.mayStart, hp]
  simp only [State.engineTurn, hplace, State.unitAt, hstart, if_true]

variable {unit : Cmd → State → EngOut} (hs : s.cpu.poison = [])
include hs

theorem runUnit_alone_done {t : State} (hu : unit w s = .done t) (ht : t.cpu.pending = [w]) (hs' : t.cpu.poison = []) :
    s.runUnit unit 0 = (t.upd (fun c => { c with pending := [] }), false) := by
  have hread : s.cpu.readsBad w = false := by simp [Cell.readsBad, meets, hs]
  simp [State.runUnit, hp, hread, hu, ht, Cell.healed, hs', State.upd]

theorem runUnit_alone_blocked {t : State} (hu : unit w s = .blocked t) : s.runUnit unit 0 = (t, false) := by
  have hread : s.cpu.readsBad w = false := by simp [Cell.readsBad, meets, hs]
  simp [State.runUnit, hp, hread, hu]

end

/-! ### A vlds that waits (R156, R160) -/

theorem engUnit_vlds {w : Cmd} {b a d : BitVec 5} {r : BitVec 3} (hi : w.instr = .vlds b a d r) (h0 : w.progress = 0) (s : State) :
    engUnit w s = unitVlds b d w s := by
  have hspent : w.spent = false := by simp [Cmd.spent, Cmd.count, hi, h0]
  simp only [engUnit, hspent, Bool.false_eq_true, if_false, engEffect, hi]

/-- Lanes at multiples of 4 wait for the lines that they lie in. -/
theorem spBlocked_laneRuns (s : State) {o st : Word} (ho : o.toNat % 4 = 0) (hst : st.toNat % 4 = 0) :
    s.spBlocked (laneRuns o st) = true ↔ ∃ i, i < 32 ∧ spLineNo s.cpu.cluster (laneOffset o st i) ∈ s.spEmpty := by
  have hone (i : Nat) : (laneOffset o st i % 128 + 4 + 127) / 128 = 1 := by
    have hoff : 4 ∣ laneOffset o st i := Nat.dvd_add (Nat.dvd_of_mod_eq_zero ho) ((Nat.dvd_of_mod_eq_zero hst).mul_left i)
    omega
  have hruns : laneRuns o st = (List.range 32).map (fun i => (laneOffset o st i, 4)) := rfl
  simp only [State.spBlocked, hruns, List.any_map, Function.comp_def, hone, List.range_one, List.any_cons, List.any_nil, Nat.mul_zero,
    Nat.add_zero, Bool.or_false, State.spWaits, Bool.and_eq_true, List.any_eq_true, List.mem_range, List.contains_iff_mem]
  refine and_iff_right_of_imp ?_
  rintro ⟨i, -, hmem⟩
  simpa [List.isEmpty_iff] using List.ne_nil_of_mem hmem

theorem unitVlds_blocked {b d : BitVec 5} {w : Cmd} {s : State} (hc : laneCheck s.cpu w.op0 (strideOf b w.op1) = none)
    (hb : s.spBlocked (laneRuns w.op0 (strideOf b w.op1)) = true) : unitVlds b d w s = .blocked s := by
  simp only [unitVlds, hc, spReading, hb, if_true]

/-! ### The end of a window (R153) -/

/-- Bytes dropped by their key read 0, the others as before. -/
theorem readByte_filter {l : List Host.Cell} {lo : Nat} (h : sortedFrom lo l = true) (p : Nat → Bool) (k : Nat) :
    readByte (l.filter (fun e => p e.1)) k = if p k then readByte l k else 0 := by
  induction l generalizing lo with
  | nil => exact (ite_self _).symm
  | cons e l ih =>
    obtain ⟨x, v⟩ := e
    simp only [sortedFrom, Bool.and_eq_true, decide_eq_true_eq] at h
    obtain ⟨-, hl⟩ := h
    have hrest := ih hl
    by_cases hx : x = k
    · subst hx
      cases hp : p x
      · simpa [hp] using hrest
      · simp [hp, readByte]
    · have hskip : readByte ((x, v) :: l) k = readByte l k := by
        rw [readByte, if_neg hx]
        exact ite_eq_right_iff.mpr fun hk => (readByte_below hl (by omega)).symm
      cases hp : p x
      · rw [List.filter_cons_of_neg (by simp [hp]), hrest, hskip]
      · rw [List.filter_cons_of_pos (p := fun e : Host.Cell => p e.1) hp, hskip, readByte, if_neg hx, hrest]
        refine ite_eq_right_iff.mpr fun hk => ?_
        rw [readByte_below hl (by omega), ite_self]

theorem exec_windowZeroing_of_window {cluster base : Nat} {z : Zeroing} {s : State}
    (h : s.zeroing.find? (fun z => z.cluster == cluster && z.base == base) = some z) :
    exec (.windowZeroing cluster base) s = .next (s.zeroWindow z) := by
  rw [exec_windowZeroing, execWindowZeroing, h]

theorem exec_windowZeroing_of_none {cluster base : Nat} {s : State}
    (h : s.zeroing.find? (fun z => z.cluster == cluster && z.base == base) = none) :
    exec (.windowZeroing cluster base) s = .next s := by
  rw [exec_windowZeroing, execWindowZeroing, h]

section
variable (z : Zeroing) (s : State)

theorem readByte_zeroWindow (h : Memory.wf s.sp = true) (k : Nat) :
    readByte (s.zeroWindow z).sp k = if inWindow z k then 0 else readByte s.sp k := by
  refine (readByte_filter h (fun k => !inWindow z k) k).trans ?_
  cases inWindow z k <;> rfl

theorem mem_zeroWindow_spEmpty (l : Nat) : l ∈ (s.zeroWindow z).spEmpty ↔ l ∈ s.spEmpty ∧ inWindow z (128 * l) = false := by
  rw [State.zeroWindow, List.mem_filter, Bool.not_eq_true']

theorem mem_zeroWindow_spPoison (w : Nat) : w ∈ (s.zeroWindow z).spPoison ↔ w ∈ s.spPoison ∧ inWindow z (8 * w) = false := by
  rw [State.zeroWindow, List.mem_filter, Bool.not_eq_true']

end

/-- Settles O35: spfe by its four outcomes, the engine's turn by its queue and by what the only command does, and the end of a window
by what it drops. -/
theorem linesAreMarkedAndCleared : Obligations.LinesAreMarkedAndCleared := by
  unfold Obligations.LinesAreMarkedAndCleared
  intro b a r s
  refine ⟨?_, fun q => ⟨fun qu hq hne => ⟨_, exec_serve_of_queue s hq hne, rfl⟩,
    fun hq => ⟨_, exec_serve_of_matrix s hq, rfl⟩, fun hq => ⟨_, exec_serve_of_none s hq, rfl⟩⟩, ?_, ?_⟩
  · intro he hr o n line inRun
    have hempty := exec_spfeEmpty_ready (b := b) (a := a) he hr
    have hfull := exec_spfeFull_ready (b := b) (a := a) he hr
    refine ⟨fun hl hn => ?_, fun hl hn ho hb => ?_, ?_⟩
    · exact ⟨⟨_, hempty.trans (spfe_of_count_zero hl hn), stepped_advance s⟩,
        ⟨_, hfull.trans (spfe_of_count_zero hl hn), stepped_advance s⟩⟩
    · have hrun (l : Nat) : InLines s.cpu.cluster (o / 128) n l ↔ inRun l := inLines_of_offset hl.2 l
      refine ⟨⟨_, hempty.trans (spfe_of_inside hl hn ho hb), fun l => ?_, rfl⟩,
        ⟨_, hfull.trans (spfe_of_inside hl hn ho hb), fun l => ?_, rfl⟩⟩
      · exact (mem_setFull_empty ..).trans (or_congr_right (hrun l))
      · exact (mem_setFull_full ..).trans (and_congr_right fun _ => not_congr (hrun l))
    · simp only [List.forall_mem_cons, hempty, hfull]
      exact ⟨⟨spfe_of_not_line, fun k hl hn ho => spfe_of_outside hl hn ho⟩,
        ⟨spfe_of_not_line, fun k hl hn ho => spfe_of_outside hl hn ho⟩, List.forall_mem_nil _⟩
  · intro w d hp hs hi hq h0 off lanes hc
    obtain ⟨ho, hst⟩ := laneCheck_none hc
    have hexec : exec (.emptyLineReadServe 1) s = .next (s.runUnit engUnit 0).1 := by
      rw [exec_serve_of_queue s (qu := .load) rfl (by decide), ← hq, engineTurn_alone hp (by simp [Cmd.isEpi, hi])]
    have hunit := engUnit_vlds hi h0 s
    have hblocked := spBlocked_laneRuns s ho hst
    constructor
    · intro hempty
      refine ⟨s, hexec.trans ?_, rfl⟩
      rw [runUnit_alone_blocked hp hs (hunit.trans (unitVlds_blocked hc (hblocked.mpr hempty)))]
    · intro hfull hpoison
      have hb : s.spBlocked (laneRuns w.op0 (strideOf b w.op1)) = false :=
        Bool.eq_false_iff.mpr fun hb => by
          obtain ⟨i, hi, hmem⟩ := hblocked.mp hb
          exact hfull i hi hmem
      have hdone := runUnit_alone_done hp hs (hunit.trans (unitVlds_sound hc hb hpoison)) hp hs
      refine ⟨_, hexec.trans (by rw [hdone]), fun i hi => ?_, fun q hq => ?_, rfl⟩
      · have hrv := (Cell.rv_wv s.cpu d d (s.lanesRead w.op0 (strideOf b w.op1))).trans (if_pos rfl)
        exact (congrArg (lane · i) hrv).trans (lane_lanesRead s _ _ hi)
      · exact (Cell.rv_wv s.cpu d q _).trans (if_neg hq)
  · intro cluster base z?
    exact ⟨fun z hz hm => ⟨_, exec_windowZeroing_of_window hz, readByte_zeroWindow z s hm.2, mem_zeroWindow_spEmpty z s,
      mem_zeroWindow_spPoison z s, rfl⟩, fun hz => ⟨s, exec_windowZeroing_of_none hz, rfl⟩⟩

end Sys2Proof.Machine

/-! # Proofs: probe words and fills (O38) -/

namespace Sys2Proof.Machine

/-! ### The word of a region (R169, R172) -/

theorem withRegion_of_region {s : State} {p : ProbeRegion} (h : s.probeRegion = some p) (body : ProbeRegion → Out) :
    withRegion s body = body p := by rw [withRegion, h]

theorem withRegion_of_none {s : State} (h : s.probeRegion = none) (body : ProbeRegion → Out) :
    withRegion s body = .next (s.trap 0x0C 0) := by
  rw [withRegion, h]
  rfl

section
variable {s : State} {r : BitVec 3} (he : s.cpu.executes r = true) {a d : BitVec 5} {o : BitVec 10}
include he

/-- Without a region each word traps (R172). -/
theorem exec_probeWord_of_none (hr : s.cpu.ready [d, a] = true) (h : s.probeRegion = none) :
    ∀ i ∈ [Instr.probe o a d r, .prinv a d r, .prpin a r, .prunpin a r], exec i s = .next (s.trap 0x0C 0) := by
  have hra : s.cpu.ready [a] = true := Cell.ready_of_subset hr (by simp)
  simp only [List.forall_mem_cons]
  refine ⟨?_, ?_, ?_, ?_, List.forall_mem_nil _⟩
  · rw [exec_probe, execProbe, frontWord_ready he hr, withRegion_of_none h]
  · rw [exec_prinv, execPrinv, frontWord_ready he hr, withRegion_of_none h]
  · rw [exec_prpin, execPrpin, frontWord_ready he hra, withRegion_of_none h]
  · rw [exec_prunpin, execPrunpin, frontWord_ready he hra, withRegion_of_none h]

end

/-! ### prcfg (R153, R169) -/

/-- The block code and the base of a configuration word. -/
def regionCode (c : Word) : Nat := (c.extractLsb' 22 3).toNat
def regionBase (c : Word) : Nat := (c.extractLsb' 0 22).toNat

/-- The fields of prcfg that trap (R169). -/
def BadRegion (c : Word) (n : Nat) : Prop :=
  2 ^ 25 ≤ c.toNat ∨ 4 < regionCode c ∨ regionBase c % blockBytes (regionCode c) ≠ 0 ∨ 1024 < n ∨
    2 ^ 22 < regionBase c + n * blockBytes (regionCode c)

theorem badRegion_iff (c : Word) (n : Nat) :
    (c.extractLsb' 25 39 ≠ 0 || 4 < (c.extractLsb' 22 3).toNat ||
      (c.extractLsb' 0 22).toNat % blockBytes (c.extractLsb' 22 3).toNat ≠ 0 || 1024 < n || 2 ^ 22 < (c.extractLsb' 0 22).toNat + n * blockBytes (c.extractLsb' 22 3).toNat) = true ↔ BadRegion c n := by
  rw [Bool.or_eq_true, Bool.or_eq_true, Bool.or_eq_true, Bool.or_eq_true, decide_eq_true_eq, decide_eq_true_eq, decide_eq_true_eq,
    decide_eq_true_eq, decide_eq_true_eq, Ne, extractLsb'_high_eq_zero_iff c 25 39 rfl, Nat.not_lt, or_assoc, or_assoc, or_assoc]
  rfl

/-- The state once the node's region is released. -/
def State.regionReleased (s : State) : State := { s with probes := s.probes.filter (fun p => !p.mine s.cpu) }

/-- The region that prcfg makes. -/
def State.newRegion (s : State) (c : Word) (n : Nat) : ProbeRegion :=
  ⟨s.cpu.cluster, s.cpu.firing, s.cpu.ctx, s.cpu.node, regionBase c, regionCode c, List.replicate n .free, 0⟩

/-- The state once prcfg has given the node its region, or released it for a count of 0. -/
def State.regionMade (s : State) (c : Word) (n : Nat) : State :=
  { s with probes := s.regionReleased.probes ++ (if n = 0 then [] else [s.newRegion c n]) }

theorem ProbeSlot.filling_drop (x : ProbeSlot) : x.drop.filling = x.filling := by
  unfold ProbeSlot.drop
  split
  · rfl
  · rename_i h
    exact (Bool.eq_false_iff.mpr h).symm

section
variable {s : State} {r : BitVec 3} (he : s.cpu.executes r = true) {b a d : BitVec 5} (hr : s.cpu.ready [d, a, b] = true)
include he hr

theorem exec_prcfg_of_bad (h : BadRegion (s.x a) (s.x b).toNat) : exec (.prcfg b a d r) s = .next (s.trap 0x0C (s.x a)) := by
  rw [exec_prcfg, execPrcfg, frontWord_ready he hr]
  exact if_pos ((badRegion_iff ..).mpr h)

variable (h : ¬ BadRegion (s.x a) (s.x b).toNat)
include h

theorem exec_prcfg_of_outside {k : Nat}
    (ho : s.cpu.outside (regionBase (s.x a)) ((s.x b).toNat * blockBytes (regionCode (s.x a))) = some k) :
    exec (.prcfg b a d r) s = .next (s.trap 5 (BitVec.ofNat 64 k)) := by
  rw [exec_prcfg, execPrcfg, frontWord_ready he hr]
  refine (if_neg (mt (badRegion_iff ..).mp h)).trans ?_
  unfold regionBase regionCode at ho
  rw [ho]
  rfl

variable (ho : s.cpu.outside (regionBase (s.x a)) ((s.x b).toNat * blockBytes (regionCode (s.x a))) = none)
include ho

/-- While a slot of the node's region is filling, its tags are dropped and the word waits. -/
theorem exec_prcfg_of_filling {p : ProbeRegion} (hp : s.probeRegion = some p) {x : ProbeSlot} (hx : x ∈ p.slots) (hf : x.filling = true) :
    exec (.prcfg b a d r) s = .next (s.setRegion { p with slots := p.slots.map ProbeSlot.drop }) := by
  have hany : (p.slots.map ProbeSlot.drop).any (fun x => x.filling) = true := by
    rw [List.any_map]
    exact List.any_eq_true.mpr ⟨x, hx, (ProbeSlot.filling_drop x).trans hf⟩
  rw [exec_prcfg, execPrcfg, frontWord_ready he hr]
  refine (if_neg (mt (badRegion_iff ..).mp h)).trans ?_
  unfold regionBase regionCode at ho
  simp only [ho, hp, Option.map_some, Option.getD_some, hany, if_true]

/-- With no slot filling the region is released, and made anew where the table has enough free tags. -/
theorem exec_prcfg_of_quiet (hq : ∀ p x, s.probeRegion = some p → x ∈ p.slots → x.filling = false) :
    exec (.prcfg b a d r) s = if s.regionReleased.freeTags s.cpu.cluster < (s.x b).toNat then
        .next (s.regionReleased.trap 0x0C (s.x b))
      else .next ((s.regionMade (s.x a) (s.x b).toNat).setX d
        (BitVec.ofNat 64 ((s.regionMade (s.x a) (s.x b).toNat).freeTags s.cpu.cluster))).advance := by
  have hany : (((s.probeRegion).map (fun p => { p with slots := p.slots.map ProbeSlot.drop })).map
      (fun p => p.slots.any (fun x => x.filling))).getD false = false := by
    cases hp : s.probeRegion with
    | none => rfl
    | some p =>
      simp only [Option.map_some, Option.getD_some, List.any_map, List.any_eq_false]
      intro x hx
      rw [Function.comp_apply, ProbeSlot.filling_drop, hq p x hp hx]
      exact Bool.false_ne_true
  rw [exec_prcfg, execPrcfg, frontWord_ready he hr]
  refine (if_neg (mt (badRegion_iff ..).mp h)).trans ?_
  unfold regionBase regionCode at ho
  simp only [ho, hany, Bool.false_eq_true, if_false]
  refine if_congr Iff.rfl ?_ ?_
  · rw [BitVec.ofNat_toNat, BitVec.setWidth_eq]
    rfl
  · by_cases hn : (s.x b).toNat = 0
    · have hmade : s.regionMade (s.x a) (s.x b).toNat = s.regionReleased := by
        rw [State.regionMade, if_pos hn, List.append_nil]
        rfl
      rw [if_pos hn, hmade]
      rfl
    · have hmade : s.regionMade (s.x a) (s.x b).toNat =
          { s.regionReleased with probes := s.regionReleased.probes ++ [s.newRegion (s.x a) (s.x b).toNat] } := by
        rw [State.regionMade, if_neg hn]
        rfl
      rw [if_neg hn, hmade]
      rfl

end

/-! ### Slots found, and slots to replace (R170, R172) -/

/-- The place of the first element of which `p` holds. -/
theorem findIdx?_eq_some_of_getD {α : Type} {p : α → Bool} {l : List α} {x : α} {i : Nat} (hi : i < l.length)
    (hp : p (l.getD i x) = true) (hfirst : ∀ j, j < i → p (l.getD j x) = false) : l.findIdx? p = some i := by
  refine List.findIdx?_eq_some_iff_getElem.mpr ⟨hi, ?_, fun j hj => ?_⟩
  · rwa [List.getD_eq_getElem _ _ hi] at hp
  · have := hfirst j hj
    rw [List.getD_eq_getElem _ _ (hj.trans hi)] at this
    exact Bool.eq_false_iff.mp this

theorem findIdx?_eq_none_of_getD {α : Type} {p : α → Bool} {l : List α} {x : α}
    (h : ∀ j, j < l.length → p (l.getD j x) = false) : l.findIdx? p = none := by
  refine List.findIdx?_eq_none_iff.mpr fun y hy => ?_
  obtain ⟨j, hj, rfl⟩ := List.mem_iff_getElem.mp hy
  rw [← List.getD_eq_getElem _ x hj]
  exact h j hj

/-- A slot that is neither filling nor valid. -/
def ProbeSlot.Idle (x : ProbeSlot) : Prop := x.filling = false ∧ x.valid = false

theorem ProbeSlot.isFree_iff (x : ProbeSlot) : x.isFree = true ↔ x.Idle := by
  rw [ProbeSlot.isFree, Bool.and_eq_true, Bool.not_eq_true', Bool.not_eq_true']
  rfl

/-- Slot `i` of a list holds the block of a tag. -/
def HoldsTag (l : List ProbeSlot) (t : Word) (i : Nat) : Prop :=
  i < l.length ∧ ¬ (l.getD i .free).Idle ∧ (l.getD i .free).tag = some t

theorem holdsTag_iff {l : List ProbeSlot} {t : Word} {i : Nat} (hi : i < l.length) :
    (!(l.getD i .free).isFree && (l.getD i .free).tag == some t) = true ↔ HoldsTag l t i := by
  rw [Bool.and_eq_true, Bool.not_eq_true', ← Bool.not_eq_true, ProbeSlot.isFree_iff, beq_iff_eq]
  exact (and_iff_right hi).symm

theorem lookup_found {l : List ProbeSlot} {t : Word} {i : Nat} (h : HoldsTag l t i) (hfirst : ∀ j, j < i → ¬ HoldsTag l t j) :
    l.findIdx? (fun x => !x.isFree && x.tag == some t) = some i :=
  findIdx?_eq_some_of_getD h.1 ((holdsTag_iff h.1).mpr h) fun j hj =>
    Bool.eq_false_iff.mpr (mt (holdsTag_iff (hj.trans h.1)).mp (hfirst j hj))

theorem lookup_missed {l : List ProbeSlot} {t : Word} (h : ∀ i, ¬ HoldsTag l t i) :
    l.findIdx? (fun x => !x.isFree && x.tag == some t) = none :=
  findIdx?_eq_none_of_getD fun j hj => Bool.eq_false_iff.mpr (mt (holdsTag_iff hj).mp (h j))

/-- Slot `i` is valid and not pinned, so that a miss may replace it. -/
def Replaceable (l : List ProbeSlot) (i : Nat) : Prop :=
  i < l.length ∧ (l.getD i .free).valid = true ∧ (l.getD i .free).pinned = false

/-- Slot `i` was probed before slot `j`, or stands before it. -/
def Older (l : List ProbeSlot) (i j : Nat) : Prop :=
  (l.getD i .free).stamp < (l.getD j .free).stamp ∨ (l.getD i .free).stamp = (l.getD j .free).stamp ∧ i ≤ j

/-- The oldest of the replaceable slots below `n`. -/
def OldestBelow (l : List ProbeSlot) (n : Nat) : Option Nat → Prop
  | none => ∀ j, j < n → ¬ Replaceable l j
  | some i => i < n ∧ Replaceable l i ∧ ∀ j, j < n → Replaceable l j → Older l i j

/-- The better one of a slot found so far and slot `n`. -/
def olderOf (l : List ProbeSlot) (best : Option Nat) (n : Nat) : Option Nat :=
  if !(l.getD n .free).valid || (l.getD n .free).pinned then best
  else
    match best with
    | none => some n
    | some j => if (l.getD n .free).stamp < (l.getD j .free).stamp then some n else some j

theorem leastRecent_eq (l : List ProbeSlot) : leastRecent l = (List.range l.length).foldl (olderOf l) none := rfl

theorem OldestBelow.succ {l : List ProbeSlot} {n : Nat} (hn : n < l.length) {best : Option Nat} (h : OldestBelow l n best) :
    OldestBelow l (n + 1) (olderOf l best n) := by
  unfold olderOf
  by_cases hr : Replaceable l n
  · have hguard : (!(l.getD n .free).valid || (l.getD n .free).pinned) = false := by rw [hr.2.1, hr.2.2]; rfl
    rw [hguard, if_neg Bool.false_ne_true]
    cases best with
    | none =>
      refine ⟨n.lt_succ_self, hr, fun j hj hrj => ?_⟩
      have hjn : j = n := by
        by_contra hne
        exact h j (by omega) hrj
      exact .inr ⟨by rw [hjn], hjn.ge⟩
    | some i =>
      obtain ⟨hi, hri, hold⟩ := h
      dsimp only
      split
      · rename_i hlt
        refine ⟨n.lt_succ_self, hr, fun j hj hrj => ?_⟩
        by_cases hjn : j = n
        · exact .inr ⟨by rw [hjn], hjn.ge⟩
        · have := hold j (by omega) hrj
          unfold Older at *
          omega
      · rename_i hge
        refine ⟨by omega, hri, fun j hj hrj => ?_⟩
        by_cases hjn : j = n
        · subst hjn
          unfold Older
          omega
        · exact hold j (by omega) hrj
  · have hguard : (!(l.getD n .free).valid || (l.getD n .free).pinned) = true := by
      rw [Bool.or_eq_true, Bool.not_eq_true', ← Bool.not_eq_true, ← Bool.not_eq_false (ProbeSlot.pinned _), ← not_and_or]
      exact fun hv => hr ⟨hn, hv⟩
    have hskip {j : Nat} (hj : j < n + 1) (hrj : Replaceable l j) : j < n :=
      lt_of_le_of_ne (Nat.le_of_lt_succ hj) fun hjn => hr (hjn ▸ hrj)
    rw [if_pos hguard]
    cases best with
    | none => exact fun j hj hrj => h j (hskip hj hrj) hrj
    | some i => exact ⟨h.1.trans n.lt_succ_self, h.2.1, fun j hj hrj => h.2.2 j (hskip hj hrj) hrj⟩

theorem leastRecent_oldest (l : List ProbeSlot) : OldestBelow l l.length (leastRecent l) := by
  have hall (n : Nat) (hn : n ≤ l.length) : OldestBelow l n ((List.range n).foldl (olderOf l) none) := by
    induction n with
    | zero => exact fun j hj => absurd hj (Nat.not_lt_zero j)
    | succ n ih =>
      rw [List.range_succ, List.foldl_concat]
      exact (ih (by omega)).succ hn
  exact hall l.length le_rfl

/-- The slot that a miss takes: the lowest idle one, or else the oldest replaceable one (R170). -/
def IsVictim (l : List ProbeSlot) (i : Nat) : Prop :=
  (i < l.length ∧ (l.getD i .free).Idle ∧ ∀ j, j < i → ¬ (l.getD j .free).Idle) ∨
  ((∀ j, j < l.length → ¬ (l.getD j .free).Idle) ∧ Replaceable l i ∧ ∀ j, Replaceable l j → Older l i j)

theorem victim_of_isVictim {l : List ProbeSlot} {i : Nat} (h : IsVictim l i) : victim l = some i := by
  obtain ⟨hi, hidle, hfirst⟩ | ⟨hbusy, hr, hold⟩ := h
  · have hfind : l.findIdx? ProbeSlot.isFree = some i :=
      findIdx?_eq_some_of_getD hi ((ProbeSlot.isFree_iff _).mpr hidle) fun j hj =>
        Bool.eq_false_iff.mpr (mt (ProbeSlot.isFree_iff _).mp (hfirst j hj))
    rw [victim, hfind]
  · have hfind : l.findIdx? ProbeSlot.isFree = none :=
      findIdx?_eq_none_of_getD fun j hj => Bool.eq_false_iff.mpr (mt (ProbeSlot.isFree_iff _).mp (hbusy j hj))
    have holdest := leastRecent_oldest l
    rw [victim, hfind]
    dsimp only
    cases hl : leastRecent l with
    | none =>
      rw [hl] at holdest
      exact absurd hr (holdest i hr.1)
    | some k =>
      rw [hl] at holdest
      obtain ⟨hk, hrk, holdk⟩ := holdest
      have hik := hold k hrk
      have hki := holdk i hr.1 hr
      unfold Older at hik hki
      exact congrArg some (by omega)

theorem victim_none {l : List ProbeSlot} (h : ∀ i, ¬ IsVictim l i) : victim l = none := by
  have hbusy (j : Nat) (hj : j < l.length) : ¬ (l.getD j .free).Idle := by
    induction j using Nat.strong_induction_on with
    | _ j ih => exact fun hidle => h j (.inl ⟨hj, hidle, fun k hk => ih k hk (hk.trans hj)⟩)
  have hfind : l.findIdx? ProbeSlot.isFree = none :=
    findIdx?_eq_none_of_getD fun j hj => Bool.eq_false_iff.mpr (mt (ProbeSlot.isFree_iff _).mp (hbusy j hj))
  have holdest := leastRecent_oldest l
  rw [victim, hfind]
  dsimp only
  cases hl : leastRecent l with
  | none => rfl
  | some k =>
    rw [hl] at holdest
    obtain ⟨hk, hrk, holdk⟩ := holdest
    exact absurd (.inr ⟨hbusy, hrk, fun j hrj => holdk j hrj.1 hrj⟩) (h k)

/-! ### probe, prinv, prpin, prunpin (R170, R172) -/

/-- A region with one slot replaced. -/
def State.slotSet (s : State) (p : ProbeRegion) (i : Nat) (x : ProbeSlot) : State := s.setRegion { p with slots := p.slots.set i x }

/-- A region that has counted one probe more. -/
def ProbeRegion.tick (p : ProbeRegion) : ProbeRegion := { p with clock := p.clock + 1 }

/-- The state after a miss: the slot, or −1, in `d`, and the branch to the probe's own offset (R170). -/
def State.missed (u : State) (o : BitVec 10) (d : BitVec 5) (v : Word) : State :=
  { u with cpu := (u.cpu.wx d v).jumpTo (u.cpu.pc + 4 * o.signExtend 64) }

theorem probeTo_setX (u : State) (o : BitVec 10) (d : BitVec 5) (v : Word) : probeTo o (u.setX d v) = u.missed o d v :=
  congrArg (fun pc : Word => { u with cpu := (u.cpu.wx d v).jumpTo (pc + 4 * o.signExtend 64) }) (Cell.wx_pc u.cpu d v)

section
variable {s : State} {r : BitVec 3} (he : s.cpu.executes r = true) {a : BitVec 5} {p : ProbeRegion} (hp : s.probeRegion = some p)
include he hp

section
variable {d : BitVec 5} (hr : s.cpu.ready [d, a] = true)
include hr

section
variable {o : BitVec 10}

theorem exec_probe_of_misaligned (h : (s.x a).toNat % blockBytes p.code ≠ 0) :
    exec (.probe o a d r) s = .next (s.trap 3 (s.x a)) := by
  rw [exec_probe, execProbe, frontWord_ready he hr, withRegion_of_region hp]
  exact if_pos h

variable (h : (s.x a).toNat % blockBytes p.code = 0)
include h

theorem exec_probe_of_found {i : Nat}
    (hi : p.slots.findIdx? (fun x => !x.isFree && x.tag == some (s.x a)) = some i) :
    exec (.probe o a d r) s = .next ((s.slotSet p.tick i { p.slots.getD i .free with stamp := p.clock + 1 }).setX d
      (BitVec.ofNat 64 i)).advance := by
  rw [exec_probe, execProbe, frontWord_ready he hr, withRegion_of_region hp]
  refine (if_neg (not_not_intro h)).trans ?_
  simp only [hi]
  rfl

variable (hm : p.slots.findIdx? (fun x => !x.isFree && x.tag == some (s.x a)) = none)
include hm

theorem exec_probe_of_no_victim (hv : victim p.slots = none) : exec (.probe o a d r) s = .next (s.missed o d (-1)) := by
  rw [exec_probe, execProbe, frontWord_ready he hr, withRegion_of_region hp]
  refine (if_neg (not_not_intro h)).trans ?_
  simp only [hm, hv, probeTo_setX]

variable {i : Nat} (hv : victim p.slots = some i)
include hv

theorem exec_probe_of_busy (hb : s.cpu.rangesBusy [⟨p.line i, p.lines, true⟩] = true) : exec (.probe o a d r) s = .next s := by
  rw [exec_probe, execProbe, frontWord_ready he hr, withRegion_of_region hp]
  refine (if_neg (not_not_intro h)).trans ?_
  simp only [hm, hv, hb, if_true]

theorem exec_probe_of_victim (hb : s.cpu.rangesBusy [⟨p.line i, p.lines, true⟩] = false) :
    exec (.probe o a d r) s = .next (((s.slotSet p.tick i ⟨some (s.x a), true, false, false, p.clock + 1, s.x a, 0⟩).setFull
      p.cluster (p.line i) p.lines false).missed o d (BitVec.ofNat 64 i)) := by
  rw [exec_probe, execProbe, frontWord_ready he hr, withRegion_of_region hp]
  refine (if_neg (not_not_intro h)).trans ?_
  simp only [hm, hv, hb, Bool.false_eq_true, if_false, probeTo_setX]
  rfl

end

theorem exec_prinv_of_missed (hm : p.slots.findIdx? (fun x => !x.isFree && x.tag == some (s.x a)) = none) :
    exec (.prinv a d r) s = .next (s.setX d (-1)).advance := by
  rw [exec_prinv, execPrinv, frontWord_ready he hr, withRegion_of_region hp]
  simp only [hm]

variable {i : Nat} (hi : p.slots.findIdx? (fun x => !x.isFree && x.tag == some (s.x a)) = some i)
include hi

theorem exec_prinv_of_pinned (h : (p.slots.getD i .free).pinned = true) : exec (.prinv a d r) s = .next (s.trap 0x0C (s.x a)) := by
  rw [exec_prinv, execPrinv, frontWord_ready he hr, withRegion_of_region hp]
  simp only [hi, h, if_true]
  rfl

theorem exec_prinv_of_unpinned (h : (p.slots.getD i .free).pinned = false) :
    exec (.prinv a d r) s = .next ((s.slotSet p i (p.slots.getD i .free).drop).setX d (BitVec.ofNat 64 i)).advance := by
  rw [exec_prinv, execPrinv, frontWord_ready he hr, withRegion_of_region hp]
  simp only [hi, h, Bool.false_eq_true, if_false]
  rfl

end

variable (hr : s.cpu.ready [a] = true)
include hr

theorem exec_prpin_of_used (h : ¬ (p.slots.length ≤ (s.x a).toNat ∨ (p.slots.getD (s.x a).toNat .free).Idle)) :
    exec (.prpin a r) s =
      .next (s.slotSet p (s.x a).toNat { p.slots.getD (s.x a).toNat .free with pinned := true }).advance := by
  rw [exec_prpin, execPrpin, frontWord_ready he hr, withRegion_of_region hp]
  refine if_neg ?_
  rwa [Bool.or_eq_true, decide_eq_true_eq, ProbeSlot.isFree_iff]

theorem exec_prpin_of_idle (h : p.slots.length ≤ (s.x a).toNat ∨ (p.slots.getD (s.x a).toNat .free).Idle) :
    exec (.prpin a r) s = .next (s.trap 0x0C (s.x a)) := by
  rw [exec_prpin, execPrpin, frontWord_ready he hr, withRegion_of_region hp]
  refine if_pos ?_
  rwa [Bool.or_eq_true, decide_eq_true_eq, ProbeSlot.isFree_iff]

theorem exec_prunpin_of_slot (h : (s.x a).toNat < p.slots.length) : exec (.prunpin a r) s =
    .next (s.slotSet p (s.x a).toNat { p.slots.getD (s.x a).toNat .free with pinned := false }).advance := by
  rw [exec_prunpin, execPrunpin, frontWord_ready he hr, withRegion_of_region hp]
  exact if_neg (Nat.not_le.mpr h)

theorem exec_prunpin_of_no_slot (h : p.slots.length ≤ (s.x a).toNat) : exec (.prunpin a r) s = .next (s.trap 0x0C (s.x a)) := by
  rw [exec_prunpin, execPrunpin, frontWord_ready he hr, withRegion_of_region hp]
  exact if_pos h

end

/-! ### A line of a fill (R170) -/

theorem translateFor_translated (s : State) (ctx die : Nat) (va : Word) (a : Access) :
    Translated s (translateFor s ctx die va a).after := by
  unfold translateFor
  dsimp only
  split
  · exact .refl s
  · split
    · split
      · split <;> exact touchPage_translated (s.usedLl _ _) ..
      · exact .refl s
    · have hw := walkFor_translated s ctx die va.toNat a
      split
      · rename_i hx
        rw [hx] at hw
        split <;> exact hw.trans (touchPage_translated ..)
      · rename_i hx
        rw [hx] at hw
        exact hw

/-- The bytes at `k` written to a line of a cluster's scratchpad. -/
def State.lineWritten (u : State) (cluster line k : Nat) : State := { u with
  sp := writeLE u.sp (spKey cluster (128 * line)) 128 (readLE u.mem k 128)
  spPoison := healed u.spPoison (spKey cluster (128 * line)) 128 }

/-- The state once a line of a fill has been read at home, written to its slot and set full. -/
def State.lineFilled (u : State) (cluster line k : Nat) : State :=
  ((u.lineWritten cluster line k).syncTouch k).setFull cluster line 1 true

theorem syncTouch_sp (s : State) (k : Nat) : (s.syncTouch k).sp = s.sp := by rw [syncTouch_frame]
theorem syncTouch_spEmpty (s : State) (k : Nat) : (s.syncTouch k).spEmpty = s.spEmpty := by rw [syncTouch_frame]
theorem syncTouch_mem (s : State) (k : Nat) : (s.syncTouch k).mem = s.mem := by rw [syncTouch_frame]
theorem syncTouch_cpu (s : State) (k : Nat) : (s.syncTouch k).cpu = s.cpu := by rw [syncTouch_frame]

section
variable (s : State) (cluster line n : Nat) (full : Bool)

theorem setFull_sp : (s.setFull cluster line n full).sp = s.sp := rfl
theorem setFull_mem : (s.setFull cluster line n full).mem = s.mem := rfl
theorem setFull_cpu : (s.setFull cluster line n full).cpu = s.cpu := rfl

end

section
variable (u : State) (cluster line k : Nat)

theorem lineFilled_sp : (u.lineFilled cluster line k).sp = writeLE u.sp (spKey cluster (128 * line)) 128 (readLE u.mem k 128) := by
  rw [State.lineFilled, setFull_sp, syncTouch_sp, State.lineWritten]

theorem lineFilled_mem : (u.lineFilled cluster line k).mem = u.mem := by
  rw [State.lineFilled, setFull_mem, syncTouch_mem, State.lineWritten]

theorem lineFilled_cpu : (u.lineFilled cluster line k).cpu = u.cpu := by
  rw [State.lineFilled, setFull_cpu, syncTouch_cpu, State.lineWritten]

theorem mem_lineFilled_spEmpty (l : Nat) :
    l ∈ (u.lineFilled cluster line k).spEmpty ↔ l ∈ u.spEmpty ∧ l ≠ spLineNo cluster (128 * line) := by
  have hone : InLines cluster line 1 l ↔ l = spLineNo cluster (128 * line) := by
    constructor
    · rintro ⟨i, hi, rfl⟩
      rw [Nat.lt_one_iff.mp hi, Nat.add_zero]
    · exact fun h => ⟨0, Nat.one_pos, h⟩
  rw [State.lineFilled, mem_setFull_full, hone, syncTouch_spEmpty, State.lineWritten]

end

theorem fillLines_succ_of_home {ctx die cluster n line : Nat} {va : Word} {s u : State} {q : Place} {leaf : Word}
    (ht : translateFor s ctx die va .read = .ok q leaf u) (hd : isDevice q.pa = false) (hw : u.homeWaits (u.key q) = false)
    (hp : poisonedIn u.memPoison (u.key q) 128 = false) :
    fillLines ctx die cluster (n + 1) va line s =
      fillLines ctx die cluster n (va + 128) (line + 1) (u.lineFilled cluster line (u.key q)) := by
  simp only [fillLines, ht, hd, hw, hp, Bool.false_eq_true, if_false]
  rfl

/-! ### How a fill ends (R170, R171) -/

section
variable {cluster firing slot : Nat} {p : ProbeRegion} {x : ProbeSlot} {s : State}
  (hp : s.probes.find? (fun q => q.cluster == cluster && q.firing == firing) = some p) (hx : p.slots[slot]? = some x)
include hp hx

theorem exec_probeFill_of_not_filling (h : x.filling = false) : exec (.probeFill cluster firing slot) s = .next s := by
  have hslot : p.slots.getD slot .free = x := by rw [List.getD, hx, Option.getD_some]
  rw [exec_probeFill, execProbeFill, hp]
  simp only [hslot, h, Bool.not_false, if_true]

/-- The lines that a fill still has to write, and how far it comes. -/
def State.fillOn (s : State) (cluster slot : Nat) (p : ProbeRegion) (x : ProbeSlot) : State × Nat × FillEnd :=
  fillLines p.ctx (stackDie s.fuses (cluster / 16)) cluster (p.lines - x.filled) (x.fillFrom + BitVec.ofNat 64 (128 * x.filled))
    (p.line slot + x.filled) s

variable (h : x.filling = true) {u : State} {left : Nat}
include h

theorem exec_probeFill_of_full (hf : s.fillOn cluster slot p x = (u, left, .full)) : exec (.probeFill cluster firing slot) s =
    .next (u.slotSet p slot (if x.tag = none then .free else { x with filling := false, valid := true })) := by
  have hslot : p.slots.getD slot .free = x := by rw [List.getD, hx, Option.getD_some]
  unfold State.fillOn at hf
  rw [exec_probeFill, execProbeFill, hp]
  simp only [hslot, h, Bool.not_true, Bool.false_eq_true, if_false, hf, Option.isNone_iff_eq_none]
  rfl

theorem exec_probeFill_of_fault {c : Nat} (hf : s.fillOn cluster slot p x = (u, left, .fault c)) :
    exec (.probeFill cluster firing slot) s = .next ((u.slotSet p slot .free).post p.ctx 5 cluster
      (record 3 0x0E p.cluster u.now p.node x.fillFrom.toNat [BitVec.ofNat 8 c])) := by
  have hslot : p.slots.getD slot .free = x := by rw [List.getD, hx, Option.getD_some]
  unfold State.fillOn at hf
  rw [exec_probeFill, execProbeFill, hp]
  simp only [hslot, h, Bool.not_true, Bool.false_eq_true, if_false, hf]
  rfl

theorem exec_probeFill_of_wait (hf : s.fillOn cluster slot p x = (u, left, .wait)) : exec (.probeFill cluster firing slot) s =
    .next (u.slotSet p slot { x with filled := p.lines - left }) := by
  have hslot : p.slots.getD slot .free = x := by rw [List.getD, hx, Option.getD_some]
  unfold State.fillOn at hf
  rw [exec_probeFill, execProbeFill, hp]
  simp only [hslot, h, Bool.not_true, Bool.false_eq_true, if_false, hf]
  rfl

end

/-- Settles O38: each word by what it finds in the region, a fill by how its lines end, and a line by its translation. -/
theorem probesAndFills : Obligations.ProbesAndFills := by
  unfold Obligations.ProbesAndFills
  constructor
  · intro b a d o r s he hr tag n code base
    have hrda : s.cpu.ready [d, a] = true := Cell.ready_of_subset hr (by simp)
    have hra : s.cpu.ready [a] = true := Cell.ready_of_subset hr (by simp)
    refine ⟨?_, exec_probeWord_of_none he hrda, ?_⟩
    · intro bad without made
      refine ⟨exec_prcfg_of_bad he hr, fun k hb ho => exec_prcfg_of_outside he hr hb ho, fun hb ho => ⟨?_, fun hq => ?_⟩⟩
      · exact fun p x hp hx hf => exec_prcfg_of_filling he hr hb ho hp hx hf
      · have hexec := exec_prcfg_of_quiet (d := d) he hr hb ho hq
        exact ⟨fun hfew => hexec.trans (if_pos hfew),
          fun hroom => ⟨_, hexec.trans (if_neg (Nat.not_lt.mpr hroom)), wroteX_setX_advance made d _⟩⟩
    · intro p hp slot idle holds found missed old vic put probed branched
      refine ⟨exec_probe_of_misaligned he hp hrda,
        fun ha => ⟨fun i hi => ?_, fun i hm hv => ⟨fun hb => ?_, fun hb => ?_⟩, fun hm hv => ?_⟩,
        fun i hi => ⟨fun hpin => ?_, fun hpin => ?_⟩, fun hm => ?_, fun hout => ⟨?_, ?_⟩,
        fun hin => ⟨fun hid => ?_, fun hid => ?_, ?_⟩⟩
      · exact ⟨_, exec_probe_of_found he hp hrda ha (lookup_found hi.1 hi.2), wroteX_setX_advance _ d _⟩
      · exact exec_probe_of_busy he hp hrda ha (lookup_missed hm) (victim_of_isVictim hv) hb
      · refine ⟨_, exec_probe_of_victim he hp hrda ha (lookup_missed hm) (victim_of_isVictim hv) hb, ?_, fun l => ?_⟩
        · rfl
        · exact mem_setFull_empty ..
      · exact ⟨_, exec_probe_of_no_victim he hp hrda ha (lookup_missed hm) (victim_none hv), rfl⟩
      · exact exec_prinv_of_pinned he hp hrda (lookup_found hi.1 hi.2) hpin
      · exact ⟨_, exec_prinv_of_unpinned he hp hrda (lookup_found hi.1 hi.2) hpin, wroteX_setX_advance _ d _⟩
      · exact ⟨_, exec_prinv_of_missed he hp hrda (lookup_missed hm), wroteX_setX_advance _ d _⟩
      · exact exec_prpin_of_idle he hp hra (.inl hout)
      · exact exec_prunpin_of_no_slot he hp hra hout
      · exact exec_prpin_of_idle he hp hra (.inr hid)
      · exact ⟨_, exec_prpin_of_used he hp hra (not_or.mpr ⟨Nat.not_le.mpr hin, hid⟩), stepped_advance _⟩
      · exact ⟨_, exec_prunpin_of_slot he hp hra hin, stepped_advance _⟩
  · intro cluster firing slot p x s hp hx die filled ends
    have hfilled : s.fillOn cluster slot p x = (filled.1, filled.2.1, filled.2.2) := rfl
    refine ⟨fun hf => ⟨s, exec_probeFill_of_not_filling hp hx hf, rfl⟩, fun hf => ⟨fun he => ?_, fun c he => ?_, fun he => ?_⟩,
      fun va line => rfl, fun n va line q leaf u hm ht hd hw hpoison => ?_⟩
    · rw [he] at hfilled
      exact ⟨_, exec_probeFill_of_full hp hx hf hfilled, rfl⟩
    · rw [he] at hfilled
      exact ⟨_, exec_probeFill_of_fault hp hx hf hfilled, rfl⟩
    · rw [he] at hfilled
      exact ⟨_, exec_probeFill_of_wait hp hx hf hfilled, rfl⟩
    · have htrans := translateFor_translated s p.ctx die va .read
      rw [ht] at htrans
      obtain ⟨hmem, hsp, -, -, -⟩ := htrans
      have hwf : Memory.wf u.sp = true := (hmem hm).2
      refine ⟨u.lineFilled cluster line (u.key q), fillLines_succ_of_home ht hd hw hpoison, ?_, fun k hk => ?_,
        fun l => mem_lineFilled_spEmpty .., ?_, ?_⟩
      · rw [lineFilled_sp]
        exact (readLE_writeLE hwf ..).trans (Nat.mod_eq_of_lt (readLE_lt ..))
      · rw [lineFilled_sp, readByte_writeLE hwf, if_neg (by omega)]
        exact congrArg (readByte · k) hsp
      · exact lineFilled_mem ..
      · exact lineFilled_cpu ..

end Sys2Proof.Machine

/-! # Proofs: ring handles, ring words and hand-overs (O37) -/

namespace Sys2Proof.Machine

/-! ### The counts of a ring (R165) -/

/-- The head passes slots: it moves, and nothing else does. -/
theorem passHead_frame (n : Nat) (u : Ring) :
    Ring.passHead n u = { u with head := (Ring.passHead n u).head, pHead := (Ring.passHead n u).pHead } := by
  induction n generalizing u with
  | zero => rfl
  | succ n ih =>
    rw [Ring.passHead]
    split
    · exact ih _
    · rfl

/-- The tail passes slots: it moves, and the slots that it passes become free. -/
theorem passTail_frame (n : Nat) (u : Ring) : Ring.passTail n u = { u with
    tail := (Ring.passTail n u).tail
    pTail := (Ring.passTail n u).pTail
    slots := (Ring.passTail n u).slots } := by
  induction n generalizing u with
  | zero => rfl
  | succ n ih =>
    rw [Ring.passTail]
    split
    · exact ih _
    · rfl

theorem passHead_cluster (n : Nat) (u : Ring) : (Ring.passHead n u).cluster = u.cluster := by rw [passHead_frame]
theorem passHead_unit (n : Nat) (u : Ring) : (Ring.passHead n u).unit = u.unit := by rw [passHead_frame]
theorem passTail_cluster (n : Nat) (u : Ring) : (Ring.passTail n u).cluster = u.cluster := by rw [passTail_frame]
theorem passTail_unit (n : Nat) (u : Ring) : (Ring.passTail n u).unit = u.unit := by rw [passTail_frame]

/-- Counting one and then `n` more. -/
theorem add_one_add_ofNat (c : BitVec 32) (n : Nat) : c + 1 + BitVec.ofNat 32 n = c + BitVec.ofNat 32 (n + 1) := by
  rw [BitVec.ofNat_add, BitVec.add_assoc, BitVec.add_comm (BitVec.ofNat 32 n)]
  rfl

theorem claimMany_frame (n : Nat) (u : Ring) : Ring.claimMany n u = { u with
    claimed := u.claimed + BitVec.ofNat 32 n
    pClaimed := (Ring.claimMany n u).pClaimed
    slots := (Ring.claimMany n u).slots } := by
  induction n generalizing u with
  | zero => rw [BitVec.add_zero]; rfl
  | succ n ih =>
    rw [Ring.claimMany, ih u.claim, ← add_one_add_ofNat]
    rfl

theorem commitOne_frame (u : Ring) : u.commitOne = { u with
    head := u.commitOne.head
    pHead := u.commitOne.pHead
    taken := u.taken + 1
    pTaken := u.commitOne.pTaken
    slots := u.commitOne.slots } := by
  unfold Ring.commitOne
  split <;> rfl

theorem commitMany_frame (n : Nat) (u : Ring) : Ring.commitMany n u = { u with
    head := (Ring.commitMany n u).head
    pHead := (Ring.commitMany n u).pHead
    taken := u.taken + BitVec.ofNat 32 n
    pTaken := (Ring.commitMany n u).pTaken
    slots := (Ring.commitMany n u).slots } := by
  induction n generalizing u with
  | zero => rw [BitVec.add_zero]; rfl
  | succ n ih =>
    rw [Ring.commitMany, ih u.commitOne, ← add_one_add_ofNat, commitOne_frame]

/-! ### The unit of a handle (R164) -/

theorem setRing_setRing (s : State) {v w : Ring} (hc : w.cluster = v.cluster) (hn : w.unit = v.unit) :
    (s.setRing v).setRing w = s.setRing w := by
  have hrings : (s.setRing v).rings.map (fun x => if x.cluster = w.cluster && x.unit = w.unit then w else x) =
      s.rings.map (fun x => if x.cluster = w.cluster && x.unit = w.unit then w else x) := by
    rw [State.setRing, List.map_map]
    refine List.map_congr_left fun x _ => ?_
    rw [Function.comp_apply, hc, hn]
    by_cases hx : x.cluster = v.cluster && x.unit = v.unit
    · simp [hx]
    · rw [if_neg hx]
  exact congrArg (fun l => { s with rings := l }) hrings

/-- A unit replaced in place is the one that its handle binds. -/
theorem ringOf_of_setRing {s t : State} {h : Nat} {u w : Ring} (hu : s.ringOf h = some u) (hc : w.cluster = u.cluster)
    (hn : w.unit = u.unit) (hq : t.cpu.q = s.cpu.q) (hcluster : t.cpu.cluster = s.cpu.cluster)
    (hr : t.rings = (s.setRing w).rings) : t.ringOf h = some w := by
  unfold State.ringOf at hu ⊢
  rw [hq, hcluster, hr]
  cases hb : s.cpu.q[mod16 h] with
  | none => rw [hb] at hu; nomatch hu
  | some n =>
    rw [hb] at hu
    have hfind : s.rings.find? (fun v => v.cluster == s.cpu.cluster && v.unit == n) = some u := hu
    have hself := List.find?_some hfind
    simp only [Bool.and_eq_true, beq_iff_eq] at hself
    obtain ⟨huc, hun⟩ := hself
    have hsame : (fun v : Ring => v.cluster == s.cpu.cluster && v.unit == n) ∘
        (fun v => if v.cluster = w.cluster && v.unit = w.unit then w else v) = fun v => v.cluster == s.cpu.cluster && v.unit == n := by
      funext v
      rw [Function.comp_apply, hc, hn, huc, hun]
      split
      · rename_i hv
        simp only [Bool.and_eq_true, decide_eq_true_eq] at hv
        simp [hc, hn, huc, hun, hv]
      · rfl
    show (s.rings.map (fun v => if v.cluster = w.cluster && v.unit = w.unit then w else v)).find? _ = some w
    rw [List.find?_map, hsame, hfind, Option.map_some, hc, hn]
    simp

theorem withRing_of_ring {s : State} {q : Nat} {u : Ring} (h : s.ringOf q = some u) (body : Ring → Out) : withRing q s body = body u := by
  rw [withRing, h]

theorem withRing_of_none {s : State} {q : Nat} (h : s.ringOf q = none) (body : Ring → Out) :
    withRing q s body = .next (s.trap 0x0A (BitVec.ofNat 64 q)) := by
  rw [withRing, h]
  rfl

/-- With nobody before it a word goes on once its condition holds (R168). -/
theorem ringWait_first {s : State} {u : Ring} (hw : u.waiters = []) {ok : Bool} (hok : ok = true) (kind : RingWait)
    (go : State → Ring → Out) : ringWait s u kind ok go = go (s.setRing u) u := by
  have hu : { u with waiters := [] } = u := by rw [← hw]
  simp only [ringWait, hw, List.filter_nil, List.head?_nil, hok, Bool.and_self, if_true, hu]

/-- No hand-over waits for a commit. -/
theorem settleRing_of_no_handover (s : State) {u : Ring} (h : u.handovers = []) : s.settleRing u = s := by
  rw [State.settleRing, h]
  exact ite_self s

theorem settleRing_of_not_eager {s : State} (h : s.cpu.eager = false) (u : Ring) : s.settleRing u = s := by
  rw [State.settleRing, h, if_neg Bool.false_ne_true]

/-! ### What a ring word leaves of its cell -/

/-- The cell `d` differs from `c` in what no flow of control and no handle looks at: L1, reservation, pending wake event, scalar
registers and their poison, and its counts of hand-overs. -/
def KeepsFlow (c d : Cell) : Prop := d = { c with
  l1 := d.l1
  reservation := d.reservation
  wake := d.wake
  x := d.x
  hx := d.hx
  poison := d.poison
  sent := d.sent
  received := d.received }

theorem KeepsFlow.trans {c d e : Cell} (h : KeepsFlow c d) (k : KeepsFlow d e) : KeepsFlow c e := by
  unfold KeepsFlow at *
  rw [k, h]

theorem keepsFlow_wx (c : Cell) (n : BitVec 5) (v : Word) : KeepsFlow c (c.wx n v) := by
  unfold KeepsFlow
  rw [Cell.wx_eq]

/-- Of the acting cell a wake event changes the note of it alone. -/
theorem wakeRing_cpu (s : State) (u : Ring) : (s.wakeRing u).cpu = { s.cpu with
    reservation := (s.wakeRing u).cpu.reservation
    wake := (s.wakeRing u).cpu.wake } :=
  (wakeWhere_posted s (fun c => c.cluster = u.cluster && c.firing = u.firing && c.q.toList.contains (some u.unit))).cell

theorem keepsFlow_wakeRing (s : State) (u : Ring) : KeepsFlow s.cpu (s.wakeRing u).cpu := by
  have h := wakeRing_cpu s u
  generalize (s.wakeRing u).cpu = c at h
  rw [h]
  rfl

theorem keepsFlow_release (s : State) (scope : Nat) : KeepsFlow s.cpu (s.release scope).cpu := by
  have h := release_cpu s scope
  generalize (s.release scope).cpu = c at h
  rw [h]
  rfl

theorem keepsFlow_acquire (s : State) (scope : Nat) : KeepsFlow s.cpu (s.acquire scope).cpu := by
  unfold State.acquire
  split <;> rfl

theorem wakeRing_x (s : State) (u : Ring) (n : BitVec 5) : (s.wakeRing u).x n = s.x n :=
  Cell.rx_congr n (by rw [wakeRing_cpu]) (by rw [wakeRing_cpu]) (by rw [wakeRing_cpu])

theorem release_x (s : State) (scope : Nat) (n : BitVec 5) : (s.release scope).x n = s.x n :=
  Cell.rx_congr n (by rw [release_cpu]) (by rw [release_cpu]) (by rw [release_cpu])

theorem release_sp (s : State) (scope : Nat) : (s.release scope).sp = s.sp := by
  have h : RecordsPosted (s.upd (fun c => { c with l1 := (s.release scope).cpu.l1 })) (s.release scope) := release_l1Written s scope
  exact h.sp

theorem release_rings (s : State) (scope : Nat) : (s.release scope).rings = s.rings := by
  have h : RecordsPosted (s.upd (fun c => { c with l1 := (s.release scope).cpu.l1 })) (s.release scope) := release_l1Written s scope
  rw [h.rest]
  rfl

/-- What an acquire leaves of the L1 depends on the L1 alone. -/
theorem acquire_l1_congr {s t : State} (h : t.cpu.l1 = s.cpu.l1) (scope : Nat) : (t.acquire scope).cpu.l1 = (s.acquire scope).cpu.l1 := by
  unfold State.acquire
  split
  · exact h
  · simp only [State.upd_cpu, Cell.acquired, h]

section
variable {s t : State} (h : KeepsFlow s.cpu t.cpu)
include h

theorem KeepsFlow.advance_cpu : t.advance.cpu = { t.cpu with
    pc := (s.cpu.flowTo (s.cpu.pc + 4)).pc
    loops := (s.cpu.flowTo (s.cpu.pc + 4)).loops
    lc := (s.cpu.flowTo (s.cpu.pc + 4)).lc } := by
  have hpc : t.cpu.pc = s.cpu.pc := by rw [h]
  rw [State.advance_cpu, hpc]
  exact Cell.flowTo_congr _ (by rw [h]) (by rw [h])

theorem KeepsFlow.advance_v : t.advance.cpu.v = s.cpu.v := by
  rw [h.advance_cpu]
  show t.cpu.v = s.cpu.v
  rw [h]

theorem KeepsFlow.advance_q : t.advance.cpu.q = s.cpu.q := by
  rw [h.advance_cpu]
  show t.cpu.q = s.cpu.q
  rw [h]

theorem KeepsFlow.advance_pc : t.advance.cpu.pc = (s.cpu.flowTo (s.cpu.pc + 4)).pc := by
  rw [h.advance_cpu]

theorem KeepsFlow.advance_cluster : t.advance.cpu.cluster = s.cpu.cluster := by
  rw [h.advance_cpu]
  show t.cpu.cluster = s.cpu.cluster
  rw [h]

/-- A unit replaced in place is bound by its handle once the word is done. -/
theorem KeepsFlow.advance_ringOf {q : Nat} {u w : Ring} (hu : s.ringOf q = some u) (hc : w.cluster = u.cluster)
    (hn : w.unit = u.unit) (hr : t.rings = (s.setRing w).rings) : t.advance.ringOf q = some w :=
  ringOf_of_setRing hu hc hn h.advance_q h.advance_cluster hr

theorem KeepsFlow.setX (d : BitVec 5) (v : Word) : KeepsFlow s.cpu (t.setX d v).cpu := h.trans (keepsFlow_wx t.cpu d v)

end

/-- From `s` to `t` no scratchpad byte, vector register or handle has changed, and the cell is past its word. -/
def PastWord (s t : State) : Prop :=
  t.sp = s.sp ∧ t.cpu.v = s.cpu.v ∧ t.cpu.q = s.cpu.q ∧ t.cpu.pc = (s.cpu.flowTo (s.cpu.pc + 4)).pc

/-- From `s` to `t` scalar register `d` has become `v`, and no other has changed. -/
def GaveX (s : State) (d : BitVec 5) (v : Word) (t : State) : Prop :=
  (t.x d = if d = 0 then 0 else v) ∧ ∀ x, x ≠ d → t.x x = s.x x

section
variable {s t : State} (h : KeepsFlow s.cpu t.cpu) (hsp : t.sp = s.sp)
include h hsp

theorem KeepsFlow.pastWord : PastWord s t.advance := ⟨hsp, h.advance_v, h.advance_q, h.advance_pc⟩

theorem KeepsFlow.gives (hx : ∀ n, t.x n = s.x n) (d : BitVec 5) (v : Word) :
    PastWord s (t.setX d v).advance ∧ GaveX s d v (t.setX d v).advance := by
  have hwrote := wroteX_setX_advance t d v
  exact ⟨(h.setX d v).pastWord hsp, hwrote.result, fun n hn => (hwrote.others n hn).trans (hx n)⟩

end

/-! ### ringinit (R164) -/

/-- Binding or unbinding the handle is all that the word does to its cell. -/
theorem completes_bindHandle {i : Instr} {q : BitVec 5} {s u : State} {n : Option Nat} (h : exec i s = bindHandle q n u)
    (hcell : u.cpu = s.cpu) (hmem : u.mem = s.mem) (hsp : u.sp = s.sp) : Completes i s (fun t =>
      (t.cpu = { s.cpu.flowTo (s.cpu.pc + 4) with q := s.cpu.q.set (mod16 q.toNat) n } ∧ SameMemory s t) ∧ t.rings = u.rings) := by
  refine ⟨_, h, ⟨?_, fun _ => congrArg (readByte · _) hmem, fun _ => congrArg (readByte · _) hsp⟩, rfl⟩
  rw [advance_upd rfl rfl rfl, hcell, Cell.flowTo_frame s.cpu]

/-- The lowest unit of a cluster that no ring uses. -/
theorem freeUnit_eq_some {s : State} {cluster n : Nat} (hn : n < 64) (hfree : ∀ u ∈ s.rings, u.cluster = cluster → u.unit ≠ n)
    (hlow : ∀ k, k < n → ∃ u ∈ s.rings, u.cluster = cluster ∧ u.unit = k) : s.freeUnit cluster = some n := by
  refine List.find?_range_eq_some.mpr ⟨?_, List.mem_range.mpr hn, fun k hk => ?_⟩
  · simpa using hfree
  · simpa using hlow k hk

section
variable {b a q : BitVec 5} {r : BitVec 3} {s : State} (he : s.cpu.executes r = true) (hr : s.cpu.ready [a, b] = true)
include he hr

theorem exec_ringinit_of_zero (h : s.x a = 0) : exec (.ringinit b a q r) s = bindHandle q none s := by
  rw [exec_ringinit, execRinginit, frontWord_ready he hr]
  exact if_pos h

variable (h : s.x a ≠ 0)
include h

theorem exec_ringinit_of_bad_geometry (hg : geomOk (s.x a) = false) :
    exec (.ringinit b a q r) s = .next (s.trap 0x0A (s.x a)) := by
  rw [exec_ringinit, execRinginit, frontWord_ready he hr]
  refine (if_neg h).trans (if_pos ?_)
  rw [hg, Bool.not_false, Bool.or_true]

variable (hk : (s.x b).toNat < 65536) (hg : geomOk (s.x a) = true)
  (ho : s.cpu.outside (geomBase (s.x a)) (128 * geomSize (s.x a) * geomSlots (s.x a)) = none)
include hk hg ho

theorem exec_ringinit_of_known {u : Ring}
    (hu : s.rings.find? (fun u => u.cluster == s.cpu.cluster && u.firing == s.cpu.firing && u.key == (s.x b).toNat) = some u)
    (hug : u.geom = s.x a) : exec (.ringinit b a q r) s = bindHandle q (some u.unit) s := by
  have hkey : (s.x b).extractLsb' 16 48 = 0 := (extractLsb'_high_eq_zero_iff (s.x b) 16 48 rfl).mpr hk
  rw [exec_ringinit, execRinginit, frontWord_ready he hr]
  simp only [h, hkey, hg, ho, hu, hug, if_false, ne_eq, not_true_eq_false, decide_false, Bool.not_true, Bool.or_self, Bool.false_eq_true]

theorem exec_ringinit_of_unknown {n : Nat}
    (hu : s.rings.find? (fun u => u.cluster == s.cpu.cluster && u.firing == s.cpu.firing && u.key == (s.x b).toNat) = none)
    (hn : s.freeUnit s.cpu.cluster = some n) : exec (.ringinit b a q r) s = bindHandle q (some n)
      { s with rings := s.rings ++ [Ring.fresh s.cpu.cluster n s.cpu.firing (s.x b).toNat (s.x a)] } := by
  have hkey : (s.x b).extractLsb' 16 48 = 0 := (extractLsb'_high_eq_zero_iff (s.x b) 16 48 rfl).mpr hk
  rw [exec_ringinit, execRinginit, frontWord_ready he hr]
  simp only [h, hkey, hg, ho, hu, hn, if_false, ne_eq, not_true_eq_false, decide_false, Bool.not_true, Bool.or_self, Bool.false_eq_true]

end

/-- On a handle that binds nothing each word traps (R167). -/
theorem exec_ringWord_of_none {b q d : BitVec 5} {r : BitVec 3} {s : State} (he : s.cpu.executes r = true)
    (hr : s.cpu.ready [d, b] = true) (h : s.ringOf q.toNat = none) :
    ∀ i ∈ [Instr.ringclaim q d r, .ringcommit b q r, .ringtake q d r, .ringfree b q r, .waitfill b q d r, .waitfree b q d r],
      exec i s = .next (s.trap 0x0A (BitVec.ofNat 64 q.toNat)) := by
  have hd : s.cpu.ready [d] = true := Cell.ready_of_subset hr (by simp)
  have hb : s.cpu.ready [b] = true := Cell.ready_of_subset hr (by simp)
  simp only [List.forall_mem_cons]
  refine ⟨?_, ?_, ?_, ?_, ?_, ?_, List.forall_mem_nil _⟩
  · rw [exec_ringclaim, execRingclaim, frontWord_ready he hd, withRing_of_none h]
  · rw [exec_ringcommit, execRingcommit, frontWord_ready he hb, withRing_of_none h]
  · rw [exec_ringtake, execRingtake, frontWord_ready he hd, withRing_of_none h]
  · rw [exec_ringfree, execRingfree, frontWord_ready he hb, withRing_of_none h]
  · rw [exec_waitfill, execWaitfill, frontWord_ready he hr, waitCount, withRing_of_none h]
  · rw [exec_waitfree, execWaitfree, frontWord_ready he hr, waitCount, withRing_of_none h]

/-! ### Ring words with nobody before them (R165 to R168) -/

/-- The slot index of a ref. -/
def slotIndex (v : Word) : Nat := (v.extractLsb' 0 12).toNat

/-- A wait for a count that is reached gives the count, whether or not the word waits on the unit first. -/
theorem completes_waitCount {i : Instr} {kind : RingWait} {count : Ring → Nat} {b q d : BitVec 5} {u : Ring} {s : State}
    (hexec : exec i s = waitCount kind count b q d s) (hu : s.ringOf q.toNat = some u) (hw : u.waiters = [])
    (hb : (s.x b).toNat ≤ u.nslots) (hc : (s.x b).toNat ≤ count u) :
    Completes i s (fun t => PastWord s t ∧ GaveX s d (BitVec.ofNat 64 (count u)) t ∧ t.mem = s.mem) := by
  have hk : KeepsFlow s.cpu s.cpu := rfl
  have hgives (rings : List Ring) := KeepsFlow.gives (t := { s with rings := rings }) hk rfl (fun _ => rfl) d (BitVec.ofNat 64 (count u))
  rw [waitCount, withRing_of_ring hu] at hexec
  simp only [Nat.not_lt.mpr hb, if_false, ringWait_first hw (decide_eq_true hc)] at hexec
  split at hexec
  · obtain ⟨hkept, hgets⟩ := hgives s.rings
    exact ⟨_, hexec, hkept, hgets, rfl⟩
  · obtain ⟨hkept, hgets⟩ := hgives (s.setRing u).rings
    exact ⟨_, hexec, hkept, hgets, rfl⟩

section
variable {b q d : BitVec 5} {r : BitVec 3} {u : Ring} {s : State} (he : s.cpu.executes r = true) (hi : s.cpu.pending = [])
  (hu : s.ringOf q.toNat = some u)
include he hi hu

section
variable (hw : u.waiters = [])
include hw

theorem exec_ringclaim_of_room (h : u.room ≠ 0) : exec (.ringclaim q d r) s =
    .next ((s.setRing u.claim).setX d (u.ref u.pClaimed)).advance := by
  rw [exec_ringclaim, execRingclaim, frontWord_ready he (Cell.ready_of_idle hi _), withRing_of_ring hu,
    ringWait_first hw (decide_eq_true h), setRing_setRing s (v := u) (w := u.claim) rfl rfl]

theorem completes_ringclaim (h : u.room ≠ 0) : Completes (.ringclaim q d r) s (fun t =>
    PastWord s t ∧ GaveX s d (u.ref u.pClaimed) t ∧ t.mem = s.mem ∧ t.ringOf q.toNat = some u.claim) := by
  have hk : KeepsFlow s.cpu (s.setRing u.claim).cpu := rfl
  obtain ⟨hkept, hgets⟩ := hk.gives rfl (fun _ => rfl) d (u.ref u.pClaimed)
  exact ⟨_, exec_ringclaim_of_room he hi hu hw h, hkept, hgets, rfl, (hk.setX d _).advance_ringOf hu rfl rfl rfl⟩

theorem exec_ringtake_of_filled (hh : u.handovers = []) (hf : u.filled ≠ 0) (hs : u.slot u.pTaken = .filled) :
    exec (.ringtake q d r) s =
      .next ((((s.setRing u.take).wakeRing u).acquire 1).setX d (u.ref u.pTaken)).advance := by
  have hok : (u.filled ≠ 0 && u.slot u.pTaken = .filled) = true := by
    rw [decide_eq_true hf, decide_eq_true hs]
    rfl
  rw [exec_ringtake, execRingtake, frontWord_ready he (Cell.ready_of_idle hi _), withRing_of_ring hu, ringWait_first hw hok]
  dsimp only
  rw [setRing_setRing s (v := u) (w := u.take) rfl rfl, settleRing_of_no_handover _ hh]

theorem completes_ringtake (hh : u.handovers = []) (hf : u.filled ≠ 0) (hs : u.slot u.pTaken = .filled) :
    Completes (.ringtake q d r) s (fun t => PastWord s t ∧ GaveX s d (u.ref u.pTaken) t ∧ t.mem = s.mem ∧
      t.cpu.l1 = (s.acquire 1).cpu.l1 ∧ t.ringOf q.toNat = some u.take) := by
  have hk : KeepsFlow s.cpu (((s.setRing u.take).wakeRing u).acquire 1).cpu :=
    (keepsFlow_wakeRing (s.setRing u.take) u).trans (keepsFlow_acquire ..)
  have hl1 : (((s.setRing u.take).wakeRing u).acquire 1).cpu.l1 = (s.acquire 1).cpu.l1 :=
    acquire_l1_congr (by rw [wakeRing_cpu]; rfl) 1
  obtain ⟨hkept, hgets⟩ := hk.gives rfl (fun n => wakeRing_x (s.setRing u.take) u n) d (u.ref u.pTaken)
  refine ⟨_, exec_ringtake_of_filled he hi hu hw hh hf hs, hkept, hgets, rfl, ?_, (hk.setX d _).advance_ringOf hu rfl rfl rfl⟩
  rw [(hk.setX d (u.ref u.pTaken)).advance_cpu]
  exact (Cell.wx_l1 ..).trans hl1

end

theorem exec_ringcommit_of_claimed (hh : u.handovers = []) (hn : slotIndex (s.x b) < u.nslots)
    (hs : u.slot (slotIndex (s.x b)) = .claimed) (hw : s.releaseWaits 1 = false) :
    let w := Ring.passHead u.nslots (u.setSlot (slotIndex (s.x b)) .filled)
    exec (.ringcommit b q r) s = .next (((s.release 1).setRing w).wakeRing w).advance := by
  intro w
  have hquiet : s.cpu.memoryQuiet = true := by rw [Cell.memoryQuiet, hi]; rfl
  have hslot : ¬ (u.nslots ≤ slotIndex (s.x b) || u.slot (slotIndex (s.x b)) ≠ .claimed) = true := by
    rw [Bool.or_eq_true, decide_eq_true_eq, decide_eq_true_eq, not_or]
    exact ⟨Nat.not_le.mpr hn, not_not_intro hs⟩
  have hnone : (Ring.passHead u.nslots (u.setSlot (slotIndex (s.x b)) .filled)).handovers = [] := by
    rw [passHead_frame]
    exact hh
  rw [exec_ringcommit, execRingcommit, frontWord_ready he (Cell.ready_of_idle hi _), withRing_of_ring hu]
  refine (if_neg hslot).trans ?_
  simp only [hquiet, hw, Bool.not_true, Bool.false_eq_true, if_false]
  exact congrArg (fun t : State => Host.Outcome.next (t.wakeRing w).advance) (settleRing_of_no_handover ((s.release 1).setRing w) hnone)

theorem completes_ringcommit (hh : u.handovers = []) (hn : slotIndex (s.x b) < u.nslots)
    (hs : u.slot (slotIndex (s.x b)) = .claimed) (hw : s.releaseWaits 1 = false) : Completes (.ringcommit b q r) s (fun t =>
      PastWord s t ∧ (∀ x, t.x x = s.x x) ∧ t.mem = (s.release 1).mem ∧
      t.ringOf q.toNat = some (Ring.passHead u.nslots (u.setSlot (slotIndex (s.x b)) .filled))) := by
  set w := Ring.passHead u.nslots (u.setSlot (slotIndex (s.x b)) .filled)
  have hk : KeepsFlow s.cpu (((s.release 1).setRing w).wakeRing w).cpu :=
    (keepsFlow_release s 1).trans (keepsFlow_wakeRing ((s.release 1).setRing w) w)
  exact ⟨_, exec_ringcommit_of_claimed he hi hu hh hn hs hw, hk.pastWord (release_sp s 1),
    fun n => (advance_x _ n).trans ((wakeRing_x ..).trans (release_x s 1 n)), rfl,
    hk.advance_ringOf hu (passHead_cluster ..) (passHead_unit ..) (congrArg (List.map _) (release_rings s 1))⟩

theorem exec_ringfree_of_taken (hn : slotIndex (s.x b) < u.nslots) (hs : u.slot (slotIndex (s.x b)) = .taken) :
    let w := Ring.passTail u.nslots (u.setSlot (slotIndex (s.x b)) .released)
    exec (.ringfree b q r) s = .next ((s.setRing w).wakeRing u).advance := by
  intro w
  have hslot : ¬ (u.nslots ≤ slotIndex (s.x b) || u.slot (slotIndex (s.x b)) ≠ .taken) = true := by
    rw [Bool.or_eq_true, decide_eq_true_eq, decide_eq_true_eq, not_or]
    exact ⟨Nat.not_le.mpr hn, not_not_intro hs⟩
  rw [exec_ringfree, execRingfree, frontWord_ready he (Cell.ready_of_idle hi _), withRing_of_ring hu]
  exact if_neg hslot

theorem completes_ringfree (hn : slotIndex (s.x b) < u.nslots) (hs : u.slot (slotIndex (s.x b)) = .taken) :
    Completes (.ringfree b q r) s (fun t => PastWord s t ∧ (∀ x, t.x x = s.x x) ∧ t.mem = s.mem ∧
      t.ringOf q.toNat = some (Ring.passTail u.nslots (u.setSlot (slotIndex (s.x b)) .released))) := by
  set w := Ring.passTail u.nslots (u.setSlot (slotIndex (s.x b)) .released)
  have hk : KeepsFlow s.cpu ((s.setRing w).wakeRing u).cpu := keepsFlow_wakeRing (s.setRing w) u
  exact ⟨_, exec_ringfree_of_taken he hi hu hn hs, hk.pastWord rfl, fun n => (advance_x _ n).trans (wakeRing_x ..), rfl,
    hk.advance_ringOf hu (passTail_cluster ..) (passTail_unit ..) rfl⟩

end

/-! ### A hand-over's sender (R112) -/

theorem recordHolds_setRing (s : State) (w : Ring) (k : Nat) : (s.setRing w).recordHolds k = s.recordHolds k := rfl

theorem landing_setRing (s : State) (w : Ring) (k : Nat) (bs : List Byte) : (s.setRing w).landing k bs = s.landing k bs := by
  rw [State.landing, State.landing]
  simp only [recordHolds_setRing]
  rfl

theorem homeWrite_setRing (s : State) (w : Ring) (k : Nat) (bs : List Byte) (who : Option Nat) :
    (s.setRing w).homeWrite k bs who = (s.homeWrite k bs who).setRing w := rfl

/-- What lands at home does not depend on the rings. -/
theorem landLine_setRing (s : State) (w : Ring) (k : Nat) (mask : BitVec 128) (data : VReg) (who : Option Nat) :
    (s.setRing w).landLine k mask data who = (s.landLine k mask data who).setRing w := by
  unfold State.landLine
  dsimp only
  refine List.foldl_hom (fun t : State => t.setRing w) fun t i => ?_
  split
  · rw [landing_setRing, homeWrite_setRing]
  · refine List.foldl_hom (fun t : State => t.setRing w) fun t j => ?_
    split
    · rw [landing_setRing, homeWrite_setRing]
    · rfl

theorem writeBack_setRing (s : State) (w : Ring) (no : Nat) : (s.setRing w).writeBack no = (s.writeBack no).setRing w := by
  have hl1 : findLine (s.setRing w).cpu.l1 no = findLine s.cpu.l1 no := rfl
  unfold State.writeBack
  rw [hl1]
  cases findLine s.cpu.l1 no with
  | none => rfl
  | some x =>
    dsimp only
    rw [show (s.setRing w).fuses = s.fuses from rfl, show (s.setRing w).cpu = s.cpu from rfl, landLine_setRing]
    rfl

theorem release_setRing (s : State) (w : Ring) (scope : Nat) : (s.setRing w).release scope = (s.release scope).setRing w := by
  unfold State.release
  split
  · rfl
  · exact List.foldl_hom (fun t : State => t.setRing w) fun t no => writeBack_setRing t w no

/-- The hand-over that a sole sender makes, before it has claimed slots. -/
def newHandover (c : Cell) (q snd rcv n : Nat) (h0 : BitVec 32) : Handover :=
  ⟨c.team, snd, q, sentOf c q + 1, rcv, n, h0, c.id, false, [], false⟩

/-- The same once it has claimed them. -/
def claimedHandover (c : Cell) (q snd rcv n : Nat) (h0 : BitVec 32) : Handover :=
  { newHandover c q snd rcv n h0 with claimed := true }

/-- The same once its sender has arrived. -/
def arrivedHandover (c : Cell) (q snd rcv n : Nat) (h0 : BitVec 32) : Handover :=
  { claimedHandover c q snd rcv n h0 with arrived := [c.id] }

/-- The unit once `n` slots are claimed for its only hand-over. -/
def Ring.claimedFor (u : Ring) (n : Nat) (h : Handover) : Ring := { Ring.claimMany n u with handovers := [h] }

theorem Handover.same_self (h : Handover) : h.same h = true := by simp [Handover.same, Handover.is]

/-- The only hand-over of a unit is replaced by a later state of itself. -/
theorem setHandover_only {u : Ring} {h k : Handover} (hh : u.handovers = [k]) (hs : h.same k = true) :
    u.setHandover h = { u with handovers := [h] } := by
  rw [Ring.setHandover, hh, List.map_singleton, if_pos hs]

/-- Claiming slots does not look at the hand-overs. -/
theorem claimMany_handovers (n : Nat) (u : Ring) (l : List Handover) :
    Ring.claimMany n { u with handovers := l } = { Ring.claimMany n u with handovers := l } := by
  induction n generalizing u with
  | zero => rfl
  | succ n ih => exact ih u.claim

theorem claimedFor_cluster (u : Ring) (n : Nat) (h : Handover) : (u.claimedFor n h).cluster = u.cluster := by
  rw [Ring.claimedFor, claimMany_frame]

theorem claimedFor_unit (u : Ring) (n : Nat) (h : Handover) : (u.claimedFor n h).unit = u.unit := by
  rw [Ring.claimedFor, claimMany_frame]

theorem claimedFor_claimed (u : Ring) (n : Nat) (h : Handover) :
    (u.claimedFor n h).claimed = u.claimed + BitVec.ofNat 32 n := by
  rw [Ring.claimedFor, claimMany_frame]

/-- All the slots are still to be claimed. -/
theorem missing_eq {u : Ring} {h : Handover} (h0 : h.h0 = u.claimed) (hn : h.count < 2 ^ 31) : missing u h = h.count := by
  have hm : h.h0 + BitVec.ofNat 32 h.count - u.claimed = BitVec.ofNat 32 h.count := by
    rw [h0, BitVec.add_comm, BitVec.add_sub_cancel]
  have hnat : (BitVec.ofNat 32 h.count).toNat = h.count := by
    rw [BitVec.toNat_ofNat, Nat.mod_eq_of_lt (by omega)]
  have hint : (BitVec.ofNat 32 h.count).toInt = h.count := by
    rw [BitVec.toInt_eq_toNat_of_lt (by omega), hnat]
  rw [missing, hm]
  simp only [hint, hnat]
  split <;> omega

/-- The state once a sender of a hand-over has released and arrived. -/
def State.arrived (s : State) (u : Ring) (h : Handover) (num : Nat) : State :=
  ((s.release 1).upd (fun c => { c with sent := (h.handle, num) :: c.sent.filter (fun e => e.1 != h.handle) })).setRing
    (u.setHandover { h with arrived := h.arrived ++ [(s.release 1).cpu.id] })

/-- A sender of an idle cell that need not wait arrives. -/
theorem arriveHandoff_of_free {s : State} (hi : s.cpu.pending = []) (hw : s.releaseWaits 1 = false) (he : s.cpu.eager = false)
    (u : Ring) (h : Handover) (num : Nat) : arriveHandoff s u h num = .next (s.arrived u h num).advance := by
  have hquiet : s.cpu.memoryQuiet = true := by rw [Cell.memoryQuiet, hi]; rfl
  have heager : (s.arrived u h num).cpu.eager = false := by
    show (s.release 1).cpu.eager = false
    rw [release_cpu, he]
  have hsettle := settleRing_of_not_eager heager (u.setHandover { h with arrived := h.arrived ++ [(s.release 1).cpu.id] })
  simp only [arriveHandoff, hquiet, hw, Bool.not_true, Bool.false_eq_true, if_false]
  exact congrArg (fun t : State => Host.Outcome.next t.advance) hsettle

theorem arrived_rings (s : State) (u : Ring) (h : Handover) (num : Nat) : (s.arrived u h num).rings =
    (s.setRing (u.setHandover { h with arrived := h.arrived ++ [(s.release 1).cpu.id] })).rings :=
  congrArg (List.map _) (release_rings s 1)

theorem keepsFlow_arrived (s : State) (u : Ring) (h : Handover) (num : Nat) : KeepsFlow s.cpu (s.arrived u h num).cpu :=
  (keepsFlow_release s 1).trans rfl

theorem Cell.rangesBusy_of_idle {c : Cell} (h : c.pending = []) (rs : List Range) : c.rangesBusy rs = false := by
  rw [Cell.rangesBusy, h]
  rfl

/-- The sole sender claims its slots and goes on to arrive. -/
theorem sendHandoff_sole {s : State} {u : Ring} {q snd rcv n : Nat} (hi : s.cpu.pending = []) (hwait : u.waiters = [])
    (hh : u.handovers = []) (hhead : u.head = u.claimed) (hroom : n ≤ u.room) (hn : n < 2 ^ 31) :
    let h := claimedHandover s.cpu q snd rcv n u.head
    let v := u.claimedFor n h
    sendHandoff s u q snd rcv n = arriveHandoff (s.setRing v) v h (sentOf s.cpu q + 1) := by
  intro h v
  set k := newHandover s.cpu q snd rcv n u.head
  set w : Ring := { u with handovers := [k] }
  have hnone (num : Nat) : u.handover s.cpu.team snd q num = none := by rw [Ring.handover, hh]; rfl
  have hmissing : missing w k = n := missing_eq hhead hn
  have hsame : h.same k = true := Handover.same_self k
  have hclaimed : (Ring.claimMany n w).setHandover h = v := by
    rw [claimMany_handovers]
    exact setHandover_only rfl hsame
  have hcluster : v.cluster = w.cluster := claimedFor_cluster ..
  have hunit : v.unit = w.unit := claimedFor_unit ..
  have hstart : sendHandoff s u q snd rcv n = if missing w k = 0 then
        arriveHandoff (s.setRing (w.setHandover h)) (w.setHandover h) h (sentOf s.cpu q + 1)
      else ringWait (s.setRing w) w .claim (missing w k ≤ w.room) (fun t x =>
        arriveHandoff (t.setRing ((Ring.claimMany (missing w k) x).setHandover h)) ((Ring.claimMany (missing w k) x).setHandover h) h
          (sentOf s.cpu q + 1)) := by
    unfold sendHandoff firstIndex
    simp only [hnone, hh, List.nil_append, Cell.rangesBusy_of_idle hi, ne_eq, not_true_eq_false, decide_false, Bool.or_self,
      Bool.false_eq_true, if_false]
    rfl
  rw [hstart, hmissing]
  split
  · rename_i h0
    rw [h0] at hclaimed
    rw [← hclaimed]
    rfl
  · rw [ringWait_first (u := w) hwait (decide_eq_true (p := n ≤ w.room) hroom), hclaimed,
      setRing_setRing _ rfl rfl, setRing_setRing _ hcluster hunit]

/-- The sole sender of an idle cell claims the slots of its hand-over, releases and has arrived (R112). -/
theorem completes_sole_sender {i : Instr} {s : State} {u : Ring} {q snd rcv n : Nat}
    (hexec : exec i s = sendHandoff s u q snd rcv n) (hu : s.ringOf q = some u) (hi : s.cpu.pending = [])
    (he : s.cpu.eager = false) (hw : s.releaseWaits 1 = false) (hwait : u.waiters = []) (hh : u.handovers = [])
    (hhead : u.head = u.claimed) (hroom : n ≤ u.room) (hn : n < 2 ^ 31) : Completes i s (fun t =>
      t.cpu.pc = (s.cpu.flowTo (s.cpu.pc + 4)).pc ∧ t.mem = (s.release 1).mem ∧ t.sp = s.sp ∧ t.cpu.x = s.cpu.x ∧
      t.ringOf q = some (u.claimedFor n (arrivedHandover s.cpu q snd rcv n u.head))) := by
  set h := claimedHandover s.cpu q snd rcv n u.head
  set v := u.claimedFor n h
  set w := u.claimedFor n (arrivedHandover s.cpu q snd rcv n u.head)
  have hfree := arriveHandoff_of_free (s := s.setRing v) hi hw he v h (sentOf s.cpu q + 1)
  have hk : KeepsFlow s.cpu ((s.setRing v).arrived v h (sentOf s.cpu q + 1)).cpu := keepsFlow_arrived (s.setRing v) v h _
  have hid : ((s.setRing v).release 1).cpu.id = s.cpu.id := by rw [release_cpu]; rfl
  have hlast : v.setHandover { h with arrived := h.arrived ++ [((s.setRing v).release 1).cpu.id] } = w := by
    rw [hid]
    exact setHandover_only rfl (Handover.same_self h)
  have hrings : ((s.setRing v).arrived v h (sentOf s.cpu q + 1)).rings = (s.setRing w).rings := by
    rw [arrived_rings, hlast, setRing_setRing s (v := v) (w := w) rfl rfl]
  refine ⟨_, hexec.trans ((sendHandoff_sole hi hwait hh hhead hroom hn).trans hfree), hk.advance_pc, ?_,
    release_sp (s.setRing v) 1, ?_, hk.advance_ringOf hu (claimedFor_cluster ..) (claimedFor_unit ..) hrings⟩
  · show ((s.setRing v).release 1).mem = (s.release 1).mem
    rw [release_setRing]
    rfl
  · rw [hk.advance_cpu]
    show ((s.setRing v).release 1).cpu.x = s.cpu.x
    rw [release_cpu]
    rfl

/-! ### handoff, and the commit (R111 to R114, R165) -/

theorem Ring.commit_frame {u : Ring} {h : Handover} (hh : u.handovers = [h]) : u.commit h = { u with
    head := (u.commit h).head
    pHead := (u.commit h).pHead
    taken := u.taken + BitVec.ofNat 32 h.count
    pTaken := (u.commit h).pTaken
    slots := (u.commit h).slots
    handovers := [{ h with committed := true }] } := by
  unfold Ring.commit
  simp only [hh, List.map_singleton, Handover.same_self, if_true]
  rw [passHead_frame, commitMany_frame]

/-- The only unit of the package commits its only hand-over, which is ready. -/
theorem commitRing_only {s : State} {u : Ring} {h : Handover} (hr : s.rings = [u]) (hh : u.handovers = [h])
    (hc : h.committed = false) (hd : h.complete (s.roleSize h.team h.sender) = true) (h0 : h.h0 = u.taken) :
    s.commitRing u.cluster u.unit 1 = (s.setRing (u.commit h)).wakeRing u := by
  have hfind : s.rings.find? (fun v => v.cluster == u.cluster && v.unit == u.unit) = some u := by
    rw [hr, List.find?_singleton, beq_self_eq_true, beq_self_eq_true]
    rfl
  have hready : readyHandover s u = some h := by
    rw [readyHandover, hh, List.find?_singleton, hc, hd, h0, decide_eq_true rfl]
    rfl
  simp only [State.commitRing, hfind, hready]

theorem setRing_only {s : State} {u w : Ring} (hr : s.rings = [u]) (hc : w.cluster = u.cluster) (hn : w.unit = u.unit) :
    (s.setRing w).rings = [w] := by
  rw [State.setRing, hr, List.map_singleton, hc, hn]
  simp

section
variable {v : BitVec 3} {q : BitVec 4} {n : BitVec 8} {sc : BitVec 3} {s : State}

theorem exec_handoff_of_other (hs : s.cpu.role ≠ sc.toNat) (hr : s.cpu.role ≠ v.toNat) :
    exec (.handoff v q n sc) s = .next s.advance := by
  rw [exec_handoff, execHandoff]
  exact if_pos (by rw [decide_eq_true hs, decide_eq_true hr]; rfl)

variable (hrole : s.cpu.role = sc.toNat ∨ s.cpu.role = v.toNat)
include hrole

theorem not_otherRole : ¬ (s.cpu.role ≠ sc.toNat && s.cpu.role ≠ v.toNat) = true := by
  rw [Bool.and_eq_true, decide_eq_true_eq, decide_eq_true_eq]
  tauto

theorem exec_handoff_of_unbound (hn : s.cpu.roleCount sc.toNat = 0 ∨ s.cpu.roleCount v.toNat = 0) :
    exec (.handoff v q n sc) s = .next (s.trap 0x0B (BitVec.ofNat 64 (sc.toNat + 8 * v.toNat))) := by
  rw [exec_handoff, execHandoff]
  refine (if_neg (not_otherRole hrole)).trans (if_pos ?_)
  rwa [Bool.or_eq_true, decide_eq_true_eq, decide_eq_true_eq]

/-- A hand-over between bound roles is its sender's or its receiver's side. -/
theorem exec_handoff_of_bound (hsc : s.cpu.roleCount sc.toNat ≠ 0) (hv : s.cpu.roleCount v.toNat ≠ 0) {u : Ring}
    (hu : s.ringOf q.toNat = some u) (hn : n.toNat ≤ u.nslots) : exec (.handoff v q n sc) s =
      if s.cpu.role = sc.toNat then sendHandoff s u q.toNat sc.toNat v.toNat n.toNat else receiveHandoff s u q.toNat sc.toNat := by
  have hbound : ¬ (s.cpu.roleCount sc.toNat = 0 || s.cpu.roleCount v.toNat = 0) = true := by
    rw [Bool.or_eq_true, decide_eq_true_eq, decide_eq_true_eq, not_or]
    exact ⟨hsc, hv⟩
  rw [exec_handoff, execHandoff]
  refine (if_neg (not_otherRole hrole)).trans ((if_neg hbound).trans ?_)
  rw [withRing_of_ring hu]
  exact if_neg (Nat.not_lt.mpr hn)

end

section
variable {s : State} {u : Ring} {h : Handover} {q snd : Nat} (hr : s.cpu.received = []) (hh : u.handovers = [h])
  (hteam : h.team = s.cpu.team) (hsnd : h.sender = snd) (hq : h.handle = q) (hrcv : h.receiver = s.cpu.role)
include hr hh hteam hsnd hq hrcv

/-- The receiver's side of the only hand-over of a unit, the first that it executes (R113). -/
theorem receiveHandoff_only : receiveHandoff s u q snd = if h.committed then .next ((s.acquire 1).upd (fun c => { c with
      received := ((snd, q), 1) :: c.received.filter (fun e => e.1 != (snd, q)) })).advance else .next s := by
  have hfirst : receivedOf s.cpu snd q = 0 := by rw [receivedOf, hr]; rfl
  have hmine : u.handovers.filter (fun h => h.team == s.cpu.team && h.sender == snd && h.handle == q && h.receiver == s.cpu.role) =
      [h] := by
    rw [hh, List.filter_singleton, hteam, hsnd, hq, hrcv]
    simp
  simp only [receiveHandoff, hfirst, hmine, List.getElem?_cons_zero]
  cases h.committed <;> rfl

theorem completes_receiver {i : Instr} (hexec : exec i s = receiveHandoff s u q snd) (hc : h.committed = true) :
    Completes i s (fun t => t.cpu.pc = (s.cpu.flowTo (s.cpu.pc + 4)).pc ∧ t.cpu.l1 = (s.acquire 1).cpu.l1 ∧ t.cpu.x = s.cpu.x ∧
      t.rings = s.rings ∧ SameMemory s t) := by
  have hk : KeepsFlow s.cpu ((s.acquire 1).upd (fun c => { c with
      received := ((snd, q), 1) :: c.received.filter (fun e => e.1 != (snd, q)) })).cpu := (keepsFlow_acquire s 1).trans rfl
  refine ⟨_, hexec.trans ((receiveHandoff_only hr hh hteam hsnd hq hrcv).trans (if_pos hc)), hk.advance_pc, ?_, ?_, rfl,
    fun _ => rfl, fun _ => rfl⟩
  · rw [hk.advance_cpu]
    rfl
  · rw [hk.advance_cpu]
    rfl

end

/-- Settles O37: a handle is bound by what the cluster knows; with nobody before it a word goes on at once; a hand-over is claimed and
released by its sender, committed by the unit, and acquired by its receiver. -/
theorem ringsAndHandovers : Obligations.RingsAndHandovers := by
  unfold Obligations.RingsAndHandovers
  refine ⟨?_, ?_, ?_⟩
  · intro b a q d r s he hr g key known bound
    have hab : s.cpu.ready [a, b] = true := Cell.ready_of_subset hr (by simp)
    have hdb : s.cpu.ready [d, b] = true := Cell.ready_of_subset hr (by simp)
    refine ⟨fun hg => ?_, fun hg hk hok ho => ⟨fun u hu hug => ?_, fun n hu hn hfree hlow => ?_⟩,
      exec_ringinit_of_bad_geometry he hab, exec_ringWord_of_none he hdb⟩
    · exact completes_bindHandle (exec_ringinit_of_zero he hab hg) rfl rfl rfl
    · exact completes_bindHandle (exec_ringinit_of_known he hab hg hk hok ho hu hug) rfl rfl rfl
    · exact completes_bindHandle (exec_ringinit_of_unknown he hab hg hk hok ho hu (freeUnit_eq_some hn hfree hlow)) rfl rfl rfl
  · intro b q d r u s he hi hu hw hh i ref kept gets
    exact ⟨completes_ringclaim he hi hu hw, completes_ringcommit he hi hu hh, completes_ringtake he hi hu hw hh,
      completes_ringfree he hi hu, fun hb =>
        ⟨completes_waitCount ((exec_waitfill ..).trans (frontWord_ready he (Cell.ready_of_idle hi _) _)) hu hw hb,
          completes_waitCount ((exec_waitfree ..).trans (frontWord_ready he (Cell.ready_of_idle hi _) _)) hu hw hb⟩⟩
  · intro v q n sc u s hu hn snd rcv
    refine ⟨fun hs hr => ⟨_, exec_handoff_of_other hs hr, stepped_advance s⟩, exec_handoff_of_unbound, ?_, ?_, ?_⟩
    · intro hrole hsc hv hi he hw hwait hh hhead hroom
      have hexec := (exec_handoff_of_bound (.inl hrole) hsc hv hu hn).trans (if_pos hrole)
      obtain ⟨t, ht, hpc, hmem, hsp, hx, hring⟩ := completes_sole_sender hexec hu hi he hw hwait hh hhead hroom
        (n.isLt.trans (by decide))
      refine ⟨t, ht, hpc, hmem, hsp, hx, _, _, hring, ?_, rfl, rfl, rfl, rfl, rfl, rfl, rfl, rfl, rfl, rfl⟩
      rw [claimedFor_claimed, BitVec.ofNat_toNat]
    · intro hrole hne hsc hv hrec h hh hteam hsnd hq hrcv
      have hexec := (exec_handoff_of_bound (.inr hrole) hsc hv hu hn).trans (if_neg fun e => hne (hrole.symm.trans e))
      have hrole' := hrcv.trans hrole.symm
      exact ⟨completes_receiver hrec hh hteam hsnd hq hrole' hexec,
        fun hc => hexec.trans ((receiveHandoff_only hrec hh hteam hsnd hq hrole').trans (if_neg (Bool.eq_false_iff.mp hc)))⟩
    · intro h hr hh hc hd h0
      have hexec : exec (.handoffCommit u.cluster u.unit) s = .next ((s.setRing (u.commit h)).wakeRing u) := by
        rw [exec_handoffCommit, execHandoffCommit, commitRing_only hr hh hc hd h0]
      have hcluster : (u.commit h).cluster = u.cluster := by rw [Ring.commit_frame hh]
      have hunit : (u.commit h).unit = u.unit := by rw [Ring.commit_frame hh]
      exact ⟨_, hexec, u.commit h, setRing_only hr hcluster hunit, by rw [Ring.commit_frame hh], by rw [Ring.commit_frame hh],
        ⟨fun _ => rfl, fun _ => rfl⟩, by rw [wakeRing_cpu]; rfl, by rw [wakeRing_cpu]; rfl⟩

end Sys2Proof.Machine

/-! # Proofs: slot words and matrix control (O40) -/

namespace Sys2Proof.Machine

/-! ### A command that goes line by line (R188) -/

/-- A command of which the engine has done `q` lines. -/
def Cmd.atLine (d : Cmd) : Nat → Cmd
  | 0 => d
  | q + 1 => { d with progress := q + 1, started := true }

theorem Cmd.progress_atLine {d : Cmd} (h : d.progress = 0) (q : Nat) : (d.atLine q).progress = q := by
  cases q
  · exact h
  · rfl

theorem Cmd.slotAt_atLine (d : Cmd) (q : Nat) (o : BitVec 4) : (d.atLine q).slotAt o = d.slotAt o := by
  cases q <;> rfl

/-- The engine takes its only command through `m + 1` lines, where `st q` is what stands after `q` of them. -/
theorem drive_lines {unit : Cmd → State → EngOut} {d : Cmd} {st : Nat → State} {fin : State} {n : Nat}
    (hs : ∀ q, (st q).cpu.poison = []) (hfin : fin.cpu.poison = [])
    (hmore : ∀ q, q < n → unit (d.atLine q) ((st q).queued [d.atLine q]) =
      .more { d.atLine q with progress := q + 1 } ((st (q + 1)).queued [d.atLine q]))
    (hdone : unit (d.atLine n) ((st n).queued [d.atLine n]) = .done (fin.queued [d.atLine n])) (fuel m : Nat) :
    ∀ {q : Nat}, q + m = n → ((st q).queued [d.atLine q]).drive unit 0 (fuel + m + 1) = fin.queued [] := by
  induction m with
  | zero =>
    rintro q rfl
    exact drive_done (queued_pending ..) (hs q) hdone (queued_pending ..) hfin fuel
  | succ m ih =>
    intro q hq
    refine (drive_more (queued_pending ..) (hs q) (hmore q (by omega)) (queued_pending ..) (hs (q + 1)) (fuel + m + 1)).trans ?_
    have hnext : { d.atLine q with progress := q + 1, started := true } = d.atLine (q + 1) := by cases q <;> rfl
    rw [hnext]
    exact ih (by omega)

/-! ### Runs of lines of which the last one on a place stands -/

section
variable {σ γ : Type} {step : σ → Nat → σ} {obs : σ → γ} {hit : Nat → Prop} [DecidablePred hit] {v : Nat → γ}
  (h : ∀ t q, obs (step t q) = if hit q then v q else obs t) {n : Nat} (s : σ)
include h

theorem obs_foldl_range : obs ((List.range n).foldl step s) =
    (((List.range n).reverse.find? (fun q => decide (hit q))).map v).getD (obs s) :=
  (foldl_observed (inv := fun _ => True) (p := fun q => decide (hit q)) _ (fun _ _ _ => trivial)
    (fun q _ t _ => by simpa only [decide_eq_true_eq] using h t q) trivial).2

theorem obs_foldl_range_of_hit {i : Nat} (hi : i < n) (hhit : hit i) (hlast : ∀ j, j < n → hit j → j = i) :
    obs ((List.range n).foldl step s) = v i := by
  rw [obs_foldl_range h, find?_reverse_range hi (decide_eq_true hhit)
    fun j hj hn => decide_eq_false fun hhit => Nat.ne_of_gt hj (hlast j hn hhit)]
  rfl

theorem obs_foldl_range_of_not_hit (hno : ∀ j, j < n → ¬ hit j) : obs ((List.range n).foldl step s) = obs s := by
  have hfind : (List.range n).reverse.find? (fun q => decide (hit q)) = none := by simpa using hno
  rw [obs_foldl_range h, hfind]
  rfl

end

/-! ### Rows and columns of a tile (R188) -/

/-- Row or column `p` of a tile. -/
def tileLine (col : Bool) (x : Tile) (p : Nat) : VReg := if col then tileCol x p else tileRow x p

/-- The row or column of a tile that line `q` of a command from `t` on names; they wrap after 31. -/
def wrapLine (t : BitVec 5) (q : Nat) : Nat := (t.toNat + q) % 32

theorem wrapLine_lt (t : BitVec 5) (q : Nat) : wrapLine t q < 32 := Nat.mod_lt _ (by decide)

theorem wrapLine_injective (t : BitVec 5) {n p q : Nat} (hn : n ≤ 32) (hp : p < n) (hq : q < n)
    (h : wrapLine t p = wrapLine t q) : p = q := by
  unfold wrapLine at h
  omega

theorem lane_tileCol (x : Tile) (p : Nat) {i : Nat} (hi : i < 32) : lane (tileCol x p) i = lane (tileRow x i) p :=
  lane_ofLanes _ _ hi

/-- Registers with the same lanes are equal. -/
theorem VReg.eq_of_lane_eq {v w : VReg} (h : ∀ i, i < 32 → lane v i = lane w i) : v = w := by
  apply BitVec.eq_of_getLsbD_eq
  intro b hb
  have hbit := congrArg (fun x : Lane => x.getLsbD (b % 32)) (h (b / 32) (by omega))
  simpa [lane, BitVec.getLsbD_extractLsb', Nat.mod_lt, Nat.div_add_mod] using hbit

theorem tileCol_setTileCol (x : Tile) {p q : Nat} (hp : p < 32) (v : VReg) :
    tileCol (setTileCol x q v) p = if p = q then v else tileCol x p := by
  refine VReg.eq_of_lane_eq fun i hi => ?_
  rw [lane_tileCol _ _ hi, setTileCol, tileRow_ofFn _ hi, lane_setLane _ _ _ hp, apply_ite (lane · i), lane_tileCol _ _ hi]

/-- Writing a line replaces it and leaves the others. -/
theorem tileLine_setSlotLine (col : Bool) (x : Tile) (t : BitVec 5) (q : Nat) (v : VReg) {p : Nat} (hp : p < 32) :
    tileLine col (setSlotLine col x t q v) p = if wrapLine t q = p then v else tileLine col x p := by
  cases col
  · show tileRow (setTileRow x (wrapLine t q) v) p = _
    rw [tileRow_setTileRow, Nat.mod_eq_of_lt hp, Nat.mod_eq_of_lt (wrapLine_lt t q)]
    exact if_congr eq_comm rfl rfl
  · exact (tileCol_setTileCol x hp v).trans (if_congr eq_comm rfl rfl)

/-- A tile after the first `n` lines of an accwr. -/
def linesWritten (col : Bool) (x : Tile) (t : BitVec 5) (v : Nat → VReg) (n : Nat) : Tile :=
  (List.range n).foldl (fun y q => setSlotLine col y t q (v q)) x

theorem linesWritten_succ (col : Bool) (x : Tile) (t : BitVec 5) (v : Nat → VReg) (n : Nat) :
    linesWritten col x t v (n + 1) = setSlotLine col (linesWritten col x t v n) t n (v n) := by
  rw [linesWritten, List.range_succ, List.foldl_concat, linesWritten]

section
variable {n : Nat} (col : Bool) (x : Tile) (t : BitVec 5) (v : Nat → VReg)

theorem tileLine_linesWritten (hn : n ≤ 32) {q : Nat} (hq : q < n) :
    tileLine col (linesWritten col x t v n) (wrapLine t q) = v q :=
  obs_foldl_range_of_hit (obs := fun y => tileLine col y (wrapLine t q)) (hit := fun k => wrapLine t k = wrapLine t q)
    (fun y k => tileLine_setSlotLine col y t k (v k) (wrapLine_lt t q)) x hq rfl
    fun _ hj hhit => wrapLine_injective t hn hj hq hhit

theorem tileLine_linesWritten_of_ne {p : Nat} (hp : p < 32) (hne : ∀ q, q < n → p ≠ wrapLine t q) :
    tileLine col (linesWritten col x t v n) p = tileLine col x p :=
  obs_foldl_range_of_not_hit (obs := fun y => tileLine col y p) (hit := fun k => wrapLine t k = p)
    (fun y k => tileLine_setSlotLine col y t k (v k) hp) x fun q hq hhit => hne q hq hhit.symm

end

/-! ### Runs of registers (R188) -/

theorem regAt_toNat {d : BitVec 5} {n q : Nat} (hd : d.toNat + n ≤ 32) (hq : q < n) : (regAt d q).toNat = d.toNat + q := by
  rw [regAt, BitVec.toNat_add, BitVec.toNat_ofNat]
  omega

/-- A cell with registers `d` to `d + n - 1` read from `f`. -/
def Cell.regsRead (c : Cell) (d : BitVec 5) (f : Nat → VReg) (n : Nat) : Cell :=
  (List.range n).foldl (fun c q => c.wv (regAt d q) (f q)) c

theorem Cell.regsRead_succ (c : Cell) (d : BitVec 5) (f : Nat → VReg) (n : Nat) :
    c.regsRead d f (n + 1) = (c.regsRead d f n).wv (regAt d n) (f n) := by
  rw [Cell.regsRead, List.range_succ, List.foldl_concat, Cell.regsRead]

theorem Cell.regsRead_frame (c : Cell) (d : BitVec 5) (f : Nat → VReg) (n : Nat) :
    c.regsRead d f n = { c with v := (c.regsRead d f n).v } := by
  induction n with
  | zero => rfl
  | succ n ih => rw [Cell.regsRead_succ, ih]; rfl

theorem Cell.rv_regsRead {n q : Nat} {d : BitVec 5} (hd : d.toNat + n ≤ 32) (hq : q < n) (c : Cell) (f : Nat → VReg) :
    (c.regsRead d f n).rv (regAt d q) = f q := by
  refine obs_foldl_range_of_hit (obs := fun e : Cell => e.rv (regAt d q)) (v := f)
    (fun e k => Cell.rv_wv e (regAt d k) _ (f k)) c hq rfl fun j hj hhit => ?_
  have hnat := congrArg BitVec.toNat hhit
  rw [regAt_toNat hd hj, regAt_toNat hd hq] at hnat
  omega

theorem Cell.rv_regsRead_of_outside {n : Nat} {d x : BitVec 5} (hd : d.toNat + n ≤ 32)
    (hx : x.toNat < d.toNat ∨ d.toNat + n ≤ x.toNat) (c : Cell) (f : Nat → VReg) : (c.regsRead d f n).rv x = c.rv x := by
  refine obs_foldl_range_of_not_hit (obs := fun e : Cell => e.rv x) (v := f)
    (fun e k => Cell.rv_wv e (regAt d k) _ (f k)) c fun j hj hhit => ?_
  have hnat := congrArg BitVec.toNat hhit
  rw [regAt_toNat hd hj] at hnat
  omega

/-- A state whose cell has registers `d` to `d + n - 1` read from `f`. -/
def State.regsRead (s : State) (d : BitVec 5) (f : Nat → VReg) (n : Nat) : State := s.upd (fun c => c.regsRead d f n)

section
variable (s : State) (d : BitVec 5) (f : Nat → VReg) (n : Nat)

theorem poison_regsRead : (s.regsRead d f n).cpu.poison = s.cpu.poison := by
  rw [State.regsRead, State.upd_cpu, Cell.regsRead_frame]

theorem slot_regsRead (k : Nat) : (s.regsRead d f n).cpu.slot k = s.cpu.slot k := by
  rw [State.regsRead, State.upd_cpu, Cell.regsRead_frame]
  rfl

theorem queued_regsRead_succ (ds : List Cmd) :
    ((s.regsRead d f n).queued ds).setV (regAt d n) (f n) = (s.regsRead d f (n + 1)).queued ds := by
  simp only [State.regsRead, Cell.regsRead_succ]
  rfl

end

/-! ### Words on the slot of an offset (R175, R187, R188) -/

/-- The slot that an offset names: H − 1 − o (R175). -/
def Cell.offsetSlot (c : Cell) (o : BitVec 4) : Fin 24 := c.slotIx (c.accH.toNat + 2 ^ 32 - 1 - o.toNat)

/-- The slot `k` becomes `x` and takes the epilogue mode into its tag, and nothing else changes but the step to the next word. -/
structure SlotWritten (s : State) (k : Fin 24) (x : Tile) (t : State) : Prop where
  slot : t.cpu.acc[k] = x
  others : ∀ j : Fin 24, j ≠ k → t.cpu.acc[j] = s.cpu.acc[j] ∧ t.cpu.accTag[j] = s.cpu.accTag[j]
  tag : t.cpu.accTag[k] = ⟨s.cpu.accTag[k].ofmt, s.cpu.epiMode⟩
  rest : t = { s with cpu := { s.cpu.flowTo (s.cpu.pc + 4) with acc := t.cpu.acc, accTag := t.cpu.accTag } }

/-- A matrix command without ranges, as its front end forwards it. -/
def matrixIssue (i : Instr) (op0 : Word) : Issue where
  instr := i
  queue := .matrix
  op0 := op0

/-- A state whose cell has `x` in the slot of a ring index, with its tag as before. -/
def State.slotFilled (s : State) (k : Nat) (x : Tile) : State := s.upd (fun c => c.fillSlot k x)

/-- A state whose cell has `x` in the slot of a ring index, tagged with the epilogue mode. -/
def State.slotTagged (s : State) (k : Nat) (x : Tile) : State := s.upd (fun c => c.setSlot k x none)

section
variable (s : State) (k : Nat) (x y : Tile) (ds : List Cmd)

theorem slotFilled_slot : s.slotFilled k (s.cpu.slot k) = s :=
  congrArg (fun a => { s with cpu := { s.cpu with acc := a } }) (Vector.set_getElem_self ..)

theorem slot_slotFilled : (s.slotFilled k x).cpu.slot k = x := Vector.getElem_set_self ..

theorem replay_queued_slotFilled : ((s.slotFilled k x).queued ds).cpu.replay = s.cpu.replay := rfl

theorem rv_slotFilled (n : BitVec 5) : (s.slotFilled k x).cpu.rv n = s.cpu.rv n := rfl

theorem queued_slotFilled_slotFilled : ((s.slotFilled k x).queued ds).slotFilled k y = (s.slotFilled k y).queued ds :=
  congrArg (fun a => ({ s with cpu := { s.cpu with acc := a } } : State).queued ds) (Vector.set_set ..)

theorem queued_slotFilled_slotTagged : ((s.slotFilled k x).queued ds).slotTagged k y = (s.slotTagged k y).queued ds :=
  congrArg (fun a => ({ s with cpu := { s.cpu.setSlot k y none with acc := a } } : State).queued ds) (Vector.set_set ..)

end

theorem unitScale_of_free {s : State} (he : ∀ d ∈ s.cpu.replay, d.isEpi = false) (o : BitVec 4) (e : Nat → Int) (w : Cmd) :
    unitScale o e w s = .done (s.slotTagged (w.slotAt o) (scaleTile (s.cpu.slot (w.slotAt o)) e)) := by
  rw [unitScale, Cell.slotsHeld_of_noEpi he, if_neg Bool.false_ne_true]
  unfold State.slotTagged State.upd
  rfl

/-- Once the only command is gone from the matrix queue, what is left is its front end past the word and what it changed of the ring
at issue. -/
theorem forwarded_queued_nil {s : State} (hi : s.cpu.pending = []) {w : Issue} (hq : w.queue = .matrix) :
    (s.forwarded w).queued [] = { s with cpu := { s.cpu.flowTo (s.cpu.pc + 4) with
      accFmt := (w.also s.cpu).accFmt
      accH := (w.also s.cpu).accH
      accT := (w.also s.cpu).accT } } := by
  rw [State.forwarded, hq, ← Cell.flowTo_idle hi, Cell.flowTo_frame]
  rfl

theorem forwarded_matrixIssue_queued_nil {s : State} (hi : s.cpu.pending = []) (i : Instr) (op0 : Word) :
    (s.forwarded (matrixIssue i op0)).queued [] = { s with cpu := s.cpu.flowTo (s.cpu.pc + 4) } := by
  rw [forwarded_queued_nil hi rfl, Cell.flowTo_frame]
  rfl

theorem slotAt_matrixIssue (s : State) (i : Instr) (op0 : Word) (o : BitVec 4) :
    s.cpu.slotIx (((matrixIssue i op0).cmd s.cpu).slotAt o) = s.cpu.offsetSlot o := s.cpu.slotIx_mod _

theorem slot_matrixIssue (s : State) (i : Instr) (op0 : Word) (o : BitVec 4) :
    s.cpu.slot (((matrixIssue i op0).cmd s.cpu).slotAt o) = s.cpu.acc[s.cpu.offsetSlot o] :=
  congrArg (fun n : Fin 24 => s.cpu.acc[n]) (slotAt_matrixIssue s i op0 o)

section
variable {r : BitVec 3} {s : State} (h : VectorReady r [] s) {i : Instr} {vs : List Nat} {regs : List (BitVec 5)} {op0 : Word}
  {o : BitVec 4} {unit : Cmd → State → EngOut} (hi : exec i s = issueSlot i vs regs op0 o r unit s)
  (hvs : s.cpu.notAllotted vs = none) (ho : o.toNat < s.cpu.live)

include h hi hvs ho in
theorem exec_slotWord : exec i s = enqueue (matrixIssue i op0) unit s := by
  rw [hi, issueSlot, h.forwardWord hvs]
  exact if_neg (Nat.not_le.mpr ho)

include h hi hvs ho in
/-- A word on a slot goes through its lines, `st q` being what stands after `q` of them. -/
theorem exec_slotWord_lines {st : Nat → State} {fin : State} {n : Nat} (hn : n < 1000) (h0 : st 0 = s.forwarded (matrixIssue i op0))
    (hs : ∀ q, (st q).cpu.poison = []) (hfin : fin.cpu.poison = [])
    (hmore : ∀ q, q < n → unit (((matrixIssue i op0).cmd s.cpu).atLine q) ((st q).queued [((matrixIssue i op0).cmd s.cpu).atLine q]) =
      .more { ((matrixIssue i op0).cmd s.cpu).atLine q with progress := q + 1 }
        ((st (q + 1)).queued [((matrixIssue i op0).cmd s.cpu).atLine q]))
    (hdone : unit (((matrixIssue i op0).cmd s.cpu).atLine n) ((st n).queued [((matrixIssue i op0).cmd s.cpu).atLine n]) =
      .done (fin.queued [((matrixIssue i op0).cmd s.cpu).atLine n])) :
    exec i s = .next (fin.queued []) := by
  obtain ⟨fuel, hfuel⟩ : ∃ fuel, unitFuel = fuel + n + 1 := ⟨1099 - n, by unfold unitFuel; omega⟩
  rw [exec_slotWord h hi hvs ho, enqueue_idle h.idle h.eager (w := matrixIssue i op0) rfl (Nat.zero_le _), hfuel,
    ← drive_lines hs hfin hmore hdone fuel n (Nat.zero_add n), h0]
  rfl

include h in
/-- What writing the slot of the offset, once the word is forwarded, makes of the state. -/
theorem slotWritten_slotTagged (x : Tile) : SlotWritten s (s.cpu.offsetSlot o) x
    (((s.forwarded (matrixIssue i op0)).slotTagged (((matrixIssue i op0).cmd s.cpu).slotAt o) x).queued []) := by
  have hk := slotAt_matrixIssue s i op0 o
  set w := matrixIssue i op0
  have hacc (j : Fin 24) := Cell.acc_setSlot (s.forwarded w).cpu ((w.cmd s.cpu).slotAt o) x none j
  have htag (j : Fin 24) := Cell.accTag_setSlot (s.forwarded w).cpu ((w.cmd s.cpu).slotAt o) x none j
  simp only [forwarded_slotIx, forwarded_acc, forwarded_accTag, forwarded_epiMode, hk, Option.getD_none] at hacc htag
  refine ⟨(hacc _).trans (if_pos rfl), fun j hj => ⟨(hacc j).trans (if_neg hj), (htag j).trans (if_neg hj)⟩,
    (htag _).trans (if_pos rfl), ?_⟩
  exact congrArg (fun u : State => { u with cpu := u.cpu.setSlot ((w.cmd s.cpu).slotAt o) x none })
    (forwarded_matrixIssue_queued_nil h.idle i _)

include h hi hvs ho in
/-- A word that scales a slot writes it in one unit. -/
theorem completes_scale (he : ∀ d ∈ s.cpu.replay, d.isEpi = false) {e : Nat → Int}
    (hu : unit ((matrixIssue i op0).cmd s.cpu) (s.forwarded (matrixIssue i op0)) =
      unitScale o e ((matrixIssue i op0).cmd s.cpu) (s.forwarded (matrixIssue i op0))) :
    Completes i s (SlotWritten s (s.cpu.offsetSlot o) (scaleTile s.cpu.acc[s.cpu.offsetSlot o] e)) := by
  have hslot := slot_matrixIssue s i op0 o
  set w := matrixIssue i op0
  have hscale : unit (w.cmd s.cpu) (s.forwarded w) =
      .done ((s.forwarded w).slotTagged ((w.cmd s.cpu).slotAt o) (scaleTile s.cpu.acc[s.cpu.offsetSlot o] e)) := by
    rw [hu, unitScale_of_free (by rwa [forwarded_replay]), forwarded_slot, hslot]
  exact ⟨_, h.exec_done (exec_slotWord h hi hvs ho) rfl (Nat.zero_le _) hscale (forwarded_pending s w)
    ((forwarded_poison s w).trans h.sound), slotWritten_slotTagged h _⟩

end

section
variable {v : BitVec 5} {o : BitVec 4} {r : BitVec 3} {s : State} (h : VectorReady r [] s) (ho : o.toNat < s.cpu.live)
  (he : ∀ d ∈ s.cpu.replay, d.isEpi = false)
include h ho he

/-- accscl takes its exponents from the lanes of its register as they stand when it is forwarded. -/
theorem completes_accscl (hv : s.cpu.notAllotted [v.toNat] = none) : Completes (.accscl v o r) s
    (SlotWritten s (s.cpu.offsetSlot o) (scaleTile s.cpu.acc[s.cpu.offsetSlot o] (fun i => (lane (s.cpu.rv v) i).toInt))) :=
  completes_scale h (exec_accscl ..) hv ho he (by rw [unitAccscl, forwarded_rv])

theorem completes_accsclX : Completes (.accsclX v o r) s
    (SlotWritten s (s.cpu.offsetSlot o) (scaleTile s.cpu.acc[s.cpu.offsetSlot o] (fun _ => (s.x v).toInt))) :=
  completes_scale h (exec_accsclX ..) rfl ho he rfl

end

/-! ### accrd and accwr (R188) -/

theorem exists_nCode_eq_succ (n : BitVec 2) : ∃ m, nCode n = m + 1 ∧ m < 8 := by
  unfold nCode
  split
  · exact ⟨0, rfl, by decide⟩
  · split
    · exact ⟨3, rfl, by decide⟩
    · exact ⟨7, rfl, by decide⟩

section
variable (col : Bool) {n : BitVec 2} (t d : BitVec 5) (o : BitVec 4) {w : Cmd} {s : State}

/-- The slot of the command with the line of its progress replaced from its register. -/
def State.lineTaken (col : Bool) (t d : BitVec 5) (o : BitVec 4) (w : Cmd) (s : State) : Tile :=
  setSlotLine col (s.cpu.slot (w.slotAt o)) t w.progress (s.cpu.rv (regAt d w.progress))

theorem unitRead_more (h : w.progress + 1 < nCode n) : unitRead col n t d o w s = .more { w with progress := w.progress + 1 }
    (s.setV (regAt d w.progress) (slotLine col (s.cpu.slot (w.slotAt o)) t w.progress)) := by
  rw [unitRead, if_neg (by omega), nextRow, if_pos h]

theorem unitRead_last (h : w.progress + 1 = nCode n) : unitRead col n t d o w s =
    .done (s.setV (regAt d w.progress) (slotLine col (s.cpu.slot (w.slotAt o)) t w.progress)) := by
  rw [unitRead, if_neg (by omega), nextRow, if_neg (by omega)]

variable (he : ∀ c ∈ s.cpu.replay, c.isEpi = false)
include he

theorem unitWrite_more (h : w.progress + 1 < nCode n) : unitWrite col n t d o w s = .more { w with progress := w.progress + 1 }
    (s.slotFilled (w.slotAt o) (s.lineTaken col t d o w)) := by
  rw [unitWrite, if_neg (by omega), Cell.slotsHeld_of_noEpi he, if_neg Bool.false_ne_true]
  simp only [nextRow, if_pos h]
  rfl

theorem unitWrite_last (h : w.progress + 1 = nCode n) : unitWrite col n t d o w s =
    .done (s.slotTagged (w.slotAt o) (s.lineTaken col t d o w)) := by
  have hend : ¬ w.progress + 1 < nCode n := by omega
  rw [unitWrite, if_neg (by omega), Cell.slotsHeld_of_noEpi he, if_neg Bool.false_ne_true]
  simp only [nextRow, if_neg hend]
  rfl

end

section
variable {r : BitVec 3} {s : State} (h : VectorReady r [] s) {i : Instr} {col : Bool} {n : BitVec 2} {t d : BitVec 5} {o : BitVec 4}
  (hvs : s.cpu.notAllotted (regRun n d) = none) (ho : o.toNat < s.cpu.live)
include h hvs ho

/-- accrd reads its lines into its registers one after another. -/
theorem exec_readLines (hi : exec i s = issueSlot i (regRun n d) [] 0 o r (unitRead col n t d o) s) :
    exec i s = .next (((s.forwarded (matrixIssue i 0)).regsRead d (slotLine col s.cpu.acc[s.cpu.offsetSlot o] t) (nCode n)).queued []) := by
  obtain ⟨m, hm, hm8⟩ := exists_nCode_eq_succ n
  have hslot := slot_matrixIssue s i 0 o
  set w := matrixIssue i 0
  set f := slotLine col s.cpu.acc[s.cpu.offsetSlot o] t
  have hsound (q : Nat) : ((s.forwarded w).regsRead d f q).cpu.poison = [] :=
    (poison_regsRead ..).trans ((forwarded_poison s w).trans h.sound)
  have hp (q : Nat) : ((w.cmd s.cpu).atLine q).progress = q := Cmd.progress_atLine rfl q
  have hline (q : Nat) (ds : List Cmd) :
      slotLine col ((((s.forwarded w).regsRead d f q).queued ds).cpu.slot ((w.cmd s.cpu).slotAt o)) t q = f q :=
    congrArg (slotLine col · t q) ((slot_regsRead ..).trans ((forwarded_slot s w _).trans hslot))
  rw [hm]
  refine exec_slotWord_lines h hi hvs ho (n := m) (by omega) rfl hsound (hsound _) (fun q hq => ?_) ?_
  · refine (unitRead_more col t d o (w := (w.cmd s.cpu).atLine q) (by rw [hp]; omega)).trans ?_
    rw [hp, Cmd.slotAt_atLine, hline, queued_regsRead_succ]
  · refine (unitRead_last col t d o (w := (w.cmd s.cpu).atLine m) (by rw [hp, hm])).trans ?_
    rw [hp, Cmd.slotAt_atLine, hline, queued_regsRead_succ]

/-- Lines of a slot are copied to a run of registers, and nothing else changes but the step to the next word. -/
theorem completes_readLines (hi : exec i s = issueSlot i (regRun n d) [] 0 o r (unitRead col n t d o) s)
    (hd : d.toNat + nCode n ≤ 32) : Completes i s (fun u =>
      (∀ q, q < nCode n → u.cpu.rv (regAt d q) = tileLine col s.cpu.acc[s.cpu.offsetSlot o] (wrapLine t q)) ∧
      (∀ x : BitVec 5, x.toNat < d.toNat ∨ d.toNat + nCode n ≤ x.toNat → u.cpu.rv x = s.cpu.rv x) ∧
      u = { s with cpu := { s.cpu.flowTo (s.cpu.pc + 4) with v := u.cpu.v } }) := by
  set f := slotLine col s.cpu.acc[s.cpu.offsetSlot o] t
  set c := (s.forwarded (matrixIssue i 0)).cpu
  have hkept (x : BitVec 5) : c.rv x = s.cpu.rv x := forwarded_rv ..
  refine ⟨_, exec_readLines h hvs ho hi, fun q hq => Cell.rv_regsRead hd hq c f,
    fun x hx => (Cell.rv_regsRead_of_outside hd hx c f).trans (hkept x), ?_⟩
  rw [State.regsRead, State.upd, Cell.regsRead_frame]
  exact congrArg (fun u : State => { u with cpu := { u.cpu with v := (c.regsRead d f (nCode n)).v } })
    (forwarded_matrixIssue_queued_nil h.idle i _)

/-- accwr writes its lines one after another; the last one tags the slot. -/
theorem exec_writeLines (he : ∀ c ∈ s.cpu.replay, c.isEpi = false)
    (hi : exec i s = issueSlot i (regRun n d) [] 0 o r (unitWrite col n t d o) s) :
    exec i s = .next (((s.forwarded (matrixIssue i 0)).slotTagged (((matrixIssue i 0).cmd s.cpu).slotAt o)
      (linesWritten col s.cpu.acc[s.cpu.offsetSlot o] t (fun q => s.cpu.rv (regAt d q)) (nCode n))).queued []) := by
  obtain ⟨m, hm, hm8⟩ := exists_nCode_eq_succ n
  have hslot := slot_matrixIssue s i 0 o
  set w := matrixIssue i 0
  set k := (w.cmd s.cpu).slotAt o
  set x := linesWritten col s.cpu.acc[s.cpu.offsetSlot o] t (fun q => s.cpu.rv (regAt d q))
  have hsound : (s.forwarded w).cpu.poison = [] := (forwarded_poison s w).trans h.sound
  have hreplay (q : Nat) (ds : List Cmd) : ∀ c ∈ (((s.forwarded w).slotFilled k (x q)).queued ds).cpu.replay, c.isEpi = false := by
    rwa [replay_queued_slotFilled, forwarded_replay]
  have hp (q : Nat) : ((w.cmd s.cpu).atLine q).progress = q := Cmd.progress_atLine rfl q
  have hfirst : (s.forwarded w).slotFilled k (x 0) = s.forwarded w := by
    have hx : x 0 = (s.forwarded w).cpu.slot k := ((forwarded_slot s w k).trans hslot).symm
    rw [hx, slotFilled_slot]
  have hline (q : Nat) (ds : List Cmd) :
      (((s.forwarded w).slotFilled k (x q)).queued ds).lineTaken col t d o ((w.cmd s.cpu).atLine q) = x (q + 1) := by
    have hold : (((s.forwarded w).slotFilled k (x q)).queued ds).cpu.slot k = x q := slot_slotFilled (s.forwarded w) k (x q)
    have hreg : (((s.forwarded w).slotFilled k (x q)).queued ds).cpu.rv (regAt d q) = s.cpu.rv (regAt d q) :=
      (rv_slotFilled (s.forwarded w) k (x q) _).trans (forwarded_rv s w _)
    rw [State.lineTaken, hp, Cmd.slotAt_atLine, hold, hreg, ← linesWritten_succ]
  rw [hm]
  refine exec_slotWord_lines h hi hvs ho (n := m) (st := fun q => (s.forwarded w).slotFilled k (x q)) (by omega) hfirst (fun _ => hsound)
    (fin := (s.forwarded w).slotTagged k (x (m + 1))) hsound (fun q hq => ?_) ?_
  · refine (unitWrite_more col t d o (hreplay _ _) (w := (w.cmd s.cpu).atLine q) (by rw [hp]; omega)).trans ?_
    rw [hline, hp, Cmd.slotAt_atLine, queued_slotFilled_slotFilled]
  · refine (unitWrite_last col t d o (hreplay _ _) (w := (w.cmd s.cpu).atLine m) (by rw [hp, hm])).trans ?_
    rw [hline, Cmd.slotAt_atLine, queued_slotFilled_slotTagged]

/-- A run of registers is copied to lines of a slot. -/
theorem completes_writeLines (he : ∀ c ∈ s.cpu.replay, c.isEpi = false)
    (hi : exec i s = issueSlot i (regRun n d) [] 0 o r (unitWrite col n t d o) s) :
    Completes i s (SlotWritten s (s.cpu.offsetSlot o)
      (linesWritten col s.cpu.acc[s.cpu.offsetSlot o] t (fun q => s.cpu.rv (regAt d q)) (nCode n))) :=
  ⟨_, exec_writeLines h hvs ho he hi, slotWritten_slotTagged h _⟩

end

/-! ### accz (R174, R175, R186) -/

theorem noteFmts_frame (f : BitVec 20) (k n : Nat) (c : Cell) : noteFmts f k n c = { c with accFmt := (noteFmts f k n c).accFmt } := by
  induction n with
  | zero => rfl
  | succ n ih => rw [noteFmts, ih]; rfl

theorem zeroSlots_frame (f : BitVec 20) (k n : Nat) (c : Cell) :
    zeroSlots f k n c = { c with acc := (zeroSlots f k n c).acc, accTag := (zeroSlots f k n c).accTag } := by
  induction n with
  | zero => rfl
  | succ n ih => rw [zeroSlots, ih]; rfl

theorem slotIx_zeroSlots (f : BitVec 20) (k n : Nat) (c : Cell) (i : Nat) : (zeroSlots f k n c).slotIx i = c.slotIx i := by
  rw [zeroSlots_frame]
  rfl

theorem epiMode_zeroSlots (f : BitVec 20) (k n : Nat) (c : Cell) : (zeroSlots f k n c).epiMode = c.epiMode := by
  rw [zeroSlots_frame]

/-- The slot is one of the `n` pushed from ring index `k` on. -/
def Cell.Pushed (c : Cell) (k n : Nat) (i : Fin 24) : Prop := ∃ j, j < n ∧ i = c.slotIx (k + j)

theorem Cell.pushed_succ_iff (c : Cell) (k n : Nat) (i : Fin 24) :
    c.Pushed k (n + 1) i ↔ c.Pushed k n i ∨ i = c.slotIx (k + n) := Nat.exists_lt_succ_right

theorem zeroSlots_of_pushed {f : BitVec 20} {k n : Nat} {c : Cell} {i : Fin 24} (h : c.Pushed k n i) :
    (zeroSlots f k n c).acc[i] = Vector.replicate 32 0 ∧ (zeroSlots f k n c).accTag[i] = ⟨f, c.epiMode⟩ := by
  induction n with
  | zero => exact absurd h.choose_spec.1 (Nat.not_lt_zero _)
  | succ n ih =>
    rw [zeroSlots, Cell.acc_setSlot, Cell.accTag_setSlot, Option.getD_some, slotIx_zeroSlots, epiMode_zeroSlots]
    by_cases hi : i = c.slotIx (k + n)
    · rw [if_pos hi, if_pos hi]
      exact ⟨rfl, rfl⟩
    · rw [if_neg hi, if_neg hi]
      exact ih (((c.pushed_succ_iff k n i).mp h).resolve_right hi)

theorem zeroSlots_of_not_pushed {f : BitVec 20} {k n : Nat} {c : Cell} {i : Fin 24} (h : ¬ c.Pushed k n i) :
    (zeroSlots f k n c).acc[i] = c.acc[i] ∧ (zeroSlots f k n c).accTag[i] = c.accTag[i] := by
  induction n with
  | zero => exact ⟨rfl, rfl⟩
  | succ n ih =>
    rw [c.pushed_succ_iff, not_or] at h
    rw [zeroSlots, Cell.acc_setSlot, Cell.accTag_setSlot, Option.getD_some, slotIx_zeroSlots, if_neg h.2, if_neg h.2]
    exact ih h.1

/-- accz as its front end forwards it. -/
def acczIssue (n : BitVec 4) (r : BitVec 3) (c : Cell) : Issue where
  instr := .accz n r
  queue := .matrix
  aux := c.ftEntry
  lv := c.loopValue
  also := fun d => { noteFmts (c.ftEntry.extractLsb' 40 20) d.accH.toNat (n.toNat + 1) d with
    accH := d.accH + BitVec.ofNat 32 (n.toNat + 1) }

theorem acczIssue_movesRing (n : BitVec 4) (r : BitVec 3) (c : Cell) : (acczIssue n r c).MovesRing c := by
  unfold Issue.MovesRing acczIssue
  dsimp only
  rw [noteFmts_frame]

theorem accT_acczIssue (n : BitVec 4) (r : BitVec 3) (c : Cell) : ((acczIssue n r c).also c).accT = c.accT := by
  show (noteFmts _ _ _ c).accT = _
  rw [noteFmts_frame]

section
variable {n : BitVec 4} {r : BitVec 3} {s : State} (h : VectorReady r [] s)
include h

theorem exec_accz_of_room (hn : s.cpu.live + n.toNat + 1 ≤ s.cpu.accS) :
    exec (.accz n r) s = enqueue (acczIssue n r s.cpu) (unitAccz n) s := by
  rw [exec_accz, execAccz, h.forwardWord (ns := []) rfl]
  exact if_neg (Nat.not_lt.mpr hn)

/-- accz zeroes and tags the slots that it pushes. -/
theorem completes_accz (he : ∀ d ∈ s.cpu.replay, d.isEpi = false) (hn : s.cpu.live + n.toNat + 1 ≤ s.cpu.accS) :
    Completes (.accz n r) s (fun t =>
      t.cpu.accH = s.cpu.accH + BitVec.ofNat 32 (n.toNat + 1) ∧ t.cpu.accT = s.cpu.accT ∧
      (∀ k, s.cpu.Pushed s.cpu.accH.toNat (n.toNat + 1) k → t.cpu.acc[k] = Vector.replicate 32 0 ∧
        t.cpu.accTag[k] = ⟨s.cpu.ftEntry.extractLsb' 40 20, s.cpu.epiMode⟩) ∧
      (∀ k, ¬ s.cpu.Pushed s.cpu.accH.toNat (n.toNat + 1) k → t.cpu.acc[k] = s.cpu.acc[k] ∧ t.cpu.accTag[k] = s.cpu.accTag[k]) ∧
      t = { s with cpu := { s.cpu.flowTo (s.cpu.pc + 4) with
        acc := t.cpu.acc
        accTag := t.cpu.accTag
        accFmt := t.cpu.accFmt
        accH := t.cpu.accH } }) := by
  set w := acczIssue n r s.cpu
  set f := s.cpu.ftEntry.extractLsb' 40 20
  set z := zeroSlots f s.cpu.accH.toNat (n.toNat + 1) (s.forwarded w).cpu with hz
  have hframe : z = { (s.forwarded w).cpu with acc := z.acc, accTag := z.accTag } := zeroSlots_frame ..
  have hu : unitAccz n (w.cmd s.cpu) (s.forwarded w) = .done { s.forwarded w with cpu := z } := by
    rw [unitAccz, Cell.slotsHeld_of_noEpi (by rwa [forwarded_replay]), if_neg Bool.false_ne_true]
    rfl
  have hpushed (k : Fin 24) : (s.forwarded w).cpu.Pushed s.cpu.accH.toNat (n.toNat + 1) k ↔
      s.cpu.Pushed s.cpu.accH.toNat (n.toNat + 1) k := by
    simp only [Cell.Pushed, forwarded_slotIx]
  have hzero (k : Fin 24) (hk : s.cpu.Pushed s.cpu.accH.toNat (n.toNat + 1) k) := zeroSlots_of_pushed (f := f) ((hpushed k).mpr hk)
  have hkept (k : Fin 24) (hk : ¬ s.cpu.Pushed s.cpu.accH.toNat (n.toNat + 1) k) :=
    zeroSlots_of_not_pushed (f := f) (mt (hpushed k).mp hk)
  rw [← hz, forwarded_epiMode] at hzero
  rw [← hz, forwarded_acc, forwarded_accTag] at hkept
  have hfinal : ({ s.forwarded w with cpu := z } : State).queued [] = { s with cpu := { s.cpu.flowTo (s.cpu.pc + 4) with
      acc := z.acc
      accTag := z.accTag
      accFmt := (w.also s.cpu).accFmt
      accH := s.cpu.accH + BitVec.ofNat 32 (n.toNat + 1) } } := by
    have hT : (w.also s.cpu).accT = (s.cpu.flowTo (s.cpu.pc + 4)).accT := by rw [accT_acczIssue, Cell.flowTo_frame]
    have hmoved := forwarded_queued_nil h.idle (w := w) rfl
    rw [hT] at hmoved
    rw [hframe]
    exact congrArg (fun u : State => { u with cpu := { u.cpu with acc := z.acc, accTag := z.accTag } }) hmoved
  have hrun := h.exec_done (exec_accz_of_room h hn) (acczIssue_movesRing n r s.cpu) (Nat.zero_le _) hu
    (by rw [hframe]; rfl) (by rw [hframe]; exact (forwarded_poison s w).trans h.sound)
  exact ⟨_, hrun.trans (congrArg Host.Outcome.next hfinal), rfl, by rw [Cell.flowTo_frame], hzero, hkept, rfl⟩

end

/-! ### mqctl (R193) -/

theorem mqctlRmOk_iff (v : Word) : mqctlRmOk v = true ↔ v.toNat < 16 ∧ (v.extractLsb' 0 3).toNat ≤ 4 := vrmOk_iff v

theorem mqctlFtbOk_iff (v : Word) : mqctlFtbOk v = true ↔ v.toNat < 64 :=
  decide_eq_true_iff.trans (extractLsb'_high_eq_zero_iff v 6 58 rfl)

section
variable {sc : BitVec 5} {r : BitVec 3} {s : State} (h : VectorReady r [] s)
include h

theorem exec_mqctlRm_of_bad (hv : mqctlRmOk (s.x sc) = false) : exec (.mqctlRm sc r) s = .next (s.trap 1 (s.x sc)) := by
  rw [exec_mqctlRm, execMqctlRm, h.forwardWord (ns := []) rfl]
  simp only [hv]
  rfl

theorem exec_mqctlFtb_of_bad (hv : mqctlFtbOk (s.x sc) = false) : exec (.mqctlFtb sc r) s = .next (s.trap 1 (s.x sc)) := by
  rw [exec_mqctlFtb, execMqctlFtb, h.forwardWord (ns := []) rfl]
  simp only [hv]
  rfl

/-- A control entry of an idle, eager cell acts on the cell at once. -/
theorem exec_matrixControl {i : Instr} {op0 : Word} {unit : Cmd → State → EngOut} {f : Cell → Cell}
    (hi : exec i s = enqueue (matrixIssue i op0) unit s)
    (hu : ∀ u, unit ((matrixIssue i op0).cmd s.cpu) u = .done (u.upd f))
    (hpending : ∀ c, (f c).pending = c.pending) (hpoison : ∀ c, (f c).poison = c.poison)
    (hf : ∀ c, { f c with pending := [] } = f { c with pending := [] }) :
    exec i s = .next { s with cpu := f (s.cpu.flowTo (s.cpu.pc + 4)) } := by
  refine (h.exec_done hi rfl (Nat.zero_le _) (hu _) ((hpending _).trans (forwarded_pending ..))
    ((hpoison _).trans ((forwarded_poison ..).trans h.sound))).trans ?_
  have hmoved := forwarded_matrixIssue_queued_nil h.idle i op0
  exact congrArg Host.Outcome.next ((congrArg (fun c => { s with cpu := c }) (hf (s.forwarded (matrixIssue i op0)).cpu)).trans
    (congrArg (fun u : State => { u with cpu := f u.cpu }) hmoved))

theorem exec_mqctlWait_of_idle : exec (.mqctlWait r) s = .next { s with cpu := s.cpu.flowTo (s.cpu.pc + 4) } := by
  have hi : exec (.mqctlWait r) s = enqueue (matrixIssue (.mqctlWait r) 0) (fun _ u => unitMqctlWait u) s := by
    rw [exec_mqctlWait, execMqctlWait, h.forwardWord (ns := []) rfl]
    rfl
  exact exec_matrixControl h hi (f := id) (fun _ => rfl) (fun _ => rfl) (fun _ => rfl) (fun _ => rfl)

theorem exec_mqctlRm_of_ok (hv : mqctlRmOk (s.x sc) = true) : exec (.mqctlRm sc r) s =
    .next { s with cpu := { s.cpu.flowTo (s.cpu.pc + 4) with epiMode := (s.x sc).setWidth 4 } } := by
  have hi : exec (.mqctlRm sc r) s = enqueue (matrixIssue (.mqctlRm sc r) (s.x sc)) unitMqctlRm s := by
    rw [exec_mqctlRm, execMqctlRm, h.forwardWord (ns := []) rfl]
    simp only [hv]
    rfl
  rw [BitVec.setWidth_eq_extractLsb' (by decide)]
  exact exec_matrixControl h hi (f := fun c => { c with epiMode := (s.x sc).extractLsb' 0 4 }) (fun _ => rfl) (fun _ => rfl) (fun _ => rfl)
    (fun _ => rfl)

theorem exec_mqctlFtb_of_ok (hv : (s.x sc).toNat < 64) : exec (.mqctlFtb sc r) s =
    .next { s with cpu := { s.cpu.flowTo (s.cpu.pc + 4) with ftbase := s.x sc } } := by
  have hi : exec (.mqctlFtb sc r) s = enqueue (matrixIssue (.mqctlFtb sc r) (s.x sc)) unitMqctlFtb s := by
    rw [exec_mqctlFtb, execMqctlFtb, h.forwardWord (ns := []) rfl]
    simp only [(mqctlFtbOk_iff _).mpr hv]
    rfl
  have hlow : zext64 ((s.x sc).extractLsb' 0 6) = s.x sc := by
    rw [← BitVec.toNat_inj, zext64, BitVec.toNat_setWidth, BitVec.extractLsb'_toNat, Nat.shiftRight_zero]
    omega
  have hu (u : State) : unitMqctlFtb ((matrixIssue (.mqctlFtb sc r) (s.x sc)).cmd s.cpu) u =
      .done (u.upd (fun c => { c with ftbase := s.x sc })) := by
    conv_rhs => rw [← hlow]
    rfl
  exact exec_matrixControl h hi hu (fun _ => rfl) (fun _ => rfl) (fun _ => rfl)

end

/-- The last command may not start while it stands behind another one of its queue. -/
theorem State.mayStart_of_behind {s : State} {l : List Cmd} {d e : Cmd} (hp : s.cpu.pending = l ++ [e]) (hs : e.started = false)
    (hd : d ∈ l) (hb : d.queuesBehind e = true) : s.mayStart l.length = false := by
  have hlast : (l ++ [e])[l.length]? = some e := List.getElem?_concat_length
  simp only [State.mayStart, hp, hlast, hs, List.take_left, Bool.false_or, List.all_eq_false]
  exact ⟨d, hd, by simp [hb]⟩

/-- A wait stands behind an earlier matrix command, with the front end past it. -/
theorem exec_mqctlWait_behind {r : BitVec 3} {s : State} (he : s.cpu.executes r = true) (hq : s.cpu.queueFull .matrix = false)
    (hr : s.cpu.rangesUsed ≤ 64) (hb : ∃ d ∈ s.cpu.pending, d.queue = .matrix) :
    exec (.mqctlWait r) s = .next { s with cpu := { s.cpu.flowTo (s.cpu.pc + 4) with
      pending := s.cpu.pending ++ [(matrixIssue (.mqctlWait r) 0).cmd s.cpu] } } := by
  set w := matrixIssue (.mqctlWait r) 0
  have hready : s.cpu.ready [] = true := by simp [Cell.ready, Cell.busy, meets]
  have hi : exec (.mqctlWait r) s = enqueue w (fun _ u => unitMqctlWait u) s := by
    rw [exec_mqctlWait, execMqctlWait, forwardWord_ready he rfl hready hq]
    rfl
  have hpast : (s.upd w.enter).advance = { s with cpu := { s.cpu.flowTo (s.cpu.pc + 4) with
      pending := s.cpu.pending ++ [w.cmd s.cpu] } } := by
    have hflow : (w.enter s.cpu).flowTo (s.cpu.pc + 4) = _ := Cell.flowTo_congr (c := s.cpu) _ rfl rfl
    show { s with cpu := (w.enter s.cpu).flowTo (s.cpu.pc + 4) } = _
    rw [hflow, Cell.flowTo_frame s.cpu]
    rfl
  have hstay : (s.upd w.enter).advance.mayStart s.cpu.pending.length = false := by
    obtain ⟨d, hd, hm⟩ := hb
    have hbehind : d.queuesBehind (w.cmd s.cpu) = true := by
      simp [Cmd.queuesBehind, hm, w, matrixIssue, Issue.cmd, Cmd.needsEpilogue]
    exact State.mayStart_of_behind (by rw [hpast]) rfl hd hbehind
  have hroom : ¬ 64 < s.cpu.rangesUsed + w.ranges.length := Nat.not_lt.mpr hr
  rw [hi]
  unfold enqueue
  change (if _ then _ else if s.cpu.eager && (s.upd w.enter).advance.mayStart s.cpu.pending.length then _ else
    Host.Outcome.next (s.upd w.enter).advance) = _
  rw [if_neg hroom, hstay, Bool.and_false, if_neg Bool.false_ne_true, hpast]

theorem cellWaits_of_mqctlWait {s : State} {d : Cmd} {r : BitVec 3} (hd : d ∈ s.cpu.pending) (hi : d.instr = .mqctlWait r) :
    s.cellWaits = true := by
  have hwait : s.cpu.mqctlWaits = true := List.any_eq_true.mpr ⟨d, hd, by rw [hi]⟩
  simp [State.cellWaits, hwait]

/-- Element (p, q) of a scaled slot. -/
theorem lane_scaleTile (x : Tile) (e : Nat → Int) {p q : Nat} (hp : p < 32) (hq : q < 32) :
    lane (tileRow (scaleTile x e) p) q = match val32 (lane (tileRow x p) q) with
      | .fin neg m f => rn32 (.fin neg m (f + max (-1024) (min (e p) 1024)))
      | w => rn32 w := by
  rw [← clampInt_eq_max_min (by decide)]
  exact (congrArg (lane · q) (tileRow_ofFn _ hp)).trans (lane_ofLanes _ _ hq)

/-- Row `p` of the slot is row `p` of the tile that it became. -/
theorem SlotWritten.row {s u : State} {k : Fin 24} {x : Tile} (h : SlotWritten s k x u) (p : Nat) :
    tileRow u.cpu.acc[k] p = tileRow x p := by rw [h.slot]

/-- An element of the slot, as a lane of the column of the tile that it became. -/
theorem SlotWritten.lane_col {s u : State} {k : Fin 24} {x : Tile} (h : SlotWritten s k x u) {p : Nat} (hp : p < 32) (c : Nat) :
    lane (tileRow u.cpu.acc[k] p) c = lane (tileCol x c) p := by rw [h.slot, lane_tileCol _ _ hp]

/-- Settles O40: the engine takes each word on slots at once, in one unit or line by line, where no two lines share a place; a wait is
held back by any earlier command of its queue. -/
theorem slotWords : Obligations.SlotWords := by
  unfold Obligations.SlotWords
  refine ⟨fun n r s h he _ hn => ?_, fun n t0 d v o r s h he ho => ?_,
    fun sc r s hr => ⟨fun h => ?_, fun hq hranges hb => ?_, fun h => ?_⟩⟩
  · intro mine
    obtain ⟨t, ht, hH, hT, hzero, hkept, hframe⟩ := completes_accz h he hn
    have hmine (k : Fin 24) : mine k ↔ s.cpu.Pushed s.cpu.accH.toNat (n.toNat + 1) k := by
      simp only [mine, Cell.Pushed, Nat.lt_succ_iff]
    exact ⟨t, ht, hH, hT, fun k hk => hzero k ((hmine k).mp hk), fun k hk => hkept k (mt (hmine k).mpr hk), hframe⟩
  · intro k old count place reg scaled slotFrame
    have hslot {x : Tile} {u : State} (hw : SlotWritten s k x u) : slotFrame u := ⟨hw.others, hw.tag, hw.rest⟩
    have hcount : nCode n ≤ 32 := by
      obtain ⟨m, hm, hm8⟩ := exists_nCode_eq_succ n
      omega
    refine ⟨fun hv => ?scl, ?sclX, fun hvs hd => ⟨?rd, ?rdCol, ?wr, ?wrCol⟩⟩
    case scl =>
      have hallot : s.cpu.notAllotted [v.toNat] = none := (s.cpu.notAllotted_eq_none_iff _).mpr (by simpa using hv)
      obtain ⟨u, hrun, hw⟩ := completes_accscl h ho he hallot
      exact ⟨u, hrun, hslot hw, fun p q hp hq => (congrArg (lane · q) (hw.row p)).trans (lane_scaleTile _ _ hp hq)⟩
    case sclX =>
      obtain ⟨u, hrun, hw⟩ := completes_accsclX h ho he
      exact ⟨u, hrun, hslot hw, fun p q hp hq => (congrArg (lane · q) (hw.row p)).trans (lane_scaleTile _ _ hp hq)⟩
    case rd => exact completes_readLines (col := false) h hvs ho (exec_accrd ..) hd
    case rdCol =>
      obtain ⟨u, hrun, hlines, hkept, hframe⟩ := completes_readLines (col := true) h hvs ho (exec_accrdCol ..) hd
      exact ⟨u, hrun, fun q p hq hp => (congrArg (lane · p) (hlines q hq)).trans (lane_tileCol _ _ hp), hkept, hframe⟩
    case wr =>
      obtain ⟨u, hrun, hw⟩ := completes_writeLines (col := false) h hvs ho he (exec_accwr ..)
      exact ⟨u, hrun, hslot hw, fun q hq => (hw.row _).trans (tileLine_linesWritten false old t0 _ hcount hq),
        fun p hp hne => (hw.row p).trans (tileLine_linesWritten_of_ne false old t0 _ hp hne)⟩
    case wrCol =>
      obtain ⟨u, hrun, hw⟩ := completes_writeLines (col := true) h hvs ho he (exec_accwrCol ..)
      refine ⟨u, hrun, hslot hw, fun p q hp hq => ?_, fun p c hp hc hne => ?_⟩
      · exact (hw.lane_col hp _).trans (congrArg (lane · p) (tileLine_linesWritten true old t0 _ hcount hq))
      · exact (hw.lane_col hp c).trans ((congrArg (lane · p) (tileLine_linesWritten_of_ne true old t0 _ hc hne)).trans
          (lane_tileCol old c hp))
  · exact ⟨_, exec_mqctlWait_of_idle h, rfl, fun _ => rfl, fun _ => rfl⟩
  · exact ⟨_, exec_mqctlWait_behind hr hq hranges hb, cellWaits_of_mqctlWait (List.mem_append_right _ (List.mem_singleton_self _)) rfl,
      _, rfl, rfl, rfl⟩
  · refine ⟨fun hv hmode => ⟨_, exec_mqctlRm_of_ok h ((mqctlRmOk_iff _).mpr ⟨hv, hmode⟩), rfl⟩,
      fun hv => ⟨_, exec_mqctlFtb_of_ok h hv, rfl⟩, fun hv => exec_mqctlRm_of_bad h ?_, fun hv => exec_mqctlFtb_of_bad h ?_⟩
    · exact Bool.eq_false_iff.mpr fun hok => Nat.not_lt.mpr hv ((mqctlRmOk_iff _).mp hok).1
    · exact Bool.eq_false_iff.mpr fun hok => Nat.not_lt.mpr hv ((mqctlFtbOk_iff _).mp hok)

end Sys2Proof.Machine
